-- ==== Sys2Proof/Word.lean ====
section
/-! DEFINITION. The word types of the Golpor 9 (R9, R10): bytes, 32-bit instruction words, 64-bit scalars and
264-bit vector registers (256 data bits and an 8-bit rider). -/

namespace Sys2Proof

/-- One byte of memory. -/
abbrev Byte := BitVec 8

/-- One 32-bit instruction word (R69). -/
abbrev IWord := BitVec 32

/-- A 64-bit scalar or special register (R96). -/
abbrev Word := BitVec 64

/-- A vector register: data in bits [255:0], rider in bits [263:256] (R56). -/
abbrev VWord := BitVec 264

end Sys2Proof
end

