-- ==== Sys2Proof/Syntax.lean ====
section
/-! DEFINITION. The steps of the machine, whole: one constructor of `Instr` for each row of the opcode table. The first
part holds the 175 instructions (their encodings stand in Decode.lean), the second the 84 events: steps that an engine, a
dispatcher, the front end, the host, the debugger or the fabric makes. -/

namespace Sys2Proof

/-- A scalar or vector register number (R72). -/
abbrev Reg := Fin 32

/-- A predicate register number. -/
abbrev PReg := Fin 8

/-- A lane-mask register number. -/
abbrev KReg := Fin 8

/-- An immediate, displacement or branch offset: the field of the base or X word, or the 64-bit literal that replaces
it (R70, R85). -/
inductive Imm (n : Nat) where
  | short (i : BitVec n)
  | lit (v : Word)
  deriving DecidableEq, Repr

/-- The predicate fields of an X instruction (R74): it executes when P[p] XOR pn is 1. -/
structure Guard where
  pn : Bool
  p : PReg
  deriving DecidableEq, Repr

/-- Element types, in the order of their codes (R76). -/
inductive ElemTy where
  | i8 | u8 | i16 | u16 | i32 | u32 | i64 | u64 | f64 | f32 | bf16 | f16 | e4m3 | e5m2
  deriving DecidableEq, Repr

/-- The rounding field (R47, R77). -/
inductive RoundField where
  | rne | rtz | rup | rdn | rna | dyn
  deriving DecidableEq, Repr

/-- Cache hints (R71). -/
inductive Hint where
  | norm | strm | long | unc
  deriving DecidableEq, Repr

/-- Fence scopes (R11, R80). -/
inductive Scope where
  | core | cluster | die | pkg | fab | sys
  deriving DecidableEq, Repr

/-- Scalar conditions (R82). -/
inductive Cond where
  | eq | ne | lt | ge | ltu | geu
  deriving DecidableEq, Repr

/-- Vector conditions (R159); `un` and `ord` belong to `vfcmp` only. -/
inductive VCond where
  | eq | ne | lt | le | gt | ge | un | ord
  deriving DecidableEq, Repr

/-- Functions of `plog` and `kop` (R128, R170). -/
inductive LogFn where
  | and | or | xor | andn | not | mov
  deriving DecidableEq, Repr

/-- Source width of `sext` and `zext` (R123). -/
inductive ExtWidth where
  | b | h | w
  deriving DecidableEq, Repr

/-- Access sizes of `ld` (R78). -/
inductive LdSize where
  | b | h | w | d | q | bs | hs | ws
  deriving DecidableEq, Repr

/-- Access sizes of `st` (R78). -/
inductive StSize where
  | b | h | w | d | q
  deriving DecidableEq, Repr

/-- Access sizes of `vld` and `vst` (R78). -/
inductive VSize where
  | b | h | w | d | s8
  deriving DecidableEq, Repr

/-- Functions of `amo` (R278). -/
inductive AmoFn where
  | add | and | or | xor | min | max | minu | maxu | swap
  deriving DecidableEq, Repr

/-- Functions of a folded atomic (R278). -/
inductive FoldFn where
  | add | min | max | and | or | xor
  deriving DecidableEq, Repr

/-- The window selector of R153: the default window of `fpc`, or an explicit code. -/
inductive WinSel where
  | dflt
  | code (w : Fin 8)
  deriving DecidableEq, Repr

/-- The shift amount of a vector shift (R154): lane j of V[b], or an immediate. -/
inductive ShiftSrc where
  | reg (b : Reg)
  | imm (n : Fin 64)
  deriving DecidableEq, Repr

/-- The FP8 override of a conversion (R161): none, saturate or propagate. -/
inductive Fp8Ovr where
  | none | prop | sat
  deriving DecidableEq, Repr

/-- Operations of `vred` (R167). -/
inductive RedOp where
  | add | min | max
  deriving DecidableEq, Repr

/-- Matrix operand formats, in the order of their codes (R180). -/
inductive MFmt where
  | e4m3 | e5m2 | bf16 | f16 | f32 | f64 | i8 | u8
  deriving DecidableEq, Repr

/-- Accumulator tile formats (R173). -/
inductive TileFmt where
  | f32 | bf16 | f16 | i32 | f64
  deriving DecidableEq, Repr

/-- The accumulator field of the matrix control word (R180): `full` is f32, or f64 with f64 operands. -/
inductive AccSel where
  | full | bf16 | f16 | i32
  deriving DecidableEq, Repr

/-- Scale modes of the matrix engine (R180). -/
inductive ScaleMode where
  | none | blk | e8m0
  deriving DecidableEq, Repr

/-- Where an `mmac` takes its A operand (R184). -/
inductive ASrc where
  | localMem (a stride : Reg)
  | qa
  | bypass
  deriving DecidableEq, Repr

/-- The matrix control word of `mmac` and `mmacs`, without the sparse fields (R180), with imm13's block numbers. -/
structure MacCtl where
  zf : Bool
  slot : Fin 8
  tile : Fin 8
  scale : ScaleMode
  window : Fin 8
  acc : AccSel
  bfmt : MFmt
  afmt : MFmt
  col : Fin 4
  kb : Fin 32
  deriving DecidableEq, Repr

/-- N:M sparsity (R180): N − 1 modulo 32 is not stored; `n` is the field value (0 stands for 32), `mCode` selects
M = 4, 8, 16 or 32. -/
structure Sparsity where
  n : Fin 32
  mCode : Fin 4
  deriving DecidableEq, Repr

/-- Where `mwld` takes its image (R192): an address and displacement with an optional sparse side array, or a layout
record. -/
inductive MwldSrc where
  | dense (a : Reg) (imm : Imm 13)
  | sparse (a : Reg) (imm : Imm 13) (sp : Sparsity) (b : Reg)
  | recDense (a : Reg)
  | recSparse (a : Reg) (sp : Sparsity)
  deriving DecidableEq, Repr

/-- The conversion control word (R161), without the FP8 override. -/
structure CvtCtl where
  scaled : Bool
  isat : Bool
  part : Fin 8
  src : ElemTy
  deriving DecidableEq, Repr

/-- The length or count of `cpy` and `cpyr` (R221): a register, or imm13 or its literal. -/
inductive LenSrc where
  | reg (c : Reg)
  | imm (n : Imm 13)
  deriving DecidableEq, Repr

/-- The target kind of `get` and `put` (R227): global space, or the local window of core `core` of the cluster. -/
inductive PutTarget where
  | glob
  | crossbar (core : Fin 16)
  deriving DecidableEq, Repr

/-- Operations of a collective (R471). -/
inductive CollOp where
  | allGather | reduceScatter | allReduce | broadcast | allToAll
  deriving DecidableEq, Repr

/-- What a `qdb` command names: a whole launch or one thread set (R390). -/
inductive HaltTarget where
  | launch (l : Nat)
  | tset (t : Nat)
  deriving DecidableEq, Repr

/-- A die of a package, none for this one: the dispatcher of a partition of a launch (R327). -/
structure DieOf where
  pkg : Option (BitVec 8) := none
  die : Fin 8
  deriving DecidableEq, Repr

/-- An ECC word (R276): its address in device memory, or in the local memory of a core (R205). -/
inductive EccWord where
  | device (addr : Nat)
  | window (core addr : Nat)
  deriving DecidableEq, Repr

/-- The AtomicOps of the host port (R421). -/
inductive HostOp where
  | fetchAdd (v : Nat)
  | swap (v : Nat)
  | cas (expect new : Nat)
  deriving DecidableEq, Repr

/-- What an import request of a peer asks for (R459). -/
inductive ImportOp where
  | read
  | write (v : Nat)
  | amo (fn : AmoFn) (v : Nat)
  | cas (expect new : Nat)
  | fold (fn : FoldFn) (et : ElemTy) (v : Nat)
  deriving DecidableEq, Repr

/-- The steps of the machine: one constructor per row of the opcode table. -/
inductive Instr where
  -- system (R116)
  | mfsr (d : Reg) (n : BitVec 8)
  | mtsr (a : Reg) (n : BitVec 8)
  | trap (d a : Reg) (code : BitVec 8)
  | brk (code : BitVec 8)
  -- integer register operations (R120)
  | add (d a b : Reg)
  | sub (d a b : Reg)
  | mul (d a b : Reg)
  | mulh (d a b : Reg)
  | mulhu (d a b : Reg)
  | div (d a b : Reg)
  | divu (d a b : Reg)
  | rem (d a b : Reg)
  | remu (d a b : Reg)
  | and (d a b : Reg)
  | or (d a b : Reg)
  | xor (d a b : Reg)
  | andn (d a b : Reg)
  | shl (d a b : Reg)
  | shr (d a b : Reg)
  | sra (d a b : Reg)
  | rotr (d a b : Reg)
  | min (d a b : Reg)
  | max (d a b : Reg)
  | minu (d a b : Reg)
  | maxu (d a b : Reg)
  | clz (d a : Reg)
  | ctz (d a : Reg)
  | popc (d a : Reg)
  | sext (wd : ExtWidth) (d a : Reg)
  | zext (wd : ExtWidth) (d a : Reg)
  | bfx (d a b : Reg)
  | bfi (d a b : Reg)
  | sel (p : PReg) (d a b : Reg)
  | shadd (n : Fin 8) (d a b : Reg)
  -- immediates and addresses (R124 to R126)
  | addi (d a : Reg) (imm : Imm 14)
  | andi (d a : Reg) (imm : Imm 14)
  | ori (d a : Reg) (imm : Imm 14)
  | xori (d a : Reg) (imm : Imm 14)
  | shli (d a : Reg) (n : Fin 64)
  | shri (d a : Reg) (n : Fin 64)
  | srai (d a : Reg) (n : Fin 64)
  | li (d : Reg) (imm : Imm 19)
  | addpc (d : Reg) (imm : Imm 19)
  | addcb (d : Reg) (imm : Imm 19)
  -- comparisons and predicates (R127, R128)
  | cmp (c : Cond) (d a b : Reg)
  | pcmp (c : Cond) (d : PReg) (a b : Reg)
  | plog (f : LogFn) (d a b : PReg)
  -- control flow (R129 to R132)
  | beq (a b : Reg) (off : Imm 11)
  | bne (a b : Reg) (off : Imm 11)
  | blt (a b : Reg) (off : Imm 11)
  | bge (a b : Reg) (off : Imm 11)
  | bltu (a b : Reg) (off : Imm 11)
  | bgeu (a b : Reg) (off : Imm 11)
  | bp (neg : Bool) (p : PReg) (off : Imm 20)
  | j (off : Imm 24)
  | jal (off : Imm 24)
  | jr (a : Reg)
  | jalr (d a : Reg)
  -- loads and stores (R215)
  | ld (sz : LdSize) (h : Hint) (d a : Reg) (disp : Imm 9)
  | st (sz : StSize) (h : Hint) (d a : Reg) (disp : Imm 9)
  | vld (sz : VSize) (h : Hint) (d a : Reg) (disp : Imm 9)
  | vst (sz : VSize) (h : Hint) (d a : Reg) (disp : Imm 9)
  -- synchronisation (R284)
  | fence (sc : Scope) (d : Reg)
  | cwait (d a b : Reg)
  | pf (h : Hint) (a : Reg)
  | cwb (a b : Reg)
  -- queues (R133)
  | qput (a : Reg)
  | qgetQr (d : Reg)
  | qgetQn (d : Reg)
  | qtryQa (b : PReg) (a : Reg)
  | qtryQr (b : PReg) (d : Reg)
  | qtryQn (b : PReg) (d : Reg)
  | qtryQf (b : PReg)
  -- tasks (R351)
  | spawn (n : Fin 4) (d a b : Reg)
  | tdefer (a : Reg)
  -- groups and stage rings (R247, R252)
  | bar (g : Fin 4)
  | barv (g : Fin 4) (d : Reg)
  | bwait (g : Fin 4) (a : Reg)
  | racq (d a b : Reg)
  | rrel (d a b : Reg)
  | rpeek (d a b : Reg)
  -- fault service (R374)
  | fget (d : Reg)
  | freply (d a b : Reg)
  -- bandwidth leases (R449)
  | bwlease (d a b : Reg)
  | bwrel (d a : Reg)
  | bwq (d a : Reg)
  -- atomics (R278)
  | amo (g : Guard) (fn : AmoFn) (wide : Bool) (d a b : Reg) (disp : Imm 13)
  | amof (g : Guard) (fn : FoldFn) (et : ElemTy) (a b : Reg) (disp : Imm 13)
  | cas (g : Guard) (wide : Bool) (d a b c : Reg) (disp : Imm 13)
  | cas2 (g : Guard) (d a b c : Reg) (disp : Imm 13)
  -- integer vector (R154)
  | vadd (g : Guard) (k : KReg) (et : ElemTy) (sat : Bool) (d a b : Reg)
  | vsub (g : Guard) (k : KReg) (et : ElemTy) (sat : Bool) (d a b : Reg)
  | vmul (g : Guard) (k : KReg) (et : ElemTy) (d a b : Reg)
  | vmulh (g : Guard) (k : KReg) (et : ElemTy) (d a b : Reg)
  | vmin (g : Guard) (k : KReg) (et : ElemTy) (d a b : Reg)
  | vmax (g : Guard) (k : KReg) (et : ElemTy) (d a b : Reg)
  | vabs (g : Guard) (k : KReg) (et : ElemTy) (sat : Bool) (d a : Reg)
  | vneg (g : Guard) (k : KReg) (et : ElemTy) (sat : Bool) (d a : Reg)
  | vand (g : Guard) (k : KReg) (et : ElemTy) (d a b : Reg)
  | vor (g : Guard) (k : KReg) (et : ElemTy) (d a b : Reg)
  | vxor (g : Guard) (k : KReg) (et : ElemTy) (d a b : Reg)
  | vshl (g : Guard) (k : KReg) (et : ElemTy) (d a : Reg) (n : ShiftSrc)
  | vshr (g : Guard) (k : KReg) (et : ElemTy) (d a : Reg) (n : ShiftSrc)
  | vsra (g : Guard) (k : KReg) (et : ElemTy) (d a : Reg) (n : ShiftSrc)
  -- floating-point vector (R155, R156)
  | vfadd (g : Guard) (k : KReg) (et : ElemTy) (rm : RoundField) (w : WinSel) (d a b : Reg)
  | vfsub (g : Guard) (k : KReg) (et : ElemTy) (rm : RoundField) (w : WinSel) (d a b : Reg)
  | vfmul (g : Guard) (k : KReg) (et : ElemTy) (rm : RoundField) (w : WinSel) (d a b : Reg)
  | vfma (g : Guard) (k : KReg) (et : ElemTy) (rm : RoundField) (w : WinSel) (d a b c : Reg)
  | vfms (g : Guard) (k : KReg) (et : ElemTy) (rm : RoundField) (w : WinSel) (d a b c : Reg)
  | vfnma (g : Guard) (k : KReg) (et : ElemTy) (rm : RoundField) (w : WinSel) (d a b c : Reg)
  | vfmin (g : Guard) (k : KReg) (et : ElemTy) (w : WinSel) (d a b : Reg)
  | vfmax (g : Guard) (k : KReg) (et : ElemTy) (w : WinSel) (d a b : Reg)
  | vfabs (g : Guard) (k : KReg) (et : ElemTy) (w : WinSel) (d a : Reg)
  | vfneg (g : Guard) (k : KReg) (et : ElemTy) (w : WinSel) (d a : Reg)
  -- division, roots, estimates (R157, R158)
  | vfdiv (g : Guard) (k : KReg) (et : ElemTy) (rm : RoundField) (d a b : Reg)
  | vfsqrt (g : Guard) (k : KReg) (et : ElemTy) (rm : RoundField) (d a : Reg)
  | vrcpe (g : Guard) (k : KReg) (et : ElemTy) (d a : Reg)
  | vrsqe (g : Guard) (k : KReg) (et : ElemTy) (d a : Reg)
  | vexp2 (g : Guard) (k : KReg) (et : ElemTy) (d a : Reg)
  | vlog2 (g : Guard) (k : KReg) (et : ElemTy) (d a : Reg)
  -- comparison and selection (R159, R160)
  | vcmp (g : Guard) (k : KReg) (et : ElemTy) (c : VCond) (d : KReg) (a b : Reg)
  | vfcmp (g : Guard) (k : KReg) (et : ElemTy) (c : VCond) (d : KReg) (a b : Reg)
  | vsel (g : Guard) (k : KReg) (et : ElemTy) (d a b : Reg)
  -- conversion and the rider (R161 to R165)
  | vcvt (g : Guard) (k : KReg) (et : ElemTy) (rm : RoundField) (fp8 : Fp8Ovr) (ctl : CvtCtl) (d a : Reg)
  | vq8 (g : Guard) (k : KReg) (et : ElemTy) (rm : RoundField) (fp8 : Fp8Ovr) (src : ElemTy) (d a : Reg)
  | vdq8 (g : Guard) (k : KReg) (et : ElemTy) (rm : RoundField) (part : Fin 8) (src : ElemTy) (d a : Reg)
  | vrdr (g : Guard) (d a : Reg)
  | vwrr (g : Guard) (d a : Reg)
  -- permutation (R166)
  | vbcast (g : Guard) (k : KReg) (et : ElemTy) (d a : Reg)
  | vins (g : Guard) (et : ElemTy) (d a : Reg) (lane : Fin 32)
  | vext (g : Guard) (et : ElemTy) (d a : Reg) (lane : Fin 32)
  | vperm (g : Guard) (k : KReg) (et : ElemTy) (d a b : Reg)
  | vshuf (g : Guard) (k : KReg) (et : ElemTy) (d a b : Reg) (pat : Fin 4)
  | vslide (g : Guard) (k : KReg) (et : ElemTy) (d a b : Reg) (n : Fin 33)
  | vcompress (g : Guard) (k : KReg) (et : ElemTy) (d a : Reg)
  | vexpand (g : Guard) (k : KReg) (et : ElemTy) (d a : Reg)
  -- reductions and masks (R167 to R170)
  | vred (g : Guard) (k : KReg) (et : ElemTy) (op : RedOp) (w : WinSel) (d a : Reg)
  | vdot (g : Guard) (k : KReg) (et : ElemTy) (w : WinSel) (d a b : Reg) (c : Option Reg)
  | vlsig (g : Guard) (k : KReg) (et : ElemTy) (d : PReg) (a : Reg)
  | kop (g : Guard) (f : LogFn) (d a b : KReg)
  | kmovToMask (g : Guard) (d : KReg) (a : Reg)
  | kmovFromMask (g : Guard) (d : Reg) (a : KReg)
  | kpop (g : Guard) (d : Reg) (a : KReg)
  -- matrix engine (R186 to R199)
  | mmac (g : Guard) (m : MacCtl) (a : ASrc) (c : Reg)
  | mmacs (g : Guard) (m : MacCtl) (sp : Sparsity) (a : ASrc) (c : Reg)
  | mzero (g : Guard) (tf : TileFmt) (tile : Fin 8)
  | mwld (g : Guard) (bfmt : MFmt) (slot : Fin 8) (d : Reg) (src : MwldSrc)
  | mdrain (g : Guard) (et : ElemTy) (rm : RoundField) (fp8 : Fp8Ovr) (tf : TileFmt) (tile : Fin 8) (d a b c : Reg)
      (disp : Imm 13)
  | mdrainq (g : Guard) (et : ElemTy) (rm : RoundField) (fp8 : Fp8Ovr) (tf : TileFmt) (tile : Fin 8)
  | mdraina (g : Guard) (et : ElemTy) (rm : RoundField) (fp8 : Fp8Ovr) (tf : TileFmt) (tile : Fin 8) (col : Imm 13)
  | mstat (g : Guard) (d : Reg) (tile : Fin 8)
  | mclrs (g : Guard) (tile : Fin 8)
  | mwait (g : Guard)
  -- vector memory (R218)
  | vlds (g : Guard) (k : KReg) (et : ElemTy) (h : Hint) (d a b : Reg) (disp : Imm 13)
  | vldx (g : Guard) (k : KReg) (et : ElemTy) (h : Hint) (sc : Bool) (d a b : Reg) (disp : Imm 13)
  | vstx (g : Guard) (k : KReg) (et : ElemTy) (h : Hint) (sc : Bool) (d a b : Reg) (disp : Imm 13)
  | vldb (g : Guard) (k : KReg) (et : ElemTy) (h : Hint) (d a : Reg) (disp : Imm 13)
  -- tile engine (R221)
  | cpy (g : Guard) (d a b : Reg) (len : LenSrc)
  | cpy2d (g : Guard) (d a b c : Reg)
  | cpyRs (g : Guard) (d a b c : Reg)
  | cpyRd (g : Guard) (d a b c : Reg)
  | cpyr (g : Guard) (op : RedOp) (et : ElemTy) (d a b : Reg) (len : LenSrc)
  | get (g : Guard) (et : ElemTy) (tgt : PutTarget) (d a b c : Reg)
  | put (g : Guard) (et : ElemTy) (tgt : PutTarget) (d a b c : Reg)
  | stmap (g : Guard) (n : Fin 8) (a : Reg)
  | stwb (g : Guard) (d a b : Reg)
  | stinv (g : Guard) (d a b : Reg)
  | rflush (g : Guard) (a : Reg)
  | rflushAll (g : Guard)
  | pub (g : Guard) (d a : Reg)
  -- collectives (R471)
  | coll (g : Guard) (op : CollOp) (fn : RedOp) (et : ElemTy) (wire scaled : Bool) (root : BitVec 8) (d a b c : Reg)
      (n : Imm 13)
  -- EVENTS. Core and engines. `core` is a coreid (R101), `ts` a package thread-set number (R371).
  | resultWriteback (i : Nat)
  | queueBlockRelease (ts : Nat)
  | wake (ts : Nat)
  | threadSetStart (ts : Nat)
  | matrixCommandStart (core : Nat)
  | matrixCommandCompletion (core : Nat)
  | tileEngineChunk (core id : Nat)
  | tileCommandCompletion (core id : Nat)
  | regionMerge (base : Nat)
  | faultPost (i : Nat)
  -- the dispatcher
  | spawnArrival (i : Nat)
  | spawnAnswer (i : Nat)
  | dispatchPass (pkg : Option (BitVec 8)) (die : Fin 8)
  | taskReservation (launch : Nat) (pos : Fin 4) (elem : Nat)
  | tdeferHoldExpiry (launch : Nat) (pos : Fin 4) (elem : Nat)
  | seamRoundStart (launch : Nat)
  | seamRoundDone (launch : Nat) (own : DieOf)
  | remoteClaimRequest (i : Nat)
  | remoteClaimAnswer (i : Nat)
  -- pre-emption, watchdog, debugger
  | preempt (core : Nat)
  | coreResume (i core : Nat)
  | watchdogExpiry (launch : Nat)
  | haltNow (t : HaltTarget)
  | haltDrain (t : HaltTarget)
  | haltDrainComplete (t : HaltTarget)
  | debugResume (t : HaltTarget)
  | chunkArrival (i : Nat)
  | translationFlush (i : Nat)
  | translationFlushComplete (i : Nat)
  -- bring-up and management
  | bringUpStageDone (failure : Fin 6)
  | forcePowerAlarm (on : Bool)
  | pwrlim (v : Word)
  | mgmtRegisterWrite (offset : Nat) (v : Word)
  | keyLoad (slot : Fin 1024)
  | keyClear (slot : Fin 1024)
  | biascmd (v : Word)
  | endcmd (v : Word)
  | powerAlarmRaise (watts : Nat)
  | powerAlarmLower (watts : Nat)
  -- queues and packets
  | queueActivation (q : Nat)
  | residentLaunch (q : Nat)
  | elementLaunch (q : Nat)
  | copy (q : Nat)
  | reducingCopy (q : Nat)
  | counterAdd (q : Nat)
  | wait (q : Nat)
  | attest (q : Nat)
  | nopPacket (q : Nat)
  | packetCompletion (i : Nat)
  | bulkCopyChunk (i : Nat)
  | gangPlacement (launch : Nat)
  | queueError (q : Nat)
  -- the host
  | hostAccess (host write : Bool) (addr size value : Nat)
  | hostAtomicop (host : Bool) (addr size : Nat) (op : HostOp)
  | fenceTimeout (ts : Nat)
  -- the fabric
  | flitReceive (ch : Fin 144) (seq : BitVec 32) (crcOk : Bool)
  | channelRetrain (ch : Fin 144)
  | peerRetraining (peer : BitVec 8)
  | peerFailed (peer : BitVec 8)
  | peerJoin (peer : BitVec 8) (incarnation : BitVec 16)
  | importRequest (peer : BitVec 8) (incarnation : BitVec 16) (handle : Nat) (key : BitVec 32) (offset size : Nat)
      (op : ImportOp)
  | leaseFirstPass (i : Nat)
  | retuneComplete (ch : Fin 24)
  | leaseGrant (i : Nat)
  | leaseExpiry (i : Nat)
  | collectiveInstanceStart (i : Nat)
  | collectiveChunk (i : Nat)
  | collectiveCompletion (i : Nat)
  -- added rows
  | illegalInstruction (word : IWord)
  | uncorrectableEccError (word : EccWord)
  | linkReturn (peer : BitVec 8)
  | channelRetrainComplete (ch : Fin 144)
  | rejectedKindPacket (q : Nat)
  -- rows without operands of any of the groups above
  | nop
  | yield
  | fdrain
  | retire
  | powerGood
  | resetRequest
  | keyCommandDone
  | biasFlipComplete
  | endCommandComplete
  | queueTimeSlice
  | instructionFetchFault
  | powerLoss
  | issueRunLimit
  | frontEndReset
  | hostLinkChange
  deriving DecidableEq, Repr

end Sys2Proof
end

