-- ==== Sys2Proof/Config.lean ====
section
/-! DEFINITION. What the manual leaves open: free values, each an opaque constant without a body, so that no proof can
see what it is. The counter or the operands that such a constant is applied to are plain data. -/

namespace Sys2Proof.Config

/-- The n-th open choice of the machine: old or new words (R89, R213, R264), whether an announcement has arrived (R274),
which cluster takes a task (R337), which pair a reduction tree joins (R474), and the like. Log entry 8. -/
opaque freeNat : Nat → Nat

/-- The value an estimate delivers, before its bound is checked (R158): operation, element type, operand bits.
Log entry 7. -/
opaque estimate : Nat → ElemTy → Nat → Nat

/-- Which data unit the tweak of the memory cipher numbers: 1, 2 or 4 blocks (R277). Log entry 9. -/
opaque xtsUnit : Nat

/-- The key that slot 0 receives from the on-die random source (R428). Log entry 9. -/
opaque bootKey : BitVec 512

/-- The SHAKE256 digest of the ROM (false) or of the patch RAM (true), as a number of 64 bytes (R425). Log entry 11. -/
opaque digest : Bool → BitVec 512

/-- Byte i of the ML-DSA-65 signature of a report whose first 256 bytes are given as a number (R426). Log entry 11. -/
opaque signatureByte : Nat → Nat → BitVec 8

/-- The nonzero incarnation that the firmware draws for the n-th bring-up (R402). Log entry 12. -/
opaque drawnIncarnation : Nat → BitVec 16

/-- The identity public key, byte by byte (R427). Log entry 11. -/
opaque identityKeyByte : Nat → BitVec 8

end Sys2Proof.Config
end

