-- ==== Sys2Proof/Machine/Cipher.lean ====
section
/-! DEFINITION. AES-256-XTS (R277, R428): blocks and keys as numbers whose least significant byte is the first one. The cipher is
the published one that R277 names. -/

namespace Sys2Proof.Machine

/-- n bytes of a number, the first one least significant. -/
def bytesOf (x : Nat) : Nat → List Nat
  | 0 => []
  | n + 1 => x % 256 :: bytesOf (x / 256) n

/-- The number of some bytes. -/
def ofBytes : List Nat → Nat
  | [] => 0
  | b :: r => b + 256 * ofBytes r

/-! ### The field of 256 elements -/

/-- Doubling, modulo x^8 + x^4 + x^3 + x + 1. -/
def gfDouble (a : Nat) : Nat := if 128 ≤ a then (2 * a) ^^^ 0x11B else 2 * a

/-- The product, by the low n bits of b. -/
def gfMulBits (a b : Nat) : Nat → Nat
  | 0 => 0
  | n + 1 => (if b % 2 = 1 then a else 0) ^^^ gfMulBits (gfDouble a) (b / 2) n

def gfMul (a b : Nat) : Nat := gfMulBits a b 8

/-- The inverse of a nonzero element, and 0 of 0: the power 254. -/
def gfInv (a : Nat) : Nat :=
  let a2 := gfMul a a
  let a3 := gfMul a2 a
  let a6 := gfMul a3 a3
  let a12 := gfMul a6 a6
  let a15 := gfMul a12 a3
  let a30 := gfMul a15 a15
  let a60 := gfMul a30 a30
  let a120 := gfMul a60 a60
  let a126 := gfMul a120 a6
  let a127 := gfMul a126 a
  gfMul a127 a127

/-- A byte rotated left. -/
def rotByte (a n : Nat) : Nat := (a * 2 ^ n + a / 2 ^ (8 - n)) % 256

def subByte (a : Nat) : Nat :=
  let b := gfInv a
  b ^^^ rotByte b 1 ^^^ rotByte b 2 ^^^ rotByte b 3 ^^^ rotByte b 4 ^^^ 0x63

def invSubByte (a : Nat) : Nat := gfInv (rotByte a 1 ^^^ rotByte a 3 ^^^ rotByte a 6 ^^^ 0x05)

/-! ### AES-256 -/

def xorBytes (a b : List Nat) : List Nat := List.zipWith (· ^^^ ·) a b

/-- The next eight words of the key schedule, after eight words with their round constant. -/
def keyStep (w : List (List Nat)) (rcon : Nat) : List (List Nat) :=
  let g := match w.getD 7 [] with
    | [a, b, c, d] => [subByte b ^^^ rcon, subByte c, subByte d, subByte a]
    | x => x
  let w0 := xorBytes (w.getD 0 []) g
  let w1 := xorBytes (w.getD 1 []) w0
  let w2 := xorBytes (w.getD 2 []) w1
  let w3 := xorBytes (w.getD 3 []) w2
  let w4 := xorBytes (w.getD 4 []) (w3.map subByte)
  let w5 := xorBytes (w.getD 5 []) w4
  let w6 := xorBytes (w.getD 6 []) w5
  let w7 := xorBytes (w.getD 7 []) w6
  [w0, w1, w2, w3, w4, w5, w6, w7]

/-- The words of the schedule, eight at a time. -/
def keyWords : (n : Nat) → (w : List (List Nat)) → (rcon : Nat) → List (List Nat)
  | 0, w, _ => w
  | n + 1, w, rcon => w ++ keyWords n (keyStep w rcon) (gfDouble rcon)

/-- The fifteen round keys of a key of 32 bytes. -/
def roundKeys (key : Nat) : List (List Nat) :=
  let ws := keyWords 7 ((List.range 8).map fun i => bytesOf (key / 2 ^ (32 * i)) 4) 1
  (List.range 15).map fun r => (List.range 4).flatMap fun i => ws.getD (4 * r + i) []

/-- Byte r + 4c of a block from row r, column c + r (or c - r). -/
def shiftRows (back : Bool) (b : List Nat) : List Nat :=
  (List.range 16).map fun i =>
    let r := i % 4
    let c := i / 4
    b.getD (r + 4 * ((c + if back then 4 - r else r) % 4)) 0

/-- Each column times the matrix whose first row is given. -/
def mixColumns (row b : List Nat) : List Nat :=
  (List.range 16).map fun i =>
    (List.range 4).foldl (fun x j => x ^^^ gfMul (row.getD ((j + 4 - i % 4) % 4) 0) (b.getD (i / 4 * 4 + j) 0)) 0

def encRounds : List (List Nat) → List Nat → List Nat
  | [], b => b
  | [k], b => xorBytes (shiftRows false (b.map subByte)) k
  | k :: r, b => encRounds r (xorBytes (mixColumns [2, 3, 1, 1] (shiftRows false (b.map subByte))) k)

def decRounds : List (List Nat) → List Nat → List Nat
  | [], b => b
  | [k], b => xorBytes ((shiftRows true b).map invSubByte) k
  | k :: r, b => decRounds r (mixColumns [14, 11, 13, 9] (xorBytes ((shiftRows true b).map invSubByte) k))

/-- One block under a key. -/
def aesEncrypt (key block : Nat) : Nat :=
  match roundKeys key with
  | k :: r => ofBytes (encRounds r (xorBytes (bytesOf block 16) k))
  | [] => block

def aesDecrypt (key block : Nat) : Nat :=
  match (roundKeys key).reverse with
  | k :: r => ofBytes (decRounds r (xorBytes (bytesOf block 16) k))
  | [] => block

/-! ### XTS -/

/-- A tweak doubled once for each block before in its data unit. -/
def xtsDouble (t : Nat) : Nat → Nat
  | 0 => t
  | n + 1 => xtsDouble (if 2 ^ 127 ≤ t then (2 * t - 2 ^ 128) ^^^ 0x87 else 2 * t) n

/-- Blocks of a data unit, whose physical address is the tweak: 1, 2 or 4, which the spec leaves open. Log entry 9. -/
def unitBlocks : Nat := 2 ^ (Config.xtsUnit % 3)

/-- The tweak of a block, under the tweak key in bytes 32 to 63 of the material. -/
def xtsTweak (key block : Nat) : Nat :=
  xtsDouble (aesEncrypt (key / 2 ^ 256) (16 * (block / unitBlocks * unitBlocks))) (block % unitBlocks)

/-- Block number `block` of physical memory, encrypted and decrypted. -/
def xtsEncrypt (key block x : Nat) : Nat :=
  let t := xtsTweak key block
  aesEncrypt (key % 2 ^ 256) (x ^^^ t) ^^^ t

def xtsDecrypt (key block x : Nat) : Nat :=
  let t := xtsTweak key block
  aesDecrypt (key % 2 ^ 256) (x ^^^ t) ^^^ t

/-- What a block that was written under one key reads as under another. -/
def recrypt (written read block x : Nat) : Nat := xtsDecrypt read block (xtsEncrypt written block x)

end Sys2Proof.Machine
end

