-- ==== Sys2Proof/WellFormed.lean ====
section
/-! DEFINITION. Which terms of `Instr` are instructions of the machine: the encoding checks of R83 that an entry makes on
its own fields, and the ranges of the operands of events. -/

namespace Sys2Proof

/-- Lane width in bits (R149). -/
def ElemTy.width : ElemTy → Nat
  | .i8 | .u8 | .e4m3 | .e5m2 => 8
  | .i16 | .u16 | .bf16 | .f16 => 16
  | .i32 | .u32 | .f32 => 32
  | .i64 | .u64 | .f64 => 64

/-- Element size in bytes. -/
def ElemTy.bytes (t : ElemTy) : Nat := t.width / 8

/-- Lanes of a vector register (R149). -/
def ElemTy.lanes (t : ElemTy) : Nat := 256 / t.width

/-- The integer types, codes 0 to 7. -/
def ElemTy.isInt : ElemTy → Bool
  | .i8 | .u8 | .i16 | .u16 | .i32 | .u32 | .i64 | .u64 => true
  | _ => false

/-- The signed integer types. -/
def ElemTy.isSigned : ElemTy → Bool
  | .i8 | .i16 | .i32 | .i64 => true
  | _ => false

/-- The FP8 types. -/
def ElemTy.isFp8 : ElemTy → Bool
  | .e4m3 | .e5m2 => true
  | _ => false

/-- The floating-point types of 16 bits and more, codes 8 to 11. -/
def ElemTy.isWideFp : ElemTy → Bool
  | .f64 | .f32 | .bf16 | .f16 => true
  | _ => false

/-- A coreid (R101): a compute core below 2,048, or one of the two service cores of a die. -/
def validCore (c : Nat) : Bool := c < 2048 || (c < 4096 && (c - 2048) % 256 < 2)

/-- A core, or the number under which a saved core image is kept. -/
def validHolder (c : Nat) : Bool := validCore c || (4096 ≤ c && c % 4096 < 2048)

/-- A package thread-set number: coreid × 4 + slot. -/
def validTs (t : Nat) : Bool := validCore (t / 4)

/-- A scalar or vector register pair starts at an even number. -/
def Reg.even (r : Reg) : Bool := r.val % 2 == 0

/-- A branch literal counts bytes and is a multiple of 4 (R83). -/
def Imm.branchOk {n : Nat} : Imm n → Bool
  | .short _ => true
  | .lit v => v.toNat % 4 == 0

/-- Special registers an `mfsr` may name (R99, R100, R382, R460). `xfln` is write-only. -/
def srReadable (n : Nat) : Bool :=
  n ≤ 6 || (8 ≤ n && n ≤ 0x0B) || n == 0x10 || n == 0x11 || (0x14 ≤ n && n ≤ 0x19) || (0x20 ≤ n && n ≤ 0x27) ||
    (0x40 ≤ n && n ≤ 0x43) || (0x45 ≤ n && n ≤ 0x47)

/-- Special registers an `mtsr` may name (R99, R100, R382, R460). -/
def srWritable (n : Nat) : Bool :=
  n == 8 || n == 9 || n == 0x40 || n == 0x41 || n == 0x43 || n == 0x44 || (0x45 ≤ n && n ≤ 0x47)

/-- M of an N:M sparse setting (R180). -/
def Sparsity.m (sp : Sparsity) : Nat := 4 * 2 ^ sp.mCode.val

/-- N of an N:M sparse setting: the field value 0 stands for 32 (R180). -/
def Sparsity.nVal (sp : Sparsity) : Nat := if sp.n.val = 0 then 32 else sp.n.val

/-- N lies from 1 to M; the field value 0 is legal only with M = 32 (R181). -/
def Sparsity.wf (sp : Sparsity) : Bool := sp.nVal ≤ sp.m

/-- Formats that R181 marks for sparse operation. -/
def MFmt.sparseOk : MFmt → Bool
  | .f32 | .f64 => false
  | _ => true

/-- Legal indices of a tile format (R173). -/
def TileFmt.indexOk (f : TileFmt) (i : Nat) : Bool :=
  match f with
  | .f64 => i < 2
  | .f32 | .i32 => i < 4
  | .bf16 | .f16 => i < 8

/-- The tile format that a matrix control word names (R181); none when the combination is illegal. -/
def tileFmtOf (afmt bfmt : MFmt) (acc : AccSel) : Option TileFmt :=
  match afmt, bfmt with
  | .e4m3, .e4m3 | .e4m3, .e5m2 | .e5m2, .e4m3 | .e5m2, .e5m2
  | .bf16, .bf16 | .bf16, .f16 | .f16, .bf16 | .f16, .f16 =>
    match acc with
    | .full => some .f32
    | .bf16 => some .bf16
    | .f16 => some .f16
    | .i32 => none
  | .f32, .f32 => if acc = .full then some .f32 else none
  | .f64, .f64 => if acc = .full then some .f64 else none
  | .i8, .i8 | .i8, .u8 | .u8, .i8 | .u8, .u8 => if acc = .i32 then some .i32 else none
  | _, _ => none

/-- Scale modes that R181 allows an A format. -/
def scaleOk (afmt : MFmt) : ScaleMode → Bool
  | .none => true
  | .blk => match afmt with | .i8 | .u8 => false | _ => true
  | .e8m0 => match afmt with | .e4m3 | .e5m2 => true | _ => false

/-- The constraints of R181 on a matrix control word. -/
def MacCtl.wf (m : MacCtl) (a : ASrc) (c : Reg) : Bool :=
  (match tileFmtOf m.afmt m.bfmt m.acc with
    | some tf => tf.indexOk m.tile.val
    | none => false) &&
  scaleOk m.afmt m.scale &&
  (m.scale != .e8m0 || a == .qa) &&
  (if m.scale = .blk then c.val != 0 else c.val == 0)

/-- Destination types of `mdrain` and `mdrainq` (R193). -/
def drainOk (tf : TileFmt) (et : ElemTy) : Bool :=
  match tf with
  | .i32 => match et with | .i32 | .i16 | .i8 | .f32 => true | _ => false
  | _ => et.isWideFp || et.isFp8

/-- The column block of `mdraina`, in the field or in the literal that replaces it (R70, R196). -/
def colOk : Imm 13 → Bool
  | .short i => i.toNat < 4
  | .lit v => v.toNat < 4

/-- Destination types of `mdraina` (R193). -/
def drainaOk (tf : TileFmt) (et : ElemTy) : Bool :=
  match tf with
  | .i32 => match et with | .i8 | .u8 => true | _ => false
  | _ => et.isWideFp || et.isFp8

/-- The FP8 override is legal only with an FP8 destination (R162, R193). -/
def Fp8Ovr.ok (o : Fp8Ovr) (et : ElemTy) : Bool := o == .none || et.isFp8

/-- Element types of a reducing copy (R221). -/
def cpyrTy : ElemTy → Bool
  | .i32 | .u32 | .i64 | .u64 | .f32 | .bf16 | .f16 => true
  | _ => false

/-- A length register is not s0, which stands for the immediate (R221). -/
def LenSrc.wf : LenSrc → Bool
  | .reg c => c.val != 0
  | .imm _ => true

/-- The register groups of indices: max(1, L/8) registers (R218). -/
def idxRegs (et : ElemTy) : Nat := Nat.max 1 (et.lanes / 8)

/-- A 64-bit-or-less window selector is used by `vred.add` on floating-point types only (R153, R167). -/
def WinSel.isDflt : WinSel → Bool
  | .dflt => true
  | .code _ => false

/-- Source types of `vq8` (R163) and destination types of `vdq8` (R164). -/
def q8Wide : ElemTy → Bool
  | .f32 | .bf16 | .f16 => true
  | _ => false

/-- The uses of R473. -/
def collOk (op : CollOp) (fn : RedOp) (et : ElemTy) (wire scaled : Bool) (root : BitVec 8) : Bool :=
  (match op with
    | .reduceScatter | .allReduce => (et == .f32 || (et == .bf16 && !wire)) && !scaled
    | _ => !wire && fn == .add && (!scaled || et.isFp8)) &&
  (op == .broadcast || root == 0)

/-- Which terms are instructions. -/
def Instr.wf : Instr → Bool
  | .mfsr _ n => srReadable n.toNat
  | .mtsr _ n => srWritable n.toNat
  | .beq _ _ o | .bne _ _ o | .blt _ _ o | .bge _ _ o | .bltu _ _ o | .bgeu _ _ o => o.branchOk
  | .bp _ _ o => o.branchOk
  | .j o | .jal o => o.branchOk
  | .plog f _ _ b => match f with | .not | .mov => b.val == 0 | _ => true
  | .ld sz _ d _ _ => sz != .q || Reg.even d
  | .st sz _ d _ _ => sz != .q || Reg.even d
  | .fget d => Reg.even d
  | .amof _ fn et _ _ _ =>
    match et with
    | .i32 | .u32 | .i64 | .u64 => true
    | .f32 => match fn with | .add | .min | .max => true | _ => false
    | _ => false
  | .cas2 _ d _ b c _ => Reg.even d && Reg.even b && Reg.even c
  | .vadd _ _ et .. | .vsub _ _ et .. | .vmul _ _ et .. | .vmulh _ _ et .. | .vmin _ _ et .. | .vmax _ _ et ..
  | .vabs _ _ et .. | .vneg _ _ et .. | .vand _ _ et .. | .vor _ _ et .. | .vxor _ _ et .. => et.isInt
  | .vshl _ _ et _ _ n | .vshr _ _ et _ _ n | .vsra _ _ et _ _ n =>
    et.isInt && (match n with | .reg _ => true | .imm n => n.val < et.width)
  | .vfadd _ _ et .. | .vfsub _ _ et .. | .vfmul _ _ et .. | .vfma _ _ et .. | .vfms _ _ et .. | .vfnma _ _ et ..
  | .vfmin _ _ et .. | .vfmax _ _ et .. | .vfabs _ _ et .. | .vfneg _ _ et .. => et.isWideFp
  | .vfdiv _ _ et .. | .vfsqrt _ _ et .. => et == .f64 || et == .f32
  | .vrcpe _ _ et .. | .vrsqe _ _ et .. | .vexp2 _ _ et .. | .vlog2 _ _ et .. => q8Wide et
  | .vcmp _ _ et c _ _ _ => et.isInt && c != .un && c != .ord
  | .vfcmp _ _ et .. => et.isWideFp
  | .vcvt _ _ et _ fp8 ctl _ _ =>
    fp8.ok et && (!ctl.scaled || ctl.src.width == 8) && (!ctl.isat || (et.isInt && ctl.src.isInt)) &&
      ctl.part.val < Nat.max et.width ctl.src.width / Nat.min et.width ctl.src.width
  | .vq8 _ _ et _ _ src _ a => et.isFp8 && q8Wide src && a.val % (32 / src.lanes) == 0 && a.val + 32 / src.lanes ≤ 32
  | .vdq8 _ _ et _ part src _ _ => q8Wide et && src.isFp8 && part.val < 32 / et.lanes
  | .vins _ et _ _ l | .vext _ et _ _ l => l.val < et.lanes
  | .vslide _ _ et _ _ _ n => n.val ≤ et.lanes
  | .vred _ _ et op w _ _ =>
    !et.isFp8 && (w.isDflt || (et.isWideFp && op == .add))
  | .vdot _ _ et w _ _ _ _ =>
    (match et with | .i64 | .u64 => false | _ => true) && (w.isDflt || !et.isInt)
  | .vlsig _ _ et _ _ => et.width != 8
  | .kop _ f _ _ b => match f with | .not | .mov => b.val == 0 | _ => true
  | .mmac _ m a c => m.wf a c
  | .mmacs _ m sp a c => m.wf a c && m.afmt.sparseOk && sp.wf
  | .mzero _ tf t => tf.indexOk t.val
  | .mwld _ bf _ _ src =>
    match src with
    | .dense .. | .recDense _ => true
    | .sparse _ _ sp _ | .recSparse _ sp => bf.sparseOk && sp.wf
  | .mdrain _ et _ fp8 tf t .. | .mdrainq _ et _ fp8 tf t => drainOk tf et && fp8.ok et && tf.indexOk t.val
  | .mdraina _ et _ fp8 tf t col => drainaOk tf et && fp8.ok et && tf.indexOk t.val && colOk col
  | .vldx _ _ et _ _ _ _ b _ | .vstx _ _ et _ _ _ _ b _ => b.val % idxRegs et == 0
  | .cpy _ _ _ _ len => len.wf
  | .cpy2d _ _ _ _ c => c.val != 0 && Reg.even c
  | .cpyr _ _ et _ _ _ len => cpyrTy et && len.wf
  | .get _ _ _ _ _ _ c | .put _ _ _ _ _ _ c => c.val != 0 && c.val % 4 == 0
  | .coll _ op fn et wire scaled root .. => collOk op fn et wire scaled root
  -- events
  | .preempt c | .coreResume _ c => validCore c
  | .matrixCommandStart c | .matrixCommandCompletion c => validHolder c
  | .queueBlockRelease t | .wake t | .threadSetStart t | .fenceTimeout t | .haltNow (.tset t) | .haltDrain (.tset t)
  | .haltDrainComplete (.tset t) | .debugResume (.tset t) => validTs t
  | .tileEngineChunk c _ | .tileCommandCompletion c _ => validHolder c
  | .queueActivation q | .queueError q | .residentLaunch q | .elementLaunch q | .copy q | .reducingCopy q
  | .counterAdd q | .wait q | .attest q | .nopPacket q | .rejectedKindPacket q => q < 65536
  | .hostAccess _ _ _ size _ => 1 ≤ size && size ≤ 64
  | .hostAtomicop _ addr size op =>
    (match op with
      | .cas _ _ => size == 4 || size == 8 || size == 16
      | _ => size == 4 || size == 8) && addr % size == 0
  | .importRequest _ _ _ _ _ size _ => 1 ≤ size && size ≤ 64
  | .uncorrectableEccError (.device a) => a < 2 ^ 41 && a % 8 == 0
  | .uncorrectableEccError (.window c a) => validCore c && a < 0x80000 && a % 8 == 0
  | _ => true

end Sys2Proof
end

