-- ==== Sys2Proof/Machine/Flags.lean ====
section
/-! DEFINITION. Floating-point formats, the six sticky flags of `fps`, the rounding modes and the one rounding step that
every floating-point result goes through (R41 to R55). -/

namespace Sys2Proof.Machine

/-- The sticky flags of `fps` (R50, R104). -/
structure Flags where
  nx : Bool := false
  uf : Bool := false
  ov : Bool := false
  dz : Bool := false
  nv : Bool := false
  ls : Bool := false
  deriving DecidableEq, Repr

/-- Flags only accumulate (R50). -/
def Flags.or (a b : Flags) : Flags :=
  { nx := a.nx || b.nx, uf := a.uf || b.uf, ov := a.ov || b.ov, dz := a.dz || b.dz, nv := a.nv || b.nv,
    ls := a.ls || b.ls }

/-- The flags that one lane raises: NX not where it raises NV (R50). -/
def Flags.ofLane (f : Flags) : Flags := { f with nx := f.nx && !f.nv }

def bit01 (b : Bool) : Nat := if b then 1 else 0

/-- The bits of `fps` (R104). -/
def Flags.toWord (f : Flags) : Word :=
  BitVec.ofNat 64 (bit01 f.nx + 2 * bit01 f.uf + 4 * bit01 f.ov + 8 * bit01 f.dz + 16 * bit01 f.nv + 32 * bit01 f.ls)

/-- Invalid operation only. -/
def Flags.invalid (b : Bool) : Flags := { nv := b }

/-- Rounding modes (R47). -/
inductive RMode where
  | rne | rtz | rup | rdn | rna
  deriving DecidableEq, Repr

/-- The parameters of a floating-point format (R42). -/
structure Fmt where
  ebits : Nat
  mbits : Nat
  bias : Nat
  deriving DecidableEq, Repr

/-- The format of a floating-point element type (R42); integer types have none and are given f32's. -/
def fmtOf : ElemTy → Fmt
  | .f64 => ⟨11, 52, 1023⟩
  | .bf16 => ⟨8, 7, 127⟩
  | .f16 => ⟨5, 10, 15⟩
  | .e4m3 => ⟨4, 3, 7⟩
  | .e5m2 => ⟨5, 2, 15⟩
  | _ => ⟨8, 23, 127⟩

/-- A value of a floating-point format: `fin neg m e` is ± m · 2^e; a zero has `m = 0`. -/
inductive FVal where
  | nan (signalling : Bool)
  | inf (neg : Bool)
  | fin (neg : Bool) (m : Nat) (e : Int)
  deriving DecidableEq, Repr

/-- E4M3 has no infinity, and one NaN pattern per sign (R41). -/
def Fmt.isE4M3 (f : Fmt) : Bool := f.ebits == 4

/-- FP8 formats have no signalling NaN (R43). -/
def Fmt.isFp8 (f : Fmt) : Bool := f.ebits + f.mbits == 7

/-- Exponent of the smallest subnormal. -/
def Fmt.qmin (f : Fmt) : Int := 1 - (f.bias : Int) - (f.mbits : Int)

/-- The value that a bit pattern encodes (R41, R43). -/
def Fmt.decode (f : Fmt) (x : Nat) : FVal :=
  let neg := x.testBit (f.ebits + f.mbits)
  let ex := (x >>> f.mbits) % 2 ^ f.ebits
  let fr := x % 2 ^ f.mbits
  let emax := 2 ^ f.ebits - 1
  if ex = emax && (if f.isE4M3 then fr = 7 else true) then
    if f.isE4M3 then .nan false
    else if fr = 0 then .inf neg
    else .nan (!f.isFp8 && !fr.testBit (f.mbits - 1))
  else if ex = 0 then .fin neg fr f.qmin
  else .fin neg (fr + 2 ^ f.mbits) (f.qmin + (ex : Int) - 1)

/-- The sign bit of a format, in place. -/
def Fmt.signBits (f : Fmt) (neg : Bool) : Nat := if neg then 2 ^ (f.ebits + f.mbits) else 0

/-- The canonical NaN (R43, R44). -/
def Fmt.nanBits (f : Fmt) : Nat :=
  if f.isE4M3 then 0x7F else (2 ^ f.ebits - 1) * 2 ^ f.mbits + 2 ^ (f.mbits - 1)

/-- The infinity of a sign; NaN for E4M3, which has none. -/
def Fmt.infBits (f : Fmt) (neg : Bool) : Nat :=
  if f.isE4M3 then 0x7F else f.signBits neg + (2 ^ f.ebits - 1) * 2 ^ f.mbits

/-- The bits of the largest finite value without sign (R42, R44). -/
def Fmt.maxBits (f : Fmt) : Nat :=
  if f.isE4M3 then 0x7E else (2 ^ f.ebits - 1) * 2 ^ f.mbits - 1

/-- An exact result, before the one rounding: a NaN, an infinity, or ± m · 2^e. -/
inductive Exact where
  | nan
  | inf (neg : Bool)
  | fin (neg : Bool) (m : Nat) (e : Int)
  deriving DecidableEq, Repr

/-- m · 2^e as a multiple of 2^q, rounded by the mode, with whether it was inexact (R47). -/
def roundAt (mode : RMode) (neg : Bool) (m : Nat) (e q : Int) : Nat × Bool :=
  if q ≤ e then (m * 2 ^ (e - q).toNat, false)
  else
    let k := (q - e).toNat
    let lo := m / 2 ^ k
    let r := m % 2 ^ k
    if r = 0 then (lo, false)
    else
      let half := 2 ^ (k - 1)
      let up : Bool :=
        match mode with
        | .rne => half < r || (half == r && lo % 2 == 1)
        | .rna => half ≤ r
        | .rtz => false
        | .rup => !neg
        | .rdn => neg
      (if up then lo + 1 else lo, true)

/-- The exponent of the last kept bit when m · 2^e is rounded to the precision of f without a bound on the exponent. -/
def Fmt.quantum (f : Fmt) (m : Nat) (e : Int) : Int := (Nat.log2 m : Int) + e - (f.mbits : Int)

/-- The bits of n · 2^q, with n at most 2^(mbits + 1) and q at least the exponent of the smallest subnormal. -/
def Fmt.encodeMag (f : Fmt) (n : Nat) (q : Int) : Nat :=
  if n < 2 ^ f.mbits then n else (q - f.qmin).toNat * 2 ^ f.mbits + n

/-- Delivery of an overflow (R48). -/
def Fmt.overflowBits (f : Fmt) (mode : RMode) (neg : Bool) : Nat :=
  let big := f.signBits neg + f.maxBits
  match mode with
  | .rne | .rna => f.infBits neg
  | .rtz => big
  | .rup => if neg then big else f.infBits neg
  | .rdn => if neg then f.infBits neg else big

/-- Delivery of an FP8 overflow or infinity (R53): saturated, or NaN for E4M3 and infinity for E5M2. -/
def Fmt.fp8Limit (f : Fmt) (sat neg : Bool) : Nat :=
  if sat then f.signBits neg + f.maxBits else f.infBits neg

/-- Rounds a finite exact result into f: the bits and the flags NX, UF and OF (R47, R48, R53). `sat` is the
saturate-or-propagate setting, used by FP8 formats only. -/
def Fmt.roundFin (f : Fmt) (mode : RMode) (sat neg : Bool) (m : Nat) (e : Int) : Nat × Flags :=
  if m = 0 then (f.signBits neg, {})
  else
    let qu := f.quantum m e
    let unb := roundAt mode neg m e qu
    let tiny : Bool := unb.1 < 2 ^ f.mbits * 2 ^ (f.qmin - qu).toNat
    let q := max qu f.qmin
    let r := roundAt mode neg m e q
    let mag := f.encodeMag r.1 q
    if f.maxBits < mag then
      (if f.isFp8 then f.fp8Limit sat neg else f.overflowBits mode neg, { ov := true, nx := true })
    else (f.signBits neg + mag, { nx := r.2, uf := tiny && r.2 })

/-- Rounds any exact result into f. A NaN is delivered canonical; an infinity keeps its sign, or follows R53 in an FP8
format. The flags of an invalid operation are the caller's, but for R53's. -/
def Fmt.round (f : Fmt) (mode : RMode) (sat : Bool) : Exact → Nat × Flags
  | .nan => (f.nanBits, {})
  | .inf neg => if f.isFp8 then (f.fp8Limit sat neg, Flags.invalid (f.isE4M3 || sat)) else (f.infBits neg, {})
  | .fin neg m e => f.roundFin mode sat neg m e

/-- The value of an integer pattern of a type's width. -/
def intVal (t : ElemTy) (x : Nat) : Int :=
  if t.isSigned && x.testBit (t.width - 1) then (x : Int) - 2 ^ t.width else (x : Int)

/-- The pattern of an integer modulo 2^w (R46). -/
def wrapInt (w : Nat) (i : Int) : Nat := (i % 2 ^ w).toNat

/-- The least and greatest values of an integer type. -/
def intMin (t : ElemTy) : Int := if t.isSigned then -(2 ^ (t.width - 1)) else 0
def intMax (t : ElemTy) : Int := if t.isSigned then 2 ^ (t.width - 1) - 1 else 2 ^ t.width - 1

/-- Clamps to the type's range. -/
def satInt (t : ElemTy) (i : Int) : Int := max (intMin t) (min (intMax t) i)

/-- A conversion of a floating-point value to an integer type (R54). -/
def toIntConv (t : ElemTy) (mode : RMode) : FVal → Nat × Flags
  | .nan _ => (0, { nv := true })
  | .inf neg => (wrapInt t.width (if neg then intMin t else intMax t), { nv := true })
  | .fin neg m e =>
    let r := roundAt mode neg m e 0
    let i : Int := if neg then -(r.1 : Int) else (r.1 : Int)
    if i < intMin t || intMax t < i then (wrapInt t.width (satInt t i), { nv := true })
    else (wrapInt t.width i, { nx := r.2 })

/-- An integer as an exact value; zero is +0 (R55). -/
def ofInt (i : Int) : Exact := .fin (i < 0) i.natAbs 0

/-- A floating-point value as an exact value. -/
def FVal.exact : FVal → Exact
  | .nan _ => .nan
  | .inf n => .inf n
  | .fin n m e => .fin n m e

def FVal.isSnan : FVal → Bool
  | .nan s => s
  | _ => false

def FVal.isNan : FVal → Bool
  | .nan _ => true
  | _ => false

def FVal.isZero : FVal → Bool
  | .fin _ m _ => m == 0
  | _ => false

end Sys2Proof.Machine
end

