-- ==== Sys2Proof/Machine/Float.lean ====
section
/-! DEFINITION. Floating-point arithmetic on bit patterns: the exact result of each operation, rounded once (R49), the
estimates (R158) and the windowed sum (R59 to R62). -/

namespace Sys2Proof.Machine

/-- A fuelled search for the greatest r with r · r ≤ n, bit by bit from bit `k - 1` down. -/
def isqrtFrom (n : Nat) : Nat → Nat → Nat
  | 0, acc => acc
  | k + 1, acc => isqrtFrom n k (if (acc + 2 ^ k) * (acc + 2 ^ k) ≤ n then acc + 2 ^ k else acc)

/-- The integer square root. -/
def isqrt (n : Nat) : Nat := isqrtFrom n (Nat.log2 n / 2 + 1) 0

/-- ± m · 2^e with a sticky tail: when `rest` holds, the value lies strictly between m · 2^e and (m + 1) · 2^e. -/
def jam (neg : Bool) (m : Nat) (e : Int) (rest : Bool) : Exact :=
  if rest then .fin neg (2 * m + 1) (e - 1) else .fin neg m e

/-- An exact result with the flags that its operands raise. -/
abbrev ExactRes := Exact × Flags

/-- NV for a signalling NaN among the operands (R43). -/
def snanFlags (xs : List FVal) : Flags := Flags.invalid (xs.any FVal.isSnan)

/-- The exact sum of two finite values; a zero result takes its sign by R49. -/
def addFin (mode : RMode) (an : Bool) (am : Nat) (ae : Int) (bn : Bool) (bm : Nat) (be : Int) : Exact :=
  let e := min ae be
  let x : Int := (if an then -1 else 1) * (am * 2 ^ (ae - e).toNat : Nat)
  let y : Int := (if bn then -1 else 1) * (bm * 2 ^ (be - e).toNat : Nat)
  let s := x + y
  if s = 0 then .fin (if an = bn then an else mode == .rdn) 0 e
  else .fin (s < 0) s.natAbs e

/-- a + b (R49, R50). -/
def addExact (mode : RMode) : FVal → FVal → ExactRes
  | .nan s, b => (.nan, Flags.invalid (s || b.isSnan))
  | a, .nan s => (.nan, Flags.invalid (s || a.isSnan))
  | .inf n, .inf k => if n = k then (.inf n, {}) else (.nan, { nv := true })
  | .inf n, .fin .. => (.inf n, {})
  | .fin .., .inf n => (.inf n, {})
  | .fin an am ae, .fin bn bm be => (addFin mode an am ae bn bm be, {})

def FVal.negate : FVal → FVal
  | .nan s => .nan s
  | .inf n => .inf (!n)
  | .fin n m e => .fin (!n) m e

/-- The exact product as a value (R60): NaN for a NaN operand or 0 × ∞. -/
def mulVal : FVal → FVal → FVal × Flags
  | .nan s, b => (.nan false, Flags.invalid (s || b.isSnan))
  | a, .nan s => (.nan false, Flags.invalid (s || a.isSnan))
  | .inf n, .inf k => (.inf (n != k), {})
  | .inf n, .fin k m _ => if m = 0 then (.nan false, { nv := true }) else (.inf (n != k), {})
  | .fin n m _, .inf k => if m = 0 then (.nan false, { nv := true }) else (.inf (n != k), {})
  | .fin an am ae, .fin bn bm be => (.fin (an != bn) (am * bm) (ae + be), {})

/-- a × b. -/
def mulExact (a b : FVal) : ExactRes :=
  let p := mulVal a b
  (p.1.exact, p.2)

/-- a × b + c, exact (R155): 0 × ∞ is invalid even when c is a NaN. -/
def fmaExact (mode : RMode) (a b c : FVal) : ExactRes :=
  let p := mulVal a b
  let s := addExact mode p.1 c
  (s.1, p.2.or s.2)

/-- a / b, with enough bits for the precision of f (R157). -/
def divExact (f : Fmt) : FVal → FVal → ExactRes
  | .nan s, b => (.nan, Flags.invalid (s || b.isSnan))
  | a, .nan s => (.nan, Flags.invalid (s || a.isSnan))
  | .inf _, .inf _ => (.nan, { nv := true })
  | .inf n, .fin k _ _ => (.inf (n != k), {})
  | .fin n _ _, .inf k => (.fin (n != k) 0 0, {})
  | .fin an am ae, .fin bn bm be =>
    if bm = 0 then
      if am = 0 then (.nan, { nv := true }) else (.inf (an != bn), { dz := true })
    else if am = 0 then (.fin (an != bn) 0 0, {})
    else
      let k := f.mbits + 4 + Nat.log2 bm - Nat.log2 am
      let num := am * 2 ^ k
      (jam (an != bn) (num / bm) (ae - be - k) (num % bm != 0), {})

/-- √a, with enough bits for the precision of f (R157). -/
def sqrtExact (f : Fmt) : FVal → ExactRes
  | .nan s => (.nan, Flags.invalid s)
  | .inf n => if n then (.nan, { nv := true }) else (.inf false, {})
  | .fin n m e =>
    if m = 0 then (.fin n 0 0, {})
    else if n then (.nan, { nv := true })
    else
      let k := 2 * (f.mbits + 4)
      let k := if (e - k) % 2 = 0 then k else k + 1
      let r := isqrt (m * 2 ^ k)
      (jam false r ((e - k) / 2) (r * r != m * 2 ^ k), {})

/-- Rounds an exact result and joins the flags. -/
def Fmt.deliver (f : Fmt) (mode : RMode) (sat : Bool) (r : ExactRes) : Nat × Flags :=
  let q := f.round mode sat r.1
  (q.1, r.2.or q.2)

/-- A pattern's place in the order of values with −0 below +0 (R156). -/
def Fmt.key (f : Fmt) (x : Nat) : Int :=
  let s := 2 ^ (f.ebits + f.mbits)
  if x.testBit (f.ebits + f.mbits) then -((x % s : Nat) : Int) - 1 else ((x % s : Nat) : Int)

/-- A pattern's place in the order of values with −0 equal to +0 (R159). -/
def Fmt.valueKey (f : Fmt) (x : Nat) : Int :=
  let s := 2 ^ (f.ebits + f.mbits)
  if x.testBit (f.ebits + f.mbits) then -((x % s : Nat) : Int) else ((x % s : Nat) : Int)

/-- `vfmin` (or `vfmax`) of two patterns (R156). -/
def Fmt.minMax (f : Fmt) (isMax : Bool) (x y : Nat) : Nat × Flags :=
  let a := f.decode x
  let b := f.decode y
  if a.isNan || b.isNan then (f.nanBits, snanFlags [a, b])
  else if isMax then (if f.key x < f.key y then y else x, {})
  else (if f.key y < f.key x then y else x, {})

/-- The bits of the result of `vfcmp` on one lane, with its flags (R159). -/
def Fmt.compare (f : Fmt) (c : VCond) (x y : Nat) : Bool × Flags :=
  let a := f.decode x
  let b := f.decode y
  let un := a.isNan || b.isNan
  let kx := f.valueKey x
  let ky := f.valueKey y
  let loud : Bool := match c with | .lt | .le | .gt | .ge => true | _ => false
  (match c with
    | .eq => !un && kx == ky
    | .ne => un || kx != ky
    | .lt => !un && kx < ky
    | .le => !un && kx ≤ ky
    | .gt => !un && ky < kx
    | .ge => !un && ky ≤ kx
    | .un => un
    | .ord => !un,
   Flags.invalid (a.isSnan || b.isSnan || (un && loud)))

/-- Multiplies a value by a power of two, exactly. -/
def FVal.scale (k : Int) : FVal → FVal
  | .nan s => .nan s
  | .inf n => .inf n
  | .fin n m e => .fin n m (e + k)

/-! ### Estimates (R158) -/

/-- The four estimates. -/
inductive EstOp where
  | rcp | rsq | exp2 | log2
  deriving DecidableEq, Repr

/-- Fixed-point 2^(2^-i), with 96 fraction bits, for i = 1, 2, …: each is the square root of the one before. -/
def exp2Table : Nat → Nat → List Nat
  | 0, _ => []
  | n + 1, c => let r := isqrt (c * 2 ^ 96); r :: exp2Table n r

/-- 2^f · 2^96 for the fraction f whose first `table.length` bits are those of `fr`, most significant first. -/
def exp2Frac (fr : Nat) : List Nat → Nat → Nat → Nat
  | [], _, acc => acc
  | c :: cs, n, acc => exp2Frac fr cs (n - 1) (if fr.testBit (n - 1) then acc * c / 2 ^ 96 else acc)

/-- The first n bits of log2 of x · 2^-128, x · 2^-128 in [1, 2), as a number. -/
def log2Bits : Nat → Nat → Nat → Nat
  | 0, _, acc => acc
  | n + 1, x, acc =>
    let y := x * x / 2 ^ 128
    if 2 ^ 129 ≤ y then log2Bits n (y / 2) (2 * acc + 1) else log2Bits n y (2 * acc)

/-- A close approximation of the estimated function at a finite nonzero operand for which a bound holds: ± m · 2^e, with
an error far below every bound of R158. -/
def estimateIdeal (op : EstOp) (neg : Bool) (m : Nat) (e : Int) : Bool × Nat × Int :=
  match op with
  | .rcp => (neg, 2 ^ (64 + Nat.log2 m) / m, -e - 64 - (Nat.log2 m : Int))
  | .rsq =>
    let m' := if e % 2 = 0 then m else 2 * m
    let e' := if e % 2 = 0 then e else e - 1
    let k := Nat.log2 m' + 128
    let k := if k % 2 = 0 then k else k + 1
    (false, isqrt (2 ^ k / m'), -(e' + k) / 2)
  | .exp2 =>
    let v : Int := (if neg then -1 else 1) * (m : Int)
    -- floor and 48 fraction bits of ± m · 2^e
    let scaled : Int := if 0 ≤ e then v * 2 ^ e.toNat * 2 ^ 48 else v * 2 ^ 48 / 2 ^ (-e).toNat
    let ip := scaled / 2 ^ 48
    let fr := (scaled % 2 ^ 48).toNat
    (false, exp2Frac fr (exp2Table 48 (2 ^ 97)) 48 (2 ^ 96), ip - 96)
  | .log2 =>
    let l := Nat.log2 m
    let x := m * 2 ^ 128 / 2 ^ l
    let v : Int := ((l : Int) + e) * 2 ^ 64 + (log2Bits 64 x 0 : Int)
    (v < 0, v.natAbs, -64)

/-- |x − y| ≤ b for signed dyadic numbers. -/
def within (xn : Bool) (xm : Nat) (xe : Int) (yn : Bool) (ym : Nat) (ye : Int) (bm : Nat) (be : Int) : Bool :=
  let e := min xe (min ye be)
  let sc (m : Nat) (k : Int) : Int := (m * 2 ^ (k - e).toNat : Nat)
  let x : Int := (if xn then -1 else 1) * sc xm xe
  let y : Int := (if yn then -1 else 1) * sc ym ye
  (x - y).natAbs ≤ (sc bm be).toNat

/-- The bound of R158 on a result near ± m · 2^e, as a number b · 2^k: where an ulp counts, one in the binade of the exact value,
also for a delivered value in another: DESIGN CHOICE, log entry 91. -/
def estimateBound (op : EstOp) (et : ElemTy) (am : Nat) (ae : Int) (m : Nat) (e : Int) : Nat × Int :=
  let f := fmtOf et
  let ulp := max (f.quantum m e) f.qmin
  if et != .f32 then (1, ulp)
  else
    match op with
    | .rcp | .rsq => (m, e - 14)
    | .exp2 => (2, ulp)
    | .log2 =>
      let l : Int := (Nat.log2 am : Int) + ae
      if l = -1 || l = 0 || (l = 1 && am = 2 ^ Nat.log2 am) then (1, -21) else (m, e - 21)

/-- x · 2^k ≤ y · 2^j. -/
def dyadicLe (x : Nat) (k : Int) (y : Nat) (j : Int) : Bool :=
  let e := min k j
  x * 2 ^ (k - e).toNat ≤ y * 2 ^ (j - e).toNat

/-- A value lies within the bound of R158 on the result at ± m · 2^e, where the result is close to `t`. The reciprocal and the
reciprocal root are held against the operand exactly, 2^a and log2 a against `t`. -/
def estimateOk (op : EstOp) (et : ElemTy) (m : Nat) (e : Int) (t : Bool × Nat × Int) : FVal → Bool
  | .fin cn cm ce =>
    let b := estimateBound op et m e t.2.1 t.2.2
    match op with
    | .rcp =>
      if et = .f32 then within (cn != t.1) (cm * m) (ce + e) false 1 0 1 (-14)
      else within (cn != t.1) (cm * m) (ce + e) false 1 0 m (e + b.2)
    | .rsq =>
      !cn &&
        if et = .f32 then
          dyadicLe ((2 ^ 14 - 1) ^ 2) (-28) (cm ^ 2 * m) (2 * ce + e) && dyadicLe (cm ^ 2 * m) (2 * ce + e) ((2 ^ 14 + 1) ^ 2) (-28)
        else
          let x := min ce b.2
          let c := cm * 2 ^ (ce - x).toNat
          let u := 2 ^ (b.2 - x).toNat
          dyadicLe ((c - u) ^ 2 * m) (2 * x + e) 1 0 && dyadicLe 1 0 ((c + u) ^ 2 * m) (2 * x + e)
    | _ => within cn cm ce t.1 t.2.1 t.2.2 b.1 b.2
  | _ => false

/-- The exact cases of R158. -/
def estimateExact (op : EstOp) (f : Fmt) (neg : Bool) (m : Nat) (e : Int) : Option Exact :=
  let l : Int := (Nat.log2 m : Int) + e
  let pow := m == 2 ^ Nat.log2 m
  let normal (k : Int) : Bool := 1 - (f.bias : Int) ≤ k && k ≤ (f.bias : Int)
  match op with
  | .rcp => if pow && normal (-l) then some (.fin neg 1 (-l)) else none
  | .rsq => if pow && l % 2 = 0 && normal (-l / 2) then some (.fin false 1 (-l / 2)) else none
  | .exp2 =>
    let r := roundAt .rtz neg m e 0
    let k : Int := if neg then -(r.1 : Int) else (r.1 : Int)
    if !r.2 && normal k then some (.fin false 1 k) else none
  | .log2 => if pow then some (ofInt l) else none

def estCode : EstOp → Nat
  | .rcp => 0 | .rsq => 1 | .exp2 => 2 | .log2 => 3

/-- The free value of Config for an estimate, where it is a value of the type within the bound, and otherwise the value next
to the function's own. Log entry 7. -/
def estimatePick (op : EstOp) (et : ElemTy) (x : Nat) (ok : FVal → Bool) (near : Nat) : Nat :=
  let c := Config.estimate (estCode op) et x % 2 ^ et.width
  if ok ((fmtOf et).decode c) then c else near

/-- A pattern of magnitude below the smallest normal value. -/
def Fmt.tinyBits (f : Fmt) (x : Nat) : Bool :=
  match f.decode x with
  | .fin _ m e => m = 0 || (Nat.log2 m : Int) + e < 1 - (f.bias : Int)
  | _ => false

/-- The value delivered where only a bound is stated. UF is set when the value delivered is tiny, a subnormal or zero, also one
that should equal the exact result: DESIGN CHOICE, log entry 73. -/
def estimateBounded (op : EstOp) (et : ElemTy) (x : Nat) (neg : Bool) (m : Nat) (e : Int) : Nat × Flags :=
  let f := fmtOf et
  -- an exponent beyond every format decides the result without a long computation: it overflows, or lies above 0 by less
  -- than any value of the type
  let l : Int := (Nat.log2 m : Int) + e
  if op = .exp2 && 12 < l then
    if neg then
      let ulps : Nat := if et = .f32 then 2 else 1
      let small : FVal → Bool
        | .fin cn cm ce => within cn cm ce false 0 0 (if cn then ulps - 1 else ulps) f.qmin
        | _ => false
      (estimatePick op et x small 0, { nx := true, uf := true })
    else (f.infBits false, { ov := true, nx := true })
  else
    let t := estimateIdeal op neg m e
    let near := f.roundFin .rne false t.1 t.2.1 t.2.2
    if near.2.ov then near
    else
      let v := estimatePick op et x (estimateOk op et m e t) near.1
      (v, { nx := true, uf := f.tinyBits v })

/-- An estimate on one lane (R158). -/
def estimate (op : EstOp) (et : ElemTy) (x : Nat) : Nat × Flags :=
  let f := fmtOf et
  match f.decode x with
  | .nan s => (f.nanBits, Flags.invalid s)
  | .inf n =>
    match op, n with
    | .rcp, n => (f.signBits n, {})
    | .rsq, false => (0, {})
    | .exp2, false | .log2, false => (f.infBits false, {})
    | .exp2, true => (0, {})
    | .rsq, true | .log2, true => (f.nanBits, { nv := true })
  | .fin n m e =>
    if m = 0 then
      match op with
      | .rcp | .rsq => (f.infBits n, { dz := true })
      | .exp2 => ((f.round .rne false (.fin false 1 0)).1, {})
      | .log2 => (f.infBits true, { dz := true })
    else if n && (op == .rsq || op == .log2) then (f.nanBits, { nv := true })
    else
      match estimateExact op f n m e with
      | some r => ((f.round .rne false r).1, {})
      | none => estimateBounded op et x n m e

/-! ### The windowed sum (R59 to R62) -/

/-- W of a window code (R59). -/
def windowWidth (code : Nat) : Nat :=
  match code % 8 with
  | 0 => 16 | 1 => 24 | 2 => 32 | 3 => 40 | 4 => 48 | 5 => 64 | 6 => 96 | _ => 128

/-- floor(log2 |p|) of a nonzero finite product. -/
def topExp : FVal → Option Int
  | .fin _ m e => if m = 0 then none else some ((Nat.log2 m : Int) + e)
  | _ => none

def maxExp : List FVal → Option Int
  | [] => none
  | p :: ps =>
    match topExp p, maxExp ps with
    | none, r => r
    | some k, none => some k
    | some k, some r => some (max k r)

/-- The term of a product in units of q = 2^q, truncated toward zero, with whether a bit was lost. -/
def windowTerm (q : Int) : FVal → Int × Bool
  | .fin n m e =>
    let r := roundAt .rtz n m e q
    (if n then -(r.1 : Int) else (r.1 : Int), r.2)
  | _ => (0, false)

/-- The sum of the terms, with the OR of the lost bits. -/
def windowTerms (q : Int) : List FVal → Int × Bool
  | [] => (0, false)
  | p :: ps =>
    let t := windowTerm q p
    let r := windowTerms q ps
    (t.1 + r.1, t.2 || r.2)

/-- The pair (S, lost) of R60, with NV where infinities of both signs meet. A sum of no products is +0. -/
def windowSum (ps : List FVal) (w : Nat) : Exact × Bool × Flags :=
  let pinf := ps.any (· == .inf false)
  let ninf := ps.any (· == .inf true)
  if ps.any FVal.isNan then (.nan, false, Flags.invalid (pinf && ninf))
  else if pinf && ninf then (.nan, false, { nv := true })
  else if pinf || ninf then (.inf ninf, false, {})
  else
    match maxExp ps with
    | none =>
      (.fin (!ps.isEmpty && ps.all fun p => match p with | .fin n _ _ => n | _ => false) 0 0, false, {})
    | some e =>
      let q := e - (w : Int) + 1
      let r := windowTerms q ps
      (.fin (r.1 < 0) r.1.natAbs q, r.2, {})

end Sys2Proof.Machine
end

