-- ==== Sys2Proof/Decode.lean ====
section
/-! DEFINITION. Decoding (R69 to R87) and, after it, the encoder. A word is cut into the fields of its format once, here;
field codes become constructors; `Instr.wf` makes the checks that an entry makes on its own fields. -/

namespace Sys2Proof

/-- Why a run of bytes is no instruction (R83). -/
inductive DecodeError where
  /-- fewer bytes than the length field asks for -/
  | truncated
  /-- a reserved major or `0x3F` -/
  | reservedMajor
  /-- an unassigned fn6, fn8 or kind -/
  | unassignedMinor
  /-- a base major with an X length, or an X major with a base length -/
  | wrongLength
  /-- a literal where R70 allows none -/
  | literalNotAllowed
  /-- a nonzero must-be-zero field -/
  | mustBeZero
  /-- a field value that its entry does not list -/
  | illegalCode
  deriving DecidableEq, Repr

/-! ### Field codes (R47, R71, R76, R80 to R82) -/

def fin5 (x : BitVec 5) : Reg := x.toFin
def bv5 (r : Reg) : BitVec 5 := BitVec.ofFin r
def fin3 (x : BitVec 3) : Fin 8 := x.toFin
def bv3 (r : Fin 8) : BitVec 3 := BitVec.ofFin r
def fin2 (x : BitVec 2) : Fin 4 := x.toFin
def bv2 (r : Fin 4) : BitVec 2 := BitVec.ofFin r
def fin4 (x : BitVec 4) : Fin 16 := x.toFin
def bv4 (r : Fin 16) : BitVec 4 := BitVec.ofFin r
def fin6 (x : BitVec 6) : Fin 64 := x.toFin
def bv6 (r : Fin 64) : BitVec 6 := BitVec.ofFin r
def bitOf (b : Bool) : BitVec 1 := BitVec.ofBool b
def boolOf (x : BitVec 1) : Bool := x == 1#1

/-- Element type codes (R76). -/
def ElemTy.code : ElemTy → BitVec 4
  | .i8 => 0
  | .u8 => 1
  | .i16 => 2
  | .u16 => 3
  | .i32 => 4
  | .u32 => 5
  | .i64 => 6
  | .u64 => 7
  | .f64 => 8
  | .f32 => 9
  | .bf16 => 10
  | .f16 => 11
  | .e4m3 => 12
  | .e5m2 => 13

def ElemTy.ofCode (x : BitVec 4) : Option ElemTy :=
  match x.toNat with
  | 0 => some .i8
  | 1 => some .u8
  | 2 => some .i16
  | 3 => some .u16
  | 4 => some .i32
  | 5 => some .u32
  | 6 => some .i64
  | 7 => some .u64
  | 8 => some .f64
  | 9 => some .f32
  | 10 => some .bf16
  | 11 => some .f16
  | 12 => some .e4m3
  | 13 => some .e5m2
  | _ => none

/-- Rounding codes (R47, R77). -/
def RoundField.code : RoundField → BitVec 3
  | .rne => 0
  | .rtz => 1
  | .rup => 2
  | .rdn => 3
  | .rna => 4
  | .dyn => 7

def RoundField.ofCode (x : BitVec 3) : Option RoundField :=
  match x.toNat with
  | 0 => some .rne
  | 1 => some .rtz
  | 2 => some .rup
  | 3 => some .rdn
  | 4 => some .rna
  | 7 => some .dyn
  | _ => none

/-- Hint codes (R71). -/
def Hint.code : Hint → BitVec 2
  | .norm => 0
  | .strm => 1
  | .long => 2
  | .unc => 3

def Hint.ofCode (x : BitVec 2) : Option Hint :=
  match x.toNat with
  | 0 => some .norm
  | 1 => some .strm
  | 2 => some .long
  | 3 => some .unc
  | _ => none

/-- Fence scopes (R80). -/
def Scope.code : Scope → BitVec 3
  | .core => 1
  | .cluster => 2
  | .die => 3
  | .pkg => 4
  | .fab => 5
  | .sys => 6

def Scope.ofCode (x : BitVec 3) : Option Scope :=
  match x.toNat with
  | 1 => some .core
  | 2 => some .cluster
  | 3 => some .die
  | 4 => some .pkg
  | 5 => some .fab
  | 6 => some .sys
  | _ => none

/-- Condition codes in fn6 (R82). -/
def Cond.code : Cond → BitVec 6
  | .eq => 0
  | .ne => 1
  | .lt => 2
  | .ge => 3
  | .ltu => 4
  | .geu => 5

def Cond.ofCode (x : BitVec 6) : Option Cond :=
  match x.toNat with
  | 0 => some .eq
  | 1 => some .ne
  | 2 => some .lt
  | 3 => some .ge
  | 4 => some .ltu
  | 5 => some .geu
  | _ => none

/-- Vector condition codes (R159). -/
def VCond.code : VCond → BitVec 4
  | .eq => 0
  | .ne => 1
  | .lt => 2
  | .le => 3
  | .gt => 4
  | .ge => 5
  | .un => 6
  | .ord => 7

def VCond.ofCode (x : BitVec 4) : Option VCond :=
  match x.toNat with
  | 0 => some .eq
  | 1 => some .ne
  | 2 => some .lt
  | 3 => some .le
  | 4 => some .gt
  | 5 => some .ge
  | 6 => some .un
  | 7 => some .ord
  | _ => none

/-- Function codes of `plog` (R82) and `kop` (R170). -/
def LogFn.code : LogFn → BitVec 6
  | .and => 0
  | .or => 1
  | .xor => 2
  | .andn => 3
  | .not => 4
  | .mov => 5

def LogFn.ofCode (x : BitVec 6) : Option LogFn :=
  match x.toNat with
  | 0 => some .and
  | 1 => some .or
  | 2 => some .xor
  | 3 => some .andn
  | 4 => some .not
  | 5 => some .mov
  | _ => none

/-- Source widths in w3 (R123). -/
def ExtWidth.code : ExtWidth → BitVec 3
  | .b => 0
  | .h => 1
  | .w => 2

def ExtWidth.ofCode (x : BitVec 3) : Option ExtWidth :=
  match x.toNat with
  | 0 => some .b
  | 1 => some .h
  | 2 => some .w
  | _ => none

/-- Size codes of `ld` (R78). -/
def LdSize.code : LdSize → BitVec 3
  | .b => 0
  | .h => 1
  | .w => 2
  | .d => 3
  | .q => 4
  | .bs => 5
  | .hs => 6
  | .ws => 7

def LdSize.ofCode (x : BitVec 3) : Option LdSize :=
  match x.toNat with
  | 0 => some .b
  | 1 => some .h
  | 2 => some .w
  | 3 => some .d
  | 4 => some .q
  | 5 => some .bs
  | 6 => some .hs
  | 7 => some .ws
  | _ => none

/-- Size codes of `st` (R78). -/
def StSize.code : StSize → BitVec 3
  | .b => 0
  | .h => 1
  | .w => 2
  | .d => 3
  | .q => 4

def StSize.ofCode (x : BitVec 3) : Option StSize :=
  match x.toNat with
  | 0 => some .b
  | 1 => some .h
  | 2 => some .w
  | 3 => some .d
  | 4 => some .q
  | _ => none

/-- Size codes of `vld` and `vst` (R78). -/
def VSize.code : VSize → BitVec 3
  | .b => 0
  | .h => 1
  | .w => 2
  | .d => 3
  | .s8 => 4

def VSize.ofCode (x : BitVec 3) : Option VSize :=
  match x.toNat with
  | 0 => some .b
  | 1 => some .h
  | 2 => some .w
  | 3 => some .d
  | 4 => some .s8
  | _ => none

/-- Function codes of `amo` (R278). -/
def AmoFn.code : AmoFn → BitVec 4
  | .add => 0
  | .and => 1
  | .or => 2
  | .xor => 3
  | .min => 4
  | .max => 5
  | .minu => 6
  | .maxu => 7
  | .swap => 8

def AmoFn.ofCode (x : BitVec 4) : Option AmoFn :=
  match x.toNat with
  | 0 => some .add
  | 1 => some .and
  | 2 => some .or
  | 3 => some .xor
  | 4 => some .min
  | 5 => some .max
  | 6 => some .minu
  | 7 => some .maxu
  | 8 => some .swap
  | _ => none

/-- Function codes of `amof` (R278). -/
def FoldFn.code : FoldFn → BitVec 4
  | .add => 0
  | .min => 1
  | .max => 2
  | .and => 3
  | .or => 4
  | .xor => 5

def FoldFn.ofCode (x : BitVec 4) : Option FoldFn :=
  match x.toNat with
  | 0 => some .add
  | 1 => some .min
  | 2 => some .max
  | 3 => some .and
  | 4 => some .or
  | 5 => some .xor
  | _ => none

/-- Reduction codes (R167, R221, R471). -/
def RedOp.code : RedOp → BitVec 2
  | .add => 0
  | .min => 1
  | .max => 2

def RedOp.ofCode (x : BitVec 2) : Option RedOp :=
  match x.toNat with
  | 0 => some .add
  | 1 => some .min
  | 2 => some .max
  | _ => none

/-- Matrix format codes (R180). -/
def MFmt.code : MFmt → BitVec 4
  | .e4m3 => 0
  | .e5m2 => 1
  | .bf16 => 2
  | .f16 => 3
  | .f32 => 4
  | .f64 => 5
  | .i8 => 6
  | .u8 => 7

def MFmt.ofCode (x : BitVec 4) : Option MFmt :=
  match x.toNat with
  | 0 => some .e4m3
  | 1 => some .e5m2
  | 2 => some .bf16
  | 3 => some .f16
  | 4 => some .f32
  | 5 => some .f64
  | 6 => some .i8
  | 7 => some .u8
  | _ => none

/-- Tile format codes of the drains (R193). -/
def TileFmt.code : TileFmt → BitVec 3
  | .f32 => 0
  | .bf16 => 1
  | .f16 => 2
  | .i32 => 3
  | .f64 => 4

def TileFmt.ofCode (x : BitVec 3) : Option TileFmt :=
  match x.toNat with
  | 0 => some .f32
  | 1 => some .bf16
  | 2 => some .f16
  | 3 => some .i32
  | 4 => some .f64
  | _ => none

/-- Accumulator codes (R180). -/
def AccSel.code : AccSel → BitVec 2
  | .full => 0
  | .bf16 => 1
  | .f16 => 2
  | .i32 => 3

def AccSel.ofCode (x : BitVec 2) : Option AccSel :=
  match x.toNat with
  | 0 => some .full
  | 1 => some .bf16
  | 2 => some .f16
  | 3 => some .i32
  | _ => none

/-- Scale mode codes (R180). -/
def ScaleMode.code : ScaleMode → BitVec 2
  | .none => 0
  | .blk => 1
  | .e8m0 => 2

def ScaleMode.ofCode (x : BitVec 2) : Option ScaleMode :=
  match x.toNat with
  | 0 => some .none
  | 1 => some .blk
  | 2 => some .e8m0
  | _ => Option.none

/-- Collective operation codes (R471). -/
def CollOp.code : CollOp → BitVec 3
  | .allGather => 0
  | .reduceScatter => 1
  | .allReduce => 2
  | .broadcast => 3
  | .allToAll => 4

def CollOp.ofCode (x : BitVec 3) : Option CollOp :=
  match x.toNat with
  | 0 => some .allGather
  | 1 => some .reduceScatter
  | 2 => some .allReduce
  | 3 => some .broadcast
  | 4 => some .allToAll
  | _ => none

/-- The element type that names a tile format in `mzero` (R191). -/
def TileFmt.etCode : TileFmt → BitVec 4
  | .f64 => 8
  | .f32 => 9
  | .bf16 => 10
  | .f16 => 11
  | .i32 => 4

def TileFmt.ofEtCode (x : BitVec 4) : Option TileFmt :=
  match x.toNat with
  | 8 => some .f64
  | 9 => some .f32
  | 10 => some .bf16
  | 11 => some .f16
  | 4 => some .i32
  | _ => none

/-- The window selector of control bits [3:0] (R153): bit 3 set names a code. -/
def WinSel.code4 : WinSel → BitVec 4
  | .dflt => 0
  | .code w => 1#1 ++ bv3 w

def WinSel.ofBits (x : BitVec 4) : Option WinSel :=
  if x.extractLsb' 3 1 = 1 then some (.code (fin3 (x.extractLsb' 0 3)))
  else if x.extractLsb' 0 3 = 0 then some .dflt else none

/-- The FP8 override of control bits [10:9] (R161). -/
def Fp8Ovr.code : Fp8Ovr → BitVec 2
  | .none => 0
  | .prop => 1
  | .sat => 3

def Fp8Ovr.ofCode (x : BitVec 2) : Option Fp8Ovr :=
  match x.toNat with
  | 0 => some .none
  | 1 => some .prop
  | 3 => some .sat
  | _ => Option.none

/-! ### Formats (R71, R73) -/

/-- Format A. -/
def packA (w3 : BitVec 3) (fn : BitVec 6) (b a d : BitVec 5) (major : BitVec 6) : IWord :=
  w3 ++ fn ++ b ++ a ++ d ++ major ++ 0#2

/-- Format I. -/
def packI (imm : BitVec 14) (a d : BitVec 5) (major : BitVec 6) (len : BitVec 2) : IWord :=
  imm ++ a ++ d ++ major ++ len

/-- Format U. -/
def packU (imm : BitVec 19) (d : BitVec 5) (major : BitVec 6) (len : BitVec 2) : IWord :=
  imm ++ d ++ major ++ len

/-- Format M. -/
def packM (disp : BitVec 9) (hint : BitVec 2) (size : BitVec 3) (a d : BitVec 5) (major : BitVec 6)
    (len : BitVec 2) : IWord :=
  disp ++ hint ++ size ++ a ++ d ++ major ++ len

/-- Format BC. -/
def packBC (disp : BitVec 11) (b a : BitVec 5) (cond : BitVec 3) (major : BitVec 6) (len : BitVec 2) : IWord :=
  disp ++ b ++ a ++ cond ++ major ++ len

/-- Format BP. -/
def packBP (disp : BitVec 20) (neg : BitVec 1) (p : BitVec 3) (major : BitVec 6) (len : BitVec 2) : IWord :=
  disp ++ neg ++ p ++ major ++ len

/-- Format J. -/
def packJ (disp : BitVec 24) (major : BitVec 6) (len : BitVec 2) : IWord :=
  disp ++ major ++ len

/-- The fields of an X instruction (R73). -/
structure XF where
  b : BitVec 5
  a : BitVec 5
  d : BitVec 5
  fn : BitVec 8
  major : BitVec 6
  imm : BitVec 13
  et : BitVec 4
  rm : BitVec 3
  k : BitVec 3
  pn : BitVec 1
  p : BitVec 3
  c : BitVec 5
  ctl : BitVec 32
  deriving DecidableEq, Repr

/-- Word 0 of an X instruction. -/
def XF.word0 (x : XF) (len : BitVec 2) : IWord := 0#1 ++ x.b ++ x.a ++ x.d ++ x.fn ++ x.major ++ len

/-- Word 1 of an X instruction. -/
def XF.word1 (x : XF) : IWord := x.imm ++ x.et ++ x.rm ++ x.k ++ x.pn ++ x.p ++ x.c

/-- The fields of the three X words. -/
def XF.ofWords (w0 w1 w2 : IWord) : XF where
  b := w0.extractLsb' 26 5
  a := w0.extractLsb' 21 5
  d := w0.extractLsb' 16 5
  fn := w0.extractLsb' 8 8
  major := w0.extractLsb' 2 6
  imm := w1.extractLsb' 19 13
  et := w1.extractLsb' 15 4
  rm := w1.extractLsb' 12 3
  k := w1.extractLsb' 9 3
  pn := w1.extractLsb' 8 1
  p := w1.extractLsb' 5 3
  c := w1.extractLsb' 0 5
  ctl := w2

/-- The result of decoding. -/
abbrev DecodeResult := Except DecodeError Instr

/-- A must-be-zero or legality check. -/
def chk (ok : Bool) (e : DecodeError) (r : DecodeResult) : DecodeResult := if ok then r else .error e

/-- A code that its table lists. -/
def coded {α : Type} (o : Option α) (k : α → DecodeResult) : DecodeResult :=
  match o with
  | some x => k x
  | none => .error .illegalCode

/-- A field or the literal that replaces it; the replaced field is zero (R70). -/
def withImm {n : Nat} (f : BitVec n) (lit : Option Word) (k : Imm n → DecodeResult) : DecodeResult :=
  match lit with
  | none => k (.short f)
  | some v => chk (f == 0) .mustBeZero (k (.lit v))

/-- No literal is allowed here. -/
def noLit (lit : Option Word) (r : DecodeResult) : DecodeResult := chk lit.isNone .literalNotAllowed r

/-- A field that names a predicate or mask register: its higher bits are zero (R72). -/
def low3 (x : BitVec 5) (k : Fin 8 → DecodeResult) : DecodeResult :=
  chk (x.extractLsb' 3 2 == 0) .mustBeZero (k (fin3 (x.extractLsb' 0 3)))

/-- The field value that names a predicate or mask register. -/
def reg3 (r : Fin 8) : BitVec 5 := 0#2 ++ bv3 r

/-- Whatever was decoded must pass the checks of its entry. -/
def accept (i : Instr) : DecodeResult := chk i.wf .illegalCode (.ok i)

/-! ### Base majors -/

/-- Major `0x00` (R116). -/
def decodeSystem (w3 : BitVec 3) (fn : BitVec 6) (b a d : BitVec 5) : DecodeResult :=
  match fn.toNat with
  | 0 => chk (w3 == 0 && b == 0 && a == 0 && d == 0) .mustBeZero (accept .nop)
  | 1 => chk (w3 == 0 && b == 0 && a == 0 && d == 0) .mustBeZero (accept .yield)
  | 2 => chk (a == 0) .mustBeZero (accept (.mfsr (fin5 d) (w3 ++ b)))
  | 3 => chk (d == 0) .mustBeZero (accept (.mtsr (fin5 a) (w3 ++ b)))
  | 4 => accept (.trap (fin5 d) (fin5 a) (w3 ++ b))
  | 5 => chk (a == 0 && d == 0) .mustBeZero (accept (.brk (w3 ++ b)))
  | _ => .error .unassignedMinor

/-- Major `0x01` (R120 to R123). -/
def decodeInteger (w3 : BitVec 3) (fn : BitVec 6) (b a d : BitVec 5) : DecodeResult :=
  let A := fin5 a
  let B := fin5 b
  let D := fin5 d
  match fn.toNat with
  | 0x00 => chk (w3 == 0) .mustBeZero (accept (.add D A B))
  | 0x01 => chk (w3 == 0) .mustBeZero (accept (.sub D A B))
  | 0x02 => chk (w3 == 0) .mustBeZero (accept (.mul D A B))
  | 0x03 => chk (w3 == 0) .mustBeZero (accept (.mulh D A B))
  | 0x04 => chk (w3 == 0) .mustBeZero (accept (.mulhu D A B))
  | 0x05 => chk (w3 == 0) .mustBeZero (accept (.div D A B))
  | 0x06 => chk (w3 == 0) .mustBeZero (accept (.divu D A B))
  | 0x07 => chk (w3 == 0) .mustBeZero (accept (.rem D A B))
  | 0x08 => chk (w3 == 0) .mustBeZero (accept (.remu D A B))
  | 0x10 => chk (w3 == 0) .mustBeZero (accept (.and D A B))
  | 0x11 => chk (w3 == 0) .mustBeZero (accept (.or D A B))
  | 0x12 => chk (w3 == 0) .mustBeZero (accept (.xor D A B))
  | 0x13 => chk (w3 == 0) .mustBeZero (accept (.andn D A B))
  | 0x18 => chk (w3 == 0) .mustBeZero (accept (.shl D A B))
  | 0x19 => chk (w3 == 0) .mustBeZero (accept (.shr D A B))
  | 0x1A => chk (w3 == 0) .mustBeZero (accept (.sra D A B))
  | 0x1B => chk (w3 == 0) .mustBeZero (accept (.rotr D A B))
  | 0x20 => chk (w3 == 0) .mustBeZero (accept (.min D A B))
  | 0x21 => chk (w3 == 0) .mustBeZero (accept (.max D A B))
  | 0x22 => chk (w3 == 0) .mustBeZero (accept (.minu D A B))
  | 0x23 => chk (w3 == 0) .mustBeZero (accept (.maxu D A B))
  | 0x32 => chk (w3 == 0) .mustBeZero (accept (.bfx D A B))
  | 0x33 => chk (w3 == 0) .mustBeZero (accept (.bfi D A B))
  | 0x28 => chk (w3 == 0 && b == 0) .mustBeZero (accept (.clz D A))
  | 0x29 => chk (w3 == 0 && b == 0) .mustBeZero (accept (.ctz D A))
  | 0x2A => chk (w3 == 0 && b == 0) .mustBeZero (accept (.popc D A))
  | 0x30 => chk (b == 0) .mustBeZero (coded (ExtWidth.ofCode w3) fun wd => accept (.sext wd D A))
  | 0x31 => chk (b == 0) .mustBeZero (coded (ExtWidth.ofCode w3) fun wd => accept (.zext wd D A))
  | 0x38 => accept (.sel (fin3 w3) D A B)
  | 0x39 => accept (.shadd (fin3 w3) D A B)
  | _ => .error .unassignedMinor

/-- Major `0x06` (R82, R125): kind [31:30], zero [29:24], shift amount [23:18]. -/
def decodeShiftImm (imm : BitVec 14) (a d : BitVec 5) : DecodeResult :=
  chk (imm.extractLsb' 6 6 == 0) .mustBeZero
    (match (imm.extractLsb' 12 2).toNat with
      | 0 => accept (.shli (fin5 d) (fin5 a) (fin6 (imm.extractLsb' 0 6)))
      | 1 => accept (.shri (fin5 d) (fin5 a) (fin6 (imm.extractLsb' 0 6)))
      | 2 => accept (.srai (fin5 d) (fin5 a) (fin6 (imm.extractLsb' 0 6)))
      | _ => .error .unassignedMinor)

/-- Major `0x0D` (R129). -/
def decodeBranch (cond : BitVec 3) (a b : BitVec 5) (o : Imm 11) : DecodeResult :=
  match cond.toNat with
  | 0 => accept (.beq (fin5 a) (fin5 b) o)
  | 1 => accept (.bne (fin5 a) (fin5 b) o)
  | 2 => accept (.blt (fin5 a) (fin5 b) o)
  | 3 => accept (.bge (fin5 a) (fin5 b) o)
  | 4 => accept (.bltu (fin5 a) (fin5 b) o)
  | 5 => accept (.bgeu (fin5 a) (fin5 b) o)
  | _ => .error .illegalCode

/-- Major `0x11` (R132). -/
def decodeJumpReg (w3 : BitVec 3) (fn : BitVec 6) (b a d : BitVec 5) : DecodeResult :=
  chk (w3 == 0 && b == 0) .mustBeZero
    (match fn.toNat with
      | 0 => chk (d == 0) .mustBeZero (accept (.jr (fin5 a)))
      | 1 => accept (.jalr (fin5 d) (fin5 a))
      | _ => .error .unassignedMinor)

/-- Major `0x19` (R284). -/
def decodeSync (w3 : BitVec 3) (fn : BitVec 6) (b a d : BitVec 5) : DecodeResult :=
  match fn.toNat with
  | 0 => chk (b == 0 && a == 0) .mustBeZero (coded (Scope.ofCode w3) fun s => accept (.fence s (fin5 d)))
  | 1 => chk (w3 == 0) .mustBeZero (accept (.cwait (fin5 d) (fin5 a) (fin5 b)))
  | 2 => chk (w3 == 0 && b == 0 && a == 0 && d == 0) .mustBeZero (accept .fdrain)
  | 3 => chk (w3.extractLsb' 2 1 == 0 && b == 0 && d == 0) .mustBeZero
      (coded (Hint.ofCode (w3.extractLsb' 0 2)) fun h => accept (.pf h (fin5 a)))
  | 4 => chk (w3 == 0 && d == 0) .mustBeZero (accept (.cwb (fin5 a) (fin5 b)))
  | _ => .error .unassignedMinor

/-- Major `0x1A` (R133): fn6 and the queue in w3. -/
def decodeQueue (w3 : BitVec 3) (fn : BitVec 6) (b a d : BitVec 5) : DecodeResult :=
  match fn.toNat, w3.toNat with
  | 0, 0 => chk (b == 0 && d == 0) .mustBeZero (accept (.qput (fin5 a)))
  | 1, 1 => chk (b == 0 && a == 0) .mustBeZero (accept (.qgetQr (fin5 d)))
  | 1, 2 => chk (b == 0 && a == 0) .mustBeZero (accept (.qgetQn (fin5 d)))
  | 2, 0 => chk (d == 0) .mustBeZero (low3 b fun p => accept (.qtryQa p (fin5 a)))
  | 2, 1 => chk (a == 0) .mustBeZero (low3 b fun p => accept (.qtryQr p (fin5 d)))
  | 2, 2 => chk (a == 0) .mustBeZero (low3 b fun p => accept (.qtryQn p (fin5 d)))
  | 2, 3 => chk (a == 0 && d == 0) .mustBeZero (low3 b fun p => accept (.qtryQf p))
  | 0, _ | 1, _ | 2, _ => .error .illegalCode
  | _, _ => .error .unassignedMinor

/-- Major `0x1B` (R351).
R80 gives `w3` zero for this major, while R351 puts the kernel position of `spawn` into `w3[1:0]` and encodes an example so;
R351 is followed: DEDUCED, log entry 92. -/
def decodeTask (w3 : BitVec 3) (fn : BitVec 6) (b a d : BitVec 5) : DecodeResult :=
  match fn.toNat with
  | 0 => chk (w3.extractLsb' 2 1 == 0) .mustBeZero
      (accept (.spawn (fin2 (w3.extractLsb' 0 2)) (fin5 d) (fin5 a) (fin5 b)))
  | 1 => chk (w3 == 0 && b == 0 && a == 0 && d == 0) .mustBeZero (accept .retire)
  | 2 => chk (w3 == 0 && b == 0 && d == 0) .mustBeZero (accept (.tdefer (fin5 a)))
  | _ => .error .unassignedMinor

/-- Major `0x1C` (R247, R252). -/
def decodeGroup (w3 : BitVec 3) (fn : BitVec 6) (b a d : BitVec 5) : DecodeResult :=
  let g := fin2 (w3.extractLsb' 0 2)
  let okG := w3.extractLsb' 2 1 == 0
  match fn.toNat with
  | 0 => chk (okG && b == 0 && a == 0 && d == 0) .mustBeZero (accept (.bar g))
  | 1 => chk (okG && b == 0 && a == 0) .mustBeZero (accept (.barv g (fin5 d)))
  | 2 => chk (okG && b == 0 && d == 0) .mustBeZero (accept (.bwait g (fin5 a)))
  | 3 => chk (w3 == 0) .mustBeZero (accept (.racq (fin5 d) (fin5 a) (fin5 b)))
  | 4 => chk (w3 == 0) .mustBeZero (accept (.rrel (fin5 d) (fin5 a) (fin5 b)))
  | 5 => chk (w3 == 0) .mustBeZero (accept (.rpeek (fin5 d) (fin5 a) (fin5 b)))
  | _ => .error .unassignedMinor

/-- Majors `0x1D` (R374) and `0x1E` (R449). -/
def decodeService (w3 : BitVec 3) (fn : BitVec 6) (b a d : BitVec 5) : DecodeResult :=
  chk (w3 == 0) .mustBeZero
    (match fn.toNat with
      | 0 => chk (b == 0 && a == 0) .mustBeZero (accept (.fget (fin5 d)))
      | 1 => accept (.freply (fin5 d) (fin5 a) (fin5 b))
      | _ => .error .unassignedMinor)

def decodeLease (w3 : BitVec 3) (fn : BitVec 6) (b a d : BitVec 5) : DecodeResult :=
  chk (w3 == 0) .mustBeZero
    (match fn.toNat with
      | 0 => accept (.bwlease (fin5 d) (fin5 a) (fin5 b))
      | 1 => chk (b == 0) .mustBeZero (accept (.bwrel (fin5 d) (fin5 a)))
      | 2 => chk (b == 0) .mustBeZero (accept (.bwq (fin5 d) (fin5 a)))
      | _ => .error .unassignedMinor)

/-- Format A: the fields of a word. -/
def withA (w : IWord) (lit : Option Word)
    (k : BitVec 3 → BitVec 6 → BitVec 5 → BitVec 5 → BitVec 5 → DecodeResult) : DecodeResult :=
  noLit lit (k (w.extractLsb' 29 3) (w.extractLsb' 23 6) (w.extractLsb' 18 5) (w.extractLsb' 13 5) (w.extractLsb' 8 5))

/-- Format I: the fields of a word. -/
def withI (w : IWord) (k : BitVec 14 → BitVec 5 → BitVec 5 → DecodeResult) : DecodeResult :=
  k (w.extractLsb' 18 14) (w.extractLsb' 13 5) (w.extractLsb' 8 5)

/-- Format M: the fields of a word. -/
def withM (w : IWord) (k : BitVec 9 → BitVec 2 → BitVec 3 → BitVec 5 → BitVec 5 → DecodeResult) : DecodeResult :=
  k (w.extractLsb' 23 9) (w.extractLsb' 21 2) (w.extractLsb' 18 3) (w.extractLsb' 13 5) (w.extractLsb' 8 5)

/-- Whether a major is one of the X format (R79). -/
def isXMajor (m : Nat) : Bool :=
  m == 0x18 || (0x20 ≤ m && m ≤ 0x26) || (0x30 ≤ m && m ≤ 0x33) || m == 0x38 || m == 0x39 || m == 0x3C || m == 0x3D

/-- A base word and its literal, if it has one (R79). -/
def decodeBase (w : IWord) (lit : Option Word) : DecodeResult :=
  match (w.extractLsb' 2 6).toNat with
  | 0x00 => withA w lit decodeSystem
  | 0x01 => withA w lit decodeInteger
  | 0x02 => withI w fun i a d => withImm i lit fun v => accept (.addi (fin5 d) (fin5 a) v)
  | 0x03 => withI w fun i a d => withImm i lit fun v => accept (.andi (fin5 d) (fin5 a) v)
  | 0x04 => withI w fun i a d => withImm i lit fun v => accept (.ori (fin5 d) (fin5 a) v)
  | 0x05 => withI w fun i a d => withImm i lit fun v => accept (.xori (fin5 d) (fin5 a) v)
  | 0x06 => noLit lit (withI w decodeShiftImm)
  | 0x07 => withImm (w.extractLsb' 13 19) lit fun v => accept (.li (fin5 (w.extractLsb' 8 5)) v)
  | 0x08 => withImm (w.extractLsb' 13 19) lit fun v => accept (.addpc (fin5 (w.extractLsb' 8 5)) v)
  | 0x09 => withImm (w.extractLsb' 13 19) lit fun v => accept (.addcb (fin5 (w.extractLsb' 8 5)) v)
  | 0x0A => withA w lit fun w3 fn b a d => chk (w3 == 0) .mustBeZero
      (coded (Cond.ofCode fn) fun c => accept (.cmp c (fin5 d) (fin5 a) (fin5 b)))
  | 0x0B => withA w lit fun w3 fn b a d => chk (w3 == 0) .mustBeZero
      (coded (Cond.ofCode fn) fun c => low3 d fun p => accept (.pcmp c p (fin5 a) (fin5 b)))
  | 0x0C => withA w lit fun w3 fn b a d => chk (w3 == 0) .mustBeZero
      (coded (LogFn.ofCode fn) fun f => low3 d fun p => low3 a fun q => low3 b fun r => accept (.plog f p q r))
  | 0x0D => withImm (w.extractLsb' 21 11) lit
      (decodeBranch (w.extractLsb' 8 3) (w.extractLsb' 11 5) (w.extractLsb' 16 5))
  | 0x0E => withImm (w.extractLsb' 12 20) lit fun o =>
      accept (.bp (boolOf (w.extractLsb' 11 1)) (fin3 (w.extractLsb' 8 3)) o)
  | 0x0F => withImm (w.extractLsb' 8 24) lit fun o => accept (.j o)
  | 0x10 => withImm (w.extractLsb' 8 24) lit fun o => accept (.jal o)
  | 0x11 => withA w lit decodeJumpReg
  | 0x12 => withM w fun o h s a d => withImm o lit fun v => coded (Hint.ofCode h) fun h => coded (LdSize.ofCode s)
      fun s => accept (.ld s h (fin5 d) (fin5 a) v)
  | 0x13 => withM w fun o h s a d => withImm o lit fun v => coded (Hint.ofCode h) fun h => coded (StSize.ofCode s)
      fun s => accept (.st s h (fin5 d) (fin5 a) v)
  | 0x14 => withM w fun o h s a d => withImm o lit fun v => coded (Hint.ofCode h) fun h => coded (VSize.ofCode s)
      fun s => accept (.vld s h (fin5 d) (fin5 a) v)
  | 0x15 => withM w fun o h s a d => withImm o lit fun v => coded (Hint.ofCode h) fun h => coded (VSize.ofCode s)
      fun s => accept (.vst s h (fin5 d) (fin5 a) v)
  | 0x19 => withA w lit decodeSync
  | 0x1A => withA w lit decodeQueue
  | 0x1B => withA w lit decodeTask
  | 0x1C => withA w lit decodeGroup
  | 0x1D => withA w lit decodeService
  | 0x1E => withA w lit decodeLease
  | m => if isXMajor m then .error .wrongLength else .error .reservedMajor

/-! ### X majors -/

/-- The predicate fields. -/
def XF.guard (x : XF) : Guard := ⟨boolOf x.pn, fin3 x.p⟩

/-- Which of the optional fields of an X instruction its entry names; the others are zero (R75). -/
structure Used where
  b : Bool := false
  a : Bool := false
  d : Bool := false
  imm : Bool := false
  et : Bool := false
  rm : Bool := false
  k : Bool := false
  c : Bool := false
  ctl : Bool := false
  deriving DecidableEq, Repr

/-- The fields an entry does not name are zero. -/
def XF.zeros (x : XF) (u : Used) (r : DecodeResult) : DecodeResult :=
  chk ((u.b || x.b == 0) && (u.a || x.a == 0) && (u.d || x.d == 0) && (u.imm || x.imm == 0) && (u.et || x.et == 0) &&
    (u.rm || x.rm == 0) && (u.k || x.k == 0) && (u.c || x.c == 0) && (u.ctl || x.ctl == 0)) .mustBeZero r

def XF.D (x : XF) : Reg := fin5 x.d
def XF.A (x : XF) : Reg := fin5 x.a
def XF.B (x : XF) : Reg := fin5 x.b
def XF.C (x : XF) : Reg := fin5 x.c
def XF.K (x : XF) : KReg := fin3 x.k

/-- Control words with only low bits in use. -/
def ctlLow (n : Nat) (x : BitVec 32) (k : BitVec n → DecodeResult) : DecodeResult :=
  chk (x == (x.extractLsb' 0 n).setWidth 32) .mustBeZero (k (x.extractLsb' 0 n))

/-- Atomics (R278). -/
def decodeAtomic (x : XF) (lit : Option Word) : DecodeResult :=
  let g := x.guard
  match x.fn.toNat with
  | 0 => x.zeros { b := true, a := true, d := true, imm := true, et := true, ctl := true }
      (withImm x.imm lit fun i => ctlLow 4 x.ctl fun f => coded (AmoFn.ofCode f) fun f =>
        match x.et.toNat with
        | 4 => accept (.amo g f false x.D x.A x.B i)
        | 6 => accept (.amo g f true x.D x.A x.B i)
        | _ => .error .illegalCode)
  | 1 => x.zeros { b := true, a := true, imm := true, et := true, ctl := true }
      (withImm x.imm lit fun i => ctlLow 4 x.ctl fun f => coded (FoldFn.ofCode f) fun f =>
        coded (ElemTy.ofCode x.et) fun et => accept (.amof g f et x.A x.B i))
  | 2 => x.zeros { b := true, a := true, d := true, imm := true, et := true, c := true }
      (withImm x.imm lit fun i =>
        match x.et.toNat with
        | 4 => accept (.cas g false x.D x.A x.B x.C i)
        | 6 => accept (.cas g true x.D x.A x.B x.C i)
        | _ => .error .illegalCode)
  | 3 => x.zeros { b := true, a := true, d := true, imm := true, c := true }
      (withImm x.imm lit fun i => accept (.cas2 g x.D x.A x.B x.C i))
  | _ => .error .unassignedMinor

/-- Integer vector (R154). -/
def decodeVInt (x : XF) : DecodeResult :=
  let g := x.guard
  let two : Used := { a := true, d := true, et := true, k := true }
  let three : Used := { two with b := true }
  coded (ElemTy.ofCode x.et) fun et =>
  match x.fn.toNat with
  | 0 => x.zeros { three with ctl := true } (ctlLow 1 x.ctl fun s => accept (.vadd g x.K et (boolOf s) x.D x.A x.B))
  | 1 => x.zeros { three with ctl := true } (ctlLow 1 x.ctl fun s => accept (.vsub g x.K et (boolOf s) x.D x.A x.B))
  | 6 => x.zeros { two with ctl := true } (ctlLow 1 x.ctl fun s => accept (.vabs g x.K et (boolOf s) x.D x.A))
  | 7 => x.zeros { two with ctl := true } (ctlLow 1 x.ctl fun s => accept (.vneg g x.K et (boolOf s) x.D x.A))
  | 2 => x.zeros three (accept (.vmul g x.K et x.D x.A x.B))
  | 3 => x.zeros three (accept (.vmulh g x.K et x.D x.A x.B))
  | 4 => x.zeros three (accept (.vmin g x.K et x.D x.A x.B))
  | 5 => x.zeros three (accept (.vmax g x.K et x.D x.A x.B))
  | 8 => x.zeros three (accept (.vand g x.K et x.D x.A x.B))
  | 9 => x.zeros three (accept (.vor g x.K et x.D x.A x.B))
  | 10 => x.zeros three (accept (.vxor g x.K et x.D x.A x.B))
  | 11 => x.zeros { three with ctl := true, imm := true }
      (match x.ctl.toNat with
        | 0 => chk (x.imm == 0) .mustBeZero (accept (.vshl g x.K et x.D x.A (.reg x.B)))
        | 2 => chk (x.b == 0 && x.imm.extractLsb' 6 7 == 0) .mustBeZero
            (accept (.vshl g x.K et x.D x.A (.imm (fin6 (x.imm.extractLsb' 0 6)))))
        | _ => .error .illegalCode)
  | 12 => x.zeros { three with ctl := true, imm := true }
      (match x.ctl.toNat with
        | 0 => chk (x.imm == 0) .mustBeZero (accept (.vshr g x.K et x.D x.A (.reg x.B)))
        | 2 => chk (x.b == 0 && x.imm.extractLsb' 6 7 == 0) .mustBeZero
            (accept (.vshr g x.K et x.D x.A (.imm (fin6 (x.imm.extractLsb' 0 6)))))
        | _ => .error .illegalCode)
  | 13 => x.zeros { three with ctl := true, imm := true }
      (match x.ctl.toNat with
        | 0 => chk (x.imm == 0) .mustBeZero (accept (.vsra g x.K et x.D x.A (.reg x.B)))
        | 2 => chk (x.b == 0 && x.imm.extractLsb' 6 7 == 0) .mustBeZero
            (accept (.vsra g x.K et x.D x.A (.imm (fin6 (x.imm.extractLsb' 0 6)))))
        | _ => .error .illegalCode)
  | _ => .error .unassignedMinor

/-- Floating-point vector (R155, R156); the window selector of R153 stands in control bits [3:0]. -/
def decodeVFp (x : XF) : DecodeResult :=
  let g := x.guard
  let two : Used := { a := true, d := true, et := true, k := true, ctl := true }
  let three : Used := { two with b := true }
  coded (ElemTy.ofCode x.et) fun et =>
  ctlLow 4 x.ctl fun cw =>
  coded (WinSel.ofBits cw) fun ws =>
  match x.fn.toNat with
  | 0 => x.zeros { three with rm := true } (coded (RoundField.ofCode x.rm) fun rm =>
      accept (.vfadd g x.K et rm ws x.D x.A x.B))
  | 1 => x.zeros { three with rm := true } (coded (RoundField.ofCode x.rm) fun rm =>
      accept (.vfsub g x.K et rm ws x.D x.A x.B))
  | 2 => x.zeros { three with rm := true } (coded (RoundField.ofCode x.rm) fun rm =>
      accept (.vfmul g x.K et rm ws x.D x.A x.B))
  | 3 => x.zeros { three with rm := true, c := true } (coded (RoundField.ofCode x.rm) fun rm =>
      accept (.vfma g x.K et rm ws x.D x.A x.B x.C))
  | 4 => x.zeros { three with rm := true, c := true } (coded (RoundField.ofCode x.rm) fun rm =>
      accept (.vfms g x.K et rm ws x.D x.A x.B x.C))
  | 5 => x.zeros { three with rm := true, c := true } (coded (RoundField.ofCode x.rm) fun rm =>
      accept (.vfnma g x.K et rm ws x.D x.A x.B x.C))
  | 6 => x.zeros three (accept (.vfmin g x.K et ws x.D x.A x.B))
  | 7 => x.zeros three (accept (.vfmax g x.K et ws x.D x.A x.B))
  | 8 => x.zeros two (accept (.vfabs g x.K et ws x.D x.A))
  | 9 => x.zeros two (accept (.vfneg g x.K et ws x.D x.A))
  | _ => .error .unassignedMinor

/-- Division, roots and estimates (R157, R158). -/
def decodeVDiv (x : XF) : DecodeResult :=
  let g := x.guard
  let two : Used := { a := true, d := true, et := true, k := true }
  coded (ElemTy.ofCode x.et) fun et =>
  match x.fn.toNat with
  | 0 => x.zeros { two with b := true, rm := true } (coded (RoundField.ofCode x.rm) fun rm =>
      accept (.vfdiv g x.K et rm x.D x.A x.B))
  | 1 => x.zeros { two with rm := true } (coded (RoundField.ofCode x.rm) fun rm =>
      accept (.vfsqrt g x.K et rm x.D x.A))
  | 2 => x.zeros two (accept (.vrcpe g x.K et x.D x.A))
  | 3 => x.zeros two (accept (.vrsqe g x.K et x.D x.A))
  | 4 => x.zeros two (accept (.vexp2 g x.K et x.D x.A))
  | 5 => x.zeros two (accept (.vlog2 g x.K et x.D x.A))
  | _ => .error .unassignedMinor

/-- Comparison and selection (R159, R160). -/
def decodeVCmp (x : XF) : DecodeResult :=
  let g := x.guard
  let three : Used := { a := true, b := true, d := true, et := true, k := true }
  coded (ElemTy.ofCode x.et) fun et =>
  match x.fn.toNat with
  | 0 => x.zeros { three with imm := true } (chk (x.imm.extractLsb' 4 9 == 0) .mustBeZero
      (coded (VCond.ofCode (x.imm.extractLsb' 0 4)) fun c => low3 x.d fun k => accept (.vcmp g x.K et c k x.A x.B)))
  | 1 => x.zeros { three with imm := true } (chk (x.imm.extractLsb' 4 9 == 0) .mustBeZero
      (coded (VCond.ofCode (x.imm.extractLsb' 0 4)) fun c => low3 x.d fun k => accept (.vfcmp g x.K et c k x.A x.B)))
  | 2 => x.zeros three (accept (.vsel g x.K et x.D x.A x.B))
  | _ => .error .unassignedMinor

/-- The conversion control word (R161): fp8 [10:9], scaled [8], isat [7], part [6:4], source type [3:0]. -/
def packCvt (fp8 : BitVec 2) (scaled isat : BitVec 1) (part : BitVec 3) (src : BitVec 4) : BitVec 32 :=
  0#21 ++ fp8 ++ scaled ++ isat ++ part ++ src

/-- Conversion, quantisation and the rider (R161 to R165). -/
def decodeVCvt (x : XF) : DecodeResult :=
  let g := x.guard
  let cvt : Used := { a := true, d := true, et := true, k := true, rm := true, ctl := true }
  match x.fn.toNat with
  | 0 => x.zeros cvt (coded (ElemTy.ofCode x.et) fun et => coded (RoundField.ofCode x.rm) fun rm =>
      ctlLow 11 x.ctl fun w => coded (Fp8Ovr.ofCode (w.extractLsb' 9 2)) fun o =>
      coded (ElemTy.ofCode (w.extractLsb' 0 4)) fun src =>
      accept (.vcvt g x.K et rm o
        ⟨boolOf (w.extractLsb' 8 1), boolOf (w.extractLsb' 7 1), fin3 (w.extractLsb' 4 3), src⟩ x.D x.A))
  | 1 => x.zeros cvt (coded (ElemTy.ofCode x.et) fun et => coded (RoundField.ofCode x.rm) fun rm =>
      ctlLow 11 x.ctl fun w => coded (Fp8Ovr.ofCode (w.extractLsb' 9 2)) fun o =>
      coded (ElemTy.ofCode (w.extractLsb' 0 4)) fun src =>
      chk (w.extractLsb' 4 5 == 0) .mustBeZero (accept (.vq8 g x.K et rm o src x.D x.A)))
  | 2 => x.zeros cvt (coded (ElemTy.ofCode x.et) fun et => coded (RoundField.ofCode x.rm) fun rm =>
      ctlLow 11 x.ctl fun w => coded (ElemTy.ofCode (w.extractLsb' 0 4)) fun src =>
      chk (w.extractLsb' 7 4 == 0) .mustBeZero
        (accept (.vdq8 g x.K et rm (fin3 (w.extractLsb' 4 3)) src x.D x.A)))
  | 3 => x.zeros { a := true, d := true } (accept (.vrdr g x.D x.A))
  | 4 => x.zeros { a := true, d := true } (accept (.vwrr g x.D x.A))
  | _ => .error .unassignedMinor

/-- A slide count is at most 32. -/
def fin33 (x : BitVec 6) : Fin 33 := if h : x.toNat < 33 then ⟨x.toNat, h⟩ else 0
def bv33 (n : Fin 33) : BitVec 6 := BitVec.ofNat 6 n.val

/-- Permutation (R166). -/
def decodeVPerm (x : XF) : DecodeResult :=
  let g := x.guard
  let two : Used := { a := true, d := true, et := true }
  let three : Used := { two with b := true, k := true }
  coded (ElemTy.ofCode x.et) fun et =>
  match x.fn.toNat with
  | 0 => x.zeros { two with k := true } (accept (.vbcast g x.K et x.D x.A))
  | 1 => x.zeros { two with imm := true } (chk (x.imm.extractLsb' 5 8 == 0) .mustBeZero
      (accept (.vins g et x.D x.A (fin5 (x.imm.extractLsb' 0 5)))))
  | 2 => x.zeros { two with imm := true } (chk (x.imm.extractLsb' 5 8 == 0) .mustBeZero
      (accept (.vext g et x.D x.A (fin5 (x.imm.extractLsb' 0 5)))))
  | 3 => x.zeros three (accept (.vperm g x.K et x.D x.A x.B))
  | 4 => x.zeros { three with imm := true } (chk (x.imm.extractLsb' 2 11 == 0) .mustBeZero
      (accept (.vshuf g x.K et x.D x.A x.B (fin2 (x.imm.extractLsb' 0 2)))))
  | 5 => x.zeros { three with imm := true } (chk (x.imm.toNat ≤ 32) .illegalCode
      (accept (.vslide g x.K et x.D x.A x.B (fin33 (x.imm.extractLsb' 0 6)))))
  | 6 => x.zeros { two with k := true } (accept (.vcompress g x.K et x.D x.A))
  | 7 => x.zeros { two with k := true } (accept (.vexpand g x.K et x.D x.A))
  | _ => .error .unassignedMinor

/-- Reductions, dot products and masks (R167 to R170). -/
def decodeVRed (x : XF) : DecodeResult :=
  let g := x.guard
  let two : Used := { a := true, d := true, et := true, k := true }
  match x.fn.toNat with
  | 0 => x.zeros { two with imm := true, ctl := true } (coded (ElemTy.ofCode x.et) fun et =>
      ctlLow 4 x.ctl fun cw => coded (WinSel.ofBits cw) fun ws =>
      chk (x.imm.extractLsb' 2 11 == 0) .mustBeZero
        (coded (RedOp.ofCode (x.imm.extractLsb' 0 2)) fun op => accept (.vred g x.K et op ws x.D x.A)))
  | 1 => x.zeros { two with b := true, c := true, ctl := true } (coded (ElemTy.ofCode x.et) fun et =>
      ctlLow 5 x.ctl fun cw => coded (WinSel.ofBits (cw.extractLsb' 0 4)) fun ws =>
      if boolOf (cw.extractLsb' 4 1) then accept (.vdot g x.K et ws x.D x.A x.B (some x.C))
      else chk (x.c == 0) .mustBeZero (accept (.vdot g x.K et ws x.D x.A x.B none)))
  | 2 => x.zeros two (coded (ElemTy.ofCode x.et) fun et => low3 x.d fun p => accept (.vlsig g x.K et p x.A))
  | 8 => x.zeros { a := true, b := true, d := true, imm := true } (chk (x.imm.extractLsb' 6 7 == 0) .illegalCode
      (coded (LogFn.ofCode (x.imm.extractLsb' 0 6)) fun f => low3 x.d fun d => low3 x.a fun a => low3 x.b fun b =>
        accept (.kop g f d a b)))
  | 9 => x.zeros { a := true, d := true, imm := true }
      (match x.imm.toNat with
        | 0 => low3 x.d fun d => accept (.kmovToMask g d x.A)
        | 1 => low3 x.a fun a => accept (.kmovFromMask g x.D a)
        | _ => .error .illegalCode)
  | 10 => x.zeros { a := true, d := true } (low3 x.a fun a => accept (.kpop g x.D a))
  | _ => .error .unassignedMinor

/-- The matrix control word (R180). -/
def packMac (zf byp : BitVec 1) (n : BitVec 5) (m : BitVec 2) (sparse : BitVec 1) (slot tile : BitVec 3)
    (asrc : BitVec 1) (scale : BitVec 2) (win : BitVec 3) (acc : BitVec 2) (bfmt afmt : BitVec 4) : BitVec 32 :=
  zf ++ byp ++ n ++ m ++ sparse ++ slot ++ tile ++ asrc ++ scale ++ win ++ acc ++ bfmt ++ afmt

/-- `mmac` and `mmacs` (R186). -/
def decodeMac (x : XF) : DecodeResult :=
  let g := x.guard
  let w := x.ctl
  x.zeros { a := true, b := true, c := true, imm := true, ctl := true } (
  chk (x.imm.extractLsb' 7 6 == 0) .mustBeZero (
  coded (ScaleMode.ofCode (w.extractLsb' 13 2)) fun sc =>
  coded (AccSel.ofCode (w.extractLsb' 8 2)) fun acc =>
  coded (MFmt.ofCode (w.extractLsb' 4 4)) fun bf =>
  coded (MFmt.ofCode (w.extractLsb' 0 4)) fun af =>
    let m : MacCtl :=
      { zf := boolOf (w.extractLsb' 31 1), slot := fin3 (w.extractLsb' 19 3),
        tile := fin3 (w.extractLsb' 16 3), scale := sc, window := fin3 (w.extractLsb' 10 3), acc := acc, bfmt := bf,
        afmt := af, col := fin2 (x.imm.extractLsb' 0 2), kb := fin5 (x.imm.extractLsb' 2 5) }
  let withSrc (k : ASrc → DecodeResult) : DecodeResult :=
    match boolOf (w.extractLsb' 15 1), boolOf (w.extractLsb' 30 1) with
    | false, false => k (.localMem x.A x.B)
    | true, false => chk (x.a == 0 && x.b == 0) .mustBeZero (k .qa)
    | false, true => chk (x.a == 0 && x.b == 0) .mustBeZero (k .bypass)
    | true, true => .error .illegalCode
  match x.fn.toNat with
  | 0 => chk (w.extractLsb' 22 8 == 0) .mustBeZero (withSrc fun a => accept (.mmac g m a x.C))
  | 1 => chk (w.extractLsb' 22 1 == 1) .illegalCode
      (withSrc fun a => accept (.mmacs g m ⟨fin5 (w.extractLsb' 25 5), fin2 (w.extractLsb' 23 2)⟩ a x.C))
  | _ => .error .unassignedMinor))

/-- The control word of `mwld` (R192): rec [30], N [29:25], M code [24:23], sparse [22], slot [21:19], bfmt [3:0]. -/
def packMwld (rc : BitVec 1) (n : BitVec 5) (m : BitVec 2) (sparse : BitVec 1) (slot : BitVec 3)
    (bfmt : BitVec 4) : BitVec 32 :=
  0#1 ++ rc ++ n ++ m ++ sparse ++ slot ++ 0#15 ++ bfmt

/-- `mzero` and `mwld` (R191, R192). -/
def decodeMLoad (x : XF) (lit : Option Word) : DecodeResult :=
  let g := x.guard
  let w := x.ctl
  match x.fn.toNat with
  | 0 => noLit lit (x.zeros { et := true, ctl := true } (coded (TileFmt.ofEtCode x.et) fun tf =>
      chk (w == 0#13 ++ w.extractLsb' 16 3 ++ 0#16) .mustBeZero (accept (.mzero g tf (fin3 (w.extractLsb' 16 3))))))
  | 1 => x.zeros { a := true, b := true, d := true, imm := true, ctl := true } (
      chk (w.extractLsb' 31 1 == 0 && w.extractLsb' 4 15 == 0) .mustBeZero (
      coded (MFmt.ofCode (w.extractLsb' 0 4)) fun bf =>
      let slot := fin3 (w.extractLsb' 19 3)
      let sp : Sparsity := ⟨fin5 (w.extractLsb' 25 5), fin2 (w.extractLsb' 23 2)⟩
      match boolOf (w.extractLsb' 30 1), boolOf (w.extractLsb' 22 1) with
      | false, false => chk (w.extractLsb' 23 7 == 0 && x.b == 0) .mustBeZero
          (withImm x.imm lit fun i => accept (.mwld g bf slot x.D (.dense x.A i)))
      | false, true => withImm x.imm lit fun i => accept (.mwld g bf slot x.D (.sparse x.A i sp x.B))
      | true, false => noLit lit (chk (w.extractLsb' 23 7 == 0 && x.b == 0 && x.imm == 0) .mustBeZero
          (accept (.mwld g bf slot x.D (.recDense x.A))))
      | true, true => noLit lit (chk (x.b == 0 && x.imm == 0) .mustBeZero
          (accept (.mwld g bf slot x.D (.recSparse x.A sp))))))
  | _ => .error .unassignedMinor

/-- The control word of the drains (R193): tile format [21:19], tile [18:16], FP8 override [10:9]. -/
def packDrain (tf tile : BitVec 3) (fp8 : BitVec 2) : BitVec 32 :=
  0#10 ++ tf ++ tile ++ 0#5 ++ fp8 ++ 0#9

/-- The drains (R193 to R196). -/
def decodeMDrain (x : XF) (lit : Option Word) : DecodeResult :=
  let g := x.guard
  let w := x.ctl
  chk (w.extractLsb' 22 10 == 0 && w.extractLsb' 11 5 == 0 && w.extractLsb' 0 9 == 0) .mustBeZero (
  coded (ElemTy.ofCode x.et) fun et =>
  coded (RoundField.ofCode x.rm) fun rm =>
  coded (Fp8Ovr.ofCode (w.extractLsb' 9 2)) fun o =>
  coded (TileFmt.ofCode (w.extractLsb' 19 3)) fun tf =>
  let t := fin3 (w.extractLsb' 16 3)
  let u : Used := { et := true, rm := true, ctl := true }
  match x.fn.toNat with
  | 0 => x.zeros { u with a := true, b := true, c := true, d := true, imm := true }
      (withImm x.imm lit fun i => accept (.mdrain g et rm o tf t x.D x.A x.B x.C i))
  | 1 => noLit lit (x.zeros u (accept (.mdrainq g et rm o tf t)))
  | 2 => x.zeros { u with imm := true } (withImm x.imm lit fun i =>
      chk (colOk i) .mustBeZero (accept (.mdraina g et rm o tf t i)))
  | _ => .error .unassignedMinor)

/-- `mstat`, `mclrs` and `mwait` (R197 to R199). -/
def decodeMStat (x : XF) : DecodeResult :=
  let g := x.guard
  let w := x.ctl
  let tileOnly (r : DecodeResult) : DecodeResult := chk (w == 0#13 ++ w.extractLsb' 16 3 ++ 0#16) .mustBeZero r
  match x.fn.toNat with
  | 0 => x.zeros { d := true, ctl := true } (tileOnly (accept (.mstat g x.D (fin3 (w.extractLsb' 16 3)))))
  | 1 => x.zeros { ctl := true } (tileOnly (accept (.mclrs g (fin3 (w.extractLsb' 16 3)))))
  | 2 => x.zeros {} (accept (.mwait g))
  | _ => .error .unassignedMinor

/-- Vector memory (R218): scale in control bit [2], hint in bits [1:0]. -/
def decodeVMem (x : XF) (lit : Option Word) : DecodeResult :=
  let g := x.guard
  let u : Used := { a := true, d := true, imm := true, et := true, k := true, ctl := true }
  coded (ElemTy.ofCode x.et) fun et =>
  ctlLow 3 x.ctl fun w =>
  coded (Hint.ofCode (w.extractLsb' 0 2)) fun h =>
  let sc := boolOf (w.extractLsb' 2 1)
  withImm x.imm lit fun i =>
  match x.fn.toNat with
  | 0 => x.zeros { u with b := true } (chk (!sc) .mustBeZero (accept (.vlds g x.K et h x.D x.A x.B i)))
  | 1 => x.zeros { u with b := true } (accept (.vldx g x.K et h sc x.D x.A x.B i))
  | 2 => x.zeros { u with b := true } (accept (.vstx g x.K et h sc x.D x.A x.B i))
  | 3 => x.zeros u (chk (!sc) .mustBeZero (accept (.vldb g x.K et h x.D x.A i)))
  | _ => .error .unassignedMinor

/-- The length of `cpy` mode 0 and `cpyr`: a register, or imm13 or its literal when c is 0 (R221). -/
def withLen (x : XF) (lit : Option Word) (k : LenSrc → DecodeResult) : DecodeResult :=
  if x.c = 0 then withImm x.imm lit fun i => k (.imm i)
  else noLit lit (chk (x.imm == 0) .mustBeZero (k (.reg x.C)))

/-- The tile engine (R221). -/
def decodeTile (x : XF) (lit : Option Word) : DecodeResult :=
  let g := x.guard
  let four : Used := { a := true, b := true, d := true, c := true, ctl := true }
  let withTgt (k : PutTarget → DecodeResult) : DecodeResult :=
    ctlLow 5 x.ctl fun w =>
      if boolOf (w.extractLsb' 4 1) then k (.crossbar (fin4 (w.extractLsb' 0 4)))
      else k .glob   -- DEDUCED: the core field is listed without a condition, and kind 0 does not read it (log entry 58)
  match x.fn.toNat with
  | 0 => x.zeros { four with imm := true }
      (match x.ctl.toNat with
        | 0 => withLen x lit fun l => accept (.cpy g x.D x.A x.B l)
        | 1 => noLit lit (chk (x.imm == 0) .mustBeZero (accept (.cpy2d g x.D x.A x.B x.C)))
        | 2 => noLit lit (chk (x.imm == 0) .mustBeZero (accept (.cpyRs g x.D x.A x.B x.C)))
        | 3 => noLit lit (chk (x.imm == 0) .mustBeZero (accept (.cpyRd g x.D x.A x.B x.C)))
        | _ => .error .illegalCode)
  | 1 => x.zeros { four with imm := true, et := true } (coded (ElemTy.ofCode x.et) fun et =>
      ctlLow 2 x.ctl fun o => coded (RedOp.ofCode o) fun op =>
      withLen x lit fun l => accept (.cpyr g op et x.D x.A x.B l))
  | 2 => noLit lit (x.zeros { four with et := true } (coded (ElemTy.ofCode x.et) fun et =>
      withTgt fun t => accept (.get g et t x.D x.A x.B x.C)))
  | 3 => noLit lit (x.zeros { four with et := true } (coded (ElemTy.ofCode x.et) fun et =>
      withTgt fun t => accept (.put g et t x.D x.A x.B x.C)))
  | 4 => noLit lit (x.zeros { a := true, imm := true } (chk (x.imm.extractLsb' 3 10 == 0) .mustBeZero
      (accept (.stmap g (fin3 (x.imm.extractLsb' 0 3)) x.A))))
  | 5 => noLit lit (x.zeros { a := true, b := true, d := true } (accept (.stwb g x.D x.A x.B)))
  | 6 => noLit lit (x.zeros { a := true, b := true, d := true } (accept (.stinv g x.D x.A x.B)))
  | _ => .error .unassignedMinor

/-- The control word of `coll` (R471). -/
def packColl (root : BitVec 8) (wire scaled : BitVec 1) (fn : BitVec 2) (op : BitVec 3) : BitVec 32 :=
  0#16 ++ root ++ wire ++ scaled ++ fn ++ 0#1 ++ op

/-- Collectives (R471). -/
def decodeColl (x : XF) (lit : Option Word) : DecodeResult :=
  let w := x.ctl
  match x.fn.toNat with
  | 0 => x.zeros { a := true, b := true, d := true, c := true, imm := true, et := true, ctl := true } (
      chk (w.extractLsb' 16 16 == 0 && w.extractLsb' 3 1 == 0) .mustBeZero (
      coded (ElemTy.ofCode x.et) fun et => coded (CollOp.ofCode (w.extractLsb' 0 3)) fun op =>
      coded (RedOp.ofCode (w.extractLsb' 4 2)) fun fn => withImm x.imm lit fun n =>
      accept (.coll x.guard op fn et (boolOf (w.extractLsb' 7 1)) (boolOf (w.extractLsb' 6 1)) (w.extractLsb' 8 8)
        x.D x.A x.B x.C n)))
  | _ => .error .unassignedMinor

/-- `rflush` and `pub` (R231, R232). -/
def decodeCloak (x : XF) : DecodeResult :=
  let g := x.guard
  match x.fn.toNat with
  | 0 => x.zeros { a := true, ctl := true }
      (match x.ctl.toNat with
        | 0 => accept (.rflush g x.A)
        | 1 => chk (x.a == 0) .mustBeZero (accept (.rflushAll g))
        | _ => .error .illegalCode)
  | 1 => x.zeros { a := true, d := true } (accept (.pub g x.D x.A))
  | _ => .error .unassignedMinor

/-- The X majors (R79, R81). -/
def decodeXF (x : XF) (lit : Option Word) : DecodeResult :=
  match x.major.toNat with
  | 0x18 => decodeAtomic x lit
  | 0x20 => noLit lit (decodeVInt x)
  | 0x21 => noLit lit (decodeVFp x)
  | 0x22 => noLit lit (decodeVDiv x)
  | 0x23 => noLit lit (decodeVCmp x)
  | 0x24 => noLit lit (decodeVCvt x)
  | 0x25 => noLit lit (decodeVPerm x)
  | 0x26 => noLit lit (decodeVRed x)
  | 0x30 => noLit lit (decodeMac x)
  | 0x31 => decodeMLoad x lit
  | 0x32 => decodeMDrain x lit
  | 0x33 => noLit lit (decodeMStat x)
  | 0x38 => decodeVMem x lit
  | 0x39 => decodeTile x lit
  | 0x3C => decodeColl x lit
  | 0x3D => noLit lit (decodeCloak x)
  | _ => .error .wrongLength

/-- An X instruction: bit 31 of word 0 is zero (R73). -/
def decodeX (w0 w1 w2 : IWord) (lit : Option Word) : DecodeResult :=
  let m := (w0.extractLsb' 2 6).toNat
  if isXMajor m then chk (w0.extractLsb' 31 1 == 0) .mustBeZero (decodeXF (XF.ofWords w0 w1 w2) lit)
  else if m ≤ 0x15 || (0x19 ≤ m && m ≤ 0x1E) then .error .wrongLength
  else .error .reservedMajor

/-- Words to an instruction: bits [1:0] of the first word give the length (R69). Words after the instruction are left. -/
def decodeWords : List IWord → DecodeResult
  | [] => .error .truncated
  | w0 :: rest =>
    match (w0.extractLsb' 0 2).toNat with
    | 0 => decodeBase w0 none
    | 1 =>
      match rest with
      | lo :: hi :: _ => decodeBase w0 (some (hi ++ lo))
      | _ => .error .truncated
    | 2 =>
      match rest with
      | w1 :: w2 :: _ => decodeX w0 w1 w2 none
      | _ => .error .truncated
    | _ =>
      match rest with
      | w1 :: w2 :: lo :: hi :: _ => decodeX w0 w1 w2 (some (hi ++ lo))
      | _ => .error .truncated

/-- The length in bytes that bits [1:0] of the first word select, for every encoding (R69). -/
def lengthOfWord (w : IWord) : Nat :=
  match (w.extractLsb' 0 2).toNat with
  | 0 => 4
  | 1 => 12
  | 2 => 12
  | _ => 20

/-- Four bytes, little-endian, make a word (R69). -/
def wordsOfBytes : List Byte → List IWord
  | b0 :: b1 :: b2 :: b3 :: rest => (b3 ++ b2 ++ b1 ++ b0) :: wordsOfBytes rest
  | _ => []

/-- The bytes of words, as they are stored. -/
def bytesOfWords : List IWord → List Byte
  | [] => []
  | w :: rest => w.extractLsb' 0 8 :: w.extractLsb' 8 8 :: w.extractLsb' 16 8 :: w.extractLsb' 24 8 :: bytesOfWords rest

/-- Decoding, total on any bytes. -/
def decode (bs : List Byte) : DecodeResult := decodeWords (wordsOfBytes bs)

/-- The words of a number whose bit 0 is the least significant bit of the first word. -/
def wordsOfNat (n : Nat) : Nat → List IWord
  | 0 => []
  | k + 1 => BitVec.ofNat 32 n :: wordsOfNat (n / 2 ^ 32) k

/-- The instruction read from an opcode-table word: `w` numbered as the table numbers it, bits above `nbits` zero. -/
def decodeTableWord (nbits w : Nat) : Option Instr :=
  match decode (bytesOfWords (wordsOfNat (w % 2 ^ nbits) 5)) with
  | .ok i => some i
  | .error _ => none

/-! ### The encoder -/

/-- The length field of a base word. -/
def Imm.baseLen {n : Nat} : Imm n → BitVec 2
  | .short _ => 0
  | .lit _ => 1

/-- The length field of an X word. -/
def Imm.xLen {n : Nat} : Imm n → BitVec 2
  | .short _ => 2
  | .lit _ => 3

/-- The field; zero under a literal (R70). -/
def Imm.field {n : Nat} : Imm n → BitVec n
  | .short i => i
  | .lit _ => 0

/-- The literal words. -/
def Imm.words {n : Nat} : Imm n → List IWord
  | .short _ => []
  | .lit v => [v.extractLsb' 0 32, v.extractLsb' 32 32]

/-- An instruction of format A. -/
def encA (major : BitVec 6) (fn : BitVec 6) (w3 : BitVec 3) (d a b : BitVec 5) : List IWord :=
  [packA w3 fn b a d major]

/-- An instruction of format I with an immediate. -/
def encI (major : BitVec 6) (d a : Reg) (i : Imm 14) : List IWord :=
  packI i.field (bv5 a) (bv5 d) major i.baseLen :: i.words

/-- An instruction of format U. -/
def encU (major : BitVec 6) (d : Reg) (i : Imm 19) : List IWord :=
  packU i.field (bv5 d) major i.baseLen :: i.words

/-- An instruction of format M. -/
def encM (major : BitVec 6) (sz : BitVec 3) (h : Hint) (d a : Reg) (i : Imm 9) : List IWord :=
  packM i.field h.code sz (bv5 a) (bv5 d) major i.baseLen :: i.words

/-- An instruction of format BC. -/
def encBC (cond : BitVec 3) (a b : Reg) (i : Imm 11) : List IWord :=
  packBC i.field (bv5 b) (bv5 a) cond 0x0D i.baseLen :: i.words

/-- The fields that every X instruction has; the rest zero. -/
def xf (major : BitVec 6) (fn : BitVec 8) (g : Guard) : XF :=
  { b := 0, a := 0, d := 0, fn := fn, major := major, imm := 0, et := 0, rm := 0, k := 0, pn := bitOf g.pn, p := bv3 g.p,
    c := 0, ctl := 0 }

/-- The words of an X instruction without a literal. -/
def encX (x : XF) : List IWord := [x.word0 2, x.word1, x.ctl]

/-- The words of an X instruction whose imm13 may be replaced by a literal. -/
def encXI (x : XF) (i : Imm 13) : List IWord :=
  { x with imm := i.field }.word0 i.xLen :: { x with imm := i.field }.word1 :: x.ctl :: i.words

/-- Two- and three-register vector forms. -/
def encV2 (major : BitVec 6) (fn : BitVec 8) (g : Guard) (k : KReg) (et : ElemTy) (d a : Reg) : XF :=
  { xf major fn g with d := bv5 d, a := bv5 a, k := bv3 k, et := et.code }

def encV3 (major : BitVec 6) (fn : BitVec 8) (g : Guard) (k : KReg) (et : ElemTy) (d a b : Reg) : XF :=
  { encV2 major fn g k et d a with b := bv5 b }

/-- A vector shift (R154). -/
def encShift (fn : BitVec 8) (g : Guard) (k : KReg) (et : ElemTy) (d a : Reg) : ShiftSrc → List IWord
  | .reg b => encX (encV3 0x20 fn g k et d a b)
  | .imm n => encX { encV2 0x20 fn g k et d a with imm := 0#7 ++ bv6 n, ctl := 2 }

/-- The control word of an `mmac` or `mmacs`. -/
def macWord (m : MacCtl) (n : BitVec 5) (mc : BitVec 2) (sparse : BitVec 1) (a : ASrc) : BitVec 32 :=
  packMac (bitOf m.zf) (match a with | .bypass => 1 | _ => 0) n mc sparse (bv3 m.slot) (bv3 m.tile)
    (match a with | .qa => 1 | _ => 0) m.scale.code (bv3 m.window) m.acc.code m.bfmt.code m.afmt.code

/-- The X fields of an `mmac` or `mmacs`. -/
def macXF (fn : BitVec 8) (g : Guard) (m : MacCtl) (a : ASrc) (c : Reg) (ctl : BitVec 32) : XF :=
  { xf 0x30 fn g with
    a := (match a with | .localMem a _ => bv5 a | _ => 0)
    b := (match a with | .localMem _ b => bv5 b | _ => 0)
    c := bv5 c, imm := 0#6 ++ bv5 m.kb ++ bv2 m.col, ctl := ctl }

/-- The length of a `cpy` or `cpyr`. -/
def encLen (x : XF) : LenSrc → List IWord
  | .reg c => encX { x with c := bv5 c }
  | .imm i => encXI x i

/-- The control bits of `get` and `put`. -/
def PutTarget.ctl : PutTarget → BitVec 32
  | .glob => 0
  | .crossbar c => 0#27 ++ 1#1 ++ bv4 c

/-- The words of an instruction (R69 to R82); an event has none. -/
def encode : Instr → List IWord
  | .nop => encA 0 0 0 0 0 0
  | .yield => encA 0 1 0 0 0 0
  | .mfsr d n => encA 0 2 (n.extractLsb' 5 3) (bv5 d) 0 (n.extractLsb' 0 5)
  | .mtsr a n => encA 0 3 (n.extractLsb' 5 3) 0 (bv5 a) (n.extractLsb' 0 5)
  | .trap d a c => encA 0 4 (c.extractLsb' 5 3) (bv5 d) (bv5 a) (c.extractLsb' 0 5)
  | .brk c => encA 0 5 (c.extractLsb' 5 3) 0 0 (c.extractLsb' 0 5)
  | .add d a b => encA 1 0x00 0 (bv5 d) (bv5 a) (bv5 b)
  | .sub d a b => encA 1 0x01 0 (bv5 d) (bv5 a) (bv5 b)
  | .mul d a b => encA 1 0x02 0 (bv5 d) (bv5 a) (bv5 b)
  | .mulh d a b => encA 1 0x03 0 (bv5 d) (bv5 a) (bv5 b)
  | .mulhu d a b => encA 1 0x04 0 (bv5 d) (bv5 a) (bv5 b)
  | .div d a b => encA 1 0x05 0 (bv5 d) (bv5 a) (bv5 b)
  | .divu d a b => encA 1 0x06 0 (bv5 d) (bv5 a) (bv5 b)
  | .rem d a b => encA 1 0x07 0 (bv5 d) (bv5 a) (bv5 b)
  | .remu d a b => encA 1 0x08 0 (bv5 d) (bv5 a) (bv5 b)
  | .and d a b => encA 1 0x10 0 (bv5 d) (bv5 a) (bv5 b)
  | .or d a b => encA 1 0x11 0 (bv5 d) (bv5 a) (bv5 b)
  | .xor d a b => encA 1 0x12 0 (bv5 d) (bv5 a) (bv5 b)
  | .andn d a b => encA 1 0x13 0 (bv5 d) (bv5 a) (bv5 b)
  | .shl d a b => encA 1 0x18 0 (bv5 d) (bv5 a) (bv5 b)
  | .shr d a b => encA 1 0x19 0 (bv5 d) (bv5 a) (bv5 b)
  | .sra d a b => encA 1 0x1A 0 (bv5 d) (bv5 a) (bv5 b)
  | .rotr d a b => encA 1 0x1B 0 (bv5 d) (bv5 a) (bv5 b)
  | .min d a b => encA 1 0x20 0 (bv5 d) (bv5 a) (bv5 b)
  | .max d a b => encA 1 0x21 0 (bv5 d) (bv5 a) (bv5 b)
  | .minu d a b => encA 1 0x22 0 (bv5 d) (bv5 a) (bv5 b)
  | .maxu d a b => encA 1 0x23 0 (bv5 d) (bv5 a) (bv5 b)
  | .bfx d a b => encA 1 0x32 0 (bv5 d) (bv5 a) (bv5 b)
  | .bfi d a b => encA 1 0x33 0 (bv5 d) (bv5 a) (bv5 b)
  | .clz d a => encA 1 0x28 0 (bv5 d) (bv5 a) 0
  | .ctz d a => encA 1 0x29 0 (bv5 d) (bv5 a) 0
  | .popc d a => encA 1 0x2A 0 (bv5 d) (bv5 a) 0
  | .sext w d a => encA 1 0x30 w.code (bv5 d) (bv5 a) 0
  | .zext w d a => encA 1 0x31 w.code (bv5 d) (bv5 a) 0
  | .sel p d a b => encA 1 0x38 (bv3 p) (bv5 d) (bv5 a) (bv5 b)
  | .shadd n d a b => encA 1 0x39 (bv3 n) (bv5 d) (bv5 a) (bv5 b)
  | .addi d a i => encI 2 d a i
  | .andi d a i => encI 3 d a i
  | .ori d a i => encI 4 d a i
  | .xori d a i => encI 5 d a i
  | .shli d a n => [packI (0#2 ++ 0#6 ++ bv6 n) (bv5 a) (bv5 d) 6 0]
  | .shri d a n => [packI (1#2 ++ 0#6 ++ bv6 n) (bv5 a) (bv5 d) 6 0]
  | .srai d a n => [packI (2#2 ++ 0#6 ++ bv6 n) (bv5 a) (bv5 d) 6 0]
  | .li d i => encU 7 d i
  | .addpc d i => encU 8 d i
  | .addcb d i => encU 9 d i
  | .cmp c d a b => encA 0x0A c.code 0 (bv5 d) (bv5 a) (bv5 b)
  | .pcmp c d a b => encA 0x0B c.code 0 (reg3 d) (bv5 a) (bv5 b)
  | .plog f d a b => encA 0x0C f.code 0 (reg3 d) (reg3 a) (reg3 b)
  | .beq a b i => encBC 0 a b i
  | .bne a b i => encBC 1 a b i
  | .blt a b i => encBC 2 a b i
  | .bge a b i => encBC 3 a b i
  | .bltu a b i => encBC 4 a b i
  | .bgeu a b i => encBC 5 a b i
  | .bp neg p i => packBP i.field (bitOf neg) (bv3 p) 0x0E i.baseLen :: i.words
  | .j i => packJ i.field 0x0F i.baseLen :: i.words
  | .jal i => packJ i.field 0x10 i.baseLen :: i.words
  | .jr a => encA 0x11 0 0 0 (bv5 a) 0
  | .jalr d a => encA 0x11 1 0 (bv5 d) (bv5 a) 0
  | .ld s h d a i => encM 0x12 s.code h d a i
  | .st s h d a i => encM 0x13 s.code h d a i
  | .vld s h d a i => encM 0x14 s.code h d a i
  | .vst s h d a i => encM 0x15 s.code h d a i
  | .fence s d => encA 0x19 0 s.code (bv5 d) 0 0
  | .cwait d a b => encA 0x19 1 0 (bv5 d) (bv5 a) (bv5 b)
  | .fdrain => encA 0x19 2 0 0 0 0
  | .pf h a => encA 0x19 3 (0#1 ++ h.code) 0 (bv5 a) 0
  | .cwb a b => encA 0x19 4 0 0 (bv5 a) (bv5 b)
  | .qput a => encA 0x1A 0 0 0 (bv5 a) 0
  | .qgetQr d => encA 0x1A 1 1 (bv5 d) 0 0
  | .qgetQn d => encA 0x1A 1 2 (bv5 d) 0 0
  | .qtryQa p a => encA 0x1A 2 0 0 (bv5 a) (reg3 p)
  | .qtryQr p d => encA 0x1A 2 1 (bv5 d) 0 (reg3 p)
  | .qtryQn p d => encA 0x1A 2 2 (bv5 d) 0 (reg3 p)
  | .qtryQf p => encA 0x1A 2 3 0 0 (reg3 p)
  | .spawn n d a b => encA 0x1B 0 (0#1 ++ bv2 n) (bv5 d) (bv5 a) (bv5 b)
  | .retire => encA 0x1B 1 0 0 0 0
  | .tdefer a => encA 0x1B 2 0 0 (bv5 a) 0
  | .bar g => encA 0x1C 0 (0#1 ++ bv2 g) 0 0 0
  | .barv g d => encA 0x1C 1 (0#1 ++ bv2 g) (bv5 d) 0 0
  | .bwait g a => encA 0x1C 2 (0#1 ++ bv2 g) 0 (bv5 a) 0
  | .racq d a b => encA 0x1C 3 0 (bv5 d) (bv5 a) (bv5 b)
  | .rrel d a b => encA 0x1C 4 0 (bv5 d) (bv5 a) (bv5 b)
  | .rpeek d a b => encA 0x1C 5 0 (bv5 d) (bv5 a) (bv5 b)
  | .fget d => encA 0x1D 0 0 (bv5 d) 0 0
  | .freply d a b => encA 0x1D 1 0 (bv5 d) (bv5 a) (bv5 b)
  | .bwlease d a b => encA 0x1E 0 0 (bv5 d) (bv5 a) (bv5 b)
  | .bwrel d a => encA 0x1E 1 0 (bv5 d) (bv5 a) 0
  | .bwq d a => encA 0x1E 2 0 (bv5 d) (bv5 a) 0
  | .amo g f wide d a b i => encXI { xf 0x18 0 g with d := bv5 d, a := bv5 a, b := bv5 b, et := if wide then 6 else 4,
                                                      ctl := 0#28 ++ f.code } i
  | .amof g f et a b i => encXI { xf 0x18 1 g with a := bv5 a, b := bv5 b, et := et.code, ctl := 0#28 ++ f.code } i
  | .cas g wide d a b c i => encXI { xf 0x18 2 g with d := bv5 d, a := bv5 a, b := bv5 b, c := bv5 c,
                                                      et := if wide then 6 else 4 } i
  | .cas2 g d a b c i => encXI { xf 0x18 3 g with d := bv5 d, a := bv5 a, b := bv5 b, c := bv5 c } i
  | .vadd g k et s d a b => encX { encV3 0x20 0 g k et d a b with ctl := 0#31 ++ bitOf s }
  | .vsub g k et s d a b => encX { encV3 0x20 1 g k et d a b with ctl := 0#31 ++ bitOf s }
  | .vabs g k et s d a => encX { encV2 0x20 6 g k et d a with ctl := 0#31 ++ bitOf s }
  | .vneg g k et s d a => encX { encV2 0x20 7 g k et d a with ctl := 0#31 ++ bitOf s }
  | .vmul g k et d a b => encX (encV3 0x20 2 g k et d a b)
  | .vmulh g k et d a b => encX (encV3 0x20 3 g k et d a b)
  | .vmin g k et d a b => encX (encV3 0x20 4 g k et d a b)
  | .vmax g k et d a b => encX (encV3 0x20 5 g k et d a b)
  | .vand g k et d a b => encX (encV3 0x20 8 g k et d a b)
  | .vor g k et d a b => encX (encV3 0x20 9 g k et d a b)
  | .vxor g k et d a b => encX (encV3 0x20 10 g k et d a b)
  | .vshl g k et d a n => encShift 11 g k et d a n
  | .vshr g k et d a n => encShift 12 g k et d a n
  | .vsra g k et d a n => encShift 13 g k et d a n
  | .vfadd g k et rm ws d a b => encX { encV3 0x21 0 g k et d a b with rm := rm.code, ctl := 0#28 ++ ws.code4 }
  | .vfsub g k et rm ws d a b => encX { encV3 0x21 1 g k et d a b with rm := rm.code, ctl := 0#28 ++ ws.code4 }
  | .vfmul g k et rm ws d a b => encX { encV3 0x21 2 g k et d a b with rm := rm.code, ctl := 0#28 ++ ws.code4 }
  | .vfma g k et rm ws d a b c => encX { encV3 0x21 3 g k et d a b with rm := rm.code, c := bv5 c, ctl := 0#28 ++ ws.code4 }
  | .vfms g k et rm ws d a b c => encX { encV3 0x21 4 g k et d a b with rm := rm.code, c := bv5 c, ctl := 0#28 ++ ws.code4 }
  | .vfnma g k et rm ws d a b c => encX { encV3 0x21 5 g k et d a b with rm := rm.code, c := bv5 c, ctl := 0#28 ++ ws.code4 }
  | .vfmin g k et ws d a b => encX { encV3 0x21 6 g k et d a b with ctl := 0#28 ++ ws.code4 }
  | .vfmax g k et ws d a b => encX { encV3 0x21 7 g k et d a b with ctl := 0#28 ++ ws.code4 }
  | .vfabs g k et ws d a => encX { encV2 0x21 8 g k et d a with ctl := 0#28 ++ ws.code4 }
  | .vfneg g k et ws d a => encX { encV2 0x21 9 g k et d a with ctl := 0#28 ++ ws.code4 }
  | .vfdiv g k et rm d a b => encX { encV3 0x22 0 g k et d a b with rm := rm.code }
  | .vfsqrt g k et rm d a => encX { encV2 0x22 1 g k et d a with rm := rm.code }
  | .vrcpe g k et d a => encX (encV2 0x22 2 g k et d a)
  | .vrsqe g k et d a => encX (encV2 0x22 3 g k et d a)
  | .vexp2 g k et d a => encX (encV2 0x22 4 g k et d a)
  | .vlog2 g k et d a => encX (encV2 0x22 5 g k et d a)
  | .vcmp g k et c d a b => encX { encV3 0x23 0 g k et 0 a b with d := reg3 d, imm := 0#9 ++ c.code }
  | .vfcmp g k et c d a b => encX { encV3 0x23 1 g k et 0 a b with d := reg3 d, imm := 0#9 ++ c.code }
  | .vsel g k et d a b => encX (encV3 0x23 2 g k et d a b)
  | .vcvt g k et rm o c d a => encX { encV2 0x24 0 g k et d a with rm := rm.code,
                                                                   ctl := packCvt o.code (bitOf c.scaled) (bitOf c.isat) (bv3 c.part) c.src.code }
  | .vq8 g k et rm o src d a => encX { encV2 0x24 1 g k et d a with rm := rm.code,
                                                                    ctl := packCvt o.code 0 0 0 src.code }
  | .vdq8 g k et rm part src d a => encX { encV2 0x24 2 g k et d a with rm := rm.code,
                                                                        ctl := packCvt 0 0 0 (bv3 part) src.code }
  | .vrdr g d a => encX { xf 0x24 3 g with d := bv5 d, a := bv5 a }
  | .vwrr g d a => encX { xf 0x24 4 g with d := bv5 d, a := bv5 a }
  | .vbcast g k et d a => encX (encV2 0x25 0 g k et d a)
  | .vins g et d a l => encX { encV2 0x25 1 g 0 et d a with imm := 0#8 ++ bv5 l }
  | .vext g et d a l => encX { encV2 0x25 2 g 0 et d a with imm := 0#8 ++ bv5 l }
  | .vperm g k et d a b => encX (encV3 0x25 3 g k et d a b)
  | .vshuf g k et d a b m => encX { encV3 0x25 4 g k et d a b with imm := 0#11 ++ bv2 m }
  | .vslide g k et d a b n => encX { encV3 0x25 5 g k et d a b with imm := 0#7 ++ bv33 n }
  | .vcompress g k et d a => encX (encV2 0x25 6 g k et d a)
  | .vexpand g k et d a => encX (encV2 0x25 7 g k et d a)
  | .vred g k et op ws d a => encX { encV2 0x26 0 g k et d a with imm := 0#11 ++ op.code, ctl := 0#28 ++ ws.code4 }
  | .vdot g k et ws d a b c => encX { encV3 0x26 1 g k et d a b with
      c := (match c with | some c => bv5 c | none => 0),
                         ctl := 0#27 ++ bitOf c.isSome ++ ws.code4 }
  | .vlsig g k et d a => encX { encV2 0x26 2 g k et 0 a with d := reg3 d }
  | .kop g f d a b => encX { xf 0x26 8 g with d := reg3 d, a := reg3 a, b := reg3 b, imm := 0#7 ++ f.code }
  | .kmovToMask g d a => encX { xf 0x26 9 g with d := reg3 d, a := bv5 a }
  | .kmovFromMask g d a => encX { xf 0x26 9 g with d := bv5 d, a := reg3 a, imm := 1 }
  | .kpop g d a => encX { xf 0x26 10 g with d := bv5 d, a := reg3 a }
  | .mmac g m a c => encX (macXF 0 g m a c (macWord m 0 0 0 a))
  | .mmacs g m sp a c => encX (macXF 1 g m a c (macWord m (bv5 sp.n) (bv2 sp.mCode) 1 a))
  | .mzero g tf t => encX { xf 0x31 0 g with et := tf.etCode, ctl := 0#13 ++ bv3 t ++ 0#16 }
  | .mwld g bf slot d src =>
    match src with
    | .dense a i => encXI { xf 0x31 1 g with d := bv5 d, a := bv5 a, ctl := packMwld 0 0 0 0 (bv3 slot) bf.code } i
    | .sparse a i sp b => encXI { xf 0x31 1 g with d := bv5 d, a := bv5 a, b := bv5 b,
                                                   ctl := packMwld 0 (bv5 sp.n) (bv2 sp.mCode) 1 (bv3 slot) bf.code } i
    | .recDense a => encX { xf 0x31 1 g with d := bv5 d, a := bv5 a, ctl := packMwld 1 0 0 0 (bv3 slot) bf.code }
    | .recSparse a sp => encX { xf 0x31 1 g with d := bv5 d, a := bv5 a,
                                                 ctl := packMwld 1 (bv5 sp.n) (bv2 sp.mCode) 1 (bv3 slot) bf.code }
  | .mdrain g et rm o tf t d a b c i => encXI { xf 0x32 0 g with d := bv5 d, a := bv5 a, b := bv5 b, c := bv5 c,
                                                                 et := et.code, rm := rm.code, ctl := packDrain tf.code (bv3 t) o.code } i
  | .mdrainq g et rm o tf t => encX { xf 0x32 1 g with et := et.code, rm := rm.code,
                                                       ctl := packDrain tf.code (bv3 t) o.code }
  | .mdraina g et rm o tf t col => encXI { xf 0x32 2 g with et := et.code, rm := rm.code,
                                                            ctl := packDrain tf.code (bv3 t) o.code } col
  | .mstat g d t => encX { xf 0x33 0 g with d := bv5 d, ctl := 0#13 ++ bv3 t ++ 0#16 }
  | .mclrs g t => encX { xf 0x33 1 g with ctl := 0#13 ++ bv3 t ++ 0#16 }
  | .mwait g => encX (xf 0x33 2 g)
  | .vlds g k et h d a b i => encXI { encV3 0x38 0 g k et d a b with ctl := 0#30 ++ h.code } i
  | .vldx g k et h sc d a b i => encXI { encV3 0x38 1 g k et d a b with ctl := 0#29 ++ bitOf sc ++ h.code } i
  | .vstx g k et h sc d a b i => encXI { encV3 0x38 2 g k et d a b with ctl := 0#29 ++ bitOf sc ++ h.code } i
  | .vldb g k et h d a i => encXI { encV2 0x38 3 g k et d a with ctl := 0#30 ++ h.code } i
  | .cpy g d a b l => encLen { xf 0x39 0 g with d := bv5 d, a := bv5 a, b := bv5 b } l
  | .cpy2d g d a b c => encX { xf 0x39 0 g with d := bv5 d, a := bv5 a, b := bv5 b, c := bv5 c, ctl := 1 }
  | .cpyRs g d a b c => encX { xf 0x39 0 g with d := bv5 d, a := bv5 a, b := bv5 b, c := bv5 c, ctl := 2 }
  | .cpyRd g d a b c => encX { xf 0x39 0 g with d := bv5 d, a := bv5 a, b := bv5 b, c := bv5 c, ctl := 3 }
  | .cpyr g op et d a b l => encLen { xf 0x39 1 g with d := bv5 d, a := bv5 a, b := bv5 b, et := et.code,
                                                       ctl := 0#30 ++ op.code } l
  | .get g et t d a b c => encX { xf 0x39 2 g with d := bv5 d, a := bv5 a, b := bv5 b, c := bv5 c, et := et.code,
                                                   ctl := t.ctl }
  | .put g et t d a b c => encX { xf 0x39 3 g with d := bv5 d, a := bv5 a, b := bv5 b, c := bv5 c, et := et.code,
                                                   ctl := t.ctl }
  | .stmap g n a => encX { xf 0x39 4 g with a := bv5 a, imm := 0#10 ++ bv3 n }
  | .stwb g d a b => encX { xf 0x39 5 g with d := bv5 d, a := bv5 a, b := bv5 b }
  | .stinv g d a b => encX { xf 0x39 6 g with d := bv5 d, a := bv5 a, b := bv5 b }
  | .rflush g a => encX { xf 0x3D 0 g with a := bv5 a }
  | .rflushAll g => encX { xf 0x3D 0 g with ctl := 1 }
  | .pub g d a => encX { xf 0x3D 1 g with d := bv5 d, a := bv5 a }
  | .coll g op fn et wire scaled root d a b c n => encXI { xf 0x3C 0 g with d := bv5 d, a := bv5 a, b := bv5 b,
                                                                            c := bv5 c, et := et.code,
                                                                            ctl := packColl root (bitOf wire) (bitOf scaled) fn.code op.code } n
  | _ => []

/-- The length of an instruction in bytes (R69); 0 for an event. -/
def Instr.len (i : Instr) : Nat := 4 * (encode i).length

end Sys2Proof
end

