-- ==== Sys2Proof/Machine/State.lean ====
section
/-! DEFINITION. The state of one package as plain data: thread sets, cores, memory system, dispatchers, front end, faults,
management, fabric and collectives; the reasons a step can stop; and the state right after reset. -/

namespace Sys2Proof.Machine

/-! ### Maps and memory -/

/-- A map from numbers, sorted by key; an absent key stands for a default of the reader's. -/
abbrev NMap (α : Type) := List (Nat × α)

/-- The entry of a key. -/
def NMap.get? {α : Type} (m : NMap α) (k : Nat) : Option α :=
  match m with
  | [] => none
  | (j, x) :: r => if j = k then some x else NMap.get? r k

/-- Sets the entry of a key. -/
def NMap.set {α : Type} (m : NMap α) (k : Nat) (x : α) : NMap α :=
  match m with
  | [] => [(k, x)]
  | (j, y) :: r => if k < j then (k, x) :: (j, y) :: r else if j = k then (k, x) :: r else (j, y) :: NMap.set r k x

/-- Removes the entry of a key. -/
def NMap.del {α : Type} (m : NMap α) (k : Nat) : NMap α := m.filter fun e => e.1 != k

/-- A memory: listed bytes, in canonical form; an unlisted byte reads as 0 (R205, R401; log entry 5 for the host's). -/
abbrev Memory := List Host.Cell

/-- One byte. -/
def Memory.get (m : Memory) (a : Nat) : Byte :=
  match m with
  | [] => 0
  | (b, x) :: r => if b = a then x else if a < b then 0 else Memory.get r a

/-- Writes one byte; a zero byte is not listed. -/
def Memory.put (m : Memory) (a : Nat) (x : Byte) : Memory :=
  match m with
  | [] => if x = 0 then [] else [(a, x)]
  | (b, y) :: r =>
    if a < b then (if x = 0 then (b, y) :: r else (a, x) :: (b, y) :: r)
    else if b = a then (if x = 0 then r else (a, x) :: r)
    else (b, y) :: Memory.put r a x

/-- The canonical form: addresses strictly rising, no listed zero. -/
def Memory.wf : Memory → Bool
  | [] => true
  | [(_, x)] => x != 0
  | (a, x) :: (b, y) :: r => x != 0 && a < b && Memory.wf ((b, y) :: r)

/-! ### Places, and the events of an access -/

/-- Where a byte of storage lies: device memory, the second backing of a cloaked byte, host memory, a peer's export
memory, or the local memory of a core. -/
inductive Space where
  | dev
  | alt
  | host
  | peer (p : Nat)
  | core (c : Nat)
  deriving DecidableEq, Repr

/-- What a leaf says of the page an address lies in (R262), with the physical address of the access. -/
structure Loc where
  space : Space
  /-- Address of the byte in its space. -/
  addr : Nat
  /-- Key slot (R277). -/
  key : Nat := 0
  /-- 0 cacheable, 1 uncached, 2 device (R262). -/
  type : Nat := 0
  /-- Target 2: non-coherent host page. -/
  nc : Bool := false
  cloak : Option Nat := none
  /-- The page grants no read, so no stash line may be filled from it (R262). -/
  noRead : Bool := false
  deriving DecidableEq, Repr

/-- A part of an access that lies in one 64 KiB page: its virtual address, size and location, the lowest address of the access
in the leaf's page (R369), and the class with which the exporter would refuse it, 0 if it would not, for a part that a copy
may serve (R461). -/
structure Piece where
  va : Nat
  n : Nat
  loc : Loc
  low : Nat := va
  refuse : Nat := 0
  deriving DecidableEq, Repr

/-- One event of an access (R294): its lane, its offset in the lane's bytes, the part that it reads or writes, and the
lowest address of the lane's access in that page (R369). -/
structure Ev where
  lane : Nat
  off : Nat
  piece : Piece
  base : Nat
  deriving DecidableEq, Repr

/-- An access of more than one event that has begun and not ended: its instruction, the events to come, and the bytes
read so far by lane (R216, R217, R220). -/
structure Part where
  instr : Instr
  todo : List Ev
  got : NMap Nat := []
  deriving DecidableEq, Repr

/-! ### Thread sets -/

/-- Why a thread set that has not ended is not issuing (R143). -/
inductive Status where
  /-- Retired, ended or never started (R238). -/
  | free
  /-- Its next instruction may issue. -/
  | running
  /-- Blocked in `qput`, `qget` or `fget`; nothing of the instruction has happened (R134, R375). -/
  | waitQueue (i : Instr)
  /-- Blocked in `racq`, `cwait`, `bwait`, or before an arrival; evaluated again at a wake (R239). -/
  | waitWake (i : Instr)
  /-- Blocked in `bar` after its arrival at a phase of the group in a slot (R245). -/
  | waitPhase (slot : Nat) (phase : Nat)
  /-- A `fence` that waits for a link, since a clk (R287). -/
  | waitFence (i : Instr) (since : Nat)
  /-- An `mwait` that waits for this many accepted matrix commands (R199). -/
  | waitMatrix (n : Nat)
  /-- An `mtsr xfln` that waits for its flush (R382). -/
  | waitFlush
  /-- At an access of an instruction that executes only once its peer can be reached: the peer, the address, and whether it
  writes (R468). -/
  | waitPeer (i : Instr) (peer : Nat) (va : Word) (write : Bool)
  /-- Blocked on its own posted fault (R139). -/
  | waitReply (handle : Nat)
  /-- Ended by ABORT with a code, or by KILL; waits for its engine commands (R378). -/
  | ending (code : Nat)
  deriving DecidableEq, Repr

/-- Dirty bits of the registers and faces of a thread set (R386): set by a write, cleared by the image that saves them. -/
structure TsDirty where
  s : BitVec 32 := 0
  v : BitVec 32 := 0
  p : Bool := false
  k : Bool := false
  pc : Bool := false
  fpc : Bool := false
  fps : Bool := false
  qa : Bool := false
  qr : Bool := false
  qn : Bool := false
  pend : Bool := false
  deriving DecidableEq, Repr

/-- Every part has been written: that of a thread set that starts (R113). -/
def TsDirty.all : TsDirty :=
  { s := .allOnes 32, v := .allOnes 32, p := true, k := true, pc := true, fpc := true, fps := true, qa := true, qr := true,
    qn := true, pend := true }

/-- The state that R96 to R113 give one thread set. -/
structure ThreadSet where
  s : Vector Word 32 := .replicate 32 0
  v : Vector VWord 32 := .replicate 32 0
  p : Vector Bool 8 := .replicate 8 false
  k : Vector (BitVec 32) 8 := .replicate 8 0xFFFFFFFF
  pc : Word := 0
  fpc : BitVec 8 := 0x28
  fps : BitVec 6 := 0
  eid : Word := 0
  targ : Word := 0
  gs : Vector Word 4 := .replicate 4 0
  cb : Word := 0
  /-- Number of the launch it belongs to; `launchid` and the address space are that launch's (R101). -/
  launch : Nat := 0
  launchid : Word := 0
  /-- `tsid` bits [15:0] (R101). -/
  index : Nat := 0
  /-- Runs an element task, of this kernel position (R332). -/
  element : Bool := false
  pos : Nat := 0
  /-- Pending bits of scalar and vector registers (R110). -/
  pendS : BitVec 32 := 0
  pendV : BitVec 32 := 0
  qa : List VWord := []
  qr : List VWord := []
  /-- Neighbours in the face, and those the dispatcher has yet to enter (R98, R137). -/
  qn : List Word := []
  qnRest : List Word := []
  /-- Messages of a fault service (R98, R372), and the clock of each one's post (R307). -/
  qf : List (BitVec 512) := []
  qfPts : List Nat := []
  status : Status := .free
  /-- Logical clock of R265. -/
  pts : Nat := 0
  /-- Faults posted by and for this hardware thread set (R371). -/
  faultSeq : BitVec 16 := 0
  /-- Halted by `qdb`; a draining halt has not completed while `draining` holds (R390). -/
  halted : Bool := false
  draining : Bool := false
  /-- Accesses outstanding for a `fence.fab` or `fence.sys`: peer and its incarnation at issue, or none once the peer has
  failed (R287). -/
  toPeers : List (Nat × Option (BitVec 16)) := []
  /-- Unacknowledged accesses to host memory (R287). -/
  toHost : Bool := false
  /-- The access that it is in the middle of (R294). -/
  part : Option Part := none
  /-- Clocks that the first instruction to read a register takes: completions of the commands and answers whose tokens the
  registers hold (R303). Key 32 is that of its start, which its first instruction takes (R306); key 33 that of all its
  completions, which its end takes. -/
  acq : NMap Nat := []
  dirty : TsDirty := {}
  deriving DecidableEq, Repr

/-! ### Cores -/

/-- A counter set of the matrix engine (R175). -/
structure Counters where
  ov : BitVec 16 := 0
  nan : BitVec 16 := 0
  lost : BitVec 16 := 0
  poison : Bool := false
  deriving DecidableEq, Repr

/-- A sparse setting with N and M. -/
structure SparseDesc where
  n : Nat
  m : Nat
  deriving DecidableEq, Repr

/-- A slot's descriptor (R176). -/
structure SlotDesc where
  bfmt : MFmt
  sparse : Option SparseDesc
  deriving DecidableEq, Repr

/-- A weight-buffer slot: descriptor, stored rows, header scales, side-array pages translated at the load, poisoned mark
(R176, R177, R192). -/
structure Slot where
  desc : Option SlotDesc := none
  data : Memory := []
  scale0 : Nat := 0
  scale1 : Nat := 0
  /-- Address of the side array, and the location of each page it covers. -/
  side : Nat := 0
  sidePages : NMap Loc := []
  poisoned : Bool := false
  /-- The number of writes (`MemSys.writes`) before the issue of its `mwld`: masks may have any value since (R177). -/
  since : Nat := 0
  /-- Offset in local memory of the image it was loaded from, when that lay in the window, and whether a 256-byte line of it has
  been written since (R387). -/
  origin : Option Nat := none
  stale : Bool := false
  deriving DecidableEq, Repr

/-- The A-bypass (R178): element (i, t) lies at byte 8 · (128 i + t) of `data`. -/
structure Bypass where
  tag : Option ElemTy := none
  valid : Vector Bool 4 := .replicate 4 false
  data : Memory := []
  flags : List Nat := []
  deriving DecidableEq, Repr

/-- One element of an engine's chunk that has not landed (R225, R294): the parts of its source still to read, and whether
each is an event of its own; what has been read so far, as a number of `got` bytes, with the offsets of those that were
uncorrectable; the parts of its destination; its size; and the address of its source. -/
structure Elem where
  src : List Piece
  byWord : Bool
  val : Nat := 0
  bad : List Nat := []
  got : Nat := 0
  dst : List Piece
  n : Nat
  va : Nat := 0
  deriving DecidableEq, Repr

/-- An accepted matrix command (R172), with the register values it took at issue. -/
structure MCmd where
  id : Nat
  ts : Nat
  instr : Instr
  pc : Word
  /-- S[a] plus displacement, S[b], S[c], and for `mwld` the side-array address. -/
  a : Word := 0
  b : Word := 0
  c : Word := 0
  /-- Rounding mode and FP8 settings read at issue (R193). -/
  fpc : BitVec 8 := 0
  /-- Pages of an `mwld` image and side array, translated at issue (R192). -/
  pages : NMap Loc := []
  side : Word := 0
  /-- Rows of `qa` taken so far, and entries of `qr` still to push (R172, R385). -/
  rows : List VWord := []
  out : List VWord := []
  started : Bool := false
  done : Bool := false
  token : Word := 1
  /-- Its thread set has ended: the token is discarded (R112). -/
  orphan : Bool := false
  /-- Clock of its issue marker and of the events so far (R303). -/
  pts : Nat := 0
  /-- Operand bytes that it has read ahead, by address, and the result bytes that it has written already (R190, R202). -/
  early : Memory := []
  earlyAt : List Nat := []
  landed : List Nat := []
  /-- The number of writes before the issue of an `mwld` (R177). -/
  since : Nat := 0
  deriving DecidableEq, Repr

/-- An accepted tile-engine command (R221, R223), with the register values it took at issue. -/
structure TCmd where
  id : Nat
  ts : Nat
  launch : Nat
  instr : Instr
  pc : Word
  /-- S[d] or S[a] destination, S[b] source, S[c] group. -/
  a : Word := 0
  b : Word := 0
  c : List Word := []
  /-- Record lines as used (R213). -/
  record : Memory := []
  /-- Elements landed, bytes landed (R369). -/
  next : Nat := 0
  bytes : Nat := 0
  chunk : Nat := 0
  paused : Option Nat := none
  finished : Bool := false
  skipped : Bool := false
  token : Word := 1
  orphan : Bool := false
  /-- Command number of its copy identifier (R391). -/
  copy : Nat := 0
  /-- Clock of its issue marker and of the events so far (R303). -/
  pts : Nat := 0
  /-- The elements of the running chunk that have not landed, once its pages have been translated (R224). -/
  opened : Option (List Elem) := none
  /-- The retraining peer that a chunk or the flag of a `put` waits for (R287, R468). -/
  stall : Option Nat := none
  deriving DecidableEq, Repr

/-- A stash line (R208, R265): global line address, the physical line behind it, dirty or clean; wts and rts at its fetch
or last write, the clk of its fetch, and the length of its lease. -/
structure StashLine where
  line : Nat
  home : Loc
  dirty : Bool
  wts : Nat
  rts : Nat
  installed : Nat
  len : Nat
  deriving DecidableEq, Repr

/-- A fold-buffer entry (R273). -/
structure Fold where
  ts : Nat
  /-- Virtual line, its location, and the home scope of R285 (as a number, core 1 to sys 6). -/
  line : Nat
  loc : Loc
  scope : Nat
  fn : FoldFn
  et : ElemTy
  /-- Combined operand of each element, by offset in the line. -/
  ops : NMap Nat
  /-- The announcement has arrived at the home (R274). -/
  arrived : Bool := false
  /-- Launch and clock of its thread set at the last `amof` (R301, R383). -/
  launch : Nat := 0
  pts : Nat := 0
  deriving DecidableEq, Repr

/-- Dirty bits of the parts of a core (R386): 256-byte lines of local memory, accumulator halves, bypass column blocks,
weight-buffer slots, and engine commands by number. -/
structure CoreDirty where
  lines : BitVec 2048 := 0
  halves : BitVec 8 := 0
  blocks : BitVec 4 := 0
  slots : BitVec 8 := 0
  cmds : List Nat := []
  deriving DecidableEq, Repr

/-- The state of one core that its four thread sets share. -/
structure Core where
  mem : Memory := []
  poison : List Nat := []
  /-- Owner of each 2 KiB half (R174), contents and element flags of the accumulator storage. -/
  halves : Vector (Option (TileFmt × Nat)) 8 := .replicate 8 none
  acc : Memory := []
  accFlags : List Nat := []
  counters : Vector Counters 8 := .replicate 8 {}
  slots : Vector Slot 8 := .replicate 8 {}
  bypass : Bypass := {}
  mq : List MCmd := []
  /-- The command that runs was started in narrowed mode (R200). -/
  narrow : Bool := false
  tq : List TCmd := []
  nextCmd : Nat := 0
  smap : Vector Word 8 := .replicate 8 0
  stash : List StashLine := []
  /-- Record cache: handle, address space, 192 bytes (R213). -/
  recs : List (Nat × Nat × BitVec 1536) := []
  /-- Instruction cache: address space, line address, bytes (R89). -/
  icache : List (Nat × Nat × BitVec 512) := []
  folds : List Fold := []
  /-- Slot that issued last, its run, and whether no thread set has been ready since (R144, R145). -/
  slot : Nat := 0
  run : Nat := 0
  idle : Bool := false
  /-- Launch whose thread sets the core holds (R384). -/
  launch : Option Nat := none
  /-- Clock of the latest access to its local memory (R299), and of the completions of its matrix commands (R303). -/
  pts : Nat := 0
  mpts : Nat := 0
  dirty : CoreDirty := {}
  deriving DecidableEq, Repr

/-! ### The memory system -/

/-- A coherence region of a home (R265, R269). -/
structure Region where
  base : Nat
  size : Nat
  wts : Nat
  rts : Nat
  /-- Line, as address, of the read that set rts, and the clk of the last write. -/
  reader : Option Nat
  written : Nat
  deriving DecidableEq, Repr

/-- A leased copy in a die's slices (R260, R265): die, address space and virtual line that tag it; the physical line
behind it; its bytes, and a mark for each uncorrectable word of them; wts and rts at its fetch, the clk of its fetch, and
the length of its lease (R267). -/
structure LeaseCopy where
  die : Nat
  asid : Nat
  va : Nat
  home : Loc
  data : BitVec 512
  bad : BitVec 8
  wts : Nat
  rts : Nat
  installed : Nat
  len : Nat
  deriving DecidableEq, Repr

/-- A line of a non-coherent host page in a die's slices (R260, R272): the line, the address spaces and virtual lines that
tag it, its bytes, dirty marks, and a mark for each uncorrectable word. One die has one value of a line (R309). -/
structure NcLine where
  die : Nat
  home : Loc
  tags : List (Nat × Nat) := []
  data : BitVec 512
  dirty : BitVec 64
  bad : BitVec 8 := 0
  deriving DecidableEq, Repr

/-- Why a write to host memory has not been performed yet. -/
inductive PostKind where
  /-- A write to a coherent host page while the host port is down (R287). -/
  | coherent
  /-- A write with the `unc` hint, or to an uncached page, of the non-coherent target (R309). -/
  | plain
  /-- A write-back of a line (R291, R309). -/
  | back
  deriving DecidableEq, Repr

/-- A write on its way to host memory: the thread sets whose fences wait for it (R286), its die, its line, and the bytes that
it writes. -/
structure Posted where
  kind : PostKind
  waits : List Nat := []
  die : Nat
  home : Loc
  data : BitVec 512
  mask : BitVec 64
  bad : BitVec 8 := 0
  pts : Nat := 0
  /-- A fence has reported it: it may or may not be performed (R310). -/
  reported : Bool := false
  deriving DecidableEq, Repr

/-- A valid entry that the walkers hold (R264): address space, level, virtual prefix, entry; at level 4 the entry of the
fabric map of a page, which has 16 bytes (R456). -/
structure WalkEntry where
  asid : Nat
  level : Nat
  va : Nat
  entry : BitVec 128
  deriving DecidableEq, Repr

/-- A translation flush in progress (R382). -/
structure Flush where
  asid : Nat
  start : Nat
  pages : Nat
  ts : Option Nat
  dropped : Bool
  deriving DecidableEq, Repr

/-- A value that a line of host memory held before a later write, which the next fetch of the line by a die may still return
(R309); the flushes and the turned cloak regions since, through whose pages it may not (R214, R272). -/
structure EarlyLine where
  die : Nat
  home : Loc
  data : BitVec 512
  bad : BitVec 8
  flushed : List Flush := []
  turned : List Nat := []
  deriving DecidableEq, Repr

/-- A value that a homed line held before a write: its marks, its wts, the end of the leases before that write, and the clk of
the write (R266, R298). -/
structure OldLine where
  data : BitVec 512
  bad : BitVec 8
  wts : Nat
  rts : Nat
  replaced : Nat
  deriving DecidableEq, Repr

/-- What a line held before a write, with its marks, and the number of that write. -/
structure PastLine where
  num : Nat
  data : BitVec 512
  bad : BitVec 8
  deriving DecidableEq, Repr

/-- A chunk of a reducing copy on its way to its target (R391, R392): copy identifier, sequence number, the core and
address space of its sender, its function (none for a reducing collective, whose chunks carry final values), each element
with its operand, none where it was read from an uncorrectable word, and the clock of its sending. -/
structure Chunk where
  copy : Nat
  seq : Nat
  core : Nat
  asid : Nat
  root : Nat
  fn : Option FoldFn
  et : ElemTy
  elems : List (Piece × Option Nat)
  pts : Nat := 0
  deriving DecidableEq, Repr

/-- The window of a copy identifier at its target (R392): base and map, and the clock of the chunks applied. -/
structure Window where
  copy : Nat
  base : Nat
  map : BitVec 64
  pts : Nat := 0
  deriving DecidableEq, Repr

/-- Key material of a slot: a loaded key, or the random key that slot 0 receives (R428). -/
abbrev KeyMat := Option (BitVec 512)

/-- Memory behind the homes, and the state kept with it. -/
structure MemSys where
  dev : Memory := []
  alt : Memory := []
  host : Memory := []
  /-- Poisoned words of `dev`, `alt` and `host` (R223, R276). -/
  poison : List Nat := []
  altPoison : List Nat := []
  hostPoison : List Nat := []
  /-- Key under which each block of 16 bytes of `dev` and `alt`, by number, was written (R277). -/
  tags : NMap KeyMat := []
  altTags : NMap KeyMat := []
  /-- Cloak regions whose face is the second backing (R214). -/
  flipped : List Nat := []
  keys : NMap KeyMat := []
  walk : List WalkEntry := []
  flushes : List Flush := []
  regions : List Region := []
  /-- Entries of a home's region table (R269); the model's value (log entry 62). -/
  regionCap : Nat := 4096
  /-- Lines that a stash owns (R265). -/
  owners : List (Nat × Nat) := []
  copies : List LeaseCopy := []
  nc : List NcLine := []
  /-- Earlier values of host memory that a die may still fetch (R309), and earlier values of homed lines, by line, that a
  read may still return (R298). -/
  early : List EarlyLine := []
  old : NMap (List OldLine) := []
  /-- What lines held before the writes made while a launch has run, the latest write first, and the number of those writes:
  an instruction fetch, a reading of a graph array and a mask may still see it (R89, R177, R329). -/
  past : NMap (List PastLine) := []
  writes : Nat := 0
  /-- Writes on their way to host memory (R286, R309). -/
  posted : List Posted := []
  /-- Clocks of S (R296): of the agent that is no thread set and acts now, of each cloak region, of the element writes to each
  region's lining, and of each die's non-coherent lines. -/
  agent : Nat := 0
  cloakPts : NMap Nat := []
  liningPts : NMap Nat := []
  diePts : NMap Nat := []
  windows : List Window := []
  flight : List Chunk := []
  deriving DecidableEq, Repr

/-! ### Launches and dispatch -/

/-- A group of a resident launch (R243, R246). -/
structure Group where
  id : Nat
  members : List Nat
  completed : Nat := 0
  /-- Arrival count of each member, by rank. -/
  arrivals : List Nat
  /-- Ranks that departed, and ranks that were lost. -/
  departed : List Nat := []
  lost : List Nat := []
  /-- Clock of the arrivals (R305). -/
  pts : Nat := 0
  deriving DecidableEq, Repr

/-- A pending task (R334, R338, R339). -/
structure Task where
  /-- The owner: another package, or none for this one; its die (R327). -/
  pkg : Option Nat := none
  die : Nat
  pos : Nat
  elem : Nat
  arg : Word
  age : Nat := 0
  reserved : Bool := false
  /-- Not eligible before this clk (R355). -/
  hold : Nat := 0
  /-- Admitted to the running round (R344). -/
  admitted : Bool := false
  /-- Partitions (peer, die) whose claim answers the verifying mode still awaits; `asked` once requested (R349). -/
  asked : Bool := false
  awaiting : List (Nat × Nat) := []
  /-- Clock of the spawns that made it (R352). -/
  pts : Nat := 0
  deriving DecidableEq, Repr

/-- A granted task that has not retired (R337). -/
structure Running where
  pkg : Option Nat := none
  die : Nat
  pos : Nat
  elem : Nat
  ts : Option Nat
  /-- Admitted in this round (R344). -/
  round : Bool := false
  /-- It waits in a task queue of the other package that owns it. -/
  queued : Bool := false
  /-- Clock of its grant: the spawns that made it, and the ends of earlier tasks of its ball (R306). -/
  pts : Nat := 0
  deriving DecidableEq, Repr

/-- A kernel of an image's entry table (R32, R91). -/
structure Kernel where
  offset : Nat
  element : Bool
  radius : Nat
  combine : Nat
  handler : Bool
  hset : Nat
  deriving DecidableEq, Repr

/-- The graph of an element launch as its record gives it (R326); a field that is 0 there means none. -/
structure Graph where
  addr : Nat
  offsets : Nat
  indices : Nat
  owners : Option Nat
  seams : Option Nat
  count : Nat
  single : Bool
  deriving DecidableEq, Repr

/-- An element that a dispatcher holds for a seam task of another partition (R349): the element, the task's position and
element, and the partition that owns the claimed element. -/
structure Claimed where
  elem : Nat
  pos : Nat
  task : Nat
  pkg : Option Nat := none
  die : Nat
  deriving DecidableEq, Repr

/-- A launch that has started and not completed, and what the front end and the home hub keep for it. Its launch number is
`num` modulo 2^32 (R101). -/
structure Launch where
  num : Nat
  queue : Nat
  asid : Nat
  root : Nat
  element : Bool
  image : Nat
  code : Nat
  cb : Nat
  kernels : List Kernel
  count : Nat
  ebase : Nat
  graph : Option Graph
  ageLimit : Nat
  verify : Bool
  priority : Nat
  completion : Nat
  increment : Nat
  lower : Nat
  upper : Nat
  budget : Nat
  used : Nat := 0
  /-- Highest status so far, and its code (R380). -/
  status : Nat := 0
  code2 : Nat := 0
  /-- Resident: placement map, thread set of each placed index, retired indices (R359). -/
  map : List Nat := []
  placed : List (Nat × Nat) := []
  waiting : Bool := false
  retired : List Nat := []
  groups : List Group := []
  /-- Element: pending and running tasks, and G (R350). -/
  pending : List Task := []
  running : List Running := []
  g : Nat := 0
  /-- Seam rounds: the running colour, the last colour run, partitions that have not reported, and the colours that a
  partition's latest report or announcement named (R344). -/
  round : Option Nat := none
  lastColour : Option Nat := none
  unreported : List (Option Nat × Nat) := []
  reports : List ((Option Nat × Nat) × List Nat) := []
  /-- The other packages that take part, as the owner array names them: their dispatchers report too (R343). -/
  packages : List Nat := []
  /-- Remotely claimed elements (R349). -/
  claims : List Claimed := []
  /-- Pairs and elements already written to the error log (R349). -/
  logged : List (Nat × Nat) := []
  /-- Commands numbered so far (R391). -/
  copies : Nat := 0
  /-- Bytes of its launch context, and where they lie (R36). -/
  ctxLen : Nat := 0
  ctxAt : List Piece := []
  attached : Bool := false
  breakpoints : Bool := false
  /-- The whole launch is halted; its new thread sets start halted (R390). -/
  halted : Bool := false
  /-- Memory at its start, and the number of writes before it: what an instruction fetch or a reading of a graph array may
  still see (R89, R329). -/
  codeDev : Memory := []
  codeAlt : Memory := []
  codeHost : Memory := []
  codePeers : NMap Memory := []
  codeFlipped : List Nat := []
  began : Nat := 0
  /-- Clock of its start, of the ends of its thread sets and tasks, and of the last end of a task of each element (R303,
  R306). -/
  pts : Nat := 0
  ended : Nat := 0
  marks : NMap Nat := []
  deriving DecidableEq, Repr

/-- An entry of a cluster task queue (R238): a thread set of a resident launch, or an element task. -/
inductive Entry where
  | index (launch priority i ts : Nat)
  | task (launch priority pos elem : Nat) (arg : Word)
  deriving DecidableEq, Repr

/-- A spawn on its way to its owner, or its answer on the way back (R352). -/
structure Spawn where
  ts : Nat
  d : Reg
  launch : Nat
  pos : Nat
  elem : Nat
  arg : Word
  answer : Option Nat := none
  pts : Nat := 0
  deriving DecidableEq, Repr

/-- A claim request of the verifying mode (R349): the seam task, the partition asked, answered or not. -/
structure Claim where
  launch : Nat
  pos : Nat
  elem : Nat
  peer : Nat
  die : Nat
  answered : Bool
  deriving DecidableEq, Repr

/-- A slot saved as a reference: its source range in local memory, and its descriptor (R387). -/
structure SlotRef where
  first : Nat
  bytes : Nat
  desc : Option SlotDesc
  deriving DecidableEq, Repr

/-- A unit of dirty tracking of a core image (R386): a register or face of a thread set, a line of local memory, an
accumulator half, a bypass block, a slot, a command. -/
inductive SaveUnit where
  | scalar (slot r : Nat)
  | vector (slot r : Nat)
  | preds (slot : Nat)
  | masks (slot : Nat)
  | pc (slot : Nat)
  | fpc (slot : Nat)
  | fps (slot : Nat)
  | qa (slot : Nat)
  | qr (slot : Nat)
  | qn (slot : Nat)
  | pending (slot : Nat)
  | line (n : Nat)
  | half (n : Nat)
  | block (n : Nat)
  /-- A weight-buffer slot, in full or as a reference (R387). -/
  | weights (n : Nat) (ref : Option SlotRef)
  | command (id : Nat)
  deriving DecidableEq, Repr

/-- A save area (R386): the number, 4096 or above, under which `cores` and `tsets` keep the image while it waits to resume;
the units that its last writing saved; and whether it has been restored, and stands for the next image of the same core
state. -/
structure Image where
  num : Nat
  launch : Nat
  written : List SaveUnit := []
  kept : Bool := false
  deriving DecidableEq, Repr

/-- Dispatchers, home hub and saved images. -/
structure Disp where
  launches : List Launch := []
  queues : NMap (List Entry) := []
  spawns : List Spawn := []
  claims : List Claim := []
  /-- Save areas (R386), and the save area of the image that a core was last restored from. -/
  images : List Image := []
  saved : NMap Nat := []
  /-- Dies with an event of R338 since their last pass began. -/
  passDue : List Nat := []
  /-- The last halt report (R390): core and number of each held command. -/
  haltReport : List (Nat × Nat) := []
  deriving DecidableEq, Repr

/-! ### Front end and management -/

/-- The front end's copy of a queue record (R403). -/
structure Queue where
  ring : Nat := 0
  slots : Nat := 4
  state : Nat := 0
  floor : Nat := 0
  wr : Nat := 0
  rd : Nat := 0
  root : Nat := 0
  asid : Nat := 0
  lower : Nat := 0
  upper : Nat := 0
  mapped : Bool := false
  /-- The packet at the read index as it was read (R405), and the clk since which it is ready to start (R406). -/
  slot : Option (BitVec 512) := none
  since : Option Nat := none
  deriving DecidableEq, Repr

/-- A packet that has started or been rejected and has not completed (R412, R414): its counter and address space, and
for a bulk copy its operands and progress (R413). -/
structure Packet where
  queue : Nat
  kind : Nat
  completion : Nat
  increment : Nat
  asid : Nat
  root : Nat
  lower : Nat
  upper : Nat
  /-- Number of the launch, for a launch. -/
  launch : Option Nat := none
  /-- Status and code of its end; 0 for none. -/
  status : Nat := 0
  code : Nat := 0
  ready : Bool := false
  dst : Nat := 0
  src : Nat := 0
  /-- Bytes, or elements of a reducing copy. -/
  len : Nat := 0
  op : RedOp := .add
  et : ElemTy := .i8
  next : Nat := 0
  chunk : Nat := 0
  copy : Nat := 0
  /-- Clock of its start and of its events so far; the elements of its running chunk; the peer it waits for. -/
  pts : Nat := 0
  opened : Option (List Elem) := none
  stall : Option Nat := none
  deriving DecidableEq, Repr

/-- The four front-end processors. -/
structure Front where
  queues : NMap Queue := []
  packets : List Packet := []
  /-- Count that numbers the next accepted launch; its launch number is the count modulo 2^32 (R101). -/
  nextLaunch : Nat := 1
  /-- Hardware slots in use: queue numbers; and the queue that the last time slice mapped last (R415). -/
  mapped : List Nat := []
  lastMapped : Nat := 0
  /-- Clk at which the current time slice began. -/
  slice : Nat := 0
  /-- Processors in service (R399). -/
  inService : BitVec 4 := 0xF
  /-- Copy commands numbered so far for packets (R391). -/
  copies : Nat := 0
  deriving DecidableEq, Repr

/-- A key command in progress (R428). -/
structure KeyCmd where
  slot : Nat
  clear : Bool
  deriving DecidableEq, Repr

/-- A host access of more than one line that has begun and not ended: the access, the lines done, the bytes read so far, and
whether one of them was uncorrectable (R294, R422). -/
structure HostPart where
  access : Instr
  done : Nat
  val : Nat := 0
  bad : Bool := false
  deriving DecidableEq, Repr

/-- Management registers and bring-up (R398 to R402, R424, R428, R429). -/
structure Mgmt where
  powered : Bool := true
  stage : BitVec 3 := 1
  failure : BitVec 8 := 0
  ready : Bool := false
  alarm : Bool := false
  force : Bool := false
  svcHalt : Bool := false
  patch : Bool := false
  qtable : BitVec 64 := 0
  leaseDie : BitVec 20 := 4096
  leasePkg : BitVec 20 := 16384
  leaseFab : BitVec 20 := 65536
  incarnReg : BitVec 16 := 0
  incarnWritten : Bool := false
  incarnation : BitVec 16 := 0
  peerReg : BitVec 8 := 0
  peerId : BitVec 8 := 0
  pwrlim : Nat := 4200
  pwrnow : Nat := 0
  /-- Clk since which the power has stayed below 95% of the limit. -/
  lowSince : Option Nat := none
  keydata : BitVec 512 := 0
  keycmd : Option KeyCmd := none
  biasCount : BitVec 16 := 0
  biasBusy : Bool := false
  biasrng : BitVec 64 := 0
  endGo : Bool := false
  endNotFound : Bool := false
  endAll : Bool := false
  endQueue : BitVec 16 := 0
  endLaunch : BitVec 32 := 0
  /-- Launch numbers that the running ENDCMD named. -/
  ending : List Nat := []
  bringUps : Nat := 0
  /-- Host interrupts sent (R421). -/
  interrupts : Nat := 0
  hostUp : Bool := true
  cxl : Bool := true
  /-- Optical wavelength lock failed: no peers are reported (R401). -/
  dark : Bool := false
  /-- The value that the last host read returned. -/
  hostRead : Nat := 0
  hostParts : List HostPart := []
  deriving DecidableEq, Repr

/-! ### Faults -/

/-- A result that arrives later (R111): an access of a thread set, with its registers at issue. While `peer` is given it
waits for that peer and has not been performed (R468); afterwards `snap` holds the registers it writes. -/
structure Writeback where
  ts : Nat
  instr : Instr
  snap : ThreadSet
  peer : Option Nat := none
  /-- The lowest address of the access in the page where it waits (R369). -/
  va : Word := 0
  /-- A store that has its place in S, and only awaits the peer's acknowledgement: later accesses of its thread set follow it
  (R296, R299); and the parts that it has written there. -/
  placed : Bool := false
  parts : List Piece := []
  /-- Address space of its accesses. -/
  asid : Nat := 0
  root : Nat := 0
  /-- Its thread set has ended: nothing is written (R112). -/
  orphan : Bool := false
  deriving DecidableEq, Repr

/-- An outstanding fault: its message, who posted it, and what a reply acts on (R367 to R377). -/
structure FaultRec where
  handle : BitVec 32
  ts : Nat
  launch : Nat
  /-- 0 the thread set, 1 the tile engine, 2 the collective unit. -/
  source : Nat
  cls : Nat
  detail : Nat
  msg : BitVec 512
  instr : Instr
  len : Nat
  /-- Engine command it belongs to. -/
  cmd : Nat := 0
  /-- Phase that a `bar` has arrived at, when its wait faults (R246). -/
  dest : Option Nat := none
  posted : Bool := false
  /-- A reply held until the thread set resumes (R384): action, value, code. -/
  held : Option (Nat × Word × Nat) := none
  /-- The access that waited for a peer and then faulted (R467, R468): its thread set has gone on. -/
  late : Option Writeback := none
  /-- Clock of the post (R307). -/
  pts : Nat := 0
  deriving DecidableEq, Repr

/-- Service registers of a die (R382). -/
structure DieSvc where
  fsvc : BitVec 4 := 8
  elogb : Word := 0
  elogn : Word := 0
  deriving DecidableEq, Repr

/-- Posted faults, error logs and late results. -/
structure Faults where
  recs : List FaultRec := []
  dies : Vector DieSvc 8 := .replicate 8 {}
  /-- `xfla` of each service core. -/
  xfla : NMap Word := []
  /-- Service cores that have halted on a fault of their own (R370, R430). -/
  deadSvc : List Nat := []
  writebacks : List Writeback := []
  deriving DecidableEq, Repr

/-! ### Fabric and collectives -/

/-- A transmit channel and its receive mirror (R440, R442). -/
structure Chan where
  /-- Number of the next flit that it accepts, and the flits that it has acknowledged: those below it. -/
  rxSeq : BitVec 32 := 0
  ackSeq : BitVec 32 := 0
  /-- Number of the next flit that it sends, and the retry buffer: flits sent and not acknowledged. -/
  txSeq : BitVec 32 := 0
  unacked : List (BitVec 32) := []
  /-- Out of service, retraining. -/
  down : Bool := false
  deriving DecidableEq, Repr

/-- A pool receive channel (R441, R444): the package that it hears or heard last, the package whose lease holds it, and the
one that contests it. -/
structure RxChan where
  tuned : Option Nat := none
  holder : Option Nat := none
  claim : Option Nat := none
  /-- Clk from which it carries traffic. -/
  start : Nat := 0
  deriving DecidableEq, Repr

/-- A pool transmit channel (R441, R444): the peer it is tuned to, or was tuned to last while it is being retuned; the lease that
holds it, or the request that has claimed it and holds it from `rxAt` on, with the peer's receive channel that hears it and the
clk from which that one is the lease's; the request of this package that contests it, with the same for its peer; and the package
that contests the receive channel. -/
structure PoolChan where
  tuned : Option Nat := none
  lease : Option Nat := none
  rx : Nat := 0
  rxAt : Nat := 0
  claim : Option Nat := none
  claimRx : Nat := 0
  claimAt : Nat := 0
  rxClaim : Option Nat := none
  /-- Being retuned, until a clk: from `rxAt` on. -/
  retune : Option Nat := none
  /-- An earlier retune, still under way when a request claimed the channel, lasts until this clk. -/
  busy : Nat := 0
  /-- End of its hold when a renewal has left it behind (R448). -/
  endsAt : Nat := 0
  deriving DecidableEq, Repr

/-- A bandwidth lease or request (R443 to R448). -/
structure Lease where
  handle : BitVec 32
  launch : Nat
  peer : Nat
  want : Nat
  dur : Nat
  active : Bool := false
  passed : Bool := false
  /-- The request has completed; its token waits until its channels are tuned (R445). -/
  closed : Bool := false
  ends : Nat := 0
  ts : Nat
  d : Reg
  deriving DecidableEq, Repr

/-- A `bwrel` whose status has not been written: its thread set and destination, its status, and the flits that still travel on
the channels that it freed, by channel (R453). -/
structure Release where
  ts : Nat
  launch : Nat
  d : Reg
  token : Word
  flits : List (Nat × List (BitVec 32))
  deriving DecidableEq, Repr

/-- An entry of a peer's import table, as requests of this package meet it (R458, R459). -/
structure Export where
  handle : Nat
  base : Nat
  length : Nat
  key : BitVec 32
  read : Bool
  write : Bool
  /-- Allowed importer, or any; and the incarnation it is bound to. -/
  importer : Option Nat
  bound : Option (BitVec 16)
  /-- The exporter's walk of a page of the range fails, by page number: 5 page not present, 6 protection, 9 poison. -/
  bad : NMap Nat
  deriving DecidableEq, Repr

/-- The state of a peer's link (R467). -/
inductive Link where
  | up
  | retraining (since : Nat)
  | failed
  deriving DecidableEq, Repr

/-- What this package knows of a peer, and what it reaches there (R456, R466, R467; log entry 10). -/
structure Peer where
  id : Nat
  incarnation : BitVec 16
  link : Link := .up
  exports : List Export := []
  /-- The bases that its handles had before: copies fetched under them keep serving reads (R461). -/
  past : List (Nat × Nat) := []
  mem : Memory := []
  poison : List Nat := []
  /-- It reports that its router is relocking (R467). -/
  relocks : Bool := false
  /-- Its pool receive channels, by number. -/
  rx : NMap RxChan := []
  /-- Its earlier incarnations that have failed: import entries bound to one answer page not present (R467). -/
  dead : List (BitVec 16) := []
  deriving DecidableEq, Repr

/-- The optical router. -/
structure Fab where
  rows : Nat := 1
  cols : Nat := 1
  chans : NMap Chan := []
  /-- This package's pool receive channels, by number, and its pool transmit channels. -/
  rx : NMap RxChan := []
  pool : Vector PoolChan 24 := .replicate 24 {}
  leases : List Lease := []
  nextHandle : BitVec 32 := 1
  rels : List Release := []
  peers : List Peer := []
  /-- Folds placed toward a retraining peer, which wait (R468). -/
  heldFolds : List Fold := []
  fmapb : Word := 0
  fimpb : Word := 0
  fimpn : Word := 0
  /-- Flits accepted and discarded so far, and flits sent, those sent again included (R442). -/
  accepted : Nat := 0
  discarded : Nat := 0
  sent : Nat := 0
  /-- The reply to the last import request: 0 performed, else a fault class; and the value returned (R459). -/
  reply : Nat := 0
  replyValue : Nat := 0
  deriving DecidableEq, Repr

/-- A member of a collective in another package, as its package joined it (R475): the package, what it issued, and the patterns of its
send elements. -/
structure Member where
  pkg : Nat
  rank : Nat
  op : CollOp
  fn : RedOp
  et : ElemTy
  n : Nat
  wire : Bool
  scaled : Bool
  root : Nat
  /-- Send buffer of another package's member, element by element as patterns. -/
  send : List Nat
  deriving DecidableEq, Repr

/-- An instance of a collective, seen from this package's member (R475 to R477). -/
structure Instance where
  /-- Collective identifier, and number of this package's command (R371). -/
  id : Nat
  cmd : Nat
  ts : Nat
  launch : Nat
  instr : Instr
  pc : Word
  /-- S[b], S[c] and n of the issue. -/
  send : Word
  recv : Word
  count : Nat
  /-- This member's rank, and the peer identifier of each rank. -/
  rank : Nat
  peers : List Nat
  /-- The other members, once the instance has started; ranks whose package has failed. -/
  members : List Member := []
  lost : List Nat := []
  started : Bool := false
  /-- The first element of the running chunk, with the pieces of its own send elements and of its receive elements, once its
  pages have been translated (R224); those of the chunks that have landed; and the receive bytes landed. -/
  opened : Option (Nat × List (Nat × List Piece) × List (Nat × List Piece)) := none
  done : List Nat := []
  bytes : Nat := 0
  paused : Option Nat := none
  finished : Bool := false
  token : Word := 1
  orphan : Bool := false
  /-- Copy identifier of a reducing collective (R391). -/
  copy : Nat := 0
  /-- Clock of its issue marker and of the events so far; of the running chunk, the own send elements read, with a mark of
  those that were uncorrectable, and the receive elements landed (R303). -/
  pts : Nat := 0
  got : NMap (Nat × Bool) := []
  landed : List Nat := []
  /-- What has been read of own send elements that lie on device pages, of which each natural piece is an event (R294). -/
  half : NMap (Nat × Bool) := []
  deriving DecidableEq, Repr

/-- The collective unit: accepted commands of this package, and the members of other packages that have joined, by
collective identifier, the oldest instance first (log entry 10). -/
structure Coll where
  active : List Instance := []
  joined : List (Nat × Member) := []
  deriving DecidableEq, Repr

/-! ### The whole state -/

/-- What another package does by itself (log entry 10): an ordinary store to a part of one line of its own memory; its
management sets or clears an entry of its import table; it claims, gives up or withdraws its claim to a pool receive channel,
of a package or of this one; it joins a collective; a SKIP ends a collective at its member, or an ABORT or KILL ends that
member. -/
inductive PeerAct where
  | store (addr n value : Nat)
  | setExport (e : Export)
  | clearExport (handle : Nat)
  | claimRx (pool : Option Nat)
  | freeRx (pool : Option Nat)
  | withdrawRx (pool : Option Nat)
  | join (coll : Nat) (m : Member)
  | skip (coll : Nat)
  | leave (coll : Nat)
  deriving DecidableEq, Repr

/-- What a transmit channel does (R442): it sends the next flit, sends one again from its retry buffer, or the receiver
acknowledges every flit up to one. -/
inductive ChanAct where
  | send
  | resend (seq : BitVec 32)
  | acked (seq : BitVec 32)
  deriving DecidableEq, Repr

/-- What the next step does (log entry 2). -/
inductive Turn where
  /-- An event, in full. -/
  | event (i : Instr)
  /-- One element of an engine's event (R293, R294). -/
  | eventPart (i : Instr)
  /-- The issue of one instruction on a core. -/
  | issue (core : Nat)
  /-- The same while some thread sets, a bit for each slot, wait for an earlier result, a predicate or mask write, a busy
  unit or the instruction cache (R143, R147); with `part`, one event of an access (R294). -/
  | issueHeld (core : Nat) (held : BitVec 4) (part : Bool)
  | elapse (n : Nat)
  /-- An act of another package. -/
  | peer (id : Nat) (act : PeerAct)
  /-- An act of a transmit channel. -/
  | channel (ch : Fin 144) (act : ChanAct)
  deriving DecidableEq, Repr

/-- The state of the package. `turns`, `picks`, `free` and `cur` are the model's own (log entries 2 and 8): the schedule of
the coming steps, the coming open choices, the number of free values taken, and the thread set whose instruction `exec`
runs; `split` holds while a step performs one event of an access or of an engine command instead of all that is left
(R293). -/
structure State where
  clk : Nat := 0
  cur : Nat := 0
  split : Bool := false
  turns : List Turn := []
  picks : List Nat := []
  free : Nat := 0
  tsets : NMap ThreadSet := []
  cores : NMap Core := []
  msys : MemSys := {}
  disp : Disp := {}
  front : Front := {}
  faults : Faults := {}
  mgmt : Mgmt := {}
  fab : Fab := {}
  coll : Coll := {}
  deriving DecidableEq, Repr

/-- Reasons the machine stops. Faults of the hardware are posted, not stops (R138): a step after one is a next state. -/
inductive Fault where
  /-- Raised by PREEMPT of a number that is no compute core (R384) and by THREAD_SET_START of one that is no compute core's thread
  set (R238; log entry 55). Safe: no such step exists on the hardware. -/
  | noSuchAgent
  deriving DecidableEq, Repr

/-- Reasons for which an instruction has no meaning. -/
inductive Refusal where
  /-- Raised by an arm of `exec` whose instruction has no meaning yet. Safe: nothing can be proved of it. -/
  | notModelled (mnemonic : String)
  deriving DecidableEq, Repr

/-- The machine right after a reset (R401, R402): bring-up at its first stage, nothing running, memory clear. Values that
the spec does not state are those of log entries 2, 4, 5, 8, 9, 10, 13, 14 and 62. -/
def State.reset : State := {}

end Sys2Proof.Machine
end

