-- ==== Sys2Proof/Machine/Operands.lean ====
section
/-! DEFINITION. Every operand form: registers, immediates, displacements and lanes, and the registers that an instruction
reads and writes, for the scoreboard (R85, R97, R111, R149). -/

namespace Sys2Proof.Machine

/-! ### Registers of a thread set (R97); each write sets the dirty bit of what it writes (R386) -/

/-- A register's bit in a mask. -/
def regBit (r : Reg) : BitVec 32 := 1#32 <<< r.val

/-- S[r]; `s0` reads 0. -/
def ThreadSet.getS (t : ThreadSet) (r : Reg) : Word := if r = 0 then 0 else t.s[r]

/-- Writes S[r]; a write to `s0` is discarded. -/
def ThreadSet.setS (t : ThreadSet) (r : Reg) (x : Word) : ThreadSet :=
  if r = 0 then t else { t with s := t.s.set r x, dirty := { t.dirty with s := t.dirty.s ||| regBit r } }

/-- V[r]. -/
def ThreadSet.getV (t : ThreadSet) (r : Reg) : VWord := t.v[r]

/-- Writes V[r]. -/
def ThreadSet.setV (t : ThreadSet) (r : Reg) (x : VWord) : ThreadSet :=
  { t with v := t.v.set r x, dirty := { t.dirty with v := t.dirty.v ||| regBit r } }

/-- P[r]; `p0` reads 1. -/
def ThreadSet.getP (t : ThreadSet) (r : PReg) : Bool := if r = 0 then true else t.p[r]

/-- Writes P[r]; a write to `p0` is discarded. -/
def ThreadSet.setP (t : ThreadSet) (r : PReg) (x : Bool) : ThreadSet :=
  if r = 0 then t else { t with p := t.p.set r x, dirty := { t.dirty with p := true } }

/-- K[r]; `k0` reads all ones. -/
def ThreadSet.getK (t : ThreadSet) (r : KReg) : BitVec 32 := if r = 0 then 0xFFFFFFFF else t.k[r]

/-- Writes K[r]; a write to `k0` is discarded. -/
def ThreadSet.setK (t : ThreadSet) (r : KReg) (x : BitVec 32) : ThreadSet :=
  if r = 0 then t else { t with k := t.k.set r x, dirty := { t.dirty with k := true } }

/-- ORs flags into `fps` (R50, R104). -/
def ThreadSet.raise (t : ThreadSet) (f : BitVec 6) : ThreadSet :=
  { t with fps := t.fps ||| f, dirty := { t.dirty with fps := t.dirty.fps || f != 0 } }

/-- Writes the pc, `fpc` and `fps`. -/
def ThreadSet.setPc (t : ThreadSet) (x : Word) : ThreadSet := { t with pc := x, dirty := { t.dirty with pc := true } }
def ThreadSet.setFpc (t : ThreadSet) (x : BitVec 8) : ThreadSet := { t with fpc := x, dirty := { t.dirty with fpc := true } }
def ThreadSet.setFps (t : ThreadSet) (x : BitVec 6) : ThreadSet := { t with fps := x, dirty := { t.dirty with fps := true } }

/-- Moves the pc past an instruction of a length. -/
def ThreadSet.past (t : ThreadSet) (len : Nat) : ThreadSet := t.setPc (t.pc + BitVec.ofNat 64 len)

/-- Sets the faces, and the neighbours that `qn` has yet to receive. -/
def ThreadSet.setQa (t : ThreadSet) (l : List VWord) : ThreadSet := { t with qa := l, dirty := { t.dirty with qa := true } }
def ThreadSet.setQr (t : ThreadSet) (l : List VWord) : ThreadSet := { t with qr := l, dirty := { t.dirty with qr := true } }
def ThreadSet.setQn (t : ThreadSet) (l rest : List Word) : ThreadSet :=
  { t with qn := l, qnRest := rest, dirty := { t.dirty with qn := true } }

/-- Sets the pending bits of the scalar and vector registers. -/
def ThreadSet.setPending (t : ThreadSet) (s v : BitVec 32) : ThreadSet :=
  { t with pendS := s, pendV := v, dirty := { t.dirty with pend := true } }

/-- Marks a scalar register pending (R110); `s0` requests no token. -/
def ThreadSet.pend (t : ThreadSet) (r : Reg) : ThreadSet :=
  if r = 0 then t else t.setPending (t.pendS ||| regBit r) t.pendV

/-- Writes a token or late result and clears its pending bit (R110). -/
def ThreadSet.writeToken (t : ThreadSet) (r : Reg) (x : Word) : ThreadSet :=
  (t.setS r x).setPending (t.pendS &&& ~~~regBit r) t.pendV

/-- The second register of a pair (R216). -/
def regNext (r : Reg) : Reg := r + 1

/-! ### Immediates and displacements (R85) -/

/-- An immediate: sign-extended, or the literal. -/
def immVal {n : Nat} : Imm n → Word
  | .short i => i.signExtend 64
  | .lit v => v

/-- An unsigned imm13, or the literal (R221, R471). -/
def immZext {n : Nat} : Imm n → Word
  | .short i => i.setWidth 64
  | .lit v => v

/-- The column block of `mdraina` (R196). -/
def colVal {n : Nat} (i : Imm n) : Fin 4 := Fin.ofNat 4 (immZext i).toNat

/-- disp9: a multiple of the access size, or a literal byte count. -/
def dispVal {n : Nat} (size : Nat) : Imm n → Word
  | .short i => i.signExtend 64 * BitVec.ofNat 64 size
  | .lit v => v

/-- A branch offset: a multiple of 4, or a literal byte count. -/
def branchVal {n : Nat} : Imm n → Word
  | .short i => i.signExtend 64 * 4
  | .lit v => v

/-- Length in bytes of a base instruction that may carry a literal (R69). -/
def baseLen {n : Nat} : Imm n → Nat
  | .short _ => 4
  | .lit _ => 12

/-- Length in bytes of an X instruction that may carry a literal (R69). -/
def extLen {n : Nat} : Imm n → Nat
  | .short _ => 12
  | .lit _ => 20

/-- Access sizes in bytes (R78). -/
def ldBytes : LdSize → Nat
  | .b | .bs => 1
  | .h | .hs => 2
  | .w | .ws => 4
  | .d => 8
  | .q => 16

def stBytes : StSize → Nat
  | .b => 1 | .h => 2 | .w => 4 | .d => 8 | .q => 16

/-! ### Lanes and riders (R56, R149) -/

/-- The data bits of a vector register. -/
def vData (x : VWord) : BitVec 256 := x.extractLsb' 0 256

/-- The rider. -/
def vRider (x : VWord) : BitVec 8 := x.extractLsb' 256 8

/-- A register from its rider and data. -/
def vMake (rider : BitVec 8) (data : BitVec 256) : VWord := rider ++ data

/-- Lane j at width w, as a pattern. -/
def laneOf (x : VWord) (w j : Nat) : Nat := (x.toNat >>> (w * j)) % 2 ^ w

/-- The lost flag of lane j, read at a width (R56): an 8-bit lane has none. -/
def flagOf (x : VWord) (w j : Nat) : Bool :=
  if w = 8 then false else if w = 16 then (vRider x).getLsbD (j / 2) else (vRider x).getLsbD j

/-- Joins lane patterns, lane 0 first, into data bits. -/
def joinLanes (w : Nat) : List Nat → Nat
  | [] => 0
  | x :: xs => x % 2 ^ w + 2 ^ w * joinLanes w xs

/-- Joins bits, bit 0 first. -/
def joinBits : List Bool → Nat
  | [] => 0
  | b :: bs => (if b then 1 else 0) + 2 * joinBits bs

/-- A new value and flag for a destination lane, or none for a lane that keeps what it had. -/
abbrev LaneNew := Option (Nat × Bool)

/-- The lost flags of a destination (R58 rules 1 to 3). For 16-bit lanes, a pair's bit is the OR of the new flags of its
written lanes, and of its old bit when a lane of the pair keeps its value. -/
def newRider (w : Nat) (old : VWord) (lanes : List LaneNew) : BitVec 8 :=
  let fl (j : Nat) : Bool :=
    match lanes[j]? with
    | some (some (_, f)) => f
    | _ => false
  let kept (j : Nat) : Bool :=
    match lanes[j]? with
    | some none => true
    | _ => false
  let bit (j : Nat) : Bool :=
    if w = 16 then fl (2 * j) || fl (2 * j + 1) || ((kept (2 * j) || kept (2 * j + 1)) && (vRider old).getLsbD j)
    else if j < lanes.length then fl j || (kept j && (vRider old).getLsbD j)
    else false
  BitVec.ofNat 8 (joinBits ((List.range 8).map bit))

/-- Writes lanes into a destination register. `rider8` is the rider of an 8-bit destination (R151). -/
def writeLanes (w : Nat) (old : VWord) (rider8 : BitVec 8) (lanes : List LaneNew) : VWord :=
  let vals := (List.range lanes.length).map fun j =>
    match lanes[j]? with
    | some (some (x, _)) => x
    | _ => laneOf old w j
  vMake (if w = 8 then rider8 else newRider w old lanes) (BitVec.ofNat 256 (joinLanes w vals))

/-- Lane j is active under a mask (R150). -/
def active (m : BitVec 32) (j : Nat) : Bool := m.getLsbD j

/-! ### The registers an instruction reads and writes (R111) -/

/-- Scalar and vector registers read and written, as masks. -/
structure Uses where
  rs : BitVec 32 := 0
  ws : BitVec 32 := 0
  rv : BitVec 32 := 0
  wv : BitVec 32 := 0
  deriving DecidableEq, Repr

/-- The mask of one register. -/
def rbit (r : Reg) : BitVec 32 := 1#32 <<< r.val

/-- The mask of n registers from r. -/
def rbits (r : Reg) (n : Nat) : BitVec 32 := BitVec.ofNat 32 (2 ^ n - 1) <<< r.val

/-- A plain scalar operation. -/
def useRR (d a b : Reg) : Uses := { rs := rbit a ||| rbit b, ws := rbit d }

/-- A masked vector operation reads its destination (R150). -/
def useV (d a b : Reg) : Uses := { rv := rbit d ||| rbit a ||| rbit b, wv := rbit d }

/-- The guard of an X instruction (R74). -/
def guardOf : Instr → Option Guard
  | .amo g .. | .amof g .. | .cas g .. | .cas2 g .. | .vadd g .. | .vsub g .. | .vmul g .. | .vmulh g .. | .vmin g ..
  | .vmax g .. | .vabs g .. | .vneg g .. | .vand g .. | .vor g .. | .vxor g .. | .vshl g .. | .vshr g .. | .vsra g ..
  | .vfadd g .. | .vfsub g .. | .vfmul g .. | .vfma g .. | .vfms g .. | .vfnma g .. | .vfmin g .. | .vfmax g ..
  | .vfabs g .. | .vfneg g .. | .vfdiv g .. | .vfsqrt g .. | .vrcpe g .. | .vrsqe g .. | .vexp2 g .. | .vlog2 g ..
  | .vcmp g .. | .vfcmp g .. | .vsel g .. | .vcvt g .. | .vq8 g .. | .vdq8 g .. | .vrdr g .. | .vwrr g .. | .vbcast g ..
  | .vins g .. | .vext g .. | .vperm g .. | .vshuf g .. | .vslide g .. | .vcompress g .. | .vexpand g .. | .vred g ..
  | .vdot g .. | .vlsig g .. | .kop g .. | .kmovToMask g .. | .kmovFromMask g .. | .kpop g .. | .mmac g .. | .mmacs g ..
  | .mzero g .. | .mwld g .. | .mdrain g .. | .mdrainq g .. | .mdraina g .. | .mstat g .. | .mclrs g .. | .mwait g
  | .vlds g .. | .vldx g .. | .vstx g .. | .vldb g .. | .cpy g .. | .cpy2d g .. | .cpyRs g .. | .cpyRd g .. | .cpyr g ..
  | .get g .. | .put g .. | .stmap g .. | .stwb g .. | .stinv g .. | .rflush g .. | .rflushAll g | .pub g ..
  | .coll g .. => some g
  | _ => none

def useLen (len : LenSrc) : BitVec 32 :=
  match len with
  | .reg c => rbit c
  | .imm _ => 0

/-- The registers an instruction reads and writes (R111); events use none. -/
def usesOf : Instr → Uses
  | .mfsr d _ => { ws := rbit d }
  | .mtsr a _ => { rs := rbit a }
  | .trap d a _ => { rs := rbit a, ws := rbit d }
  | .add d a b | .sub d a b | .mul d a b | .mulh d a b | .mulhu d a b | .div d a b | .divu d a b | .rem d a b
  | .remu d a b | .and d a b | .or d a b | .xor d a b | .andn d a b | .shl d a b | .shr d a b | .sra d a b
  | .rotr d a b | .min d a b | .max d a b | .minu d a b | .maxu d a b | .bfx d a b | .sel _ d a b | .shadd _ d a b =>
    useRR d a b
  | .bfi d a b => { rs := rbit a ||| rbit b ||| rbit d, ws := rbit d }
  | .clz d a | .ctz d a | .popc d a | .sext _ d a | .zext _ d a => useRR d a 0
  | .addi d a _ | .andi d a _ | .ori d a _ | .xori d a _ => useRR d a 0
  | .shli d a _ | .shri d a _ | .srai d a _ => useRR d a 0
  | .li d _ | .addpc d _ | .addcb d _ => { ws := rbit d }
  | .cmp _ d a b => useRR d a b
  | .pcmp _ _ a b => { rs := rbit a ||| rbit b }
  | .beq a b _ | .bne a b _ | .blt a b _ | .bge a b _ | .bltu a b _ | .bgeu a b _ => { rs := rbit a ||| rbit b }
  | .jal _ => { ws := rbit 31 }
  | .jr a => { rs := rbit a }
  | .jalr d a => useRR d a 0
  | .ld sz _ d a _ => { rs := rbit a, ws := if sz = .q then rbits d 2 else rbit d }
  | .st sz _ d a _ => { rs := rbit a ||| (if sz = .q then rbits d 2 else rbit d) }
  | .vld _ _ d a _ => { rs := rbit a, wv := rbit d }
  | .vst _ _ d a _ => { rs := rbit a, rv := rbit d }
  | .fence _ d => { ws := rbit d }
  | .cwait d a b => useRR d a b
  | .pf _ a => { rs := rbit a }
  | .cwb a b => { rs := rbit a ||| rbit b }
  | .qput a => { rv := rbit a }
  | .qgetQr d => { wv := rbit d }
  | .qgetQn d => { ws := rbit d }
  | .qtryQa _ a => { rv := rbit a }
  | .qtryQr _ d => { wv := rbit d }
  | .qtryQn _ d => { ws := rbit d }
  | .spawn _ d a b => useRR d a b
  | .tdefer a => { rs := rbit a }
  | .barv _ d => { ws := rbit d }
  | .bwait _ a => { rs := rbit a }
  | .racq d a b | .rrel d a b | .rpeek d a b => useRR d a b
  | .fget d => { wv := rbits d 2 }
  | .freply d a b => useRR d a b
  | .bwlease d a b => useRR d a b
  | .bwrel d a | .bwq d a => useRR d a 0
  | .amo _ _ _ d a b _ => useRR d a b
  | .amof _ _ _ a b _ => { rs := rbit a ||| rbit b }
  | .cas _ _ d a b c _ => { rs := rbit a ||| rbit b ||| rbit c, ws := rbit d }
  | .cas2 _ d a b c _ => { rs := rbit a ||| rbits b 2 ||| rbits c 2, ws := rbits d 2 }
  | .vadd _ _ _ _ d a b | .vsub _ _ _ _ d a b => useV d a b
  | .vmul _ _ _ d a b | .vmulh _ _ _ d a b | .vmin _ _ _ d a b | .vmax _ _ _ d a b | .vand _ _ _ d a b
  | .vor _ _ _ d a b | .vxor _ _ _ d a b => useV d a b
  | .vabs _ _ _ _ d a | .vneg _ _ _ _ d a => useV d a a
  | .vshl _ _ _ d a n | .vshr _ _ _ d a n | .vsra _ _ _ d a n =>
    match n with
    | .reg b => useV d a b
    | .imm _ => useV d a a
  | .vfadd _ _ _ _ _ d a b | .vfsub _ _ _ _ _ d a b | .vfmul _ _ _ _ _ d a b => useV d a b
  | .vfma _ _ _ _ _ d a b c | .vfms _ _ _ _ _ d a b c | .vfnma _ _ _ _ _ d a b c =>
    { useV d a b with rv := rbit d ||| rbit a ||| rbit b ||| rbit c }
  | .vfmin _ _ _ _ d a b | .vfmax _ _ _ _ d a b => useV d a b
  | .vfabs _ _ _ _ d a | .vfneg _ _ _ _ d a => useV d a a
  | .vfdiv _ _ _ _ d a b => useV d a b
  | .vfsqrt _ _ _ _ d a => useV d a a
  | .vrcpe _ _ _ d a | .vrsqe _ _ _ d a | .vexp2 _ _ _ d a | .vlog2 _ _ _ d a => useV d a a
  | .vcmp _ _ _ _ _ a b | .vfcmp _ _ _ _ _ a b => { rv := rbit a ||| rbit b }
  | .vsel _ _ _ d a b => { rv := rbit a ||| rbit b, wv := rbit d }
  | .vcvt _ _ _ _ _ _ d a => useV d a a
  | .vq8 _ _ _ _ _ src d a => { rv := rbit d ||| rbits a (32 / src.lanes), wv := rbit d }
  | .vdq8 _ _ _ _ _ _ d a => useV d a a
  | .vrdr _ d a => { rv := rbit a, ws := rbit d }
  | .vwrr _ d a => { rs := rbit a, rv := rbit d, wv := rbit d }
  | .vbcast _ _ _ d a => { rs := rbit a, rv := rbit d, wv := rbit d }
  | .vins _ _ d a _ => { rs := rbit a, rv := rbit d, wv := rbit d }
  | .vext _ _ d a _ => { rv := rbit a, ws := rbit d }
  | .vperm _ _ _ d a b | .vshuf _ _ _ d a b _ | .vslide _ _ _ d a b _ => useV d a b
  | .vcompress _ _ _ d a => { rv := rbit a, wv := rbit d }
  | .vexpand _ _ _ d a => useV d a a
  | .vred _ _ _ _ _ d a => { rv := rbit a, wv := rbit d }
  | .vdot _ _ _ _ d a b c =>
    { rv := rbit a ||| rbit b ||| (match c with | some r => rbit r | none => 0), wv := rbit d }
  | .vlsig _ _ _ _ a => { rv := rbit a }
  | .kmovToMask _ _ a => { rs := rbit a }
  | .kmovFromMask _ d _ | .kpop _ d _ => { ws := rbit d }
  | .mmac _ _ a c | .mmacs _ _ _ a c =>
    { rs := rbit c ||| (match a with | .localMem x y => rbit x ||| rbit y | _ => 0) }
  | .mwld _ _ _ d src =>
    { ws := rbit d, rs := match src with
      | .dense a _ | .recDense a | .recSparse a _ => rbit a
      | .sparse a _ _ b => rbit a ||| rbit b }
  | .mdrain _ _ _ _ _ _ d a b c _ => { rs := rbit a ||| rbit b ||| rbit c, ws := rbit d }
  | .mstat _ d _ => { ws := rbit d }
  | .vlds _ _ _ _ d a b _ => { rs := rbit a ||| rbit b, rv := rbit d, wv := rbit d }
  | .vldx _ _ et _ _ d a b _ => { rs := rbit a, rv := rbit d ||| rbits b (idxRegs et), wv := rbit d }
  | .vstx _ _ et _ _ d a b _ => { rs := rbit a, rv := rbit d ||| rbits b (idxRegs et) }
  | .vldb _ _ _ _ d a _ => { rs := rbit a, rv := rbit d, wv := rbit d }
  | .cpy _ d a b len | .cpyr _ _ _ d a b len => { rs := rbit a ||| rbit b ||| useLen len, ws := rbit d }
  | .cpy2d _ d a b c => { rs := rbit a ||| rbit b ||| rbits c 2, ws := rbit d }
  | .cpyRs _ d a b c | .cpyRd _ d a b c => { rs := rbit a ||| rbit b ||| rbit c, ws := rbit d }
  | .get _ _ _ d a b c => { rs := rbit a ||| rbit b ||| rbits c 2, ws := rbit d }
  | .put _ _ _ d a b c => { rs := rbit a ||| rbit b ||| rbits c 3, ws := rbit d }
  | .stmap _ _ a => { rs := rbit a }
  | .stwb _ d a b | .stinv _ d a b => { rs := rbit a ||| rbit b, ws := rbit d }
  | .rflush _ a => { rs := rbit a }
  | .pub _ d a => { rs := rbit a, ws := rbit d }
  | .coll _ _ _ _ _ _ _ d a b c _ => { rs := rbit a ||| rbit b ||| rbit c, ws := rbit d }
  | _ => {}

/-- The scoreboard lets an instruction issue when no register it reads or writes is pending; `s0` never is (R111). -/
def ThreadSet.clear (t : ThreadSet) (u : Uses) : Bool :=
  ((u.rs ||| u.ws) &&& t.pendS &&& ~~~1#32) == 0 && ((u.rv ||| u.wv) &&& t.pendV) == 0

end Sys2Proof.Machine
end

