-- ==== Sys2Proof/Machine/Homes.lean ====
section
/-! DEFINITION. Access to the parts of the state, open choices, the bytes of every space, and what the homes, leases, slices,
stashes, fold buffers and writes on their way to the host do for one event of an access (R207 to R209, R259, R260, R265 to
R277, R286, R287, R296 to R310). -/

namespace Sys2Proof.Machine

abbrev Out := Host.Outcome State Fault Refusal

/-! ### Parts of the state -/

/-- The core of a package thread-set number, and its slot (R371). -/
def coreOf (t : Nat) : Nat := t / 4
def slotOf (t : Nat) : Nat := t % 4

/-- The die of a coreid (R101), and whether it is a service core. A number from 4096 on names a saved image of core
`c % 4096` (R386). -/
def dieOfCore (c : Nat) : Nat := c / 256 % 8
def isService (c : Nat) : Bool := 2048 ≤ c && c < 4096

/-- The cluster, 0 to 127, of a compute core. -/
def clusterOf (c : Nat) : Nat := c % 2048 / 16

def State.ts (s : State) (t : Nat) : ThreadSet := (s.tsets.get? t).getD {}
def State.setTs (s : State) (t : Nat) (x : ThreadSet) : State := { s with tsets := s.tsets.set t x }
def State.core (s : State) (c : Nat) : Core := (s.cores.get? c).getD {}
def State.setCore (s : State) (c : Nat) (x : Core) : State := { s with cores := s.cores.set c x }

/-- The thread set whose instruction runs. -/
def State.me (s : State) : ThreadSet := s.ts s.cur
def State.setMe (s : State) (x : ThreadSet) : State := s.setTs s.cur x

/-- The launch of a number, if it has started and not been released. -/
def State.launch? (s : State) (n : Nat) : Option Launch := s.disp.launches.find? fun l => l.num == n

/-- Replaces the launch of the same number. -/
def State.setLaunch (s : State) (l : Launch) : State :=
  { s with disp := { s.disp with launches := s.disp.launches.map fun x => if x.num = l.num then l else x } }

/-- The launch of a thread set; a service core's thread sets have none (R382). -/
def State.launchOf (s : State) (t : Nat) : Option Launch :=
  if isService (coreOf t) then none else s.launch? (s.ts t).launch

/-- The next open choice: from the schedule, or a free number (log entry 8). -/
def State.pick (s : State) : Nat × State :=
  match s.picks with
  | c :: r => (c, { s with picks := r })
  | [] => (Config.freeNat s.free, { s with free := s.free + 1 })

/-- Updates to the largest records. -/
def State.setMsys (s : State) (m : MemSys) : State := { s with msys := m }
def State.setDisp (s : State) (d : Disp) : State := { s with disp := d }
def State.setFaults (s : State) (f : Faults) : State := { s with faults := f }

/-- The pc moves past an instruction of a length. -/
def State.advance (s : State) (len : Nat) : State :=
  s.setMe (s.me.past len)

/-- The next state of an instruction that changes only its thread set's registers. -/
def nextMe (s : State) (t : ThreadSet) (len : Nat) : Out :=
  .next (s.setMe (t.past len))

/-- Inserts x before the first element that it may precede. -/
def insertSorted {α : Type} (le : α → α → Bool) (x : α) : List α → List α
  | [] => [x]
  | y :: r => if le x y then x :: y :: r else y :: insertSorted le x r

/-- A list in rising order; equals keep their order. -/
def sortBy {α : Type} (le : α → α → Bool) (l : List α) : List α := l.foldr (insertSorted le) []

/-- Joins little-endian fields (size in bytes, value). -/
def joinFields : List (Nat × Nat) → Nat
  | [] => 0
  | (n, x) :: r => x % 2 ^ (8 * n) + 2 ^ (8 * n) * joinFields r

/-! ### Bytes of a space -/

def memOf (s : State) : Space → Memory
  | .dev => s.msys.dev
  | .alt => s.msys.alt
  | .host => s.msys.host
  | .peer p => match s.fab.peers.find? fun x => x.id == p with | some x => x.mem | none => []
  | .core c => (s.core c).mem

def setMem (s : State) (sp : Space) (m : Memory) : State :=
  match sp with
  | .dev => { s with msys := { s.msys with dev := m } }
  | .alt => { s with msys := { s.msys with alt := m } }
  | .host => { s with msys := { s.msys with host := m } }
  | .peer p => { s with fab := { s.fab with peers := s.fab.peers.map fun x => if x.id = p then { x with mem := m } else x } }
  | .core c => let k := s.core c; s.setCore c { k with mem := m }

/-- The key material of a slot; none when the slot is empty. -/
def keyOf (s : State) (slot : Nat) : Option KeyMat := s.msys.keys.get? slot

def tagsOf (s : State) : Space → NMap KeyMat
  | .dev => s.msys.tags
  | .alt => s.msys.altTags
  | _ => []

/-- n bytes of a memory as a number. -/
def getNum (m : Memory) (a : Nat) : Nat → Nat
  | 0 => 0
  | n + 1 => (m.get a).toNat + 256 * getNum m (a + 1) n

/-- The key behind the material of a slot. -/
def keyBits (k : KeyMat) : Nat := (k.getD Config.bootKey).toNat

/-- A block that was written under one key as another reads it (R277). -/
def blockUnder (written read : KeyMat) (m : Memory) (block : Nat) : Nat :=
  recrypt (keyBits written) (keyBits read) block (getNum m (16 * block) 16)

/-- One byte as the key of an access reads it (R277); a block that nothing has written reads 0 under every key. -/
def readByte (s : State) (sp : Space) (key : KeyMat) (a : Nat) : Byte :=
  let x := (memOf s sp).get a
  match (tagsOf s sp).get? (a / 16) with
  | some k => if k = key then x else BitVec.ofNat 8 (blockUnder k key (memOf s sp) (a / 16) / 2 ^ (8 * (a % 16)))
  | none => x

/-- n bytes, little-endian, as a number. -/
def readNum (s : State) (sp : Space) (key : KeyMat) (a : Nat) : Nat → Nat
  | 0 => 0
  | n + 1 => (readByte s sp key a).toNat + 256 * readNum s sp key (a + 1) n

/-- Writes n bytes of a number to a memory. -/
def putNum (m : Memory) (a v : Nat) : Nat → Memory
  | 0 => m
  | n + 1 => putNum (m.put a (BitVec.ofNat 8 (v % 256))) (a + 1) (v / 256) n

/-- The blocks of 16 bytes that [a, a + n) meets. -/
def blocksOf (a n : Nat) : List Nat := if n = 0 then [] else (List.range ((a + n - 1) / 16 - a / 16 + 1)).map (a / 16 + ·)

def putTags (m : NMap KeyMat) (k : KeyMat) (blocks : List Nat) : NMap KeyMat := blocks.foldl (fun m b => m.set b k) m

/-- Before a write of part of a block under another key than its own, the block holds what that key reads (R277). -/
def rekey (s : State) (sp : Space) (key : KeyMat) (a n : Nat) : Memory :=
  (blocksOf a n).foldl (fun m b =>
    match (tagsOf s sp).get? b with
    | some k => if k = key || (a ≤ 16 * b && 16 * b + 16 ≤ a + n) then m
      else putNum m (16 * b) (blockUnder k key (memOf s sp) b) 16
    | none => m) (memOf s sp)

/-- The poisoned words of a space (R223, R276); `Space.core` has the core's own (R205). -/
def poisonOf (s : State) : Space → List Nat
  | .dev => s.msys.poison
  | .alt => s.msys.altPoison
  | .host => s.msys.hostPoison
  | .peer p => match s.fab.peers.find? fun x => x.id == p with | some x => x.poison | none => []
  | .core c => (s.core c).poison

def setPoison (s : State) (sp : Space) (l : List Nat) : State :=
  match sp with
  | .dev => { s with msys := { s.msys with poison := l } }
  | .alt => { s with msys := { s.msys with altPoison := l } }
  | .host => { s with msys := { s.msys with hostPoison := l } }
  | .peer p =>
    { s with fab := { s.fab with peers := s.fab.peers.map fun x => if x.id = p then { x with poison := l } else x } }
  | .core c => let k := s.core c; s.setCore c { k with poison := l }

/-- A poisoned word overlaps [a, a + n). -/
def poisoned (s : State) (sp : Space) (a n : Nat) : Bool := (poisonOf s sp).any fun w => w < a + n && a < w + 8

/-- Clears the poison of each word that a write of [a, a + n) covers whole (R276). -/
def unpoison (s : State) (sp : Space) (a n : Nat) : State :=
  match poisonOf s sp with
  | [] => s
  | l => setPoison s sp (l.filter fun w => !(a ≤ w && w + 8 ≤ a + n))

/-- Marks every word that overlaps [a, a + n) poisoned. -/
def poisonRange (s : State) (sp : Space) (a n : Nat) : State :=
  let ws := (List.range (n / 8 + 2)).map fun i => (a / 8 + i) * 8
  let new := ws.filter fun w => w < a + n && a < w + 8 && !(poisonOf s sp).contains w
  setPoison s sp (poisonOf s sp ++ new)

/-- The 256-byte lines of local memory that [a, a + n) meets. -/
def linesOf (a n : Nat) : BitVec 2048 :=
  BitVec.ofNat 2048 ((2 ^ ((a + n + 255) / 256 - a / 256) - 1) * 2 ^ (a / 256))

/-- A slot whose source lines in local memory are written is no longer the same as they are (R387): its image is 64 bytes and
32,768 of rows. -/
def Slot.touch (x : Slot) (a n : Nat) : Slot :=
  match x.origin with
  | some o => if a / 256 * 256 < o + 32832 && o / 256 * 256 < a + n then { x with stale := true } else x
  | none => x

/-- A write of local memory, from any source, sets the dirty bits of its lines (R386); and that of a slot whose source lines it is
the first to write, which the next image saves in full (R387, R388): DEDUCED, log entry 95. -/
def Core.touch (k : Core) (a n : Nat) : Core :=
  if k.slots.toList.any fun x => x.origin.isSome then
    let slots := k.slots.map fun x => x.touch a n
    let newly := (List.finRange 8).filter fun i => slots[i].stale && !k.slots[i].stale
    { k with
      slots
      dirty := { k.dirty with
        lines := k.dirty.lines ||| linesOf a n
        slots := newly.foldl (fun d i => d ||| BitVec.twoPow 8 i.val) k.dirty.slots } }
  else { k with dirty := { k.dirty with lines := k.dirty.lines ||| linesOf a n } }

/-- A change of an engine command sets its dirty bit (R386), and its end takes it away. -/
def Core.touchCmd (k : Core) (id : Nat) : Core :=
  if k.dirty.cmds.contains id then k else { k with dirty := { k.dirty with cmds := id :: k.dirty.cmds } }

def Core.dropCmd (k : Core) (id : Nat) : Core := { k with dirty := { k.dirty with cmds := k.dirty.cmds.filter (· != id) } }

/-- A mark for each uncorrectable word of the line of an address. -/
def badWords (s : State) (sp : Space) (a : Nat) : Nat :=
  match poisonOf s sp with
  | [] => 0
  | ws => (List.range 8).foldl (fun m i => if ws.contains (a / 64 * 64 + 8 * i) then m + 2 ^ i else m) 0

/-- One number for a line of any space. -/
def lineNum (sp : Space) (a : Nat) : Nat :=
  match sp with
  | .dev => a / 64
  | .alt => 2 ^ 48 + a / 64
  | .host => 2 ^ 49 + a / 64
  | .peer p => 2 ^ 50 * (p + 1) + a / 64
  | .core c => 2 ^ 90 + 2 ^ 20 * c + a / 64

/-- What n lines from one on hold before a write is kept, as the key of the write reads them, while a launch runs (R89, R177,
R329). -/
def keepPast (s : State) (sp : Space) (key : KeyMat) (line : Nat) : Nat → State
  | 0 => s
  | n + 1 =>
    let x : PastLine := { num := s.msys.writes, data := BitVec.ofNat 512 (readNum s sp key (64 * line) 64),
                          bad := BitVec.ofNat 8 (badWords s sp (64 * line)) }
    let k := lineNum sp (64 * line)
    let past := s.msys.past.set k (x :: (s.msys.past.get? k).getD [])
    keepPast { s with msys := { s.msys with past, writes := s.msys.writes + 1 } } sp key (line + 1) n

/-- Writes n bytes at a location of a space under a key. -/
def writeNum (s : State) (sp : Space) (key : KeyMat) (a v n : Nat) : State :=
  let s := if s.disp.launches.isEmpty || n = 0 then s else keepPast s sp key (a / 64) ((a + n - 1) / 64 - a / 64 + 1)
  let s := unpoison (setMem s sp (putNum (rekey s sp key a n) a v n)) sp a n
  match sp with
  | .core c => s.setCore c ((s.core c).touch a n)
  | .dev => { s with msys := { s.msys with tags := putTags s.msys.tags key (blocksOf a n) } }
  | .alt => { s with msys := { s.msys with altTags := putTags s.msys.altTags key (blocksOf a n) } }
  | _ => s

/-! ### Cloak regions (R214) -/

/-- Where the second backing of a byte lies. -/
def altAddr (l : Loc) : Nat :=
  match l.space with
  | .host => 2 ^ 41 + l.addr
  | _ => l.addr

/-- The backing that ordinary accesses reach (`lining` false) or engine writes reach (`lining` true). -/
def backing (s : State) (l : Loc) (lining : Bool) : Loc :=
  match l.cloak, l.space with
  | some r, .dev | some r, .host =>
    if s.msys.flipped.contains r != lining then { l with space := .alt, addr := altAddr l } else l
  | _, _ => l

/-- A location beyond the host port: host memory, or what the second backing holds of a host page (R214). -/
def Loc.hostSide (l : Loc) : Bool := l.space == .host || (l.space == .alt && 2 ^ 41 ≤ l.addr)

/-- A link of a peer. -/
def State.setLink (s : State) (p : Nat) (x : Link) : State :=
  { s with fab := { s.fab with peers := s.fab.peers.map fun y => if y.id = p then { y with link := x } else y } }

/-- The peer of a number, when present (R457). -/
def State.peer? (s : State) (p : Nat) : Option Peer := s.fab.peers.find? fun x => x.id == p

/-- The line that holds a location. -/
def lineLoc (l : Loc) : Loc := { l with addr := l.addr / 64 * 64 }

/-- Whether two locations lie in one 64-byte line of one space. -/
def sameLine (a b : Loc) : Bool := a.space == b.space && a.addr / 64 == b.addr / 64

/-- The key that an access to a location uses. -/
def locKey (s : State) (l : Loc) : KeyMat := (keyOf s l.key).getD none

/-- The stored value at a location: n bytes. -/
def rawRead (s : State) (l : Loc) (n : Nat) : Nat := readNum s l.space (locKey s l) l.addr n

/-- A write of n stored bytes. -/
def rawWrite (s : State) (l : Loc) (v n : Nat) : State := writeNum s l.space (locKey s l) l.addr v n

/-- What n bytes at a location held when a launch started. -/
def Launch.before (l : Launch) (s : State) (x : Loc) (n : Nat) : Nat :=
  let peer (p : Peer) : Peer := { p with mem := (l.codePeers.get? p.id).getD p.mem }
  let old : State := { s with
    fab := { s.fab with peers := s.fab.peers.map peer }
    msys := { s.msys with dev := l.codeDev, alt := l.codeAlt, host := l.codeHost, flipped := l.codeFlipped } }
  rawRead old (backing old x false) n

/-- Records memory as it stands, for a launch that starts. -/
def Launch.begin (l : Launch) (s : State) : Launch :=
  { l with
    began := s.msys.writes
    codeDev := s.msys.dev, codeAlt := s.msys.alt, codeHost := s.msys.host, codeFlipped := s.msys.flipped,
    codePeers := s.fab.peers.map fun p => (p.id, p.mem) }

/-! ### What an access uses -/

/-- Who makes an access: a core (for its window, stash and die), an address space, and the thread set, if it is one's
own. -/
structure Who where
  core : Nat
  asid : Nat
  root : Nat
  ts : Option Nat := none
  deriving DecidableEq, Repr

/-- The number under which an access waits for the host's port as others wait for a peer. -/
def hostPeer : Nat := 256

/-- A number of no core: accesses of the hub, of the host and of importers use it. They have no window, no stash and no
slice. -/
def hubCore : Nat := 65536

/-- The access may be served by a copy in its die's slices (R259, R271). -/
def sliced (w : Who) (l : Loc) (unc : Bool) : Bool := l.type == 0 && !unc && w.core != hubCore

/-- The fields of a stash map register (R109): enabled, length, local and global base in bytes. -/
def mapOn (m : Word) : Bool := m.getLsbD 63
def mapLen (m : Word) : Nat := m.toNat / 2 ^ 58 % 2 ^ 5 * 32768
def mapLocal (m : Word) : Nat := m.toNat / 2 ^ 54 % 2 ^ 4 * 32768
def mapGlobal (m : Word) : Nat := m.toNat % 2 ^ 41 * 32768

/-- The enabled map of a core that holds a global address. -/
def mapFor (k : Core) (va : Nat) : Option Word :=
  k.smap.toList.find? fun m => mapOn m && mapGlobal m ≤ va && va < mapGlobal m + mapLen m

/-- The stash serves the access: a map holds it, the page is cacheable, the hint is not `unc` (R207, R208). -/
def stashServes (s : State) (w : Who) (va : Nat) (l : Loc) (unc : Bool) : Bool :=
  sliced w l unc && (mapFor (s.core w.core) va).isSome

/-! ### Clocks (R265, R296)

S is the order of the logical clocks. A thread set has its own; an event of any other agent uses `agent`. A place that
several agents reach without leases keeps the clock of its latest event, which the next one follows. -/

/-- The clock of the maker of an access. -/
def State.ptsOf (s : State) (w : Who) : Nat := match w.ts with | some t => (s.ts t).pts | none => s.msys.agent

/-- The clock of the maker of an access becomes p. -/
def State.setPts (s : State) (w : Who) (p : Nat) : State :=
  match w.ts with
  | some t => s.setTs t { s.ts t with pts := p }
  | none => { s with msys := { s.msys with agent := p } }

/-- The maker's next event follows a clock. -/
def State.raise (s : State) (w : Who) (p : Nat) : State := s.setPts w (max (s.ptsOf w) p)

/-- The clock of a place: a core's local memory, a cloak region, a die's non-coherent lines, or host memory reached without
them. -/
def placePts (s : State) (die : Nat) (l : Loc) (cached : Bool) : Nat :=
  let a := match l.space with | .core c => (s.core c).pts | _ => 0
  let b := match l.cloak with | some r => (s.msys.cloakPts.get? r).getD 0 | none => 0
  let c := if !l.nc then 0 else if cached then (s.msys.diePts.get? die).getD 0 else s.msys.agent
  max a (max b c)

def setPlacePts (s : State) (die : Nat) (l : Loc) (cached : Bool) (p : Nat) : State :=
  let s := match l.space with | .core c => let k := s.core c; s.setCore c { k with pts := p } | _ => s
  let s := match l.cloak with
    | some r => { s with msys := { s.msys with cloakPts := s.msys.cloakPts.set r p } }
    | none => s
  if !l.nc then s
  else if cached then { s with msys := { s.msys with diePts := s.msys.diePts.set die p } }
  else { s with msys := { s.msys with agent := max s.msys.agent p } }

/-- An event at a place follows its earlier ones, and the place's later ones follow it. -/
def follow (s : State) (w : Who) (l : Loc) (cached : Bool) : State :=
  s.raise w (placePts s (dieOfCore w.core) l cached)

def precede (s : State) (w : Who) (l : Loc) (cached : Bool) : State :=
  setPlacePts s (dieOfCore w.core) l cached (s.ptsOf w)

/-- Runs events of a command with the clock of its own; the clock afterwards. -/
def withClock {α : Type} (p : Nat) (f : State → α × State) (s : State) : α × Nat × State :=
  let old := s.msys.agent
  let r := f { s with msys := { s.msys with agent := p } }
  (r.1, r.2.msys.agent, { r.2 with msys := { r.2.msys with agent := old } })

/-! ### A line's bytes -/

/-- The bytes of a line, and its marks. -/
structure LineVal where
  data : Nat
  bad : Nat
  deriving DecidableEq, Repr

/-- What storage holds of the line of a location. -/
def rawLine (s : State) (l : Loc) : LineVal := { data := rawRead s (lineLoc l) 64, bad := badWords s l.space l.addr }

/-- What the line of a location has held since a number of writes, beside what it holds now; the latest first. -/
def pastLines (s : State) (l : Loc) (since : Nat) : List PastLine :=
  ((s.msys.past.get? (lineNum l.space l.addr)).getD []).filter fun x => since ≤ x.num

def PastLine.line (x : PastLine) : LineVal := { data := x.data.toNat, bad := x.bad.toNat }

/-- A value read: n bytes, and the offsets of those in uncorrectable words. -/
structure Got where
  val : Nat
  bad : List Nat := []
  deriving DecidableEq, Repr

/-- n bytes of a line from offset o. -/
def LineVal.get (x : LineVal) (o n : Nat) : Got :=
  { val := (x.data >>> (8 * o)) % 2 ^ (8 * n),
    bad := if x.bad = 0 then [] else (List.range n).filter fun i => x.bad.testBit ((o + i) / 8) }

/-- n bytes at offset o of a number replaced. -/
def putBytes (d o v n : Nat) : Nat :=
  let mask := (2 ^ (8 * n) - 1) <<< (8 * o)
  d - (d &&& mask) + (v % 2 ^ (8 * n)) <<< (8 * o)

/-- A line after a write: a word written whole is no longer uncorrectable (R276). -/
def LineVal.put (x : LineVal) (o v n : Nat) : LineVal :=
  { data := putBytes x.data o v n,
    bad := if x.bad = 0 then 0
      else (List.range 8).foldl (fun m i => if x.bad.testBit i && !(o ≤ 8 * i && 8 * i + 8 ≤ o + n) then m + 2 ^ i else m) 0 }

/-! ### Writes on their way to host memory (R286, R287, R309, R310) -/

/-- A mark for each byte of [o, o + n). -/
def byteMask (o n : Nat) : BitVec 64 := BitVec.ofNat 64 ((2 ^ n - 1) <<< o)

/-- The die's copy of the non-coherent line of a location. -/
def ncFind (s : State) (die : Nat) (l : Loc) : Option NcLine :=
  s.msys.nc.find? fun x => x.die == die && sameLine x.home l

/-- A line of host memory is about to change: the value that it has may be the one that a die's next fetch returns, of which dies
is open (R309). -/
def keepEarlier (s : State) (except : Option Nat) (l : Loc) : State :=
  if !l.hostSide then s
  else
    let v := rawLine s l
    let c := s.pick
    let dies := (List.range 8).filter fun d => c.1.testBit d && some d != except
    let one (die : Nat) : EarlyLine :=
      { die, home := lineLoc l, data := BitVec.ofNat 512 v.data, bad := BitVec.ofNat 8 v.bad }
    let rest := s.msys.early.filter fun x => !(sameLine x.home l && dies.contains x.die)
    let s := c.2
    { s with msys := { s.msys with early := dies.map one ++ rest } }

/-- A die's next fetch of a line returns no earlier value: it has dropped the line, or fetched it. -/
def forgetEarlier (s : State) (die : Nat) (l : Loc) : State :=
  { s with msys := { s.msys with early := s.msys.early.filter fun x => !(x.die == die && sameLine x.home l) } }

/-- A flush covers pages of an address space. -/
def Flush.covers (f : Flush) (asid first count : Nat) : Bool :=
  asid == f.asid && (f.pages == 0 || (first < f.start + f.pages && f.start < first + count))

/-- A flush covers a line's page. -/
def Flush.coversLine (f : Flush) (asid va : Nat) : Bool := f.covers asid (64 * va / 65536) 1

/-- An earlier value that a die's fetch of a line through a page may return. -/
def earlyFor (s : State) (w : Who) (va : Nat) (l : Loc) : Option EarlyLine :=
  s.msys.early.find? fun x => x.die == dieOfCore w.core && sameLine x.home l && !(x.flushed.any fun f => f.coversLine w.asid (va / 64)) &&
    !(x.turned.any fun r => l.cloak == some r)

/-- A posted write reaches host memory: a later fetch of its die returns no value from before it. -/
def deliverPost (s : State) (x : Posted) : State :=
  let s := forgetEarlier (keepEarlier s (some x.die) x.home) x.die x.home
  let s := (List.range 8).foldl (fun s i =>
    let at' (j : Nat) : Loc := { x.home with addr := x.home.addr + 8 * i + j }
    let m := x.mask.toNat / 2 ^ (8 * i) % 256
    let v := x.data.toNat / 2 ^ (64 * i)
    let s := if m = 0 then s
      else if m = 255 then rawWrite s (at' 0) v 8
      else (List.range 8).foldl (fun s j => if m.testBit j then rawWrite s (at' j) (v / 2 ^ (8 * j)) 1 else s) s
    if m != 0 && x.bad.getLsbD i then poisonRange s x.home.space (at' 0).addr 8 else s) s
  { s with msys := { s.msys with agent := max s.msys.agent x.pts } }

/-- Two writes of one thread set to device pages: they reach their targets in program order (R272). -/
def sameDevice (x y : Posted) : Bool := x.home.type == 2 && y.home.type == 2 && x.waits.any y.waits.contains

/-- Performs, in order, the writes to device pages that precede another of their thread set; one that a fence has reported may
have no event (R310). -/
def deliverBefore (x : Posted) (kept : List Posted) (s : State) : State :=
  (kept.filter (sameDevice x)).foldl (fun s y =>
    if y.reported then (let c := s.pick; if c.1 % 2 = 1 then deliverPost c.2 y else c.2) else deliverPost s y) s

/-- Goes through posted writes in order: each is kept (none), performed (true), or performed or not as is open (false), as
is any that a fence has reported. A reported write that comes to its place in S and is not performed has no event (R310);
nor has an earlier reported write of the same die to the line of one that is performed. -/
def settlePosts (sel : Posted → Option Bool) (kept : List Posted) : List Posted → State → List Posted × State
  | [], s => (kept, s)
  | x :: r, s =>
    let done := kept.filter fun y => !sameDevice x y && !(y.reported && y.die == x.die && sameLine y.home x.home)
    match sel x with
    | none => settlePosts sel (kept ++ [x]) r s
    | some must =>
      if must && !x.reported then settlePosts sel done r (deliverPost (deliverBefore x kept s) x)
      else
        let c := s.pick
        if c.1 % 2 = 1 then settlePosts sel done r (deliverPost (deliverBefore x kept c.2) x)
        else settlePosts sel (if must && x.kind != .back then kept else kept ++ [x]) r c.2

/-- Performs the posted writes that a test names. -/
def settle (sel : Posted → Option Bool) (s : State) : State :=
  match s.msys.posted with
  | [] => s
  | l =>
    let q := settlePosts sel [] l s
    { q.2 with msys := { q.2.msys with posted := q.1 } }

/-- An access of the package to a line of host memory: writes of the package to it that are on their way come first, but
for write-backs, which may or may not have arrived (R309). -/
def touchHost (s : State) (l : Loc) : State :=
  settle (fun x => if sameLine x.home l then some (x.kind != .back) else none) s

/-- A thread set's access to a device page: its earlier writes to device pages of the non-coherent target come first (R272). -/
def settleDevice (s : State) (t : Option Nat) (l : Loc) : State :=
  match t with
  | some t => if l.type = 2 then settle (fun x => if x.home.type == 2 && x.waits.contains t then some true else none) s else s
  | none => s

/-- An access of the host: each write on its way may or may not have arrived. -/
def hostTouch (s : State) (l : Loc) : State :=
  settle (fun x => if sameLine x.home l then some false else none) s

/-- Sends a write of n bytes to a line of host memory. -/
def postWrite (s : State) (kind : PostKind) (w : Who) (l : Loc) (v n : Nat) : State :=
  let o := l.addr % 64
  let x : Posted := { kind, waits := w.ts.toList, die := dieOfCore w.core, home := lineLoc l, data := BitVec.ofNat 512 (putBytes 0 o v n),
                      mask := byteMask o n, pts := s.ptsOf w }
  { s with msys := { s.msys with posted := s.msys.posted ++ [x] } }

/-! ### The slices (R259, R260) -/

/-- The slice of a die that serves a virtual address. -/
def sliceOf (va : Nat) : Nat := (List.range 7).foldl (fun x i => x ^^^ (va / 2 ^ (6 + 8 * i) % 256)) 0

/-- Lines of one slice: 512 KiB. -/
def sliceLines : Nat := 8192

/-- A line of a non-coherent page leaves the die's slices: its dirty bytes are sent to the host first, for the fences of thread
sets (R272). -/
def ncSend (s : State) (x : NcLine) (waits : List Nat) : State :=
  if x.dirty = 0 then s
  else
    let p : Posted := { kind := .back, waits, die := x.die, home := x.home, data := x.data, mask := x.dirty, bad := x.bad,
                        pts := (s.msys.diePts.get? x.die).getD 0 }
    let s := forgetEarlier s x.die x.home
    { s with msys := { s.msys with posted := s.msys.posted ++ [p] } }

def ncRemove (s : State) (die : Nat) (l : Loc) : State :=
  { s with msys := { s.msys with nc := s.msys.nc.filter fun y => !(y.die == die && sameLine y.home l) } }

/-- A die drops a line; fences of some thread sets wait for what it sends. -/
def ncDrop (s : State) (die : Nat) (l : Loc) (waits : List Nat := []) : State :=
  let s := forgetEarlier s die l
  match ncFind s die l with
  | none => s
  | some x => ncRemove (ncSend s x waits) die l

/-- A full slice replaces one of its lines, which one is open (R259). -/
def makeRoom (s : State) (die va : Nat) : State :=
  if s.msys.copies.length + s.msys.nc.length < sliceLines then s
  else
    let n := sliceOf va
    let cs := s.msys.copies.filter fun c => c.die == die && sliceOf (64 * c.va) == n
    let ns := s.msys.nc.filter fun x => x.die == die && x.tags.any fun t => sliceOf (64 * t.2) == n
    if cs.length + ns.length < sliceLines then s
    else
      let p := s.pick
      let i := p.1 % (cs.length + ns.length)
      let s := p.2
      match cs[i]?, ns[i - cs.length]? with
      | some c, _ => { s with msys := { s.msys with copies := s.msys.copies.filter fun y => y != c } }
      | none, some x => ncDrop s die x.home
      | none, none => s

/-- A die fetches a non-coherent line into a slice with room for it: what host memory holds, or an earlier value that it may
still return (R309). The writes of the die that are on their way to the line come first; those of others may or may not. -/
def ncBring (s : State) (w : Who) (va : Nat) (l : Loc) : NcLine × State :=
  let die := dieOfCore w.core
  let s := makeRoom s die va
  let s := settle (fun x => if sameLine x.home l then some (x.die == die) else none) s
  let v := rawLine s l
  let now : NcLine := { die, home := lineLoc l, tags := [(w.asid, va / 64)], data := BitVec.ofNat 512 v.data, dirty := 0,
                        bad := BitVec.ofNat 8 v.bad }
  let r : NcLine × State := match earlyFor s w va l with
    | none => (now, s)
    | some e => let c := s.pick; (if c.1 % 2 = 1 then { now with data := e.data, bad := e.bad } else now, c.2)
  let s := forgetEarlier r.2 die l
  (r.1, { s with msys := { s.msys with nc := r.1 :: s.msys.nc } })

/-- The die's copy of a non-coherent line, fetched if it is not held; a held line may have been replaced meanwhile (R272). A
new tag takes a place in its slice. -/
def ncFetch (s : State) (w : Who) (va : Nat) (l : Loc) : NcLine × State :=
  let die := dieOfCore w.core
  let tag := (w.asid, va / 64)
  match ncFind s die l with
  | none => ncBring s w va l
  | some x =>
    let c := s.pick
    if c.1 % 2 = 1 then ncBring (ncRemove (ncSend c.2 x []) die l) w va l
    else if x.tags.contains tag then (x, c.2)
    else
      let s := makeRoom c.2 die va
      match ncFind s die l with
      | some x => ({ x with tags := tag :: x.tags }, s)
      | none => ncBring s w va l

/-- Replaces a die's copy of a line. -/
def ncSet (s : State) (x : NcLine) : State :=
  let s := ncRemove s x.die x.home
  { s with msys := { s.msys with nc := x :: s.msys.nc } }

/-! ### Regions and leases (R265 to R269) -/

/-- One number for a line of any space with a home. -/
def lineKey (l : Loc) : Option Nat :=
  if l.nc then none
  else
    match l.space with
    | .core _ => none
    | sp => some (lineNum sp l.addr)

/-- The die that owns a device address (R397). -/
def homeDie (a : Nat) : Nat := a / 2 ^ 38 % 8

/-- The home scope of a location for a core (R285): core 1, die 3, pkg 4, fab 5, sys 6. -/
def homeScope (c : Nat) (l : Loc) : Nat :=
  match l.space with
  | .core _ => 1
  | .dev => if homeDie l.addr = dieOfCore c then 3 else 4
  | .alt => if 2 ^ 41 ≤ l.addr then 6 else if homeDie l.addr = dieOfCore c then 3 else 4
  | .peer _ => 5
  | .host => 6

/-- The lease length of a copy (R267). -/
def leaseLen (s : State) (c : Nat) (l : Loc) (long : Bool) : Nat :=
  let x := match homeScope c l with
    | 3 => s.mgmt.leaseDie.toNat
    | 5 => s.mgmt.leaseFab.toNat
    | _ => s.mgmt.leasePkg.toNat
  if long then min (4 * x) (2 ^ 20 - 1) else x

/-- The region that holds a line; a region starts as an aligned 64 KiB range (R269). Addresses are line numbers × 64. -/
def regionOf (s : State) (key : Nat) : Region :=
  match s.msys.regions.find? fun r => r.base ≤ key * 64 && key * 64 < r.base + r.size with
  | some r => r
  | none => { base := key * 64 / 65536 * 65536, size := 65536, wts := 0, rts := 0, reader := none, written := 0 }

/-- Two sibling halves. -/
def siblings (a b : Region) : Bool :=
  a.size == b.size && a.size < 65536 && a.base != b.base && a.base / (2 * a.size) == b.base / (2 * b.size)

/-- The halves as one region again: the larger wts and rts (R269). -/
def joinRegions (a b : Region) : Region :=
  { base := min a.base b.base, size := 2 * a.size, wts := max a.wts b.wts, rts := max a.rts b.rts,
    reader := (if b.rts ≤ a.rts then a else b).reader, written := max a.written b.written }

/-- The pair of siblings that has been quiet longest. -/
def quietest (l : List Region) : Option (Region × Region) :=
  (l.flatMap fun a => (l.filter fun b => siblings a b && a.base < b.base).map fun b => (a, b)).foldl (fun m p =>
    match m with
    | none => some p
    | some q => if max p.1.written p.2.written < max q.1.written q.2.written then some p else some q) none

/-- A full table merges the pair of siblings that has been quiet longest. -/
def fitRegions (cap : Nat) (l : List Region) : List Region :=
  if l.length ≤ cap then l
  else
    match quietest l with
    | some (a, b) => joinRegions a b :: l.filter fun x => x.base != a.base && x.base != b.base
    | none => l

/-- Sets a region. -/
def putRegion (s : State) (r : Region) : State :=
  let rest := s.msys.regions.filter fun x => !(r.base ≤ x.base && x.base < r.base + r.size)
  { s with msys := { s.msys with regions := fitRegions s.msys.regionCap (r :: rest) } }

/-- Splits the region of a line that is written where the read that set rts lay in its other half (R269). -/
def splitRegion (s : State) (key : Nat) : State :=
  let r := regionOf s key
  let h := r.size / 2
  let upper (a : Nat) : Bool := r.base + h ≤ a
  match r.reader with
  | none => s
  | some a =>
    if r.size ≤ 64 || upper a == upper (key * 64) then s
    else
      let half (hi : Bool) : Region :=
        { r with base := if hi then r.base + h else r.base, size := h, reader := if upper a == hi then some a else none }
      let rest := s.msys.regions.filter fun x => x.base != r.base
      { s with msys := { s.msys with regions := fitRegions s.msys.regionCap (half false :: half true :: rest) } }

/-- The line is no longer owned by a stash: its home takes the stamps of the owner's last write, and the owner keeps a clean
copy under a new read lease (R268). The data of every write of the owner are in storage already, so they need not be
fetched. -/
def recallOwner (s : State) (key : Nat) (except : Option Nat) : State :=
  match s.msys.owners.find? fun o => o.1 == key with
  | none => s
  | some o =>
    if some o.2 = except then s
    else
      let s := { s with msys := { s.msys with owners := s.msys.owners.filter fun x => x.1 != key } }
      let k := s.core o.2
      match k.stash.find? fun x => x.dirty && lineKey x.home == some key with
      | none => s
      | some x =>
        let s := if (regionOf s key).wts < x.wts then splitRegion s key else s
        let r := regionOf s key
        let len := leaseLen s o.2 x.home false
        let wts := max r.wts x.wts
        let rts := max (max r.rts x.rts) (wts + len)
        let clean : StashLine := { x with dirty := false, wts, rts, installed := s.clk, len }
        let s := putRegion s { r with wts, rts, reader := some (key * 64), written := max r.written x.installed }
        s.setCore o.2 { k with stash := k.stash.map fun y => if y.line = x.line then clean else y }

/-- An ordinary read at a home (R266): the region's wts and rts, and the state with the reader's clock. -/
def stampRead (s : State) (w : Who) (l : Loc) (len : Nat) : (Nat × Nat) × State :=
  match lineKey l with
  | none => ((0, 0), s)
  | some key =>
    let s := recallOwner s key none
    let r := regionOf s key
    let pts := s.ptsOf w
    let rts := max r.rts (max (pts + len) (r.wts + len))
    let s := putRegion s { r with rts, reader := if r.rts < rts then some (key * 64) else r.reader }
    ((r.wts, rts), s.setPts w (max pts r.wts))

/-- The longest time for which a read may return a value from before a write (R267, R270). -/
def oldClk : Nat := 2 ^ 20 + 16384

/-- Keeps the value of a line before a write at its home, for the reads that may still precede the write in S (R298). -/
def keepOld (s : State) (key : Nat) (l : Loc) (wts rts : Nat) : State :=
  let v := rawLine s l
  let x : OldLine := { data := BitVec.ofNat 512 v.data, bad := BitVec.ofNat 8 v.bad, wts, rts, replaced := s.clk }
  let rest := ((s.msys.old.get? key).getD []).filter fun y => s.clk < y.replaced + oldClk
  { s with msys := { s.msys with old := s.msys.old.set key (x :: rest) } }

/-- An ordinary write at a home by a maker whose clock is pts (R266, R269): the time of the write. `owner` is a stash whose
copy stays. -/
def stampWrite (s : State) (pts : Nat) (l : Loc) (owner : Option Nat) : Nat × State :=
  match lineKey l with
  | none => (pts, s)
  | some key =>
    let s := splitRegion (recallOwner s key owner) key
    let r := regionOf s key
    let wts := max pts (r.rts + 1)
    (wts, putRegion (keepOld s key l r.wts r.rts) { r with wts, rts := wts, reader := none, written := s.clk })

/-- The transit bound of R270 for a core and the home of a location. -/
def transit (c : Nat) (l : Loc) : Nat := match homeScope c l with | 3 => 512 | 5 => 16384 | _ => 2048

/-- The earlier values of a line that a read may return: its clock lies before the write that replaced the value, and the
time of R270 has not passed (R298). -/
def oldValues (s : State) (w : Who) (l : Loc) (life : Nat) : List OldLine :=
  match lineKey l with
  | none => []
  | some key => ((s.msys.old.get? key).getD []).filter fun x => s.ptsOf w ≤ x.rts && s.clk < x.replaced + life + transit w.core l

/-- A read of a line that no copy serves: at its home, or at an earlier place in S where the clocks allow it (R298). -/
def orOld (w : Who) (l : Loc) (life : Nat) (home : State → LineVal × State) (s : State) : LineVal × State :=
  match oldValues s w l life with
  | [] => home s
  | os =>
    let c := s.pick
    match os[c.1 % (os.length + 1)]? with
    | some x => ({ data := x.data.toNat, bad := x.bad.toNat }, c.2.raise w x.wts)
    | none => home c.2

/-- A write of the hub's own to device memory, at its home. -/
def hubWrite (s : State) (a v n : Nat) : State :=
  let l : Loc := { space := .dev, addr := a }
  let r := stampWrite s s.msys.agent l none
  let s := r.2
  writeNum { s with msys := { s.msys with agent := r.1 } } .dev ((keyOf s 0).getD none) a v n

/-! ### Folds (R273 to R275) -/

/-- One element of a fold or reducing copy: old value and operand at a width (R275, R278). -/
def foldStep (fn : FoldFn) (et : ElemTy) (old y : Nat) : Nat :=
  let w := et.width
  if et.isInt then
    match fn with
    | .add => (old + y) % 2 ^ w
    | .min => if intVal et y < intVal et old then y else old
    | .max => if intVal et old < intVal et y then y else old
    | .and => old &&& y
    | .or => old ||| y
    | .xor => old ^^^ y
  else
    let f := fmtOf et
    match fn with
    | .min => (f.minMax false old y).1
    | .max => (f.minMax true old y).1
    | _ => (f.deliver .rne false (addExact .rne (f.decode old) (f.decode y))).1

/-- The service registers of a die (R382). -/
def State.dieSvc (s : State) (die : Nat) : DieSvc := s.faults.dies.toList.getD (die % 8) {}

/-- Writes a record to a die's error log (R383). -/
def errorLog (s : State) (die type peer launch addr : Nat) : State :=
  let d := s.dieSvc die
  if d.elogb = 0 then s
  else
    let a := d.elogb.toNat + 16 * (d.elogn.toNat % 256)
    let v := joinFields [(1, type), (1, peer), (2, die % 8), (4, launch), (8, addr)]
    let s := hubWrite s a v 16
    s.setFaults { s.faults with dies := s.faults.dies.setIfInBounds (die % 8) { d with elogn := d.elogn + 1 } }

/-- The access reaches a peer, or the host: it is outstanding for the thread set's fences until one completes (R287). -/
def notePeer (s : State) (t : Option Nat) (l : Loc) : State :=
  match t, l.space with
  | some t, .peer p =>
    match s.peer? p with
    | some x => let y := s.ts t; s.setTs t { y with toPeers := (p, some x.incarnation) :: y.toPeers }
    | none => s
  | some t, _ => if s.mgmt.hostUp || !l.hostSide then s else let y := s.ts t; s.setTs t { y with toHost := true }
  | _, _ => s

/-- A fold waits for the link that it needs (R287, R468). -/
def holdFold (s : State) (f : Fold) : State := { s with fab := { s.fab with heldFolds := s.fab.heldFolds ++ [f] } }

/-- Performs one entry by a read-modify-write at its home for each element (R274, R275): a placement that meets an
uncorrectable word is discarded and recorded. The thread set's later release points follow it (R301). -/
def performFold (s : State) (f : Fold) : State :=
  let n := f.et.bytes
  let die := dieOfCore (coreOf f.ts)
  let first := backing s f.loc false
  -- before an AtomicOp to a non-coherent host page the die's copy is written back and dropped (R283)
  let s := if f.loc.nc then touchHost (settle (fun x => if sameLine x.home first then some true else none) (ncDrop s die first)) first
    else if first.hostSide then touchHost s first else s
  let r := stampWrite s (max f.pts (placePts s die f.loc false)) first none
  let s := setPlacePts (keepEarlier r.2 (some die) first) die f.loc false r.1
  let x := s.ts f.ts
  let s := if x.launch = f.launch then s.setTs f.ts { x with pts := max x.pts r.1 } else s
  f.ops.foldl (fun s o =>
    let l := backing s { f.loc with addr := f.loc.addr + o.1 } false
    if poisoned s l.space l.addr n then errorLog s die 1 0 f.launch (f.line + o.1)
    else rawWrite s l (foldStep f.fn f.et (rawRead s l n) o.2) n) s

/-- Places one fold-buffer entry: toward a retraining peer, or the host while its port is down, it waits; toward a failed
peer it is discarded and recorded (R275). -/
def placeFold (s : State) (f : Fold) : State :=
  match f.loc.space with
  | .peer p =>
    match (s.peer? p).map Peer.link with
    | some .up => performFold s f
    | some (.retraining _) => holdFold s f
    | _ => errorLog s (dieOfCore (coreOf f.ts)) 2 p f.launch f.line
  | .host => if s.mgmt.hostUp then performFold s f else holdFold s f
  | _ => performFold s f

/-- Places, in order, the entries of a core's fold buffer that a test names. -/
def placeCore (s : State) (c : Nat) (p : Fold → Bool) : State :=
  let k := s.core c
  if k.folds.any p then
    let s := s.setCore c { k with folds := k.folds.filter fun f => !p f }
    (k.folds.filter p).foldl placeFold s
  else s

/-- Places the folds of a thread set whose home scope is at most a scope (R274, R302). -/
def placeFolds (s : State) (t scope : Nat) : State := placeCore s (coreOf t) fun f => f.ts == t && f.scope ≤ scope

/-- The number of the widest scope. -/
def scopeSys : Nat := 6

/-- The announcements that have arrived at a line's home: one that has not yet may have (R274). -/
def arriveFolds (hit : Fold → Bool) (mine : Option Nat) : List Fold → State → List Fold × State
  | [], s => ([], s)
  | f :: r, s =>
    if hit f && !f.arrived && some f.ts != mine then
      let c := s.pick
      let q := arriveFolds hit mine r c.2
      ({ f with arrived := c.1 % 2 == 1 } :: q.1, q.2)
    else
      let q := arriveFolds hit mine r s
      (f :: q.1, q.2)

/-- A core's folds of a line: those whose announcement has arrived at the home are placed, and those of `mine`, the thread
set that reads the line itself (R274). -/
def pullCore (l : Loc) (mine : Option Nat) (s : State) (e : Nat × Core) : State :=
  let hit (f : Fold) : Bool := sameLine (backing s f.loc false) l
  if e.2.folds.any hit then
    let q := arriveFolds hit mine e.2.folds s
    let s := q.2.setCore e.1 { e.2 with folds := q.1 }
    placeCore s e.1 fun f => hit f && (f.arrived || some f.ts == mine)
  else s

/-- Folds of the line that wait for the host's port are performed before another access of the package to it. -/
def pullHeld (s : State) (l : Loc) : State :=
  let hit (f : Fold) : Bool := f.loc.space == .host && sameLine (backing s f.loc false) l
  if s.fab.heldFolds.any hit then
    let fs := s.fab.heldFolds.filter hit
    fs.foldl performFold { s with fab := { s.fab with heldFolds := s.fab.heldFolds.filter fun f => !hit f } }
  else s

/-- An access of the package to a line: its writes and folds that are on their way to host memory come first. -/
def devTouch (s : State) (l : Loc) : State := if l.nc || l.hostSide then touchHost (pullHeld s l) l else s

/-- A home pulls the announced folds of a line before it serves an access. -/
def pullFolds (s : State) (l : Loc) (mine : Option Nat) : State :=
  if s.cores.any fun e => !e.2.folds.isEmpty then s.cores.foldl (pullCore l mine) s else s

/-- A thread set's read of a line places its own folds of it first (R274). -/
def placeOwn (s : State) (t : Option Nat) (l : Loc) : State :=
  match t with
  | none => s
  | some t => placeCore s (coreOf t) fun f => f.ts == t && sameLine (backing s f.loc false) l

/-! ### One line at its home -/

/-- A read at the home of a line (R266): its wts and rts, and the state after the pull of its folds. -/
def homeRead (s : State) (w : Who) (l : Loc) (len : Nat) : (Nat × Nat) × State :=
  stampRead (pullFolds (devTouch s l) l w.ts) w l len

/-- The bytes of a stamped write reach the home; to coherent host memory they wait while the host port is down (R287). -/
def landWrite (s : State) (w : Who) (l : Loc) (v n : Nat) : State :=
  let s := if l.hostSide && !s.mgmt.hostUp && w.core != hubCore then postWrite s .coherent w l v n
    else rawWrite (keepEarlier s none l) l v n
  notePeer s w.ts l

/-- A write of n bytes of one line at its home (R266): the time of the write. -/
def homeWrite (s : State) (w : Who) (l : Loc) (v n : Nat) (owner : Option Nat) : Nat × State :=
  let r := stampWrite (pullFolds (devTouch s l) l none) (s.ptsOf w) l owner
  (r.1, landWrite (r.2.setPts w r.1) w l v n)

/-! ### Copies in the slices (R260, R266) -/

/-- The copy that a die's slices hold of a virtual line. -/
def copyFor (s : State) (w : Who) (va : Nat) : Option LeaseCopy :=
  s.msys.copies.find? fun c => c.die == dieOfCore w.core && c.asid == w.asid && c.va == va / 64

def setCopy (s : State) (c : LeaseCopy) : State :=
  let rest := s.msys.copies.filter fun y => !(y.die == c.die && y.asid == c.asid && y.va == c.va)
  { s with msys := { s.msys with copies := c :: rest } }

/-- A copy serves a read while its lease covers the reader's clock and its life has not passed its length (R266). -/
def leased (s : State) (w : Who) (rts installed len : Nat) : Bool := s.ptsOf w ≤ rts && s.clk < installed + len

/-- A read of a line through the die's slice: from a copy under a live lease, else renewed at the home. -/
def sliceRead (s : State) (w : Who) (va : Nat) (l : Loc) (long : Bool) : LineVal × State :=
  let s := placeOwn s w.ts l
  let len := leaseLen s w.core l long
  let renew (s : State) : LineVal × State :=
    let r := homeRead s w l len
    let v := rawLine r.2 l
    let s := makeRoom r.2 (dieOfCore w.core) va
    (v, setCopy s { die := dieOfCore w.core, asid := w.asid, va := va / 64, home := lineLoc l, data := BitVec.ofNat 512 v.data,
                    bad := BitVec.ofNat 8 v.bad, wts := r.1.1, rts := r.1.2, installed := s.clk, len })
  match copyFor s w va with
  | some c =>
    if c.home == lineLoc l && leased s w c.rts c.installed c.len then
      ({ data := c.data.toNat, bad := c.bad.toNat }, s.raise w c.wts)
    else orOld w l len renew s
  | none => orOld w l len renew s

/-- The slice of the writer updates its own copy of the line (R260): the home's answer to the write brings the whole line as it
stands at the time of the write, since other bytes of an older copy would not be valid then (R297; log entry 83). While the
write waits for the host port the copy is dropped. -/
def sliceUpdate (s : State) (w : Who) (va : Nat) (l : Loc) (wts : Nat) : State :=
  match copyFor s w va with
  | none => s
  | some c =>
    if c.home != lineLoc l then s
    else if s.msys.posted.any fun x => sameLine x.home l then { s with msys := { s.msys with copies := s.msys.copies.filter (· != c) } }
    else
      let v := rawLine s l
      setCopy s { c with data := BitVec.ofNat 512 v.data, bad := BitVec.ofNat 8 v.bad, wts, rts := wts }

/-! ### The stash (R207 to R209) -/

/-- The offset in local memory of the slot of a line under a map. -/
def slotOff (m : Word) (va : Nat) : Nat := mapLocal m + (va / 64 * 64 - mapGlobal m)

/-- The stash line of a global address. -/
def stashLine (k : Core) (va : Nat) : Option StashLine := k.stash.find? fun x => x.line == va / 64 * 64

/-- A stash line can serve an access without its home. -/
def stashLive (s : State) (w : Who) (x : StashLine) (l : Loc) : Bool :=
  x.home == lineLoc l && (x.dirty || leased s w x.rts x.installed x.len)

/-- Sets a slot's bytes and marks. -/
def putSlot (k : Core) (off : Nat) (v : LineVal) : Core :=
  let old := k.poison.filter fun p => !(off ≤ p && p < off + 64)
  let new := (List.range 8).filter fun i => v.bad.testBit i
  { k with mem := putNum k.mem off v.data 64, poison := old ++ new.map fun i => off + 8 * i }.touch off 64

/-- Records a stash line. -/
def putStash (k : Core) (x : StashLine) : Core := { k with stash := x :: k.stash.filter fun y => y.line != x.line }

/-- The stash no longer owns the physical line that it held for a global address, if it held another. -/
def disown (s : State) (c va : Nat) (l : Loc) : State :=
  match stashLine (s.core c) va with
  | some x => if x.home == lineLoc l then s else match lineKey x.home with | some key => recallOwner s key none | none => s
  | none => s

/-- Brings a line into its slot from its home, under a lease. -/
def fillStash (s : State) (w : Who) (va : Nat) (l : Loc) (long : Bool) : State :=
  match mapFor (s.core w.core) va with
  | none => s
  | some m =>
    let len := leaseLen s w.core l long
    let r := homeRead (disown s w.core va l) w l len
    let s := r.2
    let k := putSlot (s.core w.core) (slotOff m va) (rawLine s l)
    s.setCore w.core (putStash k { line := va / 64 * 64, home := lineLoc l, dirty := false, wts := r.1.1, rts := r.1.2,
                                   installed := s.clk, len })

/-- What a line's slot holds. -/
def slotLine (s : State) (c va : Nat) : LineVal :=
  match mapFor (s.core c) va with
  | some m => rawLine s { space := .core c, addr := slotOff m va }
  | none => { data := 0, bad := 0 }

/-- A read by the owner of a line: later writes follow it, as they follow a lease (R266, R268). -/
def ownerRead (s : State) (w : Who) (x : StashLine) : State :=
  let s := s.raise w x.wts
  if x.dirty && x.rts < s.ptsOf w then s.setCore w.core (putStash (s.core w.core) { x with rts := s.ptsOf w }) else s

/-- A read of a line that the stash serves. -/
def stashRead (s : State) (w : Who) (va : Nat) (l : Loc) (long : Bool) : LineVal × State :=
  let s := placeOwn s w.ts l
  let fill (s : State) : LineVal × State := let s := fillStash s w va l long; (slotLine s w.core va, s)
  let old := orOld w l (leaseLen s w.core l long) fill
  match stashLine (s.core w.core) va with
  | some x => if stashLive s w x l then (slotLine s w.core va, ownerRead s w x) else old s
  | none => old s

/-- The stash owns the line of a global address. -/
def stashOwned (k : Core) (va : Nat) (l : Loc) : Option StashLine := (stashLine k va).filter fun x => x.dirty && x.home == lineLoc l

/-- A write of the owner of a line: its time follows from the owner's own stamps, and it needs neither the home nor its link
(R208, R268). -/
def ownerWrite (s : State) (w : Who) (x : StashLine) (l : Loc) (v n : Nat) : Nat × State :=
  let t := max (s.ptsOf w) (x.rts + 1)
  let s := match lineKey l with | some key => keepOld s key l x.wts x.rts | none => s
  (t, notePeer (rawWrite (keepEarlier (s.setPts w t) none l) l v n) w.ts l)

/-- A write to a line that the stash serves: a line that it does not own is fetched first, and becomes owned and dirty
(R208). -/
def stashWrite (s : State) (w : Who) (va : Nat) (l : Loc) (v n : Nat) (long : Bool) : State :=
  let r := match stashOwned (s.core w.core) va l with
    | some x => ownerWrite s w x l v n
    | none => homeWrite (fillStash s w va l long) w l v n (some w.core)
  let s := r.2
  match mapFor (s.core w.core) va, lineKey l with
  | some m, some key =>
    let s := writeNum s (.core w.core) none (slotOff m va + l.addr % 64) v n
    let s := s.setCore w.core (putStash (s.core w.core) { line := va / 64 * 64, home := lineLoc l, dirty := true, wts := r.1,
                                                          rts := r.1, installed := s.clk, len := 0 })
    { s with msys := { s.msys with owners := (key, w.core) :: s.msys.owners.filter fun o => o.1 != key } }
  | _, _ => s

/-- Stash lines of a core that a test names are written back, and stay, clean (R230). -/
def cleanStash (s : State) (c : Nat) (hit : StashLine → Bool) : State :=
  let s := ((s.core c).stash.filter fun x => hit x && x.dirty).foldl (fun s x =>
    match lineKey x.home with
    | some key => recallOwner s key none
    | none => s) s
  let k := s.core c
  s.setCore c { k with stash := k.stash.map fun x => if hit x then { x with dirty := false } else x }

/-- Stash lines that a test names are written back and dropped (R229, R230). -/
def dropStash (s : State) (c : Nat) (hit : StashLine → Bool) : State :=
  let s := cleanStash s c hit
  let k := s.core c
  s.setCore c { k with stash := k.stash.filter fun x => !hit x }

/-- The slot of a non-coherent line shows the die's copy. -/
def ncMirror (s : State) (w : Who) (va : Nat) (x : NcLine) (unc : Bool) : State :=
  if !stashServes s w va x.home unc then s
  else
    match mapFor (s.core w.core) va with
    | none => s
    | some m =>
      let k := putSlot (s.core w.core) (slotOff m va) { data := x.data.toNat, bad := x.bad.toNat }
      s.setCore w.core (putStash k { line := va / 64 * 64, home := x.home, dirty := x.dirty != 0, wts := 0, rts := 0,
                                     installed := s.clk, len := 0 })

/-! ### One event (R266, R272, R297) -/

/-- A read of a part that lies in one line. -/
def readEvent (w : Who) (hint : Hint) (p : Piece) (s : State) : Got × State :=
  let unc := hint == .unc
  let l := backing s p.loc false
  let o := l.addr % 64
  let cached := sliced w l unc
  let s := follow (settleDevice s w.ts l) w l cached
  let r : Got × State :=
    match l.space with
    | .core _ => ((rawLine s l).get o p.n, s)
    | _ =>
      if l.nc && cached then
        let x := ncFetch (placeOwn s w.ts l) w p.va l
        let s := ncMirror (ncSet x.2 x.1) w p.va x.1 unc
        (LineVal.get { data := x.1.data.toNat, bad := x.1.bad.toNat } o p.n, s)
      else if stashServes s w p.va l unc then
        let x := stashRead s w p.va l (hint == .long)
        (x.1.get o p.n, x.2)
      else if cached then
        let x := sliceRead s w p.va l (hint == .long)
        (x.1.get o p.n, x.2)
      else
        let home (s : State) : LineVal × State :=
          let s := (homeRead s w l (leaseLen s w.core l (hint == .long))).2
          (rawLine s l, s)
        let x := orOld w l 0 home (placeOwn s w.ts l)
        (x.1.get o p.n, x.2)
  (r.1, precede r.2 w l cached)

/-- A write of a part that lies in one line. -/
def writeEvent (w : Who) (hint : Hint) (p : Piece) (v : Nat) (s : State) : State :=
  let unc := hint == .unc
  let l := backing s p.loc false
  let cached := sliced w l unc
  let sent := l.nc || (l.hostSide && !s.mgmt.hostUp)
  let s := follow (if sent then s else settleDevice s w.ts l) w l cached
  let s : State :=
    match l.space with
    | .core _ => rawWrite s l v p.n
    | _ =>
      if l.nc && cached then
        let x := ncFetch s w p.va l
        let y := LineVal.put { data := x.1.data.toNat, bad := x.1.bad.toNat } (l.addr % 64) v p.n
        let x' : NcLine := { x.1 with data := BitVec.ofNat 512 y.data, bad := BitVec.ofNat 8 y.bad,
                                      dirty := x.1.dirty ||| byteMask (l.addr % 64) p.n }
        ncMirror (ncSet x.2 x') w p.va x' unc
      else if l.nc then
        match w.ts with
        | some _ => notePeer (postWrite s .plain w l v p.n) w.ts l
        | none => rawWrite (keepEarlier (devTouch s l) none l) l v p.n
      else if stashServes s w p.va l unc then stashWrite s w p.va l v p.n (hint == .long)
      else
        let r := homeWrite s w l v p.n none
        if cached then sliceUpdate r.2 w p.va l r.1 else r.2
  precede s w l cached

/-- A read-modify-write at the home of a part (R280, R283): f gives the new value, or none to write nothing. On a
non-coherent host page the die's copy is written back and dropped first. -/
def rmwEvent (w : Who) (p : Piece) (f : Nat → Option Nat) (s : State) : Nat × State :=
  let l := backing s p.loc false
  let s := follow (settleDevice s w.ts l) w l false
  let r : Nat × State :=
    match l.space with
    | .core _ =>
      let old := rawRead s l p.n
      (old, match f old with | some v => rawWrite s l v p.n | none => s)
    | _ =>
      let s := if l.nc then settle (fun x => if sameLine x.home l then some true else none) (ncDrop s (dieOfCore w.core) l)
        else s
      let s := pullFolds (devTouch s l) l w.ts
      let old := rawRead s l p.n
      match f old with
      | some v =>
        let r := stampWrite s (s.ptsOf w) l none
        (old, notePeer (rawWrite (keepEarlier (r.2.setPts w r.1) (some (dieOfCore w.core)) l) l v p.n) w.ts l)
      | none => (old, notePeer (stampRead s w l 0).2 w.ts l)
  (r.1, precede r.2 w l false)

end Sys2Proof.Machine
end

