-- ==== Sys2Proof/Machine/Ops.lean ====
section
/-! DEFINITION. The named operations: operations that may stop, translation, access checks, reads and writes as events,
fault messages, posting a fault and continuing after its reply, and the end of an instruction. -/

namespace Sys2Proof.Machine

/-! ### Ends of an operation -/

/-- A fault of R366 as its poster knows it. -/
structure FaultInfo where
  cls : Nat
  detail : Nat := 0
  info : Word := 0
  aux : Word := 0
  write : Bool := false
  unsupported : Bool := false
  malformed : Bool := false
  deriving DecidableEq, Repr

/-- Why an operation did not complete. -/
inductive Stop where
  | fault (f : FaultInfo)
  /-- The access waits for a retraining peer (R468), or as `hostPeer` for the host's port (R287): at an address, of a read or a
  write; with the events of an access whose checks have been made. -/
  | peer (p : Nat) (va : Word) (write : Bool) (todo : List Ev)
  /-- The instruction is not ready; nothing happens (R143). -/
  | stall
  /-- The thread set blocks; the instruction has taken no effect. -/
  | block (st : Status)
  deriving DecidableEq, Repr

/-- An operation on the state that may stop without effect. -/
abbrev Op := StateT State (Except Stop)

def Op.fail {α : Type} (f : FaultInfo) : Op α := fun _ => .error (.fault f)
def Op.stop {α : Type} (x : Stop) : Op α := fun _ => .error x
def Op.upd (f : State → State) : Op Unit := fun s => .ok ((), f s)
def Op.ask {α : Type} (f : State → α) : Op α := fun s => .ok (f s, s)
def Op.pick : Op Nat := fun s => .ok s.pick

/-- Requires a condition, or posts a fault. -/
def Op.need (c : Bool) (f : FaultInfo) : Op Unit := if c then pure () else Op.fail f

/-! ### Translation (R261 to R264) -/

/-- A device physical address that R397 allows. -/
def devOk (a : Nat) : Bool := a < 2 ^ 41 && a % 2 ^ 37 < 0x1800000000

/-- Reads an entry of n bytes through the walkers' cache, with whether the reading met a poisoned word: where the cache holds
another value than memory does, either may be used (R264). A reading is performed at the entry's home. -/
def readEntry (asid level va addr n : Nat) : Op (BitVec 128 × Bool) := fun s =>
  let held := s.msys.walk.find? fun e => e.asid == asid && e.level == level && e.va == va
  let rest := s.msys.walk.filter fun e => !(e.asid == asid && e.level == level && e.va == va)
  let l : Loc := { space := .dev, addr }
  let s' := pullFolds (match lineKey l with | some k => recallOwner s k none | none => s) l none
  let fresh : BitVec 128 := BitVec.ofNat 128 (readNum s' .dev ((keyOf s' 0).getD none) addr n)
  let readFresh (s : State) : Except Stop ((BitVec 128 × Bool) × State) :=
    .ok ((fresh, poisoned s .dev addr n), { s with msys := { s.msys with walk := { asid, level, va, entry := fresh } :: rest } })
  match held with
  | some e =>
    if e.entry = fresh then .ok ((fresh, false), s)
    else
      let c := s'.pick
      if c.1 % 2 = 0 then .ok ((e.entry, false), c.2) else readFresh c.2
  | none => readFresh s'

/-- What an access needs of a page (R263); a write that may fill a stash line; a load that a copy may serve; a fold; a
store, which is accepted while the peer retrains and waits on its way (R468); the access of an import, which meets no import
of its own (R459). -/
structure Kind where
  r : Bool := false
  w : Bool := false
  x : Bool := false
  fill : Bool := false
  copy : Bool := false
  fold : Bool := false
  post : Bool := false
  inner : Bool := false
  deriving DecidableEq, Repr

def Kind.load : Kind := { r := true }
def Kind.store : Kind := { w := true }
def Kind.put : Kind := { w := true, fill := true }
def Kind.rmw : Kind := { r := true, w := true }
def Kind.fetch : Kind := { x := true }

/-- What a load and a store with a hint need. -/
def loadKind (h : Hint) : Kind := { r := true, copy := h != .unc }
def storeKind (h : Hint) : Kind := { w := true, fill := h != .unc, post := true }

/-- The field [hi:lo] of an entry. -/
def bitsOf (e : Word) (lo n : Nat) : Nat := (e.toNat >>> lo) % 2 ^ n

/-- The lowest index bit of a level (R261); its pages have this many offset bits. -/
def levelShift : Nat → Nat
  | 0 => 39 | 1 => 30 | 2 => 21 | _ => 16

/-- The number of index bits of a level. -/
def levelBits : Nat → Nat
  | 0 => 17 | 1 => 9 | 2 => 9 | _ => 5

/-- A valid leaf of a level obeys R262, R397 and R455. -/
def leafOk (e : Word) (level : Nat) : Bool :=
  let sh := levelShift level
  let a := bitsOf e 16 30 * 65536
  let tgt := bitsOf e 12 2
  level != 0 && bitsOf e 5 5 == 0 && bitsOf e 10 2 != 3 && (bitsOf e 14 1 == 0 || tgt == 1) &&
    (if tgt = 3 then bitsOf e 16 18 % 2 ^ (sh - 16) == 0
     else a % 2 ^ sh == 0 && (tgt != 0 || (a < 2 ^ 41 && a % 2 ^ 37 + 2 ^ sh ≤ 0x1800000000)))

/-- A valid non-leaf entry of a level obeys R262 and R397. -/
def tableOk (e : Word) (level : Nat) : Bool :=
  let next := bitsOf e 16 30 * 65536
  level != 3 && e.toNat == 1 + next && devOk next

/-- The walk from a level down, at most `fuel` levels: the leaf and its number of offset bits. The first outcome of R263
that applies decides. -/
def walkFrom (asid va : Nat) (info : Word) (write : Bool) : (fuel level table : Nat) → Op (Word × Nat)
  | 0, _, _ => Op.fail { cls := 5, info, write, malformed := true }
  | fuel + 1, level, table => do
    let sh := levelShift level
    let r ← readEntry asid level (va / 2 ^ sh) (table + 8 * (va / 2 ^ sh % 2 ^ levelBits level)) 8
    let e : Word := r.1.setWidth 64
    let leaf := bitsOf e 1 1 == 1
    Op.need (bitsOf e 0 1 == 1) { cls := 5, info, write }
    Op.need (if leaf then leafOk e level else tableOk e level) { cls := 5, info, write, malformed := true }
    Op.need (!r.2) { cls := 9, info, write }
    if leaf then pure (e, sh) else walkFrom asid va info write fuel (level + 1) (bitsOf e 16 30 * 65536)

/-- The exporter's checks of a request (R459): 0 when it accepts, else the class of its refusal. -/
def exporterCheck (p : Peer) (me : Nat) (inc : BitVec 16) (handle : Nat) (key : BitVec 32) (off n : Nat)
    (k : Kind) : Nat :=
  match p.exports.find? fun e => e.handle == handle with
  | none => 5
  | some e =>
    if e.key != key || !(e.importer == none || e.importer == some me) || !(e.bound == none || e.bound == some inc) then 6
    else if e.length < off + n || (k.r && !e.read) || (k.w && !e.write) || k.x then 6
    else
      match e.bad.get? ((e.base + off) / 65536), e.bad.get? ((e.base + off + n - 1) / 65536) with
      | some c, _ => c
      | none, some c => c
      | none, none => 0

/-- The line of an access is held under a live lease, so that no packet leaves for its home. -/
def heldHere (s : State) (w : Who) (va : Nat) (l : Loc) : Bool :=
  if stashServes s w va l false then
    match stashLine (s.core w.core) va with | some x => stashLive s w x l | none => false
  else
    sliced w l false &&
      match copyFor s w va with | some c => c.home == lineLoc l && leased s w c.rts c.installed c.len | none => false

/-- Every line of n bytes is held. -/
def allHeld (s : State) (w : Who) (va n : Nat) (l : Loc) : Bool :=
  (List.range ((va % 64 + n + 63) / 64)).all fun i =>
    heldHere s w (va / 64 * 64 + 64 * i) { l with addr := l.addr / 64 * 64 + 64 * i }

/-- The location of the line of a virtual address, as a live copy of a peer's line has it. -/
def copyLoc (s : State) (w : Who) (va p : Nat) : Option Loc :=
  let live : Option Loc :=
    match stashLine (s.core w.core) va, copyFor s w va with
    | some x, _ => if stashLive s w x x.home then some x.home else none
    | none, some c => if leased s w c.rts c.installed c.len then some c.home else none
    | none, none => none
  live.filter fun l => l.space == .peer p

/-- The peer's address of n bytes that live copies hold: the exporter may have changed its import table since (R461). -/
def copiedAt (s : State) (w : Who) (va n p : Nat) : Option Nat :=
  match copyLoc s w va p with
  | none => none
  | some l =>
    let a := l.addr + va % 64
    if (List.range ((va % 64 + n + 63) / 64)).all fun i =>
        (copyLoc s w (va / 64 * 64 + 64 * i) p).map (·.addr) == some (l.addr + 64 * i) then some a else none

/-- The bases that an export handle of a peer has or had: a copy serves the fabric address that one of them gives (R461; log entry
10). -/
def basesOf (p : Peer) (handle : Nat) : List Nat :=
  (p.exports.filter fun e => e.handle == handle).map (·.base) ++ (p.past.filter fun e => e.1 == handle).map (·.2)

/-- An access through a target-3 leaf: the fabric map, whose entry is cached with the translation (R455 to R457), the page's own
permission, and the exporter's checks (R459), with their outcome, which is 0 but for a load that live copies serve: those do
not ask the exporter (R461). While the peer retrains, an access waits (R468), but for such a load, and a fold or a store,
which wait later. `low` is the lowest address of the access in the page. -/
def fabricLoc (w : Who) (leaf : Word) (sh low va n : Nat) (allowed : Bool) (k : Kind) : Op (Loc × Nat) := do
  let info : Word := BitVec.ofNat 64 low
  let bad {α : Type} : Op α := Op.fail { cls := 5, info, write := k.w, malformed := true }
  let prot {α : Type} : Op α := Op.fail { cls := 6, info, write := k.w }
  let base ← Op.ask fun s => s.fab.fmapb.toNat
  if base = 0 then bad
  else
    let idx := bitsOf leaf 34 12
    let r ← readEntry w.asid 4 (va / 65536) (base + 16 * idx) 16
    let w0 : Word := r.1.setWidth 64
    let w1 : Word := (r.1 >>> 64).setWidth 64
    if bitsOf w0 24 1 = 0 || bitsOf w0 25 7 != 0 || bitsOf w0 48 16 != 0 then bad
    else
      Op.need (!r.2) { cls := 9, info, write := k.w }
      Op.need allowed { cls := 6, info, write := k.w }
      let off := (bitsOf w1 32 32 + bitsOf leaf 16 18) * 65536 + va % 2 ^ sh
      let s ← Op.ask id
      match s.peer? (bitsOf w0 16 8) with
      | none => prot
      | some p =>
        if p.incarnation.toNat != bitsOf w0 32 16 || p.link == .failed then prot
        else
          let c := exporterCheck p s.mgmt.peerId.toNat s.mgmt.incarnation (bitsOf w0 0 16)
            (BitVec.ofNat 32 (bitsOf w1 0 32)) off n k
          let b := match p.exports.find? fun e => e.handle == bitsOf w0 0 16 with | some e => e.base | none => 0
          let at' (a : Nat) : Loc := { space := .peer p.id, addr := a, key := 0, type := bitsOf leaf 10 2, noRead := bitsOf leaf 2 1 == 0 }
          let copied := if k.copy && bitsOf leaf 10 2 = 0 then
              (copiedAt s w va n p.id).filter fun a => (basesOf p (bitsOf w0 0 16)).any fun b => b + off == a
            else none
          match copied, p.link with
          | some a, _ => pure (at' a, c)
          | none, .retraining _ =>
            if c = 0 && (k.fold || k.post) then pure (at' (b + off), 0) else Op.stop (.peer p.id info k.w [])
          | none, _ => if c != 0 then Op.fail { cls := c, info, write := k.w } else pure (at' (b + off), 0)

/-- Translates the part [va, va + n), in one 64 KiB page, of an access that starts at `first` (R263): its location, with the
lowest address of the access in the page, which a fault names (R204, R369). -/
def translateFrom (w : Who) (k : Kind) (first va n : Nat) : Op Piece := do
  let r ← walkFrom w.asid va (BitVec.ofNat 64 va) k.w 4 0 w.root
  let e := r.1
  let low := max first (va / 2 ^ r.2 * 2 ^ r.2)
  let s ← Op.ask id
  let key := bitsOf e 46 10
  let allowed := !((k.r && bitsOf e 2 1 = 0) || (k.w && bitsOf e 3 1 = 0) || (k.x && bitsOf e 4 1 = 0)) && (keyOf s key).isSome
  if bitsOf e 12 2 = 3 && !k.inner then do
    let l ← fabricLoc w e r.2 low va n allowed k
    pure { va, n, loc := l.1, low, refuse := l.2 }
  else do
    Op.need (allowed && bitsOf e 12 2 != 3) { cls := 6, info := BitVec.ofNat 64 low, write := k.w }
    let loc : Loc := {
      space := if bitsOf e 12 2 = 0 then .dev else .host, addr := bitsOf e 16 30 * 65536 + va % 2 ^ r.2, key
      type := bitsOf e 10 2, nc := bitsOf e 12 2 == 2
      cloak := if bitsOf e 15 1 = 1 then some (bitsOf e 56 8) else none, noRead := bitsOf e 2 1 == 0 }
    pure { va, n, loc, low }

/-- Translates an access of n bytes that lies in one 64 KiB page. -/
def translate (w : Who) (k : Kind) (va n : Nat) : Op Loc := do
  let r ← translateFrom w k va va n
  pure r.loc

/-! ### Access checks (R204) -/

/-- Start and end of the local window and of global space (R203). -/
def lwBase : Nat := 0xFF00000000000000
def inWindow (a : Nat) : Bool := lwBase ≤ a && a < lwBase + 0x80000
def inGlobal (a : Nat) : Bool := a < 2 ^ 56

/-- A window range overlaps the local range of an enabled map (R209). -/
def overStash (k : Core) (a last : Nat) : Bool :=
  k.smap.toList.any fun m =>
    mapOn m && a - lwBase < mapLocal m + mapLen m && mapLocal m ≤ last - lwBase

/-- The parts of [a, a + n) by 64 KiB pages. -/
def splitPages (a n : Nat) : List (Nat × Nat) :=
  ((List.range (n / 65536 + 2)).map fun i =>
    let lo := max a ((a / 65536 + i) * 65536)
    let hi := min (a + n) ((a / 65536 + i + 1) * 65536)
    (lo, hi - lo)).filter fun p => p.2 != 0 && p.1 < a + n

/-- The thread set that runs, as the maker of accesses. -/
def State.who (s : State) (t : Nat) : Who :=
  match s.launchOf t with
  | some l => { core := coreOf t, asid := l.asid, root := l.root, ts := some t }
  | none => { core := coreOf t, asid := 0, root := 0, ts := some t }

/-- A write under a map would fill a stash line of a page without read permission (R262); an engine's write to a cloak region
lands in the lining instead. -/
def fillDenied (s : State) (w : Who) (k : Kind) (p : Piece) : Bool :=
  k.fill && (k.post || p.loc.cloak.isNone) && p.loc.noRead && !allHeld s w p.va p.n p.loc &&
    (List.range ((p.va % 64 + p.n + 63) / 64)).any fun i => stashServes s w (p.va / 64 * 64 + 64 * i) p.loc false

/-- The checks of R204, all pages translated before anything moves. -/
def checkAccess (w : Who) (k : Kind) (addr : Word) (n : Nat) : Op (List Piece) := do
  let a := addr.toNat
  let last := (addr + BitVec.ofNat 64 n - 1).toNat
  let prot {α : Type} : Op α := Op.fail { cls := 6, info := addr, write := k.w }
  if n = 0 then pure []
  else if last < a then prot
  else if inWindow a && w.core != hubCore then
    let c ← Op.ask fun s => s.core w.core
    if !inWindow last then Op.fail { cls := 7, info := addr, write := k.w }
    else if overStash c a last then prot
    else pure [{ va := a, n, loc := { space := .core w.core, addr := a - lwBase } }]
  else if inGlobal a && inGlobal last then
    (splitPages a n).mapM fun p => do
      let x ← translateFrom w k a p.1 p.2
      let s ← Op.ask id
      Op.need (!fillDenied s w k x) { cls := 6, info := BitVec.ofNat 64 x.low, write := k.w }
      pure x
  else prot

/-! ### The events of an access (R272, R294) -/

/-- The largest natural piece of at most 8 bytes at an address. -/
def naturalPiece (a n : Nat) : Nat :=
  if a % 8 = 0 && 8 ≤ n then 8 else if a % 4 = 0 && 4 ≤ n then 4 else if a % 2 = 0 && 2 ≤ n then 2 else 1

/-- The rest of a line at an address. -/
def lineRest (a n : Nat) : Nat := min n (64 - a % 64)

/-- Cuts [o, o + n) of a piece. -/
def cutPiece (step : Nat → Nat → Nat) (p : Piece) : (fuel o n : Nat) → List Piece
  | 0, _, _ => []
  | fuel + 1, o, n =>
    if n = 0 then []
    else
      let m := step (p.loc.addr + o) n
      { va := p.va + o, n := m, loc := { p.loc with addr := p.loc.addr + o }, refuse := p.refuse } :: cutPiece step p fuel (o + m) (n - m)

/-- The parts of a checked piece that are one event each: one for each line, or on a device page, for a vector or an
engine, natural pieces of at most 8 bytes. -/
def eventPieces (vec : Bool) (p : Piece) : List Piece :=
  cutPiece (if vec && p.loc.type == 2 then naturalPiece else lineRest) p p.n 0 p.n

/-- The events of one lane's access, in ascending address order. -/
def laneEvents (lane : Nat) (vec : Bool) : (off : Nat) → List Piece → List Ev
  | _, [] => []
  | off, p :: r =>
    (eventPieces vec p).map (fun q => { lane, off := off + (q.va - p.va), piece := q, base := p.low }) ++
      laneEvents lane vec (off + p.n) r

/-- The stash owns the line of a part, so that a write needs neither its home nor its link (R208). -/
def ownsLine (s : State) (w : Who) (unc : Bool) (p : Piece) (l : Loc) : Bool :=
  stashServes s w p.va l unc && (stashOwned (s.core w.core) p.va l).isSome

/-- Folds of a thread set to the line of a location that have not been placed: a read of its own comes after them (R274). -/
def ownFolds (s : State) (t : Option Nat) (l : Loc) : Bool :=
  match t with
  | none => false
  | some t =>
    let hit (f : Fold) : Bool := f.ts == t && sameLine (backing s f.loc false) l
    (s.core (coreOf t)).folds.any hit || s.fab.heldFolds.any hit

/-- A read of a part needs no home: live copies serve it, and no fold of the thread set has to be placed first. -/
def servedHere (s : State) (w : Who) (unc : Bool) (p : Piece) (l : Loc) : Bool :=
  !unc && allHeld s w p.va p.n l && !ownFolds s w.ts l

/-- A thread set's access to a device page waits while its earlier writes to device pages cannot reach the host (R272). -/
def deviceWaits (s : State) (t : Option Nat) (l : Loc) (write : Bool) : Bool :=
  l.type == 2 && !(write && l.hostSide) && s.msys.posted.any fun x => x.home.type == 2 && t.toList.any x.waits.contains

/-- An event of a thread set that needs the host waits while its port is down (R287, R432): a read-modify-write; a read that no
copy serves; a write that has to fetch a line. -/
def hostWaits (s : State) (w : Who) (unc atomic write : Bool) (p : Piece) : Bool :=
  let l := backing s p.loc false
  w.ts.isSome && !s.mgmt.hostUp && (deviceWaits s w.ts l write ||
    (l.hostSide &&
      if atomic then true
      else if l.nc && sliced w l unc then (ncFind s (dieOfCore w.core) l).isNone || (!write && ownFolds s w.ts l)
      else if write then !l.nc && stashServes s w p.va l unc && !ownsLine s w unc p l
      else l.nc || !servedHere s w unc p l))

/-- Whether an event can be performed, and else the class of its refusal: page not present once its peer has gone since its check
(R467), or what the exporter answers, once the copy that would have served it has expired (R461); it may wait there. -/
def reach (w : Who) (unc atomic write : Bool) (p : Piece) (low : Nat) : Op Nat := fun s =>
  if hostWaits s w unc atomic write p then .error (.peer hostPeer (BitVec.ofNat 64 low) write [])
  else
    match p.loc.space with
    | .peer q =>
      let here := if write then !atomic && ownsLine s w unc p p.loc else servedHere s w unc p p.loc
      match (s.peer? q).map Peer.link with
      | some .up => .ok (if here then 0 else p.refuse, s)
      | some (.retraining _) => if here then .ok (0, s) else .error (.peer q (BitVec.ofNat 64 low) write [])
      | _ => .ok (5, s)
    | _ => .ok (0, s)

/-- The read of one event; an uncorrectable word is a poison fault (R205, R276). -/
def readOne (w : Who) (hint : Hint) (e : Ev) : Op Nat := do
  let c ← reach w (hint == .unc) false false e.piece e.base
  Op.need (c = 0) { cls := c, info := BitVec.ofNat 64 e.base }
  let g ← fun s => .ok (readEvent w hint e.piece s)
  Op.need g.bad.isEmpty { cls := 9, info := BitVec.ofNat 64 e.base }
  pure g.val

/-- The write of one event; one toward a failed peer has no event (R467). -/
def writeOne (w : Who) (hint : Hint) (v : Nat) (e : Ev) : Op Nat := do
  let c ← reach w (hint == .unc) false true e.piece e.base
  if c = 0 then Op.upd (writeEvent w hint e.piece v) else pure ()
  pure 0

/-- The bytes read by an event join those of its lane. -/
def addGot (got : NMap Nat) (e : Ev) (v : Nat) : NMap Nat := got.set e.lane ((got.get? e.lane).getD 0 + 2 ^ (8 * e.off) * v)

/-- Performs events in order. -/
def runEvents (one : Ev → Op Nat) : List Ev → NMap Nat → Op (NMap Nat)
  | [], got => pure got
  | e :: r, got => do
    let v ← one e
    runEvents one r (addGot got e v)

/-- Performs events of an access in order; a wait names all that the access has to come. -/
def runNamed (one : Ev → Op Nat) (es todo : List Ev) (got : NMap Nat) : Op (NMap Nat) := fun s =>
  match runEvents one es got s with
  | .error (.peer p va write _) => .error (.peer p va write todo)
  | r => r

/-- The access of an instruction: checked when it begins, then performed event by event, one for each step while the step is
split, else all that are left; its last event ends the instruction. -/
def accessOp (i : Instr) (check : Op (List Ev)) (one : Ev → Op Nat) (fin : NMap Nat → State → State) : Op Unit := do
  let s ← Op.ask id
  let p : Part ← match s.me.part with
    | some p => pure p
    | none => do
      let es ← check
      pure { instr := i, todo := es }
  let got ← runNamed one (if s.split then p.todo.take 1 else p.todo) p.todo p.got
  let rest := if s.split then p.todo.drop 1 else []
  Op.upd fun s =>
    if rest.isEmpty then fin got (s.setMe { s.me with part := none })
    else s.setMe { s.me with part := some { p with todo := rest, got } }

/-- A load by the running thread set: `vec` for a vector. -/
def loadOp (i : Instr) (vec : Bool) (hint : Hint) (addr : Word) (n : Nat) (fin : Nat → State → State) : Op Unit := do
  let w ← Op.ask fun s => s.who s.cur
  accessOp i (do let ps ← checkAccess w (loadKind hint) addr n; pure (laneEvents 0 vec 0 ps)) (readOne w hint)
    fun got => fin ((got.get? 0).getD 0)

/-- A store by the running thread set. -/
def storeOp (i : Instr) (vec : Bool) (hint : Hint) (addr : Word) (n v : Nat) (fin : State → State) : Op Unit := do
  let w ← Op.ask fun s => s.who s.cur
  accessOp i (do let ps ← checkAccess w (storeKind hint) addr n; pure (laneEvents 0 vec 0 ps))
    (fun e => writeOne w hint (v / 2 ^ (8 * e.off)) e) fun _ => fin

/-- The events of checked pieces, for an access that is performed in one step. -/
def readAll (w : Who) (hint : Hint) (ps : List Piece) : Op Nat := do
  let got ← runEvents (readOne w hint) (laneEvents 0 true 0 ps) []
  pure ((got.get? 0).getD 0)

def writeAll (w : Who) (hint : Hint) (ps : List Piece) (v : Nat) : Op Unit := do
  let _ ← runEvents (fun e => writeOne w hint (v / 2 ^ (8 * e.off)) e) (laneEvents 0 true 0 ps) []
  pure ()

/-- A checked read of n bytes. -/
def memRead (w : Who) (hint : Hint) (addr : Word) (n : Nat) : Op Nat := do
  let ps ← checkAccess w (loadKind hint) addr n
  readAll w hint ps

/-- A checked write of n bytes. -/
def memWrite (w : Who) (hint : Hint) (addr : Word) (n v : Nat) : Op Unit := do
  let ps ← checkAccess w (storeKind hint) addr n
  writeAll w hint ps v

/-- A part meets an uncorrectable word, at its home or in the die's copy of its non-coherent line. -/
def uncorrectable (s : State) (w : Who) (p : Piece) : Bool :=
  let l := backing s p.loc false
  poisoned s l.space l.addr p.n ||
    match ncFind s (dieOfCore w.core) l with
    | some x => !(LineVal.get { data := 0, bad := x.bad.toNat } (l.addr % 64) p.n).bad.isEmpty
    | none => false

/-- An atomic that meets a poisoned word posts a poison fault (R276). -/
def needClean (w : Who) (ps : List Piece) : Op Unit := fun s =>
  match ps.find? (uncorrectable s w) with
  | some p => .error (.fault { cls := 9, info := BitVec.ofNat 64 p.low, write := true })
  | none => .ok ((), s)

/-- An atomic of n bytes on its checked piece; its old value. -/
def rmw (w : Who) (ps : List Piece) (f : Nat → Option Nat) : Op Nat :=
  match ps with
  | p :: _ => do
    let c ← reach w true true true p p.low
    Op.need (c = 0) { cls := c, info := BitVec.ofNat 64 p.low, write := true }
    fun s => .ok (rmwEvent w p f s)
  | [] => pure 0

/-! ### Fault messages (R367 to R371) -/

/-- `tsid`, `coreid` and `pkgid` (R101); a saved thread set keeps those of the core that it was taken from. -/
def tsidOf (s : State) (t : Nat) : Word :=
  BitVec.ofNat 64 (slotOf t * 65536 + (if (s.ts t).element then t % 8192 else (s.ts t).index % 65536))
def coreidOf (t : Nat) : Word := BitVec.ofNat 64 (coreOf t % 4096)
def pkgidOf (s : State) : Word := BitVec.ofNat 64 (s.mgmt.incarnation.toNat * 256 + s.mgmt.peerId.toNat)

/-- The first word of an instruction. -/
def firstWord (i : Instr) : IWord :=
  match i with
  | .illegalInstruction w => w
  | i => (encode i).headD 0

/-- The length of an instruction; an illegal word's by R69, and 4 for an unfetched one. -/
def lengthOf (i : Instr) : Nat :=
  match i with
  | .illegalInstruction w => lengthOfWord w
  | .instructionFetchFault => 4
  | i => i.len

/-- The header of a message (R368). -/
def faultHeader (t : ThreadSet) (source : Nat) (f : FaultInfo) : Nat :=
  f.cls + 256 * f.detail + 2 ^ 17 * bit01 f.malformed + 2 ^ 18 * bit01 f.unsupported + 2 ^ 19 * bit01 f.write +
    2 ^ 24 * source + 2 ^ 32 * (if t.element then t.eid.toNat % 2 ^ 32 else 0)

/-- A fault message without the repost mark (R367). -/
def faultMsg (s : State) (t source : Nat) (f : FaultInfo) (i : Instr) (pc : Word) (handle : BitVec 32) : BitVec 512 :=
  let x := s.ts t
  BitVec.ofNat 512 (joinFields [(8, faultHeader x source f), (8, pc.toNat), (4, (firstWord i).toNat), (4, lengthOf i),
    (8, f.info.toNat), (8, f.aux.toNat), (8, (tsidOf s t).toNat), (8, x.launchid.toNat), (4, handle.toNat),
    (4, (coreidOf t).toNat)])

/-- Adds a fault of thread set t to the outstanding faults, under a new handle: the count is that of the hardware thread
set, also for a saved image (R371). `pts` is the clock of the post. -/
def addFault (s : State) (t source : Nat) (f : FaultInfo) (i : Instr) (pc : Word) (cmd pts : Nat) : State × BitVec 32 :=
  let x := s.ts t
  let h := t % 16384
  let y := s.ts h
  let handle : BitVec 32 := y.faultSeq ++ BitVec.ofNat 16 (t % 8192)
  let s1 := s.setTs h { y with faultSeq := y.faultSeq + 1 }
  let r : FaultRec := { handle, ts := t, launch := x.launch, source, cls := f.cls, detail := f.detail,
                        msg := faultMsg s t source f i pc handle, instr := i, len := lengthOf i, cmd, pts }
  ({ s1 with faults := { s1.faults with recs := s1.faults.recs ++ [r] } }, handle)

/-! ### Posting a fault, and continuing after its reply (R138 to R140, R484) -/

/-- A service core that faults halts, and management reports it (R370, R430). -/
def haltService (s : State) (c : Nat) : State :=
  let s := { s with
    mgmt := { s.mgmt with svcHalt := true, interrupts := s.mgmt.interrupts + 1 }
    faults := { s.faults with deadSvc := c :: s.faults.deadSvc } }
  [0, 1, 2, 3].foldl (fun s i => let t := s.ts (4 * c + i); s.setTs (4 * c + i) { t with halted := true }) s

/-- The running thread set posts a fault at the instruction i and blocks on it: the post places its folds (R139, R274,
R372). The message enters a face later, by FAULT_POST. -/
def postFault (i : Instr) (f : FaultInfo) (s : State) : State :=
  if isService (coreOf s.cur) then haltService s (coreOf s.cur)
  else
    let s := placeFolds s s.cur scopeSys
    let r := addFault s s.cur 0 f i s.me.pc 0 s.me.pts
    let t := r.1.me
    r.1.setMe { t with status := .waitReply r.2.toNat, part := none }

/-- The registers that a SKIP reply with value x writes (R140, R246, R258, R353, R484); the lanes are those of the masks that
the instruction was issued with. -/
def skipWrites (i : Instr) (cls : Nat) (x : Word) (issued t : ThreadSet) : ThreadSet :=
  let bcast (w : Nat) : List LaneNew := List.replicate (256 / w) (some (x.toNat % 2 ^ w, false))
  let masked (k : KReg) (et : ElemTy) : List LaneNew :=
    (List.range et.lanes).map fun j => if active (issued.getK k) j then some (x.toNat % 2 ^ et.width, false) else none
  if cls = 1 || cls = 4 then t
  else
    match i with
    | .div d _ _ | .divu d _ _ | .rem d _ _ | .remu d _ _ | .trap d _ _ => t.setS d x
    | .ld sz _ d _ _ => if sz = .q then (t.setS d x).setS (regNext d) 0 else t.setS d x
    | .amo _ _ _ d _ _ _ | .cas _ _ d _ _ _ _ | .cwait d _ _ | .racq d _ _ | .rrel d _ _ | .rpeek d _ _
    | .spawn _ d _ _ | .barv _ d => t.setS d x
    | .cas2 _ d _ _ _ _ => (t.setS d x).setS (regNext d) 0
    | .vld sz _ d _ _ =>
      let w := match sz with | .b | .s8 => 8 | .h => 16 | .w => 32 | .d => 64
      t.setV d (writeLanes w (t.getV d) 127 (bcast w))
    | .vlds _ k et _ d _ _ _ | .vldx _ k et _ _ d _ _ _ | .vldb _ k et _ d _ _ =>
      t.setV d (writeLanes et.width (t.getV d) 127 (masked k et))
    | .mwld _ _ _ d _ | .mdrain _ _ _ _ _ _ d _ _ _ _ | .mstat _ d _ | .cpy _ d _ _ _ | .cpy2d _ d _ _ _
    | .cpyRs _ d _ _ _ | .cpyRd _ d _ _ _ | .cpyr _ _ _ d _ _ _ | .get _ _ _ d _ _ _ | .put _ _ _ d _ _ _
    | .stwb _ d _ _ | .stinv _ d _ _ | .pub _ d _ | .coll _ _ _ _ _ _ _ d _ _ _ _ => t.setS d x
    | _ => t

/-- RESUME of a thread set's own fault: it executes the instruction again, or, after a trap or breakpoint, the next one
(R140). -/
def resumeFault (s : State) (r : FaultRec) : State :=
  let t := s.ts r.ts
  let len := if r.cls = 3 || r.cls = 4 then r.len else 0
  s.setTs r.ts { t.past len with status := .running }

/-- SKIP of a thread set's own fault: the instruction ends without its effect (R140, R484). -/
def skipFault (s : State) (r : FaultRec) (x : Word) : State :=
  let t := skipWrites r.instr r.cls x (s.ts r.ts) (s.ts r.ts)
  s.setTs r.ts { t.past r.len with status := .running }

/-! ### Running an operation as an instruction -/

/-- Accesses that can wait in the router while their thread set goes on (R468); the thread set waits at any other. -/
def parkable : Instr → Bool
  | .ld .. | .st .. | .vld .. | .vst .. | .vlds .. | .vldx .. | .vstx .. | .vldb .. | .amo .. | .amof .. | .cas .. | .cas2 .. =>
    true
  | _ => false

/-- Loads: a fence never counts them (R287). -/
def isLoad : Instr → Bool
  | .ld .. | .vld .. | .vlds .. | .vldx .. | .vldb .. => true
  | _ => false

/-- A fold: it is no event when it issues (R293). -/
def isFold : Instr → Bool
  | .amof .. => true
  | _ => false

/-- Stores: they wait without their thread set (R468). -/
def isStore : Instr → Bool
  | .st .. | .vst .. | .vstx .. => true
  | _ => false

/-- An earlier access of a thread set waits in the router without a place in S: a later event of the thread set's waits for it
(R299). -/
def orderWaits (s : State) (t : Nat) : Bool := s.faults.writebacks.any fun w => w.ts == t && w.peer.isSome && !w.placed && !isFold w.instr

/-- An earlier access of a thread set waits in the router, or a placement of it for its link (R468): a release point of it
that covers every location is not reached, nor an arrival or a retirement (R302, R306, R307). -/
def waitsForPeer (s : State) (t : Nat) : Bool :=
  (s.faults.writebacks.any fun w => w.ts == t && w.peer.isSome) || s.fab.heldFolds.any fun f => f.ts == t

/-- An earlier `vst` or `vstx` of a thread set waits in the router, and may yet set a flag (R104). -/
def flagsToCome (s : State) (t : Nat) : Bool :=
  s.faults.writebacks.any fun w => w.ts == t && w.peer.isSome && !w.placed &&
    match w.instr with | .vst .. | .vstx .. => true | _ => false

/-- An access toward a peer, or the host, is outstanding for its thread set's fences, but for a load (R287). -/
def ThreadSet.awaits (x : ThreadSet) (i : Instr) (p : Nat) (inc : Option (BitVec 16)) : ThreadSet :=
  { x with toPeers := if isLoad i || p = hostPeer then x.toPeers else (p, inc) :: x.toPeers
           toHost := x.toHost || (p == hostPeer && !isLoad i) }

def addWriteback (s : State) (w : Writeback) : State :=
  { s with faults := { s.faults with writebacks := s.faults.writebacks ++ [w] } }

/-- The access of i waits in the router (R468): its destinations are pending, and its thread set goes on. -/
def parkAccess (i : Instr) (p : Nat) (va : Word) (todo : List Ev) (s : State) : State :=
  let t := s.me
  let u := usesOf i
  let w := s.who s.cur
  let wb : Writeback := { ts := s.cur, instr := i, snap := t, peer := some p, va, parts := todo.map Ev.piece, asid := w.asid, root := w.root }
  let y := (t.setPc (t.pc + BitVec.ofNat 64 (lengthOf i))).setPending (t.pendS ||| (u.ws &&& ~~~1#32)) (t.pendV ||| u.wv)
  addWriteback (s.setMe ({ y with part := none }.awaits i p ((s.peer? p).map Peer.incarnation))) wb

/-- A store whose events all go to one retraining peer takes its place in S at once (R296, R299): it needs nothing from there. -/
def storePlaceable (s : State) (i : Instr) (p : Nat) (todo : List Ev) : Bool :=
  isStore i && !todo.isEmpty && (s.peer? p).isSome &&
    todo.all fun e => e.piece.loc.space == .peer p && !stashServes s (s.who s.cur) e.piece.va e.piece.loc false

/-- The die's copies of the lines that a waiting store has written are dropped: no read returns its value before the peer has
acknowledged it (R310). -/
def dropWritten (die : Nat) (ps : List Piece) (s : State) : State :=
  { s with msys := { s.msys with copies := s.msys.copies.filter fun c => !(c.die == die && ps.any fun p => sameLine c.home p.loc) } }

/-- A store that waits for the acknowledgement of a retraining peer: its one event in S is its place (R296), after which its
thread set goes on; it is performed there with the link taken as up, and the accesses of others that need the home wait. -/
def placeStore (i : Instr) (len p : Nat) (va : Word) (todo : List Ev) (op : Op Unit) (s : State) : State :=
  match s.peer? p with
  | none => s
  | some x =>
    match op { s.setLink p .up with split := false } with
    | .ok (_, s') =>
      let w := s.who s.cur
      let wb : Writeback := { ts := s.cur, instr := i, snap := s.me, peer := some p, va, placed := true, parts := todo.map Ev.piece,
                              asid := w.asid, root := w.root }
      let s' := dropWritten (dieOfCore w.core) wb.parts ({ s' with split := s.split }.setLink p x.link)
      addWriteback (s'.advance len) wb
    | .error _ => parkAccess i p va todo s

/-- Ends an instruction by what its operation did: its effect and the advance of the pc, unless events of its access are
left; a posted fault; a wait for a peer; nothing; or a block. -/
def runOp (i : Instr) (len : Nat) (op : Op Unit) (s : State) : Out :=
  match op s with
  | .ok (_, s') => .next (if s'.me.part.isSome then s' else s'.advance len)
  | .error (.fault f) => .next (postFault i f s)
  | .error (.peer p va write todo) =>
    .next (if storePlaceable s i p todo then placeStore i len p va todo op s
      else if parkable i then parkAccess i p va todo s else s.setMe { s.me with status := .waitPeer i p va write })
  | .error .stall => .next s
  | .error (.block st) => .next (s.setMe { s.me with status := st })

/-- An X instruction whose predicate is false only takes its issue slot (R74). -/
def guarded (g : Guard) (len : Nat) (s : State) (k : Out) : Out :=
  if s.me.getP g.p != g.pn then k else .next (s.advance len)

end Sys2Proof.Machine
end

