-- ==== Sys2Proof/Machine/VectorInt.lean ====
section
/-! DEFINITION. The lane machinery of the vector unit (R149 to R151) and the meanings of the integer vector instructions
(R154), comparisons and selection (R159, R160). -/

namespace Sys2Proof.Machine

/-- What an instruction delivers in one lane: a pattern, its lost flag, and the flags of `fps`. -/
structure LaneRes where
  val : Nat
  flag : Bool := false
  fl : Flags := {}
  deriving DecidableEq, Repr

/-- The OR of the flags of the lanes. -/
def laneFlags : List (Option LaneRes) → Flags
  | [] => {}
  | some r :: rs => r.fl.or (laneFlags rs)
  | none :: rs => laneFlags rs

/-- Some written lane is flagged. -/
def anyFlag (ls : List (Option LaneRes)) : Bool :=
  ls.any fun r => match r with | some x => x.flag | none => false

/-- The bits of `fps` that flags set. -/
def fpsBits (f : Flags) : BitVec 6 := f.toWord.setWidth 6

/-- Writes the lanes of a vector destination, its rider, and `fps`: a flag that reaches an 8-bit destination sets LS
(R58 rule 4, R151). -/
def putLanes (t : ThreadSet) (d : Reg) (w : Nat) (rider8 : BitVec 8) (lanes : List (Option LaneRes)) : ThreadSet :=
  let f := laneFlags lanes
  let f := if w = 8 && anyFlag lanes then { f with ls := true } else f
  (t.setV d (writeLanes w (t.getV d) rider8 (lanes.map (Option.map fun r => (r.val, r.flag))))).raise (fpsBits f)

/-- A masked lane-by-lane operation into a destination of a type (R150). -/
def maskedLanes (t : ThreadSet) (k : KReg) (et : ElemTy) (f : Nat → LaneRes) : List (Option LaneRes) :=
  (List.range et.lanes).map fun j => if active (t.getK k) j then some (f j) else none

/-- A masked vector instruction whose 8-bit destination takes the rider of V[a] (R151). -/
def vecOp (g : Guard) (k : KReg) (et : ElemTy) (d a : Reg) (f : ThreadSet → Nat → LaneRes) (s : State) : Out :=
  guarded g 12 s (nextMe s (putLanes s.me d et.width (vRider (s.me.getV a)) (maskedLanes s.me k et (f s.me))) 12)

/-- Lane j of a register as an integer. -/
def ilane (et : ElemTy) (x : VWord) (j : Nat) : Int := intVal et (laneOf x et.width j)

/-- A two-operand integer lane operation; the result is wrapped, or clamped when it saturates. -/
def intOp2 (f : Int → Int → Int) (sat : Bool) (et : ElemTy) (a b : Reg) (t : ThreadSet) (j : Nat) : LaneRes :=
  let x := f (ilane et (t.getV a) j) (ilane et (t.getV b) j)
  { val := wrapInt et.width (if sat then satInt et x else x),
    flag := flagOf (t.getV a) et.width j || flagOf (t.getV b) et.width j }

/-- A one-operand integer lane operation. -/
def intOp1 (f : Int → Int) (sat : Bool) (et : ElemTy) (a : Reg) (t : ThreadSet) (j : Nat) : LaneRes :=
  let x := f (ilane et (t.getV a) j)
  { val := wrapInt et.width (if sat then satInt et x else x), flag := flagOf (t.getV a) et.width j }

/-- A bitwise lane operation. -/
def bitOp2 (f : Nat → Nat → Nat) (et : ElemTy) (a b : Reg) (t : ThreadSet) (j : Nat) : LaneRes :=
  { val := f (laneOf (t.getV a) et.width j) (laneOf (t.getV b) et.width j),
    flag := flagOf (t.getV a) et.width j || flagOf (t.getV b) et.width j }

/-- A lane shift: f of the lane's pattern and the amount (R154). -/
def shiftOp (f : Nat → Nat → Nat) (et : ElemTy) (a : Reg) (n : ShiftSrc) (t : ThreadSet) (j : Nat) : LaneRes :=
  let x := laneOf (t.getV a) et.width j
  match n with
  | .reg b =>
    { val := f x (laneOf (t.getV b) et.width j % et.width),
      flag := flagOf (t.getV a) et.width j || flagOf (t.getV b) et.width j }
  | .imm i => { val := f x i.val, flag := flagOf (t.getV a) et.width j }

def execVadd (g : Guard) (k : KReg) (et : ElemTy) (sat : Bool) (d a b : Reg) (s : State) : Out :=
  vecOp g k et d a (intOp2 (· + ·) sat et a b) s
def execVsub (g : Guard) (k : KReg) (et : ElemTy) (sat : Bool) (d a b : Reg) (s : State) : Out :=
  vecOp g k et d a (intOp2 (· - ·) sat et a b) s
def execVmul (g : Guard) (k : KReg) (et : ElemTy) (d a b : Reg) (s : State) : Out :=
  vecOp g k et d a (intOp2 (· * ·) false et a b) s
/-- The upper half of the exact product. -/
def execVmulh (g : Guard) (k : KReg) (et : ElemTy) (d a b : Reg) (s : State) : Out :=
  vecOp g k et d a (intOp2 (fun x y => x * y / 2 ^ et.width) false et a b) s
def execVmin (g : Guard) (k : KReg) (et : ElemTy) (d a b : Reg) (s : State) : Out :=
  vecOp g k et d a (intOp2 min false et a b) s
def execVmax (g : Guard) (k : KReg) (et : ElemTy) (d a b : Reg) (s : State) : Out :=
  vecOp g k et d a (intOp2 max false et a b) s
def execVabs (g : Guard) (k : KReg) (et : ElemTy) (sat : Bool) (d a : Reg) (s : State) : Out :=
  vecOp g k et d a (intOp1 (fun x => (x.natAbs : Int)) sat et a) s
def execVneg (g : Guard) (k : KReg) (et : ElemTy) (sat : Bool) (d a : Reg) (s : State) : Out :=
  vecOp g k et d a (intOp1 (fun x => -x) sat et a) s
def execVand (g : Guard) (k : KReg) (et : ElemTy) (d a b : Reg) (s : State) : Out :=
  vecOp g k et d a (bitOp2 Nat.land et a b) s
def execVor (g : Guard) (k : KReg) (et : ElemTy) (d a b : Reg) (s : State) : Out :=
  vecOp g k et d a (bitOp2 Nat.lor et a b) s
def execVxor (g : Guard) (k : KReg) (et : ElemTy) (d a b : Reg) (s : State) : Out :=
  vecOp g k et d a (bitOp2 Nat.xor et a b) s
def execVshl (g : Guard) (k : KReg) (et : ElemTy) (d a : Reg) (n : ShiftSrc) (s : State) : Out :=
  vecOp g k et d a (shiftOp (fun x m => x * 2 ^ m % 2 ^ et.width) et a n) s
def execVshr (g : Guard) (k : KReg) (et : ElemTy) (d a : Reg) (n : ShiftSrc) (s : State) : Out :=
  vecOp g k et d a (shiftOp (fun x m => x / 2 ^ m) et a n) s
/-- `vsra` reads its lanes with sign whatever the type. -/
def execVsra (g : Guard) (k : KReg) (et : ElemTy) (d a : Reg) (n : ShiftSrc) (s : State) : Out :=
  let sx (x : Nat) : Int := if x.testBit (et.width - 1) then (x : Int) - 2 ^ et.width else (x : Int)
  vecOp g k et d a (shiftOp (fun x m => wrapInt et.width (sx x / 2 ^ m)) et a n) s

/-! ### Comparison and selection -/

/-- The condition of `vcmp` on two integers (R159). -/
def intCond (c : VCond) (x y : Int) : Bool :=
  match c with
  | .eq => x == y
  | .ne => x != y
  | .lt => x < y
  | .le => x ≤ y
  | .gt => y < x
  | .ge => y ≤ x
  | .un | .ord => false

/-- Writes a mask: bit j for each active lane of a type where a test holds. -/
def maskWrite (t : ThreadSet) (k : KReg) (et : ElemTy) (d : KReg) (f : Nat → Bool × Flags) : ThreadSet :=
  let rs := (List.range et.lanes).map fun j => if active (t.getK k) j then f j else (false, {})
  (t.setK d (BitVec.ofNat 32 (joinBits (rs.map Prod.fst)))).raise
    (fpsBits (rs.foldl (fun a r => a.or r.2) {}))

def execVcmp (g : Guard) (k : KReg) (et : ElemTy) (c : VCond) (d : KReg) (a b : Reg) (s : State) : Out :=
  let t := s.me
  guarded g 12 s (nextMe s
    (maskWrite t k et d fun j => (intCond c (ilane et (t.getV a) j) (ilane et (t.getV b) j), {})) 12)

def execVfcmp (g : Guard) (k : KReg) (et : ElemTy) (c : VCond) (d : KReg) (a b : Reg) (s : State) : Out :=
  let t := s.me
  guarded g 12 s (nextMe s (maskWrite t k et d fun j =>
    (fmtOf et).compare c (laneOf (t.getV a) et.width j) (laneOf (t.getV b) et.width j)) 12)

/-- Every lane is written, bit for bit, with the flag of the lane it came from (R160). -/
def execVsel (g : Guard) (k : KReg) (et : ElemTy) (d a b : Reg) (s : State) : Out :=
  let t := s.me
  let lane (j : Nat) : Option LaneRes :=
    let x := if active (t.getK k) j then t.getV a else t.getV b
    some { val := laneOf x et.width j, flag := flagOf x et.width j }
  guarded g 12 s (nextMe s (putLanes t d et.width (vRider (t.getV a)) ((List.range et.lanes).map lane)) 12)

end Sys2Proof.Machine
end

