-- ==== Sys2Proof/Machine/LoadStore.lean ====
section
/-! DEFINITION. Meanings of the loads and stores (R215 to R217) and of gather, scatter, strided and broadcast access
(R218 to R220). -/

namespace Sys2Proof.Machine

/-- The value that a load writes to S[d] (R216). -/
def loadValue (sz : LdSize) (v : Nat) : Word :=
  match sz with
  | .bs => signExt8 v 8
  | .hs => signExt8 v 16
  | .ws => signExt8 v 32
  | _ => BitVec.ofNat 64 v
where
  signExt8 (v w : Nat) : Word := ((BitVec.ofNat 64 v).setWidth w).signExtend 64

/-- The thread set after a load (R216): `.q` writes a pair. -/
def loadRegs (sz : LdSize) (d : Reg) (v : Nat) (t : ThreadSet) : ThreadSet :=
  if sz = .q then (t.setS d (BitVec.ofNat 64 v)).setS (regNext d) (BitVec.ofNat 64 (v / 2 ^ 64))
  else t.setS d (loadValue sz v)

def execLd (sz : LdSize) (h : Hint) (d a : Reg) (disp : Imm 9) (s : State) : Out :=
  let i : Instr := .ld sz h d a disp
  runOp i (baseLen disp) (loadOp i false h (s.me.getS a + dispVal (ldBytes sz) disp) (ldBytes sz)
    fun v s => s.setMe (loadRegs sz d v s.me)) s

/-- The value that a store takes from its registers (R216). -/
def storeValue (sz : StSize) (d : Reg) (t : ThreadSet) : Nat :=
  if sz = .q then (t.getS d).toNat + 2 ^ 64 * (t.getS (regNext d)).toNat else (t.getS d).toNat

def execSt (sz : StSize) (h : Hint) (d a : Reg) (disp : Imm 9) (s : State) : Out :=
  let i : Instr := .st sz h d a disp
  runOp i (baseLen disp)
    (storeOp i false h (s.me.getS a + dispVal (stBytes sz) disp) (stBytes sz) (storeValue sz d s.me) id) s

/-- Bytes of a vector access (R217). -/
def vBytes (sz : VSize) : Nat := match sz with | .s8 => 33 | _ => 32

/-- The rider that a load of a size sets (R57). -/
def loadedVector (sz : VSize) (v : Nat) : VWord :=
  let data := BitVec.ofNat 256 v
  match sz with
  | .b => vMake 127 data
  | .s8 => vMake (BitVec.ofNat 8 (v / 2 ^ 256)) data
  | _ => vMake 0 data

def execVld (sz : VSize) (h : Hint) (d a : Reg) (disp : Imm 9) (s : State) : Out :=
  let i : Instr := .vld sz h d a disp
  runOp i (baseLen disp) (loadOp i true h (s.me.getS a + dispVal 32 disp) (vBytes sz)
    fun v s => s.setMe (s.me.setV d (loadedVector sz v))) s

/-- A flagged lane stored by a wide size leaves the rider's reach (R58 rule 4, R217). -/
def storeLs (sz : VSize) (x : VWord) : Bool :=
  match sz with
  | .b | .s8 => false
  | .d => (vRider x).extractLsb' 0 4 != 0
  | _ => vRider x != 0

def execVst (sz : VSize) (h : Hint) (d a : Reg) (disp : Imm 9) (s : State) : Out :=
  let x := s.me.getV d
  let i : Instr := .vst sz h d a disp
  runOp i (baseLen disp) (storeOp i true h (s.me.getS a + dispVal 32 disp) (vBytes sz) x.toNat
    fun s => s.setMe (s.me.raise (fpsBits { ls := storeLs sz x }))) s

/-! ### Gather, scatter, strided and broadcast -/

/-- Index of lane j (R218). -/
def laneIndex (t : ThreadSet) (b : Reg) (j : Nat) : Word :=
  (BitVec.ofNat 32 (laneOf (t.getV (b + Fin.ofNat 32 (j / 8))) 32 (j % 8))).signExtend 64

/-- The events of every active lane, checked in ascending lane order before any is performed (R220). -/
def laneAccesses (w : Who) (k : Kind) (n : Nat) (addrs : List (Nat × Word)) : Op (List Ev) := do
  let es ← addrs.mapM fun p => do
    let ps ← checkAccess w k p.2 n
    pure (laneEvents p.1 true 0 ps)
  pure es.flatten

/-- The active lanes with their addresses. -/
def activeAddrs (t : ThreadSet) (k : KReg) (et : ElemTy) (addr : Nat → Word) : List (Nat × Word) :=
  ((List.range et.lanes).filter fun j => active (t.getK k) j).map fun j => (j, addr j)

/-- A masked vector load from lane addresses (R219), lane by lane. A lane that fails R204 posts its fault before a lower lane that
would meet an uncorrectable word: DESIGN CHOICE, log entry 75. -/
def vectorLoad (i : Instr) (k : KReg) (et : ElemTy) (h : Hint) (d : Reg) (addr : Nat → Word) (s : State) : Op Unit :=
  let w := s.who s.cur
  accessOp i (laneAccesses w (loadKind h) et.bytes (activeAddrs s.me k et addr)) (readOne w h) fun got s =>
    let res (j : Nat) : Option LaneRes := (NMap.get? got j).map fun x => { val := x }
    s.setMe (putLanes s.me d et.width 127 ((List.range et.lanes).map res))

def execVlds (g : Guard) (k : KReg) (et : ElemTy) (h : Hint) (d a b : Reg) (disp : Imm 13) (s : State) : Out :=
  let t := s.me
  let i : Instr := .vlds g k et h d a b disp
  guarded g (extLen disp) s (runOp i (extLen disp)
    (vectorLoad i k et h d (fun j => t.getS a + immVal disp + BitVec.ofNat 64 j * t.getS b) s) s)

/-- Lane address of `vldx` and `vstx` (R219). -/
def indexedAddr (t : ThreadSet) (et : ElemTy) (sc : Bool) (a b : Reg) (disp : Imm 13) (j : Nat) : Word :=
  t.getS a + immVal disp + laneIndex t b j * BitVec.ofNat 64 (if sc then et.bytes else 1)

def execVldx (g : Guard) (k : KReg) (et : ElemTy) (h : Hint) (sc : Bool) (d a b : Reg) (disp : Imm 13) (s : State) :
    Out :=
  let i : Instr := .vldx g k et h sc d a b disp
  guarded g (extLen disp) s (runOp i (extLen disp) (vectorLoad i k et h d (indexedAddr s.me et sc a b disp) s) s)

def execVstx (g : Guard) (k : KReg) (et : ElemTy) (h : Hint) (sc : Bool) (d a b : Reg) (disp : Imm 13) (s : State) :
    Out :=
  let t := s.me
  let x := t.getV d
  let w := s.who s.cur
  let as := activeAddrs t k et (indexedAddr t et sc a b disp)
  let i : Instr := .vstx g k et h sc d a b disp
  -- the higher of two lanes that meet is final
  guarded g (extLen disp) s (runOp i (extLen disp) (accessOp i (laneAccesses w (storeKind h) et.bytes as)
    (fun e => writeOne w h (laneOf x et.width e.lane / 2 ^ (8 * e.off)) e) fun _ s =>
      s.setMe (s.me.raise (fpsBits { ls := as.any fun p => flagOf x et.width p.1 }))) s)

/-- One access serves every active lane. -/
def execVldb (g : Guard) (k : KReg) (et : ElemTy) (h : Hint) (d a : Reg) (disp : Imm 13) (s : State) : Out :=
  let t := s.me
  let i : Instr := .vldb g k et h d a disp
  let fin (v : Nat) (s : State) : State := s.setMe (putLanes s.me d et.width 127 (maskedLanes s.me k et fun _ => { val := v }))
  guarded g (extLen disp) s (runOp i (extLen disp)
    (if selected' t k et then loadOp i true h (t.getS a + immVal disp) et.bytes fin else Op.upd (fin 0)) s)
where
  selected' (t : ThreadSet) (k : KReg) (et : ElemTy) : Bool := (List.range et.lanes).any fun j => active (t.getK k) j

end Sys2Proof.Machine
end

