-- ==== Sys2Proof/Machine/Atomic.lean ====
section
/-! DEFINITION. Meanings of the atomics (R278 to R283) and of the synchronisation instructions (R284 to R291). -/

namespace Sys2Proof.Machine

/-- The checks of R279, in order; `supported` says whether a non-coherent host page can perform the function (R283). -/
def atomicPieces (w : Who) (k : Kind) (addr : Word) (n : Nat) (supported : Bool) : Op (List Piece) := do
  Op.need (addr.toNat % n = 0) { cls := 8, info := addr, write := true }
  let ps ← checkAccess w k addr n
  Op.need (supported || !ps.any fun p => p.loc.nc) { cls := 6, info := addr, write := true, unsupported := true }
  pure ps

/-- The new value of an `amo` (R280): old value and operand of w bits. -/
def amoNew (fn : AmoFn) (w old y : Nat) : Nat :=
  let sx (x : Nat) : Int := if x.testBit (w - 1) then (x : Int) - 2 ^ w else (x : Int)
  match fn with
  | .add => (old + y) % 2 ^ w
  | .and => old &&& y
  | .or => old ||| y
  | .xor => old ^^^ y
  | .min => if sx y < sx old then y else old
  | .max => if sx old < sx y then y else old
  | .minu => min old y
  | .maxu => max old y
  | .swap => y

/-- The functions of `amo` that a non-coherent host page performs (R283). -/
def amoOnHost : AmoFn → Bool
  | .add | .swap => true
  | _ => false

/-- Operand size of `amo` and `cas`. -/
def amoBytes (wide : Bool) : Nat := if wide then 8 else 4

/-- The old value as S[d] receives it (R279). -/
def amoResult (wide : Bool) (old : Nat) : Word :=
  if wide then BitVec.ofNat 64 old else (BitVec.ofNat 32 old).signExtend 64

def execAmo (g : Guard) (fn : AmoFn) (wide : Bool) (d a b : Reg) (disp : Imm 13) (s : State) : Out :=
  let t := s.me
  let n := amoBytes wide
  let w := s.who s.cur
  guarded g (extLen disp) s (runOp (.amo g fn wide d a b disp) (extLen disp) (do
    let ps ← atomicPieces w .rmw (t.getS a + immVal disp) n (amoOnHost fn)
    needClean w ps
    let old ← rmw w ps fun old => some (amoNew fn (8 * n) old ((t.getS b).toNat % 2 ^ (8 * n)))
    Op.upd fun s => s.setMe (s.me.setS d (amoResult wide old))) s)

def execCas (g : Guard) (wide : Bool) (d a b c : Reg) (disp : Imm 13) (s : State) : Out :=
  let t := s.me
  let n := amoBytes wide
  let w := s.who s.cur
  guarded g (extLen disp) s (runOp (.cas g wide d a b c disp) (extLen disp) (do
    let ps ← atomicPieces w .rmw (t.getS a + immVal disp) n true
    needClean w ps
    let old ← rmw w ps fun old =>
      if old = (t.getS b).toNat % 2 ^ (8 * n) then some ((t.getS c).toNat % 2 ^ (8 * n)) else none
    Op.upd fun s => s.setMe (s.me.setS d (amoResult wide old))) s)

/-- A register pair as a 128-bit number. -/
def pairVal (t : ThreadSet) (r : Reg) : Nat := (t.getS r).toNat + 2 ^ 64 * (t.getS (regNext r)).toNat

def execCas2 (g : Guard) (d a b c : Reg) (disp : Imm 13) (s : State) : Out :=
  let t := s.me
  let w := s.who s.cur
  guarded g (extLen disp) s (runOp (.cas2 g d a b c disp) (extLen disp) (do
    let ps ← atomicPieces w .rmw (t.getS a + immVal disp) 16 true
    needClean w ps
    let old ← rmw w ps fun old => if old = pairVal t b then some (pairVal t c) else none
    Op.upd fun s =>
      s.setMe ((s.me.setS d (BitVec.ofNat 64 old)).setS (regNext d) (BitVec.ofNat 64 (old / 2 ^ 64)))) s)

/-- Enters a folded operand into the core's fold buffer (R273). -/
def enterFold (w : Who) (t : Nat) (p : Piece) (fn : FoldFn) (et : ElemTy) (y : Nat) (s : State) : State :=
  let off := p.loc.addr % 64
  let l := lineLoc p.loc
  -- an entry for the line with another function or type is placed first
  let s := placeCore s w.core fun f => sameLine f.loc l && (f.fn != fn || f.et != et)
  let k := s.core w.core
  let pts := (s.ts t).pts
  let arrived := k.folds.any fun f => sameLine f.loc l && f.arrived
  if (k.folds.any fun f => sameLine f.loc l && f.ts == t) then
    let upd (f : Fold) : Fold :=
      if sameLine f.loc l && f.ts == t then
        { f with ops := f.ops.set off (match f.ops.get? off with | some x => foldStep fn et x y | none => y), pts }
      else f
    s.setCore w.core { k with folds := k.folds.map upd }
  else
    let new : Fold := { ts := t, line := p.va / 64 * 64, loc := l, scope := homeScope w.core l, fn, et,
                        ops := [(off, y)], arrived, launch := (s.ts t).launch, pts }
    -- a full buffer places its oldest entry first
    let s := match k.folds with
      | f :: r => if k.folds.length < 64 then s else placeFold (s.setCore w.core { k with folds := r }) f
      | [] => s
    let k := s.core w.core
    s.setCore w.core { k with folds := k.folds ++ [new] }

/-- An `amof` to the local window is applied at issue; one that meets an uncorrectable word there is discarded and recorded,
as a placement is. Any other enters the fold buffer and retires (R275, R281). -/
def foldIn (w : Who) (t : Nat) (ps : List Piece) (fn : FoldFn) (et : ElemTy) (y : Nat) (s : State) : State :=
  match ps with
  | [] => s
  | p :: _ =>
    match p.loc.space with
    | .core _ =>
      if poisoned s p.loc.space p.loc.addr p.n then errorLog s (dieOfCore w.core) 1 0 (s.ts t).launch p.va
      else (rmwEvent w p (fun x => some (foldStep fn et x y)) s).2
    | _ => notePeer (enterFold w t p fn et y s) (some t) p.loc

def execAmof (g : Guard) (fn : FoldFn) (et : ElemTy) (a b : Reg) (disp : Imm 13) (s : State) : Out :=
  let t := s.me
  let w := s.who s.cur
  guarded g (extLen disp) s (runOp (.amof g fn et a b disp) (extLen disp) (do
    let ps ← atomicPieces w { Kind.rmw with fold := true } (t.getS a + immVal disp) et.bytes (fn == .add && et.isInt)
    Op.upd (foldIn w s.cur ps fn et ((t.getS b).toNat % 2 ^ et.width))) s)

/-! ### Synchronisation -/

/-- Scopes by number (R11). -/
def scopeNum : Scope → Nat
  | .core => 1 | .cluster => 2 | .die => 3 | .pkg => 4 | .fab => 5 | .sys => 6

/-- The lowest-numbered peer of an outstanding access that has failed or changed its incarnation (R287). -/
def failedPeer (s : State) (l : List (Nat × Option (BitVec 16))) : Option Nat :=
  let bad := (l.filter fun e =>
    match s.peer? e.1 with
    | some p => p.link == .failed || some p.incarnation != e.2
    | none => true).map Prod.fst
  bad.foldl (fun m p => match m with | none => some p | some q => some (min p q)) none

/-- The lowest number of a list. -/
def leastOf (l : List Nat) : Option Nat := l.foldl (fun m p => match m with | none => some p | some q => some (min p q)) none

/-- The peer in whose memory a location lies. -/
def peerOf (l : Loc) : Option Nat := match l.space with | .peer p => some p | _ => none

/-- The peer is retraining. -/
def retrains (s : State) (p : Nat) : Bool :=
  match (s.peer? p).map Peer.link with | some (.retraining _) => true | _ => false

/-- The peer at which an access of an engine waits, or the host while its port is down (R287, R468). -/
def waitsAt (s : State) (l : Loc) : Option Nat :=
  match l.space with
  | .peer p => if retrains s p then some p else none
  | .host => if s.mgmt.hostUp then none else some hostPeer
  | _ => none

/-- Some access other than a load, of a thread set, waits for a retraining peer: the lowest such peer. Of engine commands only
the elements and the flag of a `put` count (R287). -/
def parkedPeer (s : State) (t : Nat) : Option Nat :=
  let ps := s.faults.writebacks.filterMap fun w => if w.ts = t && !isLoad w.instr then w.peer.filter (· != hostPeer) else none
  let fs := s.fab.heldFolds.filterMap fun f => if f.ts = t then peerOf f.loc else none
  let put (m : TCmd) : Bool := match m.instr with | .put .. => true | _ => false
  let qs := (s.core (coreOf t)).tq.filterMap fun m => if m.ts = t && !m.orphan && put m then m.stall.filter (retrains s) else none
  leastOf (ps ++ fs ++ qs)

/-- Something that a thread set has sent to host memory has not been acknowledged (R286, R287). -/
def hostPending (s : State) (t : Nat) : Bool :=
  (s.ts t).toHost || (s.msys.posted.any fun x => x.waits.contains t) ||
    s.fab.heldFolds.any fun f => f.ts == t && f.loc.space == .host

/-- The status word of a fence (R287). -/
def fenceWord (status peer : Nat) : Word := BitVec.ofNat 64 (status + 256 * peer)

/-- What a fence of thread set t writes now; none while it waits. `late` holds once it has waited 2 ms. -/
def fenceStatus (s : State) (t : Nat) (sc : Scope) (late : Bool) : Option Word :=
  let x := s.ts t
  if scopeNum sc ≤ 4 then some 0
  else
    match failedPeer s x.toPeers with
    | some p => some (fenceWord 1 p)
    | none =>
      match parkedPeer s t with
      | some p => if late then some (fenceWord 2 p) else none
      | none =>
        if sc = .sys && !s.mgmt.hostUp && hostPending s t then (if late then some (fenceWord 3 0) else none)
        else some 0

/-- A `fence.sys` that completes has brought its thread set's writes to host memory; what one reports with another status
may or may not be performed, each by itself (R286, R310). -/
def settleHost (s : State) (t : Nat) (complete : Bool) : State :=
  let s := settle (fun x => if x.waits.contains t then some complete else none) s
  let mine (f : Fold) : Bool := f.ts == t && f.loc.space == .host
  let fs := s.fab.heldFolds.filter mine
  let report (x : Posted) : Posted :=
    if x.waits.contains t then
      let rest := x.waits.filter (· != t)
      { x with waits := rest, reported := x.reported || rest.isEmpty }
    else x
  let s := { s with
    msys := { s.msys with posted := s.msys.posted.map report }
    fab := { s.fab with heldFolds := s.fab.heldFolds.filter fun f => !mine f } }
  fs.foldl (fun s f =>
    let c := s.pick
    if complete then performFold s f else if c.1 % 2 = 1 then performFold c.2 f else c.2) s

/-- Ends a fence with a status: the outstanding accesses of a `fab` or `sys` fence are settled (R287). -/
def endFence (s : State) (t : Nat) (sc : Scope) (d : Reg) (x : Word) : State :=
  let s := if sc = .sys then settleHost s t (s.mgmt.hostUp && x == 0) else s
  let y := (s.ts t).setS d x
  let y := { y.past 4 with status := .running }
  s.setTs t (if scopeNum sc ≤ 4 then y else
    { y with toPeers := [], toHost := if sc = .sys then false else y.toHost })

def execFence (sc : Scope) (d : Reg) (s : State) : Out :=
  let s := placeFolds s s.cur (scopeNum sc)
  match fenceStatus s s.cur sc false with
  | some x => .next (endFence s s.cur sc d x)
  | none => .next (s.setMe { s.me with status := .waitFence (.fence sc d) s.clk })

/-- `cwait` evaluated once (R288): the value seen, or a block until a wake. -/
def execCwait (d a b : Reg) (s : State) : Out :=
  let t := s.me
  runOp (.cwait d a b) 4 (do
    Op.need ((t.getS a).toNat % 8 = 0) { cls := 8, info := t.getS a }
    let v ← memRead (s.who s.cur) .unc (t.getS a) 8
    if v < (t.getS b).toNat then Op.stop (.block (.waitWake (.cwait d a b)))
    else Op.upd fun s => s.setMe { s.me.setS d (BitVec.ofNat 64 v) with status := .running }) s

/-- Some fold of a thread set waits for its link: an `amof`, or its placement. -/
def foldsHeld (s : State) (t : Nat) : Bool :=
  (s.fab.heldFolds.any fun f => f.ts == t) || s.faults.writebacks.any fun w => w.ts == t && w.peer.isSome &&
    match w.instr with | .amof .. => true | _ => false

/-- `fdrain` places every fold, and waits until each has been performed at its home, or its peer has failed (R289). -/
def execFdrain (s : State) : Out :=
  let s := placeFolds s s.cur scopeSys
  if foldsHeld s s.cur then .next (s.setMe { s.me with status := .waitFence .fdrain s.clk }) else .next (s.advance 4)

/-- Brings the line of a piece into the stash, if a map covers it, or into the die's slice, under the lease of the hint. The
clock of the thread set does not move: a prefetch is no access (R290). -/
def prefetch (w : Who) (h : Hint) (p : Piece) (s : State) : State :=
  let l := backing s p.loc false
  if l.type != 0 || h == Hint.unc || inWindow p.va || heldHere s w p.va l || hostWaits s w false false false p then s
  else
    let s := placeOwn s w.ts l
    let pts := s.ptsOf w
    let s :=
      if l.nc then (match ncFind s (dieOfCore w.core) l with
        | some _ => s
        | none => let x := ncFetch s w p.va l; ncMirror x.2 w p.va x.1 false)
      else if stashServes s w p.va l false then (if l.noRead then s else fillStash s w p.va l (h == .long))
      else (sliceRead s w p.va l (h == .long)).2
    s.setPts w pts

/-- `pf` changes no value and never faults: one that would fault is dropped (R290). -/
def execPf (h : Hint) (a : Reg) (s : State) : Out :=
  let w := s.who s.cur
  let s' := match checkAccess w (loadKind h) (s.me.getS a &&& ~~~63#64) 64 s with
    | .ok (ps, s1) => ps.foldl (fun s p => prefetch w h p s) s1
    | .error _ => s
  .next (s'.advance 4)

/-- A line meets [lo, hi) of a page. -/
def lineMeets (s : State) (page : Loc) (lo hi : Nat) (x : Loc) : Bool :=
  let b := backing s page false
  x.space == b.space && x.addr < b.addr + hi && b.addr + lo < x.addr + 64

/-- Sends the dirty lines of a die in [lo, hi) of a page to the host, for a thread set's fence; they stay, clean (R291). -/
def cleanLines (s : State) (die : Nat) (page : Loc) (lo hi t : Nat) : State :=
  s.msys.nc.foldl (fun s x =>
    if x.die = die && lineMeets s page lo hi x.home then ncSet (ncSend s x [t]) { x with dirty := 0 } else s) s

/-- The fences of a thread set wait, too, for the write-backs of these lines that the die has sent already, for a replacement
or for another thread set: each is in host memory before a later `fence.sys` of it completes (R286, R291, R309). -/
def joinWritebacks (s : State) (die : Nat) (page : Loc) (lo hi t : Nat) : State :=
  let join (x : Posted) : Posted :=
    if x.kind == .back && x.die == die && lineMeets s page lo hi x.home then
      { x with waits := if x.waits.contains t then x.waits else t :: x.waits, reported := false }
    else x
  { s with msys := { s.msys with posted := s.msys.posted.map join } }

def execCwb (a b : Reg) (s : State) : Out :=
  let w := s.who s.cur
  let va := (s.me.getS a).toNat
  let len := (s.me.getS b).toNat
  let s' := if !inGlobal va then s
    else match walkFrom w.asid va 0 false 4 0 w.root s with
    | .ok (e, s1) =>
      if bitsOf e.1 12 2 = 2 then
        let page := va / 2 ^ e.2 * 2 ^ e.2
        let pl : Loc := { space := .host, addr := bitsOf e.1 16 30 * 65536, nc := true,
                          cloak := if bitsOf e.1 15 1 = 1 then some (bitsOf e.1 56 8) else none }
        let lo := if len = 0 then va / 64 * 64 else va
        let hi := min (if len = 0 then lo + 64 else va + len) (page + 2 ^ e.2)
        let s2 := cleanLines (joinWritebacks s1 (dieOfCore w.core) pl (lo - page) (hi - page) s.cur) (dieOfCore w.core) pl
          (lo - page) (hi - page) s.cur
        -- the core's stash lines of the range stay, clean
        let k := s2.core w.core
        s2.setCore w.core { k with stash := k.stash.map fun x =>
          if x.line < hi && lo < x.line + 64 then { x with dirty := false } else x }
      else s1
    | .error _ => s
  .next (s'.advance 4)

end Sys2Proof.Machine
end

