-- ==== Sys2Proof/Machine/Leases.lean ====
section
/-! DEFINITION. Bandwidth leases: the two pools and their parties (R440 to R448), the meanings of `bwlease`, `bwrel` and
`bwq` (R449 to R454), and the lease events. -/

namespace Sys2Proof.Machine

/-- Clk of one microsecond (R102). -/
def clkPerUs : Nat := 1700

/-- Clk of one retune (R441). -/
def retuneClk : Nat := 3400

/-! ### Pools and parties (R444) -/

def leaseOf (s : State) (h : Nat) : Option Lease := s.fab.leases.find? fun l => l.handle.toNat == h

/-- The peer of a lease's handle. -/
def leasePeer (s : State) (h : Nat) : Option Nat := (leaseOf s h).map (·.peer)

def poolChan (s : State) (j : Nat) : PoolChan := s.fab.pool.toList.getD j {}

def setPoolChan (s : State) (j : Nat) (c : PoolChan) : State :=
  { s with fab := { s.fab with pool := s.fab.pool.setIfInBounds j c } }

/-- The pool channels that a test names. -/
def poolWhere (s : State) (p : PoolChan → Bool) : List Nat := (List.range 24).filter fun j => p (poolChan s j)

/-- A contested channel counts for its claimant. -/
def txParty (s : State) (c : PoolChan) : Option Nat :=
  match c.claim, c.lease with
  | some h, _ => leasePeer s h
  | none, some h => leasePeer s h
  | none, none => none

def txCount (s : State) (p : Nat) : Nat := (poolWhere s fun c => txParty s c == some p).length

/-- Channels that are a lease's or request's: it holds them, or awaits their receive channels. -/
def chansOf (s : State) (h : Nat) : List Nat := poolWhere s fun c => c.lease == some h

/-- The pool transmit channels that a request has claimed. -/
def claimedOf (s : State) (h : Nat) : List Nat := poolWhere s fun c => c.claim == some h

/-- The clk at which a lease gives a channel up. -/
def chanEnd (s : State) (c : PoolChan) : Nat :=
  if c.endsAt != 0 then c.endsAt else match c.lease.bind (leaseOf s) with | some l => l.ends | none => 0

/-- Channels that a lease or request holds: they have been delivered to it, and an active lease has not given them up. -/
def heldOf (s : State) (h : Nat) : List Nat :=
  let active := match leaseOf s h with | some l => l.active | none => false
  (chansOf s h).filter fun j => let c := poolChan s j; decide (c.rxAt ≤ s.clk) && (!active || decide (s.clk < chanEnd s c))

/-- A channel is being retuned (R441): one that a request awaits is not, until its receive channel is the request's. -/
def retuning (s : State) (c : PoolChan) : Bool := (c.retune.isSome && decide (c.rxAt ≤ s.clk)) || decide (s.clk < c.busy)

/-- The peer that a channel is tuned to, or is being retuned to. -/
def tunesTo (s : State) (c : PoolChan) : Option Nat :=
  if decide (c.rxAt ≤ s.clk) then (match c.lease.bind (leasePeer s) with | some p => some p | none => c.tuned) else c.tuned

def isFree (c : PoolChan) : Bool := c.lease.isNone && c.claim.isNone

/-- The free transmit channel for a peer: one tuned to it first (R441). -/
def freeTx (s : State) (peer : Nat) : Option Nat :=
  match poolWhere s fun c => isFree c && c.tuned == some peer with
  | j :: _ => some j
  | [] => (poolWhere s isFree).head?

/-- The better of two contested channels: the larger party, the lower peer, the earlier end. -/
def betterTx (s : State) (a b : Nat) : Nat :=
  let key (j : Nat) : Nat × Nat × Nat :=
    let c := poolChan s j
    let q := (txParty s c).getD 0
    (txCount s q, q, chanEnd s c)
  let x := key a
  let y := key b
  if y.1 < x.1 then a else if x.1 < y.1 then b
  else if x.2.1 < y.2.1 then a else if y.2.1 < x.2.1 then b
  else if x.2.2 ≤ y.2.2 then a else b

/-- The transmit channel that a request toward a peer may claim from another party. -/
def contestTx (s : State) (peer : Nat) : Option Nat :=
  let mine := txCount s peer
  match poolWhere s fun c => c.claim.isNone && (match c.lease.bind (leaseOf s) with
      | some l => l.active && l.peer != peer && mine + 2 ≤ txCount s l.peer
      | none => false) with
  | [] => none
  | j :: r => some (r.foldl (betterTx s) j)

def setPeer (s : State) (p : Peer) : State :=
  { s with fab := { s.fab with peers := s.fab.peers.map fun x => if x.id = p.id then p else x } }

/-! ### Receive pools (R444): of a peer, or, for none, of this package -/

def rxPool (s : State) (pool : Option Nat) : NMap RxChan :=
  match pool with
  | none => s.fab.rx
  | some p => match s.peer? p with | some x => x.rx | none => []

def rxChan (m : NMap RxChan) (i : Nat) : RxChan := (m.get? i).getD {}

def setRx (s : State) (pool : Option Nat) (i : Nat) (c : RxChan) : State :=
  match pool with
  | none => { s with fab := { s.fab with rx := s.fab.rx.set i c } }
  | some p => match s.peer? p with | some x => setPeer s { x with rx := x.rx.set i c } | none => s

def rxWhere (m : NMap RxChan) (p : RxChan → Bool) : List Nat := (List.range 24).filter fun i => p (rxChan m i)

/-- The sender that a channel counts for. -/
def RxChan.party (c : RxChan) : Option Nat := match c.claim with | some q => some q | none => c.holder

def rxCount (m : NMap RxChan) (q : Nat) : Nat := (rxWhere m fun c => c.party == some q).length

def RxChan.free (c : RxChan) : Bool := c.holder.isNone && c.claim.isNone

/-- The free receive channel for a sender: one that hears it first (R441). -/
def freeRx (m : NMap RxChan) (sender : Nat) : Option Nat :=
  match rxWhere m fun c => c.free && c.tuned == some sender with
  | i :: _ => some i
  | [] => (rxWhere m RxChan.free).head?

/-- The pool channel of this package that a peer's receive channel hears. -/
def rxHears (s : State) (peer i : Nat) : Option Nat :=
  (poolWhere s fun c => c.lease.bind (leasePeer s) == some peer && c.rx == i).head?

/-- The clk at which the lease that holds a peer's receive channel gives it up, where it is a lease of this package. -/
def rxEnd (s : State) (pool : Option Nat) (i : Nat) : Nat :=
  match pool.bind fun p => rxHears s p i with | some j => chanEnd s (poolChan s j) | none => 0

/-- The better of two contested receive channels: the larger party, the lower package, the earlier end. -/
def betterRx (s : State) (pool : Option Nat) (a b : Nat) : Nat :=
  let m := rxPool s pool
  let q (i : Nat) : Nat := (rxChan m i).holder.getD 0
  let n (i : Nat) : Nat := rxCount m (q i)
  if n b < n a then a else if n a < n b then b
  else if q a < q b then a else if q b < q a then b
  else if rxEnd s pool a ≤ rxEnd s pool b then a else b

/-- A receive channel of a pool is held by a lease that its holder has: one that a pending request of this package has is no
lease's yet (R444, R446). -/
def rxLeased (s : State) (pool : Option Nat) (i : Nat) : Bool :=
  let own := match pool.bind fun p => rxHears s p i with
    | some j => match (poolChan s j).lease.bind (leaseOf s) with | some l => l.active | none => false
    | none => false
  (rxChan (rxPool s pool) i).holder != some s.mgmt.peerId.toNat || own

/-- The receive channel that a sender may claim from a lease of another party. -/
def contestRx (s : State) (pool : Option Nat) (sender : Nat) : Option Nat :=
  let m := rxPool s pool
  match (rxWhere m fun c => c.claim.isNone && (match c.holder with
      | some q => q != sender && rxCount m sender + 2 ≤ rxCount m q
      | none => false)).filter (rxLeased s pool) with
  | [] => none
  | i :: r => some (r.foldl (betterRx s pool) i)

/-- This package as a sender. -/
def State.self (s : State) : Nat := s.mgmt.peerId.toNat

/-- A receive channel of a peer, free or contested: its number, the clk from which it is free for us, and the state with it
counted as ours. Another package's lease ends within 1 ms, at a time that is open (log entry 31). -/
def takeRx (s : State) (peer : Nat) : Option (Nat × Nat × State) :=
  let m := rxPool s (some peer)
  match freeRx m s.self with
  | some i => some (i, s.clk, setRx s (some peer) i { rxChan m i with holder := some s.self })
  | none =>
    (contestRx s (some peer) s.self).map fun i =>
      let c := s.pick
      (i, s.clk + c.1 % (1000 * clkPerUs + 1), setRx c.2 (some peer) i { rxChan m i with claim := some s.self })

/-- A receive channel of a peer has been delivered to us. -/
def ownRx (s : State) (peer i : Nat) : State :=
  let c := rxChan (rxPool s (some peer)) i
  setRx s (some peer) i { tuned := some s.self, holder := some s.self, claim := c.claim.filter (· != s.self) }

/-- A receive channel of a peer is no longer ours: a claim is withdrawn, so that its holder keeps it; one that is ours from
`rxAt` on is free, or its claimant's. -/
def dropRx (s : State) (peer i rxAt : Nat) : State :=
  let c := rxChan (rxPool s (some peer)) i
  if c.claim = some s.self && s.clk < rxAt then setRx s (some peer) i { c with claim := none }
  else setRx s (some peer) i { tuned := some s.self, holder := c.claim.filter (· != s.self) }

/-- A channel comes to a lease: once its receive channel does, it is retuned with it, unless both are tuned to each other and
free. -/
def giveChan (s : State) (j h peer i rxAt : Nat) : State :=
  let c := poolChan s j
  let heard := (rxChan (rxPool s (some peer)) i).tuned == some s.self
  let at' := max rxAt s.clk
  let ready := c.tuned == some peer && heard && c.retune.isNone && rxAt ≤ s.clk
  let busy := match c.retune with | some u => if s.clk < at' then u else 0 | none => 0
  let s := setPoolChan s j
    { tuned := c.tuned, lease := some h, rx := i, rxAt := at', retune := if ready then none else some (at' + retuneClk), busy }
  if ready then ownRx s peer i else s

/-- One free pair for a request. -/
def takeFree (s : State) (l : Lease) : Option State :=
  match freeTx s l.peer, freeRx (rxPool s (some l.peer)) s.self with
  | some j, some _ => (takeRx s l.peer).map fun r => giveChan r.2.2 j l.handle.toNat l.peer r.1 r.2.1
  | _, _ => none

/-- The request of a handle still takes channels: it has passed and not completed, and has fewer than it wants (R445). -/
def takesMore (s : State) (h : Nat) : Bool :=
  match leaseOf s h with
  | some l => l.passed && !l.closed && decide ((heldOf s h).length < l.want)
  | none => false

/-- Pending requests that have passed take free pairs that appear before they complete (R445), the older first. -/
def fillPending (s : State) : State :=
  s.fab.leases.foldl (fun s l => (List.range 24).foldl (fun s _ =>
    if takesMore s l.handle.toNat then (takeFree s l).getD s else s) s) s

/-- A lease gives up a channel: its claimant receives it, unless that has its count by now, or it is free and stays tuned (R441,
R445). One that was only awaited has not been retuned. -/
def releaseChan (s : State) (j : Nat) : State :=
  let c := poolChan s j
  let tuned := tunesTo s c
  let retune := if c.rxAt ≤ s.clk then c.retune else if s.clk < c.busy then some c.busy else none
  let s := match c.lease.bind (leasePeer s) with | some p => dropRx s p c.rx c.rxAt | none => s
  let s := setPoolChan s j { tuned, retune }
  match c.claim with
  | some h => match leasePeer s h with
    | some p => if takesMore s h then giveChan s j h p c.claimRx c.claimAt else dropRx s p c.claimRx c.claimAt
    | none => s
  | none => s

/-- Withdraws a claim of a request to a transmit channel (R447). -/
def dropClaim (s : State) (h j : Nat) : State :=
  let c := poolChan s j
  let s := match leasePeer s h with | some p => dropRx s p c.claimRx c.claimAt | none => s
  setPoolChan s j { poolChan s j with claim := none, claimRx := 0, claimAt := 0 }

/-- Withdraws the claims of a request: on transmit channels, and on receive channels not yet delivered (R447). -/
def dropClaims (s : State) (h : Nat) : State :=
  let s := (claimedOf s h).foldl (fun s j => dropClaim s h j) s
  ((chansOf s h).filter fun j => s.clk < (poolChan s j).rxAt).foldl releaseChan s

/-- The end of a lease or request: its claims and channels go, and its entry. -/
def endLease (s : State) (h : Nat) : State :=
  let s := dropClaims s h
  let s := (chansOf s h).foldl releaseChan s
  fillPending { s with fab := { s.fab with leases := s.fab.leases.filter fun l => l.handle.toNat != h } }

/-! ### Tokens (R451, R452) -/

def leaseToken (handle status count peer : Nat) : Word :=
  BitVec.ofNat 64 (handle * 2 ^ 32 + status * 2 ^ 16 + count * 2 ^ 8 + peer)

def setLease (s : State) (l : Lease) : State :=
  { s with fab := { s.fab with leases := s.fab.leases.map fun x => if x.handle = l.handle then l else x } }

/-- A request ends without a channel: its token carries a status, and handle and count 0. -/
def failRequest (s : State) (l : Lease) (status : Nat) : State :=
  let s := s.setTs l.ts ((s.ts l.ts).writeToken l.d (leaseToken 0 status 0 l.peer))
  endLease s l.handle.toNat

/-- Every lease of a peer that failed ends; a pending token carries status 5 (R446, R467). -/
def endPeerLeases (s : State) (peer : Nat) : State :=
  (s.fab.leases.filter fun l => l.peer == peer).foldl (fun s l =>
    if l.active then endLease s l.handle.toNat else failRequest s l 5) s

/-- Every lease of a launch ends with it; a pending token carries status 5 (R443, R446), unless its thread set has ended
(R112). -/
def endLaunchLeases (s : State) (n : Nat) : State :=
  (s.fab.leases.filter fun l => l.launch == n).foldl (fun s l =>
    if l.active then endLease s l.handle.toNat else failRequest s l 5) s

/-! ### The instructions -/

/-- Fields of R450. -/
def bwHandle (w : Word) : Nat := bitsOf w 32 32
def bwZero (w : Word) : Nat := bitsOf w 16 16
def bwCount (w : Word) : Nat := bitsOf w 8 8
def bwPeer (w : Word) : Nat := bitsOf w 0 8

/-- The peer is retraining or has failed. -/
def linkBad (s : State) (p : Nat) : Bool := match s.peer? p with | some x => x.link != .up | none => false

/-- The end of a lease: that of its last channel (R448). -/
def leaseEnd (s : State) (l : Lease) : Nat := (chansOf s l.handle.toNat).foldl (fun e j => max e (chanEnd s (poolChan s j))) l.ends

/-- A lease of this launch that has not ended: an active one ends when its time comes (R446). -/
def myLease (s : State) (h : Nat) : Option Lease :=
  match leaseOf s h with
  | some l => if l.launch = s.me.launch && (!l.active || decide (s.clk < leaseEnd s l)) then some l else none
  | none => none

/-- A channel of a lease that a request of this package, or another package, contests. -/
def contested (c : PoolChan) : Bool := c.claim.isSome || c.rxClaim.isSome

/-- The renewal of an active lease (R448): the channels kept, and the state. -/
def renewLease (s : State) (l : Lease) (k dur : Nat) : Nat × State :=
  let h := l.handle.toNat
  let own := (heldOf s h).filter fun j => !contested (poolChan s j)
  -- channels that an earlier renewal left behind are kept last
  let fresh := own.filter fun j => (poolChan s j).endsAt == 0
  let order := fresh ++ own.filter fun j => (poolChan s j).endsAt != 0
  let kept := order.take k
  let s := (heldOf s h).foldl (fun s j =>
    let c := poolChan s j
    setPoolChan s j { c with endsAt := if kept.contains j then 0 else chanEnd s c }) s
  (kept.length, if kept.isEmpty then s else setLease s { l with ends := s.clk + dur * clkPerUs, dur })

/-- A new request (R443, R445): its token comes when it completes. -/
def newLease (s : State) (d : Reg) (peer count dur : Nat) : State :=
  let h := if s.fab.nextHandle = 0 then 1 else s.fab.nextHandle
  let l : Lease := { handle := h, launch := s.me.launch, peer, want := count, dur, ts := s.cur, d }
  let s := s.setMe (s.me.pend d)
  { s with fab := { s.fab with leases := s.fab.leases ++ [l], nextHandle := h + 1 } }

/-- The status 3 of `bwlease` and `bwrel`: of the lease that the handle names, where it exists (R451). -/
def invalidToken (s : State) (h peer : Nat) : Word :=
  match if h = 0 then none else myLease s h with
  | some l => leaseToken h 3 (heldOf s h).length l.peer
  | none => leaseToken 0 3 0 peer

/-- `bwlease`: the first failing check decides the status (R452). -/
def execBwlease (d a b : Reg) (s : State) : Out :=
  let w := s.me.getS a
  let dur := (s.me.getS b).toNat
  let h := bwHandle w
  let count := bwCount w
  let peer := bwPeer w
  let fin (handle st n : Nat) (s : State) : Out := nextMe s (s.me.setS d (leaseToken handle st n peer)) 4
  let wrong := bwZero w != 0 || count = 0 || 24 < count || dur = 0 || 1000 < dur || (s.peer? peer).isNone
  let other := match myLease s h with | some l => l.peer != peer | none => false
  if wrong || (h != 0 && other) then nextMe s (s.me.setS d (invalidToken s h peer)) 4
  else if h = 0 then
    if linkBad s peer then fin 0 5 0 s
    else if 64 ≤ s.fab.leases.length then fin 0 4 0 s
    else .next ((newLease s d peer count dur).advance 4)
  else
    match myLease s h with
    | none => fin 0 6 0 s
    | some l =>
      if linkBad s peer then fin h 5 (heldOf s h).length s
      else if !l.active then fin h 7 0 s
      else
        let r := renewLease s l count dur
        fin h (if r.1 = count then 0 else if r.1 = 0 then 2 else 1) r.1 r.2

/-- The flits of this package that channels still carry. -/
def flitsOn (s : State) (js : List Nat) : List (Nat × List (BitVec 32)) :=
  (js.map fun j => (120 + j, match s.fab.chans.get? (120 + j) with | some c => c.unacked | none => [])).filter fun e => !e.2.isEmpty

/-- The status of a `bwrel` that has freed channels: it is written once they carry no more flits of this package; the register is
pending until then. -/
def finishRel (s : State) (d : Reg) (token : Word) (flits : List (Nat × List (BitVec 32))) : Out :=
  if flits.isEmpty then nextMe s (s.me.setS d token) 4
  else
    let s := s.setMe (s.me.pend d)
    let r : Release := { ts := s.cur, launch := s.me.launch, d, token, flits }
    .next ({ s with fab := { s.fab with rels := s.fab.rels ++ [r] } }.advance 4)

/-- `bwrel` frees contested channels first, then those that end first (R453). -/
def execBwrel (d a : Reg) (s : State) : Out :=
  let w := s.me.getS a
  let h := bwHandle w
  let fin (handle st n peer : Nat) (s : State) : Out := nextMe s (s.me.setS d (leaseToken handle st n peer)) 4
  if bwZero w != 0 || bwPeer w != 0 || 24 < bwCount w then nextMe s (s.me.setS d (invalidToken s h 0)) 4
  else
    match myLease s h with
    | none => fin 0 6 0 0 s
    | some l =>
      if !l.active then fin h 0 0 l.peer (failRequest s l 2)
      else
        let held := heldOf s h
        let n := if bwCount w = 0 then held.length else min (bwCount w) held.length
        if n = held.length then finishRel (endLease s h) d (leaseToken h 0 0 l.peer) (flitsOn s held)
        else
          let first := held.filter fun j => contested (poolChan s j)
          let rest := sortBy (fun x y => decide (chanEnd s (poolChan s x) ≤ chanEnd s (poolChan s y)))
            (held.filter fun j => !contested (poolChan s j))
          let freed := (first ++ rest).take n
          finishRel (fillPending (freed.foldl releaseChan s)) d (leaseToken h 0 (held.length - n) l.peer) (flitsOn s freed)

/-- The answer of `bwq` about a lease, with a status (R454). -/
def queryLease (s : State) (l : Lease) (st : Nat) : Word :=
  let held := heldOf s l.handle.toNat
  let us := if l.active then (leaseEnd s l - s.clk) / clkPerUs else 0
  BitVec.ofNat 64 (us * 2 ^ 48 + (held.filter fun j => contested (poolChan s j)).length * 2 ^ 40 +
    (held.filter fun j => retuning s (poolChan s j)).length * 2 ^ 32 + st * 2 ^ 24 + held.length * 2 ^ 8 + l.peer)

/-- The slot of a peer, seen from this package's position (R437). -/
def peerSlot (me p : Nat) : Option Nat :=
  if me = p then none
  else if me / 16 = p / 16 then some (if p % 16 < me % 16 then p % 16 else p % 16 - 1)
  else if me % 16 = p % 16 then some (15 + if p / 16 < me / 16 then p / 16 else p / 16 - 1)
  else none

/-- The peer that a transmit channel reaches: the floor of its slot's, or the one that a pool channel is tuned to (R440). -/
def chanPeer (s : State) (ch : Nat) : Option Nat :=
  if ch < 120 then (s.fab.peers.find? fun p => peerSlot s.self p.id == some (ch / 4)).map (·.id)
  else
    let c := poolChan s (ch - 120)
    if retuning s c then none else c.tuned.filter fun p => (s.peer? p).isSome

/-- A channel is in service (R442). -/
def chanUp (s : State) (ch : Nat) : Bool := match s.fab.chans.get? ch with | some c => !c.down | none => true

/-- The channels that carry traffic to a peer. -/
def channelsTo (s : State) (p : Nat) : List Nat := (List.range 144).filter fun ch => chanPeer s ch == some p && chanUp s ch

/-- The answer of `bwq` about a peer, with a status (R454). -/
def queryPeer (s : State) (p st : Nat) : Word :=
  BitVec.ofNat 64 ((poolWhere s isFree).length * 2 ^ 40 +
    (poolWhere s fun c => retuning s c && tunesTo s c == some p).length * 2 ^ 32 + st * 2 ^ 24 +
    (channelsTo s p).length * 2 ^ 8 + p)

/-- `bwq`. -/
def execBwq (d a : Reg) (s : State) : Out :=
  let w := s.me.getS a
  let h := bwHandle w
  let p := bwPeer w
  let fin (x : Word) : Out := nextMe s (s.me.setS d x) 4
  let bad := bwZero w != 0 || bwCount w != 0
  if h = 0 then fin (queryPeer s p (if bad || (s.peer? p).isNone then 3 else if linkBad s p then 5 else 0))
  else
    match myLease s h with
    | none => fin (BitVec.ofNat 64 ((if bad || p != 0 then 3 else 6) * 2 ^ 24))
    | some l => fin (queryLease s l (if bad || p != 0 then 3 else if l.active then 0 else 7))

/-! ### The events -/

/-- One claim of a first pass: a pair of channels, each free or contested (R444). -/
def claimPair (s : State) (l : Lease) : Option State :=
  let h := l.handle.toNat
  match takeRx s l.peer with
  | none => none
  | some (i, rxAt, s') =>
    match freeTx s l.peer with
    | some j => some (giveChan s' j h l.peer i rxAt)
    | none =>
      match contestTx s l.peer with
      | some j => some (setPoolChan s' j { poolChan s' j with claim := some h, claimRx := i, claimAt := rxAt })
      | none => none

/-- The claims of a first pass, up to the count that the request wants. -/
def claimPairs (l : Lease) : Nat → State → State
  | 0, s => s
  | n + 1, s => match claimPair s l with
    | some s' => claimPairs l n s'
    | none => s

/-- LEASE_FIRST_PASS of the i-th lease entry. -/
def execLeaseFirstPass (i : Nat) (s : State) : Out :=
  match s.fab.leases[i]? with
  | none => .next s
  | some l =>
    if l.active || l.passed then .next s
    else
      let h := l.handle.toNat
      let s := claimPairs l l.want s
      if (chansOf s h).isEmpty && (claimedOf s h).isEmpty then .next (failRequest s l 2)
      else .next (setLease s { l with passed := true })

/-- A request completes (R445): it holds its count, or all that it claimed has been delivered and no free pair remains. -/
def completes (s : State) (l : Lease) : Bool :=
  let h := l.handle.toNat
  let got := (heldOf s h).length
  l.passed && !l.closed &&
    (decide (l.want ≤ got) || ((claimedOf s h).isEmpty && got == (chansOf s h).length && (takeFree s l).isNone))

/-- The channels that a request keeps as it completes: the first delivered, up to its count. -/
def keptOf (s : State) (l : Lease) : List Nat :=
  (sortBy (fun x y => decide ((poolChan s x).rxAt ≤ (poolChan s y).rxAt)) (heldOf s l.handle.toNat)).take l.want

/-- A request completes: it withdraws what it still claims, and gives up what came to it beyond its count (R445, R447). -/
def closeRequest (s : State) (l : Lease) : State :=
  let kept := keptOf s l
  let s := setLease s { l with closed := true }
  let s := dropClaims s l.handle.toNat
  fillPending (((heldOf s l.handle.toNat).filter fun j => !kept.contains j).foldl releaseChan s)

/-- Every channel that a lease holds is tuned and carries traffic. -/
def heldReady (s : State) (h : Nat) : Bool := (heldOf s h).all fun j => (poolChan s j).retune.isNone && chanUp s (120 + j)

/-- The token of a completed request, once its channels are ready: the lease ends its duration after it (R445, R446). -/
def grantLease (s : State) (l : Lease) : State :=
  let h := l.handle.toNat
  let k := (heldOf s h).length
  if k = 0 then failRequest s l 2
  else if heldReady s h then
    let s := s.setTs l.ts ((s.ts l.ts).writeToken l.d (leaseToken h (if k = l.want then 0 else 1) k l.peer))
    setLease s { l with closed := true, active := true, ends := s.clk + l.dur * clkPerUs }
  else s

/-- LEASE_GRANT: pending requests take the free pairs there are; a request that completes keeps its channels and gives up the
others, and its token is written once every one of them is tuned and carries traffic. -/
def execLeaseGrant (i : Nat) (s : State) : Out :=
  let s := fillPending s
  match s.fab.leases[i]? with
  | none => .next s
  | some l =>
    if l.active then .next s
    else if completes s l then .next (grantLease (closeRequest s l) l)
    else if l.closed then .next (grantLease s l)
    else .next s

/-- LEASE_EXPIRY: channels whose time has come go; the lease ends with its last. -/
def execLeaseExpiry (i : Nat) (s : State) : Out :=
  match s.fab.leases[i]? with
  | none => .next s
  | some l =>
    let h := l.handle.toNat
    if !l.active then .next s
    else
      let due := (chansOf s h).filter fun j => chanEnd s (poolChan s j) ≤ s.clk
      if l.ends ≤ s.clk && due.length == (chansOf s h).length then .next (endLease s h)
      else .next (if due.isEmpty then s else fillPending (due.foldl releaseChan s))

end Sys2Proof.Machine
end

