-- ==== Sys2Proof/Machine/Launches.lean ====
section
/-! DEFINITION. The end of thread sets, tasks and launches: retirement (R246, R354), ABORT and KILL (R357, R378, R379), the
launch status (R380), and the completion of a launch (R350, R354). -/

namespace Sys2Proof.Machine

/-- Updates the launch of a number. -/
def State.updLaunch (s : State) (n : Nat) (f : Launch → Launch) : State :=
  match s.launch? n with
  | some l => s.setLaunch (f l)
  | none => s

/-- The launch's thread set that is its fault service, when its kernel says so (R370).
The fault byte 1 of an element kernel, which the entry table does not allow (R32) and R92 does not check, is read as
`service`: DESIGN CHOICE, log entry 64. -/
def Launch.handler? (l : Launch) : Option Nat :=
  match l.kernels with
  | k :: _ => if k.handler && !l.element then some k.hset else none
  | [] => none

/-- The launch has been ended: KILL, watchdog, graph error, no service, host or debugger (R380). -/
def Launch.killed (l : Launch) : Bool := 2 ≤ l.status

/-- Records a status; the highest one stays, and among equal ones the first (R380). -/
def Launch.record (l : Launch) (st code : Nat) : Launch := if l.status < st then { l with status := st, code2 := code } else l

/-! ### Groups (R243, R246) -/

/-- The rank of an index in a group. -/
def Group.rank? (g : Group) (index : Nat) : Option Nat :=
  if g.members.contains index then some (g.members.findIdx (· == index)) else none

/-- The arrival counts of the members that have not departed, by rank. -/
def Group.counts (g : Group) : List Nat :=
  ((List.range g.arrivals.length).filter fun r => !g.departed.contains r).map fun r => g.arrivals.getD r 0

/-- Completes every phase that each member that has not departed has passed. -/
def Group.settle (g : Group) : Group :=
  match g.counts with
  | [] => g
  | a :: r => { g with completed := max g.completed (r.foldl min a) }

/-- The first phase that never completes, and the rank of the lost member that breaks it; the lower rank of two. -/
def Group.broken (g : Group) : Option (Nat × Nat) :=
  g.lost.foldl (fun m r =>
    let a := g.arrivals.getD r 0
    match m with
    | none => some (a, r)
    | some (b, q) => if a < b || (a = b && r < q) then some (a, r) else m) none

/-- An index leaves its groups: it departs by `retire`, or is lost by ABORT. Either end raises the group's one clock, so later
returns and SKIPs follow it in S, though only arrivals and departures are acquired: DESIGN CHOICE, log entry 76. -/
def Launch.leave (l : Launch) (index pts : Nat) (lost : Bool) : Launch :=
  { l with groups := l.groups.map fun g =>
      match g.rank? index with
      | none => g
      | some r =>
        let g := { g with pts := max g.pts pts }
        (if lost then { g with lost := r :: g.lost } else { g with departed := r :: g.departed }).settle }

/-! ### Ends -/

/-- The messages of a launch that wait in its handler's face, or to enter it, are posted again (R373). Until its second entry
such a message cannot be answered: DESIGN CHOICE, log entry 97. -/
def repostFrom (s : State) (launch : Nat) (qf : List (BitVec 512)) : State :=
  { s with faults := { s.faults with recs := s.faults.recs.map fun r =>
      if r.launch = launch && qf.contains r.msg then { r with posted := false } else r } }

/-- The thread set's end follows a completion, and so does the first reader of the token's register (R303, R306). -/
def noteDone (t : ThreadSet) (d : Reg) (pts : Nat) : ThreadSet :=
  let later (m : NMap Nat) (k : Nat) : NMap Nat := m.set k (max pts ((m.get? k).getD 0))
  { t with acq := later (if d = 0 then t.acq else later t.acq d.val) 33 }

/-- The end of a thread set follows what a command of it did that writes no token to it any more (R306, R378). -/
def noteEnd (s : State) (t pts : Nat) : State := s.setTs t (noteDone (s.ts t) 0 pts)

/-- What a thread set had issued completes at its targets and no longer writes to it (R112); a command paused at its own
fault is abandoned (R378), and with its launch (`killed`) a collective that not every member has joined (R475). -/
def orphanOf (s : State) (t : Nat) (killed : Bool) : State :=
  let c := coreOf t
  let k := s.core c
  let dropped (m : Instance) : Bool := m.ts == t && (m.paused.isSome || (killed && !m.started))
  let lost := k.tq.filter fun m => m.ts == t && m.paused.isSome
  let gone : List Nat := lost.map (·.copy) ++ (s.coll.active.filter dropped).map (·.copy)
  let past := lost.map (·.pts) ++ (s.coll.active.filter dropped).map (·.pts) ++
    (s.msys.windows.filter fun w => gone.contains w.copy).map (·.pts)
  let matrix (m : MCmd) : MCmd := if m.ts = t then { m with orphan := true } else m
  let tile (m : TCmd) : TCmd := if m.ts = t then { m with orphan := true } else m
  let inst (m : Instance) : Instance := if m.ts = t then { m with orphan := true } else m
  let late (w : Writeback) : Writeback := if w.ts = t then { w with orphan := true } else w
  let s := s.setCore c { k with
    mq := k.mq.map matrix
    tq := (k.tq.filter fun m => !(m.ts == t && m.paused.isSome)).map tile }
  let s := past.foldl (fun s p => noteEnd s t p) s
  { s with
    msys := { s.msys with flight := s.msys.flight.filter fun c => !gone.contains c.copy }
    disp := { s.disp with spawns := s.disp.spawns.map fun x => if x.ts = t then { x with d := 0 } else x }
    coll := { s.coll with active := (s.coll.active.filter fun m => !dropped m).map inst }
    fab := { s.fab with
      leases := s.fab.leases.map fun x => if x.ts = t then { x with d := 0 } else x
      rels := s.fab.rels.map fun x => if x.ts = t then { x with d := 0 } else x }
    faults := { s.faults with
      recs := s.faults.recs.filter fun r => r.ts != t
      writebacks := (s.faults.writebacks.filter fun w => !(w.ts == t && w.peer.isNone)).map late } }

/-- The thread set is free; its fault count goes on (R371). -/
def freeTs (s : State) (t : Nat) : State := s.setTs t { faultSeq := (s.ts t).faultSeq }

/-- Some accepted engine command of a thread set has not completed. -/
def hasCommands (s : State) (t : Nat) : Bool :=
  let k := s.core (coreOf t)
  k.mq.any (fun m => m.ts == t) || k.tq.any (fun m => m.ts == t) || s.coll.active.any fun m => m.ts == t

/-- Some spawn of a thread set has not been answered. -/
def hasSpawns (s : State) (t : Nat) : Bool := s.disp.spawns.any fun x => x.ts == t

/-- A pass of a die of this package is due (R338). -/
def passDue (s : State) (die : Nat) : State :=
  if s.disp.passDue.contains die then s
  else { s with disp := { s.disp with passDue := s.disp.passDue ++ [die] } }

/-- The same for a partition: the dispatchers of other packages keep their own (R327). -/
def partitionDue (s : State) (pkg : Option Nat) (die : Nat) : State := if pkg.isNone then passDue s die else s

/-- The running task of a thread set is no longer running: mark, claims of the verifying mode, and a pass (R337, R338,
R349). -/
def endRunning (s : State) (n t : Nat) : State :=
  match s.launch? n with
  | none => s
  | some l =>
    match l.running.find? fun r => r.ts == some t with
    | none => s
    | some r =>
      let mine (c : Claimed) : Bool := c.task == r.elem && c.pos == r.pos
      let freed := l.claims.filter mine
      let p := (s.ts t).pts
      let s := s.setLaunch { l with
        running := l.running.filter fun x => x.ts != some t
        claims := l.claims.filter fun c => !mine c
        marks := l.marks.set r.elem (max p ((l.marks.get? r.elem).getD 0)) }
      let s := freed.foldl (fun s c => partitionDue s c.pkg c.die) s
      partitionDue s r.pkg r.die

/-- The packet of a completed launch: its error word and counter are written by PACKET_COMPLETION (R414). -/
def launchPacket (l : Launch) : Packet :=
  { queue := l.queue, kind := if l.element then 2 else 1, completion := l.completion, increment := l.increment,
    asid := l.asid, root := l.root, lower := l.lower, upper := l.upper, launch := some l.num,
    status := l.status, code := l.code2, ready := true }

/-- Releases the save areas that a test names (R379); their numbers are at least 4096. -/
def dropImages (s : State) (p : Image → Bool) : State :=
  let ns := ((s.disp.images.filter p).map (·.num)).filter (4096 ≤ ·)
  { s with
    cores := s.cores.filter fun e => !ns.contains e.1
    tsets := s.tsets.filter fun e => !ns.contains (coreOf e.1)
    disp := { s.disp with
      images := s.disp.images.filter fun x => !p x
      saved := s.disp.saved.filter fun e => !ns.contains e.2 } }

/-- The launch is released, with its save areas, and its packet completes: its outstanding faults become stale (R379). The
completion follows its events (R303). -/
def releaseLaunch (s : State) (l : Launch) : State :=
  let s := dropImages (endLaunchLeases s l.num) fun x => x.launch == l.num
  let s := { s with fab := { s.fab with rels := s.fab.rels.filter fun x => x.launch != l.num } }
  { s with
    msys := { s.msys with
      agent := max s.msys.agent l.ended
      windows := s.msys.windows.filter fun w => w.copy / 2 ^ 24 % 2 ^ 32 != l.num % 2 ^ 32 }
    disp := { s.disp with
      launches := s.disp.launches.filter fun x => x.num != l.num
      claims := s.disp.claims.filter fun c => c.launch != l.num
      spawns := s.disp.spawns.filter fun x => x.launch != l.num }
    front := { s.front with packets := s.front.packets ++ [launchPacket l] }
    faults := { s.faults with recs := s.faults.recs.filter fun r => r.launch != l.num } }

/-- Some thread set of the launch has not ended. -/
def launchBusy (s : State) (n : Nat) : Bool := s.tsets.any fun e => e.2.launch == n && e.2.status != .free

/-- Completes a launch once nothing of it is left (R350, R354, R378, R379). -/
def settleLaunch (s : State) (n : Nat) : State :=
  match s.launch? n with
  | none => s
  | some l =>
    let done :=
      if l.killed then !launchBusy s n
      else if l.element then l.g == 0
      else (List.range l.count).all fun i => l.retired.contains i
    if done then releaseLaunch s l else s

/-- The end of a thread set follows the completions of its commands (R303, R306). -/
def endClock (s : State) (t : Nat) : State :=
  let x := s.ts t
  s.setTs t { x with pts := max x.pts ((x.acq.get? 33).getD 0) }

/-- The end of a thread set or task whose commands have completed and whose folds are placed: a `retire` (`lost` false) or an
ABORT or KILL. -/
def endTs (s : State) (t : Nat) (lost : Bool) : State :=
  let s := endClock (orphanOf s t false) t
  let x := s.ts t
  match s.launch? x.launch with
  | none => freeTs s t
  | some l =>
    let s := if x.element then (endRunning s l.num t).updLaunch l.num fun l => { l with g := l.g - 1 }
      else
        let s := if l.handler? = some x.index then repostFrom s l.num x.qf else s
        s.updLaunch l.num fun l =>
          let l := if l.killed then l else l.leave x.index x.pts lost
          { l with retired := x.index :: l.retired }
    let s := s.updLaunch l.num fun l => { l with ended := max l.ended x.pts }
    settleLaunch (freeTs s t) l.num

/-- A thread set may end: its commands have completed, its spawns are answered, and no access or placement of it waits for a
link (R302, R306, R354 step 1). -/
def mayEnd (s : State) (t : Nat) : Bool := !hasCommands s t && !hasSpawns s t && !waitsForPeer s t

/-- Ends a thread set or task once what it had begun has completed and its folds have been placed; until then nothing more
happens (R354, R378). -/
def tryEnd (s : State) (t : Nat) (fin : State → State) : State :=
  if !mayEnd s t then s
  else
    let s := placeFolds s t scopeSys
    if waitsForPeer s t then s else fin s

/-- The rest of an ABORT or KILL. -/
def finishEnd (s : State) (t : Nat) : State :=
  match (s.ts t).status with
  | .ending code => tryEnd s t fun s =>
      endTs (s.updLaunch (s.ts t).launch fun l => if l.killed then l else l.record 1 code) t true
  | _ => s

/-- The begin of an end: its faces stay until its commands have used them (R378). -/
def beginEnd (s : State) (t code : Nat) (killed : Bool) : State :=
  let s := orphanOf s t killed
  s.setTs t { s.ts t with status := .ending code, part := none }

/-- ABORT (R378). -/
def abortTs (s : State) (t code : Nat) : State := finishEnd (beginEnd s t code false) t

/-- Ends of other thread sets that waited for a command which has now completed. -/
def finishEnds (s : State) : State :=
  (s.tsets.filter fun e => match e.2.status with | .ending _ => true | _ => false).foldl (fun s e => finishEnd s e.1) s

/-- The queue entry belongs to a launch. -/
def Entry.launch : Entry → Nat
  | .index l _ _ _ => l
  | .task l _ _ _ _ => l

/-- The thread sets that are placed for a resident launch and have not started. -/
def waitingTs (s : State) (n : Nat) : List Nat :=
  (s.disp.queues.flatMap Prod.snd).filterMap fun e => match e with | .index l _ _ t => if l = n then some t else none | .task .. => none

/-- The messages in the face of a free thread set are discarded (R378, R379). -/
def clearFace (s : State) (t : Nat) : State := s.setTs t { s.ts t with qf := [], qfPts := [] }

/-- KILL, and every other end of a launch, with its status (R379, R380): a handler that has not started keeps no message. -/
def killLaunch (s : State) (n st : Nat) : State :=
  match s.launch? n with
  | none => s
  | some l =>
    let l' : Launch := { l.record st 0 with
      pending := [], round := none, unreported := [], reports := [], claims := [], waiting := false,
      running := l.running.filter fun r => r.ts.isSome
      placed := l.placed.filter fun p => !(waitingTs s n).contains p.2 }
    let s := dropEntries ((waitingTs s n).foldl clearFace (s.setLaunch l')) n
    let ts := busyOf s n
    settleLaunch (ts.foldl finishEnd (ts.foldl killTs s)) n
where
  dropEntries (s : State) (n : Nat) : State :=
    { s with disp := { s.disp with
      queues := s.disp.queues.map fun q => (q.1, q.2.filter fun e => e.launch != n),
      spawns := s.disp.spawns.filter fun x => x.launch != n } }
  busyOf (s : State) (n : Nat) : List Nat :=
    (s.tsets.filter fun e => e.2.launch == n && e.2.status != Status.free).map Prod.fst
  killTs (s : State) (t : Nat) : State :=
    match (s.ts t).status with
    | .ending _ => orphanOf s t true
    | _ => beginEnd s t 0 true

end Sys2Proof.Machine
end

