-- ==== Sys2Proof/Machine/Queues.lean ====
section
/-! DEFINITION. Meanings of the queue instructions (R133 to R137) and of QUEUE_BLOCK_RELEASE. -/

namespace Sys2Proof.Machine

/-- What `qn` delivers after the last neighbour (R137). -/
def noNeighbour : Word := BitVec.allOnes 64

/-- The oldest identifier of `qn` and the face after the pop, which the dispatcher fills up again; an empty face
delivers the end value (R137). -/
def popQn (t : ThreadSet) : Word × ThreadSet :=
  match t.qn with
  | [] => (noNeighbour, t)
  | x :: r => (x, t.setQn (r ++ t.qnRest.take 1) (t.qnRest.drop 1))

/-- Blocks on a queue; nothing of the instruction has happened (R134). -/
def blockQueue (i : Instr) (s : State) : Out := .next (s.setMe { s.me with status := .waitQueue i })

/-- `qput qa, V[a]`. -/
def execQput (a : Reg) (s : State) : Out :=
  let t := s.me
  if t.qa.length < 16 then nextMe s { t.setQa (t.qa ++ [t.getV a]) with status := .running } 4
  else blockQueue (.qput a) s

def execQgetQr (d : Reg) (s : State) : Out :=
  let t := s.me
  match t.qr with
  | x :: r => nextMe s { (t.setV d x).setQr r with status := .running } 4
  | [] => blockQueue (.qgetQr d) s

/-- A pop of `qn` completes at once: the dispatcher's filling has kept up (R137). -/
def execQgetQn (d : Reg) (s : State) : Out :=
  let r := popQn s.me
  nextMe s { r.2.setS d r.1 with status := .running } 4

def execQtryQa (b : PReg) (a : Reg) (s : State) : Out :=
  let t := s.me
  if t.qa.length < 16 then nextMe s ((t.setQa (t.qa ++ [t.getV a])).setP b true) 4
  else nextMe s (t.setP b false) 4

def execQtryQr (b : PReg) (d : Reg) (s : State) : Out :=
  let t := s.me
  match t.qr with
  | x :: r => nextMe s (((t.setV d x).setQr r).setP b true) 4
  | [] => nextMe s (t.setP b false) 4

/-- `qtry qn`: while neighbours are still to come, whether the dispatcher has already entered the next one is open. -/
def execQtryQn (b : PReg) (d : Reg) (s : State) : Out :=
  let t := s.me
  if t.qn.isEmpty then nextMe s ((t.setS d noNeighbour).setP b true) 4
  else
    let c := s.pick
    if c.1 % 2 = 0 then
      let r := popQn t
      nextMe c.2 ((r.2.setS d r.1).setP b true) 4
    else nextMe c.2 (t.setP b false) 4

/-- `qtry qf` tests for a fault message and removes nothing (R135). -/
def execQtryQf (b : PReg) (s : State) : Out := nextMe s (s.me.setP b (!s.me.qf.isEmpty)) 4

/-- Runs a meaning as thread set t, and gives `cur` back. -/
def asTs (t : Nat) (k : State → Out) (s : State) : Out :=
  match k { s with cur := t } with
  | .next s' => .next { s' with cur := s.cur }
  | .fault r => .fault r
  | .refused r => .refused r

/-- Thread set t can go on with what it waits for: it is neither halted nor in a saved image (R384, R390). -/
def canGoOn (s : State) (t : Nat) : Bool := !(s.ts t).halted && coreOf t < 4096

end Sys2Proof.Machine
end

