-- ==== Sys2Proof/Machine/FaultService.lean ====
section
/-! DEFINITION. Meanings of `fget` and `freply`, the replies, and the FAULT_POST event (R366 to R380). -/

namespace Sys2Proof.Machine

/-! ### Who serves faults (R370, R374, R382) -/

/-- The service thread set of a die, when enabled and not halted on a fault of its own (R430). -/
def serviceOf (s : State) (die : Nat) : Option Nat :=
  let f := (s.dieSvc die).fsvc
  let core := 2048 + 256 * die + f.toNat / 4 % 2
  if f.getLsbD 3 && !s.faults.deadSvc.contains core then some (core * 4 + f.toNat % 4) else none

/-- Thread set t is its die's service thread set. -/
def isServiceTs (s : State) (t : Nat) : Bool := isService (coreOf t) && serviceOf s (dieOfCore (coreOf t)) == some t

/-- Thread set t is the handler of its launch. -/
def isHandlerTs (s : State) (t : Nat) : Bool :=
  let x := s.ts t
  match s.launchOf t with
  | some l => !isService (coreOf t) && !x.element && x.status != .free && l.handler? == some x.index
  | none => false

/-- The thread set that runs an index of a resident launch. -/
def Launch.tsOf (l : Launch) (index : Nat) : Option Nat := l.placed.find? (fun p => p.1 == index) |>.map Prod.snd

/-- Where a fault goes: a thread set, and whether the message is marked repost (R370, R373). -/
def routeFault (s : State) (r : FaultRec) : Option (Nat × Bool) :=
  let svc := serviceOf s (dieOfCore (coreOf r.ts))
  match s.launch? r.launch with
  | none => svc.map fun t => (t, false)
  | some l =>
    match l.handler? with
    | none => svc.map fun t => (t, false)
    | some h =>
      if l.retired.contains h then svc.map fun t => (t, true)
      else
        match l.tsOf h with
        | some t => if t = r.ts then svc.map fun t => (t, false) else some (t, false)
        | none => svc.map fun t => (t, true)

/-- A message with its repost mark set (R368). -/
def markRepost (m : BitVec 512) (on : Bool) : BitVec 512 := if on then m ||| BitVec.ofNat 512 (2 ^ 16) else m

/-- The i-th outstanding fault enters a face, in its poster's order, when there is room (R372); without a service it ends
the launch (R370). The post of a thread set is a release point, so it waits while a placement of it does (R302).
A thread set's own fault and the faults an engine posts for its commands keep one posting order: DESIGN CHOICE, log entry
93. -/
def postMessage (s : State) (i : Nat) : State :=
  match s.faults.recs[i]? with
  | none => s
  | some r =>
    if r.posted || ((s.faults.recs.take i).any fun q => q.ts == r.ts && !q.posted) || (r.source == 0 && waitsForPeer s r.ts)
    then s
    else
      match routeFault s r with
      | none => killLaunch s r.launch 5
      | some (t, repost) =>
        let x := s.ts t
        if 16 ≤ x.qf.length then s
        else
          let m := markRepost r.msg repost
          -- the post of a thread set follows all that it had to wait for
          let pts := if r.source = 0 then max r.pts (s.ts r.ts).pts else r.pts
          let s := s.setTs t { x with qf := x.qf ++ [m], qfPts := x.qfPts ++ [pts] }
          { s with faults := { s.faults with recs := s.faults.recs.set i { r with posted := true, msg := m, pts } } }

def execFaultPost (i : Nat) (s : State) : Out := .next (postMessage s i)

/-- `fget`: waits for a message, and takes it into a register pair with riders 0 (R375); it follows the post (R307). -/
def execFget (d : Reg) (s : State) : Out :=
  let t := s.me
  if !(isServiceTs s s.cur || isHandlerTs s s.cur) then .next (postFault (.fget d) { cls := 1 } s)
  else
    match t.qf with
    | [] => blockQueue (.fget d) s
    | m :: r =>
      let t := (t.setV d (vMake 0 (m.extractLsb' 0 256))).setV (regNext d) (vMake 0 (m.extractLsb' 256 256))
      nextMe s { t with qf := r, qfPts := t.qfPts.drop 1, status := .running, pts := max t.pts (t.qfPts.headD 0) } 4

/-! ### Replies (R140, R224, R246, R258, R353, R376 to R379, R484) -/

/-- Clock of the arrivals and departures of the group in which a wait of thread set t faulted: the fault names it in aux
(R369). -/
def groupClock (s : State) (r : FaultRec) : Nat :=
  let id := (r.msg.extractLsb' 256 8).toNat
  match s.launchOf r.ts with
  | some l => match l.groups.find? fun g => g.id % 256 == id with | some g => g.pts | none => 0
  | none => 0

/-- SKIP of a broken wait: it ends as if the phase had completed, an acquire of the arrivals that took place (R246). -/
def skipWait (s : State) (r : FaultRec) : State :=
  let t := s.ts r.ts
  s.setTs r.ts { t.past r.len with status := .running, pts := max t.pts (groupClock s r) }

/-- The group wait of R246 that a reply acts on after the arrival of `bar`. -/
def replyWait (s : State) (r : FaultRec) (phase : Nat) (skip : Bool) : State :=
  let t := s.ts r.ts
  if skip then skipWait s r
  else
    match r.instr with
    | .bar g => s.setTs r.ts { t with status := .waitPhase g.val phase }
    | _ => s.setTs r.ts { t with status := .running }

/-- A command that goes on after the reply to its fault, or ends with a token. -/
def TCmd.reply (m : TCmd) (pts : Nat) (skip : Bool) (x : Word) : TCmd :=
  let m := { m with paused := none, pts := max m.pts pts }
  if skip then { m with skipped := true, finished := true, token := x } else m

def Instance.reply (m : Instance) (skip : Bool) (x : Word) : Instance :=
  if skip then { m with paused := none, finished := true, token := x } else { m with paused := none }

/-- RESUME or SKIP of an engine fault: the command goes on from its chunk, or ends there with token x (R224, R478). -/
def replyEngine (s : State) (r : FaultRec) (skip : Bool) (x : Word) : State :=
  let c := coreOf r.ts
  let k := s.core c
  let tile (m : TCmd) : TCmd := if m.id = r.cmd && m.ts = r.ts then m.reply r.pts skip x else m
  let inst (m : Instance) : Instance := if m.cmd = r.cmd && m.ts = r.ts then m.reply skip x else m
  if r.source = 1 then s.setCore c (({ k with tq := k.tq.map tile } : Core).touchCmd r.cmd)
  else { s with coll := { s.coll with active := s.coll.active.map inst } }

/-- RESUME or SKIP of an access that waited for a peer: it is tried again, or the destinations that it would have written
receive x. The thread set goes on once every such fault of it has been answered. -/
def replyLate (s : State) (r : FaultRec) (w : Writeback) (skip : Bool) (x : Word) : State :=
  let t := s.ts r.ts
  let next : Status := match s.faults.recs.find? fun q => q.ts == r.ts && q.late.isSome with
    | some q => .waitReply q.handle.toNat
    | none => .running
  let t := if t.status == .waitReply r.handle.toNat then { t with status := next } else t
  if skip then
    let u := usesOf w.instr
    let y := skipWrites w.instr r.cls x w.snap t
    s.setTs r.ts (y.setPending (t.pendS &&& ~~~u.ws) (t.pendV &&& ~~~u.wv))
  else
    let s := s.setTs r.ts t
    let again : Writeback := { w with snap := { w.snap with part := none } }
    { s with faults := { s.faults with writebacks := s.faults.writebacks ++ [again] } }

/-- Applies a reply: action, value, code. The thread set's next event follows it (R307). -/
def applyReply (s : State) (r : FaultRec) (action : Nat) (x : Word) (code : Nat) : State :=
  let s := { s with faults := { s.faults with recs := s.faults.recs.filter fun q => q.handle != r.handle } }
  let t := s.ts r.ts
  let s := if r.source = 0 then s.setTs r.ts { t with pts := max t.pts r.pts } else s
  if action = 3 then killLaunch s r.launch 2
  else if action = 2 then abortTs s r.ts code
  else if r.source != 0 then replyEngine s r (action = 1) x
  else
    match r.dest, r.late with
    | some p, _ => replyWait s r p (action = 1)
    | none, some w => replyLate s r w (action = 1) x
    | none, none =>
      if action = 1 then
        if r.cls = 12 && r.detail = 3 then skipWait s r else skipFault s r x
      else resumeFault s r

/-- The reply event, of a service with a clock; one to a thread set whose core is pre-empted is held until it resumes
(R384). -/
def deliver (s : State) (r : FaultRec) (pts action : Nat) (x : Word) (code : Nat) : State :=
  let r' := { r with pts }
  if coreOf r.ts < 4096 then applyReply s r' action x code
  else
    let hold (q : FaultRec) : FaultRec := if q.handle = r.handle then { r' with held := some (action, x, code) } else q
    { s with faults := { s.faults with recs := s.faults.recs.map hold } }

/-- The handle is outstanding, and this thread set may answer it (R377). The handle of a message that is posted again after its
handler's end is stale until the message has entered its second face: DESIGN CHOICE, log entry 97. -/
def answerable (s : State) (t : Nat) (handle : BitVec 32) : Option FaultRec :=
  match s.faults.recs.find? fun r => r.handle == handle && r.posted && r.held.isNone with
  | none => none
  | some r =>
    let mine := if isServiceTs s t then dieOfCore (coreOf r.ts) == dieOfCore (coreOf t)
      else r.launch == (s.ts t).launch
    if mine then some r else none

/-- `freply` places its folds and waits for them as `fdrain` does, then delivers (R377). -/
def execFreply (d a b : Reg) (s : State) : Out :=
  if !(isServiceTs s s.cur || isHandlerTs s s.cur) then .next (postFault (.freply d a b) { cls := 1 } s)
  else
    let w := s.me.getS a
    let x := s.me.getS b
    let s := placeFolds s s.cur scopeSys
    let fin (s : State) (st : Nat) : State := s.setMe (s.me.setS d (BitVec.ofNat 64 st))
    if waitsForPeer s s.cur then .next s
    else if bitsOf w 34 14 != 0 then .next ((fin s 2).advance 4)
    else
      match answerable s s.cur (w.setWidth 32) with
      | none => .next ((fin s 1).advance 4)
      | some r => .next (deliver ((fin s 0).advance 4) r s.me.pts (bitsOf w 32 2) x (bitsOf w 48 16))

end Sys2Proof.Machine
end

