-- ==== Sys2Proof/Machine/Engine.lean ====
section
/-! DEFINITION. What the tile engine, the bulk copy engines and the collective unit share: engine reads and writes, cloak
linings, updates of reducing copies, chunk identifiers, and the posting of engine faults (R94, R214, R223, R224, R226,
R391, R392). -/

namespace Sys2Proof.Machine

/-- The events of an engine access of checked pieces. -/
def engineEvents (ps : List Piece) : List Ev := laneEvents 0 true 0 ps

/-- An engine read: the value of the pieces, and the offsets of bytes in uncorrectable words (R223). -/
def engineRead (w : Who) (ps : List Piece) (s : State) : Got × State :=
  (engineEvents ps).foldl (fun r e =>
    let g := readEvent w .norm e.piece r.2
    ({ val := r.1.val + 2 ^ (8 * e.off) * g.1.val, bad := r.1.bad ++ g.1.bad.map (e.off + ·) }, g.2)) ({ val := 0 }, s)

/-- Marks words of the last write to a line that is on its way to host memory. -/
def markPost (l : Loc) (words : List Nat) : List Posted → List Posted
  | [] => []
  | x :: r =>
    if sameLine x.home l && !r.any fun y => sameLine y.home l then
      { x with bad := x.bad ||| BitVec.ofNat 8 (joinBits ((List.range 8).map fun i => words.contains (x.home.addr + 8 * i))) } :: r
    else x :: markPost l words r

/-- Marks bytes of a piece that has been written uncorrectable, where the write has put them: in the die's copy of a
non-coherent line, in a write on its way to the host, or at the home, and in the slot of a stash line; other copies are no
longer used. -/
def markBad (w : Who) (p : Piece) (bad : List Nat) (s : State) : State :=
  let l := backing s p.loc p.loc.cloak.isSome
  let words := (bad.map fun i => (l.addr + i) / 8 * 8).eraseDups
  let slot (k : Core) : List Nat :=
    match stashLine k p.va, mapFor k p.va with
    | some x, some m => if x.home == lineLoc l then words.map fun a => slotOff m p.va + a % 64 else []
    | _, _ => []
  let markSlot (s : State) : State :=
    let k := s.core w.core
    if (slot k).isEmpty then s else s.setCore w.core { k with poison := k.poison ++ slot k }
  let face := p.loc.cloak.isNone
  if words.isEmpty then s
  else if face && l.nc && sliced w l false then
    match ncFind s (dieOfCore w.core) l with
    | some x => ncSet (markSlot s) { x with bad := x.bad ||| BitVec.ofNat 8 (joinBits ((List.range 8).map fun i =>
        words.contains (x.home.addr + 8 * i))) }
    | none => s
  else if face && l.hostSide && !l.nc && !s.mgmt.hostUp && w.core != hubCore then
    { s with msys := { s.msys with posted := markPost l words s.msys.posted } }
  else
    let s := markSlot (words.foldl (fun s a => poisonRange s l.space a 8) s)
    { s with msys := { s.msys with copies := s.msys.copies.filter fun c => !sameLine c.home l } }

/-- A write of stored bytes to the lining of a cloak region: it follows the last turn, and the next turn follows it (R304). -/
def liningWrite (w : Who) (region : Nat) (l : Loc) (v n : Nat) (s : State) : State :=
  let s := s.raise w ((s.msys.liningPts.get? region).getD 0)
  let s := rawWrite (keepEarlier s none l) l v n
  { s with msys := { s.msys with liningPts := s.msys.liningPts.set region (s.ptsOf w) } }

/-- One element write of an engine: it lands in the lining of a cloak region (R214); bytes read from uncorrectable words
leave poisoned words (R223). -/
def enginePut (w : Who) (p : Piece) (g : Got) (s : State) : State :=
  let s := match p.loc.cloak with
    | some r => liningWrite w r (backing s p.loc true) g.val p.n s
    | none => writeEvent w .norm p g.val s
  markBad w p g.bad s

/-- An engine write of pieces. -/
def engineWrite (w : Who) (g : Got) (ps : List Piece) (s : State) : State :=
  (engineEvents ps).foldl (fun s e =>
    let n := e.piece.n
    let bad := (g.bad.filter fun i => e.off ≤ i && i < e.off + n).map (· - e.off)
    enginePut w e.piece { val := g.val / 2 ^ (8 * e.off) % 2 ^ (8 * n), bad } s) s

/-- The function of a reducing copy. -/
def redFn : RedOp → FoldFn
  | .add => .add | .min => .min | .max => .max

/-- An element that an update would change meets an uncorrectable word: in the lining of a cloak region, at its home, or in the
die's copy of its non-coherent line. -/
def updateMeetsBad (s : State) (w : Who) (p : Piece) : Bool :=
  match p.loc.cloak with
  | some _ => let l := backing s p.loc true; poisoned s l.space l.addr p.n
  | none => uncorrectable s w p

/-- One element update of a reducing copy (R226): an atomic read-modify-write, in the lining of a cloak region (log entry 68).
A poisoned element stays as it is, and an operand from an uncorrectable word leaves one (R223). A chunk of a reducing
collective carries the element's final value (R476). -/
def engineUpdate (w : Who) (fn : Option FoldFn) (et : ElemTy) (p : Piece) (y : Option Nat) (s : State) : State :=
  let l := backing s p.loc true
  match y, fn with
  | none, _ => enginePut w p { val := 0, bad := List.range p.n } s
  | some y, none => enginePut w p { val := y } s
  | some y, some fn =>
    if updateMeetsBad s w p then s
    else
      match p.loc.cloak with
      | some r => liningWrite w r l (foldStep fn et (rawRead s l p.n) y) p.n s
      | none => (rmwEvent w p (fun old => some (foldStep fn et old y)) s).2

/-! ### Chunks of reducing copies (R391, R392) -/

/-- The window of a copy identifier. -/
def chunkWindow (s : State) (copy : Nat) : Window :=
  (s.msys.windows.find? fun w => w.copy == copy).getD { copy, base := 0, map := 0 }

/-- Moves the base of a window past the chunks that have been applied. -/
def slideWindow (base : Nat) (map : BitVec 64) : Nat → Nat × BitVec 64
  | 0 => (base, map)
  | n + 1 => if map.getLsbD 0 then slideWindow (base + 1) (map >>> 1) n else (base, map)

/-- A chunk of a number has been applied. -/
def chunkSeen (w : Window) (seq : Nat) : Bool := seq < w.base || w.map.getLsbD (seq - w.base)

/-- A chunk reaches its target: it is applied once, as one group of element updates, or discarded (R392). -/
def arriveChunk (s : State) (c : Chunk) : State :=
  let w := chunkWindow s c.copy
  if chunkSeen w c.seq then s
  else
    let who : Who := { core := c.core, asid := c.asid, root := c.root }
    let apply (s : State) : Unit × State := ((), c.elems.foldl (fun s e => engineUpdate who c.fn c.et e.1 e.2 s) s)
    let r := withClock (max c.pts w.pts) apply s
    let n := slideWindow w.base (w.map ||| (1#64 <<< (c.seq - w.base))) 64
    let s := r.2.2
    { s with msys := { s.msys with
      windows := { copy := c.copy, base := n.1, map := n.2, pts := r.2.1 } :: s.msys.windows.filter fun x => x.copy != c.copy } }

/-- Chunks of a copy that have not been acknowledged. -/
def inFlight (s : State) (copy : Nat) : List Chunk := s.msys.flight.filter fun c => c.copy == copy

/-- The sender may send chunk `seq`: at most 64 lie beyond the lowest that is not acknowledged (R391). -/
def mayFly (s : State) (copy seq : Nat) : Bool := (inFlight s copy).all fun c => seq < c.seq + 64

/-- The peers that a chunk's elements lie in. -/
def chunkPeers (c : Chunk) : List Nat := c.elems.filterMap fun e => peerOf e.1.loc

/-- The chunks of a copy that pauses at chunk `n`, because a chunk of it has been lost: those before it have landed (R224), and
the later ones are sent again once it goes on (R392). -/
def settleChunks (s : State) (copy n : Nat) : State :=
  let s := ((inFlight s copy).filter fun c => c.seq < n).foldl arriveChunk s
  { s with msys := { s.msys with flight := s.msys.flight.filter fun c => c.copy != copy } }

/-- CHUNK_ARRIVAL: the i-th chunk in flight reaches its home and is acknowledged; one toward a retraining peer waits. -/
def execChunkArrival (i : Nat) (s : State) : Out :=
  match s.msys.flight[i]? with
  | none => .next s
  | some c =>
    let waits : Bool := ((chunkPeers c).any fun p => (match s.peer? p with | some x => x.link != .up | none => true)) ||
      c.elems.any fun e => (waitsAt s e.1.loc).isSome
    if waits then .next s
    else
      let s := arriveChunk s c
      .next { s with msys := { s.msys with flight := s.msys.flight.eraseIdx i } }

/-- The copy identifier of R391. -/
def copyId (s : State) (launch number : Nat) : Nat :=
  s.mgmt.peerId.toNat * 2 ^ 56 + launch % 2 ^ 32 * 2 ^ 24 + number % 2 ^ 24

/-- The sender acknowledges the completion: the window is released (R392). -/
def releaseWindow (s : State) (copy : Nat) : State :=
  { s with msys := { s.msys with windows := s.msys.windows.filter fun w => w.copy != copy } }

/-! ### Faults of an engine (R224, R369) -/

/-- An engine has read an uncorrectable word: a record of the error log (R383). -/
def logRead (s : State) (die launch va : Nat) (bad : List Nat) : State :=
  match bad with
  | [] => s
  | i :: _ => errorLog s die 5 0 launch (va + i)

/-- The fault of an engine access: `info` rounded down to its page, and the bytes landed before the chunk. Operand and
collective faults keep their own fields (R369). -/
def engineInfo (f : FaultInfo) (landed : Nat) : FaultInfo :=
  if f.cls = 11 || f.cls = 15 then f else { f with info := f.info &&& ~~~0xFFFF#64, aux := BitVec.ofNat 64 landed }

end Sys2Proof.Machine
end

