-- ==== Sys2Proof/Machine/TileIssue.lean ====
section
/-! DEFINITION. Layout records (R210 to R213) and the issue of tile-engine commands: the checks of R222, and the meanings of
the instructions of majors 0x39 and 0x3D (R221 to R232). -/

namespace Sys2Proof.Machine

/-! ### Layout records -/

/-- The fields of a record (R210), absolute addresses and per-dimension lists of four. -/
structure Layout where
  base : Nat
  side : Nat
  et : ElemTy
  extent : List Nat
  stride : List Int
  box : List Nat
  pad : Nat
  dstride : Nat
  deriving DecidableEq, Repr

/-- A field of the record's 192 bytes. -/
def recField (r : BitVec 1536) (o n : Nat) : Nat := (r.toNat >>> (8 * o)) % 2 ^ (8 * n)

/-- A signed 64-bit number. -/
def sint64 (x : Nat) : Int := if 2 ^ 63 ≤ x then (x : Int) - 2 ^ 64 else (x : Int)

/-- An address field with its relative-address bit. -/
def recAddr (handle : Nat) (r : BitVec 1536) (o bit : Nat) : Nat :=
  if recField r 24 1 / 2 ^ bit % 2 = 1 then (handle + recField r o 8) % 2 ^ 64 else recField r o 8

/-- The element type of a code (R76). -/
def etOfCode : Nat → Option ElemTy
  | 0 => some .i8 | 1 => some .u8 | 2 => some .i16 | 3 => some .u16 | 4 => some .i32 | 5 => some .u32 | 6 => some .i64
  | 7 => some .u64 | 8 => some .f64 | 9 => some .f32 | 10 => some .bf16 | 11 => some .f16 | 12 => some .e4m3
  | 13 => some .e5m2 | _ => none

/-- The checks that `mwld` makes of a record (R211). -/
def recordZeros (r : BitVec 1536) : Bool :=
  recField r 24 1 < 8 && recField r 27 5 == 0 && recField r 112 80 == 0

/-- The record of a handle when valid (R211). -/
def parseRecord (handle : Nat) (r : BitVec 1536) : Option Layout :=
  let rank := recField r 26 1
  let ks := List.range 4
  match etOfCode (recField r 25 1) with
  | none => none
  | some et =>
    let ext (k : Nat) := recField r (32 + 4 * k) 4
    let str (k : Nat) := recField r (48 + 8 * k) 8
    let bx (k : Nat) := recField r (80 + 2 * k) 2
    let ok := ks.all fun k => if k < rank then ext k != 0 && bx k != 0 else ext k == 0 && str k == 0 && bx k == 0
    let padOk := recField r 88 8 < 2 ^ et.width
    if handle % 64 = 0 && recordZeros r && 1 ≤ rank && rank ≤ 4 && ok && padOk then
      some { base := recAddr handle r 0 0, side := recAddr handle r 8 1, et,
             extent := ks.map fun k => if k < rank then ext k else 1,
             stride := ks.map fun k => sint64 (str k),
             box := ks.map fun k => if k < rank then bx k else 1,
             pad := recField r 88 8,
             dstride := if recField r 96 8 = 0 then bx 0 * et.bytes else recField r 96 8 }
    else none

/-- One line of a record as used: the cached one or the current one where they differ (R213). -/
def mixLine (old new : BitVec 1536) (i : Nat) (s : State) : BitVec 512 × State :=
  let a := old.extractLsb' (512 * i) 512
  let b := new.extractLsb' (512 * i) 512
  if a = b then (b, s)
  else
    let c := s.pick
    (if c.1 % 2 = 0 then a else b, c.2)

/-- The record of a handle as a use reads it, through the core's record cache; a use reads its page also when the cache
holds the record (log entry 67). -/
def useRecord (w : Who) (handle : Word) : Op (BitVec 1536) := do
  let v ← memRead w .norm handle 192
  let new := BitVec.ofNat 1536 v
  fun s =>
    let k := s.core w.core
    let old := match k.recs.find? fun e => e.1 == handle.toNat && e.2.1 == w.asid with
      | some e => e.2.2
      | none => new
    let x0 := mixLine old new 0 s
    let x1 := mixLine old new 1 x0.2
    let x2 := mixLine old new 2 x1.2
    let r : BitVec 1536 := x2.1 ++ x1.1 ++ x0.1
    let s := x2.2
    let k := s.core w.core
    let rest := k.recs.filter fun e => !(e.1 == handle.toNat && e.2.1 == w.asid)
    .ok (r, s.setCore w.core { k with recs := (handle.toNat, w.asid, r) :: rest.take 31 })

/-- The signed origin coordinates of S[c] (R212). -/
def originOf (c : Word) : List Int := (List.range 4).map fun k => (c.extractLsb' (16 * k) 16).toInt

/-- Bytes from the dense base to the end of the box (R212). -/
def denseExtent (l : Layout) : Nat :=
  let b (k : Nat) := l.box.getD k 1
  ((b 3 - 1) * b 2 * b 1 + (b 2 - 1) * b 1 + (b 1 - 1)) * l.dstride + (b 0 - 1) * l.et.bytes + l.et.bytes

/-- The lowest and the end address of the box's elements inside the bounds, when there are any. -/
def boxExtent (l : Layout) (o : List Int) : Option (Int × Int) :=
  (List.range 4).foldl (fun m k =>
    let lo := max (o.getD k 0) 0
    let hi := min (o.getD k 0 + (l.box.getD k 1 : Int)) (l.extent.getD k 1 : Int) - 1
    let st := l.stride.getD k 0
    match m with
    | none => none
    | some (a, b) => if hi < lo then none else some (a + min (lo * st) (hi * st), b + max (lo * st) (hi * st)))
    (some ((l.base : Int), (l.base : Int) + (l.et.bytes : Int)))

/-! ### The checks of R222 on local-window operands -/

/-- The verdict on an operand: fine, past the window's end, or outside or over a stash range. -/
inductive Verdict where
  | fine | past | outside
  deriving DecidableEq, Repr

/-- An operand of n bytes at an address, checked when it starts in the window, or when it must lie there. -/
def checkRange (k : Core) (must : Bool) (a n : Nat) : Verdict :=
  if n = 0 then .fine
  else if inWindow a then
    if !inWindow (a + n - 1) then .past else if overStash k a (a + n - 1) then .outside else .fine
  else if must then .outside else .fine

/-- Some row of an arithmetic progression of rows meets [lo, hi). -/
def rowsMeet (base stride : Int) (rl cnt : Nat) (lo hi : Int) : Bool :=
  if cnt = 0 || rl = 0 then false
  else
    let b := if stride < 0 then base + stride * ((cnt : Int) - 1) else base
    let st := if stride < 0 then -stride else stride
    if st = 0 then b < hi && lo < b + rl
    else
      let i := max 0 ((lo - rl - b) / st + 1)
      i < cnt && b + st * i < hi

/-- A strided operand whose first row starts in the window: every row must lie in it. -/
def checkRows (k : Core) (a : Nat) (stride : Int) (rl cnt : Nat) : Verdict :=
  if rl = 0 || cnt = 0 || !inWindow a then .fine
  else
    let wend : Int := (lwBase : Int) + 0x80000
    let last : Int := (a : Int) + stride * ((cnt : Int) - 1)
    let meets := k.smap.toList.any fun m =>
      mapOn m && rowsMeet a stride rl cnt ((lwBase + mapLocal m : Nat) : Int) ((lwBase + mapLocal m + mapLen m : Nat) : Int)
    if wend < (a : Int) + rl then .past
    else if last < (lwBase : Int) then .outside
    else if wend < last + rl then .past
    else if meets then .outside else .fine

/-- A 32-bit field as a signed number. -/
def sint32 (w : Word) (lo : Nat) : Int := (w.extractLsb' lo 32).toInt

/-- Posts what the operands' verdicts say: straddle before detail 3 (R222 rows 3 and 4). -/
def needOperands (sa : Word) (ops : List (Word × Verdict × Bool)) : Op Unit := do
  match ops.find? fun o => o.2.1 == .past with
  | some o => Op.fail { cls := 7, info := o.1, write := o.2.2 }
  | none => Op.need (ops.all fun o => o.2.1 == .fine) { cls := 11, detail := 3, info := sa }

/-! ### Issue -/

/-- A tile-engine operand fault. -/
def tileFault (sa : Word) (detail : Nat) : FaultInfo := { cls := 11, detail, info := sa }

/-- The queue takes no further command (R221). -/
def tileFull (s : State) : Bool := 16 ≤ (s.core (coreOf s.cur)).tq.length

/-- A command enters the queue, and its token register is pending (R110, R221). -/
def acceptTile (i : Instr) (d : Reg) (cmd : TCmd) (s : State) : State :=
  let c := coreOf s.cur
  let k := s.core c
  let t := s.me
  let cmd := { cmd with id := k.nextCmd, ts := s.cur, launch := t.launch, instr := i, pc := t.pc, pts := t.pts }
  let s := s.setCore c (({ k with tq := k.tq ++ [cmd], nextCmd := k.nextCmd + 1 } : Core).touchCmd cmd.id)
  s.setMe (t.pend d)

/-- A blank command. -/
def newTCmd : TCmd := { id := 0, ts := 0, launch := 0, instr := .nop, pc := 0 }

/-- Runs the issue of a tile-engine command: a full queue is not ready. -/
def tileOp (g : Guard) (i : Instr) (len : Nat) (op : Op Unit) (s : State) : Out :=
  guarded g len s (if tileFull s then .next s else runOp i len op s)

/-- A length or count operand. -/
def lenOf (t : ThreadSet) : LenSrc → Nat
  | .reg c => (t.getS c).toNat
  | .imm n => (immZext n).toNat

/-- The length in bytes of a `cpy` or `cpyr`. -/
def lenSrcLen : LenSrc → Nat
  | .reg _ => 12
  | .imm n => extLen n

def execCpy (g : Guard) (d a b : Reg) (len : LenSrc) (s : State) : Out :=
  let t := s.me
  let i : Instr := .cpy g d a b len
  let n := lenOf t len
  let dst := t.getS a
  let src := t.getS b
  tileOp g i (lenSrcLen len) (do
    let k ← Op.ask fun s => s.core (coreOf s.cur)
    Op.need (n ≤ 2 ^ 32) (tileFault dst 2)
    needOperands dst [(dst, checkRange k false dst.toNat n, true), (src, checkRange k false src.toNat n, false)]
    Op.upd (acceptTile i d { newTCmd with a := dst, b := src, c := [BitVec.ofNat 64 n], finished := n == 0 })) s

def execCpy2d (g : Guard) (d a b c : Reg) (s : State) : Out :=
  let t := s.me
  let i : Instr := .cpy2d g d a b c
  let dst := t.getS a
  let src := t.getS b
  let x := t.getS c
  let y := t.getS (regNext c)
  let rl := bitsOf x 0 32
  let cnt := bitsOf x 32 32
  tileOp g i 12 (do
    let k ← Op.ask fun s => s.core (coreOf s.cur)
    Op.need (rl * cnt ≤ 2 ^ 32) (tileFault dst 2)
    needOperands dst [(dst, checkRows k dst.toNat (sint32 y 0) rl cnt, true),
      (src, checkRows k src.toNat (sint32 y 32) rl cnt, false)]
    Op.upd (acceptTile i d { newTCmd with a := dst, b := src, c := [x, y], finished := rl * cnt == 0 })) s

/-- The verdict on a record's tensor side, by the extent of its box. -/
def checkBox (k : Core) (l : Layout) (o : List Int) : Word × Verdict :=
  match boxExtent l o with
  | none => (0, .fine)
  | some (lo, hi) =>
    let a := (lo % 2 ^ 64).toNat
    (BitVec.ofNat 64 a, checkRange k false a (hi - lo).toNat)

/-- Gather and scatter of a record's box: `handle` and `dense` are the values of the tensor side and of the dense side. Row 2
of R222 bounds the extent of the dense side and the number of elements (log entry 66). -/
def boxIssue (i : Instr) (d : Reg) (sa handle dense origin : Word) (gather : Bool) : Op Unit := do
  let w ← Op.ask fun s => s.who s.cur
  Op.need (handle.toNat % 64 = 0) (tileFault sa 1)
  let r ← useRecord w handle
  match parseRecord handle.toNat r with
  | none => Op.fail (tileFault sa 1)
  | some l =>
    let k ← Op.ask fun s => s.core (coreOf s.cur)
    Op.need (denseExtent l ≤ 2 ^ 32 && l.box.foldl (· * ·) 1 ≤ 2 ^ 24) (tileFault sa 2)
    let box := checkBox k l (originOf origin)
    let den := (dense, checkRange k false dense.toNat (denseExtent l), gather)
    needOperands sa (if gather then [den, (box.1, box.2, false)] else [(box.1, box.2, true), den])
    let cmd := { newTCmd with a := if gather then dense else handle, b := if gather then handle else dense, c := [origin],
                              record := putNum [] 0 r.toNat 192 }
    Op.upd (acceptTile i d cmd)

def execCpyRs (g : Guard) (d a b c : Reg) (s : State) : Out :=
  let t := s.me
  let i : Instr := .cpyRs g d a b c
  tileOp g i 12 (boxIssue i d (t.getS a) (t.getS b) (t.getS a) (t.getS c) true) s

def execCpyRd (g : Guard) (d a b c : Reg) (s : State) : Out :=
  let t := s.me
  let i : Instr := .cpyRd g d a b c
  tileOp g i 12 (boxIssue i d (t.getS a) (t.getS a) (t.getS b) (t.getS c) false) s

/-- The number of the launch's next reducing copy (R391). -/
def nextCopy (s : State) : Nat × State :=
  match s.launchOf s.cur with
  | some l => (copyId s l.num l.copies, s.setLaunch { l with copies := l.copies + 1 })
  | none => (0, s)

def execCpyr (g : Guard) (op : RedOp) (et : ElemTy) (d a b : Reg) (len : LenSrc) (s : State) : Out :=
  let t := s.me
  let i : Instr := .cpyr g op et d a b len
  let n := lenOf t len
  let es := et.bytes
  let dst := t.getS a
  let src := t.getS b
  tileOp g i (lenSrcLen len) (do
    let k ← Op.ask fun s => s.core (coreOf s.cur)
    Op.need (n ≤ 2 ^ 24) (tileFault dst 2)
    needOperands dst [(dst, checkRange k false dst.toNat (n * es), true), (src, checkRange k false src.toNat (n * es), false)]
    Op.need (dst.toNat % es = 0 && src.toNat % es == 0) (tileFault dst 4)
    Op.upd fun s =>
      let c := nextCopy s
      acceptTile i d { newTCmd with a := dst, b := src, c := [BitVec.ofNat 64 n], copy := c.1, finished := n == 0 } c.2) s

/-- The core whose window a target kind names. -/
def targetCore (c : Nat) : PutTarget → Nat
  | .glob => c
  | .crossbar n => c / 16 * 16 + n.val

/-- A core holds a thread set of a launch. -/
def coreHolds (s : State) (c launch : Nat) : Bool :=
  [0, 1, 2, 3].any fun i => (s.ts (4 * c + i)).launch == launch && (s.ts (4 * c + i)).status != .free

/-- `get` and `put`: `own` and `remote` are the operands' values, the group is S[c] to S[c+2]. A remote operand or flag of
target kind 0 that lies in the local window means the issuing core's (log entry 69). -/
def transferIssue (i : Instr) (d : Reg) (et : ElemTy) (tgt : PutTarget) (sa own remote idx cnt flag : Word) (put : Bool) :
    Op Unit := do
  let s ← Op.ask id
  let c := coreOf s.cur
  let n := cnt.toNat
  let es := et.bytes
  let tk := targetCore c tgt
  let glob := tgt == PutTarget.glob
  Op.need (n ≤ 2 ^ 24) (tileFault sa 2)
  let rem := if idx = 0 then [(remote, checkRange (s.core tk) (!glob) remote.toNat (n * es), put)] else []
  let list := if idx = 0 then [] else [(idx, checkRange (s.core c) true idx.toNat (4 * n), false)]
  needOperands sa ((own, checkRange (s.core c) true own.toNat (n * es), !put) :: list ++ rem)
  Op.need (own.toNat % es = 0 && remote.toNat % es == 0 && idx.toNat % 4 == 0 && !(put && flag.toNat % 8 != 0))
    (tileFault sa 4)
  Op.need (glob || coreHolds s tk s.me.launch) (tileFault sa 5)
  Op.upd (acceptTile i d { newTCmd with a := if put then remote else own, b := if put then own else remote,
                                        c := [idx, cnt, flag], finished := n == 0 })

def execGet (g : Guard) (et : ElemTy) (tgt : PutTarget) (d a b c : Reg) (s : State) : Out :=
  let t := s.me
  let i : Instr := .get g et tgt d a b c
  tileOp g i 12 (transferIssue i d et tgt (t.getS a) (t.getS a) (t.getS b) (t.getS c) (t.getS (c + 1)) 0 false) s

def execPut (g : Guard) (et : ElemTy) (tgt : PutTarget) (d a b c : Reg) (s : State) : Out :=
  let t := s.me
  let i : Instr := .put g et tgt d a b c
  tileOp g i 12 (transferIssue i d et tgt (t.getS a) (t.getS b) (t.getS a) (t.getS c) (t.getS (c + 1)) (t.getS (c + 2)) true) s

/-! ### The stash maps, the record cache and `pub` -/

/-- Two ranges overlap. -/
def meet (a n b m : Nat) : Bool := a < b + m && b < a + n

/-- A map value obeys R229 beside the other maps. -/
def mapOk (k : Core) (n : Fin 8) (m : Word) : Bool :=
  let len := mapLen m
  let others := (k.smap.toList.zip (List.range 8)).filter fun e => e.2 != n.val && mapOn e.1
  32768 ≤ len && len ≤ 16 * 32768 && mapLocal m + len ≤ 16 * 32768 && mapGlobal m + len ≤ 2 ^ 56 && bitsOf m 41 13 == 0 &&
    (!mapOn m || others.all fun e =>
      !meet (mapLocal m) len (mapLocal e.1) (mapLen e.1) && !meet (mapGlobal m) len (mapGlobal e.1) (mapLen e.1))

/-- A stash line belongs to a map. -/
def ofMap (m : Word) (x : StashLine) : Bool := mapOn m && mapGlobal m ≤ x.line && x.line < mapGlobal m + mapLen m

/-- `stmap`: the old map's lines are written back and go, and the value is installed before the thread set's next
instruction. -/
def execStmap (g : Guard) (n : Fin 8) (a : Reg) (s : State) : Out :=
  let m := s.me.getS a
  let i : Instr := .stmap g n a
  tileOp g i 12 (do
    let k ← Op.ask fun s => s.core (coreOf s.cur)
    Op.need (mapOk k n m) (tileFault m 6)
    Op.upd fun s =>
      let s := dropStash s (coreOf s.cur) (ofMap k.smap[n])
      let k := s.core (coreOf s.cur)
      s.setCore (coreOf s.cur) { k with smap := k.smap.set n m }) s

/-- A stash command over a range of lines; length 0 names every line. -/
def stashIssue (i : Instr) (d : Reg) (a len : Word) : Op Unit := do
  Op.need (len.toNat ≤ 2 ^ 32) (tileFault a 2)
  Op.upd (acceptTile i d { newTCmd with a, b := len })

def execStwb (g : Guard) (d a b : Reg) (s : State) : Out :=
  let i : Instr := .stwb g d a b
  tileOp g i 12 (stashIssue i d (s.me.getS a) (s.me.getS b)) s

def execStinv (g : Guard) (d a b : Reg) (s : State) : Out :=
  let i : Instr := .stinv g d a b
  tileOp g i 12 (stashIssue i d (s.me.getS a) (s.me.getS b)) s

/-- Removes records from the core's cache (R231). -/
def flushRecords (keep : Nat × Nat × BitVec 1536 → Bool) (s : State) : State :=
  let c := coreOf s.cur
  let k := s.core c
  s.setCore c { k with recs := k.recs.filter keep }

def execRflush (g : Guard) (a : Reg) (s : State) : Out :=
  let h := s.me.getS a
  guarded g 12 s (.next ((flushRecords (fun e => e.1 != h.toNat) s).advance 12))

def execRflushAll (g : Guard) (s : State) : Out := guarded g 12 s (.next ((flushRecords (fun _ => false) s).advance 12))

/-- `pub`: the region of its page, with write permission (R232); the turn comes later. It takes an entry of the tile
engine's queue (log entry 70). -/
def execPub (g : Guard) (d a : Reg) (s : State) : Out :=
  let addr := s.me.getS a
  let i : Instr := .pub g d a
  tileOp g i 12 (do
    let w ← Op.ask fun s => s.who s.cur
    Op.need (inGlobal addr.toNat) (tileFault addr 7)
    let ps ← checkAccess w .store addr 1
    match ps.findSome? fun p => p.loc.cloak with
    | none => Op.fail (tileFault addr 7)
    | some r => Op.upd (acceptTile i d { newTCmd with a := addr, c := [BitVec.ofNat 64 r] })) s

end Sys2Proof.Machine
end

