-- ==== Sys2Proof/Machine/TileRun.lean ====
section
/-! DEFINITION. The tile engine at work: TILE_ENGINE_CHUNK and TILE_COMMAND_COMPLETION (R212, R223 to R228, R230, R232). -/

namespace Sys2Proof.Machine

/-- One transfer of a chunk: source address, or none for the pad value; destination; bytes. -/
structure Move where
  src : Option Word
  pad : Nat := 0
  dst : Word
  n : Nat
  deriving DecidableEq, Repr

/-- The transfers of the next chunk, and how far it takes the command. -/
structure Plan where
  moves : List Move
  next : Nat
  finished : Bool
  deriving DecidableEq, Repr

/-- Bytes to the end of the aligned 4 KiB piece of an address. -/
def pieceRest (a : Word) : Nat := 4096 - a.toNat % 4096

/-- An address moved by a signed byte distance. -/
def addInt (a : Word) (i : Int) : Word := a + BitVec.ofInt 64 i

/-- The next chunk of a contiguous copy of n bytes. -/
def planBytes (dst src : Word) (n next : Nat) : Plan :=
  let a := dst + BitVec.ofNat 64 next
  let m := min (n - next) (pieceRest a)
  { moves := [{ src := some (src + BitVec.ofNat 64 next), dst := a, n := m }], next := next + m, finished := n ≤ next + m }

/-- The next chunk of a two-dimensional copy; `next` counts bytes over the rows (R223, R225). -/
def planRows (dst src x y : Word) (next : Nat) : Plan :=
  let rl := bitsOf x 0 32
  let cnt := bitsOf x 32 32
  let row := next / rl
  let off := next % rl
  let a := addInt dst (sint32 y 0 * row) + BitVec.ofNat 64 off
  let m := min (rl - off) (pieceRest a)
  { moves := [{ src := some (addInt src (sint32 y 32 * row) + BitVec.ofNat 64 off), dst := a, n := m }],
    next := next + m, finished := rl * cnt ≤ next + m }

/-- Element e of a record's box: its dense offset, and its tensor address when inside the bounds (R212). -/
def boxElement (l : Layout) (o : List Int) (e : Nat) : Nat × Option Word :=
  let b (k : Nat) := l.box.getD k 1
  let i (k : Nat) : Nat := match k with
    | 0 => e % b 0
    | 1 => e / b 0 % b 1
    | 2 => e / (b 0 * b 1) % b 2
    | _ => e / (b 0 * b 1 * b 2) % b 3
  let x (k : Nat) : Int := o.getD k 0 + i k
  let inb := (List.range 4).all fun k => 0 ≤ x k && x k < (l.extent.getD k 1 : Int)
  let addr : Int := (List.range 4).foldl (fun a k => a + x k * l.stride.getD k 0) (l.base : Int)
  (((i 3 * b 2 + i 2) * b 1 + i 1) * l.dstride + i 0 * l.et.bytes, if inb then some (BitVec.ofInt 64 addr) else none)

/-- The elements of a box in a record's dense order. -/
def boxCount (l : Layout) : Nat := l.box.foldl (· * ·) 1

/-- One element of a box as a transfer; an element outside the bounds reads as pad, and is not written. -/
def boxMove (l : Layout) (o : List Int) (gather : Bool) (dense : Word) (e : Nat) : Option Move :=
  let p := boxElement l o e
  let d := dense + BitVec.ofNat 64 p.1
  if gather then some { src := p.2, pad := l.pad, dst := d, n := l.et.bytes }
  else p.2.map fun a => { src := some d, dst := a, n := l.et.bytes }

/-- The 4 KiB piece that a transfer lands in, when it lands in one. -/
def pieceOf (m : Move) : Option Nat :=
  let a := m.dst.toNat
  if a / 4096 = (a + m.n - 1) / 4096 then some (a / 4096) else none

/-- The run of elements from `e` whose destinations lie in one piece (R223). -/
def planBox (l : Layout) (o : List Int) (gather : Bool) (dense : Word) (total : Nat) :
    (fuel e : Nat) → (piece : Option (Option Nat)) → Plan
  | 0, e, _ => { moves := [], next := e, finished := total ≤ e }
  | fuel + 1, e, piece =>
    if total ≤ e then { moves := [], next := e, finished := true }
    else
      match boxMove l o gather dense e with
      | none => planBox l o gather dense total fuel (e + 1) piece
      | some m =>
        let go : Plan :=
          let r := planBox l o gather dense total fuel (e + 1) (some (pieceOf m))
          { r with moves := m :: r.moves }
        match piece with
        | none => go
        | some p => if p.isSome && p == pieceOf m then go else { moves := [], next := e, finished := false }

/-- The index of element i of a `get` or `put` (R227). -/
def listIndex (k : Core) (idx : Word) (i : Nat) : Nat :=
  if idx = 0 then i else getNum k.mem (idx.toNat - lwBase + 4 * i) 4

/-- The next 4 KiB of elements of a `get` or `put`. -/
def planList (k : Core) (put : Bool) (es : Nat) (a b idx : Word) (total next : Nat) : Plan :=
  let m := min (total - next) (4096 / es)
  let one (j : Nat) : Move :=
    let i := next + j
    let near := BitVec.ofNat 64 (i * es)
    let far := BitVec.ofNat 64 (listIndex k idx i * es)
    if put then { src := some (b + near), dst := a + far, n := es } else { src := some (b + far), dst := a + near, n := es }
  { moves := (List.range m).map one, next := next + m, finished := total ≤ next + m }

/-- The plan of a command's next chunk. -/
def planOf (s : State) (m : TCmd) : Plan :=
  let c (i : Nat) : Word := m.c.getD i 0
  match m.instr with
  | .cpy .. => planBytes m.a m.b (c 0).toNat m.next
  | .cpyr _ _ et .. =>
    let p := planBytes m.a m.b ((c 0).toNat * et.bytes) (m.next * et.bytes)
    { p with next := p.next / et.bytes }
  | .cpy2d .. => planRows m.a m.b (c 0) (c 1) m.next
  | .cpyRs .. =>
    match parseRecord m.b.toNat (BitVec.ofNat 1536 (getNum m.record 0 192)) with
    | some l => planBox l (originOf (c 0)) true m.a (boxCount l) (boxCount l + 1) m.next none
    | none => { moves := [], next := m.next, finished := true }
  | .cpyRd .. =>
    match parseRecord m.a.toNat (BitVec.ofNat 1536 (getNum m.record 0 192)) with
    | some l => planBox l (originOf (c 0)) false m.b (boxCount l) (boxCount l + 1) m.next none
    | none => { moves := [], next := m.next, finished := true }
  | .get _ et .. => planList (s.core (coreOf m.ts)) false et.bytes m.a m.b (c 0) (c 1).toNat m.next
  | .put _ et .. => planList (s.core (coreOf m.ts)) true et.bytes m.a m.b (c 0) (c 1).toNat m.next
  | _ => { moves := [], next := m.next, finished := true }

/-! ### Landing a chunk -/

/-- The checks of one side of a transfer: R204, or for a crossbar operand those of R222 on the target core's window. -/
def sideCheck (w : Who) (xbar : Option Nat) (sa : Word) (k : Kind) (addr : Word) (n : Nat) : Op (List Piece) :=
  match xbar with
  | none => checkAccess w k addr n
  | some c => fun s =>
    let a := addr.toNat
    let bad : Except Stop (List Piece × State) := .error (.fault (tileFault sa 3))
    if !inWindow a then bad
    else if !inWindow (a + n - 1) then .error (.fault { cls := 7, info := addr, write := k.w })
    else if overStash (s.core c) a (a + n - 1) then bad
    else .ok ([{ va := a, n, loc := { space := .core c, addr := a - lwBase } }], s)

/-- The crossbar target of a command's source, and of its destination; a saved core keeps the cluster it was taken from. -/
def srcXbar (c : Nat) : Instr → Option Nat
  | .get _ _ (.crossbar n) .. => some (targetCore (c % 4096) (.crossbar n))
  | _ => none

def dstXbar (c : Nat) : Instr → Option Nat
  | .put _ _ (.crossbar n) .. => some (targetCore (c % 4096) (.crossbar n))
  | _ => none

/-- A transfer with its checked pieces. -/
structure Checked where
  move : Move
  src : List Piece
  dst : List Piece
  deriving DecidableEq, Repr

/-- Translates the whole chunk before any byte of it is written (R224); an update of a reducing copy is an atomic, which needs
both permissions (R226, R263). -/
def checkMoves (w : Who) (m : TCmd) (ms : List Move) : Op (List Checked) :=
  ms.mapM fun v => do
    let src ← match v.src with
      | some a => sideCheck w (srcXbar w.core m.instr) m.a .load a v.n
      | none => pure []
    let kind := match m.instr with | .cpyr .. => .rmw | _ => Kind.put
    let dst ← sideCheck w (dstXbar w.core m.instr) m.a kind v.dst v.n
    pure { move := v, src, dst }

/-- The parts of checked pieces that lie in [va, va + n). -/
def subPieces (ps : List Piece) (va n : Nat) : List Piece :=
  ps.filterMap fun p =>
    let lo := max p.va va
    let hi := min (p.va + p.n) (va + n)
    if lo < hi then some { va := lo, n := hi - lo, loc := { p.loc with addr := p.loc.addr + (lo - p.va) } } else none

/-- The parts of pieces that lie in one naturally aligned 8-byte word each. -/
def wordPieces (ps : List Piece) : List Piece := ps.flatMap fun p => cutPiece (fun a n => min n (8 - a % 8)) p p.n 0 p.n

/-- Pieces on device pages, cut into their events (R272). -/
def devicePieces (ps : List Piece) : List Piece := ps.flatMap fun p => if p.loc.type == 2 then eventPieces true p else [p]

/-- One element of a checked transfer: n bytes from an offset. -/
def elemAt (c : Checked) (byWord : Bool) (o n : Nat) : Elem :=
  let va := (c.move.src.getD 0).toNat + o
  let src := subPieces c.src va n
  { src := devicePieces (if byWord then wordPieces src else src), byWord := byWord || src.any fun p => p.loc.type == 2,
    val := if c.move.src.isSome then 0 else c.move.pad,
    dst := devicePieces (subPieces c.dst (c.move.dst.toNat + o) n), n, va }

/-- The elements of a checked transfer (R225, R226): the destination bytes of one naturally aligned 8-byte word, an element
of a reducing copy, or the transfer itself. -/
def elemsOf (i : Instr) (c : Checked) : List Elem :=
  let d := c.move.dst.toNat
  match i with
  | .cpy .. | .cpy2d .. =>
    ((List.range (c.move.n / 8 + 2)).map fun j =>
      let lo := max d ((d / 8 + j) * 8)
      (lo - d, min (d + c.move.n) ((d / 8 + j + 1) * 8) - lo)).filterMap fun p =>
        if p.2 = 0 then none else some (elemAt c true p.1 p.2)
  | .cpyr _ _ et .. => (List.range (c.move.n / et.bytes)).map fun j => elemAt c false (j * et.bytes) et.bytes
  | _ => [elemAt c false 0 c.move.n]

/-- A non-coherent host page performs only integer `add` updates (R226, R283). -/
def reduceOk (fn : RedOp) (et : ElemTy) (ps : List Piece) : Bool := (fn == .add && et.isInt) || !ps.any fun p => p.loc.nc

/-- The part of the index list that a chunk of a `get` or `put` uses, which a map may have covered since the issue (R209);
the addresses of its uncorrectable words. -/
def checkList (w : Who) (m : TCmd) (es : Nat) : Op (List Nat) := do
  let idx := m.c.getD 0 0
  let n := min ((m.c.getD 1 0).toNat - m.next) (4096 / es)
  if idx = 0 then pure []
  else do
    let ps ← checkAccess w .load (idx + BitVec.ofNat 64 (4 * m.next)) (4 * n)
    let s ← Op.ask id
    pure ((ps.filter fun p => poisoned s p.loc.space p.loc.addr p.n).map (·.va))

/-- The elements of the next chunk, all its pages translated first (R224), and the addresses of uncorrectable index words. -/
def openChunk (w : Who) (m : TCmd) : Op (List Elem × List Nat) := do
  let s ← Op.ask id
  let bad ← match m.instr with
    | .get _ et .. | .put _ et .. => checkList w m et.bytes
    | _ => pure []
  let cs ← checkMoves w m (planOf s m).moves
  match m.instr with
  | .cpyr _ fn et .. =>
    let at' : Nat := (cs.findSome? fun c => if reduceOk fn et c.dst then none else (c.dst.find? fun p => p.loc.nc).map (·.va)).getD 0
    Op.need (cs.all fun c => reduceOk fn et c.dst) { cls := 6, info := BitVec.ofNat 64 at', write := true, unsupported := true }
  | _ => pure ()
  pure (cs.flatMap (elemsOf m.instr), bad)

/-! ### The elements of a chunk (R294, R303) -/

/-- Reads what is left of an element's source, or one event of it. -/
def readElem (w : Who) (one : Bool) (e : Elem) (s : State) : Elem × State :=
  let ps := if one && e.byWord then e.src.take 1 else e.src
  let g := engineRead w ps s
  ({ e with src := e.src.drop ps.length, val := e.val + 2 ^ (8 * e.got) * g.1.val, bad := e.bad ++ g.1.bad.map (e.got + ·),
            got := e.got + ps.foldl (fun n p => n + p.n) 0 }, g.2)

/-- Lands an element that has been read. -/
def landElem (w : Who) (e : Elem) (s : State) : State := engineWrite w { val := e.val, bad := e.bad } e.dst s

/-- One event of the landing of an element: all of it, or on a device page one piece (R294); what is left of it. -/
def landPart (w : Who) (e : Elem) (s : State) : Option Elem × State :=
  match e.dst with
  | p :: q :: r =>
    if e.dst.any fun p => p.loc.type == 2 then
      (some { e with
        dst := q :: r, val := e.val / 2 ^ (8 * p.n), bad := (e.bad.filter fun i => p.n ≤ i).map (· - p.n), n := e.n - p.n },
       engineWrite w { val := e.val % 2 ^ (8 * p.n), bad := e.bad.filter fun i => i < p.n } [p] s)
    else (none, landElem w e s)
  | _ => (none, landElem w e s)

/-- The destinations of two elements overlap. -/
def sameDst (a b : Elem) : Bool := a.dst.any fun p => b.dst.any fun q => p.va < q.va + q.n && q.va < p.va + p.n

/-- The element that the next event concerns: any one; elements with one destination go in their order (R227). -/
def nextElem (es : List Elem) (i : Nat) : Nat :=
  match es[i]? with
  | some e => (List.range i).findSome? (fun j => match es[j]? with
      | some x => if sameDst x e then some j else none
      | none => none) |>.getD i
  | none => 0

/-- What a chunk has done: the elements left, or read, and the address of an uncorrectable byte that it has read. -/
structure Progress where
  elems : List Elem
  bad : Option Nat
  deriving DecidableEq, Repr

/-- The first uncorrectable byte of an element. -/
def firstBad (old : Option Nat) (e : Elem) : Option Nat :=
  match old, e.bad with
  | none, i :: _ => some (e.va + i)
  | b, _ => b

/-- One event of a chunk: of an element that is open, the read of its source or its landing. A reducing copy only reads. -/
def stepElems (w : Who) (red : Bool) (es : List Elem) (s : State) : Progress × State :=
  let todo := if red then (List.range es.length).filter fun i => (es[i]?.map fun e => !e.src.isEmpty).getD false
    else List.range es.length
  match todo with
  | [] => ({ elems := es, bad := none }, s)
  | _ =>
    let c := s.pick
    let i := nextElem es (todo.getD (c.1 % todo.length) 0)
    match es[i]? with
    | none => ({ elems := es, bad := none }, c.2)
    | some e =>
      if e.src.isEmpty then
        let r := landPart w e c.2
        ({ elems := match r.1 with | some x => es.set i x | none => es.eraseIdx i, bad := none }, r.2)
      else
        let r := readElem w true e c.2
        ({ elems := es.set i r.1, bad := firstBad none r.1 }, r.2)

/-- All that is left of a chunk, element by element. -/
def finishElems (w : Who) (red : Bool) : List Elem → State → Progress × State
  | [], s => ({ elems := [], bad := none }, s)
  | e :: r, s =>
    let x := readElem w false e s
    let y := finishElems w red r (if red then x.2 else landElem w x.1 x.2)
    ({ elems := if red then x.1 :: y.1.elems else y.1.elems, bad := firstBad none x.1 |>.orElse fun _ => y.1.bad }, y.2)

/-- One event of a chunk, or all that is left of it. -/
def runElems (w : Who) (red : Bool) (es : List Elem) (s : State) : Progress × State :=
  if s.split then stepElems w red es s else finishElems w red es s

/-- No element is left, or, of a reducing copy, none is left to read. -/
def Progress.done (red : Bool) (p : Progress) : Bool := if red then p.elems.all fun e => e.src.isEmpty else p.elems.isEmpty

/-- The peer that the elements of a chunk wait for (R468), or the host, while its port is down. -/
def elemsWait (s : State) (es : List Elem) : Option Nat := (es.flatMap fun e => e.src ++ e.dst).findSome? fun p => waitsAt s p.loc

/-- The chunk of a reducing copy that is sent: its elements with their operands (R391). -/
def chunkOf (w : Who) (m : TCmd) (fn : RedOp) (et : ElemTy) (es : List Elem) (pts : Nat) : Chunk :=
  { copy := m.copy, seq := m.chunk, core := w.core, asid := w.asid, root := w.root, fn := some (redFn fn), et,
    elems := es.flatMap fun e => e.dst.map fun p => (p, if e.bad.isEmpty then some e.val else none), pts }

/-- A chunk of a reducing copy leaves: the address of an element of its destination that is poisoned. -/
def sendChunk (ch : Chunk) (s : State) : Option Nat × State :=
  let w : Who := { core := ch.core, asid := ch.asid, root := ch.root }
  let own := ch.elems.findSome? fun e => if updateMeetsBad s w e.1 then some e.1.va else none
  (own, { s with msys := { s.msys with flight := s.msys.flight ++ [ch] } })

/-! ### Commands -/

/-- Replaces a command of the same number. -/
def setTCmd (s : State) (c : Nat) (m : TCmd) : State :=
  let k := s.core c
  s.setCore c (({ k with tq := k.tq.map fun x => if x.id = m.id then m else x } : Core).touchCmd m.id)

def dropTCmd (s : State) (c id : Nat) : State :=
  let k := s.core c
  s.setCore c (({ k with tq := k.tq.filter fun x => x.id != id } : Core).dropCmd id)

/-- A command pauses at its own posted fault (R224); one whose thread set is ending is abandoned there (R378), and one of
a service core halts it (R370). -/
def pauseTile (s : State) (c : Nat) (m : TCmd) (f : FaultInfo) : State :=
  if m.orphan then finishEnds (noteEnd (dropTCmd s c m.id) m.ts (max m.pts (chunkWindow s m.copy).pts))
  else if isService c then haltService s c
  else
    let r := addFault s m.ts 1 (engineInfo f m.bytes) m.instr m.pc m.id m.pts
    setTCmd r.1 c { m with paused := some r.2.toNat, opened := none, stall := none }

/-- The asid, root and core of a command's accesses; they leave no mark on the thread set's timestamp. -/
def engineWho (s : State) (t : Nat) : Who := { s.who t with ts := none }

/-- The bytes that a plan lands. -/
def planBytesOf (p : Plan) : Nat := p.moves.foldl (fun n m => n + m.n) 0

/-- The elements and the flag of a `put` are outstanding for its thread set's fences (R287). -/
def notePut (m : TCmd) (ls : List Loc) (s : State) : State :=
  match m.instr with
  | .put .. => if m.orphan then s else ls.foldl (fun s l => notePeer s (some m.ts) l) s
  | _ => s

/-- The spaces that elements land in. -/
def spacesOf (es : List Elem) : List Loc := (es.flatMap fun e => e.dst.map fun p => ({ space := p.loc.space, addr := 0 } : Loc)).eraseDups

/-- A command waits for a retraining peer (R468). -/
def stallTile (s : State) (c : Nat) (m : TCmd) (p : Nat) : State :=
  let s := if m.stall = some p then s
    else notePut m [if p = hostPeer then { space := .host, addr := 0 } else { space := .peer p, addr := 0 }] s
  setTCmd s c { m with stall := some p }

/-- What one command's chunk did: nothing for a peer, a fault, or a new form of the command. -/
inductive Ran where
  | waits (p : Nat) (m : TCmd)
  | faults (f : FaultInfo)
  | goes (m : TCmd) (bad : Option Nat)
  deriving DecidableEq, Repr

/-- One event of a command's chunk, or all that is left of it: its pages are translated first, in one event of their own
when the step is split; then its elements are read and land; the last one ends the chunk. -/
def runChunk (w : Who) (m : TCmd) (s : State) : Ran × State :=
  let red := match m.instr with | .cpyr .. => true | _ => false
  let run (m : TCmd) (es : List Elem) (bad0 : Option Nat) (s : State) : Ran × State :=
    match elemsWait s es with
    | some p => (.waits p { m with opened := some es }, s)
    | none =>
      let r := withClock m.pts (runElems w red es) s
      let g := r.1
      let s := r.2.2
      let m := { m with pts := r.2.1, stall := none }
      let bad := g.bad.orElse fun _ => bad0
      if !g.done red then (.goes { m with opened := some g.elems, token := if bad.isSome then 2 else m.token } bad, s)
      else
        let p := planOf s m
        let x := match m.instr with
          | .cpyr _ fn et .. => sendChunk (chunkOf w m fn et g.elems m.pts) s
          | _ => (none, s)
        let bad := bad.orElse fun _ => x.1
        (.goes { m with next := p.next, bytes := m.bytes + planBytesOf p, chunk := m.chunk + 1, finished := p.finished,
                        opened := none, token := if bad.isSome then 2 else m.token } bad, x.2)
  match m.opened with
  | some es => run m es none s
  | none =>
    match openChunk w m s with
    | .ok ((es, bad), s) =>
      let s := notePut m (spacesOf es) s
      if s.split then
        (.goes { m with opened := some es, stall := none, token := if bad.isEmpty then m.token else 2 } bad.head?, s)
      else run m es bad.head? s
    | .error (.fault f) => (.faults f, s)
    | .error (.peer p _ _ _) => (.waits p m, s)
    | .error _ => (.goes m none, s)

/-- A copying command's chunk. A reducing copy pauses once the chunks before the faulting one have landed (R224). -/
def copyChunk (s : State) (c : Nat) (m : TCmd) : State :=
  let r := runChunk (engineWho s m.ts) m s
  match r.1 with
  | .waits p m => stallTile r.2 c m p
  | .faults f => if (inFlight s m.copy).isEmpty then pauseTile r.2 c m f else s
  | .goes m' bad =>
    let s := match bad with | some a => if m.token = 2 then r.2 else errorLog r.2 (dieOfCore c) 5 0 m.launch a | none => r.2
    setTCmd s c m'

/-! ### The turn of a cloak (R214, R232) -/

/-- The destinations of a command: ranges of addresses that it may write. -/
def destRanges (s : State) (m : TCmd) : List (Nat × Nat) :=
  let c (i : Nat) : Word := m.c.getD i 0
  match m.instr with
  | .cpy .. => [(m.a.toNat, (c 0).toNat)]
  | .cpyr _ _ et .. => [(m.a.toNat, (c 0).toNat * et.bytes)]
  | .cpy2d .. => (List.range (bitsOf (c 0) 32 32)).map fun (i : Nat) => ((addInt m.a (sint32 (c 1) 0 * i)).toNat, bitsOf (c 0) 0 32)
  | .cpyRs .. =>
    match parseRecord m.b.toNat (BitVec.ofNat 1536 (getNum m.record 0 192)) with
    | some l => [(m.a.toNat, denseExtent l)]
    | none => []
  | .cpyRd .. =>
    match parseRecord m.a.toNat (BitVec.ofNat 1536 (getNum m.record 0 192)) with
    | some l => (List.range (boxCount l)).filterMap fun e => (boxMove l (originOf (c 0)) false m.b e).map fun (v : Move) => (v.dst.toNat, v.n)
    | none => []
  | .put _ et .glob .. =>
    ((c 2).toNat, 8) :: (List.range (c 1).toNat).map fun i =>
      ((m.a + BitVec.ofNat 64 (listIndex (s.core (coreOf m.ts)) (c 0) i * et.bytes)).toNat, et.bytes)
  | _ => []

/-- The page of an address lies in a cloak region, or may, once a page that is not present is mapped. -/
def inRegion (s : State) (w : Who) (region va : Nat) : Bool :=
  inGlobal va && match translate w {} va 1 s with | .ok (l, _) => l.cloak == some region | .error _ => true

/-- Some page of some range lies in a region. -/
def rangesMeet (s : State) (w : Who) (region : Nat) (rs : List (Nat × Nat)) : Bool :=
  rs.any fun r => (splitPages r.1 r.2).any fun p => inRegion s w region p.1

/-- A collective's receive range. -/
def recvRange (x : Instance) : List (Nat × Nat) :=
  match x.instr with
  | .coll _ op _ et _ scaled .. =>
    let n := match op with | .allGather | .allToAll => x.peers.length * x.count | _ => x.count
    [(x.recv.toNat, n * if scaled then 33 else et.bytes)]
  | _ => []

/-- Every engine command that a thread set issued earlier and that writes the region has completed (R232). Matrix commands
write local memory only. -/
def pubReady (s : State) (c : Nat) (m : TCmd) : Bool :=
  let w := engineWho s m.ts
  let region := (m.c.getD 0 0).toNat
  !((s.core c).tq.any fun x => x.ts == m.ts && x.id < m.id && rangesMeet s w region (destRanges s x)) &&
    !(s.coll.active.any fun x => x.ts == m.ts && x.cmd < m.id && rangesMeet s w region (recvRange x))

/-- The turn of a cloak region: no copy held before it serves a read after it; its time follows the command, every access of the
region, and the element writes to its lining before it. -/
def turnCloak (s : State) (region pts : Nat) : State :=
  let held (l : Loc) : Bool := l.cloak == some region
  let s := (s.msys.nc.filter fun x => held x.home).foldl (fun s x => ncDrop s x.die x.home) s
  let s := settle (fun x => if held x.home then some true else none) s
  let s := s.cores.foldl (fun s e => dropStash s e.1 fun x => held x.home) s
  let f := s.msys.flipped
  let at' (m : NMap Nat) : Nat := (m.get? region).getD 0
  let p := max pts (max (at' s.msys.cloakPts) (at' s.msys.liningPts))
  { s with msys := { s.msys with
    copies := s.msys.copies.filter fun x => !held x.home
    early := s.msys.early.map fun x => { x with turned := region :: x.turned }
    cloakPts := s.msys.cloakPts.set region p
    liningPts := s.msys.liningPts.set region p
    flipped := if f.contains region then f.filter (· != region) else region :: f } }

/-- `pub` at work: a release point, then the turn. -/
def runPub (s : State) (c : Nat) (m : TCmd) : State :=
  if !pubReady s c m then s
  else
    let s := placeFolds s m.ts scopeSys
    if waitsForPeer s m.ts then s
    else
      let p := max m.pts (s.ts m.ts).pts
      setTCmd (turnCloak s (m.c.getD 0 0).toNat p) c { m with finished := true, pts := p }

/-- A stash line lies in the range of a stash command (R230). -/
def stashHit (m : TCmd) (x : StashLine) : Bool :=
  m.b == 0 || (x.line < m.a.toNat + m.b.toNat && m.a.toNat < x.line + 64)

/-- One step of an accepted command that is neither paused nor at its end. -/
def tileChunk (s : State) (c : Nat) (m : TCmd) : State :=
  match m.instr with
  | .pub .. => runPub s c m
  | .stwb .. => setTCmd (cleanStash s c (stashHit m)) c { m with finished := true }
  | .stinv .. => setTCmd (dropStash s c (stashHit m)) c { m with finished := true }
  | .cpyr .. => if mayFly s m.copy m.chunk then copyChunk s c m else s
  | _ => copyChunk s c m

/-- A saved core's commands stay paused, but for those of an ended thread set (R378, R385). -/
def tileRests (c : Nat) (m : TCmd) : Bool := m.paused.isSome || (4096 ≤ c && !m.orphan)

/-- TILE_ENGINE_CHUNK. -/
def execTileEngineChunk (c id : Nat) (s : State) : Out :=
  match (s.core c).tq.find? fun m => m.id == id with
  | none => .next s
  | some m => .next (if m.finished || tileRests c m then s else tileChunk s c m)

/-- The flag increment of a `put` (R228): whether it met an uncorrectable word, which stays as it is (R223). -/
def putFlag (w : Who) (m : TCmd) : Op Bool := do
  let ps ← sideCheck w (dstXbar w.core m.instr) m.a .rmw (m.c.getD 2 0) 8
  fun s =>
    match ps with
    | p :: _ =>
      if (waitsAt s p.loc).isSome then .error (.peer hostPeer (m.c.getD 2 0) true [])
      else if uncorrectable s w p then .ok (true, s)
      else .ok (false, notePut m [p.loc] (rmwEvent w p (fun x => some ((x + 1) % 2 ^ 64)) s).2)
    | [] => .ok (false, s)

/-- The token register of a command that names one. -/
def tokenReg : Instr → Reg
  | .cpy _ d .. | .cpy2d _ d .. | .cpyRs _ d .. | .cpyRd _ d .. | .cpyr _ _ _ d .. | .get _ _ _ d .. | .put _ _ _ d ..
  | .stwb _ d .. | .stinv _ d .. | .pub _ d .. | .mwld _ _ _ d .. | .mdrain _ _ _ _ _ _ d .. | .mstat _ d ..
  | .coll _ _ _ _ _ _ _ d .. => d
  | _ => 0

/-- The token of a completed command, with the clock that its reader takes (R303); that of an ended thread set is discarded
(R112). -/
def giveToken (s : State) (t : Nat) (orphan : Bool) (d : Reg) (x : Word) (pts : Nat) : State :=
  if orphan then noteEnd s t pts else s.setTs t (noteDone ((s.ts t).writeToken d x) d pts)

/-- A later `pub` of a thread set follows the completions of its earlier commands. -/
def tellPubs (s : State) (c t pts : Nat) : State :=
  let k := s.core c
  let tell (x : TCmd) : TCmd := match x.instr with
    | .pub .. => if x.ts = t then { x with pts := max x.pts pts } else x
    | _ => x
  s.setCore c { k with tq := k.tq.map tell }

/-- A command has completed: it leaves the queue, and its token is written. -/
def endTile (s : State) (c : Nat) (m : TCmd) (pts : Nat) : State :=
  finishEnds (giveToken (tellPubs (dropTCmd s c m.id) c m.ts pts) m.ts m.orphan (tokenReg m.instr) m.token pts)

/-- A command whose elements have all landed completes: the flag of a `put`, then the token (R223, R228). -/
def completeTile (s : State) (c : Nat) (m : TCmd) : State :=
  match m.instr with
  | .put .. =>
    if m.skipped then endTile s c m m.pts
    else
      let flag (s : State) : Except Stop Bool × State :=
        match putFlag (engineWho s m.ts) m s with
        | .ok (b, s') => (.ok b, s')
        | .error e => (.error e, s)
      let r := withClock m.pts flag s
      match r.1 with
      | .ok bad =>
        let s := if bad && m.token != 2 then errorLog r.2.2 (dieOfCore c) 5 0 m.launch (m.c.getD 2 0).toNat else r.2.2
        endTile s c (if bad then { m with token := 2 } else m) r.2.1
      | .error (.fault f) => pauseTile r.2.2 c m f
      | .error (.peer p _ _ _) => stallTile r.2.2 c m p
      | .error _ => r.2.2
  | .cpyr .. =>
    if (inFlight s m.copy).isEmpty then
      endTile (releaseWindow s m.copy) c m (max m.pts (chunkWindow s m.copy).pts)
    else s
  | _ => endTile s c m m.pts

/-- TILE_COMMAND_COMPLETION. -/
def execTileCommandCompletion (c id : Nat) (s : State) : Out :=
  match (s.core c).tq.find? fun m => m.id == id with
  | none => .next s
  | some m => .next (if m.finished && !tileRests c m then completeTile s c m else s)

end Sys2Proof.Machine
end

