-- ==== Sys2Proof/Machine/Collective.lean ====
section
/-! DEFINITION. Collectives (R470 to R477): the meaning of `coll` and the steps of the collective unit. -/

namespace Sys2Proof.Machine

/-! ### The record and the issue (R470, R475) -/

/-- A collective fault. -/
def collFault (detail : Nat) (rank : Nat) : FaultInfo :=
  { cls := 15, detail, aux := BitVec.ofNat 64 (rank % 65536 * 65536) }

/-- What a record gives: identifier, rank, peer identifier of each rank. -/
structure CollRecord where
  id : Nat
  rank : Nat
  peers : List Nat
  deriving DecidableEq, Repr

/-- A position that a package of the fabric may hold; of this package's own row and column, its peers (R436). -/
def inFabric (s : State) (p : Nat) : Bool :=
  let me := s.mgmt.peerId.toNat
  p / 16 < s.fab.rows && p % 16 < s.fab.cols &&
    (p == me || (p / 16 != me / 16 && p % 16 != me % 16) || (s.peer? p).isSome)

/-- A read whose failure is the record's failure. -/
def readForRecord (w : Who) (addr : Word) (n : Nat) : Op Nat := fun s =>
  match memRead w .norm addr n s with
  | .error (.fault _) => .error (.fault (collFault 1 0))
  | r => r

/-- Reads and checks a collective record. -/
def collRecord (w : Who) (addr : Word) : Op CollRecord := do
  Op.need (addr.toNat % 64 = 0 && inGlobal addr.toNat) (collFault 1 0)
  let r ← readForRecord w addr 64
  let f (o n : Nat) : Nat := r / 2 ^ (8 * o) % 2 ^ (8 * n)
  let m := f 4 2
  let rank := f 6 2
  Op.need (2 ≤ m && m ≤ 256 && rank < m && r / 2 ^ 128 == 0) (collFault 1 0)
  let l ← readForRecord w (BitVec.ofNat 64 (f 8 8)) m
  let peers := (List.range m).map fun q => l / 2 ^ (8 * q) % 256
  let s ← Op.ask id
  Op.need (peers.all (inFabric s) && peers.eraseDups.length == m && peers.getD rank 0 == s.mgmt.peerId.toNat) (collFault 1 0)
  pure { id := f 0 4, rank, peers }

/-- The bytes of one element: a scaled block has 33 (R57, R471). -/
def collBytes (et : ElemTy) (scaled : Bool) : Nat := if scaled then 33 else et.bytes

/-- The elements of the send and the receive buffer (R472). -/
def sendCount (op : CollOp) (m n : Nat) : Nat := match op with | .reduceScatter | .allToAll => m * n | _ => n
def recvCount (op : CollOp) (m n : Nat) : Nat := match op with | .allGather | .allToAll => m * n | _ => n

/-- Row 2 of R475: a buffer may neither straddle the window nor lie in it or in the hole. -/
def collBuffer (a : Word) (n : Nat) : Op Unit := do
  let last := (a + BitVec.ofNat 64 n - 1).toNat
  Op.need (n = 0 || inWindow a.toNat == inWindow last) { cls := 7, info := a }
  Op.need (n = 0 || (inGlobal a.toNat && inGlobal last && a.toNat ≤ last)) (collFault 2 0)

/-- The collective unit takes the command (R110, R475). -/
def acceptColl (i : Instr) (d : Reg) (x : Instance) (red : Bool) (s : State) : State :=
  let c := coreOf s.cur
  let k := s.core c
  let t := s.me
  let cp := if red then nextCopy s else (0, s)
  let s := cp.2
  let x := { x with cmd := k.nextCmd, ts := s.cur, launch := t.launch, instr := i, pc := t.pc, copy := cp.1, pts := t.pts }
  let s := s.setCore c { s.core c with nextCmd := k.nextCmd + 1 }
  let s := { s with coll := { s.coll with active := s.coll.active ++ [x] } }
  s.setMe (t.pend d)

/-- A reducing operation. -/
def reducing : CollOp → Bool
  | .reduceScatter | .allReduce => true
  | _ => false

def execColl (g : Guard) (op : CollOp) (fn : RedOp) (et : ElemTy) (wire scaled : Bool) (root : BitVec 8) (d a b c : Reg)
    (n : Imm 13) (s : State) : Out :=
  let t := s.me
  let i : Instr := .coll g op fn et wire scaled root d a b c n
  let len := extLen n
  guarded g len s (runOp i len (do
    let r ← collRecord (s.who s.cur) (t.getS a)
    let m := r.peers.length
    let cnt := (immZext n).toNat
    let es := collBytes et scaled
    let sb := sendCount op m cnt * es
    let rb := recvCount op m cnt * es
    collBuffer (t.getS b) sb
    collBuffer (t.getS c) rb
    Op.need (sb ≤ 2 ^ 48 && rb ≤ 2 ^ 48) (collFault 2 0)
    let x : Instance :=
      { id := r.id, cmd := 0, ts := 0, launch := 0, instr := i, pc := 0, send := t.getS b, recv := t.getS c, count := cnt,
        rank := r.rank, peers := r.peers }
    Op.upd (acceptColl i d x (reducing op))) s)

/-! ### Instances (R475, R477) -/

def setInstance (s : State) (x : Instance) : State :=
  let same (y : Instance) : Bool := y.cmd == x.cmd && coreOf y.ts == coreOf x.ts
  { s with coll := { s.coll with active := s.coll.active.map fun y => if same y then x else y } }

def dropInstance (s : State) (x : Instance) : State :=
  let same (y : Instance) : Bool := y.cmd == x.cmd && coreOf y.ts == coreOf x.ts
  { s with coll := { s.coll with active := s.coll.active.filter fun y => !same y } }

/-- The ranks other than this member's. -/
def otherRanks (x : Instance) : List Nat := (List.range x.peers.length).filter fun q => q != x.rank

/-- Takes the oldest joined member of an identifier and rank. -/
def takeJoined (id rank : Nat) : List (Nat × Member) → Option (Member × List (Nat × Member))
  | [] => none
  | (j, m) :: r =>
    if j = id && m.rank = rank then some (m, r)
    else (takeJoined id rank r).map fun q => (q.1, (j, m) :: q.2)

/-- Takes a joined member for each of some ranks. -/
def takeAll (id : Nat) : List Nat → List (Nat × Member) → Option (List Member × List (Nat × Member))
  | [], j => some ([], j)
  | q :: r, j =>
    match takeJoined id q j with
    | none => none
    | some (m, j') => (takeAll id r j').map fun p => (m :: p.1, p.2)

/-- COLLECTIVE_INSTANCE_START: every member has joined the oldest instance of an identifier that has not started. -/
def execCollectiveInstanceStart (i : Nat) (s : State) : Out :=
  match s.coll.active[i]? with
  | none => .next s
  | some x =>
    if x.started || (s.coll.active.take i).any fun y => y.id == x.id && !y.started then .next s
    else
      match takeAll x.id (otherRanks x) s.coll.joined with
      | none => .next s
      | some (ms, j) => .next (setInstance { s with coll := { s.coll with joined := j } } { x with members := ms, started := true })

/-- What every member must issue alike (R477). -/
abbrev CollParams := CollOp × RedOp × ElemTy × Nat × Bool × Bool × Nat

def ownParams (x : Instance) : Option CollParams :=
  match x.instr with
  | .coll _ op fn et wire scaled root .. => some (op, fn, et, x.count, scaled, wire, root.toNat)
  | _ => none

def memberParams (m : Member) : CollParams := (m.op, m.fn, m.et, m.n, m.scaled, m.wire, m.root)

def memberOf (x : Instance) (q : Nat) : Option Member := x.members.find? fun m => m.rank == q

/-- The parameters of rank 0, and the ranks that differ from it. -/
def paramsOf (x : Instance) (q : Nat) : Option CollParams :=
  if q = x.rank then ownParams x else (memberOf x q).map memberParams

def mismatched (x : Instance) : List Nat := (List.range x.peers.length).filter fun q => paramsOf x q != paramsOf x 0

/-! ### Elements (R472, R474) -/

/-- The send elements (rank, index) that a receive element is made of. -/
def elemSources (op : CollOp) (m n r root e : Nat) : List (Nat × Nat) :=
  match op with
  | .allGather => [(e / n, e % n)]
  | .reduceScatter => (List.range m).map fun q => (q, r * n + e)
  | .allReduce => (List.range m).map fun q => (q, e)
  | .broadcast => [(root, e)]
  | .allToAll => [(e / n, r * n + e % n)]

/-- An f32 pattern rounded to bf16 for the wire, as an f32 pattern (R474). -/
def wireRound (x : Nat) : Nat := ((fmtOf .bf16).deliver .rne false (((fmtOf .f32).decode x).exact, {})).1 * 65536

/-- One operation of a tree. On the wire form at least one operand has been sent, so rounded; `place` says which is at
home: neither, the first, or the second. -/
def treeStep (wire : Bool) (fn : RedOp) (et : ElemTy) (place a b : Nat) : Nat :=
  let a' := if wire && place % 3 != 1 then wireRound a else a
  let b' := if wire && place % 3 != 2 then wireRound b else b
  foldStep (redFn fn) et a' b'

/-- The value of some tree of two-operand operations: which operands each joins is open (log entry 8). -/
def treeValue (wire : Bool) (fn : RedOp) (et : ElemTy) : Nat → List Nat → State → Nat × State
  | 0, l, s => (l.headD 0, s)
  | _ + 1, [], s => (0, s)
  | _ + 1, [x], s => (x, s)
  | fuel + 1, l, s =>
    let c := s.pick
    let i := c.1 % l.length
    let a := l.getD i 0
    let l := l.eraseIdx i
    let c' := c.2.pick
    let j := c'.1 % l.length
    let b := l.getD j 0
    let p := if wire then c'.2.pick else (0, c'.2)
    treeValue wire fn et fuel (treeStep wire fn et p.1 a b :: l.eraseIdx j) p.2

/-- A receive element: own send elements by index, with a mark of those read from an uncorrectable word. -/
def collElement (x : Instance) (wire : Bool) (fn : RedOp) (et : ElemTy) (own : NMap (Nat × Bool)) (src : List (Nat × Nat))
    (s : State) : (Nat × Bool) × State :=
  let vs := src.map fun q =>
    if q.1 = x.rank then (own.get? q.2).getD (0, false)
    else match memberOf x q.1 with | some m => (m.send.getD q.2 0, false) | none => (0, false)
  let r := treeValue wire fn et vs.length (vs.map Prod.fst) s
  ((r.1, vs.any Prod.snd), r.2)

/-! ### Chunks (R476) -/

/-- The command of an ended thread set is abandoned: nobody is there to reply (R378). -/
def abandonInstance (s : State) (x : Instance) : State :=
  finishEnds (noteEnd (dropInstance s x) x.ts (max x.pts (chunkWindow s x.copy).pts))

/-- The member's instance pauses at its own posted fault. -/
def pauseInstance (s : State) (x : Instance) (f : FaultInfo) : State :=
  if x.orphan then abandonInstance s x
  else if isService (coreOf x.ts) then haltService s (coreOf x.ts)
  else
    let r := addFault s x.ts 2 (engineInfo f x.bytes) x.instr x.pc x.cmd x.pts
    setInstance r.1 { x with paused := some r.2.toNat, opened := none, got := [], half := [], landed := [] }

/-- What a chunk does: own send elements to read, and receive elements to land. -/
structure CollPlan where
  reads : List Nat
  lands : List Nat
  deriving DecidableEq, Repr

/-- The elements that a command handles: own send elements and receive elements. -/
def collTotals (x : Instance) (op : CollOp) (root : Nat) : Nat × Nat :=
  let m := x.peers.length
  (if op = .broadcast && x.rank != root then 0 else sendCount op m x.count, recvCount op m x.count)

/-- The elements of a chunk from a first one: to the end of a 4 KiB piece of the receive buffer. -/
def collSize (x : Instance) (es total start : Nat) : Nat :=
  min (total - start) (max 1 (pieceRest (x.recv + BitVec.ofNat 64 (start * es)) / es))

/-- The first elements of the chunks of a command, from one on. -/
def chunkStarts (x : Instance) (es total : Nat) : (fuel start : Nat) → List Nat
  | 0, _ => []
  | fuel + 1, start => if total ≤ start then [] else start :: chunkStarts x es total fuel (start + collSize x es total start)

/-- The chunks of a command that have not landed. -/
def chunksLeft (x : Instance) (op : CollOp) (es root : Nat) : List Nat :=
  let t := collTotals x op root
  let total := max t.1 t.2
  (chunkStarts x es total total 0).filter fun a => !x.done.contains a

/-- The chunk from a first element: receive elements, with the own send elements of the same numbers and those that the
receive elements need. -/
def collPlan (x : Instance) (op : CollOp) (es root start : Nat) : CollPlan :=
  let t := collTotals x op root
  let es' := (List.range (collSize x es (max t.1 t.2) start)).map (start + ·)
  let lands := es'.filter fun e => e < t.2
  let need := lands.flatMap fun e => (elemSources op x.peers.length x.count x.rank root e).filterMap fun q =>
    if q.1 = x.rank then some q.2 else none
  { reads := (es'.filter (fun e => e < t.1) ++ need).eraseDups, lands }

/-- A chunk whose pages have been translated (R224): the pieces of each own send element to read and of each receive
element to land. -/
structure CollPages where
  reads : List (Nat × List Piece)
  lands : List (Nat × List Piece)
  deriving DecidableEq, Repr

/-- The accesses of the collective unit: it lies in the hub, beside no die's slices. -/
def collWho (s : State) (t : Nat) : Who := { engineWho s t with core := hubCore }

/-- Translates a chunk before an element of it lands. -/
def collPages (w : Who) (x : Instance) (es : Nat) (p : CollPlan) : Op CollPages := do
  let lands ← p.lands.mapM fun e => do
    let ps ← checkAccess w .store (x.recv + BitVec.ofNat 64 (e * es)) es
    pure (e, ps)
  let reads ← p.reads.mapM fun i => do
    let ps ← checkAccess w .load (x.send + BitVec.ofNat 64 (i * es)) es
    pure (i, ps)
  pure { reads, lands }

/-- What the steps of a chunk need of its instruction. -/
structure CollOpt where
  op : CollOp
  fn : RedOp
  et : ElemTy
  wire : Bool
  es : Nat
  root : Nat
  deriving DecidableEq, Repr

/-- The bytes of pieces. -/
def bytesIn (ps : List Piece) : Nat := ps.foldl (fun n p => n + p.n) 0

/-- The next event of an element: all of its pieces, or on a device page the first natural one (R272, R294); and the pieces
left. -/
def nextPieces (ps : List Piece) : List Piece × List Piece :=
  if ps.any fun p => p.loc.type == 2 then ((devicePieces ps).take 1, (devicePieces ps).drop 1) else (ps, [])

/-- The pieces left of an own send element, or of a receive element, of the running chunk. -/
def leaveRead (x : Instance) (e : Nat) (ps : List Piece) : Instance :=
  { x with opened := x.opened.map fun c => (c.1, c.2.1.map fun r => if r.1 = e then (e, ps) else r, c.2.2) }
def leaveLand (x : Instance) (e : Nat) (ps : List Piece) : Instance :=
  { x with opened := x.opened.map fun c => (c.1, c.2.1, c.2.2.map fun r => if r.1 = e then (e, ps) else r) }

/-- Reads pieces of an own send element, after those that have been read; `left` are the ones to come. -/
def readOwn (w : Who) (es : Nat) (e : Nat × List Piece) (left : List Piece) (x : Instance) (s : State) : Instance × State :=
  let off := es - bytesIn e.2 - bytesIn left
  let g := engineRead w e.2 s
  let h := (x.half.get? e.1).getD (0, false)
  let bad := !g.1.bad.isEmpty
  let v : Nat × Bool := (h.1 + 2 ^ (8 * off) * g.1.val, h.2 || bad)
  let x := { x with token := if bad then 2 else x.token }
  (if left.isEmpty then { x with got := x.got.set e.1 v } else leaveRead { x with half := x.half.set e.1 v } e.1 left, g.2)

/-- The value of a receive element, or none from an uncorrectable word. -/
def recvValue (o : CollOpt) (x : Instance) (e : Nat) (s : State) : Option Nat × State :=
  let v := collElement x o.wire o.fn o.et x.got (elemSources o.op x.peers.length x.count x.rank o.root e) s
  (if v.1.2 then none else some v.1.1, v.2)

/-- Lands pieces of a receive element, after those that have landed; `left` are the ones to come. -/
def landRecv (w : Who) (o : CollOpt) (e : Nat × List Piece) (left : List Piece) (x : Instance) (s : State) : Instance × State :=
  let off := o.es - bytesIn e.2 - bytesIn left
  let v := recvValue o x e.1 s
  let g : Got := match v.1 with | some y => { val := y / 2 ^ (8 * off) } | none => { val := 0, bad := List.range o.es }
  (if left.isEmpty then { x with landed := e.1 :: x.landed } else leaveLand x e.1 left, engineWrite w g e.2 v.2)

/-- The elements of a reducing chunk that is sent. -/
def redElems (o : CollOpt) (x : Instance) : List (Nat × List Piece) → State → List (Piece × Option Nat) × State
  | [], s => ([], s)
  | e :: r, s =>
    let v := recvValue o x e.1 s
    let q := redElems o x r v.2
    (e.2.map (fun p => (p, v.1)) ++ q.1, q.2)

/-- Sends the receive elements of a reducing chunk under its number (R391, R476). -/
def sendRecv (w : Who) (o : CollOpt) (x : Instance) (ls : List (Nat × List Piece)) (s : State) : Instance × State :=
  let q := redElems o x ls s
  let ch : Chunk := { copy := x.copy, seq := x.done.length, core := w.core, asid := w.asid, root := w.root, fn := none, et := o.et,
                      elems := q.1, pts := s.msys.agent }
  ({ x with landed := ls.map Prod.fst ++ x.landed }, { q.2 with msys := { q.2.msys with flight := q.2.msys.flight ++ [ch] } })

/-- The events of a chunk that may be next: own send elements to read, and receive elements whose needs have been read. -/
def collTodo (o : CollOpt) (x : Instance) (p : CollPages) : List (Nat × List Piece) × List (Nat × List Piece) :=
  let isRead (i : Nat) : Bool := (x.got.get? i).isSome
  let needs (e : Nat) : Bool := (elemSources o.op x.peers.length x.count x.rank o.root e).all fun q => q.1 != x.rank || isRead q.2
  (p.reads.filter fun e => !isRead e.1, p.lands.filter fun e => needs e.1 && !x.landed.contains e.1)

/-- One event of a chunk, any of those that may be next (R294, R303); a reducing chunk is sent once all its elements have been
read. -/
def collOne (w : Who) (o : CollOpt) (x : Instance) (p : CollPages) (s : State) : Instance × State :=
  let t := collTodo o x p
  if reducing o.op && t.1.isEmpty then sendRecv w o x p.lands s
  else
    let ls := if reducing o.op then [] else t.2
    let c := s.pick
    let i := c.1 % (t.1.length + ls.length)
    match t.1[i]?, ls[i - t.1.length]? with
    | some e, _ => let p := nextPieces e.2; readOwn w o.es (e.1, p.1) p.2 x c.2
    | none, some e => let p := nextPieces e.2; landRecv w o (e.1, p.1) p.2 x c.2
    | none, none => (x, c.2)

/-- All that is left of a chunk. -/
def collAll (w : Who) (o : CollOpt) (x : Instance) (p : CollPages) (s : State) : Instance × State :=
  let r := (collTodo o x p).1.foldl (fun r e => readOwn w o.es e [] r.1 r.2) (x, s)
  if reducing o.op then sendRecv w o r.1 p.lands r.2
  else (p.lands.filter fun e => !x.landed.contains e.1).foldl (fun r e => landRecv w o e [] r.1 r.2) r

/-- The peer that a chunk waits for (R468), or the host while its port is down. -/
def collWaits (s : State) (p : CollPages) : Option Nat :=
  ((p.reads ++ p.lands).flatMap Prod.snd).findSome? fun q => waitsAt s q.loc

/-- A fault of a chunk: a reducing collective pauses once the chunks that it has sent have landed (R224). -/
def chunkFault (s : State) (x : Instance) (f : FaultInfo) : State :=
  if (inFlight s x.copy).isEmpty then pauseInstance s x f else s

/-- A running chunk: one event of it, or all that is left. -/
def runColl (s : State) (x : Instance) (o : CollOpt) (start : Nat) (p : CollPages) : State :=
  if (collWaits s p).isSome then setInstance s x
  else
    let w := collWho s x.ts
    let r := withClock x.pts (if s.split then collOne w o x p else collAll w o x p) s
    let y := { r.1 with pts := r.2.1 }
    let s := r.2.2
    let s := if y.token = 2 && x.token != 2 then errorLog s (dieOfCore (coreOf x.ts)) 5 0 x.launch x.send.toNat else s
    let left := !(collTodo o y p).1.isEmpty || p.lands.any fun e => !y.landed.contains e.1
    if left then setInstance s y
    else
      let y := { y with done := start :: x.done, bytes := x.bytes + p.lands.length * o.es, opened := none, got := [], half := [], landed := [] }
      setInstance s { y with finished := (chunksLeft y o.op o.es o.root).isEmpty }

/-- A chunk of a started instance whose members agree: its pages are translated first, in an event of their own when the step
is split; then one event of it, or all that is left (R476). Which chunk is next is open, but for a reducing collective,
whose chunks are numbered in order (R303, R391). -/
def collChunk (s : State) (x : Instance) : State :=
  match x.instr with
  | .coll _ op fn et wire scaled root .. =>
    let o : CollOpt := { op, fn, et, wire, es := collBytes et scaled, root := root.toNat }
    match x.opened with
    | some c => runColl s x o c.1 { reads := c.2.1, lands := c.2.2 }
    | none =>
      match chunksLeft x op o.es o.root with
      | [] => setInstance s { x with finished := true }
      | a :: r =>
        let c : Nat × State := if reducing op || r.isEmpty then (0, s) else s.pick
        let start := (a :: r).getD (c.1 % (r.length + 1)) a
        if reducing op && !mayFly s x.copy x.done.length then s
        else
          match collPages (collWho s x.ts) x o.es (collPlan x op o.es o.root start) c.2 with
          | .error (.fault f) => chunkFault s x f
          | .error _ => s
          | .ok (pg, s) =>
            let x := { x with opened := some (start, pg.reads, pg.lands) }
            if s.split then setInstance s x else runColl s x o start pg
  | _ => s

/-- COLLECTIVE_CHUNK (R476, R477): a lost member, then a mismatch, comes before any data. -/
def execCollectiveChunk (i : Nat) (s : State) : Out :=
  match s.coll.active[i]? with
  | none => .next s
  | some x =>
    if x.paused.isSome || x.finished || (4096 ≤ coreOf x.ts && !x.orphan) then .next s
    else
      match x.lost with
      | q :: _ => .next (chunkFault s x (collFault 3 q))
      | [] =>
        if !x.started then .next s
        else
          let bad := mismatched x
          if bad.contains x.rank then .next (pauseInstance s x (collFault 4 0))
          else if !bad.isEmpty then .next (if x.orphan then abandonInstance s x else s)
          else .next (collChunk s x)

/-- COLLECTIVE_COMPLETION: the command leaves the unit, and its token is written (R476). -/
def execCollectiveCompletion (i : Nat) (s : State) : Out :=
  match s.coll.active[i]? with
  | none => .next s
  | some x =>
    if x.finished && x.paused.isNone && (x.copy == 0 || (inFlight s x.copy).isEmpty) then
      let p := if x.copy = 0 then x.pts else max x.pts (chunkWindow s x.copy).pts
      let s := tellPubs (releaseWindow (dropInstance s x) x.copy) (coreOf x.ts) x.ts p
      .next (finishEnds (giveToken s x.ts x.orphan (tokenReg x.instr) x.token p))
    else .next s

/-- A member of another package is lost to every accepted instance that has it (R477). -/
def loseMembers (s : State) (peer : Nat) : State :=
  let lose (x : Instance) : Instance :=
    if x.peers.contains peer then { x with lost := x.lost ++ [x.peers.findIdx (· == peer)] } else x
  { s with coll := { s.coll with active := s.coll.active.map lose } }

/-! ### What the members of other packages do -/

/-- A member of another package joins an instance of an identifier (R475). -/
def peerJoins (s : State) (peer id : Nat) (m : Member) : State :=
  { s with coll := { s.coll with joined := s.coll.joined ++ [(id, { m with pkg := peer })] } }

/-- The oldest accepted instance of an identifier that has a package as a member. -/
def instanceWith (s : State) (peer id : Nat) : Option Instance := s.coll.active.find? fun x => x.id == id && x.peers.contains peer

/-- A member of another package ended by a SKIP reply: the instance ends at this member, whose token is 3 (R476); a fault of it
that was outstanding is stale. -/
def peerSkips (s : State) (peer id : Nat) : State :=
  match instanceWith s peer id with
  | some x =>
    if !x.started || x.finished then s
    else
      let s := { s with faults := { s.faults with
        recs := s.faults.recs.filter fun r => !(r.source == 2 && r.cmd == x.cmd && r.ts == x.ts) } }
      setInstance s { x with finished := true, token := 3, paused := none, opened := none, got := [], half := [], landed := [] }
  | none => s

/-- A member of another package ended by ABORT or KILL: this member receives a detail-3 fault (R476, R477). -/
def peerEnds (s : State) (peer id : Nat) : State :=
  let s := { s with coll := { s.coll with joined := s.coll.joined.filter fun j => !(j.1 == id && j.2.pkg == peer) } }
  match instanceWith s peer id with
  | some x => if x.finished then s else setInstance s { x with lost := x.lost ++ [x.peers.findIdx (· == peer)] }
  | none => s

end Sys2Proof.Machine
end

