-- ==== Sys2Proof/Machine/Scalar.lean ====
section
/-! DEFINITION. Meanings of the integer register operations, immediates, comparisons and predicates (R120 to R128). -/

namespace Sys2Proof.Machine

/-- Ends a base instruction of a length that writes S[d]. -/
def writeS (d : Reg) (x : Word) (len : Nat) (s : State) : Out := nextMe s (s.me.setS d x) len

/-- A binary operation on scalar registers. -/
def binop (f : Word → Word → Word) (d a b : Reg) (s : State) : Out := writeS d (f (s.me.getS a) (s.me.getS b)) 4 s

/-- The shift amount of a register (R121). -/
def shamt (y : Word) : Nat := y.toNat % 64

def rotateRight (x : Word) (n : Nat) : Word := x >>> n ||| x <<< (64 - n)

/-- The 128-bit products' upper halves (R121). -/
def mulHigh (x y : Word) : Word := BitVec.ofInt 64 (x.toInt * y.toInt / 2 ^ 64)
def mulHighU (x y : Word) : Word := BitVec.ofNat 64 (x.toNat * y.toNat / 2 ^ 64)

/-- Number of leading zero bits; 64 for 0. -/
def leadingZeros (x : Word) : Nat := if x = 0 then 64 else 63 - Nat.log2 x.toNat

/-- Number of trailing zero bits from bit i on, of n bits. -/
def trailingFrom (x : Nat) : Nat → Nat → Nat
  | 0, i => i
  | n + 1, i => if x.testBit i then i else trailingFrom x n (i + 1)

def trailingZeros (x : Word) : Nat := trailingFrom x.toNat 64 0

/-- Number of one bits among the first n. -/
def onesOf (x : Nat) : Nat → Nat
  | 0 => 0
  | n + 1 => (if x.testBit n then 1 else 0) + onesOf x n

/-- The field that S[b] describes (R123): position and width. -/
def fieldPos (y : Word) : Nat := y.toNat % 64
def fieldWidth (y : Word) : Nat := min (y.toNat / 256 % 128) (64 - fieldPos y)

def bitExtract (x y : Word) : Word := BitVec.ofNat 64 (x.toNat / 2 ^ fieldPos y % 2 ^ fieldWidth y)

def bitInsert (old x y : Word) : Word :=
  let mask : Word := BitVec.ofNat 64 ((2 ^ fieldWidth y - 1) * 2 ^ fieldPos y)
  (old &&& ~~~mask) ||| ((x <<< fieldPos y) &&& mask)

/-- The width of `sext` and `zext` in bits (R123). -/
def extBits : ExtWidth → Nat
  | .b => 8 | .h => 16 | .w => 32

def signExt (x : Word) (w : Nat) : Word := (x.setWidth w).signExtend 64
def zeroExt (x : Word) (w : Nat) : Word := (x.setWidth w).setWidth 64

/-- Conditions of R127. -/
def condHolds (c : Cond) (x y : Word) : Bool :=
  match c with
  | .eq => x == y
  | .ne => x != y
  | .lt => x.slt y
  | .ge => !x.slt y
  | .ltu => x.ult y
  | .geu => !x.ult y

/-- Functions of `plog` (R128), for one bit. -/
def logBit (f : LogFn) (x y : Bool) : Bool :=
  match f with
  | .and => x && y
  | .or => x || y
  | .xor => x != y
  | .andn => x && !y
  | .not => !x
  | .mov => x

/-- A division (R122): a zero divisor posts a fault with the dividend, and S[d] is not written. -/
def divide (i : Instr) (f : Word → Word → Word) (d a b : Reg) (s : State) : Out :=
  if s.me.getS b = 0 then .next (postFault i { cls := 2, info := s.me.getS a } s) else binop f d a b s

def execAdd (d a b : Reg) (s : State) : Out := binop (· + ·) d a b s
def execSub (d a b : Reg) (s : State) : Out := binop (· - ·) d a b s
def execMul (d a b : Reg) (s : State) : Out := binop (· * ·) d a b s
def execMulh (d a b : Reg) (s : State) : Out := binop mulHigh d a b s
def execMulhu (d a b : Reg) (s : State) : Out := binop mulHighU d a b s
def execDiv (d a b : Reg) (s : State) : Out := divide (.div d a b) BitVec.sdiv d a b s
def execDivu (d a b : Reg) (s : State) : Out := divide (.divu d a b) BitVec.udiv d a b s
def execRem (d a b : Reg) (s : State) : Out := divide (.rem d a b) BitVec.srem d a b s
def execRemu (d a b : Reg) (s : State) : Out := divide (.remu d a b) BitVec.umod d a b s
def execAnd (d a b : Reg) (s : State) : Out := binop (· &&& ·) d a b s
def execOr (d a b : Reg) (s : State) : Out := binop (· ||| ·) d a b s
def execXor (d a b : Reg) (s : State) : Out := binop (· ^^^ ·) d a b s
def execAndn (d a b : Reg) (s : State) : Out := binop (fun x y => x &&& ~~~y) d a b s
def execShl (d a b : Reg) (s : State) : Out := binop (fun x y => x <<< shamt y) d a b s
def execShr (d a b : Reg) (s : State) : Out := binop (fun x y => x >>> shamt y) d a b s
def execSra (d a b : Reg) (s : State) : Out := binop (fun x y => x.sshiftRight (shamt y)) d a b s
def execRotr (d a b : Reg) (s : State) : Out := binop (fun x y => rotateRight x (shamt y)) d a b s
def execMin (d a b : Reg) (s : State) : Out := binop (fun x y => if y.slt x then y else x) d a b s
def execMax (d a b : Reg) (s : State) : Out := binop (fun x y => if x.slt y then y else x) d a b s
def execMinu (d a b : Reg) (s : State) : Out := binop (fun x y => if y.ult x then y else x) d a b s
def execMaxu (d a b : Reg) (s : State) : Out := binop (fun x y => if x.ult y then y else x) d a b s
def execClz (d a : Reg) (s : State) : Out := writeS d (BitVec.ofNat 64 (leadingZeros (s.me.getS a))) 4 s
def execCtz (d a : Reg) (s : State) : Out := writeS d (BitVec.ofNat 64 (trailingZeros (s.me.getS a))) 4 s
def execPopc (d a : Reg) (s : State) : Out := writeS d (BitVec.ofNat 64 (onesOf (s.me.getS a).toNat 64)) 4 s
def execSext (wd : ExtWidth) (d a : Reg) (s : State) : Out := writeS d (signExt (s.me.getS a) (extBits wd)) 4 s
def execZext (wd : ExtWidth) (d a : Reg) (s : State) : Out := writeS d (zeroExt (s.me.getS a) (extBits wd)) 4 s
def execBfx (d a b : Reg) (s : State) : Out := binop bitExtract d a b s
def execBfi (d a b : Reg) (s : State) : Out := binop (bitInsert (s.me.getS d)) d a b s
def execSel (p : PReg) (d a b : Reg) (s : State) : Out := binop (fun x y => if s.me.getP p then x else y) d a b s
def execShadd (n : Fin 8) (d a b : Reg) (s : State) : Out := binop (fun x y => x <<< n.val + y) d a b s

def execAddi (d a : Reg) (imm : Imm 14) (s : State) : Out := writeS d (s.me.getS a + immVal imm) (baseLen imm) s
def execAndi (d a : Reg) (imm : Imm 14) (s : State) : Out := writeS d (s.me.getS a &&& immVal imm) (baseLen imm) s
def execOri (d a : Reg) (imm : Imm 14) (s : State) : Out := writeS d (s.me.getS a ||| immVal imm) (baseLen imm) s
def execXori (d a : Reg) (imm : Imm 14) (s : State) : Out := writeS d (s.me.getS a ^^^ immVal imm) (baseLen imm) s
def execShli (d a : Reg) (n : Fin 64) (s : State) : Out := writeS d (s.me.getS a <<< n.val) 4 s
def execShri (d a : Reg) (n : Fin 64) (s : State) : Out := writeS d (s.me.getS a >>> n.val) 4 s
def execSrai (d a : Reg) (n : Fin 64) (s : State) : Out := writeS d ((s.me.getS a).sshiftRight n.val) 4 s
def execLi (d : Reg) (imm : Imm 19) (s : State) : Out := writeS d (immVal imm) (baseLen imm) s
def execAddpc (d : Reg) (imm : Imm 19) (s : State) : Out := writeS d (s.me.pc + immVal imm) (baseLen imm) s
def execAddcb (d : Reg) (imm : Imm 19) (s : State) : Out := writeS d (s.me.cb + immVal imm) (baseLen imm) s

def execCmp (c : Cond) (d a b : Reg) (s : State) : Out := binop (fun x y => if condHolds c x y then 1 else 0) d a b s
def execPcmp (c : Cond) (d : PReg) (a b : Reg) (s : State) : Out :=
  nextMe s (s.me.setP d (condHolds c (s.me.getS a) (s.me.getS b))) 4
def execPlog (f : LogFn) (d a b : PReg) (s : State) : Out :=
  nextMe s (s.me.setP d (logBit f (s.me.getP a) (s.me.getP b))) 4

end Sys2Proof.Machine
end

