-- ==== Sys2Proof/Machine/Control.lean ====
section
/-! DEFINITION. Meanings of the control-flow instructions (R129 to R132). -/

namespace Sys2Proof.Machine

/-- The pc becomes an address. -/
def jumpTo (s : State) (t : ThreadSet) (pc : Word) : Out := .next (s.setMe (t.setPc pc))

/-- A branch: PC + offset when taken, else the next instruction (R85). -/
def branch {n : Nat} (taken : Bool) (off : Imm n) (s : State) : Out :=
  if taken then jumpTo s s.me (s.me.pc + branchVal off) else nextMe s s.me (baseLen off)

def compareBranch (c : Cond) (a b : Reg) (off : Imm 11) (s : State) : Out :=
  branch (condHolds c (s.me.getS a) (s.me.getS b)) off s

def execBeq (a b : Reg) (off : Imm 11) (s : State) : Out := compareBranch .eq a b off s
def execBne (a b : Reg) (off : Imm 11) (s : State) : Out := compareBranch .ne a b off s
def execBlt (a b : Reg) (off : Imm 11) (s : State) : Out := compareBranch .lt a b off s
def execBge (a b : Reg) (off : Imm 11) (s : State) : Out := compareBranch .ge a b off s
def execBltu (a b : Reg) (off : Imm 11) (s : State) : Out := compareBranch .ltu a b off s
def execBgeu (a b : Reg) (off : Imm 11) (s : State) : Out := compareBranch .geu a b off s
def execBp (neg : Bool) (p : PReg) (off : Imm 20) (s : State) : Out := branch (s.me.getP p != neg) off s
def execJ (off : Imm 24) (s : State) : Out := branch true off s

/-- `jal` links PC + length in `s31` (R86). -/
def execJal (off : Imm 24) (s : State) : Out :=
  jumpTo s (s.me.setS 31 (s.me.pc + BitVec.ofNat 64 (baseLen off))) (s.me.pc + branchVal off)

/-- A jump to S[a]; a target that is not a multiple of 4 faults at the jump, with no link (R87). -/
def jumpReg (i : Instr) (link : Reg) (a : Reg) (s : State) : Out :=
  let t := s.me.getS a
  if t.extractLsb' 0 2 != 0 then .next (postFault i { cls := 1 } s)
  else jumpTo s (s.me.setS link (s.me.pc + 4)) t

def execJr (a : Reg) (s : State) : Out := jumpReg (.jr a) 0 a s
def execJalr (d a : Reg) (s : State) : Out := jumpReg (.jalr d a) d a s

end Sys2Proof.Machine
end

