-- ==== Sys2Proof/Machine/VectorFp.lean ====
section
/-! DEFINITION. Meanings of the floating-point vector instructions (R155 to R158) and of conversion, quantisation and the
rider (R161 to R165). -/

namespace Sys2Proof.Machine

/-- The effective rounding mode; a dynamic mode of 5, 6 or 7 acts as RNE and sets NV (R47). -/
def roundMode (fpc : BitVec 8) (rm : RoundField) : RMode × Flags :=
  match rm with
  | .rne => (.rne, {})
  | .rtz => (.rtz, {})
  | .rup => (.rup, {})
  | .rdn => (.rdn, {})
  | .rna => (.rna, {})
  | .dyn =>
    match (fpc.extractLsb' 0 3).toNat with
    | 0 => (.rne, {})
    | 1 => (.rtz, {})
    | 2 => (.rup, {})
    | 3 => (.rdn, {})
    | 4 => (.rna, {})
    | _ => (.rne, { nv := true })

/-- The saturate-or-propagate setting of an FP8 destination (R52). -/
def fp8Sat (fpc : BitVec 8) (o : Fp8Ovr) (et : ElemTy) : Bool :=
  match o with
  | .sat => true
  | .prop => false
  | .none => if et = .e4m3 then fpc.getLsbD 6 else fpc.getLsbD 7

/-- Lane j of a register as a floating-point value. -/
def flane (et : ElemTy) (x : VWord) (j : Nat) : FVal := (fmtOf et).decode (laneOf x et.width j)

/-- The OR of the lost flags of lane j of some registers. -/
def flagsAt (t : ThreadSet) (et : ElemTy) (j : Nat) (rs : List Reg) : Bool :=
  rs.any fun r => flagOf (t.getV r) et.width j

/-- A rounded floating-point lane operation: the exact result from the lane's operands, rounded once. -/
def fpOp (rm : RoundField) (et : ElemTy) (rs : List Reg) (f : RMode → (Reg → FVal) → ExactRes)
    (t : ThreadSet) (j : Nat) : LaneRes :=
  let m := roundMode t.fpc rm
  let r := (fmtOf et).deliver m.1 false (f m.1 fun r => flane et (t.getV r) j)
  { val := r.1, flag := flagsAt t et j rs, fl := (m.2.or r.2).ofLane }

def execVfadd (g : Guard) (k : KReg) (et : ElemTy) (rm : RoundField) (_w : WinSel) (d a b : Reg) (s : State) : Out :=
  vecOp g k et d a (fpOp rm et [a, b] fun m v => addExact m (v a) (v b)) s
def execVfsub (g : Guard) (k : KReg) (et : ElemTy) (rm : RoundField) (_w : WinSel) (d a b : Reg) (s : State) : Out :=
  vecOp g k et d a (fpOp rm et [a, b] fun m v => addExact m (v a) (v b).negate) s
def execVfmul (g : Guard) (k : KReg) (et : ElemTy) (rm : RoundField) (_w : WinSel) (d a b : Reg) (s : State) : Out :=
  vecOp g k et d a (fpOp rm et [a, b] fun _ v => mulExact (v a) (v b)) s
def execVfma (g : Guard) (k : KReg) (et : ElemTy) (rm : RoundField) (_w : WinSel) (d a b c : Reg) (s : State) : Out :=
  vecOp g k et d a (fpOp rm et [a, b, c] fun m v => fmaExact m (v a) (v b) (v c)) s
def execVfms (g : Guard) (k : KReg) (et : ElemTy) (rm : RoundField) (_w : WinSel) (d a b c : Reg) (s : State) : Out :=
  vecOp g k et d a (fpOp rm et [a, b, c] fun m v => fmaExact m (v a) (v b) (v c).negate) s
def execVfnma (g : Guard) (k : KReg) (et : ElemTy) (rm : RoundField) (_w : WinSel) (d a b c : Reg) (s : State) :
    Out :=
  vecOp g k et d a (fpOp rm et [a, b, c] fun m v => fmaExact m (v a).negate (v b) (v c)) s

/-- `vfmin` or `vfmax` on one lane (R156). -/
def minMaxOp (isMax : Bool) (et : ElemTy) (a b : Reg) (t : ThreadSet) (j : Nat) : LaneRes :=
  let r := (fmtOf et).minMax isMax (laneOf (t.getV a) et.width j) (laneOf (t.getV b) et.width j)
  { val := r.1, flag := flagsAt t et j [a, b], fl := r.2 }

def execVfmin (g : Guard) (k : KReg) (et : ElemTy) (_w : WinSel) (d a b : Reg) (s : State) : Out :=
  vecOp g k et d a (minMaxOp false et a b) s
def execVfmax (g : Guard) (k : KReg) (et : ElemTy) (_w : WinSel) (d a b : Reg) (s : State) : Out :=
  vecOp g k et d a (minMaxOp true et a b) s

/-- Changes the sign bit only, even of a NaN, and sets no flag (R43, R156). -/
def signOp (f : Nat → Nat) (et : ElemTy) (a : Reg) (t : ThreadSet) (j : Nat) : LaneRes :=
  { val := f (laneOf (t.getV a) et.width j), flag := flagsAt t et j [a] }

def execVfabs (g : Guard) (k : KReg) (et : ElemTy) (_w : WinSel) (d a : Reg) (s : State) : Out :=
  vecOp g k et d a (signOp (fun x => x % 2 ^ (et.width - 1)) et a) s
def execVfneg (g : Guard) (k : KReg) (et : ElemTy) (_w : WinSel) (d a : Reg) (s : State) : Out :=
  vecOp g k et d a (signOp (fun x => x ^^^ 2 ^ (et.width - 1)) et a) s

def execVfdiv (g : Guard) (k : KReg) (et : ElemTy) (rm : RoundField) (d a b : Reg) (s : State) : Out :=
  vecOp g k et d a (fpOp rm et [a, b] fun _ v => divExact (fmtOf et) (v a) (v b)) s
def execVfsqrt (g : Guard) (k : KReg) (et : ElemTy) (rm : RoundField) (d a : Reg) (s : State) : Out :=
  vecOp g k et d a (fpOp rm et [a] fun _ v => sqrtExact (fmtOf et) (v a)) s

/-- An estimate on one lane (R158). -/
def estOp (op : EstOp) (et : ElemTy) (a : Reg) (t : ThreadSet) (j : Nat) : LaneRes :=
  let r := estimate op et (laneOf (t.getV a) et.width j)
  { val := r.1, flag := flagsAt t et j [a], fl := r.2 }

def execVrcpe (g : Guard) (k : KReg) (et : ElemTy) (d a : Reg) (s : State) : Out := vecOp g k et d a (estOp .rcp et a) s
def execVrsqe (g : Guard) (k : KReg) (et : ElemTy) (d a : Reg) (s : State) : Out := vecOp g k et d a (estOp .rsq et a) s
def execVexp2 (g : Guard) (k : KReg) (et : ElemTy) (d a : Reg) (s : State) : Out := vecOp g k et d a (estOp .exp2 et a) s
def execVlog2 (g : Guard) (k : KReg) (et : ElemTy) (d a : Reg) (s : State) : Out := vecOp g k et d a (estOp .log2 et a) s

/-! ### Conversions (R51 to R55, R161, R162) -/

/-- A floating-point value into a floating-point type, with the FP8 setting (R51 to R53). -/
def toFp (dst : ElemTy) (mode : RMode) (sat : Bool) (v : FVal) : Nat × Flags :=
  (fmtOf dst).deliver mode sat (v.exact, Flags.invalid v.isSnan)

/-- The exact integer value of i · 2^k, rounded to an integer. -/
def scaledInt (mode : RMode) (i k : Int) : Int :=
  let r := roundAt mode (i < 0) i.natAbs k 0
  if i < 0 then -(r.1 : Int) else (r.1 : Int)

/-- One lane of `vcvt` (R162). `scale` is the rider of a scaled source. The flags of an illegal dynamic mode are joined
where the conversion rounds. -/
def convertLane (dst src : ElemTy) (m : RMode × Flags) (sat isat : Bool) (scale : Option Nat) (x : Nat) : Nat × Flags :=
  let k : Int := match scale with | some r => (r : Int) - 127 | none => 0
  if scale = some 255 then (if dst.isInt then 0 else (fmtOf dst).nanBits, { nv := true })
  else if src.isInt then
    let i := intVal src x
    if dst.isInt then
      let y := if scale.isSome then scaledInt m.1 i k else i
      (wrapInt dst.width (if isat then satInt dst y else y), {})
    else
      let r := (fmtOf dst).round m.1 sat (.fin (i < 0) i.natAbs k)
      (r.1, (m.2.or r.2).ofLane)
  else
    let v := ((fmtOf src).decode x).scale k
    let r := if dst.isInt then toIntConv dst m.1 v else toFp dst m.1 sat v
    (r.1, (m.2.or r.2).ofLane)

/-- The source lane that destination lane j takes under `part`, if the map reaches it (R162). -/
def cvtSource (dst src : ElemTy) (part j : Nat) : Option Nat :=
  if src.width > dst.width then
    if part * src.lanes ≤ j && j < part * src.lanes + src.lanes then some (j - part * src.lanes) else none
  else some (part * dst.lanes + j)

def execVcvt (g : Guard) (k : KReg) (et : ElemTy) (rm : RoundField) (fp8 : Fp8Ovr) (ctl : CvtCtl) (d a : Reg)
    (s : State) : Out :=
  let t := s.me
  let v := t.getV a
  let m := roundMode t.fpc rm
  let scale := if ctl.scaled then some (vRider v).toNat else none
  let lane (j : Nat) : Option LaneRes :=
    match cvtSource et ctl.src ctl.part.val j with
    | some i =>
      if active (t.getK k) j then
        let r := convertLane et ctl.src m (fp8Sat t.fpc fp8 et) ctl.isat scale (laneOf v ctl.src.width i)
        some { val := r.1, flag := flagOf v ctl.src.width i, fl := r.2 }
      else none
    | none => none
  guarded g 12 s (nextMe s (putLanes t d et.width 127 ((List.range et.lanes).map lane)) 12)

/-- floor(log2 |x|) of the largest finite value among the active lanes (R163). -/
def q8Top (vals : List (Bool × FVal)) : Option Int := maxExp ((vals.filter fun p => p.1).map Prod.snd)

/-- The scale of `vq8` (R163). -/
def q8Scale (et : ElemTy) (top : Option Int) : Nat :=
  match top with
  | none => 127
  | some l => (max 0 (min 254 (l - (if et = .e4m3 then 8 else 15) + 127))).toNat

def execVq8 (g : Guard) (k : KReg) (et : ElemTy) (rm : RoundField) (fp8 : Fp8Ovr) (src : ElemTy) (d a : Reg)
    (s : State) : Out :=
  let t := s.me
  let m := roundMode t.fpc rm
  let reg (j : Nat) : VWord := t.getV (a + Fin.ofNat 32 (j / src.lanes))
  let x (j : Nat) : FVal := flane src (reg j) (j % src.lanes)
  let act (j : Nat) : Bool := active (t.getK k) j
  let e := q8Scale et (q8Top ((List.range 32).map fun j => (act j, x j)))
  let lane (j : Nat) : Option LaneRes :=
    if act j then
      let r := toFp et m.1 (fp8Sat t.fpc fp8 et) ((x j).scale (127 - (e : Int)))
      some { val := r.1, flag := flagOf (reg j) src.width (j % src.lanes), fl := (m.2.or r.2).ofLane }
    else none
  guarded g 12 s (nextMe s (putLanes t d 8 (BitVec.ofNat 8 e) ((List.range 32).map lane)) 12)

def execVdq8 (g : Guard) (k : KReg) (et : ElemTy) (rm : RoundField) (part : Fin 8) (src : ElemTy) (d a : Reg)
    (s : State) : Out :=
  let t := s.me
  let v := t.getV a
  let m := roundMode t.fpc rm
  let scale := (vRider v).toNat
  vecOp g k et d a (fun _ j =>
    let r := convertLane et src m false false (some scale) (laneOf v 8 (part.val * et.lanes + j))
    { val := r.1, fl := r.2 }) s

def execVrdr (g : Guard) (d a : Reg) (s : State) : Out :=
  guarded g 12 s (nextMe s (s.me.setS d ((vRider (s.me.getV a)).setWidth 64)) 12)

def execVwrr (g : Guard) (d a : Reg) (s : State) : Out :=
  let t := s.me
  guarded g 12 s (nextMe s (t.setV d (vMake ((t.getS a).setWidth 8) (vData (t.getV d)))) 12)

end Sys2Proof.Machine
end

