-- ==== Sys2Proof/Machine/Matrix.lean ====
section
/-! DEFINITION. The matrix engine's parts and arithmetic: tiles, slots, the A-bypass, promotions and conversions (R63 to R67,
R173 to R188, R193). -/

namespace Sys2Proof

/-! ### Formats -/

/-- The element type of a matrix operand format (R180). -/
def MFmt.et : MFmt → ElemTy
  | .e4m3 => .e4m3 | .e5m2 => .e5m2 | .bf16 => .bf16 | .f16 => .f16 | .f32 => .f32 | .f64 => .f64 | .i8 => .i8 | .u8 => .u8

/-- K (R182). -/
def MFmt.k : MFmt → Nat
  | .e4m3 | .e5m2 | .i8 | .u8 => 128
  | .bf16 | .f16 => 64
  | .f32 => 32
  | .f64 => 8

/-- The stored rows Rs of a slot (R176). -/
def MFmt.storedRows (f : MFmt) : Nat := 256 / f.et.bytes

/-- The element type of a tile format (R173). -/
def TileFmt.et : TileFmt → ElemTy
  | .f32 => .f32 | .bf16 => .bf16 | .f16 => .f16 | .i32 => .i32 | .f64 => .f64

/-- The tile format that a control word targets (R181). -/
def MacCtl.tileFmt (m : MacCtl) : TileFmt := (tileFmtOf m.afmt m.bfmt m.acc).getD .f32

end Sys2Proof

namespace Sys2Proof.Machine

/-- The halves of a tile (R173). -/
def tileHalves (tf : TileFmt) (n : Nat) : List Nat :=
  match tf with
  | .f64 => [4 * n, 4 * n + 1, 4 * n + 2, 4 * n + 3]
  | .f32 | .i32 => [2 * n, 2 * n + 1]
  | .bf16 | .f16 => [n]

/-! ### Tiles (R173 to R175) -/

/-- The owners of the eight halves. -/
abbrev Halves := Vector (Option (TileFmt × Nat)) 8

/-- A tile is formed when it owns every one of its halves. -/
def formed (h : Halves) (tf : TileFmt) (n : Nat) : Bool := (tileHalves tf n).all fun i => h.toList.getD i none == some (tf, n)

/-- Takes ownership of a tile's halves. -/
def claim (h : Halves) (tf : TileFmt) (n : Nat) : Halves :=
  (tileHalves tf n).foldl (fun h i => h.setIfInBounds i (some (tf, n))) h

/-- The byte offset of a tile in the accumulator storage, and its size. -/
def tileBase (tf : TileFmt) (n : Nat) : Nat := 2048 * (tileHalves tf n).headD 0
def tileSize (tf : TileFmt) : Nat := 1024 * tf.et.bytes

/-- Sets the dirty bits of numbered parts. -/
def setBits {w : Nat} (x : BitVec w) (l : List Nat) : BitVec w := l.foldl (fun x i => x ||| BitVec.twoPow w i) x

/-- A write of a tile, its flags or its counter set (R386). -/
def CoreDirty.tile (d : CoreDirty) (tf : TileFmt) (n : Nat) : CoreDirty := { d with halves := setBits d.halves (tileHalves tf n) }

/-- Clears and forms a tile (R174). -/
def clearTile (k : Core) (tf : TileFmt) (n : Nat) : Core :=
  let b := tileBase tf n
  let out (a : Nat) : Bool := a < b || b + tileSize tf ≤ a
  { k with halves := claim k.halves tf n, acc := k.acc.filter fun c => out c.1, accFlags := k.accFlags.filter out,
           dirty := k.dirty.tile tf n }

/-- The offset of element e = 32 i + j of a tile. -/
def tileAt (tf : TileFmt) (n e : Nat) : Nat := tileBase tf n + e * tf.et.bytes

/-- A tile's element and its lost flag. -/
def tileElem (k : Core) (tf : TileFmt) (n e : Nat) : Nat := getNum k.acc (tileAt tf n e) tf.et.bytes
def tileFlag (k : Core) (tf : TileFmt) (n e : Nat) : Bool := k.accFlags.contains (tileAt tf n e)

/-- Counter set N. -/
def counters (k : Core) (n : Nat) : Counters := k.counters.toList.getD n {}
def setCounters (k : Core) (n : Nat) (c : Counters) : Core := 
  { k with counters := k.counters.setIfInBounds n c, dirty := { k.dirty with halves := setBits k.dirty.halves [n] } }

/-- A counter saturates at 0xFFFF. -/
def inc16 (x : BitVec 16) (b : Bool) : BitVec 16 := if b && x != 0xFFFF then x + 1 else x

/-- A new element of a tile: its value, whether it is newly flagged, and what it counts (R175). -/
structure Promoted where
  val : Nat
  lost : Bool := false
  ov : Bool := false
  nan : Bool := false
  deriving DecidableEq, Repr

/-- Writes element e of a tile. -/
def putElem (tf : TileFmt) (n : Nat) (k : Core) (e : Nat) (p : Promoted) : Core :=
  let c := counters k n
  let k := setCounters k n { c with ov := inc16 c.ov p.ov, nan := inc16 c.nan p.nan, lost := inc16 c.lost p.lost }
  let a := tileAt tf n e
  { k with acc := putNum k.acc a p.val tf.et.bytes,
           accFlags := if p.lost && !k.accFlags.contains a then a :: k.accFlags else k.accFlags,
           dirty := k.dirty.tile tf n }

/-- Updates every element of a tile, in row order. -/
def updateTile (k : Core) (tf : TileFmt) (n : Nat) (f : Core → Nat → Promoted) : Core :=
  (List.range 1024).foldl (fun x e => putElem tf n x e (f k e)) k

/-! ### Promotion (R63 to R65) -/

/-- A pattern of a tile format is a NaN. -/
def isNanBits (et : ElemTy) (x : Nat) : Bool := ((fmtOf et).decode x).isNan

/-- One floating-point promotion. -/
def promote (et : ElemTy) (old : Nat) (s : Exact) (lost : Bool) (scale : Option FVal) : Promoted :=
  let f := fmtOf et
  let c := f.decode old
  let sv : FVal := match s with | .nan => .nan false | .inf n => .inf n | .fin n m e => .fin n m e
  let bad := sv.isNan || (match scale with | some v => v.isNan | none => false)
  if bad then { val := f.nanBits, lost, nan := !c.isNan }
  else if sv.isZero then { val := old, lost }
  else
    let p := match scale with | some v => (mulVal sv v).1 | none => sv
    let r := (f.round .rne false (addExact .rne c p).1).1
    let fin (v : FVal) : Bool := match v with | .fin .. => true | _ => false
    let d := f.decode r
    { val := r, lost, ov := fin c && fin p && !fin d && !d.isNan, nan := d.isNan && !c.isNan }

/-- One integer promotion: wraps modulo 2^32, and a wrap counts as an overflow (R65). -/
def promoteInt (old : Nat) (s : Int) : Promoted :=
  let v := intVal .i32 old + s
  { val := wrapInt 32 v, ov := v < intMin .i32 || intMax .i32 < v }

/-! ### Operands (R177, R184, R185, R188) -/

/-- One row of A: patterns, lost flag of the row, and the riders of its 32-element blocks in scale mode 2. -/
structure ARow where
  elems : List Nat
  lost : Bool := false
  riders : List Nat := []
  deriving DecidableEq, Repr

/-- n patterns of a width from a number, lowest first. -/
def patterns (w n x : Nat) : List Nat := (List.range n).map fun i => (x >>> (w * i)) % 2 ^ w

/-- A row in local memory. -/
def rowFromMem (k : Core) (f : MFmt) (off : Nat) : ARow :=
  { elems := patterns f.et.width f.k (getNum k.mem off (f.k * f.et.bytes)) }

/-- Row i of A from the entries taken from `qa`. -/
def rowFromQueue (f : MFmt) (rows : List VWord) (i : Nat) : ARow :=
  let per := f.k / f.et.lanes
  let es := (rows.drop (per * i)).take per
  { elems := es.flatMap fun x => patterns f.et.width f.et.lanes (vData x).toNat,
    lost := es.any fun x => (List.range f.et.lanes).any fun j => flagOf x f.et.width j,
    riders := es.map fun x => (vRider x).toNat }

/-- Row i of the A-bypass (R178). -/
def rowFromBypass (k : Core) (f : MFmt) (i : Nat) : ARow :=
  { elems := (List.range f.k).map fun t => getNum k.bypass.data (8 * (128 * i + t)) 8,
    lost := (List.range f.k).any fun t => k.bypass.flags.contains (128 * i + t) }

/-- Stored element (r, c) of a slot. -/
def storedElem (sl : Slot) (f : MFmt) (r c : Nat) : Nat := getNum sl.data ((128 * r + c) * f.et.bytes) f.et.bytes

/-- The number of set bits of a mask. -/
def bitCount (m : Nat) : Nat → Nat
  | 0 => 0
  | n + 1 => m % 2 + bitCount (m / 2) n

/-- The element of logical row r, column c of a sparse slot, under the mask of its group (R188); none for one that the mask
leaves out, which is zero and adds nothing, whatever A holds there (R63). -/
def sparseElem (sl : Slot) (f : MFmt) (sp : Sparsity) (mask r c : Nat) : Option Nat :=
  let t := r % sp.m
  let u := bitCount (mask % 2 ^ t) t
  if mask.testBit t && u < sp.nVal then some (storedElem sl f (r / sp.m * sp.nVal + u) c) else none

/-- The bytes of the side array that hold the mask of (g, c). -/
def maskByte (sp : Sparsity) (g c : Nat) : Nat := (128 * g + c) * sp.m / 8

/-- The mask of M bits, in the bytes from its first one. -/
def maskOf (sp : Sparsity) (g c v : Nat) : Nat := v / 2 ^ ((128 * g + c) * sp.m % 8) % 2 ^ sp.m

/-- A number of logical rows of a loaded slot (R176, R177). -/
def logicalRows (f : MFmt) (sp : Option Sparsity) : Nat :=
  match sp with
  | none => f.storedRows
  | some sp => f.storedRows / sp.nVal * sp.m

/-- The B scale of the band that holds the first logical row (R185). -/
def bScale (sl : Slot) (sp : Option Sparsity) (first : Nat) : FVal :=
  let stored := match sp with
    | none => first
    | some sp => first / sp.m * sp.nVal
  (fmtOf .f32).decode (if stored < 128 then sl.scale0 else sl.scale1)

/-- One product, with the block scale of scale mode 2 (R66). -/
def macTerm (a b : FVal) (rider : Option Nat) : FVal :=
  match rider with
  | none => (mulVal a b).1
  | some x =>
    if x = 255 then (if b.isZero then (mulVal a b).1 else .nan false)
    else (mulVal a b).1.scale ((x : Int) - 127)

/-- The promoted element of row `a` and the column `b` of B patterns, of which one that is none adds nothing (R63). -/
def macElem (m : MacCtl) (a : ARow) (b : List (Option Nat)) (scale : Option FVal) (old : Nat) : Promoted :=
  let tf := m.tileFmt
  if tf = .i32 then
    promoteInt old ((List.zip a.elems b).foldl (fun s p => s + match p.2 with
      | some y => intVal m.afmt.et p.1 * intVal m.bfmt.et y
      | none => 0) 0)
  else
    let fa := fmtOf m.afmt.et
    let fb := fmtOf m.bfmt.et
    let term (p : (Nat × Option Nat) × Nat) : Option FVal := p.1.2.map fun y =>
      macTerm (fa.decode p.1.1) (fb.decode y) (if m.scale = .e8m0 then some (a.riders.getD (p.2 / 32) 127) else none)
    let s := windowSum (((List.zip a.elems b).zip (List.range a.elems.length)).filterMap term) (windowWidth m.window.val)
    promote tf.et old s.1 (s.2.1 || a.lost) scale

/-! ### Conversion of a drain (R193) -/

/-- One element of a tile converted to a destination type, with whether it counts as an overflow. -/
def drainElem (tf : TileFmt) (et : ElemTy) (mode : RMode) (sat : Bool) (x : Nat) : Nat × Bool :=
  let r := convertLane et tf.et (mode, {}) sat true none x
  if tf = .i32 && et.isInt then (r.1, satInt et (intVal .i32 x) != intVal .i32 x) else (r.1, r.2.ov)

/-- Every element of a tile, converted, with its lost flag and whether it overflows. -/
def drainTile (k : Core) (tf : TileFmt) (n : Nat) (et : ElemTy) (mode : RMode) (sat : Bool) : List (Nat × Bool × Bool) :=
  (List.range 1024).map fun e =>
    let r := drainElem tf et mode sat (tileElem k tf n e)
    (r.1, tileFlag k tf n e, r.2)

/-- The overflow counter after a drain. -/
def countDrain (k : Core) (n : Nat) (xs : List (Nat × Bool × Bool)) : Core :=
  let c := counters k n
  setCounters k n { c with ov := xs.foldl (fun o x => inc16 o x.2.2) c.ov }

/-- A queue entry of a drained row: L lanes with their rider (R195). -/
def drainEntry (et : ElemTy) (xs : List (Nat × Bool × Bool)) : VWord :=
  let lanes : List LaneNew := xs.map fun x => some (x.1, x.2.1)
  writeLanes et.width 0 (if et.isFp8 then 127 else 0) lanes

/-- Cuts a list into pieces of n. -/
def chunksOf {α : Type} (n : Nat) : Nat → List α → List (List α)
  | 0, _ => []
  | fuel + 1, xs => if xs.isEmpty then [] else xs.take n :: chunksOf n fuel (xs.drop n)

/-- A matrix reset (R483). -/
def matrixReset (k : Core) : Core :=
  { k with
    halves := .replicate 8 none, accFlags := [], slots := .replicate 8 {}, bypass := {}, counters := .replicate 8 {},
    dirty := { k.dirty with halves := .allOnes 8, blocks := .allOnes 4, slots := .allOnes 8 } }

end Sys2Proof.Machine
end

