-- ==== Sys2Proof/Machine/System.lean ====
section
/-! DEFINITION. Meanings of the system instructions (R116 to R119) and of the special registers they read and write
(R99 to R109, R382, R460). -/

namespace Sys2Proof.Machine

/-- The engine runs on half its columns: as the running command was started, or as the alarm now says (R200). -/
def narrowed (s : State) (k : Core) : Bool :=
  match k.mq with
  | m :: _ => if m.started then k.narrow else s.mgmt.alarm
  | [] => s.mgmt.alarm

/-- `mstatus` (R105). -/
def mstatusOf (s : State) (k : Core) : Word :=
  BitVec.ofNat 64 (k.mq.length + 16 * bit01 (!k.mq.isEmpty) + 256 * bit01 (narrowed s k))

/-- `lease` (R106). -/
def leaseWord (m : Mgmt) : Word := 0#4 ++ m.leaseFab ++ m.leasePkg ++ m.leaseDie

/-- `clusterid` (R101). -/
def clusterId (c : Nat) : Nat := dieOfCore c * 16 + (if isService c then 0 else c / 16 % 16)

/-- The value that `mfsr` reads (R99); none where only a service core may (R382, R460). All cores read one `clk`, where R102 lets
their counters lie up to 16 clk apart: DESIGN CHOICE, log entry 72. -/
def readSR (s : State) (n : Nat) : Option Word :=
  let t := s.me
  let c := coreOf s.cur
  let svc := s.dieSvc (dieOfCore c)
  let priv (x : Word) : Option Word := if isService c then some x else none
  match n with
  | 0x00 => some (tsidOf s s.cur)
  | 0x01 => some (coreidOf s.cur)
  | 0x02 => some (BitVec.ofNat 64 (clusterId c))
  | 0x03 => some (BitVec.ofNat 64 (dieOfCore c))
  | 0x04 => some (pkgidOf s)
  | 0x05 => some t.launchid
  | 0x06 => some (BitVec.ofNat 64 s.clk)
  | 0x08 => some (t.fpc.setWidth 64)
  | 0x09 => some (t.fps.setWidth 64)
  | 0x0A => some (mstatusOf s (s.core c))
  | 0x0B => some (leaseWord s.mgmt)
  | 0x10 => some t.eid
  | 0x11 => some t.targ
  | 0x14 => some t.gs[0]
  | 0x15 => some t.gs[1]
  | 0x16 => some t.gs[2]
  | 0x17 => some t.gs[3]
  | 0x18 => some t.cb
  | 0x19 => some (BitVec.ofNat 64 lwBase)
  | 0x20 => some (s.core c).smap[0]
  | 0x21 => some (s.core c).smap[1]
  | 0x22 => some (s.core c).smap[2]
  | 0x23 => some (s.core c).smap[3]
  | 0x24 => some (s.core c).smap[4]
  | 0x25 => some (s.core c).smap[5]
  | 0x26 => some (s.core c).smap[6]
  | 0x27 => some (s.core c).smap[7]
  | 0x40 => priv (svc.fsvc.setWidth 64)
  | 0x41 => priv svc.elogb
  | 0x42 => priv svc.elogn
  | 0x43 => priv ((s.faults.xfla.get? c).getD 0)
  | 0x45 => priv s.fab.fmapb
  | 0x46 => priv s.fab.fimpb
  | 0x47 => priv s.fab.fimpn
  | _ => none

/-- Sets a service register of a die. -/
def setDieSvc (s : State) (die : Nat) (d : DieSvc) : State :=
  { s with faults := { s.faults with dies := s.faults.dies.setIfInBounds (die % 8) d } }

/-- The write of a special register (R99, R103, R104, R382, R460); none where only a service core may. A write of `xfln`
starts a flush, and its thread set waits for it. -/
def writeSR (s : State) (n : Nat) (x : Word) : Option State :=
  let t := s.me
  let c := coreOf s.cur
  let die := dieOfCore c
  let svc := s.dieSvc die
  let priv (y : State) : Option State := if isService c then some y else none
  match n with
  | 0x08 => some (s.setMe (t.setFpc (x.setWidth 8)))
  | 0x09 => some (s.setMe (t.setFps (x.setWidth 6)))
  | 0x40 => priv (setDieSvc s die { svc with fsvc := x.setWidth 4 })
  | 0x41 => priv (setDieSvc s die { svc with elogb := x })
  | 0x43 => priv { s with faults := { s.faults with xfla := s.faults.xfla.set c x } }
  | 0x44 =>
    let a := (s.faults.xfla.get? c).getD 0
    let f : Flush := { asid := bitsOf a 0 16, start := bitsOf a 16 48, pages := x.toNat, ts := some s.cur,
                       dropped := false }
    priv ({ s with msys := { s.msys with flushes := s.msys.flushes ++ [f] } }.setMe { t with status := .waitFlush })
  | 0x45 => priv { s with fab := { s.fab with fmapb := x } }
  | 0x46 => priv { s with fab := { s.fab with fimpb := x } }
  | 0x47 => priv { s with fab := { s.fab with fimpn := x } }
  | _ => none

def execNop (s : State) : Out := .next (s.advance 4)

/-- `yield` has no effect on the thread set's state; the core switches at its next issue if another is ready (R117,
R145). -/
def execYield (s : State) : Out :=
  let c := coreOf s.cur
  .next ((s.setCore c { s.core c with run := 256 }).advance 4)

/-- The access of `fps` waits for the flags of earlier instructions (R104). -/
def fpsWaits (s : State) (n : BitVec 8) : Bool := n == 9 && flagsToCome s s.cur

def execMfsr (d : Reg) (n : BitVec 8) (s : State) : Out :=
  if fpsWaits s n then .next s
  else
  match readSR s n.toNat with
  | some x => nextMe s (s.me.setS d x) 4
  | none => .next (postFault (.mfsr d n) { cls := 1 } s)

def execMtsr (a : Reg) (n : BitVec 8) (s : State) : Out :=
  if fpsWaits s n then .next s
  else
  match writeSR s n.toNat (s.me.getS a) with
  | some s' => .next (s'.advance 4)
  | none => .next (postFault (.mtsr a n) { cls := 1 } s)

def execTrap (d a : Reg) (code : BitVec 8) (s : State) : Out :=
  .next (postFault (.trap d a code) { cls := 3, detail := code.toNat, info := s.me.getS a } s)

/-- `brk` halts its own thread set when `qdb` is attached with breakpoints on, and otherwise posts a fault (R119). -/
def execBrk (code : BitVec 8) (s : State) : Out :=
  let attached := match s.launchOf s.cur with | some l => l.attached && l.breakpoints | none => false
  if attached then .next ((s.setMe { s.me with halted := true }).advance 4)
  else .next (postFault (.brk code) { cls := 4, detail := code.toNat } s)

end Sys2Proof.Machine
end

