-- ==== Sys2Proof/Machine/MatrixCmds.lean ====
section
/-! DEFINITION. Matrix commands: the checks at issue (R179, R189), the meanings of majors 0x30 to 0x33 (R186 to R199), and
MATRIX_COMMAND_START and MATRIX_COMMAND_COMPLETION (R172). -/

namespace Sys2Proof.Machine

/-! ### The issue-time view (R179) -/

/-- Tile ownership, slot descriptors and bypass as they will stand after every accepted command. -/
structure View where
  halves : Halves
  descs : Vector (Option SlotDesc) 8
  tag : Option ElemTy
  valid : Vector Bool 4
  deriving DecidableEq, Repr

/-- The sparse setting as a slot's descriptor holds it. -/
def descOf (f : MFmt) (sp : Option Sparsity) : SlotDesc :=
  { bfmt := f, sparse := sp.map fun s => { n := s.nVal, m := s.m } }

/-- The sparse setting of an `mwld`. -/
def mwldSparse : MwldSrc → Option Sparsity
  | .sparse _ _ sp _ | .recSparse _ sp => some sp
  | _ => none

/-- The tile format of an `mzero` and of a drain is its operand; a command's update of the view. -/
def viewStep (v : View) (i : Instr) : View :=
  match i with
  | .mzero _ tf n => { v with halves := claim v.halves tf n.val }
  | .mmac _ m _ _ => if m.zf then { v with halves := claim v.halves m.tileFmt m.tile.val } else v
  | .mmacs _ m _ _ _ => if m.zf then { v with halves := claim v.halves m.tileFmt m.tile.val } else v
  | .mwld _ f slot _ src => { v with descs := v.descs.set slot (some (descOf f (mwldSparse src))) }
  | .mdraina _ et _ _ _ _ col =>
    { v with tag := some et, valid := (if v.tag = some et then v.valid else .replicate 4 false).set (colVal col) true }
  | _ => v

def viewOf (k : Core) : View :=
  k.mq.foldl (fun v m => viewStep v m.instr)
    { halves := k.halves, descs := .ofFn fun i => k.slots[i].desc, tag := k.bypass.tag, valid := k.bypass.valid }

/-! ### Issue -/

/-- A matrix operand fault (R189, R369). -/
def matrixFault (sa : Word) (detail : Nat) : FaultInfo := { cls := 10, detail, info := sa }

/-- The command queue takes no further command (R172). -/
def matrixFull (s : State) : Bool := 8 ≤ (s.core (coreOf s.cur)).mq.length

/-- A blank command. -/
def newMCmd : MCmd := { id := 0, ts := 0, instr := .nop, pc := 0 }

/-- A command enters the queue; its token or result register is pending (R110, R172). -/
def acceptMatrix (i : Instr) (d : Reg) (cmd : MCmd) (s : State) : State :=
  let c := coreOf s.cur
  let k := s.core c
  let t := s.me
  let cmd := { cmd with id := k.nextCmd, ts := s.cur, instr := i, pc := t.pc, fpc := t.fpc, pts := t.pts }
  let s := s.setCore c (({ k with mq := k.mq ++ [cmd], nextCmd := k.nextCmd + 1 } : Core).touchCmd cmd.id)
  s.setMe (t.pend d)

/-- Runs the issue of a matrix command: a full queue is not ready. -/
def matrixOp (g : Guard) (i : Instr) (len : Nat) (op : Op Unit) (s : State) : Out :=
  guarded g len s (if matrixFull s then .next s else runOp i len op s)

/-- Rows 5, 6 and R209 of an operand list: straddle, outside the window, over a stash range. A stride is read without sign, and
the end of a range does not wrap: DESIGN CHOICE, log entry 65. -/
def needWindow (sa : Word) (ops : List (Word × Nat)) (write : Bool) : Op Unit := do
  let k ← Op.ask fun s => s.core (coreOf s.cur)
  match ops.find? fun o => inWindow o.1.toNat && !inWindow (o.1.toNat + o.2 - 1) with
  | some o => Op.fail { cls := 7, info := o.1, write }
  | none =>
    Op.need (ops.all fun o => inWindow o.1.toNat) (matrixFault sa 5)
    match ops.find? fun o => overStash k o.1.toNat (o.1.toNat + o.2 - 1) with
    | some o => Op.fail { cls := 6, info := o.1, write }
    | none => pure ()

/-- The row length in bytes of an A operand. -/
def aRowLen (f : MFmt) : Nat := f.k * f.et.bytes

/-- A stride register's value: 0 stands for the row length. -/
def strideOf (x : Word) (rowLen : Nat) : Nat := if x = 0 then rowLen else x.toNat

/-- An address or stride breaks row 6 of R189. -/
def misaligned (a stride : Word) (rowLen : Nat) : Bool :=
  a.toNat % 32 != 0 || stride.toNat % 32 != 0 || (stride != 0 && stride.toNat < rowLen)

/-- The checks of `mmac` and `mmacs`, and the acceptance. -/
def issueMac (i : Instr) (m : MacCtl) (sp : Option Sparsity) (a : ASrc) (c : Reg) : Op Unit := do
  let s ← Op.ask id
  let t := s.me
  let v := viewOf (s.core (coreOf s.cur))
  let addr := match a with | .localMem r _ => t.getS r | _ => 0
  let stride := match a with | .localMem _ r => t.getS r | _ => 0
  let f := m.afmt
  Op.need (m.zf || formed v.halves m.tileFmt m.tile.val) (matrixFault addr 1)
  Op.need (v.descs[m.slot] == some (descOf m.bfmt sp)) (matrixFault addr 2)
  Op.need ((m.kb.val + 1) * f.k ≤ logicalRows m.bfmt sp) (matrixFault addr 3)
  let blocks := (f.k + 31) / 32
  Op.need (a != .bypass || (v.tag == some f.et && (v.valid.toList.take blocks).all id)) (matrixFault addr 4)
  let rows := match a with
    | .localMem _ _ => [(addr, 31 * strideOf stride (aRowLen f) + aRowLen f)]
    | _ => []
  let sc := if m.scale = .blk then [(t.getS c, 128)] else []
  needWindow addr (rows ++ sc) false
  Op.need (!(match a with | .localMem _ _ => misaligned addr stride (aRowLen f) | _ => false) &&
    !(m.scale == .blk && (t.getS c).toNat % 4 != 0)) (matrixFault addr 6)
  Op.upd (acceptMatrix i 0 { newMCmd with a := addr, b := stride, c := t.getS c })

def execMmac (g : Guard) (m : MacCtl) (a : ASrc) (c : Reg) (s : State) : Out :=
  matrixOp g (.mmac g m a c) 12 (issueMac (.mmac g m a c) m none a c) s

def execMmacs (g : Guard) (m : MacCtl) (sp : Sparsity) (a : ASrc) (c : Reg) (s : State) : Out :=
  matrixOp g (.mmacs g m sp a c) 12 (issueMac (.mmacs g m sp a c) m (some sp) a c) s

def execMzero (g : Guard) (tf : TileFmt) (tile : Fin 8) (s : State) : Out :=
  matrixOp g (.mzero g tf tile) 12 (Op.upd (acceptMatrix (.mzero g tf tile) 0 newMCmd)) s

/-- Length of the image, and of the side array in bytes (R176, R177). -/
def imageLen : Nat := 64 + 32768
def sideLen (f : MFmt) (sp : Option Sparsity) : Nat :=
  match sp with
  | none => 0
  | some sp => f.storedRows / sp.nVal * 16 * sp.m

/-- The location of the first byte of each page of checked pieces. -/
def pageMap (ps : List Piece) : NMap Loc :=
  (ps.flatMap fun p => (splitPages p.va p.n).map fun q =>
    (q.1 / 65536, { p.loc with addr := p.loc.addr + (q.1 - p.va) - q.1 % 65536 })).foldl (fun m e => NMap.set m e.1 e.2) []

/-- The pieces of [va, va + n) under the translations of an issue (R192); a page that has none reads as nothing. -/
def pagePieces (pages : NMap Loc) (va n : Nat) : List Piece :=
  (splitPages va n).filterMap fun p =>
    (NMap.get? pages (p.1 / 65536)).map fun l =>
      { va := p.1, n := p.2, loc := { l with addr := l.addr + p.1 % 65536 } }

/-- The image and side-array addresses of an `mwld`. -/
def mwldOperands (src : MwldSrc) (t : ThreadSet) (r : BitVec 1536) : Word × Word :=
  match src with
  | .dense a imm => (t.getS a + immVal imm, 0)
  | .sparse a imm _ b => (t.getS a + immVal imm, t.getS b)
  | .recDense a | .recSparse a _ =>
    let h := (t.getS a).toNat
    (BitVec.ofNat 64 (recAddr h r 0 0), BitVec.ofNat 64 (recAddr h r 8 1))

/-- The base register of an `mwld`, whether it names a record, and the length of the instruction. -/
def mwldBase : MwldSrc → Reg
  | .dense a _ | .sparse a _ _ _ | .recDense a | .recSparse a _ => a
def mwldRec : MwldSrc → Bool
  | .recDense _ | .recSparse _ _ => true
  | _ => false
def mwldLen : MwldSrc → Nat
  | .dense _ imm | .sparse _ imm _ _ => extLen imm
  | _ => 12

/-- The checks of `mwld`; every page is translated at issue (R192). -/
def issueMwld (i : Instr) (f : MFmt) (d : Reg) (src : MwldSrc) : Op Unit := do
  let s ← Op.ask id
  let w := s.who s.cur
  let t := s.me
  let sa := t.getS (mwldBase src)
  Op.need (!mwldRec src || sa.toNat % 64 == 0) (tileFault sa 1)
  let r ← if mwldRec src then useRecord w sa else pure 0
  Op.need (!mwldRec src || recordZeros r) (tileFault sa 1)
  let x := mwldOperands src t r
  let n := sideLen f (mwldSparse src)
  let ops := (x.1, imageLen) :: (if n = 0 then [] else [(x.2, n)])
  match ops.find? fun o => inWindow o.1.toNat && !inWindow (o.1.toNat + o.2 - 1) with
  | some o => Op.fail { cls := 7, info := o.1 }
  | none =>
    let ps ← ops.mapM fun o => checkAccess w .load o.1 o.2
    Op.need (x.1.toNat % 64 = 0 && (n == 0 || x.2.toNat % 8 == 0)) (matrixFault sa 6)
    -- the masks may have any value that the side array has from now on (R177)
    let since ← Op.ask fun s => s.msys.writes
    Op.upd (acceptMatrix i d { newMCmd with a := x.1, side := x.2, pages := pageMap ps.flatten, since })

def execMwld (g : Guard) (bfmt : MFmt) (slot : Fin 8) (d : Reg) (src : MwldSrc) (s : State) : Out :=
  let i : Instr := .mwld g bfmt slot d src
  matrixOp g i (mwldLen src) (issueMwld i bfmt d src) s

/-- Some tile is formed at an index. -/
def anyFormed (h : Halves) (n : Nat) : Bool :=
  [TileFmt.f32, .bf16, .f16, .i32, .f64].any fun tf => tf.indexOk n && formed h tf n

/-- The checks common to the drains, around those of `mdrain`'s operands. -/
def drainChecks (tf : TileFmt) (n : Nat) (sa : Word) (operands : Op Unit) : Op Unit := do
  let v ← Op.ask fun s => viewOf (s.core (coreOf s.cur))
  Op.need (anyFormed v.halves n) (matrixFault sa 1)
  operands
  Op.need (formed v.halves tf n) (matrixFault sa 7)

def execMdrain (g : Guard) (et : ElemTy) (rm : RoundField) (fp8 : Fp8Ovr) (tf : TileFmt) (tile : Fin 8) (d a b c : Reg)
    (disp : Imm 13) (s : State) : Out :=
  let t := s.me
  let i : Instr := .mdrain g et rm fp8 tf tile d a b c disp
  let sa := t.getS a
  let addr := sa + immVal disp
  let stride := t.getS b
  let len := 32 * et.bytes
  let fl := t.getS c
  matrixOp g i (extLen disp) (do
    drainChecks tf tile.val sa (do
      needWindow sa ((addr, 31 * strideOf stride len + len) :: (if c = 0 then [] else [(fl, 128)])) true
      Op.need (!misaligned addr stride len && (c == 0 || fl.toNat % 4 == 0)) (matrixFault sa 6))
    Op.upd (acceptMatrix i d { newMCmd with a := addr, b := stride, c := fl })) s

def execMdrainq (g : Guard) (et : ElemTy) (rm : RoundField) (fp8 : Fp8Ovr) (tf : TileFmt) (tile : Fin 8) (s : State) :
    Out :=
  let i : Instr := .mdrainq g et rm fp8 tf tile
  matrixOp g i 12 (do
    drainChecks tf tile.val 0 (pure ())
    Op.upd (acceptMatrix i 0 newMCmd)) s

def execMdraina (g : Guard) (et : ElemTy) (rm : RoundField) (fp8 : Fp8Ovr) (tf : TileFmt) (tile : Fin 8) (col : Imm 13)
    (s : State) : Out :=
  let i : Instr := .mdraina g et rm fp8 tf tile col
  matrixOp g i (extLen col) (do
    drainChecks tf tile.val 0 (pure ())
    Op.upd (acceptMatrix i 0 newMCmd)) s

def execMstat (g : Guard) (d : Reg) (tile : Fin 8) (s : State) : Out :=
  matrixOp g (.mstat g d tile) 12 (Op.upd (acceptMatrix (.mstat g d tile) d newMCmd)) s

def execMclrs (g : Guard) (tile : Fin 8) (s : State) : Out :=
  matrixOp g (.mclrs g tile) 12 (Op.upd (acceptMatrix (.mclrs g tile) 0 newMCmd)) s

/-- `mwait`: waits until every command accepted before it has completed (R199). -/
def execMwait (g : Guard) (s : State) : Out :=
  let k := s.core (coreOf s.cur)
  guarded g 12 s
    (if k.mq.isEmpty then .next ((s.setMe { s.me with pts := max s.me.pts k.mpts }).advance 12) else .next (s.setMe { s.me with status := .waitMatrix k.nextCmd }))

/-! ### Execution -/

/-- The bits of `mstat` (R197). -/
def mstatWord (k : Core) (n : Nat) : Nat :=
  let c := counters k n
  let fm (tf : TileFmt) : Nat := bit01 (tf.indexOk n && formed k.halves tf n)
  c.ov.toNat + 2 ^ 16 * c.nan.toNat + 2 ^ 32 * c.lost.toNat + 2 ^ 48 * bit01 c.poison + 2 ^ 56 * fm .f32 +
    2 ^ 57 * fm .bf16 + 2 ^ 58 * fm .f16 + 2 ^ 59 * fm .i32 + 2 ^ 60 * fm .f64

/-- Replaces the head command of the queue. -/
def setHead (s : State) (c : Nat) (m : MCmd) : State :=
  let k := s.core c
  s.setCore c (({ k with mq := m :: k.mq.drop 1 } : Core).touchCmd m.id)

/-- Replaces a command of the queue. -/
def setCmd (s : State) (c : Nat) (m : MCmd) : State :=
  let k := s.core c
  s.setCore c (({ k with mq := k.mq.map fun x => if x.id = m.id then m else x } : Core).touchCmd m.id)

/-- Bytes that a command has read ahead, put over what it reads now (R190). -/
def overlay (m : MCmd) (v : Nat) : Nat := m.earlyAt.foldl (fun v o => putBytes v o (m.early.get o).toNat 1) v

/-- A read of a matrix command; a page in a peer that has failed reads as uncorrectable (log entry 84). -/
def matrixRead (w : Who) (ps : List Piece) (s : State) : Got × State :=
  let gone (p : Piece) : Bool := match p.loc.space with
    | .peer q => (match s.peer? q with | some x => x.link == .failed | none => true)
    | _ => false
  if ps.any gone then ({ val := 0, bad := List.range (ps.foldl (fun n p => n + p.n) 0) }, s) else engineRead w ps s

/-- The pages that an accepted command reads through their translation at issue: of an `mwld`, and of an `mmacs` those of its
slot's side array (R192). -/
def pagesHeld (k : Core) (m : MCmd) : NMap Loc :=
  match m.instr with
  | .mmacs _ ctl _ _ _ => m.pages ++ k.slots[ctl.slot].sidePages
  | _ => m.pages

/-- A command that reads through a link that is not up waits (R287, R468). -/
def matrixWaits (s : State) (c : Nat) (m : MCmd) : Bool := (pagesHeld (s.core c) m).any fun e => (waitsAt s e.2).isSome

/-- `mwld` at work: the slot's rows, header and descriptor (R176, R190). -/
def runMwld (s : State) (c : Nat) (m : MCmd) (f : MFmt) (slot : Fin 8) (src : MwldSrc) : State :=
  let w := engineWho s m.ts
  let x := matrixRead w (pagePieces m.pages m.a.toNat imageLen) s
  let sd := sideLen f (mwldSparse src)
  let y := matrixRead w (pagePieces m.pages m.side.toNat sd) x.2
  let bad := !(x.1.bad.isEmpty && y.1.bad.isEmpty)
  let v := overlay m x.1.val
  let launch := (s.ts m.ts).launch
  let s := logRead (logRead y.2 (dieOfCore c) launch m.a.toNat x.1.bad) (dieOfCore c) launch m.side.toNat y.1.bad
  let k := s.core c
  let sl : Slot := { desc := some (descOf f (mwldSparse src)), data := putNum [] 0 (v / 2 ^ 512) 32768,
                     scale0 := v % 2 ^ 32, scale1 := v / 2 ^ 32 % 2 ^ 32, side := if sd = 0 then 0 else m.side.toNat,
                     sidePages := if sd = 0 then [] else m.pages, poisoned := bad, since := m.since,
                     origin := if inWindow m.a.toNat then some (m.a.toNat - lwBase) else none, stale := v != x.1.val }
  let d := { k.dirty with slots := k.dirty.slots ||| BitVec.twoPow 8 slot.val }
  setHead (s.setCore c { k with slots := k.slots.set slot sl, dirty := d }) c { m with done := true, token := if bad then 2 else 1 }

/-- What n bytes of a part of one line held when a number of writes had been made, with whether a word was uncorrectable:
before the first of its writes since then, or what it holds now. -/
def heldAt (s : State) (l : Loc) (n num : Nat) : Nat × Bool :=
  let v := match (pastLines s l num).getLast? with | some x => x.line | none => rawLine s l
  let g := v.get (l.addr % 64) n
  (g.val, !g.bad.isEmpty)

/-- The line parts of a range, as the pages of a slot translate it. -/
def sideParts (pages : NMap Loc) (a n : Nat) (s : State) : List Piece :=
  (pagePieces pages a n).flatMap fun p => (eventPieces false p).map fun q => { q with loc := backing s q.loc false }

/-- The mask of (g, col) as an `mmacs` reads it, with whether it was uncorrectable: its value now, or at any time since the issue
of the `mwld` that loaded the slot, each mask for itself (R177). -/
def readMask (w : Who) (c : Nat) (slot : Fin 8) (sp : Sparsity) (g col : Nat) (s : State) : (Nat × Bool) × State :=
  let sl := (s.core c).slots[slot]
  let o := maskByte sp g col
  let n := (sp.m + 7) / 8
  let x := matrixRead w (pagePieces sl.sidePages (sl.side + o) n) s
  let s := x.2
  let ps := sideParts sl.sidePages (sl.side + o) n s
  let nums := (ps.flatMap fun p => (pastLines s p.loc sl.since).map PastLine.num).eraseDups
  let at' (num : Nat) : Nat × Bool :=
    ps.foldr (fun p r => let v := heldAt s p.loc p.n num; (v.1 + 2 ^ (8 * p.n) * r.1, v.2 || r.2)) (0, false)
  let r : (Nat × Bool) × State := match nums with
    | [] => ((x.1.val, !x.1.bad.isEmpty), s)
    | _ =>
      let q := s.pick
      (match nums[q.1 % (nums.length + 1)]? with | some k => at' k | none => (x.1.val, !x.1.bad.isEmpty), q.2)
  ((maskOf sp g col r.1.1, r.1.2), r.2)

/-- The masks of groups and columns, by 128 g + c. -/
def readMasks (w : Who) (c : Nat) (slot : Fin 8) (sp : Sparsity) (gcs : List (Nat × Nat)) (s : State) :
    NMap (Nat × Bool) × State :=
  gcs.foldl (fun r e =>
    let x := readMask w c slot sp e.1 e.2 r.2
    (r.1.set (128 * e.1 + e.2) x.1, x.2)) ([], s)

/-- The B pattern of logical row r, column col, with whether its mask was read from an uncorrectable word. -/
def bElem (sl : Slot) (f : MFmt) (sp : Option Sparsity) (masks : NMap (Nat × Bool)) (r col : Nat) : Option Nat × Bool :=
  match sp with
  | none => (some (storedElem sl f r col), false)
  | some sp =>
    let x := (masks.get? (128 * (r / sp.m) + col)).getD (0, false)
    (sparseElem sl f sp x.1 r col, x.2)

/-- Local memory as a command sees it: what it has read ahead counts (R190, R202). -/
def seenMem (k : Core) (m : MCmd) : Memory := m.earlyAt.foldl (fun y o => y.put o (m.early.get o)) k.mem

/-- Row i of A, and whether it was read from an uncorrectable word. -/
def aRow (k : Core) (m : MCmd) (f : MFmt) (src : ASrc) (i : Nat) : ARow × Bool :=
  match src with
  | .localMem _ _ =>
    let off := m.a.toNat - lwBase + i * strideOf m.b (aRowLen f)
    (rowFromMem k f off, k.poison.any fun p => p < off + aRowLen f && off < p + 8)
  | .qa => (rowFromQueue f m.rows i, false)
  | .bypass => (rowFromBypass k f i, false)

/-- The scale of row i in scale mode 1 (R185). -/
def rowScale (k : Core) (m : MCmd) (ctl : MacCtl) (sp : Option Sparsity) (sl : Slot) (i : Nat) : Option FVal :=
  if ctl.scale = .blk then
    let a := (fmtOf .f32).decode (getNum k.mem (m.c.toNat - lwBase + 4 * i) 4)
    some (mulVal a (bScale sl sp (ctl.kb.val * ctl.afmt.k))).1
  else none

/-- What a poisoned command leaves in every element: a NaN, or 0 for i32 (R190). -/
def poisonTile (k : Core) (tf : TileFmt) (n : Nat) : Core :=
  let k' := updateTile k tf n fun x e =>
    if tf = .i32 then { val := 0 }
    else { val := (fmtOf tf.et).nanBits, nan := !isNanBits tf.et (tileElem x tf n e) }
  setCounters k' n { counters k' n with poison := true }

/-- The groups and columns whose masks an `mmacs` reads. -/
def maskGroups (ctl : MacCtl) (sp : Sparsity) : List (Nat × Nat) :=
  (List.range (ctl.afmt.k / sp.m + 1)).flatMap fun i =>
    (List.range 32).map fun j => (ctl.kb.val * ctl.afmt.k / sp.m + i, 32 * ctl.col.val + j)

/-- `mmac` and `mmacs` at work (R187, R188). -/
def runMac (s : State) (c : Nat) (m : MCmd) (ctl : MacCtl) (sp : Option Sparsity) (src : ASrc) : State :=
  let w := engineWho s m.ts
  let first := ctl.kb.val * ctl.afmt.k
  let q := match sp with | some sp => readMasks w c ctl.slot sp (maskGroups ctl sp) s | none => ([], s)
  let masks := q.1
  let s := q.2
  let k := s.core c
  let tf := ctl.tileFmt
  let n := ctl.tile.val
  let k := if ctl.zf then clearTile k tf n else k
  let sl := k.slots[ctl.slot]
  let seen := { k with mem := seenMem k m }
  let rows := (List.range 32).map (aRow seen m ctl.afmt src)
  let cols := (List.range 32).map fun j =>
    (List.range ctl.afmt.k).map fun t => bElem sl ctl.bfmt sp masks (first + t) (32 * ctl.col.val + j)
  let off := m.c.toNat - lwBase
  let bad := sl.poisoned || rows.any (fun r => r.2) || cols.any (fun b => b.any fun x => x.2) ||
    (ctl.scale == .blk && k.poison.any fun p => p < off + 128 && off < p + 8)
  let scales := (List.range 32).map (rowScale seen m ctl sp sl)
  let k := if bad then poisonTile k tf n
    else updateTile k tf n fun x e =>
      macElem ctl ((rows.getD (e / 32) ({ elems := [] }, false)).1) ((cols.getD (e % 32) []).map Prod.fst)
        (scales.getD (e / 32) none) (tileElem x tf n e)
  let s := if bad then logRead s (dieOfCore c) (s.ts m.ts).launch m.a.toNat [0] else s
  setHead (s.setCore c k) c { m with done := true }

/-- Row i of a drained tile as one number. -/
def drainRow (et : ElemTy) (xs : List (Nat × Bool × Bool)) (i : Nat) : Nat :=
  joinLanes et.width (((xs.drop (32 * i)).take 32).map fun x => x.1)

/-- The flag word of row i (R194). -/
def drainFlags (xs : List (Nat × Bool × Bool)) (i : Nat) : Nat := joinBits (((xs.drop (32 * i)).take 32).map fun x => x.2.1)

/-- Lands element e of a drained tile, or flag word e - 1024, in local memory (R194, R202). -/
def landDrain (c : Nat) (m : MCmd) (et : ElemTy) (xs : List (Nat × Bool × Bool)) (s : State) (e : Nat) : State :=
  let st := strideOf m.b (32 * et.bytes)
  let at' := m.a.toNat - lwBase + e / 32 * st + e % 32 * et.bytes
  if e < 1024 then writeNum s (.core c) none at' (xs.getD e (0, false, false)).1 et.bytes
  else writeNum s (.core c) none (m.c.toNat - lwBase + 4 * (e - 1024)) (drainFlags xs (e - 1024)) 4

/-- The element writes of a drain, flag words included, that have not landed. -/
def drainLeft (m : MCmd) (flags : Bool) : List Nat :=
  (List.range (if flags then 1056 else 1024)).filter fun e => !m.landed.contains e

/-- `mdrain` at work: rows and flag words are engine writes to local memory. -/
def runDrainMem (s : State) (c : Nat) (m : MCmd) (et : ElemTy) (flags : Bool) (xs : List (Nat × Bool × Bool)) : State :=
  if m.landed.isEmpty then
    -- rows of a drain that has landed nothing early, each as one number
    let st := strideOf m.b (32 * et.bytes)
    (List.range 32).foldl (fun s i =>
      let s := writeNum s (.core c) none (m.a.toNat - lwBase + i * st) (drainRow et xs i) (32 * et.bytes)
      if flags then writeNum s (.core c) none (m.c.toNat - lwBase + 4 * i) (drainFlags xs i) 4 else s) s
  else (drainLeft m flags).foldl (landDrain c m et xs) s

/-- `mdraina` at work: column block n of the A-bypass (R196). -/
def runDrainBypass (k : Core) (et : ElemTy) (col : Fin 4) (xs : List (Nat × Bool × Bool)) : Core :=
  let b := k.bypass
  let valid : Vector Bool 4 := if b.tag = some et then b.valid else .replicate 4 false
  let idx (e : Nat) : Nat := 128 * (e / 32) + 32 * col.val + e % 32
  let data := ((List.range 1024).zip xs).foldl (fun m p => putNum m (8 * idx p.1) p.2.1 8) b.data
  let inBlock (i : Nat) : Bool := i / 32 % 4 == col.val
  let new := (((List.range 1024).zip xs).filter fun p => p.2.2.1 && !et.isFp8 && !et.isInt).map fun p => idx p.1
  { k with bypass := { tag := some et, valid := valid.set col true, data,
                       flags := new ++ b.flags.filter fun i => !inBlock i },
           dirty := { k.dirty with blocks := k.dirty.blocks ||| BitVec.twoPow 4 col.val ||| (if b.tag = some et then 0 else .allOnes 4) } }

/-- The converted tile of a drain, and the state with its overflows counted. -/
def startDrain (s : State) (c : Nat) (m : MCmd) (tf : TileFmt) (n : Nat) (et : ElemTy) (rm : RoundField) (fp8 : Fp8Ovr) :
    List (Nat × Bool × Bool) × State :=
  let k := s.core c
  let xs := drainTile k tf n et (roundMode m.fpc rm).1 (fp8Sat m.fpc fp8 et)
  (xs, s.setCore c (countDrain k n xs))

/-- The entries that `mmac` takes from `qa`; 0 for another source (R184). -/
def qaNeed : Instr → Nat
  | .mmac _ m .qa _ | .mmacs _ m _ .qa _ => 32 * m.afmt.k / m.afmt.et.lanes
  | _ => 0

/-- The whole effect of a command that no longer waits on a face; `mdrainq` only fills its list of entries to push. -/
def performMatrix (s : State) (c : Nat) (m : MCmd) : State :=
  let k := s.core c
  match m.instr with
  | .mmac _ ctl src _ => runMac s c m ctl none src
  | .mmacs _ ctl sp src _ => runMac s c m ctl (some sp) src
  | .mzero _ tf n => setHead (s.setCore c (clearTile k tf n.val)) c { m with done := true }
  | .mwld _ f slot _ src => runMwld s c m f slot src
  | .mdrain _ et rm fp8 tf n _ _ _ fl _ =>
    let r := startDrain s c m tf n.val et rm fp8
    setHead (runDrainMem r.2 c m et (fl != 0) r.1) c { m with done := true }
  | .mdrainq _ et rm fp8 tf n =>
    let r := startDrain s c m tf n.val et rm fp8
    setHead r.2 c { m with out := (chunksOf et.lanes 1024 r.1).map (drainEntry et), done := true }
  | .mdraina _ et rm fp8 tf n col =>
    let r := startDrain s c m tf n.val et rm fp8
    setHead (r.2.setCore c (runDrainBypass (r.2.core c) et (colVal col) r.1)) c { m with done := true }
  | .mstat _ _ n => setHead s c { m with done := true, token := BitVec.ofNat 64 (mstatWord k n.val) }
  | .mclrs _ n => setHead (s.setCore c (setCounters k n.val {})) c { m with done := true }
  | _ => setHead s c { m with done := true }

/-- A missing entry of an ended thread set's `qa`: zero data, rider 127 (R378). -/
def zeroEntry : VWord := vMake 127 0

/-- Takes the rows that the command still needs from its thread set's `qa`; those that an ended thread set has not pushed are
zero. -/
def takeRows (s : State) (c : Nat) (m : MCmd) : State × MCmd :=
  let need := qaNeed m.instr - m.rows.length
  let t := s.ts m.ts
  let got := t.qa.take need
  let m' := { m with rows := m.rows ++ got ++ if m.orphan then List.replicate (need - got.length) zeroEntry else [] }
  (setHead (s.setTs m.ts (t.setQa (t.qa.drop need))) c m', m')

/-- Pushes what `qr` has room for; an ended thread set's entries are discarded (R378). -/
def pushRows (s : State) (c : Nat) (m : MCmd) : State :=
  if m.orphan then setHead s c { m with out := [] }
  else
    let t := s.ts m.ts
    let room := 16 - t.qr.length
    setHead (s.setTs m.ts (t.setQr (t.qr ++ m.out.take room))) c { m with out := m.out.drop room }

/-- A command's events follow its issue and the earlier accesses of local memory, and later ones follow it (R303). -/
def stampMatrix (s : State) (c : Nat) (m : MCmd) : State × MCmd :=
  let k := s.core c
  let p := max m.pts k.pts
  (s.setCore c { k with pts := p }, { m with pts := p })

/-- The operand ranges of a running command that a party may write meanwhile: address and element size. -/
def operandRanges (m : MCmd) : List (Nat × Nat × Nat) :=
  match m.instr with
  | .mmac _ ctl src _ | .mmacs _ ctl _ src _ =>
    (match src with
      | .localMem _ _ => (List.range 32).map fun i =>
          (m.a.toNat - lwBase + i * strideOf m.b (aRowLen ctl.afmt), aRowLen ctl.afmt, ctl.afmt.et.bytes)
      | _ => []) ++ (if ctl.scale = .blk then [(m.c.toNat - lwBase, 128, 4)] else [])
  | _ => []

/-- Records bytes that a command has read ahead. -/
def noteEarly (m : MCmd) (o v n : Nat) : MCmd :=
  { m with early := putNum m.early o v n, earlyAt := (List.range n).map (o + ·) ++ m.earlyAt }

/-- The bytes of local memory that a drain writes: address and size of each range. -/
def drainRanges (m : MCmd) : List (Nat × Nat) :=
  match m.instr with
  | .mdrain _ et _ _ _ _ _ _ _ fl _ =>
    let len := 32 * et.bytes
    let st := strideOf m.b len
    ((List.range 32).map fun i => (m.a.toNat - lwBase + i * st, len)) ++ (if fl = 0 then [] else [(m.c.toNat - lwBase, 128)])
  | _ => []

/-- A command behind others may read n bytes of local memory ahead: no earlier one has yet to write them (R190). -/
def mayReadAhead (s : State) (c : Nat) (m : MCmd) (o n : Nat) : Bool :=
  !((s.core c).mq.takeWhile fun x => x.id != m.id).any fun x => !x.done && (drainRanges x).any fun r => r.1 < o + n && o < r.1 + r.2

/-- An earlier command has yet to load the slot. -/
def slotToLoad (s : State) (c : Nat) (m : MCmd) (slot : Fin 8) : Bool :=
  ((s.core c).mq.takeWhile fun x => x.id != m.id).any fun x => !x.done && match x.instr with | .mwld _ _ n .. => n == slot | _ => false

/-- One read ahead of an element of an operand of an accepted command, or of a mask into the metadata cache; which one is open
(R177, R190, R202). -/
def matrixAhead (s : State) (c : Nat) (m : MCmd) (p : Nat) : State :=
  match m.instr with
  | .mwld _ f .. =>
    let es := f.et.bytes
    let o := p % (imageLen / es) * es
    let a := m.a.toNat + o
    let g := withClock m.pts (matrixRead (engineWho s m.ts) (pagePieces m.pages a es)) s
    if m.earlyAt.contains o || !g.1.bad.isEmpty || (inWindow a && !mayReadAhead s c m (a - lwBase) es) then s
    else setCmd g.2.2 c (noteEarly { m with pts := g.2.1 } o g.1.val es)
  | .mmacs _ ctl sp _ _ =>
    if p % 2 = 0 then element (p / 2)
    else
      let gs := maskGroups ctl sp
      let e := gs.getD (p / 2 % gs.length) (0, 0)
      let g := withClock m.pts (readMask (engineWho s m.ts) c ctl.slot sp e.1 e.2) s
      if slotToLoad s c m ctl.slot then s else setCmd g.2.2 c { m with pts := g.2.1 }
  | _ => element p
where
  element (p : Nat) : State :=
    let rs := operandRanges m
    match rs[p % rs.length]? with
    | none => s
    | some x =>
      let o := x.1 + p / rs.length % (x.2.1 / x.2.2) * x.2.2
      if m.earlyAt.contains o || poisoned s (.core c) o x.2.2 || !mayReadAhead s c m o x.2.2 then s
      else setCmd s c (noteEarly m o (getNum (s.core c).mem o x.2.2) x.2.2)

/-- One element event of a running command: a read ahead, or the landing of an element of a drain; which one is open (R190,
R202). -/
def matrixEvent (s : State) (c : Nat) (m : MCmd) : State :=
  let r := stampMatrix s c m
  let p := r.1.pick
  let s := p.2
  let m := r.2
  match m.instr with
  | .mdrain _ et rm fp8 tf n _ _ _ fl _ =>
    let left := drainLeft m (fl != 0)
    match left[p.1 % left.length]? with
    | none => s
    | some e =>
      let xs := drainTile (s.core c) tf n.val et (roundMode m.fpc rm).1 (fp8Sat m.fpc fp8 et)
      setHead (landDrain c m et xs s e) c { m with landed := e :: m.landed }
  | _ => matrixAhead s c m p.1

/-- The head command begins (R172, R200). -/
def beginMatrix (s : State) (c : Nat) (m : MCmd) : State :=
  if m.started then s
  else
    let s := setHead s c { m with started := true }
    s.setCore c { s.core c with narrow := s.mgmt.alarm }

/-- The head command begins, or goes on after a wait on a face (R172). -/
def matrixStep (s : State) (c : Nat) (m : MCmd) : State :=
  let s := beginMatrix s c m
  let m := { m with started := true }
  if m.done then pushRows s c m
  else if matrixWaits s c m then s
  else if s.split then matrixEvent s c m
  else
    let r := takeRows s c m
    if r.2.rows.length < qaNeed m.instr then r.1
    else
      let x := stampMatrix r.1 c r.2
      let q := withClock x.2.pts (fun s => ((), performMatrix s c x.2)) x.1
      let s := q.2.2
      match (s.core c).mq with
      | h :: _ =>
        let h := { h with pts := max h.pts q.2.1 }
        let s := setHead s c h
        if h.out.isEmpty then s else pushRows s c h
      | [] => s

/-- MATRIX_COMMAND_START; a saved core's engine rests, but for the commands of an ended thread set (R378, R385). -/
def execMatrixCommandStart (c : Nat) (s : State) : Out :=
  match (s.core c).mq with
  | [] => .next s
  | m :: r =>
    -- an element event may be one of a command behind the head (R190)
    let q : Nat × State := if s.split && !r.isEmpty then s.pick else (0, s)
    match r[q.1 % (r.length + 1) - 1]?, q.1 % (r.length + 1) with
    | some x, _ + 1 =>
      let y := stampMatrix q.2 c x
      let p := y.1.pick
      .next (if (4096 ≤ c && !x.orphan) || x.done || matrixWaits q.2 c x then q.2 else matrixAhead p.2 c y.2 p.1)
    | _, _ => if (4096 ≤ c && !m.orphan) || (m.done && m.out.isEmpty) then .next q.2 else .next (matrixStep q.2 c m)

/-- Thread sets of a core whose `mwait` is over (R199). -/
def endMwaits (s : State) (c : Nat) : State :=
  [0, 1, 2, 3].foldl (fun s i =>
    let t := s.ts (4 * c + i)
    match t.status with
    | .waitMatrix n =>
      if (s.core c).mq.any fun m => m.id < n then s
      else s.setTs (4 * c + i) { t.past 12 with status := .running, pts := max t.pts (s.core c).mpts }
    | _ => s) s

/-- MATRIX_COMMAND_COMPLETION: the command leaves the queue, and its token or result is written. -/
def execMatrixCommandCompletion (c : Nat) (s : State) : Out :=
  match (s.core c).mq with
  | [] => .next s
  | m :: r =>
    if m.done && m.out.isEmpty then
      let k := s.core c
      let s := s.setCore c (({ k with mq := r, mpts := max k.mpts m.pts } : Core).dropCmd m.id)
      .next (finishEnds (endMwaits (giveToken s m.ts m.orphan (tokenReg m.instr) m.token m.pts) c))
    else .next s

end Sys2Proof.Machine
end

