-- ==== Sys2Proof/Machine/Tasks.lean ====
section
/-! DEFINITION. Meanings of `spawn`, `retire` and `tdefer` (R351 to R355). -/

namespace Sys2Proof.Machine

/-- The element lies in the launch: below the graph's count, or in the range of a launch without a graph (R352). -/
def Launch.hasElement (l : Launch) (v : Nat) : Bool :=
  match l.graph with
  | some g => v < g.count
  | none => l.ebase ≤ v && v < l.ebase + l.count

/-- `spawn`: the request leaves for its owner, and S[d] is pending until the answer (R352). -/
def execSpawn (n : Fin 4) (d a b : Reg) (s : State) : Out :=
  let t := s.me
  let v := t.getS a
  let i : Instr := .spawn n d a b
  let bad (detail : Nat) : FaultInfo := { cls := 14, detail, info := v, aux := BitVec.ofNat 64 n.val }
  if !t.element then .next (postFault i { cls := 1 } s)
  else
    match s.launchOf s.cur with
    | none => .next (postFault i { cls := 1 } s)
    | some l =>
      if !l.hasElement v.toNat then .next (postFault i (bad 1) s)
      else if l.kernels.length ≤ n.val then .next (postFault i (bad 2) s)
      else
        let x : Spawn := { ts := s.cur, d, launch := l.num, pos := n.val, elem := v.toNat, arg := t.getS b, pts := t.pts }
        let s := s.setMe (t.pend d)
        .next ({ s with disp := { s.disp with spawns := s.disp.spawns ++ [x] } }.advance 4)

/-- `retire`; before its wait is over nothing but the placing of its folds happens. -/
def execRetire (s : State) : Out := .next (tryEnd s s.cur fun s => endTs s s.cur false)

/-- The combined argument of R334. An operator that R91 does not list acts as `none` (log entry 63). -/
def combine (op : Nat) (p a : Word) : Word :=
  match op with
  | 1 => a
  | 2 => p + a
  | 3 => if a.slt p then a else p
  | 4 => if p.slt a then a else p
  | 5 => p ||| a
  | _ => p

/-- The combine operator of a kernel position. -/
def Launch.combineOp (l : Launch) (pos : Nat) : Nat := match l.kernels[pos]? with | some k => k.combine | none => 0

/-- Inserts a pending task by element, and by position among those of one element: the order of a pass (R338). -/
def insertTask (t : Task) : List Task → List Task
  | [] => [t]
  | x :: r => if t.elem < x.elem || (t.elem = x.elem && t.pos < x.pos) then t :: x :: r else x :: insertTask t r

/-- The partition that owns an element: a package, none for this one, and a die (R327). -/
abbrev Partition := Option Nat × Nat

/-- A task arrives at its dispatcher: it combines into the pending one, or becomes pending (R334). The status is that of
`spawn` (R352), and G counts a new task (R350). `hold` is the end of a deferral (R355), or 0. -/
def arriveTask (l : Launch) (own : Partition) (pos elem : Nat) (arg : Word) (hold pts : Nat) : Nat × Launch :=
  let join (x : Task) : Task :=
    if x.pos = pos && x.elem = elem then
      { x with arg := combine (l.combineOp pos) x.arg arg, hold := max x.hold hold, pts := max x.pts pts }
    else x
  if l.pending.any fun x => x.pos == pos && x.elem == elem then (1, { l with pending := l.pending.map join })
  else (0, { l with pending := insertTask { pkg := own.1, die := own.2, pos, elem, arg, hold, pts } l.pending, g := l.g + 1 })

/-- The partition of a running thread set's task. -/
def ownerOfTask (l : Launch) (t : Nat) : Partition :=
  match l.running.find? fun r => r.ts == some t with
  | some r => (r.pkg, r.die)
  | none => (none, dieOfCore (coreOf t))

/-- `tdefer`: the task ends and is pending again, not eligible for 1,024 clk (R355). -/
def execTdefer (a : Reg) (s : State) : Out :=
  let t := s.me
  if !t.element then .next (postFault (.tdefer a) { cls := 1 } s)
  else
    match s.launchOf s.cur with
    | none => .next (postFault (.tdefer a) { cls := 1 } s)
    | some _ =>
      .next (tryEnd s s.cur fun s =>
        let back (l : Launch) : Launch :=
          (arriveTask l (ownerOfTask l s.cur) t.pos t.eid.toNat (t.getS a) (s.clk + 1024) (s.ts s.cur).pts).2
        endTs (s.updLaunch t.launch back) s.cur false)

end Sys2Proof.Machine
end

