-- ==== Sys2Proof/Machine/Dispatcher.lean ====
section
/-! DEFINITION. The die dispatchers and the home hub: graphs and balls (R326 to R330), spawns (R334, R352), passes, grants and
reservations (R337 to R340), seam rounds (R343, R344), the verifying mode (R349), gang placement (R359), and the start of
thread sets (R113, R114, R238). -/

namespace Sys2Proof.Machine

/-! ### The graph (R326 to R330) -/

/-- Who reads for the dispatchers of a launch. -/
def dispWho (l : Launch) : Who := { core := hubCore, asid := l.asid, root := l.root }

/-- The value of a part of one line of a graph array: what memory holds; of a line that has been written since the launch started,
also what it held then, or at any time since (R329). -/
def graphEvent (n : Nat) (now : Nat) (e : Ev) (s : State) : Nat × State :=
  match s.launch? n with
  | none => (now, s)
  | some l =>
    let loc := backing s e.piece.loc false
    let past := (pastLines s loc l.began).map fun x => (x.line.get (loc.addr % 64) e.piece.n).val
    match (l.before s e.piece.loc e.piece.n :: past ++ [now]).eraseDups with
    | [] | [_] => (now, s)
    | cs => let c := s.pick; (cs.getD (c.1 % cs.length) now, c.2)

def graphEvents (n v : Nat) : List Ev → State → Nat × State
  | [], s => (0, s)
  | e :: r, s =>
    let x := graphEvent n (v / 2 ^ (8 * e.off) % 2 ^ (8 * e.piece.n)) e s
    let y := graphEvents n v r x.2
    (x.1 * 2 ^ (8 * e.off) + y.1, y.2)

/-- A reading of a graph array, line by line (R329). -/
def readGraph (l : Launch) (addr n : Nat) : Op Nat := do
  let ps ← checkAccess (dispWho l) .load (BitVec.ofNat 64 addr) n
  let v ← readAll (dispWho l) .norm ps
  fun s => .ok (graphEvents l.num v (laneEvents 0 false 0 ps) s)

/-- The radius of the launch: that of its kernels (R330). -/
def Launch.radius (l : Launch) : Nat := match l.kernels with | k :: _ => k.radius | [] => 0

/-- The launch has seam rounds (R343). -/
def Launch.rounds (l : Launch) : Bool := l.radius != 0 && (match l.graph with | some g => g.seams.isSome | none => false)

/-- The neighbours of an element, as the index array has them (R137). -/
def neighbours (l : Launch) (v : Nat) : Op (List Nat) :=
  match l.graph with
  | none => pure []
  | some g => do
    let lo ← readGraph l (g.offsets + 8 * v) 8
    let hi ← readGraph l (g.offsets + 8 * v + 8) 8
    (List.range (hi - lo)).mapM fun i => readGraph l (g.indices + 4 * (lo + i)) 4

/-- The neighbours that a ball takes: an index entry not less than count is a graph error (R329). -/
def ballStep (l : Launch) (v : Nat) : Op (List Nat) := do
  let ns ← neighbours l v
  match l.graph with
  | some g => Op.need (ns.all (· < g.count)) { cls := 14 }
  | none => pure ()
  pure ns

/-- The elements reached from some in at most r steps (R328). -/
def ballFrom (l : Launch) : Nat → List Nat → Op (List Nat)
  | 0, vs => pure vs
  | r + 1, vs => do
    let ns ← vs.mapM (ballStep l)
    ballFrom l r (vs ++ ns.flatten).eraseDups

/-- The partition that owns an element (R327, R330). -/
def ownerOf (l : Launch) (v : Nat) : Op Partition :=
  match l.graph with
  | none => pure (none, 8 * (v - l.ebase) / l.count)
  | some g =>
    match g.owners with
    | none => pure (none, 0)
    | some a => do
      let o ← readGraph l (a + 2 * v) 2
      let s ← Op.ask id
      pure (if g.single || o / 256 == s.mgmt.peerId.toNat then none else some (o / 256), o % 8)

/-- The number of a partition's package. -/
def packageOf (s : State) (p : Partition) : Nat := p.1.getD s.mgmt.peerId.toNat

/-- The partition of a package's number and a die. -/
def partitionOf (s : State) (pkg die : Nat) : Partition := (if pkg = s.mgmt.peerId.toNat then none else some pkg, die)

/-- The colour of a seam element; in a launch without rounds every element is interior (R343). -/
def colourOf (l : Launch) (v : Nat) : Op (Option Nat) :=
  match l.graph with
  | none => pure none
  | some g =>
    if !l.rounds then pure none
    else
      match g.seams with
      | none => pure none
      | some a => do
        let b ← readGraph l (a + v) 1
        pure (if b.testBit 7 then some (b % 64) else none)

/-- The ball of an element at the launch's radius, with the owning partitions. -/
def ballOf (l : Launch) (v : Nat) : Op (List (Nat × Partition)) := do
  let b ← ballFrom l l.radius [v]
  b.mapM fun u => do
    let d ← ownerOf l u
    pure (u, d)

/-- The partition of a task. -/
def Task.own (t : Task) : Partition := (t.pkg, t.die)

/-- A failure of the dispatcher's reading ends the launch with a graph error (R329); one that waits for a peer changes
nothing. -/
def orGraphError (n : Nat) (op : Op State) (s : State) : State :=
  match op s with
  | .ok (s', _) => s'
  | .error (.fault _) => killLaunch s n 4
  | .error _ => s

/-! ### Spawns (R334, R352) -/

/-- SPAWN_ARRIVAL of the i-th spawn on its way: its owner makes it pending or combines it. -/
def execSpawnArrival (i : Nat) (s : State) : Out :=
  match s.disp.spawns[i]? with
  | none => .next s
  | some x =>
    match x.answer, s.launch? x.launch with
    | none, some l =>
      .next (orGraphError l.num (do
        let own ← ownerOf l x.elem
        let s ← Op.ask id
        let r := arriveTask l own x.pos x.elem x.arg 0 x.pts
        let s := s.setLaunch r.2
        let s := s.setDisp { s.disp with spawns := s.disp.spawns.set i { x with answer := some r.1 } }
        pure (if r.1 = 0 then partitionDue s own.1 own.2 else s)) s)
    | _, _ => .next s

/-- SPAWN_ANSWER: the status is written, and the spawn is over. -/
def execSpawnAnswer (i : Nat) (s : State) : Out :=
  match s.disp.spawns[i]? with
  | none => .next s
  | some x =>
    match x.answer with
    | none => .next s
    | some st =>
      let s := s.setTs x.ts ((s.ts x.ts).writeToken x.d (BitVec.ofNat 64 st))
      .next (finishEnds (s.setDisp { s.disp with spawns := s.disp.spawns.eraseIdx i }))

/-! ### Passes (R337 to R339) -/

/-- Cluster task queues: entries of a cluster, and those of a die with room. -/
def clusterQueue (s : State) (k : Nat) : List Entry := (s.disp.queues.get? k).getD []

/-- Entries that a cluster task queue holds (R237). -/
def queueCap : Nat := 64

def roomOn (s : State) (die : Nat) : List Nat :=
  ((List.range 16).map (16 * die + ·)).filter fun k => (clusterQueue s k).length < queueCap

/-- Inserts an entry by priority, first in first out (R238). -/
def Entry.prio : Entry → Nat
  | .index _ p _ _ => p
  | .task _ p _ _ _ => p

def insertEntry (e : Entry) (q : List Entry) : List Entry :=
  q.filter (fun x => x.prio ≤ e.prio) ++ e :: q.filter fun x => e.prio < x.prio

def pushEntry (s : State) (k : Nat) (e : Entry) : State :=
  s.setDisp { s.disp with queues := s.disp.queues.set k (insertEntry e (clusterQueue s k)) }

/-- A pending task, for the grant check: its whole ball, the ball in its partition, the other partitions that its ball
reaches, and whether it is a seam task. -/
structure Look where
  task : Task
  whole : List Nat
  ball : List Nat
  foreign : List Partition
  colour : Option Nat
  deriving DecidableEq, Repr

def lookAt (l : Launch) (t : Task) : Op Look := do
  let b ← ballOf l t.elem
  let c ← colourOf l t.elem
  pure { task := t, whole := b.map Prod.fst, ball := (b.filter fun u => u.2 == t.own).map Prod.fst,
         foreign := ((b.filter fun u => u.2 != t.own).map Prod.snd).eraseDups, colour := c }

/-- The task places reservations: reserved, and a seam task only once admitted (R344). -/
def Look.reserves (x : Look) : Bool := x.task.reserved && (x.colour.isNone || x.task.admitted)

/-- Two balls of one die meet. -/
def Look.meets (x y : Look) : Bool := x.ball.any fun u => y.ball.contains u

def sameTask (a b : Task) : Bool := a.pos == b.pos && a.elem == b.elem

/-- The rules of R337 and R344 in the task's own partition. `others` are the partition's other pending tasks. -/
def eligible (l : Launch) (x : Look) (others : List Look) : Bool :=
  !(x.ball.any fun u => l.running.any fun r => r.elem == u) &&
  !(x.ball.any fun u => l.claims.any fun c => c.elem == u) &&
  (match x.colour with
    | some _ => x.task.admitted
    | none => others.all fun y => !x.meets y ||
        (!y.task.admitted && (!y.reserves || (x.task.reserved && x.task.elem ≤ y.task.elem))))

/-- A marking that breaks R341: seam without a foreign element in the ball, the reverse, or a colour met twice. -/
def badMarking (l : Launch) (x : Look) : Op Bool := do
  let b ← ballOf l x.task.elem
  let cs ← (b.filter fun u => u.1 != x.task.elem).mapM fun u => colourOf l u.1
  pure (x.colour.isSome != !x.foreign.isEmpty || (x.colour.isSome && cs.contains x.colour))

/-- A finding of the verifying mode is written once per launch (R349). -/
def noteOnce (s : State) (n die type : Nat) (key : Nat × Nat) (addr : Nat) : State :=
  match s.launch? n with
  | none => s
  | some l =>
    if l.logged.contains key then s
    else errorLog (s.setLaunch { l with logged := key :: l.logged }) die type 0 n addr

/-- Replaces the pending task of the same position and element. -/
def Launch.setTask (l : Launch) (t : Task) : Launch :=
  { l with pending := l.pending.map fun x => if sameTask x t then t else x }

/-- The clock that a grant follows: the spawns of its task, and the ends of the tasks of its ball (R306, R352). -/
def grantPts (l : Launch) (x : Look) : Nat :=
  x.whole.foldl (fun p u => max p ((l.marks.get? u).getD 0)) x.task.pts

/-- The grant (R337): running mark, pending bit, and an entry in a cluster queue with room, which one is open. A cleared
reservation makes a pass due. A task of another package enters a queue there. -/
def grant (s : State) (l : Launch) (x : Look) : State :=
  let t := x.task
  let l := { l with
    pending := l.pending.filter fun y => !sameTask y t,
    running := l.running ++ [{ pkg := t.pkg, die := t.die, pos := t.pos, elem := t.elem, ts := none, round := t.admitted,
                               queued := t.pkg.isSome, pts := grantPts l x }] }
  if t.pkg.isSome then s.setLaunch l
  else
    let c := s.pick
    let room := roomOn c.2 t.die
    let k := room.getD (c.1 % room.length) 0
    let s := pushEntry (c.2.setLaunch l) k (.task l.num l.priority t.pos t.elem t.arg)
    if x.reserves || t.admitted then passDue s t.die else s

/-- The requests of the verifying mode (R349): one to each other partition of the ball. -/
def askClaims (s : State) (l : Launch) (x : Look) : State :=
  let t := { x.task with asked := true, awaiting := x.foreign.map fun p => (packageOf s p, p.2) }
  let new : List Claim := x.foreign.map fun p =>
    { launch := l.num, pos := t.pos, elem := t.elem, peer := packageOf s p, die := p.2, answered := false }
  let s := s.setLaunch (l.setTask t)
  s.setDisp { s.disp with claims := s.disp.claims ++ new }

/-- One examination of a task: granted or refused; an eligible one of the verifying mode first asks. -/
def examine (n : Nat) (t : Task) : Op (Bool × State) := fun s =>
  match s.launch? n with
  | none => .ok ((true, s), s)
  | some l =>
    let op : Op (Bool × State) := do
      let x ← lookAt l t
      let others ← (l.pending.filter fun y => y.own == t.own && !sameTask y t).mapM (lookAt l)
      if !eligible l x others then do
        let s ← Op.ask id
        pure (false, s)
      else if !l.verify then do
        let s ← Op.ask id
        pure (true, grant s l x)
      else do
        let bad ← badMarking l x
        let s ← Op.ask id
        let s := if bad && t.pkg.isNone then noteOnce s n t.die 4 (t.elem, t.elem) t.elem else s
        let l := (s.launch? n).getD l
        if x.foreign.isEmpty || (t.asked && t.awaiting.isEmpty) then pure (true, grant s l x)
        else pure (false, if t.asked then s else askClaims s l x)
    op s

/-- A refusal ages the task; at the threshold it becomes reserved, unless it waits for its round (R338, R339, R344). -/
def age (l : Launch) (t : Task) (colour : Option Nat) : Task :=
  let a := t.age + 1
  { t with age := a, reserved := t.reserved || (l.ageLimit ≤ a && (colour.isNone || t.admitted)) }

/-- An examination as an operation: whether the task was granted, or the launch has gone. -/
def tryTask (n : Nat) (t : Task) : Op Bool := do
  let r ← examine n t
  Op.upd fun _ => r.2
  pure r.1

/-- The pending task of a position and element. -/
def pendingTask (s : State) (n pos elem : Nat) : Option (Launch × Task) :=
  (s.launch? n).bind fun l => (l.pending.find? fun t => t.pos == pos && t.elem == elem).map fun t => (l, t)

/-- Visits one task; a task that has just become reserved is examined again. An examination that asks for remote claims, or waits
for their answers, ages its task as a refusal does: DESIGN CHOICE, log entry 87. -/
def visit (n pos elem : Nat) : Op Unit := do
  let s ← Op.ask id
  match pendingTask s n pos elem with
  | none => pure ()
  | some (l, t) =>
    if s.clk < t.hold then pure ()
    else
      let done ← tryTask n t
      if done then pure ()
      else
        let c ← colourOf l t.elem
        let s ← Op.ask id
        match pendingTask s n pos elem with
        | none => pure ()
        | some (l, t) =>
          let t' := age l t c
          Op.upd fun s => s.setLaunch (l.setTask t')
          if t'.reserved && !t.reserved then do
            let _ ← tryTask n t'
            pure ()
          else pure ()

/-- One visit as a step of a pass: a graph error ends the launch (R329); none when a reading waits for a peer. -/
def visitIn (n pos elem : Nat) (s : State) : Option State :=
  match visit n pos elem s with
  | .ok (_, s) => some s
  | .error (.fault _) => some (killLaunch s n 4)
  | .error _ => none

/-- The visits of a pass, while a cluster queue has room (R338); none when a reading waits for a peer. -/
def passFrom (die : Nat) : List (Nat × Nat × Nat) → State → Option State
  | [], s => some s
  | (n, pos, elem) :: r, s =>
    if (roomOn s die).isEmpty then some (passDue s die)
    else (visitIn n pos elem s).bind (passFrom die r)

/-- The tasks that a pass of a partition visits, of every launch: in ascending element, and those of one element in ascending
kernel position. -/
def passTasks (s : State) (own : Partition) : List (Nat × Nat × Nat) :=
  let all := s.disp.launches.flatMap fun l => (l.pending.filter fun t => t.own == own).map fun t => (l.num, t.pos, t.elem)
  sortBy (fun a b => a.2.2 < b.2.2 || (a.2.2 == b.2.2 && a.2.1 ≤ b.2.1)) all

/-- A pass of a die of this package, when one is due and a queue has room. -/
def ownPass (die : Nat) (s : State) : State :=
  if !s.disp.passDue.contains die || (roomOn s die).isEmpty then s
  else
    let s1 := s.setDisp { s.disp with passDue := s.disp.passDue.filter (· != die) }
    (passFrom die (passTasks s (none, die)) s1).getD s

/-- New tasks of a task that runs in another package: which, and how many, is open (log entry 57). -/
def remoteSpawns (n : Nat) (pts : Nat) : Nat → Op Unit
  | 0 => pure ()
  | k + 1 => do
    let v ← Op.pick
    let a ← Op.pick
    let s ← Op.ask id
    match s.launch? n with
    | none => pure ()
    | some l =>
      if !l.hasElement v || l.kernels.isEmpty then pure ()
      else
        let own ← ownerOf l v
        Op.upd fun s =>
          let r := arriveTask l own (a / 2 ^ 64 % l.kernels.length) v (BitVec.ofNat 64 a) 0 pts
          let s := s.setLaunch r.2
          if r.1 = 0 then partitionDue s own.1 own.2 else s
    remoteSpawns n pts k

/-- A task of another package retires. -/
def remoteRetire (l : Launch) (r : Running) (s : State) : State :=
  let mine (c : Claimed) : Bool := c.task == r.elem && c.pos == r.pos
  let freed := match s.launch? l.num with | some l => l.claims.filter mine | none => []
  let s := s.updLaunch l.num fun l => { l with
    running := l.running.filter (· != r), claims := l.claims.filter fun c => !mine c, g := l.g - 1
    marks := l.marks.set r.elem (max r.pts ((l.marks.get? r.elem).getD 0)) }
  settleLaunch (freed.foldl (fun s c => partitionDue s c.pkg c.die) s) l.num

/-- A task of another package goes on: it makes spawns, how many is open, and then it retires or not. -/
def remoteEnd (l : Launch) (r : Running) : Op Unit := do
  let k ← Op.pick
  let e ← Op.pick
  remoteSpawns l.num r.pts k
  if e % 2 = 1 then pure () else Op.upd (remoteRetire l r)

/-- One task of another package goes on, which one is open; or none: one that waits in a task queue there starts, and one that runs
goes on. None does while `qdb` has halted its launch (R390). -/
def remoteEnds (own : Partition) (s : State) : State :=
  let rs := (s.disp.launches.filter fun l => !l.halted).flatMap fun l =>
    (l.running.filter fun r => (r.pkg, r.die) == own).map fun r => (l, r)
  match rs with
  | [] => s
  | _ =>
    let c := s.pick
    match rs[c.1 % (rs.length + 1)]? with
    | none => c.2
    | some (l, r) =>
      if r.queued then c.2.updLaunch l.num fun l => { l with
        running := l.running.map fun x => if x == r then { x with queued := false } else x }
      else orGraphError l.num (do remoteEnd l r; Op.ask id) c.2

/-- What a die of another package does for the launches of this one, while its link is up: a task there goes on, and the
dispatcher examines the tasks of its elements (R327, R337; log entry 57). -/
def remotePass (p die : Nat) (s : State) : State :=
  match (s.peer? p).map Peer.link with
  | some .up =>
    let s := remoteEnds (some p, die) s
    (passTasks s (some p, die)).foldl (fun s x => (visitIn x.1 x.2.1 x.2.2 s).getD s) s
  | _ => s

/-- DISPATCH_PASS of a die of this package, or of another that takes part in a launch. -/
def execDispatchPass (pkg : Option (BitVec 8)) (die : Fin 8) (s : State) : Out :=
  .next (match pkg with
    | none => ownPass die.val s
    | some p => remotePass p.toNat die.val s)

/-- TASK_RESERVATION: a task whose age has reached the threshold. -/
def execTaskReservation (n : Nat) (pos : Fin 4) (elem : Nat) (s : State) : Out :=
  match s.launch? n with
  | none => .next s
  | some l =>
    match l.pending.find? fun t => t.pos == pos.val && t.elem == elem with
    | none => .next s
    | some t =>
      .next (orGraphError n (do
        let c ← colourOf l elem
        let s ← Op.ask id
        pure (if l.ageLimit ≤ t.age && (c.isNone || t.admitted) then s.setLaunch (l.setTask { t with reserved := true })
          else s)) s)

/-- TDEFER_HOLD_EXPIRY: the deferred task is eligible, and a pass is due (R338, R355). -/
def execTdeferHoldExpiry (n : Nat) (pos : Fin 4) (elem : Nat) (s : State) : Out :=
  match s.launch? n with
  | none => .next s
  | some l =>
    match l.pending.find? fun t => t.pos == pos.val && t.elem == elem with
    | none => .next s
    | some t =>
      if t.hold = 0 || s.clk < t.hold then .next s
      else .next (partitionDue (s.setLaunch (l.setTask { t with hold := 0 })) t.pkg t.die)

/-! ### Seam rounds (R344) -/

/-- A pass is due on every die: a change of seam round. -/
def passDueAll (s : State) : State := (List.range 8).foldl passDue s

/-- The partitions whose dispatchers report: the dies of this package, and those of the others that take part (R343). -/
def partitions (l : Launch) : List Partition :=
  (none :: l.packages.map some).flatMap fun p => (List.range 8).map fun d => (p, d)

/-- The colours of a partition's pending seam tasks. -/
def pendingColours (l : Launch) (own : Partition) : Op (List Nat) := do
  let cs ← (l.pending.filter fun t => t.own == own).mapM fun t => colourOf l t.elem
  pure (cs.filterMap id).eraseDups

/-- The next colour: the lowest above the last one, cyclically. -/
def nextColour (last : Option Nat) (cs : List Nat) : Option Nat :=
  let key (c : Nat) : Nat := match last with
    | some x => if x < c then c else c + 64
    | none => c
  cs.foldl (fun m c => match m with
    | none => some c
    | some b => if key c < key b then some c else some b) none

/-- The colours that the home hub chooses from: those that the last round's reports named; when they named none, those of the
seam tasks that dispatchers have announced since, at the round's start all that are pending. While reports named a colour, a task
that becomes pending after its dispatcher's report does not count for the next round's colour: DESIGN CHOICE, log entry 100. -/
def knownColours (l : Launch) : Op (List Nat) := do
  let told := l.reports.flatMap Prod.snd
  if !told.isEmpty then pure told
  else do
    let cs ← (partitions l).mapM (pendingColours l)
    pure cs.flatten

/-- SEAM_ROUND_START: the home hub announces a round, and the dispatchers enter the pending tasks of its colour. -/
def execSeamRoundStart (n : Nat) (s : State) : Out :=
  match s.launch? n with
  | none => .next s
  | some l =>
    if !l.rounds || l.round.isSome then .next s
    else
      .next (orGraphError n (do
        let known ← knownColours l
        let cs ← l.pending.mapM fun t => colourOf l t.elem
        let s ← Op.ask id
        match nextColour l.lastColour known with
        | none => pure s
        | some c =>
          let enter (p : Task × Option Nat) : Task := if p.2 = some c then { p.1 with admitted := true } else p.1
          let l : Launch := { l with
            round := some c, unreported := partitions l, reports := [], pending := (l.pending.zip cs).map enter }
          pure (passDueAll (s.setLaunch l))) s)

/-- SEAM_ROUND_DONE: a dispatcher reports, once every task it admitted has been granted and has retired, with the colours of
its pending seam tasks. -/
def execSeamRoundDone (n : Nat) (d : DieOf) (s : State) : Out :=
  let own : Partition := (d.pkg.map BitVec.toNat, d.die.val)
  match s.launch? n with
  | none => .next s
  | some l =>
    if l.round.isNone || !l.unreported.contains own || (l.pending.any fun t => t.admitted && t.own == own) ||
        (l.running.any fun r => r.round && (r.pkg, r.die) == own) then .next s
    else
      .next (orGraphError n (do
        let cs ← pendingColours l own
        let s ← Op.ask id
        let left := l.unreported.filter (· != own)
        let l := { l with unreported := left, reports := l.reports ++ [(own, cs)] }
        pure (if left.isEmpty then passDueAll (s.setLaunch { l with lastColour := l.round, round := none })
          else s.setLaunch l)) s)

/-! ### The verifying mode (R349) -/

/-- The partition that a claim asks. -/
def Claim.asks (c : Claim) (s : State) : Partition := partitionOf s c.peer c.die

/-- Elements of a claim's ball that the asked partition owns. -/
def claimBall (l : Launch) (c : Claim) : Op (List Nat) := do
  let b ← ballOf l c.elem
  let s ← Op.ask id
  pure ((b.filter fun u => u.2 == c.asks s).map Prod.fst)

/-- A task of the asked partition that has itself asked, has a lower element, and whose ball meets those elements: it goes
first (log entry 36). -/
def lowerAsker (l : Launch) (c : Claim) (es : List Nat) : Op Bool := do
  let s ← Op.ask id
  let xs ← (l.pending.filter fun t => t.own == c.asks s && t.asked && t.elem < c.elem).mapM (lookAt l)
  pure (xs.any fun x => x.ball.any fun u => es.contains u)

/-- REMOTE_CLAIM_REQUEST of the i-th claim: the asked dispatcher answers once none of its elements is running, and holds
them; conflicting tasks found running are recorded. -/
def execRemoteClaimRequest (i : Nat) (s : State) : Out :=
  match s.disp.claims[i]? with
  | none => .next s
  | some c =>
    match c.answered, s.launch? c.launch with
    | false, some l =>
      .next (orGraphError l.num (do
        let es ← claimBall l c
        let busy := es.filter fun u => l.running.any fun r => r.elem == u
        if busy.isEmpty then do
          let wait ← lowerAsker l c es
          let s ← Op.ask id
          if wait then pure s
          else
            let hold (u : Nat) : Claimed := { elem := u, pos := c.pos, task := c.elem, pkg := (c.asks s).1, die := c.die }
            let s := s.setLaunch { l with claims := l.claims ++ es.map hold }
            pure (s.setDisp { s.disp with claims := s.disp.claims.set i { c with answered := true } })
        else do
          let bs ← busy.mapM fun u => do
            let b ← ballOf l u
            pure (u, b.any fun w => w.1 == c.elem)
          let s ← Op.ask id
          pure (bs.foldl (fun s b =>
            let lo := min b.1 c.elem
            let hi := max b.1 c.elem
            if b.2 && (c.asks s).1.isNone then noteOnce s l.num c.die 3 (lo, hi) (lo % 2 ^ 32 + 2 ^ 32 * (hi % 2 ^ 32)) else s) s)) s)
    | _, _ => .next s

/-- REMOTE_CLAIM_ANSWER: the answer arrives at the dispatcher that asked; the last one makes a pass due, which R338 does not
list: DESIGN CHOICE, log entry 87. -/
def execRemoteClaimAnswer (i : Nat) (s : State) : Out :=
  match s.disp.claims[i]? with
  | none => .next s
  | some c =>
    if !c.answered then .next s
    else
      let s := s.setDisp { s.disp with claims := s.disp.claims.eraseIdx i }
      match s.launch? c.launch with
      | none => .next s
      | some l =>
        match l.pending.find? fun t => t.pos == c.pos && t.elem == c.elem with
        | none => .next s
        | some t =>
          let t := { t with awaiting := t.awaiting.filter fun p => p != (c.peer, c.die) }
          let s := s.setLaunch (l.setTask t)
          .next (if t.awaiting.isEmpty then partitionDue s t.pkg t.die else s)

/-! ### Gang placement (R358, R359) -/

/-- A launch for which a core is reserved by entries that wait in its cluster's queue. -/
def reservedFor (s : State) (c : Nat) : Option Nat :=
  (clusterQueue s (clusterOf c)).findSome? fun e => match e with
    | .index l _ _ t => if coreOf t = c then some l else none
    | .task .. => none

/-- All four thread sets of a core are free. -/
def coreIdle (s : State) (c : Nat) : Bool := [0, 1, 2, 3].all fun i => (s.ts (4 * c + i)).status == .free

/-- A cluster's queue has room beside the entries given already (R237). -/
def roomBeside (s : State) (given : List (Nat × Nat)) (k : Nat) : Bool :=
  (clusterQueue s k).length + (given.filter fun g => clusterOf (coreOf g.2) == k).length < queueCap

/-- Thread sets of a die that an index may be given, beside those given already. -/
def placeable (s : State) (die : Nat) (given : List (Nat × Nat)) : List Nat :=
  let cores := ((List.range 256).map (256 * die + ·)).filter fun c =>
    coreIdle s c && (reservedFor s c).isNone && roomBeside s given (clusterOf c)
  (cores.flatMap fun c => [4 * c, 4 * c + 1, 4 * c + 2, 4 * c + 3]).filter fun t => !given.any fun g => g.2 == t

/-- Places the indices from i on, one after another: the preferred die first, then any; which thread set is open. That an index goes
before the later ones, whatever they prefer, and that a placement needs room in the cluster queues, is DESIGN CHOICE, log entry
101. -/
def placeFrom (map : List Nat) : (todo i : Nat) → List (Nat × Nat) → State → Option (List (Nat × Nat) × State)
  | 0, _, given, s => some (given, s)
  | todo + 1, i, given, s =>
    let m := map.getD i 128
    let near := if m.testBit 7 then [] else placeable s (m % 8) given
    let cand := if near.isEmpty then (List.range 8).flatMap fun d => placeable s d given else near
    if cand.isEmpty then none
    else
      let c := s.pick
      placeFrom map todo (i + 1) (given ++ [(i, cand.getD (c.1 % cand.length) 0)]) c.2

/-- GANG_PLACEMENT: every index has a thread set at once, or none has. -/
def execGangPlacement (n : Nat) (s : State) : Out :=
  match s.launch? n with
  | none => .next s
  | some l =>
    if l.element || !l.waiting then .next s
    else
      match placeFrom l.map l.count 0 [] s with
      | none => .next s
      | some (given, s) =>
        let s := s.setLaunch { l with placed := given, waiting := false }
        .next (given.foldl (fun s g => pushEntry s (clusterOf (coreOf g.2)) (.index n l.priority g.1 g.2)) s)

/-! ### The start of a thread set (R113, R114, R238) -/

/-- Thread set t may run an entry: its core holds thread sets of one launch, and is not reserved for another. -/
def mayRun (s : State) (t : Nat) (e : Entry) : Bool :=
  let c := coreOf t
  let free := match reservedFor s c with | some l => l == e.launch | none => true
  let own := coreIdle s c || (s.core c).launch == some e.launch
  free && own && (match e with | .index _ _ _ t' => t' == t | .task .. => true)

/-- The state that a launch of the core finds: what passed between thread sets of one launch is not passed on to another
(R89, R205, R207, R213, R483). -/
def freshCore (s : State) (c n : Nat) : State :=
  let idle := coreIdle s c
  let other := (s.core c).launch != some n
  let s := if other then dropStash s c fun _ => true else s
  let s := if other then dropImages s fun x => s.disp.saved.get? c == some x.num else s
  let k := s.core c
  let k := if idle then matrixReset k else k
  s.setCore c (if other then
    { k with mem := [], poison := [], smap := .replicate 8 0, recs := [], icache := [], launch := some n } else k)

/-- The group slots of an index: its groups in ascending order (R107, R242). -/
def groupSlots (l : Launch) (index : Nat) : List Word :=
  let gs := l.groups.filter fun g => g.members.contains index
  let gs := sortBy (fun a b => decide (a.id ≤ b.id)) gs
  gs.map fun g => BitVec.ofNat 64 (g.id % 256 + 256 + 65536 * ((g.rank? index).getD 0) + 2 ^ 32 * g.members.length)

/-- The state before the first instruction of a thread set (R113). -/
def startState (l : Launch) (pos : Nat) : ThreadSet :=
  let off := match l.kernels[pos]? with | some k => k.offset | none => 0
  { pc := BitVec.ofNat 64 (l.code + off), cb := BitVec.ofNat 64 l.cb, launch := l.num,
    launchid := BitVec.ofNat 64 (l.num % 2 ^ 32 + 2 ^ 32 * l.queue), status := .running }

/-- A thread set starts an entry: with a clock of 0 (R265), and the clock of its launch's start or its task's grant, which its first
instruction takes (R306). -/
def startEntry (t : Nat) (l : Launch) (e : Entry) : Op State := do
  let s ← Op.ask id
  let old := s.ts t
  -- messages of a handler that has not started yet stay in its face (R113, R372)
  let keep (x : ThreadSet) : ThreadSet :=
    { x with qf := old.qf, qfPts := old.qfPts, faultSeq := old.faultSeq, halted := l.halted, dirty := .all }
  match e with
  | .index _ _ i _ =>
    let g := groupSlots l i
    pure (s.setTs t (keep { startState l 0 with index := i, gs := .ofFn fun j => g.getD j.val 0, acq := [(32, l.pts)] }))
  | .task _ _ pos elem arg => do
    let ns ← neighbours l elem
    let s ← Op.ask id
    let q := match l.graph with
      | some _ => ns.map (BitVec.ofNat 64 ·) ++ [noNeighbour]
      | none => []
    let here (r : Running) : Bool := r.pos == pos && r.elem == elem && r.ts.isNone && r.pkg.isNone
    let pts := match l.running.find? here with | some r => max r.pts l.pts | none => l.pts
    let s := s.setTs t (keep { startState l pos with
      element := true, pos, eid := BitVec.ofNat 64 elem, targ := arg, qn := q.take 32, qnRest := q.drop 32, acq := [(32, pts)] })
    let take (r : Running) : Running := if here r then { r with ts := some t } else r
    pure (s.updLaunch l.num fun l => { l with running := l.running.map take })

/-- THREAD_SET_START: a free thread set takes the first entry of its cluster's queue that its core may run. -/
def execThreadSetStart (t : Nat) (s : State) : Out :=
  let c := coreOf t
  if 2048 ≤ c then .fault .noSuchAgent
  else if (s.ts t).status != .free then .next s
  else
    let k := clusterOf c
    let q := clusterQueue s k
    match q.findIdx? (mayRun s t) with
    | none => .next s
    | some i =>
      match q[i]? with
      | none => .next s
      | some e =>
        match s.launch? e.launch with
        | none => .next s
        | some l =>
          -- the entry is taken as the thread set starts: a wait for a graph array leaves it in its queue
          .next (orGraphError l.num (do
            Op.upd fun s => freshCore (s.setDisp { s.disp with queues := s.disp.queues.set k (q.eraseIdx i) }) c l.num
            startEntry t l e) s)

end Sys2Proof.Machine
end

