-- ==== Sys2Proof/Machine/Groups.lean ====
section
/-! DEFINITION. Meanings of the barrier instructions (R243 to R248) and of the stage-ring instructions (R249 to R256). -/

namespace Sys2Proof.Machine

/-! ### Groups -/

/-- A group slot's fields (R107). -/
def gsValid (w : Word) : Bool := w.getLsbD 8
def gsGroup (w : Word) : Nat := bitsOf w 0 8
def gsRank (w : Word) : Nat := bitsOf w 16 16

/-- The group of a slot of the running thread set. -/
def groupOf (s : State) (slot : Fin 4) : Option (Launch × Group) :=
  let w := s.me.gs[slot]
  if gsValid w then
    match s.launchOf s.cur with
    | some l => (l.groups.find? fun g => g.id == gsGroup w).map fun g => (l, g)
    | none => none
  else none

/-- The rank of the running thread set in the group of a slot. -/
def rankOf (s : State) (slot : Fin 4) : Nat := gsRank s.me.gs[slot]

/-- The group fault of R246, naming the group and the lost rank. -/
def lostFault (g : Group) (rank : Nat) : FaultInfo :=
  { cls := 12, detail := 3, aux := BitVec.ofNat 64 (g.id % 256 + 65536 * (rank % 65536)) }

/-- Posts a fault whose reply acts on a wait for a phase that the thread set has arrived at. -/
def postWait (i : Instr) (f : FaultInfo) (phase : Nat) (s : State) : State :=
  let s := postFault i f s
  match s.me.status with
  | .waitReply h =>
    { s with faults := { s.faults with recs := s.faults.recs.map fun r =>
      if r.handle.toNat = h then { r with dest := some phase } else r } }
  | _ => s

/-- A wait for a completed phase returns: it follows the arrivals (R307). A group has one clock, so the return also follows those made
at later phases so far, which the axioms leave free: DESIGN CHOICE, log entry 76. -/
def passPhase (g : Group) (t : ThreadSet) (s : State) : Out :=
  nextMe s { t with status := .running, pts := max t.pts g.pts } 4

/-- The wait of `bar` after its arrival at a phase (R245, R246, R248). -/
def waitPhase (slot : Fin 4) (phase : Nat) (s : State) : Out :=
  match groupOf s slot with
  | none => .next s
  | some (_, g) =>
    if phase < g.completed then passPhase g s.me s
    else
      match g.broken with
      | some (b, r) =>
        if b ≤ phase then .next (postWait (.bar slot) (lostFault g r) phase s)
        else .next (s.setMe { s.me with status := .waitPhase slot.val phase })
      | none => .next (s.setMe { s.me with status := .waitPhase slot.val phase })

/-- The arrival of the running thread set: its count rises (R243, R244). -/
def arrive (slot : Fin 4) (s : State) : State :=
  match groupOf s slot with
  | none => s
  | some (l, g) =>
    let r := rankOf s slot
    let g' := { g with arrivals := g.arrivals.set r (g.arrivals.getD r 0 + 1), pts := max g.pts s.me.pts }.settle
    s.setLaunch { l with groups := l.groups.map fun x => if x.id = g.id then g' else x }

/-- The checks and the limit of R243, common to `bar` and `barv`: the phase arrived at, and the rest. The arrival is a release
point: the folds are placed first, and it waits while one of them, or an earlier access, waits for a link (R302). -/
def barrier (i : Instr) (slot : Fin 4) (k : Nat → State → Out) (s : State) : Out :=
  if s.me.element then .next (postFault i { cls := 1 } s)
  else
    match groupOf s slot with
    | none => .next (postFault i { cls := 12, detail := 1, aux := BitVec.ofNat 64 (gsGroup s.me.gs[slot]) } s)
    | some (_, g) =>
      let a := g.arrivals.getD (rankOf s slot) 0
      if a ≤ g.completed + 1 then
        let s := placeFolds s s.cur scopeSys
        if waitsForPeer s s.cur then .next s else k a (arrive slot s)
      else
        match g.broken with
        | some (b, r) =>
          if b + 1 < a then .next (postFault i (lostFault g r) s)
          else .next (s.setMe { s.me with status := .waitWake i })
        | none => .next (s.setMe { s.me with status := .waitWake i })

def execBar (slot : Fin 4) (s : State) : Out := barrier (.bar slot) slot (waitPhase slot) s

def execBarv (slot : Fin 4) (d : Reg) (s : State) : Out :=
  barrier (.barv slot d) slot
    (fun p s => nextMe s { s.me.setS d (BitVec.ofNat 64 p) with status := .running } 4) s

def execBwait (slot : Fin 4) (a : Reg) (s : State) : Out :=
  let i : Instr := .bwait slot a
  if s.me.element then .next (postFault i { cls := 1 } s)
  else
    match groupOf s slot with
    | none => .next (postFault i { cls := 12, detail := 1, aux := BitVec.ofNat 64 (gsGroup s.me.gs[slot]) } s)
    | some (_, g) =>
      let p := (s.me.getS a).toNat
      if g.arrivals.getD (rankOf s slot) 0 ≤ p then
        .next (postFault i { cls := 12, detail := 2, aux := BitVec.ofNat 64 (g.id % 256) } s)
      else if p < g.completed then passPhase g s.me s
      else
        match g.broken with
        | some (b, r) =>
          if b ≤ p then .next (postFault i (lostFault g r) s)
          else .next (s.setMe { s.me with status := .waitWake i })
        | none => .next (s.setMe { s.me with status := .waitWake i })

/-! ### Stage rings -/

/-- Fields of the cursor (R251). -/
def curSeq (c : Word) : Nat := bitsOf c 0 24
def curStage (c : Word) : Nat := bitsOf c 24 8
def curFillIn (c : Word) : Nat := bitsOf c 32 2
def curZero (c : Word) : Bool := bitsOf c 34 3 == 0 && bitsOf c 40 24 == 0

/-- What the descriptor's header gives (R249): absolute base, slot size, n, S, poisoned. -/
structure Ring where
  base : Word
  size : Nat
  n : Nat
  stages : Nat
  poisoned : Bool
  deriving DecidableEq, Repr

/-- The header's fields, or none where row 6 of R253 refuses it. -/
def ringHeader (addr : Word) (h : Nat) : Option Ring :=
  let size := h / 2 ^ 64 % 2 ^ 32
  let lg := h / 2 ^ 96 % 256
  let stages := h / 2 ^ 104 % 256
  let flags := h / 2 ^ 112 % 65536
  if h / 2 ^ 128 = 0 && flags < 4 && size % 64 == 0 && 64 ≤ size && size ≤ 2 ^ 24 && 1 ≤ lg && lg ≤ 8 && 2 ≤ stages then
    let b := BitVec.ofNat 64 h
    some { base := if flags / 2 = 1 then addr + b else b, size, n := 2 ^ lg, stages, poisoned := flags % 2 == 1 }
  else none

/-- The address of a control word (R249). -/
def ringWord (addr cur : Word) (r : Ring) : Word := addr + 64 + BitVec.ofNat 64 (8 * (curSeq cur % r.n))

/-- The buffer of the cursor's slot. -/
def ringBuffer (cur : Word) (r : Ring) : Word := r.base + BitVec.ofNat 64 (curSeq cur % r.n * r.size)

/-- Fields of a control word (R250). -/
def wordFull (w : Nat) : Nat := w % 2
def wordOwner (w : Nat) : Nat := w / 16 % 256
def wordSeq (w : Nat) : Nat := w / 2 ^ 12 % 2 ^ 24
def wordLast (w : Nat) : Bool := w.testBit 36
def wordPoison (w : Nat) : Bool := w.testBit 37

/-- Rows 1 to 7 of R253: the header. -/
def ringChecks (acq : Bool) (addr cur : Word) : Op Ring := do
  let s ← Op.ask id
  let bad (detail : Nat) : FaultInfo := { cls := 13, detail, info := addr, aux := cur }
  Op.need (!s.me.element) { cls := 1 }
  Op.need (addr.toNat % 64 = 0) (bad 4)
  Op.need (curZero cur && !(acq && curFillIn cur == 3)) (bad 5)
  let h ← memRead (s.who s.cur) .norm addr 64
  match ringHeader addr h with
  | none => Op.fail (bad 4)
  | some r =>
    Op.need (curStage cur < r.stages) (bad 5)
    pure r

/-- A `racq` with this cursor can take a slot with this control word (R254). -/
def slotReady (cur : Word) (w : Nat) : Bool :=
  wordOwner w == curStage cur && wordSeq w == curSeq cur && (curFillIn cur == 2 || wordFull w == curFillIn cur)

def execRacq (d a b : Reg) (s : State) : Out :=
  let addr := s.me.getS a
  let cur := s.me.getS b
  let i : Instr := .racq d a b
  runOp i 4 (do
    let r ← ringChecks true addr cur
    let w ← memRead (s.who s.cur) .unc (ringWord addr cur r) 8
    let st : Option Nat := if r.poisoned then some 2
      else if slotReady cur w then some (if wordPoison w then 2 else if wordLast w then 1 else 0)
      else none
    match st with
    | some x =>
      Op.upd (fun s => s.setMe { s.me.setS d (ringBuffer cur r ||| BitVec.ofNat 64 x) with status := .running })
    | none => Op.stop (.block (.waitWake i))) s

/-- The control word that `rrel` writes (R255). -/
def releasedWord (cur : Word) (r : Ring) (w : Nat) : Nat :=
  let next := (curStage cur + 1) % r.stages
  let seq := if next = 0 then (curSeq cur + r.n) % 2 ^ 24 else curSeq cur
  let last := wordLast w || cur.getLsbD 38
  let poison := wordPoison w || cur.getLsbD 39
  w / 2 ^ 38 * 2 ^ 38 + w % 16 / 2 * 2 + bit01 (cur.getLsbD 37) + 16 * next + 2 ^ 12 * seq + 2 ^ 36 * bit01 last +
    2 ^ 37 * bit01 poison

/-- The cursor that `rrel` returns (R255). -/
def nextCursor (cur : Word) : Word :=
  BitVec.ofNat 64 (bitsOf cur 40 24 * 2 ^ 40 + bitsOf cur 24 14 * 2 ^ 24 + (curSeq cur + 1) % 2 ^ 24)

def execRrel (d a b : Reg) (s : State) : Out :=
  let addr := s.me.getS a
  let cur := s.me.getS b
  let w := s.who s.cur
  runOp (.rrel d a b) 4 (do
    let r ← ringChecks false addr cur
    let ps ← checkAccess w .rmw (ringWord addr cur r) 8
    needClean w ps
    -- the write is a release point: the folds before it
    Op.upd fun s => placeFolds s s.cur scopeSys
    let s ← Op.ask id
    if waitsForPeer s s.cur then Op.stop .stall
    let old ← rmw w ps fun x =>
      if wordOwner x = curStage cur && wordSeq x == curSeq cur then some (releasedWord cur r x) else none
    Op.need (wordOwner old = curStage cur && wordSeq old == curSeq cur) { cls := 13, detail := 6, info := addr, aux := cur }
    Op.upd fun s => s.setMe (s.me.setS d (nextCursor cur))) s

def execRpeek (d a b : Reg) (s : State) : Out :=
  let addr := s.me.getS a
  let cur := s.me.getS b
  runOp (.rpeek d a b) 4 (do
    let r ← ringChecks false addr cur
    let w ← memRead (s.who s.cur) .norm (ringWord addr cur r) 8
    let ready := curFillIn cur != 3 && (r.poisoned || slotReady cur w)
    Op.upd fun s => s.setMe (s.me.setS d (BitVec.ofNat 64 (w % 2 ^ 38 + 2 ^ 63 * bit01 ready)))) s

end Sys2Proof.Machine
end

