-- ==== Sys2Proof/Machine/Wake.lean ====
section
/-! DEFINITION. What lets a waiting thread set go on: RESULT_WRITEBACK (R110, R111), QUEUE_BLOCK_RELEASE (R134), WAKE (R239),
and the accesses that wait for a retraining peer (R467, R468). -/

namespace Sys2Proof.Machine

/-! ### Blocked instructions -/

/-- Evaluates a blocked instruction again: it completes or blocks again. -/
def evaluate (i : Instr) (s : State) : Out :=
  match i with
  | .qput a => execQput a s
  | .qgetQr d => execQgetQr d s
  | .qgetQn d => execQgetQn d s
  | .fget d => execFget d s
  | .racq d a b => execRacq d a b s
  | .cwait d a b => execCwait d a b s
  | .bar g => execBar g s
  | .barv g d => execBarv g d s
  | .bwait g a => execBwait g a s
  | _ => .next s

/-- QUEUE_BLOCK_RELEASE: a blocked `qput`, `qget` or `fget` completes when room or an entry has appeared. -/
def execQueueBlockRelease (t : Nat) (s : State) : Out :=
  match (s.ts t).status with
  | .waitQueue i => if canGoOn s t then asTs t (evaluate i) s else .next s
  | _ => .next s

/-- WAKE: a thread set blocked in `bar`, `bwait`, `racq` or `cwait` evaluates again. -/
def execWake (t : Nat) (s : State) : Out :=
  match (s.ts t).status with
  | .waitWake i => if canGoOn s t then asTs t (evaluate i) s else .next s
  | .waitPhase g p => if canGoOn s t then asTs t (waitPhase (Fin.ofNat 4 g) p) s else .next s
  | _ => .next s

/-! ### Accesses that wait for a peer -/

/-- Performs an access that waited. -/
def performAccess (i : Instr) (s : State) : Out :=
  match i with
  | .ld sz h d a o => execLd sz h d a o s
  | .st sz h d a o => execSt sz h d a o s
  | .vld sz h d a o => execVld sz h d a o s
  | .vst sz h d a o => execVst sz h d a o s
  | .vlds g k et h d a b o => execVlds g k et h d a b o s
  | .vldx g k et h sc d a b o => execVldx g k et h sc d a b o s
  | .vstx g k et h sc d a b o => execVstx g k et h sc d a b o s
  | .vldb g k et h d a o => execVldb g k et h d a o s
  | .amo g fn w d a b o => execAmo g fn w d a b o s
  | .amof g fn et a b o => execAmof g fn et a b o s
  | .cas g w d a b c o => execCas g w d a b c o s
  | .cas2 g d a b c o => execCas2 g d a b c o s
  | _ => .next s

/-- The access writes a register. -/
def hasDest (i : Instr) : Bool := let u := usesOf i; u.ws != 0 || u.wv != 0

/-- A launch that stands for the address space of an access whose own launch has been released. -/
def stubLaunch (w : Writeback) : Launch :=
  { num := w.snap.launch, queue := 0, asid := w.asid, root := w.root, element := false, image := 0, code := 0, cb := 0,
    kernels := [], count := 0, ebase := 0, graph := none, ageLimit := 0, verify := false, priority := 0, completion := 0,
    increment := 0, lower := 0, upper := 0, budget := 0 }

/-- A fault that a thread set has raised itself and that has not been posted yet: its message waits while an earlier access
does. -/
def ownUnposted (s : State) (t h : Nat) : Bool :=
  s.faults.recs.any fun r => r.handle.toNat == h && r.ts == t && r.source == 0 && !r.posted && r.late.isNone

/-- A thread set that has gone on blocks on a fault of an earlier access (R467, R468). The instruction at which it is has had no
effect and executes again after the reply, so a fault that it has raised there is not posted: an earlier instruction has not
taken its effect (R138). -/
def markLate (s : State) (w : Writeback) (h : Nat) : State :=
  let mark (r : FaultRec) : FaultRec := if r.handle.toNat = h then { r with late := some w } else r
  let s := { s with faults := { s.faults with recs := s.faults.recs.map mark } }
  let x := s.ts w.ts
  let block (s : State) : State := s.setTs w.ts { x with status := .waitReply h }
  match x.status with
  | .free | .ending _ => s
  | .waitReply g =>
    if ownUnposted s w.ts g then
      block { s with faults := { s.faults with recs := s.faults.recs.filter fun r => r.handle.toNat != g } }
    else s
  | _ => block s

/-- What the access did to the thread set beside its destinations. -/
def afterAccess (x y : ThreadSet) : ThreadSet :=
  { x with pts := y.pts, faultSeq := y.faultSeq, toPeers := y.toPeers, toHost := y.toHost }.raise y.fps

/-- An access that has been performed in part waits again, for another peer. -/
def parkAgain (s : State) (w : Writeback) (n : Nat) : State :=
  let again (v : Writeback) : Writeback := { v with orphan := w.orphan, asid := w.asid, root := w.root }
  { s with faults := { s.faults with
    writebacks := s.faults.writebacks.take n ++ (s.faults.writebacks.drop n).map again } }

/-- Performs what is left of a waiting access, with the registers it was issued with. Its result then arrives by
RESULT_WRITEBACK; a fault is precise at its instruction. -/
def performParked (s : State) (w : Writeback) : State :=
  let t := w.ts
  let x := s.ts t
  let known := (s.launch? w.snap.launch).isSome
  let n := s.faults.writebacks.length
  let s0 := if known then s else s.setDisp { s.disp with launches := stubLaunch w :: s.disp.launches }
  let s1 := { s0 with split := false }.setTs t { w.snap with
    pts := x.pts, faultSeq := x.faultSeq, toPeers := x.toPeers, toHost := x.toHost, fps := 0, status := .running }
  let undo (y : State) : State :=
    let y := { y with split := s.split }
    if known then y else y.setDisp { y.disp with launches := y.disp.launches.drop 1 }
  match asTs t (performAccess w.instr) s1 with
  | .next s' =>
    let y := s'.ts t
    let s' := undo s'
    let s' := s'.setTs t (if w.orphan then { x with pts := y.pts } else afterAccess x y)
    match y.status with
    | .waitReply h =>
      if w.orphan then
        { s' with faults := { s'.faults with recs := s'.faults.recs.filter fun r => r.handle.toNat != h } }
      else markLate s' w h
    | _ =>
      if n < s'.faults.writebacks.length then parkAgain s' w n
      else if hasDest w.instr && !w.orphan then
        { s' with faults := { s'.faults with writebacks := s'.faults.writebacks ++ [{ w with snap := y, peer := none }] } }
      else s'
  | _ => s

/-- The i-th late result leaves the list. -/
def dropWriteback (s : State) (i : Nat) : State :=
  { s with faults := { s.faults with writebacks := s.faults.writebacks.eraseIdx i } }

/-- The registers of a mask, taken from another thread set, no longer pending (R110). -/
def takeRegs (x y : ThreadSet) (u : Uses) : ThreadSet :=
  let x := (List.finRange 32).foldl (fun t r => if u.ws.getLsbD r.val then t.setS r (y.getS r) else t) x
  let x := (List.finRange 32).foldl (fun t r => if u.wv.getLsbD r.val then t.setV r (y.getV r) else t) x
  x.setPending (x.pendS &&& ~~~u.ws) (x.pendV &&& ~~~u.wv)

/-- An access that waits for a peer, or for the host's port, can be tried: the peer retrains no longer. Towards one that has
failed only an access that is executed again after its fault is left, and it faults again (R457). -/
def canTry (s : State) (p : Nat) : Bool := if p = hostPeer then s.mgmt.hostUp else !retrains s p

/-- An earlier access of the thread set of the i-th late result waits still without a place in S: the later one follows it
(R299). -/
def behindOther (s : State) (i : Nat) (w : Writeback) : Bool :=
  (s.faults.writebacks.take i).any fun v => v.ts == w.ts && v.peer.isSome && !v.placed

/-- A store that has its place in S has reached its peer: the time from which its value must be seen starts (R270). -/
def storeArrives (s : State) (w : Writeback) : State :=
  let key (p : Piece) : Option Nat := lineKey (lineLoc p.loc)
  let fresh (e : Nat × List OldLine) : Nat × List OldLine :=
    if w.parts.any fun p => key p == some e.1 then (e.1, e.2.map fun x => { x with replaced := s.clk }) else e
  { s with msys := { s.msys with old := s.msys.old.map fresh } }

/-- Performs an access whose peer is back: a store that has its place has been performed already. -/
def performWaiting (s : State) (w : Writeback) : State := if w.placed then storeArrives s w else performParked s w

/-- RESULT_WRITEBACK of the i-th late result: it is written, or an access whose peer is back is performed. -/
def execResultWriteback (i : Nat) (s : State) : Out :=
  match s.faults.writebacks[i]? with
  | none => .next s
  | some w =>
    match w.peer with
    | none =>
      let s := dropWriteback s i
      .next (if w.orphan then s else s.setTs w.ts (takeRegs (s.ts w.ts) w.snap (usesOf w.instr)))
    | some p => if canTry s p && !behindOther s i w then .next (performWaiting (dropWriteback s i) w) else .next s

/-- A thread set at an instruction that waits for a peer goes on with it, now that the peer can be reached. -/
def resumeWaits (s : State) (p : Nat) : State :=
  { s with tsets := s.tsets.map fun e => match e.2.status with
    | .waitPeer _ q _ _ => if q = p then (e.1, { e.2 with status := .running }) else e
    | _ => e }

/-- Performs every access and fold that waits for a peer, in the order they came (R468). -/
def performAll (s : State) (p : Nat) : State :=
  let ws := s.faults.writebacks.filter fun w => w.peer == some p
  let fs := s.fab.heldFolds.filter fun f => f.loc.space == .peer p
  let s := { s with
    faults := { s.faults with writebacks := s.faults.writebacks.filter fun w => w.peer != some p }
    fab := { s.fab with heldFolds := s.fab.heldFolds.filter fun f => f.loc.space != .peer p } }
  resumeWaits (ws.foldl performWaiting (fs.foldl placeFold s)) p

/-- Loads and returning atomics post a fault when their peer fails (R467). -/
def returns (i : Instr) : Bool := hasDest i

/-- A fold that waits is discarded toward a failed peer, and recorded (R275). -/
def discardFold (s : State) (w : Writeback) (p : Nat) : State :=
  errorLog s (dieOfCore (coreOf w.ts)) 2 p w.snap.launch (w.va.toNat / 64 * 64)

/-- Each byte that a store wrote at its peer may be any value afterwards (R310). -/
def loseBytes (l : Loc) : Nat → State → State
  | 0, s => s
  | n + 1, s =>
    let c := s.pick
    let m := memOf c.2 l.space
    let x : Byte := if c.1 % 2 = 0 then m.get l.addr else BitVec.ofNat 8 (c.1 / 2)
    loseBytes { l with addr := l.addr + 1 } n (setMem c.2 l.space (m.put l.addr x))

/-- A store that waits has its event or has none, each by itself (R310); one that has its place need not have reached the peer. -/
def loseStore (s : State) (w : Writeback) (p : Nat) : State :=
  if w.placed then w.parts.foldl (fun s q => loseBytes q.loc q.n s) s
  else
    let c := s.pick
    match s.peer? p with
    | some x =>
      if c.1 % 2 = 0 then c.2
      else
        let s := performParked (c.2.setLink p .up) w
        s.setLink p x.link
    | none => c.2

/-- The peer of a waiting access has failed. -/
def failParked (p : Nat) (s : State) (w : Writeback) : State :=
  match w.instr with
  | .amof .. => discardFold s w p
  | _ =>
    if !returns w.instr then loseStore s w p
    else if w.orphan then s
    else
      let f : FaultInfo := { cls := 5, info := w.va, write := !isLoad w.instr }
      if isService (coreOf w.ts) then haltService s (coreOf w.ts)
      else
        let s := placeFolds s w.ts scopeSys
        let r := addFault s w.ts 0 f w.instr w.snap.pc 0 (s.ts w.ts).pts
        markLate r.1 w r.2.toNat

/-- A thread set at an instruction that waits for a peer that has failed posts the fault there (R467, R468). -/
def failWaits (p : Nat) (s : State) (e : Nat × ThreadSet) : State :=
  match e.2.status with
  | .waitPeer i q va write =>
    if q = p then
      match asTs e.1 (fun s => .next (postFault i { cls := 5, info := va, write } s)) s with
      | .next s => s
      | _ => s
    else s
  | _ => s

/-- Ends every access and fold that waits for a peer that has failed. -/
def failAll (s : State) (p : Nat) : State :=
  let ws := s.faults.writebacks.filter fun w => w.peer == some p
  let fs := s.fab.heldFolds.filter fun f => f.loc.space == .peer p
  let s := { s with
    faults := { s.faults with writebacks := s.faults.writebacks.filter fun w => w.peer != some p }
    fab := { s.fab with heldFolds := s.fab.heldFolds.filter fun f => f.loc.space != .peer p } }
  let s := ws.foldl (failParked p) (fs.foldl placeFold s)
  s.tsets.foldl (failWaits p) s

end Sys2Proof.Machine
end

