-- ==== Sys2Proof/Machine/Fabric.lean ====
section
/-! DEFINITION. The fabric port: flits and channels (R442), links and peers (R466 to R469), fences that wait for a link
(R287), and the requests of importers (R458, R459). -/

namespace Sys2Proof.Machine

/-- Clk of 2 ms and of 10 ms (R102). -/
def fenceClk : Nat := 3400000
def failClk : Nat := 17000000

/-! ### Channels (R442) -/

def chanOf (s : State) (ch : Nat) : Chan := (s.fab.chans.get? ch).getD {}

def setChan (s : State) (ch : Nat) (c : Chan) : State := { s with fab := { s.fab with chans := s.fab.chans.set ch c } }

/-- A receive channel carries light: the floor of a peer, or a pool channel that hears a peer, whether or not a lease holds it
(R440). -/
def rxLit (s : State) (ch : Nat) : Bool :=
  if ch < 120 then (chanPeer s ch).isSome
  else
    let c := rxChan s.fab.rx (ch - 120)
    c.start ≤ s.clk && match c.tuned with | some q => (s.peer? q).isSome | none => false

/-- FLIT_RECEIVE: only the flit with the next sequence number and a good CRC is accepted, and it is acknowledged. A dark channel
carries none. -/
def execFlitReceive (ch : Fin 144) (seq : BitVec 32) (crcOk : Bool) (s : State) : Out :=
  let c := chanOf s ch.val
  if !rxLit s ch.val || c.down then .next s
  else if crcOk && seq == c.rxSeq then
    let s := setChan s ch.val { c with rxSeq := c.rxSeq + 1, ackSeq := c.rxSeq + 1 }
    .next { s with fab := { s.fab with accepted := s.fab.accepted + 1 } }
  else .next { s with fab := { s.fab with discarded := s.fab.discarded + 1 } }

/-- A flit of a transmit channel that reaches a peer and is in service. -/
def flitSent (s : State) (ch : Nat) (c : Chan) : State :=
  if (chanPeer s ch).isNone || c.down then s
  else let s := setChan s ch c; { s with fab := { s.fab with sent := s.fab.sent + 1 } }

/-- The receiver acknowledges flits in order, up to one: they leave the retry buffer. -/
def ackedTo (seq : BitVec 32) : List (BitVec 32) → List (BitVec 32)
  | [] => []
  | x :: r => if x = seq then r else ackedTo seq r

/-- A `bwrel` looked at again: its status is written once the channels that it freed carry none of its flits any more (R453). -/
def reviewRel (s : State) (r : Release) : State :=
  let left := (r.flits.map fun e => (e.1, e.2.filter fun q => (chanOf s e.1).unacked.contains q)).filter fun e => !e.2.isEmpty
  if left.isEmpty then s.setTs r.ts ((s.ts r.ts).writeToken r.d r.token)
  else { s with fab := { s.fab with rels := s.fab.rels ++ [{ r with flits := left }] } }

def reviewRels (s : State) : State := s.fab.rels.foldl reviewRel { s with fab := { s.fab with rels := [] } }

/-- Flits move to other channels toward their peer, each as a new flit there; which channel takes one is open (R442). -/
def moveFlits (chans : List Nat) : Nat → State → State
  | 0, s => s
  | n + 1, s =>
    let c := s.pick
    let ch := chans.getD (c.1 % chans.length) 0
    let x := chanOf c.2 ch
    moveFlits chans n (setChan c.2 ch { x with txSeq := x.txSeq + 1, unacked := x.unacked ++ [x.txSeq] })

/-- A channel goes out of service: the flits in its retry buffer move to the other channels toward the same peer, where there are
any, and its numbers go on, once it is back, from the first of them (R442; log entry 98). -/
def dropChannel (s : State) (ch : Nat) : State :=
  let c := chanOf s ch
  let s := setChan s ch { c with down := true }
  match c.unacked, (match chanPeer s ch with | some p => channelsTo s p | none => []) with
  | x :: r, t :: ts =>
    reviewRels (moveFlits (t :: ts) (r.length + 1) (setChan s ch { c with down := true, txSeq := x, unacked := [] }))
  | _, _ => s

/-- An act of a transmit channel (R442): a new flit takes the next number and stays in the retry buffer until it is
acknowledged; one that failed its CRC is sent again from there, under its number. -/
def channelAct (ch : Nat) (a : ChanAct) (s : State) : State :=
  let c := chanOf s ch
  match a with
  | .send => flitSent s ch { c with txSeq := c.txSeq + 1, unacked := c.unacked ++ [c.txSeq] }
  | .resend seq => if c.unacked.contains seq then flitSent s ch c else s
  | .acked seq => if c.unacked.contains seq then reviewRels (setChan s ch { c with unacked := ackedTo seq c.unacked }) else s

/-! ### Fences that wait (R287) -/

/-- A waiting fence or `fdrain` of thread set t is looked at again: folds that have entered the buffer meanwhile are placed;
a fence writes its status once it is decided, and `fdrain` ends once every fold has been performed or discarded (R286,
R289). -/
def reviewFence (t : Nat) (late : Bool) (s : State) : State :=
  if !canGoOn s t then s
  else
    match (s.ts t).status with
    | .waitFence (.fence sc d) _ =>
      let s := placeFolds s t (scopeNum sc)
      match fenceStatus s t sc late with
      | some x => endFence s t sc d x
      | none => s
    | .waitFence .fdrain _ =>
      let s := placeFolds s t scopeSys
      if foldsHeld s t then s else s.setTs t { (s.ts t).past 4 with status := .running }
    | _ => s

/-- Every waiting fence is looked at again. -/
def reviewFences (s : State) : State := s.tsets.foldl (fun s e => reviewFence e.1 false s) s

/-- FENCE_TIMEOUT: a fence that has waited 2 ms. -/
def execFenceTimeout (t : Nat) (s : State) : Out :=
  match (s.ts t).status with
  | .waitFence _ since => .next (if since + fenceClk ≤ s.clk then reviewFence t true s else s)
  | _ => .next s

/-- The host port is back: the writes and folds that waited for it are performed, but for those that a fence has reported,
each of which may or may not be (R310); everything else that was outstanding is acknowledged. -/
def hostBack (s : State) : State :=
  let s := settle (fun x => if x.kind == .coherent then some true else none) s
  let toHost (f : Fold) : Bool := f.loc.space == .host
  let fs := s.fab.heldFolds.filter toHost
  let s := fs.foldl performFold { s with fab := { s.fab with heldFolds := s.fab.heldFolds.filter fun f => !toHost f } }
  let s := performAll s hostPeer
  finishEnds (reviewFences { s with tsets := s.tsets.map fun e => (e.1, { e.2 with toHost := false }) })

/-- HOST_LINK_CHANGE: the host port goes down or comes back. -/
def execHostLinkChange (s : State) : Out :=
  let up := !s.mgmt.hostUp
  let s := { s with mgmt := { s.mgmt with hostUp := up } }
  .next (if up then hostBack s else s)

/-! ### Links (R466 to R469) -/

/-- PEER_RETRAINING: the peer reports that its router is relocking. -/
def execPeerRetraining (peer : BitVec 8) (s : State) : Out :=
  match s.peer? peer.toNat with
  | some p =>
    .next (match p.link with
      | .up => setPeer s { p with relocks := true, link := .retraining s.clk }
      | .retraining _ => setPeer s { p with relocks := true }
      | .failed => s)
  | none => .next s

/-- The link is back: waiting accesses, folds, fences and ends go on (R468). -/
def linkBack (s : State) (p : Peer) : State :=
  finishEnds (reviewFences (performAll (setPeer s { p with relocks := false, link := .up }) p.id))

/-- The packages through which a hop to a peer can go instead of by the direct channels: peers of the same row or column whose
link is up and that a channel reaches (R438). -/
def detours (s : State) (p : Nat) : List Peer :=
  s.fab.peers.filter fun q => q.id != p && q.link == .up && !(channelsTo s q.id).isEmpty &&
    (if p / 16 = s.self / 16 then q.id / 16 == s.self / 16 else q.id % 16 == s.self % 16)

/-- Whether a path leads to a peer (R467): a direct channel, or, where a third package of its row or column may carry the hop, an
open value, since the channels between the two are not seen here (log entry 99). -/
def pathTo (s : State) (p : Nat) : Bool × State :=
  if !(channelsTo s p).isEmpty then (true, s)
  else if (detours s p).isEmpty then (false, s)
  else let c := s.pick; (c.1 % 2 == 1, c.2)

/-- A peer that no path reaches any more is retraining (R467). -/
def checkPath (s : State) (p : Peer) : State :=
  if p.link != .up then s
  else let r := pathTo s p.id; if r.1 then r.2 else setPeer r.2 { p with link := .retraining s.clk }

/-- Every peer's paths, after a channel has gone out of service. -/
def checkPaths (s : State) : State := s.fab.peers.foldl checkPath s

/-- The same as time passes, a channel being retuned from a moment on, where no third package can carry the hop. -/
def losePaths (s : State) : State :=
  { s with fab := { s.fab with peers := s.fab.peers.map fun p =>
      if p.link == .up && (channelsTo s p.id).isEmpty && (detours s p.id).isEmpty then { p with link := .retraining s.clk } else p } }

/-- A retraining peer that has stopped relocking and that some path reaches is back, before it is declared failed. -/
def reviewLink (s : State) (p : Peer) : State :=
  match p.link with
  | .retraining since =>
    if p.relocks || since + failClk ≤ s.clk then s
    else let r := pathTo s p.id; if r.1 then linkBack r.2 p else r.2
  | _ => s

/-- Every retraining peer, after a channel has come into service. -/
def reviewLinks (s : State) : State :=
  s.fab.peers.foldl (fun s p => match s.peer? p.id with | some p => reviewLink s p | none => s) s

/-- LINK_RETURN: the peer's router no longer relocks. -/
def execLinkReturn (peer : BitVec 8) (s : State) : Out :=
  match s.peer? peer.toNat with
  | some p =>
    let p := { p with relocks := false }
    .next (reviewLink (setPeer s p) p)
  | none => .next s

/-- CHANNEL_RETRAIN: a channel goes out of service; a peer that no path reaches any more is retraining (R442, R467). -/
def execChannelRetrain (ch : Fin 144) (s : State) : Out := .next (checkPaths (dropChannel s ch.val))

/-- CHANNEL_RETRAIN_COMPLETE: the channel is in service again. -/
def execChannelRetrainComplete (ch : Fin 144) (s : State) : Out :=
  .next (reviewLinks (setChan s ch.val { chanOf s ch.val with down := false }))

/-- RETUNE_COMPLETE of a pool channel, once its time has passed: it carries traffic to the peer it has been tuned to, and its receive
channel hears it (R441). -/
def execRetuneComplete (ch : Fin 24) (s : State) : Out :=
  let c := poolChan s ch.val
  match c.retune with
  | some u =>
    if s.clk < u then .next s
    else
      let s := setPoolChan s ch.val { c with tuned := tunesTo s c, retune := none }
      .next (reviewLinks (match c.lease.bind (leasePeer s) with | some p => ownRx s p c.rx | none => s))
  | none => .next s

/-- The destination number of chunk k of a `cpyr`, in elements. -/
def chunkStart (m : TCmd) (es : Nat) : Nat → Nat
  | 0 => 0
  | k + 1 => let a := chunkStart m es k * es; a / es + min ((m.c.getD 0 0).toNat - a / es)
    (pieceRest (m.a + BitVec.ofNat 64 a) / es)

/-- The address of a stalled chunk's access that lies in a peer, and whether it is a write: the first transfer that
waits. -/
def stalledAt (s : State) (w : Who) (p : Nat) : List Move → Option (Word × Bool)
  | [] => none
  | v :: r =>
    let waits (k : Kind) (a : Word) : Bool :=
      match checkAccess w k a v.n s with
      | .error (.peer q _ _ _) => q == p
      | _ => false
    let next := if waits .store v.dst then some (v.dst, true) else stalledAt s w p r
    match v.src with
    | some a => if waits .load a then some (a, false) else next
    | none => next

/-- The first element of an open chunk that lies in a peer: its address there, and whether it is a write. -/
def openAt (p : Nat) (es : List Elem) : Option (Word × Bool) :=
  es.findSome? fun e =>
    let far (ps : List Piece) : Option Nat := (ps.find? fun q => q.loc.space == .peer p).map (·.va)
    match far e.src, far e.dst with
    | some a, _ => some (BitVec.ofNat 64 a, false)
    | none, some a => some (BitVec.ofNat 64 a, true)
    | none, none => none

/-- Where the running chunk of a command reaches a peer: in an element that is open, or in one that waits; a `put` whose
elements have landed waits at its flag. -/
def chunkAt (s : State) (m : TCmd) (w : Who) (p : Nat) : Option (Word × Bool) :=
  match m.opened with
  | some es => openAt p es
  | none =>
    if m.stall != some p then none
    else if m.finished then some (m.c.getD 2 0, true)
    else stalledAt s w p (planOf s m).moves

/-- The lowest chunk of a copy that has been sent toward a peer and not acknowledged. -/
def lostChunk (s : State) (copy p : Nat) : Option Chunk := (inFlight s copy).find? fun k => (chunkPeers k).contains p

/-- A bulk copy packet as the command that its engine runs (R413). -/
def packetCmd (p : Packet) : TCmd :=
  let i : Instr := if p.kind = 4 then .cpyr ⟨false, 0⟩ p.op p.et 0 0 0 (.reg 0) else .cpy ⟨false, 0⟩ 0 0 0 (.reg 0)
  { newTCmd with
    instr := i, a := BitVec.ofNat 64 p.dst, b := BitVec.ofNat 64 p.src, c := [BitVec.ofNat 64 p.len], next := p.next,
    chunk := p.chunk, copy := p.copy, finished := p.len ≤ p.next, pts := p.pts, opened := p.opened, stall := p.stall }

/-- The accesses of a packet's engine and of its front-end processor. -/
def packetWho (p : Packet) : Who := { core := hubCore, asid := p.asid, root := p.root }

/-- A bulk copy with a chunk toward a peer that has failed is abandoned there, the chunks before it having landed (R413, R467);
its completion follows them. The state `old` is the one before the failure. -/
def failPacket (old : State) (peer : Nat) (s : State) (p : Packet) : State :=
  let put (s : State) (x : Packet) : State :=
    { s with front := { s.front with packets := s.front.packets.map fun y => if y == p then x else y } }
  let fail (s : State) (n : Nat) : State :=
    let s := if p.kind = 4 then settleChunks s p.copy n else s
    let pts := max p.pts (chunkWindow s p.copy).pts
    put (releaseWindow s p.copy) { p with status := 11, code := 5, ready := true, opened := none, stall := none, pts }
  if p.ready || !(p.kind == 3 || p.kind == 4) then s
  else
    match if p.kind = 4 then lostChunk old p.copy peer else none with
    | some k => fail s k.seq
    | none => if (chunkAt old (packetCmd p) (packetWho p) peer).isSome then fail s p.chunk else s

/-- What the failure of a peer does to one command of a tile engine: a chunk toward it, waiting or not acknowledged, pauses
the command, once the chunks before it have landed (R224, R467). The state `old` is the one before the failure. -/
def failCommand (old : State) (c p : Nat) (s : State) (m : TCmd) : State :=
  let red := match m.instr with | .cpyr .. => true | _ => false
  let pause (m : TCmd) (a : Word) (write : Bool) : State :=
    pauseTile (if red then settleChunks s m.copy m.chunk else s) c m { cls := 5, info := a, write }
  let running : State :=
    match chunkAt old m (engineWho old m.ts) p with
    | some a => pause m a.1 a.2
    | none => s
  if m.paused.isSome then s
  else
    match m.instr with
    | .cpyr _ _ et .. =>
      match lostChunk old m.copy p with
      | some k =>
        let n := chunkStart m et.bytes k.seq
        pause { m with next := n, chunk := k.seq, bytes := n * et.bytes, finished := false }
          (m.a + BitVec.ofNat 64 (n * et.bytes)) true
      | none => running
    | _ => running

/-- What the failure of a peer does to an instance: a chunk toward it pauses this member (R467, R476); where the peer is a member, a
reducing chunk toward it that has not landed keeps the instance from completing, and its next chunk posts detail 3 (R477). -/
def failInstance (old : State) (p : Nat) (s : State) (x : Instance) : State :=
  let x := (s.coll.active.find? fun y => y.cmd == x.cmd && coreOf y.ts == coreOf x.ts).getD x
  match x.instr with
  | .coll _ _ _ et _ scaled .. =>
    let es := collBytes et scaled
    let far (l : List (Nat × List Piece)) : Option Nat := ((l.flatMap Prod.snd).find? fun q => q.loc.space == .peer p).map (·.va)
    let pause (s : State) (x : Instance) (a : Nat) (write : Bool) : State :=
      pauseInstance s x { cls := 5, info := BitVec.ofNat 64 a, write }
    let lost := if x.copy = 0 then none else lostChunk old x.copy p
    let undone (k : Nat) : List Nat := (x.done.reverse.take k).reverse
    if x.paused.isSome then s
    else if x.peers.contains p then
      match lost with
      | some k => setInstance (settleChunks s x.copy k.seq) { x with done := undone k.seq, finished := false }
      | none => s
    else
      match lost with
      | some k =>
        let start := x.done.reverse.getD k.seq 0
        let x := { x with done := undone k.seq, bytes := start * es, finished := false }
        pause (settleChunks s x.copy k.seq) x (x.recv.toNat + start * es) true
      | none =>
        match x.opened.bind fun c => far c.2.1, x.opened.bind fun c => far c.2.2 with
        | some a, _ => pause (settleChunks s x.copy x.done.length) x a false
        | none, some a => pause (settleChunks s x.copy x.done.length) x a true
        | none, none => s
  | _ => s

/-- The pages of a matrix command or slot in a failed peer are no longer there (log entry 84). -/
def losePages (p : Nat) (m : NMap Loc) : NMap Loc :=
  m.map fun e => if e.2.space == .peer p then (e.1, { e.2 with space := .peer (p + 65536) }) else e

/-- Events of an access that are to come in a failed peer are of no present peer any more: a load's take the page-not-present fault,
a store's are given no event (R467), also once the peer has rejoined (R469). -/
def losePart (p : Nat) (t : ThreadSet) : ThreadSet :=
  let far (e : Ev) : Ev :=
    if e.piece.loc.space == .peer p then
      { e with piece := { e.piece with loc := { e.piece.loc with space := .peer (p + 65536) } } }
    else e
  { t with part := t.part.map fun x => { x with todo := x.todo.map far } }

/-- The flits toward a failed peer are gone from their channels. -/
def loseFlits (s : State) (p : Nat) : State :=
  let s := (List.range 144).foldl (fun s ch =>
    if chanPeer s ch == some p then (match s.fab.chans.get? ch with | some c => setChan s ch { c with unacked := [] } | none => s)
    else s) s
  let rels := s.fab.rels.map fun r => if r.token.toNat % 256 = p then { r with flits := [] } else r
  reviewRels { s with fab := { s.fab with rels } }

/-- The failed peer's channels in this package's receive pool: they go to their claimants or are free, and its claims are
withdrawn (R446, R467). -/
def endPeerRx (s : State) (p : Nat) : State :=
  let one (c : RxChan) : RxChan :=
    let c := if c.claim = some p then { c with claim := none } else c
    if c.holder = some p then { tuned := c.tuned, holder := c.claim, start := s.clk + retuneClk } else c
  { s with fab := { s.fab with rx := s.fab.rx.map fun e => (e.1, one e.2) } }

/-- What a failed peer's memory holds afterwards: a byte written there need not have survived (R287, R310). -/
def survivors : Memory → State → Memory × State
  | [], s => ([], s)
  | c :: r, s =>
    let x := s.pick
    let q := survivors r x.2
    (Memory.put q.1 c.1 (if x.1 % 2 = 0 then c.2 else BitVec.ofNat 8 (x.1 / 2)), q.2)

/-- Every effect of a peer's failure (R467). -/
def declareFailed (s : State) (p : Peer) : State :=
  let old := s
  let space : Space := .peer p.id
  let m := survivors p.mem s
  let s : State := setPeer m.2 { p with relocks := false, link := .failed, mem := m.1 }
  let lose (t : ThreadSet) : ThreadSet :=
    losePart p.id { t with toPeers := t.toPeers.map fun e => if e.1 = p.id then (e.1, none) else e }
  let s : State := { s with
    tsets := s.tsets.map fun e => (e.1, lose e.2)
    msys := { s.msys with
      copies := s.msys.copies.filter fun c => c.home.space != space
      owners := s.msys.owners.filter fun o => o.1 / 2 ^ 50 != p.id + 1
      old := s.msys.old.filter fun o => o.1 / 2 ^ 50 != p.id + 1 }
    faults := { s.faults with writebacks := s.faults.writebacks.map fun w => { w with snap := losePart p.id w.snap } } }
  let s := s.cores.foldl (fun s e => dropStash s e.1 fun x => x.home.space == space) s
  let s := endPeerRx (endPeerLeases (loseFlits s p.id) p.id) p.id
  let s := old.cores.foldl (fun s e => placeCore s e.1 fun f => f.loc.space == space) s
  let s := failAll s p.id
  let s := loseMembers { s with coll := { s.coll with joined := s.coll.joined.filter fun j => j.2.pkg != p.id } } p.id
  let s := old.cores.foldl (fun s e => e.2.tq.foldl (failCommand old e.1 p.id) s) s
  let s := old.coll.active.foldl (failInstance old p.id) s
  let s := old.front.packets.foldl (failPacket old p.id) s
  let lost (k : Core) : Core :=
    { k with
      mq := k.mq.map fun m => { m with pages := losePages p.id m.pages }
      slots := k.slots.map fun x => { x with sidePages := losePages p.id x.sidePages } }
  let s := { s with
    cores := s.cores.map fun e => (e.1, lost e.2)
    msys := { s.msys with flight := s.msys.flight.filter fun c => !(chunkPeers c).contains p.id } }
  finishEnds (reviewFences s)

/-- PEER_FAILED: a peer that has been retraining for 10 ms. -/
def execPeerFailed (peer : BitVec 8) (s : State) : Out :=
  match s.peer? peer.toNat with
  | some p =>
    match p.link with
    | .retraining since => .next (if since + failClk ≤ s.clk then declareFailed s p else s)
    | _ => .next s
  | none => .next s

/-- n values that are open. -/
def draws (s : State) : Nat → List Nat × State
  | 0 => ([], s)
  | n + 1 =>
    let c := s.pick
    let r := draws c.2 n
    (c.1 :: r.1, r.2)

/-- Pages of an export that the exporter's walk refuses, and how, from open values. -/
def badPages : List Nat → NMap Nat
  | a :: b :: r => (badPages r).set a (if b % 3 = 0 then 5 else if b % 3 = 1 then 6 else 9)
  | _ => []

/-- One valid entry of a peer's import table, from open values (R458). -/
def drawExport (s : State) : Export × State :=
  let r := draws s 9
  let x (i : Nat) : Nat := r.1.getD i 0
  let b := draws r.2 (2 * x 8)
  ({ handle := x 0 % 65536, base := x 1 * 65536, length := (x 2 + 1) * 65536, key := BitVec.ofNat 32 (x 3),
     read := x 4 % 2 == 1, write := x 5 % 2 == 1, importer := if x 6 < 256 then some (x 6) else none,
     bound := if x 7 < 65536 then some (BitVec.ofNat 16 (x 7)) else none, bad := badPages b.1 }, b.2)

/-- What a peer that joins exports: its management decides it, so it is open (log entry 10). -/
def drawExports (s : State) : Nat → List Export × State
  | 0 => ([], s)
  | n + 1 =>
    let e := drawExport s
    let r := drawExports e.2 n
    (e.1 :: r.1, r.2)

/-- A peer as it joins; `dead` are the incarnations of it that have failed. -/
def joinedPeer (s : State) (id : Nat) (inc : BitVec 16) (dead : List (BitVec 16)) : Peer × State :=
  let c := s.pick
  let r := drawExports c.2 c.1
  ({ id, incarnation := inc, exports := r.1, dead := dead.filter fun x => x != inc }, r.2)

/-- PEER_JOIN: a changed incarnation is a failure of the old one, and what the peer held is gone (R466, R467, R469). A package
joins only at a position of the fabric in this package's row or column, once bring-up has given this package its own (R402,
R436, R437). -/
def execPeerJoin (peer : BitVec 8) (inc : BitVec 16) (s : State) : Out :=
  match s.peer? peer.toNat with
  | some p =>
    if p.incarnation = inc then
      match p.link with
      | .failed => .next (setPeer s { p with relocks := false, link := .up })
      | _ =>
        let p := { p with relocks := false }
        .next (reviewLink (setPeer s p) p)
    else
      let s := if p.link = .failed then s else declareFailed s p
      let j := joinedPeer s p.id inc (p.incarnation :: p.dead)
      .next (setPeer j.2 j.1)
  | none =>
    let there := peer.toNat / 16 < s.fab.rows && peer.toNat % 16 < s.fab.cols
    if s.mgmt.powered && s.mgmt.ready && there && (peerSlot s.self peer.toNat).isSome && !s.mgmt.dark then
      let j := joinedPeer s peer.toNat inc []
      .next { j.2 with fab := { j.2.fab with peers := j.2.fab.peers ++ [j.1] } }
    else .next s

/-! ### Requests of importers (R458, R459) -/

/-- The root of an address space: of a launch that runs in it, or of a queue. -/
def rootOf (s : State) (asid : Nat) : Option Nat :=
  match s.disp.launches.find? fun l => l.asid == asid with
  | some l => some l.root
  | none => (s.front.queues.find? fun q => q.2.state == 1 && q.2.asid == asid).map fun q => q.2.root

/-- The import-table entry of a handle as 32 bytes, or the class of the reply. -/
def importEntry (s : State) (handle : Nat) : Except Nat Nat :=
  let a := s.fab.fimpb.toNat + 32 * handle
  if s.fab.fimpn.toNat ≤ handle then .error 5
  else if poisoned s .dev a 32 then .error 9
  else
    let e := readNum s .dev ((keyOf s 0).getD none) a 32
    let flags := e / 2 ^ 184 % 256
    if flags % 2 = 0 || 32 ≤ flags || e / 2 ^ 208 != 0 then .error 5 else .ok e

/-- Steps 2 and 3 of R459: 0, or the class of the reply. -/
def importerOk (e me : Nat) (inc : BitVec 16) (key : BitVec 32) (offset size : Nat) (k : Kind) : Bool :=
  let f (o n : Nat) : Nat := e / 2 ^ (8 * o) % 2 ^ (8 * n)
  let flag (i : Nat) : Bool := (f 23 1).testBit i
  key.toNat == f 16 4 && (flag 3 || f 22 1 == me) && (!flag 4 || f 24 2 == inc.toNat) &&
    offset + size ≤ f 8 8 && (!k.r || flag 1) && (!k.w || flag 2)

/-- What an import request needs. -/
def importKind : ImportOp → Kind
  | .read => { Kind.load with inner := true }
  | .write _ => { Kind.store with inner := true }
  | _ => { Kind.rmw with inner := true }

/-- A non-coherent host page performs the request (R283). -/
def importOnHost : ImportOp → Bool
  | .amo fn _ => amoOnHost fn
  | .fold fn et _ => fn == .add && et.isInt
  | _ => true

/-- The new value of an import's atomic. -/
def importNew (op : ImportOp) (size old : Nat) : Option Nat :=
  match op with
  | .amo fn v => some (amoNew fn (8 * size) old v)
  | .cas x y => if old = x then some y else none
  | .fold fn et v => some (foldStep fn et old v)
  | _ => none

/-- The place that a fold or an atomic of an import meets holds an uncorrectable word. -/
def importMeetsBad (s : State) (w : Who) (ps : List Piece) : Bool := ps.any (uncorrectable s w)

/-- The die of the home of an import. -/
def importDie : List Piece → Nat
  | p :: _ => match p.loc.space with | .dev => homeDie p.loc.addr | _ => 0
  | [] => 0

/-- Step 4 of R459, and the access at the exporter's homes. A fold that meets an uncorrectable word is discarded and
recorded, as every placement is (R275); the importer is `peer`. -/
def performImport (peer asid root addr size : Nat) (op : ImportOp) : Op Nat := do
  let w : Who := { core := hubCore, asid, root }
  let ps ← checkAccess w (importKind op) (BitVec.ofNat 64 addr) size
  Op.need (importOnHost op || !ps.any fun p => p.loc.nc) { cls := 6 }
  match op with
  | .read => readAll w .unc ps
  | .write v => do
    writeAll w .unc ps v
    pure 0
  | .fold .. => do
    let s ← Op.ask id
    if importMeetsBad s w ps then do
      Op.upd fun s => errorLog s (importDie ps) 1 peer 0 addr
      pure 0
    else rmw w ps (importNew op size)
  | _ => do
    needClean w ps
    rmw w ps (importNew op size)

/-- The reply of the exporter. -/
def importReply (s : State) (cls value : Nat) : State := { s with fab := { s.fab with reply := cls, replyValue := value } }

/-- An entry is bound to an incarnation of the peer that has failed: it is treated as invalid (R467). -/
def boundToDead (p : Peer) (e : Nat) : Bool :=
  let bound := BitVec.ofNat 16 (e / 2 ^ 192)
  (e / 2 ^ 184).testBit 4 && (p.dead.contains bound || (p.link == .failed && bound == p.incarnation))

/-- IMPORT_REQUEST: packets of another incarnation than the one held are discarded (R466); the first failing check decides
the reply (R459). -/
def execImportRequest (peer : BitVec 8) (inc : BitVec 16) (handle : Nat) (key : BitVec 32) (offset size : Nat)
    (op : ImportOp) (s : State) : Out :=
  match s.peer? peer.toNat with
  | none => .next s
  | some p =>
    if p.incarnation != inc then .next s
    else
      match importEntry s handle with
      | .error c => .next (importReply s c 0)
      | .ok e =>
        if boundToDead p e then .next (importReply s 5 0)
        else if !importerOk e peer.toNat inc key offset size (importKind op) then .next (importReply s 6 0)
        else
          let asid := e / 2 ^ 160 % 65536
          match rootOf s asid with
          | none => .next (importReply s 5 0)
          | some root =>
            match performImport peer.toNat asid root (e % 2 ^ 64 + offset) size op s with
            | .ok (v, s') => .next (importReply s' 0 v)
            | .error (.fault f) => .next (importReply s f.cls 0)
            | .error (.peer ..) => .next (importReply s 6 0)
            | .error _ => .next s

end Sys2Proof.Machine
end

