-- ==== Sys2Proof/Machine/Preemption.lean ====
section
/-! DEFINITION. Pre-emption and resumption of cores (R359, R360, R384 to R388), the watchdog (R389), debugger halts (R390),
translation flushes (R264, R382), region merging (R269) and uncorrectable words (R276). -/

namespace Sys2Proof.Machine

/-! ### Moving a core's state (R384, R386) -/

/-- The number of a thread set after its core has moved. -/
def moveTs (c d t : Nat) : Nat := if coreOf t = c then 4 * d + slotOf t else t

def moveLoc (c d : Nat) (l : Loc) : Loc := if l.space = .core c then { l with space := .core d } else l

def movePages (c d : Nat) (m : NMap Loc) : NMap Loc := m.map fun e => (e.1, moveLoc c d e.2)

def movePiece (c d : Nat) (p : Piece) : Piece := { p with loc := moveLoc c d p.loc }

def moveEv (c d : Nat) (e : Ev) : Ev := { e with piece := movePiece c d e.piece }

def moveElem (c d : Nat) (e : Elem) : Elem := { e with src := e.src.map (movePiece c d), dst := e.dst.map (movePiece c d) }

def movePart (c d : Nat) (p : Part) : Part := { p with todo := p.todo.map (moveEv c d) }

def moveWriteback (c d : Nat) (w : Writeback) : Writeback :=
  { w with ts := moveTs c d w.ts, snap := { w.snap with part := w.snap.part.map (movePart c d) } }

/-- The engine state of a core as another core holds it. -/
def moveCore (c d : Nat) (k : Core) : Core :=
  { k with
    mq := k.mq.map fun m => { m with ts := moveTs c d m.ts, pages := movePages c d m.pages }
    tq := k.tq.map fun m => { m with ts := moveTs c d m.ts, opened := m.opened.map fun es => es.map (moveElem c d) }
    folds := k.folds.map fun f => { f with ts := moveTs c d f.ts }
    slots := .ofFn fun i => { k.slots[i] with sidePages := movePages c d k.slots[i].sidePages } }

/-- The outstanding things of a core's thread sets follow it. -/
def moveRefs (c d : Nat) (s : State) : State :=
  let f := moveTs c d
  let run (r : Running) : Running := { r with ts := r.ts.map f }
  let launch (l : Launch) : Launch :=
    { l with placed := l.placed.map fun p => (p.1, f p.2), running := l.running.map run }
  let rec' (r : FaultRec) : FaultRec := { r with ts := f r.ts, late := r.late.map (moveWriteback c d) }
  let elem (e : Piece × Option Nat) : Piece × Option Nat := (movePiece c d e.1, e.2)
  let chunk (x : Chunk) : Chunk := { x with core := if x.core = c then d else x.core, elems := x.elems.map elem }
  { s with
    disp := { s.disp with
      launches := s.disp.launches.map launch
      spawns := s.disp.spawns.map fun x => { x with ts := f x.ts } }
    faults := { s.faults with
      recs := s.faults.recs.map rec'
      writebacks := s.faults.writebacks.map (moveWriteback c d) }
    fab := { s.fab with
      leases := s.fab.leases.map fun x => { x with ts := f x.ts }
      rels := s.fab.rels.map fun x => { x with ts := f x.ts }
      heldFolds := s.fab.heldFolds.map fun x => { x with ts := f x.ts } }
    coll := { s.coll with active := s.coll.active.map fun x => { x with ts := f x.ts } }
    msys := { s.msys with
      flight := s.msys.flight.map chunk
      posted := s.msys.posted.map fun x => { x with waits := x.waits.map f } } }

/-- The fault count of a hardware slot stays with it; a saved image uses that of the slot it was taken from (R371). -/
def moveSlot (c d : Nat) (s : State) (i : Nat) : State :=
  let x := s.ts (4 * c + i)
  let y := s.ts (4 * d + i)
  (s.setTs (4 * d + i) { x with faultSeq := y.faultSeq }).setTs (4 * c + i) { faultSeq := x.faultSeq }

/-- Moves everything of core c to number d, and leaves c empty. -/
def moveAll (s : State) (c d : Nat) : State :=
  let k := s.core c
  let s := s.setCore d { moveCore c d k with nextCmd := max k.nextCmd (s.core d).nextCmd }
  let s := s.setCore c { nextCmd := k.nextCmd }
  moveRefs c d ([0, 1, 2, 3].foldl (moveSlot c d) s)

/-! ### Pre-emption -/

/-- The head matrix command waits on a face of its thread set (R172, R385). -/
def waitsOnFace (s : State) (m : MCmd) : Bool :=
  let t := s.ts m.ts
  m.started && !m.orphan &&
    (if m.done then !m.out.isEmpty && 16 ≤ t.qr.length else m.rows.length + t.qa.length < qaNeed m.instr)

/-- The core's matrix engine is at rest: nothing accepted, or a command that waits on a face. -/
def matrixRests (s : State) (c : Nat) : Bool := match (s.core c).mq with | m :: _ => waitsOnFace s m | [] => true

/-- The tile engine is at a chunk boundary (R385). -/
def tileBoundary (s : State) (c : Nat) : Bool := (s.core c).tq.all fun m => m.opened.isNone

/-- Every thread set of the core is at an instruction boundary (R384). -/
def atBoundary (s : State) (c : Nat) : Bool := [0, 1, 2, 3].all fun i => (s.ts (4 * c + i)).part.isNone

/-- The core can be pre-empted once its folds are placed (R384, R385). -/
def coreRests (s : State) (c : Nat) : Bool := matrixRests s c && tileBoundary s c && atBoundary s c

/-! ### Core images (R386, R387) -/

/-- The thread sets of a core. -/
def tsetsOf (s : State) (c : Nat) : List ThreadSet := [0, 1, 2, 3].map fun i => s.ts (4 * c + i)

/-- The reference that a slot is saved as: it was loaded from local memory, no 256-byte line of its source has been written
since, and it is not poisoned (R387). -/
def slotRef (sl : Slot) : Option SlotRef :=
  match sl.origin with
  | some o => if sl.poisoned || sl.stale then none else some { first := o, bytes := 32832, desc := sl.desc }
  | none => none

/-- A slot as it is loaded again from the restored local memory (R387). -/
def reloadSlot (k : Core) (sl : Slot) : Slot :=
  match slotRef sl with
  | some r => { sl with data := putNum [] 0 (getNum k.mem (r.first + 64) 32768) 32768, scale0 := getNum k.mem r.first 4,
                        scale1 := getNum k.mem (r.first + 4) 4, desc := r.desc }
  | none => sl

/-- Every unit of a core image, in the order of R386. -/
def allUnits (k : Core) : List SaveUnit :=
  ([0, 1, 2, 3].flatMap fun i =>
    (List.range 32).map (.scalar i) ++ (List.range 32).map (.vector i) ++
      [.preds i, .masks i, .pc i, .fpc i, .fps i, .qa i, .qr i, .qn i, .pending i]) ++
  (List.range 2048).map .line ++ (List.range 8).map .half ++ (List.range 4).map .block ++
  ((List.finRange 8).filter fun n => k.slots[n].desc.isSome).map (fun n => .weights n.val (slotRef k.slots[n])) ++
  (k.mq.map fun m => .command m.id) ++ k.tq.map fun m => .command m.id

/-- The dirty bit of a unit is set (R386). -/
def unitDirty (k : Core) (ts : List ThreadSet) (u : SaveUnit) : Bool :=
  let d (i : Nat) : TsDirty := (ts.getD i {}).dirty
  match u with
  | .scalar i r => (d i).s.getLsbD r
  | .vector i r => (d i).v.getLsbD r
  | .preds i => (d i).p
  | .masks i => (d i).k
  | .pc i => (d i).pc
  | .fpc i => (d i).fpc
  | .fps i => (d i).fps
  | .qa i => (d i).qa
  | .qr i => (d i).qr
  | .qn i => (d i).qn
  | .pending i => (d i).pend
  | .line n => k.dirty.lines.getLsbD n
  | .half n => k.dirty.halves.getLsbD n
  | .block n => k.dirty.blocks.getLsbD n
  | .weights n _ => k.dirty.slots.getLsbD n
  | .command id => k.dirty.cmds.contains id

/-- The units that an image of the core writes: all, or, after an earlier image of the same core state, those whose dirty bit
is set. -/
def unitsToWrite (s : State) (c : Nat) (old : Option Image) : List SaveUnit :=
  let k := s.core c
  match old with
  | none => allUnits k
  | some _ => (allUnits k).filter (unitDirty k (tsetsOf s c))

/-- The writing of an image clears the dirty bits of what it saves. -/
def clearDirty (s : State) (c : Nat) : State :=
  let s := s.setCore c { s.core c with dirty := {} }
  [0, 1, 2, 3].foldl (fun s i => s.setTs (4 * c + i) { s.ts (4 * c + i) with dirty := {} }) s

/-- The save area of the image that a core was last restored from. -/
def savedImage (s : State) (c : Nat) : Option Image :=
  (s.disp.saved.get? c).bind fun n => s.disp.images.find? fun x => x.num == n

/-- A number for a new save area of a core. -/
def imageNumber (s : State) (c : Nat) : Nat :=
  let ks := (List.range (s.disp.images.length + 1)).filter fun k =>
    !s.disp.images.any fun x => x.num == 4096 * (k + 1) + c
  4096 * (ks.headD 0 + 1) + c

/-- Pre-empts a core that rests and whose folds are placed: dirty stash lines written back, record cache discarded, image
written (R384 to R387). -/
def preemptCore (s : State) (c : Nat) : State :=
  let s := cleanStash s c fun _ => true
  let k := s.core c
  let s := s.setCore c { k with recs := [], icache := [] }
  let old := savedImage s c
  let v := imageNumber s c
  let x : Image := { num := v, launch := (s.core c).launch.getD 0, written := unitsToWrite s c old }
  let same (y : Image) : Bool := old.map (·.num) == some y.num
  let s := moveAll (clearDirty s c) c v
  s.setDisp { s.disp with images := s.disp.images.filter (fun y => !same y) ++ [x], saved := s.disp.saved.del c }

/-- Cores that hold thread sets of a launch. -/
def coresOf (s : State) (n : Nat) : List Nat :=
  ((s.tsets.filter fun e => e.2.launch == n && e.2.status != .free && e.1 < 2048 * 4).map fun e => coreOf e.1).eraseDups

/-- Entries of a launch wait in a queue. -/
def entriesWait (s : State) (n : Nat) : Bool := s.disp.queues.any fun q => q.2.any fun e => e.launch == n

/-- Images of a launch wait to resume. -/
def imagesWait (s : State) (n : Nat) : Bool := s.disp.images.any fun x => x.launch == n && !x.kept

/-- A launch of higher priority, a lower number, needs resources (R359): it waits for placement, or entries or images of it
wait, even where free thread sets would do: DESIGN CHOICE, log entry 88. -/
def higherNeeds (s : State) (l : Launch) : Bool :=
  s.disp.launches.any fun x => x.priority < l.priority && (x.waiting || entriesWait s x.num || imagesWait s x.num)

/-- Pre-empts cores that rest: a release point of their thread sets, which is reached once every placement has been performed
(R302, R384). -/
def preemptCores (s : State) (cs : List Nat) : State :=
  if !cs.all (coreRests s) then s
  else
    let s := cs.foldl (fun s c => placeCore s c fun _ => true) s
    if cs.any fun c => [0, 1, 2, 3].any fun i => foldsHeld s (4 * c + i) then s else cs.foldl preemptCore s

/-- PREEMPT: the cores of a resident launch together, when one of higher priority needs them, or one core of an element
launch (R359, R360). -/
def execPreempt (c : Nat) (s : State) : Out :=
  if 2048 ≤ c then .fault .noSuchAgent
  else if coreIdle s c then .next s
  else
    match (s.core c).launch.bind s.launch? with
    | none => .next s
    | some l =>
      if l.element then .next (preemptCores s [c])
      else if entriesWait s l.num || !higherNeeds s l then .next s
      else .next (preemptCores s (coresOf s l.num))

/-- A blocked instruction that has taken no effect is executed again (R384). -/
def restartTs (s : State) (t : Nat) : State :=
  let x := s.ts t
  match x.status with
  | .waitQueue _ | .waitWake _ | .waitFence .. | .waitPeer .. => s.setTs t { x with status := .running }
  | _ => s

/-- Applies the replies that were held for a core, each to its fault as the ones before it have left it. -/
def applyHeld (s : State) (c : Nat) : State :=
  ((s.faults.recs.filter fun r => coreOf r.ts == c && r.held.isSome).map FaultRec.handle).foldl (fun s h =>
    match s.faults.recs.find? fun r => r.handle == h with
    | some r => (match r.held with | some (a, x, e) => applyReply s r a x e | none => s)
    | none => s) s

/-- Restores an image on a free core; the save area keeps what the core was restored from. -/
def resumeCore (s : State) (v c : Nat) : State :=
  let s := dropImages (dropStash s c fun _ => true) fun x => x.num != v && s.disp.saved.get? c == some x.num
  let s := moveAll s v c
  let k := s.core c
  let s := s.setCore c { k with slots := .ofFn fun i => reloadSlot k k.slots[i] }
  let s := { s with
    cores := s.cores.del v
    tsets := s.tsets.filter fun e => coreOf e.1 != v
    disp := { s.disp with
      images := s.disp.images.map fun x => if x.num = v then { x with kept := true } else x
      saved := s.disp.saved.set c v } }
  applyHeld ([0, 1, 2, 3].foldl (fun s i => restartTs s (4 * c + i)) s) c

/-- A core on which an image may resume. -/
def resumable (s : State) (c : Nat) : Bool := c < 2048 && coreIdle s c && (reservedFor s c).isNone

/-- The cores that an image may resume on: of an element launch, those of its die; of a resident launch, those of the dies
that its placement map prefers for the image's indices, and, when none is free there, any (R359, R388). -/
def resumeCores (s : State) (l : Launch) (v : Nat) : List Nat :=
  let free := (List.range 2048).filter (resumable s)
  if l.element then free.filter fun c => dieOfCore c == dieOfCore v
  else
    let pref := ((tsetsOf s v).filter fun t => t.status != .free).filterMap fun t =>
      let m := l.map.getD t.index 128
      if m.testBit 7 then none else some (m % 8)
    let near := free.filter fun c => pref.contains (dieOfCore c)
    if near.isEmpty then free else near

/-- Free cores for the other images of a resident launch; which is open. -/
def resumeRest (l : Launch) : List Nat → State → Option State
  | [], s => some s
  | v :: r, s =>
    let cand := resumeCores s l v
    if cand.isEmpty then none
    else
      let c := s.pick
      resumeRest l r (resumeCore c.2 v (cand.getD (c.1 % cand.length) 0))

/-- CORE_RESUME of the i-th save area, when its image waits: an element launch's on a core of its die, a resident launch's
with all its others (R388). -/
def execCoreResume (i c : Nat) (s : State) : Out :=
  match s.disp.images[i]? with
  | none => .next s
  | some x =>
    match x.kept, (s.core x.num).launch.bind s.launch? with
    | false, some l =>
      if !(resumeCores s l x.num).contains c then .next s
      else if l.element then .next (resumeCore s x.num c)
      else
        let rest := (s.disp.images.filter fun y => y.num != x.num && y.launch == l.num && !y.kept).map (·.num)
        .next ((resumeRest l rest (resumeCore s x.num c)).getD s)
    | _, _ => .next s

/-! ### The watchdog (R102, R389) -/

/-- Some thread set of the launch is on a core, and not every such one is halted. One that runs a task in another package counts,
as the home hub counts every task, but not while it waits in a task queue there, nor while the whole launch is halted. -/
def watchCounts (s : State) (n : Nat) : Bool :=
  (s.tsets.any fun e => e.2.launch == n && e.2.status != .free && e.1 < 4096 * 4 && !e.2.halted) ||
    match s.launch? n with
    | some l => !l.halted && l.running.any fun r => r.pkg.isSome && !r.queued
    | none => false

/-- WATCHDOG_EXPIRY: the count has passed the budget. -/
def execWatchdogExpiry (n : Nat) (s : State) : Out :=
  match s.launch? n with
  | none => .next s
  | some l => .next (if l.budget != 0 && l.budget * clkPerUs < l.used then killLaunch s n 3 else s)

/-! ### Debugger halts (R390) -/

/-- Thread sets that a target names. -/
def haltSet (s : State) : HaltTarget → List Nat
  | .launch n => (s.tsets.filter fun e => e.2.launch == n && e.2.status != .free).map Prod.fst
  | .tset t => if (s.ts t).status = .free then [] else [t]

def haltAll (s : State) (l : List Nat) (drain : Bool) : State :=
  l.foldl (fun s t => s.setTs t { s.ts t with halted := true, draining := drain }) s

/-- A halt or a resume of a whole launch covers the thread sets that it starts later. -/
def haltLaunch (s : State) (on : Bool) : HaltTarget → State
  | .launch n => s.updLaunch n fun l => { l with halted := on }
  | .tset _ => s

def execHaltNow (t : HaltTarget) (s : State) : Out := .next (haltLaunch (haltAll s (haltSet s t) false) true t)
def execHaltDrain (t : HaltTarget) (s : State) : Out := .next (haltLaunch (haltAll s (haltSet s t) true) true t)

/-- The core's matrix engine is held by a command that waits on a face of a halted thread set. -/
def heldOnFace (s : State) (c : Nat) : Bool :=
  match (s.core c).mq with | m :: _ => waitsOnFace s m && (s.ts m.ts).halted | [] => false

/-- The engine commands of a thread set have completed, or are held behind one that waits on a halted face. -/
def drained (s : State) (t : Nat) : Bool :=
  let k := s.core (coreOf t)
  !(k.tq.any fun m => m.ts == t) && !(s.coll.active.any fun m => m.ts == t) &&
    (heldOnFace s (coreOf t) || !k.mq.any fun m => m.ts == t)

/-- The halt report: the held commands of the halted thread sets. -/
def heldCommands (s : State) (l : List Nat) : List (Nat × Nat) :=
  (l.map coreOf).eraseDups.flatMap fun c =>
    if heldOnFace s c then ((s.core c).mq.filter fun m => l.contains m.ts).map fun m => (c, m.id) else []

/-- HALT_DRAIN_COMPLETE. -/
def execHaltDrainComplete (t : HaltTarget) (s : State) : Out :=
  let l := (haltSet s t).filter fun t => (s.ts t).draining
  if l.all (drained s) then
    let s := s.setDisp { s.disp with haltReport := heldCommands s l }
    .next (haltAll s l false)
  else .next s

/-- DEBUG_RESUME. -/
def execDebugResume (t : HaltTarget) (s : State) : Out :=
  let s := haltLaunch ((haltSet s t).foldl (fun s t => s.setTs t { s.ts t with halted := false, draining := false }) s) false t
  .next (reviewFences s)

/-! ### Translation flushes (R264, R382) -/

/-- The 64 KiB pages that a cached entry covers: first and count. -/
def entryPages (e : WalkEntry) : Nat × Nat :=
  if e.level < 4 then (e.va * 2 ^ (levelShift e.level - 16), 2 ^ (levelShift e.level - 16)) else (e.va, 1)

/-- A flush covers a part of an access. -/
def Flush.coversPiece (f : Flush) (asid : Nat) (p : Piece) : Bool := inGlobal p.va && f.covers asid (p.va / 65536) 1

/-- A flush covers the page through which a fold has been translated. -/
def Flush.coversFold (f : Flush) (s : State) (x : Fold) : Bool :=
  match s.launch? x.launch with | some l => f.covers l.asid (x.line / 65536) 1 | none => false

/-- Every slice drops a range of an address space, target-2 lines after their write-back, which a `fence.sys` of the thread set
that flushes waits for (R309), and the walkers its entries (R264); the folds of the range are placed, and later fetches find no
value of such a line that host memory held before. -/
def dropRange (s : State) (f : Flush) : State :=
  let hit (e : WalkEntry) : Bool := let p := entryPages e; f.covers e.asid p.1 p.2
  let s := s.cores.foldl (fun s e => placeCore s e.1 (f.coversFold s)) s
  let lines := s.msys.nc.filter fun x => x.tags.any fun t => f.coversLine t.1 t.2
  let s := lines.foldl (fun s x => ncDrop s x.die x.home f.ts.toList) s
  { s with msys := { s.msys with
    walk := s.msys.walk.filter fun e => !hit e
    early := s.msys.early.map fun x => { x with flushed := f :: x.flushed }
    copies := s.msys.copies.filter fun c => !f.coversLine c.asid c.va } }

/-- TRANSLATION_FLUSH of the i-th flush. -/
def execTranslationFlush (i : Nat) (s : State) : Out :=
  match s.msys.flushes[i]? with
  | none => .next s
  | some f =>
    if f.dropped then .next s
    else
      let s := dropRange s f
      .next { s with msys := { s.msys with flushes := s.msys.flushes.set i { f with dropped := true } } }

/-- The parts that the chunk of an engine command has translated and not all read and written. -/
def elemPieces (es : Option (List Elem)) : List Piece := (es.getD []).flatMap fun e => e.src ++ e.dst

/-- A flush covers a page that the accesses of a core have translated and may still use: of its matrix commands, of the chunk
that its tile engine runs, and of an access that a thread set is in the middle of. -/
def coreUses (s : State) (f : Flush) (c : Nat) (k : Core) : Bool :=
  (k.mq.any fun m =>
    match s.launchOf m.ts with
    | some l => (pagesHeld k m).any fun p => f.covers l.asid p.1 1
    | none => false) ||
  (k.tq.any fun m =>
    match s.launch? m.launch with
    | some l => (elemPieces m.opened).any (f.coversPiece l.asid)
    | none => false) ||
  [0, 1, 2, 3].any fun i =>
    match (s.ts (4 * c + i)).part with
    | some p => p.todo.any fun e => f.coversPiece (s.who (4 * c + i)).asid e.piece
    | none => false

/-- An access of a thread set waits in the router, in the middle of its events, at a part that a flush covers. -/
def parkedUses (f : Flush) (w : Writeback) : Bool :=
  w.peer.isSome && !w.placed && match w.snap.part with
    | some p => p.todo.any fun e => f.coversPiece w.asid e.piece
    | none => false

/-- An access goes on through a translation that the flush covers, or a fold waits with one (R264). -/
def flushHeld (s : State) (f : Flush) : Bool :=
  (s.cores.any fun e => coreUses s f e.1 e.2) ||
  s.fab.heldFolds.any (f.coversFold s) || s.faults.writebacks.any (parkedUses f) ||
  (s.msys.flight.any fun x => x.elems.any fun e => f.coversPiece x.asid e.1) ||
  (s.front.packets.any fun p => (elemPieces p.opened).any (f.coversPiece p.asid)) ||
  s.coll.active.any fun m =>
    match s.launch? m.launch, m.opened with
    | some l, some (_, r, w) => (r ++ w).any fun e => e.2.any (f.coversPiece l.asid)
    | _, _ => false

/-- TRANSLATION_FLUSH_COMPLETE: the thread set that wrote `xfln` goes on. -/
def execTranslationFlushComplete (i : Nat) (s : State) : Out :=
  match s.msys.flushes[i]? with
  | none => .next s
  | some f =>
    if !f.dropped || flushHeld s f then .next s
    else
      let s := { s with msys := { s.msys with flushes := s.msys.flushes.eraseIdx i } }
      match f.ts with
      | some t =>
        let x := s.ts t
        .next (if x.status = .waitFlush then s.setTs t { x with status := .running } else s)
      | none => .next s

/-! ### The homes -/

/-- Clk without a write before siblings merge (R269). -/
def mergeClk : Nat := 2 ^ 20

/-- REGION_MERGE of the region at a base with its sibling. -/
def execRegionMerge (base : Nat) (s : State) : Out :=
  match s.msys.regions.find? fun r => r.base == base with
  | none => .next s
  | some r =>
    match s.msys.regions.find? (siblings r) with
    | none => .next s
    | some q =>
      if s.clk < r.written + mergeClk || s.clk < q.written + mergeClk then .next s
      else .next (putRegion s (joinRegions r q))

/-- UNCORRECTABLE_ECC_ERROR: the word at an address of device memory, or of a core's local memory, becomes uncorrectable
(R205, R276). -/
def execUncorrectableEccError (word : EccWord) (s : State) : Out :=
  match word with
  | .window c addr => if addr < 0x80000 then .next (poisonRange s (.core c) (addr / 8 * 8) 8) else .next s
  | .device addr => if devOk addr then .next (poisonRange s .dev (addr / 8 * 8) 8) else .next s

end Sys2Proof.Machine
end

