-- ==== Sys2Proof/Machine/Management.lean ====
section
/-! DEFINITION. Bring-up and reset (R401, R402), the management registers (R398 to R400), key slots (R428), bias flips (R424),
ending launches from the host (R400), the power alarm (R429) and the capability list (R427). -/

namespace Sys2Proof.Machine

def State.setMgmt (s : State) (m : Mgmt) : State := { s with mgmt := m }

/-- An interrupt to the host (R421). -/
def interrupt (s : State) : State := s.setMgmt { s.mgmt with interrupts := s.mgmt.interrupts + 1 }

/-! ### Bring-up and reset -/

/-- What lies outside the package's state: the host, the fabric's extent, and the model's own schedule and free values. -/
def outside (s : State) : State :=
  { State.reset with
    turns := s.turns, picks := s.picks, free := s.free, msys := { State.reset.msys with host := s.msys.host },
    fab := { State.reset.fab with rows := s.fab.rows, cols := s.fab.cols },
    mgmt := { State.reset.mgmt with
      hostUp := s.mgmt.hostUp, cxl := s.mgmt.cxl, bringUps := s.mgmt.bringUps, interrupts := s.mgmt.interrupts,
      incarnation := s.mgmt.incarnation, hostRead := s.mgmt.hostRead } }

/-- A register write or a change of the alarm: without power, neither exists (R13, R429). -/
def whilePowered (s : State) (f : State → State) : State := if s.mgmt.powered then f s else s

/-- A reset request keeps `INCARN`, `PEERID` and `QTABLE` (R402). -/
def resetByRequest (s : State) : State :=
  let r := outside s
  r.setMgmt { r.mgmt with
    incarnReg := s.mgmt.incarnReg, incarnWritten := s.mgmt.incarnWritten, peerReg := s.mgmt.peerReg,
    qtable := s.mgmt.qtable }

def execResetRequest (s : State) : Out := .next (whilePowered s resetByRequest)

/-- POWER_LOSS: everything ends, and the package stays unpowered. -/
def execPowerLoss (s : State) : Out :=
  let r := outside s
  .next (r.setMgmt { r.mgmt with powered := false })

/-- POWER_GOOD: bring-up starts at the power stage. -/
def execPowerGood (s : State) : Out :=
  if s.mgmt.powered then .next s else .next (outside s)

/-- A failure that a stage can have, and whether it stops bring-up (R401). -/
def stageFailure (stage failure : Nat) : Bool :=
  match failure with
  | 0 => true
  | 1 => stage == 2 || stage == 3
  | 2 => stage == 2
  | 3 => stage == 4
  | 4 => stage == 2
  | _ => stage == 4

def fatal (failure : Nat) : Bool := 1 ≤ failure && failure ≤ 3

/-- The drawn incarnation: nonzero, and not the previous one (R402; log entry 12). -/
def drawIncarnation (n : Nat) (prev : BitVec 16) : BitVec 16 :=
  let ok (x : BitVec 16) : Bool := x != 0 && x != prev
  let x := Config.drawnIncarnation n
  if ok x then x else if ok (x + 1) then x + 1 else x + 2

/-- Every byte of every stack is zero and clean (R401). -/
def clearMemory (s : State) : State :=
  { s with msys := { s.msys with
    dev := [], alt := [], poison := [], altPoison := [], tags := [], altTags := [], flipped := [] } }

/-- The fabric's extent, as the package finds it at its first bring-up, or once its position has left the extent known: open,
and at least as large as its position needs (R436). -/
def findExtent (s : State) : State :=
  let row := s.mgmt.peerId.toNat / 16
  let col := s.mgmt.peerId.toNat % 16
  if 1 < s.mgmt.bringUps && row < s.fab.rows && col < s.fab.cols then s
  else
    let a := s.pick
    let b := a.2.pick
    { b.2 with fab := { b.2.fab with rows := row + 1 + a.1 % (16 - row), cols := col + 1 + b.1 % (16 - col) } }

/-- What the end of a stage does beside moving on. -/
def stageEnd (s : State) (stage failure : Nat) : State :=
  let m := s.mgmt
  if stage = 2 then
    if failure = 4 then { s.setMgmt { m with dark := true } with fab := { s.fab with peers := [] } } else s
  else if stage = 3 then
    -- slot 0 receives a key of the random source
    let s := clearMemory s
    { s with msys := { s.msys with keys := [(0, none)] } }
  else if stage = 4 then
    let inc := if m.incarnWritten then m.incarnReg else drawIncarnation m.bringUps m.incarnation
    -- whether a signed patch is there to run is open; a rejected one is discarded
    let c := s.pick
    let s := findExtent { (interrupt (c.2.setMgmt { m with
        incarnation := inc, incarnWritten := false, peerId := m.peerReg, bringUps := m.bringUps + 1,
        patch := failure != 5 && c.1 % 2 == 1, ready := true, lowSince := m.lowSince.map fun _ => 0 })) with clk := 0 }
    -- its peers are the packages of its own row and column (R436)
    { s with fab := { s.fab with peers := s.fab.peers.filter fun p =>
        p.id / 16 < s.fab.rows && p.id % 16 < s.fab.cols && (peerSlot s.self p.id).isSome } }
  else s

/-- BRING_UP_STAGE_DONE of the current stage, with its failure code; of two that are not fatal the later one is shown: DESIGN
CHOICE, log entry 90. -/
def execBringUpStageDone (failure : Fin 6) (s : State) : Out :=
  let m := s.mgmt
  let f := failure.val
  let stage := m.stage.toNat
  if !m.powered || m.ready || fatal m.failure.toNat || !stageFailure stage f then .next s
  else
    let s := if f = 0 then s else s.setMgmt { m with failure := BitVec.ofNat 8 f }
    if fatal f then .next s
    else
      let s := stageEnd s stage f
      .next (s.setMgmt { s.mgmt with stage := BitVec.ofNat 3 (stage + 1) })

/-! ### The power alarm (R429) -/

/-- 10 ms of power below 95% of the limit (R429). -/
def alarmClk : Nat := 17000000

def setAlarm (s : State) (on : Bool) : State :=
  if s.mgmt.alarm = on then s else interrupt (s.setMgmt { s.mgmt with alarm := on })

/-- The hub looks at the power, the limit and `CONTROL` bit [1] again: the alarm is raised above the limit or while the bit is 1;
the time below 95% of the limit starts again when either ends it. -/
def reviewPower (s : State) : State :=
  let m := s.mgmt
  let low := m.pwrnow * 100 < 95 * m.pwrlim && !m.force
  let s := s.setMgmt { m with lowSince := if low then some (m.lowSince.getD s.clk) else none }
  if m.force || m.pwrlim < m.pwrnow then setAlarm s true else s

/-- A reading of the power. -/
def readPower (s : State) (watts : Nat) : State := reviewPower (s.setMgmt { s.mgmt with pwrnow := watts })

/-- POWER_ALARM_RAISE at a reading above the limit. -/
def execPowerAlarmRaise (watts : Nat) (s : State) : Out := .next (whilePowered s fun s => readPower s watts)

/-- POWER_ALARM_LOWER at a reading, once 10 ms have passed below 95% with the force bit clear. -/
def execPowerAlarmLower (watts : Nat) (s : State) : Out :=
  .next (whilePowered s fun s =>
    let s := readPower s watts
    match s.mgmt.lowSince with
    | some t => if t + alarmClk ≤ s.clk then setAlarm s false else s
    | none => s)

/-- FORCE_POWER_ALARM: `CONTROL` bit [1]. -/
def execForcePowerAlarm (on : Bool) (s : State) : Out :=
  .next (whilePowered s fun s => reviewPower (s.setMgmt { s.mgmt with force := on }))

/-! ### Registers (R398, R399) -/

/-- PWRLIM, clamped. -/
def execPwrlim (v : Word) (s : State) : Out :=
  .next (whilePowered s fun s => reviewPower (s.setMgmt { s.mgmt with pwrlim := max 1000 (min 4200 v.toNat) }))

/-- A lease length of 0 is ignored. -/
def orKeep (new old : BitVec 20) : BitVec 20 := if new = 0 then old else new

/-- MGMT_REGISTER_WRITE to a register without behaviour of its own; other offsets ignore it. -/
def writeMgmt (m : Mgmt) (offset : Nat) (v : Word) : Mgmt :=
  if offset = 0x10 then { m with qtable := v &&& ~~~0x3FFFFF#64 }
  else if offset = 0x18 then
    { m with
      leaseDie := orKeep (v.extractLsb' 0 20) m.leaseDie
      leasePkg := orKeep (v.extractLsb' 20 20) m.leasePkg
      leaseFab := orKeep (v.extractLsb' 40 20) m.leaseFab }
  else if offset = 0x20 then { m with incarnReg := v.setWidth 16, incarnWritten := true }
  else if offset = 0x28 then { m with peerReg := v.setWidth 8 }
  else if 0x40 ≤ offset && offset < 0x80 && offset % 8 == 0 then
    let i := (offset - 0x40) / 8
    let mask : BitVec 512 := (0xFFFFFFFFFFFFFFFF#512) <<< (64 * i)
    { m with keydata := (m.keydata &&& ~~~mask) ||| (v.setWidth 512 <<< (64 * i)) }
  else if offset = 0x90 then { m with biasrng := v }
  else m

def execMgmtRegisterWrite (offset : Nat) (v : Word) (s : State) : Out :=
  .next (whilePowered s fun s => s.setMgmt (writeMgmt s.mgmt offset v))

/-- `STATUS` (R399). -/
def statusWord (s : State) : Word :=
  let m := s.mgmt
  BitVec.ofNat 64 (bit01 m.ready + 2 * m.stage.toNat + 2 ^ 8 * m.failure.toNat + 2 ^ 16 * bit01 m.alarm +
    2 ^ 17 * bit01 m.patch + 2 ^ 18 * bit01 m.svcHalt + 2 ^ 28 * s.front.inService.toNat)

/-- Peers that can be reached now (R427). -/
def peersUp (s : State) : Nat := (s.fab.peers.filter fun p => p.link == .up).length

/-- A record of the capability list (R427): identifier, version 1, payload words, offset of the next. -/
def capRecord (id : Nat) (payload : List Nat) (next : Nat) : List Nat :=
  [id + 2 ^ 16 + 2 ^ 24 * (if id = 5 then 255 else payload.length), next] ++ payload

/-- BAR0 offset of the list: the place is the model's choice (log entry 42). -/
def capBase : Nat := 0x1000

/-- The list as 4-byte words: fabric, CXL mode, FP64 rate, largest cloak region, identity key. -/
def capWords (s : State) : List Nat :=
  let fabric := peersUp s + 2 ^ 8 * s.fab.rows + 2 ^ 16 * s.fab.cols + 2 ^ 24 * bit01 (!s.mgmt.dark)
  let c := bit01 s.mgmt.cxl
  let key := (List.range 488).map fun i =>
    (List.range 4).foldr (fun j n => (Config.identityKeyByte (4 * i + j)).toNat + 256 * n) 0
  capRecord 1 [fabric] (capBase + 12) ++ capRecord 2 [7 * c + 8 * (1 - c)] (capBase + 24) ++
    capRecord 3 [32] (capBase + 36) ++ capRecord 4 [30] (capBase + 48) ++ capRecord 5 (1952 :: key) 0

/-- The value of a management register that exists (R398). -/
def mgmtWord (s : State) (offset : Nat) : Word :=
  let m := s.mgmt
  match offset with
  | 0x00 => statusWord s
  | 0x08 => BitVec.ofNat 64 (2 * bit01 m.force)
  | 0x10 => m.qtable
  | 0x18 => leaseWord m
  | 0x20 => m.incarnReg.setWidth 64
  | 0x28 => m.peerReg.setWidth 64
  | 0x30 => BitVec.ofNat 64 m.pwrlim
  | 0x38 => BitVec.ofNat 64 m.pwrnow
  | 0x80 => (match m.keycmd with
    | some k => BitVec.ofNat 64 (k.slot + 2 ^ 16 * (if k.clear then 2 else 1) + 2 ^ 31)
    | none => 0)
  | 0x88 => BitVec.ofNat 64 (m.biasCount.toNat + 2 ^ 31 * bit01 m.biasBusy)
  | 0x90 => m.biasrng
  | 0x98 => BitVec.ofNat 64 capBase
  | 0xA0 => BitVec.ofNat 64 (2 ^ 63 * bit01 m.endGo + 2 ^ 62 * bit01 m.endNotFound + 2 ^ 61 * bit01 m.endAll +
      2 ^ 32 * m.endQueue.toNat + m.endLaunch.toNat)
  | o =>
    if capBase ≤ o then
      let i := (o - capBase) / 4
      BitVec.ofNat 64 ((capWords s).getD i 0 + 2 ^ 32 * (capWords s).getD (i + 1) 0)
    else 0

/-- A read of a management register by the host; none without power (R13, R398, R429). -/
def readMgmt (s : State) (offset : Nat) : Option Word := if s.mgmt.powered then some (mgmtWord s offset) else none

/-! ### Key slots (R428) -/

/-- A key command starts, when none is in progress. -/
def startKey (s : State) (slot : Nat) (clear : Bool) : State :=
  if s.mgmt.keycmd.isSome then s else s.setMgmt { s.mgmt with keycmd := some { slot, clear } }

def execKeyLoad (slot : Fin 1024) (s : State) : Out := .next (whilePowered s fun s => startKey s slot.val false)
def execKeyClear (slot : Fin 1024) (s : State) : Out := .next (whilePowered s fun s => startKey s slot.val true)

/-- KEY_COMMAND_DONE: the command takes effect, and `KEYDATA` is zeroed. What it loads is what `KEYDATA` holds now, also where that was
written after the command, and `KEYCMD` reads 0 afterwards: DESIGN CHOICE, log entry 103. -/
def execKeyCommandDone (s : State) : Out :=
  match s.mgmt.keycmd with
  | none => .next s
  | some k =>
    let keys := if k.clear then s.msys.keys.del k.slot else s.msys.keys.set k.slot (some s.mgmt.keydata)
    .next { s with
      msys := { s.msys with keys }
      mgmt := { s.mgmt with keycmd := none, keydata := 0 } }

/-! ### Bias flips (R424) -/

/-- BIASCMD with bit [31] set, unless a flip is in progress. A write without the bit is ignored: DESIGN CHOICE, log entry 104. -/
def execBiascmd (v : Word) (s : State) : Out :=
  .next (whilePowered s fun s =>
    if s.mgmt.biasBusy || !v.getLsbD 31 then s
    else s.setMgmt { s.mgmt with biasBusy := true, biasCount := v.setWidth 16 })

/-- The range of `BIASRNG` and `BIASCMD`. A flip takes `BIASRNG` as it is when it completes: DESIGN CHOICE, log entry 104. -/
def biasRange (m : Mgmt) : Flush :=
  { asid := bitsOf m.biasrng 0 16, start := bitsOf m.biasrng 16 48,
    pages := if m.biasCount = 0 then 1 else m.biasCount.toNat, ts := none, dropped := false }

/-- Stash lines of a range of an address space are written back and dropped (R424). -/
def dropStashes (s : State) (f : Flush) : State :=
  s.cores.foldl (fun s e =>
    match e.2.launch.bind s.launch? with
    | some l => dropStash s e.1 fun x => f.covers l.asid (x.line / 65536) 1
    | none => s) s

/-- BIAS_FLIP_COMPLETE: commands that use the range have reached a chunk boundary; the range is written back and dropped, and the new
entries take effect. -/
def execBiasFlipComplete (s : State) : Out :=
  if !s.mgmt.biasBusy then .next s
  else
    let f := biasRange s.mgmt
    if flushHeld s f then .next s
    else
    let s := dropRange (dropStashes s f) f
    .next (s.setMgmt { s.mgmt with biasBusy := false })

/-! ### Ending launches (R400) -/

/-- The launches that a command names. -/
def endNames (s : State) (v : Word) : List Nat :=
  (s.disp.launches.filter fun l => l.queue == bitsOf v 32 16 && (v.getLsbD 61 || l.num % 2 ^ 32 == bitsOf v 0 32)).map (·.num)

/-- ENDCMD. -/
def execEndcmd (v : Word) (s : State) : Out :=
  if s.mgmt.endGo || !s.mgmt.powered then .next s
  else
    let m := { s.mgmt with
      endAll := v.getLsbD 61, endQueue := v.extractLsb' 32 16, endLaunch := v.setWidth 32 }
    if !v.getLsbD 63 then .next (s.setMgmt m)
    else
      let ns := endNames s v
      if ns.isEmpty then .next (s.setMgmt { m with endGo := false, endNotFound := true, ending := [] })
      else
        let s := s.setMgmt { m with endGo := true, endNotFound := false, ending := ns }
        .next (ns.foldl (fun s n => killLaunch s n 6) s)

/-- END_COMMAND_COMPLETE: the launches have ended, and their counters are written. -/
def execEndCommandComplete (s : State) : Out :=
  let m := s.mgmt
  let left := m.ending.any fun n => (s.launch? n).isSome || s.front.packets.any fun p => p.launch == some n
  if m.endGo && !left then .next (s.setMgmt { m with endGo := false, ending := [] }) else .next s

end Sys2Proof.Machine
end

