-- ==== Sys2Proof/Machine/FrontEnd.lean ====
section
/-! DEFINITION. The front end: queue records and their mapping (R403, R415), packets and their common checks (R405 to R409,
R412, R418, R486), completion counters (R414), the simple packet kinds (R413, R426), and the errors of R419 and R420. -/

namespace Sys2Proof.Machine

/-! ### Queue records (R403) -/

def queueOf (s : State) (q : Nat) : Queue := (s.front.queues.get? q).getD {}

def setQueue (s : State) (q : Nat) (x : Queue) : State :=
  { s with front := { s.front with queues := s.front.queues.set q x } }

/-- Physical address of a record. -/
def recordAddr (s : State) (q : Nat) : Nat := s.mgmt.qtable.toNat + 64 * q

/-- The hub's key for its own structures in device memory: slot 0 (log entry 9). -/
def hubKey (s : State) : KeyMat := (keyOf s 0).getD none

/-- Puts a queue into state 2: the state byte in memory, then the interrupt. -/
def queueToError (s : State) (q : Nat) : State :=
  let s := hubWrite s (recordAddr s q + 9) 2 1
  let s := setQueue s q { queueOf s q with state := 2, slot := none, since := none }
  interrupt { s with front := { s.front with mapped := s.front.mapped.filter (· != q) } }

/-- The address range [a, a + n) lies within a queue's bounds (R418). -/
def inBounds (x : Queue) (a n : Nat) : Bool := x.lower ≤ a && a + n ≤ x.upper

/-- The record's 64 bytes as the front end copies them; none when it breaks R403. -/
def parseQueue (r : Nat) : Option Queue :=
  let f (o n : Nat) : Nat := r / 2 ^ (8 * o) % 2 ^ (8 * n)
  let x : Queue := { ring := f 0 8, slots := 2 ^ f 8 1, state := f 9 1, floor := f 10 1, wr := f 16 8, rd := f 24 8,
                     root := f 32 8, asid := f 40 2, lower := f 48 8, upper := f 56 8 }
  let ok := x.ring % 64 == 0 && 2 ≤ f 8 1 && f 8 1 ≤ 16 && x.state == 1 && x.floor ≤ 3 && f 11 5 == 0 && x.wr % 64 == 0 &&
    x.rd % 64 == 0 && x.wr != x.rd && x.root % 2 ^ 20 == 0 && devOk x.root && f 42 6 == 0 &&
    inBounds x x.ring (64 * x.slots) && inBounds x x.wr 8 && inBounds x x.rd 8
  if ok then some x else none

/-- The record of a queue in memory holds an uncorrectable word. -/
def recordBad (s : State) (q : Nat) : Bool := poisoned s .dev (recordAddr s q) 64

/-- Reads and checks the record of a queue whose state byte is 1. -/
def loadQueue (s : State) (q : Nat) : Option Queue := parseQueue (readNum s .dev (hubKey s) (recordAddr s q) 64)

/-- The state byte of a record in memory. -/
def stateByte (s : State) (q : Nat) : Nat := readNum s .dev (hubKey s) (recordAddr s q + 9) 1

/-- Hardware slots: 32 of each of the four processors; the others serve those of one that has left service (R415, R419). -/
def slotCount : Nat := 128

/-! ### Packets (R405, R408, R409) -/

/-- Why a packet does not start now: it waits, its queue fails, or it completes with a status and a code. -/
inductive Refuse where
  | hold
  | queue
  | done (status code : Nat)
  deriving DecidableEq, Repr

/-- A step of the front end on one packet. -/
abbrev Pk := StateT State (Except Refuse)

def Pk.no {α : Type} (r : Refuse) : Pk α := fun _ => .error r
def Pk.need (c : Bool) (r : Refuse) : Pk Unit := if c then pure () else Pk.no r
def Pk.ask {α : Type} (f : State → α) : Pk α := fun s => .ok (f s, s)
def Pk.upd (f : State → State) : Pk Unit := fun s => .ok ((), f s)

/-- Runs an operation on memory; a failure refuses the packet, and a wait for a peer holds it. -/
def Pk.lift {α : Type} (op : Op α) (r : FaultInfo → Refuse) : Pk α := fun s =>
  match op s with
  | .ok x => .ok x
  | .error (.fault f) => .error (r f)
  | .error _ => .error .hold

/-- Who accesses for a queue. -/
def queueWho (x : Queue) : Who := { core := hubCore, asid := x.asid, root := x.root }

/-- Field bits of a word. -/
def fieldOf (w lo n : Nat) : Nat := w / 2 ^ lo % 2 ^ n

/-- The packet at a queue's read index: the queue, the index, its slot's address, and its eight words. -/
structure Head where
  q : Nat
  queue : Queue
  index : Nat
  slot : Nat
  words : List Nat
  deriving DecidableEq, Repr

def Head.word (h : Head) (i : Nat) : Nat := h.words.getD i 0
def Head.kind (h : Head) : Nat := h.word 0 % 256

/-- An 8-byte read of the front end's own; a failure puts the queue into state 2 (R403). -/
def readOwn8 (x : Queue) (a : Nat) : Pk Nat :=
  Pk.lift (do
    let ps ← checkAccess (queueWho x) .rmw (BitVec.ofNat 64 a) 8
    readAll (queueWho x) .norm ps) fun _ => .queue

/-- The eight words of a packet. -/
def packetWords (p : BitVec 512) : List Nat := (List.range 8).map fun i => fieldOf p.toNat (64 * i) 64

/-- The record of a packet of a queue. -/
def packetOf (h : Head) : Packet :=
  { queue := h.q, kind := h.kind, completion := h.word 3, increment := fieldOf (h.word 0) 32 32, asid := h.queue.asid,
    root := h.queue.root, lower := h.queue.lower, upper := h.queue.upper }

/-- A packet starts: its events follow those that the front end has made. -/
def addPacket (p : Packet) (s : State) : State :=
  { s with front := { s.front with packets := s.front.packets ++ [{ p with pts := max p.pts s.msys.agent }] } }

/-- Consecutive valid packets from an index on, at most n: those that may have been read and not started; the first as the
front end has kept it, if it has. -/
def validFrom (x : Queue) (q : Nat) : (kept : Option (BitVec 512)) → (n i : Nat) → Pk (List Head)
  | _, 0, _ => pure []
  | kept, n + 1, i => do
    let slot := x.ring + 64 * (i % x.slots)
    let ws ← match kept with
      | some p => pure (packetWords p)
      | none => [0, 1, 2, 3, 4, 5, 6, 7].mapM fun k => readOwn8 x (slot + 8 * k)
    if ws.headD 0 % 256 = 0 then pure []
    else do
      let r ← validFrom x q none n (i + 1)
      pure ({ q, queue := x, index := i, slot, words := ws } :: r)

/-- The packets of a queue that the front end has read and not started: the one that it keeps, and, of a mapped queue, how many more
of the first nine is open (R416). -/
def readAhead (s : State) (q : Nat) : List Head × State :=
  let x := queueOf s q
  let c := s.pick
  let n := if !s.front.mapped.contains q then bit01 x.slot.isSome else if x.slot.isSome then 1 + c.1 % 9 else c.1 % 10
  match (do let i ← readOwn8 x x.rd; validFrom x q x.slot n i : Pk (List Head)) c.2 with
  | .ok r => r
  | .error _ => ([], c.2)

/-- An uncorrectable error in a queue's record or in the front end's copy (R420): the packets read and not started complete with
status 9, and the queue enters state 2. They stay in their slots, and the read index is unchanged, as with a packet that puts its
queue into state 2 (R405): DESIGN CHOICE, log entry 102. -/
def queueError (s : State) (q : Nat) : State :=
  let r := readAhead s q
  queueToError (r.1.foldl (fun s h => addPacket { packetOf h with status := 9, ready := true } s) r.2) q

/-! ### Queues as the front end maps them (R403, R405, R415) -/

/-- The record's fields, as a copy was read, without what the front end adds. -/
def Queue.record (x : Queue) : Queue := { x with mapped := false, slot := none, since := none }

/-- The host has written the record since the front end's copy was read: it then passed through state 0 or 2, so the front end
reads it again (R403). -/
def recordChanged (s : State) (q : Nat) : Bool :=
  parseQueue (readNum s .dev (hubKey s) (recordAddr s q) 64) != some (queueOf s q).record

/-- A queue is no longer mapped. -/
def unmap (s : State) (q : Nat) : State := { s with front := { s.front with mapped := s.front.mapped.filter (· != q) } }

/-- The front end's copy of a record follows what it now finds there: a record whose state is no longer 1 is disabled, one that
has been rewritten is read again, and a broken one puts the queue into state 2 (R403). -/
def syncQueue (s : State) (q : Nat) : State :=
  if stateByte s q != 1 then
    if (queueOf s q).state = 1 then unmap (setQueue s q { state := stateByte s q }) q else s
  else if (queueOf s q).state == 1 && !recordChanged s q then s
  else if recordBad s q then queueError s q
  else
    match loadQueue s q with
    | none => queueToError s q
    | some x => setQueue s q x

/-- Maps a queue to a hardware slot, after its record has been read again; a packet that the front end has read stays read while
the record is the same (R405). -/
def mapQueue (s : State) (q : Nat) : State :=
  if s.front.mapped.contains q || stateByte s q != 1 then s
  else if recordBad s q then queueError s q
  else
    match loadQueue s q with
    | none => queueToError s q
    | some x =>
      let old := queueOf s q
      let s := setQueue s q (if old.record == x.record then { x with slot := old.slot, since := old.since } else x)
      { s with front := { s.front with mapped := s.front.mapped ++ [q] } }

/-- QUEUE_ACTIVATION: the front end meets a record whose state byte has changed, and maps an active queue while a slot is
free. -/
def execQueueActivation (q : Nat) (s : State) : Out :=
  if !s.mgmt.ready then .next s
  else
    let s := syncQueue s q
    .next (if (queueOf s q).state = 1 && s.front.mapped.length < slotCount then mapQueue s q else s)

/-- The packet at the read index of a mapped queue (R405): the header, then the body, once; the front end keeps it until the
packet is consumed. -/
def readHead (q : Nat) : Pk Head := do
  Pk.upd fun s => syncQueue s q
  let s ← Pk.ask id
  let x := queueOf s q
  Pk.need (s.mgmt.ready && x.state == 1 && s.front.mapped.contains q) .hold
  let i ← readOwn8 x x.rd
  let slot := x.ring + 64 * (i % x.slots)
  match x.slot with
  | some p => pure { q, queue := x, index := i, slot, words := packetWords p }
  | none => do
    let _ ← readOwn8 x x.wr
    let h ← readOwn8 x slot
    Pk.need (h % 256 != 0) .hold
    let b ← [1, 2, 3, 4, 5, 6, 7].mapM fun k => readOwn8 x (slot + 8 * k)
    let p := BitVec.ofNat 512 (joinFields ((h :: b).map fun w => (8, w)))
    Pk.upd fun s => setQueue s q { queueOf s q with slot := some p }
    pure { q, queue := x, index := i, slot, words := h :: b }

/-- The head packet with a kind that a test names, or nothing happens. -/
def headOf (q : Nat) (kind : Nat → Bool) : Pk Head := do
  let h ← readHead q
  Pk.need (kind h.kind) .hold
  pure h

/-- The zero fields of the header (R409). -/
def headerZeros (h : Nat) : Bool := fieldOf h 18 14 == 0 && fieldOf h 16 1 == 0 && fieldOf h 10 6 == 0

/-- A field within the bounds, or a capability fault at its offset (R418). -/
def needBounds (h : Head) (a n code : Nat) : Pk Unit := Pk.need (inBounds h.queue a n) (.done 8 code)

/-- A field that the front end reads (R486). -/
def readField (h : Head) (a n code : Nat) : Pk Nat :=
  Pk.lift (memRead (queueWho h.queue) .norm (BitVec.ofNat 64 a) n) fun _ => .done 12 code

/-- The completion counter lies within the bounds, or there is none (R418). -/
def counterInside (h : Head) : Bool := h.word 3 == 0 || inBounds h.queue (h.word 3) 16

/-- The wait of a packet, and its cancellation (R409, R414). A wait counter that is misaligned or outside the bounds is not
read. -/
def waitPart (h : Head) : Pk Unit := do
  let wait := h.word 1
  if wait != 0 && wait % 8 == 0 && inBounds h.queue wait 8 then do
    let v ← readField h wait 8 8
    Pk.need (h.word 2 ≤ v) .hold
    Pk.need (!(fieldOf (h.word 0) 17 1 == 1 && v.testBit 63)) (.done 10 0)
  else pure ()

/-- The checks that every packet meets at its start: the wait and cancellation, and then, once the packet would start (R412),
in the order of log entry 43, zero fields, the alignment of the common words, and bounds. -/
def common (h : Head) (zeros : Bool) : Pk Unit := do
  let hd := h.word 0
  let wait := h.word 1
  waitPart h
  Pk.need (headerZeros hd && zeros) (.done 7 1)
  Pk.need (wait % 8 = 0 && h.word 3 % 16 = 0) (.done 7 2)
  if wait = 0 then pure () else needBounds h wait 8 8
  -- a completion counter outside the bounds leaves the packet in its slot
  Pk.need (counterInside h) .queue

/-- The front end's own write of 8 bytes to a ring slot or index; a translation that fails, or an uncorrectable word in the n
bytes from there, puts the queue into state 2 (R403). -/
def writeOwn (x : Queue) (a n v : Nat) : Pk Unit :=
  let w := queueWho x
  Pk.lift (do
    let ps ← checkAccess w .rmw (BitVec.ofNat 64 a) n
    needClean w ps
    let ps ← checkAccess w .store (BitVec.ofNat 64 a) 8
    writeAll w .norm ps v) fun _ => .queue

/-- The packet is consumed: header 0, then the read index (R405). -/
def consume (h : Head) : Pk Unit := do
  writeOwn h.queue h.slot 64 0
  writeOwn h.queue h.queue.rd 8 (h.index + 1)
  Pk.upd fun s => setQueue s h.q { queueOf s h.q with slot := none, since := none }

/-! ### Completion counters (R414) -/

/-- The error word: the higher status stays, and among equal ones the first. -/
def errorWord (old status code : Nat) : Nat := if status ≤ old % 256 then old else code % 65536 * 2 ^ 48 + status

/-- The counter after a completion. -/
def counterWord (old increment status : Nat) : Nat :=
  let x := (old + increment) % 2 ^ 64
  if status = 0 ∨ x.testBit 63 then x else x + 2 ^ 63

/-- The two steps of a completion, once both words can be written: the error word, then one read-modify-write of the counter,
at its home or, on a non-coherent host page, at the host (R283). -/
def writeCounter (p : Packet) : Op Unit := do
  let w : Who := packetWho p
  let c ← checkAccess w .rmw (BitVec.ofNat 64 p.completion) 8
  let e ← checkAccess w .rmw (BitVec.ofNat 64 (p.completion + 8)) 8
  needClean w c
  Op.upd fun s => { s with msys := { s.msys with agent := max s.msys.agent p.pts } }
  if p.status = 0 then pure ()
  else do
    let old ← readAll w .norm e
    writeAll w .norm e (errorWord old p.status p.code)
  let _ ← rmw w c fun old => some (counterWord old p.increment p.status)
  pure ()

/-- The packet's completion can be written, as far as can be seen now. -/
def counterOk (p : Packet) (s : State) : Bool :=
  p.completion == 0 || (p.lower ≤ p.completion && p.completion + 16 ≤ p.upper &&
    match writeCounter p s with | .error (.fault _) => false | _ => true)

/-- A packet completes as it starts, or without starting: when its counter cannot be written, it stays in its slot (R405,
R418). -/
def complete (h : Head) (status code : Nat) : Pk Unit := do
  let p : Packet := { packetOf h with status, code, ready := true }
  let s ← Pk.ask id
  Pk.need (counterOk p s) .queue
  Pk.upd (addPacket p)

/-! ### The start of a packet (R405, R406, R412) -/

/-- The launch's or packet's priority: the packet's, raised to the queue's floor (R403, R409). -/
def Head.priority (h : Head) : Nat := max (fieldOf (h.word 0) 8 2) h.queue.floor

/-- A packet of the queue has started and not completed. -/
def queueBusy (s : State) (q : Nat) : Bool :=
  (s.front.packets.any fun p => p.queue == q) || s.disp.launches.any fun l => l.queue == q

/-- The packet at a read index is ready: its wait holds, or is over otherwise, and, of a wait packet, its queue's earlier packets
have completed (R412, R413). -/
def headReady (h : Head) (s : State) : Bool :=
  !(h.kind == 6 && queueBusy s h.q) && match waitPart h s with | .error .hold => false | _ => true

/-- The packet at another queue's read index goes first: it is ready, and has a higher priority, or the same and was ready
earlier (R406). -/
def goesFirst (s : State) (prio since q : Nat) : Bool :=
  s.front.mapped.contains q && stateByte s q == 1 &&
    match readHead q s with
    | .ok (h, s) => headReady h s && (h.priority < prio || (h.priority == prio && (queueOf s q).since.getD s.clk < since))
    | .error _ => false

/-- What the start of a packet does to its queue: it starts, or completes without starting, and is consumed. -/
def startPacket (h : Head) (start : Head → Pk Unit) (s : State) : Except Refuse (Unit × State) :=
  match (do start h; consume h : Pk Unit) s with
  | .error (.done st c) => (do complete h st c; consume h : Pk Unit) s
  | r => r

/-- Runs the start of the packet at a queue's read index, when its kind is the one given: while it waits nothing happens but
that it has been read; ready, it goes after the packets of other queues that R406 puts before it, of which the front end may
not have noticed one that it has not read. -/
def runKind (q : Nat) (kind : Nat → Bool) (start : Head → Pk Unit) (s : State) : State :=
  match headOf q kind s with
  | .error .queue => queueToError s q
  | .error _ => s
  | .ok (h, s) =>
    let since (t : Option Nat) (s : State) : State := setQueue s q { queueOf s q with since := t }
    let t := (queueOf s q).since.getD s.clk
    let first := s.front.mapped.filter fun p => p != q && goesFirst s h.priority t p
    let read := first.any fun p => (queueOf s p).slot.isSome
    let c : Nat × State := if first.isEmpty || read then (1, s) else s.pick
    match startPacket h start c.2 with
    | .error .queue => queueToError c.2 q
    | .error _ => since none c.2
    | .ok (_, s') => if !first.isEmpty && c.1 % 2 = 1 then since (some t) c.2 else s'

def runPacket (q k : Nat) (start : Head → Pk Unit) (s : State) : State := runKind q (· == k) start s

/-! ### The simple kinds (R413) -/

/-- Words 32 to 56 of a nop or wait packet are 0. -/
def bodyZero (h : Head) : Bool := h.word 4 == 0 && h.word 5 == 0 && h.word 6 == 0 && h.word 7 == 0

/-- NOP_PACKET completes when its wait holds. -/
def execNopPacket (q : Nat) (s : State) : Out :=
  .next (runPacket q 8 (fun h => do
    common h (bodyZero h)
    complete h 0 0) s)

/-- WAIT starts when its wait holds and every earlier packet of its queue has completed, and completes as it starts. -/
def execWait (q : Nat) (s : State) : Out :=
  .next (runPacket q 6 (fun h => do
    let s ← Pk.ask id
    Pk.need (!queueBusy s q) .hold
    common h (bodyZero h)
    complete h 0 0) s)

/-- COUNTER_ADD: one read-modify-write with release (R413). -/
def execCounterAdd (q : Nat) (s : State) : Out :=
  .next (runPacket q 5 (fun h => do
    common h (h.word 6 == 0 && h.word 7 == 0)
    Pk.need (h.word 4 % 8 = 0) (.done 7 2)
    needBounds h (h.word 4) 8 32
    let w := queueWho h.queue
    Pk.lift (do
      let ps ← checkAccess w .rmw (BitVec.ofNat 64 (h.word 4)) 8
      needClean w ps
      let _ ← rmw w ps fun x => some ((x + h.word 5) % 2 ^ 64)
      pure ()) fun f => .done 11 f.cls
    complete h 0 0) s)

/-- COPY starts a bulk copy engine; its length is checked before its ranges are (reason 10 before status 8): DESIGN CHOICE, log
entry 43. -/
def execCopy (q : Nat) (s : State) : Out :=
  .next (runPacket q 3 (fun h => do
    common h (h.word 7 == 0)
    Pk.need (h.word 6 ≤ 2 ^ 48) (.done 7 10)
    needBounds h (h.word 4) (h.word 6) 32
    needBounds h (h.word 5) (h.word 6) 40
    Pk.upd (addPacket { packetOf h with
      dst := h.word 4, src := h.word 5, len := h.word 6, ready := h.word 6 == 0 })) s)

/-- The element type of a reducing copy packet: codes 4 to 7 and 9 to 11. -/
def redType (n : Nat) : Option ElemTy := (etOfCode n).bind fun t => if cpyrTy t then some t else none

def redOpOf : Nat → Option RedOp
  | 0 => some .add | 1 => some .min | 2 => some .max | _ => none

/-- REDUCING_COPY starts a bulk copy engine that applies updates. An op or element type that R413 does not list is rejected with
reason 1: DESIGN CHOICE, log entry 89. -/
def execReducingCopy (q : Nat) (s : State) : Out :=
  .next (runPacket q 4 (fun h => do
    let x := h.word 7
    let et := redType (fieldOf x 4 4)
    let op := redOpOf (fieldOf x 0 2)
    common h (fieldOf x 2 2 == 0 && fieldOf x 8 56 == 0 && et.isSome && op.isSome)
    match et, op with
    | some et, some op => do
      let es := et.bytes
      Pk.need (h.word 4 % es = 0 && h.word 5 % es == 0) (.done 7 2)
      Pk.need (h.word 6 ≤ 2 ^ 40) (.done 7 10)
      needBounds h (h.word 4) (h.word 6 * es) 32
      needBounds h (h.word 5) (h.word 6 * es) 40
      Pk.upd fun s =>
        let id := copyId s (2 ^ 32 - 1) s.front.copies
        let s := { s with front := { s.front with copies := s.front.copies + 1 } }
        addPacket { packetOf h with
          dst := h.word 4, src := h.word 5, len := h.word 6, op, et, copy := id, ready := h.word 6 == 0 } s
    | _, _ => pure ()) s)

/-- REJECTED_KIND_PACKET: kinds 9 to 255 (R412). -/
def execRejectedKindPacket (q : Nat) (s : State) : Out := .next (runKind q (9 ≤ ·) (fun h => common h false) s)

/-- The 256 signed bytes of a report (R426). -/
def reportBody (s : State) (h : Head) : Nat :=
  joinFields [(8, 0x0000000145545441), (8, (pkgidOf s).toNat), (8, h.word 5), (8, h.word 6), (8, h.word 7), (24, 0),
    (64, (Config.digest false).toNat), (64, if s.mgmt.patch then (Config.digest true).toNat else 0), (64, 0)]

/-- The signature, byte by byte. -/
def signature (body : Nat) : Nat → Nat
  | 0 => 0
  | n + 1 => (Config.signatureByte body (3308 - n)).toNat + 256 * signature body n

/-- ATTEST writes the report and completes. -/
def execAttest (q : Nat) (s : State) : Out :=
  .next (runPacket q 7 (fun h => do
    common h true
    Pk.need (h.word 4 % 64 = 0) (.done 7 2)
    needBounds h (h.word 4) 4096 32
    let body ← Pk.ask fun s => reportBody s h
    let report := joinFields [(256, body), (2, 3309), (3309, signature body 3309), (529, 0)]
    let w := queueWho h.queue
    Pk.lift (do
      let ps ← checkAccess w .store (BitVec.ofNat 64 (h.word 4)) 4096
      needClean w ps
      writeAll w .norm ps report) fun _ => .done 12 32
    complete h 0 0) s)

/-! ### Bulk copies (R413) -/

/-- What a chunk of its engine leaves of a packet. -/
def Packet.goOn (p : Packet) (m : TCmd) : Packet :=
  { p with next := m.next, chunk := m.chunk, pts := m.pts, opened := m.opened, stall := m.stall,
           ready := m.finished && p.kind == 3 }

/-- BULK_COPY_CHUNK of the i-th packet: a chunk, or one element of it, as `cpy` or `cpyr` runs it; a fault abandons the packet
there. -/
def execBulkCopyChunk (i : Nat) (s : State) : Out :=
  match s.front.packets[i]? with
  | none => .next s
  | some p =>
    let put (s : State) (p : Packet) : State := { s with front := { s.front with packets := s.front.packets.set i p } }
    if p.ready || !(p.kind == 3 || p.kind == 4) then .next s
    else
      let m := packetCmd p
      if m.finished then
        -- every chunk of a reducing copy has been acknowledged
        .next (if (inFlight s p.copy).isEmpty then
            put (releaseWindow s p.copy) { p with ready := true, pts := max p.pts (chunkWindow s p.copy).pts }
          else s)
      else if p.kind = 4 && !mayFly s p.copy p.chunk then .next s
      else
        let r := runChunk (packetWho p) m s
        match r.1 with
        | .waits q m => .next (put r.2 { p.goOn m with stall := some q })
        | .faults f =>
          -- the chunks that a reducing copy has sent land first
          .next (if !(p.kind == 4 && !(inFlight s p.copy).isEmpty) then
              let pts := if p.kind = 4 then max p.pts (chunkWindow s p.copy).pts else p.pts
              put (if p.kind = 4 then releaseWindow r.2 p.copy else r.2)
                { p with status := 11, code := f.cls, ready := true, opened := none, pts }
            else s)
        | .goes m bad =>
          let s := match bad with | some a => errorLog r.2 0 5 0 0 a | none => r.2
          .next (put s (p.goOn m))

/-! ### Completion (R414) -/

/-- PACKET_COMPLETION of the i-th packet: error word, then counter with release; a counter that cannot be written puts the
queue into state 2 (R414). -/
def execPacketCompletion (i : Nat) (s : State) : Out :=
  match s.front.packets[i]? with
  | none => .next s
  | some p =>
    if !p.ready then .next s
    else
      let drop (s : State) : State := { s with front := { s.front with packets := s.front.packets.eraseIdx i } }
      if p.completion = 0 then .next (drop s)
      else if !(p.lower ≤ p.completion && p.completion + 16 ≤ p.upper) then .next (queueToError (drop s) p.queue)
      else
        match writeCounter p s with
        | .ok (_, s') => .next (drop s')
        | .error (.fault _) => .next (queueToError (drop s) p.queue)
        | .error _ => .next s

/-! ### Time slices and errors (R415, R419, R420) -/

/-- Clk of one slice. -/
def sliceClk : Nat := 850000

/-- An active queue with a valid header at its read index. -/
def queueReady (s : State) (q : Nat) : Bool :=
  let x := queueOf s q
  if x.state != 1 then false
  else
    match readHead q { s with front := { s.front with mapped := q :: s.front.mapped } } with
    | .ok _ => true
    | .error .queue => true
    | .error _ => false

/-- QUEUE_TIME_SLICE: the ready queues take the hardware slots in turn, after the last one that a slice has mapped. -/
def execQueueTimeSlice (s : State) : Out :=
  if !s.mgmt.ready || s.clk < s.front.slice + sliceClk then .next s
  else
    let ready := (s.front.queues.map Prod.fst).filter (queueReady s)
    let last := s.front.lastMapped
    let turn := ready.filter (fun q => last < q) ++ ready.filter fun q => q ≤ last
    let keep := s.front.mapped.filter fun q => !ready.contains q
    let n := slotCount
    let next := (turn ++ keep).take n
    let s := { s with front := { s.front with slice := s.clk, lastMapped := (turn.take n).getLastD last, mapped := s.front.mapped.filter fun q => next.contains q } }
    let s := next.foldl mapQueue s
    .next { s with front := { s.front with mapped := next.filter fun q => s.front.mapped.contains q } }

/-- FRONT_END_RESET: one processor, which one is open, leaves service, and the others serve its hardware slots (log entry 44). A
packet of its queues that has been read and not started is read again. -/
def execFrontEndReset (s : State) : Out :=
  let c := s.pick
  let s := c.2
  let ps := [0, 1, 2, 3].filter fun i => s.front.inService.getLsbD i
  let p := ps.getD (c.1 % ps.length) 0
  let own (q : Nat) : Bool := match s.front.mapped.findIdx? (· == q) with | some i => ps.getD (i % ps.length) 0 == p | none => false
  let again (e : Nat × Queue) : Nat × Queue := if own e.1 then (e.1, { e.2 with slot := none, since := none }) else e
  let s := { s with front := { s.front with queues := s.front.queues.map again } }
  let s := errorLog s 0 6 0 0 0
  let left := s.front.inService &&& ~~~(1#4 <<< p)
  .next { s with front := { s.front with inService := if left = 0 then s.front.inService else left } }

/-- QUEUE_ERROR: an uncorrectable error in a queue's record or in the front end's copy. -/
def execQueueError (q : Nat) (s : State) : Out := .next (if (queueOf s q).state = 1 then queueError s q else s)

end Sys2Proof.Machine
end

