-- ==== Sys2Proof/Machine/Launching.lean ====
section
/-! DEFINITION. The launch packets: launch records (R410, R411), image checks (R90 to R92, R32), group tables (R240, R241),
graph records and element lists (R326, R329 to R331), placement maps (R358), and the launch context (R36, R37). -/

namespace Sys2Proof.Machine

/-- A little-endian field of a record read as a number: n bytes from offset o. -/
def fieldAt (r o n : Nat) : Nat := r / 2 ^ (8 * o) % 2 ^ (8 * n)

/-- Rejection with a reason code of R412. -/
def reject (code : Nat) : Refuse := .done 7 code

/-- The `sizes` word of R410. -/
def Head.argLen (h : Head) : Nat := fieldOf (h.word 7) 0 17
def Head.entry (h : Head) : Nat := fieldOf (h.word 7) 24 8
def Head.budget (h : Head) : Nat := fieldOf (h.word 7) 32 32

/-- A field whose 0 means none, within the bounds otherwise. -/
def needBoundsUnless0 (h : Head) (a n code : Nat) : Pk Unit := if a = 0 then pure () else needBounds h a n code

/-- The launch record (R411), after the common checks. -/
def readRecord (h : Head) : Pk Nat := do
  common h (fieldOf (h.word 7) 17 7 == 0 && (h.kind == 1 || h.entry == 0))
  Pk.need (h.word 5 % 64 = 0) (reject 2)
  needBounds h (h.word 5) 64 40
  readField h (h.word 5) 64 40

/-! ### Images (R90 to R92) -/

/-- What an image's header and entry table say. -/
structure ImageInfo where
  code : Nat
  data : Nat
  dataSize : Nat
  kernels : List (Kernel × Nat)
  deriving DecidableEq, Repr

/-- An entry (R91), with its kind. A fault byte that R91 does not list (2 to 255) is read as `service`: DESIGN CHOICE, log
entry 64. -/
def parseEntry (e : Nat) : Kernel × Nat :=
  let kind := fieldAt e 4 1
  ({ offset := fieldAt e 0 4, element := kind == 2, radius := fieldAt e 5 1, combine := fieldAt e 6 1,
     handler := fieldAt e 7 1 == 1, hset := fieldAt e 8 2 }, kind)

/-- The next multiple of 64 (R90). -/
def roundUp64 (n : Nat) : Nat := (n + 63) / 64 * 64

/-- The header's own checks: every field as R90 has it, and each section at the next multiple of 64 after the one before it
ends. -/
def headerOk (x : Nat) : Bool :=
  let kc := fieldAt x 6 2
  let co := fieldAt x 16 8
  let ko := fieldAt x 32 8
  fieldAt x 0 4 == 0x54534853 && fieldAt x 4 2 == 1 && 1 ≤ kc && kc ≤ 256 && fieldAt x 8 4 == 0 && fieldAt x 12 4 == 64 &&
    co == roundUp64 (64 + 16 * kc) && ko == roundUp64 (co + fieldAt x 24 8) && fieldAt x 48 8 == roundUp64 (ko + fieldAt x 40 8)

/-- An entry obeys R92. -/
def entryOk (size : Nat) (e : Nat) : Bool := fieldAt e 0 4 % 4 == 0 && fieldAt e 0 4 < size && fieldAt e 10 2 == 0

/-- Reads and checks the image, once all of it lies within the bounds; `named` are the entry indices of the launch. -/
def readImage (h : Head) (named : List Nat) : Pk ImageInfo := do
  let img := h.word 4
  needBounds h img 64 32
  let x ← readField h img 64 32
  Pk.need (headerOk x) (reject 3)
  needBounds h img (fieldAt x 48 8 + fieldAt x 56 8) 32
  let kc := fieldAt x 6 2
  let tab ← readField h (img + 64) (16 * kc) 32
  let es := (List.range kc).map fun i => fieldAt tab (16 * i) 16
  Pk.need (es.all (entryOk (fieldAt x 24 8)) && named.all fun k => k < kc) (reject 3)
  pure { code := img + fieldAt x 16 8, data := img + fieldAt x 48 8, dataSize := fieldAt x 56 8,
         kernels := named.map fun k => parseEntry (es.getD k 0) }

/-! ### The launch context (R36, R37) -/

/-- The offset of the argument block. -/
def argsOffset (i : ImageInfo) : Nat := roundUp64 (64 + i.dataSize)

/-- The launch header of a launch. -/
def launchHeader (l : Launch) (i : ImageInfo) (argLen : Nat) : Nat :=
  let flags := bit01 l.verify + 2 * l.priority + 8 * bit01 (l.budget != 0)
  joinFields [(4, if l.element then 2 else 1), (4, flags), (8, l.count), (8, l.ebase),
    (8, match l.graph with | some g => g.addr | none => 0), (8, argsOffset i), (4, argLen), (4, if l.element then l.radius else 0), (8, l.image),
    (8, l.completion)]

/-- Two parts of memory share a byte. -/
def shares (p q : Piece) : Bool := p.loc.space == q.loc.space && p.loc.addr < q.loc.addr + q.n && q.loc.addr < p.loc.addr + p.n

/-- A range of an address space, with the parts of memory behind it, meets no context of a running launch: neither its addresses
in one address space, nor its bytes (R36). -/
def contextFree (s : State) (asid a n : Nat) (ps : List Piece) : Bool :=
  s.disp.launches.all fun l =>
    (l.asid != asid || a + n ≤ l.cb || l.cb + l.ctxLen ≤ a) && !ps.any fun p => l.ctxAt.any (shares p)

/-- Fills a launch context: where the front end allocates it is open; an address that cannot hold it is not one that the
front end allocates. The bytes between the end of `.data` and `__args` are 0: DESIGN CHOICE, log entry 85. -/
def fillContext (h : Head) (l : Launch) (i : ImageInfo) : Pk Launch := do
  let args ← if h.argLen = 0 then pure 0 else readField h (h.word 6) h.argLen 48
  let data ← readField h i.data i.dataSize 32
  let len := argsOffset i + h.argLen
  let c ← fun s => .ok s.pick
  let cb := 4096 * c
  Pk.need (cb + len ≤ 2 ^ 56) .hold
  let w := queueWho h.queue
  let ps ← Pk.lift (checkAccess w .rmw (BitVec.ofNat 64 cb) len) fun _ => .hold
  let s ← Pk.ask id
  Pk.need (contextFree s h.queue.asid cb len ps) .hold
  let l : Launch := { l with cb, ctxLen := len, ctxAt := ps }
  let blob := joinFields [(64, launchHeader l i h.argLen), (argsOffset i - 64, data), (h.argLen, args)]
  Pk.lift (writeAll w .norm ps blob) fun _ => .hold
  pure l

/-- Launches are numbered in the order of their acceptance (R101). -/
def takeNumber : Pk Nat := fun s =>
  .ok (s.front.nextLaunch, { s with front := { s.front with nextLaunch := s.front.nextLaunch + 1 } })

/-- The launch that a packet describes, before it has a number and a context. -/
def baseLaunch (h : Head) (i : ImageInfo) : Launch :=
  { num := 0, queue := h.q, asid := h.queue.asid, root := h.queue.root, element := h.kind == 2, image := h.word 4,
    code := i.code, cb := 0, kernels := i.kernels.map Prod.fst, count := 0, ebase := 0, graph := none, ageLimit := 64,
    verify := false, priority := h.priority, completion := h.word 3, increment := fieldOf (h.word 0) 32 32,
    lower := h.queue.lower, upper := h.queue.upper, budget := h.budget }

/-- The last step of acceptance: a number, a context, and the launch among those that run, after the events that the front end
has made for it. -/
def acceptLaunch (h : Head) (l : Launch) (i : ImageInfo) : Pk Launch := do
  let n ← takeNumber
  let l ← fillContext h { l with num := n } i
  let s ← Pk.ask id
  let l : Launch := { l.begin s with pts := s.msys.agent }
  Pk.upd fun s => s.setDisp { s.disp with launches := s.disp.launches ++ [l] }
  pure l

/-! ### Resident launches -/

/-- One entry of a group table: its group, when in use (R240, R241). -/
def readGroup (h : Head) (count tab g : Nat) : Pk (Option Group) := do
  let e := fieldAt tab (16 * g) 16
  let n := fieldAt e 8 2
  Pk.need (fieldAt e 10 6 = 0) (reject 5)
  if n = 0 then pure none
  else
    let a := fieldAt e 0 8
    Pk.need (a % 2 == 0 && n ≤ 8192) (reject 5)
    let raw ← Pk.lift (memRead (queueWho h.queue) .norm (BitVec.ofNat 64 a) (2 * n)) fun _ => reject 5
    let ms := (List.range n).map fun i => fieldAt raw (2 * i) 2
    Pk.need (ms.all (· < count) && ms.eraseDups.length == n) (reject 5)
    pure (some { id := g, members := ms, arrivals := List.replicate n 0 })

/-- The groups of a launch. -/
def readGroups (h : Head) (count gtab : Nat) : Pk (List Group) :=
  if gtab = 0 then pure []
  else do
    let tab ← readField h gtab 4096 80
    let gs ← (List.range 256).mapM (readGroup h count tab)
    let gs := gs.filterMap id
    Pk.need ((List.range count).all fun t => (gs.filter fun g => g.members.contains t).length ≤ 4) (reject 5)
    pure gs

/-- The start of a resident launch (R412): its checks in the order of log entry 43, then acceptance. -/
def startResident (h : Head) : Pk Unit := do
  let r ← readRecord h
  let count := fieldAt r 0 2
  let map := fieldAt r 8 8
  let gtab := fieldAt r 16 8
  Pk.need (fieldAt r 2 6 == 0 && fieldAt r 24 40 == 0) (reject 1)
  Pk.need (h.word 4 % 64 = 0 && gtab % 64 == 0) (reject 2)
  needBoundsUnless0 h map count 72
  needBoundsUnless0 h gtab 4096 80
  if h.argLen = 0 then pure () else needBounds h (h.word 6) h.argLen 48
  let i ← readImage h [h.entry]
  Pk.need (i.kernels.all fun k => k.2 == 1 && k.1.radius == 0 && k.1.hset < count) (reject 4)
  let groups ← readGroups h count gtab
  let m ← if map = 0 then pure 0 else readField h map count 72
  let map := if map = 0 then [] else (List.range count).map fun j => fieldAt m j 1
  Pk.need (map.all fun b => b / 8 % 16 == 0) (reject 7)
  Pk.need (h.argLen ≤ 65536) (reject 8)
  Pk.need (1 ≤ count && count ≤ 8192) (reject 9)
  let _ ← acceptLaunch h { baseLaunch h i with count, groups, map, waiting := true } i
  pure ()

/-- RESIDENT_LAUNCH: the packet at a queue's read index starts a resident launch. -/
def execResidentLaunch (q : Nat) (s : State) : Out := .next (runPacket q 1 startResident s)

/-! ### Element launches -/

/-- An address field of a graph record: relative when its flag says so and it is not 0 (R326). -/
def graphField (graph r o bit : Nat) : Nat :=
  let x := fieldAt r o 8
  if x != 0 && (fieldAt r 36 2).testBit bit then (graph + x) % 2 ^ 64 else x

/-- A field for which 0 means none, whatever its flag (R326). -/
def graphOption (graph r o bit : Nat) : Option Nat := if fieldAt r o 8 = 0 then none else some (graphField graph r o bit)

/-- The graph record of an element launch (R326, R329). The dispatchers use this copy and do not read the record again: DESIGN
CHOICE, log entry 86. -/
def readGraphRecord (h : Head) (graph : Nat) : Pk Graph := do
  let r ← readField h graph 64 64
  let flags := fieldAt r 36 2
  Pk.need (fieldAt r 38 2 == 1 && fieldAt r 40 24 == 0 && flags / 32 == 0 && fieldAt r 32 4 != 0) (reject 6)
  pure { addr := graph, offsets := graphField graph r 0 0, indices := graphField graph r 8 1,
         owners := graphOption graph r 16 2, seams := graphOption graph r 24 3, count := fieldAt r 32 4,
         single := flags.testBit 4 }

/-- A package takes part in the launches of this one: itself, and every peer whose link has not failed (log entry 57). -/
def takesPart (s : State) (pkg : Nat) : Bool :=
  pkg == s.mgmt.peerId.toNat || match s.peer? pkg with | some p => p.link != .failed | none => false

/-- Every owner entry names a die of a package that takes part (R327, R329); the answer is the other packages that they name. An
owner array that cannot be read is a graph error of the dispatchers later. An entry with a nonzero bit in [7:3] names no die; the bits
of a seam entry that R327 gives as zero are not looked at: DESIGN CHOICE, log entry 96. -/
def checkOwners (h : Head) (g : Graph) : Pk (List Nat) :=
  match g.owners with
  | none => pure []
  | some a => fun s =>
    match memRead (queueWho h.queue) .norm (BitVec.ofNat 64 a) (2 * g.count) s with
    | .error (.fault _) => .ok ([], s)
    | .error _ => .error .hold
    | .ok (raw, s) =>
      let entries := (List.range g.count).map fun v => fieldAt raw (2 * v) 2
      let named := if g.single then [] else (entries.map (· / 256)).eraseDups
      if entries.all (fun o => o / 8 % 32 == 0) && named.all (takesPart s) then
        .ok (named.filter (· != s.mgmt.peerId.toNat), s)
      else .error (reject 6)

/-- The initial tasks: element and argument (R331). -/
def readList (h : Head) (list ebase m arg : Nat) : Pk (List (Nat × Nat)) :=
  if list = 0 then pure ((List.range m).map fun i => (ebase + i, arg))
  else do
    let raw ← readField h list (16 * m) 72
    pure ((List.range m).map fun i => (fieldAt raw (16 * i) 8, fieldAt raw (16 * i + 8) 8))

/-- An initial task becomes pending at its owner. -/
def createTask (n : Nat) (t : Nat × Nat) : Op State := do
  let s ← Op.ask id
  match s.launch? n with
  | none => pure s
  | some l => do
    let own ← ownerOf l t.1
    let s ← Op.ask id
    pure (partitionDue (s.setLaunch (arriveTask l own 0 t.1 (BitVec.ofNat 64 t.2) 0 l.pts).2) own.1 own.2)

def createTasks (n : Nat) (ts : List (Nat × Nat)) (s : State) : State :=
  ts.foldl (fun s t => orGraphError n (createTask n t) s) s

/-- The start of an element launch (R412). -/
def startElement (h : Head) : Pk Unit := do
  let r ← readRecord h
  let graph := fieldAt r 0 8
  let list := fieldAt r 8 8
  let ebase := fieldAt r 24 4
  let m := fieldAt r 28 4
  let nk := fieldAt r 36 1
  let radius := fieldAt r 37 1
  Pk.need (fieldAt r 40 4 ≤ 1 && fieldAt r 44 20 == 0) (reject 1)
  Pk.need (h.word 4 % 64 = 0 && graph % 64 == 0 && list % 16 == 0) (reject 2)
  needBoundsUnless0 h graph 64 64
  needBoundsUnless0 h list (16 * m) 72
  if h.argLen = 0 then pure () else needBounds h (h.word 6) h.argLen 48
  let i ← readImage h ((List.range (min nk 4)).map fun k => fieldAt r (32 + k) 1)
  Pk.need (1 ≤ nk && nk ≤ 4 && radius ≤ 2 && (graph != 0 || radius == 0) &&
    i.kernels.all fun k => k.2 == 2 && k.1.radius == radius) (reject 4)
  let g ← if graph = 0 then pure none else some <$> readGraphRecord h graph
  let packages ← match g with
    | none => pure []
    | some g => do
      Pk.need (ebase + m ≤ g.count) (reject 6)
      checkOwners h g
  let ts ← readList h list ebase m (fieldAt r 16 8)
  let inside (v : Nat) : Bool := match g with
    | some g => v < g.count
    | none => ebase ≤ v && v < ebase + m
  Pk.need (ts.all fun t => inside t.1) (reject 6)
  Pk.need (h.argLen ≤ 65536) (reject 8)
  Pk.need (m != 0) (reject 9)
  let limit := fieldAt r 38 2
  let l : Launch := { baseLaunch h i with
    count := m, ebase, graph := g, packages, ageLimit := if limit = 0 then 64 else limit, verify := (fieldAt r 40 1).testBit 0 }
  let l ← acceptLaunch h l i
  Pk.upd (createTasks l.num ts)

/-- ELEMENT_LAUNCH: the packet at a queue's read index starts an element launch. -/
def execElementLaunch (q : Nat) (s : State) : Out := .next (runPacket q 2 startElement s)

end Sys2Proof.Machine
end

