-- ==== Sys2Proof/Machine/Host.lean ====
section
/-! DEFINITION. The host's accesses: to device memory through BAR2 or CXL.mem, and to its own memory (R308, R309, R421,
R422). -/

namespace Sys2Proof.Machine

/-- The host, as the maker of accesses: no core, no address space (R422). -/
def hostWho : Who := { core := hubCore, asid := 0, root := 0 }

/-- The location of a host access; device memory is reached under key slot 0 (log entry 9). -/
def hostLoc (host : Bool) (addr : Nat) : Loc := { space := if host then .host else .dev, addr, type := 1 }

/-- The access can be made: the host's own memory always, device memory while the link is up and the addresses exist
(R397, R421). -/
def hostReach (s : State) (host : Bool) (addr size : Nat) : Bool :=
  host || (s.mgmt.powered && s.mgmt.hostUp && (List.range size).all fun i => devOk (addr + i))

def setHostRead (s : State) (v : Nat) : State := { s with mgmt := { s.mgmt with hostRead := v } }

/-- A value that the manual does not state: a free one of n bytes (log entry 46). -/
def hostFree (s : State) (n : Nat) : State :=
  let c := s.pick
  setHostRead c.2 (c.1 % 2 ^ (8 * n))

/-- An access of the host to a line of its own memory: what the package has on its way there may or may not have arrived, and
folds whose announcements have arrived are placed first (R274, R308, R309). -/
def hostBefore (l : Loc) (s : State) : State := pullFolds (hostTouch s l) l none

/-- A read of the host, in one line. -/
def hostReadEvent (host : Bool) (p : Piece) (s : State) : Got × State :=
  if host then
    let s := (stampRead (hostBefore p.loc s) hostWho p.loc 0).2
    ({ val := rawRead s p.loc p.n, bad := (LineVal.get { data := 0, bad := badWords s p.loc.space p.loc.addr } (p.loc.addr % 64) p.n).bad }, s)
  else readEvent hostWho .unc p s

/-- A write of the host, in one line. -/
def hostWriteEvent (host : Bool) (p : Piece) (v : Nat) (s : State) : State :=
  if host then
    let r := stampWrite (hostBefore p.loc s) s.msys.agent p.loc none
    rawWrite (keepEarlier (r.2.setPts hostWho r.1) none p.loc) p.loc v p.n
  else writeEvent hostWho .unc p v s

/-- One line of a host access. -/
def hostEvent (host write : Bool) (value : Nat) (e : Ev) (x : HostPart) (s : State) : HostPart × State :=
  let x := { x with done := x.done + 1 }
  if write then (x, hostWriteEvent host e.piece (value / 2 ^ (8 * e.off)) s)
  else
    let g := hostReadEvent host e.piece s
    ({ x with val := x.val + 2 ^ (8 * e.off) * g.1.val, bad := x.bad || !g.1.bad.isEmpty }, g.2)

def hostEvents (host write : Bool) (value : Nat) : List Ev → HostPart → State → HostPart × State
  | [], x, s => (x, s)
  | e :: r, x, s => let y := hostEvent host write value e x s; hostEvents host write value r y.1 y.2

/-- What is left of a host access: it goes on line by line while the step is split, and its last line ends it. -/
def setHostPart (s : State) (x : HostPart) (keep : Bool) : State :=
  let rest := s.mgmt.hostParts.filter fun y => y.access != x.access
  { s with mgmt := { s.mgmt with hostParts := if keep then x :: rest else rest } }

/-- HOST_ACCESS: performed at the home of each line, lowest address first, each as an access in S (R294, R422). -/
def execHostAccess (host write : Bool) (addr size value : Nat) (s : State) : Out :=
  let es := laneEvents 0 false 0 [{ va := addr, n := size, loc := hostLoc host addr }]
  let i : Instr := .hostAccess host write addr size value
  let x := (s.mgmt.hostParts.find? fun y => y.access == i).getD { access := i, done := 0 }
  if !hostReach s host addr size then .next (setHostPart s x false)
  else
    let todo := es.drop x.done
    let r := hostEvents host write value (if s.split then todo.take 1 else todo) x s
    let keep := s.split && 1 < todo.length
    let s := setHostPart r.2 r.1 keep
    .next (if keep || write then s else if r.1.bad then hostFree s size else setHostRead s r.1.val)

/-- The new value of an AtomicOp on n bytes (R421); none when a CAS finds another value. -/
def hostOpNew (op : HostOp) (n old : Nat) : Option Nat :=
  match op with
  | .fetchAdd v => some ((old + v) % 2 ^ (8 * n))
  | .swap v => some (v % 2 ^ (8 * n))
  | .cas expect new => if old = expect % 2 ^ (8 * n) then some (new % 2 ^ (8 * n)) else none

/-- HOST_ATOMICOP: one read-modify-write at the line's home; the host receives the old value (R421). On an uncorrectable
word the write does not happen and the value is open (R276). -/
def execHostAtomicop (host : Bool) (addr size : Nat) (op : HostOp) (s : State) : Out :=
  let p : Piece := { va := addr, n := size, loc := hostLoc host addr }
  if !hostReach s host addr size then .next s
  else if poisoned s p.loc.space addr size then .next (hostFree s size)
  else if host then
    let r := hostReadEvent host p s
    let s := match hostOpNew op size r.1.val with | some v => hostWriteEvent host p v r.2 | none => r.2
    .next (setHostRead s r.1.val)
  else
    let r := rmwEvent hostWho p (hostOpNew op size) s
    .next (setHostRead r.2 r.1)

end Sys2Proof.Machine
end

