-- ==== Sys2Proof/Machine/Peers.lean ====
section
/-! DEFINITION. What other packages do by themselves: stores to their own memory, changes of their import tables, their leases
on the receive pools, and their part in collectives (R444 to R448, R458, R461, R475 to R478; log entry 10). -/

namespace Sys2Proof.Machine

/-- An ordinary store of a package to a part of one line of its own memory, an event in S at its home (R296, R462). -/
def peerStore (s : State) (id addr n value : Nat) : State :=
  let p : Piece := { va := addr, n := min n (64 - addr % 64), loc := { space := .peer id, addr, type := 1 } }
  writeEvent { core := hubCore, asid := 0, root := 0 } .unc p value s

/-- The management of a package writes or clears an entry of its import table (R458, R461). -/
def setExport (s : State) (p : Peer) (handle : Nat) (e : List Export) : State :=
  let old := (p.exports.filter fun x => x.handle == handle).map fun x => (x.handle, x.base)
  setPeer s { p with exports := p.exports.filter (fun x => x.handle != handle) ++ e, past := (old ++ p.past).eraseDups }

/-- A package claims a receive channel of a pool: a free one, else one of another party (R444). A claim on a channel of a lease
of this package contests it there. -/
def peerClaims (s : State) (id : Nat) (pool : Option Nat) : State :=
  let m := rxPool s pool
  match freeRx m id with
  | some i =>
    let c := rxChan m i
    setRx s pool i { tuned := some id, holder := some id, start := if c.tuned = some id then c.start else s.clk + retuneClk }
  | none =>
    match contestRx s pool id with
    | none => s
    | some i =>
      let c := rxChan m i
      let s' := setRx s pool i { c with claim := some id }
      if c.holder = some s.self then
        match pool.bind fun p => rxHears s p i with
        | some j => setPoolChan s' j { poolChan s j with rxClaim := some id }
        | none => s'
      else s'

/-- A lease of a package gives up a receive channel: its claimant receives it, or it is free (R445). One that this package claims
is delivered at the time that its claim has. Pending requests of this package take what is free then. -/
def peerFrees (s : State) (id : Nat) (pool : Option Nat) : State :=
  let m := rxPool s pool
  match (rxWhere m fun c => c.holder == some id && c.claim != some s.self).head? with
  | none => s
  | some i =>
    let c := rxChan m i
    fillPending (setRx s pool i { tuned := if c.claim.isSome then c.claim else c.tuned, holder := c.claim, start := s.clk + retuneClk })

/-- A package withdraws a claim to a receive channel (R447). -/
def peerWithdraws (s : State) (id : Nat) (pool : Option Nat) : State :=
  let m := rxPool s pool
  match (rxWhere m fun c => c.claim == some id).head? with
  | none => s
  | some i =>
    let s' := setRx s pool i { rxChan m i with claim := none }
    match pool.bind fun p => rxHears s p i with
    | some j => setPoolChan s' j { poolChan s j with rxClaim := none }
    | none => s'

/-- A claim of a package at a receive pool, its end or its withdrawal: of another package of the fabric, and a peer of the one
whose pool it is (R6, R436). -/
def rxAct (s : State) (id : Nat) (pool : Option Nat) (f : State → Nat → Option Nat → State) : State :=
  let there := match pool with | none => true | some p => (s.peer? p).isSome
  if id = s.self || !there || !inFabric s id || (peerSlot (pool.getD s.self) id).isNone then s else f s id pool

/-- Another package of the fabric may take part in a collective of this one: it need not be a peer (R470), but one whose link
has failed does not. -/
def mayJoin (s : State) (id : Nat) : Bool :=
  id != s.self && inFabric s id && match s.peer? id with | some p => p.link != .failed | none => true

/-- An act of another package: of a peer that is present, but for the claims at receive pools and the part in collectives. -/
def peerAct (id : Nat) (a : PeerAct) (s : State) : State :=
  match a, s.peer? id with
  | .claimRx pool, _ => rxAct s id pool peerClaims
  | .freeRx pool, _ => rxAct s id pool peerFrees
  | .withdrawRx pool, _ => rxAct s id pool peerWithdraws
  | .join c m, _ => if mayJoin s id then peerJoins s id c m else s
  | .skip c, _ => if mayJoin s id then peerSkips s id c else s
  | .leave c, _ => if mayJoin s id then finishEnds (peerEnds s id c) else s
  | .store addr n value, some p => if p.link == .failed then s else peerStore s id addr n value
  | .setExport e, some p => setExport s p e.handle [e]
  | .clearExport h, some p => setExport s p h []
  | _, none => s

end Sys2Proof.Machine
end

