-- ==== Sys2Proof/Machine/Issue.lean ====
section
/-! DEFINITION. Instruction fetch (R88, R89), the faults of a fetch and of an illegal word (R83), the readiness of a thread set
(R143), the choice of the thread set that issues (R144, R145), and the steps that an open schedule may take (log entry 2). -/

namespace Sys2Proof.Machine

/-! ### Fetch (R88, R89) -/

/-- Lines of the instruction cache: 64 KiB (R5). -/
def icacheLines : Nat := 1024

/-- A fetched line enters the instruction cache; in a full one it takes the place of another, which one is open. -/
def keepLine (w : Who) (line : Nat) (v : BitVec 512) (s : State) : State :=
  let rest := (s.core w.core).icache.filter fun e => !(e.1 == w.asid && e.2.1 == line)
  let put (s : State) (l : List (Nat × Nat × BitVec 512)) : State :=
    s.setCore w.core { s.core w.core with icache := (w.asid, line, v) :: l }
  if rest.length < icacheLines then put s rest
  else let c := s.pick; put c.2 (rest.eraseIdx (c.1 % icacheLines))

/-- What a fetch of a line may find beside what memory holds: the core's instruction cache, the die's copy of a non-coherent
line, memory as it stood when the launch started, and all that the line has held since (R89). -/
def otherWords (w : Who) (line : Nat) (loc : Loc) (s : State) : List LineVal :=
  let cached := ((s.core w.core).icache.find? fun e => e.1 == w.asid && e.2.1 == line).map fun e => { data := e.2.2.toNat, bad := 0 }
  let held := (ncFind s (dieOfCore w.core) (backing s loc false)).map fun x => { data := x.data.toNat, bad := x.bad.toNat }
  let old (l : Launch) : List LineVal :=
    { data := l.before s loc 64, bad := 0 } :: (pastLines s (backing s loc false) l.began).map PastLine.line
  cached.toList ++ held.toList ++ ((w.ts.bind s.launchOf).map old).getD []

/-- A line that a fetch has read, and the lowest address of the instruction in its page, which a fault names (R369). -/
structure Fetched where
  line : LineVal
  low : Nat
  deriving DecidableEq, Repr

/-- Fetches the line of an address of the instruction at `first`, with execute permission: its old or its new words, where they
differ (R89). -/
def fetchLine (w : Who) (first va : Nat) : Op Fetched := do
  if !inGlobal va then Op.fail { cls := 6, info := BitVec.ofNat 64 va } else pure ()
  let p ← translateFrom w .fetch first va 1
  fun s =>
    let line := va / 64 * 64
    let loc := lineLoc p.loc
    let v := rawLine s (backing s loc false)
    let keep := keepLine w line (BitVec.ofNat 512 v.data)
    match (otherWords w line loc s).filter fun x => x.data != v.data with
    | [] => .ok ({ line := v, low := p.low }, keep s)
    | others =>
      let c := s.pick
      .ok (match others[c.1 % (others.length + 1)]? with
        | some x => ({ line := x, low := p.low }, c.2)
        | none => ({ line := v, low := p.low }, keep c.2))

/-- A fetched instruction whose bytes meet an uncorrectable word is a poison fault (R276). -/
def lineClean (x : Fetched) (va n : Nat) : Op Unit :=
  Op.need (x.line.get (va % 64) n).bad.isEmpty { cls := 9, info := BitVec.ofNat 64 x.low }

/-- The words of the instruction at an address. Its length comes from its first word, and every page it covers is
translated before that word is decoded (R69, R88). -/
def fetchWords (w : Who) (pc : Nat) : Op (List IWord) := do
  let a ← fetchLine w pc pc
  lineClean a pc 4
  let n := lengthOfWord (BitVec.ofNat 32 (a.line.data / 2 ^ (8 * (pc % 64))))
  if pc % 64 + n ≤ 64 then do
    lineClean a pc n
    pure (wordsOfNat (a.line.data / 2 ^ (8 * (pc % 64))) (n / 4))
  else do
    let next := pc / 64 * 64 + 64
    let b ← fetchLine w pc next
    lineClean a pc (64 - pc % 64)
    lineClean b next (pc % 64 + n - 64)
    pure (wordsOfNat ((a.line.data + 2 ^ 512 * b.line.data) / 2 ^ (8 * (pc % 64))) (n / 4))

/-- The instruction that words make: an illegal word is its own step (R83). -/
def instrOfWords (ws : List IWord) : Instr :=
  match decodeWords ws with
  | .ok i => i
  | .error _ => .illegalInstruction (ws.headD 0)

/-- The next instruction of the running thread set. -/
def fetchNext : Op Instr := do
  let s ← Op.ask id
  let ws ← fetchWords (s.who s.cur) s.me.pc.toNat
  pure (instrOfWords ws)

/-- The next instruction of the running thread set, and the state after the fetch: the one whose access it is in the middle
of, or the one at its pc; none while it waits for a peer (R468). -/
def nextInstr (s : State) : Option (Instr × State) :=
  match s.me.part with
  | some p => some (p.instr, s)
  | none =>
    match fetchNext s with
    | .ok r => some r
    | .error (.fault _) => some (.instructionFetchFault, s)
    | .error _ => none

/-- ILLEGAL_INSTRUCTION: the word posts a fault and has no effect (R83). -/
def execIllegalInstruction (word : IWord) (s : State) : Out :=
  .next (postFault (.illegalInstruction word) { cls := 1 } s)

/-- INSTRUCTION_FETCH_FAULT: the fetch posts its fault at the pc (R88); nothing happens when the fetch succeeds. -/
def execInstructionFetchFault (s : State) : Out :=
  match fetchNext s with
  | .error (.fault f) => .next (postFault .instructionFetchFault f s)
  | _ => .next s

/-! ### Readiness and switching (R143 to R145) -/

/-- An instruction whose issue or execution is an event of S, or a marker there (R293, R303), or starts one (`amof`): it follows
the earlier events of its thread set (R301). -/
def makesEvent : Instr → Bool
  | .ld .. | .st .. | .vld .. | .vst .. | .vlds .. | .vldx .. | .vstx .. | .vldb .. | .amo .. | .amof .. | .cas .. | .cas2 .. | .cwait .. | .racq ..
  | .rpeek .. | .rrel .. | .bar .. | .barv .. | .bwait .. | .fget .. | .freply .. | .spawn .. | .mmac .. | .mmacs .. | .mwld .. | .mdrain ..
  | .cpy .. | .cpy2d .. | .cpyRs .. | .cpyRd .. | .cpyr .. | .get .. | .put .. | .stwb .. | .stinv .. | .pub .. | .coll .. => true
  | _ => false

/-- The unit or queue that an instruction needs is not free, or its wait before issue is not over (R104, R172, R221, R246,
R299, R302, R307, R354). -/
def stalled (s : State) (i : Instr) : Bool :=
  (makesEvent i && orderWaits s s.cur) ||
  match i with
  | .mmac .. | .mmacs .. | .mzero .. | .mwld .. | .mdrain .. | .mdrainq .. | .mdraina .. | .mstat .. | .mclrs .. =>
    matrixFull s
  | .cpy .. | .cpy2d .. | .cpyRs .. | .cpyRd .. | .cpyr .. | .get .. | .put .. | .stwb .. | .stinv .. | .pub .. | .stmap .. => tileFull s
  | .mfsr _ n | .mtsr _ n => fpsWaits s n
  | .bar _ | .barv .. | .rrel .. | .freply .. => waitsForPeer s s.cur
  | .retire => !mayEnd s s.cur
  | .tdefer _ => s.me.element && !mayEnd s s.cur
  | _ => false

/-- The instruction is executed, not only passed over: its predicate is true (R74). -/
def enabled (s : State) (i : Instr) : Bool := match guardOf i with | some g => s.me.getP g.p != g.pn | none => true

/-- Nothing that an instruction reads or writes is pending: for a false predicate only the predicate counts (R111). -/
def mayIssue (s : State) (i : Instr) : Bool := !enabled s i || (s.me.clear (usesOf i) && !stalled s i)

/-- A thread set is ready (R143): it is not held by an earlier result, a predicate or mask write, a busy unit or the instruction
cache, by the slots of `held`; one in the middle of an access goes on with it, also once it is to halt. -/
def ready (s : State) (held : BitVec 4) (t : Nat) : Bool :=
  let s := { s with cur := t }
  s.me.status == .running && !held.getLsbD (slotOf t) &&
    (s.me.part.isSome || (!s.me.halted && match nextInstr s with | some r => mayIssue s r.1 | none => false))

/-- The first ready slot after a slot, in cyclic order (R144). -/
def nextReady (s : State) (held : BitVec 4) (core slot : Nat) : Option Nat :=
  [(slot + 1) % 4, (slot + 2) % 4, (slot + 3) % 4].find? fun i => ready s held (4 * core + i)

/-- At a count of 256 the core switches when another thread set is ready, and the count restarts (R145). After an idle clk
the next choice is from that thread set on in any case. -/
def runLimit (held : BitVec 4) (core : Nat) (s : State) : State :=
  let k := s.core core
  if k.run < 256 then s
  else
    match nextReady s held core k.slot with
    | some i => if k.idle then s else s.setCore core { k with slot := i, run := 0 }
    | none => s.setCore core { k with run := 0 }

/-- The event, on the core of the thread set that ran last. -/
def execIssueRunLimit (s : State) : Out := .next (runLimit 0 (coreOf s.cur) s)

/-- The slot that issues now, counted (R145): the current one while it is ready; else, and after an idle clk, the first ready
one in the order that starts after it (R144). The further events of one access are not counted; an instruction that is tried
and then blocks is, and its slot is the one that issued last: DESIGN CHOICE, log entry 94. -/
def chooseSlot (held : BitVec 4) (core : Nat) (s : State) : Option (Nat × State) :=
  let s := runLimit held core s
  let k := s.core core
  let stay := ready s held (4 * core + k.slot)
  let one := if (s.ts (4 * core + k.slot)).part.isSome then 0 else 1
  let same := (k.slot, s.setCore core { k with run := k.run + one, idle := false })
  if stay && !k.idle then some same
  else
    match nextReady s held core k.slot with
    | some i =>
      let one := if (s.ts (4 * core + i)).part.isSome then 0 else 1
      some (i, s.setCore core { k with slot := i, run := one, idle := false })
    | none => if stay then some same else none

/-- The first instruction to read a register with a token or an answer follows the completion that wrote it; one that
overwrites it does not (R303). The first instruction of a thread set follows its launch's start or its task's grant (R306). -/
def acquire (i : Instr) (s : State) : State :=
  let t := s.me
  if t.acq.isEmpty then s
  else
    let u := usesOf i
    let takes (m : BitVec 32) (e : Nat × Nat) : Bool := e.1 == 32 || (enabled s i && e.1 < 32 && m.getLsbD e.1)
    s.setMe { t with
      pts := (t.acq.filter (takes u.rs)).foldl (fun p e => max p e.2) t.pts
      acq := t.acq.filter fun e => !takes (u.rs ||| u.ws) e }

/-- The instruction that a core issues: the state with its thread set running and the instruction fetched; none when no
thread set of it is ready. -/
def issueOn (held : BitVec 4) (core : Nat) (s : State) : Option (Instr × State) :=
  if !validCore core then none
  else
    match chooseSlot held core s with
    | some r => (nextInstr { r.2 with cur := 4 * core + r.1 }).map fun x => (x.1, acquire x.1 x.2)
    | none => none

/-- A clk in which a core issues nothing (R144). -/
def State.rest (s : State) (core : Nat) : State :=
  if validCore core then s.setCore core { s.core core with idle := true } else s

/-! ### Placing one instruction (log entry 1) -/

/-- Where `withFetchWord` places an instruction, and the tables that map it: one 1 GiB page of device memory onto the first
GiB, readable, writable and executable (R261, R262). -/
def placePc : Nat := 0x10000
def placeRoot : Nat := 0x10000000
def placeTable : Nat := 0x10100000

/-- The launch that the placed instruction runs in. -/
def placeLaunch : Launch :=
  { num := 1, queue := 0, asid := 1, root := placeRoot, element := false, image := 0, code := placePc, cb := 0,
    kernels := [], count := 1, ebase := 0, graph := none, ageLimit := 64, verify := false, priority := 0, completion := 0,
    increment := 0, lower := 0, upper := 2 ^ 56, budget := 0, placed := [(0, 0)] }

/-- The state with five words stored where thread set 0 fetches next, and the next turn the issue of core 0. -/
def State.place (s : State) (w : Nat) : State :=
  let s := { s with msys := { s.msys with keys := s.msys.keys.set 0 none, walk := [] } }
  let s := writeNum s .dev none placeRoot (1 + placeTable) 8
  let s := writeNum s .dev none placeTable 0x1F 8
  let s := writeNum s .dev none placePc w 20
  let s := unpoison s .dev placePc 24
  let s := s.setDisp { s.disp with launches := placeLaunch.begin s :: s.disp.launches.filter fun l => l.num != 1 }
  let s := s.setTs 0 { s.ts 0 with
    pc := BitVec.ofNat 64 placePc, launch := 1, status := .running, halted := false, pendS := 0, pendV := 0, part := none,
    acq := [] }
  let s := s.setCore 0 { s.core 0 with slot := 0, run := 0, idle := false, launch := some 1, icache := [] }
  { s with cur := 0, split := false, turns := [.issue 0] }

/-! ### The passing of time -/

/-- The clk since which the packets that the front end has read are ready, as it sees them in this clk (R406). -/
def noteReady (s : State) : State :=
  s.front.mapped.foldl (fun s q =>
    let x := queueOf s q
    if x.slot.isNone then s
    else
      match readHead q s with
      | .ok (h, s') => setQueue s q { x with since := if headReady h s' then some (x.since.getD s.clk) else none }
      | .error _ => s) s

/-- n clk pass: the watchdogs count (R389), and the front end and the routers see what has changed. -/
def State.elapse (s : State) (n : Nat) : State :=
  let x := losePaths (noteReady s)
  let count (l : Launch) : Launch := if watchCounts s l.num then { l with used := l.used + n } else l
  { x with clk := s.clk + n, disp := { x.disp with launches := s.disp.launches.map count } }

/-! ### Steps that an open schedule may take (log entry 2) -/

/-- An event, in full or one element of it (R294). -/
def both (i : Instr) : List Turn := [.event i, .eventPart i]

/-- The issue of one instruction of a core, or of one event of its access, with any of its thread sets held. -/
def issueTurns (c : Nat) : List Turn :=
  Turn.issue c :: (List.range 16).flatMap fun h => [.issueHeld c (BitVec.ofNat 4 h) false, .issueHeld c (BitVec.ofNat 4 h) true]

/-- Steps of one core and its engines. -/
def coreTurns (s : State) (c : Nat) (k : Core) : List Turn :=
  (if c < 4096 && [0, 1, 2, 3].any (fun i => (s.ts (4 * c + i)).status == .running) then issueTurns c else []) ++
  (if c < 2048 then [.event (.preempt c)] else []) ++
  (if k.mq.isEmpty then [] else both (.matrixCommandStart c) ++ [.event (.matrixCommandCompletion c)]) ++
  k.tq.flatMap fun m => both (.tileEngineChunk c m.id) ++ [.event (.tileCommandCompletion c m.id)]

/-- Steps that let a waiting thread set go on, or end its drain. -/
def waitTurns (e : Nat × ThreadSet) : List Turn :=
  (if e.2.draining then [.event (.haltDrainComplete (.tset e.1))] else []) ++
  match e.2.status with
  | .waitQueue _ => [.event (.queueBlockRelease e.1)]
  | .waitWake _ | .waitPhase _ _ => [.event (.wake e.1)]
  | .waitFence _ _ => [.event (.fenceTimeout e.1)]
  | _ => []

/-- Thread sets that may start an entry of a cluster's queue. -/
def startTurns (k : Nat) (q : List Entry) : List Turn :=
  q.flatMap fun e => match e with
    | .index _ _ _ t => [.event (.threadSetStart t)]
    | .task .. => (List.range 64).map fun i => .event (.threadSetStart (64 * k + i))

/-- Steps of the dispatchers and the home hub for a launch. -/
def launchTurns (l : Launch) : List Turn :=
  (if l.waiting then [.event (.gangPlacement l.num)] else []) ++
  (if l.budget = 0 then [] else [.event (.watchdogExpiry l.num)]) ++
  (if l.rounds then Turn.event (.seamRoundStart l.num) ::
      (partitions l).map (fun p => .event (.seamRoundDone l.num { pkg := p.1.map (BitVec.ofNat 8), die := Fin.ofNat 8 p.2 }))
    else []) ++
  (l.pending.map Task.own ++ l.running.map (fun r => (r.pkg, r.die))).flatMap (fun p =>
    match p.1 with
    | some q => [Turn.event (.dispatchPass (some (BitVec.ofNat 8 q)) (Fin.ofNat 8 p.2))]
    | none => []) ++
  l.pending.flatMap fun t =>
    [.event (.taskReservation l.num (Fin.ofNat 4 t.pos) t.elem), .event (.tdeferHoldExpiry l.num (Fin.ofNat 4 t.pos) t.elem)]

/-- Events of each number of a list. -/
def eachTurn {α : Type} (l : List α) (f : Nat → List Instr) : List Turn :=
  (List.range l.length).flatMap fun i => (f i).map .event

/-- The same, in full or one element of each. -/
def eachBoth {α : Type} (l : List α) (f : Nat → Instr) : List Turn := (List.range l.length).flatMap fun i => both (f i)

/-- The packet kinds of a queue. -/
def packetTurns (q : Nat) : List Turn :=
  [.event (.residentLaunch q), .event (.elementLaunch q), .event (.copy q), .event (.reducingCopy q), .event (.counterAdd q),
   .event (.wait q), .event (.attest q), .event (.nopPacket q), .event (.rejectedKindPacket q)]

/-- Steps of management and of the front end itself. -/
def hubTurns (s : State) (q : Nat) : List Turn :=
  (if s.mgmt.ready then [] else [.event (.bringUpStageDone 0)]) ++
  (if s.mgmt.keycmd.isSome then [.event .keyCommandDone] else []) ++
  (if s.mgmt.biasBusy then [.event .biasFlipComplete] else []) ++
  (if s.mgmt.endGo then [.event .endCommandComplete] else []) ++
  (if s.mgmt.ready then [.event (.queueActivation (q % 65536)), .event .queueTimeSlice] else []) ++
  s.mgmt.hostParts.flatMap (fun x => both x.access) ++
  s.front.mapped.flatMap packetTurns

/-- Every step that the package may take by itself, and the passing of one clk. A step of the list whose condition does not
hold changes nothing. `q` names the queue record that the front end looks at. -/
def ownTurns (s : State) (q : Nat) : List Turn :=
  s.cores.flatMap (fun e => coreTurns s e.1 e.2) ++
  s.tsets.flatMap waitTurns ++
  s.disp.queues.flatMap (fun e => startTurns e.1 e.2) ++
  s.disp.launches.flatMap launchTurns ++
  s.disp.passDue.map (fun d => .event (.dispatchPass none (Fin.ofNat 8 d))) ++
  eachTurn s.disp.images (fun i => (List.range 2048).map fun c => .coreResume i c) ++
  eachTurn s.disp.spawns (fun i => [.spawnArrival i, .spawnAnswer i]) ++
  eachTurn s.disp.claims (fun i => [.remoteClaimRequest i, .remoteClaimAnswer i]) ++
  eachTurn s.faults.recs (fun i => [.faultPost i]) ++
  eachTurn s.faults.writebacks (fun i => [.resultWriteback i]) ++
  eachTurn s.msys.flight (fun i => [.chunkArrival i]) ++
  eachTurn s.msys.flushes (fun i => [.translationFlush i, .translationFlushComplete i]) ++
  s.msys.regions.map (fun r => .event (.regionMerge r.base)) ++
  eachTurn s.front.packets (fun i => [.packetCompletion i]) ++ eachBoth s.front.packets .bulkCopyChunk ++
  eachTurn s.fab.leases (fun i => [.leaseFirstPass i, .leaseGrant i, .leaseExpiry i]) ++
  (List.finRange 24).map (fun c => .event (.retuneComplete c)) ++
  (List.finRange 144).map (fun c => .channel c .send) ++
  s.fab.chans.flatMap (fun e => e.2.unacked.map fun q => .channel (Fin.ofNat 144 e.1) (.resend q)) ++
  s.fab.peers.map (fun p => .event (.peerFailed (BitVec.ofNat 8 p.id))) ++
  eachTurn s.coll.active (fun i => [.collectiveInstanceStart i, .collectiveCompletion i]) ++
  eachBoth s.coll.active .collectiveChunk ++
  hubTurns s q ++ [.elapse 1]

/-- The next turn: the schedule's first, or, when nothing is scheduled, one of the package's own steps, which one is
open. -/
def nextTurn (s : State) : Turn × State :=
  match s.turns with
  | x :: r => (x, { s with turns := r })
  | [] =>
    let c := s.pick
    let ts := ownTurns s (c.1 / 65536)
    (ts.getD (c.1 % 65536 % ts.length) (.elapse 1), c.2)

end Sys2Proof.Machine
end

