-- ==== Sys2Proof/Machine/VectorPerm.lean ====
section
/-! DEFINITION. Meanings of permutation (R166), reductions and dot products (R167 to R169) and mask instructions (R170). -/

namespace Sys2Proof.Machine

/-- A source lane copied bit for bit, with its flag. -/
def copyLane (et : ElemTy) (x : VWord) (i : Nat) : LaneRes :=
  { val := laneOf x et.width i, flag := flagOf x et.width i }

def execVbcast (g : Guard) (k : KReg) (et : ElemTy) (d a : Reg) (s : State) : Out :=
  let t := s.me
  let x := (t.getS a).toNat % 2 ^ et.width
  guarded g 12 s (nextMe s (putLanes t d et.width 127 (maskedLanes t k et fun _ => { val := x })) 12)

def execVins (g : Guard) (et : ElemTy) (d a : Reg) (lane : Fin 32) (s : State) : Out :=
  let t := s.me
  let x := (t.getS a).toNat % 2 ^ et.width
  guarded g 12 s (nextMe s (putLanes t d et.width (vRider (t.getV d))
    ((List.range et.lanes).map fun j => if j = lane.val then some { val := x } else none)) 12)

/-- A flag of the extracted lane sets LS. -/
def execVext (g : Guard) (et : ElemTy) (d a : Reg) (lane : Fin 32) (s : State) : Out :=
  let t := s.me
  let x := laneOf (t.getV a) et.width lane.val
  let y : Word := if et.isSigned then BitVec.ofInt 64 (intVal et x) else BitVec.ofNat 64 x
  let f : Flags := { ls := flagOf (t.getV a) et.width lane.val }
  guarded g 12 s (nextMe s ((t.setS d y).raise (fpsBits f)) 12)

def execVperm (g : Guard) (k : KReg) (et : ElemTy) (d a b : Reg) (s : State) : Out :=
  vecOp g k et d a (fun t j =>
    let r := copyLane et (t.getV a) (laneOf (t.getV b) et.width j % et.lanes)
    { r with flag := r.flag || flagOf (t.getV b) et.width j }) s

/-- The register (first or second) and lane that lane j takes in a `vshuf` pattern of h = L/2 pairs (R166). -/
def shufSource (pat : Fin 4) (h j : Nat) : Bool × Nat :=
  match pat with
  | 0 => (j % 2 == 1, j / 2)
  | 1 => (j % 2 == 1, h + j / 2)
  | 2 => if j < h then (false, 2 * j) else (true, 2 * (j - h))
  | 3 => if j < h then (false, 2 * j + 1) else (true, 2 * (j - h) + 1)

def execVshuf (g : Guard) (k : KReg) (et : ElemTy) (d a b : Reg) (pat : Fin 4) (s : State) : Out :=
  vecOp g k et d a (fun t j =>
    let q := shufSource pat (et.lanes / 2) j
    copyLane et (t.getV (if q.1 then b else a)) q.2) s

def execVslide (g : Guard) (k : KReg) (et : ElemTy) (d a b : Reg) (n : Fin 33) (s : State) : Out :=
  vecOp g k et d a (fun t j =>
    let i := j + n.val
    if i < et.lanes then copyLane et (t.getV a) i else copyLane et (t.getV b) (i - et.lanes)) s

/-- The selected lanes, in ascending order. -/
def selected (m : BitVec 32) (n : Nat) : List Nat := (List.range n).filter fun j => active m j

def execVcompress (g : Guard) (k : KReg) (et : ElemTy) (d a : Reg) (s : State) : Out :=
  let t := s.me
  let sel := selected (t.getK k) et.lanes
  let lane (j : Nat) : Option LaneRes :=
    match sel[j]? with
    | some i => some (copyLane et (t.getV a) i)
    | none => some { val := 0 }
  guarded g 12 s (nextMe s (putLanes t d et.width (vRider (t.getV a)) ((List.range et.lanes).map lane)) 12)

def execVexpand (g : Guard) (k : KReg) (et : ElemTy) (d a : Reg) (s : State) : Out :=
  vecOp g k et d a (fun t j => copyLane et (t.getV a) (selected (t.getK k) j).length) s

/-! ### Reductions -/

/-- The width of the window: from the instruction, or from `fpc` (R153). -/
def windowOf (fpc : BitVec 8) (w : WinSel) : Nat :=
  match w with
  | .dflt => windowWidth (fpc.extractLsb' 3 3).toNat
  | .code c => windowWidth c.val

/-- The register that a reduction leaves: the result in lane 0, other data bits 0, the rider with lane 0's flag only
(R167). -/
def lane0 (w x : Nat) (flag : Bool) (rider8 : BitVec 8) : VWord :=
  vMake (if w = 8 then rider8 else if flag then 1 else 0) (BitVec.ofNat 256 (x % 2 ^ w))

/-- Type of the result of an integer reduction or dot product. -/
def wideInt (et : ElemTy) : ElemTy := if et.isSigned then .i64 else .u64

/-- Type of a windowed sum's result (R167, R168). -/
def wideFp (et : ElemTy) : ElemTy := if et = .f64 then .f64 else .f32

/-- Ends a reduction. -/
def finishRed (t : ThreadSet) (d : Reg) (rt : ElemTy) (x : Nat) (flag : Bool) (rider8 : BitVec 8) (f : Flags) :
    ThreadSet :=
  (t.setV d (lane0 rt.width x flag rider8)).raise (fpsBits f)

/-- A windowed sum of terms, rounded to the result type with RNE (R62). -/
def windowed (terms : List (FVal × Flags)) (w : Nat) (rt : ElemTy) : Nat × Bool × Flags :=
  let r := windowSum (terms.map Prod.fst) w
  let q := (fmtOf rt).round .rne false r.1
  let f := terms.foldl (fun a p => a.or p.2) (r.2.2.or q.2)
  (q.1, r.2.1, { f with ls := f.ls || r.2.1 })

/-- The reduction of `vred` over the active lanes (R167). -/
def reduce (t : ThreadSet) (k : KReg) (et : ElemTy) (op : RedOp) (w : WinSel) (d a : Reg) : ThreadSet :=
  let v := t.getV a
  let js := selected (t.getK k) et.lanes
  let flag := js.any fun j => flagOf v et.width j
  if et.isInt then
    match op with
    | .add =>
      let sum := js.foldl (fun acc j => acc + ilane et v j) 0
      finishRed t d (wideInt et) (wrapInt 64 sum) flag (vRider v) {}
    | .min => finishRed t d et (wrapInt et.width (js.foldl (fun acc j => min acc (ilane et v j)) (intMax et))) flag
        (vRider v) {}
    | .max => finishRed t d et (wrapInt et.width (js.foldl (fun acc j => max acc (ilane et v j)) (intMin et))) flag
        (vRider v) {}
  else
    match op with
    | .add =>
      let terms := js.map fun j => let x := flane et v j; (x, Flags.invalid x.isSnan)
      let r := windowed terms (windowOf t.fpc w) (wideFp et)
      finishRed t d (wideFp et) r.1 (flag || r.2.1) (vRider v) r.2.2
    | op =>
      let f := fmtOf et
      let step (acc : Nat × Flags) (j : Nat) : Nat × Flags :=
        let r := f.minMax (op == .max) acc.1 (laneOf v et.width j)
        (r.1, acc.2.or r.2)
      let r := js.foldl step (f.infBits (op == .max), {})
      finishRed t d et r.1 flag (vRider v) r.2

def execVred (g : Guard) (k : KReg) (et : ElemTy) (op : RedOp) (w : WinSel) (d a : Reg) (s : State) : Out :=
  guarded g 12 s (nextMe s (reduce s.me k et op w d a) 12)

/-- The product of two 8-bit floats under their riders (R168): a rider of 0xFF makes a NaN product unless the other factor
is zero. R57 names `vdq8`, scale mode 2 and the scaled conversions alone as taking a rider's scale; for `vdot` of 8-bit floats the
model follows R168: DESIGN CHOICE, log entry 105. -/
def scaledProduct (x y : FVal) (xa xb : Nat) : FVal × Flags :=
  if (xa = 255 && !y.isZero) || (xb = 255 && !x.isZero) then (.nan false, (mulVal x y).2)
  else
    let p := mulVal x y
    let k (r : Nat) : Int := if r = 255 then 0 else (r : Int) - 127
    (p.1.scale (k xa + k xb), p.2)

/-- The dot product of `vdot` (R168). -/
def dot (t : ThreadSet) (k : KReg) (et : ElemTy) (w : WinSel) (d a b : Reg) (c : Option Reg) : ThreadSet :=
  let va := t.getV a
  let vb := t.getV b
  let js := selected (t.getK k) et.lanes
  let rt := if et.isInt then wideInt et else wideFp et
  let cflag := match c with | some r => flagOf (t.getV r) rt.width 0 | none => false
  let flag := cflag || js.any fun j => flagOf va et.width j || flagOf vb et.width j
  if et.isInt then
    let c0 : Int := match c with | some r => ilane rt (t.getV r) 0 | none => 0
    let sum := js.foldl (fun acc j => acc + ilane et va j * ilane et vb j) c0
    finishRed t d rt (wrapInt 64 sum) flag 0 {}
  else
    let prod (j : Nat) : FVal × Flags :=
      if et.isFp8 then scaledProduct (flane et va j) (flane et vb j) (vRider va).toNat (vRider vb).toNat
      else mulVal (flane et va j) (flane et vb j)
    let extra := match c with
      | some r => let x := flane rt (t.getV r) 0; [(x, Flags.invalid x.isSnan)]
      | none => []
    let r := windowed (js.map prod ++ extra) (windowOf t.fpc w) rt
    finishRed t d rt r.1 (flag || r.2.1) 0 r.2.2

def execVdot (g : Guard) (k : KReg) (et : ElemTy) (w : WinSel) (d a b : Reg) (c : Option Reg) (s : State) : Out :=
  guarded g 12 s (nextMe s (dot s.me k et w d a b c) 12)

def execVlsig (g : Guard) (k : KReg) (et : ElemTy) (d : PReg) (a : Reg) (s : State) : Out :=
  let t := s.me
  let x := (selected (t.getK k) et.lanes).any fun j => flagOf (t.getV a) et.width j
  guarded g 12 s (nextMe s (t.setP d x) 12)

/-! ### Masks -/

/-- Functions of `kop` on 32 bits (R170). -/
def logMask (f : LogFn) (x y : BitVec 32) : BitVec 32 :=
  match f with
  | .and => x &&& y
  | .or => x ||| y
  | .xor => x ^^^ y
  | .andn => x &&& ~~~y
  | .not => ~~~x
  | .mov => x

def execKop (g : Guard) (f : LogFn) (d a b : KReg) (s : State) : Out :=
  guarded g 12 s (nextMe s (s.me.setK d (logMask f (s.me.getK a) (s.me.getK b))) 12)

def execKmovToMask (g : Guard) (d : KReg) (a : Reg) (s : State) : Out :=
  guarded g 12 s (nextMe s (s.me.setK d ((s.me.getS a).setWidth 32)) 12)

def execKmovFromMask (g : Guard) (d : Reg) (a : KReg) (s : State) : Out :=
  guarded g 12 s (nextMe s (s.me.setS d ((s.me.getK a).setWidth 64)) 12)

def execKpop (g : Guard) (d : Reg) (a : KReg) (s : State) : Out :=
  let x := (s.me.getK a).toNat
  let ones := ((List.range 32).filter fun i => x.testBit i).length
  guarded g 12 s (nextMe s (s.me.setS d (BitVec.ofNat 64 ones)) 12)

end Sys2Proof.Machine
end

