-- ==== Sys2Proof/Machine/Dispatch.lean ====
section
/-! DEFINITION. The dispatch from a step of the machine to its meaning: one arm per constructor of `Instr`. -/

namespace Sys2Proof.Machine

def exec (i : Instr) (s : State) : Host.Outcome State Fault Refusal :=
  match i with
  | .mfsr d n => Sys2Proof.Machine.execMfsr d n s
  | .mtsr a n => Sys2Proof.Machine.execMtsr a n s
  | .trap d a code => Sys2Proof.Machine.execTrap d a code s
  | .brk code => Sys2Proof.Machine.execBrk code s
  | .add d a b => Sys2Proof.Machine.execAdd d a b s
  | .sub d a b => Sys2Proof.Machine.execSub d a b s
  | .mul d a b => Sys2Proof.Machine.execMul d a b s
  | .mulh d a b => Sys2Proof.Machine.execMulh d a b s
  | .mulhu d a b => Sys2Proof.Machine.execMulhu d a b s
  | .div d a b => Sys2Proof.Machine.execDiv d a b s
  | .divu d a b => Sys2Proof.Machine.execDivu d a b s
  | .rem d a b => Sys2Proof.Machine.execRem d a b s
  | .remu d a b => Sys2Proof.Machine.execRemu d a b s
  | .and d a b => Sys2Proof.Machine.execAnd d a b s
  | .or d a b => Sys2Proof.Machine.execOr d a b s
  | .xor d a b => Sys2Proof.Machine.execXor d a b s
  | .andn d a b => Sys2Proof.Machine.execAndn d a b s
  | .shl d a b => Sys2Proof.Machine.execShl d a b s
  | .shr d a b => Sys2Proof.Machine.execShr d a b s
  | .sra d a b => Sys2Proof.Machine.execSra d a b s
  | .rotr d a b => Sys2Proof.Machine.execRotr d a b s
  | .min d a b => Sys2Proof.Machine.execMin d a b s
  | .max d a b => Sys2Proof.Machine.execMax d a b s
  | .minu d a b => Sys2Proof.Machine.execMinu d a b s
  | .maxu d a b => Sys2Proof.Machine.execMaxu d a b s
  | .clz d a => Sys2Proof.Machine.execClz d a s
  | .ctz d a => Sys2Proof.Machine.execCtz d a s
  | .popc d a => Sys2Proof.Machine.execPopc d a s
  | .sext wd d a => Sys2Proof.Machine.execSext wd d a s
  | .zext wd d a => Sys2Proof.Machine.execZext wd d a s
  | .bfx d a b => Sys2Proof.Machine.execBfx d a b s
  | .bfi d a b => Sys2Proof.Machine.execBfi d a b s
  | .sel p d a b => Sys2Proof.Machine.execSel p d a b s
  | .shadd n d a b => Sys2Proof.Machine.execShadd n d a b s
  | .addi d a imm => Sys2Proof.Machine.execAddi d a imm s
  | .andi d a imm => Sys2Proof.Machine.execAndi d a imm s
  | .ori d a imm => Sys2Proof.Machine.execOri d a imm s
  | .xori d a imm => Sys2Proof.Machine.execXori d a imm s
  | .shli d a n => Sys2Proof.Machine.execShli d a n s
  | .shri d a n => Sys2Proof.Machine.execShri d a n s
  | .srai d a n => Sys2Proof.Machine.execSrai d a n s
  | .li d imm => Sys2Proof.Machine.execLi d imm s
  | .addpc d imm => Sys2Proof.Machine.execAddpc d imm s
  | .addcb d imm => Sys2Proof.Machine.execAddcb d imm s
  | .cmp c d a b => Sys2Proof.Machine.execCmp c d a b s
  | .pcmp c d a b => Sys2Proof.Machine.execPcmp c d a b s
  | .plog f d a b => Sys2Proof.Machine.execPlog f d a b s
  | .beq a b off => Sys2Proof.Machine.execBeq a b off s
  | .bne a b off => Sys2Proof.Machine.execBne a b off s
  | .blt a b off => Sys2Proof.Machine.execBlt a b off s
  | .bge a b off => Sys2Proof.Machine.execBge a b off s
  | .bltu a b off => Sys2Proof.Machine.execBltu a b off s
  | .bgeu a b off => Sys2Proof.Machine.execBgeu a b off s
  | .bp neg p off => Sys2Proof.Machine.execBp neg p off s
  | .j off => Sys2Proof.Machine.execJ off s
  | .jal off => Sys2Proof.Machine.execJal off s
  | .jr a => Sys2Proof.Machine.execJr a s
  | .jalr d a => Sys2Proof.Machine.execJalr d a s
  | .ld sz h d a disp => Sys2Proof.Machine.execLd sz h d a disp s
  | .st sz h d a disp => Sys2Proof.Machine.execSt sz h d a disp s
  | .vld sz h d a disp => Sys2Proof.Machine.execVld sz h d a disp s
  | .vst sz h d a disp => Sys2Proof.Machine.execVst sz h d a disp s
  | .fence sc d => Sys2Proof.Machine.execFence sc d s
  | .cwait d a b => Sys2Proof.Machine.execCwait d a b s
  | .pf h a => Sys2Proof.Machine.execPf h a s
  | .cwb a b => Sys2Proof.Machine.execCwb a b s
  | .qput a => Sys2Proof.Machine.execQput a s
  | .qgetQr d => Sys2Proof.Machine.execQgetQr d s
  | .qgetQn d => Sys2Proof.Machine.execQgetQn d s
  | .qtryQa b a => Sys2Proof.Machine.execQtryQa b a s
  | .qtryQr b d => Sys2Proof.Machine.execQtryQr b d s
  | .qtryQn b d => Sys2Proof.Machine.execQtryQn b d s
  | .qtryQf b => Sys2Proof.Machine.execQtryQf b s
  | .spawn n d a b => Sys2Proof.Machine.execSpawn n d a b s
  | .tdefer a => Sys2Proof.Machine.execTdefer a s
  | .bar g => Sys2Proof.Machine.execBar g s
  | .barv g d => Sys2Proof.Machine.execBarv g d s
  | .bwait g a => Sys2Proof.Machine.execBwait g a s
  | .racq d a b => Sys2Proof.Machine.execRacq d a b s
  | .rrel d a b => Sys2Proof.Machine.execRrel d a b s
  | .rpeek d a b => Sys2Proof.Machine.execRpeek d a b s
  | .fget d => Sys2Proof.Machine.execFget d s
  | .freply d a b => Sys2Proof.Machine.execFreply d a b s
  | .bwlease d a b => Sys2Proof.Machine.execBwlease d a b s
  | .bwrel d a => Sys2Proof.Machine.execBwrel d a s
  | .bwq d a => Sys2Proof.Machine.execBwq d a s
  | .amo g fn wide d a b disp => Sys2Proof.Machine.execAmo g fn wide d a b disp s
  | .amof g fn et a b disp => Sys2Proof.Machine.execAmof g fn et a b disp s
  | .cas g wide d a b c disp => Sys2Proof.Machine.execCas g wide d a b c disp s
  | .cas2 g d a b c disp => Sys2Proof.Machine.execCas2 g d a b c disp s
  | .vadd g k et sat d a b => Sys2Proof.Machine.execVadd g k et sat d a b s
  | .vsub g k et sat d a b => Sys2Proof.Machine.execVsub g k et sat d a b s
  | .vmul g k et d a b => Sys2Proof.Machine.execVmul g k et d a b s
  | .vmulh g k et d a b => Sys2Proof.Machine.execVmulh g k et d a b s
  | .vmin g k et d a b => Sys2Proof.Machine.execVmin g k et d a b s
  | .vmax g k et d a b => Sys2Proof.Machine.execVmax g k et d a b s
  | .vabs g k et sat d a => Sys2Proof.Machine.execVabs g k et sat d a s
  | .vneg g k et sat d a => Sys2Proof.Machine.execVneg g k et sat d a s
  | .vand g k et d a b => Sys2Proof.Machine.execVand g k et d a b s
  | .vor g k et d a b => Sys2Proof.Machine.execVor g k et d a b s
  | .vxor g k et d a b => Sys2Proof.Machine.execVxor g k et d a b s
  | .vshl g k et d a n => Sys2Proof.Machine.execVshl g k et d a n s
  | .vshr g k et d a n => Sys2Proof.Machine.execVshr g k et d a n s
  | .vsra g k et d a n => Sys2Proof.Machine.execVsra g k et d a n s
  | .vfadd g k et rm w d a b => Sys2Proof.Machine.execVfadd g k et rm w d a b s
  | .vfsub g k et rm w d a b => Sys2Proof.Machine.execVfsub g k et rm w d a b s
  | .vfmul g k et rm w d a b => Sys2Proof.Machine.execVfmul g k et rm w d a b s
  | .vfma g k et rm w d a b c => Sys2Proof.Machine.execVfma g k et rm w d a b c s
  | .vfms g k et rm w d a b c => Sys2Proof.Machine.execVfms g k et rm w d a b c s
  | .vfnma g k et rm w d a b c => Sys2Proof.Machine.execVfnma g k et rm w d a b c s
  | .vfmin g k et w d a b => Sys2Proof.Machine.execVfmin g k et w d a b s
  | .vfmax g k et w d a b => Sys2Proof.Machine.execVfmax g k et w d a b s
  | .vfabs g k et w d a => Sys2Proof.Machine.execVfabs g k et w d a s
  | .vfneg g k et w d a => Sys2Proof.Machine.execVfneg g k et w d a s
  | .vfdiv g k et rm d a b => Sys2Proof.Machine.execVfdiv g k et rm d a b s
  | .vfsqrt g k et rm d a => Sys2Proof.Machine.execVfsqrt g k et rm d a s
  | .vrcpe g k et d a => Sys2Proof.Machine.execVrcpe g k et d a s
  | .vrsqe g k et d a => Sys2Proof.Machine.execVrsqe g k et d a s
  | .vexp2 g k et d a => Sys2Proof.Machine.execVexp2 g k et d a s
  | .vlog2 g k et d a => Sys2Proof.Machine.execVlog2 g k et d a s
  | .vcmp g k et c d a b => Sys2Proof.Machine.execVcmp g k et c d a b s
  | .vfcmp g k et c d a b => Sys2Proof.Machine.execVfcmp g k et c d a b s
  | .vsel g k et d a b => Sys2Proof.Machine.execVsel g k et d a b s
  | .vcvt g k et rm fp8 ctl d a => Sys2Proof.Machine.execVcvt g k et rm fp8 ctl d a s
  | .vq8 g k et rm fp8 src d a => Sys2Proof.Machine.execVq8 g k et rm fp8 src d a s
  | .vdq8 g k et rm part src d a => Sys2Proof.Machine.execVdq8 g k et rm part src d a s
  | .vrdr g d a => Sys2Proof.Machine.execVrdr g d a s
  | .vwrr g d a => Sys2Proof.Machine.execVwrr g d a s
  | .vbcast g k et d a => Sys2Proof.Machine.execVbcast g k et d a s
  | .vins g et d a lane => Sys2Proof.Machine.execVins g et d a lane s
  | .vext g et d a lane => Sys2Proof.Machine.execVext g et d a lane s
  | .vperm g k et d a b => Sys2Proof.Machine.execVperm g k et d a b s
  | .vshuf g k et d a b pat => Sys2Proof.Machine.execVshuf g k et d a b pat s
  | .vslide g k et d a b n => Sys2Proof.Machine.execVslide g k et d a b n s
  | .vcompress g k et d a => Sys2Proof.Machine.execVcompress g k et d a s
  | .vexpand g k et d a => Sys2Proof.Machine.execVexpand g k et d a s
  | .vred g k et op w d a => Sys2Proof.Machine.execVred g k et op w d a s
  | .vdot g k et w d a b c => Sys2Proof.Machine.execVdot g k et w d a b c s
  | .vlsig g k et d a => Sys2Proof.Machine.execVlsig g k et d a s
  | .kop g f d a b => Sys2Proof.Machine.execKop g f d a b s
  | .kmovToMask g d a => Sys2Proof.Machine.execKmovToMask g d a s
  | .kmovFromMask g d a => Sys2Proof.Machine.execKmovFromMask g d a s
  | .kpop g d a => Sys2Proof.Machine.execKpop g d a s
  | .mmac g m a c => Sys2Proof.Machine.execMmac g m a c s
  | .mmacs g m sp a c => Sys2Proof.Machine.execMmacs g m sp a c s
  | .mzero g tf tile => Sys2Proof.Machine.execMzero g tf tile s
  | .mwld g bfmt slot d src => Sys2Proof.Machine.execMwld g bfmt slot d src s
  | .mdrain g et rm fp8 tf tile d a b c disp => Sys2Proof.Machine.execMdrain g et rm fp8 tf tile d a b c disp s
  | .mdrainq g et rm fp8 tf tile => Sys2Proof.Machine.execMdrainq g et rm fp8 tf tile s
  | .mdraina g et rm fp8 tf tile col => Sys2Proof.Machine.execMdraina g et rm fp8 tf tile col s
  | .mstat g d tile => Sys2Proof.Machine.execMstat g d tile s
  | .mclrs g tile => Sys2Proof.Machine.execMclrs g tile s
  | .mwait g => Sys2Proof.Machine.execMwait g s
  | .vlds g k et h d a b disp => Sys2Proof.Machine.execVlds g k et h d a b disp s
  | .vldx g k et h sc d a b disp => Sys2Proof.Machine.execVldx g k et h sc d a b disp s
  | .vstx g k et h sc d a b disp => Sys2Proof.Machine.execVstx g k et h sc d a b disp s
  | .vldb g k et h d a disp => Sys2Proof.Machine.execVldb g k et h d a disp s
  | .cpy g d a b len => Sys2Proof.Machine.execCpy g d a b len s
  | .cpy2d g d a b c => Sys2Proof.Machine.execCpy2d g d a b c s
  | .cpyRs g d a b c => Sys2Proof.Machine.execCpyRs g d a b c s
  | .cpyRd g d a b c => Sys2Proof.Machine.execCpyRd g d a b c s
  | .cpyr g op et d a b len => Sys2Proof.Machine.execCpyr g op et d a b len s
  | .get g et tgt d a b c => Sys2Proof.Machine.execGet g et tgt d a b c s
  | .put g et tgt d a b c => Sys2Proof.Machine.execPut g et tgt d a b c s
  | .stmap g n a => Sys2Proof.Machine.execStmap g n a s
  | .stwb g d a b => Sys2Proof.Machine.execStwb g d a b s
  | .stinv g d a b => Sys2Proof.Machine.execStinv g d a b s
  | .rflush g a => Sys2Proof.Machine.execRflush g a s
  | .rflushAll g => Sys2Proof.Machine.execRflushAll g s
  | .pub g d a => Sys2Proof.Machine.execPub g d a s
  | .coll g op fn et wire scaled root d a b c n => Sys2Proof.Machine.execColl g op fn et wire scaled root d a b c n s
  | .resultWriteback idx => Sys2Proof.Machine.execResultWriteback idx s
  | .queueBlockRelease ts => Sys2Proof.Machine.execQueueBlockRelease ts s
  | .wake ts => Sys2Proof.Machine.execWake ts s
  | .threadSetStart ts => Sys2Proof.Machine.execThreadSetStart ts s
  | .matrixCommandStart core => Sys2Proof.Machine.execMatrixCommandStart core s
  | .matrixCommandCompletion core => Sys2Proof.Machine.execMatrixCommandCompletion core s
  | .tileEngineChunk core id => Sys2Proof.Machine.execTileEngineChunk core id s
  | .tileCommandCompletion core id => Sys2Proof.Machine.execTileCommandCompletion core id s
  | .regionMerge base => Sys2Proof.Machine.execRegionMerge base s
  | .faultPost idx => Sys2Proof.Machine.execFaultPost idx s
  | .spawnArrival idx => Sys2Proof.Machine.execSpawnArrival idx s
  | .spawnAnswer idx => Sys2Proof.Machine.execSpawnAnswer idx s
  | .dispatchPass pkg die => Sys2Proof.Machine.execDispatchPass pkg die s
  | .taskReservation launch pos elem => Sys2Proof.Machine.execTaskReservation launch pos elem s
  | .tdeferHoldExpiry launch pos elem => Sys2Proof.Machine.execTdeferHoldExpiry launch pos elem s
  | .seamRoundStart launch => Sys2Proof.Machine.execSeamRoundStart launch s
  | .seamRoundDone launch own => Sys2Proof.Machine.execSeamRoundDone launch own s
  | .remoteClaimRequest idx => Sys2Proof.Machine.execRemoteClaimRequest idx s
  | .remoteClaimAnswer idx => Sys2Proof.Machine.execRemoteClaimAnswer idx s
  | .preempt core => Sys2Proof.Machine.execPreempt core s
  | .coreResume idx core => Sys2Proof.Machine.execCoreResume idx core s
  | .watchdogExpiry launch => Sys2Proof.Machine.execWatchdogExpiry launch s
  | .haltNow t => Sys2Proof.Machine.execHaltNow t s
  | .haltDrain t => Sys2Proof.Machine.execHaltDrain t s
  | .haltDrainComplete t => Sys2Proof.Machine.execHaltDrainComplete t s
  | .debugResume t => Sys2Proof.Machine.execDebugResume t s
  | .chunkArrival idx => Sys2Proof.Machine.execChunkArrival idx s
  | .translationFlush idx => Sys2Proof.Machine.execTranslationFlush idx s
  | .translationFlushComplete idx => Sys2Proof.Machine.execTranslationFlushComplete idx s
  | .bringUpStageDone failure => Sys2Proof.Machine.execBringUpStageDone failure s
  | .forcePowerAlarm on => Sys2Proof.Machine.execForcePowerAlarm on s
  | .pwrlim v => Sys2Proof.Machine.execPwrlim v s
  | .mgmtRegisterWrite offset v => Sys2Proof.Machine.execMgmtRegisterWrite offset v s
  | .keyLoad slot => Sys2Proof.Machine.execKeyLoad slot s
  | .keyClear slot => Sys2Proof.Machine.execKeyClear slot s
  | .biascmd v => Sys2Proof.Machine.execBiascmd v s
  | .endcmd v => Sys2Proof.Machine.execEndcmd v s
  | .powerAlarmRaise watts => Sys2Proof.Machine.execPowerAlarmRaise watts s
  | .powerAlarmLower watts => Sys2Proof.Machine.execPowerAlarmLower watts s
  | .queueActivation q => Sys2Proof.Machine.execQueueActivation q s
  | .residentLaunch q => Sys2Proof.Machine.execResidentLaunch q s
  | .elementLaunch q => Sys2Proof.Machine.execElementLaunch q s
  | .copy q => Sys2Proof.Machine.execCopy q s
  | .reducingCopy q => Sys2Proof.Machine.execReducingCopy q s
  | .counterAdd q => Sys2Proof.Machine.execCounterAdd q s
  | .wait q => Sys2Proof.Machine.execWait q s
  | .attest q => Sys2Proof.Machine.execAttest q s
  | .nopPacket q => Sys2Proof.Machine.execNopPacket q s
  | .packetCompletion idx => Sys2Proof.Machine.execPacketCompletion idx s
  | .bulkCopyChunk idx => Sys2Proof.Machine.execBulkCopyChunk idx s
  | .gangPlacement launch => Sys2Proof.Machine.execGangPlacement launch s
  | .queueError q => Sys2Proof.Machine.execQueueError q s
  | .hostAccess host write addr size value => Sys2Proof.Machine.execHostAccess host write addr size value s
  | .hostAtomicop host addr size op => Sys2Proof.Machine.execHostAtomicop host addr size op s
  | .fenceTimeout ts => Sys2Proof.Machine.execFenceTimeout ts s
  | .flitReceive ch seq crcOk => Sys2Proof.Machine.execFlitReceive ch seq crcOk s
  | .channelRetrain ch => Sys2Proof.Machine.execChannelRetrain ch s
  | .peerRetraining peer => Sys2Proof.Machine.execPeerRetraining peer s
  | .peerFailed peer => Sys2Proof.Machine.execPeerFailed peer s
  | .peerJoin peer incarnation => Sys2Proof.Machine.execPeerJoin peer incarnation s
  | .importRequest peer incarnation handle key offset size op => Sys2Proof.Machine.execImportRequest peer incarnation handle key offset size op s
  | .leaseFirstPass idx => Sys2Proof.Machine.execLeaseFirstPass idx s
  | .retuneComplete ch => Sys2Proof.Machine.execRetuneComplete ch s
  | .leaseGrant idx => Sys2Proof.Machine.execLeaseGrant idx s
  | .leaseExpiry idx => Sys2Proof.Machine.execLeaseExpiry idx s
  | .collectiveInstanceStart idx => Sys2Proof.Machine.execCollectiveInstanceStart idx s
  | .collectiveChunk idx => Sys2Proof.Machine.execCollectiveChunk idx s
  | .collectiveCompletion idx => Sys2Proof.Machine.execCollectiveCompletion idx s
  | .illegalInstruction word => Sys2Proof.Machine.execIllegalInstruction word s
  | .uncorrectableEccError word => Sys2Proof.Machine.execUncorrectableEccError word s
  | .linkReturn peer => Sys2Proof.Machine.execLinkReturn peer s
  | .channelRetrainComplete ch => Sys2Proof.Machine.execChannelRetrainComplete ch s
  | .rejectedKindPacket q => Sys2Proof.Machine.execRejectedKindPacket q s
  | .nop => Sys2Proof.Machine.execNop s
  | .yield => Sys2Proof.Machine.execYield s
  | .fdrain => Sys2Proof.Machine.execFdrain s
  | .retire => Sys2Proof.Machine.execRetire s
  | .powerGood => Sys2Proof.Machine.execPowerGood s
  | .resetRequest => Sys2Proof.Machine.execResetRequest s
  | .keyCommandDone => Sys2Proof.Machine.execKeyCommandDone s
  | .biasFlipComplete => Sys2Proof.Machine.execBiasFlipComplete s
  | .endCommandComplete => Sys2Proof.Machine.execEndCommandComplete s
  | .queueTimeSlice => Sys2Proof.Machine.execQueueTimeSlice s
  | .instructionFetchFault => Sys2Proof.Machine.execInstructionFetchFault s
  | .powerLoss => Sys2Proof.Machine.execPowerLoss s
  | .issueRunLimit => Sys2Proof.Machine.execIssueRunLimit s
  | .frontEndReset => Sys2Proof.Machine.execFrontEndReset s
  | .hostLinkChange => Sys2Proof.Machine.execHostLinkChange s

end Sys2Proof.Machine
end

