-- ==== Sys2Proof/Machine/Step.lean ====
section
/-! DEFINITION. One step of the package, in the order S of its events (log entry 2), and the placing of one instruction where
the next step fetches it (log entry 1). -/

namespace Sys2Proof.Machine

/-- A next state after one element of an event: a step alone is split (R293). -/
def unsplit : Out → Out
  | .next s => .next { s with split := false }
  | o => o

/-- The issue of one instruction of a core, while some of its thread sets are held; when none is ready, the clk is idle
(R144). -/
def issueStep (held : BitVec 4) (core : Nat) (s : State) : Out :=
  match issueOn held core s with
  | some r => exec r.1 r.2
  | none => .next (s.rest core)

/-- One turn: an event or one element of it, the issue of one instruction of a core or one event of its access, the passing of
time, or an act of another package or of a channel. -/
def turnStep (t : Turn) (s : State) : Out :=
  match t with
  | .event i => exec i s
  | .eventPart i => unsplit (exec i { s with split := true })
  | .issue c => issueStep 0 c s
  | .issueHeld c held part => if part then unsplit (issueStep held c { s with split := true }) else issueStep held c s
  | .elapse n => .next (s.elapse n)
  | .peer id a => .next (peerAct id a s)
  | .channel ch a => .next (channelAct ch.val a s)

/-- The step: the first turn of the schedule, or one that is open. -/
def step (s : State) : Host.Outcome State Fault Refusal := turnStep (nextTurn s).1 (nextTurn s).2

/-- The state with an instruction stored where the next step fetches (log entry 1): bits at `nbits` and above are 0. -/
def State.withFetchWord (s : State) (nbits w : Nat) : State := s.place (w % 2 ^ nbits)

end Sys2Proof.Machine
end

