-- ==== Sys2Proof/Safety.lean ====
section
/-! DEFINITION. What counts as a safe run: a step that completes, and the invariants of the state that claims are stated
with. -/

namespace Sys2Proof.Machine

/-- The outcome is a next state: neither a fault of the model nor a refusal. -/
def Completes (o : Out) : Prop := ∃ s, o = .next s

/-- Every memory has its canonical form: device memory, its second backing, host memory, the local memory of each core and
the export memory of each peer. -/
def State.memoryOk (s : State) : Bool :=
  s.msys.dev.wf && s.msys.alt.wf && s.msys.host.wf && s.cores.all (fun e => e.2.mem.wf) && s.fab.peers.all (fun p => p.mem.wf)

/-- The management registers hold legal values: a power limit that `PWRLIM` can hold, lease lengths that are not 0, and an
aligned queue table (R398). -/
def Mgmt.legal (m : Mgmt) : Bool :=
  1000 ≤ m.pwrlim && m.pwrlim ≤ 4200 && m.leaseDie != 0 && m.leasePkg != 0 && m.leaseFab != 0 &&
    m.qtable &&& 0x3FFFFF#64 == 0

end Sys2Proof.Machine
end

