-- ==== Sys2Proof/Certificates/Slice0/Obligations.lean ====
section
/-! DEFINITION. The statements about the model: decoding and encoding, the step, results and frames of the instructions,
faults and replies, and the events. Each docstring names the rules of spec/ that its statement rests on. -/

namespace Sys2Proof.Machine

/-! ### Words that the statements use -/

/-- Some `.ok` answer is this one. -/
def decodesAs (ws : List IWord) (i : Instr) : Prop := decodeWords ws = .ok i

/-- The next state in which only the running thread set differs: it has become t, and its pc is n bytes further. -/
def ranTo (s : State) (t : ThreadSet) (n : Nat) : Out := .next (s.setMe (t.past n))

/-- The next state of an instruction of n bytes that writes S[d]. -/
def wroteS (s : State) (d : Reg) (x : Word) (n : Nat) : Out := ranTo s (s.me.setS d x) n

/-- The posted fault of an instruction, as the running thread set's next state. -/
def posted (i : Instr) (f : FaultInfo) (s : State) : Out := .next (postFault i f s)

/-- An outcome that is a next state with a property. -/
def nextWith (o : Out) (P : State → Prop) : Prop := ∃ t, o = .next t ∧ P t

/-- Everything outside the running thread set is as it was. -/
def onlyMe (s t : State) : Prop := ∃ x, t = s.setMe x

/-- Every byte of every memory reads as it did. -/
def sameMemory (s t : State) : Prop := ∀ sp a, (memOf t sp).get a = (memOf s sp).get a

/-- Every thread set but the running one is as it was. -/
def othersKept (s t : State) : Prop := ∀ i, i ≠ s.cur → t.ts i = s.ts i

/-- The registers that only their own instructions write: everything of a thread set but s, v, p, k, pc and fps. -/
def specialsKept (x y : ThreadSet) : Prop :=
  y.fpc = x.fpc ∧ y.eid = x.eid ∧ y.targ = x.targ ∧ y.gs = x.gs ∧ y.cb = x.cb ∧ y.launch = x.launch ∧
    y.launchid = x.launchid ∧ y.qa = x.qa ∧ y.qr = x.qr ∧ y.qn = x.qn ∧ y.qf = x.qf ∧ y.pendS = x.pendS ∧ y.pendV = x.pendV

/-- The scalar destination of an instruction that writes one scalar register and the pc, and nothing else (R121, R123 to
R127). -/
def scalarDest : Instr → Option Reg
  | .add d _ _ | .sub d _ _ | .mul d _ _ | .mulh d _ _ | .mulhu d _ _ | .and d _ _ | .or d _ _ | .xor d _ _ | .andn d _ _
  | .shl d _ _ | .shr d _ _ | .sra d _ _ | .rotr d _ _ | .min d _ _ | .max d _ _ | .minu d _ _ | .maxu d _ _ | .clz d _
  | .ctz d _ | .popc d _ | .sext _ d _ | .zext _ d _ | .bfx d _ _ | .bfi d _ _ | .sel _ d _ _ | .shadd _ d _ _
  | .addi d _ _ | .andi d _ _ | .ori d _ _ | .xori d _ _ | .shli d _ _ | .shri d _ _ | .srai d _ _ | .li d _ | .addpc d _
  | .addcb d _ | .cmp _ d _ _ => some d
  | _ => none

end Sys2Proof.Machine

open Sys2Proof Sys2Proof.Machine

/-! ### Decoding and encoding -/

/-- The examples of R74, R87, R116, R117, R122, R123 and R133, and four words packed from the format tables of R71 and R73,
decode to the instructions that they stand for; a word of a reserved major is refused (R83). -/
def Obligations.DecodeExamples : Prop :=
  decodesAs [0x18A40286, 0x00048340, 0] (.vfmul ⟨true, 2⟩ 1 .f32 .rne .dflt 4 5 6) ∧
  decodesAs [0x01094B48] (.ld .w .norm 11 10 (.short 2)) ∧
  decodesAs [0xFFA41934] (.bne 3 4 (.short (-3))) ∧
  decodesAs [0x01200500] (.mfsr 5 0x08) ∧
  decodesAs [0x210C0600] (.mfsr 6 0x23) ∧
  decodesAs [0x02A50704] (.div 7 8 9) ∧
  decodesAs [0x7C9CC504] (.shadd 3 5 6 7) ∧
  decodesAs [0x40800568] (.qgetQn 5) ∧
  decodesAs [0x1CC50062, 0x00430000, 0] (.amo ⟨false, 0⟩ .add true 5 6 7 (.short 8)) ∧
  decodesAs [0x28880362, 0x0000000C, 0] (.cas2 ⟨false, 0⟩ 8 4 10 12 (.short 0)) ∧
  decodesAs [0x0000091D, 0x76543210, 0xFEDCBA98] (.li 9 (.lit 0xFEDCBA9876543210)) ∧
  decodeWords [0xF8] = .error .reservedMajor

/-- The length of an instruction is decoded from bits [1:0] of its first word, for every encoding (R69): 4, 12, 12 and 20
bytes; four bytes make a word, the lowest byte first. -/
def Sys2Proof.Claims.LengthFromTwoBits : Prop :=
  (∀ w : IWord, w.extractLsb' 0 2 = 0 → lengthOfWord w = 4) ∧
  (∀ w : IWord, w.extractLsb' 0 2 = 1 → lengthOfWord w = 12) ∧
  (∀ w : IWord, w.extractLsb' 0 2 = 2 → lengthOfWord w = 12) ∧
  (∀ w : IWord, w.extractLsb' 0 2 = 3 → lengthOfWord w = 20) ∧
  (∀ w, lengthOf (.illegalInstruction w) = lengthOfWord w) ∧
  ∀ ws : List IWord, wordsOfBytes (bytesOfWords ws) = ws

/-- What decodes is an instruction of the table, well formed, whose length is the one that its first word selects. -/
def Sys2Proof.Claims.DecodedIsWellFormed : Prop :=
  ∀ (w : IWord) (ws : List IWord) (i : Instr), decodeWords (w :: ws) = .ok i →
    i.wf = true ∧ encode i ≠ [] ∧ i.len = lengthOfWord w ∧ i.len ≤ 4 * (ws.length + 1)

/-- Whether the opcode map assigns a minor code of a major: fn6 of a base major of format A, fn8 of an X major (R80 to R82). -/
def Sys2Proof.Claims.assigned (major fn : Nat) : Bool :=
  match major with
  | 0x00 | 0x0A | 0x0B | 0x0C | 0x1C | 0x22 => fn ≤ 5
  | 0x01 => fn ≤ 8 || (0x10 ≤ fn && fn ≤ 0x13) || (0x18 ≤ fn && fn ≤ 0x1B) || (0x20 ≤ fn && fn ≤ 0x23) ||
      (0x28 ≤ fn && fn ≤ 0x2A) || (0x30 ≤ fn && fn ≤ 0x33) || fn == 0x38 || fn == 0x39
  | 0x11 | 0x1D | 0x30 | 0x31 | 0x3D => fn ≤ 1
  | 0x19 | 0x24 => fn ≤ 4
  | 0x1A | 0x1B | 0x1E | 0x23 | 0x32 | 0x33 => fn ≤ 2
  | 0x18 | 0x38 => fn ≤ 3
  | 0x20 => fn ≤ 13
  | 0x21 => fn ≤ 9
  | 0x25 => fn ≤ 7
  | 0x26 => fn ≤ 2 || (8 ≤ fn && fn ≤ 10)
  | 0x39 => fn ≤ 6
  | 0x3C => fn == 0
  | _ => true

/-- The literal that an instruction carries, in one of the forms that R70 allows. -/
def Sys2Proof.Claims.literalOf : Instr → Option Word
  | .addi _ _ (.lit x) | .andi _ _ (.lit x) | .ori _ _ (.lit x) | .xori _ _ (.lit x) | .li _ (.lit x) | .addpc _ (.lit x)
  | .addcb _ (.lit x) | .beq _ _ (.lit x) | .bne _ _ (.lit x) | .blt _ _ (.lit x) | .bge _ _ (.lit x) | .bltu _ _ (.lit x)
  | .bgeu _ _ (.lit x) | .bp _ _ (.lit x) | .j (.lit x) | .jal (.lit x) | .ld _ _ _ _ (.lit x) | .st _ _ _ _ (.lit x)
  | .vld _ _ _ _ (.lit x) | .vst _ _ _ _ (.lit x) | .amo _ _ _ _ _ _ (.lit x) | .amof _ _ _ _ _ (.lit x)
  | .cas _ _ _ _ _ _ (.lit x) | .cas2 _ _ _ _ _ (.lit x) | .mwld _ _ _ _ (.dense _ (.lit x))
  | .mwld _ _ _ _ (.sparse _ (.lit x) _ _) | .mdrain _ _ _ _ _ _ _ _ _ _ (.lit x) | .mdraina _ _ _ _ _ _ (.lit x)
  | .vlds _ _ _ _ _ _ _ (.lit x) | .vldx _ _ _ _ _ _ _ _ (.lit x) | .vstx _ _ _ _ _ _ _ _ (.lit x)
  | .vldb _ _ _ _ _ _ (.lit x) | .cpy _ _ _ _ (.imm (.lit x)) | .cpyr _ _ _ _ _ _ (.imm (.lit x))
  | .coll _ _ _ _ _ _ _ _ _ _ _ (.lit x) => some x
  | _ => none

open Sys2Proof.Claims

/-- The fields of its words that an instruction's entry does not use, by word, lowest bit and width, with the field that a literal
replaces (R70, R72, R73, R75, R80). -/
def Sys2Proof.Claims.zeroFields (i : Instr) : List (Nat × Nat × Nat) :=
  let w3 := (0, 29, 3)
  let b := (0, 18, 5)
  let a := (0, 13, 5)
  let d := (0, 8, 5)
  let top := (0, 31, 1)
  let xb := (0, 26, 5)
  let xa := (0, 21, 5)
  let xd := (0, 16, 5)
  let imm := (1, 19, 13)
  let et := (1, 15, 4)
  let rm := (1, 12, 3)
  let k := (1, 9, 3)
  let c := (1, 0, 5)
  let ctl := (2, 0, 32)
  let tileOnly := [(2, 0, 16), (2, 19, 13)]
  let drain := [(2, 0, 9), (2, 11, 5), (2, 22, 10)]
  let lit (f : Nat × Nat × Nat) : List (Nat × Nat × Nat) := if (literalOf i).isSome = true then [f] else []
  match i with
  | .nop | .yield | .fdrain | .retire => [w3, b, a, d]
  | .mfsr .. => [a]
  | .mtsr .. => [d]
  | .brk .. => [a, d]
  | .add .. | .sub .. | .mul .. | .mulh .. | .mulhu .. | .div .. | .divu .. | .rem .. | .remu .. | .and .. | .or .. | .xor ..
  | .andn .. | .shl .. | .shr .. | .sra .. | .rotr .. | .min .. | .max .. | .minu .. | .maxu .. | .bfx .. | .bfi .. | .cmp ..
  | .cwait .. | .racq .. | .rrel .. | .rpeek .. | .freply .. | .bwlease .. => [w3]
  | .clz .. | .ctz .. | .popc .. | .jalr .. | .bwrel .. | .bwq .. => [w3, b]
  | .sext .. | .zext .. => [b]
  | .pcmp .. => [w3, (0, 11, 2)]
  | .plog f .. => [w3, (0, 11, 2), (0, 16, 2), (0, 21, 2)] ++ (match f with | .not | .mov => [b] | _ => [])
  | .jr .. => [w3, b, d]
  | .addi .. | .andi .. | .ori .. | .xori .. => lit (0, 18, 14)
  | .shli .. | .shri .. | .srai .. => [(0, 24, 6)]
  | .li .. | .addpc .. | .addcb .. => lit (0, 13, 19)
  | .beq .. | .bne .. | .blt .. | .bge .. | .bltu .. | .bgeu .. => lit (0, 21, 11)
  | .bp .. => lit (0, 12, 20)
  | .j .. | .jal .. => lit (0, 8, 24)
  | .ld .. | .st .. | .vld .. | .vst .. => lit (0, 23, 9)
  | .fence .. => [b, a]
  | .pf .. => [top, b, d]
  | .cwb .. => [w3, d]
  | .qput .. => [b, d]
  | .qgetQr .. | .qgetQn .. => [b, a]
  | .qtryQa .. => [(0, 21, 2), d]
  | .qtryQr .. | .qtryQn .. => [(0, 21, 2), a]
  | .qtryQf .. => [(0, 21, 2), a, d]
  | .spawn .. => [top]
  | .tdefer .. => [w3, b, d]
  | .bar .. => [top, b, a, d]
  | .barv .. => [top, b, a]
  | .bwait .. => [top, b, d]
  | .fget .. => [w3, b, a]
  | .amo .. => [top, rm, k, c, (2, 4, 28)] ++ lit imm
  | .amof .. => [top, xd, rm, k, c, (2, 4, 28)] ++ lit imm
  | .cas .. => [top, rm, k, ctl] ++ lit imm
  | .cas2 .. => [top, et, rm, k, ctl] ++ lit imm
  | .vadd .. | .vsub .. => [top, imm, rm, c, (2, 1, 31)]
  | .vabs .. | .vneg .. => [top, xb, imm, rm, c, (2, 1, 31)]
  | .vmul .. | .vmulh .. | .vmin .. | .vmax .. | .vand .. | .vor .. | .vxor .. | .vsel .. | .vperm .. => [top, imm, rm, c, ctl]
  | .vshl _ _ _ _ _ n | .vshr _ _ _ _ _ n | .vsra _ _ _ _ _ n =>
    [top, rm, c] ++ (match n with | .reg _ => [imm, ctl] | .imm _ => [xb, (1, 25, 7), (2, 2, 30)])
  | .vfadd .. | .vfsub .. | .vfmul .. => [top, imm, c, (2, 4, 28)]
  | .vfma .. | .vfms .. | .vfnma .. => [top, imm, (2, 4, 28)]
  | .vfmin .. | .vfmax .. => [top, imm, rm, c, (2, 4, 28)]
  | .vfabs .. | .vfneg .. => [top, xb, imm, rm, c, (2, 4, 28)]
  | .vfdiv .. => [top, imm, c, ctl]
  | .vfsqrt .. => [top, xb, imm, c, ctl]
  | .vrcpe .. | .vrsqe .. | .vexp2 .. | .vlog2 .. | .vbcast .. | .vcompress .. | .vexpand .. => [top, xb, imm, rm, c, ctl]
  | .vcmp .. | .vfcmp .. => [top, (0, 19, 2), (1, 23, 9), rm, c, ctl]
  | .vcvt .. => [top, xb, imm, c, (2, 11, 21)]
  | .vq8 .. => [top, xb, imm, c, (2, 11, 21), (2, 4, 5)]
  | .vdq8 .. => [top, xb, imm, c, (2, 7, 25)]
  | .vrdr .. | .vwrr .. => [top, xb, imm, et, rm, k, c, ctl]
  | .vins .. | .vext .. => [top, xb, (1, 24, 8), rm, k, c, ctl]
  | .vshuf .. => [top, (1, 21, 11), rm, c, ctl]
  | .vslide .. => [top, (1, 25, 7), rm, c, ctl]
  | .vred .. => [top, xb, (1, 21, 11), rm, c, (2, 4, 28)]
  | .vdot _ _ _ _ _ _ _ x => [top, imm, rm, (2, 5, 27)] ++ (match x with | none => [c] | some _ => [])
  | .vlsig .. => [top, xb, (0, 19, 2), imm, rm, c, ctl]
  | .kop .. => [top, (0, 19, 2), (0, 24, 2), (0, 29, 2), (1, 25, 7), et, rm, k, c, ctl]
  | .kmovToMask .. => [top, xb, (0, 19, 2), imm, et, rm, k, c, ctl]
  | .kmovFromMask .. => [top, xb, (0, 24, 2), (1, 20, 12), et, rm, k, c, ctl]
  | .kpop .. => [top, xb, (0, 24, 2), imm, et, rm, k, c, ctl]
  | .mmac _ _ src _ => [top, xd, (1, 26, 6), et, rm, k, (2, 22, 8)] ++
      (match src with | .localMem .. => [(2, 15, 1), (2, 30, 1)] | .qa => [xa, xb, (2, 30, 1)] | .bypass => [xa, xb, (2, 15, 1)])
  | .mmacs _ _ _ src _ => [top, xd, (1, 26, 6), et, rm, k] ++
      (match src with | .localMem .. => [(2, 15, 1), (2, 30, 1)] | .qa => [xa, xb, (2, 30, 1)] | .bypass => [xa, xb, (2, 15, 1)])
  | .mzero .. => [top, xb, xa, xd, imm, rm, k, c] ++ tileOnly
  | .mwld _ _ _ _ src => [top, et, rm, k, c, (2, 4, 15), (2, 31, 1)] ++
      (match src with
        | .dense .. => [xb, (2, 22, 9)] ++ lit imm
        | .sparse .. => (2, 30, 1) :: lit imm
        | .recDense .. => [xb, imm, (2, 22, 8)]
        | .recSparse .. => [xb, imm])
  | .mdrain .. => [top, k] ++ drain ++ lit imm
  | .mdrainq .. => [top, xb, xa, xd, imm, k, c] ++ drain
  | .mdraina .. => [top, xb, xa, xd, k, c] ++ drain ++ lit imm
  | .mstat .. => [top, xb, xa, imm, et, rm, k, c] ++ tileOnly
  | .mclrs .. => [top, xb, xa, xd, imm, et, rm, k, c] ++ tileOnly
  | .mwait .. => [top, xb, xa, xd, imm, et, rm, k, c, ctl]
  | .vlds .. => [top, rm, c, (2, 2, 30)] ++ lit imm
  | .vldx .. | .vstx .. => [top, rm, c, (2, 3, 29)] ++ lit imm
  | .vldb .. => [top, xb, rm, c, (2, 2, 30)] ++ lit imm
  | .cpy _ _ _ _ l => [top, et, rm, k, ctl] ++ (match l with | .imm _ => c :: lit imm | .reg _ => [imm])
  | .cpy2d .. | .cpyRs .. | .cpyRd .. => [top, imm, et, rm, k, (2, 2, 30)]
  | .cpyr _ _ _ _ _ _ l => [top, rm, k, (2, 2, 30)] ++ (match l with | .imm _ => c :: lit imm | .reg _ => [imm])
  | .get .. | .put .. => [top, imm, rm, k, (2, 5, 27)]
  | .stmap .. => [top, xb, xd, (1, 22, 10), et, rm, k, c, ctl]
  | .stwb .. | .stinv .. => [top, imm, et, rm, k, c, ctl]
  | .rflush .. => [top, xb, xd, imm, et, rm, k, c, ctl]
  | .rflushAll .. => [top, xb, xa, xd, imm, et, rm, k, c, (2, 1, 31)]
  | .pub .. => [top, xb, imm, et, rm, k, c, ctl]
  | .coll .. => [top, rm, k, (2, 3, 1), (2, 16, 16)] ++ lit imm
  | _ => []

/-- The encodings of R83 are refused: a reserved major, an unassigned minor code, a base or X major under the lengths of the other
format, a literal that its instruction does not take, illegal code values of every table of R76 to R82, and a branch literal
that is no multiple of 4. -/
def Sys2Proof.Claims.IllegalEncodingsRefused : Prop :=
  ∀ (w : IWord) (ws : List IWord) (i : Instr),
    let len := (w.extractLsb' 0 2).toNat
    let m := (w.extractLsb' 2 6).toNat
    let fn6 := (w.extractLsb' 23 6).toNat
    let w3 := (w.extractLsb' 29 3).toNat
    let size := (w.extractLsb' 18 3).toNat
    let x : IWord := ws.headD 0
    let reserved : Prop := m ∈ [0x16, 0x17, 0x1F, 0x34, 0x35, 0x36, 0x37, 0x3A, 0x3B, 0x3E, 0x3F] ∨ (0x27 ≤ m ∧ m ≤ 0x2F)
    let isX : Prop := m = 0x18 ∨ 0x20 ≤ m
    let refused : Prop := decodeWords (w :: ws) ≠ .ok i
    (reserved → refused) ∧
    (2 ≤ len → ¬isX → refused) ∧
    (len < 2 → isX → refused) ∧
    (len = 1 → m ∉ [2, 3, 4, 5, 7, 8, 9, 0x0D, 0x0E, 0x0F, 0x10, 0x12, 0x13, 0x14, 0x15] → refused) ∧
    (∀ (lo hi : IWord) (r : List IWord), len = 1 → ws = lo :: hi :: r → decodeWords (w :: ws) = .ok i →
      literalOf i = some (hi ++ lo)) ∧
    (∀ (x y lo hi : IWord) (r : List IWord), len = 3 → ws = x :: y :: lo :: hi :: r → decodeWords (w :: ws) = .ok i →
      literalOf i = some (hi ++ lo)) ∧
    (len < 2 → m ∈ [0, 1, 0x0A, 0x0B, 0x0C, 0x11, 0x19, 0x1A, 0x1B, 0x1C, 0x1D, 0x1E] → assigned m fn6 = false → refused) ∧
    (2 ≤ len → assigned m (w.extractLsb' 8 8).toNat = false → refused) ∧
    (len < 2 → m = 6 → w.extractLsb' 30 2 = 3 → refused) ∧
    (len < 2 → m = 1 → fn6 = 0x30 ∨ fn6 = 0x31 → 3 ≤ w3 → refused) ∧
    (len < 2 → m = 0x0D → 6 ≤ (w.extractLsb' 8 3).toNat → refused) ∧
    (len < 2 → m = 0x19 → fn6 = 0 → w3 = 0 ∨ w3 = 7 → refused) ∧
    (len < 2 → m = 0x1A → 4 ≤ w3 → refused) ∧
    (len < 2 → 0x13 ≤ m → m ≤ 0x15 → 5 ≤ size → refused) ∧
    (2 ≤ len → 14 ≤ (x.extractLsb' 15 4).toNat ∨ x.extractLsb' 12 3 = 5 ∨ x.extractLsb' 12 3 = 6 → refused) ∧
    (len = 1 → 0x0D ≤ m → m ≤ 0x10 → x.extractLsb' 0 2 ≠ 0 → refused)

/-- Every must-be-zero field of what decodes is 0 (R70, R72, R73, R75, R83): bit 31 of X word 0, each field that the instruction's
entry does not use, and the field under a literal. -/
def Sys2Proof.Claims.MustBeZeroRefused : Prop :=
  ∀ (ws : List IWord) (i : Instr), decodeWords ws = .ok i →
    ∀ f ∈ zeroFields i, (ws.getD f.1 0).extractLsb' f.2.1 f.2.2 = 0

/-- The other direction of decoding: what decodes encodes to the words that were read. The core field of a `get` or `put` of kind 0
is not kept (log entry 58). -/
def Sys2Proof.Claims.DecodeThenEncode : Prop :=
  ∀ (ws : List IWord) (i : Instr), decodeWords ws = .ok i →
    ∀ j, j < (encode i).length → ws[j]? = (encode i)[j]? ∨
      (j = 2 ∧ (∃ g et d a b c, i = .get g et .glob d a b c ∨ i = .put g et .glob d a b c) ∧
        ∃ x : IWord, ws[2]? = some x ∧ x.extractLsb' 4 28 = 0 ∧ (encode i)[2]? = some 0)

/-- Decoding the encoding of a well-formed base instruction gives it back, whatever follows it. -/
def Obligations.DecodeEncodeBase : Prop :=
  ∀ (i : Instr) (rest : List IWord), encode i ≠ [] → guardOf i = none → i.wf = true → decodeWords (encode i ++ rest) = .ok i

/-- Decoding the encoding of a well-formed X instruction gives it back, whatever follows it. -/
def Obligations.DecodeEncodeX : Prop :=
  ∀ (i : Instr) (rest : List IWord), (guardOf i).isSome → i.wf = true → decodeWords (encode i ++ rest) = .ok i

/-! ### The step -/

/-- A core's turn fetches at the pc of the thread set that it chooses and runs exactly the decoded instruction on it (R69, R88,
R144); words that are no instruction run as ILLEGAL_INSTRUCTION (R83), and a failed fetch as INSTRUCTION_FETCH_FAULT
(R88). A thread set in the middle of an access goes on with it (R294). `acquire` moves the thread set's logical clock only. -/
def Obligations.StepRunsDecoded : Prop :=
  (∀ (s s1 : State) (c k : Nat) (held : BitVec 4) (r : List Turn),
    (s.turns = .issue c :: r ∧ held = 0) ∨ s.turns = .issueHeld c held false :: r → validCore c = true →
    chooseSlot held c { s with turns := r } = some (k, s1) →
    let s2 : State := { s1 with cur := 4 * c + k }
    (s2.me.part = none →
      (∀ ws s3 i, fetchWords (s2.who s2.cur) s2.me.pc.toNat s2 = .ok (ws, s3) → decodeWords ws = .ok i →
        step s = exec i (acquire i s3)) ∧
      (∀ ws s3 e, fetchWords (s2.who s2.cur) s2.me.pc.toNat s2 = .ok (ws, s3) → decodeWords ws = .error e →
        let i : Instr := .illegalInstruction (ws.headD 0)
        step s = exec i (acquire i s3)) ∧
      (∀ f, fetchWords (s2.who s2.cur) s2.me.pc.toNat s2 = .error (.fault f) →
        step s = exec .instructionFetchFault (acquire .instructionFetchFault s2))) ∧
    (∀ p, s2.me.part = some p → step s = exec p.instr (acquire p.instr s2))) ∧
  ∀ (i : Instr) (s : State), acquire i s = s ∨ ∃ p q, acquire i s = s.setMe { s.me with pts := p, acq := q }

/-- The other turns of the schedule (log entry 2): an event is run as it is, or one element of it (R294); time passes; another
package or a channel acts (log entry 10); a core with no ready thread set has an idle clk (R144), and one that does not exist
does nothing. -/
def Obligations.StepOtherTurns : Prop :=
  (∀ (s : State) (i : Instr) (r : List Turn), s.turns = .event i :: r → step s = exec i { s with turns := r }) ∧
  (∀ (s : State) (i : Instr) (r : List Turn), s.turns = .eventPart i :: r →
    step s = unsplit (exec i { s with turns := r, split := true })) ∧
  (∀ t : State, unsplit (.next t) = .next { t with split := false }) ∧
  (∀ (s : State) (n : Nat) (r : List Turn), s.turns = .elapse n :: r →
    step s = .next (State.elapse { s with turns := r } n)) ∧
  (∀ (s : State) (n : Nat), (s.elapse n).clk = s.clk + n) ∧
  (∀ (s : State) (id : Nat) (a : PeerAct) (r : List Turn), s.turns = .peer id a :: r →
    step s = .next (peerAct id a { s with turns := r })) ∧
  (∀ (s : State) (c : Fin 144) (a : ChanAct) (r : List Turn), s.turns = .channel c a :: r →
    step s = .next (channelAct c.val a { s with turns := r })) ∧
  (∀ (s : State) (c : Nat) (held : BitVec 4) (r : List Turn), s.turns = .issueHeld c held true :: r →
    step s = unsplit (issueStep held c { s with turns := r, split := true })) ∧
  (∀ (s : State) (c : Nat) (held : BitVec 4) (r : List Turn),
    (s.turns = .issue c :: r ∧ held = 0) ∨ s.turns = .issueHeld c held false :: r →
    let s' : State := { s with turns := r }
    (validCore c = false → step s = .next s') ∧
    (validCore c = true → chooseSlot held c s' = none → step s = .next (s'.setCore c { s'.core c with idle := true })))

/-- The words fetched are the bytes of memory at the translated address, the first byte lowest, when no other value of the line
may be fetched (R89), the line holds the whole instruction, and none of its words is uncorrectable (R69, R88, R276). A
line fetched is what memory holds, or one of the values that R89 leaves open. -/
def Sys2Proof.Claims.FetchReadsMemory : Prop :=
  ∀ (w : Who) (pc : Nat) (s s1 : State) (loc : Loc), inGlobal pc = true →
    translate w .fetch pc 1 s = .ok (loc, s1) →
    let l := backing s1 (lineLoc loc) false
    let line := rawLine s1 l
    let others := otherWords w (pc / 64 * 64) (lineLoc loc) s1
    let n := lengthOfWord (BitVec.ofNat 32 (line.data / 2 ^ (8 * (pc % 64))))
    (∃ v s2, fetchLine w pc pc s = .ok (v, s2) ∧ (v.line = line ∨ v.line ∈ others)) ∧
    ((∀ x ∈ others, x.data = line.data) → pc % 64 + n ≤ 64 → poisonOf s1 l.space = [] →
      ∃ s2, fetchWords w pc s = .ok (wordsOfNat (line.data / 2 ^ (8 * (pc % 64))) (n / 4), s2))

/-- Fetching from the hole or from the local window is a protection fault at the address (R88). -/
def Sys2Proof.Claims.FetchOutsideGlobalFaults : Prop :=
  ∀ (w : Who) (pc : Nat) (s : State), 2 ^ 56 ≤ pc →
    fetchWords w pc s = .error (.fault { cls := 6, info := BitVec.ofNat 64 pc })

/-- The core keeps issuing the slot that issued last while it is ready; else, and after an idle clk, it takes the first ready slot
in the cyclic order that starts after it; its count of issues restarts at a switch, and does not count the further events
of one access (R144, R145). -/
def Obligations.SlotChoice : Prop :=
  ∀ (s : State) (c : Nat) (held : BitVec 4), (s.core c).run < 256 →
    let k := s.core c
    let stay := ready s held (4 * c + k.slot)
    let at' (i : Nat) : Bool := ready s held (4 * c + (k.slot + i) % 4)
    let n := if (s.ts (4 * c + k.slot)).part.isSome = true then 0 else 1
    let kept : Option (Nat × State) := some (k.slot, s.setCore c { k with run := k.run + n, idle := false })
    let moved (i : Nat) : Option (Nat × State) :=
      let m := if (s.ts (4 * c + (k.slot + i) % 4)).part.isSome = true then 0 else 1
      some ((k.slot + i) % 4, s.setCore c { k with slot := (k.slot + i) % 4, run := m, idle := false })
    (stay = true → k.idle = false → chooseSlot held c s = kept) ∧
    (stay = false ∨ k.idle = true →
      (at' 1 = true → chooseSlot held c s = moved 1) ∧
      (at' 1 = false → at' 2 = true → chooseSlot held c s = moved 2) ∧
      (at' 1 = false → at' 2 = false → at' 3 = true → chooseSlot held c s = moved 3) ∧
      (at' 1 = false → at' 2 = false → at' 3 = false → chooseSlot held c s = if stay = true then kept else none))

/-! ### Reset and invariants -/

/-- What a reset leaves (R401, R402): bring-up at stage 1 with no failure, not ready, no alarm, lease lengths of 4,096, 16,384
and 65,536 clk (R106), the power limit at its largest value, host service enabled on service thread set 0 of core 0 (R382), no
thread set running, no launch, no packet, and memory clear. -/
def Sys2Proof.Claims.ResetRegisters : Prop :=
  State.reset.clk = 0 ∧ State.reset.mgmt.stage = 1 ∧ State.reset.mgmt.failure = 0 ∧ State.reset.mgmt.ready = false ∧
  State.reset.mgmt.alarm = false ∧ State.reset.mgmt.leaseDie = 4096 ∧ State.reset.mgmt.leasePkg = 16384 ∧
  State.reset.mgmt.leaseFab = 65536 ∧ State.reset.mgmt.pwrlim = 4200 ∧
  (∀ d : Fin 8, State.reset.faults.dies[d] = { fsvc := 8, elogb := 0, elogn := 0 }) ∧
  (∀ t, (State.reset.ts t).status = .free) ∧ State.reset.disp.launches = [] ∧ State.reset.front.packets = [] ∧
  (∀ sp a, (memOf State.reset sp).get a = 0) ∧
  ∀ t r, (State.reset.ts t).getS r = 0 ∧ (State.reset.ts t).getV r = 0 ∧ (State.reset.ts t).fpc = 0x28 ∧
    (State.reset.ts t).fps = 0

/-- Every step keeps the canonical form of every memory of the package. -/
def Obligations.StepKeepsMemoryForm : Prop :=
  ∀ s t : State, s.memoryOk = true → step s = .next t → t.memoryOk = true

/-- The reset state has that form. -/
def Sys2Proof.Claims.ResetMemoryForm : Prop := State.reset.memoryOk = true

/-- Its management registers are legal. -/
def Sys2Proof.Claims.ResetMgmtLegal : Prop := State.reset.mgmt.legal = true

/-- Every step keeps the management registers legal: a power limit of 1,000 to 4,200, nonzero lease lengths, an aligned
queue table (R398). -/
def Obligations.StepKeepsMgmtLegal : Prop :=
  ∀ s t : State, s.mgmt.legal = true → step s = .next t → t.mgmt.legal = true

/-- `exec` ends in no refusal, and its one fault is an event that names no compute core of the package, or no thread set of one
(R1): a PREEMPT of c ≥ 2048, or a THREAD_SET_START of k ≥ 8192. Those numbers are also those of the service cores and of their
thread sets, which these events never start or save (log entry 55; NOTES.md, Stops). -/
def Obligations.ExecNeverRefuses : Prop :=
  ∀ (i : Instr) (s : State), (∃ t, exec i s = .next t) ∨
    (exec i s = .fault .noSuchAgent ∧ ((∃ k, i = .threadSetStart k ∧ 8192 ≤ k) ∨ ∃ c, i = .preempt c ∧ 2048 ≤ c))

/-! ### Registers, immediates, arithmetic -/

/-- A write of S[d] is read back, and of `s0` is discarded (R97); other registers keep their values; and the like for `p0`
and `k0`. -/
def Sys2Proof.Claims.RegisterFile : Prop :=
  ∀ (t : ThreadSet),
    (∀ (d q : Reg) (x : Word), (t.setS d x).getS q = if q = 0 then 0 else if q = d then x else t.getS q) ∧
    (∀ (d q : PReg) (x : Bool), (t.setP d x).getP q = if q = 0 then true else if q = d then x else t.getP q) ∧
    (∀ (d q : KReg) (x : BitVec 32), (t.setK d x).getK q = if q = 0 then 0xFFFFFFFF else if q = d then x else t.getK q) ∧
    (∀ (d q : Reg) (x : VWord), (t.setV d x).getV q = if q = d then x else t.getV q) ∧
    (∀ (s : State) (d : PReg) (a b : Reg),
      exec (.pcmp .eq d a b) s = ranTo s (s.me.setP d (decide (s.me.getS a = s.me.getS b))) 4) ∧
    (∀ (d : Reg) (x : Word), (t.setS d x).v = t.v ∧ (t.setS d x).p = t.p ∧ (t.setS d x).k = t.k ∧ (t.setS d x).pc = t.pc)

/-- The arithmetic and logic operations of R121, modulo 2^64; each is 4 bytes long and writes S[d] alone. -/
def Obligations.IntegerResults : Prop :=
  ∀ (s : State) (d a b : Reg),
    let x := s.me.getS a
    let y := s.me.getS b
    let n := y.toNat % 64
    exec (.add d a b) s = wroteS s d (x + y) 4 ∧
    exec (.sub d a b) s = wroteS s d (x - y) 4 ∧
    exec (.mul d a b) s = wroteS s d (x * y) 4 ∧
    exec (.mulh d a b) s = wroteS s d ((x.signExtend 128 * y.signExtend 128).extractLsb' 64 64) 4 ∧
    exec (.mulhu d a b) s = wroteS s d ((x.setWidth 128 * y.setWidth 128).extractLsb' 64 64) 4 ∧
    exec (.and d a b) s = wroteS s d (x &&& y) 4 ∧
    exec (.or d a b) s = wroteS s d (x ||| y) 4 ∧
    exec (.xor d a b) s = wroteS s d (x ^^^ y) 4 ∧
    exec (.andn d a b) s = wroteS s d (x &&& ~~~y) 4 ∧
    exec (.shl d a b) s = wroteS s d (x <<< n) 4 ∧
    exec (.shr d a b) s = wroteS s d (x >>> n) 4 ∧
    exec (.sra d a b) s = wroteS s d (x.sshiftRight n) 4 ∧
    exec (.rotr d a b) s = wroteS s d (x.rotateRight n) 4 ∧
    exec (.min d a b) s = wroteS s d (BitVec.ofInt 64 (Min.min x.toInt y.toInt)) 4 ∧
    exec (.max d a b) s = wroteS s d (BitVec.ofInt 64 (Max.max x.toInt y.toInt)) 4 ∧
    exec (.minu d a b) s = wroteS s d (BitVec.ofNat 64 (Min.min x.toNat y.toNat)) 4 ∧
    exec (.maxu d a b) s = wroteS s d (BitVec.ofNat 64 (Max.max x.toNat y.toNat)) 4

/-- `clz`, `ctz` and `popc` (R121), said by the bits of S[a]: how many there are before the first 1 from the top, before the
first 1 from the bottom, and how many are 1. -/
def Sys2Proof.Claims.BitCounts : Prop :=
  ∀ (s : State) (d a : Reg),
    let x := s.me.getS a
    (∃ n, exec (.clz d a) s = wroteS s d (BitVec.ofNat 64 n) 4 ∧ n ≤ 64 ∧ (∀ i, 64 - n ≤ i → x.getLsbD i = false) ∧
      (n < 64 → x.getLsbD (63 - n) = true)) ∧
    (∃ n, exec (.ctz d a) s = wroteS s d (BitVec.ofNat 64 n) 4 ∧ n ≤ 64 ∧ (∀ i, i < n → x.getLsbD i = false) ∧
      (n < 64 → x.getLsbD n = true)) ∧
    exec (.popc d a) s = wroteS s d (BitVec.ofNat 64 ((List.range 64).countP fun i => x.getLsbD i)) 4

/-- The extension, bit-field, selection and scaled-add operations of R123, the bit fields said bit by bit. -/
def Sys2Proof.Claims.ExtensionsAndFields : Prop :=
  ∀ (s : State) (d a b : Reg),
    let x := s.me.getS a
    let y := s.me.getS b
    let old := s.me.getS d
    let pos := y.toNat % 64
    let w := Min.min (y.toNat / 256 % 128) (64 - pos)
    exec (.sext .b d a) s = wroteS s d ((x.setWidth 8).signExtend 64) 4 ∧
    exec (.sext .h d a) s = wroteS s d ((x.setWidth 16).signExtend 64) 4 ∧
    exec (.sext .w d a) s = wroteS s d ((x.setWidth 32).signExtend 64) 4 ∧
    exec (.zext .b d a) s = wroteS s d (x &&& 0xFF) 4 ∧
    exec (.zext .h d a) s = wroteS s d (x &&& 0xFFFF) 4 ∧
    exec (.zext .w d a) s = wroteS s d (x &&& 0xFFFFFFFF) 4 ∧
    (∃ z : Word, exec (.bfx d a b) s = wroteS s d z 4 ∧
      ∀ i, z.getLsbD i = (decide (i < w) && x.getLsbD (pos + i))) ∧
    (∃ z : Word, exec (.bfi d a b) s = wroteS s d z 4 ∧
      ∀ i, i < 64 → z.getLsbD i = if pos ≤ i ∧ i < pos + w then x.getLsbD (i - pos) else old.getLsbD i) ∧
    (∀ p : PReg, exec (.sel p d a b) s = wroteS s d (if s.me.getP p = true then x else y) 4) ∧
    (∀ n : Fin 8, exec (.shadd n d a b) s = wroteS s d (x * BitVec.ofNat 64 (2 ^ n.val) + y) 4)

/-- Division by a divisor other than 0 truncates toward zero (R122): over the integers, the quotient modulo 2^64, and the
remainder with the sign of the dividend. -/
def Sys2Proof.Claims.DivisionResults : Prop :=
  ∀ (s : State) (d a b : Reg), s.me.getS b ≠ 0 →
    let x := s.me.getS a
    let y := s.me.getS b
    exec (.div d a b) s = wroteS s d (BitVec.ofInt 64 (x.toInt.tdiv y.toInt)) 4 ∧
    exec (.rem d a b) s = wroteS s d (BitVec.ofInt 64 (x.toInt.tmod y.toInt)) 4 ∧
    exec (.divu d a b) s = wroteS s d (BitVec.ofNat 64 (x.toNat / y.toNat)) 4 ∧
    exec (.remu d a b) s = wroteS s d (BitVec.ofNat 64 (x.toNat % y.toNat)) 4

/-- A divisor of 0 posts a divide-by-zero fault (class 2) with the dividend, even when d is `s0` (R122): S[d] is not
written, and the pc stays (R138). -/
def Sys2Proof.Claims.DivisionByZero : Prop :=
  ∀ (s : State) (d a b : Reg), s.me.getS b = 0 →
    ∀ i ∈ [Instr.div d a b, .divu d a b, .rem d a b, .remu d a b],
      exec i s = posted i { cls := 2, info := s.me.getS a } s ∧
      (isService (coreOf s.cur) = false → nextWith (exec i s) fun t => t.me.s = s.me.s ∧ t.me.pc = s.me.pc)

/-- The immediate forms (R124): majors 2 to 5 in format I; `S[d] <- S[a] op imm`, the immediate sign-extended, or the
literal. -/
def Sys2Proof.Claims.ImmediateForms : Prop :=
  (∀ (i : BitVec 14) (d a : Reg),
    encode (.addi d a (.short i)) = [packI i (bv5 a) (bv5 d) 2 0] ∧ encode (.andi d a (.short i)) = [packI i (bv5 a) (bv5 d) 3 0] ∧
    encode (.ori d a (.short i)) = [packI i (bv5 a) (bv5 d) 4 0] ∧ encode (.xori d a (.short i)) = [packI i (bv5 a) (bv5 d) 5 0]) ∧
  (∀ (s : State) (d a : Reg) (i : BitVec 14),
    let x := s.me.getS a
    exec (.addi d a (.short i)) s = wroteS s d (x + i.signExtend 64) 4 ∧
    exec (.andi d a (.short i)) s = wroteS s d (x &&& i.signExtend 64) 4 ∧
    exec (.ori d a (.short i)) s = wroteS s d (x ||| i.signExtend 64) 4 ∧
    exec (.xori d a (.short i)) s = wroteS s d (x ^^^ i.signExtend 64) 4) ∧
  (∀ (s : State) (d a : Reg) (v : Word),
    let x := s.me.getS a
    exec (.addi d a (.lit v)) s = wroteS s d (x + v) 12 ∧
    exec (.andi d a (.lit v)) s = wroteS s d (x &&& v) 12 ∧
    exec (.ori d a (.lit v)) s = wroteS s d (x ||| v) 12 ∧
    exec (.xori d a (.lit v)) s = wroteS s d (x ^^^ v) 12) ∧
  ∀ (s : State) (d a : Reg), exec (.andi d a (.short (-64))) s = wroteS s d (s.me.getS a >>> 6 <<< 6) 4

/-- Immediate shifts, `li`, `addpc` and `addcb` (R125, R126, R86). -/
def Sys2Proof.Claims.ShiftAndAddressForms : Prop :=
  ∀ (s : State) (d a : Reg) (n : Fin 64) (i : BitVec 19) (v : Word),
    exec (.shli d a n) s = wroteS s d (s.me.getS a <<< n.val) 4 ∧
    exec (.shri d a n) s = wroteS s d (s.me.getS a >>> n.val) 4 ∧
    exec (.srai d a n) s = wroteS s d ((s.me.getS a).sshiftRight n.val) 4 ∧
    exec (.li d (.short i)) s = wroteS s d (i.signExtend 64) 4 ∧
    exec (.li d (.lit v)) s = wroteS s d v 12 ∧
    exec (.addpc d (.short i)) s = wroteS s d (s.me.pc + i.signExtend 64) 4 ∧
    exec (.addpc d (.lit v)) s = wroteS s d (s.me.pc + v) 12 ∧
    exec (.addcb d (.short i)) s = wroteS s d (s.me.cb + i.signExtend 64) 4 ∧
    exec (.addcb d (.lit v)) s = wroteS s d (s.me.cb + v) 12

/-- The comparisons (R127) with the six conditions of R82, over signed and unsigned values, and `plog` (R128). -/
def Obligations.ComparisonsAndPredicates : Prop :=
  ∀ (s : State) (c : Cond) (f : LogFn) (d a b : Reg) (pd pa pb : PReg),
    let x := s.me.getS a
    let y := s.me.getS b
    let holds : Bool := match c with
      | .eq => decide (x = y)
      | .ne => decide (x ≠ y)
      | .lt => decide (x.toInt < y.toInt)
      | .ge => decide (y.toInt ≤ x.toInt)
      | .ltu => decide (x.toNat < y.toNat)
      | .geu => decide (y.toNat ≤ x.toNat)
    let u := s.me.getP pa
    let v := s.me.getP pb
    exec (.cmp c d a b) s = wroteS s d (if holds = true then 1 else 0) 4 ∧
    exec (.pcmp c pd a b) s = ranTo s (s.me.setP pd holds) 4 ∧
    exec (.plog f pd pa pb) s = ranTo s (s.me.setP pd (match f with
      | .and => u && v
      | .or => u || v
      | .xor => xor u v
      | .andn => u && !v
      | .not => !u
      | .mov => u)) 4

/-- What a scalar operation leaves unchanged: every register but S[d] and the pc, and every flag; every other thread set,
every byte of every memory, and all the rest of the package. -/
def Obligations.ScalarFrame : Prop :=
  ∀ (i : Instr) (d : Reg) (s t : State), scalarDest i = some d → exec i s = .next t →
    (∀ q, q ≠ d → t.me.getS q = s.me.getS q) ∧ t.me.v = s.me.v ∧ t.me.p = s.me.p ∧ t.me.k = s.me.k ∧ t.me.fps = s.me.fps ∧
    specialsKept s.me t.me ∧ t.me.status = s.me.status ∧ othersKept s t ∧ sameMemory s t ∧ onlyMe s t

/-- A scalar operation to `s0` takes its full effect but for the write (R97): only the pc moves. -/
def Sys2Proof.Claims.ScalarToZeroRegister : Prop :=
  ∀ (i : Instr) (s : State), scalarDest i = some 0 → exec i s = .next (s.advance i.len)

/-! ### Control flow -/

/-- The compare-branches (R129): taken, the pc becomes PC plus the offset times 4, or plus the literal; not taken, it moves
past the instruction. -/
def Sys2Proof.Claims.CompareBranches : Prop :=
  ∀ (s : State) (a b : Reg) (off : Imm 11),
    let x := s.me.getS a
    let y := s.me.getS b
    let dest := match off with | .short i => s.me.pc + i.signExtend 64 * 4 | .lit v => s.me.pc + v
    let len := match off with | .short _ => 4 | .lit _ => 12
    let go (p : Prop) (o : Out) : Prop :=
      (p → o = .next (s.setMe (s.me.setPc dest))) ∧ (¬p → o = ranTo s s.me len)
    go (x = y) (exec (.beq a b off) s) ∧
    go (x ≠ y) (exec (.bne a b off) s) ∧
    go (x.toInt < y.toInt) (exec (.blt a b off) s) ∧
    go (y.toInt ≤ x.toInt) (exec (.bge a b off) s) ∧
    go (x.toNat < y.toNat) (exec (.bltu a b off) s) ∧
    go (y.toNat ≤ x.toNat) (exec (.bgeu a b off) s)

/-- `bp` (R130): taken when P[p] XOR negate is 1; `bp.n p0` never branches. -/
def Obligations.PredicateBranch : Prop :=
  ∀ (s : State) (neg : Bool) (p : PReg) (i : BitVec 20) (v : Word),
    encode (.bp neg p (.short i)) = [packBP i (bitOf neg) (bv3 p) 0x0E 0] ∧
    exec (.bp neg p (.short i)) s = (if xor (s.me.getP p) neg = true then .next (s.setMe (s.me.setPc (s.me.pc + i.signExtend 64 * 4)))
      else ranTo s s.me 4) ∧
    exec (.bp neg p (.lit v)) s = (if xor (s.me.getP p) neg = true then .next (s.setMe (s.me.setPc (s.me.pc + v)))
      else ranTo s s.me 12) ∧
    exec (.bp true 0 (.short i)) s = ranTo s s.me 4 ∧ exec (.bp true 0 (.lit v)) s = ranTo s s.me 12 ∧
    (encode (.bp true 0 (.lit v))).length = 3

/-- `j` and `jal` (R131): NPC is PC plus the offset, and `jal` first links PC plus its length in `s31`; a literal offset that
is not a multiple of 4 is illegal. -/
def Obligations.Jumps : Prop :=
  (∀ (s : State) (i : BitVec 24) (v : Word),
    let dest := s.me.pc + i.signExtend 64 * 4
    encode (.j (.short i)) = [packJ i 0x0F 0] ∧ encode (.jal (.short i)) = [packJ i 0x10 0] ∧
    exec (.j (.short i)) s = .next (s.setMe (s.me.setPc dest)) ∧
    exec (.j (.lit v)) s = .next (s.setMe (s.me.setPc (s.me.pc + v))) ∧
    exec (.jal (.short i)) s = .next (s.setMe ((s.me.setS 31 (s.me.pc + 4)).setPc dest)) ∧
    exec (.jal (.lit v)) s = .next (s.setMe ((s.me.setS 31 (s.me.pc + 12)).setPc (s.me.pc + v)))) ∧
  ∀ v : Word, v.extractLsb' 0 2 ≠ 0 →
    (Instr.j (.lit v)).wf = false ∧ (Instr.jal (.lit v)).wf = false ∧
    ∀ rest i, decodeWords (0x3D :: v.extractLsb' 0 32 :: v.extractLsb' 32 32 :: rest) ≠ .ok i ∧
      decodeWords (0x41 :: v.extractLsb' 0 32 :: v.extractLsb' 32 32 :: rest) ≠ .ok i

/-- `jr` and `jalr` to a multiple of 4 (R132): the target is read before the link is written; `jalr` links PC + 4. -/
def Sys2Proof.Claims.RegisterJumps : Prop :=
  ∀ (s : State) (d a : Reg), (s.me.getS a).extractLsb' 0 2 = 0 →
    exec (.jr a) s = .next (s.setMe (s.me.setPc (s.me.getS a))) ∧
    exec (.jalr d a) s = .next (s.setMe ((s.me.setS d (s.me.pc + 4)).setPc (s.me.getS a)))

/-- A target that is not a multiple of 4 (R87): an illegal-instruction fault at the jump itself, no link, no transfer. -/
def Obligations.MisalignedJump : Prop :=
  (∀ (s : State) (d a : Reg), (s.me.getS a).extractLsb' 0 2 ≠ 0 →
    exec (.jr a) s = posted (.jr a) { cls := 1 } s ∧ exec (.jalr d a) s = posted (.jalr d a) { cls := 1 } s ∧
    (isService (coreOf s.cur) = false → ∀ i ∈ [Instr.jr a, .jalr d a],
      nextWith (exec i s) fun t => t.me.pc = s.me.pc ∧ t.me.s = s.me.s ∧ ∃ h, t.me.status = .waitReply h)) ∧
  decodesAs [0x01094B48] (.ld .w .norm 11 10 (.short 2)) ∧ decodesAs [0xFFA41934] (.bne 3 4 (.short (-3)))

/-! ### System instructions -/

/-- `mfsr` of the special registers that every thread set reads (R99 to R109). An access of `fps` waits while an earlier `vst` or
`vstx` of the thread set may still set a flag (R104). -/
def Sys2Proof.Claims.SpecialRegisterReads : Prop :=
  ∀ (s : State) (d : Reg),
    let rd (n : BitVec 8) (x : Word) : Prop := exec (.mfsr d n) s = wroteS s d x 4
    let c := s.cur / 4
    let t := s.me
    rd 0x00 (BitVec.ofNat 64 (s.cur % 4 * 65536 + (if t.element = true then s.cur % 8192 else t.index % 65536))) ∧
    rd 0x01 (BitVec.ofNat 64 (c % 4096)) ∧
    rd 0x02 (BitVec.ofNat 64 (c / 256 % 8 * 16 + (if 2048 ≤ c ∧ c < 4096 then 0 else c / 16 % 16))) ∧
    rd 0x03 (BitVec.ofNat 64 (c / 256 % 8)) ∧
    rd 0x04 (BitVec.ofNat 64 (s.mgmt.incarnation.toNat * 256 + s.mgmt.peerId.toNat)) ∧
    rd 0x05 t.launchid ∧
    rd 0x06 (BitVec.ofNat 64 s.clk) ∧
    rd 0x08 (t.fpc.setWidth 64) ∧
    (flagsToCome s s.cur = false → rd 0x09 (t.fps.setWidth 64)) ∧
    (flagsToCome s s.cur = true → exec (.mfsr d 0x09) s = .next s) ∧
    rd 0x0B (BitVec.ofNat 64 (s.mgmt.leaseDie.toNat + 2 ^ 20 * s.mgmt.leasePkg.toNat + 2 ^ 40 * s.mgmt.leaseFab.toNat)) ∧
    rd 0x10 t.eid ∧ rd 0x11 t.targ ∧ rd 0x14 t.gs[0] ∧ rd 0x15 t.gs[1] ∧ rd 0x16 t.gs[2] ∧ rd 0x17 t.gs[3] ∧
    rd 0x18 t.cb ∧ rd 0x19 0xFF00000000000000 ∧
    (∀ i : Fin 8, rd (0x20 + BitVec.ofNat 8 i.val) (s.core c).smap[i]) ∧
    rd 0x0A (BitVec.ofNat 64 ((s.core c).mq.length + 16 * (if (s.core c).mq.isEmpty = true then 0 else 1) +
      256 * (if narrowed s (s.core c) = true then 1 else 0)))

/-- The registers of a service core (R382, R460): a thread set of one reads and writes them, and any other thread set's
access is an illegal instruction. -/
def Sys2Proof.Claims.ServiceRegisters : Prop :=
  ∀ (s : State) (d a : Reg),
    let c := coreOf s.cur
    let v := s.dieSvc (dieOfCore c)
    let x := s.me.getS a
    (isService c = true →
      exec (.mfsr d 0x40) s = wroteS s d (v.fsvc.setWidth 64) 4 ∧ exec (.mfsr d 0x41) s = wroteS s d v.elogb 4 ∧
      exec (.mfsr d 0x42) s = wroteS s d v.elogn 4 ∧ exec (.mfsr d 0x43) s = wroteS s d ((s.faults.xfla.get? c).getD 0) 4 ∧
      exec (.mfsr d 0x45) s = wroteS s d s.fab.fmapb 4 ∧ exec (.mfsr d 0x46) s = wroteS s d s.fab.fimpb 4 ∧
      exec (.mfsr d 0x47) s = wroteS s d s.fab.fimpn 4 ∧
      (nextWith (exec (.mtsr a 0x40) s) fun t => t.dieSvc (dieOfCore c) = { v with fsvc := x.setWidth 4 }) ∧
      (nextWith (exec (.mtsr a 0x41) s) fun t => t.dieSvc (dieOfCore c) = { v with elogb := x }) ∧
      (nextWith (exec (.mtsr a 0x43) s) fun t => t.faults.xfla.get? c = some x) ∧
      (nextWith (exec (.mtsr a 0x45) s) fun t => t.fab = { s.fab with fmapb := x }) ∧
      (nextWith (exec (.mtsr a 0x46) s) fun t => t.fab = { s.fab with fimpb := x }) ∧
      (nextWith (exec (.mtsr a 0x47) s) fun t => t.fab = { s.fab with fimpn := x })) ∧
    (isService c = false →
      (∀ n ∈ [0x40#8, 0x41, 0x42, 0x43, 0x45, 0x46, 0x47], exec (.mfsr d n) s = posted (.mfsr d n) { cls := 1 } s) ∧
      ∀ n ∈ [0x40#8, 0x41, 0x43, 0x44, 0x45, 0x46, 0x47], exec (.mtsr a n) s = posted (.mtsr a n) { cls := 1 } s)

/-- `mtsr` of `fpc` and `fps` replaces the register's field bits and ignores the bits that read as 0 (R103, R104), of
`fps` once no earlier flag is to come; a write
of `xfln` starts a flush of the pages that `xfla` names, and its thread set waits (R382). -/
def Sys2Proof.Claims.SpecialRegisterWrites : Prop :=
  ∀ (s : State) (a : Reg),
    let x := s.me.getS a
    exec (.mtsr a 0x08) s = ranTo s (s.me.setFpc (x.setWidth 8)) 4 ∧
    (flagsToCome s s.cur = false → exec (.mtsr a 0x09) s = ranTo s (s.me.setFps (x.setWidth 6)) 4) ∧
    (flagsToCome s s.cur = true → exec (.mtsr a 0x09) s = .next s) ∧
    (isService (coreOf s.cur) = true →
      nextWith (exec (.mtsr a 0x44) s) fun t => t.me.status = .waitFlush ∧ t.me.pc = s.me.pc + 4 ∧
        ∃ f : Flush, t.msys.flushes = s.msys.flushes ++ [f] ∧ f.pages = x.toNat ∧ f.ts = some s.cur ∧
          BitVec.ofNat 64 (f.start * 65536 + f.asid) = (s.faults.xfla.get? (coreOf s.cur)).getD 0)

/-- `nop`, `yield`, `trap` and `brk` (R117 to R119): no effect but the pc; the offer of the slot; a posted trap (class 3) with
the code and S[a]; a halt for an attached debugger with breakpoints on, and else a posted breakpoint (class 4). -/
def Obligations.SystemInstructions : Prop :=
  ∀ (s : State) (d a : Reg) (code : BitVec 8),
    exec .nop s = ranTo s s.me 4 ∧
    (nextWith (exec .yield s) fun t => t.me = s.me.past 4 ∧ othersKept s t ∧ (t.core (coreOf s.cur)).run = 256 ∧
      (t.core (coreOf s.cur)).slot = (s.core (coreOf s.cur)).slot ∧ sameMemory s t) ∧
    exec (.trap d a code) s = posted (.trap d a code) { cls := 3, detail := code.toNat, info := s.me.getS a } s ∧
    (∀ l, s.launchOf s.cur = some l → l.attached = true → l.breakpoints = true →
      exec (.brk code) s = ranTo s { s.me with halted := true } 4) ∧
    ((∀ l, s.launchOf s.cur = some l → l.attached = false ∨ l.breakpoints = false) →
      exec (.brk code) s = posted (.brk code) { cls := 4, detail := code.toNat } s)

/-! ### Faults and replies -/

/-- The rider of a vector destination of a type (R56, R58, R151), where the lanes that `on` names are written, with the new lost
flags `flg`: for 8-bit lanes `rider8`; for 16-bit lanes a pair's bit is the OR of its new flags, and of its old bit where a
lane of it keeps its value; for wider lanes the new flag, or the old bit of a lane that keeps its value. -/
def Sys2Proof.Claims.riderWritten (x y : ThreadSet) (d : Reg) (et : ElemTy) (on flg : Nat → Bool) (rider8 : BitVec 8) : Prop :=
  let r := vRider (y.getV d)
  let o := vRider (x.getV d)
  (et.width = 8 → r = rider8) ∧
  (et.width = 16 → ∀ i, i < 8 → r.getLsbD i = ((on (2 * i) && flg (2 * i)) || (on (2 * i + 1) && flg (2 * i + 1)) ||
    (!(on (2 * i) && on (2 * i + 1)) && o.getLsbD i))) ∧
  (16 < et.width → ∀ j, j < et.lanes → r.getLsbD j = if on j = true then flg j else o.getLsbD j)

/-- What a posted fault does (R138, R139, R274, R371): the thread set's folds are placed, and it waits for the reply to a new
handle, with its registers and its pc as they were; the fault is outstanding under that handle; no other thread set
changes, and without a fold no byte of memory. -/
def Sys2Proof.Claims.PostedFault : Prop :=
  ∀ (i : Instr) (f : FaultInfo) (s : State), isService (coreOf s.cur) = false → s.cur < 16384 →
    let s' := placeFolds s s.cur 6
    let t := postFault i f s
    let h : BitVec 32 := s.me.faultSeq ++ BitVec.ofNat 16 (s.cur % 8192)
    (∃ p, s'.me = { s.me with pts := p }) ∧
    t.me = { s'.me with status := .waitReply h.toNat, faultSeq := s.me.faultSeq + 1, part := none } ∧ othersKept s t ∧
    ((s.core (coreOf s.cur)).folds = [] → s' = s ∧ sameMemory s t) ∧
    ∃ r : FaultRec, t.faults.recs = s.faults.recs ++ [r] ∧ r.handle = h ∧ r.ts = s.cur ∧ r.launch = s.me.launch ∧ r.source = 0 ∧
      r.cls = f.cls ∧ r.detail = f.detail ∧ r.instr = i ∧ r.len = lengthOf i ∧ r.posted = false ∧ r.held = none ∧
      r.msg = faultMsg s s.cur 0 f i s.me.pc h

/-- The fields of a fault message (R367 to R369, R371), which is the one that `PostedFault` and the posts of engines carry. A saved thread set has the coreid of the core it was taken from. -/
def Obligations.FaultMessageFields : Prop :=
  ∀ (s : State) (t source : Nat) (f : FaultInfo) (i : Instr) (pc : Word) (h : BitVec 32),
    f.cls < 256 → f.detail < 256 → source < 256 →
    let m := faultMsg s t source f i pc h
    let x := s.ts t
    m.extractLsb' 0 8 = BitVec.ofNat 8 f.cls ∧ m.extractLsb' 8 8 = BitVec.ofNat 8 f.detail ∧
    m.getLsbD 16 = false ∧ m.getLsbD 17 = f.malformed ∧ m.getLsbD 18 = f.unsupported ∧ m.getLsbD 19 = f.write ∧
    m.extractLsb' 20 4 = 0 ∧ m.extractLsb' 24 8 = BitVec.ofNat 8 source ∧
    m.extractLsb' 32 32 = (if x.element = true then x.eid.setWidth 32 else 0) ∧
    m.extractLsb' 64 64 = pc ∧ m.extractLsb' 128 32 = firstWord i ∧ m.extractLsb' 160 32 = BitVec.ofNat 32 (lengthOf i) ∧
    m.extractLsb' 192 64 = f.info ∧ m.extractLsb' 256 64 = f.aux ∧ m.extractLsb' 320 64 = tsidOf s t ∧
    m.extractLsb' 384 64 = x.launchid ∧ m.extractLsb' 448 32 = h ∧ m.extractLsb' 480 32 = BitVec.ofNat 32 (coreOf t % 4096)

/-- A service core that faults halts with its four thread sets, and management says so and sends an interrupt (R370, R430);
no fault is outstanding for it. -/
def Sys2Proof.Claims.ServiceCoreFault : Prop :=
  ∀ (i : Instr) (f : FaultInfo) (s : State), isService (coreOf s.cur) = true →
    let t := postFault i f s
    t.mgmt = { s.mgmt with svcHalt := true, interrupts := s.mgmt.interrupts + 1 } ∧
    t.faults.deadSvc = coreOf s.cur :: s.faults.deadSvc ∧ t.faults.recs = s.faults.recs ∧
    (∀ k < 4, (t.ts (4 * coreOf s.cur + k)).halted = true) ∧ sameMemory s t

/-- A thread set that is no fault service: `fget` and `freply` are illegal instructions (R374). -/
def Sys2Proof.Claims.ServiceOnly : Prop :=
  ∀ (s : State) (d a b : Reg), isServiceTs s s.cur = false → isHandlerTs s s.cur = false →
    exec (.fget d) s = posted (.fget d) { cls := 1 } s ∧ exec (.freply d a b) s = posted (.freply d a b) { cls := 1 } s

/-- `fget` takes the oldest message of the face into V[d] and V[d+1], riders 0, and waits while the face is empty (R375). What its
thread set does next follows the post of that message (R307). -/
def Sys2Proof.Claims.FgetTakesOldest : Prop :=
  ∀ (s : State) (d : Reg), isServiceTs s s.cur = true ∨ isHandlerTs s s.cur = true →
    (∀ m r, s.me.qf = m :: r → nextWith (exec (.fget d) s) fun t =>
      t.me.getV d = 0#8 ++ m.extractLsb' 0 256 ∧ t.me.getV (d + 1) = 0#8 ++ m.extractLsb' 256 256 ∧ t.me.qf = r ∧
      t.me.pts = Max.max s.me.pts (s.me.qfPts.headD 0) ∧ t.me.qfPts = s.me.qfPts.drop 1 ∧
      (∀ q, q ≠ d → q ≠ d + 1 → t.me.getV q = s.me.getV q) ∧ t.me.s = s.me.s ∧ t.me.pc = s.me.pc + 4 ∧ onlyMe s t) ∧
    (s.me.qf = [] → exec (.fget d) s = .next (s.setMe { s.me with status := .waitQueue (.fget d) }))

/-- `freply` (R377) places its folds and waits while one of them, or an earlier access, waits for a link; with nonzero bits [47:34]
it writes 2, and with a handle that is not outstanding for it 1; nothing else but its folds happens. -/
def Sys2Proof.Claims.FreplyRefused : Prop :=
  ∀ (s : State) (d a b : Reg), isServiceTs s s.cur = true ∨ isHandlerTs s s.cur = true →
    let w := s.me.getS a
    let s' := placeFolds s s.cur 6
    (waitsForPeer s' s.cur = true → exec (.freply d a b) s = .next s') ∧
    (waitsForPeer s' s.cur = false → w.extractLsb' 34 14 ≠ 0 → exec (.freply d a b) s = wroteS s' d 2 4) ∧
    (waitsForPeer s' s.cur = false → w.extractLsb' 34 14 = 0 → answerable s' s.cur (w.setWidth 32) = none →
      exec (.freply d a b) s = wroteS s' d 1 4)

/-- What a thread set holds after SKIP with value x (R140, R258, R353, R484), whose instruction was i: the destination of a division,
a trap, a scalar load, an atomic, a ring access, a `barv`, or the token of a refused spawn or command receives x, the second
register of a pair 0; the
lanes that a vector load would write receive the low bits of x, with the rider of such a load; a store writes nothing. -/
def Sys2Proof.Claims.skipped (i : Instr) (x : Word) (u t : ThreadSet) : Prop :=
  let one (d : Reg) : Prop := t.s = (u.setS d x).s ∧ t.v = u.v
  let two (d : Reg) : Prop := t.s = ((u.setS d x).setS (d + 1) 0).s ∧ t.v = u.v
  let lanes (d : Reg) (k : KReg) (et : ElemTy) : Prop := t.s = u.s ∧ (∀ q, q ≠ d → t.getV q = u.getV q) ∧
    (∀ j, j < et.lanes → laneOf (t.getV d) et.width j =
      if active (u.getK k) j = true then x.toNat % 2 ^ et.width else laneOf (u.getV d) et.width j) ∧
    Sys2Proof.Claims.riderWritten u t d et (active (u.getK k)) (fun _ => false) 127
  match i with
  | .div d _ _ | .divu d _ _ | .rem d _ _ | .remu d _ _ | .trap d _ _ => one d
  | .ld .q _ d _ _ => two d
  | .ld _ _ d _ _ => one d
  | .amo _ _ _ d _ _ _ | .cas _ _ d _ _ _ _ | .cwait d _ _ | .racq d _ _ | .rrel d _ _ | .rpeek d _ _ | .spawn _ d _ _
  | .barv _ d => one d
  | .cas2 _ d _ _ _ _ => two d
  | .vld .b _ d _ _ => lanes d 0 .u8
  | .vld .s8 _ d _ _ => lanes d 0 .u8
  | .vld .h _ d _ _ => lanes d 0 .u16
  | .vld .w _ d _ _ => lanes d 0 .u32
  | .vld .d _ d _ _ => lanes d 0 .u64
  | .vlds _ k et _ d _ _ _ | .vldx _ k et _ _ d _ _ _ | .vldb _ k et _ d _ _ => lanes d k et
  | .mwld _ _ _ d _ | .mdrain _ _ _ _ _ _ d _ _ _ _ | .mstat _ d _ | .cpy _ d _ _ _ | .cpy2d _ d _ _ _
  | .cpyRs _ d _ _ _ | .cpyRd _ d _ _ _ | .cpyr _ _ _ d _ _ _ | .get _ _ _ d _ _ _ | .put _ _ _ d _ _ _
  | .stwb _ d _ _ | .stinv _ d _ _ | .pub _ d _ | .coll _ _ _ _ _ _ _ d _ _ _ _ => one d
  | .st .. | .vst .. | .vstx .. | .amof .. | .pf .. | .cwb .. => t.s = u.s ∧ t.v = u.v
  | _ => True

/-- The replies to a thread set's own fault, delivered by `freply` (R140, R258, R484): RESUME executes the instruction again, and
continues after a trap or a breakpoint; SKIP continues after the instruction, and writes what `skipped` says (of an illegal
instruction, of a breakpoint and of the wait of a broken phase, nothing). `freply` writes 0. What the answered thread set does
next follows the reply (R307). ABORT (R378): a thread set with nothing outstanding is free at once, retired and lost in its
groups, and its launch records status 1 with the code. KILL (R379): every thread set of the launch is free or ending, and the
launch has status 2 or higher and no pending task, or is released, its packet complete. -/
def Sys2Proof.Claims.FreplyDelivers : Prop :=
  ∀ (s : State) (d a b : Reg) (r : FaultRec), isServiceTs s s.cur = true ∨ isHandlerTs s s.cur = true →
    let w := s.me.getS a
    let x := s.me.getS b
    let s' := placeFolds s s.cur 6
    let u := s.ts r.ts
    waitsForPeer s' s.cur = false → w.extractLsb' 34 14 = 0 → answerable s' s.cur (w.setWidth 32) = some r →
    r.source = 0 → r.dest = none → r.late = none → r.ts ≠ s.cur → coreOf r.ts < 4096 →
    (w.extractLsb' 32 2 = 0 → nextWith (exec (.freply d a b) s) fun t =>
      t.me = (s'.me.setS d 0).past 4 ∧
      (let n := if r.cls = 3 ∨ r.cls = 4 then r.len else 0
       t.ts r.ts = { u.past n with status := .running, pts := Max.max u.pts s'.me.pts }) ∧
      t.faults.recs = s'.faults.recs.filter fun q => q.handle != r.handle) ∧
    (w.extractLsb' 32 2 = 1 → nextWith (exec (.freply d a b) s) fun t =>
      t.me = (s'.me.setS d 0).past 4 ∧ (t.ts r.ts).status = .running ∧
      (t.ts r.ts).pc = u.pc + BitVec.ofNat 64 r.len ∧ (t.ts r.ts).p = u.p ∧ (t.ts r.ts).k = u.k ∧
      (if r.cls = 1 ∨ r.cls = 4 ∨ (r.cls = 12 ∧ r.detail = 3) then (t.ts r.ts).s = u.s ∧ (t.ts r.ts).v = u.v
       else Sys2Proof.Claims.skipped r.instr x u (t.ts r.ts))) ∧
    (w.extractLsb' 32 2 = 2 → hasCommands s' r.ts = false → hasSpawns s' r.ts = false → waitsForPeer s' r.ts = false →
      (s'.core (coreOf r.ts)).folds = [] → s'.fab.heldFolds = [] →
      ∀ l, s.launch? u.launch = some l → l.killed = false → l.element = false → u.element = false →
        (∃ i, i < l.count ∧ i ≠ u.index ∧ i ∉ l.retired) →
      nextWith (exec (.freply d a b) s) fun t => t.ts r.ts = { faultSeq := u.faultSeq } ∧
        ∃ l', t.launch? u.launch = some l' ∧ l'.retired = u.index :: l.retired ∧ l'.status = Max.max l.status 1 ∧
          (l.status = 0 → l'.code2 = (w.extractLsb' 48 16).toNat) ∧
          ∀ g ∈ l'.groups, ∀ k, g.rank? u.index = some k → k ∈ g.lost) ∧
    (w.extractLsb' 32 2 = 3 → ∀ l, s.launch? r.launch = some l → nextWith (exec (.freply d a b) s) fun t =>
      (∀ j, (s.ts j).launch = r.launch → (t.ts j).status = .free ∨ ∃ c, (t.ts j).status = .ending c) ∧
      ((∃ l', t.launch? r.launch = some l' ∧ 2 ≤ l'.status ∧ l'.pending = [] ∧ l'.round = none ∧ l'.claims = []) ∨
        (t.launch? r.launch = none ∧
          ∃ p ∈ t.front.packets, p.launch = some r.launch ∧ p.ready = true ∧ 2 ≤ p.status ∧ p.completion = l.completion)))

/-! ### Guarded instructions -/

/-- An X instruction whose predicate P[p] XOR pn is 0 takes its issue slot and has no effect but the pc (R74). -/
def Obligations.FalsePredicate : Prop :=
  ∀ (i : Instr) (g : Guard) (s : State), guardOf i = some g → s.me.getP g.p = g.pn → exec i s = .next (s.advance i.len)

/-! ### Queues -/

/-- `qput` and `qget` (R134): a push appends all 264 bits while `qa` holds fewer than 16 entries, a pop takes the oldest; else
the thread set waits and nothing has happened. -/
def Sys2Proof.Claims.QueuePutGet : Prop :=
  ∀ (s : State) (r : Reg),
    (s.me.qa.length < 16 → exec (.qput r) s =
      ranTo s { s.me.setQa (s.me.qa ++ [s.me.getV r]) with status := .running } 4) ∧
    (16 ≤ s.me.qa.length → exec (.qput r) s = .next (s.setMe { s.me with status := .waitQueue (.qput r) })) ∧
    (∀ x q, s.me.qr = x :: q → exec (.qgetQr r) s = ranTo s { (s.me.setV r x).setQr q with status := .running } 4) ∧
    (s.me.qr = [] → exec (.qgetQr r) s = .next (s.setMe { s.me with status := .waitQueue (.qgetQr r) })) ∧
    (∀ x q, s.me.qn = x :: q → nextWith (exec (.qgetQn r) s) fun t => t.me.getS r = (if r = 0 then 0 else x) ∧
      t.me.qn = q ++ s.me.qnRest.take 1 ∧ t.me.qnRest = s.me.qnRest.drop 1 ∧ t.me.pc = s.me.pc + 4 ∧ onlyMe s t) ∧
    (s.me.qn = [] → nextWith (exec (.qgetQn r) s) fun t => t.me.getS r = (if r = 0 then 0 else 0xFFFFFFFFFFFFFFFF) ∧
      t.me.qn = [] ∧ t.me.pc = s.me.pc + 4 ∧ onlyMe s t)

/-- `qtry` never blocks (R135): it does what the `qput` or `qget` of its queue does, if that can complete at once, and writes 1
to P[b], or changes nothing and writes 0; of `qf` it only says whether a message waits. -/
def Sys2Proof.Claims.QueueTry : Prop :=
  ∀ (s : State) (b : PReg) (r : Reg),
    (s.me.qa.length < 16 → exec (.qtryQa b r) s = ranTo s ((s.me.setQa (s.me.qa ++ [s.me.getV r])).setP b true) 4) ∧
    (16 ≤ s.me.qa.length → exec (.qtryQa b r) s = ranTo s (s.me.setP b false) 4) ∧
    (∀ x q, s.me.qr = x :: q → exec (.qtryQr b r) s = ranTo s (((s.me.setV r x).setQr q).setP b true) 4) ∧
    (s.me.qr = [] → exec (.qtryQr b r) s = ranTo s (s.me.setP b false) 4) ∧
    (s.me.qn = [] → exec (.qtryQn b r) s = ranTo s ((s.me.setS r 0xFFFFFFFFFFFFFFFF).setP b true) 4) ∧
    (∀ x q, s.me.qn = x :: q → nextWith (exec (.qtryQn b r) s) fun t => othersKept s t ∧ sameMemory s t ∧
      (t.me = (((s.me.setQn (q ++ s.me.qnRest.take 1) (s.me.qnRest.drop 1)).setS r x).setP b true).past 4 ∨
       t.me = (s.me.setP b false).past 4)) ∧
    exec (.qtryQf b) s = ranTo s (s.me.setP b (decide (s.me.qf ≠ []))) 4

/-! ### Tasks -/

/-- `spawn` (R352, R353): outside an element task it is illegal; an element outside the launch or a position without a kernel
is a dispatch fault (class 14); else the request leaves with its argument, and S[d] is pending. -/
def Sys2Proof.Claims.SpawnRequests : Prop :=
  ∀ (s : State) (l : Launch) (n : Fin 4) (d a b : Reg), s.launchOf s.cur = some l →
    let v := s.me.getS a
    let inside : Prop := match l.graph with
      | some g => v.toNat < g.count
      | none => l.ebase ≤ v.toNat ∧ v.toNat < l.ebase + l.count
    let i : Instr := .spawn n d a b
    (s.me.element = false → exec i s = posted i { cls := 1 } s) ∧
    (s.me.element = true → ¬inside →
      exec i s = posted i { cls := 14, detail := 1, info := v, aux := BitVec.ofNat 64 n.val } s) ∧
    (s.me.element = true → inside → l.kernels.length ≤ n.val →
      exec i s = posted i { cls := 14, detail := 2, info := v, aux := BitVec.ofNat 64 n.val } s) ∧
    (s.me.element = true → inside → n.val < l.kernels.length →
      nextWith (exec i s) fun t => t.me = (s.me.pend d).past 4 ∧ othersKept s t ∧ sameMemory s t ∧
        t.disp.spawns = s.disp.spawns ++ [{ ts := s.cur, d := d, launch := l.num, pos := n.val, elem := v.toNat, arg := s.me.getS b,
                                            pts := s.me.pts }])

/-- `retire` (R302, R306, R350, R354): while a command or a spawn of the thread set is outstanding, or an access or placement of it
waits for a link, it waits; then, its folds placed, the thread set is free. A task leaves G and its running mark, and a
pass is due at its dispatcher; a thread set of a resident launch departs from its groups and has retired. With its last
task or thread set the launch ends, and its packet completes with the status that was recorded. -/
def Sys2Proof.Claims.RetireEnds : Prop :=
  ∀ s : State,
    let s' := placeFolds s s.cur 6
    let m := s.me
    (hasCommands s s.cur = true ∨ hasSpawns s s.cur = true ∨ waitsForPeer s s.cur = true → exec .retire s = .next s) ∧
    (hasCommands s s.cur = false → hasSpawns s s.cur = false → waitsForPeer s s.cur = false →
      (waitsForPeer s' s.cur = true → exec .retire s = .next s') ∧
      (waitsForPeer s' s.cur = false → nextWith (exec .retire s) fun t => (t.ts s.cur).status = .free ∧
        ((∀ x ∈ s.disp.images, x.num ≠ coreOf s.cur) → (t.ts s.cur).faultSeq = m.faultSeq) ∧
        ∀ l, s.launch? m.launch = some l → l.killed = false → l.element = m.element →
          let ended : Prop := t.launch? m.launch = none ∧ ∃ p ∈ t.front.packets, p.launch = some m.launch ∧ p.ready = true ∧
            p.completion = l.completion ∧ p.increment = l.increment ∧ p.status = l.status ∧ p.code = l.code2
          (m.element = true → l.g = 1 → ended) ∧
          (m.element = true → 1 < l.g → ∀ r, (l.running.find? fun y => y.ts == some s.cur) = some r →
            (r.pkg = none → r.die ∈ t.disp.passDue) ∧
            ∃ l', t.launch? m.launch = some l' ∧ l'.g = l.g - 1 ∧ ∀ y ∈ l'.running, y.ts ≠ some s.cur) ∧
          (m.element = false → (∀ i, i < l.count → i = m.index ∨ i ∈ l.retired) → ended) ∧
          (m.element = false → (∃ i, i < l.count ∧ i ≠ m.index ∧ i ∉ l.retired) →
            ∃ l', t.launch? m.launch = some l' ∧ l'.retired = m.index :: l.retired ∧ l'.status = l.status ∧
              ∀ g ∈ l'.groups, ∀ k, g.rank? m.index = some k → k ∈ g.departed)))

/-- `tdefer` (R355): outside an element task it is illegal; in one, it ends the task as `retire` does, and the task is pending
again with the argument S[a], not eligible for 1,024 clk. -/
def Sys2Proof.Claims.DeferredTask : Prop :=
  ∀ (s : State) (a : Reg) (l : Launch), s.launchOf s.cur = some l →
    (s.me.element = false → exec (.tdefer a) s = posted (.tdefer a) { cls := 1 } s) ∧
    (s.me.element = true → hasCommands s s.cur = true ∨ hasSpawns s s.cur = true ∨ waitsForPeer s s.cur = true →
      exec (.tdefer a) s = .next s) ∧
    (s.me.element = true → hasCommands s s.cur = false → hasSpawns s s.cur = false → waitsForPeer s s.cur = false →
      waitsForPeer (placeFolds s s.cur 6) s.cur = false → l.killed = false → l.element = true → 1 ≤ l.g →
      (l.pending.all fun x => !(x.pos == s.me.pos && x.elem == s.me.eid.toNat)) = true →
      nextWith (exec (.tdefer a) s) fun t => (t.ts s.cur).status = .free ∧
        ∃ l', t.launch? l.num = some l' ∧ l'.g = l.g ∧
          ∃ x ∈ l'.pending, x.pos = s.me.pos ∧ x.elem = s.me.eid.toNat ∧ x.arg = s.me.getS a ∧ x.hold = s.clk + 1024)

/-- The replies to the wait for a phase that a lost member has broken (R246, R258), of `bar` after its arrival, of `bwait`, and of an
arrival that the limit of R243 would block for ever: SKIP ends the wait as if the phase had completed, and what follows comes
after the arrivals that took place; it writes no register, and no group changes. RESUME of a `bar` that has arrived waits for its
phase again. -/
def Sys2Proof.Claims.BrokenWaits : Prop :=
  ∀ (s : State) (d a b : Reg) (r : FaultRec), isServiceTs s s.cur = true ∨ isHandlerTs s s.cur = true →
    let w := s.me.getS a
    let s' := placeFolds s s.cur 6
    let u := s.ts r.ts
    waitsForPeer s' s.cur = false → w.extractLsb' 34 14 = 0 → answerable s' s.cur (w.setWidth 32) = some r →
    r.source = 0 → r.ts ≠ s.cur → coreOf r.ts < 4096 →
    (w.extractLsb' 32 2 = 1 → r.dest.isSome ∨ (r.late = none ∧ r.cls = 12 ∧ r.detail = 3) →
      nextWith (exec (.freply d a b) s) fun t => t.disp = s'.disp ∧
        ∃ q, t.ts r.ts = { u.past r.len with status := .running, pts := q } ∧ u.pts ≤ q ∧ s'.me.pts ≤ q ∧
          ∀ l g, s'.launchOf r.ts = some l →
            (l.groups.find? fun x => x.id % 256 == (r.msg.extractLsb' 256 8).toNat) = some g → g.pts ≤ q) ∧
    (∀ p g, w.extractLsb' 32 2 = 0 → r.dest = some p → r.instr = .bar g → nextWith (exec (.freply d a b) s) fun t =>
      t.ts r.ts = { u with status := .waitPhase g.val p, pts := Max.max u.pts s'.me.pts })

/-! ### Barriers and stage rings -/

/-- `bar`, `barv` and `bwait` of an element task are illegal, and of a slot without a group are group faults (class 12, detail 1);
a `bwait` for a phase that its thread set has not arrived at is detail 2 (R245 to R248, R258). -/
def Sys2Proof.Claims.BarrierFaults : Prop :=
  ∀ (s : State) (g : Fin 4) (r : Reg), ∀ i ∈ [Instr.bar g, .barv g r, .bwait g r],
    (s.me.element = true → exec i s = posted i { cls := 1 } s) ∧
    (s.me.element = false → groupOf s g = none →
      exec i s = posted i { cls := 12, detail := 1, aux := BitVec.ofNat 64 (s.me.gs[g].toNat % 256) } s) ∧
    (∀ l x, s.me.element = false → groupOf s g = some (l, x) → x.arrivals.getD (rankOf s g) 0 ≤ (s.me.getS r).toNat →
      exec (.bwait g r) s = posted (.bwait g r) { cls := 12, detail := 2, aux := BitVec.ofNat 64 (x.id % 256) } s)

/-- An arrival (R243, R244, R248, R302): the folds are placed, and while one of them, or an earlier access, waits for a link the arrival
waits; then the count of the thread set's rank rises by 1; `barv` writes the number of the phase, and `bar` goes on once that
phase has completed, else it waits for it; `bwait` goes on when its phase has completed. What follows a completed phase
follows its arrivals (R307). -/
def Sys2Proof.Claims.BarrierArrives : Prop :=
  ∀ (s : State) (g : Fin 4) (d : Reg) (l : Launch) (x : Group), s.me.element = false → groupOf s g = some (l, x) →
    let n := x.arrivals.getD (rankOf s g) 0
    let s' := placeFolds s s.cur 6
    let t := arrive g s'
    let past (u : State) (y : Group) : Out :=
      .next (u.setMe ({ u.me with status := .running, pts := Max.max u.me.pts y.pts }.past 4))
    (n ≤ x.completed + 1 → waitsForPeer s' s.cur = true → exec (.bar g) s = .next s' ∧ exec (.barv g d) s = .next s') ∧
    (n ≤ x.completed + 1 → waitsForPeer s' s.cur = false →
      (∃ y, groupOf t g = some y ∧ y.2.arrivals = x.arrivals.set (rankOf s g) (n + 1)) ∧
      exec (.barv g d) s = .next (t.setMe ({ t.me.setS d (BitVec.ofNat 64 n) with status := .running }.past 4)) ∧
      (∀ y, groupOf t g = some y → n < y.2.completed → exec (.bar g) s = past t y.2) ∧
      (∀ y, groupOf t g = some y → y.2.completed ≤ n → y.2.broken = none →
        exec (.bar g) s = .next (t.setMe { t.me with status := .waitPhase g.val n }))) ∧
    (∀ r : Reg, (s.me.getS r).toNat < n → (s.me.getS r).toNat < x.completed → exec (.bwait g r) s = past s x)

/-- `racq` and `rpeek` of a slot (R253, R254, R256), for a descriptor at an aligned readable address whose header names a ring and
a cursor that fits it: `racq` takes a slot whose control word carries its stage and sequence, writing the buffer's address
with status 0, 1 or 2 (2 at once for a poisoned ring), and else waits; `rpeek` writes bits 37 to 0 of the control word, in bit 63
whether that `racq` would complete at once, and 0 in the bits between; nothing else changes after its read. -/
def Sys2Proof.Claims.RingTakesSlot : Prop :=
  ∀ (s s1 s2 : State) (d a b : Reg) (r : Ring) (w : Nat), s2.me.part = none →
    let addr := s.me.getS a
    let cur := s.me.getS b
    (ringChecks true addr cur s = .ok (r, s1) → memRead (s.who s.cur) .unc (ringWord addr cur r) 8 s1 = .ok (w, s2) →
      let took (x : Nat) : Out := .next (s2.setMe
        ({ s2.me.setS d (ringBuffer cur r ||| BitVec.ofNat 64 x) with status := .running }.past 4))
      (r.poisoned = true → exec (.racq d a b) s = took 2) ∧
      (r.poisoned = false → slotReady cur w = true →
        exec (.racq d a b) s = took (if w.testBit 37 then 2 else if w.testBit 36 then 1 else 0)) ∧
      (r.poisoned = false → slotReady cur w = false →
        exec (.racq d a b) s = .next (s.setMe { s.me with status := .waitWake (.racq d a b) }))) ∧
    (ringChecks false addr cur s = .ok (r, s1) → memRead (s.who s.cur) .norm (ringWord addr cur r) 8 s1 = .ok (w, s2) →
      let ready := bitsOf cur 32 2 ≠ 3 ∧ (r.poisoned = true ∨ slotReady cur w = true)
      nextWith (exec (.rpeek d a b) s) fun t => t.me.pc = s2.me.pc + 4 ∧ onlyMe s2 t ∧ (∀ q, q ≠ d → t.me.getS q = s2.me.getS q) ∧
        t.me.v = s2.me.v ∧ t.me.p = s2.me.p ∧ t.me.k = s2.me.k ∧ specialsKept s2.me t.me ∧ t.me.fps = s2.me.fps ∧
        (d ≠ 0 → (t.me.getS d).toNat % 2 ^ 38 = w % 2 ^ 38 ∧ (t.me.getS d).extractLsb' 38 25 = 0 ∧
          ((t.me.getS d).getLsbD 63 = true ↔ ready)))

/-- `rrel` (R255): a release point, which waits while a placement or an earlier access waits for a link; it passes the slot on to
the next stage, with the sequence advanced by the ring's size after the last one, and writes the cursor of the next slot; a
slot that its stage does not own is a ring fault (class 13, detail 6). -/
def Sys2Proof.Claims.RingReleasesSlot : Prop :=
  ∀ (s s1 s2 : State) (d a b : Reg) (r : Ring) (ps : List Piece),
    let addr := s.me.getS a
    let cur := s.me.getS b
    let w := s.who s.cur
    ringChecks false addr cur s = .ok (r, s1) → checkAccess w .rmw (ringWord addr cur r) 8 s1 = .ok (ps, s2) →
    needClean w ps s2 = .ok ((), s2) →
    let s3 := placeFolds s2 s2.cur 6
    let mine (x : Nat) : Bool := wordOwner x == curStage cur && wordSeq x == curSeq cur
    (waitsForPeer s3 s3.cur = true → exec (.rrel d a b) s = .next s) ∧
    (waitsForPeer s3 s3.cur = false →
      ∀ old s4, rmw w ps (fun x => if mine x then some (releasedWord cur r x) else none) s3 = .ok (old, s4) → s4.me.part = none →
        (mine old = true → exec (.rrel d a b) s = wroteS s4 d (nextCursor cur) 4) ∧
        (mine old = false → exec (.rrel d a b) s = posted (.rrel d a b) { cls := 13, detail := 6, info := addr, aux := cur } s))

/-! ### Bandwidth leases -/

/-- `bwlease`, `bwrel` and `bwq` (R450 to R454): a request with a bad field answers status 3, with the handle, channels and peer of
the lease that it names where there is one; an unknown handle 6, a full lease table 4, a peer whose link is down 5, a
lease not yet granted 7; an accepted request takes a new handle and its token is pending. A renewal keeps up to its count of the
channels that no one contests, which run to its new end, and leaves the others to their old end (R448). A release frees
contested channels first, then those that end first, and its status is written once they carry no more packets of this
package; the release of a request withdraws it, and both report count 0 (R453). -/
def Obligations.LeaseInstructions : Prop :=
  ∀ (s : State) (d a b : Reg),
    let w := s.me.getS a
    let dur := (s.me.getS b).toNat
    let h := bitsOf w 32 32
    let count := bitsOf w 8 8
    let peer := bitsOf w 0 8
    let badReq : Prop := bitsOf w 16 16 ≠ 0 ∨ count = 0 ∨ 24 < count ∨ dur = 0 ∨ 1000 < dur ∨ s.peer? peer = none
    let invalid (p : Nat) : Word := match (if h = 0 then none else myLease s h) with
      | some l => BitVec.ofNat 64 (h * 2 ^ 32 + 3 * 2 ^ 16 + (heldOf s h).length * 2 ^ 8 + l.peer)
      | none => BitVec.ofNat 64 (3 * 2 ^ 16 + p)
    (badReq → exec (.bwlease d a b) s = wroteS s d (invalid peer) 4) ∧
    (¬badReq → h ≠ 0 → ∀ l, myLease s h = some l →
      (l.peer ≠ peer → exec (.bwlease d a b) s = wroteS s d (invalid peer) 4) ∧
      (l.peer = peer → linkBad s peer = true →
        exec (.bwlease d a b) s =
          wroteS s d (BitVec.ofNat 64 (h * 2 ^ 32 + 5 * 2 ^ 16 + (heldOf s h).length * 2 ^ 8 + peer)) 4) ∧
      (l.peer = peer → linkBad s peer = false → l.active = false →
        exec (.bwlease d a b) s = wroteS s d (BitVec.ofNat 64 (h * 2 ^ 32 + 7 * 2 ^ 16 + peer)) 4)) ∧
    (¬badReq → h ≠ 0 → myLease s h = none → exec (.bwlease d a b) s = wroteS s d (BitVec.ofNat 64 (6 * 2 ^ 16 + peer)) 4) ∧
    (¬badReq → h = 0 → linkBad s peer = true → exec (.bwlease d a b) s = wroteS s d (BitVec.ofNat 64 (5 * 2 ^ 16 + peer)) 4) ∧
    (¬badReq → h = 0 → linkBad s peer = false → 64 ≤ s.fab.leases.length →
      exec (.bwlease d a b) s = wroteS s d (BitVec.ofNat 64 (4 * 2 ^ 16 + peer)) 4) ∧
    (¬badReq → h = 0 → linkBad s peer = false → s.fab.leases.length < 64 →
      nextWith (exec (.bwlease d a b) s) fun t => t.me = (s.me.pend d).past 4 ∧ othersKept s t ∧ sameMemory s t ∧
        ∃ l : Lease, t.fab.leases = s.fab.leases ++ [l] ∧ l.peer = peer ∧ l.want = count ∧ l.dur = dur ∧ l.active = false ∧
          l.ts = s.cur ∧ l.d = d ∧ l.handle ≠ 0) ∧
    (bitsOf w 16 16 ≠ 0 ∨ peer ≠ 0 ∨ 24 < count → exec (.bwrel d a) s = wroteS s d (invalid 0) 4) ∧
    (bitsOf w 16 16 = 0 → peer = 0 → count ≤ 24 → myLease s h = none →
      exec (.bwrel d a) s = wroteS s d (BitVec.ofNat 64 (6 * 2 ^ 16)) 4) ∧
    (¬badReq → h ≠ 0 → ∀ l, myLease s h = some l → l.peer = peer → linkBad s peer = false → l.active = true →
      let own := (heldOf s h).filter fun j => !contested (poolChan s j)
      let k := Min.min count own.length
      let st := if k = count then 0 else if k = 0 then 2 else 1
      nextWith (exec (.bwlease d a b) s) fun t =>
        t.me = (s.me.setS d (BitVec.ofNat 64 (h * 2 ^ 32 + st * 2 ^ 16 + k * 2 ^ 8 + peer))).past 4 ∧ othersKept s t ∧ sameMemory s t ∧
        (∃ kept, kept ⊆ own ∧ kept.Nodup ∧ kept.length = k ∧
          (∀ j ∈ heldOf s h, poolChan t j =
            { poolChan s j with endsAt := if j ∈ kept then 0 else chanEnd s (poolChan s j) }) ∧
          ∀ j, j ∉ heldOf s h → poolChan t j = poolChan s j) ∧
        (k = 0 → t.fab.leases = s.fab.leases) ∧
        (k ≠ 0 → ∃ x ∈ t.fab.leases, x = { l with ends := s.clk + dur * 1700, dur })) ∧
    (bitsOf w 16 16 = 0 → peer = 0 → count ≤ 24 → ∀ l, myLease s h = some l → l.active = false →
      let u := failRequest s l 2
      exec (.bwrel d a) s = wroteS u d (BitVec.ofNat 64 (h * 2 ^ 32 + l.peer)) 4 ∧
      (u.ts l.ts).getS l.d = (if l.d = 0 then 0 else BitVec.ofNat 64 (2 * 2 ^ 16 + l.peer)) ∧
      (∀ x ∈ u.fab.leases, x.handle ≠ l.handle) ∧ chansOf u h = [] ∧ claimedOf u h = []) ∧
    (bitsOf w 16 16 = 0 → peer = 0 → count ≤ 24 → ∀ l, myLease s h = some l → l.active = true →
      let held := heldOf s h
      let n := if count = 0 then held.length else Min.min count held.length
      let ended (u : State) (js : List Nat) (left : Nat) : Prop :=
        let token : Word := BitVec.ofNat 64 (h * 2 ^ 32 + left * 2 ^ 8 + l.peer)
        let flits (j : Nat) := (chanOf s (120 + j)).unacked
        ((∀ j ∈ js, flits j = []) → exec (.bwrel d a) s = wroteS u d token 4) ∧
        ((∃ j ∈ js, flits j ≠ []) → nextWith (exec (.bwrel d a) s) fun t => t.me = (u.me.pend d).past 4 ∧
          ∃ r : Release, t.fab = { u.fab with rels := u.fab.rels ++ [r] } ∧ r.ts = s.cur ∧ r.d = d ∧ r.token = token ∧
            ∀ e, e ∈ r.flits ↔ ∃ j ∈ js, e = (120 + j, flits j) ∧ flits j ≠ [])
      (n = held.length → ended (endLease s h) held 0) ∧
      (n < held.length → ∃ freed, freed ⊆ held ∧ freed.Nodup ∧ freed.length = n ∧
        (∀ x ∈ freed, ∀ y ∈ held, y ∉ freed → (contested (poolChan s y) = true → contested (poolChan s x) = true) ∧
          (contested (poolChan s x) = false → contested (poolChan s y) = false →
            chanEnd s (poolChan s x) ≤ chanEnd s (poolChan s y))) ∧
        ended (fillPending (freed.foldl releaseChan s)) freed (held.length - n))) ∧
    (h ≠ 0 → ∀ l, myLease s h = some l → exec (.bwq d a) s = wroteS s d (queryLease s l
      (if bitsOf w 16 16 ≠ 0 ∨ count ≠ 0 ∨ peer ≠ 0 then 3 else if l.active = true then 0 else 7)) 4) ∧
    (h ≠ 0 → myLease s h = none → exec (.bwq d a) s = wroteS s d (BitVec.ofNat 64
      ((if bitsOf w 16 16 ≠ 0 ∨ count ≠ 0 ∨ peer ≠ 0 then 3 else 6) * 2 ^ 24)) 4) ∧
    (h = 0 → exec (.bwq d a) s = wroteS s d (queryPeer s peer
      (if bitsOf w 16 16 ≠ 0 ∨ count ≠ 0 ∨ s.peer? peer = none then 3 else if linkBad s peer = true then 5 else 0)) 4)

/-! ### Vector instructions -/

/-- After a masked vector instruction of a type with destination V[d]: each active lane holds its new pattern, each other lane
keeps its own (R150), and the rider is that of R58 and R151; no other register changes, nor anything outside the thread
set. -/
def Sys2Proof.Claims.lanesWritten (s t : State) (d : Reg) (k : KReg) (et : ElemTy) (val : Nat → Nat) (flg : Nat → Bool)
    (rider8 : BitVec 8) : Prop :=
  (∀ j, j < et.lanes → laneOf (t.me.getV d) et.width j =
    if active (s.me.getK k) j = true then val j % 2 ^ et.width else laneOf (s.me.getV d) et.width j) ∧
  Sys2Proof.Claims.riderWritten s.me t.me d et (active (s.me.getK k)) flg rider8 ∧
  (∀ q, q ≠ d → t.me.getV q = s.me.getV q) ∧ t.me.s = s.me.s ∧ t.me.p = s.me.p ∧ t.me.k = s.me.k ∧
  t.me.pc = s.me.pc + 12 ∧ specialsKept s.me t.me ∧ onlyMe s t

/-- An instruction that executes writes lanes so, and raises no flag of `fps`. -/
def Sys2Proof.Claims.writesLanes (i : Instr) (s : State) (d : Reg) (k : KReg) (et : ElemTy) (val : Nat → Nat)
    (flg : Nat → Bool) (rider8 : BitVec 8) : Prop :=
  nextWith (exec i s) fun t => Sys2Proof.Claims.lanesWritten s t d k et val flg rider8 ∧ t.me.fps = s.me.fps

/-- The OR of the flags of the lanes that `on` names. -/
def Sys2Proof.Claims.orFlags (et : ElemTy) (on : Nat → Bool) (fl : Nat → Flags) : BitVec 6 :=
  fpsBits (((List.range et.lanes).filter fun j => on j).foldr (fun j a => (fl j).or a) {})

/-- The same, with the flags of `fps` that are raised (R50). -/
def Sys2Proof.Claims.writesLanesFlags (i : Instr) (s : State) (d : Reg) (k : KReg) (et : ElemTy) (val : Nat → Nat)
    (flg : Nat → Bool) (rider8 : BitVec 8) (fl : Nat → Flags) : Prop :=
  nextWith (exec i s) fun t => Sys2Proof.Claims.lanesWritten s t d k et val flg rider8 ∧
    t.me.fps = s.me.fps ||| Sys2Proof.Claims.orFlags et (active (s.me.getK k)) fl

/-- The value of a finite pattern. -/
def Sys2Proof.Claims.ratOf (neg : Bool) (m : Nat) (e : Int) : ℚ := (if neg = true then -1 else 1) * (m : ℚ) * (2 : ℚ) ^ e

/-! #### Rounding and exact results, over the real numbers -/

/-- The floating-point types. -/
def Sys2Proof.Claims.fpTypes : List ElemTy := [.f64, .f32, .bf16, .f16, .e4m3, .e5m2]

/-- y is x rounded in a mode to the numbers that `rep` holds of, of which those of `even` have an even last bit (R47). -/
def Sys2Proof.Claims.roundsTo (mode : RMode) (rep even : ℝ → Prop) (x y : ℝ) : Prop :=
  rep y ∧ match mode with
    | .rne => ∀ z, rep z → |x - y| ≤ |x - z| ∧ (|x - y| = |x - z| → z = y ∨ even y)
    | .rna => ∀ z, rep z → |x - y| ≤ |x - z| ∧ (|x - y| = |x - z| → |z| ≤ |y|)
    | .rtz => |y| ≤ |x| ∧ ∀ z, rep z → |z| ≤ |x| → |x - y| ≤ |x - z|
    | .rup => x ≤ y ∧ ∀ z, rep z → x ≤ z → y ≤ z
    | .rdn => y ≤ x ∧ ∀ z, rep z → z ≤ x → z ≤ y

/-- The finite values of a format, and those whose pattern has an even last bit. -/
def Sys2Proof.Claims.valueIn (f : Fmt) (y : ℝ) : Prop := ∃ c n m e, f.decode c = .fin n m e ∧ y = (ratOf n m e : ℝ)
def Sys2Proof.Claims.evenIn (f : Fmt) (y : ℝ) : Prop :=
  ∃ c n m e, f.decode c = .fin n m e ∧ y = (ratOf n m e : ℝ) ∧ c.testBit 0 = false

/-- The numbers of a format's precision with unbounded exponent (R47), and those with an even last bit. -/
def Sys2Proof.Claims.valueWide (f : Fmt) (y : ℝ) : Prop := ∃ n k : ℤ, |n| < 2 ^ (f.mbits + 1) ∧ y = (n : ℝ) * (2 : ℝ) ^ k
def Sys2Proof.Claims.evenWide (f : Fmt) (y : ℝ) : Prop :=
  ∃ n k : ℤ, 2 ^ f.mbits ≤ |2 * n| ∧ |2 * n| < 2 ^ (f.mbits + 1) ∧ y = ((2 * n : ℤ) : ℝ) * (2 : ℝ) ^ k

/-- A pattern is the largest finite value of a sign. -/
def Sys2Proof.Claims.largest (f : Fmt) (neg : Bool) (c : Nat) : Prop :=
  ∃ m e, f.decode c = .fin neg m e ∧ ∀ y, valueIn f y → |y| ≤ |(ratOf neg m e : ℝ)|

/-- A pattern is the infinity of a sign, or the NaN that E4M3 has in its place (R53). -/
def Sys2Proof.Claims.infinite (f : Fmt) (neg : Bool) (c : Nat) : Prop :=
  if f.ebits = 4 then c = 0x7F else f.decode c = .inf neg

/-- A pattern with its flags is the number x ≠ 0 rounded once (R47, R48, R49, R53): x is rounded with unbounded exponent; where
that exceeds the largest finite value the result overflows, and else it is x rounded to the format's values, inexact where it
differs from x, and tiny where the first rounding is below the smallest normal value. -/
def Sys2Proof.Claims.rounded (f : Fmt) (mode : RMode) (sat neg : Bool) (x : ℝ) (r : Nat × Flags) : Prop :=
  ∃ u, roundsTo mode (valueWide f) (evenWide f) x u ∧
    ((∀ y, valueIn f y → |y| < |u|) → r.2 = { ov := true, nx := true } ∧
      let finite : Prop := if f.ebits + f.mbits = 7 then sat = true
        else mode = .rtz ∨ (mode = .rup ∧ neg = true) ∨ (mode = .rdn ∧ neg = false)
      (finite → largest f neg r.1) ∧ (¬finite → infinite f neg r.1)) ∧
    ((∃ y, valueIn f y ∧ |u| ≤ |y|) → ∃ m e nx uf, f.decode r.1 = .fin neg m e ∧
      roundsTo mode (valueIn f) (evenIn f) x (ratOf neg m e) ∧ r.2 = { nx, uf } ∧
      (nx = true ↔ (ratOf neg m e : ℝ) ≠ x) ∧
      (uf = true ↔ (ratOf neg m e : ℝ) ≠ x ∧ |u| < (2 : ℝ) ^ (1 - (f.bias : ℤ))))

/-- What an infinite result is in a format, with its flags (R48, R51, R53). -/
def Sys2Proof.Claims.infinityIn (f : Fmt) (sat neg : Bool) (r : Nat × Flags) : Prop :=
  if f.ebits + f.mbits = 7 then
    r.2 = { nv := decide (f.ebits = 4) || sat } ∧ (sat = true → largest f neg r.1) ∧ (sat = false → infinite f neg r.1)
  else r.2 = {} ∧ f.decode r.1 = .inf neg

/-- Delivery of an exact result (R43, R47, R48, R53): a NaN is canonical, a zero keeps its sign, and any other number is rounded once;
the flags join those of the operation. -/
def Sys2Proof.Claims.DeliveredResults : Prop :=
  ∀ (et : ElemTy) (mode : RMode) (sat neg : Bool) (m : Nat) (e : Int) (fl : Flags), et ∈ fpTypes →
    let f := fmtOf et
    f.deliver mode sat (.nan, fl) = (f.nanBits, fl) ∧ f.decode f.nanBits = .nan false ∧
    (∃ r, infinityIn f sat neg r ∧ f.deliver mode sat (.inf neg, fl) = (r.1, fl.or r.2)) ∧
    (∃ c k, f.decode c = .fin neg 0 k ∧ f.deliver mode sat (.fin neg 0 e, fl) = (c, fl)) ∧
    (m ≠ 0 → ∃ r, rounded f mode sat neg (ratOf neg m e) r ∧ f.deliver mode sat (.fin neg m e, fl) = (r.1, fl.or r.2))

/-- The exact results of addition, multiplication, fused multiplication, division and root (R49, R50, R155, R157): finite operands give
the exact sum and product, and the quotient and the root rounded once; an exact zero sum is +0, but −0 under RDN, and keeps the
sign that its terms share. NaNs, infinities, zeros and negative roots give the results and flags of R50 and R157. -/
def Sys2Proof.Claims.ExactResults : Prop :=
  (∀ (mode : RMode) (an bn cn : Bool) (am bm cm : Nat) (ae be ce : Int),
    let x := ratOf an am ae
    let y := ratOf bn bm be
    let z := ratOf cn cm ce
    let p := an != bn
    (∃ n m e, addExact mode (.fin an am ae) (.fin bn bm be) = (.fin n m e, {}) ∧ ratOf n m e = x + y ∧
      (x + y = 0 → n = if an = bn then an else decide (mode = .rdn))) ∧
    (∃ m e, mulExact (.fin an am ae) (.fin bn bm be) = (.fin p m e, {}) ∧ ratOf p m e = x * y) ∧
    (∃ n m e, fmaExact mode (.fin an am ae) (.fin bn bm be) (.fin cn cm ce) = (.fin n m e, {}) ∧ ratOf n m e = x * y + z ∧
      (x * y + z = 0 → n = if p = cn then cn else decide (mode = .rdn))) ∧
    ∀ et ∈ [ElemTy.f64, .f32, .bf16, .f16], let f := fmtOf et
      (am ≠ 0 → bm ≠ 0 → rounded f mode false p ((x / y : ℚ) : ℝ) (f.deliver mode false (divExact f (.fin an am ae) (.fin bn bm be)))) ∧
      (am = 0 → bm ≠ 0 → ∃ e, divExact f (.fin an am ae) (.fin bn bm be) = (.fin p 0 e, {})) ∧
      (am ≠ 0 → bm = 0 → divExact f (.fin an am ae) (.fin bn bm be) = (.inf p, { dz := true })) ∧
      (am = 0 → bm = 0 → divExact f (.fin an am ae) (.fin bn bm be) = (.nan, { nv := true })) ∧
      (am = 0 → ∃ e, sqrtExact f (.fin an am ae) = (.fin an 0 e, {})) ∧
      (am ≠ 0 → an = true → sqrtExact f (.fin an am ae) = (.nan, { nv := true })) ∧
      (am ≠ 0 → an = false → rounded f mode false false (Real.sqrt (x : ℝ)) (f.deliver mode false (sqrtExact f (.fin an am ae))))) ∧
  ∀ (mode : RMode) (f : Fmt) (a b c : FVal),
    let nan2 := a.isNan || b.isNan
    let snan2 := a.isSnan || b.isSnan
    let mulBad : Prop := (∃ n, (a = .inf n ∧ b.isZero = true) ∨ (b = .inf n ∧ a.isZero = true))
    let sign (v : FVal) : Bool := match v with | .fin n _ _ => n | .inf n => n | .nan _ => false
    let inf (v : FVal) : Prop := ∃ n, v = .inf n
    let p := sign a != sign b
    (nan2 = true → addExact mode a b = (.nan, { nv := snan2 }) ∧ mulExact a b = (.nan, { nv := snan2 }) ∧
      divExact f a b = (.nan, { nv := snan2 })) ∧
    (∀ s, a = .nan s → sqrtExact f a = (.nan, { nv := s })) ∧
    (nan2 = false → inf a ∨ inf b →
      ((inf a ∧ inf b ∧ sign a ≠ sign b) → addExact mode a b = (.nan, { nv := true })) ∧
      (¬(inf a ∧ inf b ∧ sign a ≠ sign b) → ∃ n, addExact mode a b = (.inf n, {}) ∧ (inf a → n = sign a) ∧ (inf b → n = sign b)) ∧
      (mulBad → mulExact a b = (.nan, { nv := true })) ∧ (¬mulBad → mulExact a b = (.inf p, {})) ∧
      (inf a → inf b → divExact f a b = (.nan, { nv := true })) ∧ (inf a → ¬inf b → divExact f a b = (.inf p, {})) ∧
      (¬inf a → ∃ e, divExact f a b = (.fin p 0 e, {}))) ∧
    (∀ n, a = .inf n → sqrtExact f a = if n = true then (.nan, { nv := true }) else (.inf false, {})) ∧
    (nan2 = true ∨ mulBad ∨ c.isNan = true → (fmaExact mode a b c).1 = .nan ∧
      ((fmaExact mode a b c).2 = { nv := true } ↔ snan2 = true ∨ c.isSnan = true ∨ (nan2 = false ∧ mulBad))) ∧
    (nan2 = false → ¬mulBad → c.isNan = false →
      (inf a ∨ inf b → inf c → sign c ≠ p → fmaExact mode a b c = (.nan, { nv := true })) ∧
      (inf a ∨ inf b → ¬(inf c ∧ sign c ≠ p) → fmaExact mode a b c = (.inf p, {})) ∧
      (¬inf a → ¬inf b → inf c → fmaExact mode a b c = (.inf (sign c), {})))

/-- The number that a pattern stands for, an infinity included. -/
noncomputable def Sys2Proof.Claims.extended : FVal → EReal
  | .fin n m e => ((ratOf n m e : ℝ) : EReal)
  | .inf n => if n = true then ⊥ else ⊤
  | .nan _ => 0

/-- Minima, maxima and comparisons of patterns by the numbers that they stand for (R156, R159): the lesser or greater operand, −0
below +0, and the canonical NaN where one is a NaN; the conditions, where −0 equals +0, with their flags. -/
def Sys2Proof.Claims.OrderedResults : Prop :=
  ∀ (et : ElemTy) (isMax : Bool) (cond : VCond) (x y : Nat), et ∈ fpTypes →
    let f := fmtOf et
    let a := f.decode x
    let b := f.decode y
    let un := a.isNan || b.isNan
    let sign (c : Nat) : Bool := c.testBit (f.ebits + f.mbits)
    let r := f.minMax isMax x y
    (un = true → r = (f.nanBits, { nv := a.isSnan || b.isSnan })) ∧
    (un = false → r.2 = {} ∧ (r.1 = x ∨ r.1 = y) ∧
      (isMax = false → extended (f.decode r.1) ≤ extended a ∧ extended (f.decode r.1) ≤ extended b ∧
        (extended a = extended b → sign r.1 = (sign x || sign y))) ∧
      (isMax = true → extended a ≤ extended (f.decode r.1) ∧ extended b ≤ extended (f.decode r.1) ∧
        (extended a = extended b → sign r.1 = (sign x && sign y)))) ∧
    ((f.compare cond x y).1 = true ↔ match cond with
      | .eq => un = false ∧ extended a = extended b
      | .ne => un = true ∨ extended a ≠ extended b
      | .lt => un = false ∧ extended a < extended b
      | .le => un = false ∧ extended a ≤ extended b
      | .gt => un = false ∧ extended b < extended a
      | .ge => un = false ∧ extended b ≤ extended a
      | .un => un = true
      | .ord => un = false) ∧
    (f.compare cond x y).2 = { nv := a.isSnan || b.isSnan || (un && decide (cond ∈ [VCond.lt, .le, .gt, .ge])) }

/-- Conversions of one lane (R51 to R55, R162): a source value, scaled exactly by 2^(x − 127) where a rider x applies, is rounded once
to a floating-point destination, and rounded to an integer and then clamped or wrapped to an integer one. -/
def Sys2Proof.Claims.ConvertedResults : Prop :=
  ∀ (dst src : ElemTy) (m : RMode × Flags) (sat isat : Bool) (scale : Option Nat) (x : Nat),
    (dst.isInt = false → dst ∈ fpTypes) → (src.isInt = false → src ∈ fpTypes) →
    let f := fmtOf dst
    let k : Int := match scale with | some r => (r : Int) - 127 | none => 0
    let c := convertLane dst src m sat isat scale x
    let wrap (i : Int) : Nat := (i % 2 ^ dst.width).toNat
    let clamp (i : Int) : Int := Max.max (intMin dst) (Min.min (intMax dst) i)
    let i := intVal src x
    let v := (fmtOf src).decode x
    let gives (r : Nat × Flags) : Prop := c = (r.1, (m.2.or r.2).ofLane)
    let whole (y : ℝ) : Prop := ∃ n : ℤ, y = n
    let even (y : ℝ) : Prop := ∃ n : ℤ, y = 2 * n
    (scale = some 255 → c = (if dst.isInt = true then 0 else f.nanBits, { nv := true })) ∧
    (scale ≠ some 255 → src.isInt = true → dst.isInt = true → ∃ y : ℤ, roundsTo m.1 whole even ((i : ℝ) * (2 : ℝ) ^ k) y ∧
      c = (wrap (if isat = true then clamp y else y), {})) ∧
    (scale ≠ some 255 → src.isInt = true → dst.isInt = false →
      (i = 0 → gives (0, {})) ∧
      (i ≠ 0 → ∃ r, rounded f m.1 sat (decide (i < 0)) ((i : ℝ) * (2 : ℝ) ^ k) r ∧ gives r)) ∧
    (scale ≠ some 255 → src.isInt = false →
      (∀ s, v = .nan s → gives (if dst.isInt = true then (0, { nv := true }) else (f.nanBits, { nv := s }))) ∧
      (∀ n, v = .inf n → (dst.isInt = true → gives (wrap (if n = true then intMin dst else intMax dst), { nv := true })) ∧
        (dst.isInt = false → ∃ r, infinityIn f sat n r ∧ gives r)) ∧
      (∀ n a e, v = .fin n a e → let z : ℝ := (ratOf n a (e + k) : ℝ)
        (dst.isInt = true → ∃ y : ℤ, roundsTo m.1 whole even z y ∧
          (intMin dst ≤ y → y ≤ intMax dst → ∃ nx, gives (wrap y, { nx }) ∧ (nx = true ↔ (y : ℝ) ≠ z)) ∧
          (¬(intMin dst ≤ y ∧ y ≤ intMax dst) → gives (wrap (clamp y), { nv := true }))) ∧
        (dst.isInt = false → a = 0 → ∃ b q, f.decode b = .fin n 0 q ∧ gives (b, {})) ∧
        (dst.isInt = false → a ≠ 0 → ∃ r, rounded f m.1 sat n z r ∧ gives r)))

/-- The windowed sum (R59 to R62): a NaN product, or infinities of both signs, give a NaN, and infinities of one sign that infinity;
products that are all zero give −0 only where each is −0; else each product is truncated toward zero to a multiple of
2^(E − W + 1), where E is the exponent of the largest, and the terms are added exactly. `windowed` rounds that sum once with
RNE. A product of 8-bit floats takes the scales of both riders (R168, log entry 105). -/
def Sys2Proof.Claims.WindowedResults : Prop :=
  (∀ (ps : List FVal) (w : Nat), 0 < w →
    let nan : Prop := ∃ s, FVal.nan s ∈ ps
    let both : Bool := ps.contains (.inf false) && ps.contains (.inf true)
    let val (p : FVal) : ℚ := match p with | .fin n m e => ratOf n m e | _ => 0
    (nan ∨ both = true → windowSum ps w = (.nan, false, { nv := both })) ∧
    (∀ n, ¬nan → both = false → .inf n ∈ ps → windowSum ps w = (.inf n, false, {})) ∧
    (¬nan → (∀ n, .inf n ∉ ps) →
      ((∀ p ∈ ps, val p = 0) → ∃ n e, windowSum ps w = (.fin n 0 e, false, {}) ∧
        (n = true ↔ ps ≠ [] ∧ ∀ p ∈ ps, ∃ e, p = .fin true 0 e)) ∧
      (∀ E : ℤ, (∃ p ∈ ps, (2 : ℚ) ^ E ≤ |val p|) → (∀ p ∈ ps, |val p| < (2 : ℚ) ^ (E + 1)) →
        let q : ℚ := (2 : ℚ) ^ (E - (w : ℤ) + 1)
        let t (p : FVal) : ℚ := (if val p < 0 then -1 else 1) * (⌊|val p| / q⌋ : ℚ) * q
        ∃ n m e lost, windowSum ps w = (.fin n m e, lost, {}) ∧ ratOf n m e = (ps.map t).sum ∧
          ((ps.map t).sum = 0 → n = false) ∧ (lost = true ↔ ∃ p ∈ ps, t p ≠ val p)))) ∧
  (∀ (terms : List (FVal × Flags)) (w : Nat) (rt : ElemTy), rt ∈ [ElemTy.f64, .f32] → (∀ x ∈ terms, x.2 = { nv := x.2.nv }) →
    let f := fmtOf rt
    let s := windowSum (terms.map Prod.fst) w
    ∃ r : Nat × Flags,
      windowed terms w rt = (r.1, s.2.1, { r.2 with nv := r.2.nv || s.2.2.nv || terms.any (fun x => x.2.nv), ls := s.2.1 }) ∧
      match s.1 with
      | .nan => r = (f.nanBits, {})
      | .inf n => infinityIn f false n r
      | .fin n m e => (m = 0 → r.2 = {} ∧ ∃ k, f.decode r.1 = .fin n 0 k) ∧ (m ≠ 0 → rounded f .rne false n (ratOf n m e) r)) ∧
  (∀ (an bn : Bool) (am bm : Nat) (ae be : Int) (xa xb : Nat),
    let p := scaledProduct (.fin an am ae) (.fin bn bm be) xa xb
    (xa ≠ 255 → xb ≠ 255 → ∃ m e, p = (.fin (an != bn) m e, {}) ∧
      ratOf (an != bn) m e = ratOf an am ae * ratOf bn bm be * (2 : ℚ) ^ ((xa : ℤ) - 127 + ((xb : ℤ) - 127))) ∧
    ((xa = 255 ∧ bm ≠ 0) ∨ (xb = 255 ∧ am ≠ 0) → p.1.isNan = true)) ∧
  ∀ i : Fin 8, windowWidth i.val = [16, 24, 32, 40, 48, 64, 96, 128].getD i.val 0

/-- The integer vector operations of R154: lane by lane, exact over the integers, then wrapped to the width, or clamped to the
type's range by the saturating forms; shifts by the amount modulo the width, or by the immediate. No flag of `fps` is set; a lane's
lost flag is the OR of those of its source lanes (R58). -/
def Obligations.IntegerVectorResults : Prop :=
  ∀ (s : State) (g : Guard) (k : KReg) (et : ElemTy) (d a b : Reg), et.isInt = true → s.me.getP g.p ≠ g.pn →
    let w := et.width
    let la (j : Nat) : Nat := laneOf (s.me.getV a) w j
    let lb (j : Nat) : Nat := laneOf (s.me.getV b) w j
    let x (j : Nat) : Int := intVal et (la j)
    let y (j : Nat) : Int := intVal et (lb j)
    let wrap (i : Int) : Nat := (i % 2 ^ w).toNat
    let clamp (i : Int) : Nat := wrap (Max.max (intMin et) (Min.min (intMax et) i))
    let signed (n : Nat) : Int := if n.testBit (w - 1) = true then (n : Int) - 2 ^ w else (n : Int)
    let va := s.me.getV a
    let vb := s.me.getV b
    let quiet (i : Instr) (val : Nat → Nat) : Prop :=
      writesLanes i s d k et val (fun j => flagOf va w j || flagOf vb w j) (vRider va)
    let quiet1 (i : Instr) (val : Nat → Nat) : Prop := writesLanes i s d k et val (fun j => flagOf va w j) (vRider va)
    quiet (.vadd g k et false d a b) (fun j => wrap (x j + y j)) ∧
    quiet (.vadd g k et true d a b) (fun j => clamp (x j + y j)) ∧
    quiet (.vsub g k et false d a b) (fun j => wrap (x j - y j)) ∧
    quiet (.vsub g k et true d a b) (fun j => clamp (x j - y j)) ∧
    quiet (.vmul g k et d a b) (fun j => wrap (x j * y j)) ∧
    quiet (.vmulh g k et d a b) (fun j => wrap (x j * y j / 2 ^ w)) ∧
    quiet (.vmin g k et d a b) (fun j => wrap (Min.min (x j) (y j))) ∧
    quiet (.vmax g k et d a b) (fun j => wrap (Max.max (x j) (y j))) ∧
    quiet1 (.vabs g k et false d a) (fun j => wrap (x j).natAbs) ∧
    quiet1 (.vabs g k et true d a) (fun j => clamp (x j).natAbs) ∧
    quiet1 (.vneg g k et false d a) (fun j => wrap (-(x j))) ∧
    quiet1 (.vneg g k et true d a) (fun j => clamp (-(x j))) ∧
    quiet (.vand g k et d a b) (fun j => la j &&& lb j) ∧
    quiet (.vor g k et d a b) (fun j => la j ||| lb j) ∧
    quiet (.vxor g k et d a b) (fun j => la j ^^^ lb j) ∧
    quiet (.vshl g k et d a (.reg b)) (fun j => la j * 2 ^ (lb j % w)) ∧
    quiet (.vshr g k et d a (.reg b)) (fun j => la j / 2 ^ (lb j % w)) ∧
    quiet (.vsra g k et d a (.reg b)) (fun j => wrap (signed (la j) / 2 ^ (lb j % w))) ∧
    ∀ n : Fin 64, n.val < w →
      quiet1 (.vshl g k et d a (.imm n)) (fun j => la j * 2 ^ n.val) ∧
      quiet1 (.vshr g k et d a (.imm n)) (fun j => la j / 2 ^ n.val) ∧
      quiet1 (.vsra g k et d a (.imm n)) (fun j => wrap (signed (la j) / 2 ^ n.val))

/-- Floating-point vector arithmetic (R47, R155 to R157): each active lane receives the exact result of its operands, rounded
once in the instruction's mode (a dynamic mode of 5 to 7 acts as RNE), and `fps` the OR of the lanes' flags, NX not where
a lane raises NV (R50); `vfabs` and `vfneg` change the sign bit alone. A lane's lost flag is the OR of those of its source
lanes (R58). -/
def Sys2Proof.Claims.FloatLanes : Prop :=
  ∀ (s : State) (g : Guard) (k : KReg) (et : ElemTy) (rm : RoundField) (w : WinSel) (d a b c : Reg),
    et.isWideFp = true → s.me.getP g.p ≠ g.pn →
    let f := fmtOf et
    let la (j : Nat) : Nat := laneOf (s.me.getV a) et.width j
    let lb (j : Nat) : Nat := laneOf (s.me.getV b) et.width j
    let x (j : Nat) : FVal := f.decode (la j)
    let y (j : Nat) : FVal := f.decode (lb j)
    let z (j : Nat) : FVal := f.decode (laneOf (s.me.getV c) et.width j)
    let fa (j : Nat) : Bool := flagOf (s.me.getV a) et.width j
    let fb (j : Nat) : Bool := flagOf (s.me.getV b) et.width j
    let fc (j : Nat) : Bool := flagOf (s.me.getV c) et.width j
    let r8 := vRider (s.me.getV a)
    let m := roundMode s.me.fpc rm
    let rounded (i : Instr) (flg : Nat → Bool) (r : Nat → ExactRes) : Prop :=
      writesLanesFlags i s d k et (fun j => (f.deliver m.1 false (r j)).1) flg r8
        (fun j => (m.2.or (f.deliver m.1 false (r j)).2).ofLane)
    let two (j : Nat) : Bool := fa j || fb j
    let three (j : Nat) : Bool := fa j || fb j || fc j
    rounded (.vfadd g k et rm w d a b) two (fun j => addExact m.1 (x j) (y j)) ∧
    rounded (.vfsub g k et rm w d a b) two (fun j => addExact m.1 (x j) (y j).negate) ∧
    rounded (.vfmul g k et rm w d a b) two (fun j => mulExact (x j) (y j)) ∧
    rounded (.vfma g k et rm w d a b c) three (fun j => fmaExact m.1 (x j) (y j) (z j)) ∧
    rounded (.vfms g k et rm w d a b c) three (fun j => fmaExact m.1 (x j) (y j) (z j).negate) ∧
    rounded (.vfnma g k et rm w d a b c) three (fun j => fmaExact m.1 (x j).negate (y j) (z j)) ∧
    rounded (.vfdiv g k et rm d a b) two (fun j => divExact f (x j) (y j)) ∧
    rounded (.vfsqrt g k et rm d a) fa (fun j => sqrtExact f (x j)) ∧
    writesLanesFlags (.vfmin g k et w d a b) s d k et (fun j => (f.minMax false (la j) (lb j)).1) two r8
      (fun j => (f.minMax false (la j) (lb j)).2) ∧
    writesLanesFlags (.vfmax g k et w d a b) s d k et (fun j => (f.minMax true (la j) (lb j)).1) two r8
      (fun j => (f.minMax true (la j) (lb j)).2) ∧
    writesLanesFlags (.vfabs g k et w d a) s d k et (fun j => la j % 2 ^ (et.width - 1)) fa r8 (fun _ => {}) ∧
    writesLanesFlags (.vfneg g k et w d a) s d k et (fun j => la j ^^^ 2 ^ (et.width - 1)) fa r8 (fun _ => {}) ∧
    (∀ p ∈ [(Instr.vrcpe g k et d a, EstOp.rcp), (.vrsqe g k et d a, .rsq), (.vexp2 g k et d a, .exp2),
        (.vlog2 g k et d a, .log2)],
      writesLanesFlags p.1 s d k et (fun j => (estimate p.2 et (la j)).1) fa r8 (fun j => (estimate p.2 et (la j)).2))

/-- The estimates of R158. NaNs, infinities, zeros and negative operands give the results of its second table. In the exact
cases, powers of two (of four, and integers) whose result is normal, the result is exact and no flag is raised. Else NX is
raised, and the value lies within the bound: relative 2^-14 for the f32 reciprocal and reciprocal root, one ulp for bf16
and f16, where the ulp is that of the exact result's binade (log entry 91). Which value within the bound is open. The bounds of 2^a
and log2 a, two ulps or one, and 2^-21 absolute between 0.5 and 2 and else relative, are said against the close approximation that the
model takes of those functions, not against the functions (log entry 7); UF follows the delivered value (log entry 73). -/
def Sys2Proof.Claims.EstimateResults : Prop :=
  ∀ (et : ElemTy) (x : Nat), et ∈ [ElemTy.f32, .bf16, .f16] →
    let f := fmtOf et
    let inf (n : Bool) : Nat := f.infBits n
    (∀ op sn, f.decode x = .nan sn → estimate op et x = (f.nanBits, Flags.invalid sn)) ∧
    (∀ n, f.decode x = .inf n →
      estimate .rcp et x = (f.signBits n, {}) ∧
      estimate .rsq et x = (if n = true then (f.nanBits, { nv := true }) else (0, {})) ∧
      estimate .exp2 et x = (if n = true then (0, {}) else (inf false, {})) ∧
      estimate .log2 et x = (if n = true then (f.nanBits, { nv := true }) else (inf false, {}))) ∧
    (∀ n e, f.decode x = .fin n 0 e →
      estimate .rcp et x = (inf n, { dz := true }) ∧ estimate .rsq et x = (inf n, { dz := true }) ∧
      (∃ cm ce, f.decode (estimate .exp2 et x).1 = .fin false cm ce ∧ ratOf false cm ce = 1 ∧ (estimate .exp2 et x).2 = {}) ∧
      estimate .log2 et x = (inf true, { dz := true })) ∧
    (∀ m e, f.decode x = .fin true m e → m ≠ 0 →
      estimate .rsq et x = (f.nanBits, { nv := true }) ∧ estimate .log2 et x = (f.nanBits, { nv := true })) ∧
    (∀ n m e l, f.decode x = .fin n m e → m ≠ 0 →
      let y := ratOf n m e
      let normal (i : Int) : Prop := 1 - (f.bias : Int) ≤ i ∧ i ≤ (f.bias : Int)
      let exact (op : EstOp) (v : ℚ) : Prop :=
        ∃ cn cm ce, f.decode (estimate op et x).1 = .fin cn cm ce ∧ ratOf cn cm ce = v ∧ (estimate op et x).2 = {}
      (|y| = (2 : ℚ) ^ l → normal (-l) → exact .rcp (1 / y)) ∧
      (y = (2 : ℚ) ^ (2 * l) → normal (-l) → exact .rsq ((2 : ℚ) ^ (-l))) ∧
      (y = (l : ℚ) → normal l → exact .exp2 ((2 : ℚ) ^ l)) ∧
      (y = (2 : ℚ) ^ l → exact .log2 l)) ∧
    (∀ n m e, f.decode x = .fin n m e → m ≠ 0 →
      let y := ratOf n m e
      let q (z : ℚ) (u : Int) : Prop := (2 : ℚ) ^ (u + (f.mbits : Int)) ≤ |z| ∨ u = f.qmin
      (estimateExact .rcp f n m e = none →
        (estimate .rcp et x).2.nx = true ∧
        ((estimate .rcp et x).2.ov = true ∧ (estimate .rcp et x).1 = inf n ∨
          ∃ cn cm ce, f.decode (estimate .rcp et x).1 = .fin cn cm ce ∧
            (et = .f32 → |ratOf cn cm ce * y - 1| ≤ (2 : ℚ) ^ (-14 : Int)) ∧
            (et ≠ .f32 → ∃ u, q (1 / y) u ∧ |ratOf cn cm ce - 1 / y| ≤ (2 : ℚ) ^ u))) ∧
      (n = false → estimateExact .rsq f n m e = none →
        (estimate .rsq et x).2.nx = true ∧
        ∃ cm ce, f.decode (estimate .rsq et x).1 = .fin false cm ce ∧
          (et = .f32 → (1 - (2 : ℚ) ^ (-14 : Int)) ^ 2 ≤ ratOf false cm ce ^ 2 * y ∧
            ratOf false cm ce ^ 2 * y ≤ (1 + (2 : ℚ) ^ (-14 : Int)) ^ 2) ∧
          (et ≠ .f32 → ∃ u, (2 : ℚ) ^ (2 * (u + (f.mbits : Int))) * y ≤ 1 ∧
            (ratOf false cm ce ≤ (2 : ℚ) ^ u ∨ (ratOf false cm ce - (2 : ℚ) ^ u) ^ 2 * y ≤ 1) ∧
            1 ≤ (ratOf false cm ce + (2 : ℚ) ^ u) ^ 2 * y)) ∧
      (∀ op ∈ [EstOp.exp2, .log2], n = false ∨ op = .exp2 → estimateExact op f n m e = none →
        (estimate op et x).2.nx = true) ∧
      (estimateExact .exp2 f n m e = none →
        let l : Int := (Nat.log2 m : Int) + e
        let t := estimateIdeal .exp2 n m e
        let z := ratOf t.1 t.2.1 t.2.2
        let ulps : ℚ := if et = .f32 then 2 else 1
        ((estimate .exp2 et x).2.ov = true ∧ (estimate .exp2 et x).1 = inf false ∧ (12 < l ∨ (2 : ℚ) ^ (f.bias : Int) < z) ∧
            (12 < l → n = false)) ∨
          ∃ cn cm ce, f.decode (estimate .exp2 et x).1 = .fin cn cm ce ∧
            (12 < l → n = true ∧ |ratOf cn cm ce| ≤ ulps * (2 : ℚ) ^ f.qmin) ∧
            (l ≤ 12 → ∃ u, q z u ∧ |ratOf cn cm ce - z| ≤ ulps * (2 : ℚ) ^ u)) ∧
      (n = false → estimateExact .log2 f n m e = none →
        let t := estimateIdeal .log2 n m e
        let z := ratOf t.1 t.2.1 t.2.2
        ∃ cn cm ce, f.decode (estimate .log2 et x).1 = .fin cn cm ce ∧
          (et = .f32 → 1 / 2 ≤ y → y ≤ 2 → |ratOf cn cm ce - z| ≤ (2 : ℚ) ^ (-21 : Int)) ∧
          (et = .f32 → y < 1 / 2 ∨ 2 < y → |ratOf cn cm ce - z| ≤ (2 : ℚ) ^ (-21 : Int) * |z|) ∧
          (et ≠ .f32 → ∃ u, q z u ∧ |ratOf cn cm ce - z| ≤ (2 : ℚ) ^ u)))

/-- Comparison and selection (R159, R160): bit j of K[d] is the condition of lane j where it is active, and 0 elsewhere; `vsel`
takes each lane of V[a] where it is active and of V[b] where it is not, with its lost flag. A signalling NaN in an active lane
raises NV, and so does any NaN for `lt`, `le`, `gt` and `ge`. -/
def Sys2Proof.Claims.CompareSelectLanes : Prop :=
  ∀ (s : State) (g : Guard) (k : KReg) (et : ElemTy) (c : VCond) (dk : KReg) (d a b : Reg), s.me.getP g.p ≠ g.pn →
    let la (j : Nat) : Nat := laneOf (s.me.getV a) et.width j
    let lb (j : Nat) : Nat := laneOf (s.me.getV b) et.width j
    let x (j : Nat) : Int := intVal et (la j)
    let y (j : Nat) : Int := intVal et (lb j)
    let mask (t : State) (holds : Nat → Bool) : Prop :=
      dk ≠ 0 → ∀ j, (t.me.getK dk).getLsbD j = (decide (j < et.lanes) && active (s.me.getK k) j && holds j)
    (et.isInt = true → c ≠ .un → c ≠ .ord → nextWith (exec (.vcmp g k et c dk a b) s) fun t =>
      mask t (fun j => match c with
        | .eq => decide (x j = y j)
        | .ne => decide (x j ≠ y j)
        | .lt => decide (x j < y j)
        | .le => decide (x j ≤ y j)
        | .gt => decide (x j > y j)
        | _ => decide (x j ≥ y j)) ∧ t.me.v = s.me.v ∧ t.me.fps = s.me.fps ∧ t.me.pc = s.me.pc + 12 ∧ onlyMe s t) ∧
    (let fa (j : Nat) : FVal := (fmtOf et).decode (la j)
     let fb (j : Nat) : FVal := (fmtOf et).decode (lb j)
     let loud : Bool := match c with | .lt | .le | .gt | .ge => true | _ => false
     let raises (j : Nat) : Bool := (fa j).isSnan || (fb j).isSnan || (loud && ((fa j).isNan || (fb j).isNan))
     nextWith (exec (.vfcmp g k et c dk a b) s) fun t => mask t (fun j => ((fmtOf et).compare c (la j) (lb j)).1) ∧
      t.me.fps = s.me.fps ||| (if ((List.range et.lanes).any fun j => active (s.me.getK k) j && raises j) = true then
        fpsBits { nv := true } else 0) ∧ t.me.v = s.me.v ∧ t.me.s = s.me.s ∧ t.me.pc = s.me.pc + 12 ∧ onlyMe s t) ∧
    nextWith (exec (.vsel g k et d a b) s) fun t =>
      (∀ j, j < et.lanes → laneOf (t.me.getV d) et.width j = if active (s.me.getK k) j = true then la j else lb j) ∧
      riderWritten s.me t.me d et (fun _ => true)
        (fun j => flagOf (s.me.getV (if active (s.me.getK k) j = true then a else b)) et.width j) (vRider (s.me.getV a)) ∧
      (∀ q, q ≠ d → t.me.getV q = s.me.getV q) ∧ t.me.s = s.me.s ∧ t.me.fps = s.me.fps ∧ t.me.pc = s.me.pc + 12 ∧ onlyMe s t

/-- Conversion, quantisation and the rider (R161 to R165): `vcvt` converts, for each active destination lane that the lane map
reaches, the source lane that the map names; `vq8` scales 32 lanes by their common exponent, which becomes the rider;
`vdq8` undoes it; `vrdr` and `vwrr` move the rider. `fps` receives the flags of the lanes, and LS where the lost flag of a
source lane reaches an 8-bit destination (R58, R151). -/
def Sys2Proof.Claims.ConvertedLanes : Prop :=
  ∀ (s : State) (g : Guard) (k : KReg) (et src : ElemTy) (rm : RoundField) (o : Fp8Ovr) (ctl : CvtCtl) (part : Fin 8) (d a : Reg),
    s.me.getP g.p ≠ g.pn →
    let m := roundMode s.me.fpc rm
    let v := s.me.getV a
    let on (j : Nat) : Bool := (cvtSource et ctl.src ctl.part.val j).isSome && active (s.me.getK k) j
    let from' (j : Nat) : Nat := (cvtSource et ctl.src ctl.part.val j).getD 0
    let one (j : Nat) : Nat × Flags := convertLane et ctl.src m (fp8Sat s.me.fpc o et) ctl.isat
      (if ctl.scaled = true then some (vRider v).toNat else none) (laneOf v ctl.src.width (from' j))
    let lost (sources : List Bool) : BitVec 6 := if et.width = 8 ∧ sources.contains true = true then 0x20 else 0
    (nextWith (exec (.vcvt g k et rm o ctl d a) s) fun t =>
      riderWritten s.me t.me d et on (fun j => flagOf v ctl.src.width (from' j)) 127 ∧
      t.me.fps = s.me.fps ||| orFlags et on (fun j => (one j).2) |||
        lost ((List.range et.lanes).map fun j => on j && flagOf v ctl.src.width (from' j)) ∧ t.me.s = s.me.s ∧
      (∀ j, j < et.lanes → laneOf (t.me.getV d) et.width j =
        match cvtSource et ctl.src ctl.part.val j with
        | some i => if active (s.me.getK k) j = true then
            (convertLane et ctl.src m (fp8Sat s.me.fpc o et) ctl.isat
              (if ctl.scaled = true then some (vRider v).toNat else none) (laneOf v ctl.src.width i)).1 % 2 ^ et.width
          else laneOf (s.me.getV d) et.width j
        | none => laneOf (s.me.getV d) et.width j) ∧
      (∀ q, q ≠ d → t.me.getV q = s.me.getV q) ∧ t.me.pc = s.me.pc + 12 ∧ onlyMe s t) ∧
    (et.isFp8 = true → q8Wide src = true →
      let x (j : Nat) : FVal := (fmtOf src).decode
        (laneOf (s.me.getV (a + Fin.ofNat 32 (j / src.lanes))) src.width (j % src.lanes))
      let e := q8Scale et (q8Top ((List.range 32).map fun j => (active (s.me.getK k) j, x j)))
      let r (j : Nat) : Nat × Flags := toFp et m.1 (fp8Sat s.me.fpc o et) ((x j).scale (127 - (e : Int)))
      let flg (j : Nat) : Bool := flagOf (s.me.getV (a + Fin.ofNat 32 (j / src.lanes))) src.width (j % src.lanes)
      nextWith (exec (.vq8 g k et rm o src d a) s) fun t =>
        lanesWritten s t d k et (fun j => (r j).1) flg (BitVec.ofNat 8 e) ∧
        t.me.fps = s.me.fps ||| orFlags et (active (s.me.getK k)) (fun j => (m.2.or (r j).2).ofLane) |||
          lost ((List.range 32).map fun j => active (s.me.getK k) j && flg j)) ∧
    (q8Wide et = true →
      let r (j : Nat) : Nat × Flags :=
        convertLane et src m false false (some (vRider v).toNat) (laneOf v 8 (part.val * et.lanes + j))
      writesLanesFlags (.vdq8 g k et rm part src d a) s d k et (fun j => (r j).1) (fun _ => false) (vRider v) fun j => (r j).2) ∧
    exec (.vrdr g d a) s = wroteS s d ((vRider v).setWidth 64) 12 ∧
    exec (.vwrr g d a) s = ranTo s (s.me.setV d ((s.me.getS a).setWidth 8 ++ (s.me.getV d).extractLsb' 0 256)) 12

/-- The permutations of R166: broadcast, insertion, extraction, table look-up, interleaving patterns, slide, compression and
expansion. They raise no flag of `fps`, but that `vext` of a flagged lane sets LS; a lane takes the lost flags of the lanes that
it is formed from. -/
def Sys2Proof.Claims.VectorPermutations : Prop :=
  ∀ (s : State) (g : Guard) (k : KReg) (et : ElemTy) (d a b : Reg) (lane : Fin 32) (pat : Fin 4) (n : Fin 33),
    s.me.getP g.p ≠ g.pn →
    let w := et.width
    let la (j : Nat) : Nat := laneOf (s.me.getV a) w j
    let lb (j : Nat) : Nat := laneOf (s.me.getV b) w j
    let old (j : Nat) : Nat := laneOf (s.me.getV d) w j
    let x := (s.me.getS a).toNat
    let sel := (List.range et.lanes).filter fun j => active (s.me.getK k) j
    let h := et.lanes / 2
    let va := s.me.getV a
    let fa (j : Nat) : Bool := flagOf va w j
    let fb (j : Nat) : Bool := flagOf (s.me.getV b) w j
    writesLanes (.vbcast g k et d a) s d k et (fun _ => x) (fun _ => false) 127 ∧
    (nextWith (exec (.vins g et d a lane) s) fun t =>
      (∀ j, j < et.lanes → laneOf (t.me.getV d) w j = if j = lane.val then x % 2 ^ w else old j) ∧
      riderWritten s.me t.me d et (fun j => j == lane.val) (fun _ => false) (vRider (s.me.getV d)) ∧
      (∀ q, q ≠ d → t.me.getV q = s.me.getV q) ∧ t.me.s = s.me.s ∧ t.me.fps = s.me.fps ∧ t.me.pc = s.me.pc + 12 ∧ onlyMe s t) ∧
    (nextWith (exec (.vext g et d a lane) s) fun t =>
      t.me.getS d = (if d = 0 then 0 else if et.isSigned = true then BitVec.ofInt 64 (intVal et (la lane.val))
        else BitVec.ofNat 64 (la lane.val)) ∧ (∀ q, q ≠ d → t.me.getS q = s.me.getS q) ∧
      t.me.fps = s.me.fps ||| (if fa lane.val = true then 0x20 else 0) ∧ t.me.v = s.me.v ∧ t.me.pc = s.me.pc + 12 ∧ onlyMe s t) ∧
    writesLanes (.vperm g k et d a b) s d k et (fun j => la (lb j % et.lanes)) (fun j => fa (lb j % et.lanes) || fb j)
      (vRider va) ∧
    writesLanes (.vshuf g k et d a b pat) s d k et (fun j =>
      if pat = 0 then (if j % 2 = 0 then la (j / 2) else lb (j / 2))
      else if pat = 1 then (if j % 2 = 0 then la (h + j / 2) else lb (h + j / 2))
      else if pat = 2 then (if j < h then la (2 * j) else lb (2 * (j - h)))
      else (if j < h then la (2 * j + 1) else lb (2 * (j - h) + 1)))
      (fun j => if pat = 0 then (if j % 2 = 0 then fa (j / 2) else fb (j / 2))
        else if pat = 1 then (if j % 2 = 0 then fa (h + j / 2) else fb (h + j / 2))
        else if pat = 2 then (if j < h then fa (2 * j) else fb (2 * (j - h)))
        else (if j < h then fa (2 * j + 1) else fb (2 * (j - h) + 1))) (vRider va) ∧
    writesLanes (.vslide g k et d a b n) s d k et (fun j =>
      if j + n.val < et.lanes then la (j + n.val) else lb (j + n.val - et.lanes))
      (fun j => if j + n.val < et.lanes then fa (j + n.val) else fb (j + n.val - et.lanes)) (vRider va) ∧
    (nextWith (exec (.vcompress g k et d a) s) fun t =>
      (∀ j, j < et.lanes → laneOf (t.me.getV d) w j = match sel[j]? with | some i => la i | none => 0) ∧
      riderWritten s.me t.me d et (fun _ => true) (fun j => match sel[j]? with | some i => fa i | none => false) (vRider va) ∧
      (∀ q, q ≠ d → t.me.getV q = s.me.getV q) ∧ t.me.s = s.me.s ∧ t.me.fps = s.me.fps ∧ t.me.pc = s.me.pc + 12 ∧ onlyMe s t) ∧
    writesLanes (.vexpand g k et d a) s d k et (fun j => la ((List.range j).filter fun i => active (s.me.getK k) i).length)
      (fun j => fa ((List.range j).filter fun i => active (s.me.getK k) i).length) (vRider va)

/-- Reductions (R62, R167, R168): integer sums over the active lanes into a 64-bit lane 0, least and greatest lanes, dot products
with an optional addend, and windowed sums of floating-point lanes and products, rounded once, with the flags of `fps`. The
other data bits of V[d] are 0, and no other register changes. The rider holds lane 0's flag alone: the OR of those of the
active source lanes and, of a windowed sum, of a truncation in the window; for an 8-bit result it is that of V[a]. -/
def Sys2Proof.Claims.Reductions : Prop :=
  ∀ (s : State) (g : Guard) (k : KReg) (et : ElemTy) (w : WinSel) (d a b : Reg) (c : Option Reg), s.me.getP g.p ≠ g.pn →
    let va := s.me.getV a
    let vb := s.me.getV b
    let js := (List.range et.lanes).filter fun j => active (s.me.getK k) j
    let x (j : Nat) : Int := intVal et (laneOf va et.width j)
    let y (j : Nat) : Int := intVal et (laneOf vb et.width j)
    let rt : ElemTy := if et.isSigned = true then .i64 else .u64
    let c0 : Int := match c with | some r => intVal rt (laneOf (s.me.getV r) 64 0) | none => 0
    let f := fmtOf et
    let fx (j : Nat) : FVal := f.decode (laneOf va et.width j)
    let fy (j : Nat) : FVal := f.decode (laneOf vb et.width j)
    let invalid (v : FVal) : FVal × Flags := (v, Flags.invalid v.isSnan)
    let prod (j : Nat) : FVal × Flags :=
      if et.isFp8 = true then scaledProduct (fx j) (fy j) (vRider va).toNat (vRider vb).toNat else mulVal (fx j) (fy j)
    let addend : List (FVal × Flags) := match c with
      | some r => [invalid ((fmtOf (wideFp et)).decode (laneOf (s.me.getV r) (wideFp et).width 0))]
      | none => []
    let fa : Bool := js.any fun j => flagOf va et.width j
    let fab (rw : Nat) : Bool := (match c with | some r => flagOf (s.me.getV r) rw 0 | none => false) ||
      js.any fun j => flagOf va et.width j || flagOf vb et.width j
    let bit (x : Bool) : BitVec 8 := if x = true then 1 else 0
    let gives (i : Instr) (v : Nat) (rider : BitVec 8) (fl : Flags) : Prop := nextWith (exec i s) fun t =>
      (t.me.getV d).toNat % 2 ^ 256 = v ∧ vRider (t.me.getV d) = rider ∧ t.me.fps = s.me.fps ||| fpsBits fl ∧ (∀ q, q ≠ d → t.me.getV q = s.me.getV q) ∧
        t.me.s = s.me.s ∧ t.me.p = s.me.p ∧ t.me.k = s.me.k ∧ t.me.pc = s.me.pc + 12 ∧ specialsKept s.me t.me ∧ onlyMe s t
    (et.isInt = true →
      gives (.vred g k et .add w d a) ((js.map x).sum % 2 ^ 64).toNat (bit fa) {} ∧
      gives (.vred g k et .min w d a) (((js.map x).foldl Min.min (intMax et)) % 2 ^ et.width).toNat
        (if et.width = 8 then vRider va else bit fa) {} ∧
      gives (.vred g k et .max w d a) (((js.map x).foldl Max.max (intMin et)) % 2 ^ et.width).toNat
        (if et.width = 8 then vRider va else bit fa) {} ∧
      gives (.vdot g k et w d a b c) ((c0 + (js.map fun j => x j * y j).sum) % 2 ^ 64).toNat (bit (fab 64)) {}) ∧
    (et.isInt = false →
      (let r := windowed (js.map fun j => invalid (fx j)) (windowOf s.me.fpc w) (wideFp et)
       gives (.vred g k et .add w d a) (r.1 % 2 ^ (wideFp et).width) (bit (fa || r.2.1)) r.2.2) ∧
      (∀ p ∈ [(RedOp.min, false), (.max, true)],
        let r := js.foldl (fun acc j => let m := f.minMax p.2 acc.1 (laneOf va et.width j); (m.1, acc.2.or m.2))
          (f.infBits p.2, ({} : Flags))
        gives (.vred g k et p.1 w d a) (r.1 % 2 ^ et.width) (if et.width = 8 then vRider va else bit fa) r.2) ∧
      (let r := windowed (js.map prod ++ addend) (windowOf s.me.fpc w) (wideFp et)
       gives (.vdot g k et w d a b c) (r.1 % 2 ^ (wideFp et).width) (bit (fab (wideFp et).width || r.2.1)) r.2.2))

/-- The lost-flag test and the mask instructions (R169, R170): `vlsig` writes to a predicate whether an active lane is flagged;
`kop`, `kmov` in both directions and `kpop` work on all 32 bits of a mask. Nothing else changes but the pc. -/
def Obligations.MaskInstructions : Prop :=
  ∀ (s : State) (g : Guard) (k : KReg) (et : ElemTy) (d a : Reg) (dk ak bk : KReg) (dp : PReg) (f : LogFn),
    s.me.getP g.p ≠ g.pn →
    let x := s.me.getK ak
    let y := s.me.getK bk
    exec (.vlsig g k et dp a) s = ranTo s (s.me.setP dp
      ((List.range et.lanes).any fun j => active (s.me.getK k) j && flagOf (s.me.getV a) et.width j)) 12 ∧
    exec (.kop g f dk ak bk) s = ranTo s (s.me.setK dk (match f with
      | .and => x &&& y
      | .or => x ||| y
      | .xor => x ^^^ y
      | .andn => x &&& ~~~y
      | .not => ~~~x
      | .mov => x)) 12 ∧
    exec (.kmovToMask g dk a) s = ranTo s (s.me.setK dk ((s.me.getS a).setWidth 32)) 12 ∧
    exec (.kmovFromMask g d ak) s = wroteS s d (x.setWidth 64) 12 ∧
    exec (.kpop g d ak) s = wroteS s d (BitVec.ofNat 64 ((List.range 32).countP fun i => x.getLsbD i)) 12

/-! ### Memory -/

/-- The address of a base-format access (R85): S[a] plus disp9 in units of the size, or plus the literal. -/
def Sys2Proof.Claims.baseAddr (s : State) (a : Reg) (n : Nat) : Imm 9 → Word
  | .short i => s.me.getS a + i.signExtend 64 * BitVec.ofNat 64 n
  | .lit v => s.me.getS a + v

/-- Length of a base instruction with a displacement. -/
def Sys2Proof.Claims.dispLen : Imm 9 → Nat
  | .short _ => 4
  | .lit _ => 12

/-- The running thread set is at the start of an instruction, which this step performs whole (R294). -/
def Sys2Proof.Claims.whole (s : State) : Prop := s.me.part = none ∧ s.split = false

/-- The events of an access on checked pieces, performed in order: what they read, by lane, and the state after them. -/
def Sys2Proof.Claims.readsEvents (w : Who) (h : Hint) (es : List Ev) (s : State) (got : NMap Nat) (t : State) : Prop :=
  runEvents (readOne w h) es [] s = .ok (got, t) ∧ t.me.part = none

def Sys2Proof.Claims.writesEvents (w : Who) (h : Hint) (es : List Ev) (v : Ev → Nat) (s t : State) : Prop :=
  ∃ got, runEvents (fun e => writeOne w h (v e / 2 ^ (8 * e.off)) e) es [] s = .ok (got, t) ∧ t.me.part = none

/-- Loads of every size (R216, R217, R294), when the access passes its checks and meets no uncorrectable word: zero or sign
extension, a register pair for 16 bytes, and for a vector the rider 127 of byte lanes, the stored rider of `.s8`, else 0.
In a split step a load of several lines performs its first event and keeps the rest. -/
def Sys2Proof.Claims.LoadResults : Prop :=
  ∀ (s s1 s2 : State) (h : Hint) (d a : Reg) (disp : Imm 9) (n : Nat) (ps : List Piece) (got : NMap Nat),
    let w := s.who s.cur
    let v := (got.get? 0).getD 0
    let checked (u : Nat) : Prop := s.me.part = none ∧ n = u ∧
      checkAccess w (loadKind h) (baseAddr s a (if u = 33 then 32 else u) disp) n s = .ok (ps, s1)
    let read (vec : Bool) (u : Nat) : Prop :=
      s.split = false ∧ checked u ∧ readsEvents w h (laneEvents 0 vec 0 ps) s1 got s2
    let wrote (i : Instr) (x : Word) : Prop := exec i s = wroteS s2 d x (dispLen disp)
    (read false 1 → wrote (.ld .b h d a disp) (BitVec.ofNat 64 v) ∧
      wrote (.ld .bs h d a disp) ((BitVec.ofNat 8 v).signExtend 64)) ∧
    (read false 2 → wrote (.ld .h h d a disp) (BitVec.ofNat 64 v) ∧
      wrote (.ld .hs h d a disp) ((BitVec.ofNat 16 v).signExtend 64)) ∧
    (read false 4 → wrote (.ld .w h d a disp) (BitVec.ofNat 64 v) ∧
      wrote (.ld .ws h d a disp) ((BitVec.ofNat 32 v).signExtend 64)) ∧
    (read false 8 → wrote (.ld .d h d a disp) (BitVec.ofNat 64 v)) ∧
    (read false 16 → exec (.ld .q h d a disp) s =
      ranTo s2 ((s2.me.setS d (BitVec.ofNat 64 v)).setS (d + 1) (BitVec.ofNat 64 (v / 2 ^ 64))) (dispLen disp)) ∧
    (read true 32 → exec (.vld .b h d a disp) s = ranTo s2 (s2.me.setV d (127#8 ++ BitVec.ofNat 256 v)) (dispLen disp) ∧
      ∀ sz ∈ [VSize.h, .w, .d], exec (.vld sz h d a disp) s = ranTo s2 (s2.me.setV d (0#8 ++ BitVec.ofNat 256 v)) (dispLen disp)) ∧
    (read true 33 → exec (.vld .s8 h d a disp) s =
      ranTo s2 (s2.me.setV d (BitVec.ofNat 8 (v / 2 ^ 256) ++ BitVec.ofNat 256 v)) (dispLen disp)) ∧
    (∀ e r x, s.split = true → checked 8 → laneEvents 0 false 0 ps = e :: r → r ≠ [] → readOne w h e s1 = .ok (x, s2) →
      exec (.ld .d h d a disp) s = .next (s2.setMe { s2.me with
        part := some { instr := .ld .d h d a disp, todo := r, got := addGot [] e x } }))

/-- The bytes that a store writes, as a number, with their count (R216, R217). -/
def Sys2Proof.Claims.storedValue (t : ThreadSet) (d : Reg) : Instr → Option (Nat × Nat)
  | .st .b .. => some (1, (t.getS d).toNat)
  | .st .h .. => some (2, (t.getS d).toNat)
  | .st .w .. => some (4, (t.getS d).toNat)
  | .st .d .. => some (8, (t.getS d).toNat)
  | .st .q .. => some (16, (t.getS d).toNat + 2 ^ 64 * (t.getS (d + 1)).toNat)
  | .vst .s8 .. => some (33, (t.getV d).toNat)
  | .vst .. => some (32, (t.getV d).toNat)
  | _ => none

/-- Stores (R216, R217, R294): the events of the access write the value, and registers stay, but for LS of a flagged vector
lane; the pc moves past the instruction. In a split step a store of several lines performs its first event and keeps the
rest. -/
def Sys2Proof.Claims.StoreResults : Prop :=
  ∀ (s s1 t : State) (h : Hint) (d a : Reg) (disp : Imm 9) (ps : List Piece) (n v : Nat),
    let w := s.who s.cur
    (∀ sz : StSize, storedValue s.me d (.st sz h d a disp) = some (n, v) →
      checkAccess w (storeKind h) (baseAddr s a n disp) n s = .ok (ps, s1) →
      let es := laneEvents 0 false 0 ps
      (whole s → writesEvents w h es (fun _ => v) s1 t → exec (.st sz h d a disp) s = .next (t.advance (dispLen disp))) ∧
      (∀ e r x, s.me.part = none → s.split = true → es = e :: r → r ≠ [] →
        writeOne w h (v / 2 ^ (8 * e.off)) e s1 = .ok (x, t) → exec (.st sz h d a disp) s = .next (t.setMe { t.me with
          part := some { instr := .st sz h d a disp, todo := r, got := addGot [] e x } }))) ∧
    (∀ sz : VSize, storedValue s.me d (.vst sz h d a disp) = some (n, v) → whole s →
      checkAccess w (storeKind h) (baseAddr s a 32 disp) n s = .ok (ps, s1) →
      writesEvents w h (laneEvents 0 true 0 ps) (fun _ => v) s1 t →
      let lost := sz ≠ .b ∧ sz ≠ .s8 ∧ (vRider (s.me.getV d)).toNat % (if sz = .d then 16 else 256) ≠ 0
      exec (.vst sz h d a disp) s = ranTo t (t.me.raise (if lost then 0x20 else 0)) (dispLen disp))

/-- Nothing is on its way to memory: no fold is outstanding, no write to the host is pending, and no die holds a non-coherent
line. -/
def Sys2Proof.Claims.settled (s : State) : Prop :=
  (∀ e ∈ s.cores, e.2.folds = []) ∧ s.fab.heldFolds = [] ∧ s.msys.posted = [] ∧ s.msys.nc = []

/-- The frame of a load: while nothing is on its way to memory, no stash map is enabled, and no piece lies in a non-coherent
host page, the events of a load leave every byte of every memory as it was. -/
def Sys2Proof.Claims.LoadFrame : Prop :=
  ∀ (s s1 s2 : State) (w : Who) (k : Kind) (h : Hint) (addr : Word) (n lane : Nat) (vec : Bool) (ps : List Piece) (got : NMap Nat),
    settled s → (∀ e ∈ s.cores, ∀ i : Fin 8, e.2.smap[i].getLsbD 63 = false) → checkAccess w k addr n s = .ok (ps, s1) →
    (∀ p ∈ ps, p.loc.nc = false) → readsEvents w h (laneEvents lane vec 0 ps) s1 got s2 → sameMemory s s2

/-- Local memory (R203 to R205): a load or store that lies in the local window, clear of every enabled stash map, moves exactly
the core's bytes at its offset; a store changes no other byte of any memory and no register but the pc, and a load no byte
and no register but its own. The thread set's logical clock follows the memory's. -/
def Sys2Proof.Claims.LocalWindowAccess : Prop :=
  ∀ (s : State) (h : Hint) (d a : Reg) (disp : Imm 9), whole s →
    let c := coreOf s.cur
    let addr := baseAddr s a 8 disp
    let off := addr.toNat - 0xFF00000000000000
    c < 4096 → 0xFF00000000000000 ≤ addr.toNat → off + 8 ≤ 0x80000 → (∀ i : Fin 8, (s.core c).smap[i].getLsbD 63 = false) →
    (s.core c).mem.wf = true →
    ((s.core c).poison = [] → nextWith (exec (.ld .d h d a disp) s) fun t =>
      (∃ p, t.me = { (s.me.setS d (BitVec.ofNat 64 (getNum (s.core c).mem off 8))).past (dispLen disp) with pts := p }) ∧
      sameMemory s t ∧ othersKept s t) ∧
    nextWith (exec (.st .d h d a disp) s) fun t =>
      (∀ b, (t.core c).mem.get b = if off ≤ b ∧ b < off + 8 then (s.me.getS d).extractLsb' (8 * (b - off)) 8
        else (s.core c).mem.get b) ∧
      (∀ sp b, sp ≠ .core c → (memOf t sp).get b = (memOf s sp).get b) ∧
      (∃ p, t.me = { s.me.past (dispLen disp) with pts := p }) ∧ othersKept s t

/-- The frame of a store to global space (R216, R277, R297), while nothing is on its way to memory and outside non-coherent host
pages: every byte of device, host and peer memory outside its pieces reads as before, under the key that wrote when it
shares a 16-byte block with a piece, and of a one-piece store to a place that can be reached the value is read back. -/
def Sys2Proof.Claims.GlobalStoreFrame : Prop :=
  ∀ (s s1 t : State) (h : Hint) (addr : Word) (n v lane : Nat) (vec : Bool) (ps : List Piece) (w : Who),
    s.memoryOk = true → settled s → checkAccess w (storeKind h) addr n s = .ok (ps, s1) →
    (∀ p ∈ ps, p.loc.nc = false) → writesEvents w h (laneEvents lane vec 0 ps) (fun _ => v) s1 t →
    (∀ sp b key, (∀ c, sp ≠ .core c) →
      (∀ p ∈ ps, let l := backing s1 p.loc false; l.space = sp → ¬(l.addr ≤ b ∧ b < l.addr + p.n) ∧
        (b / 16 ∈ blocksOf l.addr p.n → key = locKey s1 l)) →
      readByte t sp key b = readByte s sp key b) ∧
    (∀ p, ps = [p] → (∀ q, p.loc.space = .peer q → (s1.peer? q).map Peer.link = some .up) →
      (p.loc.space = .host → s.mgmt.hostUp = true) → rawRead t (backing s1 p.loc false) n = v % 2 ^ (8 * n))

/-- The checks of an access (R203, R204, R209, R418): an address that wraps, or lies in the hole, is a protection fault; a window
access of a core that runs past the window's end is a straddle fault (class 7); one that meets an enabled map is a
protection fault; the hub has no window. The load or store whose checks fail posts the fault. -/
def Obligations.AccessFaults : Prop :=
  ∀ (s : State) (w : Who) (k : Kind) (addr : Word) (n : Nat), 1 ≤ n → n ≤ 64 →
    let a := addr.toNat
    let fail (c : Nat) : Prop := checkAccess w k addr n s = .error (.fault { cls := c, info := addr, write := k.w })
    (2 ^ 64 < a + n → fail 6) ∧
    (2 ^ 56 ≤ a → a < 0xFF00000000000000 → a + n ≤ 2 ^ 64 → fail 6) ∧
    (0xFF00000000080000 ≤ a → a + n ≤ 2 ^ 64 → fail 6) ∧
    (a < 2 ^ 56 → 2 ^ 56 < a + n → fail 6) ∧
    (w.core ≠ hubCore → 0xFF00000000000000 ≤ a → a < 0xFF00000000080000 → 0xFF00000000080000 < a + n → fail 7) ∧
    (w.core ≠ hubCore → 0xFF00000000000000 ≤ a → a + n ≤ 0xFF00000000080000 →
      overStash (s.core w.core) a (a + n - 1) = true → fail 6) ∧
    (w.core = hubCore → 2 ^ 56 ≤ a → fail 6) ∧
    (∀ (h : Hint) (d b : Reg) (disp : Imm 9) (f : FaultInfo), s.me.part = none →
      checkAccess (s.who s.cur) (loadKind h) (baseAddr s b 8 disp) 8 s = .error (.fault f) →
      exec (.ld .d h d b disp) s = posted (.ld .d h d b disp) f s) ∧
    (∀ (h : Hint) (d b : Reg) (disp : Imm 9) (f : FaultInfo), s.me.part = none →
      checkAccess (s.who s.cur) (storeKind h) (baseAddr s b 8 disp) 8 s = .error (.fault f) →
      exec (.st .d h d b disp) s = posted (.st .d h d b disp) f s)

/-- Gather, scatter, strided and broadcast access (R218 to R220): when every active lane's access passes its checks, each active
lane is loaded from its own address (or from the one address of `vldb`), the other lanes keep their values and lost flags, a loaded
lane's flag is cleared, and an 8-bit destination takes the rider 127; no other register changes. A scatter writes its lanes in
ascending order, and sets LS where an active lane is flagged. -/
def Obligations.VectorMemory : Prop :=
  ∀ (s s1 s2 : State) (g : Guard) (k : KReg) (et : ElemTy) (h : Hint) (sc : Bool) (d a b : Reg) (disp : Imm 13)
      (es : List Ev) (got : NMap Nat), s.me.getP g.p ≠ g.pn → whole s →
    let len := match disp with | .short _ => 12 | .lit _ => 20
    let w := s.who s.cur
    let base := s.me.getS a + (match disp with | .short i => i.signExtend 64 | .lit v => v)
    let strided (j : Nat) : Word := base + BitVec.ofNat 64 j * s.me.getS b
    let index (j : Nat) : Word :=
      (BitVec.ofNat 32 (laneOf (s.me.getV (b + Fin.ofNat 32 (j / 8))) 32 (j % 8))).signExtend 64
    let indexed (j : Nat) : Word := base + index j * BitVec.ofNat 64 (if sc = true then et.bytes else 1)
    let addrs (f : Nat → Word) : List (Nat × Word) :=
      ((List.range et.lanes).filter fun j => active (s.me.getK k) j).map fun j => (j, f j)
    let checks (kd : Kind) (f : Nat → Word) : Prop := laneAccesses w kd et.bytes (addrs f) s = .ok (es, s1)
    let rest (u t : State) : Prop := (∀ q, q ≠ d → t.me.getV q = u.me.getV q) ∧ t.me.s = u.me.s ∧ t.me.p = u.me.p ∧
      t.me.k = u.me.k ∧ t.me.fps = u.me.fps ∧ t.me.pc = u.me.pc + BitVec.ofNat 64 len ∧ specialsKept u.me t.me ∧ onlyMe u t
    let loaded (i : Instr) : Prop := nextWith (exec i s) fun t =>
      (∀ j, j < et.lanes → laneOf (t.me.getV d) et.width j =
        match got.get? j with
        | some x => x % 2 ^ et.width
        | none => laneOf (s2.me.getV d) et.width j) ∧
      riderWritten s2.me t.me d et (fun j => (got.get? j).isSome) (fun _ => false) 127 ∧ rest s2 t
    let rd : Prop := readsEvents w h es s1 got s2
    (checks (loadKind h) strided → rd → loaded (.vlds g k et h d a b disp)) ∧
    (checks (loadKind h) indexed → rd → loaded (.vldx g k et h sc d a b disp)) ∧
    (checks (storeKind h) indexed → writesEvents w h es (fun e => laneOf (s.me.getV d) et.width e.lane) s1 s2 →
      nextWith (exec (.vstx g k et h sc d a b disp) s) fun t =>
        t.me.fps = s2.me.fps ||| (if ((List.range et.lanes).any fun j =>
          active (s.me.getK k) j && flagOf (s.me.getV d) et.width j) = true then 0x20 else 0) ∧
        t.me.v = s2.me.v ∧ t.me.s = s2.me.s ∧ t.me.p = s2.me.p ∧ t.me.k = s2.me.k ∧
        t.me.pc = s2.me.pc + BitVec.ofNat 64 len ∧ specialsKept s2.me t.me ∧ onlyMe s2 t) ∧
    (∀ v, memRead w h base et.bytes s = .ok (v, s1) → s1.me.part = none →
      (∃ j, j < et.lanes ∧ active (s.me.getK k) j = true) → nextWith (exec (.vldb g k et h d a disp) s) fun t =>
        (∀ j, j < et.lanes → laneOf (t.me.getV d) et.width j =
          if active (s1.me.getK k) j = true then v % 2 ^ et.width else laneOf (s1.me.getV d) et.width j) ∧
        riderWritten s1.me t.me d et (active (s1.me.getK k)) (fun _ => false) 127 ∧ rest s1 t) ∧
    ((∀ j, j < et.lanes → active (s.me.getK k) j = false) → nextWith (exec (.vldb g k et h d a disp) s) fun t =>
      (∀ j, j < et.lanes → laneOf (t.me.getV d) et.width j = laneOf (s.me.getV d) et.width j) ∧
      riderWritten s.me t.me d et (fun _ => false) (fun _ => false) 127 ∧ rest s t)

/-- The atomics (R278 to R283): a misaligned address is fault class 8; else, when the access passes its checks, one
read-modify-write at the home, whose old value S[d] receives (sign-extended from 32 bits); a compare-and-swap writes only
when it compares equal; a folded atomic enters the fold buffer and returns nothing. Of a local read-modify-write, the old value
is what the core's memory held, and its n bytes, and no other byte of any memory, hold the new one; of one elsewhere, the new
value is read back, or the old one where it writes none, and while nothing is on its way to memory every other byte reads as
before, under the key that wrote where it shares a 16-byte block with them. -/
def Obligations.AtomicResults : Prop :=
  ∀ (s s1 s2 : State) (g : Guard) (fn : AmoFn) (ff : FoldFn) (et : ElemTy) (wide : Bool) (d a b c : Reg) (disp : Imm 13)
      (ps : List Piece) (old : Nat), s.me.getP g.p ≠ g.pn →
    let len := match disp with | .short _ => 12 | .lit _ => 20
    let w := s.who s.cur
    let addr := s.me.getS a + (match disp with | .short i => i.signExtend 64 | .lit v => v)
    let n := if wide = true then 8 else 4
    let x := (s.me.getS b).toNat % 2 ^ (8 * n)
    let y := (s.me.getS c).toNat % 2 ^ (8 * n)
    let res : Word := if wide = true then BitVec.ofNat 64 old else (BitVec.ofNat 32 old).signExtend 64
    let sx (v : Nat) : Int := if v.testBit (8 * n - 1) = true then (v : Int) - 2 ^ (8 * n) else (v : Int)
    let new (v : Nat) : Nat := match fn with
      | .add => (v + x) % 2 ^ (8 * n)
      | .and => v &&& x
      | .or => v ||| x
      | .xor => v ^^^ x
      | .min => if sx x < sx v then x else v
      | .max => if sx v < sx x then x else v
      | .minu => Min.min v x
      | .maxu => Max.max v x
      | .swap => x
    let mis (i : Instr) : Prop := exec i s = posted i { cls := 8, info := addr, write := true } s
    let ok (k : Nat) (sup : Bool) : Prop := atomicPieces w .rmw addr k sup s = .ok (ps, s1) ∧ needClean w ps s1 = .ok ((), s1)
    let does (f : Nat → Option Nat) : Prop := rmw w ps f s1 = .ok (old, s2) ∧ s2.me.part = none
    (addr.toNat % n ≠ 0 → mis (.amo g fn wide d a b disp) ∧ mis (.cas g wide d a b c disp)) ∧
    (addr.toNat % 16 ≠ 0 → mis (.cas2 g d a b c disp)) ∧
    (addr.toNat % et.bytes ≠ 0 → mis (.amof g ff et a b disp)) ∧
    (ok n (fn == .add || fn == .swap) → does (fun v => some (new v)) →
      exec (.amo g fn wide d a b disp) s = wroteS s2 d res len) ∧
    (ok n true → does (fun v => if v = x then some y else none) → exec (.cas g wide d a b c disp) s = wroteS s2 d res len) ∧
    (ok 16 true → does (fun v => if v = pairVal s.me b then some (pairVal s.me c) else none) →
      exec (.cas2 g d a b c disp) s =
        ranTo s2 ((s2.me.setS d (BitVec.ofNat 64 old)).setS (d + 1) (BitVec.ofNat 64 (old / 2 ^ 64))) len) ∧
    (atomicPieces w { r := true, w := true, fold := true } addr et.bytes (ff == .add && et.isInt) s = .ok (ps, s1) →
      let u := foldIn w s.cur ps ff et ((s.me.getS b).toNat % 2 ^ et.width) s1
      u.me.part = none → exec (.amof g ff et a b disp) s = .next (u.advance len)) ∧
    (∀ c' f, ps = [{ va := addr.toNat, n := n, loc := { space := .core c', addr := f } }] →
      rmw w ps (fun v => some (new v)) s1 = .ok (old, s2) → (s1.core c').mem.wf = true →
      old = getNum (s1.core c').mem f n ∧
      (∀ q, (s2.core c').mem.get q = if f ≤ q ∧ q < f + n then BitVec.ofNat 8 (new old / 2 ^ (8 * (q - f)))
        else (s1.core c').mem.get q) ∧
      ∀ sp q, sp ≠ .core c' → (memOf s2 sp).get q = (memOf s1 sp).get q) ∧
    (∀ p (new' : Nat → Option Nat), ps = [p] → p.n = n → s1.memoryOk = true → rmw w ps new' s1 = .ok (old, s2) →
      let l := backing s1 p.loc false
      (∀ y, new' old = some y → rawRead s2 l n = y % 2 ^ (8 * n)) ∧ (new' old = none → rawRead s2 l n = old) ∧
      (settled s1 → ∀ sp q key, (∀ c, sp ≠ .core c) →
        (l.space = sp → ¬(l.addr ≤ q ∧ q < l.addr + n) ∧ (q / 16 ∈ blocksOf l.addr n → key = locKey s1 l)) →
        readByte s2 sp key q = readByte s1 sp key q))

/-- The fences and waits (R284 to R289): `fence` places the folds within its scope; with scope core, cluster, die or pkg it writes
0 at once, and with scope fab or sys when no access that it covers waits for a link or has met a failed peer; for a failed
peer it writes 1 with the lowest one, and else it waits. `cwait` goes on with the value it sees once that is at least S[b],
and else waits. `fdrain` places all folds, and goes on once none of them waits for its link. -/
def Obligations.FencesAndWaits : Prop :=
  ∀ (s : State) (sc : Scope) (d a b : Reg),
    (∀ n, (sc, n) ∈ [(Scope.core, 1), (.cluster, 2), (.die, 3), (.pkg, 4)] →
      let u := placeFolds s s.cur n
      exec (.fence sc d) s = ranTo u { u.me.setS d 0 with status := .running } 4) ∧
    (∀ n, (sc, n) ∈ [(Scope.fab, 5), (.sys, 6)] →
      let u := placeFolds s s.cur n
      let free : Prop := parkedPeer u s.cur = none ∧ (sc = .sys → s.mgmt.hostUp = true ∨ hostPending u s.cur = false)
      let wrote (x : Word) : Prop := nextWith (exec (.fence sc d) s) fun t =>
        t.me.getS d = (if d = 0 then 0 else x) ∧ (∀ q, q ≠ d → t.me.getS q = s.me.getS q) ∧ t.me.pc = s.me.pc + 4 ∧
          t.me.status = .running ∧ t.me.toPeers = []
      (failedPeer u u.me.toPeers = none → free → wrote 0) ∧
      (∀ p, failedPeer u u.me.toPeers = some p → wrote (BitVec.ofNat 64 (1 + 256 * p))) ∧
      (failedPeer u u.me.toPeers = none → ¬free →
        exec (.fence sc d) s = .next (u.setMe { u.me with status := .waitFence (.fence sc d) u.clk }))) ∧
    ((s.me.getS a).toNat % 8 ≠ 0 → exec (.cwait d a b) s = posted (.cwait d a b) { cls := 8, info := s.me.getS a } s) ∧
    (∀ v s1, (s.me.getS a).toNat % 8 = 0 → memRead (s.who s.cur) .unc (s.me.getS a) 8 s = .ok (v, s1) → s1.me.part = none →
      ((s.me.getS b).toNat ≤ v → exec (.cwait d a b) s =
        ranTo s1 { s1.me.setS d (BitVec.ofNat 64 v) with status := .running } 4) ∧
      (v < (s.me.getS b).toNat → exec (.cwait d a b) s = .next (s.setMe { s.me with status := .waitWake (.cwait d a b) }))) ∧
    (let u := placeFolds s s.cur 6
     (foldsHeld u s.cur = false → exec .fdrain s = .next (u.advance 4)) ∧
     (foldsHeld u s.cur = true → exec .fdrain s = .next (u.setMe { u.me with status := .waitFence .fdrain u.clk })))

/-- `pf` and `cwb` (R290, R291) end at once, whatever their operands, and never fault. No register, flag, special register or queue
of the thread set changes but the pc, and no other thread set does; their logical clocks may follow folds that a page walk or
the read of a line pulls. No byte of the core's own window changes: `pf` may fill the local range of an enabled stash map, which
the window does not reach (R209). While nothing is on its way to memory, no byte of any other memory changes either. -/
def Obligations.Hints : Prop :=
  ∀ (s : State) (h : Hint) (a b : Reg),
    let c := coreOf s.cur
    let under (q : Nat) : Prop := ∃ i : Fin 8, let m := (s.core c).smap[i]
      m.getLsbD 63 = true ∧ mapLocal m ≤ q ∧ q < mapLocal m + mapLen m
    let ends (i : Instr) (kept : Nat → Prop) : Prop := nextWith (exec i s) fun t =>
      (∃ p, t.me = { s.me.past 4 with pts := p }) ∧
      (∀ j, j ≠ s.cur → ∃ p, t.ts j = { s.ts j with pts := p }) ∧
      ((∀ e ∈ s.cores, e.2.folds = []) → s.fab.heldFolds = [] → othersKept s t) ∧
      ((s.core c).mem.wf = true → ∀ q, kept q → (t.core c).mem.get q = (s.core c).mem.get q) ∧
      (settled s → ∀ sp q, sp ≠ .core c → (memOf t sp).get q = (memOf s sp).get q)
    ends (.pf h a) (fun q => ¬under q) ∧ ends (.cwb a b) (fun _ => True)

/-! ### The matrix engine -/

/-- A matrix command of n bytes has been accepted at the end of the queue of the running thread set's core (R172): it keeps
the instruction, its thread set, its pc and its `fpc`, and it has not begun; S[d] is pending (R110). -/
def Sys2Proof.Claims.matrixAccepted (i : Instr) (d : Reg) (n : Nat) (s t : State) : Prop :=
  t.me = (s.me.pend d).past n ∧ othersKept s t ∧ sameMemory s t ∧
  ∃ m : MCmd, (t.core (coreOf s.cur)).mq = (s.core (coreOf s.cur)).mq ++ [m] ∧ m.instr = i ∧ m.ts = s.cur ∧ m.pc = s.me.pc ∧
    m.fpc = s.me.fpc ∧ m.id = (s.core (coreOf s.cur)).nextCmd ∧ m.started = false ∧ m.done = false

/-- An operand of n bytes lies in the local window, clear of every enabled stash map. -/
def Sys2Proof.Claims.inLocal (k : Core) (a : Word) (n : Nat) : Prop :=
  inWindow a.toNat = true ∧ inWindow (a.toNat + n - 1) = true ∧ overStash k a.toNat (a.toNat + n - 1) = false

/-- Rows 1 to 6 of the checks of R189 pass for an `mmac` or `mmacs`: tile, slot, K range, bypass, windows, alignment. -/
def Sys2Proof.Claims.macReady (s : State) (m : MacCtl) (sp : Option Sparsity) (a : ASrc) (c : Reg) : Prop :=
  let k := s.core (coreOf s.cur)
  let v := viewOf k
  let len := m.afmt.k * m.afmt.et.bytes
  (m.zf = true ∨ formed v.halves m.tileFmt m.tile.val = true) ∧ v.descs[m.slot] = some (descOf m.bfmt sp) ∧
  (m.kb.val + 1) * m.afmt.k ≤ logicalRows m.bfmt sp ∧
  (match a with
    | .localMem r q =>
      let st := (s.me.getS q).toNat
      inLocal k (s.me.getS r) (31 * (if st = 0 then len else st) + len) ∧ (s.me.getS r).toNat % 32 = 0 ∧ st % 32 = 0 ∧
        (st = 0 ∨ len ≤ st)
    | .qa => True
    | .bypass => v.tag = some m.afmt.et ∧ ∀ b : Fin 4, b.val < (m.afmt.k + 31) / 32 → v.valid[b] = true) ∧
  (m.scale = .blk → inLocal k (s.me.getS c) 128 ∧ (s.me.getS c).toNat % 4 = 0)

/-- Rows 1 to 6 and 8 of R189, and R209, for an `mmac` or `mmacs`: of the failing checks the first gives the fault, of class 10 with
its detail, a straddle (class 7) or a protection fault (class 6). The operands are A in local memory, with a stride read
without sign and a range that does not wrap (log entry 65), and the scale array of scale mode 1. -/
def Sys2Proof.Claims.macFaults (s : State) (i : Instr) (m : MacCtl) (sp : Option Sparsity) (src : ASrc) (c : Reg) : Prop :=
  let k := s.core (coreOf s.cur)
  let v := viewOf k
  let addr : Word := match src with | .localMem r _ => s.me.getS r | _ => 0
  let no (detail : Nat) : Prop := exec i s = posted i { cls := 10, detail, info := addr } s
  let tileOk : Prop := m.zf = true ∨ formed v.halves m.tileFmt m.tile.val = true
  let slotOk : Prop := v.descs[m.slot] = some (descOf m.bfmt sp)
  let rowsOk : Prop := (m.kb.val + 1) * m.afmt.k ≤ logicalRows m.bfmt sp
  let bypassBad : Prop := src = .bypass ∧
    (v.tag ≠ some m.afmt.et ∨ ∃ b : Fin 4, b.val < (m.afmt.k + 31) / 32 ∧ v.valid[b] = false)
  let len := m.afmt.k * m.afmt.et.bytes
  let rows : List (Word × Nat) := match src with
    | .localMem _ r => let st := (s.me.getS r).toNat; [(addr, 31 * (if st = 0 then len else st) + len)]
    | _ => []
  let ops : List (Word × Nat) := rows ++ if m.scale = .blk then [(s.me.getS c, 128)] else []
  let straddles (o : Word × Nat) : Bool := inWindow o.1.toNat && !inWindow (o.1.toNat + o.2 - 1)
  let under (o : Word × Nat) : Bool := overStash k o.1.toNat (o.1.toNat + o.2 - 1)
  (¬tileOk → no 1) ∧ (tileOk → ¬slotOk → no 2) ∧ (tileOk → slotOk → ¬rowsOk → no 3) ∧
  (tileOk → slotOk → rowsOk → bypassBad → no 4) ∧
  (tileOk → slotOk → rowsOk → ¬bypassBad →
    (∀ o, ops.find? straddles = some o → exec i s = posted i { cls := 7, info := o.1 } s) ∧
    (ops.find? straddles = none → (∃ o ∈ ops, inWindow o.1.toNat = false) → no 5) ∧
    (ops.find? straddles = none → (∀ o ∈ ops, inWindow o.1.toNat = true) →
      (∀ o, ops.find? under = some o → exec i s = posted i { cls := 6, info := o.1 } s) ∧
      (ops.find? under = none →
        (∃ ra rb, src = .localMem ra rb ∧ let st := (s.me.getS rb).toNat
          addr.toNat % 32 ≠ 0 ∨ st % 32 ≠ 0 ∨ (st ≠ 0 ∧ st < len)) ∨ (m.scale = .blk ∧ (s.me.getS c).toNat % 4 ≠ 0) → no 6)))

/-- An `mwld` has been accepted with this image and side array, and the translations of these parts (R192). -/
def Sys2Proof.Claims.mwldAccepted (i : Instr) (d : Reg) (n : Nat) (image side : Word) (ps : List Piece) (s t : State) : Prop :=
  matrixAccepted i d n s t ∧ ∃ m ∈ (t.core (coreOf s.cur)).mq, m.id = (s.core (coreOf s.cur)).nextCmd ∧ m.a = image ∧
    m.side = side ∧ m.pages = pageMap ps

/-- The forms of `mwld` (R177, R192, R211): the image lies at S[a] plus the displacement, and the side array of a sparse one at S[b],
or both where the fields of a layout record say. Every page of both is translated; an image is a multiple of 64, a side
array one of 8; a straddle is class 7. -/
def Sys2Proof.Claims.mwldForms (s : State) (g : Guard) (f : MFmt) (slot : Fin 8) (d a b : Reg) (disp : Imm 13) (sp : Sparsity) : Prop :=
  let w := s.who s.cur
  let image := s.me.getS a + (match disp with | .short i => i.signExtend 64 | .lit x => x)
  let len := match disp with | .short _ => 12 | .lit _ => 20
  let side := s.me.getS b
  let n := sideLen f (some sp)
  let h := s.me.getS a
  let clear (x : Word) (n : Nat) : Prop := inWindow x.toNat = true → inWindow (x.toNat + n - 1) = true
  let got (x : Word) (n : Nat) (s : State) (ps : List Piece) (t : State) : Prop := clear x n ∧ checkAccess w .load x n s = .ok (ps, t)
  let ok (i : Instr) (len : Nat) (x y : Word) (ps : List Piece) (u : State) : Prop := u.me.part = none →
    nextWith (exec i s) fun t => mwldAccepted i d len x y ps u t
  let bad (i : Instr) (f : FaultInfo) : Prop := exec i s = posted i f s
  n = f.storedRows / sp.nVal * 16 * sp.m ∧
  (∀ ps s1, got image 32832 s ps s1 → let i : Instr := .mwld g f slot d (.dense a disp)
    (image.toNat % 64 = 0 → ok i len image 0 ps s1) ∧ (image.toNat % 64 ≠ 0 → bad i { cls := 10, detail := 6, info := h })) ∧
  (inWindow image.toNat = true → inWindow (image.toNat + 32831) = false → let i : Instr := .mwld g f slot d (.dense a disp)
    bad i { cls := 7, info := image }) ∧
  (∀ ps s1 qs s2, got image 32832 s ps s1 → got side n s1 qs s2 → 0 < n → let i : Instr := .mwld g f slot d (.sparse a disp sp b)
    (image.toNat % 64 = 0 → side.toNat % 8 = 0 → ok i len image side (ps ++ qs) s2) ∧
    (image.toNat % 64 ≠ 0 ∨ side.toNat % 8 ≠ 0 → bad i { cls := 10, detail := 6, info := h })) ∧
  (h.toNat % 64 ≠ 0 → ∀ i ∈ [Instr.mwld g f slot d (.recDense a), .mwld g f slot d (.recSparse a sp)],
    bad i { cls := 11, detail := 1, info := h }) ∧
  (h.toNat % 64 = 0 → ∀ r s0, useRecord w h s = .ok (r, s0) →
    let x := BitVec.ofNat 64 (recAddr h.toNat r 0 0)
    let y := BitVec.ofNat 64 (recAddr h.toNat r 8 1)
    (recordZeros r = false → ∀ i ∈ [Instr.mwld g f slot d (.recDense a), .mwld g f slot d (.recSparse a sp)],
      bad i { cls := 11, detail := 1, info := h }) ∧
    (recordZeros r = true → ∀ ps s1, got x 32832 s0 ps s1 → x.toNat % 64 = 0 →
      ok (.mwld g f slot d (.recDense a)) 12 x y ps s1 ∧
      ∀ qs s2, got y n s1 qs s2 → 0 < n → y.toNat % 8 = 0 → ok (.mwld g f slot d (.recSparse a sp)) 12 x y (ps ++ qs) s2))

/-- A command is not ready while the queue holds 8, and is accepted when its checks pass (R172, R179, R189, R192 to R199);
of the failing checks the first gives the fault (class 10); a stride is a number without sign and a range does not wrap (log
entry 65). `mwait` waits for the commands accepted before it (R199), and what
follows it follows their completions (R303). -/
def Obligations.MatrixCommandsAccepted : Prop :=
  ∀ (s : State) (g : Guard) (m : MacCtl) (sp : Sparsity) (tf : TileFmt) (tile : Fin 8) (bf : MFmt) (slot : Fin 8) (d a b c : Reg)
      (src : ASrc) (et : ElemTy) (rm : RoundField) (o : Fp8Ovr) (disp col : Imm 13), s.me.getP g.p ≠ g.pn →
    let k := s.core (coreOf s.cur)
    let v := viewOf k
    let ok (i : Instr) (d : Reg) (n : Nat) (u : State) : Prop := nextWith (exec i s) fun t => matrixAccepted i d n u t
    let drain := s.me.getS a + (match disp with | .short i => i.signExtend 64 | .lit x => x)
    let len := match disp with | .short _ => 12 | .lit _ => 20
    let st := (s.me.getS b).toNat
    let row := 32 * et.bytes
    (8 ≤ k.mq.length → ∀ i ∈ [Instr.mmac g m src c, .mmacs g m sp src c, .mzero g tf tile, .mwld g bf slot d (.dense a disp),
      .mwld g bf slot d (.sparse a disp sp b), .mwld g bf slot d (.recDense a), .mwld g bf slot d (.recSparse a sp),
      .mdrain g et rm o tf tile d a b c disp, .mdrainq g et rm o tf tile, .mdraina g et rm o tf tile col, .mstat g d tile,
      .mclrs g tile], exec i s = .next s) ∧
    (k.mq.length < 8 → s.me.part = none →
      (macReady s m none src c → ok (.mmac g m src c) 0 12 s) ∧
      (macReady s m (some sp) src c → ok (.mmacs g m sp src c) 0 12 s) ∧
      macFaults s (.mmac g m src c) m none src c ∧ macFaults s (.mmacs g m sp src c) m (some sp) src c ∧
      mwldForms s g bf slot d a b disp sp ∧
      ((∀ f ∈ [TileFmt.f32, .bf16, .f16, .i32, .f64], f.indexOk tile.val = true → formed v.halves f tile.val = false) →
        (∀ i ∈ [Instr.mdrainq g et rm o tf tile, .mdraina g et rm o tf tile col], exec i s = posted i { cls := 10, detail := 1 } s) ∧
        exec (.mdrain g et rm o tf tile d a b c disp) s =
          posted (.mdrain g et rm o tf tile d a b c disp) { cls := 10, detail := 1, info := s.me.getS a } s) ∧
      (∀ f ∈ [TileFmt.f32, .bf16, .f16, .i32, .f64], f.indexOk tile.val = true → formed v.halves f tile.val = true →
        formed v.halves tf tile.val = false → ∀ i ∈ [Instr.mdrainq g et rm o tf tile, .mdraina g et rm o tf tile col],
          exec i s = posted i { cls := 10, detail := 7 } s) ∧
      ok (.mzero g tf tile) 0 12 s ∧ ok (.mstat g d tile) d 12 s ∧ ok (.mclrs g tile) 0 12 s ∧
      (formed v.halves tf tile.val = true → tf.indexOk tile.val = true →
        ok (.mdrainq g et rm o tf tile) 0 12 s ∧
        ok (.mdraina g et rm o tf tile col) 0 (match col with | .short _ => 12 | .lit _ => 20) s ∧
        (inLocal k drain (31 * (if st = 0 then row else st) + row) → drain.toNat % 32 = 0 → st % 32 = 0 → (st = 0 ∨ row ≤ st) →
          (c ≠ 0 → inLocal k (s.me.getS c) 128 ∧ (s.me.getS c).toNat % 4 = 0) →
          ok (.mdrain g et rm o tf tile d a b c disp) d len s))) ∧
    (k.mq = [] → exec (.mwait g) s = ranTo s { s.me with pts := Max.max s.me.pts k.mpts } 12) ∧
    (k.mq ≠ [] → exec (.mwait g) s = .next (s.setMe { s.me with status := .waitMatrix k.nextCmd }))

/-- MATRIX_COMMAND_START of a command that does not wait on a face or a link, in one step (R172, R174, R176, R187, R188, R193 to
R198): the tile, counters, slot, A-bypass or local memory as its instruction says, and the engine's mode from the alarm (R200).
An `mwld` loads the stored rows and both scales of its image, wherever it lies, and the descriptor and side array of its form; the
masks of an `mmacs` are those of its side array, here in local memory with nothing written since the load was issued (R177),
and an element that they leave out adds nothing (R63). A command that
reads through a link that is not up waits. -/
def Sys2Proof.Claims.MatrixCommandsRun : Prop :=
  ∀ (s : State) (c : Nat) (m : MCmd) (r : List MCmd), c < 4096 → (s.core c).mq = m :: r → m.started = false → m.done = false →
    (s.core c).acc.wf = true → (s.core c).mem.wf = true → s.split = false → m.earlyAt = [] → m.landed = [] →
    coreOf m.ts = c →
    let k := s.core c
    let ran (P : State → Prop) : Prop := nextWith (exec (.matrixCommandStart c) s) fun t =>
      P t ∧ (t.core c).narrow = s.mgmt.alarm ∧ (∃ h, (t.core c).mq = h :: r ∧ h.done = true ∧ h.id = m.id) ∧
        (∀ c', c' ≠ c → t.core c' = s.core c')
    (matrixWaits s c m = true → nextWith (exec (.matrixCommandStart c) s) fun t => sameMemory s t ∧ (t.core c).acc = k.acc ∧
      ∃ h, (t.core c).mq = h :: r ∧ h.started = true ∧ h.done = false) ∧
    (matrixWaits s c m = false →
    (∀ g tf n, m.instr = .mzero g tf n → tf.indexOk n.val = true → ran fun t =>
      formed (t.core c).halves tf n.val = true ∧
        ∀ e < 1024, tileElem (t.core c) tf n.val e = 0 ∧ tileFlag (t.core c) tf n.val e = false) ∧
    (∀ g n, m.instr = .mclrs g n → ran fun t => counters (t.core c) n.val = {} ∧ (t.core c).acc = k.acc) ∧
    (∀ g d n, m.instr = .mstat g d n → ran fun t => ∃ h, (t.core c).mq = h :: r ∧ (t.core c).acc = k.acc ∧
      h.token.extractLsb' 0 16 = (counters k n.val).ov ∧ h.token.extractLsb' 16 16 = (counters k n.val).nan ∧
      h.token.extractLsb' 32 16 = (counters k n.val).lost ∧ h.token.getLsbD 48 = (counters k n.val).poison ∧
      (∀ p : Nat × TileFmt, p ∈ [(56, .f32), (57, .bf16), (58, .f16), (59, .i32), (60, .f64)] →
        h.token.getLsbD p.1 = (p.2.indexOk n.val && formed k.halves p.2 n.val))) ∧
    (∀ g (ctl : MacCtl) ra rb rc, m.instr = .mmac g ctl (.localMem ra rb) rc → ctl.scale = .none → ctl.zf = false →
      ctl.tileFmt.indexOk ctl.tile.val = true → k.poison = [] → k.slots[ctl.slot].poisoned = false →
      let f := ctl.afmt
      let base := m.a.toNat - 0xFF00000000000000
      let st := if m.b = 0 then f.k * f.et.bytes else m.b.toNat
      let row (i : Nat) : List Nat := patterns f.et.width f.k (getNum k.mem (base + i * st) (f.k * f.et.bytes))
      let column (j : Nat) : List Nat := (List.range f.k).map fun t =>
        storedElem k.slots[ctl.slot] ctl.bfmt (ctl.kb.val * f.k + t) (32 * ctl.col.val + j)
      ran fun t => ∀ e < 1024, tileElem (t.core c) ctl.tileFmt ctl.tile.val e =
        (macElem ctl { elems := row (e / 32) } ((column (e % 32)).map some) none (tileElem k ctl.tileFmt ctl.tile.val e)).val %
          2 ^ ctl.tileFmt.et.width) ∧
    (∀ g (ctl : MacCtl) (sp : Sparsity) ra rb rc, m.instr = .mmacs g ctl sp (.localMem ra rb) rc → ctl.scale = .none → ctl.zf = false →
      ctl.tileFmt.indexOk ctl.tile.val = true → k.poison = [] →
      let sl := k.slots[ctl.slot]
      let so := sl.side - 0xFF00000000000000
      let sn := sideLen ctl.bfmt (some sp)
      inLocal k (BitVec.ofNat 64 sl.side) sn → sl.side < 2 ^ 64 → sl.poisoned = false → (∀ l, pastLines s l sl.since = []) →
      sl.sidePages = pageMap [{ va := sl.side, n := sn, loc := { space := .core c, addr := so } }] →
      let f := ctl.afmt
      let base := m.a.toNat - 0xFF00000000000000
      let st := if m.b = 0 then f.k * f.et.bytes else m.b.toNat
      let row (i : Nat) : List Nat := patterns f.et.width f.k (getNum k.mem (base + i * st) (f.k * f.et.bytes))
      let bit (q j : Nat) : Bool := let p := (128 * (q / sp.m) + j) * sp.m + q % sp.m
        (k.mem.get (so + p / 8)).getLsbD (p % 8)
      let elem (q j : Nat) : Option Nat :=
        let u := ((List.range (q % sp.m)).filter fun y => bit (q / sp.m * sp.m + y) j).length
        if bit q j = true ∧ u < sp.nVal then some (storedElem sl ctl.bfmt (q / sp.m * sp.nVal + u) j) else none
      let column (j : Nat) : List (Option Nat) := (List.range f.k).map fun t => elem (ctl.kb.val * f.k + t) (32 * ctl.col.val + j)
      (ctl.kb.val + 1) * f.k ≤ logicalRows ctl.bfmt (some sp) →
      ran fun t => ∀ e < 1024, tileElem (t.core c) ctl.tileFmt ctl.tile.val e =
        (macElem ctl { elems := row (e / 32) } (column (e % 32)) none (tileElem k ctl.tileFmt ctl.tile.val e)).val %
          2 ^ ctl.tileFmt.et.width) ∧
    (∀ g et rm o tf n d a b disp, m.instr = .mdrain g et rm o tf n d a b 0 disp → (m.b = 0 ∨ 32 * et.bytes ≤ m.b.toNat) →
      let base := m.a.toNat - 0xFF00000000000000
      let st := if m.b = 0 then 32 * et.bytes else m.b.toNat
      ran fun t => ∀ i < 32, ∀ j < 32, getNum (t.core c).mem (base + i * st + j * et.bytes) et.bytes =
        (drainElem tf et (roundMode m.fpc rm).1 (fp8Sat m.fpc o et) (tileElem k tf n.val (32 * i + j))).1 % 2 ^ et.width) ∧
    (∀ g et rm o tf n col, m.instr = .mdraina g et rm o tf n col → k.bypass.data.wf = true → ran fun t =>
      let q := (t.core c).bypass
      q.tag = some et ∧ q.valid[colVal col] = true ∧
      (∀ b : Fin 4, b ≠ colVal col → q.valid[b] = (decide (k.bypass.tag = some et) && k.bypass.valid[b])) ∧
      (∀ i < 32, ∀ j < 32, let at' := 128 * i + 32 * (colVal col).val + j
        getNum q.data (8 * at') 8 =
          (drainElem tf et (roundMode m.fpc rm).1 (fp8Sat m.fpc o et) (tileElem k tf n.val (32 * i + j))).1 % 2 ^ 64 ∧
        q.flags.contains at' = (tileFlag k tf n.val (32 * i + j) && !et.isFp8 && !et.isInt)) ∧
      ∀ i < 32, ∀ j < 128, j / 32 ≠ (colVal col).val →
        getNum q.data (8 * (128 * i + j)) 8 = getNum k.bypass.data (8 * (128 * i + j)) 8) ∧
    (∀ g f slot d src, m.instr = .mwld g f slot d src →
      let sp := mwldSparse src
      let sn := sideLen f sp
      let es := f.et.bytes
      let loaded (t : State) (image : Nat) : Prop := let sl := (t.core c).slots[slot]
        sl.scale0 = image % 2 ^ 32 ∧ sl.scale1 = image / 2 ^ 32 % 2 ^ 32 ∧
        ∀ y < f.storedRows, ∀ j < 128, storedElem sl f y j = image / 2 ^ (8 * (64 + (128 * y + j) * es)) % 2 ^ (8 * es)
      (nextWith (exec (.matrixCommandStart c) s) fun t => let sl := (t.core c).slots[slot]
        sl.desc = some { bfmt := f, sparse := sp.map fun q => { n := q.nVal, m := q.m } } ∧ sl.since = m.since ∧
        (sp.isSome = true → 0 < sn → sl.side = m.side.toNat ∧ sl.sidePages = m.pages) ∧ (sp = none → sl.sidePages = []) ∧
        (∃ h, (t.core c).mq = h :: r ∧ h.done = true ∧ h.token = if sl.poisoned = true then 2 else 1) ∧
        (let x := takeRows (beginMatrix s c m) c { m with started := true }
         let y := stampMatrix x.1 c x.2
         let image := (withClock y.2.pts (fun u => matrixRead (engineWho u m.ts) (pagePieces m.pages m.a.toNat 32832) u) y.1).1
         loaded t image.val ∧ (image.bad ≠ [] → sl.poisoned = true))) ∧
      (let off (x : Word) : Nat := x.toNat - 0xFF00000000000000
       let part (x : Word) (n : Nat) : Piece := { va := x.toNat, n, loc := { space := .core c, addr := off x } }
       inLocal k m.a 32832 → (0 < sn → inLocal k m.side sn) → k.poison = [] →
       m.pages = pageMap (part m.a 32832 :: if sn = 0 then [] else [part m.side sn]) →
       nextWith (exec (.matrixCommandStart c) s) fun t =>
        (t.core c).slots[slot].poisoned = false ∧ loaded t (getNum k.mem (off m.a) 32832))) ∧
    (∀ g et rm o tf n, m.instr = .mdrainq g et rm o tf n → m.orphan = false →
      nextWith (exec (.matrixCommandStart c) s) fun t => ∃ h, (t.core c).mq = h :: r ∧ h.done = true ∧
        (t.ts m.ts).qr ++ h.out = (s.ts m.ts).qr ++ (chunksOf et.lanes 1024
          (drainTile k tf n.val et (roundMode m.fpc rm).1 (fp8Sat m.fpc o et))).map (drainEntry et)))

/-- Floating-point accumulation (R63, R66, R178, R188): each product of a row of A and a column of B is exact, in scale mode 2 times its
block's 2^(x − 127), with a NaN for a rider of 255 unless B's element is zero; an element of B that the mask leaves out makes no
product; the products' windowed sum is promoted once. A NaN sum or scale gives the canonical NaN; a zero sum leaves the element as
it is; else the element plus the sum times the scale is rounded once with RNE, or is infinite or a NaN by the rules of
infinities. An overflow is counted where finite numbers give an infinity, and a NaN where the element becomes one. -/
def Sys2Proof.Claims.FloatMac : Prop :=
  (∀ (an bn : Bool) (am bm : Nat) (ae be : Int) (x : Nat),
    let a := FVal.fin an am ae
    let b := FVal.fin bn bm be
    let y := ratOf an am ae * ratOf bn bm be
    (∃ m e, macTerm a b none = .fin (an != bn) m e ∧ ratOf (an != bn) m e = y) ∧
    (x ≠ 255 → ∃ m e, macTerm a b (some x) = .fin (an != bn) m e ∧ ratOf (an != bn) m e = y * (2 : ℚ) ^ ((x : ℤ) - 127)) ∧
    (bm ≠ 0 → macTerm a b (some 255) = .nan false) ∧
    (bm = 0 → ∃ e, macTerm a b (some 255) = .fin (an != bn) 0 e) ∧
    (∀ s (v : FVal) (r : Option Nat), (macTerm (.nan s) v r).isNan = true ∧ (macTerm v (.nan s) r).isNan = true) ∧
    (∀ n, (am = 0 → (macTerm a (.inf n) none).isNan = true) ∧ (am ≠ 0 → macTerm a (.inf n) none = .inf (an != n)) ∧
      (bm = 0 → (macTerm (.inf n) b none).isNan = true) ∧ (bm ≠ 0 → macTerm (.inf n) b none = .inf (n != bn)))) ∧
  (∀ (m : MacCtl) (a : ARow) (b : List (Option Nat)) (scale : Option FVal) (old : Nat), m.tileFmt ≠ .i32 →
    let terms := ((List.zip a.elems b).zip (List.range a.elems.length)).filterMap fun p => p.1.2.map fun y =>
      macTerm ((fmtOf m.afmt.et).decode p.1.1) ((fmtOf m.bfmt.et).decode y)
        (if m.scale = .e8m0 then some (a.riders.getD (p.2 / 32) 127) else none)
    let s := windowSum terms (windowWidth m.window.val)
    macElem m a b scale old = promote m.tileFmt.et old s.1 (s.2.1 || a.lost) scale) ∧
  ∀ (et : ElemTy) (old : Nat) (s : Exact) (lost : Bool) (scale : Option FVal), et ∈ [ElemTy.f64, .f32, .bf16, .f16] →
    let f := fmtOf et
    let c := f.decode old
    let r := promote et old s lost scale
    let d := f.decode r.val
    let k : FVal := scale.getD (.fin false 1 0)
    let zero (v : Exact) : Prop := ∃ n e, v = .fin n 0 e
    let inf (v : FVal) (n : Bool) : Prop := v = .inf n
    r.lost = lost ∧ (r.nan = true ↔ d.isNan = true ∧ c.isNan = false) ∧
    (s = .nan ∨ k.isNan = true → r.val = f.nanBits ∧ r.ov = false) ∧
    (k.isNan = false → zero s → r.val = old ∧ r.ov = false) ∧
    (s ≠ .nan → ¬zero s → k.isNan = false → c.isNan = true → d.isNan = true ∧ r.ov = false) ∧
    (∀ n m e kn km ke, s = .fin n m e → m ≠ 0 → k = .fin kn km ke →
      let p := ratOf n m e * ratOf kn km ke
      (∀ cn, c = .inf cn → d = .inf cn ∧ r.ov = false) ∧
      (∀ cn cm ce, c = .fin cn cm ce → let x := ratOf cn cm ce + p
        (x ≠ 0 → ∃ fl, rounded f .rne false (decide (x < 0)) (x : ℝ) (r.val, fl) ∧ r.ov = fl.ov) ∧
        (x = 0 → r.ov = false ∧ ∃ e, d = .fin (cn && (n != kn)) 0 e))) ∧
    (∀ n kn km ke, s = .inf n → k = .fin kn km ke → km = 0 → d.isNan = true) ∧
    (∀ p, (∃ n kn, p = (n != kn) ∧ ((s = .inf n ∧ ((∃ km ke, k = .fin kn km ke ∧ km ≠ 0) ∨ inf k kn)) ∨
        (∃ m e, s = .fin n m e ∧ m ≠ 0 ∧ inf k kn))) →
      r.ov = false ∧ (inf c (!p) → d.isNan = true) ∧ (c.isNan = false → ¬inf c (!p) → d = .inf p))

/-- An element that a drain converts (R51 to R55, R193): the conversion of `ConvertedResults` from the tile's type, clamped between integers,
with whether it overflows or is clamped. -/
def Sys2Proof.Claims.DrainedElements : Prop :=
  ∀ (tf : TileFmt) (et : ElemTy) (mode : RMode) (sat : Bool) (x : Nat),
    let r := convertLane et tf.et (mode, {}) sat true none x
    let i := intVal .i32 x
    (drainElem tf et mode sat x).1 = r.1 ∧
    (tf = .i32 → et.isInt = true → ((drainElem tf et mode sat x).2 = true ↔ i < intMin et ∨ intMax et < i)) ∧
    (tf ≠ .i32 ∨ et.isInt = false → (drainElem tf et mode sat x).2 = r.2.ov)

/-- The sums of integer matrix products are exact before they wrap into the 32-bit element (R65, R187); an element of B that is left
out adds nothing (R63). -/
def Sys2Proof.Claims.IntegerMac : Prop :=
  ∀ (m : MacCtl) (a : ARow) (b : List (Option Nat)) (old : Nat), m.tileFmt = .i32 →
    (macElem m a b none old).val = ((intVal .i32 old + ((List.zip a.elems b).filterMap fun p : Nat × Option Nat =>
      p.2.map fun y => intVal m.afmt.et p.1 * intVal m.bfmt.et y).sum) % 2 ^ 32).toNat

/-- MATRIX_COMMAND_COMPLETION (R110, R172, R199): a command that is done leaves the queue, its token or result is written and is
no longer pending, and an `mwait` that waited for no other command goes on, and follows it. -/
def Sys2Proof.Claims.MatrixCompletion : Prop :=
  IntegerMac ∧
  ∀ (s : State) (c : Nat) (m : MCmd) (r : List MCmd), (s.core c).mq = m :: r → m.done = true → m.out = [] → m.orphan = false →
    (∀ e ∈ s.tsets, ∀ n, e.2.status ≠ .ending n) →
    nextWith (exec (.matrixCommandCompletion c) s) fun t => (t.core c).mq = r ∧
      (∀ d, tokenReg m.instr = d → (t.ts m.ts).getS d = (if d = 0 then 0 else m.token) ∧ (t.ts m.ts).pendS.getLsbD d.val = false ∧
        ∀ q, q ≠ d → (t.ts m.ts).getS q = (s.ts m.ts).getS q) ∧
      (∀ i < 4, ∀ n, 4 * c + i ≠ m.ts → (s.ts (4 * c + i)).status = .waitMatrix n → (∀ x ∈ r, n ≤ x.id) →
        t.ts (4 * c + i) = { (s.ts (4 * c + i)).past 12 with
          status := .running,
          pts := Max.max (s.ts (4 * c + i)).pts (Max.max (s.core c).mpts m.pts) }) ∧
      sameMemory s t

/-! ### The tile engine and the collective unit -/

/-- A tile-engine command has been accepted (R221): it keeps the instruction, its thread set, its pc and operand values, and
nothing of it has landed; S[d] is pending (R110). -/
def Sys2Proof.Claims.tileAccepted (i : Instr) (d : Reg) (n : Nat) (a b : Word) (rest : List Word) (s t : State) : Prop :=
  t.me = (s.me.pend d).past n ∧ othersKept s t ∧ sameMemory s t ∧
  ∃ m : TCmd, (t.core (coreOf s.cur)).tq = (s.core (coreOf s.cur)).tq ++ [m] ∧ m.instr = i ∧ m.ts = s.cur ∧ m.pc = s.me.pc ∧
    m.a = a ∧ m.b = b ∧ m.c = rest ∧ m.id = (s.core (coreOf s.cur)).nextCmd ∧ m.next = 0 ∧ m.bytes = 0 ∧ m.paused = none ∧
    m.token = 1

/-- Tile-engine commands (R221, R222, R225 to R232): not ready while 16 are accepted; accepted when the checks pass; a length
above the limit is a fault (class 11, detail 2), and a `pub` outside a cloak region too (detail 7). A stash map is set before the next instruction, and `rflush` removes
records from the core's cache (R213, R229, R231). -/
def Sys2Proof.Claims.TileCommandsAccepted : Prop :=
  ∀ (s s1 : State) (g : Guard) (d a b c : Reg) (et : ElemTy) (op : RedOp) (len : LenSrc) (map : Fin 8) (r : BitVec 1536) (l : Layout)
      (tgt : PutTarget), s.me.getP g.p ≠ g.pn →
    let k := s.core (coreOf s.cur)
    let x := s.me.getS a
    let y := s.me.getS b
    let z := s.me.getS c
    let z1 := s.me.getS (c + 1)
    let z2 := s.me.getS (c + 2)
    let n := match len with | .reg q => (s.me.getS q).toNat | .imm (.short i) => i.toNat | .imm (.lit v) => v.toNat
    let ln := match len with | .reg _ => 12 | .imm (.short _) => 12 | .imm (.lit _) => 20
    let fine (a : Word) (n : Nat) : Prop := checkRange k false a.toNat n = .fine
    let ok (i : Instr) (m : Nat) (a b : Word) (rest : List Word) (u : State) : Prop :=
      nextWith (exec i s) fun t => tileAccepted i d m a b rest u t
    let other (q : Fin 16) : Nat := coreOf s.cur / 16 * 16 + q.val
    let far (r : Word) : Prop :=
      (z = 0 → match tgt with
        | .glob => fine r (z1.toNat * et.bytes)
        | .crossbar q => inLocal (s.core (other q)) r (z1.toNat * et.bytes)) ∧
      (z ≠ 0 → inLocal k z (4 * z1.toNat) ∧ z.toNat % 4 = 0) ∧
      (match tgt with | .glob => True | .crossbar q => coreHolds s (other q) s.me.launch = true)
    (16 ≤ k.tq.length → ∀ i ∈ [Instr.cpy g d a b len, .cpy2d g d a b c, .cpyRs g d a b c, .cpyRd g d a b c, .cpyr g op et d a b len,
      .get g et tgt d a b c, .put g et tgt d a b c, .stmap g map a, .stwb g d a b, .stinv g d a b, .pub g d a],
      exec i s = .next s) ∧
    (k.tq.length < 16 → s.me.part = none → s1.me.part = none →
      (2 ^ 32 < n → exec (.cpy g d a b len) s = posted (.cpy g d a b len) { cls := 11, detail := 2, info := x } s) ∧
      (n ≤ 2 ^ 32 → fine x n → fine y n → ok (.cpy g d a b len) ln x y [BitVec.ofNat 64 n] s) ∧
      ((z.toNat % 2 ^ 32) * (z.toNat / 2 ^ 32) ≤ 2 ^ 32 →
        checkRows k x.toNat (z1.extractLsb' 0 32).toInt (z.toNat % 2 ^ 32) (z.toNat / 2 ^ 32) = .fine →
        checkRows k y.toNat (z1.extractLsb' 32 32).toInt (z.toNat % 2 ^ 32) (z.toNat / 2 ^ 32) = .fine →
        ok (.cpy2d g d a b c) 12 x y [z, z1] s) ∧
      (y.toNat % 64 = 0 → useRecord (s.who s.cur) y s = .ok (r, s1) → parseRecord y.toNat r = some l → denseExtent l ≤ 2 ^ 32 →
        l.box.foldl (· * ·) 1 ≤ 2 ^ 24 →
        (checkBox (s1.core (coreOf s1.cur)) l (originOf z)).2 = .fine →
        checkRange (s1.core (coreOf s1.cur)) false x.toNat (denseExtent l) = .fine → ok (.cpyRs g d a b c) 12 x y [z] s1) ∧
      (x.toNat % 64 = 0 → useRecord (s.who s.cur) x s = .ok (r, s1) → parseRecord x.toNat r = some l → denseExtent l ≤ 2 ^ 32 →
        l.box.foldl (· * ·) 1 ≤ 2 ^ 24 →
        (checkBox (s1.core (coreOf s1.cur)) l (originOf z)).2 = .fine →
        checkRange (s1.core (coreOf s1.cur)) false y.toNat (denseExtent l) = .fine → ok (.cpyRd g d a b c) 12 x y [z] s1) ∧
      (n ≤ 2 ^ 24 → fine x (n * et.bytes) → fine y (n * et.bytes) → x.toNat % et.bytes = 0 → y.toNat % et.bytes = 0 →
        ok (.cpyr g op et d a b len) ln x y [BitVec.ofNat 64 n] s) ∧
      (z1.toNat ≤ 2 ^ 24 → inLocal k x (z1.toNat * et.bytes) → far y → x.toNat % et.bytes = 0 → y.toNat % et.bytes = 0 →
        ok (.get g et tgt d a b c) 12 x y [z, z1, 0] s) ∧
      (z1.toNat ≤ 2 ^ 24 → inLocal k y (z1.toNat * et.bytes) → far x → x.toNat % et.bytes = 0 → y.toNat % et.bytes = 0 →
        z2.toNat % 8 = 0 → ok (.put g et tgt d a b c) 12 x y [z, z1, z2] s) ∧
      (y.toNat ≤ 2 ^ 32 → ok (.stwb g d a b) 12 x y [] s ∧ ok (.stinv g d a b) 12 x y [] s) ∧
      (2 ^ 32 < y.toNat → ∀ i ∈ [Instr.stwb g d a b, .stinv g d a b], exec i s = posted i { cls := 11, detail := 2, info := x } s) ∧
      (mapOk k map x = true → nextWith (exec (.stmap g map a) s) fun t => t.me = s.me.past 12 ∧ othersKept s t ∧
        (t.core (coreOf s.cur)).smap = k.smap.set map x ∧ sameMemory s t) ∧
      (∀ ps reg, checkAccess (s.who s.cur) .store x 1 s = .ok (ps, s1) → (ps.findSome? fun p => p.loc.cloak) = some reg →
        ok (.pub g d a) 12 x 0 [BitVec.ofNat 64 reg] s1) ∧
      (∀ ps, checkAccess (s.who s.cur) .store x 1 s = .ok (ps, s1) → (ps.findSome? fun p => p.loc.cloak) = none →
        exec (.pub g d a) s = posted (.pub g d a) { cls := 11, detail := 7, info := x } s) ∧
      (2 ^ 56 ≤ x.toNat → exec (.pub g d a) s = posted (.pub g d a) { cls := 11, detail := 7, info := x } s)) ∧
    (nextWith (exec (.rflush g a) s) fun t => t.me = s.me.past 12 ∧ othersKept s t ∧
      (t.core (coreOf s.cur)).recs = k.recs.filter fun e => e.1 != x.toNat) ∧
    (nextWith (exec (.rflushAll g) s) fun t => t.me = s.me.past 12 ∧ othersKept s t ∧ (t.core (coreOf s.cur)).recs = [])

/-- `coll` (R470 to R472, R475): with a valid record and buffers in global space, the collective unit takes the command with the
record's identifier, rank and members, and S[d] is pending. -/
def Sys2Proof.Claims.CollectiveAccepted : Prop :=
  ∀ (s s1 : State) (g : Guard) (op : CollOp) (fn : RedOp) (et : ElemTy) (wire scaled : Bool) (root : BitVec 8) (d a b c : Reg)
      (n : Imm 13) (r : CollRecord), s.me.getP g.p ≠ g.pn → collRecord (s.who s.cur) (s.me.getS a) s = .ok (r, s1) →
    let i : Instr := .coll g op fn et wire scaled root d a b c n
    let cnt := match n with | .short i => i.toNat | .lit v => v.toNat
    let es := if scaled = true then 33 else et.bytes
    let m := r.peers.length
    let sends := (match op with | .reduceScatter | .allToAll => m * cnt | _ => cnt) * es
    let recvs := (match op with | .allGather | .allToAll => m * cnt | _ => cnt) * es
    let global (x : Word) (k : Nat) : Prop := x.toNat + k ≤ 2 ^ 56
    s1.me.part = none → sends ≤ 2 ^ 48 → recvs ≤ 2 ^ 48 → global (s.me.getS b) sends → global (s.me.getS c) recvs →
    nextWith (exec i s) fun t => t.me = (s1.me.pend d).past (match n with | .short _ => 12 | .lit _ => 20) ∧ othersKept s1 t ∧
      sameMemory s1 t ∧ ∃ x : Instance, t.coll.active = s1.coll.active ++ [x] ∧ x.id = r.id ∧ x.rank = r.rank ∧ x.peers = r.peers ∧
        x.ts = s1.cur ∧ x.instr = i ∧ x.send = s.me.getS b ∧ x.recv = s.me.getS c ∧ x.count = cnt ∧ x.started = false ∧
        x.finished = false ∧ x.paused = none

/-! ### Events of the cores -/

/-- A thread set, when it is looked at as the running one. -/
def Sys2Proof.Claims.asCur (s : State) (t : Nat) : State := { s with cur := t }

/-- Results and waits (R83, R88, R110, R134, R143 to R145, R239, R287, R299): a late result is written to the registers that its
instruction names; an access that waits for a link, or behind an earlier one of its thread set that does and has no place
in S, waits on; a blocked queue instruction, `cwait` or barrier wait goes on once it can, unless its thread set is
halted; an illegal word or a failed fetch posts its fault; at 256 issues a core switches to a ready
thread set, unless it has just been idle. -/
def Sys2Proof.Claims.WaitsEnd : Prop :=
  (∀ (s : State) (i : Nat) (w : Writeback), s.faults.writebacks[i]? = some w → w.peer = none →
    nextWith (exec (.resultWriteback i) s) fun t => t.faults.writebacks = s.faults.writebacks.eraseIdx i ∧
      (w.orphan = true → t.tsets = s.tsets) ∧
      (w.orphan = false → let u := usesOf w.instr; let x := s.ts w.ts; let y := t.ts w.ts
        (∀ q, y.getS q = if u.ws.getLsbD q.val = true then w.snap.getS q else x.getS q) ∧
        (∀ q, y.getV q = if u.wv.getLsbD q.val = true then w.snap.getV q else x.getV q) ∧
        y.pendS = x.pendS &&& ~~~u.ws ∧ y.pendV = x.pendV &&& ~~~u.wv ∧ y.pc = x.pc ∧ y.status = x.status)) ∧
  (∀ (s : State) (i p : Nat) (w : Writeback), s.faults.writebacks[i]? = some w → w.peer = some p →
    (p = 256 ∧ s.mgmt.hostUp = false) ∨ (p ≠ 256 ∧ ∃ x u, s.peer? p = some x ∧ x.link = .retraining u) ∨
      (∃ v ∈ s.faults.writebacks.take i, v.ts = w.ts ∧ v.peer.isSome = true ∧ v.placed = false) → exec (.resultWriteback i) s = .next s) ∧
  (∀ (s : State) (t : Nat) (r : Reg), let x := s.ts t
    (x.status = .waitQueue (.qput r) → x.halted = false → t < 4 * 4096 → x.qa.length < 16 → nextWith (exec (.queueBlockRelease t) s)
      fun u => u.ts t = { (x.setQa (x.qa ++ [x.getV r])).past 4 with status := .running } ∧ u.cur = s.cur) ∧
    (∀ m q, x.status = .waitQueue (.qgetQr r) → x.halted = false → t < 4 * 4096 → x.qr = m :: q →
      nextWith (exec (.queueBlockRelease t) s) fun u =>
        u.ts t = { ((x.setV r m).setQr q).past 4 with status := .running } ∧ u.cur = s.cur) ∧
    (x.halted = true → exec (.queueBlockRelease t) s = .next s ∧ exec (.wake t) s = .next s) ∧
    (∀ d a b v s1, x.status = .waitWake (.cwait d a b) → x.halted = false → t < 4 * 4096 → (x.getS a).toNat % 8 = 0 →
      memRead ((asCur s t).who t) .unc (x.getS a) 8 (asCur s t) = .ok (v, s1) → s1.me.part = none → (x.getS b).toNat ≤ v →
      exec (.wake t) s = .next { s1.setMe ({ s1.me.setS d (BitVec.ofNat 64 v) with status := .running }.past 4) with cur := s.cur }) ∧
    (∀ (g : Fin 4) p l y, x.status = .waitPhase g.val p → x.halted = false → t < 4 * 4096 →
      groupOf (asCur s t) g = some (l, y) → p < y.completed → nextWith (exec (.wake t) s) fun u =>
        u.ts t = { x.past 4 with status := .running, pts := Max.max x.pts y.pts } ∧ u.cur = s.cur) ∧
    (∀ sc d since, x.status = .waitFence (.fence sc d) since → x.halted = false → t < 4 * 4096 → sc = .fab ∨ sc = .sys →
      (s.clk < since + 3400000 → exec (.fenceTimeout t) s = .next s) ∧
      (since + 3400000 ≤ s.clk → (∀ f ∈ (s.core (coreOf t)).folds, f.ts ≠ t) →
        let ends (v : Nat) : Prop := nextWith (exec (.fenceTimeout t) s) fun u =>
          (u.ts t).status = .running ∧ (u.ts t).pc = x.pc + 4 ∧ (u.ts t).getS d = (if d = 0 then 0 else BitVec.ofNat 64 v)
        (∀ p, failedPeer s x.toPeers = some p → ends (1 + 256 * p)) ∧
        (failedPeer s x.toPeers = none → ∀ p, parkedPeer s t = some p → ends (2 + 256 * p)) ∧
        (failedPeer s x.toPeers = none → parkedPeer s t = none → sc = .sys → hostPending s t = true → s.mgmt.hostUp = false →
          ends 3)))) ∧
  (∀ (s : State) (w : IWord) (f : FaultInfo),
    exec (.illegalInstruction w) s = posted (.illegalInstruction w) { cls := 1 } s ∧
    (fetchWords (s.who s.cur) s.me.pc.toNat s = .error (.fault f) →
      exec .instructionFetchFault s = posted .instructionFetchFault f s)) ∧
  ∀ (s : State), let c := coreOf s.cur; let k := s.core c
    (k.run < 256 → exec .issueRunLimit s = .next s) ∧
    (256 ≤ k.run → ready s 0 (4 * c + (k.slot + 1) % 4) = true → exec .issueRunLimit s =
      .next (if k.idle = true then s else s.setCore c { k with slot := (k.slot + 1) % 4, run := 0 })) ∧
    (256 ≤ k.run → (∀ i, i < 4 → ready s 0 (4 * c + i) = false) → exec .issueRunLimit s = .next (s.setCore c { k with run := 0 }))

/-- Posting (R302, R370, R372): a fault whose poster has no earlier one waiting, nor an access or fold, enters the face of the thread set that serves it, the
last of its messages, when the face has room, as it was made, with the clock of the post, which its `fget` follows; a launch without a handler is served by its die's service thread set, and
an unserved one ends with status 5. -/
def Sys2Proof.Claims.FaultPosting : Prop :=
  ∀ (s : State) (i : Nat) (r : FaultRec), s.faults.recs[i]? = some r → r.posted = false →
    (∀ q ∈ s.faults.recs.take i, q.ts = r.ts → q.posted = true) → (r.source = 0 → waitsForPeer s r.ts = false) →
    (∀ t repost, routeFault s r = some (t, repost) → (s.ts t).qf.length < 16 → nextWith (exec (.faultPost i) s) fun u =>
      ∃ m : BitVec 512, u.ts t = { s.ts t with
        qf := (s.ts t).qf ++ [m]
        qfPts := (s.ts t).qfPts ++ [if r.source = 0 then Max.max r.pts (s.ts r.ts).pts else r.pts] } ∧ u.faults.recs = s.faults.recs.set i { r with
          posted := true, msg := m, pts := if r.source = 0 then Max.max r.pts (s.ts r.ts).pts else r.pts } ∧
        (∀ b, b ≠ 16 → m.getLsbD b = r.msg.getLsbD b) ∧ (repost = true → m.getLsbD 16 = true) ∧
        (repost = false → m = r.msg)) ∧
    (∀ t repost, routeFault s r = some (t, repost) → 16 ≤ (s.ts t).qf.length → exec (.faultPost i) s = .next s) ∧
    (routeFault s r = none → exec (.faultPost i) s = .next (killLaunch s r.launch 5)) ∧
    (∀ l, s.launch? r.launch = some l → l.handler? = none →
      let f := (s.dieSvc (dieOfCore (coreOf r.ts))).fsvc
      let c := 2048 + 256 * dieOfCore (coreOf r.ts) + f.toNat / 4 % 2
      (f.getLsbD 3 = true → c ∉ s.faults.deadSvc → routeFault s r = some (4 * c + f.toNat % 4, false)) ∧
      (f.getLsbD 3 = false → routeFault s r = none))

/-- The homes (R205, R264, R269, R276, R382): a translation flush drops the cached entries and lines of its range and places the
folds that lie in it, and then its thread set goes on, once no access is left that has been translated through the range; two sibling regions that no write has reached for 2^20 clk become one; a word of device or local memory that becomes
uncorrectable is poisoned. -/
def Obligations.HomeEvents : Prop :=
  (∀ (s : State) (i : Nat) (f : Flush), s.msys.flushes[i]? = some f →
    (f.dropped = false → nextWith (exec (.translationFlush i) s) fun t =>
      (∀ e ∈ t.msys.walk, let p := entryPages e; f.covers e.asid p.1 p.2 = false) ∧
      (∀ e ∈ s.msys.walk, (let p := entryPages e; f.covers e.asid p.1 p.2 = false) → e ∈ t.msys.walk) ∧
      (∀ e ∈ t.msys.copies, f.coversLine e.asid e.va = false) ∧
      (∀ e ∈ t.msys.nc, ∀ g ∈ e.tags, f.coversLine g.1 g.2 = false) ∧
      t.msys.flushes = s.msys.flushes.set i { f with dropped := true } ∧
      ((∀ e ∈ s.cores, e.2.folds = []) → s.fab.heldFolds = [] → sameMemory s t ∧ t.tsets = s.tsets)) ∧
    (f.dropped = true → flushHeld s f = false → nextWith (exec (.translationFlushComplete i) s) fun t =>
      t.msys.flushes = s.msys.flushes.eraseIdx i ∧
      ∀ q, f.ts = some q → (s.ts q).status = .waitFlush → t.ts q = { s.ts q with status := .running }) ∧
    (f.dropped = false → exec (.translationFlushComplete i) s = .next s)) ∧
  (∀ (s : State) (base : Nat) (r q : Region), (s.msys.regions.find? fun x => x.base == base) = some r →
    s.msys.regions.find? (siblings r) = some q → s.msys.regions.length ≤ s.msys.regionCap →
    (s.clk < r.written + 2 ^ 20 ∨ s.clk < q.written + 2 ^ 20 → exec (.regionMerge base) s = .next s) ∧
    (r.written + 2 ^ 20 ≤ s.clk → q.written + 2 ^ 20 ≤ s.clk → nextWith (exec (.regionMerge base) s) fun t =>
      ∃ m : Region, t.msys.regions.head? = some m ∧ m.base = Min.min r.base q.base ∧ m.size = 2 * r.size ∧
        m.wts = Max.max r.wts q.wts ∧ m.rts = Max.max r.rts q.rts ∧
        (∀ x ∈ t.msys.regions.tail, ¬(m.base ≤ x.base ∧ x.base < m.base + 2 * r.size)) ∧ sameMemory s t)) ∧
  ∀ (s : State) (a : Nat),
    (devOk a = true → nextWith (exec (.uncorrectableEccError (.device a)) s) fun t =>
      (∀ b n, poisoned t .dev b n = true ↔ poisoned s .dev b n = true ∨ (a / 8 * 8 < b + n ∧ b < a / 8 * 8 + 8)) ∧ sameMemory s t) ∧
    ∀ c, a < 0x80000 → nextWith (exec (.uncorrectableEccError (.window c a)) s) fun t =>
      (∀ b n, poisoned t (.core c) b n = true ↔ poisoned s (.core c) b n = true ∨ (a / 8 * 8 < b + n ∧ b < a / 8 * 8 + 8)) ∧
        sameMemory s t

/-! ### Chunks of the engines -/

/-- The chunk of a command that begins, and the engine's reads and writes that end it: a state with everything read and landed,
element by element, under the command's own clock. -/
def Sys2Proof.Claims.chunkRuns (w : Who) (m : TCmd) (s : State) (p : Nat) (u : State) : Prop :=
  m.opened = none ∧ ∃ es s1, openChunk w m s = .ok ((es, []), s1) ∧ s1.split = false ∧ elemsWait s1 es = none ∧
    (withClock m.pts (finishElems w false es) s1).1.bad = none ∧ (withClock m.pts (finishElems w false es) s1).2 = (p, u)

/-- Engine steps (R112, R223, R224, R391, R392, R413, R476): a command that is paused or at its end does no chunk; a chunk of a
`cpy` moves its bytes and counts them, and a chunk whose translation fails pauses the command at a posted fault; a
completed command leaves the queue and its token is written; a chunk in flight is applied once. -/
def Sys2Proof.Claims.EngineEvents : Prop :=
  (∀ (s : State) (c : Nat) (m : TCmd), (s.core c).tq.find? (fun x => x.id == m.id) = some m →
    (m.finished = true ∨ m.paused.isSome = true → exec (.tileEngineChunk c m.id) s = .next s) ∧
    (m.finished = false → m.paused = none → c < 4096 →
      (∀ g d a b, m.instr = .stinv g d a b → nextWith (exec (.tileEngineChunk c m.id) s) fun t =>
        (∀ x ∈ (t.core c).stash, m.b ≠ 0 ∧ ¬(x.line < m.a.toNat + m.b.toNat ∧ m.a.toNat < x.line + 64)) ∧
        (∃ m', (t.core c).tq.find? (fun x => x.id == m.id) = some m' ∧ m'.finished = true)) ∧
      (∀ g d a b len, m.instr = .cpy g d a b len →
        let dst := m.a + BitVec.ofNat 64 m.next
        let src := m.b + BitVec.ofNat 64 m.next
        let n := Min.min ((m.c.getD 0 0).toNat - m.next) (4096 - dst.toNat % 4096)
        let w : Who := { s.who m.ts with ts := none }
        let k := s.core c
        let advanced (t : State) : Prop := ∃ m', (t.core c).tq.find? (fun x => x.id == m.id) = some m' ∧ m'.next = m.next + n ∧
          m'.bytes = m.bytes + n ∧ m'.paused = none
        (∀ f, m.opened = none → inFlight s m.copy = [] → checkAccess w .load src n s = .error (.fault f) → m.orphan = false →
          isService c = false → nextWith (exec (.tileEngineChunk c m.id) s) fun t =>
            (∃ h m', (t.core c).tq.find? (fun x => x.id == m.id) = some m' ∧ m'.paused = some h ∧ m'.next = m.next) ∧
            ∃ r, t.faults.recs = s.faults.recs ++ [r] ∧ r.ts = m.ts ∧ r.source = 1 ∧ r.cls = f.cls ∧ r.cmd = m.id ∧
              r.msg = faultMsg s m.ts 1 { f with info := f.info &&& ~~~0xFFFF#64, aux := BitVec.ofNat 64 m.bytes } m.instr m.pc r.handle) ∧
        (coreOf m.ts = c → 0 < n → inLocal k src n → inLocal k dst n → k.poison = [] → k.mem.wf = true → s.split = false →
          m.opened = none → (src.toNat + n ≤ dst.toNat ∨ dst.toNat + n ≤ src.toNat) →
          nextWith (exec (.tileEngineChunk c m.id) s) fun t => advanced t ∧ t.tsets = s.tsets ∧
            (∀ i < n, (t.core c).mem.get (dst.toNat - 0xFF00000000000000 + i) = k.mem.get (src.toNat - 0xFF00000000000000 + i)) ∧
            (∀ x, x < dst.toNat - 0xFF00000000000000 ∨ dst.toNat - 0xFF00000000000000 + n ≤ x → (t.core c).mem.get x = k.mem.get x) ∧
            ∀ sp, sp ≠ .core c → ∀ x, (memOf t sp).get x = (memOf s sp).get x) ∧
        (∀ p u, chunkRuns w m s p u → nextWith (exec (.tileEngineChunk c m.id) s) fun t =>
          sameMemory u t ∧ t.tsets = u.tsets ∧ ((u.core c).tq = (s.core c).tq → advanced t))))) ∧
  (∀ (s : State) (c : Nat) (m : TCmd) (g : Guard) (d a b : Reg) (len : LenSrc), (s.core c).tq.find? (fun x => x.id == m.id) = some m →
    m.instr = .cpy g d a b len → m.finished = true → m.paused = none → m.orphan = false → c < 4096 →
    (∀ e ∈ s.tsets, ∀ n, e.2.status ≠ .ending n) →
    nextWith (exec (.tileCommandCompletion c m.id) s) fun t =>
      (t.core c).tq.map (·.id) = ((s.core c).tq.map (·.id)).filter (fun x => x != m.id) ∧
      (t.ts m.ts).getS d = (if d = 0 then 0 else m.token) ∧ (t.ts m.ts).pendS.getLsbD d.val = false ∧ sameMemory s t) ∧
  (∀ (s : State) (i : Nat) (x : Chunk), s.msys.flight[i]? = some x → chunkPeers x = [] → (∀ e ∈ x.elems, waitsAt s e.1.loc = none) →
    (chunkSeen (chunkWindow s x.copy) x.seq = true → nextWith (exec (.chunkArrival i) s) fun t =>
      t.msys.flight = s.msys.flight.eraseIdx i ∧ sameMemory s t) ∧
    (∀ (p : Piece) (y : Nat) (fn : FoldFn), x.elems = [(p, some y)] → x.fn = some fn →
      chunkSeen (chunkWindow s x.copy) x.seq = false → poisoned s p.loc.space p.loc.addr p.n = false → p.loc.cloak = none →
      x.seq < (chunkWindow s x.copy).base + 64 → s.msys.nc = [] →
      let s0 : State := { s with msys := { s.msys with agent := Max.max x.pts (chunkWindow s x.copy).pts } }
      nextWith (exec (.chunkArrival i) s) fun t =>
        sameMemory (rmwEvent { core := x.core, asid := x.asid, root := x.root } p (fun old => some (foldStep fn x.et old y)) s0).2 t ∧
        chunkSeen (chunkWindow t x.copy) x.seq = true)) ∧
  (∀ (s : State) (i : Nat) (p : Packet), s.front.packets[i]? = some p → p.kind = 3 ∨ p.kind = 4 →
    (p.ready = true → exec (.bulkCopyChunk i) s = .next s) ∧
    (p.ready = false → p.len ≤ p.next → inFlight s p.copy = [] → nextWith (exec (.bulkCopyChunk i) s) fun t =>
      (∃ q, t.front.packets = s.front.packets.set i q ∧ q.ready = true ∧ q.status = p.status) ∧ sameMemory s t) ∧
    (p.ready = false → p.kind = 3 → p.next < p.len → p.len < 2 ^ 64 →
      let a := BitVec.ofNat 64 p.dst + BitVec.ofNat 64 p.next
      let b := BitVec.ofNat 64 p.src + BitVec.ofNat 64 p.next
      let n := Min.min (p.len - p.next) (4096 - a.toNat % 4096)
      let w : Who := { core := hubCore, asid := p.asid, root := p.root }
      (∀ f, p.opened = none → checkAccess w .load b n s = .error (.fault f) → exec (.bulkCopyChunk i) s =
        .next { s with front := { s.front with
          packets := s.front.packets.set i { p with status := 11, code := f.cls, ready := true, opened := none } } }) ∧
      ∀ pts u, chunkRuns w (packetCmd p) s pts u → nextWith (exec (.bulkCopyChunk i) s) fun t => sameMemory u t ∧
        t.front.packets = u.front.packets.set i { p with
          next := p.next + n, chunk := p.chunk + 1, pts, opened := none, stall := none, ready := decide (p.len ≤ p.next + n) }))

/-- Collectives at work (R475 to R477): an instance starts when a member has joined for every other rank; a lost member or
differing parameters pause it with a collective fault (class 15, details 3 and 4), once the chunks that it has sent have landed; a
chunk of a `broadcast`, of which one is next is open, lands the root's elements; the completion writes the token. -/
def Sys2Proof.Claims.CollectiveEvents : Prop :=
  ∀ (s : State) (i : Nat) (x : Instance), s.coll.active[i]? = some x →
    (∀ j y, i < j ∨ j < i → s.coll.active[j]? = some y → ¬(y.cmd = x.cmd ∧ coreOf y.ts = coreOf x.ts)) →
    (x.started = true → exec (.collectiveInstanceStart i) s = .next s) ∧
    (∀ ms js, x.started = false → (∀ y ∈ s.coll.active.take i, y.id = x.id → y.started = true) →
      takeAll x.id (otherRanks x) s.coll.joined = some (ms, js) → nextWith (exec (.collectiveInstanceStart i) s) fun t =>
        t.coll.active = s.coll.active.set i { x with members := ms, started := true } ∧ t.coll.joined = js ∧
        ms.map (·.rank) = otherRanks x ∧ sameMemory s t) ∧
    (x.paused = none → x.finished = false → coreOf x.ts < 2048 → x.orphan = false →
      let stopped (q n : Nat) : Prop := nextWith (exec (.collectiveChunk i) s) fun t =>
        (∃ h, t.coll.active = s.coll.active.set i { x with paused := some h, opened := none, got := [], half := [], landed := [] }) ∧ sameMemory s t ∧
        ∃ r, t.faults.recs = s.faults.recs ++ [r] ∧ r.ts = x.ts ∧ r.source = 2 ∧ r.cls = 15 ∧ r.detail = n ∧ r.cmd = x.cmd ∧
          r.msg.extractLsb' 256 64 = BitVec.ofNat 64 (q % 65536 * 65536) ∧ r.msg = faultMsg s x.ts 2 (collFault n q) x.instr x.pc r.handle
      (∀ q l, x.lost = q :: l → inFlight s x.copy = [] → stopped q 3) ∧
      (∀ q l, x.lost = q :: l → inFlight s x.copy ≠ [] → exec (.collectiveChunk i) s = .next s) ∧
      (x.lost = [] → x.started = false → exec (.collectiveChunk i) s = .next s) ∧
      (x.lost = [] → x.started = true → x.rank ∈ mismatched x → stopped 0 4) ∧
      (x.lost = [] → x.started = true → mismatched x = [] →
        ∀ g fn et wire root d a b c cnt y, x.instr = .coll g .broadcast fn et wire false root d a b c cnt → x.rank ≠ root.toNat →
        memberOf x root.toNat = some y →
        let left := chunksLeft x .broadcast et.bytes root.toNat
        let c' : Nat × State := if left.length = 1 then (0, s) else s.pick
        let w : Who := { s.who x.ts with ts := none, core := hubCore }
        let s0 (s : State) : State := { s with msys := { s.msys with agent := x.pts } }
        ∀ start, left[c'.1 % left.length]? = some start →
        let at' := x.recv + BitVec.ofNat 64 (start * et.bytes)
        let n := Min.min (x.count - start) (Max.max 1 ((4096 - at'.toNat % 4096) / et.bytes))
        ∀ pg s1, collPages w x et.bytes (CollPlan.mk [] ((List.range n).map (start + ·))) c'.2 = .ok (pg, s1) →
          collWaits s1 pg = none → s1.split = false → x.opened = none → x.landed = [] → x.half = [] → x.token ≠ 2 →
          let u := pg.lands.foldl (fun s e => engineWrite w { val := y.send.getD e.1 0 } e.2 s) (s0 s1)
          nextWith (exec (.collectiveChunk i) s) fun t => sameMemory u t ∧
            (u.coll = s.coll → ∃ x' ∈ t.coll.active, x'.cmd = x.cmd ∧ x'.done = start :: x.done ∧
              x'.bytes = x.bytes + n * et.bytes ∧ (x'.finished = true ↔ ∀ b ∈ left, b = start)))) ∧
    (x.paused = none → x.finished = true → x.orphan = false → x.copy = 0 ∨ inFlight s x.copy = [] → (∀ e ∈ s.tsets, ∀ n, e.2.status ≠ .ending n) →
      ∀ g op fn et wire scaled root d a b c n, x.instr = .coll g op fn et wire scaled root d a b c n →
      nextWith (exec (.collectiveCompletion i) s) fun t => t.coll.active = s.coll.active.eraseIdx i ∧
        (t.ts x.ts).getS d = (if d = 0 then 0 else x.token) ∧ (t.ts x.ts).pendS.getLsbD d.val = false ∧ sameMemory s t)

/-! ### Dispatch -/

/-- No thread set waits at a fence, and none is ending. -/
def Sys2Proof.Claims.calm (s : State) : Prop :=
  ∀ e ∈ s.tsets, (∀ i c, e.2.status ≠ .waitFence i c) ∧ ∀ n, e.2.status ≠ .ending n

/-- The pending task of a position and element of launch n is x afterwards. -/
def Sys2Proof.Claims.hasTask (t : State) (n : Nat) (x : Task) : Prop := ∃ l, t.launch? n = some l ∧ x ∈ l.pending

/-- Spawns and passes (R331, R334, R337 to R339, R352, R355): a spawn that arrives combines into the pending task or becomes one,
and G counts a new one; its answer is written; a pass grants a task whose ball is free, with an entry in a cluster queue of
the die, and ages one that is refused, reserving it at the threshold; a deferred task is eligible when its time is over. -/
def Sys2Proof.Claims.TaskEvents : Prop :=
  (∀ (s s1 : State) (i : Nat) (own : Partition) (x : Spawn) (l : Launch), s.disp.spawns[i]? = some x → x.answer = none →
    s.launch? x.launch = some l → ownerOf l x.elem s = .ok (own, s1) → s1.launch? x.launch = some l →
    ((∀ y ∈ l.pending, ¬(y.pos = x.pos ∧ y.elem = x.elem)) → nextWith (exec (.spawnArrival i) s) fun t =>
      t.disp.spawns = s1.disp.spawns.set i { x with answer := some 0 } ∧ (own.1 = none → own.2 ∈ t.disp.passDue) ∧
      (∃ l', t.launch? x.launch = some l' ∧ l'.g = l.g + 1) ∧
      hasTask t x.launch { pkg := own.1, die := own.2, pos := x.pos, elem := x.elem, arg := x.arg, pts := x.pts }) ∧
    (∀ y ∈ l.pending, y.pos = x.pos → y.elem = x.elem → nextWith (exec (.spawnArrival i) s) fun t =>
      t.disp.spawns = s1.disp.spawns.set i { x with answer := some 1 } ∧
      (∃ l', t.launch? x.launch = some l' ∧ l'.g = l.g) ∧
      ∀ k, l.kernels[x.pos]? = some k → hasTask t x.launch { y with pts := Max.max y.pts x.pts, arg := match k.combine with
        | 1 => x.arg
        | 2 => y.arg + x.arg
        | 3 => if x.arg.toInt < y.arg.toInt then x.arg else y.arg
        | 4 => if y.arg.toInt < x.arg.toInt then x.arg else y.arg
        | 5 => y.arg ||| x.arg
        | _ => y.arg })) ∧
  (∀ (s : State) (i st : Nat) (x : Spawn), s.disp.spawns[i]? = some x → x.answer = some st →
    (∀ e ∈ s.tsets, ∀ n, e.2.status ≠ .ending n) → nextWith (exec (.spawnAnswer i) s) fun t =>
      (t.ts x.ts).getS x.d = (if x.d = 0 then 0 else BitVec.ofNat 64 st) ∧ (t.ts x.ts).pendS.getLsbD x.d.val = false ∧
      t.disp.spawns = s.disp.spawns.eraseIdx i ∧ sameMemory s t) ∧
  (∀ (s : State) (n : Nat) (die : Fin 8) (l : Launch) (x : Task), s.disp.launches = [l] → l.num = n → l.pending = [x] →
    x.pkg = none →
    (die.val ∉ s.disp.passDue ∨ roomOn s die.val = [] → exec (.dispatchPass none die) s = .next s) ∧
    (die.val ∈ s.disp.passDue → roomOn s die.val ≠ [] → x.die = die.val → x.hold ≤ s.clk → l.graph = none → l.verify = false →
      (l.running = [] → l.claims = [] → nextWith (exec (.dispatchPass none die) s) fun t =>
        (∃ k, k / 16 = die.val ∧ Entry.task n l.priority x.pos x.elem x.arg ∈ clusterQueue t k) ∧
        ∃ l', t.launch? n = some l' ∧ l'.pending = [] ∧ l'.g = l.g ∧
          ∃ r, l'.running = [r] ∧ r.pkg = none ∧ r.die = die.val ∧ r.pos = x.pos ∧ r.elem = x.elem ∧ r.ts = none) ∧
      ((∃ r ∈ l.running, r.elem = x.elem) → die.val = 8 * (x.elem - l.ebase) / l.count →
        nextWith (exec (.dispatchPass none die) s) fun t => (∃ l', t.launch? n = some l' ∧ l'.running = l.running) ∧
          hasTask t n { x with age := x.age + 1, reserved := x.reserved || decide (l.ageLimit ≤ x.age + 1) }))) ∧
  ∀ (s : State) (n : Nat) (pos : Fin 4) (elem : Nat) (l : Launch) (x : Task), s.launch? n = some l →
    (l.pending.find? fun y => y.pos == pos.val && y.elem == elem) = some x →
    (l.graph = none → l.ageLimit ≤ x.age → nextWith (exec (.taskReservation n pos elem) s) fun t =>
      hasTask t n { x with reserved := true }) ∧
    (x.hold ≠ 0 → x.hold ≤ s.clk → nextWith (exec (.tdeferHoldExpiry n pos elem) s) fun t =>
      hasTask t n { x with hold := 0 } ∧ (x.pkg = none → x.die ∈ t.disp.passDue)) ∧
    (s.clk < x.hold → exec (.tdeferHoldExpiry n pos elem) s = .next s)

/-- Seam rounds (R344): the next colour is the lowest above the last one, cyclically; its pending tasks are admitted and every
dispatcher has yet to report; one reports the colours of its pending seam tasks when no task that it admitted is pending or
running, and the last report ends the round. -/
def Sys2Proof.Claims.SeamRounds : Prop :=
  (∀ (cs : List Nat) (c x : Nat), (∀ y ∈ cs, y < 64) →
    (nextColour none cs = some c → c ∈ cs ∧ ∀ y ∈ cs, c ≤ y) ∧
    (nextColour (some x) cs = some c → c ∈ cs ∧ (x < c → ∀ y ∈ cs, x < y → c ≤ y) ∧ (c ≤ x → ∀ y ∈ cs, y ≤ x ∧ c ≤ y))) ∧
  ∀ (s : State) (n : Nat) (l : Launch), s.launch? n = some l →
    (l.rounds = false ∨ l.round.isSome = true → exec (.seamRoundStart n) s = .next s) ∧
    (∀ known s0 cs s1 c, l.rounds = true → l.round = none → knownColours l s = .ok (known, s0) →
      l.pending.mapM (fun t => colourOf l t.elem) s0 = .ok (cs, s1) → s1.launch? n = some l →
      nextColour l.lastColour known = some c → nextWith (exec (.seamRoundStart n) s) fun t => (∀ d < 8, d ∈ t.disp.passDue) ∧
        ∃ l', t.launch? n = some l' ∧ l'.round = some c ∧ l'.unreported = partitions l ∧ l'.reports = [] ∧
          l'.pending = (l.pending.zip cs).map fun p => if p.2 = some c then { p.1 with admitted := true } else p.1) ∧
    (∀ (d : DieOf) (cs : List Nat) (s1 : State), let own : Partition := (d.pkg.map BitVec.toNat, d.die.val)
      l.round.isSome = true → own ∈ l.unreported → (∀ t ∈ l.pending, t.admitted = true → t.own ≠ own) →
      (∀ r ∈ l.running, r.round = true → (r.pkg, r.die) ≠ own) → pendingColours l own s = .ok (cs, s1) → s1.launch? n = some l →
      nextWith (exec (.seamRoundDone n d) s) fun t =>
        ∃ l', t.launch? n = some l' ∧ l'.unreported = l.unreported.filter (fun d => d != own) ∧
          l'.reports = l.reports ++ [(own, cs)] ∧ ((∃ d ∈ l.unreported, d ≠ own) → l'.round = l.round) ∧
          ((∀ d ∈ l.unreported, d = own) → l'.round = none ∧ l'.lastColour = l.round ∧ ∀ d < 8, d ∈ t.disp.passDue))

/-- The verifying mode and gang placement (R349, R358, R359): a claim is answered when none of its elements runs and no lower
asker of the die meets them, and then its elements are held; an answer is taken off what its task awaits; a resident
launch is placed as a whole, each index on a thread set of its own, with an entry in its cluster's queue, which holds 64. -/
def Sys2Proof.Claims.ClaimsAndPlacement : Prop :=
  (∀ (s s1 s2 : State) (i : Nat) (c : Claim) (l : Launch) (es : List Nat), s.disp.claims[i]? = some c → s.launch? c.launch = some l →
    (c.answered = true → exec (.remoteClaimRequest i) s = .next s) ∧
    (c.answered = false → claimBall l c s = .ok (es, s1) → (∀ u ∈ es, ∀ r ∈ l.running, r.elem ≠ u) →
      lowerAsker l c es s1 = .ok (false, s2) → s2.launch? c.launch = some l → nextWith (exec (.remoteClaimRequest i) s) fun t =>
        t.disp.claims = s2.disp.claims.set i { c with answered := true } ∧
        ∃ l', t.launch? c.launch = some l' ∧ l'.claims = l.claims ++ es.map fun u =>
          { elem := u, pos := c.pos, task := c.elem, pkg := (c.asks s2).1, die := c.die }) ∧
    (c.answered = false → exec (.remoteClaimAnswer i) s = .next s) ∧
    (∀ x, c.answered = true → (l.pending.find? fun t => t.pos == c.pos && t.elem == c.elem) = some x →
      nextWith (exec (.remoteClaimAnswer i) s) fun t => t.disp.claims = s.disp.claims.eraseIdx i ∧
        hasTask t c.launch { x with awaiting := x.awaiting.filter fun p => p != (c.peer, c.die) } ∧
        ((∀ p ∈ x.awaiting, p = (c.peer, c.die)) → x.pkg = none → x.die ∈ t.disp.passDue))) ∧
  ∀ (s s1 : State) (n : Nat) (l : Launch) (given : List (Nat × Nat)), s.launch? n = some l → l.element = false → l.waiting = true →
    (placeFrom l.map l.count 0 [] s = none → exec (.gangPlacement n) s = .next s) ∧
    (placeFrom l.map l.count 0 [] s = some (given, s1) → given.map Prod.fst = List.range l.count ∧ (given.map Prod.snd).Nodup ∧
      (∀ p ∈ given, coreIdle s (coreOf p.2) = true ∧ reservedFor s (coreOf p.2) = none) ∧
      nextWith (exec (.gangPlacement n) s) fun t => (∃ l', t.launch? n = some l' ∧ l'.placed = given ∧ l'.waiting = false) ∧
        (∀ k, (clusterQueue s k).length ≤ 64 → (clusterQueue t k).length ≤ 64) ∧
        ∀ p ∈ given, Entry.index n l.priority p.1 p.2 ∈ clusterQueue t (clusterOf (coreOf p.2)))

/-- The start of a thread set (R113, R114, R238): the first entry of its cluster's queue that its core may run leaves the queue, and
the thread set holds the initial state: registers 0, `fpc` 0x28, `fps` 0, nothing pending, the faces other than `qf` empty, the pc at the
kernel, halted with its launch, and the index and group slots, or the element and argument, of the entry. Its clock is 0; the clock
of its launch's start, or of its task's grant, is the one that its first instruction takes (R265, R306). -/
def Sys2Proof.Claims.ThreadSetStart : Prop :=
  ∀ (s : State) (t i n : Nat) (l : Launch) (e : Entry), coreOf t < 2048 → (s.ts t).status = .free → s.launch? n = some l →
    let q := clusterQueue s (clusterOf (coreOf t))
    q.findIdx? (mayRun s t) = some i → q[i]? = some e →
    let started (pos : Nat) (u : State) : Prop :=
      let y := u.ts t
      clusterQueue u (clusterOf (coreOf t)) = q.eraseIdx i ∧ (u.core (coreOf t)).launch = some n ∧
      (∀ r, y.getS r = 0 ∧ y.getV r = 0) ∧ (∀ r, y.getP r = decide (r = 0)) ∧ (∀ r, y.getK r = 0xFFFFFFFF) ∧ y.fpc = 0x28 ∧ y.fps = 0 ∧
      y.pts = 0 ∧ y.pendS = 0 ∧ y.pendV = 0 ∧ y.qa = [] ∧ y.qr = [] ∧ y.qf = (s.ts t).qf ∧ y.halted = l.halted ∧ y.part = none ∧ y.status = .running ∧ y.launch = n ∧
      y.cb = BitVec.ofNat 64 l.cb ∧ y.launchid = BitVec.ofNat 64 (n % 2 ^ 32 + 2 ^ 32 * l.queue) ∧
      y.faultSeq = (s.ts t).faultSeq ∧
      (∀ k, l.kernels[pos]? = some k → y.pc = BitVec.ofNat 64 (l.code + k.offset))
    (∀ p ix t', e = .index n p ix t' → nextWith (exec (.threadSetStart t) s) fun u => started 0 u ∧ (u.ts t).index = ix ∧
      (u.ts t).element = false ∧ (u.ts t).acq = [(32, l.pts)] ∧ ∀ j : Fin 4, (u.ts t).gs[j] = (groupSlots l ix).getD j.val 0) ∧
    (∀ p pos elem arg, e = .task n p pos elem arg → l.graph = none → nextWith (exec (.threadSetStart t) s) fun u =>
      started pos u ∧ (u.ts t).element = true ∧ (u.ts t).eid = BitVec.ofNat 64 elem ∧ (u.ts t).targ = arg ∧ (u.ts t).qn = [] ∧
      ∃ p, (u.ts t).acq = [(32, p)] ∧ l.pts ≤ p)

/-! ### Pre-emption, the watchdog, debugging -/

/-- The end of a launch none of whose thread sets is left (R379, R380): it is released, and its packet carries the status. -/
def Sys2Proof.Claims.LaunchEnds : Prop :=
  ∀ (s : State) (n st : Nat) (l : Launch), s.launch? n = some l → l.status < st → 2 ≤ st →
    (∀ e ∈ s.tsets, e.2.launch = n → e.2.status = .free) →
    (killLaunch s n st).launch? n = none ∧
      ∃ p ∈ (killLaunch s n st).front.packets, p.launch = some n ∧ p.status = st ∧ p.ready = true ∧ p.completion = l.completion

/-- Pre-emption and resumption of a core of an element launch (R360, R384 to R388): its thread sets and local memory go to an image,
the first one whole, a later one with the units whose dirty bit is set; the fault counts stay with the slots, the dirty bits are
cleared, and they come back on a free core of the same die, where an instruction that was blocked without effect issues again. A
resident launch is pre-empted only when one of higher priority needs resources. A launch whose watched time has passed its
budget ends with status 3 (R389). -/
def Sys2Proof.Claims.PreemptionAndWatchdog : Prop :=
  (∀ (s : State) (c : Nat) (l : Launch), c < 2048 → coreIdle s c = false → (s.core c).launch.bind s.launch? = some l →
    (coreRests s c = false → l.element = true → exec (.preempt c) s = .next s) ∧
    (l.element = false → higherNeeds s l = false ∨ entriesWait s l.num = true → exec (.preempt c) s = .next s) ∧
    (l.element = true → coreRests s c = true → (s.core c).folds = [] → (∀ i < 4, foldsHeld s (4 * c + i) = false) →
      nextWith (exec (.preempt c) s) fun t => ∃ v x, x ∈ t.disp.images ∧ x.num = v ∧ x.kept = false ∧
        (∀ y ∈ s.disp.images, y.num ≠ v) ∧ 4096 ≤ v ∧ v % 4096 = c ∧
        (savedImage s c = none → x.written = allUnits (s.core c)) ∧
        (∀ y, savedImage s c = some y → (∀ u ∈ x.written, unitDirty (s.core c) (tsetsOf s c) u = true) ∧
          (∀ z ∈ t.disp.images, z.num ≠ y.num) ∧
          ∀ u ∈ allUnits (s.core c), unitDirty (s.core c) (tsetsOf s c) u = true → u ∈ x.written) ∧
        (t.core v).mem = (s.core c).mem ∧ (t.core c).mem = [] ∧ (t.core c).launch = none ∧ (t.core v).dirty = {} ∧
        ∀ i < 4, t.ts (4 * v + i) = { s.ts (4 * c + i) with faultSeq := (s.ts (4 * v + i)).faultSeq, dirty := {} } ∧
          t.ts (4 * c + i) = { faultSeq := (s.ts (4 * c + i)).faultSeq })) ∧
  (∀ (s : State) (j c : Nat) (m : Image) (l : Launch), s.disp.images[j]? = some m → (∀ y ∈ s.disp.images, 4096 ≤ y.num) →
    resumable s c = true → (s.core m.num).launch.bind s.launch? = some l → l.element = true → let v := m.num
    (m.kept = true ∨ dieOfCore v ≠ dieOfCore c → exec (.coreResume j c) s = .next s) ∧
    (m.kept = false → dieOfCore v = dieOfCore c → (∀ r ∈ s.faults.recs, r.held = none) → nextWith (exec (.coreResume j c) s) fun t =>
      (∀ y ∈ t.disp.images, y.num = v → y.kept = true) ∧ t.disp.saved.get? c = some v ∧ (t.core c).mem = (s.core v).mem ∧
      ∀ i < 4, let x := s.ts (4 * v + i)
        t.ts (4 * c + i) = { x with faultSeq := (s.ts (4 * c + i)).faultSeq, status := match x.status with
          | .waitQueue _ | .waitWake _ | .waitFence .. | .waitPeer .. => .running
          | y => y })) ∧
  (∀ (s : State) (n : Nat) (l : Launch), s.launch? n = some l →
    (l.budget = 0 ∨ l.used ≤ l.budget * 1700 → exec (.watchdogExpiry n) s = .next s) ∧
    (l.budget ≠ 0 → l.budget * 1700 < l.used → exec (.watchdogExpiry n) s = .next (killLaunch s n 3))) ∧
  LaunchEnds

/-- Debugger halts (R390): a halt stops exactly the thread sets that it names, those that a launch starts later too, at once or
once their commands have completed; the report names the commands that it holds, and a resume lets them go on. -/
def Sys2Proof.Claims.DebugHalts : Prop :=
  ∀ (s : State) (g : HaltTarget),
    (∀ n e, g = .launch n → e ∈ s.tsets → e.2.launch = n → e.2.status ≠ .free → e.1 ∈ haltSet s g) ∧
    (∀ t, g = .tset t → (s.ts t).status ≠ .free → haltSet s g = [t]) ∧
    (nextWith (exec (.haltNow g) s) fun t => ∀ q, t.ts q =
      if q ∈ haltSet s g then { s.ts q with halted := true, draining := false } else s.ts q) ∧
    (∀ n l i, g = .launch n → s.launch? n = some l → i ∈ [Instr.haltNow g, .haltDrain g] → nextWith (exec i s) fun t =>
      ∃ l', t.launch? n = some l' ∧ l'.halted = true) ∧
    (nextWith (exec (.haltDrain g) s) fun t => ∀ q, t.ts q =
      if q ∈ haltSet s g then { s.ts q with halted := true, draining := true } else s.ts q) ∧
    ((∀ q ∈ haltSet s g, (s.ts q).draining = true → drained s q = true) → nextWith (exec (.haltDrainComplete g) s) fun t =>
      (∀ q ∈ haltSet s g, (t.ts q).draining = false) ∧
        t.disp.haltReport = heldCommands s ((haltSet s g).filter fun q => (s.ts q).draining)) ∧
    ((∃ q ∈ haltSet s g, (s.ts q).draining = true ∧ drained s q = false) → exec (.haltDrainComplete g) s = .next s) ∧
    (nextWith (exec (.debugResume g) s) fun t => ∀ q ∈ haltSet s g, (t.ts q).halted = false ∧ (t.ts q).draining = false)

/-! ### Management -/

/-- Power, reset and bring-up (R401, R402): what is lost and what is kept, the stages in order with their failures, and what the
last stage does: time 0, an interrupt, the peer identifier, a position in the fabric's extent, and an incarnation that is
written or new. -/
def Sys2Proof.Claims.PowerAndBringUp : Prop :=
  (∀ s : State,
    (s.mgmt.powered = true → exec .powerGood s = .next s) ∧
    (s.mgmt.powered = false → nextWith (exec .powerGood s) fun t => t.mgmt.powered = true ∧ t.mgmt.stage = 1 ∧ t.mgmt.ready = false) ∧
    (nextWith (exec .powerLoss s) fun t => t.mgmt.powered = false ∧ t.mgmt.ready = false ∧ (∀ q, (t.ts q).status = .free) ∧
      (∀ a, (memOf t .dev).get a = 0) ∧ t.msys.host = s.msys.host) ∧
    (s.mgmt.powered = false → exec .resetRequest s = .next s) ∧
    (s.mgmt.powered = true → nextWith (exec .resetRequest s) fun t => t.mgmt.qtable = s.mgmt.qtable ∧
      t.mgmt.incarnReg = s.mgmt.incarnReg ∧ t.mgmt.peerReg = s.mgmt.peerReg ∧ t.mgmt.ready = false ∧ t.mgmt.stage = 1 ∧
      t.mgmt.pwrlim = 4200 ∧ t.mgmt.leaseDie = 4096 ∧ t.mgmt.leasePkg = 16384 ∧ t.mgmt.leaseFab = 65536 ∧
      t.disp.launches = [] ∧ t.front.packets = [] ∧ t.front.queues = [] ∧ (∀ q, (t.ts q).status = .free) ∧
      (∀ a, (memOf t .dev).get a = 0) ∧ t.msys.host = s.msys.host)) ∧
  ∀ s : State, s.mgmt.powered = true → s.mgmt.ready = false → ¬(1 ≤ s.mgmt.failure.toNat ∧ s.mgmt.failure.toNat ≤ 3) →
    let ends (f : Fin 6) (P : State → Prop) : Prop := nextWith (exec (.bringUpStageDone f) s) P
    let g := s.mgmt.stage
    (ends 0 fun t => t.mgmt.stage = g + 1 ∧ t.mgmt.failure = s.mgmt.failure ∧ (t.mgmt.ready = true ↔ g = 4)) ∧
    (g = 3 → ends 0 fun t => ∀ a, (memOf t .dev).get a = 0 ∧ (memOf t .alt).get a = 0) ∧
    (g = 4 → ends 0 fun t => t.clk = 0 ∧ t.mgmt.interrupts = s.mgmt.interrupts + 1 ∧ t.mgmt.peerId = s.mgmt.peerReg ∧
      t.mgmt.peerId.toNat / 16 < t.fab.rows ∧ t.mgmt.peerId.toNat % 16 < t.fab.cols ∧
      (s.mgmt.incarnWritten = true → t.mgmt.incarnation = s.mgmt.incarnReg) ∧
      (s.mgmt.incarnWritten = false → t.mgmt.incarnation ≠ 0 ∧ t.mgmt.incarnation ≠ s.mgmt.incarnation)) ∧
    (g = 2 → ∀ f : Fin 6, f = 1 ∨ f = 2 → ends f fun t => t.mgmt = { s.mgmt with failure := BitVec.ofNat 8 f.val }) ∧
    (g = 4 → ends 3 fun t => t.mgmt = { s.mgmt with failure := 3 }) ∧
    (g = 2 → ends 4 fun t => t.mgmt.failure = 4 ∧ t.mgmt.stage = 3 ∧ t.fab.peers = []) ∧
    (g = 4 → ends 5 fun t => t.mgmt.failure = 5 ∧ t.mgmt.ready = true ∧ t.mgmt.patch = false)

/-- Management registers (R13, R398 to R400, R424, R428, R429): none without power; the fields that a write sets, the clamped power limit, key commands, bias
flips, the ending of launches, and the power alarm with its interrupts. -/
def Sys2Proof.Claims.ManagementRegisters : Prop :=
  ∀ (s : State) (v : Word) (watts : Nat) (slot : Fin 1024),
    let m := s.mgmt
    let wrote (o : Nat) (m' : Mgmt) : Prop := exec (.mgmtRegisterWrite o v) s = .next { s with mgmt := m' }
    let keep (x y : BitVec 20) : BitVec 20 := if x = 0 then y else x
    let raised (b : Bool) (m' : Mgmt) : Mgmt := if m'.alarm = b then m' else { m' with alarm := b, interrupts := m'.interrupts + 1 }
    -- above the limit, or by `CONTROL` bit [1], the alarm is 1; the time below 95% of the limit runs only without that bit
    let reviewed (m' : Mgmt) : Mgmt :=
      let m2 := { m' with lowSince := if m'.pwrnow * 100 < 95 * m'.pwrlim ∧ m'.force = false then some (m'.lowSince.getD s.clk) else none }
      if m'.force = true ∨ m'.pwrlim < m'.pwrnow then raised true m2 else m2
    (m.powered = false → (∀ o, readMgmt s o = none) ∧ ∀ o on, ∀ i ∈ [Instr.mgmtRegisterWrite o v, .pwrlim v, .keyLoad slot,
      .keyClear slot, .biascmd v, .endcmd v, .forcePowerAlarm on, .powerAlarmRaise watts, .powerAlarmLower watts],
      exec i s = .next s) ∧
    (m.powered = true → readMgmt s 0x10 = some m.qtable ∧ readMgmt s 0x18 = some (leaseWord m) ∧
      readMgmt s 0x20 = some (m.incarnReg.setWidth 64) ∧ readMgmt s 0x28 = some (m.peerReg.setWidth 64) ∧
      readMgmt s 0x30 = some (BitVec.ofNat 64 m.pwrlim) ∧ readMgmt s 0x38 = some (BitVec.ofNat 64 m.pwrnow) ∧
      readMgmt s 0x90 = some m.biasrng) ∧
    (∀ k, m.keycmd = some k → nextWith (exec .keyCommandDone s) fun t => t.mgmt = { m with keycmd := none, keydata := 0 } ∧
      keyOf t k.slot = (if k.clear = true then none else some (some m.keydata)) ∧
      ∀ j, j ≠ k.slot → keyOf t j = keyOf s j) ∧
    (m.biasBusy = true → flushHeld s (biasRange m) = true → exec .biasFlipComplete s = .next s) ∧
    (m.biasBusy = true → flushHeld s (biasRange m) = false → nextWith (exec .biasFlipComplete s) fun t =>
      t.mgmt = { m with biasBusy := false } ∧
      ∀ e ∈ t.msys.walk, let p := entryPages e; (biasRange m).covers e.asid p.1 p.2 = false) ∧
    (m.endGo = true → (∀ n ∈ m.ending, s.launch? n = none ∧ ∀ p ∈ s.front.packets, p.launch ≠ some n) →
      exec .endCommandComplete s = .next { s with mgmt := { m with endGo := false, ending := [] } }) ∧
    (m.powered = true →
    wrote 0x10 { m with qtable := v >>> 22 <<< 22 } ∧
    wrote 0x18 { m with leaseDie := keep (v.extractLsb' 0 20) m.leaseDie, leasePkg := keep (v.extractLsb' 20 20) m.leasePkg,
                        leaseFab := keep (v.extractLsb' 40 20) m.leaseFab } ∧
    wrote 0x20 { m with incarnReg := v.setWidth 16, incarnWritten := true } ∧
    wrote 0x28 { m with peerReg := v.setWidth 8 } ∧ wrote 0x90 { m with biasrng := v } ∧
    (∀ i : Fin 8, nextWith (exec (.mgmtRegisterWrite (0x40 + 8 * i.val) v) s) fun t =>
      ∀ j : Fin 8, t.mgmt.keydata.extractLsb' (64 * j.val) 64 = if j = i then v else m.keydata.extractLsb' (64 * j.val) 64) ∧
    exec (.pwrlim v) s = .next { s with mgmt := reviewed { m with pwrlim := Max.max 1000 (Min.min 4200 v.toNat) } } ∧
    (m.keycmd = none → exec (.keyLoad slot) s = .next { s with mgmt := { m with keycmd := some { slot := slot.val, clear := false } } } ∧
      exec (.keyClear slot) s = .next { s with mgmt := { m with keycmd := some { slot := slot.val, clear := true } } }) ∧
    (m.biasBusy = false → v.getLsbD 31 = true → exec (.biascmd v) s =
      .next { s with mgmt := { m with biasBusy := true, biasCount := v.setWidth 16 } }) ∧
    (let m' := { m with endAll := v.getLsbD 61, endQueue := v.extractLsb' 32 16, endLaunch := v.setWidth 32 };
      m.endGo = false →
      (v.getLsbD 63 = false → exec (.endcmd v) s = .next { s with mgmt := m' }) ∧
      (v.getLsbD 63 = true → endNames s v = [] → exec (.endcmd v) s =
        .next { s with mgmt := { m' with endGo := false, endNotFound := true, ending := [] } }) ∧
      (∀ n, v.getLsbD 63 = true → endNames s v = [n] → exec (.endcmd v) s =
        .next (killLaunch { s with mgmt := { m' with endGo := true, endNotFound := false, ending := [n] } } n 6))) ∧
    (∀ on, exec (.forcePowerAlarm on) s = .next { s with mgmt := reviewed { m with force := on } }) ∧
    exec (.powerAlarmRaise watts) s = .next { s with mgmt := reviewed { m with pwrnow := watts } } ∧
    exec (.powerAlarmLower watts) s = .next { s with mgmt :=
      let r := reviewed { m with pwrnow := watts }
      match r.lowSince with
      | some c => if c + 17000000 ≤ s.clk then raised false r else r
      | none => r })

/-! ### Packets, queues and the host -/

/-- No packet of another mapped queue goes before the packet at the head of queue q (R406). -/
def Sys2Proof.Claims.goesNow (q : Nat) (h : Head) (s1 : State) : Prop :=
  ∀ p ∈ s1.front.mapped, p ≠ q → goesFirst s1 h.priority ((queueOf s1 q).since.getD s1.clk) p = false

/-- A packet of kind k stands at the head of queue q, its header's zero fields are 0, its completion counter lies aligned in the
queue's bounds when it names one, and it waits for nothing (R405, R406, R408, R409). -/
def Sys2Proof.Claims.headStarts (q k : Nat) (s : State) (h : Head) (s1 : State) : Prop :=
  headOf q (· == k) s = .ok (h, s1) ∧ headerZeros (h.word 0) = true ∧ h.word 1 = 0 ∧
    (h.word 3 = 0 ∨ inBounds h.queue (h.word 3) 16 = true ∧ h.word 3 % 16 = 0) ∧ goesNow q h s1

/-- The packet's header and its queue's read index can be written, and u is the state with the packet consumed (R405). -/
def Sys2Proof.Claims.consumedTo (h : Head) (mid u : State) : Prop := consume h mid = .ok ((), u)

/-- Where the packet can be consumed after its own effect, the event runs, and it ends so (R405). -/
def Sys2Proof.Claims.consumed (i : Instr) (s : State) (h : Head) (mid : State) : Prop :=
  (∃ u, consumedTo h mid u) → nextWith (exec i s) fun u => consumedTo h mid u

/-- The packet completes as it starts, with a status and a code, when its counter can be written; else its queue fails (R405,
R414, R418). -/
def Sys2Proof.Claims.completesPacket (i : Instr) (q : Nat) (s s1 : State) (h : Head) (st code : Nat) (mid : State) : Prop :=
  let p : Packet := { packetOf h with status := st, code := code, ready := true }
  (counterOk p mid = true → consumed i s h (addPacket p mid)) ∧ (counterOk p mid = false → exec i s = .next (queueToError s1 q))

/-- The packet kinds that carry their effect themselves (R405, R406, R409, R412 to R414, R418, R426, R486). A packet that is ready goes
after one of another queue that the front end has read and that R406 puts before it. -/
def Sys2Proof.Claims.SimplePackets : Prop :=
  ∀ (s s1 : State) (q : Nat) (h : Head),
    let p := packetOf h
    let w := queueWho h.queue
    let idle : Prop := h.word 4 = 0 ∧ h.word 5 = 0 ∧ h.word 6 = 0 ∧ h.word 7 = 0
    let held (t : Option Nat) : State := setQueue s1 q { queueOf s1 q with since := t }
    (headStarts q 8 s h s1 → idle → completesPacket (.nopPacket q) q s s1 h 0 0 s1) ∧
    (headStarts q 6 s h s1 → idle → (queueBusy s1 q = true → exec (.wait q) s = .next (held none)) ∧
      (queueBusy s1 q = false → completesPacket (.wait q) q s s1 h 0 0 s1)) ∧
    (headStarts q 5 s h s1 → h.word 6 = 0 → h.word 7 = 0 → h.word 4 % 8 = 0 → inBounds h.queue (h.word 4) 8 = true →
      ∀ ps s2 old s3, checkAccess w .rmw (BitVec.ofNat 64 (h.word 4)) 8 s1 = .ok (ps, s2) → needClean w ps s2 = .ok ((), s2) →
        rmw w ps (fun x => some ((x + h.word 5) % 2 ^ 64)) s2 = .ok (old, s3) → completesPacket (.counterAdd q) q s s1 h 0 0 s3) ∧
    (headStarts q 3 s h s1 → h.word 7 = 0 → h.word 6 ≤ 2 ^ 48 → inBounds h.queue (h.word 4) (h.word 6) = true →
      inBounds h.queue (h.word 5) (h.word 6) = true → consumed (.copy q) s h (addPacket { p with
        dst := h.word 4, src := h.word 5, len := h.word 6, ready := h.word 6 == 0 } s1)) ∧
    (∀ et op, headStarts q 4 s h s1 → redType (h.word 7 / 16 % 16) = some et → redOpOf (h.word 7 % 4) = some op →
      h.word 7 / 4 % 4 = 0 → h.word 7 / 256 % 2 ^ 56 = 0 → h.word 4 % et.bytes = 0 → h.word 5 % et.bytes = 0 →
      h.word 6 ≤ 2 ^ 40 → inBounds h.queue (h.word 4) (h.word 6 * et.bytes) = true →
      inBounds h.queue (h.word 5) (h.word 6 * et.bytes) = true → consumed (.reducingCopy q) s h (addPacket { p with
        dst := h.word 4, src := h.word 5, len := h.word 6, op, et, copy := copyId s1 (2 ^ 32 - 1) s1.front.copies,
        ready := h.word 6 == 0 } { s1 with front := { s1.front with copies := s1.front.copies + 1 } })) ∧
    (headStarts q 7 s h s1 → h.word 4 % 64 = 0 → inBounds h.queue (h.word 4) 4096 = true →
      let body := reportBody s1 h
      (∀ f, checkAccess w .store (BitVec.ofNat 64 (h.word 4)) 4096 s1 = .error (.fault f) → completesPacket (.attest q) q s s1 h 12 32 s1) ∧
      ∀ ps s2, checkAccess w .store (BitVec.ofNat 64 (h.word 4)) 4096 s1 = .ok (ps, s2) →
        (∀ f, needClean w ps s2 = .error (.fault f) → completesPacket (.attest q) q s s1 h 12 32 s1) ∧
        ∀ s3, needClean w ps s2 = .ok ((), s2) → writeAll w .norm ps
            (joinFields [(256, body), (2, 3309), (3309, signature body 3309), (529, 0)]) s2 = .ok ((), s3) →
          completesPacket (.attest q) q s s1 h 0 0 s3) ∧
    (headOf q (9 ≤ ·) s = .ok (h, s1) → h.word 1 = 0 → goesNow q h s1 → completesPacket (.rejectedKindPacket q) q s s1 h 7 1 s1) ∧
    (∀ v s2, headOf q (· == 8) s = .ok (h, s1) → h.word 1 ≠ 0 → h.word 1 % 8 = 0 → inBounds h.queue (h.word 1) 8 = true →
      memRead w .norm (BitVec.ofNat 64 (h.word 1)) 8 s1 = .ok (v, s2) →
      goesNow q h s1 → (v < h.word 2 → exec (.nopPacket q) s = .next (held none)) ∧
      (h.word 2 ≤ v → h.word 0 / 2 ^ 17 % 2 = 1 → v.testBit 63 = true →
        completesPacket (.nopPacket q) q s s1 h 10 0 s1)) ∧
    (∀ k u, headOf q (· == 8) s = .ok (h, s1) → headerZeros (h.word 0) = true → h.word 1 = 0 → h.word 3 = 0 → idle →
      consume h (addPacket { p with ready := true } s1) = .ok ((), u) → k ∈ s1.front.mapped → k ≠ q →
      goesFirst s1 h.priority ((queueOf s1 q).since.getD s1.clk) k = true → (queueOf s1 k).slot.isSome = true →
      exec (.nopPacket q) s = .next (held (some ((queueOf s1 q).since.getD s1.clk))))

/-- Launch packets (R331, R350, R410 to R412) and completions (R414): an accepted launch runs and its packet is consumed; a resident
one waits to be placed with 1 to 8,192 indices; an initial task is pending at its owner; a completed packet adds its increment
to the counter. -/
def Sys2Proof.Claims.LaunchPackets : Prop :=
  (∀ (s s1 s2 : State) (q : Nat) (h : Head),
    (headOf q (· == 1) s = .ok (h, s1) → goesNow q h s1 → startResident h s1 = .ok ((), s2) → consumed (.residentLaunch q) s h s2 ∧
      ∃ l ∈ s2.disp.launches, l.queue = h.q ∧ l.element = false ∧ l.waiting = true ∧ 1 ≤ l.count ∧ l.count ≤ 8192 ∧
        l.completion = h.word 3 ∧ l.budget = h.word 7 / 2 ^ 32 % 2 ^ 32 ∧ l.status = 0 ∧ l.radius = 0 ∧
        ∀ k ∈ l.kernels, k.hset < l.count) ∧
    (headOf q (· == 2) s = .ok (h, s1) → goesNow q h s1 → startElement h s1 = .ok ((), s2) → consumed (.elementLaunch q) s h s2)) ∧
  (∀ (s : State) (n e a : Nat) (l : Launch), s.launch? n = some l → l.graph = none →
    (∀ y ∈ l.pending, ¬(y.pos = 0 ∧ y.elem = e)) →
    let t := createTasks n [(e, a)] s
    let die := 8 * (e - l.ebase) / l.count
    hasTask t n { die, pos := 0, elem := e, arg := BitVec.ofNat 64 a, pts := l.pts } ∧ die ∈ t.disp.passDue ∧
      ∃ l', t.launch? n = some l' ∧ l'.g = l.g + 1) ∧
  ∀ (s : State) (i : Nat) (p : Packet), s.front.packets[i]? = some p →
    let drop (s : State) : State := { s with front := { s.front with packets := s.front.packets.eraseIdx i } }
    let w : Who := { core := hubCore, asid := p.asid, root := p.root }
    (p.ready = false → exec (.packetCompletion i) s = .next s) ∧
    (p.ready = true → p.completion = 0 → exec (.packetCompletion i) s = .next (drop s)) ∧
    (p.ready = true → p.completion ≠ 0 → ¬(p.lower ≤ p.completion ∧ p.completion + 16 ≤ p.upper) →
      exec (.packetCompletion i) s = .next (queueToError (drop s) p.queue)) ∧
    (p.ready = true → p.completion ≠ 0 → p.lower ≤ p.completion → p.completion + 16 ≤ p.upper →
      (∀ f, checkAccess w .rmw (BitVec.ofNat 64 p.completion) 8 s = .error (.fault f) →
        exec (.packetCompletion i) s = .next (queueToError (drop s) p.queue)) ∧
      (p.status = 0 → ∀ c s1 e s2 old s3, checkAccess w .rmw (BitVec.ofNat 64 p.completion) 8 s = .ok (c, s1) →
        checkAccess w .rmw (BitVec.ofNat 64 (p.completion + 8)) 8 s1 = .ok (e, s2) → needClean w c s2 = .ok ((), s2) →
        rmw w c (fun old => some ((old + p.increment) % 2 ^ 64))
          { s2 with msys := { s2.msys with agent := Max.max s2.msys.agent p.pts } } = .ok (old, s3) →
        exec (.packetCompletion i) s = .next (drop s3)))

/-- Queues (R403, R415, R419, R420): an active record with a free slot is mapped, a broken or uncorrectable one goes to state 2, with an interrupt, and
one that has been disabled is no longer mapped; a time slice maps at most as many queues as there are slots; a processor that is reset
leaves service, the others serve its slots, so that every queue stays mapped, and what had been read of its own queues is read
again (which slots are a processor's: log entry 44). -/
def Sys2Proof.Claims.QueueEvents : Prop :=
  ∀ (s : State) (q : Nat),
    (s.mgmt.ready = true → (queueOf s q).state ≠ 1 → stateByte s q = 1 →
      (∀ x, recordBad s q = false → loadQueue s q = some x → s.front.mapped.length < slotCount → q ∉ s.front.mapped →
        nextWith (exec (.queueActivation q) s) fun t => queueOf t q = x ∧ t.front.mapped = s.front.mapped ++ [q] ∧ t.msys = s.msys) ∧
      (recordBad s q = false → loadQueue s q = none → nextWith (exec (.queueActivation q) s) fun t => (queueOf t q).state = 2 ∧
        t.mgmt.interrupts = s.mgmt.interrupts + 1 ∧ q ∉ t.front.mapped) ∧
      (recordBad s q = true → nextWith (exec (.queueActivation q) s) fun t => (queueOf t q).state = 2 ∧ q ∉ t.front.mapped)) ∧
    (s.mgmt.ready = true → (queueOf s q).state = 1 → stateByte s q ≠ 1 → nextWith (exec (.queueActivation q) s) fun t =>
      (queueOf t q).state = stateByte s q ∧ q ∉ t.front.mapped) ∧
    (s.mgmt.ready = false → exec (.queueActivation q) s = .next s) ∧
    ((queueOf s q).state = 1 → nextWith (exec (.queueError q) s) fun t => (queueOf t q).state = 2 ∧ q ∉ t.front.mapped) ∧
    ((queueOf s q).state ≠ 1 → exec (.queueError q) s = .next s) ∧
    (s.mgmt.ready = true → s.front.slice + 850000 ≤ s.clk → nextWith (exec .queueTimeSlice s) fun t =>
      t.front.slice = s.clk ∧ t.front.mapped.length ≤ slotCount) ∧
    (s.clk < s.front.slice + 850000 → exec .queueTimeSlice s = .next s) ∧
    (let ps := [0, 1, 2, 3].filter fun i => s.front.inService.getLsbD i
     ps ≠ [] → nextWith (exec .frontEndReset s) fun t => ∃ p ∈ ps, t.front.mapped = s.front.mapped ∧
      (let left := s.front.inService &&& ~~~(1#4 <<< p)
       t.front.inService = if left = 0 then s.front.inService else left) ∧
      ∀ k, queueOf t k = match s.front.mapped.findIdx? (· == k) with
        | some i => if ps.getD (i % ps.length) 0 = p then { queueOf s k with slot := none, since := none } else queueOf s k
        | none => queueOf s k)

/-- The host (R287, R397, R421, R422): with nothing of the package on its way to host memory, an access to its own memory arrives, and
one to device memory when the link is up and the addresses exist; an AtomicOp returns the old value; a link that is back
acknowledges what was outstanding. -/
def Sys2Proof.Claims.HostAccesses : Prop :=
  (∀ (s : State) (addr size value : Nat) (op : HostOp), s.memoryOk = true → settled s → s.msys.hostPoison = [] →
    s.split = false → s.mgmt.hostParts = [] →
    let v := value % 2 ^ (8 * size)
    let old := getNum s.msys.host addr size
    let n := 2 ^ (8 * size)
    let new := match op with
      | .fetchAdd x => (old + x) % n
      | .swap x => x % n
      | .cas x y => if old = x % n then y % n else old
    (nextWith (exec (.hostAccess true true addr size value) s) fun t => getNum t.msys.host addr size = v ∧
      (∀ b, b < addr ∨ addr + size ≤ b → (memOf t .host).get b = (memOf s .host).get b) ∧ t.tsets = s.tsets) ∧
    (nextWith (exec (.hostAccess true false addr size value) s) fun t => t.mgmt.hostRead = old ∧ sameMemory s t) ∧
    (nextWith (exec (.hostAtomicop true addr size op) s) fun t => t.mgmt.hostRead = old ∧ getNum t.msys.host addr size = new) ∧
    (s.mgmt.powered = true → s.mgmt.hostUp = true → (∀ i < size, devOk (addr + i) = true) →
      nextWith (exec (.hostAccess false true addr size value) s) fun t => rawRead t (hostLoc false addr) size = v ∧
        ∀ b, b < addr / 16 * 16 ∨ (addr + size + 15) / 16 * 16 ≤ b → (memOf t .dev).get b = (memOf s .dev).get b) ∧
    (s.mgmt.hostUp = false ∨ s.mgmt.powered = false → ∀ b, exec (.hostAccess false b addr size value) s = .next s ∧
      exec (.hostAtomicop false addr size op) s = .next s)) ∧
  ∀ s : State,
    (s.mgmt.hostUp = true → exec .hostLinkChange s = .next { s with mgmt := { s.mgmt with hostUp := false } }) ∧
    (s.mgmt.hostUp = false → s.msys.posted = [] → s.fab.heldFolds = [] → s.faults.writebacks = [] → calm s → nextWith (exec .hostLinkChange s) fun t => t.mgmt = { s.mgmt with hostUp := true } ∧
      ∀ q, (t.ts q).toHost = false)

/-! ### The fabric -/

/-- The flits that wait on some channels to be acknowledged. -/
def Sys2Proof.Claims.flitsIn (s : State) (js : List Nat) : Nat := (js.map fun k => (chanOf s k).unacked.length).sum

/-- Nothing waits for a peer, and no engine, packet or lease is at work. -/
def Sys2Proof.Claims.quiet (s : State) : Prop :=
  s.faults.writebacks = [] ∧ s.fab.heldFolds = [] ∧ calm s ∧ (∀ e ∈ s.tsets, ∀ i q va w, e.2.status ≠ .waitPeer i q va w) ∧
    (∀ e ∈ s.cores, e.2.tq = [] ∧ e.2.folds = []) ∧ s.fab.leases = [] ∧ s.coll.active = [] ∧ s.front.packets = []

/-- Flits and channels (R438, R440, R442, R453, R467): a channel in service that carries light accepts only the next flit with a good
CRC, and acknowledges it; a sent flit is numbered and kept until it is acknowledged, and is sent again under its number; a
`bwrel` writes its status with the last acknowledgement that it waits for. The flits of a channel that goes out of service move to
the other channels toward its peer, if there are any, and it takes their numbers up again (log entry 98). A peer with another
direct channel stays up; one that no direct channel reaches any more, while no third package of its row or column is a peer
through which the hop could go, is retraining, and is up again with a channel. Whether a third package's own channels carry the
hop is open (log entry 99). -/
def Sys2Proof.Claims.ChannelEvents : Prop :=
  ∀ (s : State) (ch : Fin 144) (seq : BitVec 32) (ok : Bool), let c := chanOf s ch.val
    (rxLit s ch.val = true → c.down = false →
      (ok = true → seq = c.rxSeq → nextWith (exec (.flitReceive ch seq ok) s) fun t =>
        chanOf t ch.val = { c with rxSeq := c.rxSeq + 1, ackSeq := c.rxSeq + 1 } ∧ t.fab.accepted = s.fab.accepted + 1 ∧
        t.fab.discarded = s.fab.discarded) ∧
      (ok = false ∨ seq ≠ c.rxSeq → nextWith (exec (.flitReceive ch seq ok) s) fun t =>
        chanOf t ch.val = c ∧ t.fab.accepted = s.fab.accepted ∧ t.fab.discarded = s.fab.discarded + 1)) ∧
    (rxLit s ch.val = false ∨ c.down = true → exec (.flitReceive ch seq ok) s = .next s) ∧
    ((chanPeer s ch.val).isSome = true → c.down = false →
      (chanOf (channelAct ch.val .send s) ch.val = { c with txSeq := c.txSeq + 1, unacked := c.unacked ++ [c.txSeq] } ∧
        (channelAct ch.val .send s).fab.sent = s.fab.sent + 1) ∧
      (seq ∈ c.unacked → chanOf (channelAct ch.val (.resend seq) s) ch.val = c ∧
        (channelAct ch.val (.resend seq) s).fab.sent = s.fab.sent + 1)) ∧
    (∀ l r, c.unacked = l ++ seq :: r → seq ∉ l → let t := channelAct ch.val (.acked seq) s
      chanOf t ch.val = { c with unacked := r } ∧
      ∀ (x : Release) (qs : List (BitVec 32)), s.fab.rels = [x] → x.flits = [(ch.val, qs)] → (∀ q ∈ qs, q ∉ r) →
        t.fab.rels = [] ∧ (t.ts x.ts).getS x.d = (if x.d = 0 then 0 else x.token) ∧
        (t.ts x.ts).pendS.getLsbD x.d.val = false) ∧
    (let others := match chanPeer s ch.val with | some p => (channelsTo s p).filter fun k => k != ch.val | none => []
     nextWith (exec (.channelRetrain ch) s) fun t =>
      (c.unacked = [] ∨ others = [] → chanOf t ch.val = { c with down := true }) ∧
      (∀ x r, c.unacked = x :: r → others ≠ [] → chanOf t ch.val = { c with down := true, txSeq := x, unacked := [] } ∧
        flitsIn t others = flitsIn s others + c.unacked.length ∧
        ∀ k ∈ others, ∃ l, (chanOf t k).unacked = (chanOf s k).unacked ++ l) ∧
      ∀ q p, s.peer? q = some p → p.link = .up →
        ((∃ k ∈ channelsTo s q, k ≠ ch.val) → t.peer? q = some p) ∧
        ((∀ k ∈ channelsTo s q, k = ch.val) → (∀ x ∈ s.fab.peers, x.id ≠ q → x.link = .up →
            (∀ k ∈ channelsTo s x.id, k = ch.val) ∨
              (if q / 16 = s.self / 16 then x.id / 16 ≠ s.self / 16 else x.id % 16 ≠ s.self % 16)) →
          ∃ x, t.peer? q = some x ∧ x.link = .retraining s.clk)) ∧
    ((∀ p ∈ s.fab.peers, p.link = .up) → exec (.channelRetrainComplete ch) s = .next (setChan s ch.val { c with down := false })) ∧
    (∀ q p since, chanPeer s ch.val = some q → s.peer? q = some p → p.link = .retraining since → p.relocks = false →
      s.clk < since + 17000000 → quiet s → nextWith (exec (.channelRetrainComplete ch) s) fun t =>
        chanOf t ch.val = { c with down := false } ∧ ∃ x, t.peer? q = some x ∧ x.link = .up)

/-- Channels, peers and importers (R440, R442, R458, R459, R466 to R469). -/
def Sys2Proof.Claims.FabricEvents : Prop :=
  ChannelEvents ∧
  (∀ (s : State) (id : BitVec 8) (p : Peer) (inc : BitVec 16), s.peer? id.toNat = some p →
    let link (t : State) (k : Link) : Prop := (∃ x, t.peer? id.toNat = some x ∧ x.link = k)
    (p.link = .up → nextWith (exec (.peerRetraining id) s) fun t =>
      t.peer? id.toNat = some { p with relocks := true, link := .retraining s.clk }) ∧
    (∀ c, p.link = .retraining c → quiet s →
      (s.clk < c + 17000000 → exec (.peerFailed id) s = .next s ∧
        (channelsTo s id.toNat ≠ [] ∨ detours s id.toNat = [] → nextWith (exec (.linkReturn id) s) fun t =>
          t.peer? id.toNat = some { p with relocks := false, link := if channelsTo s id.toNat = [] then p.link else .up })) ∧
      (c + 17000000 ≤ s.clk → (nextWith (exec (.linkReturn id) s) fun t => t.peer? id.toNat = some { p with relocks := false }) ∧
        nextWith (exec (.peerFailed id) s) fun t => link t .failed ∧
          (∀ x ∈ t.msys.copies, x.home.space ≠ .peer id.toNat) ∧ ∀ x ∈ t.msys.flight, id.toNat ∉ chunkPeers x)) ∧
    (p.link = .failed → inc = p.incarnation → nextWith (exec (.peerJoin id inc) s) fun t =>
      t.peer? id.toNat = some { p with relocks := false, link := .up }) ∧
    (inc ≠ p.incarnation → nextWith (exec (.peerJoin id inc) s) fun t =>
      ∃ es, t.peer? id.toNat = some { id := id.toNat, incarnation := inc, exports := es,
                                       dead := (p.incarnation :: p.dead).filter fun x => x != inc })) ∧
  (∀ (s : State) (id : BitVec 8) (inc : BitVec 16), s.peer? id.toNat = none →
    let there : Prop := id.toNat / 16 < s.fab.rows ∧ id.toNat % 16 < s.fab.cols ∧ (peerSlot s.self id.toNat).isSome = true
    let on : Prop := s.mgmt.powered = true ∧ s.mgmt.ready = true ∧ s.mgmt.dark = false
    (there → on → nextWith (exec (.peerJoin id inc) s) fun t =>
      ∃ es, t.peer? id.toNat = some { id := id.toNat, incarnation := inc, exports := es }) ∧
    (¬(there ∧ on) → exec (.peerJoin id inc) s = .next s)) ∧
  ∀ (s s1 : State) (id : BitVec 8) (p : Peer) (h off size e root v : Nat) (key : BitVec 32) (op : ImportOp), s.peer? id.toNat = some p →
    let ask (inc : BitVec 16) : Out := exec (.importRequest id inc h key off size op) s
    let replied (s : State) (c v : Nat) : Out := .next { s with fab := { s.fab with reply := c, replyValue := v } }
    -- the entry is bound to an incarnation whose link has failed
    let gone : Prop := e / 2 ^ 184 % 256 / 16 % 2 = 1 ∧ let b := BitVec.ofNat 16 (e / 2 ^ 192)
      b ∈ p.dead ∨ (p.link = .failed ∧ b = p.incarnation)
    (∀ inc, inc ≠ p.incarnation → ask inc = .next s) ∧
    (s.fab.fimpn.toNat ≤ h → ask p.incarnation = replied s 5 0) ∧
    (∀ n, importEntry s h = .error n → ask p.incarnation = replied s n 0) ∧
    (importEntry s h = .ok e → gone → ask p.incarnation = replied s 5 0) ∧
    (importEntry s h = .ok e → ¬gone → importerOk e id.toNat p.incarnation key off size (importKind op) = false →
      ask p.incarnation = replied s 6 0) ∧
    (importEntry s h = .ok e → ¬gone → importerOk e id.toNat p.incarnation key off size (importKind op) = true →
      rootOf s (e / 2 ^ 160 % 65536) = some root →
      performImport id.toNat (e / 2 ^ 160 % 65536) root (e % 2 ^ 64 + off) size op s = .ok (v, s1) → ask p.incarnation = replied s1 0 v)

/-- Bandwidth leases at work (R441, R444 to R448): a request that obtains nothing in its first pass ends with status 2; pending
requests take the free pairs there are; a request that completes keeps no more than its count, gives up the rest, and is granted once
every channel it keeps is tuned and carries traffic; the lease ends its duration after the token, or with the last channel that a
renewal left behind; a retune ends at its time, and its two channels are tuned to each other. -/
def Sys2Proof.Claims.LeaseEvents : Prop :=
  (∀ (s : State) (i : Nat) (l : Lease), s.fab.leases[i]? = some l →
    let h := l.handle.toNat
    let s1 := claimPairs l l.want s
    let s0 := fillPending s
    let gone (t : State) : Prop := ∀ x ∈ t.fab.leases, x.handle ≠ l.handle
    let token (t : State) (v : Nat) : Prop := (t.ts l.ts).getS l.d = (if l.d = 0 then 0 else BitVec.ofNat 64 v)
    (l.active = true ∨ l.passed = true → exec (.leaseFirstPass i) s = .next s) ∧
    (l.active = false → l.passed = false →
      (chansOf s1 h = [] → claimedOf s1 h = [] → nextWith (exec (.leaseFirstPass i) s) fun t =>
        token t (2 * 2 ^ 16 + l.peer) ∧ gone t) ∧
      (chansOf s1 h ≠ [] ∨ claimedOf s1 h ≠ [] → exec (.leaseFirstPass i) s = .next { s1 with fab := { s1.fab with
        leases := s1.fab.leases.map fun x => if x.handle = l.handle then { l with passed := true } else x } })) ∧
    (l.active = true → exec (.leaseGrant i) s = .next s0) ∧
    (l.active = false → completes s0 l = false → l.closed = false → exec (.leaseGrant i) s = .next s0) ∧
    (∀ u, l.active = false → (completes s0 l = true ∧ u = closeRequest s0 l) ∨ (l.closed = true ∧ u = s0) →
      let k := (heldOf u h).length
      (completes s0 l = true → k ≤ l.want) ∧
      (k = 0 → nextWith (exec (.leaseGrant i) s) fun t => token t (2 * 2 ^ 16 + l.peer) ∧ gone t) ∧
      (k ≠ 0 → heldReady u h = false → exec (.leaseGrant i) s = .next u) ∧
      (k ≠ 0 → heldReady u h = true → nextWith (exec (.leaseGrant i) s) fun t =>
        token t (h * 2 ^ 32 + (if k = l.want then 0 else 1) * 2 ^ 16 + k * 2 ^ 8 + l.peer) ∧
        ∃ x ∈ t.fab.leases, x.handle = l.handle ∧ x.active = true ∧ x.ends = s.clk + l.dur * 1700)) ∧
    (l.active = true → (s.clk < l.ends ∨ ∃ j ∈ chansOf s h, s.clk < chanEnd s (poolChan s j)) →
      nextWith (exec (.leaseExpiry i) s) fun t => l ∈ t.fab.leases) ∧
    (l.active = true → l.ends ≤ s.clk → (∀ j ∈ chansOf s h, chanEnd s (poolChan s j) ≤ s.clk) →
      nextWith (exec (.leaseExpiry i) s) gone)) ∧
  ∀ (s : State) (ch : Fin 24) (u : Nat), (poolChan s ch.val).retune = some u →
    (s.clk < u → exec (.retuneComplete ch) s = .next s) ∧
    (u ≤ s.clk → (∀ p ∈ s.fab.peers, p.link = .up) → let c := poolChan s ch.val
      nextWith (exec (.retuneComplete ch) s) fun t => poolChan t ch.val = { c with tuned := tunesTo s c, retune := none } ∧
        ∀ p x, c.lease.bind (leasePeer s) = some p → s.peer? p = some x → (rxChan (rxPool t (some p)) c.rx).tuned = some s.self)

/-! ### The statements made of several parts -/

/-- The length of an instruction comes from two bits, what decodes is well formed with that length and encodes to the words read, and
the encodings that R83 lists are refused (R69, R70, R83). Of the words read, the core field of a `get` or `put` of kind 0 is not
kept: that it is read by neither is log entry 58. -/
def Obligations.DecodedForm : Prop := Sys2Proof.Claims.LengthFromTwoBits ∧ Sys2Proof.Claims.DecodedIsWellFormed ∧ Sys2Proof.Claims.IllegalEncodingsRefused ∧ Sys2Proof.Claims.MustBeZeroRefused ∧ Sys2Proof.Claims.DecodeThenEncode

/-- What a fetch reads, and where it is a fault (R69, R88, R276). That a line fetched is what memory holds or one of the values of
`otherWords` is the model's reading of R89 (log entry 45). -/
def Obligations.FetchedWords : Prop := Sys2Proof.Claims.FetchReadsMemory ∧ Sys2Proof.Claims.FetchOutsideGlobalFaults

/-- What a reset leaves (R106, R382, R401, R402). The values of general registers, and of every register whose reset value the
spec does not state, are the model's choice (log entries 4, 13 and 14), and so are host memory that reads 0 (log entry 5) and
service thread sets that are free (log entry 55). -/
def Obligations.ResetState : Prop := Sys2Proof.Claims.ResetRegisters ∧ Sys2Proof.Claims.ResetMemoryForm ∧ Sys2Proof.Claims.ResetMgmtLegal

/-- Writes of the register file (R97): the constant registers discard them, and every other register holds what was last
written to it. That `pcmp` reads scalars is the model's reading (log entry 56). -/
def Obligations.RegisterWrites : Prop := Sys2Proof.Claims.RegisterFile ∧ Sys2Proof.Claims.ScalarToZeroRegister

/-- Counts of bits, extensions, bit fields, selection, scaled addition, division and its fault (R121 to R123, R138). -/
def Obligations.ScalarOperations : Prop := Sys2Proof.Claims.BitCounts ∧ Sys2Proof.Claims.ExtensionsAndFields ∧ Sys2Proof.Claims.DivisionResults ∧ Sys2Proof.Claims.DivisionByZero

/-- Floating-point vector arithmetic, minima, sign operations, exact results rounded once, and the estimates with their exact cases and
bounds (R47 to R50, R155 to R158). The bounds of `vexp2` and `vlog2` are said against a close approximation of the functions, not
against the functions themselves (log entry 7). -/
def Obligations.FloatVectorResults : Prop := Sys2Proof.Claims.FloatLanes ∧ Sys2Proof.Claims.DeliveredResults ∧ Sys2Proof.Claims.ExactResults ∧ Sys2Proof.Claims.EstimateResults

/-- Permutations of lanes, and reductions, dot products and their windowed sums (R59, R60, R62, R66, R166 to R168). That the riders scale a
`vdot` of 8-bit floats (R168 against R57) is log entry 105. An all-inactive `vdot`, and NV of windowed
sums and of `min` and `max` folds, are the model's reading (log entry 24). -/
def Obligations.CrossLaneOperations : Prop := Sys2Proof.Claims.VectorPermutations ∧ Sys2Proof.Claims.Reductions ∧ Sys2Proof.Claims.WindowedResults

/-- The immediate forms, shifts by an immediate, and address forms (R86, R124 to R126). -/
def Obligations.Immediates : Prop := Sys2Proof.Claims.ImmediateForms ∧ Sys2Proof.Claims.ShiftAndAddressForms

/-- Compare-branches and register jumps (R129, R132). -/
def Obligations.Branches : Prop := Sys2Proof.Claims.CompareBranches ∧ Sys2Proof.Claims.RegisterJumps

/-- `mfsr` and `mtsr` of every special register (R99 to R109, R382, R460). That `clk` is one counter of the package is the model's
choice (log entry 72), and that there is one set of `fmapb`, `fimpb` and `fimpn` its reading (log entry 23). -/
def Obligations.SpecialRegisters : Prop := Sys2Proof.Claims.SpecialRegisterReads ∧ Sys2Proof.Claims.SpecialRegisterWrites ∧ Sys2Proof.Claims.ServiceRegisters

/-- What a posted fault does to its thread set, and to a service core, and the message that its record carries (R138, R139, R367,
R368, R370, R371, R430). -/
def Obligations.FaultsPosted : Prop := Sys2Proof.Claims.PostedFault ∧ Sys2Proof.Claims.ServiceCoreFault

/-- `fget`, and who may serve faults (R374, R375). -/
def Obligations.FaultService : Prop := Sys2Proof.Claims.ServiceOnly ∧ Sys2Proof.Claims.FgetTakesOldest

/-- Comparison and selection of lanes, and the order of floating-point patterns by the numbers that they stand for (R156, R159, R160). -/
def Obligations.VectorCompareSelect : Prop := Sys2Proof.Claims.CompareSelectLanes ∧ Sys2Proof.Claims.OrderedResults

/-- Conversion, quantisation and the rider, and the value and flags of one converted lane (R51 to R55, R161 to R165). -/
def Obligations.VectorConversions : Prop := Sys2Proof.Claims.ConvertedLanes ∧ Sys2Proof.Claims.ConvertedResults

/-- `freply`: what is refused, and what RESUME, SKIP, ABORT and KILL do (R140, R376 to R379, R484). -/
def Obligations.FaultReplies : Prop := Sys2Proof.Claims.FreplyRefused ∧ Sys2Proof.Claims.FreplyDelivers ∧ Sys2Proof.Claims.BrokenWaits

/-- `qput`, `qget` and `qtry` (R134, R135). How many neighbours the dispatcher has entered when `qtry` looks at `qn` is open
(log entry 26). -/
def Obligations.QueueInstructions : Prop := Sys2Proof.Claims.QueuePutGet ∧ Sys2Proof.Claims.QueueTry

/-- `spawn`, `retire` and `tdefer` (R350, R352 to R355). -/
def Obligations.TaskInstructions : Prop := Sys2Proof.Claims.SpawnRequests ∧ Sys2Proof.Claims.RetireEnds ∧ Sys2Proof.Claims.DeferredTask

/-- `bar`, `barv` and `bwait`: their faults, arrivals and waits (R243 to R248, R258). -/
def Obligations.Barriers : Prop := Sys2Proof.Claims.BarrierFaults ∧ Sys2Proof.Claims.BarrierArrives

/-- `racq`, `rrel` and `rpeek` (R253 to R256). -/
def Obligations.StageRings : Prop := Sys2Proof.Claims.RingTakesSlot ∧ Sys2Proof.Claims.RingReleasesSlot

/-- Loads and stores of every size (R216, R217), and that a load changes no byte of memory. -/
def Obligations.LoadsAndStores : Prop := Sys2Proof.Claims.LoadResults ∧ Sys2Proof.Claims.StoreResults ∧ Sys2Proof.Claims.LoadFrame

/-- What a store changes, in local memory and in global space (R203 to R205, R216, R297). -/
def Obligations.StoreFrames : Prop := Sys2Proof.Claims.LocalWindowAccess ∧ Sys2Proof.Claims.GlobalStoreFrame

/-- Matrix commands at work and at their end, `mwld` in each of its forms (R63, R65, R66, R110, R172 to R199). The effect at the start,
and how a record or side array is read, are the model's choices (log entry 15), and so is an unsigned stride that does not wrap
(log entry 65); that a masked-off element adds nothing is R63, read so in log entry 74. -/
def Obligations.MatrixCommands : Prop := Sys2Proof.Claims.MatrixCommandsRun ∧ Sys2Proof.Claims.FloatMac ∧ Sys2Proof.Claims.DrainedElements ∧ Sys2Proof.Claims.MatrixCompletion

/-- The acceptance of tile-engine commands and collectives (R110, R221, R222, R225 to R232, R470 to R475). The model's choices are
that `stmap` takes effect at once (log entry 34), the bounds of a record copy (log entry 66), a remote operand in the local window
(log entry 69), and the place of `pub` in the queue of 16 commands (log entry 70). -/
def Obligations.TileCommands : Prop := Sys2Proof.Claims.TileCommandsAccepted ∧ Sys2Proof.Claims.CollectiveAccepted

/-- How waits end, and how faults are posted (R110, R134, R143 to R145, R239, R287, R299, R370, R372). -/
def Obligations.WaitsAndPosts : Prop := Sys2Proof.Claims.WaitsEnd ∧ Sys2Proof.Claims.FaultPosting

/-- Engine chunks and completions, and collectives at work (R223, R224, R391, R392, R413, R475 to R477). -/
def Obligations.EngineWork : Prop := Sys2Proof.Claims.EngineEvents ∧ Sys2Proof.Claims.CollectiveEvents

/-- Spawns, passes, reservations and seam rounds (R331, R334, R337 to R339, R344, R352, R355). That a combine byte above 5 keeps the
old argument is the model's choice (log entry 63). -/
def Obligations.Dispatching : Prop := Sys2Proof.Claims.TaskEvents ∧ Sys2Proof.Claims.SeamRounds

/-- Claims of the verifying mode, gang placement, and the start of thread sets (R113, R114, R238, R265, R306, R349, R358, R359). Which
of two conflicting tasks that ask each other goes first, and that the last answer makes a pass due, is the model's choice (log
entries 36 and 87). -/
def Obligations.Placement : Prop := Sys2Proof.Claims.ClaimsAndPlacement ∧ Sys2Proof.Claims.ThreadSetStart

/-- Pre-emption, resumption, the watchdog and debugger halts (R359, R360, R379, R380, R384 to R390). The numbers of images are the
model's own (log entry 19), the form of dirty bits and references its choice (log entry 71), what a slot holds before a thread
set starts is log entry 4, and when a launch of higher priority needs resources is log entry 88. -/
def Obligations.PreemptionAndHalts : Prop := Sys2Proof.Claims.PreemptionAndWatchdog ∧ Sys2Proof.Claims.DebugHalts

/-- Bring-up, reset, the management registers and the power alarm (R398 to R402, R424, R428, R429). That failure 5 replaces a failure 4
that stands is the model's choice (log entry 90), and so is that every reader and writer of the registers acts alike, a read
without effect and one write event (log entry 60). -/
def Obligations.Management : Prop := Sys2Proof.Claims.PowerAndBringUp ∧ Sys2Proof.Claims.ManagementRegisters

/-- Packets from their start to their completion (R331, R405 to R414, R418, R426, R486). The identifiers of a packet's chunks are the
model's choice (log entry 53); that a packet whose counter cannot be written as it starts stays in its slot, and the order of
the checks, are its reading (log entries 80 and 43). -/
def Obligations.Packets : Prop := Sys2Proof.Claims.SimplePackets ∧ Sys2Proof.Claims.LaunchPackets

/-- Queue records and slots, and the host's accesses (R287, R397, R403, R415, R419 to R422). That the host reaches device memory under
key slot 0, and which slots a processor serves and that it stays out of service, are the model's choices (log entries 9 and 44). -/
def Obligations.QueuesAndHost : Prop := Sys2Proof.Claims.QueueEvents ∧ Sys2Proof.Claims.HostAccesses

/-- Channels, peers, importers and bandwidth leases (R438, R440 to R448, R458, R459, R466 to R469). What a peer that joins exports is
open (log entry 10), and so is whether a package between carries traffic where no direct channel does: these statements ask that
there is none (log entry 99). That flits moved to another channel take its numbers is the model's choice (log entry 98). -/
def Obligations.FabricAndLeases : Prop := Sys2Proof.Claims.FabricEvents ∧ Sys2Proof.Claims.LeaseEvents
end

