-- ==== Sys2Proof/Laws/Memory.lean ====
section
/-! SUPPORT. Memories: a byte read after a write, and the canonical form that every memory operation keeps. -/

namespace Sys2Proof.Machine

/-- Every listed address is above a bound. -/
def Memory.above (m : Memory) (a : Nat) : Prop := ∀ c ∈ m, a < c.1

theorem Memory.wf_cons {a : Nat} {x : Byte} {r : Memory} :
    Memory.wf ((a, x) :: r) = true ↔ x ≠ 0 ∧ Memory.above r a ∧ Memory.wf r = true := by
  induction r generalizing a x with
  | nil => simp [Memory.wf, Memory.above]
  | cons e r ih =>
    obtain ⟨b, y⟩ := e
    simp only [Memory.wf, Bool.and_eq_true, bne_iff_ne, ne_eq, decide_eq_true_eq, Memory.above, List.mem_cons,
      forall_eq_or_imp, and_assoc]
    constructor
    · rintro ⟨hx, hab, hw⟩
      have h := (ih (a := b) (x := y)).1 hw
      exact ⟨hx, hab, fun c hc => Nat.lt_trans hab (h.2.1 c hc), hw⟩
    · rintro ⟨hx, hab, _, hw⟩
      exact ⟨hx, hab, hw⟩

theorem Memory.get_above {m : Memory} {a b : Nat} (h : Memory.above m a) (hb : b ≤ a) : Memory.get m b = 0 := by
  cases m with
  | nil => rfl
  | cons e r =>
    obtain ⟨c, y⟩ := e
    have hc : a < c := h (c, y) (by simp)
    unfold Memory.get
    rw [if_neg (by omega), if_pos (by omega)]

theorem Memory.put_mem {m : Memory} {a : Nat} {x : Byte} {c : Host.Cell} (h : c ∈ Memory.put m a x) :
    c ∈ m ∨ c.1 = a := by
  induction m with
  | nil =>
    unfold Memory.put at h
    split at h
    · simp at h
    · simp at h; right; simp [h]
  | cons e r ih =>
    obtain ⟨b, y⟩ := e
    unfold Memory.put at h
    split at h
    · split at h
      · exact .inl h
      · rcases List.mem_cons.1 h with h | h
        · right; simp [h]
        · exact .inl h
    · split at h
      · split at h
        · exact .inl (List.mem_cons_of_mem _ h)
        · rcases List.mem_cons.1 h with h | h
          · right; simp [h]
          · exact .inl (List.mem_cons_of_mem _ h)
      · rcases List.mem_cons.1 h with h | h
        · exact .inl (by simp [h])
        · rcases ih h with h | h
          · exact .inl (List.mem_cons_of_mem _ h)
          · exact .inr h

/-- A write keeps the canonical form. -/
theorem Memory.put_wf {m : Memory} (h : Memory.wf m = true) (a : Nat) (x : Byte) : Memory.wf (Memory.put m a x) = true := by
  induction m with
  | nil => unfold Memory.put; split <;> simp_all [Memory.wf]
  | cons e r ih =>
    obtain ⟨b, y⟩ := e
    have h' := Memory.wf_cons.1 h
    unfold Memory.put
    split
    · rename_i hab
      split
      · exact h
      · rename_i hx
        refine Memory.wf_cons.2 ⟨hx, ?_, h⟩
        intro c hc
        rcases List.mem_cons.1 hc with hc | hc
        · simpa [hc] using hab
        · exact Nat.lt_trans hab (h'.2.1 c hc)
    · rename_i hab
      split
      · rename_i hb
        subst hb
        split
        · exact h'.2.2
        · rename_i hx
          exact Memory.wf_cons.2 ⟨hx, h'.2.1, h'.2.2⟩
      · rename_i hb
        refine Memory.wf_cons.2 ⟨h'.1, ?_, ih h'.2.2⟩
        intro c hc
        rcases Memory.put_mem hc with hc | hc
        · exact h'.2.1 c hc
        · omega

/-- A byte reads as it was written. -/
theorem Memory.get_put_self {m : Memory} (h : Memory.wf m = true) (a : Nat) (x : Byte) :
    Memory.get (Memory.put m a x) a = x := by
  induction m with
  | nil => unfold Memory.put; split <;> simp_all [Memory.get]
  | cons e r ih =>
    obtain ⟨b, y⟩ := e
    have h' := Memory.wf_cons.1 h
    unfold Memory.put
    split
    · rename_i hab
      split
      · rename_i hx
        unfold Memory.get
        rw [if_neg (by omega), if_pos hab, hx]
      · simp [Memory.get]
    · split
      · rename_i hb
        subst hb
        split
        · rename_i hx
          rw [hx]; exact Memory.get_above h'.2.1 (Nat.le_refl _)
        · simp [Memory.get]
      · rename_i hab hb
        unfold Memory.get
        rw [if_neg hb, if_neg hab]
        exact ih h'.2.2

/-- A write leaves every other byte alone. -/
theorem Memory.get_put_ne {m : Memory} (h : Memory.wf m = true) {a b : Nat} (hb : b ≠ a) (x : Byte) :
    Memory.get (Memory.put m a x) b = Memory.get m b := by
  induction m with
  | nil =>
    unfold Memory.put
    split
    · rfl
    · simp [Memory.get, Ne.symm hb]
  | cons e r ih =>
    obtain ⟨c, y⟩ := e
    have h' := Memory.wf_cons.1 h
    unfold Memory.put
    split
    · rename_i hac
      split
      · rfl
      · show Memory.get ((a, x) :: (c, y) :: r) b = _
        rw [Memory.get, if_neg (Ne.symm hb)]
        split
        · rename_i hlt
          rw [Memory.get, if_neg (by omega), if_pos (by omega)]
        · rfl
    · split
      · rename_i hc
        subst hc
        split
        · rw [Memory.get, if_neg (Ne.symm hb)]
          split
          · rename_i hlt
            exact Memory.get_above h'.2.1 (Nat.le_of_lt hlt)
          · rfl
        · simp only [Memory.get, if_neg (Ne.symm hb)]
      · simp only [Memory.get, ih h'.2.2]

/-- Writes of several bytes keep the canonical form. -/
theorem putNum_wf {m : Memory} (h : Memory.wf m = true) (a v n : Nat) : Memory.wf (putNum m a v n) = true := by
  induction n generalizing m a v with
  | zero => exact h
  | succ n ih => exact ih (Memory.put_wf h _ _) _ _

/-- A byte outside the written ones reads as before. -/
theorem putNum_get_outside {m : Memory} (h : Memory.wf m = true) (a v n b : Nat) (hb : b < a ∨ a + n ≤ b) :
    Memory.get (putNum m a v n) b = Memory.get m b := by
  induction n generalizing m a v with
  | zero => rfl
  | succ n ih =>
    unfold putNum
    rw [ih (Memory.put_wf h _ _) _ _ (by omega), Memory.get_put_ne h (by omega)]

/-- The bytes read back as the number that was written. -/
theorem getNum_putNum {m : Memory} (h : Memory.wf m = true) (a v n : Nat) : getNum (putNum m a v n) a n = v % 2 ^ (8 * n) := by
  induction n generalizing m a v with
  | zero => simp [getNum, Nat.mod_one]
  | succ n ih =>
    have hw := Memory.put_wf h a (BitVec.ofNat 8 (v % 256))
    unfold getNum putNum
    rw [ih hw, putNum_get_outside hw _ _ _ _ (by omega), Memory.get_put_self h]
    have e : 2 ^ (8 * (n + 1)) = 256 * 2 ^ (8 * n) := by rw [Nat.mul_add, Nat.pow_add]; omega
    rw [e, Nat.mod_mul, BitVec.toNat_ofNat]
    simp

/-- The machine's memories after reset are empty. -/
theorem reset_memories : State.reset.msys.dev = [] ∧ State.reset.msys.alt = [] ∧ State.reset.msys.host = [] := ⟨rfl, rfl, rfl⟩

/-- A fold of writes keeps the canonical form. -/
theorem foldl_wf {α : Type} {f : Memory → α → Memory} (hf : ∀ m a, Memory.wf m = true → Memory.wf (f m a) = true)
    (l : List α) {m : Memory} (h : Memory.wf m = true) : Memory.wf (l.foldl f m) = true := by
  induction l generalizing m with
  | nil => exact h
  | cons a r ih => exact ih (hf m a h)

/-- Blocks of another key than the writer's are rewritten in the canonical form. -/
theorem rekey_wf {s : State} {sp : Space} (h : Memory.wf (memOf s sp) = true) (key : KeyMat) (a n : Nat) :
    Memory.wf (rekey s sp key a n) = true := by
  refine foldl_wf (fun m b hm => ?_) _ h
  split
  · split
    · exact hm
    · exact putNum_wf hm _ _ _
  · exact hm

/-- Under the key of every block that it meets, a write changes no other byte of its blocks first. -/
theorem rekey_same {s : State} {sp : Space} {key : KeyMat} {a n : Nat}
    (h : ∀ b ∈ blocksOf a n, (tagsOf s sp).get? b = none ∨ (tagsOf s sp).get? b = some key) :
    rekey s sp key a n = memOf s sp := by
  unfold rekey
  generalize memOf s sp = m0 at *
  have : ∀ l : List Nat, (∀ b ∈ l, (tagsOf s sp).get? b = none ∨ (tagsOf s sp).get? b = some key) →
      ∀ m, l.foldl (fun m b =>
        match (tagsOf s sp).get? b with
        | some k => if k = key || (a ≤ 16 * b && 16 * b + 16 ≤ a + n) then m
          else putNum m (16 * b) (blockUnder k key m0 b) 16
        | none => m) m = m := by
    intro l
    induction l with
    | nil => intro _ m; rfl
    | cons b r ih =>
      intro hl m
      rw [List.foldl_cons]
      rcases hl b List.mem_cons_self with e | e <;> simp only [e, decide_true, Bool.true_or, if_true] <;>
        exact ih (fun x hx => hl x (List.mem_cons_of_mem _ hx)) m
  exact this _ h m0

end Sys2Proof.Machine
end

