-- ==== Sys2Proof/Laws/State.lean ====
section
/-! SUPPORT. The fields of a state after each update, one lemma per field; registers of a thread set after each write; maps
after an insertion. -/

namespace Sys2Proof.Machine

/-! ### Maps -/

theorem NMap.get?_set_self {α : Type} (m : NMap α) (k : Nat) (x : α) : (m.set k x).get? k = some x := by
  induction m with
  | nil => simp [NMap.set, NMap.get?]
  | cons e r ih =>
    obtain ⟨j, y⟩ := e
    unfold NMap.set
    by_cases h1 : k < j
    · simp [h1, NMap.get?]
    · by_cases h2 : j = k
      · simp [h2, NMap.get?]
      · simp [h1, h2, NMap.get?, ih]

theorem NMap.get?_set_ne {α : Type} (m : NMap α) {k k' : Nat} (h : k' ≠ k) (x : α) :
    (m.set k x).get? k' = m.get? k' := by
  induction m with
  | nil => simp [NMap.set, NMap.get?, Ne.symm h]
  | cons e r ih =>
    obtain ⟨j, y⟩ := e
    unfold NMap.set
    by_cases h1 : k < j
    · simp [h1, NMap.get?, Ne.symm h]
    · by_cases h2 : j = k
      · subst h2; simp [NMap.get?, Ne.symm h]
      · simp [h1, h2, NMap.get?, ih]

theorem NMap.get?_del_ne {α : Type} (m : NMap α) {k k' : Nat} (h : k' ≠ k) : (m.del k).get? k' = m.get? k' := by
  induction m with
  | nil => rfl
  | cons e r ih =>
    obtain ⟨j, y⟩ := e
    by_cases h2 : j = k
    · subst h2; simpa [NMap.del, NMap.get?, Ne.symm h] using ih
    · simp only [NMap.del, List.filter_cons, bne_iff_ne, ne_eq, h2, not_false_eq_true, if_true, NMap.get?]
      split
      · rfl
      · exact ih

/-! ### The state -/

@[simp] theorem State.setTs_clk (s : State) (t : Nat) (x : ThreadSet) : (s.setTs t x).clk = s.clk := rfl
@[simp] theorem State.setTs_cur (s : State) (t : Nat) (x : ThreadSet) : (s.setTs t x).cur = s.cur := rfl
@[simp] theorem State.setTs_turns (s : State) (t : Nat) (x : ThreadSet) : (s.setTs t x).turns = s.turns := rfl
@[simp] theorem State.setTs_picks (s : State) (t : Nat) (x : ThreadSet) : (s.setTs t x).picks = s.picks := rfl
@[simp] theorem State.setTs_free (s : State) (t : Nat) (x : ThreadSet) : (s.setTs t x).free = s.free := rfl
@[simp] theorem State.setTs_split (s : State) (t : Nat) (x : ThreadSet) : (s.setTs t x).split = s.split := rfl
@[simp] theorem State.setTs_cores (s : State) (t : Nat) (x : ThreadSet) : (s.setTs t x).cores = s.cores := rfl
@[simp] theorem State.setTs_msys (s : State) (t : Nat) (x : ThreadSet) : (s.setTs t x).msys = s.msys := rfl
@[simp] theorem State.setTs_disp (s : State) (t : Nat) (x : ThreadSet) : (s.setTs t x).disp = s.disp := rfl
@[simp] theorem State.setTs_front (s : State) (t : Nat) (x : ThreadSet) : (s.setTs t x).front = s.front := rfl
@[simp] theorem State.setTs_faults (s : State) (t : Nat) (x : ThreadSet) : (s.setTs t x).faults = s.faults := rfl
@[simp] theorem State.setTs_mgmt (s : State) (t : Nat) (x : ThreadSet) : (s.setTs t x).mgmt = s.mgmt := rfl
@[simp] theorem State.setTs_fab (s : State) (t : Nat) (x : ThreadSet) : (s.setTs t x).fab = s.fab := rfl
@[simp] theorem State.setTs_coll (s : State) (t : Nat) (x : ThreadSet) : (s.setTs t x).coll = s.coll := rfl

@[simp] theorem State.setCore_clk (s : State) (c : Nat) (x : Core) : (s.setCore c x).clk = s.clk := rfl
@[simp] theorem State.setCore_cur (s : State) (c : Nat) (x : Core) : (s.setCore c x).cur = s.cur := rfl
@[simp] theorem State.setCore_turns (s : State) (c : Nat) (x : Core) : (s.setCore c x).turns = s.turns := rfl
@[simp] theorem State.setCore_picks (s : State) (c : Nat) (x : Core) : (s.setCore c x).picks = s.picks := rfl
@[simp] theorem State.setCore_free (s : State) (c : Nat) (x : Core) : (s.setCore c x).free = s.free := rfl
@[simp] theorem State.setCore_split (s : State) (c : Nat) (x : Core) : (s.setCore c x).split = s.split := rfl
@[simp] theorem State.setCore_tsets (s : State) (c : Nat) (x : Core) : (s.setCore c x).tsets = s.tsets := rfl
@[simp] theorem State.setCore_msys (s : State) (c : Nat) (x : Core) : (s.setCore c x).msys = s.msys := rfl
@[simp] theorem State.setCore_disp (s : State) (c : Nat) (x : Core) : (s.setCore c x).disp = s.disp := rfl
@[simp] theorem State.setCore_front (s : State) (c : Nat) (x : Core) : (s.setCore c x).front = s.front := rfl
@[simp] theorem State.setCore_faults (s : State) (c : Nat) (x : Core) : (s.setCore c x).faults = s.faults := rfl
@[simp] theorem State.setCore_mgmt (s : State) (c : Nat) (x : Core) : (s.setCore c x).mgmt = s.mgmt := rfl
@[simp] theorem State.setCore_fab (s : State) (c : Nat) (x : Core) : (s.setCore c x).fab = s.fab := rfl
@[simp] theorem State.setCore_coll (s : State) (c : Nat) (x : Core) : (s.setCore c x).coll = s.coll := rfl

@[simp] theorem State.setMe_clk (s : State) (x : ThreadSet) : (s.setMe x).clk = s.clk := rfl
@[simp] theorem State.setMe_cur (s : State) (x : ThreadSet) : (s.setMe x).cur = s.cur := rfl
@[simp] theorem State.setMe_turns (s : State) (x : ThreadSet) : (s.setMe x).turns = s.turns := rfl
@[simp] theorem State.setMe_picks (s : State) (x : ThreadSet) : (s.setMe x).picks = s.picks := rfl
@[simp] theorem State.setMe_free (s : State) (x : ThreadSet) : (s.setMe x).free = s.free := rfl
@[simp] theorem State.setMe_split (s : State) (x : ThreadSet) : (s.setMe x).split = s.split := rfl
@[simp] theorem State.setMe_cores (s : State) (x : ThreadSet) : (s.setMe x).cores = s.cores := rfl
@[simp] theorem State.setMe_msys (s : State) (x : ThreadSet) : (s.setMe x).msys = s.msys := rfl
@[simp] theorem State.setMe_disp (s : State) (x : ThreadSet) : (s.setMe x).disp = s.disp := rfl
@[simp] theorem State.setMe_front (s : State) (x : ThreadSet) : (s.setMe x).front = s.front := rfl
@[simp] theorem State.setMe_faults (s : State) (x : ThreadSet) : (s.setMe x).faults = s.faults := rfl
@[simp] theorem State.setMe_mgmt (s : State) (x : ThreadSet) : (s.setMe x).mgmt = s.mgmt := rfl
@[simp] theorem State.setMe_fab (s : State) (x : ThreadSet) : (s.setMe x).fab = s.fab := rfl
@[simp] theorem State.setMe_coll (s : State) (x : ThreadSet) : (s.setMe x).coll = s.coll := rfl

@[simp] theorem State.setLaunch_clk (s : State) (l : Launch) : (s.setLaunch l).clk = s.clk := rfl
@[simp] theorem State.setLaunch_cur (s : State) (l : Launch) : (s.setLaunch l).cur = s.cur := rfl
@[simp] theorem State.setLaunch_turns (s : State) (l : Launch) : (s.setLaunch l).turns = s.turns := rfl
@[simp] theorem State.setLaunch_picks (s : State) (l : Launch) : (s.setLaunch l).picks = s.picks := rfl
@[simp] theorem State.setLaunch_free (s : State) (l : Launch) : (s.setLaunch l).free = s.free := rfl
@[simp] theorem State.setLaunch_split (s : State) (l : Launch) : (s.setLaunch l).split = s.split := rfl
@[simp] theorem State.setLaunch_tsets (s : State) (l : Launch) : (s.setLaunch l).tsets = s.tsets := rfl
@[simp] theorem State.setLaunch_cores (s : State) (l : Launch) : (s.setLaunch l).cores = s.cores := rfl
@[simp] theorem State.setLaunch_msys (s : State) (l : Launch) : (s.setLaunch l).msys = s.msys := rfl
@[simp] theorem State.setLaunch_front (s : State) (l : Launch) : (s.setLaunch l).front = s.front := rfl
@[simp] theorem State.setLaunch_faults (s : State) (l : Launch) : (s.setLaunch l).faults = s.faults := rfl
@[simp] theorem State.setLaunch_mgmt (s : State) (l : Launch) : (s.setLaunch l).mgmt = s.mgmt := rfl
@[simp] theorem State.setLaunch_fab (s : State) (l : Launch) : (s.setLaunch l).fab = s.fab := rfl
@[simp] theorem State.setLaunch_coll (s : State) (l : Launch) : (s.setLaunch l).coll = s.coll := rfl

@[simp] theorem State.setMsys_clk (s : State) (m : MemSys) : (s.setMsys m).clk = s.clk := rfl
@[simp] theorem State.setMsys_cur (s : State) (m : MemSys) : (s.setMsys m).cur = s.cur := rfl
@[simp] theorem State.setMsys_turns (s : State) (m : MemSys) : (s.setMsys m).turns = s.turns := rfl
@[simp] theorem State.setMsys_picks (s : State) (m : MemSys) : (s.setMsys m).picks = s.picks := rfl
@[simp] theorem State.setMsys_free (s : State) (m : MemSys) : (s.setMsys m).free = s.free := rfl
@[simp] theorem State.setMsys_split (s : State) (m : MemSys) : (s.setMsys m).split = s.split := rfl
@[simp] theorem State.setMsys_tsets (s : State) (m : MemSys) : (s.setMsys m).tsets = s.tsets := rfl
@[simp] theorem State.setMsys_cores (s : State) (m : MemSys) : (s.setMsys m).cores = s.cores := rfl
@[simp] theorem State.setMsys_disp (s : State) (m : MemSys) : (s.setMsys m).disp = s.disp := rfl
@[simp] theorem State.setMsys_front (s : State) (m : MemSys) : (s.setMsys m).front = s.front := rfl
@[simp] theorem State.setMsys_faults (s : State) (m : MemSys) : (s.setMsys m).faults = s.faults := rfl
@[simp] theorem State.setMsys_mgmt (s : State) (m : MemSys) : (s.setMsys m).mgmt = s.mgmt := rfl
@[simp] theorem State.setMsys_fab (s : State) (m : MemSys) : (s.setMsys m).fab = s.fab := rfl
@[simp] theorem State.setMsys_coll (s : State) (m : MemSys) : (s.setMsys m).coll = s.coll := rfl
@[simp] theorem State.setMsys_msys (s : State) (m : MemSys) : (s.setMsys m).msys = m := rfl

@[simp] theorem State.setDisp_clk (s : State) (d : Disp) : (s.setDisp d).clk = s.clk := rfl
@[simp] theorem State.setDisp_cur (s : State) (d : Disp) : (s.setDisp d).cur = s.cur := rfl
@[simp] theorem State.setDisp_turns (s : State) (d : Disp) : (s.setDisp d).turns = s.turns := rfl
@[simp] theorem State.setDisp_picks (s : State) (d : Disp) : (s.setDisp d).picks = s.picks := rfl
@[simp] theorem State.setDisp_free (s : State) (d : Disp) : (s.setDisp d).free = s.free := rfl
@[simp] theorem State.setDisp_split (s : State) (d : Disp) : (s.setDisp d).split = s.split := rfl
@[simp] theorem State.setDisp_tsets (s : State) (d : Disp) : (s.setDisp d).tsets = s.tsets := rfl
@[simp] theorem State.setDisp_cores (s : State) (d : Disp) : (s.setDisp d).cores = s.cores := rfl
@[simp] theorem State.setDisp_msys (s : State) (d : Disp) : (s.setDisp d).msys = s.msys := rfl
@[simp] theorem State.setDisp_front (s : State) (d : Disp) : (s.setDisp d).front = s.front := rfl
@[simp] theorem State.setDisp_faults (s : State) (d : Disp) : (s.setDisp d).faults = s.faults := rfl
@[simp] theorem State.setDisp_mgmt (s : State) (d : Disp) : (s.setDisp d).mgmt = s.mgmt := rfl
@[simp] theorem State.setDisp_fab (s : State) (d : Disp) : (s.setDisp d).fab = s.fab := rfl
@[simp] theorem State.setDisp_coll (s : State) (d : Disp) : (s.setDisp d).coll = s.coll := rfl
@[simp] theorem State.setDisp_disp (s : State) (d : Disp) : (s.setDisp d).disp = d := rfl

@[simp] theorem State.setFaults_clk (s : State) (f : Faults) : (s.setFaults f).clk = s.clk := rfl
@[simp] theorem State.setFaults_cur (s : State) (f : Faults) : (s.setFaults f).cur = s.cur := rfl
@[simp] theorem State.setFaults_turns (s : State) (f : Faults) : (s.setFaults f).turns = s.turns := rfl
@[simp] theorem State.setFaults_picks (s : State) (f : Faults) : (s.setFaults f).picks = s.picks := rfl
@[simp] theorem State.setFaults_free (s : State) (f : Faults) : (s.setFaults f).free = s.free := rfl
@[simp] theorem State.setFaults_split (s : State) (f : Faults) : (s.setFaults f).split = s.split := rfl
@[simp] theorem State.setFaults_tsets (s : State) (f : Faults) : (s.setFaults f).tsets = s.tsets := rfl
@[simp] theorem State.setFaults_cores (s : State) (f : Faults) : (s.setFaults f).cores = s.cores := rfl
@[simp] theorem State.setFaults_msys (s : State) (f : Faults) : (s.setFaults f).msys = s.msys := rfl
@[simp] theorem State.setFaults_disp (s : State) (f : Faults) : (s.setFaults f).disp = s.disp := rfl
@[simp] theorem State.setFaults_front (s : State) (f : Faults) : (s.setFaults f).front = s.front := rfl
@[simp] theorem State.setFaults_mgmt (s : State) (f : Faults) : (s.setFaults f).mgmt = s.mgmt := rfl
@[simp] theorem State.setFaults_fab (s : State) (f : Faults) : (s.setFaults f).fab = s.fab := rfl
@[simp] theorem State.setFaults_coll (s : State) (f : Faults) : (s.setFaults f).coll = s.coll := rfl
@[simp] theorem State.setFaults_faults (s : State) (f : Faults) : (s.setFaults f).faults = f := rfl

@[simp] theorem State.setMgmt_clk (s : State) (m : Mgmt) : (s.setMgmt m).clk = s.clk := rfl
@[simp] theorem State.setMgmt_cur (s : State) (m : Mgmt) : (s.setMgmt m).cur = s.cur := rfl
@[simp] theorem State.setMgmt_turns (s : State) (m : Mgmt) : (s.setMgmt m).turns = s.turns := rfl
@[simp] theorem State.setMgmt_picks (s : State) (m : Mgmt) : (s.setMgmt m).picks = s.picks := rfl
@[simp] theorem State.setMgmt_free (s : State) (m : Mgmt) : (s.setMgmt m).free = s.free := rfl
@[simp] theorem State.setMgmt_split (s : State) (m : Mgmt) : (s.setMgmt m).split = s.split := rfl
@[simp] theorem State.setMgmt_tsets (s : State) (m : Mgmt) : (s.setMgmt m).tsets = s.tsets := rfl
@[simp] theorem State.setMgmt_cores (s : State) (m : Mgmt) : (s.setMgmt m).cores = s.cores := rfl
@[simp] theorem State.setMgmt_msys (s : State) (m : Mgmt) : (s.setMgmt m).msys = s.msys := rfl
@[simp] theorem State.setMgmt_disp (s : State) (m : Mgmt) : (s.setMgmt m).disp = s.disp := rfl
@[simp] theorem State.setMgmt_front (s : State) (m : Mgmt) : (s.setMgmt m).front = s.front := rfl
@[simp] theorem State.setMgmt_faults (s : State) (m : Mgmt) : (s.setMgmt m).faults = s.faults := rfl
@[simp] theorem State.setMgmt_fab (s : State) (m : Mgmt) : (s.setMgmt m).fab = s.fab := rfl
@[simp] theorem State.setMgmt_coll (s : State) (m : Mgmt) : (s.setMgmt m).coll = s.coll := rfl
@[simp] theorem State.setMgmt_mgmt (s : State) (m : Mgmt) : (s.setMgmt m).mgmt = m := rfl

@[simp] theorem State.advance_clk (s : State) (n : Nat) : (s.advance n).clk = s.clk := rfl
@[simp] theorem State.advance_cur (s : State) (n : Nat) : (s.advance n).cur = s.cur := rfl
@[simp] theorem State.advance_turns (s : State) (n : Nat) : (s.advance n).turns = s.turns := rfl
@[simp] theorem State.advance_picks (s : State) (n : Nat) : (s.advance n).picks = s.picks := rfl
@[simp] theorem State.advance_free (s : State) (n : Nat) : (s.advance n).free = s.free := rfl
@[simp] theorem State.advance_split (s : State) (n : Nat) : (s.advance n).split = s.split := rfl
@[simp] theorem State.advance_cores (s : State) (n : Nat) : (s.advance n).cores = s.cores := rfl
@[simp] theorem State.advance_msys (s : State) (n : Nat) : (s.advance n).msys = s.msys := rfl
@[simp] theorem State.advance_disp (s : State) (n : Nat) : (s.advance n).disp = s.disp := rfl
@[simp] theorem State.advance_front (s : State) (n : Nat) : (s.advance n).front = s.front := rfl
@[simp] theorem State.advance_faults (s : State) (n : Nat) : (s.advance n).faults = s.faults := rfl
@[simp] theorem State.advance_mgmt (s : State) (n : Nat) : (s.advance n).mgmt = s.mgmt := rfl
@[simp] theorem State.advance_fab (s : State) (n : Nat) : (s.advance n).fab = s.fab := rfl
@[simp] theorem State.advance_coll (s : State) (n : Nat) : (s.advance n).coll = s.coll := rfl

@[simp] theorem State.setTs_ts_self (s : State) (t : Nat) (x : ThreadSet) : (s.setTs t x).ts t = x := by
  simp [State.ts, State.setTs, NMap.get?_set_self]

theorem State.setTs_ts_ne (s : State) {t u : Nat} (h : u ≠ t) (x : ThreadSet) : (s.setTs t x).ts u = s.ts u := by
  simp [State.ts, State.setTs, NMap.get?_set_ne _ h]

@[simp] theorem State.setMe_me (s : State) (x : ThreadSet) : (s.setMe x).me = x := by
  simp [State.me, State.setMe]

theorem State.setMe_ts_ne (s : State) {u : Nat} (h : u ≠ s.cur) (x : ThreadSet) : (s.setMe x).ts u = s.ts u :=
  s.setTs_ts_ne h x

@[simp] theorem State.setCore_core_self (s : State) (c : Nat) (x : Core) : (s.setCore c x).core c = x := by
  simp [State.core, State.setCore, NMap.get?_set_self]

theorem State.setCore_core_ne (s : State) {c d : Nat} (h : d ≠ c) (x : Core) : (s.setCore c x).core d = s.core d := by
  simp [State.core, State.setCore, NMap.get?_set_ne _ h]

@[simp] theorem State.setTs_core (s : State) (t : Nat) (x : ThreadSet) (c : Nat) : (s.setTs t x).core c = s.core c := rfl
@[simp] theorem State.setMe_core (s : State) (x : ThreadSet) (c : Nat) : (s.setMe x).core c = s.core c := rfl
@[simp] theorem State.setCore_ts (s : State) (c : Nat) (x : Core) (t : Nat) : (s.setCore c x).ts t = s.ts t := rfl
@[simp] theorem State.setCore_me (s : State) (c : Nat) (x : Core) : (s.setCore c x).me = s.me := rfl
@[simp] theorem State.advance_me (s : State) (n : Nat) :
    (s.advance n).me = s.me.past n := by
  simp [State.advance]

/-! ### Clocks -/

theorem State.setPts_eq (s : State) (w : Who) (p : Nat) :
    (∃ t, w.ts = some t ∧ s.setPts w p = s.setTs t { s.ts t with pts := p }) ∨
      (w.ts = none ∧ s.setPts w p = s.setMsys { s.msys with agent := p }) := by
  unfold State.setPts
  cases h : w.ts <;> simp [State.setMsys]

@[simp] theorem State.setPts_clk (s : State) (w : Who) (p : Nat) : (s.setPts w p).clk = s.clk := by
  unfold State.setPts; split <;> rfl
@[simp] theorem State.raise_clk (s : State) (w : Who) (p : Nat) : (s.raise w p).clk = s.clk := s.setPts_clk w _
@[simp] theorem State.setPts_cur (s : State) (w : Who) (p : Nat) : (s.setPts w p).cur = s.cur := by
  unfold State.setPts; split <;> rfl
@[simp] theorem State.raise_cur (s : State) (w : Who) (p : Nat) : (s.raise w p).cur = s.cur := s.setPts_cur w _
@[simp] theorem State.setPts_split (s : State) (w : Who) (p : Nat) : (s.setPts w p).split = s.split := by
  unfold State.setPts; split <;> rfl
@[simp] theorem State.raise_split (s : State) (w : Who) (p : Nat) : (s.raise w p).split = s.split := s.setPts_split w _
@[simp] theorem State.setPts_turns (s : State) (w : Who) (p : Nat) : (s.setPts w p).turns = s.turns := by
  unfold State.setPts; split <;> rfl
@[simp] theorem State.raise_turns (s : State) (w : Who) (p : Nat) : (s.raise w p).turns = s.turns := s.setPts_turns w _
@[simp] theorem State.setPts_picks (s : State) (w : Who) (p : Nat) : (s.setPts w p).picks = s.picks := by
  unfold State.setPts; split <;> rfl
@[simp] theorem State.raise_picks (s : State) (w : Who) (p : Nat) : (s.raise w p).picks = s.picks := s.setPts_picks w _
@[simp] theorem State.setPts_free (s : State) (w : Who) (p : Nat) : (s.setPts w p).free = s.free := by
  unfold State.setPts; split <;> rfl
@[simp] theorem State.raise_free (s : State) (w : Who) (p : Nat) : (s.raise w p).free = s.free := s.setPts_free w _
@[simp] theorem State.setPts_cores (s : State) (w : Who) (p : Nat) : (s.setPts w p).cores = s.cores := by
  unfold State.setPts; split <;> rfl
@[simp] theorem State.raise_cores (s : State) (w : Who) (p : Nat) : (s.raise w p).cores = s.cores := s.setPts_cores w _
@[simp] theorem State.setPts_disp (s : State) (w : Who) (p : Nat) : (s.setPts w p).disp = s.disp := by
  unfold State.setPts; split <;> rfl
@[simp] theorem State.raise_disp (s : State) (w : Who) (p : Nat) : (s.raise w p).disp = s.disp := s.setPts_disp w _
@[simp] theorem State.setPts_front (s : State) (w : Who) (p : Nat) : (s.setPts w p).front = s.front := by
  unfold State.setPts; split <;> rfl
@[simp] theorem State.raise_front (s : State) (w : Who) (p : Nat) : (s.raise w p).front = s.front := s.setPts_front w _
@[simp] theorem State.setPts_faults (s : State) (w : Who) (p : Nat) : (s.setPts w p).faults = s.faults := by
  unfold State.setPts; split <;> rfl
@[simp] theorem State.raise_faults (s : State) (w : Who) (p : Nat) : (s.raise w p).faults = s.faults := s.setPts_faults w _
@[simp] theorem State.setPts_mgmt (s : State) (w : Who) (p : Nat) : (s.setPts w p).mgmt = s.mgmt := by
  unfold State.setPts; split <;> rfl
@[simp] theorem State.raise_mgmt (s : State) (w : Who) (p : Nat) : (s.raise w p).mgmt = s.mgmt := s.setPts_mgmt w _
@[simp] theorem State.setPts_fab (s : State) (w : Who) (p : Nat) : (s.setPts w p).fab = s.fab := by
  unfold State.setPts; split <;> rfl
@[simp] theorem State.raise_fab (s : State) (w : Who) (p : Nat) : (s.raise w p).fab = s.fab := s.setPts_fab w _
@[simp] theorem State.setPts_coll (s : State) (w : Who) (p : Nat) : (s.setPts w p).coll = s.coll := by
  unfold State.setPts; split <;> rfl
@[simp] theorem State.raise_coll (s : State) (w : Who) (p : Nat) : (s.raise w p).coll = s.coll := s.setPts_coll w _

/-- A clock set for one maker is read back. -/
@[simp] theorem State.ptsOf_setPts (s : State) (w : Who) (p : Nat) : (s.setPts w p).ptsOf w = p := by
  unfold State.ptsOf
  rcases s.setPts_eq w p with ⟨t, h, e⟩ | ⟨h, e⟩ <;> simp [h, e]

/-- No clock but the maker's changes. -/
theorem State.setPts_ts_ne (s : State) {w : Who} {u : Nat} (h : w.ts ≠ some u) (p : Nat) : (s.setPts w p).ts u = s.ts u := by
  rcases s.setPts_eq w p with ⟨t, ht, e⟩ | ⟨_, e⟩ <;> rw [e]
  · exact s.setTs_ts_ne (by rintro rfl; exact h ht) _
  · rfl

/-! ### The pc, the faces and the pending bits -/

@[simp] theorem ThreadSet.setPc_s (t : ThreadSet) (x : Word) : (t.setPc x).s = t.s := rfl
@[simp] theorem ThreadSet.setPc_v (t : ThreadSet) (x : Word) : (t.setPc x).v = t.v := rfl
@[simp] theorem ThreadSet.setPc_p (t : ThreadSet) (x : Word) : (t.setPc x).p = t.p := rfl
@[simp] theorem ThreadSet.setPc_k (t : ThreadSet) (x : Word) : (t.setPc x).k = t.k := rfl
@[simp] theorem ThreadSet.setPc_fpc (t : ThreadSet) (x : Word) : (t.setPc x).fpc = t.fpc := rfl
@[simp] theorem ThreadSet.setPc_fps (t : ThreadSet) (x : Word) : (t.setPc x).fps = t.fps := rfl
@[simp] theorem ThreadSet.setPc_eid (t : ThreadSet) (x : Word) : (t.setPc x).eid = t.eid := rfl
@[simp] theorem ThreadSet.setPc_targ (t : ThreadSet) (x : Word) : (t.setPc x).targ = t.targ := rfl
@[simp] theorem ThreadSet.setPc_gs (t : ThreadSet) (x : Word) : (t.setPc x).gs = t.gs := rfl
@[simp] theorem ThreadSet.setPc_cb (t : ThreadSet) (x : Word) : (t.setPc x).cb = t.cb := rfl
@[simp] theorem ThreadSet.setPc_launch (t : ThreadSet) (x : Word) : (t.setPc x).launch = t.launch := rfl
@[simp] theorem ThreadSet.setPc_launchid (t : ThreadSet) (x : Word) : (t.setPc x).launchid = t.launchid := rfl
@[simp] theorem ThreadSet.setPc_index (t : ThreadSet) (x : Word) : (t.setPc x).index = t.index := rfl
@[simp] theorem ThreadSet.setPc_element (t : ThreadSet) (x : Word) : (t.setPc x).element = t.element := rfl
@[simp] theorem ThreadSet.setPc_pos (t : ThreadSet) (x : Word) : (t.setPc x).pos = t.pos := rfl
@[simp] theorem ThreadSet.setPc_pendS (t : ThreadSet) (x : Word) : (t.setPc x).pendS = t.pendS := rfl
@[simp] theorem ThreadSet.setPc_pendV (t : ThreadSet) (x : Word) : (t.setPc x).pendV = t.pendV := rfl
@[simp] theorem ThreadSet.setPc_qa (t : ThreadSet) (x : Word) : (t.setPc x).qa = t.qa := rfl
@[simp] theorem ThreadSet.setPc_qr (t : ThreadSet) (x : Word) : (t.setPc x).qr = t.qr := rfl
@[simp] theorem ThreadSet.setPc_qn (t : ThreadSet) (x : Word) : (t.setPc x).qn = t.qn := rfl
@[simp] theorem ThreadSet.setPc_qnRest (t : ThreadSet) (x : Word) : (t.setPc x).qnRest = t.qnRest := rfl
@[simp] theorem ThreadSet.setPc_qf (t : ThreadSet) (x : Word) : (t.setPc x).qf = t.qf := rfl
@[simp] theorem ThreadSet.setPc_qfPts (t : ThreadSet) (x : Word) : (t.setPc x).qfPts = t.qfPts := rfl
@[simp] theorem ThreadSet.setPc_status (t : ThreadSet) (x : Word) : (t.setPc x).status = t.status := rfl
@[simp] theorem ThreadSet.setPc_pts (t : ThreadSet) (x : Word) : (t.setPc x).pts = t.pts := rfl
@[simp] theorem ThreadSet.setPc_faultSeq (t : ThreadSet) (x : Word) : (t.setPc x).faultSeq = t.faultSeq := rfl
@[simp] theorem ThreadSet.setPc_halted (t : ThreadSet) (x : Word) : (t.setPc x).halted = t.halted := rfl
@[simp] theorem ThreadSet.setPc_draining (t : ThreadSet) (x : Word) : (t.setPc x).draining = t.draining := rfl
@[simp] theorem ThreadSet.setPc_toPeers (t : ThreadSet) (x : Word) : (t.setPc x).toPeers = t.toPeers := rfl
@[simp] theorem ThreadSet.setPc_toHost (t : ThreadSet) (x : Word) : (t.setPc x).toHost = t.toHost := rfl
@[simp] theorem ThreadSet.setPc_part (t : ThreadSet) (x : Word) : (t.setPc x).part = t.part := rfl
@[simp] theorem ThreadSet.setPc_acq (t : ThreadSet) (x : Word) : (t.setPc x).acq = t.acq := rfl
@[simp] theorem ThreadSet.setPc_pc (t : ThreadSet) (x : Word) : (t.setPc x).pc = x := rfl

@[simp] theorem ThreadSet.past_s (t : ThreadSet) (n : Nat) : (t.past n).s = t.s := rfl
@[simp] theorem ThreadSet.past_v (t : ThreadSet) (n : Nat) : (t.past n).v = t.v := rfl
@[simp] theorem ThreadSet.past_p (t : ThreadSet) (n : Nat) : (t.past n).p = t.p := rfl
@[simp] theorem ThreadSet.past_k (t : ThreadSet) (n : Nat) : (t.past n).k = t.k := rfl
@[simp] theorem ThreadSet.past_fpc (t : ThreadSet) (n : Nat) : (t.past n).fpc = t.fpc := rfl
@[simp] theorem ThreadSet.past_fps (t : ThreadSet) (n : Nat) : (t.past n).fps = t.fps := rfl
@[simp] theorem ThreadSet.past_eid (t : ThreadSet) (n : Nat) : (t.past n).eid = t.eid := rfl
@[simp] theorem ThreadSet.past_targ (t : ThreadSet) (n : Nat) : (t.past n).targ = t.targ := rfl
@[simp] theorem ThreadSet.past_gs (t : ThreadSet) (n : Nat) : (t.past n).gs = t.gs := rfl
@[simp] theorem ThreadSet.past_cb (t : ThreadSet) (n : Nat) : (t.past n).cb = t.cb := rfl
@[simp] theorem ThreadSet.past_launch (t : ThreadSet) (n : Nat) : (t.past n).launch = t.launch := rfl
@[simp] theorem ThreadSet.past_launchid (t : ThreadSet) (n : Nat) : (t.past n).launchid = t.launchid := rfl
@[simp] theorem ThreadSet.past_index (t : ThreadSet) (n : Nat) : (t.past n).index = t.index := rfl
@[simp] theorem ThreadSet.past_element (t : ThreadSet) (n : Nat) : (t.past n).element = t.element := rfl
@[simp] theorem ThreadSet.past_pos (t : ThreadSet) (n : Nat) : (t.past n).pos = t.pos := rfl
@[simp] theorem ThreadSet.past_pendS (t : ThreadSet) (n : Nat) : (t.past n).pendS = t.pendS := rfl
@[simp] theorem ThreadSet.past_pendV (t : ThreadSet) (n : Nat) : (t.past n).pendV = t.pendV := rfl
@[simp] theorem ThreadSet.past_qa (t : ThreadSet) (n : Nat) : (t.past n).qa = t.qa := rfl
@[simp] theorem ThreadSet.past_qr (t : ThreadSet) (n : Nat) : (t.past n).qr = t.qr := rfl
@[simp] theorem ThreadSet.past_qn (t : ThreadSet) (n : Nat) : (t.past n).qn = t.qn := rfl
@[simp] theorem ThreadSet.past_qnRest (t : ThreadSet) (n : Nat) : (t.past n).qnRest = t.qnRest := rfl
@[simp] theorem ThreadSet.past_qf (t : ThreadSet) (n : Nat) : (t.past n).qf = t.qf := rfl
@[simp] theorem ThreadSet.past_qfPts (t : ThreadSet) (n : Nat) : (t.past n).qfPts = t.qfPts := rfl
@[simp] theorem ThreadSet.past_status (t : ThreadSet) (n : Nat) : (t.past n).status = t.status := rfl
@[simp] theorem ThreadSet.past_pts (t : ThreadSet) (n : Nat) : (t.past n).pts = t.pts := rfl
@[simp] theorem ThreadSet.past_faultSeq (t : ThreadSet) (n : Nat) : (t.past n).faultSeq = t.faultSeq := rfl
@[simp] theorem ThreadSet.past_halted (t : ThreadSet) (n : Nat) : (t.past n).halted = t.halted := rfl
@[simp] theorem ThreadSet.past_draining (t : ThreadSet) (n : Nat) : (t.past n).draining = t.draining := rfl
@[simp] theorem ThreadSet.past_toPeers (t : ThreadSet) (n : Nat) : (t.past n).toPeers = t.toPeers := rfl
@[simp] theorem ThreadSet.past_toHost (t : ThreadSet) (n : Nat) : (t.past n).toHost = t.toHost := rfl
@[simp] theorem ThreadSet.past_part (t : ThreadSet) (n : Nat) : (t.past n).part = t.part := rfl
@[simp] theorem ThreadSet.past_acq (t : ThreadSet) (n : Nat) : (t.past n).acq = t.acq := rfl
@[simp] theorem ThreadSet.past_pc (t : ThreadSet) (n : Nat) : (t.past n).pc = t.pc + BitVec.ofNat 64 n := rfl

@[simp] theorem ThreadSet.setFpc_s (t : ThreadSet) (x : BitVec 8) : (t.setFpc x).s = t.s := rfl
@[simp] theorem ThreadSet.setFpc_v (t : ThreadSet) (x : BitVec 8) : (t.setFpc x).v = t.v := rfl
@[simp] theorem ThreadSet.setFpc_p (t : ThreadSet) (x : BitVec 8) : (t.setFpc x).p = t.p := rfl
@[simp] theorem ThreadSet.setFpc_k (t : ThreadSet) (x : BitVec 8) : (t.setFpc x).k = t.k := rfl
@[simp] theorem ThreadSet.setFpc_pc (t : ThreadSet) (x : BitVec 8) : (t.setFpc x).pc = t.pc := rfl
@[simp] theorem ThreadSet.setFpc_fps (t : ThreadSet) (x : BitVec 8) : (t.setFpc x).fps = t.fps := rfl
@[simp] theorem ThreadSet.setFpc_eid (t : ThreadSet) (x : BitVec 8) : (t.setFpc x).eid = t.eid := rfl
@[simp] theorem ThreadSet.setFpc_targ (t : ThreadSet) (x : BitVec 8) : (t.setFpc x).targ = t.targ := rfl
@[simp] theorem ThreadSet.setFpc_gs (t : ThreadSet) (x : BitVec 8) : (t.setFpc x).gs = t.gs := rfl
@[simp] theorem ThreadSet.setFpc_cb (t : ThreadSet) (x : BitVec 8) : (t.setFpc x).cb = t.cb := rfl
@[simp] theorem ThreadSet.setFpc_launch (t : ThreadSet) (x : BitVec 8) : (t.setFpc x).launch = t.launch := rfl
@[simp] theorem ThreadSet.setFpc_launchid (t : ThreadSet) (x : BitVec 8) : (t.setFpc x).launchid = t.launchid := rfl
@[simp] theorem ThreadSet.setFpc_index (t : ThreadSet) (x : BitVec 8) : (t.setFpc x).index = t.index := rfl
@[simp] theorem ThreadSet.setFpc_element (t : ThreadSet) (x : BitVec 8) : (t.setFpc x).element = t.element := rfl
@[simp] theorem ThreadSet.setFpc_pos (t : ThreadSet) (x : BitVec 8) : (t.setFpc x).pos = t.pos := rfl
@[simp] theorem ThreadSet.setFpc_pendS (t : ThreadSet) (x : BitVec 8) : (t.setFpc x).pendS = t.pendS := rfl
@[simp] theorem ThreadSet.setFpc_pendV (t : ThreadSet) (x : BitVec 8) : (t.setFpc x).pendV = t.pendV := rfl
@[simp] theorem ThreadSet.setFpc_qa (t : ThreadSet) (x : BitVec 8) : (t.setFpc x).qa = t.qa := rfl
@[simp] theorem ThreadSet.setFpc_qr (t : ThreadSet) (x : BitVec 8) : (t.setFpc x).qr = t.qr := rfl
@[simp] theorem ThreadSet.setFpc_qn (t : ThreadSet) (x : BitVec 8) : (t.setFpc x).qn = t.qn := rfl
@[simp] theorem ThreadSet.setFpc_qnRest (t : ThreadSet) (x : BitVec 8) : (t.setFpc x).qnRest = t.qnRest := rfl
@[simp] theorem ThreadSet.setFpc_qf (t : ThreadSet) (x : BitVec 8) : (t.setFpc x).qf = t.qf := rfl
@[simp] theorem ThreadSet.setFpc_qfPts (t : ThreadSet) (x : BitVec 8) : (t.setFpc x).qfPts = t.qfPts := rfl
@[simp] theorem ThreadSet.setFpc_status (t : ThreadSet) (x : BitVec 8) : (t.setFpc x).status = t.status := rfl
@[simp] theorem ThreadSet.setFpc_pts (t : ThreadSet) (x : BitVec 8) : (t.setFpc x).pts = t.pts := rfl
@[simp] theorem ThreadSet.setFpc_faultSeq (t : ThreadSet) (x : BitVec 8) : (t.setFpc x).faultSeq = t.faultSeq := rfl
@[simp] theorem ThreadSet.setFpc_halted (t : ThreadSet) (x : BitVec 8) : (t.setFpc x).halted = t.halted := rfl
@[simp] theorem ThreadSet.setFpc_draining (t : ThreadSet) (x : BitVec 8) : (t.setFpc x).draining = t.draining := rfl
@[simp] theorem ThreadSet.setFpc_toPeers (t : ThreadSet) (x : BitVec 8) : (t.setFpc x).toPeers = t.toPeers := rfl
@[simp] theorem ThreadSet.setFpc_toHost (t : ThreadSet) (x : BitVec 8) : (t.setFpc x).toHost = t.toHost := rfl
@[simp] theorem ThreadSet.setFpc_part (t : ThreadSet) (x : BitVec 8) : (t.setFpc x).part = t.part := rfl
@[simp] theorem ThreadSet.setFpc_acq (t : ThreadSet) (x : BitVec 8) : (t.setFpc x).acq = t.acq := rfl
@[simp] theorem ThreadSet.setFpc_fpc (t : ThreadSet) (x : BitVec 8) : (t.setFpc x).fpc = x := rfl

@[simp] theorem ThreadSet.setFps_s (t : ThreadSet) (x : BitVec 6) : (t.setFps x).s = t.s := rfl
@[simp] theorem ThreadSet.setFps_v (t : ThreadSet) (x : BitVec 6) : (t.setFps x).v = t.v := rfl
@[simp] theorem ThreadSet.setFps_p (t : ThreadSet) (x : BitVec 6) : (t.setFps x).p = t.p := rfl
@[simp] theorem ThreadSet.setFps_k (t : ThreadSet) (x : BitVec 6) : (t.setFps x).k = t.k := rfl
@[simp] theorem ThreadSet.setFps_pc (t : ThreadSet) (x : BitVec 6) : (t.setFps x).pc = t.pc := rfl
@[simp] theorem ThreadSet.setFps_fpc (t : ThreadSet) (x : BitVec 6) : (t.setFps x).fpc = t.fpc := rfl
@[simp] theorem ThreadSet.setFps_eid (t : ThreadSet) (x : BitVec 6) : (t.setFps x).eid = t.eid := rfl
@[simp] theorem ThreadSet.setFps_targ (t : ThreadSet) (x : BitVec 6) : (t.setFps x).targ = t.targ := rfl
@[simp] theorem ThreadSet.setFps_gs (t : ThreadSet) (x : BitVec 6) : (t.setFps x).gs = t.gs := rfl
@[simp] theorem ThreadSet.setFps_cb (t : ThreadSet) (x : BitVec 6) : (t.setFps x).cb = t.cb := rfl
@[simp] theorem ThreadSet.setFps_launch (t : ThreadSet) (x : BitVec 6) : (t.setFps x).launch = t.launch := rfl
@[simp] theorem ThreadSet.setFps_launchid (t : ThreadSet) (x : BitVec 6) : (t.setFps x).launchid = t.launchid := rfl
@[simp] theorem ThreadSet.setFps_index (t : ThreadSet) (x : BitVec 6) : (t.setFps x).index = t.index := rfl
@[simp] theorem ThreadSet.setFps_element (t : ThreadSet) (x : BitVec 6) : (t.setFps x).element = t.element := rfl
@[simp] theorem ThreadSet.setFps_pos (t : ThreadSet) (x : BitVec 6) : (t.setFps x).pos = t.pos := rfl
@[simp] theorem ThreadSet.setFps_pendS (t : ThreadSet) (x : BitVec 6) : (t.setFps x).pendS = t.pendS := rfl
@[simp] theorem ThreadSet.setFps_pendV (t : ThreadSet) (x : BitVec 6) : (t.setFps x).pendV = t.pendV := rfl
@[simp] theorem ThreadSet.setFps_qa (t : ThreadSet) (x : BitVec 6) : (t.setFps x).qa = t.qa := rfl
@[simp] theorem ThreadSet.setFps_qr (t : ThreadSet) (x : BitVec 6) : (t.setFps x).qr = t.qr := rfl
@[simp] theorem ThreadSet.setFps_qn (t : ThreadSet) (x : BitVec 6) : (t.setFps x).qn = t.qn := rfl
@[simp] theorem ThreadSet.setFps_qnRest (t : ThreadSet) (x : BitVec 6) : (t.setFps x).qnRest = t.qnRest := rfl
@[simp] theorem ThreadSet.setFps_qf (t : ThreadSet) (x : BitVec 6) : (t.setFps x).qf = t.qf := rfl
@[simp] theorem ThreadSet.setFps_qfPts (t : ThreadSet) (x : BitVec 6) : (t.setFps x).qfPts = t.qfPts := rfl
@[simp] theorem ThreadSet.setFps_status (t : ThreadSet) (x : BitVec 6) : (t.setFps x).status = t.status := rfl
@[simp] theorem ThreadSet.setFps_pts (t : ThreadSet) (x : BitVec 6) : (t.setFps x).pts = t.pts := rfl
@[simp] theorem ThreadSet.setFps_faultSeq (t : ThreadSet) (x : BitVec 6) : (t.setFps x).faultSeq = t.faultSeq := rfl
@[simp] theorem ThreadSet.setFps_halted (t : ThreadSet) (x : BitVec 6) : (t.setFps x).halted = t.halted := rfl
@[simp] theorem ThreadSet.setFps_draining (t : ThreadSet) (x : BitVec 6) : (t.setFps x).draining = t.draining := rfl
@[simp] theorem ThreadSet.setFps_toPeers (t : ThreadSet) (x : BitVec 6) : (t.setFps x).toPeers = t.toPeers := rfl
@[simp] theorem ThreadSet.setFps_toHost (t : ThreadSet) (x : BitVec 6) : (t.setFps x).toHost = t.toHost := rfl
@[simp] theorem ThreadSet.setFps_part (t : ThreadSet) (x : BitVec 6) : (t.setFps x).part = t.part := rfl
@[simp] theorem ThreadSet.setFps_acq (t : ThreadSet) (x : BitVec 6) : (t.setFps x).acq = t.acq := rfl
@[simp] theorem ThreadSet.setFps_fps (t : ThreadSet) (x : BitVec 6) : (t.setFps x).fps = x := rfl

@[simp] theorem ThreadSet.setQa_s (t : ThreadSet) (l : List VWord) : (t.setQa l).s = t.s := rfl
@[simp] theorem ThreadSet.setQa_v (t : ThreadSet) (l : List VWord) : (t.setQa l).v = t.v := rfl
@[simp] theorem ThreadSet.setQa_p (t : ThreadSet) (l : List VWord) : (t.setQa l).p = t.p := rfl
@[simp] theorem ThreadSet.setQa_k (t : ThreadSet) (l : List VWord) : (t.setQa l).k = t.k := rfl
@[simp] theorem ThreadSet.setQa_pc (t : ThreadSet) (l : List VWord) : (t.setQa l).pc = t.pc := rfl
@[simp] theorem ThreadSet.setQa_fpc (t : ThreadSet) (l : List VWord) : (t.setQa l).fpc = t.fpc := rfl
@[simp] theorem ThreadSet.setQa_fps (t : ThreadSet) (l : List VWord) : (t.setQa l).fps = t.fps := rfl
@[simp] theorem ThreadSet.setQa_eid (t : ThreadSet) (l : List VWord) : (t.setQa l).eid = t.eid := rfl
@[simp] theorem ThreadSet.setQa_targ (t : ThreadSet) (l : List VWord) : (t.setQa l).targ = t.targ := rfl
@[simp] theorem ThreadSet.setQa_gs (t : ThreadSet) (l : List VWord) : (t.setQa l).gs = t.gs := rfl
@[simp] theorem ThreadSet.setQa_cb (t : ThreadSet) (l : List VWord) : (t.setQa l).cb = t.cb := rfl
@[simp] theorem ThreadSet.setQa_launch (t : ThreadSet) (l : List VWord) : (t.setQa l).launch = t.launch := rfl
@[simp] theorem ThreadSet.setQa_launchid (t : ThreadSet) (l : List VWord) : (t.setQa l).launchid = t.launchid := rfl
@[simp] theorem ThreadSet.setQa_index (t : ThreadSet) (l : List VWord) : (t.setQa l).index = t.index := rfl
@[simp] theorem ThreadSet.setQa_element (t : ThreadSet) (l : List VWord) : (t.setQa l).element = t.element := rfl
@[simp] theorem ThreadSet.setQa_pos (t : ThreadSet) (l : List VWord) : (t.setQa l).pos = t.pos := rfl
@[simp] theorem ThreadSet.setQa_pendS (t : ThreadSet) (l : List VWord) : (t.setQa l).pendS = t.pendS := rfl
@[simp] theorem ThreadSet.setQa_pendV (t : ThreadSet) (l : List VWord) : (t.setQa l).pendV = t.pendV := rfl
@[simp] theorem ThreadSet.setQa_qr (t : ThreadSet) (l : List VWord) : (t.setQa l).qr = t.qr := rfl
@[simp] theorem ThreadSet.setQa_qn (t : ThreadSet) (l : List VWord) : (t.setQa l).qn = t.qn := rfl
@[simp] theorem ThreadSet.setQa_qnRest (t : ThreadSet) (l : List VWord) : (t.setQa l).qnRest = t.qnRest := rfl
@[simp] theorem ThreadSet.setQa_qf (t : ThreadSet) (l : List VWord) : (t.setQa l).qf = t.qf := rfl
@[simp] theorem ThreadSet.setQa_qfPts (t : ThreadSet) (l : List VWord) : (t.setQa l).qfPts = t.qfPts := rfl
@[simp] theorem ThreadSet.setQa_status (t : ThreadSet) (l : List VWord) : (t.setQa l).status = t.status := rfl
@[simp] theorem ThreadSet.setQa_pts (t : ThreadSet) (l : List VWord) : (t.setQa l).pts = t.pts := rfl
@[simp] theorem ThreadSet.setQa_faultSeq (t : ThreadSet) (l : List VWord) : (t.setQa l).faultSeq = t.faultSeq := rfl
@[simp] theorem ThreadSet.setQa_halted (t : ThreadSet) (l : List VWord) : (t.setQa l).halted = t.halted := rfl
@[simp] theorem ThreadSet.setQa_draining (t : ThreadSet) (l : List VWord) : (t.setQa l).draining = t.draining := rfl
@[simp] theorem ThreadSet.setQa_toPeers (t : ThreadSet) (l : List VWord) : (t.setQa l).toPeers = t.toPeers := rfl
@[simp] theorem ThreadSet.setQa_toHost (t : ThreadSet) (l : List VWord) : (t.setQa l).toHost = t.toHost := rfl
@[simp] theorem ThreadSet.setQa_part (t : ThreadSet) (l : List VWord) : (t.setQa l).part = t.part := rfl
@[simp] theorem ThreadSet.setQa_acq (t : ThreadSet) (l : List VWord) : (t.setQa l).acq = t.acq := rfl
@[simp] theorem ThreadSet.setQa_qa (t : ThreadSet) (l : List VWord) : (t.setQa l).qa = l := rfl

@[simp] theorem ThreadSet.setQr_s (t : ThreadSet) (l : List VWord) : (t.setQr l).s = t.s := rfl
@[simp] theorem ThreadSet.setQr_v (t : ThreadSet) (l : List VWord) : (t.setQr l).v = t.v := rfl
@[simp] theorem ThreadSet.setQr_p (t : ThreadSet) (l : List VWord) : (t.setQr l).p = t.p := rfl
@[simp] theorem ThreadSet.setQr_k (t : ThreadSet) (l : List VWord) : (t.setQr l).k = t.k := rfl
@[simp] theorem ThreadSet.setQr_pc (t : ThreadSet) (l : List VWord) : (t.setQr l).pc = t.pc := rfl
@[simp] theorem ThreadSet.setQr_fpc (t : ThreadSet) (l : List VWord) : (t.setQr l).fpc = t.fpc := rfl
@[simp] theorem ThreadSet.setQr_fps (t : ThreadSet) (l : List VWord) : (t.setQr l).fps = t.fps := rfl
@[simp] theorem ThreadSet.setQr_eid (t : ThreadSet) (l : List VWord) : (t.setQr l).eid = t.eid := rfl
@[simp] theorem ThreadSet.setQr_targ (t : ThreadSet) (l : List VWord) : (t.setQr l).targ = t.targ := rfl
@[simp] theorem ThreadSet.setQr_gs (t : ThreadSet) (l : List VWord) : (t.setQr l).gs = t.gs := rfl
@[simp] theorem ThreadSet.setQr_cb (t : ThreadSet) (l : List VWord) : (t.setQr l).cb = t.cb := rfl
@[simp] theorem ThreadSet.setQr_launch (t : ThreadSet) (l : List VWord) : (t.setQr l).launch = t.launch := rfl
@[simp] theorem ThreadSet.setQr_launchid (t : ThreadSet) (l : List VWord) : (t.setQr l).launchid = t.launchid := rfl
@[simp] theorem ThreadSet.setQr_index (t : ThreadSet) (l : List VWord) : (t.setQr l).index = t.index := rfl
@[simp] theorem ThreadSet.setQr_element (t : ThreadSet) (l : List VWord) : (t.setQr l).element = t.element := rfl
@[simp] theorem ThreadSet.setQr_pos (t : ThreadSet) (l : List VWord) : (t.setQr l).pos = t.pos := rfl
@[simp] theorem ThreadSet.setQr_pendS (t : ThreadSet) (l : List VWord) : (t.setQr l).pendS = t.pendS := rfl
@[simp] theorem ThreadSet.setQr_pendV (t : ThreadSet) (l : List VWord) : (t.setQr l).pendV = t.pendV := rfl
@[simp] theorem ThreadSet.setQr_qa (t : ThreadSet) (l : List VWord) : (t.setQr l).qa = t.qa := rfl
@[simp] theorem ThreadSet.setQr_qn (t : ThreadSet) (l : List VWord) : (t.setQr l).qn = t.qn := rfl
@[simp] theorem ThreadSet.setQr_qnRest (t : ThreadSet) (l : List VWord) : (t.setQr l).qnRest = t.qnRest := rfl
@[simp] theorem ThreadSet.setQr_qf (t : ThreadSet) (l : List VWord) : (t.setQr l).qf = t.qf := rfl
@[simp] theorem ThreadSet.setQr_qfPts (t : ThreadSet) (l : List VWord) : (t.setQr l).qfPts = t.qfPts := rfl
@[simp] theorem ThreadSet.setQr_status (t : ThreadSet) (l : List VWord) : (t.setQr l).status = t.status := rfl
@[simp] theorem ThreadSet.setQr_pts (t : ThreadSet) (l : List VWord) : (t.setQr l).pts = t.pts := rfl
@[simp] theorem ThreadSet.setQr_faultSeq (t : ThreadSet) (l : List VWord) : (t.setQr l).faultSeq = t.faultSeq := rfl
@[simp] theorem ThreadSet.setQr_halted (t : ThreadSet) (l : List VWord) : (t.setQr l).halted = t.halted := rfl
@[simp] theorem ThreadSet.setQr_draining (t : ThreadSet) (l : List VWord) : (t.setQr l).draining = t.draining := rfl
@[simp] theorem ThreadSet.setQr_toPeers (t : ThreadSet) (l : List VWord) : (t.setQr l).toPeers = t.toPeers := rfl
@[simp] theorem ThreadSet.setQr_toHost (t : ThreadSet) (l : List VWord) : (t.setQr l).toHost = t.toHost := rfl
@[simp] theorem ThreadSet.setQr_part (t : ThreadSet) (l : List VWord) : (t.setQr l).part = t.part := rfl
@[simp] theorem ThreadSet.setQr_acq (t : ThreadSet) (l : List VWord) : (t.setQr l).acq = t.acq := rfl
@[simp] theorem ThreadSet.setQr_qr (t : ThreadSet) (l : List VWord) : (t.setQr l).qr = l := rfl

@[simp] theorem ThreadSet.setQn_s (t : ThreadSet) (l r : List Word) : (t.setQn l r).s = t.s := rfl
@[simp] theorem ThreadSet.setQn_v (t : ThreadSet) (l r : List Word) : (t.setQn l r).v = t.v := rfl
@[simp] theorem ThreadSet.setQn_p (t : ThreadSet) (l r : List Word) : (t.setQn l r).p = t.p := rfl
@[simp] theorem ThreadSet.setQn_k (t : ThreadSet) (l r : List Word) : (t.setQn l r).k = t.k := rfl
@[simp] theorem ThreadSet.setQn_pc (t : ThreadSet) (l r : List Word) : (t.setQn l r).pc = t.pc := rfl
@[simp] theorem ThreadSet.setQn_fpc (t : ThreadSet) (l r : List Word) : (t.setQn l r).fpc = t.fpc := rfl
@[simp] theorem ThreadSet.setQn_fps (t : ThreadSet) (l r : List Word) : (t.setQn l r).fps = t.fps := rfl
@[simp] theorem ThreadSet.setQn_eid (t : ThreadSet) (l r : List Word) : (t.setQn l r).eid = t.eid := rfl
@[simp] theorem ThreadSet.setQn_targ (t : ThreadSet) (l r : List Word) : (t.setQn l r).targ = t.targ := rfl
@[simp] theorem ThreadSet.setQn_gs (t : ThreadSet) (l r : List Word) : (t.setQn l r).gs = t.gs := rfl
@[simp] theorem ThreadSet.setQn_cb (t : ThreadSet) (l r : List Word) : (t.setQn l r).cb = t.cb := rfl
@[simp] theorem ThreadSet.setQn_launch (t : ThreadSet) (l r : List Word) : (t.setQn l r).launch = t.launch := rfl
@[simp] theorem ThreadSet.setQn_launchid (t : ThreadSet) (l r : List Word) : (t.setQn l r).launchid = t.launchid := rfl
@[simp] theorem ThreadSet.setQn_index (t : ThreadSet) (l r : List Word) : (t.setQn l r).index = t.index := rfl
@[simp] theorem ThreadSet.setQn_element (t : ThreadSet) (l r : List Word) : (t.setQn l r).element = t.element := rfl
@[simp] theorem ThreadSet.setQn_pos (t : ThreadSet) (l r : List Word) : (t.setQn l r).pos = t.pos := rfl
@[simp] theorem ThreadSet.setQn_pendS (t : ThreadSet) (l r : List Word) : (t.setQn l r).pendS = t.pendS := rfl
@[simp] theorem ThreadSet.setQn_pendV (t : ThreadSet) (l r : List Word) : (t.setQn l r).pendV = t.pendV := rfl
@[simp] theorem ThreadSet.setQn_qa (t : ThreadSet) (l r : List Word) : (t.setQn l r).qa = t.qa := rfl
@[simp] theorem ThreadSet.setQn_qr (t : ThreadSet) (l r : List Word) : (t.setQn l r).qr = t.qr := rfl
@[simp] theorem ThreadSet.setQn_qf (t : ThreadSet) (l r : List Word) : (t.setQn l r).qf = t.qf := rfl
@[simp] theorem ThreadSet.setQn_qfPts (t : ThreadSet) (l r : List Word) : (t.setQn l r).qfPts = t.qfPts := rfl
@[simp] theorem ThreadSet.setQn_status (t : ThreadSet) (l r : List Word) : (t.setQn l r).status = t.status := rfl
@[simp] theorem ThreadSet.setQn_pts (t : ThreadSet) (l r : List Word) : (t.setQn l r).pts = t.pts := rfl
@[simp] theorem ThreadSet.setQn_faultSeq (t : ThreadSet) (l r : List Word) : (t.setQn l r).faultSeq = t.faultSeq := rfl
@[simp] theorem ThreadSet.setQn_halted (t : ThreadSet) (l r : List Word) : (t.setQn l r).halted = t.halted := rfl
@[simp] theorem ThreadSet.setQn_draining (t : ThreadSet) (l r : List Word) : (t.setQn l r).draining = t.draining := rfl
@[simp] theorem ThreadSet.setQn_toPeers (t : ThreadSet) (l r : List Word) : (t.setQn l r).toPeers = t.toPeers := rfl
@[simp] theorem ThreadSet.setQn_toHost (t : ThreadSet) (l r : List Word) : (t.setQn l r).toHost = t.toHost := rfl
@[simp] theorem ThreadSet.setQn_part (t : ThreadSet) (l r : List Word) : (t.setQn l r).part = t.part := rfl
@[simp] theorem ThreadSet.setQn_acq (t : ThreadSet) (l r : List Word) : (t.setQn l r).acq = t.acq := rfl
@[simp] theorem ThreadSet.setQn_qn (t : ThreadSet) (l r : List Word) : (t.setQn l r).qn = l := rfl
@[simp] theorem ThreadSet.setQn_qnRest (t : ThreadSet) (l r : List Word) : (t.setQn l r).qnRest = r := rfl

@[simp] theorem ThreadSet.setPending_s (t : ThreadSet) (a b : BitVec 32) : (t.setPending a b).s = t.s := rfl
@[simp] theorem ThreadSet.setPending_v (t : ThreadSet) (a b : BitVec 32) : (t.setPending a b).v = t.v := rfl
@[simp] theorem ThreadSet.setPending_p (t : ThreadSet) (a b : BitVec 32) : (t.setPending a b).p = t.p := rfl
@[simp] theorem ThreadSet.setPending_k (t : ThreadSet) (a b : BitVec 32) : (t.setPending a b).k = t.k := rfl
@[simp] theorem ThreadSet.setPending_pc (t : ThreadSet) (a b : BitVec 32) : (t.setPending a b).pc = t.pc := rfl
@[simp] theorem ThreadSet.setPending_fpc (t : ThreadSet) (a b : BitVec 32) : (t.setPending a b).fpc = t.fpc := rfl
@[simp] theorem ThreadSet.setPending_fps (t : ThreadSet) (a b : BitVec 32) : (t.setPending a b).fps = t.fps := rfl
@[simp] theorem ThreadSet.setPending_eid (t : ThreadSet) (a b : BitVec 32) : (t.setPending a b).eid = t.eid := rfl
@[simp] theorem ThreadSet.setPending_targ (t : ThreadSet) (a b : BitVec 32) : (t.setPending a b).targ = t.targ := rfl
@[simp] theorem ThreadSet.setPending_gs (t : ThreadSet) (a b : BitVec 32) : (t.setPending a b).gs = t.gs := rfl
@[simp] theorem ThreadSet.setPending_cb (t : ThreadSet) (a b : BitVec 32) : (t.setPending a b).cb = t.cb := rfl
@[simp] theorem ThreadSet.setPending_launch (t : ThreadSet) (a b : BitVec 32) : (t.setPending a b).launch = t.launch := rfl
@[simp] theorem ThreadSet.setPending_launchid (t : ThreadSet) (a b : BitVec 32) : (t.setPending a b).launchid = t.launchid := rfl
@[simp] theorem ThreadSet.setPending_index (t : ThreadSet) (a b : BitVec 32) : (t.setPending a b).index = t.index := rfl
@[simp] theorem ThreadSet.setPending_element (t : ThreadSet) (a b : BitVec 32) : (t.setPending a b).element = t.element := rfl
@[simp] theorem ThreadSet.setPending_pos (t : ThreadSet) (a b : BitVec 32) : (t.setPending a b).pos = t.pos := rfl
@[simp] theorem ThreadSet.setPending_qa (t : ThreadSet) (a b : BitVec 32) : (t.setPending a b).qa = t.qa := rfl
@[simp] theorem ThreadSet.setPending_qr (t : ThreadSet) (a b : BitVec 32) : (t.setPending a b).qr = t.qr := rfl
@[simp] theorem ThreadSet.setPending_qn (t : ThreadSet) (a b : BitVec 32) : (t.setPending a b).qn = t.qn := rfl
@[simp] theorem ThreadSet.setPending_qnRest (t : ThreadSet) (a b : BitVec 32) : (t.setPending a b).qnRest = t.qnRest := rfl
@[simp] theorem ThreadSet.setPending_qf (t : ThreadSet) (a b : BitVec 32) : (t.setPending a b).qf = t.qf := rfl
@[simp] theorem ThreadSet.setPending_qfPts (t : ThreadSet) (a b : BitVec 32) : (t.setPending a b).qfPts = t.qfPts := rfl
@[simp] theorem ThreadSet.setPending_status (t : ThreadSet) (a b : BitVec 32) : (t.setPending a b).status = t.status := rfl
@[simp] theorem ThreadSet.setPending_pts (t : ThreadSet) (a b : BitVec 32) : (t.setPending a b).pts = t.pts := rfl
@[simp] theorem ThreadSet.setPending_faultSeq (t : ThreadSet) (a b : BitVec 32) : (t.setPending a b).faultSeq = t.faultSeq := rfl
@[simp] theorem ThreadSet.setPending_halted (t : ThreadSet) (a b : BitVec 32) : (t.setPending a b).halted = t.halted := rfl
@[simp] theorem ThreadSet.setPending_draining (t : ThreadSet) (a b : BitVec 32) : (t.setPending a b).draining = t.draining := rfl
@[simp] theorem ThreadSet.setPending_toPeers (t : ThreadSet) (a b : BitVec 32) : (t.setPending a b).toPeers = t.toPeers := rfl
@[simp] theorem ThreadSet.setPending_toHost (t : ThreadSet) (a b : BitVec 32) : (t.setPending a b).toHost = t.toHost := rfl
@[simp] theorem ThreadSet.setPending_part (t : ThreadSet) (a b : BitVec 32) : (t.setPending a b).part = t.part := rfl
@[simp] theorem ThreadSet.setPending_acq (t : ThreadSet) (a b : BitVec 32) : (t.setPending a b).acq = t.acq := rfl
@[simp] theorem ThreadSet.setPending_pendS (t : ThreadSet) (a b : BitVec 32) : (t.setPending a b).pendS = a := rfl
@[simp] theorem ThreadSet.setPending_pendV (t : ThreadSet) (a b : BitVec 32) : (t.setPending a b).pendV = b := rfl

/-! ### Registers of a thread set -/

@[simp] theorem ThreadSet.setS_v (t : ThreadSet) (r : Reg) (x : Word) : (t.setS r x).v = t.v := by unfold ThreadSet.setS; split <;> rfl
@[simp] theorem ThreadSet.setS_p (t : ThreadSet) (r : Reg) (x : Word) : (t.setS r x).p = t.p := by unfold ThreadSet.setS; split <;> rfl
@[simp] theorem ThreadSet.setS_k (t : ThreadSet) (r : Reg) (x : Word) : (t.setS r x).k = t.k := by unfold ThreadSet.setS; split <;> rfl
@[simp] theorem ThreadSet.setS_pc (t : ThreadSet) (r : Reg) (x : Word) : (t.setS r x).pc = t.pc := by unfold ThreadSet.setS; split <;> rfl
@[simp] theorem ThreadSet.setS_fpc (t : ThreadSet) (r : Reg) (x : Word) : (t.setS r x).fpc = t.fpc := by unfold ThreadSet.setS; split <;> rfl
@[simp] theorem ThreadSet.setS_fps (t : ThreadSet) (r : Reg) (x : Word) : (t.setS r x).fps = t.fps := by unfold ThreadSet.setS; split <;> rfl
@[simp] theorem ThreadSet.setS_eid (t : ThreadSet) (r : Reg) (x : Word) : (t.setS r x).eid = t.eid := by unfold ThreadSet.setS; split <;> rfl
@[simp] theorem ThreadSet.setS_targ (t : ThreadSet) (r : Reg) (x : Word) : (t.setS r x).targ = t.targ := by unfold ThreadSet.setS; split <;> rfl
@[simp] theorem ThreadSet.setS_gs (t : ThreadSet) (r : Reg) (x : Word) : (t.setS r x).gs = t.gs := by unfold ThreadSet.setS; split <;> rfl
@[simp] theorem ThreadSet.setS_cb (t : ThreadSet) (r : Reg) (x : Word) : (t.setS r x).cb = t.cb := by unfold ThreadSet.setS; split <;> rfl
@[simp] theorem ThreadSet.setS_launch (t : ThreadSet) (r : Reg) (x : Word) : (t.setS r x).launch = t.launch := by unfold ThreadSet.setS; split <;> rfl
@[simp] theorem ThreadSet.setS_launchid (t : ThreadSet) (r : Reg) (x : Word) : (t.setS r x).launchid = t.launchid := by unfold ThreadSet.setS; split <;> rfl
@[simp] theorem ThreadSet.setS_index (t : ThreadSet) (r : Reg) (x : Word) : (t.setS r x).index = t.index := by unfold ThreadSet.setS; split <;> rfl
@[simp] theorem ThreadSet.setS_element (t : ThreadSet) (r : Reg) (x : Word) : (t.setS r x).element = t.element := by unfold ThreadSet.setS; split <;> rfl
@[simp] theorem ThreadSet.setS_pos (t : ThreadSet) (r : Reg) (x : Word) : (t.setS r x).pos = t.pos := by unfold ThreadSet.setS; split <;> rfl
@[simp] theorem ThreadSet.setS_pendS (t : ThreadSet) (r : Reg) (x : Word) : (t.setS r x).pendS = t.pendS := by unfold ThreadSet.setS; split <;> rfl
@[simp] theorem ThreadSet.setS_pendV (t : ThreadSet) (r : Reg) (x : Word) : (t.setS r x).pendV = t.pendV := by unfold ThreadSet.setS; split <;> rfl
@[simp] theorem ThreadSet.setS_qa (t : ThreadSet) (r : Reg) (x : Word) : (t.setS r x).qa = t.qa := by unfold ThreadSet.setS; split <;> rfl
@[simp] theorem ThreadSet.setS_qr (t : ThreadSet) (r : Reg) (x : Word) : (t.setS r x).qr = t.qr := by unfold ThreadSet.setS; split <;> rfl
@[simp] theorem ThreadSet.setS_qn (t : ThreadSet) (r : Reg) (x : Word) : (t.setS r x).qn = t.qn := by unfold ThreadSet.setS; split <;> rfl
@[simp] theorem ThreadSet.setS_qnRest (t : ThreadSet) (r : Reg) (x : Word) : (t.setS r x).qnRest = t.qnRest := by unfold ThreadSet.setS; split <;> rfl
@[simp] theorem ThreadSet.setS_qf (t : ThreadSet) (r : Reg) (x : Word) : (t.setS r x).qf = t.qf := by unfold ThreadSet.setS; split <;> rfl
@[simp] theorem ThreadSet.setS_qfPts (t : ThreadSet) (r : Reg) (x : Word) : (t.setS r x).qfPts = t.qfPts := by unfold ThreadSet.setS; split <;> rfl
@[simp] theorem ThreadSet.setS_status (t : ThreadSet) (r : Reg) (x : Word) : (t.setS r x).status = t.status := by unfold ThreadSet.setS; split <;> rfl
@[simp] theorem ThreadSet.setS_pts (t : ThreadSet) (r : Reg) (x : Word) : (t.setS r x).pts = t.pts := by unfold ThreadSet.setS; split <;> rfl
@[simp] theorem ThreadSet.setS_faultSeq (t : ThreadSet) (r : Reg) (x : Word) : (t.setS r x).faultSeq = t.faultSeq := by unfold ThreadSet.setS; split <;> rfl
@[simp] theorem ThreadSet.setS_halted (t : ThreadSet) (r : Reg) (x : Word) : (t.setS r x).halted = t.halted := by unfold ThreadSet.setS; split <;> rfl
@[simp] theorem ThreadSet.setS_draining (t : ThreadSet) (r : Reg) (x : Word) : (t.setS r x).draining = t.draining := by unfold ThreadSet.setS; split <;> rfl
@[simp] theorem ThreadSet.setS_toPeers (t : ThreadSet) (r : Reg) (x : Word) : (t.setS r x).toPeers = t.toPeers := by unfold ThreadSet.setS; split <;> rfl
@[simp] theorem ThreadSet.setS_toHost (t : ThreadSet) (r : Reg) (x : Word) : (t.setS r x).toHost = t.toHost := by unfold ThreadSet.setS; split <;> rfl
@[simp] theorem ThreadSet.setS_part (t : ThreadSet) (r : Reg) (x : Word) : (t.setS r x).part = t.part := by unfold ThreadSet.setS; split <;> rfl
@[simp] theorem ThreadSet.setS_acq (t : ThreadSet) (r : Reg) (x : Word) : (t.setS r x).acq = t.acq := by unfold ThreadSet.setS; split <;> rfl

@[simp] theorem ThreadSet.setV_s (t : ThreadSet) (r : Reg) (x : VWord) : (t.setV r x).s = t.s := rfl
@[simp] theorem ThreadSet.setV_p (t : ThreadSet) (r : Reg) (x : VWord) : (t.setV r x).p = t.p := rfl
@[simp] theorem ThreadSet.setV_k (t : ThreadSet) (r : Reg) (x : VWord) : (t.setV r x).k = t.k := rfl
@[simp] theorem ThreadSet.setV_pc (t : ThreadSet) (r : Reg) (x : VWord) : (t.setV r x).pc = t.pc := rfl
@[simp] theorem ThreadSet.setV_fpc (t : ThreadSet) (r : Reg) (x : VWord) : (t.setV r x).fpc = t.fpc := rfl
@[simp] theorem ThreadSet.setV_fps (t : ThreadSet) (r : Reg) (x : VWord) : (t.setV r x).fps = t.fps := rfl
@[simp] theorem ThreadSet.setV_eid (t : ThreadSet) (r : Reg) (x : VWord) : (t.setV r x).eid = t.eid := rfl
@[simp] theorem ThreadSet.setV_targ (t : ThreadSet) (r : Reg) (x : VWord) : (t.setV r x).targ = t.targ := rfl
@[simp] theorem ThreadSet.setV_gs (t : ThreadSet) (r : Reg) (x : VWord) : (t.setV r x).gs = t.gs := rfl
@[simp] theorem ThreadSet.setV_cb (t : ThreadSet) (r : Reg) (x : VWord) : (t.setV r x).cb = t.cb := rfl
@[simp] theorem ThreadSet.setV_launch (t : ThreadSet) (r : Reg) (x : VWord) : (t.setV r x).launch = t.launch := rfl
@[simp] theorem ThreadSet.setV_launchid (t : ThreadSet) (r : Reg) (x : VWord) : (t.setV r x).launchid = t.launchid := rfl
@[simp] theorem ThreadSet.setV_index (t : ThreadSet) (r : Reg) (x : VWord) : (t.setV r x).index = t.index := rfl
@[simp] theorem ThreadSet.setV_element (t : ThreadSet) (r : Reg) (x : VWord) : (t.setV r x).element = t.element := rfl
@[simp] theorem ThreadSet.setV_pos (t : ThreadSet) (r : Reg) (x : VWord) : (t.setV r x).pos = t.pos := rfl
@[simp] theorem ThreadSet.setV_pendS (t : ThreadSet) (r : Reg) (x : VWord) : (t.setV r x).pendS = t.pendS := rfl
@[simp] theorem ThreadSet.setV_pendV (t : ThreadSet) (r : Reg) (x : VWord) : (t.setV r x).pendV = t.pendV := rfl
@[simp] theorem ThreadSet.setV_qa (t : ThreadSet) (r : Reg) (x : VWord) : (t.setV r x).qa = t.qa := rfl
@[simp] theorem ThreadSet.setV_qr (t : ThreadSet) (r : Reg) (x : VWord) : (t.setV r x).qr = t.qr := rfl
@[simp] theorem ThreadSet.setV_qn (t : ThreadSet) (r : Reg) (x : VWord) : (t.setV r x).qn = t.qn := rfl
@[simp] theorem ThreadSet.setV_qnRest (t : ThreadSet) (r : Reg) (x : VWord) : (t.setV r x).qnRest = t.qnRest := rfl
@[simp] theorem ThreadSet.setV_qf (t : ThreadSet) (r : Reg) (x : VWord) : (t.setV r x).qf = t.qf := rfl
@[simp] theorem ThreadSet.setV_qfPts (t : ThreadSet) (r : Reg) (x : VWord) : (t.setV r x).qfPts = t.qfPts := rfl
@[simp] theorem ThreadSet.setV_status (t : ThreadSet) (r : Reg) (x : VWord) : (t.setV r x).status = t.status := rfl
@[simp] theorem ThreadSet.setV_pts (t : ThreadSet) (r : Reg) (x : VWord) : (t.setV r x).pts = t.pts := rfl
@[simp] theorem ThreadSet.setV_faultSeq (t : ThreadSet) (r : Reg) (x : VWord) : (t.setV r x).faultSeq = t.faultSeq := rfl
@[simp] theorem ThreadSet.setV_halted (t : ThreadSet) (r : Reg) (x : VWord) : (t.setV r x).halted = t.halted := rfl
@[simp] theorem ThreadSet.setV_draining (t : ThreadSet) (r : Reg) (x : VWord) : (t.setV r x).draining = t.draining := rfl
@[simp] theorem ThreadSet.setV_toPeers (t : ThreadSet) (r : Reg) (x : VWord) : (t.setV r x).toPeers = t.toPeers := rfl
@[simp] theorem ThreadSet.setV_toHost (t : ThreadSet) (r : Reg) (x : VWord) : (t.setV r x).toHost = t.toHost := rfl
@[simp] theorem ThreadSet.setV_part (t : ThreadSet) (r : Reg) (x : VWord) : (t.setV r x).part = t.part := rfl
@[simp] theorem ThreadSet.setV_acq (t : ThreadSet) (r : Reg) (x : VWord) : (t.setV r x).acq = t.acq := rfl

@[simp] theorem ThreadSet.setP_s (t : ThreadSet) (r : PReg) (x : Bool) : (t.setP r x).s = t.s := by unfold ThreadSet.setP; split <;> rfl
@[simp] theorem ThreadSet.setP_v (t : ThreadSet) (r : PReg) (x : Bool) : (t.setP r x).v = t.v := by unfold ThreadSet.setP; split <;> rfl
@[simp] theorem ThreadSet.setP_k (t : ThreadSet) (r : PReg) (x : Bool) : (t.setP r x).k = t.k := by unfold ThreadSet.setP; split <;> rfl
@[simp] theorem ThreadSet.setP_pc (t : ThreadSet) (r : PReg) (x : Bool) : (t.setP r x).pc = t.pc := by unfold ThreadSet.setP; split <;> rfl
@[simp] theorem ThreadSet.setP_fpc (t : ThreadSet) (r : PReg) (x : Bool) : (t.setP r x).fpc = t.fpc := by unfold ThreadSet.setP; split <;> rfl
@[simp] theorem ThreadSet.setP_fps (t : ThreadSet) (r : PReg) (x : Bool) : (t.setP r x).fps = t.fps := by unfold ThreadSet.setP; split <;> rfl
@[simp] theorem ThreadSet.setP_eid (t : ThreadSet) (r : PReg) (x : Bool) : (t.setP r x).eid = t.eid := by unfold ThreadSet.setP; split <;> rfl
@[simp] theorem ThreadSet.setP_targ (t : ThreadSet) (r : PReg) (x : Bool) : (t.setP r x).targ = t.targ := by unfold ThreadSet.setP; split <;> rfl
@[simp] theorem ThreadSet.setP_gs (t : ThreadSet) (r : PReg) (x : Bool) : (t.setP r x).gs = t.gs := by unfold ThreadSet.setP; split <;> rfl
@[simp] theorem ThreadSet.setP_cb (t : ThreadSet) (r : PReg) (x : Bool) : (t.setP r x).cb = t.cb := by unfold ThreadSet.setP; split <;> rfl
@[simp] theorem ThreadSet.setP_launch (t : ThreadSet) (r : PReg) (x : Bool) : (t.setP r x).launch = t.launch := by unfold ThreadSet.setP; split <;> rfl
@[simp] theorem ThreadSet.setP_launchid (t : ThreadSet) (r : PReg) (x : Bool) : (t.setP r x).launchid = t.launchid := by unfold ThreadSet.setP; split <;> rfl
@[simp] theorem ThreadSet.setP_index (t : ThreadSet) (r : PReg) (x : Bool) : (t.setP r x).index = t.index := by unfold ThreadSet.setP; split <;> rfl
@[simp] theorem ThreadSet.setP_element (t : ThreadSet) (r : PReg) (x : Bool) : (t.setP r x).element = t.element := by unfold ThreadSet.setP; split <;> rfl
@[simp] theorem ThreadSet.setP_pos (t : ThreadSet) (r : PReg) (x : Bool) : (t.setP r x).pos = t.pos := by unfold ThreadSet.setP; split <;> rfl
@[simp] theorem ThreadSet.setP_pendS (t : ThreadSet) (r : PReg) (x : Bool) : (t.setP r x).pendS = t.pendS := by unfold ThreadSet.setP; split <;> rfl
@[simp] theorem ThreadSet.setP_pendV (t : ThreadSet) (r : PReg) (x : Bool) : (t.setP r x).pendV = t.pendV := by unfold ThreadSet.setP; split <;> rfl
@[simp] theorem ThreadSet.setP_qa (t : ThreadSet) (r : PReg) (x : Bool) : (t.setP r x).qa = t.qa := by unfold ThreadSet.setP; split <;> rfl
@[simp] theorem ThreadSet.setP_qr (t : ThreadSet) (r : PReg) (x : Bool) : (t.setP r x).qr = t.qr := by unfold ThreadSet.setP; split <;> rfl
@[simp] theorem ThreadSet.setP_qn (t : ThreadSet) (r : PReg) (x : Bool) : (t.setP r x).qn = t.qn := by unfold ThreadSet.setP; split <;> rfl
@[simp] theorem ThreadSet.setP_qnRest (t : ThreadSet) (r : PReg) (x : Bool) : (t.setP r x).qnRest = t.qnRest := by unfold ThreadSet.setP; split <;> rfl
@[simp] theorem ThreadSet.setP_qf (t : ThreadSet) (r : PReg) (x : Bool) : (t.setP r x).qf = t.qf := by unfold ThreadSet.setP; split <;> rfl
@[simp] theorem ThreadSet.setP_qfPts (t : ThreadSet) (r : PReg) (x : Bool) : (t.setP r x).qfPts = t.qfPts := by unfold ThreadSet.setP; split <;> rfl
@[simp] theorem ThreadSet.setP_status (t : ThreadSet) (r : PReg) (x : Bool) : (t.setP r x).status = t.status := by unfold ThreadSet.setP; split <;> rfl
@[simp] theorem ThreadSet.setP_pts (t : ThreadSet) (r : PReg) (x : Bool) : (t.setP r x).pts = t.pts := by unfold ThreadSet.setP; split <;> rfl
@[simp] theorem ThreadSet.setP_faultSeq (t : ThreadSet) (r : PReg) (x : Bool) : (t.setP r x).faultSeq = t.faultSeq := by unfold ThreadSet.setP; split <;> rfl
@[simp] theorem ThreadSet.setP_halted (t : ThreadSet) (r : PReg) (x : Bool) : (t.setP r x).halted = t.halted := by unfold ThreadSet.setP; split <;> rfl
@[simp] theorem ThreadSet.setP_draining (t : ThreadSet) (r : PReg) (x : Bool) : (t.setP r x).draining = t.draining := by unfold ThreadSet.setP; split <;> rfl
@[simp] theorem ThreadSet.setP_toPeers (t : ThreadSet) (r : PReg) (x : Bool) : (t.setP r x).toPeers = t.toPeers := by unfold ThreadSet.setP; split <;> rfl
@[simp] theorem ThreadSet.setP_toHost (t : ThreadSet) (r : PReg) (x : Bool) : (t.setP r x).toHost = t.toHost := by unfold ThreadSet.setP; split <;> rfl
@[simp] theorem ThreadSet.setP_part (t : ThreadSet) (r : PReg) (x : Bool) : (t.setP r x).part = t.part := by unfold ThreadSet.setP; split <;> rfl
@[simp] theorem ThreadSet.setP_acq (t : ThreadSet) (r : PReg) (x : Bool) : (t.setP r x).acq = t.acq := by unfold ThreadSet.setP; split <;> rfl

@[simp] theorem ThreadSet.setK_s (t : ThreadSet) (r : KReg) (x : BitVec 32) : (t.setK r x).s = t.s := by unfold ThreadSet.setK; split <;> rfl
@[simp] theorem ThreadSet.setK_v (t : ThreadSet) (r : KReg) (x : BitVec 32) : (t.setK r x).v = t.v := by unfold ThreadSet.setK; split <;> rfl
@[simp] theorem ThreadSet.setK_p (t : ThreadSet) (r : KReg) (x : BitVec 32) : (t.setK r x).p = t.p := by unfold ThreadSet.setK; split <;> rfl
@[simp] theorem ThreadSet.setK_pc (t : ThreadSet) (r : KReg) (x : BitVec 32) : (t.setK r x).pc = t.pc := by unfold ThreadSet.setK; split <;> rfl
@[simp] theorem ThreadSet.setK_fpc (t : ThreadSet) (r : KReg) (x : BitVec 32) : (t.setK r x).fpc = t.fpc := by unfold ThreadSet.setK; split <;> rfl
@[simp] theorem ThreadSet.setK_fps (t : ThreadSet) (r : KReg) (x : BitVec 32) : (t.setK r x).fps = t.fps := by unfold ThreadSet.setK; split <;> rfl
@[simp] theorem ThreadSet.setK_eid (t : ThreadSet) (r : KReg) (x : BitVec 32) : (t.setK r x).eid = t.eid := by unfold ThreadSet.setK; split <;> rfl
@[simp] theorem ThreadSet.setK_targ (t : ThreadSet) (r : KReg) (x : BitVec 32) : (t.setK r x).targ = t.targ := by unfold ThreadSet.setK; split <;> rfl
@[simp] theorem ThreadSet.setK_gs (t : ThreadSet) (r : KReg) (x : BitVec 32) : (t.setK r x).gs = t.gs := by unfold ThreadSet.setK; split <;> rfl
@[simp] theorem ThreadSet.setK_cb (t : ThreadSet) (r : KReg) (x : BitVec 32) : (t.setK r x).cb = t.cb := by unfold ThreadSet.setK; split <;> rfl
@[simp] theorem ThreadSet.setK_launch (t : ThreadSet) (r : KReg) (x : BitVec 32) : (t.setK r x).launch = t.launch := by unfold ThreadSet.setK; split <;> rfl
@[simp] theorem ThreadSet.setK_launchid (t : ThreadSet) (r : KReg) (x : BitVec 32) : (t.setK r x).launchid = t.launchid := by unfold ThreadSet.setK; split <;> rfl
@[simp] theorem ThreadSet.setK_index (t : ThreadSet) (r : KReg) (x : BitVec 32) : (t.setK r x).index = t.index := by unfold ThreadSet.setK; split <;> rfl
@[simp] theorem ThreadSet.setK_element (t : ThreadSet) (r : KReg) (x : BitVec 32) : (t.setK r x).element = t.element := by unfold ThreadSet.setK; split <;> rfl
@[simp] theorem ThreadSet.setK_pos (t : ThreadSet) (r : KReg) (x : BitVec 32) : (t.setK r x).pos = t.pos := by unfold ThreadSet.setK; split <;> rfl
@[simp] theorem ThreadSet.setK_pendS (t : ThreadSet) (r : KReg) (x : BitVec 32) : (t.setK r x).pendS = t.pendS := by unfold ThreadSet.setK; split <;> rfl
@[simp] theorem ThreadSet.setK_pendV (t : ThreadSet) (r : KReg) (x : BitVec 32) : (t.setK r x).pendV = t.pendV := by unfold ThreadSet.setK; split <;> rfl
@[simp] theorem ThreadSet.setK_qa (t : ThreadSet) (r : KReg) (x : BitVec 32) : (t.setK r x).qa = t.qa := by unfold ThreadSet.setK; split <;> rfl
@[simp] theorem ThreadSet.setK_qr (t : ThreadSet) (r : KReg) (x : BitVec 32) : (t.setK r x).qr = t.qr := by unfold ThreadSet.setK; split <;> rfl
@[simp] theorem ThreadSet.setK_qn (t : ThreadSet) (r : KReg) (x : BitVec 32) : (t.setK r x).qn = t.qn := by unfold ThreadSet.setK; split <;> rfl
@[simp] theorem ThreadSet.setK_qnRest (t : ThreadSet) (r : KReg) (x : BitVec 32) : (t.setK r x).qnRest = t.qnRest := by unfold ThreadSet.setK; split <;> rfl
@[simp] theorem ThreadSet.setK_qf (t : ThreadSet) (r : KReg) (x : BitVec 32) : (t.setK r x).qf = t.qf := by unfold ThreadSet.setK; split <;> rfl
@[simp] theorem ThreadSet.setK_qfPts (t : ThreadSet) (r : KReg) (x : BitVec 32) : (t.setK r x).qfPts = t.qfPts := by unfold ThreadSet.setK; split <;> rfl
@[simp] theorem ThreadSet.setK_status (t : ThreadSet) (r : KReg) (x : BitVec 32) : (t.setK r x).status = t.status := by unfold ThreadSet.setK; split <;> rfl
@[simp] theorem ThreadSet.setK_pts (t : ThreadSet) (r : KReg) (x : BitVec 32) : (t.setK r x).pts = t.pts := by unfold ThreadSet.setK; split <;> rfl
@[simp] theorem ThreadSet.setK_faultSeq (t : ThreadSet) (r : KReg) (x : BitVec 32) : (t.setK r x).faultSeq = t.faultSeq := by unfold ThreadSet.setK; split <;> rfl
@[simp] theorem ThreadSet.setK_halted (t : ThreadSet) (r : KReg) (x : BitVec 32) : (t.setK r x).halted = t.halted := by unfold ThreadSet.setK; split <;> rfl
@[simp] theorem ThreadSet.setK_draining (t : ThreadSet) (r : KReg) (x : BitVec 32) : (t.setK r x).draining = t.draining := by unfold ThreadSet.setK; split <;> rfl
@[simp] theorem ThreadSet.setK_toPeers (t : ThreadSet) (r : KReg) (x : BitVec 32) : (t.setK r x).toPeers = t.toPeers := by unfold ThreadSet.setK; split <;> rfl
@[simp] theorem ThreadSet.setK_toHost (t : ThreadSet) (r : KReg) (x : BitVec 32) : (t.setK r x).toHost = t.toHost := by unfold ThreadSet.setK; split <;> rfl
@[simp] theorem ThreadSet.setK_part (t : ThreadSet) (r : KReg) (x : BitVec 32) : (t.setK r x).part = t.part := by unfold ThreadSet.setK; split <;> rfl
@[simp] theorem ThreadSet.setK_acq (t : ThreadSet) (r : KReg) (x : BitVec 32) : (t.setK r x).acq = t.acq := by unfold ThreadSet.setK; split <;> rfl

@[simp] theorem ThreadSet.raise_s (t : ThreadSet) (f : BitVec 6) : (t.raise f).s = t.s := rfl
@[simp] theorem ThreadSet.raise_v (t : ThreadSet) (f : BitVec 6) : (t.raise f).v = t.v := rfl
@[simp] theorem ThreadSet.raise_p (t : ThreadSet) (f : BitVec 6) : (t.raise f).p = t.p := rfl
@[simp] theorem ThreadSet.raise_k (t : ThreadSet) (f : BitVec 6) : (t.raise f).k = t.k := rfl
@[simp] theorem ThreadSet.raise_pc (t : ThreadSet) (f : BitVec 6) : (t.raise f).pc = t.pc := rfl
@[simp] theorem ThreadSet.raise_fpc (t : ThreadSet) (f : BitVec 6) : (t.raise f).fpc = t.fpc := rfl
@[simp] theorem ThreadSet.raise_eid (t : ThreadSet) (f : BitVec 6) : (t.raise f).eid = t.eid := rfl
@[simp] theorem ThreadSet.raise_targ (t : ThreadSet) (f : BitVec 6) : (t.raise f).targ = t.targ := rfl
@[simp] theorem ThreadSet.raise_gs (t : ThreadSet) (f : BitVec 6) : (t.raise f).gs = t.gs := rfl
@[simp] theorem ThreadSet.raise_cb (t : ThreadSet) (f : BitVec 6) : (t.raise f).cb = t.cb := rfl
@[simp] theorem ThreadSet.raise_launch (t : ThreadSet) (f : BitVec 6) : (t.raise f).launch = t.launch := rfl
@[simp] theorem ThreadSet.raise_launchid (t : ThreadSet) (f : BitVec 6) : (t.raise f).launchid = t.launchid := rfl
@[simp] theorem ThreadSet.raise_index (t : ThreadSet) (f : BitVec 6) : (t.raise f).index = t.index := rfl
@[simp] theorem ThreadSet.raise_element (t : ThreadSet) (f : BitVec 6) : (t.raise f).element = t.element := rfl
@[simp] theorem ThreadSet.raise_pos (t : ThreadSet) (f : BitVec 6) : (t.raise f).pos = t.pos := rfl
@[simp] theorem ThreadSet.raise_pendS (t : ThreadSet) (f : BitVec 6) : (t.raise f).pendS = t.pendS := rfl
@[simp] theorem ThreadSet.raise_pendV (t : ThreadSet) (f : BitVec 6) : (t.raise f).pendV = t.pendV := rfl
@[simp] theorem ThreadSet.raise_qa (t : ThreadSet) (f : BitVec 6) : (t.raise f).qa = t.qa := rfl
@[simp] theorem ThreadSet.raise_qr (t : ThreadSet) (f : BitVec 6) : (t.raise f).qr = t.qr := rfl
@[simp] theorem ThreadSet.raise_qn (t : ThreadSet) (f : BitVec 6) : (t.raise f).qn = t.qn := rfl
@[simp] theorem ThreadSet.raise_qnRest (t : ThreadSet) (f : BitVec 6) : (t.raise f).qnRest = t.qnRest := rfl
@[simp] theorem ThreadSet.raise_qf (t : ThreadSet) (f : BitVec 6) : (t.raise f).qf = t.qf := rfl
@[simp] theorem ThreadSet.raise_qfPts (t : ThreadSet) (f : BitVec 6) : (t.raise f).qfPts = t.qfPts := rfl
@[simp] theorem ThreadSet.raise_status (t : ThreadSet) (f : BitVec 6) : (t.raise f).status = t.status := rfl
@[simp] theorem ThreadSet.raise_pts (t : ThreadSet) (f : BitVec 6) : (t.raise f).pts = t.pts := rfl
@[simp] theorem ThreadSet.raise_faultSeq (t : ThreadSet) (f : BitVec 6) : (t.raise f).faultSeq = t.faultSeq := rfl
@[simp] theorem ThreadSet.raise_halted (t : ThreadSet) (f : BitVec 6) : (t.raise f).halted = t.halted := rfl
@[simp] theorem ThreadSet.raise_draining (t : ThreadSet) (f : BitVec 6) : (t.raise f).draining = t.draining := rfl
@[simp] theorem ThreadSet.raise_toPeers (t : ThreadSet) (f : BitVec 6) : (t.raise f).toPeers = t.toPeers := rfl
@[simp] theorem ThreadSet.raise_toHost (t : ThreadSet) (f : BitVec 6) : (t.raise f).toHost = t.toHost := rfl
@[simp] theorem ThreadSet.raise_part (t : ThreadSet) (f : BitVec 6) : (t.raise f).part = t.part := rfl
@[simp] theorem ThreadSet.raise_acq (t : ThreadSet) (f : BitVec 6) : (t.raise f).acq = t.acq := rfl

@[simp] theorem ThreadSet.pend_s (t : ThreadSet) (r : Reg) : (t.pend r).s = t.s := by unfold ThreadSet.pend; split <;> rfl
@[simp] theorem ThreadSet.pend_v (t : ThreadSet) (r : Reg) : (t.pend r).v = t.v := by unfold ThreadSet.pend; split <;> rfl
@[simp] theorem ThreadSet.pend_p (t : ThreadSet) (r : Reg) : (t.pend r).p = t.p := by unfold ThreadSet.pend; split <;> rfl
@[simp] theorem ThreadSet.pend_k (t : ThreadSet) (r : Reg) : (t.pend r).k = t.k := by unfold ThreadSet.pend; split <;> rfl
@[simp] theorem ThreadSet.pend_pc (t : ThreadSet) (r : Reg) : (t.pend r).pc = t.pc := by unfold ThreadSet.pend; split <;> rfl
@[simp] theorem ThreadSet.pend_fpc (t : ThreadSet) (r : Reg) : (t.pend r).fpc = t.fpc := by unfold ThreadSet.pend; split <;> rfl
@[simp] theorem ThreadSet.pend_fps (t : ThreadSet) (r : Reg) : (t.pend r).fps = t.fps := by unfold ThreadSet.pend; split <;> rfl
@[simp] theorem ThreadSet.pend_eid (t : ThreadSet) (r : Reg) : (t.pend r).eid = t.eid := by unfold ThreadSet.pend; split <;> rfl
@[simp] theorem ThreadSet.pend_targ (t : ThreadSet) (r : Reg) : (t.pend r).targ = t.targ := by unfold ThreadSet.pend; split <;> rfl
@[simp] theorem ThreadSet.pend_gs (t : ThreadSet) (r : Reg) : (t.pend r).gs = t.gs := by unfold ThreadSet.pend; split <;> rfl
@[simp] theorem ThreadSet.pend_cb (t : ThreadSet) (r : Reg) : (t.pend r).cb = t.cb := by unfold ThreadSet.pend; split <;> rfl
@[simp] theorem ThreadSet.pend_launch (t : ThreadSet) (r : Reg) : (t.pend r).launch = t.launch := by unfold ThreadSet.pend; split <;> rfl
@[simp] theorem ThreadSet.pend_launchid (t : ThreadSet) (r : Reg) : (t.pend r).launchid = t.launchid := by unfold ThreadSet.pend; split <;> rfl
@[simp] theorem ThreadSet.pend_index (t : ThreadSet) (r : Reg) : (t.pend r).index = t.index := by unfold ThreadSet.pend; split <;> rfl
@[simp] theorem ThreadSet.pend_element (t : ThreadSet) (r : Reg) : (t.pend r).element = t.element := by unfold ThreadSet.pend; split <;> rfl
@[simp] theorem ThreadSet.pend_pos (t : ThreadSet) (r : Reg) : (t.pend r).pos = t.pos := by unfold ThreadSet.pend; split <;> rfl
@[simp] theorem ThreadSet.pend_pendV (t : ThreadSet) (r : Reg) : (t.pend r).pendV = t.pendV := by unfold ThreadSet.pend; split <;> rfl
@[simp] theorem ThreadSet.pend_qa (t : ThreadSet) (r : Reg) : (t.pend r).qa = t.qa := by unfold ThreadSet.pend; split <;> rfl
@[simp] theorem ThreadSet.pend_qr (t : ThreadSet) (r : Reg) : (t.pend r).qr = t.qr := by unfold ThreadSet.pend; split <;> rfl
@[simp] theorem ThreadSet.pend_qn (t : ThreadSet) (r : Reg) : (t.pend r).qn = t.qn := by unfold ThreadSet.pend; split <;> rfl
@[simp] theorem ThreadSet.pend_qnRest (t : ThreadSet) (r : Reg) : (t.pend r).qnRest = t.qnRest := by unfold ThreadSet.pend; split <;> rfl
@[simp] theorem ThreadSet.pend_qf (t : ThreadSet) (r : Reg) : (t.pend r).qf = t.qf := by unfold ThreadSet.pend; split <;> rfl
@[simp] theorem ThreadSet.pend_qfPts (t : ThreadSet) (r : Reg) : (t.pend r).qfPts = t.qfPts := by unfold ThreadSet.pend; split <;> rfl
@[simp] theorem ThreadSet.pend_status (t : ThreadSet) (r : Reg) : (t.pend r).status = t.status := by unfold ThreadSet.pend; split <;> rfl
@[simp] theorem ThreadSet.pend_pts (t : ThreadSet) (r : Reg) : (t.pend r).pts = t.pts := by unfold ThreadSet.pend; split <;> rfl
@[simp] theorem ThreadSet.pend_faultSeq (t : ThreadSet) (r : Reg) : (t.pend r).faultSeq = t.faultSeq := by unfold ThreadSet.pend; split <;> rfl
@[simp] theorem ThreadSet.pend_halted (t : ThreadSet) (r : Reg) : (t.pend r).halted = t.halted := by unfold ThreadSet.pend; split <;> rfl
@[simp] theorem ThreadSet.pend_draining (t : ThreadSet) (r : Reg) : (t.pend r).draining = t.draining := by unfold ThreadSet.pend; split <;> rfl
@[simp] theorem ThreadSet.pend_toPeers (t : ThreadSet) (r : Reg) : (t.pend r).toPeers = t.toPeers := by unfold ThreadSet.pend; split <;> rfl
@[simp] theorem ThreadSet.pend_toHost (t : ThreadSet) (r : Reg) : (t.pend r).toHost = t.toHost := by unfold ThreadSet.pend; split <;> rfl
@[simp] theorem ThreadSet.pend_part (t : ThreadSet) (r : Reg) : (t.pend r).part = t.part := by unfold ThreadSet.pend; split <;> rfl
@[simp] theorem ThreadSet.pend_acq (t : ThreadSet) (r : Reg) : (t.pend r).acq = t.acq := by unfold ThreadSet.pend; split <;> rfl

/-! ### The dirty bits of a core -/

@[simp] theorem Core.touch_mem (k : Core) (a n : Nat) : (k.touch a n).mem = k.mem := by unfold Core.touch; split <;> rfl
@[simp] theorem Core.touch_poison (k : Core) (a n : Nat) : (k.touch a n).poison = k.poison := by unfold Core.touch; split <;> rfl
@[simp] theorem Core.touch_halves (k : Core) (a n : Nat) : (k.touch a n).halves = k.halves := by unfold Core.touch; split <;> rfl
@[simp] theorem Core.touch_acc (k : Core) (a n : Nat) : (k.touch a n).acc = k.acc := by unfold Core.touch; split <;> rfl
@[simp] theorem Core.touch_accFlags (k : Core) (a n : Nat) : (k.touch a n).accFlags = k.accFlags := by unfold Core.touch; split <;> rfl
@[simp] theorem Core.touch_counters (k : Core) (a n : Nat) : (k.touch a n).counters = k.counters := by unfold Core.touch; split <;> rfl
@[simp] theorem Core.touch_bypass (k : Core) (a n : Nat) : (k.touch a n).bypass = k.bypass := by unfold Core.touch; split <;> rfl
@[simp] theorem Core.touch_mq (k : Core) (a n : Nat) : (k.touch a n).mq = k.mq := by unfold Core.touch; split <;> rfl
@[simp] theorem Core.touch_narrow (k : Core) (a n : Nat) : (k.touch a n).narrow = k.narrow := by unfold Core.touch; split <;> rfl
@[simp] theorem Core.touch_tq (k : Core) (a n : Nat) : (k.touch a n).tq = k.tq := by unfold Core.touch; split <;> rfl
@[simp] theorem Core.touch_nextCmd (k : Core) (a n : Nat) : (k.touch a n).nextCmd = k.nextCmd := by unfold Core.touch; split <;> rfl
@[simp] theorem Core.touch_smap (k : Core) (a n : Nat) : (k.touch a n).smap = k.smap := by unfold Core.touch; split <;> rfl
@[simp] theorem Core.touch_stash (k : Core) (a n : Nat) : (k.touch a n).stash = k.stash := by unfold Core.touch; split <;> rfl
@[simp] theorem Core.touch_recs (k : Core) (a n : Nat) : (k.touch a n).recs = k.recs := by unfold Core.touch; split <;> rfl
@[simp] theorem Core.touch_icache (k : Core) (a n : Nat) : (k.touch a n).icache = k.icache := by unfold Core.touch; split <;> rfl
@[simp] theorem Core.touch_folds (k : Core) (a n : Nat) : (k.touch a n).folds = k.folds := by unfold Core.touch; split <;> rfl
@[simp] theorem Core.touch_slot (k : Core) (a n : Nat) : (k.touch a n).slot = k.slot := by unfold Core.touch; split <;> rfl
@[simp] theorem Core.touch_run (k : Core) (a n : Nat) : (k.touch a n).run = k.run := by unfold Core.touch; split <;> rfl
@[simp] theorem Core.touch_idle (k : Core) (a n : Nat) : (k.touch a n).idle = k.idle := by unfold Core.touch; split <;> rfl
@[simp] theorem Core.touch_launch (k : Core) (a n : Nat) : (k.touch a n).launch = k.launch := by unfold Core.touch; split <;> rfl
@[simp] theorem Core.touch_pts (k : Core) (a n : Nat) : (k.touch a n).pts = k.pts := by unfold Core.touch; split <;> rfl
@[simp] theorem Core.touch_mpts (k : Core) (a n : Nat) : (k.touch a n).mpts = k.mpts := by unfold Core.touch; split <;> rfl

@[simp] theorem Core.touchCmd_mem (k : Core) (i : Nat) : (k.touchCmd i).mem = k.mem := by unfold Core.touchCmd; split <;> rfl
@[simp] theorem Core.touchCmd_poison (k : Core) (i : Nat) : (k.touchCmd i).poison = k.poison := by unfold Core.touchCmd; split <;> rfl
@[simp] theorem Core.touchCmd_halves (k : Core) (i : Nat) : (k.touchCmd i).halves = k.halves := by unfold Core.touchCmd; split <;> rfl
@[simp] theorem Core.touchCmd_acc (k : Core) (i : Nat) : (k.touchCmd i).acc = k.acc := by unfold Core.touchCmd; split <;> rfl
@[simp] theorem Core.touchCmd_accFlags (k : Core) (i : Nat) : (k.touchCmd i).accFlags = k.accFlags := by unfold Core.touchCmd; split <;> rfl
@[simp] theorem Core.touchCmd_counters (k : Core) (i : Nat) : (k.touchCmd i).counters = k.counters := by unfold Core.touchCmd; split <;> rfl
@[simp] theorem Core.touchCmd_slots (k : Core) (i : Nat) : (k.touchCmd i).slots = k.slots := by unfold Core.touchCmd; split <;> rfl
@[simp] theorem Core.touchCmd_bypass (k : Core) (i : Nat) : (k.touchCmd i).bypass = k.bypass := by unfold Core.touchCmd; split <;> rfl
@[simp] theorem Core.touchCmd_mq (k : Core) (i : Nat) : (k.touchCmd i).mq = k.mq := by unfold Core.touchCmd; split <;> rfl
@[simp] theorem Core.touchCmd_narrow (k : Core) (i : Nat) : (k.touchCmd i).narrow = k.narrow := by unfold Core.touchCmd; split <;> rfl
@[simp] theorem Core.touchCmd_tq (k : Core) (i : Nat) : (k.touchCmd i).tq = k.tq := by unfold Core.touchCmd; split <;> rfl
@[simp] theorem Core.touchCmd_nextCmd (k : Core) (i : Nat) : (k.touchCmd i).nextCmd = k.nextCmd := by unfold Core.touchCmd; split <;> rfl
@[simp] theorem Core.touchCmd_smap (k : Core) (i : Nat) : (k.touchCmd i).smap = k.smap := by unfold Core.touchCmd; split <;> rfl
@[simp] theorem Core.touchCmd_stash (k : Core) (i : Nat) : (k.touchCmd i).stash = k.stash := by unfold Core.touchCmd; split <;> rfl
@[simp] theorem Core.touchCmd_recs (k : Core) (i : Nat) : (k.touchCmd i).recs = k.recs := by unfold Core.touchCmd; split <;> rfl
@[simp] theorem Core.touchCmd_icache (k : Core) (i : Nat) : (k.touchCmd i).icache = k.icache := by unfold Core.touchCmd; split <;> rfl
@[simp] theorem Core.touchCmd_folds (k : Core) (i : Nat) : (k.touchCmd i).folds = k.folds := by unfold Core.touchCmd; split <;> rfl
@[simp] theorem Core.touchCmd_slot (k : Core) (i : Nat) : (k.touchCmd i).slot = k.slot := by unfold Core.touchCmd; split <;> rfl
@[simp] theorem Core.touchCmd_run (k : Core) (i : Nat) : (k.touchCmd i).run = k.run := by unfold Core.touchCmd; split <;> rfl
@[simp] theorem Core.touchCmd_idle (k : Core) (i : Nat) : (k.touchCmd i).idle = k.idle := by unfold Core.touchCmd; split <;> rfl
@[simp] theorem Core.touchCmd_launch (k : Core) (i : Nat) : (k.touchCmd i).launch = k.launch := by unfold Core.touchCmd; split <;> rfl
@[simp] theorem Core.touchCmd_pts (k : Core) (i : Nat) : (k.touchCmd i).pts = k.pts := by unfold Core.touchCmd; split <;> rfl
@[simp] theorem Core.touchCmd_mpts (k : Core) (i : Nat) : (k.touchCmd i).mpts = k.mpts := by unfold Core.touchCmd; split <;> rfl

@[simp] theorem Core.dropCmd_mem (k : Core) (i : Nat) : (k.dropCmd i).mem = k.mem := rfl
@[simp] theorem Core.dropCmd_poison (k : Core) (i : Nat) : (k.dropCmd i).poison = k.poison := rfl
@[simp] theorem Core.dropCmd_halves (k : Core) (i : Nat) : (k.dropCmd i).halves = k.halves := rfl
@[simp] theorem Core.dropCmd_acc (k : Core) (i : Nat) : (k.dropCmd i).acc = k.acc := rfl
@[simp] theorem Core.dropCmd_accFlags (k : Core) (i : Nat) : (k.dropCmd i).accFlags = k.accFlags := rfl
@[simp] theorem Core.dropCmd_counters (k : Core) (i : Nat) : (k.dropCmd i).counters = k.counters := rfl
@[simp] theorem Core.dropCmd_slots (k : Core) (i : Nat) : (k.dropCmd i).slots = k.slots := rfl
@[simp] theorem Core.dropCmd_bypass (k : Core) (i : Nat) : (k.dropCmd i).bypass = k.bypass := rfl
@[simp] theorem Core.dropCmd_mq (k : Core) (i : Nat) : (k.dropCmd i).mq = k.mq := rfl
@[simp] theorem Core.dropCmd_narrow (k : Core) (i : Nat) : (k.dropCmd i).narrow = k.narrow := rfl
@[simp] theorem Core.dropCmd_tq (k : Core) (i : Nat) : (k.dropCmd i).tq = k.tq := rfl
@[simp] theorem Core.dropCmd_nextCmd (k : Core) (i : Nat) : (k.dropCmd i).nextCmd = k.nextCmd := rfl
@[simp] theorem Core.dropCmd_smap (k : Core) (i : Nat) : (k.dropCmd i).smap = k.smap := rfl
@[simp] theorem Core.dropCmd_stash (k : Core) (i : Nat) : (k.dropCmd i).stash = k.stash := rfl
@[simp] theorem Core.dropCmd_recs (k : Core) (i : Nat) : (k.dropCmd i).recs = k.recs := rfl
@[simp] theorem Core.dropCmd_icache (k : Core) (i : Nat) : (k.dropCmd i).icache = k.icache := rfl
@[simp] theorem Core.dropCmd_folds (k : Core) (i : Nat) : (k.dropCmd i).folds = k.folds := rfl
@[simp] theorem Core.dropCmd_slot (k : Core) (i : Nat) : (k.dropCmd i).slot = k.slot := rfl
@[simp] theorem Core.dropCmd_run (k : Core) (i : Nat) : (k.dropCmd i).run = k.run := rfl
@[simp] theorem Core.dropCmd_idle (k : Core) (i : Nat) : (k.dropCmd i).idle = k.idle := rfl
@[simp] theorem Core.dropCmd_launch (k : Core) (i : Nat) : (k.dropCmd i).launch = k.launch := rfl
@[simp] theorem Core.dropCmd_pts (k : Core) (i : Nat) : (k.dropCmd i).pts = k.pts := rfl
@[simp] theorem Core.dropCmd_mpts (k : Core) (i : Nat) : (k.dropCmd i).mpts = k.mpts := rfl

/-! ### Links, waiting accesses and earlier values -/

@[simp] theorem State.setLink_clk (s : State) (p : Nat) (x : Link) : (s.setLink p x).clk = s.clk := rfl
@[simp] theorem State.setLink_cur (s : State) (p : Nat) (x : Link) : (s.setLink p x).cur = s.cur := rfl
@[simp] theorem State.setLink_turns (s : State) (p : Nat) (x : Link) : (s.setLink p x).turns = s.turns := rfl
@[simp] theorem State.setLink_picks (s : State) (p : Nat) (x : Link) : (s.setLink p x).picks = s.picks := rfl
@[simp] theorem State.setLink_free (s : State) (p : Nat) (x : Link) : (s.setLink p x).free = s.free := rfl
@[simp] theorem State.setLink_split (s : State) (p : Nat) (x : Link) : (s.setLink p x).split = s.split := rfl
@[simp] theorem State.setLink_tsets (s : State) (p : Nat) (x : Link) : (s.setLink p x).tsets = s.tsets := rfl
@[simp] theorem State.setLink_cores (s : State) (p : Nat) (x : Link) : (s.setLink p x).cores = s.cores := rfl
@[simp] theorem State.setLink_msys (s : State) (p : Nat) (x : Link) : (s.setLink p x).msys = s.msys := rfl
@[simp] theorem State.setLink_disp (s : State) (p : Nat) (x : Link) : (s.setLink p x).disp = s.disp := rfl
@[simp] theorem State.setLink_front (s : State) (p : Nat) (x : Link) : (s.setLink p x).front = s.front := rfl
@[simp] theorem State.setLink_faults (s : State) (p : Nat) (x : Link) : (s.setLink p x).faults = s.faults := rfl
@[simp] theorem State.setLink_mgmt (s : State) (p : Nat) (x : Link) : (s.setLink p x).mgmt = s.mgmt := rfl
@[simp] theorem State.setLink_coll (s : State) (p : Nat) (x : Link) : (s.setLink p x).coll = s.coll := rfl

@[simp] theorem addWriteback_clk (s : State) (w : Writeback) : (addWriteback s w).clk = s.clk := rfl
@[simp] theorem addWriteback_cur (s : State) (w : Writeback) : (addWriteback s w).cur = s.cur := rfl
@[simp] theorem addWriteback_turns (s : State) (w : Writeback) : (addWriteback s w).turns = s.turns := rfl
@[simp] theorem addWriteback_picks (s : State) (w : Writeback) : (addWriteback s w).picks = s.picks := rfl
@[simp] theorem addWriteback_free (s : State) (w : Writeback) : (addWriteback s w).free = s.free := rfl
@[simp] theorem addWriteback_split (s : State) (w : Writeback) : (addWriteback s w).split = s.split := rfl
@[simp] theorem addWriteback_tsets (s : State) (w : Writeback) : (addWriteback s w).tsets = s.tsets := rfl
@[simp] theorem addWriteback_cores (s : State) (w : Writeback) : (addWriteback s w).cores = s.cores := rfl
@[simp] theorem addWriteback_msys (s : State) (w : Writeback) : (addWriteback s w).msys = s.msys := rfl
@[simp] theorem addWriteback_disp (s : State) (w : Writeback) : (addWriteback s w).disp = s.disp := rfl
@[simp] theorem addWriteback_front (s : State) (w : Writeback) : (addWriteback s w).front = s.front := rfl
@[simp] theorem addWriteback_mgmt (s : State) (w : Writeback) : (addWriteback s w).mgmt = s.mgmt := rfl
@[simp] theorem addWriteback_fab (s : State) (w : Writeback) : (addWriteback s w).fab = s.fab := rfl
@[simp] theorem addWriteback_coll (s : State) (w : Writeback) : (addWriteback s w).coll = s.coll := rfl

/-- What `keepPast` keeps is all that it changes. -/
theorem keepPast_only_past (s : State) (sp : Space) (key : KeyMat) (line n : Nat) :
    keepPast s sp key line n = { s with msys := { s.msys with
      past := (keepPast s sp key line n).msys.past, writes := (keepPast s sp key line n).msys.writes } } := by
  induction n generalizing s line with
  | zero => rfl
  | succ n ih => rw [keepPast, ih]

/-- The note of a completion changes the clocks that later readers and the end take, and nothing else (R303, R306). -/
theorem noteDone_only_acq (t : ThreadSet) (d : Reg) (pts : Nat) : noteDone t d pts = { t with acq := (noteDone t d pts).acq } := rfl

/-- A written scalar register reads back, and `s0` reads 0 (R97). -/
@[simp] theorem ThreadSet.getS_setS_self (t : ThreadSet) (r : Reg) (x : Word) :
    (t.setS r x).getS r = if r = 0 then 0 else x := by
  unfold ThreadSet.getS ThreadSet.setS
  split <;> simp_all

theorem ThreadSet.getS_setS_ne (t : ThreadSet) {r q : Reg} (h : q ≠ r) (x : Word) : (t.setS r x).getS q = t.getS q := by
  unfold ThreadSet.getS ThreadSet.setS
  split
  · rfl
  · split
    · rfl
    · have : r.val ≠ q.val := fun e => h (Fin.ext e.symm)
      simp [this]

@[simp] theorem ThreadSet.getS_zero (t : ThreadSet) : t.getS 0 = 0 := rfl

end Sys2Proof.Machine
end

