-- ==== Sys2Proof/Laws/Ops.lean ====
section
/-! SUPPORT. What each shared operation can do: a calculus for operations that keep a property of the state, the ends of an
instruction, and one lemma per memory operation that says it keeps the canonical form of every memory. -/

namespace Sys2Proof.Machine

/-! ### Operations that keep a property -/

/-- An operation that completes in a state with P ends in one with P. -/
def Op.Keeps {α : Type} (P : State → Prop) (op : Op α) : Prop := ∀ s, P s → ∀ a s', op s = .ok (a, s') → P s'

section keeps
variable {α β : Type} {P : State → Prop}

theorem Op.keeps_pure (x : α) : Op.Keeps P (pure x) := by
  intro s h a s' e; cases e; exact h

theorem Op.keeps_fail (f : FaultInfo) : Op.Keeps P (Op.fail f : Op α) := by
  intro s h a s' e; cases e

theorem Op.keeps_stop (x : Stop) : Op.Keeps P (Op.stop x : Op α) := by
  intro s h a s' e; cases e

theorem Op.keeps_ask (f : State → α) : Op.Keeps P (Op.ask f) := by
  intro s h a s' e; cases e; exact h

theorem Op.keeps_upd {f : State → State} (h : ∀ s, P s → P (f s)) : Op.Keeps P (Op.upd f) := by
  intro s hs a s' e; cases e; exact h s hs

theorem Op.keeps_need (c : Bool) (f : FaultInfo) : Op.Keeps P (Op.need c f) := by
  unfold Op.need; split
  · exact Op.keeps_pure ()
  · exact Op.keeps_fail f

/-- A completed bind is two completed operations. -/
theorem Op.bind_ok {x : Op α} {f : α → Op β} {s : State} {b : β} {s' : State} (h : (x >>= f) s = .ok (b, s')) :
    ∃ a s1, x s = .ok (a, s1) ∧ f a s1 = .ok (b, s') := by
  change (x s >>= fun r => f r.1 r.2) = _ at h
  match hx : x s with
  | .ok (a, s1) => rw [hx] at h; exact ⟨a, s1, rfl, h⟩
  | .error e => rw [hx] at h; cases h

theorem Op.keeps_bind {x : Op α} {f : α → Op β} (hx : Op.Keeps P x) (hf : ∀ a, Op.Keeps P (f a)) :
    Op.Keeps P (x >>= f) := by
  intro s hs b s' h
  obtain ⟨a, s1, h1, h2⟩ := Op.bind_ok h
  exact hf a s1 (hx s hs a s1 h1) b s' h2

theorem Op.keeps_mapM {f : α → Op β} (hf : ∀ a, Op.Keeps P (f a)) (l : List α) : Op.Keeps P (l.mapM f) := by
  induction l with
  | nil => rw [List.mapM_nil]; exact Op.keeps_pure _
  | cons a r ih =>
    rw [List.mapM_cons]
    exact Op.keeps_bind (hf a) fun _ => Op.keeps_bind ih fun _ => Op.keeps_pure _

end keeps

/-! ### Ends of an instruction -/

@[simp] theorem State.advance_pc (s : State) (n : Nat) :
    (s.advance n).me.pc = s.me.pc + BitVec.ofNat 64 n := by
  unfold State.advance State.setMe State.setTs State.me State.ts; rw [NMap.get?_set_self]; rfl

@[simp] theorem State.me_setMe (s : State) (t : ThreadSet) : (s.setMe t).me = t := by
  unfold State.setMe State.setTs State.me State.ts; rw [NMap.get?_set_self]; rfl

theorem State.ts_setMe_ne (s : State) (t : ThreadSet) {i : Nat} (h : i ≠ s.cur) : (s.setMe t).ts i = s.ts i := by
  unfold State.setMe State.setTs State.ts; rw [NMap.get?_set_ne _ h]

/-- An operation always ends in a next state: its effect, a posted fault, a wait, or nothing. -/
theorem runOp_next (i : Instr) (len : Nat) (op : Op Unit) (s : State) : ∃ s', runOp i len op s = .next s' := by
  unfold runOp; split <;> exact ⟨_, rfl⟩

/-- What an instruction's end keeps, from what its operation and the five other ends keep. -/
theorem runOp_keeps {P : State → Prop} {i : Instr} {len : Nat} {op : Op Unit} {s s' : State} (hs : P s)
    (hop : Op.Keeps P op) (hadv : ∀ s, P s → P (s.advance len)) (hpost : ∀ f, P (postFault i f s))
    (hpark : ∀ p va todo, P (parkAccess i p va todo s)) (hplace : ∀ p va todo, P (placeStore i len p va todo op s))
    (hblock : ∀ st, P (s.setMe { s.me with status := st }))
    (h : runOp i len op s = .next s') : P s' := by
  unfold runOp at h
  split at h
  · cases h; split
    · exact hop _ hs _ _ ‹_›
    · exact hadv _ (hop _ hs _ _ ‹_›)
  · cases h; exact hpost _
  · cases h; split <;> [exact hplace _ _ _; (split <;> [exact hpark _ _ _; exact hblock _])]
  · cases h; exact hs
  · cases h; exact hblock _

/-- A false predicate only advances the pc; a true one runs the instruction. -/
theorem guarded_cases (g : Guard) (len : Nat) (s : State) (k : Out) :
    (s.me.getP g.p ≠ g.pn ∧ guarded g len s k = k) ∨ (s.me.getP g.p = g.pn ∧ guarded g len s k = .next (s.advance len)) := by
  unfold guarded
  by_cases h : s.me.getP g.p = g.pn <;> simp [h]

/-! ### The canonical form of memory -/

theorem NMap.mem_set {α : Type} {m : NMap α} {k : Nat} {x : α} {e : Nat × α} (h : e ∈ NMap.set m k x) :
    e ∈ m ∨ e = (k, x) := by
  induction m with
  | nil => exact .inr (by simpa [NMap.set] using h)
  | cons y r ih =>
    obtain ⟨j, z⟩ := y
    unfold NMap.set at h
    split at h
    · rcases List.mem_cons.1 h with h | h
      · exact .inr h
      · exact .inl h
    · split at h
      · rcases List.mem_cons.1 h with h | h
        · exact .inr h
        · exact .inl (List.mem_cons_of_mem _ h)
      · rcases List.mem_cons.1 h with h | h
        · exact .inl (h ▸ List.mem_cons_self)
        · exact (ih h).imp (List.mem_cons_of_mem _) id

theorem NMap.mem_of_get? {α : Type} {m : NMap α} {k : Nat} {x : α} (h : NMap.get? m k = some x) : (k, x) ∈ m := by
  induction m with
  | nil => simp [NMap.get?] at h
  | cons y r ih =>
    obtain ⟨j, z⟩ := y
    unfold NMap.get? at h
    split at h
    · cases h; subst_vars; exact List.mem_cons_self
    · exact List.mem_cons_of_mem _ (ih h)

/-- `memoryOk`, part by part. -/
theorem State.memoryOk_iff (s : State) :
    s.memoryOk = true ↔ s.msys.dev.wf = true ∧ s.msys.alt.wf = true ∧ s.msys.host.wf = true ∧
      (∀ e ∈ s.cores, e.2.mem.wf = true) ∧ ∀ p ∈ s.fab.peers, p.mem.wf = true := by
  simp [State.memoryOk, and_assoc]

/-- It depends on the memories only. -/
theorem State.memoryOk_congr {s t : State} (h : s.memoryOk = true) (hd : t.msys.dev = s.msys.dev)
    (ha : t.msys.alt = s.msys.alt) (hh : t.msys.host = s.msys.host) (hc : t.cores = s.cores)
    (hp : t.fab.peers = s.fab.peers) : t.memoryOk = true := by
  simp only [State.memoryOk, hd, ha, hh, hc, hp] at *; exact h

theorem State.memoryOk_setTs {s : State} (h : s.memoryOk = true) (t : Nat) (x : ThreadSet) :
    (s.setTs t x).memoryOk = true := h

theorem State.memoryOk_setMe {s : State} (h : s.memoryOk = true) (x : ThreadSet) : (s.setMe x).memoryOk = true := h

theorem State.memoryOk_advance {s : State} (h : s.memoryOk = true) (n : Nat) : (s.advance n).memoryOk = true := h

theorem State.memoryOk_pick {s : State} (h : s.memoryOk = true) : s.pick.2.memoryOk = true := by
  unfold State.pick; split <;> exact h

theorem State.core_mem_wf {s : State} (h : s.memoryOk = true) (c : Nat) : (s.core c).mem.wf = true := by
  unfold State.core
  match e : s.cores.get? c with
  | some k => exact ((State.memoryOk_iff s).1 h).2.2.2.1 _ (NMap.mem_of_get? e)
  | none => rfl

theorem State.memoryOk_setCore {s : State} (h : s.memoryOk = true) (c : Nat) {x : Core} (hx : x.mem.wf = true) :
    (s.setCore c x).memoryOk = true := by
  have h' := (State.memoryOk_iff s).1 h
  refine (State.memoryOk_iff _).2 ⟨h'.1, h'.2.1, h'.2.2.1, ?_, h'.2.2.2.2⟩
  intro e he
  rcases NMap.mem_set he with he | he
  · exact h'.2.2.2.1 e he
  · subst he; exact hx

/-- A core's record with the same local memory. -/
theorem State.memoryOk_setCore_mem {s : State} (h : s.memoryOk = true) (c : Nat) {x : Core} (hx : x.mem = (s.core c).mem) :
    (s.setCore c x).memoryOk = true := State.memoryOk_setCore h c (hx ▸ State.core_mem_wf h c)

theorem setPoison_memoryOk {s : State} (h : s.memoryOk = true) (sp : Space) (l : List Nat) :
    (setPoison s sp l).memoryOk = true := by
  cases sp with
  | core c => exact State.memoryOk_setCore_mem h c rfl
  | peer p =>
    have h' := (State.memoryOk_iff s).1 h
    refine (State.memoryOk_iff _).2 ⟨h'.1, h'.2.1, h'.2.2.1, h'.2.2.2.1, ?_⟩
    intro q hq
    obtain ⟨x, hx, rfl⟩ := List.mem_map.1 hq
    split <;> exact h'.2.2.2.2 x hx
  | _ => exact h

theorem unpoison_memoryOk {s : State} (h : s.memoryOk = true) (sp : Space) (a n : Nat) :
    (unpoison s sp a n).memoryOk = true := by
  unfold unpoison; split
  · exact h
  · exact setPoison_memoryOk h _ _

theorem memOf_wf {s : State} (h : s.memoryOk = true) (sp : Space) : (memOf s sp).wf = true := by
  have h' := (State.memoryOk_iff s).1 h
  cases sp with
  | dev => exact h'.1
  | alt => exact h'.2.1
  | host => exact h'.2.2.1
  | core c => exact State.core_mem_wf h c
  | peer p =>
    unfold memOf
    match e : s.fab.peers.find? fun x => x.id == p with
    | some x => simpa [e] using h'.2.2.2.2 x (List.mem_of_find?_eq_some e)
    | none => simp [e, Memory.wf]

theorem setMem_memoryOk {s : State} (h : s.memoryOk = true) (sp : Space) {m : Memory} (hm : m.wf = true) :
    (setMem s sp m).memoryOk = true := by
  have h' := (State.memoryOk_iff s).1 h
  cases sp with
  | dev => exact (State.memoryOk_iff _).2 ⟨hm, h'.2.1, h'.2.2.1, h'.2.2.2.1, h'.2.2.2.2⟩
  | alt => exact (State.memoryOk_iff _).2 ⟨h'.1, hm, h'.2.2.1, h'.2.2.2.1, h'.2.2.2.2⟩
  | host => exact (State.memoryOk_iff _).2 ⟨h'.1, h'.2.1, hm, h'.2.2.2.1, h'.2.2.2.2⟩
  | core c => exact State.memoryOk_setCore h c hm
  | peer p =>
    refine (State.memoryOk_iff _).2 ⟨h'.1, h'.2.1, h'.2.2.1, h'.2.2.2.1, ?_⟩
    intro q hq
    obtain ⟨x, hx, rfl⟩ := List.mem_map.1 hq
    split
    · exact hm
    · exact h'.2.2.2.2 x hx

theorem keepPast_memoryOk {s : State} (h : s.memoryOk = true) (sp : Space) (key : KeyMat) (line n : Nat) :
    (keepPast s sp key line n).memoryOk = true := by
  induction n generalizing s line with
  | zero => exact h
  | succ n ih => exact ih (by exact h) _

/-- A raw write of any space keeps every memory's canonical form. -/
theorem writeNum_memoryOk {s : State} (h : s.memoryOk = true) (sp : Space) (key : KeyMat) (a v n : Nat) :
    (writeNum s sp key a v n).memoryOk = true := by
  unfold writeNum; extract_lets s0 s1
  replace h : s0.memoryOk = true := by
    unfold s0; split <;> [exact h; exact keepPast_memoryOk h _ _ _ _]
  have h1 : s1.memoryOk = true := unpoison_memoryOk (setMem_memoryOk h sp (putNum_wf (rekey_wf (memOf_wf h sp) key a n) a v n)) sp a n
  clear_value s1
  cases sp
  case core c => exact State.memoryOk_setCore_mem h1 c (Core.touch_mem ..)
  all_goals exact h1

theorem rawWrite_memoryOk {s : State} (h : s.memoryOk = true) (l : Loc) (v n : Nat) : (rawWrite s l v n).memoryOk = true :=
  writeNum_memoryOk h _ _ _ _ _

theorem foldl_memoryOk {α : Type} {f : State → α → State} (hf : ∀ s a, s.memoryOk = true → (f s a).memoryOk = true)
    (l : List α) {s : State} (h : s.memoryOk = true) : (l.foldl f s).memoryOk = true := by
  induction l generalizing s with
  | nil => exact h
  | cons a r ih => exact ih (hf s a h)

theorem State.memoryOk_setFaults {s : State} (h : s.memoryOk = true) (f : Faults) : (s.setFaults f).memoryOk = true := h

theorem State.memoryOk_setPts {s : State} (h : s.memoryOk = true) (w : Who) (p : Nat) : (s.setPts w p).memoryOk = true := by
  unfold State.setPts; split <;> exact h

theorem State.memoryOk_raise {s : State} (h : s.memoryOk = true) (w : Who) (p : Nat) : (s.raise w p).memoryOk = true :=
  State.memoryOk_setPts h _ _

theorem setPlacePts_memoryOk {s : State} (h : s.memoryOk = true) (die : Nat) (l : Loc) (cached : Bool) (p : Nat) :
    (setPlacePts s die l cached p).memoryOk = true := by
  unfold setPlacePts
  extract_lets s1 _ s2
  have h1 : s1.memoryOk = true := by
    unfold s1; split
    · exact State.memoryOk_setCore_mem h _ rfl
    · exact h
  have h2 : s2.memoryOk = true := by
    unfold s2; split <;> exact h1
  split
  · exact h2
  · split <;> exact h2

theorem follow_memoryOk {s : State} (h : s.memoryOk = true) (w : Who) (l : Loc) (cached : Bool) :
    (follow s w l cached).memoryOk = true := State.memoryOk_raise h _ _

theorem precede_memoryOk {s : State} (h : s.memoryOk = true) (w : Who) (l : Loc) (cached : Bool) :
    (precede s w l cached).memoryOk = true := setPlacePts_memoryOk h _ _ _ _

theorem poisonRange_memoryOk {s : State} (h : s.memoryOk = true) (sp : Space) (a n : Nat) :
    (poisonRange s sp a n).memoryOk = true := setPoison_memoryOk h _ _

/-! ### Writes on their way to the host, and the slices -/

theorem keepEarlier_memoryOk {s : State} (h : s.memoryOk = true) (e : Option Nat) (l : Loc) :
    (keepEarlier s e l).memoryOk = true := by
  unfold keepEarlier; split
  · exact h
  · exact State.memoryOk_pick h

theorem forgetEarlier_memoryOk {s : State} (h : s.memoryOk = true) (die : Nat) (l : Loc) :
    (forgetEarlier s die l).memoryOk = true := h

theorem deliverPost_memoryOk {s : State} (h : s.memoryOk = true) (x : Posted) : (deliverPost s x).memoryOk = true := by
  unfold deliverPost
  extract_lets s1 _ s2
  have h2 : s2.memoryOk = true := by
    refine foldl_memoryOk (fun s i hs => ?_) _ (keepEarlier_memoryOk h _ _)
    extract_lets at' m v s3
    have h3 : s3.memoryOk = true := by
      unfold s3; split
      · exact hs
      · split
        · exact rawWrite_memoryOk hs _ _ _
        · refine foldl_memoryOk (fun s j hj => ?_) _ hs
          split
          · exact rawWrite_memoryOk hj _ _ _
          · exact hj
    split
    · exact poisonRange_memoryOk h3 _ _ _
    · exact h3
  exact h2

theorem deliverBefore_memoryOk (x : Posted) (kept : List Posted) {s : State} (h : s.memoryOk = true) :
    (deliverBefore x kept s).memoryOk = true := by
  refine foldl_memoryOk (fun s y hs => ?_) _ h
  split
  · extract_lets c
    split <;> [exact deliverPost_memoryOk (State.memoryOk_pick hs) y; exact State.memoryOk_pick hs]
  · exact deliverPost_memoryOk hs y

theorem settlePosts_memoryOk (sel : Posted → Option Bool) (l kept : List Posted) {s : State} (h : s.memoryOk = true) :
    (settlePosts sel kept l s).2.memoryOk = true := by
  induction l generalizing s kept with
  | nil => exact h
  | cons x r ih =>
    unfold settlePosts; extract_lets done c; split
    · exact ih _ h
    · split
      · exact ih _ (deliverPost_memoryOk (deliverBefore_memoryOk x _ h) x)
      · split
        · exact ih _ (deliverPost_memoryOk (deliverBefore_memoryOk x _ (State.memoryOk_pick h)) x)
        · exact ih _ (State.memoryOk_pick h)

theorem settle_memoryOk {s : State} (h : s.memoryOk = true) (sel : Posted → Option Bool) : (settle sel s).memoryOk = true := by
  unfold settle; split
  · exact h
  · exact settlePosts_memoryOk sel _ _ h

theorem touchHost_memoryOk {s : State} (h : s.memoryOk = true) (l : Loc) : (touchHost s l).memoryOk = true :=
  settle_memoryOk h _

theorem settleDevice_memoryOk {s : State} (h : s.memoryOk = true) (t : Option Nat) (l : Loc) :
    (settleDevice s t l).memoryOk = true := by
  unfold settleDevice; split
  · split <;> [exact settle_memoryOk h _; exact h]
  · exact h

theorem hostTouch_memoryOk {s : State} (h : s.memoryOk = true) (l : Loc) : (hostTouch s l).memoryOk = true :=
  settle_memoryOk h _

theorem ncSend_memoryOk {s : State} (h : s.memoryOk = true) (x : NcLine) (ts : List Nat) : (ncSend s x ts).memoryOk = true := by
  unfold ncSend; split <;> exact h

theorem ncDrop_memoryOk {s : State} (h : s.memoryOk = true) (die : Nat) (l : Loc) : (ncDrop s die l).memoryOk = true := by
  unfold ncDrop; extract_lets s1; split
  · exact h
  · exact ncSend_memoryOk (s := s1) h _ _

theorem makeRoom_memoryOk {s : State} (h : s.memoryOk = true) (die va : Nat) : (makeRoom s die va).memoryOk = true := by
  unfold makeRoom; split
  · exact h
  · extract_lets n cs ns p i s1; split
    · exact h
    · have hp : s1.memoryOk = true := State.memoryOk_pick h
      split
      · exact hp
      · exact ncDrop_memoryOk hp _ _
      · exact hp

theorem ncBring_memoryOk {s : State} (h : s.memoryOk = true) (w : Who) (va : Nat) (l : Loc) :
    (ncBring s w va l).2.memoryOk = true := by
  unfold ncBring
  extract_lets die s1 s2 v now c r
  have h2 : s2.memoryOk = true := settle_memoryOk (makeRoom_memoryOk h _ _) _
  have hr : r.2.memoryOk = true := by
    unfold r; split
    · exact h2
    · exact State.memoryOk_pick h2
  exact hr

theorem ncFetch_memoryOk {s : State} (h : s.memoryOk = true) (w : Who) (va : Nat) (l : Loc) :
    (ncFetch s w va l).2.memoryOk = true := by
  unfold ncFetch
  extract_lets die tag c s1
  have hc : c.2.memoryOk = true := State.memoryOk_pick h
  have h1 : s1.memoryOk = true := makeRoom_memoryOk hc _ _
  clear_value s1 c
  split
  · exact ncBring_memoryOk h _ _ _
  · split
    · exact ncBring_memoryOk (s := ncRemove _ _ _) (ncSend_memoryOk hc _ _) _ _ _
    · split
      · exact hc
      · split
        · exact h1
        · exact ncBring_memoryOk h1 _ _ _

/-! ### Homes -/

theorem splitRegion_memoryOk {s : State} (h : s.memoryOk = true) (key : Nat) : (splitRegion s key).memoryOk = true := by
  unfold splitRegion
  extract_lets; split
  · exact h
  · split <;> exact h

theorem recallOwner_memoryOk {s : State} (h : s.memoryOk = true) (key : Nat) (e : Option Nat) :
    (recallOwner s key e).memoryOk = true := by
  unfold recallOwner; split
  · exact h
  · split
    · exact h
    · extract_lets _ s1 k; split
      · exact h
      · extract_lets s2 r len wts rts clean s3
        have h2 : s2.memoryOk = true := by unfold s2; split <;> [exact splitRegion_memoryOk (s := s1) h _; exact h]
        exact State.memoryOk_setCore (s := s3) h2 _ (State.core_mem_wf (s := s1) h _)

theorem keepOld_memoryOk {s : State} (h : s.memoryOk = true) (key : Nat) (l : Loc) (wts rts : Nat) :
    (keepOld s key l wts rts).memoryOk = true := h

theorem stampRead_memoryOk {s : State} (h : s.memoryOk = true) (w : Who) (l : Loc) (len : Nat) :
    (stampRead s w l len).2.memoryOk = true := by
  unfold stampRead; split
  · exact h
  · exact State.memoryOk_setPts (s := putRegion _ _) (recallOwner_memoryOk h _ _) _ _

theorem stampWrite_memoryOk {s : State} (h : s.memoryOk = true) (pts : Nat) (l : Loc) (owner : Option Nat) :
    (stampWrite s pts l owner).2.memoryOk = true := by
  unfold stampWrite; split
  · exact h
  · exact splitRegion_memoryOk (recallOwner_memoryOk h _ _) _

theorem hubWrite_memoryOk {s : State} (h : s.memoryOk = true) (a v n : Nat) : (hubWrite s a v n).memoryOk = true := by
  unfold hubWrite; extract_lets l r s1
  exact writeNum_memoryOk (s := { s1 with msys := { s1.msys with agent := r.1 } }) (stampWrite_memoryOk h _ _ _) _ _ _ _ _

theorem errorLog_memoryOk {s : State} (h : s.memoryOk = true) (die type peer launch addr : Nat) :
    (errorLog s die type peer launch addr).memoryOk = true := by
  unfold errorLog; extract_lets; split
  · exact h
  · exact State.memoryOk_setFaults (hubWrite_memoryOk h _ _ _) _

theorem notePeer_memoryOk {s : State} (h : s.memoryOk = true) (t : Option Nat) (l : Loc) :
    (notePeer s t l).memoryOk = true := by
  unfold notePeer; split
  · split <;> exact h
  · split <;> exact h
  · exact h

/-! ### Folds -/

theorem performFold_memoryOk {s : State} (h : s.memoryOk = true) (f : Fold) : (performFold s f).memoryOk = true := by
  unfold performFold
  extract_lets n die first s1 r s2 x s3
  have h1 : s1.memoryOk = true := by
    unfold s1; split
    · exact touchHost_memoryOk (settle_memoryOk (ncDrop_memoryOk h _ _) _) _
    · split
      · exact touchHost_memoryOk h _
      · exact h
  have h2 : s2.memoryOk = true := setPlacePts_memoryOk (keepEarlier_memoryOk (stampWrite_memoryOk h1 _ _ _) _ _) _ _ _ _
  have h3 : s3.memoryOk = true := by
    unfold s3; split <;> exact h2
  refine foldl_memoryOk (fun s o hs => ?_) _ h3
  extract_lets l; split
  · exact errorLog_memoryOk hs _ _ _ _ _
  · exact rawWrite_memoryOk hs _ _ _

theorem placeFold_memoryOk {s : State} (h : s.memoryOk = true) (f : Fold) : (placeFold s f).memoryOk = true := by
  unfold placeFold; split
  · split
    · exact performFold_memoryOk h f
    · exact h
    · exact errorLog_memoryOk h _ _ _ _ _
  · split
    · exact performFold_memoryOk h f
    · exact h
  · exact performFold_memoryOk h f

theorem placeCore_memoryOk {s : State} (h : s.memoryOk = true) (c : Nat) (p : Fold → Bool) :
    (placeCore s c p).memoryOk = true := by
  unfold placeCore; extract_lets; split
  · exact foldl_memoryOk (fun s f hs => placeFold_memoryOk hs f) _ (State.memoryOk_setCore_mem h c rfl)
  · exact h

theorem placeFolds_memoryOk {s : State} (h : s.memoryOk = true) (t scope : Nat) : (placeFolds s t scope).memoryOk = true :=
  placeCore_memoryOk h _ _

theorem placeOwn_memoryOk {s : State} (h : s.memoryOk = true) (t : Option Nat) (l : Loc) : (placeOwn s t l).memoryOk = true := by
  unfold placeOwn; split
  · exact h
  · exact placeCore_memoryOk h _ _

theorem arriveFolds_memoryOk (hit : Fold → Bool) (mine : Option Nat) (fs : List Fold) {s : State} (h : s.memoryOk = true) :
    (arriveFolds hit mine fs s).2.memoryOk = true := by
  induction fs generalizing s with
  | nil => exact h
  | cons f r ih =>
    unfold arriveFolds; extract_lets; split
    · exact ih (State.memoryOk_pick h)
    · exact ih h

/-- A home pulls the folds of a line; `e` is any core's record of an earlier state. -/
theorem pullCore_memoryOk {s : State} (h : s.memoryOk = true) (l : Loc) (mine : Option Nat) {e : Nat × Core}
    (he : e.2.mem.wf = true) : (pullCore l mine s e).memoryOk = true := by
  unfold pullCore; extract_lets hit q _ s1; split
  · have h1 : s1.memoryOk = true := State.memoryOk_setCore (arriveFolds_memoryOk hit mine _ h) e.1 he
    exact placeCore_memoryOk h1 _ _
  · exact h

theorem foldl_pullCore_memoryOk (l : Loc) (mine : Option Nat) (cs : NMap Core) (hc : ∀ e ∈ cs, e.2.mem.wf = true)
    {s : State} (h : s.memoryOk = true) : (cs.foldl (pullCore l mine) s).memoryOk = true := by
  induction cs generalizing s with
  | nil => exact h
  | cons e r ih =>
    exact ih (fun x hx => hc x (List.mem_cons_of_mem _ hx)) (pullCore_memoryOk h l mine (hc e List.mem_cons_self))

theorem pullFolds_memoryOk {s : State} (h : s.memoryOk = true) (l : Loc) (mine : Option Nat) :
    (pullFolds s l mine).memoryOk = true := by
  unfold pullFolds; split
  · exact foldl_pullCore_memoryOk l mine _ ((State.memoryOk_iff s).1 h).2.2.2.1 h
  · exact h

theorem pullHeld_memoryOk {s : State} (h : s.memoryOk = true) (l : Loc) : (pullHeld s l).memoryOk = true := by
  unfold pullHeld; extract_lets hit; split
  · exact foldl_memoryOk (fun s f hs => performFold_memoryOk hs f) _
      (s := { s with fab := { s.fab with heldFolds := s.fab.heldFolds.filter fun f => !hit f } }) h
  · exact h

theorem devTouch_memoryOk {s : State} (h : s.memoryOk = true) (l : Loc) : (devTouch s l).memoryOk = true := by
  unfold devTouch; split
  · exact touchHost_memoryOk (pullHeld_memoryOk h l) l
  · exact h

theorem homeRead_memoryOk {s : State} (h : s.memoryOk = true) (w : Who) (l : Loc) (len : Nat) :
    (homeRead s w l len).2.memoryOk = true :=
  stampRead_memoryOk (pullFolds_memoryOk (devTouch_memoryOk h l) l w.ts) w l len

theorem landWrite_memoryOk {s : State} (h : s.memoryOk = true) (w : Who) (l : Loc) (v n : Nat) :
    (landWrite s w l v n).memoryOk = true := by
  unfold landWrite; extract_lets s1
  have h1 : s1.memoryOk = true := by
    unfold s1; split
    · exact h
    · exact rawWrite_memoryOk (keepEarlier_memoryOk h _ _) _ _ _
  exact notePeer_memoryOk h1 _ _

theorem homeWrite_memoryOk {s : State} (h : s.memoryOk = true) (w : Who) (l : Loc) (v n : Nat) (owner : Option Nat) :
    (homeWrite s w l v n owner).2.memoryOk = true :=
  landWrite_memoryOk
    (State.memoryOk_setPts (stampWrite_memoryOk (pullFolds_memoryOk (devTouch_memoryOk h l) l none) _ l owner) _ _) _ _ _ _

/-- A read at its home or at an earlier place keeps what the read at the home keeps. -/
theorem orOld_memoryOk {s : State} (h : s.memoryOk = true) (w : Who) (l : Loc) (life : Nat) {home : State → LineVal × State}
    (hh : ∀ s : State, s.memoryOk = true → (home s).2.memoryOk = true) : (orOld w l life home s).2.memoryOk = true := by
  unfold orOld; split
  · exact hh _ h
  · extract_lets c; split
    · exact State.memoryOk_raise (State.memoryOk_pick h) _ _
    · exact hh _ (State.memoryOk_pick h)

/-! ### Slices and stashes -/

theorem sliceRead_memoryOk {s : State} (h : s.memoryOk = true) (w : Who) (va : Nat) (l : Loc) (long : Bool) :
    (sliceRead s w va l long).2.memoryOk = true := by
  unfold sliceRead
  extract_lets s1 len renew
  have h1 : s1.memoryOk = true := placeOwn_memoryOk h _ _
  have hr : ∀ s : State, s.memoryOk = true → (renew s).2.memoryOk = true := fun s hs =>
    makeRoom_memoryOk (homeRead_memoryOk hs _ _ _) _ _
  clear_value renew
  split
  · split
    · exact State.memoryOk_raise h1 _ _
    · exact orOld_memoryOk h1 _ _ _ hr
  · exact orOld_memoryOk h1 _ _ _ hr

theorem sliceUpdate_memoryOk {s : State} (h : s.memoryOk = true) (w : Who) (va : Nat) (l : Loc) (wts : Nat) :
    (sliceUpdate s w va l wts).memoryOk = true := by
  unfold sliceUpdate; split
  · exact h
  · split
    · exact h
    · split <;> exact h

theorem putSlot_wf {k : Core} (h : k.mem.wf = true) (off : Nat) (v : LineVal) : (putSlot k off v).mem.wf = true := by
  unfold putSlot
  generalize 64 = n
  rw [Core.touch_mem]
  exact putNum_wf h off v.data n

@[simp] theorem putStash_mem (k : Core) (x : StashLine) : (putStash k x).mem = k.mem := rfl

theorem disown_memoryOk {s : State} (h : s.memoryOk = true) (c va : Nat) (l : Loc) : (disown s c va l).memoryOk = true := by
  unfold disown; split
  · split
    · exact h
    · split <;> [exact recallOwner_memoryOk h _ _; exact h]
  · exact h

theorem fillStash_memoryOk {s : State} (h : s.memoryOk = true) (w : Who) (va : Nat) (l : Loc) (long : Bool) :
    (fillStash s w va l long).memoryOk = true := by
  unfold fillStash; split
  · exact h
  · extract_lets len r s1 k
    have h1 : s1.memoryOk = true := homeRead_memoryOk (disown_memoryOk h _ _ _) _ _ _
    refine State.memoryOk_setCore h1 _ ?_
    rw [putStash_mem]
    exact putSlot_wf (State.core_mem_wf h1 _) _ _

theorem ownerRead_memoryOk {s : State} (h : s.memoryOk = true) (w : Who) (x : StashLine) : (ownerRead s w x).memoryOk = true := by
  unfold ownerRead; extract_lets s1
  have h1 : s1.memoryOk = true := State.memoryOk_raise h _ _
  split <;> [exact State.memoryOk_setCore_mem h1 _ (putStash_mem _ _); exact h1]

theorem stashRead_memoryOk {s : State} (h : s.memoryOk = true) (w : Who) (va : Nat) (l : Loc) (long : Bool) :
    (stashRead s w va l long).2.memoryOk = true := by
  unfold stashRead
  extract_lets s1 fill old
  have h1 : s1.memoryOk = true := placeOwn_memoryOk h _ _
  have hf : ∀ s : State, s.memoryOk = true → (old s).2.memoryOk = true := fun s hs =>
    orOld_memoryOk hs _ _ _ fun t ht => fillStash_memoryOk ht _ _ _ _
  clear_value old
  split
  · split
    · exact ownerRead_memoryOk h1 _ _
    · exact hf _ h1
  · exact hf _ h1

theorem ownerWrite_memoryOk {s : State} (h : s.memoryOk = true) (w : Who) (x : StashLine) (l : Loc) (v n : Nat) :
    (ownerWrite s w x l v n).2.memoryOk = true := by
  unfold ownerWrite; extract_lets t s1
  have h1 : s1.memoryOk = true := by unfold s1; split <;> exact h
  exact notePeer_memoryOk (rawWrite_memoryOk (keepEarlier_memoryOk (State.memoryOk_setPts h1 _ _) _ _) _ _ _) _ _

theorem stashWrite_memoryOk {s : State} (h : s.memoryOk = true) (w : Who) (va : Nat) (l : Loc) (v n : Nat) (long : Bool) :
    (stashWrite s w va l v n long).memoryOk = true := by
  unfold stashWrite
  extract_lets r s1
  have h1 : s1.memoryOk = true := by
    unfold s1 r; split
    · exact ownerWrite_memoryOk h _ _ _ _ _
    · exact homeWrite_memoryOk (fillStash_memoryOk h _ _ _ _) _ _ _ _ _
  clear_value s1 r
  split
  · extract_lets s2 s3
    have h2 : s2.memoryOk = true := writeNum_memoryOk h1 _ _ _ _ _
    have h3 : s3.memoryOk = true := State.memoryOk_setCore_mem h2 _ (putStash_mem _ _)
    exact State.memoryOk_congr h3 rfl rfl rfl rfl rfl
  · exact h1

theorem ncMirror_memoryOk {s : State} (h : s.memoryOk = true) (w : Who) (va : Nat) (x : NcLine) (unc : Bool) :
    (ncMirror s w va x unc).memoryOk = true := by
  unfold ncMirror; split
  · exact h
  · split
    · exact h
    · extract_lets k
      refine State.memoryOk_setCore h _ ?_
      rw [putStash_mem]
      exact putSlot_wf (State.core_mem_wf h _) _ _

/-! ### Events and accesses -/

theorem ncSet_memoryOk {s : State} (h : s.memoryOk = true) (x : NcLine) : (ncSet s x).memoryOk = true := h

theorem readEvent_memoryOk {s : State} (h : s.memoryOk = true) (w : Who) (hint : Hint) (p : Piece) :
    (readEvent w hint p s).2.memoryOk = true := by
  unfold readEvent
  extract_lets unc l o cached s1 x s2 y z home u r
  have h1 : s1.memoryOk = true := follow_memoryOk (settleDevice_memoryOk h _ _) _ _ _
  have hh : ∀ s : State, s.memoryOk = true → (home s).2.memoryOk = true := fun s hs => homeRead_memoryOk hs _ _ _
  refine precede_memoryOk ?_ _ _ _
  clear_value home
  unfold r; split
  · exact h1
  · split
    · exact ncMirror_memoryOk (ncSet_memoryOk (ncFetch_memoryOk (placeOwn_memoryOk h1 _ _) _ _ _) _) _ _ _ _
    · split
      · exact stashRead_memoryOk h1 _ _ _ _
      · split
        · exact sliceRead_memoryOk h1 _ _ _ _
        · exact orOld_memoryOk (placeOwn_memoryOk h1 _ _) _ _ _ hh

theorem writeEvent_memoryOk {s : State} (h : s.memoryOk = true) (w : Who) (hint : Hint) (p : Piece) (v : Nat) :
    (writeEvent w hint p v s).memoryOk = true := by
  unfold writeEvent
  extract_lets unc l cached sent s1 x y _ x' r s2
  have h1 : s1.memoryOk = true :=
    follow_memoryOk (by split <;> [exact h; exact settleDevice_memoryOk h _ _]) _ _ _
  refine precede_memoryOk ?_ _ _ _
  unfold s2; split
  · exact rawWrite_memoryOk h1 _ _ _
  · split
    · exact ncMirror_memoryOk (ncSet_memoryOk (ncFetch_memoryOk h1 _ _ _) _) _ _ _ _
    · split
      · split
        · exact notePeer_memoryOk (s := postWrite s1 _ _ _ _ _) h1 _ _
        · exact rawWrite_memoryOk (keepEarlier_memoryOk (devTouch_memoryOk h1 _) _ _) _ _ _
      · split
        · exact stashWrite_memoryOk h1 _ _ _ _ _ _
        · split
          · exact sliceUpdate_memoryOk (homeWrite_memoryOk h1 _ _ _ _ _) _ _ _ _
          · exact homeWrite_memoryOk h1 _ _ _ _ _

theorem rmwEvent_memoryOk {s : State} (h : s.memoryOk = true) (w : Who) (p : Piece) (f : Nat → Option Nat) :
    (rmwEvent w p f s).2.memoryOk = true := by
  unfold rmwEvent
  extract_lets l s1 old s2 s3 old' w' r
  have h1 : s1.memoryOk = true := follow_memoryOk (settleDevice_memoryOk h _ _) _ _ _
  refine precede_memoryOk ?_ _ _ _
  unfold r; split
  · dsimp only
    split
    · exact rawWrite_memoryOk h1 _ _ _
    · exact h1
  · have h2 : s2.memoryOk = true := by
      unfold s2; split
      · exact settle_memoryOk (ncDrop_memoryOk h1 _ _) _
      · exact h1
    have h3 : s3.memoryOk = true := pullFolds_memoryOk (devTouch_memoryOk h2 _) _ _
    split
    · exact notePeer_memoryOk (rawWrite_memoryOk (keepEarlier_memoryOk
        (State.memoryOk_setPts (stampWrite_memoryOk h3 _ _ _) _ _) _ _) _ _ _) _ _
    · exact notePeer_memoryOk (stampRead_memoryOk h3 _ _ _) _ _

/-! ### Checks change at most what the walkers hold -/

/-- The invariant as a property of states. -/
def MemOk (s : State) : Prop := s.memoryOk = true

theorem readEntry_keeps (asid level va addr n : Nat) : Op.Keeps MemOk (readEntry asid level va addr n) := by
  intro s h a s' e
  unfold readEntry at e
  extract_lets held rest l s1 fresh rd c at e
  have h1 : MemOk s1 := by
    refine pullFolds_memoryOk ?_ _ _
    split
    · exact recallOwner_memoryOk h _ _
    · exact h
  have hp : MemOk c.2 := State.memoryOk_pick h1
  clear_value fresh c s1 rest held
  have hrd : ∀ t r, MemOk t → rd t = .ok r → MemOk r.2 := by
    intro t r ht hr
    unfold rd at hr
    cases hr
    exact ht
  clear_value rd
  cases held
  · exact hrd _ _ h1 e
  · dsimp only at e
    split at e
    · cases e; exact h
    · split at e
      · cases e; exact hp
      · exact hrd _ _ hp e

theorem walkFrom_keeps (asid va : Nat) (info : Word) (write : Bool) (fuel level table : Nat) :
    Op.Keeps MemOk (walkFrom asid va info write fuel level table) := by
  induction fuel generalizing level table with
  | zero => exact Op.keeps_fail _
  | succ n ih =>
    unfold walkFrom
    extract_lets
    refine Op.keeps_bind (readEntry_keeps _ _ _ _ _) fun e => ?_
    extract_lets
    refine Op.keeps_bind (Op.keeps_need _ _) fun _ => Op.keeps_bind (Op.keeps_need _ _) fun _ =>
      Op.keeps_bind (Op.keeps_need _ _) fun _ => ?_
    split
    · exact Op.keeps_pure _
    · exact ih _ _

theorem fabricLoc_keeps (w : Who) (leaf : Word) (sh low va n : Nat) (allowed : Bool) (k : Kind) :
    Op.Keeps MemOk (fabricLoc w leaf sh low va n allowed k) := by
  unfold fabricLoc
  extract_lets
  refine Op.keeps_bind (Op.keeps_ask _) fun base => ?_
  split
  · exact Op.keeps_fail _
  · refine Op.keeps_bind (readEntry_keeps _ _ _ _ _) fun r0 => ?_
    extract_lets
    split
    · exact Op.keeps_fail _
    · refine Op.keeps_bind (Op.keeps_need _ _) fun _ => Op.keeps_bind (Op.keeps_need _ _) fun _ =>
        Op.keeps_bind (Op.keeps_ask _) fun s => ?_
      split
      · exact Op.keeps_fail _
      · split
        · exact Op.keeps_fail _
        · extract_lets
          split
          · exact Op.keeps_pure _
          · split <;> [exact Op.keeps_pure _; exact Op.keeps_stop _]
          · split <;> [exact Op.keeps_fail _; exact Op.keeps_pure _]

theorem translateFrom_keeps (w : Who) (k : Kind) (first va n : Nat) : Op.Keeps MemOk (translateFrom w k first va n) := by
  unfold translateFrom
  refine Op.keeps_bind (walkFrom_keeps _ _ _ _ _ _ _) fun r => ?_
  extract_lets
  refine Op.keeps_bind (Op.keeps_ask _) fun s => ?_
  extract_lets
  split
  · exact Op.keeps_bind (fabricLoc_keeps _ _ _ _ _ _ _ _) fun _ => Op.keeps_pure _
  · exact Op.keeps_bind (Op.keeps_need _ _) fun _ => Op.keeps_pure _

theorem translate_keeps (w : Who) (k : Kind) (va n : Nat) : Op.Keeps MemOk (translate w k va n) :=
  Op.keeps_bind (translateFrom_keeps _ _ _ _ _) fun _ => Op.keeps_pure _

theorem checkAccess_keeps (w : Who) (k : Kind) (addr : Word) (n : Nat) : Op.Keeps MemOk (checkAccess w k addr n) := by
  unfold checkAccess
  extract_lets
  split
  · exact Op.keeps_pure _
  · split
    · exact Op.keeps_fail _
    · split
      · refine Op.keeps_bind (Op.keeps_ask _) fun c => ?_
        split
        · exact Op.keeps_fail _
        · split
          · exact Op.keeps_fail _
          · exact Op.keeps_pure _
      · split
        · refine Op.keeps_mapM (fun p => Op.keeps_bind (translateFrom_keeps _ _ _ _ _) fun _ => ?_) _
          extract_lets
          exact Op.keeps_bind (Op.keeps_ask _) fun _ => Op.keeps_bind (Op.keeps_need _ _) fun _ => Op.keeps_pure _
        · exact Op.keeps_fail _

theorem reach_keeps {P : State → Prop} (w : Who) (unc atomic write : Bool) (p : Piece) (low : Nat) :
    Op.Keeps P (reach w unc atomic write p low) := by
  intro s h a s' e
  unfold reach at e
  split at e
  · cases e
  · split at e
    · extract_lets here at e
      clear_value here
      split at e
      · cases e; exact h
      · cases here <;> simp at e
        exact e.2 ▸ h
      · cases e; exact h
    · cases e; exact h

theorem readOne_keeps (w : Who) (hint : Hint) (e : Ev) : Op.Keeps MemOk (readOne w hint e) := by
  unfold readOne
  refine Op.keeps_bind (reach_keeps _ _ _ _ _ _) fun _ => Op.keeps_bind (Op.keeps_need _ _) fun _ => Op.keeps_bind ?_ fun _ =>
    Op.keeps_bind (Op.keeps_need _ _) fun _ => Op.keeps_pure _
  intro s h a s' h'
  have := readEvent_memoryOk h w hint e.piece
  cases h'; exact this

theorem writeOne_keeps (w : Who) (hint : Hint) (v : Nat) (e : Ev) : Op.Keeps MemOk (writeOne w hint v e) := by
  unfold writeOne
  refine Op.keeps_bind (reach_keeps _ _ _ _ _ _) fun c => ?_
  split
  · exact Op.keeps_bind (Op.keeps_upd fun _ h => writeEvent_memoryOk h _ _ _ _) fun _ => Op.keeps_pure _
  · exact Op.keeps_pure _

theorem runEvents_keeps {P : State → Prop} {one : Ev → Op Nat} (h : ∀ e, Op.Keeps P (one e)) (l : List Ev) (got : NMap Nat) :
    Op.Keeps P (runEvents one l got) := by
  induction l generalizing got with
  | nil => exact Op.keeps_pure _
  | cons e r ih => exact Op.keeps_bind (h e) fun v => ih _

theorem runNamed_keeps {P : State → Prop} {one : Ev → Op Nat} (h : ∀ e, Op.Keeps P (one e)) (es todo : List Ev) (got : NMap Nat) :
    Op.Keeps P (runNamed one es todo got) := by
  intro s hs a s' e
  unfold runNamed at e
  split at e
  · cases e
  · exact runEvents_keeps h es got s hs a s' e

/-- An access keeps what its check, its events and its end keep. -/
theorem accessOp_keeps {P : State → Prop} {i : Instr} {check : Op (List Ev)} {one : Ev → Op Nat} {fin : NMap Nat → State → State}
    (hc : Op.Keeps P check) (ho : ∀ e, Op.Keeps P (one e)) (hf : ∀ got s, P s → P (fin got s))
    (hm : ∀ s t, P s → P (s.setMe t)) : Op.Keeps P (accessOp i check one fin) := by
  unfold accessOp
  refine Op.keeps_bind (Op.keeps_ask _) fun s => ?_
  extract_lets rest
  have hr : ∀ p : Part, Op.Keeps P (rest p) := by
    intro p
    refine Op.keeps_bind (runNamed_keeps ho _ _ _) fun got => ?_
    extract_lets left
    refine Op.keeps_upd fun t ht => ?_
    split
    · exact hf _ _ (hm _ _ ht)
    · exact hm _ _ ht
  split
  · exact Op.keeps_bind (Op.keeps_pure _) hr
  · exact Op.keeps_bind hc fun _ => Op.keeps_bind (Op.keeps_pure _) hr

theorem loadOp_keeps (i : Instr) (vec : Bool) (hint : Hint) (addr : Word) (n : Nat) {fin : Nat → State → State}
    (hf : ∀ v s, MemOk s → MemOk (fin v s)) : Op.Keeps MemOk (loadOp i vec hint addr n fin) :=
  Op.keeps_bind (Op.keeps_ask _) fun _ => accessOp_keeps
    (Op.keeps_bind (checkAccess_keeps _ _ _ _) fun _ => Op.keeps_pure _) (readOne_keeps _ _) (fun _ _ => hf _ _) fun _ _ h => h

theorem storeOp_keeps (i : Instr) (vec : Bool) (hint : Hint) (addr : Word) (n v : Nat) {fin : State → State}
    (hf : ∀ s, MemOk s → MemOk (fin s)) : Op.Keeps MemOk (storeOp i vec hint addr n v fin) :=
  Op.keeps_bind (Op.keeps_ask _) fun _ => accessOp_keeps
    (Op.keeps_bind (checkAccess_keeps _ _ _ _) fun _ => Op.keeps_pure _) (fun _ => writeOne_keeps _ _ _ _) (fun _ => hf)
    fun _ _ h => h

theorem readAll_keeps (w : Who) (hint : Hint) (ps : List Piece) : Op.Keeps MemOk (readAll w hint ps) :=
  Op.keeps_bind (runEvents_keeps (readOne_keeps w hint) _ _) fun _ => Op.keeps_pure _

theorem writeAll_keeps (w : Who) (hint : Hint) (ps : List Piece) (v : Nat) : Op.Keeps MemOk (writeAll w hint ps v) :=
  Op.keeps_bind (runEvents_keeps (fun _ => writeOne_keeps w hint _ _) _ _) fun _ => Op.keeps_pure _

theorem memRead_keeps (w : Who) (hint : Hint) (addr : Word) (n : Nat) : Op.Keeps MemOk (memRead w hint addr n) :=
  Op.keeps_bind (checkAccess_keeps _ _ _ _) fun ps => readAll_keeps w hint ps

theorem memWrite_keeps (w : Who) (hint : Hint) (addr : Word) (n v : Nat) : Op.Keeps MemOk (memWrite w hint addr n v) :=
  Op.keeps_bind (checkAccess_keeps _ _ _ _) fun ps => writeAll_keeps w hint ps v

theorem needClean_keeps {P : State → Prop} (w : Who) (ps : List Piece) : Op.Keeps P (needClean w ps) := by
  intro s h a s' e
  unfold needClean at e
  split at e <;> cases e
  exact h

theorem rmw_keeps (w : Who) (ps : List Piece) (f : Nat → Option Nat) : Op.Keeps MemOk (rmw w ps f) := by
  unfold rmw; split
  · refine Op.keeps_bind (reach_keeps _ _ _ _ _ _) fun _ => Op.keeps_bind (Op.keeps_need _ _) fun _ => ?_
    intro s h a s' e
    have := rmwEvent_memoryOk h w ‹_› f
    cases e; exact this
  · exact Op.keeps_pure _

theorem haltService_memoryOk {s : State} (h : s.memoryOk = true) (c : Nat) : (haltService s c).memoryOk = true := by
  unfold haltService
  extract_lets m k s1
  exact foldl_memoryOk (f := fun s i => s.setTs (4 * c + i) { s.ts (4 * c + i) with halted := true }) (fun _ _ hs => hs) _
    (show s1.memoryOk = true from h)

/-- A posted fault writes at most what its thread set's folds write. -/
theorem postFault_memoryOk {s : State} (h : s.memoryOk = true) (i : Instr) (f : FaultInfo) :
    (postFault i f s).memoryOk = true := by
  unfold postFault; extract_lets; split
  · exact haltService_memoryOk h _
  · exact placeFolds_memoryOk h _ _

theorem parkAccess_memoryOk {s : State} (h : s.memoryOk = true) (i : Instr) (p : Nat) (va : Word) (todo : List Ev) :
    (parkAccess i p va todo s).memoryOk = true := h

/-- The state of a link is no memory. -/
theorem setLink_memoryOk {s : State} (h : s.memoryOk = true) (p : Nat) (x : Link) : (s.setLink p x).memoryOk = true := by
  have h' := (State.memoryOk_iff s).1 h
  refine (State.memoryOk_iff _).2 ⟨h'.1, h'.2.1, h'.2.2.1, h'.2.2.2.1, fun q hq => ?_⟩
  obtain ⟨y, hy, rfl⟩ := List.mem_map.1 hq
  split <;> exact h'.2.2.2.2 y hy

theorem placeStore_memoryOk {i : Instr} {len : Nat} {op : Op Unit} {s : State} (h : s.memoryOk = true)
    (hop : Op.Keeps MemOk op) (p : Nat) (va : Word) (todo : List Ev) : (placeStore i len p va todo op s).memoryOk = true := by
  unfold placeStore
  split
  · exact h
  · split
    next e =>
      extract_lets w wb s2
      have h1 := hop { s.setLink p .up with split := false } (show MemOk _ from setLink_memoryOk h _ _) _ _ e
      have h2 : s2.memoryOk = true := setLink_memoryOk (show MemOk _ from h1) _ _
      exact h2
    · exact h

/-- An instruction whose operation keeps the memories' form keeps it however it ends. -/
theorem runOp_memoryOk {i : Instr} {len : Nat} {op : Op Unit} {s s' : State} (hs : s.memoryOk = true)
    (hop : Op.Keeps MemOk op) (h : runOp i len op s = .next s') : s'.memoryOk = true :=
  runOp_keeps (P := MemOk) hs hop (fun _ h => h) (fun _ => postFault_memoryOk hs _ _) (fun _ _ _ => parkAccess_memoryOk hs _ _ _ _)
    (fun _ _ _ => placeStore_memoryOk hs hop _ _ _) (fun _ => hs) h

end Sys2Proof.Machine
end

