-- ==== Sys2Proof/Laws/PerInstr.lean ====
section
/-! SUPPORT. Families of statements that are made once per constructor of `Instr`: this row names none. -/
end

