-- ==== Sys2Proof/Tests/Slice0.lean ====
section
/-! SUPPORT. The model's own tests: words written out from the encoding tables, terms that are no instructions, witnesses that
meet the hypotheses of each statement, and single steps with results that the spec states. -/

namespace Sys2Proof.Tests
open Sys2Proof Sys2Proof.Machine

-- One theorem after another: evaluations that wait for each other's check would each hold a thread.
set_option Elab.async false
set_option maxRecDepth 20000
set_option exponentiation.threshold 2000

/-! ### States for the tests -/

/-- A thread set with some scalar registers. -/
def regs (l : List (Reg × Word)) : ThreadSet := l.foldl (fun t e => t.setS e.1 e.2) {}

/-- Thread set t runs, and is the one whose instruction is executed; it belongs to launch 1 when that exists. -/
def only (t : Nat) (x : ThreadSet) : State := { cur := t, tsets := [(t, { x with status := .running, pc := 0x1000 })] }

/-- Thread set 0 alone, with some scalar registers. -/
def withRegs (l : List (Reg × Word)) : State := only 0 (regs l)

/-- The same, with 64-bit values stored in the local memory of core 0, at offsets. -/
def withLocal (l : List (Reg × Word)) (m : List (Nat × Nat)) : State :=
  (withRegs l).setCore 0 { mem := m.foldl (fun m e => putNum m e.1 e.2 8) [] }

/-- The same, with one launch. -/
def withLaunch (l : Launch) (x : ThreadSet) : State :=
  let s := only 0 { x with launch := l.num, launchid := 1 }
  { s with disp := { s.disp with launches := [l] } }

/-- Thread set 0 in the first launch, with the first GiB of device memory mapped (log entry 1). -/
def mapped (l : List (Reg × Word)) (w : Nat) : State :=
  let s := State.reset.place w
  { s.setTs 0 { regs l with status := .running, launch := 1, pc := 0x10000 } with turns := [] }

/-- An element launch of four elements from 8 on, with one kernel that adds arguments. -/
def elementLaunch : Launch :=
  { placeLaunch with
    element := true, count := 4, ebase := 8, g := 1,
    kernels := [{ offset := 0, element := true, radius := 0, combine := 2, handler := false, hset := 0 }] }

/-- The operation completes, with a property. -/
def okAnd {α : Type} (r : Except Stop (α × State)) (p : α → State → Bool) : Bool :=
  match r with
  | .ok x => p x.1 x.2
  | .error _ => false

/-- The operation ends in a fault of a class. -/
def faultOf {α : Type} (r : Except Stop (α × State)) : Nat :=
  match r with
  | .error (.fault f) => f.cls
  | _ => 0

/-- The step ends in a next state, with a property. -/
def nextAnd (o : Out) (p : State → Bool) : Bool :=
  match o with
  | .next s => p s
  | _ => false

/-- The step ends in the fault of an event that names no core. -/
def noAgent (o : Out) : Bool :=
  match o with
  | .fault .noSuchAgent => true
  | _ => false

/-- The first address of the local window. -/
def win : Word := 0xFF00000000000000

/-- The guard of an instruction that always executes. -/
def yes : Guard := ⟨false, 0⟩

/-! ### Decoding -/

/-- The words decode to the instruction. -/
def decodesTo (ws : List IWord) (i : Instr) : Bool :=
  (match decodeWords ws with
    | .ok j => j == i
    | .error _ => false)

/-- Words written out from the encoding tables, with what they stand for. -/
def sampleSystem : List (List IWord × Instr) :=
  [([0x00000000], .nop),
   ([0x00800000], .yield),
   ([0x410C0500], .mfsr 5 0x43),
   ([0x01A0C000], .mtsr 6 0x08),
   ([0x22048300], .trap 3 4 0x21),
   ([0xE2FC0000], .brk 0xFF)]

theorem test_decode_system : (sampleSystem.all fun p => decodesTo p.1 p.2) = true := by decide

/-- Words written out from the encoding tables, with what they stand for. -/
def sampleInteger : List (List IWord × Instr) :=
  [([0x001CC504], .add 5 6 7),
   ([0x009CC504], .sub 5 6 7),
   ([0x011CC504], .mul 5 6 7),
   ([0x019CC504], .mulh 5 6 7),
   ([0x021CC504], .mulhu 5 6 7),
   ([0x029CC504], .div 5 6 7),
   ([0x031CC504], .divu 5 6 7),
   ([0x039CC504], .rem 5 6 7),
   ([0x041CC504], .remu 5 6 7),
   ([0x08083F04], .and 31 1 2),
   ([0x08883F04], .or 31 1 2),
   ([0x09083F04], .xor 31 1 2),
   ([0x09883F04], .andn 31 1 2),
   ([0x0C292804], .shl 8 9 10),
   ([0x0CA92804], .shr 8 9 10),
   ([0x0D292804], .sra 8 9 10),
   ([0x0DA92804], .rotr 8 9 10),
   ([0x10292804], .min 8 9 10),
   ([0x10A92804], .max 8 9 10),
   ([0x11292804], .minu 8 9 10),
   ([0x11A92804], .maxu 8 9 10)]

theorem test_decode_integer : (sampleInteger.all fun p => decodesTo p.1 p.2) = true := by decide

/-- Words written out from the encoding tables, with what they stand for. -/
def sampleInteger2 : List (List IWord × Instr) :=
  [([0x14012804], .clz 8 9),
   ([0x14812804], .ctz 8 9),
   ([0x15012804], .popc 8 9),
   ([0x3800A404], .sext .h 4 5),
   ([0x5880A404], .zext .w 4 5),
   ([0x1918A404], .bfx 4 5 6),
   ([0x1998A404], .bfi 4 5 6),
   ([0xBC18A404], .sel 5 4 5 6),
   ([0xFC98A404], .shadd 7 4 5 6)]

theorem test_decode_integer2 : (sampleInteger2.all fun p => decodesTo p.1 p.2) = true := by decide

/-- Words written out from the encoding tables, with what they stand for. -/
def sampleImmediate : List (List IWord × Instr) :=
  [([0xFFEC8308], .addi 3 4 (.short (-5))),
   ([0xFFEC830C], .andi 3 4 (.short (-5))),
   ([0xFFEC8310], .ori 3 4 (.short (-5))),
   ([0xFFEC8314], .xori 3 4 (.short (-5))),
   ([0x00008309, 0x23456789, 0x00000001], .addi 3 4 (.lit 0x123456789)),
   ([0x00FC8318], .shli 3 4 63),
   ([0x40FC8318], .shri 3 4 63),
   ([0x80FC8318], .srai 3 4 63),
   ([0x2468A91C], .li 9 (.short 0x12345)),
   ([0x2468A920], .addpc 9 (.short 0x12345)),
   ([0x2468A924], .addcb 9 (.short 0x12345)),
   ([0x0000091D, 0x76543210, 0xFEDCBA98], .li 9 (.lit 0xFEDCBA9876543210)),
   ([0x028C4128], .cmp .geu 1 2 3),
   ([0x011CC22C], .pcmp .lt 2 6 7),
   ([0x018C4130], .plog .andn 1 2 3),
   ([0x02004130], .plog .not 1 2 0)]

theorem test_decode_immediate : (sampleImmediate.all fun p => decodesTo p.1 p.2) = true := by decide

/-- Words written out from the encoding tables, with what they stand for. -/
def sampleControl : List (List IWord × Instr) :=
  [([0xFFC73034], .beq 6 7 (.short (-2))),
   ([0xFFC73134], .bne 6 7 (.short (-2))),
   ([0xFFC73234], .blt 6 7 (.short (-2))),
   ([0xFFC73334], .bge 6 7 (.short (-2))),
   ([0xFFC73434], .bltu 6 7 (.short (-2))),
   ([0xFFC73534], .bgeu 6 7 (.short (-2))),
   ([0x00010B38], .bp true 3 (.short 16)),
   ([0xFFFFFF3C], .j (.short (-1))),
   ([0x00000240], .jal (.short 2)),
   ([0x00000041, 0x00000000, 0x00000001], .jal (.lit 0x100000000)),
   ([0x0003E044], .jr 31),
   ([0x0080C544], .jalr 5 6)]

theorem test_decode_control : (sampleControl.all fun p => decodesTo p.1 p.2) = true := by decide

/-- Words written out from the encoding tables, with what they stand for. -/
def sampleMemory : List (List IWord × Instr) :=
  [([0xFEBCA448], .ld .ws .strm 4 5 (.short (-3))),
   ([0x0090A448], .ld .q .norm 4 5 (.short 1)),
   ([0x0164A44C], .st .h .unc 4 5 (.short 2)),
   ([0x01D0A450], .vld .s8 .long 4 5 (.short 3)),
   ([0x000CA455, 0x00000040, 0x00000000], .vst .d .norm 4 5 (.lit 64)),
   ([0xC0000764], .fence .sys 7),
   ([0x009CC564], .cwait 5 6 7),
   ([0x01000064], .fdrain),
   ([0x4180C064], .pf .long 6),
   ([0x021CC064], .cwb 6 7)]

theorem test_decode_memory : (sampleMemory.all fun p => decodesTo p.1 p.2) = true := by decide

/-- Words written out from the encoding tables, with what they stand for. -/
def sampleQueues : List (List IWord × Instr) :=
  [([0x00010068], .qput 8),
   ([0x20800868], .qgetQr 8),
   ([0x40800868], .qgetQn 8),
   ([0x01050068], .qtryQa 1 8),
   ([0x21040868], .qtryQr 1 8),
   ([0x41040868], .qtryQn 1 8),
   ([0x61040068], .qtryQf 1),
   ([0x201CC56C], .spawn 1 5 6 7),
   ([0x0080006C], .retire),
   ([0x0100C06C], .tdefer 6),
   ([0x60000070], .bar 3),
   ([0x40800970], .barv 2 9),
   ([0x21012070], .bwait 1 9),
   ([0x019CC570], .racq 5 6 7),
   ([0x021CC570], .rrel 5 6 7),
   ([0x029CC570], .rpeek 5 6 7),
   ([0x00000674], .fget 6),
   ([0x009CC574], .freply 5 6 7),
   ([0x001CC578], .bwlease 5 6 7),
   ([0x0080C578], .bwrel 5 6),
   ([0x0100C578], .bwq 5 6)]

theorem test_decode_queues : (sampleQueues.all fun p => decodesTo p.1 p.2) = true := by decide

/-- Words written out from the encoding tables, with what they stand for. -/
def sampleAtomics : List (List IWord × Instr) :=
  [([0x1CC50062, 0x00430000, 0x00000000], .amo ⟨false, 0⟩ .add true 5 6 7 (.short 8)),
   ([0x1CC50063, 0x00020140, 0x00000008, 0x00000003, 0x00000000], .amo ⟨true, 2⟩ .swap false 5 6 7 (.lit 3)),
   ([0x1CC00162, 0xFFFC8000, 0x00000002], .amof ⟨false, 0⟩ .max .f32 6 7 (.short (-1))),
   ([0x1CC50262, 0x00030008, 0x00000000], .cas ⟨false, 0⟩ true 5 6 7 8 (.short 0)),
   ([0x28880362, 0x0000000C, 0x00000000], .cas2 ⟨false, 0⟩ 8 4 10 12 (.short 0))]

theorem test_decode_atomics : (sampleAtomics.all fun p => decodesTo p.1 p.2) = true := by decide

/-- Words written out from the encoding tables, with what they stand for. -/
def sampleVectorInt : List (List IWord × Instr) :=
  [([0x1CC50082, 0x00018200, 0x00000001], .vadd ⟨false, 0⟩ 1 .u16 true 5 6 7),
   ([0x1CC50182, 0x00018200, 0x00000001], .vsub ⟨false, 0⟩ 1 .u16 true 5 6 7),
   ([0x1CC50282, 0x00030F40, 0x00000000], .vmul ⟨true, 2⟩ 7 .i64 5 6 7),
   ([0x1CC50382, 0x00030F40, 0x00000000], .vmulh ⟨true, 2⟩ 7 .i64 5 6 7),
   ([0x1CC50482, 0x00030F40, 0x00000000], .vmin ⟨true, 2⟩ 7 .i64 5 6 7),
   ([0x1CC50582, 0x00030F40, 0x00000000], .vmax ⟨true, 2⟩ 7 .i64 5 6 7),
   ([0x00C50682, 0x00000200, 0x00000000], .vabs ⟨false, 0⟩ 1 .i8 false 5 6),
   ([0x00C50782, 0x00000200, 0x00000000], .vneg ⟨false, 0⟩ 1 .i8 false 5 6),
   ([0x1CC50882, 0x00030F40, 0x00000000], .vand ⟨true, 2⟩ 7 .i64 5 6 7),
   ([0x1CC50982, 0x00030F40, 0x00000000], .vor ⟨true, 2⟩ 7 .i64 5 6 7),
   ([0x1CC50A82, 0x00030F40, 0x00000000], .vxor ⟨true, 2⟩ 7 .i64 5 6 7),
   ([0x1CC50B82, 0x00028000, 0x00000000], .vshl ⟨false, 0⟩ 0 .u32 5 6 (.reg 7)),
   ([0x00C50C82, 0x00FA8000, 0x00000002], .vshr ⟨false, 0⟩ 0 .u32 5 6 (.imm 31)),
   ([0x00C50D82, 0x00190000, 0x00000002], .vsra ⟨false, 0⟩ 0 .i16 5 6 (.imm 3))]

theorem test_decode_vectorInt : (sampleVectorInt.all fun p => decodesTo p.1 p.2) = true := by decide

/-- Words written out from the encoding tables, with what they stand for. -/
def sampleVectorFp : List (List IWord × Instr) :=
  [([0x18A40286, 0x00048340, 0x00000000], .vfmul ⟨true, 2⟩ 1 .f32 .rne .dflt 4 5 6),
   ([0x18A40086, 0x00047400, 0x0000000B], .vfadd ⟨false, 0⟩ 2 .f64 .dyn (.code 3) 4 5 6),
   ([0x18A40186, 0x00047400, 0x0000000B], .vfsub ⟨false, 0⟩ 2 .f64 .dyn (.code 3) 4 5 6),
   ([0x18A40286, 0x00047400, 0x0000000B], .vfmul ⟨false, 0⟩ 2 .f64 .dyn (.code 3) 4 5 6),
   ([0x18A40386, 0x00051407, 0x00000000], .vfma ⟨false, 0⟩ 2 .bf16 .rtz .dflt 4 5 6 7),
   ([0x18A40486, 0x00051407, 0x00000000], .vfms ⟨false, 0⟩ 2 .bf16 .rtz .dflt 4 5 6 7),
   ([0x18A40586, 0x00051407, 0x00000000], .vfnma ⟨false, 0⟩ 2 .bf16 .rtz .dflt 4 5 6 7),
   ([0x18A40686, 0x00058400, 0x00000000], .vfmin ⟨false, 0⟩ 2 .f16 .dflt 4 5 6),
   ([0x18A40786, 0x00058400, 0x00000000], .vfmax ⟨false, 0⟩ 2 .f16 .dflt 4 5 6),
   ([0x00A40886, 0x00058400, 0x00000000], .vfabs ⟨false, 0⟩ 2 .f16 .dflt 4 5),
   ([0x00A40986, 0x00058400, 0x00000000], .vfneg ⟨false, 0⟩ 2 .f16 .dflt 4 5),
   ([0x18A4008A, 0x0004A000, 0x00000000], .vfdiv ⟨false, 0⟩ 0 .f32 .rup 4 5 6),
   ([0x00A4018A, 0x00043000, 0x00000000], .vfsqrt ⟨false, 0⟩ 0 .f64 .rdn 4 5),
   ([0x00A4028A, 0x00050600, 0x00000000], .vrcpe ⟨false, 0⟩ 3 .bf16 4 5),
   ([0x00A4038A, 0x00050600, 0x00000000], .vrsqe ⟨false, 0⟩ 3 .bf16 4 5),
   ([0x00A4048A, 0x00050600, 0x00000000], .vexp2 ⟨false, 0⟩ 3 .bf16 4 5),
   ([0x00A4058A, 0x00050600, 0x00000000], .vlog2 ⟨false, 0⟩ 3 .bf16 4 5)]

theorem test_decode_vectorFp : (sampleVectorFp.all fun p => decodesTo p.1 p.2) = true := by decide

/-- Words written out from the encoding tables, with what they stand for. -/
def sampleCompareConvert : List (List IWord × Instr) :=
  [([0x18A2008E, 0x00288200, 0x00000000], .vcmp ⟨false, 0⟩ 1 .u8 .ge 2 5 6),
   ([0x18A2018E, 0x003C8200, 0x00000000], .vfcmp ⟨false, 0⟩ 1 .f32 .ord 2 5 6),
   ([0x18A7028E, 0x00068800, 0x00000000], .vsel ⟨false, 0⟩ 4 .e5m2 7 5 6),
   ([0x00C50092, 0x00064000, 0x00000639], .vcvt ⟨false, 0⟩ 0 .e4m3 .rna .sat ⟨false, false, 3, .f32⟩ 5 6),
   ([0x00C50092, 0x00020000, 0x00000180], .vcvt ⟨false, 0⟩ 0 .i32 .rne .none ⟨true, true, 0, .i8⟩ 5 6),
   ([0x01050192, 0x00068200, 0x00000209], .vq8 ⟨false, 0⟩ 1 .e5m2 .rne .prop .f32 5 8),
   ([0x01050292, 0x00050200, 0x0000001C], .vdq8 ⟨false, 0⟩ 1 .bf16 .rne 1 .e4m3 5 8),
   ([0x01050392, 0x00000000, 0x00000000], .vrdr ⟨false, 0⟩ 5 8),
   ([0x01050492, 0x00000000, 0x00000000], .vwrr ⟨false, 0⟩ 5 8)]

theorem test_decode_compareConvert : (sampleCompareConvert.all fun p => decodesTo p.1 p.2) = true := by decide

/-- Words written out from the encoding tables, with what they stand for. -/
def samplePermute : List (List IWord × Instr) :=
  [([0x00C50096, 0x00010200, 0x00000000], .vbcast ⟨false, 0⟩ 1 .i16 5 6),
   ([0x00C50196, 0x001C0000, 0x00000000], .vins ⟨false, 0⟩ .f64 5 6 3),
   ([0x00C50296, 0x00F88000, 0x00000000], .vext ⟨false, 0⟩ .u8 5 6 31),
   ([0x1CC50396, 0x00020200, 0x00000000], .vperm ⟨false, 0⟩ 1 .i32 5 6 7),
   ([0x1CC50496, 0x001C8200, 0x00000000], .vshuf ⟨false, 0⟩ 1 .f32 5 6 7 3),
   ([0x1CC50596, 0x01008200, 0x00000000], .vslide ⟨false, 0⟩ 1 .u8 5 6 7 32),
   ([0x00C50696, 0x00058200, 0x00000000], .vcompress ⟨false, 0⟩ 1 .f16 5 6),
   ([0x00C50796, 0x00058200, 0x00000000], .vexpand ⟨false, 0⟩ 1 .f16 5 6),
   ([0x00C5009A, 0x00048200, 0x0000000A], .vred ⟨false, 0⟩ 1 .f32 .add (.code 2) 5 6),
   ([0x18AA019A, 0x00058000, 0x00000008], .vdot ⟨false, 0⟩ 0 .f16 (.code 0) 10 5 6 none),
   ([0x18AA019A, 0x00048007, 0x00000010], .vdot ⟨false, 0⟩ 0 .f32 .dflt 10 5 6 (some 7)),
   ([0x0021029A, 0x00048000, 0x00000000], .vlsig ⟨false, 0⟩ 0 .f32 1 1),
   ([0x0041089A, 0x00200000, 0x00000000], .kop ⟨false, 0⟩ .not 1 2 0),
   ([0x00C1099A, 0x00000000, 0x00000000], .kmovToMask ⟨false, 0⟩ 1 6),
   ([0x0026099A, 0x00080000, 0x00000000], .kmovFromMask ⟨false, 0⟩ 6 1),
   ([0x00250A9A, 0x00000000, 0x00000000], .kpop ⟨false, 0⟩ 5 1)]

theorem test_decode_permute : (samplePermute.all fun p => decodesTo p.1 p.2) = true := by decide

/-- Words written out from the encoding tables, with what they stand for. -/
def sampleMatrix : List (List IWord × Instr) :=
  [([0x008000C2, 0x00080000, 0x00190800], .mmac ⟨false, 0⟩ ⟨false, 3, 1, .none, 2, .full, .e4m3, .e4m3, 1, 0⟩ (.localMem 4 0) 0),
   ([0x000000C2, 0x00600000, 0xC00A1532], .mmac ⟨false, 0⟩ ⟨true, 1, 2, .none, 5, .bf16, .f16, .bf16, 0, 3⟩ .bypass 0),
   ([0x000001C2, 0x00000000, 0x04599776], .mmacs ⟨false, 0⟩ ⟨false, 3, 1, .none, 5, .i32, .u8, .i8, 0, 0⟩ ⟨2, 0⟩ .qa 0),
   ([0x000000C6, 0x00020000, 0x00030000], .mzero ⟨false, 0⟩ .i32 3),
   ([0x010701C6, 0x02000000, 0x00180002], .mwld ⟨false, 0⟩ .bf16 3 7 (.dense 8 (.short 64))),
   ([0x250701C7, 0x00000000, 0x04D80000, 0x00000040, 0x00000000], .mwld ⟨false, 0⟩ .e4m3 3 7 (.sparse 8 (.lit 64) ⟨2, 1⟩ 9)),
   ([0x010701C6, 0x00000000, 0x40180007], .mwld ⟨false, 0⟩ .u8 3 7 (.recDense 8)),
   ([0x010700CA, 0x00050000, 0x00020000], .mdrain ⟨false, 0⟩ .bf16 .rne .none .f32 2 7 8 0 0 (.short 0)),
   ([0x000001CA, 0x00061000, 0x000F0600], .mdrainq ⟨false, 0⟩ .e4m3 .rtz .sat .bf16 7),
   ([0x000002CA, 0x00180000, 0x001A0000], .mdraina ⟨false, 0⟩ .i8 .rne .none .i32 2 (.short 3)),
   ([0x000500CE, 0x00000000, 0x00060000], .mstat ⟨false, 0⟩ 5 6),
   ([0x000001CE, 0x00000000, 0x00060000], .mclrs ⟨false, 0⟩ 6),
   ([0x000002CE, 0x00000140, 0x00000000], .mwait ⟨true, 2⟩)]

theorem test_decode_matrix : (sampleMatrix.all fun p => decodesTo p.1 p.2) = true := by decide

/-- Words written out from the encoding tables, with what they stand for. -/
def sampleVectorMemory : List (List IWord × Instr) :=
  [([0x1CC400E2, 0xFFE00200, 0x00000001], .vlds ⟨false, 0⟩ 1 .i8 .strm 4 6 7 (.short (-4))),
   ([0x1CC401E2, 0x02048400, 0x00000004], .vldx ⟨false, 0⟩ 2 .f32 .norm true 4 6 7 (.short 64)),
   ([0x20C402E2, 0x00008400, 0x00000003], .vstx ⟨false, 0⟩ 2 .u8 .unc false 4 6 8 (.short 0)),
   ([0x00C403E3, 0x00040400, 0x00000000, 0x00000009, 0x00000000], .vldb ⟨false, 0⟩ 2 .f64 .norm 4 6 (.lit 9))]

theorem test_decode_vectorMemory : (sampleVectorMemory.all fun p => decodesTo p.1 p.2) = true := by decide

/-- Words written out from the encoding tables, with what they stand for. -/
def sampleTile : List (List IWord × Instr) :=
  [([0x148900E6, 0x80000000, 0x00000000], .cpy ⟨false, 0⟩ 9 4 5 (.imm (.short 4096))),
   ([0x148900E6, 0x00000006, 0x00000000], .cpy ⟨false, 0⟩ 9 4 5 (.reg 6)),
   ([0x148900E6, 0x00000006, 0x00000001], .cpy2d ⟨false, 0⟩ 9 4 5 6),
   ([0x148900E6, 0x00000006, 0x00000002], .cpyRs ⟨false, 0⟩ 9 4 5 6),
   ([0x148900E6, 0x00000006, 0x00000003], .cpyRd ⟨false, 0⟩ 9 4 5 6),
   ([0x148901E7, 0x00050000, 0x00000002, 0x00000007, 0x00000000], .cpyr ⟨false, 0⟩ .max .bf16 9 4 5 (.imm (.lit 7))),
   ([0x148902E6, 0x00018008, 0x0000001D], .get ⟨false, 0⟩ .u16 (.crossbar 13) 9 4 5 8),
   ([0x148903E6, 0x00060008, 0x00000000], .put ⟨false, 0⟩ .e4m3 .glob 9 4 5 8),
   ([0x008004E6, 0x00280000, 0x00000000], .stmap ⟨false, 0⟩ 5 4),
   ([0x148905E6, 0x00000000, 0x00000000], .stwb ⟨false, 0⟩ 9 4 5),
   ([0x148906E6, 0x00000000, 0x00000000], .stinv ⟨false, 0⟩ 9 4 5),
   ([0x008000F6, 0x00000000, 0x00000000], .rflush ⟨false, 0⟩ 4),
   ([0x000000F6, 0x00000000, 0x00000001], .rflushAll ⟨false, 0⟩),
   ([0x008901F6, 0x00000000, 0x00000000], .pub ⟨false, 0⟩ 9 4),
   ([0x1CC500F2, 0x20048008, 0x00000002], .coll ⟨false, 0⟩ .allReduce .add .f32 false false 0 5 6 7 8 (.short 1024)),
   ([0x1CC500F3, 0x00060148, 0x00000343, 0x00000005, 0x00000000], .coll ⟨true, 2⟩ .broadcast .add .e4m3 false true 3 5 6 7 8 (.lit 5))]

theorem test_decode_tile : (sampleTile.all fun p => decodesTo p.1 p.2) = true := by decide

/-! ### Witnesses: concrete states and operands that meet the hypotheses of the statements, clause by clause -/

theorem witness_DecodedForm :
    (0xFD#32).extractLsb' 0 2 = 1 ∧ (0xFC#32).extractLsb' 0 2 = 0 ∧ 0x1F ≤ ((0xFC#32).extractLsb' 2 6).toNat ∧
    (0x7C#32).extractLsb' 0 2 = 0 ∧ 0x1F ≤ ((0x7C#32).extractLsb' 2 6).toNat ∧
    2 ≤ ((0x56#32).extractLsb' 0 2).toNat ∧ ((0x56#32).extractLsb' 2 6).toNat ≤ 0x15 ∧
    2 ≤ ((0x80000062#32).extractLsb' 0 2).toNat ∧ (0x80000062#32).getLsbD 31 = true ∧
    (0x05#32).extractLsb' 0 2 = 1 ∧ (0x05#32).extractLsb' 2 6 = 1 ∧
    (0x86#32).extractLsb' 0 2 = 2 ∧ (0x86#32).extractLsb' 2 6 = 0x21 ∧
    14 ≤ ((0x00070000#32).extractLsb' 15 4).toNat ∧ (0x00005000#32).extractLsb' 12 3 = 5 := by decide

theorem witness_DecodedForm_words : decodesTo [0x00200004, 0] (.add 0 0 0) = false ∧ decodesTo [0x02A50704, 0] (.div 7 8 9) = true := by
  decide

/-- One word for each clause of the illegal encodings, at a border of its range: a reserved major, an X major with length 0, minor
codes past the last, comparisons and special registers past the last, sizes past the last. -/
theorem witness_DecodedForm_illegal :
    (((0x58#32).extractLsb' 2 6).toNat = 0x16 ∧ ((0xFC#32).extractLsb' 2 6).toNat = 0x3F ∧
      (((0x80#32).extractLsb' 0 2).toNat < 2 ∧ 0x20 ≤ ((0x80#32).extractLsb' 2 6).toNat)) ∧
    (Claims.assigned 0 ((0x03000000#32).extractLsb' 23 6).toNat = false ∧ Claims.assigned 0 5 = true ∧
      Claims.assigned 0x20 ((0x00000E82#32).extractLsb' 8 8).toNat = false ∧ Claims.assigned 0x20 13 = true) ∧
    (((0xC0000018#32).extractLsb' 2 6).toNat = 6 ∧ (0xC0000018#32).extractLsb' 30 2 = 3) ∧
    (((0x78000004#32).extractLsb' 23 6).toNat = 0x30 ∧ 3 ≤ ((0x78000004#32).extractLsb' 29 3).toNat) ∧
    (((0x00000634#32).extractLsb' 2 6).toNat = 0x0D ∧ 6 ≤ ((0x00000634#32).extractLsb' 8 3).toNat) ∧
    (((0xE0000064#32).extractLsb' 2 6).toNat = 0x19 ∧ ((0xE0000064#32).extractLsb' 23 6).toNat = 0 ∧
      ((0xE0000064#32).extractLsb' 29 3).toNat = 7) ∧
    (((0x80000068#32).extractLsb' 2 6).toNat = 0x1A ∧ 4 ≤ ((0x80000068#32).extractLsb' 29 3).toNat) ∧
    (((0x0014004C#32).extractLsb' 2 6).toNat = 0x13 ∧ 5 ≤ ((0x0014004C#32).extractLsb' 18 3).toNat) ∧
    (0x6#32).extractLsb' 0 2 ≠ 0 := by decide

/-- What carries a literal, in 12 bytes and in 20. -/
theorem witness_DecodedForm_literals :
    (encode (.addi 1 2 (.lit 0x100000002))).length = 3 ∧
    decodesTo (encode (.addi 1 2 (.lit 0x100000002))) (.addi 1 2 (.lit 0x100000002)) = true ∧
    (encode (.vlds yes 0 .f32 .norm 4 6 7 (.lit 5))).length = 5 ∧
    decodesTo (encode (.vlds yes 0 .f32 .norm 4 6 7 (.lit 5))) (.vlds yes 0 .f32 .norm 4 6 7 (.lit 5)) = true := by decide

/-- A `get` of kind 0 whose core field is not 0 decodes; its encoding has that field 0. -/
theorem witness_DecodedForm_core :
    (let ws := encode (.get yes .f32 .glob 9 4 5 8)
     ws.getD 2 7 = 0 ∧ decodesTo (ws.set 2 0x8) (.get yes .f32 .glob 9 4 5 8) = true) := by decide

theorem witness_DecodeEncodeBase :
    encode (.addi 31 31 (.lit 0xFFFFFFFFFFFFFFFF)) ≠ [] ∧ guardOf (.addi 31 31 (.lit 0xFFFFFFFFFFFFFFFF)) = none ∧
    (Instr.addi 31 31 (.lit 0xFFFFFFFFFFFFFFFF)).wf = true := by decide

theorem witness_DecodeEncodeX :
    (guardOf (.vslide ⟨true, 7⟩ 7 .u8 31 31 31 32)).isSome = true ∧ (Instr.vslide ⟨true, 7⟩ 7 .u8 31 31 31 32).wf = true := by
  decide

/-- What core 0 fetches on its turn. -/
def fetched (s : State) : Except Stop (List IWord × State) :=
  match chooseSlot 0 0 { s with turns := [] } with
  | some (k, s1) =>
    let s2 : State := { s1 with cur := 4 * 0 + k }
    if s2.me.part.isNone then fetchWords (s2.who s2.cur) s2.me.pc.toNat s2 else .error .stall
  | none => .error .stall

/-- Thread set 0 in the middle of a load over two lines. -/
def midway : State :=
  let s := State.reset.place 0
  s.setTs 0 { s.ts 0 with part := some { instr := .ld .q .norm 1 2 (.short 0), todo := [], got := [(0, 7)] } }

/-- Its words decode, or are illegal, or the fetch faults; or it goes on with an access; the last core is valid, held or not. -/
theorem witness_StepRunsDecoded :
    (State.reset.place 0x02A50704).turns = [.issue 0] ∧ validCore 0 = true ∧
    ({ turns := [.issueHeld 2047 0xE false] } : State).turns = .issueHeld 2047 0xE false :: [] ∧
    okAnd (fetched (State.reset.place 0x02A50704)) (fun ws _ => decodesTo ws (.div 7 8 9)) = true ∧
    okAnd (fetched (State.reset.place 0xF8)) (fun ws _ => ws == [0xF8] && (decodeWords ws).toOption.isNone) = true ∧
    faultOf (fetched ((State.reset.place 0).setTs 0 { status := .running, launch := 1, pc := 0x100000000000000 })) = 6 ∧
    ((chooseSlot 0xE 0 { midway with turns := [] }).map fun p =>
      (({ p.2 with cur := 4 * 0 + p.1 } : State).me.part.map fun x => x.instr)) =
        some (some (.ld .q .norm 1 2 (.short 0))) := by
  decide +kernel

theorem witness_StepOtherTurns :
    ({ turns := [.event .powerGood] } : State).turns = .event .powerGood :: [] ∧
    ({ turns := [.eventPart .powerGood] } : State).turns = .eventPart .powerGood :: [] ∧
    ({ turns := [.elapse 5] } : State).turns = .elapse 5 :: [] ∧
    ({ turns := [.peer 3 (.skip 9)] } : State).turns = .peer 3 (.skip 9) :: [] ∧
    ({ turns := [.channel 143 .send] } : State).turns = .channel 143 .send :: [] ∧
    ({ turns := [.issueHeld 1 3 true] } : State).turns = .issueHeld 1 3 true :: [] ∧
    validCore 2048 = true ∧ validCore 2050 = false ∧ validCore 4096 = false ∧
    (chooseSlot 0 1 { State.reset.place 0 with turns := [] }).isNone = true := by decide

/-- Core 0 with thread sets in some slots, the slot that issued last, its count of issues, and the idle mark. -/
def slots (on : List Nat) (slot run : Nat) (idle : Bool := false) : State :=
  let s := mapped [] 0x00000074
  let x := s.ts 0
  let s := s.setTs 0 { x with status := .free }
  let s := on.foldl (fun s i => s.setTs i x) s
  s.setCore 0 { s.core 0 with slot, run, idle }

/-- Whether a slot of core 0 is ready, with some held. -/
def rdy (s : State) (i : Nat) (held : BitVec 4 := 0) : Bool := ready s held i

/-- The current slot is ready; the next one; the one after; the last; none. The count is at the end of its range. After an
idle clk the current slot is ready and so is another, or it alone. A held slot is not ready. -/
theorem witness_SlotChoice :
    (((slots [0, 1] 0 255).core 0).run < 256 ∧ ((slots [0, 1] 0 255).core 0).idle = false ∧ rdy (slots [0, 1] 0 255) 0 = true) ∧
    (rdy (slots [0, 3] 2 0) 2 = false ∧ rdy (slots [0, 3] 2 0) 3 = true) ∧
    (rdy (slots [0] 2 0) 2 = false ∧ rdy (slots [0] 2 0) 3 = false ∧ rdy (slots [0] 2 0) 0 = true) ∧
    (rdy (slots [1] 2 0) 2 = false ∧ rdy (slots [1] 2 0) 3 = false ∧ rdy (slots [1] 2 0) 0 = false ∧
      rdy (slots [1] 2 0) 1 = true) ∧
    (∀ i < 4, rdy (slots [] 2 0) i = false) ∧
    (((slots [2, 3] 2 0 true).core 0).idle = true ∧ rdy (slots [2, 3] 2 0 true) 3 = true ∧ rdy (slots [2, 3] 2 0 true) 2 = true) ∧
    (rdy (slots [0] 0 0) 0 1 = false) := by decide +kernel

theorem witness_StepKeepsMemoryForm :
    (State.reset.place 0x00000074).memoryOk = true ∧ nextAnd (step (State.reset.place 0x00000074)) (fun _ => true) = true := by
  decide

theorem witness_StepKeepsMgmtLegal :
    (State.reset.place 0x00000074).mgmt.legal = true ∧ nextAnd (step (State.reset.place 0x00000074)) (fun _ => true) = true := by
  decide

/-- The fault of ExecNeverRefuses, at the first number that the package does not have, and the last that it has. -/
theorem witness_ExecNeverRefuses :
    noAgent (exec (.threadSetStart 8192) State.reset) = true ∧ noAgent (exec (.preempt 2048) State.reset) = true ∧
    nextAnd (exec (.threadSetStart 8191) State.reset) (fun _ => true) = true ∧
    nextAnd (exec (.preempt 2047) State.reset) (fun _ => true) = true := by decide

theorem witness_FetchedWords :
    (let s := mapped [] 0x02A50704
     inGlobal 0x10000 = true ∧ okAnd (translate (s.who 0) .fetch 0x10000 1 s) (fun l s1 =>
      ((otherWords (s.who 0) 0x10000 (lineLoc l) s1).all fun x => x.data == (rawLine s1 (backing s1 (lineLoc l) false)).data) &&
        (poisonOf s1 (backing s1 (lineLoc l) false).space).isEmpty && decide (0x10000 % 64 + lengthOfWord 0x02A50704 ≤ 64)) = true) ∧
    2 ^ 56 ≤ 0x100000000000000 := by decide

theorem witness_RegisterWrites : scalarDest (.mulhu 0 1 2) = some 0 ∧ scalarDest (.addpc 0 (.short 5)) = some 0 := by decide

theorem witness_ScalarOperations :
    (withRegs [(2, 1)]).me.getS 2 ≠ 0 ∧ (withRegs [(1, 0x8000000000000000), (2, 0xFFFFFFFFFFFFFFFF)]).me.getS 2 ≠ 0 ∧
    (withRegs [(1, 5)]).me.getS 2 = 0 ∧ isService (coreOf (withRegs []).cur) = false := by decide

theorem witness_ScalarFrame :
    scalarDest (.shadd 7 5 6 7) = some 5 ∧ nextAnd (exec (.shadd 7 5 6 7) (withRegs [(6, 1)])) (fun _ => true) = true := by decide

/-- Each branch is taken on some operands and not on others, at the border of its condition. -/
theorem witness_Branches :
    (withRegs [(1, 5), (2, 5)]).me.getS 1 = (withRegs [(1, 5), (2, 5)]).me.getS 2 ∧
    (withRegs [(1, 5)]).me.getS 1 ≠ (withRegs [(1, 5)]).me.getS 2 ∧
    ((withRegs [(1, 0xFFFFFFFFFFFFFFFF)]).me.getS 1).toInt < ((withRegs [(1, 0xFFFFFFFFFFFFFFFF)]).me.getS 2).toInt ∧
    ¬ ((withRegs [(1, 0xFFFFFFFFFFFFFFFF)]).me.getS 1).toNat < ((withRegs [(1, 0xFFFFFFFFFFFFFFFF)]).me.getS 2).toNat ∧
    ((withRegs [(1, 0x1234)]).me.getS 1).extractLsb' 0 2 = 0 := by decide

theorem witness_Jumps : (0x1002#64).extractLsb' 0 2 ≠ 0 ∧ (0x1001#64).extractLsb' 0 2 ≠ 0 := by decide

theorem witness_MisalignedJump :
    ((withRegs [(1, 0x1235)]).me.getS 1).extractLsb' 0 2 ≠ 0 ∧ isService (coreOf (withRegs []).cur) = false := by decide

/-- A thread set of a service core, the first service thread set of die 0 (R382). -/
def service (x : ThreadSet) : State := only 8192 x

theorem witness_SpecialRegisters :
    isService (coreOf (service {}).cur) = true ∧ isService (coreOf (withRegs []).cur) = false ∧
    isService 2047 = false ∧ isService 2048 = true ∧ isService 4095 = true ∧ isService 4096 = false := by decide

/-- Thread set 0, with a vector store of thread set t that waits for a retraining peer. -/
def parked (t : Nat) : State :=
  let s := withRegs []
  { s with faults := { s.faults with writebacks := [{ ts := t, instr := .vst .d .norm 1 2 (.short 0), snap := {}, peer := some 3 }] } }

theorem witness_SpecialRegisters_flags :
    flagsToCome (parked 0) (parked 0).cur = true ∧ flagsToCome (parked 1) (parked 1).cur = false := by decide

/-- A halting breakpoint, and the two ways in which it posts a fault. -/
theorem witness_SystemInstructions :
    (withLaunch { placeLaunch with attached := true, breakpoints := true } {}).launchOf 0 =
      some { placeLaunch with attached := true, breakpoints := true } ∧
    (withLaunch { placeLaunch with attached := true } {}).launchOf 0 = some { placeLaunch with attached := true } ∧
    (withRegs []).launchOf 0 = none := by decide

theorem witness_FaultsPosted :
    isService (coreOf (withRegs []).cur) = false ∧ (withRegs []).cur < 16384 ∧ ((withRegs []).core 0).folds = [] ∧ isService (coreOf (service {}).cur) = true := by decide

theorem witness_FaultMessageFields :
    (255 < 256 ∧ 0 < 256) ∧ (faultMsg (withRegs []) 0 2 { cls := 15, detail := 255, write := true } .nop 0 1).getLsbD 19 = true := by
  decide

theorem witness_FaultService :
    (isServiceTs (withRegs []) 0 = false ∧ isHandlerTs (withRegs []) 0 = false) ∧
    (isServiceTs (service { qf := [7], qfPts := [3] }) 8192 = true ∧ (service { qf := [7], qfPts := [3] }).me.qf = 7 :: []) ∧
    (isServiceTs (service {}) 8192 = true ∧ (service {}).me.qf = []) := by decide

/-- Thread set 0 has posted the fault of an instruction, and the service thread set has taken it; its registers are given. -/
def answering (i : Instr) (l : List (Reg × Word)) : State :=
  match exec i (withRegs [(1, 9)]) with
  | .next s =>
    let s := { s with faults := { s.faults with recs := s.faults.recs.map fun r : FaultRec => { r with posted := true } } }
    { s.setTs 8192 { regs l with status := .running, pc := 0x2000 } with cur := 8192 }
  | _ => State.reset

/-- The hypotheses of the replies hold for a fault of a class. -/
def repliesTo (s : State) (cls action : Nat) : Bool :=
  let w := s.me.getS 5
  isServiceTs s s.cur && w.extractLsb' 34 14 == 0 && w.extractLsb' 32 2 == BitVec.ofNat 2 action &&
    (!waitsForPeer (placeFolds s s.cur 6) s.cur && match answerable (placeFolds s s.cur 6) s.cur (w.setWidth 32) with
      | some r => r.source == 0 && r.dest.isNone && r.late.isNone && r.ts != s.cur && decide (coreOf r.ts < 4096) && r.cls == cls
      | none => false)

/-- The same, in a resident launch of two indices. -/
def answeringIn (i : Instr) (l : List (Reg × Word)) : State :=
  match exec i (withLaunch { placeLaunch with count := 2 } (regs [(1, 9)])) with
  | .next s =>
    let s := { s with faults := { s.faults with recs := s.faults.recs.map fun r : FaultRec => { r with posted := true } } }
    { s.setTs 8192 { regs l with status := .running, pc := 0x2000 } with cur := 8192 }
  | _ => State.reset

/-- SKIP of an access and of a command that a check refuses; ABORT of a thread set with nothing outstanding, whose launch has another
one left; KILL. -/
theorem witness_FaultReplies_ends :
    repliesTo (answering (.ld .q .norm 3 1 (.short 0)) [(5, 0x100000000)]) 5 1 = true ∧
    repliesTo (answering (.mdraina yes .bf16 .rne .none .f32 0 (.short 0)) [(5, 0x100000000)]) 10 1 = true ∧
    repliesTo (answeringIn (.trap 3 1 7) [(5, 0x7000200000000)]) 3 2 = true ∧
    repliesTo (answeringIn (.trap 3 1 7) [(5, 0x300000000)]) 3 3 = true := by decide

/-- SKIP of a spawn that a check refuses. -/
def spawnFault : State :=
  match exec (.spawn 0 9 1 2) (withLaunch elementLaunch { regs [(1, 99)] with element := true }) with
  | .next s =>
    let s := { s with faults := { s.faults with recs := s.faults.recs.map fun r : FaultRec => { r with posted := true } } }
    { s.setTs 8192 { regs [(5, 0x100000000), (6, 7)] with status := .running, pc := 0x2000 } with cur := 8192 }
  | _ => State.reset

theorem witness_FaultReplies_spawn :
    repliesTo spawnFault 14 1 = true ∧
    (spawnFault.faults.recs.map fun r => decide (r.instr = .spawn 0 9 1 2)) = [true] := by decide

theorem witness_FaultReplies_abort :
    (let s := answeringIn (.trap 3 1 7) [(5, 0x7000200000000)]
     let u := placeFolds s s.cur 6
     hasCommands u 0 = false ∧ hasSpawns u 0 = false ∧ waitsForPeer u 0 = false ∧ (u.core 0).folds = [] ∧ u.fab.heldFolds = [] ∧
     s.launch? (s.ts 0).launch = some { placeLaunch with count := 2 } ∧ placeLaunch.killed = false ∧ placeLaunch.element = false ∧
     (s.ts 0).element = false ∧ (1 < 2 ∧ 1 ≠ (s.ts 0).index ∧ 1 ∉ placeLaunch.retired)) := by decide

/-- Refused replies; RESUME of an illegal instruction, a division and a breakpoint; SKIP of a division and a trap. -/
theorem witness_FaultReplies :
    ((answering (.div 3 1 2) [(5, 0x400000000)]).me.getS 5).extractLsb' 34 14 ≠ 0 ∧
    waitsForPeer (placeFolds (parked 0) 0 6) 0 = true ∧ waitsForPeer (placeFolds (service {}) 8192 6) 8192 = false ∧
    (isServiceTs (answering (.div 3 1 2) [(5, 77)]) 8192 = true ∧ answerable (answering (.div 3 1 2) [(5, 77)]) 8192 77 = none) ∧
    repliesTo (answering (.illegalInstruction 0xF8) []) 1 0 = true ∧ repliesTo (answering (.div 3 1 2) []) 2 0 = true ∧
    repliesTo (answering (.brk 7) []) 4 0 = true ∧ repliesTo (answering (.div 3 1 2) [(5, 0x100000000)]) 2 1 = true ∧
    repliesTo (answering (.trap 3 1 7) [(5, 0x100000000)]) 3 1 = true := by decide

theorem witness_FalsePredicate :
    (guardOf (.kpop ⟨true, 0⟩ 1 2) = some ⟨true, 0⟩ ∧ (withRegs []).me.getP 0 = true) ∧
    (guardOf (.mwait ⟨false, 3⟩) = some ⟨false, 3⟩ ∧ (withRegs []).me.getP 3 = false) := by decide

/-- Faces with room for one entry, full, with an entry, and empty. -/
theorem witness_QueueInstructions :
    (only 0 { qa := List.replicate 15 1 }).me.qa.length < 16 ∧ 16 ≤ (only 0 { qa := List.replicate 16 1 }).me.qa.length ∧
    (only 0 { qr := [3] }).me.qr = 3 :: [] ∧ (only 0 {}).me.qr = [] ∧ (only 0 { qn := [3] }).me.qn = 3 :: [] ∧
    (only 0 {}).me.qn = [] := by decide

/-- A package with one peer, number 3, whose link is in a state. -/
def withPeer (l : List (Reg × Word)) (k : Link) : State :=
  { withRegs l with fab := { peers := [{ id := 3, incarnation := 1, link := k }] } }

/-- A spawn outside an element task; of the last element and of the first beyond it; of the last position and beyond it. -/
theorem witness_TaskInstructions_spawn :
    (withLaunch placeLaunch {}).launchOf 0 = some placeLaunch ∧ (withLaunch placeLaunch {}).me.element = false ∧
    (withLaunch elementLaunch { element := true }).launchOf 0 = some elementLaunch ∧
    ¬ (elementLaunch.ebase ≤ 12 ∧ 12 < elementLaunch.ebase + elementLaunch.count) ∧
    (elementLaunch.ebase ≤ 11 ∧ 11 < elementLaunch.ebase + elementLaunch.count) ∧ elementLaunch.kernels.length ≤ 1 ∧
    0 < elementLaunch.kernels.length := by decide

/-- A fold of thread set 0 for peer 3. -/
def fold3 : Fold :=
  { ts := 0, line := 0x40, loc := { space := .peer 3, addr := 0x40 }, scope := 5, fn := .add, et := .i32, ops := [(0, 1)] }

/-- Placed while the link retrains, it is held. -/
theorem witness_TaskInstructions_held :
    (let s := (withPeer [] (.retraining 0)).setCore 0 { folds := [fold3] }
     waitsForPeer s 0 = false ∧ waitsForPeer (placeFolds s 0 6) 0 = true) := by decide

/-- A thread set of core 0 with a command, and with a spawn, outstanding; with neither; and an element task that may be
deferred. -/
theorem witness_TaskInstructions_ends :
    hasCommands ((withRegs []).setCore 0 { tq := [newTCmd] }) 0 = true ∧ waitsForPeer (parked 0) 0 = true ∧
    hasSpawns { withRegs [] with disp := { spawns := [{ ts := 0, d := 1, launch := 1, pos := 0, elem := 8, arg := 0 }] } } 0 = true ∧
    (let s := withLaunch elementLaunch { element := true, eid := 9 }
     hasCommands s s.cur = false ∧ hasSpawns s s.cur = false ∧ waitsForPeer s s.cur = false ∧
     waitsForPeer (placeFolds s s.cur 6) s.cur = false ∧ (∀ x ∈ s.disp.images, x.num ≠ coreOf s.cur) ∧ s.me.element = true ∧ s.launchOf s.cur = some elementLaunch ∧
     elementLaunch.killed = false ∧ elementLaunch.element = true ∧ 1 ≤ elementLaunch.g ∧
     (elementLaunch.pending.all fun x => !(x.pos == s.me.pos && x.elem == s.me.eid.toNat)) = true) := by decide

/-- The last task and one of two; the last thread set and one of two. -/
theorem witness_TaskInstructions_launch :
    (let s := withLaunch elementLaunch { element := true, eid := 9 }
     s.launch? s.me.launch = some elementLaunch ∧ elementLaunch.element = s.me.element ∧ elementLaunch.g = 1) ∧
    (let r : Running := { pkg := none, die := 2, pos := 0, elem := 9, ts := some 0 }
     let l : Launch := { elementLaunch with g := 2, running := [r] }
     1 < l.g ∧ (l.running.find? fun y => y.ts == some 0) = some r ∧ r.pkg = none) ∧
    (let s := withLaunch placeLaunch {}
     s.launch? s.me.launch = some placeLaunch ∧ placeLaunch.killed = false ∧ placeLaunch.element = s.me.element ∧
     s.me.element = false ∧ (∀ i, i < placeLaunch.count → i = s.me.index ∨ i ∈ placeLaunch.retired) ∧
     (1 < 2 ∧ 1 ≠ s.me.index ∧ 1 ∉ placeLaunch.retired)) := by decide

/-- Thread set 0 has rank 0 of a group of two, in slot 0, with arrival counts and completed phases. -/
def inGroup (arrivals : List Nat) (completed : Nat) (l : List (Reg × Word)) : State :=
  withLaunch { placeLaunch with count := 2, groups := [{ id := 7, members := [0, 1], arrivals, completed }] }
    { regs l with gs := .ofFn fun i => if i.val = 0 then 0x200000107 else 0 }

theorem witness_Barriers_faults :
    (only 0 { element := true }).me.element = true ∧ (groupOf (withRegs []) 0).isNone = true ∧
    ((groupOf (inGroup [2, 1] 1 [(1, 2)]) 0).map fun p => decide (p.2.arrivals.getD 0 0 ≤ 2)) = some true := by decide

/-- An arrival that completes its phase at once; one that waits; a wait for a completed phase. -/
theorem witness_Barriers_arrivals :
    ((groupOf (inGroup [2, 3] 2 []) 0).map fun p => decide (p.2.arrivals.getD 0 0 ≤ p.2.completed + 1)) = some true ∧
    ((groupOf (arrive 0 (inGroup [2, 3] 2 [])) 0).map fun y => decide (2 < y.2.completed)) = some true ∧
    ((groupOf (arrive 0 (inGroup [2, 2] 2 [])) 0).map fun y => decide (y.2.completed ≤ 2) && y.2.broken.isNone) = some true ∧
    ((groupOf (inGroup [2, 1] 1 []) 0).map fun p => decide (0 < p.2.arrivals.getD 0 0) && decide (0 < p.2.completed)) =
      some true := by decide

/-- An arrival that does not wait for a link, and one that does. -/
theorem witness_Barriers_links :
    waitsForPeer (placeFolds (inGroup [2, 3] 2 []) 0 6) 0 = false ∧ waitsForPeer (placeFolds (parked 0) 0 6) 0 = true := by decide

/-- The fault of the wait of thread set 0 for phase 2 of its broken group, and the service thread set that answers it. -/
def broken (i : Instr) (dest : Option Nat) (l : List (Reg × Word)) : State :=
  let s := inGroup [3, 2] 2 []
  let r : FaultRec :=
    { handle := 0, ts := 0, launch := 1, source := 0, cls := 12, detail := 3, msg := 7 * 2 ^ 256, instr := i, len := 4, dest, posted := true }
  let s := { s with faults := { s.faults with recs := [r] } }
  { s.setTs 8192 { regs l with status := .running, pc := 0x2000 } with cur := 8192 }

/-- SKIP and RESUME of a `bar` that has arrived, and SKIP of a `bwait`, with the group that its message names. -/
theorem witness_FaultReplies_broken :
    ([(broken (.bar 0) (some 2) [(5, 0x100000000)], 1), (broken (.bwait 0 3) none [(5, 0x100000000)], 1),
      (broken (.bar 0) (some 2) [], 0)].all fun p =>
        let s := p.1
        let w := s.me.getS 5
        isServiceTs s s.cur && w.extractLsb' 34 14 == 0 && w.extractLsb' 32 2 == BitVec.ofNat 2 p.2 &&
        !waitsForPeer (placeFolds s s.cur 6) s.cur && (answerable (placeFolds s s.cur 6) s.cur (w.setWidth 32)).any fun r =>
          r.source == 0 && r.ts != s.cur && decide (coreOf r.ts < 4096) && r.late.isNone && r.cls == 12 && r.detail == 3 &&
          (s.launchOf r.ts).any fun l => (l.groups.find? fun x => x.id % 256 == (r.msg.extractLsb' 256 8).toNat).isSome) = true := by
  decide

/-- A ring of two slots of 64 bytes and two stages, at the start of the local window: its flags and its two control words. -/
def ring (flags w0 w1 : Nat) (cur : Word) : State :=
  withLocal [(1, win), (2, cur)] [(0, 0x1000), (8, 64 + 2 ^ 32 + 2 * 2 ^ 40 + flags * 2 ^ 48), (64, w0), (72, w1)]

/-- Its header. -/
def ring2 : Ring := { base := 0x1000, size := 64, n := 2, stages := 2, poisoned := false }

/-- The control word of its first slot is read, with a property. -/
def ringRead (acq : Bool) (h : Hint) (cur : Word) (s : State) (p : Nat → Bool) : Bool :=
  okAnd (ringChecks acq win cur s) fun r s1 => r == ring2 &&
    okAnd (memRead (s.who 0) h (ringWord win cur ring2) 8 s1) fun w s2 => p w && s2.me.part.isNone

/-- A slot that is ready. -/
theorem witness_StageRings_ready : ringRead true .unc 0 (ring 0 0 0 0) (slotReady 0) = true := by decide +kernel

/-- A slot that is not. -/
theorem witness_StageRings_waits : ringRead true .unc 0 (ring 0 1 0 0) (fun w => !slotReady 0 w) = true := by decide +kernel

/-- A poisoned ring. -/
theorem witness_StageRings_poisoned :
    okAnd (ringChecks true win 0 (ring 1 0 0 0)) (fun r s1 => r == { ring2 with poisoned := true } &&
      okAnd (memRead ((ring 1 0 0 0).who 0) .unc (ringWord win 0 ring2) 8 s1) fun _ s2 => s2.me.part.isNone) = true := by decide +kernel

/-- The peek of a cursor whose full bit is not compared. -/
theorem witness_StageRings_peek : ringRead false .norm 0x300000000 (ring 0 0 0 0) (fun _ => true) = true := by decide +kernel

theorem witness_StageRings_release :
    okAnd (ringChecks false win 0 (ring 0 0 0 0)) (fun r s1 =>
      okAnd (checkAccess (s1.who 0) .rmw (ringWord win 0 r) 8 s1) fun ps s2 => okAnd (needClean (s1.who 0) ps s2) fun _ _ =>
        !waitsForPeer (placeFolds s2 s2.cur 6) 0) = true ∧
    waitsForPeer (placeFolds (parked 0) 0 6) 0 = true ∧
    (wordOwner 0 == curStage 0 && wordSeq 0 == curSeq 0) = true ∧ (wordOwner 16 == curStage 0 && wordSeq 16 == curSeq 0) = false := by
  decide

/-- The update of a control word of a ring runs. -/
theorem witness_StageRings_update :
    okAnd (checkAccess ((ring 0 0 0 0).who 0) .rmw (ringWord win 0 ring2) 8 (ring 0 0 0 0)) (fun ps s2 =>
      okAnd (rmw ((ring 0 0 0 0).who 0) ps (fun x => some (releasedWord 0 ring2 x)) s2) fun old s4 =>
        old == 0 && s4.me.part.isNone) = true := by decide

/-- A lease of thread set 0's launch number 0 toward peer 3, which ends at clk 100. -/
def lease3 (active : Bool) : Lease :=
  { handle := 9, launch := 0, peer := 3, want := 1, dur := 1000, active, ends := 100, ts := 0, d := 4 }

/-- A bad count and a bad duration at the border; an unknown handle; a link that is down; a full table; a request that is
accepted with the largest count and duration. -/
theorem witness_LeaseInstructions :
    (24 < bitsOf 0x1903 8 8 ∧ 1000 < (0x3E9#64).toNat ∧ bitsOf 0x10000 16 16 ≠ 0 ∧ (withRegs []).peer? 3 = none) ∧
    (bitsOf 0x900001803 32 32 ≠ 0 ∧ myLease (withPeer [] .up) 9 = none) ∧
    (bitsOf 0x1803 32 32 = 0 ∧ linkBad (withPeer [] .failed) 3 = true) ∧
    (linkBad (withPeer [] .up) 3 = false ∧ ((withPeer [] .up).peer? 3).isSome = true) ∧
    64 ≤ (List.replicate 64 (lease3 true)).length ∧ (withPeer [] .up).fab.leases.length < 64 ∧
    ¬ (bitsOf 0x1803 16 16 ≠ 0 ∨ bitsOf 0x1803 8 8 = 0 ∨ 24 < bitsOf 0x1803 8 8 ∨ (1000 : Nat) = 0 ∨ 1000 < 1000) ∧
    (let s : State := { withPeer [] .up with fab := { peers := [{ id := 3, incarnation := 1 }], leases := [lease3 true] } }
     myLease s 9 = some (lease3 true) ∧ bitsOf 0x900000000 32 32 = 9 ∧ bitsOf 0x900000000 0 8 = 0 ∧
     linkBad s (lease3 true).peer = false ∧ (lease3 true).active = true ∧ (lease3 true).peer ≠ 4 ∧ (3 : Nat) = (lease3 true).peer) ∧
    (let s : State := { withPeer [] .up with fab := { peers := [{ id := 3, incarnation := 1 }], leases := [lease3 false] } }
     myLease s 9 = some (lease3 false) ∧ (lease3 false).active = false) ∧
    linkBad (withPeer [] (.retraining 0)) 3 = true := by decide

/-- The active lease holds channels 0 and 1, and another request contests channel 0. -/
def leased (flits : List (BitVec 32)) : State :=
  { withPeer [] .up with fab := {
      peers := [{ id := 3, incarnation := 1 }], leases := [lease3 true], chans := [(120, { unacked := flits })],
      pool := .ofFn fun i => if i.val < 2 then { tuned := some 3, lease := some 9, rx := i.val, claim := if i.val = 0 then some 8 else none }
        else {} } }

/-- A renewal that keeps one channel of two, and, with all contested, none; a release of both, and of one: the contested one, with
flits on it and without. -/
theorem witness_LeaseInstructions_renewal :
    heldOf (leased []) 9 = [0, 1] ∧ myLease (leased []) 9 = some (lease3 true) ∧ (lease3 true).active = true ∧
    ((heldOf (leased []) 9).filter fun j => !contested (poolChan (leased []) j)) = [1] ∧
    linkBad (leased []) 3 = false ∧ (bitsOf 0x900000103 32 32 = 9 ∧ bitsOf 0x900000103 8 8 = 1 ∧ bitsOf 0x900000103 0 8 = 3) ∧
    (bitsOf 0x900000200 16 16 = 0 ∧ bitsOf 0x900000200 0 8 = 0 ∧ bitsOf 0x900000200 8 8 ≤ 24) := by decide

theorem witness_LeaseInstructions_release :
    (∀ j ∈ [0, 1], (chanOf (leased []) (120 + j)).unacked = []) ∧ (∃ j ∈ [0, 1], (chanOf (leased [7]) (120 + j)).unacked ≠ []) ∧
    (Min.min 2 (heldOf (leased []) 9).length = (heldOf (leased []) 9).length ∧ Min.min 1 (heldOf (leased []) 9).length < 2) ∧
    (contested (poolChan (leased []) 0) = true ∧ contested (poolChan (leased []) 1) = false) := by decide

/-- The vector statements: the guard holds, and the types are of the kind that the statement names. -/
theorem witness_IntegerVectorResults :
    (ElemTy.u16).isInt = true ∧ (withRegs []).me.getP yes.p ≠ yes.pn ∧ (63 : Fin 64).val < (ElemTy.i64).width ∧
    (7 : Fin 64).val < (ElemTy.i8).width := by decide

theorem witness_FloatVectorResults : (ElemTy.f16).isWideFp = true ∧ (withRegs []).me.getP yes.p ≠ yes.pn := by decide

/-- Operands of the estimates: a NaN, infinity and zero of f16, a negative number, the powers 2, 4 and 1, and 3, which is no exact
case, in f32 and bf16. -/
theorem witness_FloatVectorResults_estimates :
    (fmtOf .f16).decode 0x7D00 = .nan true ∧ (fmtOf .f16).decode 0xFC00 = .inf true ∧
    (∃ e, (fmtOf .f16).decode 0x8000 = .fin true 0 e) ∧ (fmtOf .f32).decode 0xC0400000 = .fin true 12582912 (-22) ∧
    (fmtOf .f32).decode 0x40000000 = .fin false 8388608 (-22) ∧ (fmtOf .f32).decode 0x40800000 = .fin false 8388608 (-21) ∧
    (fmtOf .f32).decode 0x40400000 = .fin false 12582912 (-22) ∧ (fmtOf .bf16).decode 0x4040 = .fin false 192 (-6) ∧
    (∀ op ∈ [EstOp.rcp, .rsq, .log2], estimateExact op (fmtOf .f32) false 12582912 (-22) = none ∧
      estimateExact op (fmtOf .bf16) false 192 (-6) = none) ∧
    estimateExact .exp2 (fmtOf .f32) false 12582912 (-23) = none ∧
    (1 - ((fmtOf .f32).bias : Int) ≤ -1 ∧ (1 : Int) ≤ ((fmtOf .f32).bias : Int)) :=
  ⟨by decide, by decide, ⟨_, rfl⟩, by decide, by decide, by decide, by decide, by decide, by decide, by decide, by decide⟩

theorem witness_FloatVectorResults_powers :
    |Claims.ratOf false 8388608 (-22)| = (2 : ℚ) ^ (1 : Int) ∧ Claims.ratOf false 8388608 (-21) = (2 : ℚ) ^ (2 * (1 : Int)) ∧
    Claims.ratOf false 8388608 (-22) = ((2 : Int) : ℚ) := by
  norm_num [Claims.ratOf]

theorem witness_VectorCompareSelect :
    (withRegs []).me.getP yes.p ≠ yes.pn ∧ (ElemTy.u8).isInt = true ∧ VCond.ge ≠ .un ∧ VCond.ge ≠ .ord ∧ (2 : KReg) ≠ 0 := by
  decide

theorem witness_VectorConversions :
    (withRegs []).me.getP yes.p ≠ yes.pn ∧ (ElemTy.e5m2).isFp8 = true ∧ q8Wide .bf16 = true := by decide

theorem witness_CrossLaneOperations :
    (withRegs []).me.getP yes.p ≠ yes.pn ∧ (ElemTy.i64).isInt = true ∧ (ElemTy.e4m3).isInt = false := by decide

theorem witness_MaskInstructions : (withRegs []).me.getP yes.p ≠ yes.pn := by decide

/-- The access is checked and its events read, without a fault. -/
def loads (s : State) (addr : Word) (n : Nat) (vec : Bool := false) : Bool :=
  s.me.part.isNone && !s.split && okAnd (checkAccess (s.who s.cur) (loadKind .norm) addr n s) fun ps s1 =>
    okAnd (runEvents (readOne (s.who s.cur) .norm) (laneEvents 0 vec 0 ps) [] s1) fun _ s2 => s2.me.part.isNone

/-- The access is checked and its events write a value. -/
def stores (s : State) (addr : Word) (n v : Nat) (vec : Bool := false) : Bool :=
  s.me.part.isNone && !s.split && okAnd (checkAccess (s.who s.cur) (storeKind .norm) addr n s) fun ps s1 =>
    okAnd (runEvents (fun e => writeOne (s.who s.cur) .norm (v / 2 ^ (8 * e.off)) e) (laneEvents 0 vec 0 ps) [] s1) fun _ s2 =>
      s2.me.part.isNone

/-- Every size of a load, at the start of the window; the last place of one in the window. -/
theorem witness_LoadsAndStores_scalar :
    ([1, 2, 4, 8, 16].all fun n => loads (withRegs [(5, win)]) win n) = true ∧
    loads (withRegs []) 0xFF0000000007FFF8 8 = true := by decide

theorem witness_LoadsAndStores_vector :
    ([32, 33].all fun n => loads (withRegs [(5, win)]) win n true) = true := by decide

/-- The largest store, at the end of the window; what each form stores. -/
theorem witness_LoadsAndStores_stores :
    stores (withRegs []) 0xFF0000000007FFDF 33 5 true = true ∧ stores (withRegs []) win 8 5 = true ∧
    (Claims.storedValue (withRegs []).me 4 (.st .q .norm 4 5 (.short 0))).map Prod.fst = some 16 ∧
    (Claims.storedValue (withRegs []).me 4 (.vst .s8 .norm 4 5 (.short 0))).map Prod.fst = some 33 ∧
    (Claims.storedValue (withRegs []).me 4 (.vst .d .norm 4 5 (.short 0))).map Prod.fst = some 32 := by decide

/-- A split load and store over two lines: the first event, and one that is kept. -/
theorem witness_LoadsAndStores_split :
    (let s := { withRegs [] with split := true }
     let a : Word := 0xFF0000000000003C
     s.me.part.isNone = true ∧
     okAnd (checkAccess (s.who 0) (loadKind .norm) a 8 s) (fun ps s1 => (laneEvents 0 false 0 ps).length == 2 &&
       (laneEvents 0 false 0 ps).head?.any fun e => okAnd (readOne (s.who 0) .norm e s1) fun _ _ => true) = true ∧
     okAnd (checkAccess (s.who 0) (storeKind .norm) a 8 s) (fun ps s1 => (laneEvents 0 false 0 ps).length == 2 &&
       (laneEvents 0 false 0 ps).head?.any fun e => okAnd (writeOne (s.who 0) .norm 5 e s1) fun _ _ => true) = true) := by decide

/-- A load of global space: nothing on its way to memory, no map, no non-coherent page. -/
theorem witness_LoadsAndStores_frame :
    ((mapped [] 0).cores.all fun e => e.2.folds.isEmpty && e.2.smap.toList.all fun m => !m.getLsbD 63) = true ∧
    (mapped [] 0).fab.heldFolds = [] ∧ (mapped [] 0).msys.posted = [] ∧ (mapped [] 0).msys.nc = [] ∧
    okAnd (checkAccess ((mapped [] 0).who 0) .load 0x10000 8 (mapped [] 0)) (fun ps _ => ps.all fun p => !p.loc.nc) = true := by
  decide

/-- Its event reads. -/
theorem witness_LoadsAndStores_global :
    okAnd (runEvents (readOne ((mapped [] 0).who 0) .norm)
      (laneEvents 0 false 0 [{ va := 0x20000, n := 8, loc := { space := .dev, addr := 0x20000 } }]) [] (mapped [] 0))
      (fun _ s2 => s2.me.part.isNone) = true := by decide

/-- The last place in the window for eight bytes. -/
theorem witness_StoreFrames_window :
    (0xFF00000000000000 ≤ (0xFF0000000007FFF8#64).toNat ∧ (0xFF0000000007FFF8#64).toNat - 0xFF00000000000000 + 8 ≤ 0x80000) ∧
    ((withRegs []).core 0).smap.toList.all (fun m => !m.getLsbD 63) = true ∧ ((withRegs []).core 0).mem.wf = true ∧
    ((withRegs []).core 0).poison = [] ∧ (withRegs []).me.part = none ∧ (withRegs []).split = false := by decide

/-- A store across two pages of global space, and one in a page. -/
theorem witness_StoreFrames :
    (mapped [] 0).memoryOk = true ∧ ((mapped [] 0).cores.all fun e => e.2.folds.isEmpty) = true ∧
    (mapped [] 0).fab.heldFolds = [] ∧ (mapped [] 0).msys.posted = [] ∧ (mapped [] 0).msys.nc = [] ∧
    okAnd (checkAccess ((mapped [] 0).who 0) .store 0x1FFFC 8 (mapped [] 0)) (fun ps _ =>
      ps.length == 2 && ps.all fun p => !p.loc.nc) = true ∧
    okAnd (checkAccess ((mapped [] 0).who 0) .store 0x1FFF8 8 (mapped [] 0)) (fun ps _ =>
      ps == [{ va := 0x1FFF8, n := 8, loc := { space := .dev, addr := 0x1FFF8 } }]) = true ∧
    (mapped [] 0).mgmt.hostUp = true := by decide +kernel

/-- The event of the latter writes. -/
theorem witness_StoreFrames_event :
    okAnd (runEvents (fun e => writeOne ((mapped [] 0).who 0) .norm (5 / 2 ^ (8 * e.off)) e)
      (laneEvents 0 false 0 [{ va := 0x1FFF8, n := 8, loc := { space := .dev, addr := 0x1FFF8 } }]) [] (mapped [] 0))
      (fun _ s2 => s2.me.part.isNone) = true := by decide

/-- Each clause at a border of its range: one byte past the end of the address space, the hole's ends, the end of global
space, the window's end, and a map that starts where the access ends. -/
theorem witness_AccessFaults :
    2 ^ 64 < (0xFFFFFFFFFFFFFFFF#64).toNat + 2 ∧
    (2 ^ 56 ≤ (0x100000000000000#64).toNat ∧ (0xFEFFFFFFFFFFFFFF#64).toNat < 0xFF00000000000000) ∧
    (0xFF00000000080000 ≤ (0xFF00000000080000#64).toNat ∧ (0xFF00000000080000#64).toNat + 64 ≤ 2 ^ 64) ∧
    ((0xFFFFFFFFFFFFFF#64).toNat < 2 ^ 56 ∧ 2 ^ 56 < (0xFFFFFFFFFFFFFF#64).toNat + 2) ∧
    ((0xFF0000000007FFFF#64).toNat < 0xFF00000000080000 ∧ 0xFF00000000080000 < (0xFF0000000007FFFF#64).toNat + 2) ∧
    overStash { smap := .replicate 8 0x8440000000000000 } 0xFF00000000007FF9 0xFF00000000008000 = true ∧
    overStash { smap := .replicate 8 0x8440000000000000 } 0xFF00000000007FF8 0xFF00000000007FFF = false ∧
    faultOf (checkAccess ((withRegs []).who 0) .load 0xFF00000000080000 8 (withRegs [])) = 6 ∧
    faultOf (checkAccess ((withRegs []).who 0) .store 0xFF0000000007FFFC 8 (withRegs [])) = 7 := by decide

/-- Thread set 0 with two active lanes in K[1], for lanes of 32 bits. -/
def twoLanes : State := only 0 ((regs [(6, win), (7, 4)]).setK 1 0x11)

/-- The strided and the indexed addresses of its active lanes. -/
def strided (t : ThreadSet) : List (Nat × Word) := activeAddrs t 1 .f32 fun j => win + BitVec.ofNat 64 j * 4
def indexed (t : ThreadSet) : List (Nat × Word) :=
  activeAddrs t 1 .f32 fun j => win + (BitVec.ofNat 32 (laneOf (t.getV 8) 32 (j % 8))).signExtend 64

/-- Lanes that pass their checks and are read, at stride 4 and at the indices of V[b]. -/
theorem witness_VectorMemory_loads :
    twoLanes.me.getP yes.p ≠ yes.pn ∧ twoLanes.me.part = none ∧ twoLanes.split = false ∧
    okAnd (laneAccesses (twoLanes.who 0) (loadKind .norm) 4 (strided twoLanes.me) twoLanes) (fun es s1 => es.length == 2 &&
      okAnd (runEvents (readOne (twoLanes.who 0) .norm) es [] s1) fun got s2 => got.length == 2 && s2.me.part.isNone) = true ∧
    okAnd (laneAccesses (twoLanes.who 0) (loadKind .norm) 4 (indexed twoLanes.me) twoLanes) (fun es s1 => es.length == 2 &&
      okAnd (runEvents (readOne (twoLanes.who 0) .norm) es [] s1) fun _ s2 => s2.me.part.isNone) = true := by decide +kernel

/-- Lanes that are written; a broadcast with an active lane, and one with none of its lanes active. -/
theorem witness_VectorMemory_others :
    okAnd (laneAccesses (twoLanes.who 0) (storeKind .norm) 4 (indexed twoLanes.me) twoLanes) (fun es s1 => es.length == 2 &&
      okAnd (runEvents (fun e => writeOne (twoLanes.who 0) .norm (laneOf (twoLanes.me.getV 9) 32 e.lane / 2 ^ (8 * e.off)) e) es [] s1)
        fun _ s2 => s2.me.part.isNone) = true ∧
    okAnd (memRead (twoLanes.who 0) .norm win 4 twoLanes) (fun _ s1 => s1.me.part.isNone) = true ∧ 0 < (ElemTy.f32).lanes ∧
    active (twoLanes.me.getK 1) 0 = true ∧
    ((List.range (ElemTy.f32).lanes).all fun j => !active ((twoLanes.me.setK 2 0xFFFFFF00).getK 2) j) = true := by decide

/-- Misaligned addresses, and an atomic of each size in the window. -/
theorem witness_AtomicResults :
    ((0xFF00000000000004#64).toNat % 8 ≠ 0 ∧ (0xFF00000000000008#64).toNat % 16 ≠ 0 ∧ (0xFF00000000000002#64).toNat % 4 ≠ 0) ∧
    okAnd (atomicPieces ((withRegs []).who 0) .rmw win 16 true (withRegs [])) (fun ps s1 =>
      ps == [{ va := win.toNat, n := 16, loc := { space := .core 0, addr := 0 } }] &&
      okAnd (needClean ((withRegs []).who 0) ps s1) fun _ _ => true) = true ∧
    okAnd (rmw ((withRegs []).who 0) [{ va := win.toNat, n := 16, loc := { space := .core 0, addr := 0 } }] (fun v => some (v + 1))
      (withRegs [])) (fun old s2 => old == 0 && s2.me.part.isNone) = true := by decide

/-- The place of an atomic in global space. -/
def piece20000 : Piece := { va := 0x20000, n := 8, loc := { space := .dev, addr := 0x20000 } }

/-- An atomic and a folded one in global space. -/
theorem witness_AtomicResults_global :
    okAnd (atomicPieces ((mapped [] 0).who 0) .rmw 0x20000 8 true (mapped [] 0)) (fun ps s1 =>
      ps == [piece20000] && okAnd (needClean ((mapped [] 0).who 0) ps s1) (fun _ _ => true)) = true ∧
    okAnd (rmw ((mapped [] 0).who 0) [piece20000] (fun v => some (v + 1)) (mapped [] 0)) (fun _ s2 => s2.me.part.isNone) = true ∧
    okAnd (atomicPieces ((mapped [] 0).who 0) { r := true, w := true, fold := true } 0x20000 4 true (mapped [] 0)) (fun ps _ =>
      ps == [{ piece20000 with n := 4 }]) = true ∧
    (foldIn ((mapped [] 0).who 0) 0 [{ piece20000 with n := 4 }] .add .i32 1 (mapped [] 0)).me.part = none := by decide

/-- A misaligned counter; one that has reached its target exactly; one that is just below it. -/
theorem witness_FencesAndWaits :
    (0xFF00000000000007#64).toNat % 8 ≠ 0 ∧ win.toNat % 8 = 0 ∧
    okAnd (memRead ((withLocal [] [(0, 5)]).who 0) .unc win 8 (withLocal [] [(0, 5)])) (fun v s1 =>
      decide (5 ≤ v) && decide (v < 6) && s1.me.part.isNone) = true ∧
    (Scope.core, 1) ∈ [(Scope.core, 1), (.cluster, 2), (.die, 3), (.pkg, 4)] ∧ (Scope.sys, 6) ∈ [(Scope.fab, 5), (.sys, 6)] := by
  decide

/-- A fence that nothing holds up; one that has met a failed peer; one that waits; folds that are held, and none. -/
theorem witness_FencesAndWaits_ends :
    (let u := placeFolds (withRegs []) 0 6
     failedPeer u u.me.toPeers = none ∧ parkedPeer u u.cur = none ∧ hostPending u u.cur = false ∧ foldsHeld u u.cur = false) ∧
    (let u := placeFolds ((withPeer [] .failed).setTs 0 { (withPeer [] .failed).ts 0 with toPeers := [(3, none)] }) 0 6
     failedPeer u u.me.toPeers = some 3) ∧
    (let u := placeFolds (parked 0) 0 6
     failedPeer u u.me.toPeers = none ∧ parkedPeer u u.cur = some 3) ∧
    (let u := placeFolds ((withPeer [] (.retraining 0)).setCore 0 { folds := [fold3] }) 0 6
     foldsHeld u u.cur = true) := by decide

/-- A core whose tile 0 of f32 is formed, and whose slot 3 holds the image of a format. -/
def engine (l : List (Reg × Word)) (f : MFmt) (sp : Option Sparsity) : State :=
  (withRegs l).setCore 0 { halves := .replicate 8 (some (.f32, 0)),
                           slots := .replicate 8 { desc := some (descOf f sp) } }

/-- A control word: slot 3, tile 0, f32 tiles from two formats. -/
def ctl (zf : Bool) (f : MFmt) : MacCtl := ⟨zf, 3, 0, .none, 2, .full, f, f, 1, 0⟩

/-- A dense product from local memory and from `qa`, and a sparse one. -/
theorem witness_MatrixCommandsAccepted_local :
    Claims.macReady (engine [(4, win)] .bf16 none) (ctl false .bf16) none (.localMem 4 0) 0 := by
  simp only [Claims.macReady, Claims.inLocal]
  decide

theorem witness_MatrixCommandsAccepted_queue :
    Claims.macReady (engine [] .bf16 none) (ctl false .bf16) none .qa 0 := by
  simp only [Claims.macReady, Claims.inLocal]
  decide

theorem witness_MatrixCommandsAccepted_sparse :
    Claims.macReady (engine [] .bf16 (some ⟨2, 0⟩)) (ctl true .bf16) (some ⟨2, 0⟩) .qa 0 := by
  simp only [Claims.macReady, Claims.inLocal]
  decide

/-- A full queue and one with room; a tile that is not formed; a slot with another descriptor; a load of a whole image; a
drain. -/
theorem witness_MatrixCommandsAccepted :
    (withRegs []).me.getP yes.p ≠ yes.pn ∧
    8 ≤ (List.replicate 8 ({ id := 0, ts := 0, instr := .nop, pc := 0 } : MCmd)).length ∧
    ((engine [] .bf16 none).core 0).mq.length < 8 ∧
    ((ctl false .bf16).zf = false ∧ formed (viewOf {}).halves (ctl false .bf16).tileFmt 0 = false) ∧
    ((ctl true .bf16).zf = true ∧ (viewOf {}).descs[(ctl true .bf16).slot] ≠ some (descOf (ctl true .bf16).bfmt none)) ∧
    (inWindow win.toNat = inWindow (win.toNat + 32831) ∧ win.toNat % 64 = 0 ∧
      okAnd (checkAccess ((withRegs []).who 0) .load win 32832 (withRegs [])) (fun _ _ => true) = true) ∧
    (formed (viewOf ((engine [] .bf16 none).core 0)).halves .f32 0 = true ∧ TileFmt.indexOk .f32 0 = true ∧
      Claims.inLocal ((engine [] .bf16 none).core 0) win (31 * 64 + 64)) ∧
    (withRegs []).me.getP yes.p ≠ yes.pn ∧ ((withRegs []).core 0).mq = [] := by
  simp only [Claims.inLocal]
  decide

/-- The rows of R189 for a product: a tile that is formed, a slot that matches, rows within it and past them; the bypass; local
memory that straddles, that lies outside, and that is misaligned. A drain of a tile that is formed in another format. -/
theorem witness_MatrixCommandsAccepted_rows :
    (let v := viewOf ((engine [] .bf16 none).core 0)
     (formed v.halves (ctl false .bf16).tileFmt 0 = true ∧ v.descs[(ctl false .bf16).slot] = some (descOf (ctl false .bf16).bfmt none) ∧
       v.descs[(ctl false .bf16).slot] ≠ some (descOf .f32 none)) ∧
     ((0 + 1) * MFmt.k .bf16 ≤ logicalRows .bf16 none ∧ ¬ (1023 + 1) * MFmt.k .bf16 ≤ logicalRows .bf16 none) ∧
     v.tag ≠ some (MFmt.et .bf16) ∧ (ctl false .bf16).scale ≠ .blk ∧
     (formed v.halves .f32 0 = true ∧ TileFmt.indexOk .f32 0 = true ∧ formed v.halves .i32 0 = false)) ∧
    (∀ f ∈ [TileFmt.f32, .bf16, .f16, .i32, .f64], f.indexOk 1 = true → formed (viewOf {}).halves f 1 = false) ∧
    (inWindow 0xFF0000000007FFE0 = true ∧ inWindow (0xFF0000000007FFE0 + 2048 - 1) = false) ∧ inWindow 0x20000 = false ∧
    Claims.inLocal ((engine [] .bf16 none).core 0) 0xFF00000000000008 2048 ∧ (0xFF00000000000008#64).toNat % 32 ≠ 0 := by
  simp only [Claims.inLocal]
  decide

/-- A core with one command at the head of its matrix queue. -/
def runs (i : Instr) (a b : Word) : State :=
  (engine [] .bf16 none).setCore 0 { (engine [] .bf16 none).core 0 with
    mq := [{ id := 4, ts := 0, instr := i, pc := 0x1000, a, b }] }

/-- The commands of MATRIX_COMMAND_START, each at the head of the queue. -/
theorem witness_MatrixCommands_run :
    ([Instr.mzero yes .i32 3, .mclrs yes 2, .mstat yes 5 7, .mmac yes (ctl false .bf16) (.localMem 4 0) 0,
      .mdrain yes .bf16 .rne .none .f32 0 5 6 7 0 (.short 0), .mdraina yes .i8 .rne .none .i32 2 (.short 3),
      .mwld yes .bf16 3 5 (.dense 6 (.short 0)), .mdrainq yes .f32 .rne .none .f32 0].all fun i =>
        let k := (runs i win 64).core 0
        decide (0 < 4096) && (k.mq.head?.map fun m => m.instr == i && !m.started && !m.done && !m.orphan) == some true &&
          Memory.wf k.acc && Memory.wf k.mem && k.poison.isEmpty) = true ∧
    ((ctl false .bf16).scale = .none ∧ (ctl false .bf16).tileFmt.indexOk (ctl false .bf16).tile.val = true ∧
      ((runs .nop win 64).core 0).slots[(ctl false .bf16).slot].poisoned = false) ∧
    32 * (ElemTy.bf16).bytes ≤ (64#64).toNat ∧ TileFmt.indexOk .i32 3 = true := by decide

/-- None of them waits for a link; one that reads through a link that is not up waits. -/
theorem witness_MatrixCommands_links :
    (let i : Instr := .mmac yes (ctl false .bf16) (.localMem 4 0) 0
     (((runs i win 64).core 0).mq.all fun m => !matrixWaits (runs i win 64) 0 m && m.earlyAt.isEmpty && m.landed.isEmpty &&
       coreOf m.ts == 0 && !m.orphan) = true) ∧
    (let m : MCmd := { id := 4, ts := 0, instr := .mwld yes .bf16 3 5 (.dense 6 (.short 0)), pc := 0x1000, a := 0x20000,
                       pages := [(2, { space := .peer 3, addr := 0 })] }
     matrixWaits ((withPeer [] (.retraining 0)).setCore 0 { mq := [m] }) 0 m = true) := by decide

/-- An image in local memory, and a side array there, with nothing written since its load was issued. -/
theorem witness_MatrixCommands_images :
    (Claims.inLocal ((runs .nop win 64).core 0) win 32832 ∧ ((runs .nop win 64).core 0).poison = []) ∧
    (let sl : Slot := { desc := some (descOf .bf16 (some ⟨2, 0⟩)), side := 0xFF00000000010000 }
     Claims.inLocal ((runs .nop win 64).core 0) (BitVec.ofNat 64 sl.side) 4096 ∧ sideLen .bf16 (some ⟨2, 0⟩) = 4096 ∧
     sl.side < 2 ^ 64 ∧ sl.poisoned = false ∧ mwldSparse (.sparse 8 (.short 0) ⟨2, 0⟩ 9) = some ⟨2, 0⟩) ∧
    (0 + 1) * MFmt.k .bf16 ≤ logicalRows .bf16 (some ⟨2, 0⟩) ∧ (runs .nop win 64).msys.past = [] ∧
    pageMap [{ va := win.toNat, n := 32832, loc := { space := .core 0, addr := 0 } }] ≠ [] := by
  simp only [Claims.inLocal]
  decide

theorem witness_MatrixCommands_past (l : Loc) : pastLines (runs .nop win 64) l 0 = [] := rfl

/-- A command that is done, and an `mwait` of the next thread set that waits for it. -/
theorem witness_MatrixCommands_completion :
    (let m : MCmd := { id := 0, ts := 0, instr := .mstat yes 5 7, pc := 0, done := true }
     let s := ((withRegs []).setTs 1 { status := .waitMatrix 1 }).setCore 0 { mq := [m] }
     (s.core 0).mq = m :: [] ∧ m.done = true ∧ m.out = [] ∧ m.orphan = false ∧
     (s.tsets.all fun e => match e.2.status with | .ending _ => false | _ => true) = true ∧ 4 * 0 + 1 ≠ m.ts ∧
     (s.ts 1).status = .waitMatrix 1 ∧ tokenReg m.instr = 5 ∧ (ctl false .bf16).tileFmt ≠ .i32 ∧
     MacCtl.tileFmt ⟨false, 3, 0, .none, 2, .i32, .i8, .u8, 1, 0⟩ = .i32) := by decide

/-- A layout record of a row of 16 bytes, at the start of the window, for a tensor at its byte 0x1000. -/
def withRecord (l : List (Reg × Word)) : State :=
  withLocal l [(0, 0xFF00000000001000), (24, 0x10100), (32, 16), (48, 1), (80, 16)]

/-- Its 192 bytes. -/
def record16 : BitVec 1536 :=
  BitVec.ofNat 1536 (0xFF00000000001000 + 2 ^ 192 * 0x10100 + 2 ^ 256 * 16 + 2 ^ 384 + 2 ^ 640 * 16)

/-- A full queue; the largest length, one more; rows, a map; the limits of `stwb`, and of the places of `pub`. -/
theorem witness_TileCommands :
    (withRegs []).me.getP yes.p ≠ yes.pn ∧ 16 ≤ (List.replicate 16 newTCmd).length ∧ ((withRegs []).core 0).tq.length < 16 ∧
    (withRegs []).me.part = none ∧
    (2 ^ 32 < (0x100000001#64).toNat ∧ (0x100000000#64).toNat ≤ 2 ^ 32 ∧ checkRange {} false 0 (2 ^ 32) = .fine ∧
      checkRange {} false win.toNat 0x80000 = .fine) ∧
    checkRows {} win.toNat 64 64 8192 = .fine ∧
    mapOk {} 7 0x847FC00000000000 = false ∧ mapOk {} 7 0x8400000000000000 = true ∧
    2 ^ 56 ≤ (0x100000000000000#64).toNat := by decide

/-- A record and its box. -/
theorem witness_TileCommands_box :
    (parseRecord win.toNat record16).map (fun l => decide (denseExtent l ≤ 2 ^ 32) && decide (l.box.foldl (· * ·) 1 ≤ 2 ^ 24) &&
      (checkBox ((withRecord []).core 0) l (originOf 0)).2 == .fine &&
      checkRange ((withRecord []).core 0) false 0x20000 (denseExtent l) == .fine) = some true := by decide

/-- The record is read. -/
theorem witness_TileCommands_record :
    okAnd (useRecord ((withRecord []).who 0) win (withRecord [])) (fun r s1 => r == record16 && s1.me.part.isNone) = true := by
  decide +kernel

theorem witness_TileCommands_transfer :
    (let s := withRegs []
     Claims.inLocal (s.core 0) win 64 ∧ coreHolds s 0 0 = true ∧ (0 : Word).toNat % 8 = 0 ∧ (0 : Word).toNat ≤ 2 ^ 24) := by
  simp only [Claims.inLocal]
  decide

/-- The same package with its page in cloak region 5. -/
def cloaked : State := writeNum (mapped [] 0) .dev none placeTable (0x801F + 5 * 2 ^ 56) 8

theorem witness_TileCommands_pub :
    okAnd (checkAccess (cloaked.who 0) .store 0x20000 1 cloaked) (fun ps _ =>
      (ps.findSome? fun p => p.loc.cloak) == some 5) = true ∧
    okAnd (checkAccess ((withRegs []).who 0) .store win 1 (withRegs [])) (fun ps _ =>
      (ps.findSome? fun p => p.loc.cloak).isNone) = true := by decide

/-- A fabric of two packages, and a collective record of both in device memory. -/
def withCollective : State :=
  let s := mapped [(6, 0x20000), (7, 0x30000), (8, 0x40000)] 0
  let s := writeNum s .dev none 0x20000 (9 + 2 * 2 ^ 32 + 0x20100 * 2 ^ 64) 16
  let s := writeNum s .dev none 0x20100 0x0100 2
  { s with fab := { s.fab with cols := 2, peers := [{ id := 1, incarnation := 1 }] } }

theorem witness_TileCommands_coll :
    okAnd (collRecord (withCollective.who 0) 0x20000 withCollective) (fun r s1 =>
      r == { id := 9, rank := 0, peers := [0, 1] } && s1.me.part.isNone) = true := by decide +kernel

/-- Buffers at the end of global space. -/
theorem witness_TileCommands_buffers :
    (0x30000#64).toNat + 4096 ≤ 2 ^ 56 ∧ (0xFFFFFFFFFFF000#64).toNat + 4096 ≤ 2 ^ 56 := by decide

/-! ### Witnesses: events -/

/-- A late result, of a thread set that runs on and of one that has ended; one that waits for a peer. -/
theorem witness_WaitsAndPosts_results :
    (let w : Writeback := { ts := 0, instr := .ld .d .norm 4 5 (.short 0), snap := {} }
     let s : State := { withRegs [] with faults := { writebacks := [w, { w with orphan := true }, { w with peer := some 3 }] } }
     s.faults.writebacks[0]? = some w ∧ w.peer = none ∧ w.orphan = false ∧
     s.faults.writebacks[1]? = some { w with orphan := true } ∧ s.faults.writebacks[2]? = some { w with peer := some 3 } ∧
     ((withPeer [] (.retraining 0)).peer? 3).map (fun x => x.link) = some (.retraining 0) ∧
     (let v : Writeback := { w with peer := some 256 }
      let t : State := { s with faults := { writebacks := [v, w] }, mgmt := { hostUp := false } }
      t.mgmt.hostUp = false ∧ v ∈ t.faults.writebacks.take 1 ∧ v.ts = w.ts ∧ v.peer.isSome = true)) := by decide

/-- Thread set 0 waits. -/
def waiting (st : Status) (x : ThreadSet) : State := { tsets := [(0, { x with status := st })] }

/-- Waits that can end: room in `qa`, an entry in `qr`, a counter that has reached its target, a phase that has completed; and
one of a halted thread set. -/
theorem witness_WaitsAndPosts_waits :
    (((waiting (.waitQueue (.qput 3)) {}).ts 0).status = .waitQueue (.qput 3) ∧
      ((waiting (.waitQueue (.qput 3)) {}).ts 0).qa.length < 16) ∧
    ((waiting (.waitQueue (.qgetQr 3)) { qr := [5] }).ts 0).qr = 5 :: [] ∧
    ((waiting .running { halted := true }).ts 0).halted = true ∧
    (let s := (waiting (.waitWake (.cwait 4 1 2)) (regs [(1, win), (2, 5)])).setCore 0 { mem := putNum [] 0 5 8 }
     okAnd (memRead ((Claims.asCur s 0).who 0) .unc win 8 (Claims.asCur s 0)) (fun v s1 => decide (5 ≤ v) && s1.me.part.isNone) = true) ∧
    (let s := inGroup [2, 2] 2 []
     let s := s.setTs 0 { s.ts 0 with status := .waitPhase 0 1 }
     (s.ts 0).status = .waitPhase 0 1 ∧ ((groupOf (Claims.asCur s 0) 0).map fun p => decide (1 < p.2.completed)) = some true) := by
  decide

/-- A fence one clk before 2 ms and at 2 ms; with a failed peer; with a parked access; with host accesses and the link down. -/
theorem witness_WaitsAndPosts_fences :
    (3399999 < 0 + 3400000 ∧ 0 + 3400000 ≤ 3400000) ∧
    (let s : State := waiting (.waitFence (.fence .fab 4) 0) { toPeers := [(3, none)] }
     (s.core 0).folds = [] ∧ failedPeer s (s.ts 0).toPeers = some 3) ∧
    (let w : Writeback := { ts := 0, instr := .st .d .norm 4 5 (.short 0), snap := {}, peer := some 3 }
     let s : State := { waiting (.waitFence (.fence .fab 4) 0) {} with clk := 3400000, faults := { writebacks := [w] } }
     (s.ts 0).status = .waitFence (.fence .fab 4) 0 ∧ (s.core 0).folds = [] ∧ failedPeer s (s.ts 0).toPeers = none ∧
     parkedPeer s 0 = some 3) ∧
    (let s : State := { waiting (.waitFence (.fence .sys 4) 0) { toHost := true } with clk := 3400000, mgmt := { hostUp := false } }
     hostPending s 0 = true ∧ s.mgmt.hostUp = false ∧ failedPeer s (s.ts 0).toPeers = none ∧ parkedPeer s 0 = none) := by decide

/-- A fetch that fails; the 256th issue with another thread set ready, and with none. -/
theorem witness_WaitsAndPosts_issue :
    faultOf (fetchWords ((withRegs []).who 0) 0x100000000000000 (withRegs [])) = 6 ∧
    ((slots [0, 1] 0 255).core 0).run < 256 ∧ 256 ≤ ((slots [0, 1] 0 256).core 0).run ∧ rdy (slots [0, 1] 0 256) 1 = true ∧
    (∀ i < 4, rdy (slots [] 0 256) (4 * 0 + i) = false) := by decide

/-- An outstanding fault of thread set 0 that has not been posted. -/
def outstanding : FaultRec :=
  { handle := 0, ts := 0, launch := 1, source := 0, cls := 2, detail := 0, msg := 0, instr := .div 3 1 2, len := 4 }

/-- A package with that fault, with service on or off on die 0, and messages in the face of the service thread set. -/
def faulting (fsvc : BitVec 4) (n : Nat) : State :=
  let s := (withLaunch placeLaunch {}).setTs 8192 { qf := List.replicate n 1 }
  { s with faults := { recs := [outstanding], dies := .replicate 8 { fsvc, elogb := 0, elogn := 0 } } }

theorem witness_WaitsAndPosts_posts :
    (faulting 8 15).faults.recs[0]? = some outstanding ∧ outstanding.posted = false ∧ waitsForPeer (faulting 8 15) 0 = false ∧
    routeFault (faulting 8 15) outstanding = some (8192, false) ∧ ((faulting 8 15).ts 8192).qf.length < 16 ∧
    16 ≤ ((faulting 8 16).ts 8192).qf.length ∧ routeFault (faulting 0 0) outstanding = none ∧
    ((faulting 8 0).launch? 1).map (fun l => l.handler?.isNone) = some true := by decide

/-- A flush that has begun and one that has dropped its entries; two sibling regions; the last word of a die's memory. -/
theorem witness_HomeEvents :
    (let f : Flush := { asid := 1, start := 0, pages := 1, ts := some 0, dropped := false }
     let s : State := { waiting .waitFlush {} with msys := { flushes := [f, { f with dropped := true }] } }
     s.msys.flushes[0]? = some f ∧ f.dropped = false ∧ flushHeld s { f with dropped := true } = false ∧
     (s.ts 0).status = .waitFlush) ∧
    (let r : Region := { base := 0x20000, size := 32768, wts := 3, rts := 5, reader := none, written := 0 }
     let q : Region := { r with base := 0x28000 }
     let s : State := { clk := 2 ^ 20, msys := { regions := [r, q] } }
     (s.msys.regions.find? fun x => x.base == 0x20000) = some r ∧ s.msys.regions.find? (siblings r) = some q ∧
     s.msys.regions.length ≤ s.msys.regionCap ∧ r.written + 2 ^ 20 ≤ s.clk ∧ s.clk < 1 + 2 ^ 20) ∧
    devOk 0x17FFFFFFF8 = true ∧ devOk 0x1800000000 = false ∧ 0x7FFFF < 0x80000 := by decide

/-- A copy of 5,000 bytes between two places of the local window, and a state that runs it. -/
def copying (n : Nat) (b : Word) : TCmd :=
  { id := 0, ts := 0, launch := 0, instr := .cpy yes 9 4 5 (.reg 6), pc := 0x1000, a := win, b, c := [BitVec.ofNat 64 n] }

def engineRuns (m : TCmd) : State := (withRegs []).setCore 0 { tq := [m] }

/-- Its accesses. -/
def engineWho (s : State) : Who := { s.who 0 with ts := none }

/-- The chunk of a command begins and ends. -/
def runsChunk (w : Who) (m : TCmd) (s : State) : Bool :=
  m.opened.isNone && okAnd (openChunk w m s) fun p s1 => p.2.isEmpty && !s1.split && (elemsWait s1 p.1).isNone &&
    (withClock m.pts (finishElems w false p.1) s1).1.bad.isNone

theorem witness_EngineWork_commands :
    (((engineRuns (copying 5000 0xFF00000000002000)).core 0).tq.find? fun x => x.id == 0) =
      some (copying 5000 0xFF00000000002000) ∧
    (copying 5000 win).finished = false ∧ (copying 5000 win).paused = none ∧ (copying 5000 win).orphan = false ∧
    (copying 5000 win).opened = none ∧ (engineRuns (copying 5000 win)).split = false ∧
    isService 0 = false ∧ (0xFF00000000000000 + 4096 ≤ 0xFF00000000002000) ∧ coreOf (copying 5000 win).ts = 0 ∧
    faultOf (checkAccess (engineWho (engineRuns (copying 5000 0))) .load 0x100000000000000 4096 (engineRuns (copying 5000 0))) = 6 ∧
    ((engineRuns (copying 0 0)).tsets.all fun e => match e.2.status with | .ending _ => false | _ => true) = true ∧
    ({ copying 5000 0 with instr := .stinv yes 9 4 5 } : TCmd).finished = false := by decide

theorem witness_EngineWork_local :
    Claims.inLocal ((engineRuns (copying 5000 0xFF00000000002000)).core 0) 0xFF00000000002000 4096 ∧
    Claims.inLocal ((engineRuns (copying 5000 0xFF00000000002000)).core 0) win 4096 ∧
    ((engineRuns (copying 5000 win)).core 0).poison = [] ∧ ((engineRuns (copying 5000 win)).core 0).mem.wf = true := by
  simp only [Claims.inLocal]
  decide

/-- A chunk of eight bytes that runs. -/
theorem witness_EngineWork_runs :
    (let s := engineRuns (copying 8 0xFF00000000002000)
     runsChunk (engineWho s) (copying 8 0xFF00000000002000) s) = true := by decide

/-- A chunk with one element, new and already applied, the last that its window holds; a bulk copy with bytes to move. -/
theorem witness_EngineWork_chunks :
    (let p : Piece := { va := 0x20000, n := 4, loc := { space := .dev, addr := 0x20000 } }
     let x : Chunk := { copy := 7, seq := 63, core := 0, asid := 1, root := 0, fn := some .add, et := .i32, elems := [(p, some 5)] }
     let s : State := { msys := { flight := [x] } }
     let t : State := { msys := { flight := [x], windows := [{ copy := 7, base := 64, map := 0 }] } }
     s.msys.flight[0]? = some x ∧ chunkPeers x = [] ∧ (∀ e ∈ x.elems, waitsAt s e.1.loc = none) ∧ chunkSeen (chunkWindow t 7) 63 = true ∧
     chunkSeen (chunkWindow s 7) 63 = false ∧ poisoned s .dev 0x20000 4 = false ∧ p.loc.cloak = none ∧
     x.seq < (chunkWindow s 7).base + 64) := by decide

/-- A bulk copy of 64 bytes. -/
def bulk : Packet :=
  { queue := 5, kind := 3, completion := 0, increment := 0, asid := 1, root := placeRoot, lower := 0, upper := 2 ^ 40,
    dst := 0x30000, src := 0x20000, len := 64 }

/-- A package that runs it, with one that is ready and one at its end; its chunk fails, and runs. -/
theorem witness_EngineWork_packets :
    (let s := mapped [] 0
     let w := packetWho bulk
     bulk.ready = false ∧ bulk.next < bulk.len ∧ bulk.len < 2 ^ 64 ∧ bulk.opened = none ∧ inFlight s bulk.copy = [] ∧
     ({ bulk with next := 64 } : Packet).len ≤ 64 ∧ faultOf (checkAccess w .load 0x40000000 64 s) = 5) := by decide

theorem witness_EngineWork_bulk : runsChunk (packetWho bulk) (packetCmd bulk) (mapped [] 0) = true := by decide

/-- A broadcast from rank 1 of two, of 4 elements of f32, seen from rank 0. -/
def broadcast : Instance :=
  { id := 9, cmd := 0, ts := 0, launch := 1, pc := 0x1000, send := 0x30000, recv := 0x40000, count := 4, rank := 0,
    peers := [0, 1], instr := .coll yes .broadcast .add .f32 false false 1 5 6 7 8 (.short 4) }

/-- The member of rank 1. -/
def member (n : Nat) : Member :=
  { pkg := 1, rank := 1, op := .broadcast, fn := .add, et := .f32, n, wire := false, scaled := false, root := 1, send := [1, 2, 3, 4] }

/-- An instance that can start; a lost member; differing parameters; a chunk that can land; one that has ended. -/
theorem witness_EngineWork_collectives :
    (let s : State := { mapped [] 0 with coll := { active := [broadcast], joined := [(9, member 4)] } }
     s.coll.active[0]? = some broadcast ∧ broadcast.started = false ∧ otherRanks broadcast = [1] ∧
     (takeAll 9 (otherRanks broadcast) s.coll.joined).map (fun p => p.1) = some [member 4]) ∧
    ({ broadcast with lost := [1] } : Instance).lost = 1 :: [] ∧
    mismatched { broadcast with started := true, members := [member 5] } = [1] ∧
    mismatched { broadcast with started := true, members := [member 4], rank := 0 } = [] ∧
    1 ∈ mismatched { broadcast with started := true, rank := 1, members := [{ member 5 with rank := 0 }] } ∧
    broadcast.rank ≠ (1#8).toNat ∧ memberOf { broadcast with members := [member 4] } (1#8).toNat = some (member 4) ∧
    broadcast.landed = [] ∧ broadcast.token ≠ 2 ∧ broadcast.copy = 0 ∧
    broadcast.paused = none ∧ broadcast.orphan = false ∧ coreOf broadcast.ts < 2048 := by decide

/-- Its one chunk, and chunks of it that have landed or not. -/
theorem witness_EngineWork_chunk :
    chunksLeft broadcast .broadcast 4 1 = [0] ∧ broadcast.opened = none ∧
    (let c : Chunk := { copy := 7, seq := 0, core := 0, asid := 1, root := 0, fn := some .add, et := .i32, elems := [] }
     let s : State := { msys := { flight := [c] } }
     inFlight s 7 ≠ [] ∧ inFlight s 8 = []) := by decide

/-- The pages of its one chunk. -/
theorem witness_EngineWork_pages :
    okAnd (collPages { (mapped [] 0).who 0 with ts := none, core := hubCore } broadcast 4
      { reads := [], lands := [0, 1, 2, 3] } (mapped [] 0)) (fun pg s1 =>
        pg.lands.length == 4 && (collWaits s1 pg).isNone && !s1.split) = true := by decide

/-- A spawn that has arrived at no dispatcher yet, for element 9 of the element launch, and its answer. -/
def spawn9 : Spawn := { ts := 0, d := 4, launch := 1, pos := 0, elem := 9, arg := 5 }

/-- A pending task of element 9, whose owner is die 2. -/
def task9 : Task := { die := 2, pos := 0, elem := 9, arg := 7 }

/-- The element launch with some pending tasks and running tasks. -/
def dispatching (pending : List Task) (running : List Running) : State :=
  let l : Launch := { elementLaunch with pending, running }
  { withLaunch l { element := true } with disp := { launches := [l], spawns := [spawn9], passDue := [2] } }

/-- A spawn that makes a new task, and one that combines; its answer; a task that a pass grants, and one that it refuses; a
task at its age threshold; one that is held until now. -/
theorem witness_Dispatching_tasks :
    ((dispatching [] []).disp.spawns[0]? = some spawn9 ∧ spawn9.answer = none) ∧
    okAnd (ownerOf { elementLaunch with pending := [] } 9 (dispatching [] [])) (fun d s1 =>
      d == (none, 2) && (s1.launch? 1).isSome) = true ∧
    (task9.pos = spawn9.pos ∧ task9.elem = spawn9.elem) ∧ ({ spawn9 with answer := some 0 } : Spawn).answer = some 0 ∧
    ((dispatching [task9] []).tsets.all fun e => match e.2.status with | .ending _ => false | _ => true) = true ∧
    (2 ∈ (dispatching [task9] []).disp.passDue ∧ task9.pkg = none ∧ roomOn (dispatching [task9] []) 2 ≠ [] ∧ task9.hold ≤ 0) ∧
    3 ∉ (dispatching [task9] []).disp.passDue ∧
    (({ die := 2, pos := 0, elem := 9, ts := some 5 } : Running).elem = task9.elem ∧ 2 = 8 * (9 - elementLaunch.ebase) / elementLaunch.count) ∧
    ({ task9 with age := 64 } : Task).age ≥ elementLaunch.ageLimit ∧
    (({ task9 with hold := 1024 } : Task).hold ≠ 0 ∧ ({ task9 with hold := 1024 } : Task).hold ≤ 1024 ∧
      1023 < ({ task9 with hold := 1024 } : Task).hold) := by decide

/-- A launch with rounds: radius 1, and a seam map in device memory where element 0 has colour 5. -/
def seamLaunch : Launch :=
  { elementLaunch with
    ebase := 0, kernels := [{ offset := 0, element := true, radius := 1, combine := 2, handler := false, hset := 0 }],
    graph := some { addr := 0x20000, offsets := 0x20100, indices := 0x20200, owners := none, seams := some 0x20300, count := 4,
                    single := true },
    pending := [{ die := 0, pos := 0, elem := 0, arg := 0 }] }

def seamMemory : State := writeNum (mapped [] 0) .dev none 0x20300 0x85 1

/-- The launch has started with that memory. -/
def started (l : Launch) : Launch := l.begin seamMemory

def withSeams (l : Launch) : State := { seamMemory with disp := { seamMemory.disp with launches := [started l] } }

/-- The next colour in cyclic order; a launch with rounds that is in none. -/
theorem witness_Dispatching_rounds :
    (nextColour none [7, 5, 63] = some 5 ∧ nextColour (some 5) [5, 7, 63] = some 7 ∧ nextColour (some 63) [5, 63] = some 5) ∧
    ((started seamLaunch).rounds = true ∧ (started seamLaunch).round = none ∧ elementLaunch.rounds = false) := by decide

/-- The colours of its pending tasks, and the one that a round starts with. -/
theorem witness_Dispatching_colours :
    okAnd ((started seamLaunch).pending.mapM (fun t => colourOf (started seamLaunch) t.elem) (withSeams seamLaunch)) (fun cs s1 =>
      cs == [some 5] && (s1.launch? 1).isSome) = true := by decide +kernel

theorem witness_Dispatching_known :
    okAnd (knownColours (started seamLaunch) (withSeams seamLaunch)) (fun known _ =>
      known == [5] && nextColour seamLaunch.lastColour known == some 5) = true := by decide +kernel

/-- A launch in a round; a dispatcher of this package that reports first, one of another, and the last to report. -/
def inRound : Launch := { seamLaunch with round := some 5, unreported := [(none, 0), (some 7, 3)], pending := [] }

theorem witness_Dispatching_reports :
    inRound.round.isSome = true ∧ (none, (0 : Fin 8).val) ∈ inRound.unreported ∧
    (some (7#8).toNat, (3 : Fin 8).val) ∈ inRound.unreported ∧
    (∃ d ∈ inRound.unreported, d ≠ (none, 0)) ∧ (∀ d ∈ [((some 7, 3) : Partition)], d = (some 7, 3)) ∧
    okAnd (pendingColours inRound (none, 0) (withSeams inRound)) (fun cs s1 => cs == [] && (s1.launch? 1).isSome) = true := by
  decide

/-- A dispatcher that reports a colour. -/
theorem witness_Dispatching_report :
    okAnd (pendingColours (started { seamLaunch with round := some 4 }) (none, 0) (withSeams { seamLaunch with round := some 4 }))
      (fun cs _ => cs == [5]) = true := by decide +kernel

/-- A claim of element 9's ball that die 2 has been asked for. -/
def claim9 (answered : Bool) : Claim := { launch := 1, pos := 0, elem := 9, peer := 0, die := 2, answered }

def claiming (l : Launch) (answered : Bool) : State :=
  { withLaunch l {} with disp := { launches := [l], claims := [claim9 answered] } }

/-- A claim that can be answered, one whose answer is under way, and a launch that can be placed. -/
theorem witness_Placement_claims :
    (claiming elementLaunch false).disp.claims[0]? = some (claim9 false) ∧ (claim9 false).answered = false ∧
    okAnd (claimBall elementLaunch (claim9 false) (claiming elementLaunch false)) (fun es s1 => es == [9] &&
      okAnd (lowerAsker elementLaunch (claim9 false) es s1) fun w s2 => !w && s2.launch? 1 == some elementLaunch) = true ∧
    (claim9 true).answered = true ∧
    (([{ task9 with asked := true, awaiting := [(0, 2)] }] : List Task).find? fun t => t.pos == 0 && t.elem == 9) =
      some { task9 with asked := true, awaiting := [(0, 2)] } := by decide

/-- A resident launch of one index, which waits to be placed; a thread set that may start its entry, and one for a task. -/
theorem witness_Placement_start :
    (let l : Launch := { placeLaunch with waiting := true, placed := [] }
     l.element = false ∧ l.waiting = true ∧
     (let s : State := { disp := { launches := [l], queues := [(0, [Entry.index 1 0 0 4])] } }
      coreOf 4 < 2048 ∧ (s.ts 4).status = .free ∧ (s.launch? 1).isSome = true ∧
      (clusterQueue s (clusterOf (coreOf 4))).findIdx? (mayRun s 4) = some 0 ∧
      (clusterQueue s (clusterOf (coreOf 4)))[0]? = some (Entry.index 1 0 0 4))) ∧
    (let s : State := { disp := { launches := [elementLaunch], queues := [(0, [Entry.task 1 0 0 9 5])] } }
     (clusterQueue s 0).findIdx? (mayRun s 63) = some 0 ∧ elementLaunch.graph = none) := by decide

/-- The launch of one index finds a place, the one that the coming choice names. -/
theorem witness_Placement_gang :
    (placeFrom [0] 1 0 [] { picks := [0], disp := { launches := [] } }).map (fun p => p.1) = some [(0, 0)] := by decide

/-- The image of a core of the element launch. -/
def image4097 : Image := { num := 4097, launch := 1 }

/-- A package with it. -/
def preempted (m : Image) : State :=
  let s := (withLaunch elementLaunch {}).setCore 4097 { launch := some 1 }
  { s with disp := { s.disp with images := [m] } }

/-- A core of the element launch, one that does not rest, its image, and the budget at its end and one past it. -/
theorem witness_PreemptionAndHalts :
    (let s := withLaunch elementLaunch { element := true }
     let s := s.setCore 0 { launch := some 1 }
     0 < 2048 ∧ coreIdle s 0 = false ∧ (s.core 0).launch.bind s.launch? = some elementLaunch ∧ elementLaunch.element = true ∧
     coreRests s 0 = true ∧ (s.core 0).folds = [] ∧ (∀ i < 4, foldsHeld s (4 * 0 + i) = false) ∧ savedImage s 0 = none ∧
     savedImage { s with disp := { s.disp with images := [{ image4097 with kept := true }], saved := [(0, 4097)] } } 0 =
       some { image4097 with kept := true }) ∧
    coreRests ((withRegs []).setCore 0 { mq := [{ id := 0, ts := 0, instr := .mzero yes .i32 3, pc := 0 }] }) 0 = false ∧
    (placeLaunch.element = false ∧ higherNeeds (withLaunch placeLaunch {}) placeLaunch = false) ∧
    ((preempted image4097).disp.images[0]? = some image4097 ∧ 4096 ≤ image4097.num ∧ resumable (preempted image4097) 5 = true ∧
     dieOfCore 4097 = dieOfCore 5 ∧ dieOfCore 4097 ≠ dieOfCore 256 ∧ image4097.kept = false ∧
     ({ image4097 with kept := true } : Image).kept = true ∧ (preempted image4097).faults.recs = [] ∧
     (∀ y ∈ (preempted image4097).disp.images, 4096 ≤ y.num) ∧
     ((preempted image4097).core 4097).launch.bind (preempted image4097).launch? = some elementLaunch) ∧
    (let l : Launch := { elementLaunch with budget := 1, used := 1700 }
     l.used ≤ l.budget * 1700 ∧ ¬ ({ l with used := 1701 } : Launch).used ≤ l.budget * 1700) ∧
    (elementLaunch.status < 2 ∧ ((waiting .free { launch := 1 }).tsets.all fun e => e.2.status == .free) = true) := by decide

theorem witness_PreemptionAndHalts_debug :
    (let s := withLaunch placeLaunch {}
     haltSet s (.tset 0) = [0] ∧ haltSet s (.launch 1) = [0] ∧ (s.ts 0).status ≠ .free) ∧
    drained (waiting .running { draining := true }) 0 = true ∧
    drained ((waiting .running { draining := true }).setCore 0 { tq := [newTCmd] }) 0 = false := by decide

/-- The stages of bring-up, the failures, and a state of the management registers for each clause. -/
theorem witness_Management :
    (State.reset.mgmt.powered = true ∧ ({ powered := false } : Mgmt).powered = false) ∧ State.reset.mgmt.ready = false ∧
    ¬(1 ≤ State.reset.mgmt.failure.toNat ∧ State.reset.mgmt.failure.toNat ≤ 3) ∧ ¬(1 ≤ (4#8).toNat ∧ (4#8).toNat ≤ 3) ∧
    State.reset.mgmt.keycmd = none ∧ State.reset.mgmt.biasBusy = false ∧ State.reset.mgmt.endGo = false ∧
    (0x80000001#64).getLsbD 31 = true ∧ endNames State.reset 0x8000000000000001 = [] ∧
    endNames (withLaunch placeLaunch {}) 0x8000000000000001 = [1] ∧
    flushHeld State.reset (biasRange State.reset.mgmt) = false ∧
    flushHeld { State.reset with front := { packets := [{ bulk with opened := some [{ byWord := false, n := 8, src := [piece20000], dst := [] }] }] } }
      { asid := 1, start := 2, pages := 1, ts := none, dropped := false } = true := by decide

/-- A queue record of 2^slots slots, with its state. -/
def recordOf (slots state : Nat) : Nat :=
  joinFields [(8, 0x40000), (1, slots), (1, state), (6, 0), (8, 0x50000), (8, 0x50040), (8, placeRoot), (2, 1), (6, 0), (8, 0),
    (8, 2 ^ 40)]

/-- The front end operates on queue 5, which has a packet of these words at its read index, and memory holds some words. -/
def queued (packet : List Nat) (ws : List (Nat × Nat)) : State :=
  let s := mapped [] 0
  let s := { s with mgmt := { s.mgmt with ready := true, qtable := 0x400000 } }
  let s := writeNum s .dev none 0x400140 (recordOf 2 1) 64
  let s := ws.foldl (fun s e => writeNum s .dev none (8 * e.1) e.2 8) s
  { s with picks := [0x80], front := { s.front with
    mapped := [5],
    queues := [(5, { ring := 0x40000, slots := 4, state := 1, wr := 0x50000, rd := 0x50040, root := placeRoot, asid := 1,
                     lower := 0, upper := 2 ^ 40,
                     slot := some (BitVec.ofNat 512 (joinFields (packet.map fun w => (8, w)))) })] } }

/-- The packet at the head has a kind, with a property. -/
def headAnd (k : Nat) (s : State) (p : Head → State → Bool) : Bool :=
  match headOf 5 (· == k) s with
  | .ok (h, s1) => p h s1
  | .error _ => false

/-- It is ready to start: headReady holds, for no other queue is mapped. -/
def headOk (k : Nat) (s : State) : Bool :=
  headAnd k s fun h s1 => headerZeros (h.word 0) && h.word 1 == 0 &&
    (h.word 3 == 0 || (inBounds h.queue (h.word 3) 16 && h.word 3 % 16 == 0)) && s1.front.mapped == [5]

/-- A packet of each simple kind, with its body. -/
theorem witness_Packets_simple :
    headOk 8 (queued [8, 0, 0, 0x60000, 0, 0, 0, 0] []) = true ∧ headOk 6 (queued [6, 0, 0, 0, 0, 0, 0, 0] []) = true ∧
    headOk 5 (queued [5, 0, 0, 0, 0x60008, 3, 0, 0] []) = true ∧
    headOk 3 (queued [3, 0, 0, 0, 0x60000, 0x70000, 64, 0] []) = true := by decide +kernel

theorem witness_Packets_simple_more :
    headOk 4 (queued [4, 0, 0, 0, 0x60000, 0x70000, 8, 0x41] []) = true ∧ headOk 7 (queued [7, 0, 0, 0, 0x60000, 0, 0, 0] []) = true ∧
    (redType (0x41 / 16 % 16) = some .i32 ∧ redOpOf (0x41 % 4) = some .min) ∧
    queueBusy (queued [6, 0, 0, 0, 0, 0, 0, 0] []) 5 = false ∧
    queueBusy (addPacket { bulk with queue := 5 } (queued [6, 0, 0, 0, 0, 0, 0, 0] [])) 5 = true := by decide +kernel

/-- A packet is consumed after it has been added. -/
theorem witness_Packets_consumed :
    headAnd 8 (queued [8, 0, 0, 0, 0, 0, 0, 0] []) (fun h s1 =>
      (consume h (addPacket { packetOf h with ready := true } s1)).toOption.isSome && counterOk (packetOf h) s1) = true := by
  decide +kernel

/-- A counter that can be written, and one that cannot: outside the mapped pages. -/
theorem witness_Packets_counter :
    counterOk { bulk with completion := 0x60000 } (mapped [] 0) = true ∧
    counterOk { bulk with completion := 0x40000000 } (mapped [] 0) = false := by decide +kernel

/-- The add of a `counter` packet. -/
theorem witness_Packets_add :
    (let w := packetWho bulk
     let s := mapped [] 0
     okAnd (checkAccess w .rmw 0x60008 8 s) (fun ps s2 => okAnd (needClean w ps s2) fun _ s3 =>
       okAnd (rmw w ps (fun x => some (x + 3)) s3) fun old _ => old == 0) = true) := by decide +kernel

/-- A page that an attestation report can be written to is writable; a packet of the first kind that is rejected. -/
theorem witness_Packets_rejected :
    headAnd 9 (queued [9, 0, 0, 0, 0, 0, 0, 0] []) (fun h s1 => decide (9 ≤ h.kind) && h.word 1 == 0 && s1.front.mapped == [5]) = true ∧
    okAnd (checkAccess (packetWho bulk) .store 0x60000 4096 (mapped [] 0)) (fun ps s2 => ps.length == 1 &&
      okAnd (needClean (packetWho bulk) ps s2) fun _ s3 => okAnd (writeAll (packetWho bulk) .norm ps 5 s3) fun _ _ => true) = true ∧
    faultOf (checkAccess (packetWho bulk) .store 0x40000000 4096 (mapped [] 0)) = 5 ∧
    okAnd (checkAccess (packetWho bulk) .store 0x60000 4096 (poisonRange (mapped [] 0) .dev 0x60FF8 8)) (fun ps s2 =>
      faultOf (needClean (packetWho bulk) ps s2) == 9) = true := by
  decide +kernel

/-- A wait counter below its bound, at it, and cancelled. -/
theorem witness_Packets_waits :
    headAnd 8 (queued [8 + 2 ^ 17, 0x60000, 1, 0, 0, 0, 0, 0] [(0xC000, 2 ^ 63)]) (fun h s1 =>
      h.word 1 % 8 == 0 && inBounds h.queue (h.word 1) 8 && h.word 0 / 2 ^ 17 % 2 == 1 &&
      okAnd (memRead (queueWho h.queue) .norm (BitVec.ofNat 64 (h.word 1)) 8 s1) fun v _ => v.testBit 63 && decide (h.word 2 ≤ v)) =
        true ∧
    okAnd (memRead (packetWho bulk) .norm 0x60000 8 (mapped [] 0)) (fun v _ => decide (v < 1)) = true := by decide +kernel

/-- Another queue whose packet goes first: of a higher priority; and one of the same priority that is not. -/
theorem witness_Packets_first :
    (let s := queued [8, 0, 0, 0, 0, 0, 0, 0] []
     let s := writeNum s .dev none 0x400180 (recordOf 2 1) 64
     let x := queueOf s 5
     let s := setQueue s 6 { x with since := some 0, slot := some (BitVec.ofNat 512 8) }
     let s : State := { s with front := { s.front with mapped := [5, 6] } }
     goesFirst s 1 0 6 = true ∧ goesFirst s 0 0 6 = false ∧ 6 ∈ s.front.mapped ∧ (queueOf s 6).slot.isSome = true) := by decide +kernel

/-- An image of one kernel of a kind at 0x70000. -/
def image (kind : Nat) : List (Nat × Nat) :=
  [(0xE000, 0x1000154534853), (0xE001, 64 * 2 ^ 32), (0xE002, 128), (0xE003, 64), (0xE004, 192), (0xE006, 192),
   (0xE008, kind * 2 ^ 32)]

/-- A packet that starts. -/
def starts (k : Nat) (f : Head → Pk Unit) (s : State) : Bool :=
  headAnd k s fun h s1 => (f h s1).toOption.isSome && s1.front.mapped == [5]

/-- A resident launch of one index. -/
theorem witness_Packets_resident :
    starts 1 startResident (queued [1, 0, 0, 0, 0x70000, 0x60000, 0, 0] ((0xC000, 1) :: image 1)) = true := by decide +kernel

/-- An element launch of four elements. -/
theorem witness_Packets_element :
    starts 2 startElement (queued [2, 0, 0, 0, 0x70000, 0x60000, 0, 0] ((0xC003, 4 * 2 ^ 32) :: (0xC004, 2 ^ 32) :: image 2)) =
      true := by decide +kernel

/-- A packet that has ended, with a counter in its bounds, past them, and with none. -/
theorem witness_Packets_completion :
    (let w := packetWho bulk
     okAnd (checkAccess w .rmw 0x60000 8 (mapped [] 0)) (fun c s1 => okAnd (checkAccess w .rmw 0x60008 8 s1) fun _ s2 =>
       okAnd (needClean w c s2) fun _ _ => okAnd (rmw w c (fun x => some (x + 1)) s2) fun _ _ => true) = true) ∧
    faultOf (checkAccess (packetWho bulk) .rmw 0x40000000 8 (mapped [] 0)) = 5 ∧
    (0 ≤ 0x60000 ∧ 0x60000 + 16 ≤ 0x60010) ∧ ¬ (0 ≤ 0x60000 ∧ 0x60000 + 16 ≤ 0x6000F) ∧
    (elementLaunch.pending.all fun y => !(y.pos == 0 && y.elem == 9)) = true ∧ elementLaunch.graph = none := by decide +kernel

/-- The record of queue 0 in device memory, of 2^slots slots: active and legal, or one that breaks R403; and its state. -/
def withRecords (slots state : Nat) : State :=
  let s := mapped [] 0
  let s := { s with mgmt := { s.mgmt with ready := true, qtable := 0x400000 } }
  writeNum s .dev none 0x400000 (recordOf slots state) 64

theorem witness_QueuesAndHost :
    ((withRecords 2 1).mgmt.ready = true ∧ (queueOf (withRecords 2 1) 0).state ≠ 1 ∧ stateByte (withRecords 2 1) 0 = 1 ∧
      (loadQueue (withRecords 2 1) 0).isSome = true ∧ (withRecords 2 1).front.mapped.length < slotCount ∧
      0 ∉ (withRecords 2 1).front.mapped) ∧
    loadQueue (withRecords 1 1) 0 = none ∧
    (let s := setQueue (withRecords 2 0) 0 { state := 1 }
     (queueOf s 0).state = 1 ∧ stateByte s 0 ≠ 1) := by decide +kernel

theorem witness_QueuesAndHost_more :
    (0 + 850000 ≤ 850000 ∧ 849999 < 0 + 850000) ∧ State.reset.memoryOk = true ∧ State.reset.mgmt.hostUp = true ∧
    State.reset.mgmt.powered = true ∧ State.reset.cores = [] ∧ State.reset.fab.heldFolds = [] ∧ State.reset.msys.posted = [] ∧
    State.reset.msys.nc = [] ∧ State.reset.msys.hostPoison = [] ∧ State.reset.tsets = [] ∧ State.reset.split = false ∧
    State.reset.mgmt.hostParts = [] ∧ State.reset.faults.writebacks = [] ∧
    ([0, 1, 2, 3].filter fun i => State.reset.front.inService.getLsbD i) ≠ [] ∧
    (∀ i < 8, devOk (0x17FFFFFFF8 + i) = true) := by decide

/-- Packages 2 and 3 in a fabric of one row, seen from package 0, with two pool channels. -/
def linked (k : Link) (c : Chan) : State :=
  { withRegs [] with fab := { rows := 1, cols := 4, chans := [(8, c)], peers := [{ id := 3, incarnation := 1, link := k }] } }

/-- A channel that carries light in service, out of service, and a dark one; with flits to be acknowledged; the last channel of a
peer. -/
theorem witness_FabricAndLeases_channels :
    (rxLit (linked .up {}) 8 = true ∧ rxLit (linked .up {}) 4 = false ∧ (chanOf (linked .up { down := true }) 8).down = true ∧
      (0#32) = (chanOf (linked .up {}) 8).rxSeq) ∧
    (chanPeer (linked .up {}) 8 = some 3 ∧ (chanOf (linked .up { unacked := [4, 5, 6] }) 8).unacked = [4] ++ 5 :: [6] ∧
      (5#32) ∉ ([4] : List (BitVec 32))) ∧
    (let down : Chan := { down := true }
     let s := linked .up {}
     let t : State := { s with fab := { s.fab with chans := [(9, down), (10, down), (11, down)] } }
     (∀ k ∈ channelsTo t 3, k = 8) ∧ chanPeer t 8 = some 3 ∧ (t.peer? 3).map (·.link) = some .up) ∧
    (((chanPeer (linked .up {}) 8).bind (linked .up {}).peer?).map (·.link) = some .up) := by decide

/-- A link that is up, one 10 ms down, and one clk less; one that has failed; positions of the fabric and one past its extent. -/
theorem witness_FabricAndLeases_links :
    ((linked .up {}).peer? (3#8).toNat).map (·.link) = some .up ∧ (0 + 17000000 ≤ 17000000 ∧ 16999999 < 0 + 17000000) ∧
    channelsTo (linked (.retraining 0) {}) 3 ≠ [] ∧
    ((linked .failed {}).peer? (3#8).toNat).map (fun p => p.incarnation != 2) = some true ∧
    (peerSlot 0 2 = some 1 ∧ (linked .up {}).peer? 2 = none ∧ State.reset.mgmt.dark = false ∧ State.reset.mgmt.powered = true ∧
      State.reset.mgmt.ready = false ∧ State.reset.fab.cols ≤ 3 ∧ 2 < (linked .up {}).fab.cols) := by decide

/-- Nothing waits for a peer there, and no engine, packet or lease is at work. -/
theorem witness_FabricAndLeases_quiet :
    Claims.quiet { linked (.retraining 0) {} with tsets := [] } := by
  simp [Claims.quiet, Claims.calm, linked, withRegs, only]

/-- An entry that lets any peer read and write 64 bytes at 0x30000, and an import table of it at 0x60000. -/
def entry5 : Nat := joinFields [(8, 0x30000), (8, 64), (4, 5), (2, 1), (1, 0), (1, 0x0F), (2, 0), (6, 0)]

def importing : State :=
  let s := mapped [] 0
  let s := writeNum s .dev none 0x60000 entry5 32
  { s with fab := { s.fab with fimpb := 0x60000, fimpn := 1, peers := [{ id := 3, incarnation := 1 }] } }

theorem witness_FabricAndLeases_entry :
    (importing.fab.fimpn.toNat ≤ 1 ∧ ¬ importing.fab.fimpn.toNat ≤ 0) ∧
    (match importEntry importing 0 with | .ok e => e == entry5 | .error _ => false) = true ∧
    (importerOk entry5 3 1 5 0 8 (importKind .read) && !importerOk entry5 3 1 6 0 8 (importKind .read) &&
      !importerOk entry5 3 1 5 57 8 (importKind .read) && importerOk entry5 3 1 5 56 8 (importKind .read)) = true ∧
    rootOf importing (entry5 / 2 ^ 160 % 65536) = some placeRoot := by decide +kernel

theorem witness_FabricAndLeases_import :
    okAnd (performImport 3 1 placeRoot 0x30000 8 .read importing) (fun v _ => v == 0) = true := by decide +kernel

/-- A request or lease of `want` channels, with some channels of the pool. -/
def leasing (active passed closed : Bool) (want : Nat) (c : Nat → PoolChan) : State :=
  { withPeer [] .up with fab := { peers := [{ id := 3, incarnation := 1 }], pool := .ofFn fun i => c i.val,
                                  leases := [{ lease3 active with want, passed, closed, ends := 100 }] } }

/-- Every channel is its own, one is, and every one is another's. -/
def allOwn (_ : Nat) : PoolChan := { tuned := some 3, lease := some 9 }
def oneOwn (retune : Option Nat) (j : Nat) : PoolChan :=
  if j = 0 then { tuned := some 3, lease := some 9, retune } else { tuned := some 3, lease := some 8 }
def noneOwn (_ : Nat) : PoolChan := { tuned := some 3, lease := some 8 }

/-- A request in its first pass, which obtains a channel or none; one that has obtained its count and completes, and one that waits
for more; one that has completed, with its channel tuned, being retuned, and with none. -/
theorem witness_FabricAndLeases_leases :
    (let l : Lease := { lease3 false with ends := 100 }
     l.active = false ∧ l.passed = false ∧
     chansOf (claimPairs l 1 (leasing false false false 1 fun _ => {})) 9 ≠ [] ∧
     (chansOf (claimPairs l 1 (leasing false false false 1 noneOwn)) 9 = [] ∧
       claimedOf (claimPairs l 1 (leasing false false false 1 noneOwn)) 9 = [])) ∧
    (let l : Lease := { lease3 false with passed := true, ends := 100 }
     completes (fillPending (leasing false true false 1 (oneOwn none))) l = true ∧ l.closed = false) ∧
    (let l : Lease := { lease3 false with want := 2, passed := true, ends := 100 }
     completes (fillPending (leasing false true false 2 fun j => { oneOwn none j with claim := if j = 1 then some 9 else none })) l =
       false) := by decide

theorem witness_FabricAndLeases_closed :
    (let l : Lease := { lease3 false with passed := true, closed := true, ends := 100 }
     l.closed = true ∧ (heldOf (fillPending (leasing false true true 1 (oneOwn none))) 9).length = 1 ∧
     heldReady (fillPending (leasing false true true 1 (oneOwn none))) 9 = true ∧
     heldReady (fillPending (leasing false true true 1 (oneOwn (some 100)))) 9 = false ∧
     (heldOf (fillPending (leasing false true true 0 noneOwn)) 9).length = 0) := by decide

/-- A lease one clk before its end and at it; a retune at its end. -/
theorem witness_FabricAndLeases_ends :
    (let s := { leasing true true true 24 allOwn with clk := 100 }
     ({ lease3 true with passed := true, ends := 100 } : Lease).ends ≤ s.clk ∧ (∀ j ∈ chansOf s 9, chanEnd s (poolChan s j) ≤ s.clk) ∧
     ∃ j ∈ chansOf { s with clk := 99 } 9, 99 < chanEnd s (poolChan s j)) ∧
    (100 ≤ 100 ∧ (poolChan (leasing true true true 1 (oneOwn (some 100))) 0).retune = some 100 ∧ 99 < 100) ∧
    (let s := leasing true true true 1 (oneOwn (some 100))
     (poolChan s 0).lease.bind (leasePeer s) = some 3 ∧ (s.peer? 3).isSome = true ∧ ∀ p ∈ s.fab.peers, p.link = .up) := by decide

/-! ### Witnesses: the exact results, the wider forms, and the fabric -/

/-- Types; operands of each kind: finite, zero, negative, infinite, NaN; two infinities of unlike sign; an infinity times a zero. -/
theorem witness_FloatVectorResults_exact :
    ElemTy.e4m3 ∈ Claims.fpTypes ∧ ElemTy.bf16 ∈ [ElemTy.f64, .f32, .bf16, .f16] ∧ (1 : Nat) ≠ 0 ∧
    ((FVal.nan true).isNan || (FVal.fin false 1 0).isNan) = true ∧ ((FVal.inf true).isNan || (FVal.fin false 0 0).isNan) = false ∧
    (FVal.fin false 0 0).isZero = true ∧ (FVal.fin false 1 0).isZero = false ∧ (FVal.inf false ≠ .inf true) ∧
    (FVal.nan false).isNan = true ∧ (FVal.inf true).isNan = false := by decide

/-- Arguments of 2^a of magnitude 8192 and more, on both sides of 0, and just less; of log2, 3/8, 3/2 and 3. -/
theorem witness_FloatVectorResults_functions :
    (fmtOf .f32).decode 0x46400000 = .fin false 12582912 (-10) ∧ (fmtOf .f32).decode 0xC6400000 = .fin true 12582912 (-10) ∧
    (fmtOf .f32).decode 0x45C00000 = .fin false 12582912 (-11) ∧ 12 < (Nat.log2 12582912 : Int) + -10 ∧
    (Nat.log2 12582912 : Int) + -11 ≤ 12 ∧
    (∀ n : Bool, ∀ e ∈ [(-10 : Int), -11], estimateExact .exp2 (fmtOf .f32) n 12582912 e = none) ∧
    (∀ e ∈ [(-25 : Int), -23, -22], estimateExact .log2 (fmtOf .f32) false 12582912 e = none) := by decide

theorem witness_FloatVectorResults_ranges :
    Claims.ratOf false 12582912 (-25) < 1 / 2 ∧ (1 / 2 ≤ Claims.ratOf false 12582912 (-23) ∧ Claims.ratOf false 12582912 (-23) ≤ 2) ∧
    2 < Claims.ratOf false 12582912 (-22) := by
  norm_num [Claims.ratOf]

/-- Operands of a comparison: with a NaN, and −0 with +0. -/
theorem witness_VectorCompareSelect_ordered :
    (((fmtOf .f16).decode 0x7E00).isNan || ((fmtOf .f16).decode 0).isNan) = true ∧
    (((fmtOf .f16).decode 0x8000).isNan || ((fmtOf .f16).decode 0).isNan) = false ∧ ElemTy.f16 ∈ Claims.fpTypes := by decide

/-- Sources of a conversion: an integer that is 0, and one that is not; a NaN, an infinity, a zero and a number; the scale 255. -/
theorem witness_VectorConversions_values :
    (ElemTy.i8).isInt = true ∧ (ElemTy.f16).isInt = false ∧ intVal .i8 0 = 0 ∧ intVal .i8 0x80 ≠ 0 ∧
    (fmtOf .f16).decode 0x7E00 = .nan false ∧ (fmtOf .f16).decode 0xFC00 = .inf true ∧
    (∃ e, (fmtOf .f16).decode 0 = .fin false 0 e) ∧ (fmtOf .f16).decode 0x3C00 = .fin false 1024 (-10) ∧
    (some 255 : Option Nat) = some 255 ∧ (some 254 : Option Nat) ≠ some 255 :=
  ⟨rfl, rfl, by decide, by decide, by decide, by decide, ⟨_, rfl⟩, by decide, rfl, by decide⟩

/-- Windowed sums: with a NaN, with both infinities and with one; of zeros; of numbers below 2^(E+1), one of which reaches 2^E. -/
theorem witness_CrossLaneOperations_windows :
    ([FVal.inf false, .inf true].contains (.inf false) && [FVal.inf false, .inf true].contains (.inf true)) = true ∧
    ([FVal.inf true].contains (.inf false) && [FVal.inf true].contains (.inf true)) = false ∧
    FVal.nan true ∈ [FVal.nan true] ∧ FVal.inf true ∈ [FVal.inf true] ∧ (∀ s, FVal.nan s ∉ [FVal.inf true]) ∧
    (∀ n, FVal.inf n ∉ [FVal.fin true 0 0]) ∧ 0 < 16 ∧ ElemTy.f32 ∈ [ElemTy.f64, .f32] ∧
    (∀ x ∈ [(FVal.nan true, ({ nv := true } : Flags))], x.2 = { nv := x.2.nv }) := by decide

theorem witness_CrossLaneOperations_terms :
    Claims.ratOf true 0 5 = 0 ∧ (2 : ℚ) ^ (1 : ℤ) ≤ |Claims.ratOf true 3 0| ∧ |Claims.ratOf true 3 0| < (2 : ℚ) ^ ((1 : ℤ) + 1) ∧
    |Claims.ratOf false 1 (-9)| < (2 : ℚ) ^ ((1 : ℤ) + 1) := by
  norm_num [Claims.ratOf]

/-- Elements and scales of an accumulation: tiles that are not of `i32`; a NaN, an infinity, a zero and a number as the element, the
sum and the scale. -/
theorem witness_MatrixCommands_float :
    TileFmt.f32 ≠ .i32 ∧ ElemTy.f32 ∈ [ElemTy.f64, .f32, .bf16, .f16] ∧ ((FVal.nan false).isNan = true ∧ (FVal.inf true).isNan = false) ∧
    (fmtOf .f32).decode 0x7FC00000 = .nan false ∧ (fmtOf .f32).decode 0xFF800000 = .inf true ∧
    (fmtOf .f32).decode 0x3F800000 = .fin false 8388608 (-23) ∧ (Exact.fin true 1 0 ≠ .nan) ∧ (TileFmt.i32).et.isInt = true ∧
    (none : Option FVal).getD (.fin false 1 0) = .fin false 1 0 := by decide

/-- The sum with a product that cancels it, and with one that does not. -/
theorem witness_MatrixCommands_sums :
    Claims.ratOf false 8388608 (-23) + Claims.ratOf true 1 0 * Claims.ratOf false 1 0 = 0 ∧
    Claims.ratOf false 8388608 (-23) + Claims.ratOf false 1 0 * Claims.ratOf false 1 0 ≠ 0 := by
  norm_num [Claims.ratOf]

/-- A layout record of an image at the window's byte 0x1000 and a side array at 0x10000; the same with a reserved bit. -/
def imageRecord (flags : Nat) : State :=
  withLocal [(6, win), (7, win)] [(0, 0xFF00000000001000), (8, 0xFF00000000010000), (24, flags)]

/-- Its 192 bytes. -/
def imageRecord192 (flags : Nat) : BitVec 1536 :=
  BitVec.ofNat 1536 (0xFF00000000001000 + 2 ^ 64 * 0xFF00000000010000 + 2 ^ 192 * flags)

theorem witness_MatrixCommandsAccepted_records :
    ([0, 8].all fun n => okAnd (useRecord ((imageRecord n).who 0) win (imageRecord n)) fun r s1 =>
      r == imageRecord192 n && recordZeros r == (n == 0) && s1.me.part.isNone && r.extractLsb' 0 64 == 0xFF00000000001000#64) = true := by
  decide +kernel

theorem witness_MatrixCommandsAccepted_parts :
    (let s := imageRecord 0
     let x := BitVec.ofNat 64 (recAddr win.toNat (imageRecord192 0) 0 0)
     let y := BitVec.ofNat 64 (recAddr win.toNat (imageRecord192 0) 8 1)
     let n := sideLen .bf16 (some ⟨2, 0⟩)
     0 < n ∧ x.toNat % 64 = 0 ∧ y.toNat % 8 = 0 ∧ inWindow (x.toNat + 32831) = true ∧ inWindow (y.toNat + n - 1) = true ∧
     okAnd (checkAccess (s.who 0) .load x 32832 s) (fun _ s1 => okAnd (checkAccess (s.who 0) .load y n s1) fun _ s2 =>
       s2.me.part.isNone) = true ∧
     ((win + 8).toNat % 64 ≠ 0 ∧ (win + 4).toNat % 8 ≠ 0 ∧ (win + 8).toNat % 64 ≠ 0) ∧
     (inWindow 0xFF00000000078000 = true ∧ inWindow (0xFF00000000078000 + 32831) = false) ∧
     okAnd (checkAccess (s.who 0) .load (win + 8) 32832 s) (fun _ _ => true) = true ∧
     okAnd (checkAccess (s.who 0) .load (win + 4) n s) (fun _ _ => true) = true) := by decide

/-- Operands of a product: one that straddles, one under a stash map, neither; an A-bypass of another type and one with a column that
is not valid. -/
theorem witness_MatrixCommandsAccepted_operands :
    (let straddles (o : Word × Nat) : Bool := inWindow o.1.toNat && !inWindow (o.1.toNat + o.2 - 1)
     let k : Core := { smap := .replicate 8 0x8440000000000000 }
     let under (k : Core) (o : Word × Nat) : Bool := overStash k o.1.toNat (o.1.toNat + o.2 - 1)
     let a : Word × Nat := (0xFF0000000007FFE0, 2048)
     let b : Word × Nat := (0xFF00000000007FE0, 64)
     [b, a].find? straddles = some a ∧ [b].find? straddles = none ∧ [b].find? (under k) = some b ∧ [b].find? (under {}) = none ∧
     (viewOf {}).tag ≠ some (MFmt.et .bf16) ∧ (∃ q : Fin 4, q.val < (MFmt.k .bf16 + 31) / 32 ∧ (viewOf {}).valid[q] = false)) := by
  decide

/-- A load of a dense image and of a sparse one at the head of the queue, with their pages. -/
def imageLoad (src : MwldSrc) (side : Bool) : State :=
  let image : Piece := { va := win.toNat, n := 32832, loc := { space := .core 0, addr := 0 } }
  let array : Piece := { va := win.toNat + 0x10000, n := 4096, loc := { space := .core 0, addr := 0x10000 } }
  let m : MCmd := { id := 4, ts := 0, instr := .mwld yes .bf16 3 5 src, pc := 0x1000, a := win, side := win + 0x10000,
                    pages := pageMap (image :: if side then [array] else []) }
  (engine [] .bf16 none).setCore 0 { (engine [] .bf16 none).core 0 with mq := [m] }

theorem witness_MatrixCommands_loads :
    ([(MwldSrc.dense 6 (.short 0), false), (.sparse 6 (.short 0) ⟨2, 0⟩ 7, true), (.recSparse 6 ⟨2, 0⟩, true)].all fun p =>
      let s := imageLoad p.1 p.2
      (s.core 0).mq.all fun m => !matrixWaits s 0 m && !m.started && !m.done && m.earlyAt.isEmpty && m.landed.isEmpty &&
        coreOf m.ts == 0 && sideLen .bf16 (mwldSparse p.1) == (if p.2 then 4096 else 0)) = true := by decide

theorem witness_MatrixCommands_window :
    (let s := imageLoad (.sparse 6 (.short 0) ⟨2, 0⟩ 7) true
     Claims.inLocal (s.core 0) win 32832 ∧ Claims.inLocal (s.core 0) (win + 0x10000) 4096 ∧ (s.core 0).poison = [] ∧
     (s.core 0).acc.wf = true ∧ (s.core 0).mem.wf = true ∧ s.split = false) := by
  simp only [Claims.inLocal]
  decide

/-- A waiting access that has no place in S; a fault that is the first of its thread set; no fold anywhere; no non-coherent line. -/
theorem witness_WaitsAndPosts_places :
    (let w : Writeback := { ts := 0, instr := .ld .d .norm 4 5 (.short 0), snap := {}, peer := some 256 }
     w.placed = false ∧ w.peer.isSome = true) ∧
    (∀ q ∈ (faulting 8 15).faults.recs.take 0, q.ts = 0 → q.posted = true) ∧
    (State.reset.cores = [] ∧ State.reset.fab.heldFolds = [] ∧ State.reset.msys.nc = []) ∧ broadcast.half = [] := by decide

/-- A record that can be read, and one with an uncorrectable word. -/
theorem witness_QueuesAndHost_records :
    recordBad (withRecords 2 1) 0 = false ∧ recordBad (poisonRange (withRecords 2 1) .dev 0x400038 8) 0 = true ∧
    stateByte (poisonRange (withRecords 2 1) .dev 0x400038 8) 0 = 1 := by decide +kernel

/-- A release that waits for one flit of channel 143, on which two have not been acknowledged. -/
def release9 : Release := { ts := 0, launch := 0, d := 4, token := 0x900000003, flits := [(143, [5])] }

def releasing : State := { fab := { chans := [(143, { unacked := [4, 5] })], rels := [release9] } }

theorem witness_FabricAndLeases_releases : releasing.fab.rels = [release9] ∧ release9.flits = [(143, [5])] := ⟨rfl, rfl⟩

theorem witness_FabricAndLeases_flits :
    (chanOf releasing 143).unacked = [4] ++ 5 :: [] ∧ (5#32) ∉ [(4#32)] := by decide

/-- A channel toward a peer with others beside it, and none; flits on it, and none. A third package of the row that could carry the
hop, and none. -/
theorem witness_FabricAndLeases_retrain :
    (let others (s : State) (ch : Nat) : List Nat := match chanPeer s ch with
       | some p => (channelsTo s p).filter fun k => k != ch
       | none => []
     others (linked .up { unacked := [4] }) 8 = [9, 10, 11] ∧ (chanOf (linked .up { unacked := [4] }) 8).unacked = 4 :: [] ∧
     others (linked .up {}) 4 = [] ∧
     (∃ k ∈ channelsTo (linked .up {}) 3, k ≠ 8) ∧
     (∀ x ∈ (linked .up {}).fab.peers, x.id = 3) ∧ (linked .up {}).peer? 3 = some { id := 3, incarnation := 1 }) := by decide

/-- Channels that come back: with every peer up, and toward a retraining one. -/
theorem witness_FabricAndLeases_back :
    (∀ p ∈ (linked .up {}).fab.peers, p.link = .up) ∧
    (let s := linked (.retraining 0) { down := true }
     chanPeer s 8 = some 3 ∧ s.peer? 3 = some { id := 3, incarnation := 1, link := .retraining 0 } ∧
     ({ id := 3, incarnation := 1, link := .retraining 0 } : Peer).relocks = false ∧ s.clk < 0 + 17000000) ∧
    (channelsTo (linked (.retraining 0) {}) 3 ≠ [] ∧ detours (linked (.retraining 0) {}) 3 = []) ∧
    (({ id := 3, incarnation := 1 } : Peer).link = .up ∧ (2#16) ≠ ({ id := 3, incarnation := 1 } : Peer).incarnation ∧
      ({ id := 3, incarnation := 1, link := .failed } : Peer).link = .failed) := by decide

/-- A package that may see another join, the place of the last one, and places past it. -/
theorem witness_FabricAndLeases_joins :
    (let s : State := { linked .up {} with mgmt := { ready := true } }
     s.mgmt.powered = true ∧ s.mgmt.ready = true ∧ s.mgmt.dark = false ∧ s.peer? (2#8).toNat = none ∧
     (2#8).toNat / 16 < s.fab.rows ∧ (2#8).toNat % 16 < s.fab.cols ∧ (peerSlot s.self (2#8).toNat).isSome = true ∧
     ¬ (4#8).toNat % 16 < s.fab.cols ∧ (linked .up {}).mgmt.ready = false) := by decide

/-- The entry bound to incarnation 1; the same of a link that has failed; a table that has not been placed. -/
def bound5 : Nat := entry5 + 2 ^ 188 + 2 ^ 192

theorem witness_FabricAndLeases_bound :
    bound5 / 2 ^ 184 % 256 / 16 % 2 = 1 ∧ BitVec.ofNat 16 (bound5 / 2 ^ 192) = 1 ∧ entry5 / 2 ^ 184 % 256 / 16 % 2 = 0 ∧
    (match importEntry (writeNum importing .dev none 0x60000 bound5 32) 0 with | .ok e => e == bound5 | .error _ => false) = true ∧
    (match importEntry (poisonRange importing .dev 0x60000 8) 0 with | .ok _ => false | .error _ => true) = true := by decide +kernel

/-! ### Single steps, with results from the worked examples of the spec or worked out by hand from its rules -/

/-- S[d] after an instruction, with some scalar registers. -/
def resultS (i : Instr) (d : Reg) (l : List (Reg × Word)) : Option Word :=
  match exec i (withRegs l) with
  | .next s => some (s.me.getS d)
  | _ => none

/-- V[d] and `fps` after an instruction, with some vector registers. -/
def resultV (i : Instr) (d : Reg) (l : List (Reg × VWord)) : Option (VWord × BitVec 6) :=
  match exec i (only 0 (l.foldl (fun t e => t.setV e.1 e.2) {})) with
  | .next s => some (s.me.getV d, s.me.fps)
  | _ => none

/-- The example of R122. -/
theorem test_div : resultS (.div 7 8 9) 7 [(8, -7), (9, 2)] = some (-3) ∧ resultS (.rem 7 8 9) 7 [(8, -7), (9, 2)] = some (-1) := by
  decide

/-- R121: high halves and shift amounts modulo 64. -/
theorem test_integer :
    resultS (.mulhu 3 1 2) 3 [(1, 0xFFFFFFFFFFFFFFFF), (2, 0xFFFFFFFFFFFFFFFF)] = some 0xFFFFFFFFFFFFFFFE ∧
    resultS (.mulh 3 1 2) 3 [(1, 0xFFFFFFFFFFFFFFFF), (2, 0xFFFFFFFFFFFFFFFF)] = some 0 ∧
    resultS (.sra 3 1 2) 3 [(1, 0x8000000000000000), (2, 65)] = some 0xC000000000000000 ∧
    resultS (.add 0 1 2) 0 [(1, 5), (2, 6)] = some 0 ∧ resultS (.clz 3 1) 3 [] = some 64 := by decide

/-- The examples of R123 and R124. -/
theorem test_fields :
    resultS (.shadd 3 5 6 7) 5 [(6, 3), (7, 0x100)] = some 0x118 ∧
    resultS (.andi 5 6 (.short (-64))) 5 [(6, 0x12345)] = some 0x12340 ∧
    resultS (.bfx 5 6 7) 5 [(6, 0xABCD), (7, 0x804)] = some 0xBC ∧ resultS (.sext .h 5 6) 5 [(6, 0x18000)] = some (-0x8000) := by
  decide

/-- R132: the target is read before the link is written. -/
theorem test_jalr : nextAnd (exec (.jalr 1 1) (withRegs [(1, 0x2000)])) (fun t => t.me.pc == 0x2000 && t.me.getS 1 == 0x1004) = true := by
  decide

/-- The example of R140: a handler's SKIP with 0 goes on at A + 4, and RESUME executes the division again at A. -/
theorem test_skip_and_resume :
    nextAnd (exec (.freply 4 5 6) (answering (.div 7 8 9) [(5, 0x100000000)])) (fun t =>
      (t.ts 0).getS 7 == 0 && (t.ts 0).pc == 0x1004 && t.me.getS 4 == 0) = true ∧
    nextAnd (exec (.freply 4 5 6) (answering (.div 7 8 9) [])) (fun t => (t.ts 0).pc == 0x1000 && (t.ts 0).status == .running) = true := by
  decide

/-- The examples of R204. -/
theorem test_window_faults :
    nextAnd (exec (.ld .d .norm 5 6 (.short 0)) (withRegs [(6, 0xFF0000000007FFFC)])) (fun t =>
      (t.faults.recs.map fun r => r.cls) == [7]) = true ∧
    nextAnd (exec (.ld .d .norm 5 6 (.short 0)) (withRegs [(6, 0xFF00000000080000)])) (fun t =>
      (t.faults.recs.map fun r => r.cls) == [6]) = true := by decide

/-- The example of a walk (R261 to R263), with tables at 0x100000, 0x200000, 0x210000 and 0x220000. -/
theorem test_walk :
    (let s : State := { msys := { keys := [(0, none), (5, none)] } }
     let s := writeNum s .dev none 0x100120 0x200001 8
     let s := writeNum s .dev none (0x200000 + 8 * 0xD1) 0x210001 8
     let s := writeNum s .dev none (0x210000 + 8 * 0xB3) 0x220001 8
     let s := writeNum s .dev none (0x220000 + 8 * 0x18) 0x000141234560000F 8
     okAnd (translate { core := 0, asid := 1, root := 0x100000 } .load 0x123456789ABC 4 s) fun l _ =>
       l == { space := .dev, addr := 0x0000012345609ABC, key := 5 }) = true := by decide +kernel

/-- The worked alignments of R60 to R62, in lanes of f32, under windows of 16 and 24 bits. -/
theorem test_windows :
    (let a : VWord := 0x35E00000_B8A00000_3A800000_3FC00000
     let ones : VWord := 0x3F800000_3F800000_3F800000_3F800000
     (resultV (.vdot yes 0 .f32 (.code 0) 3 1 2 none) 3 [(1, a), (2, ones)]).map (fun r => (r.1.extractLsb' 0 32, r.2)) =
       some (0x3FC01E00, 0x20) ∧
     (resultV (.vdot yes 0 .f32 (.code 1) 3 1 2 none) 3 [(1, a), (2, ones)]).map (fun r => (r.1.extractLsb' 0 32, r.2)) =
       some (0x3FC01D8E, 0)) := by decide

theorem test_window_cancels :
    (let a : VWord := 0x3E000000_C9800000_49800000
     let ones : VWord := 0x3F800000_3F800000_3F800000
     (resultV (.vdot yes 0 .f32 (.code 0) 3 1 2 none) 3 [(1, a), (2, ones)]).map (fun r => (r.1.extractLsb' 0 32, r.2)) =
       some (0, 0x20) ∧
     (resultV (.vdot yes 0 .f32 (.code 1) 3 1 2 none) 3 [(1, a), (2, ones)]).map (fun r => (r.1.extractLsb' 0 32, r.2)) =
       some (0x3E000000, 0)) := by decide

/-- The example of R163. -/
theorem test_vq8 :
    (resultV (.vq8 yes 0 .e4m3 .rne .none .f32 8 0) 8 [(0, 0xBD23D70A_40400000_42C80000)]).map (fun r =>
      (r.1.extractLsb' 256 8, r.1.extractLsb' 0 256)) = some (0x7D, 0xA2547C) := by decide

/-- The example of R58 and R161: the flag of f32 lane 2 becomes that of f16 lane 2. -/
theorem test_vcvt_flags :
    (resultV (.vcvt yes 0 .f16 .rne .none ⟨false, false, 0, .f32⟩ 7 4) 7
      [(4, 0x04#8 ++ 0x3F800000_40000000_00000000_3F800000#256), (7, 0xF0#8 ++ 0#256)]).map (fun r =>
      (r.1.extractLsb' 256 8, r.1.extractLsb' 0 64)) = some (0xF2, 0x3C004000_00003C00) := by decide

/-- R154: the saturating forms clamp, the others wrap. -/
theorem test_vadd :
    (resultV (.vadd yes 0 .i8 true 3 1 2) 3 [(1, 0x7F), (2, 0x01)]).map (fun r => r.1.extractLsb' 0 8) = some 0x7F ∧
    (resultV (.vadd yes 0 .i8 false 3 1 2) 3 [(1, 0x7F), (2, 0x01)]).map (fun r => r.1.extractLsb' 0 8) = some 0x80 := by decide

/-- R278 and R281: a 32-bit minimum is signed, and its old value is sign-extended. -/
theorem test_amo :
    nextAnd (exec (.amo yes .min false 5 1 2 (.short 0)) (withLocal [(1, win), (2, 5)] [(0, 0xFFFFFFFE)])) (fun t =>
      t.me.getS 5 == 0xFFFFFFFFFFFFFFFE && getNum (t.core 0).mem 0 8 == 0xFFFFFFFE) = true := by decide

/-- The example after R174: `acc2` of bf16 takes a half of `acc1` of f32, and neither `acc1` nor `acc3` is formed. -/
theorem test_halves :
    (let h := claim (claim (.replicate 8 none) .f32 1) .bf16 2
     formed h .bf16 2 = true ∧ formed h .f32 1 = false ∧ formed h .bf16 3 = false) := by decide

/-- The example of R212: a gather of a box that leaves its tensor of 3 rows of 5 values of f16. -/
theorem test_gather :
    (let r := putNum [] 0 (joinFields [(8, 0xFF00000000001000), (16, 0), (1, 0), (1, 11), (1, 2), (5, 0), (4, 5), (4, 3), (8, 0),
       (8, 2), (8, 10), (16, 0), (2, 4), (2, 2), (4, 0), (8, 0)]) 96
     let m : TCmd := { id := 0, ts := 0, launch := 0, instr := .cpyRs yes 9 4 5 6, pc := 0x1000, a := 0xFF00000000002000, b := win,
                       c := [0x20003], record := r }
     let s := (withRegs []).setCore 0 { mem := putNum (putNum [] (0x1000 + 26) 0x4E004DC0 4) 0x2000 (2 ^ 128 - 1) 16, tq := [m] }
     nextAnd (exec (.tileEngineChunk 0 0) s) fun t => getNum (t.core 0).mem 0x2000 16 == 0x4E004DC0) = true := by decide

/-- The example of R242: thread set 5 has rank 3 in group 9 and rank 0 in group 2. -/
theorem test_group_slots :
    groupSlots { placeLaunch with groups := [{ id := 9, members := [1, 2, 3, 5], arrivals := [0, 0, 0, 0] },
      { id := 2, members := [5, 6], arrivals := [0, 0] }] } 5 = [0x200000102, 0x400030109] := by decide

/-! ### Terms that are no instructions: one for each check of well-formedness -/

theorem test_ill_formed :
    ([Instr.mfsr 1 7, .mfsr 1 0x44, .mtsr 1 6, .mtsr 1 0x42, .beq 1 2 (.lit 6), .bp false 1 (.lit 5), .j (.lit 2), .plog .not 1 2 3,
      .ld .q .norm 5 6 (.short 0), .st .q .norm 5 6 (.short 0), .fget 5, .amof yes .add .i8 6 7 (.short 0),
      .amof yes .and .f32 6 7 (.short 0), .cas2 yes 5 6 8 10 (.short 0), .cas2 yes 4 6 9 10 (.short 0),
      .cas2 yes 4 6 8 11 (.short 0), .vadd yes 0 .f32 false 1 2 3, .vshl yes 0 .i8 1 2 (.imm 8), .vsra yes 0 .f32 1 2 (.reg 3),
      .vfadd yes 0 .i32 .rne .dflt 1 2 3, .vfdiv yes 0 .bf16 .rne 1 2 3, .vrcpe yes 0 .f64 1 2, .vcmp yes 0 .i8 .un 1 2 3,
      .vcmp yes 0 .f32 .eq 1 2 3, .vfcmp yes 0 .i8 .eq 1 2 3, .vcvt yes 0 .f32 .rne .sat ⟨false, false, 0, .f32⟩ 1 2,
      .vcvt yes 0 .f32 .rne .none ⟨true, false, 0, .f32⟩ 1 2, .vcvt yes 0 .f32 .rne .none ⟨false, true, 0, .i8⟩ 1 2,
      .vcvt yes 0 .f16 .rne .none ⟨false, false, 2, .f32⟩ 1 2, .vq8 yes 0 .f32 .rne .none .f32 1 4,
      .vq8 yes 0 .e4m3 .rne .none .f32 1 2, .vq8 yes 0 .e4m3 .rne .none .f64 1 4, .vdq8 yes 0 .f32 .rne 4 .e4m3 1 2].all
        fun i => !i.wf) = true := by decide

theorem test_ill_formed_more :
    ([Instr.vins yes .f64 1 2 4, .vext yes .f32 1 2 8, .vslide yes 0 .f64 1 2 3 5, .vred yes 0 .e4m3 .add .dflt 1 2,
      .vred yes 0 .f32 .min (.code 1) 1 2, .vdot yes 0 .i64 .dflt 1 2 3 none, .vdot yes 0 .i8 (.code 1) 1 2 3 none,
      .vlsig yes 0 .u8 1 2, .kop yes .mov 1 2 3, .mmac yes ⟨false, 3, 4, .none, 2, .full, .e4m3, .e4m3, 1, 0⟩ .qa 0,
      .mmac yes ⟨false, 3, 0, .none, 2, .i32, .e4m3, .e4m3, 1, 0⟩ .qa 0, .mmac yes ⟨false, 3, 0, .e8m0, 2, .full, .bf16, .bf16, 1, 0⟩ .qa 0,
      .mmac yes ⟨false, 3, 0, .blk, 2, .full, .bf16, .bf16, 1, 0⟩ .qa 0, .mmac yes (ctl false .bf16) .qa 5,
      .mmacs yes (ctl false .f32) ⟨2, 0⟩ .qa 0, .mmacs yes (ctl false .bf16) ⟨5, 0⟩ .qa 0, .mmacs yes (ctl false .bf16) ⟨0, 2⟩ .qa 0,
      .mzero yes .f64 2, .mwld yes .f64 3 7 (.sparse 8 (.short 0) ⟨2, 0⟩ 9), .mdrain yes .u8 .rne .none .i32 0 7 8 0 0 (.short 0),
      .mdrain yes .bf16 .rne .sat .f32 0 7 8 0 0 (.short 0), .mdraina yes .i16 .rne .none .i32 0 (.short 0), .vldx yes 0 .u8 .norm false 4 6 7 (.short 0),
      .cpy yes 9 4 5 (.reg 0), .cpy2d yes 9 4 5 0, .cpy2d yes 9 4 5 7, .cpyr yes .add .i8 9 4 5 (.reg 6), .get yes .u8 .glob 9 4 5 6,
      .put yes .u8 .glob 9 4 5 0, .coll yes .allReduce .add .i32 false false 0 5 6 7 8 (.short 1),
      .coll yes .allGather .min .f32 false false 0 5 6 7 8 (.short 1), .coll yes .allReduce .add .f32 false false 1 5 6 7 8 (.short 1),
      .preempt 2050, .matrixCommandStart 2050, .wake 8200, .nopPacket 65536, .hostAccess true true 0 65 0,
      .hostAtomicop true 4 8 (.swap 1), .importRequest 1 1 0 0 0 0 .read, .uncorrectableEccError (.device 4)].all fun i => !i.wf) = true := by
  decide


/-- The AES-256 example of FIPS 197, appendix C.3: the block cipher of R277. -/
theorem test_aes :
    bytesOf (aesEncrypt (ofBytes (List.range 32)) (ofBytes ((List.range 16).map (17 * ·)))) 16 =
      [0x8E, 0xA2, 0xB7, 0xCA, 0x51, 0x67, 0x45, 0xBF, 0xEA, 0xFC, 0x49, 0x90, 0x4B, 0x49, 0x60, 0x89] := by decide +kernel

/-- The cipher of a key undoes itself: the same example backwards. -/
theorem test_aes_back :
    aesDecrypt (ofBytes (List.range 32)) (ofBytes [0x8E, 0xA2, 0xB7, 0xCA, 0x51, 0x67, 0x45, 0xBF, 0xEA, 0xFC, 0x49, 0x90, 0x4B,
      0x49, 0x60, 0x89]) = ofBytes ((List.range 16).map (17 * ·)) := by decide +kernel

end Sys2Proof.Tests
end

/-! SUPPORT. Every instruction ends in a next state: one lemma for each shared end of an instruction, and for each meaning that
builds on one of them; then the case split over the instructions, and the two events that can fault (O9). -/

namespace Sys2Proof.Machine

/-! ### The shared ends of an instruction -/

/-- A guarded instruction ends in a next state where its body does (R74). -/
theorem guarded_next {g : Guard} {len : Nat} {s : State} {k : Out} (hk : ∃ t, k = .next t) :
    ∃ t, guarded g len s k = .next t := by
  rcases guarded_cases g len s k with ⟨_, e⟩ | ⟨_, e⟩ <;> rw [e]
  · exact hk
  · exact ⟨_, rfl⟩

theorem tileOp_next (g : Guard) (i : Instr) (len : Nat) (op : Op Unit) (s : State) :
    ∃ t, tileOp g i len op s = .next t := by
  refine guarded_next ?_
  split
  · exact ⟨_, rfl⟩
  · exact runOp_next ..

theorem matrixOp_next (g : Guard) (i : Instr) (len : Nat) (op : Op Unit) (s : State) :
    ∃ t, matrixOp g i len op s = .next t := by
  refine guarded_next ?_
  split
  · exact ⟨_, rfl⟩
  · exact runOp_next ..

theorem divide_next (i : Instr) (f : Word → Word → Word) (d a b : Reg) (s : State) :
    ∃ t, divide i f d a b s = .next t := by
  unfold divide; split <;> exact ⟨_, rfl⟩

theorem branch_next {n : Nat} (taken : Bool) (off : Imm n) (s : State) : ∃ t, branch taken off s = .next t := by
  cases taken <;> exact ⟨_, rfl⟩

theorem jumpReg_next (i : Instr) (link a : Reg) (s : State) : ∃ t, jumpReg i link a s = .next t := by
  unfold jumpReg; extract_lets; split <;> exact ⟨_, rfl⟩

theorem finishRel_next (s : State) (d : Reg) (token : Word) (flits : List (Nat × List (BitVec 32))) :
    ∃ t, finishRel s d token flits = .next t := by
  unfold finishRel; split <;> exact ⟨_, rfl⟩

/-- A meaning that runs as another thread set ends in a next state where it does as its own. -/
theorem asTs_next (t : Nat) {k : State → Out} (hk : ∀ s, ∃ u, k s = .next u) (s : State) :
    ∃ u, asTs t k s = .next u := by
  obtain ⟨u, e⟩ := hk { s with cur := t }
  exact ⟨{ u with cur := s.cur }, by rw [asTs, e]⟩

/-! ### Barriers, queues and leases -/

theorem waitPhase_next (slot : Fin 4) (phase : Nat) (s : State) : ∃ t, waitPhase slot phase s = .next t := by
  unfold waitPhase
  repeat' split
  all_goals exact ⟨_, rfl⟩

/-- An arrival ends in a next state where what follows it does. -/
theorem barrier_next (i : Instr) (slot : Fin 4) {k : Nat → State → Out} (hk : ∀ a s, ∃ t, k a s = .next t) (s : State) :
    ∃ t, barrier i slot k s = .next t := by
  unfold barrier; split
  · exact ⟨_, rfl⟩
  · split
    · exact ⟨_, rfl⟩
    · extract_lets a s1
      split
      · split
        · exact ⟨_, rfl⟩
        · exact hk _ _
      · split
        · split <;> exact ⟨_, rfl⟩
        · exact ⟨_, rfl⟩

theorem execBar_next (slot : Fin 4) (s : State) : ∃ t, execBar slot s = .next t :=
  barrier_next _ _ (waitPhase_next slot) s

theorem execBarv_next (slot : Fin 4) (d : Reg) (s : State) : ∃ t, execBarv slot d s = .next t :=
  barrier_next _ _ (fun _ _ => ⟨_, rfl⟩) s

theorem execBwait_next (slot : Fin 4) (a : Reg) (s : State) : ∃ t, execBwait slot a s = .next t := by
  unfold execBwait
  extract_lets
  repeat' split
  all_goals exact ⟨_, rfl⟩

theorem execQput_next (a : Reg) (s : State) : ∃ t, execQput a s = .next t := by
  unfold execQput; extract_lets; split <;> exact ⟨_, rfl⟩

theorem execQgetQr_next (d : Reg) (s : State) : ∃ t, execQgetQr d s = .next t := by
  unfold execQgetQr; extract_lets; split <;> exact ⟨_, rfl⟩

theorem execFget_next (d : Reg) (s : State) : ∃ t, execFget d s = .next t := by
  unfold execFget; extract_lets; split
  · exact ⟨_, rfl⟩
  · split <;> exact ⟨_, rfl⟩

theorem execBwrel_next (d a : Reg) (s : State) : ∃ t, execBwrel d a s = .next t := by
  unfold execBwrel
  extract_lets
  split
  · exact ⟨_, rfl⟩
  · split
    · exact ⟨_, rfl⟩
    · split
      · exact ⟨_, rfl⟩
      · split <;> exact finishRel_next ..

/-! ### Blocked instructions -/

theorem evaluate_next (i : Instr) (s : State) : ∃ t, evaluate i s = .next t := by
  cases i with
  | qput a => exact execQput_next a s
  | qgetQr d => exact execQgetQr_next d s
  | fget d => exact execFget_next d s
  | racq | cwait => exact runOp_next ..
  | bar slot => exact execBar_next slot s
  | barv slot d => exact execBarv_next slot d s
  | bwait slot a => exact execBwait_next slot a s
  | _ => exact ⟨_, rfl⟩

theorem execQueueBlockRelease_next (t : Nat) (s : State) : ∃ u, execQueueBlockRelease t s = .next u := by
  unfold execQueueBlockRelease; split
  · split
    · exact asTs_next t (evaluate_next _) s
    · exact ⟨_, rfl⟩
  · exact ⟨_, rfl⟩

theorem execWake_next (t : Nat) (s : State) : ∃ u, execWake t s = .next u := by
  unfold execWake; split
  · split
    · exact asTs_next t (evaluate_next _) s
    · exact ⟨_, rfl⟩
  · split
    · exact asTs_next t (waitPhase_next _ _) s
    · exact ⟨_, rfl⟩
  · exact ⟨_, rfl⟩

/-! ### The two events that can fault (log entry 55) -/

/-- PREEMPT faults exactly at a number that is no compute core. -/
theorem execPreempt_cases (c : Nat) (s : State) :
    (c < 2048 ∧ ∃ t, execPreempt c s = .next t) ∨ (2048 ≤ c ∧ execPreempt c s = .fault .noSuchAgent) := by
  unfold execPreempt; split
  next hc => exact .inr ⟨hc, rfl⟩
  next hc =>
    refine .inl ⟨by omega, ?_⟩
    repeat' split
    all_goals exact ⟨_, rfl⟩

/-- THREAD_SET_START faults exactly at a number that is no thread set of a compute core. -/
theorem execThreadSetStart_cases (k : Nat) (s : State) :
    (k < 8192 ∧ ∃ t, execThreadSetStart k s = .next t) ∨ (8192 ≤ k ∧ execThreadSetStart k s = .fault .noSuchAgent) := by
  unfold execThreadSetStart; extract_lets c; split
  next hc => exact .inr ⟨by unfold c coreOf at hc; omega, rfl⟩
  next hc =>
    refine .inl ⟨by unfold c coreOf at hc; omega, ?_⟩
    repeat' split
    all_goals exact ⟨_, rfl⟩

/-! ### Every instruction -/

/-- Every instruction but the two events that name a core or a thread set ends in a next state. -/
theorem exec_next (i : Instr) (s : State) (hp : ∀ c, i ≠ .preempt c) (hs : ∀ k, i ≠ .threadSetStart k) :
    ∃ t, exec i s = .next t := by
  cases i with
  | preempt c => exact absurd rfl (hp c)
  | threadSetStart k => exact absurd rfl (hs k)
  -- one next state on every path
  | trap | add | sub | mul | mulh | mulhu | and | or | xor | andn | shl | shr | sra | rotr | min | max | minu | maxu | clz | ctz
  | popc | sext | zext | bfx | bfi | sel | shadd | addi | andi | ori | xori | shli | shri | srai | li | addpc | addcb | cmp | pcmp
  | plog | j | jal | pf | cwb | qgetQn | qtryQf | retire | nop | yield => exact ⟨_, rfl⟩
  | faultPost | dispatchPass | haltNow | haltDrain | debugResume | resetRequest | powerLoss | mgmtRegisterWrite | forcePowerAlarm
  | pwrlim | powerAlarmRaise | powerAlarmLower | keyLoad | keyClear | biascmd | residentLaunch | elementLaunch | copy
  | reducingCopy | counterAdd | wait | attest | nopPacket | rejectedKindPacket | queueError | frontEndReset | hostLinkChange
  | channelRetrain | channelRetrainComplete | illegalInstruction | issueRunLimit => exact ⟨_, rfl⟩
  -- under a guard, one next state
  | vadd | vsub | vmul | vmulh | vmin | vmax | vabs | vneg | vand | vor | vxor | vshl | vshr | vsra | vcmp | vfcmp | vsel | vfadd
  | vfsub | vfmul | vfma | vfms | vfnma | vfmin | vfmax | vfabs | vfneg | vfdiv | vfsqrt | vrcpe | vrsqe | vexp2 | vlog2 | vcvt
  | vq8 | vdq8 | vrdr | vwrr | vbcast | vins | vext | vperm | vshuf | vslide | vcompress | vexpand | vred | vdot | vlsig | kop
  | kmovToMask | kmovFromMask | kpop | rflush | rflushAll => exact guarded_next ⟨_, rfl⟩
  -- an operation that may stop
  | ld | st | vld | vst | cwait | racq | rrel | rpeek => exact runOp_next ..
  | vlds | vldx | vstx | vldb | amo | amof | cas | cas2 | coll => exact guarded_next (runOp_next ..)
  | cpy | cpy2d | cpyRs | cpyRd | cpyr | get | put | stmap | stwb | stinv | pub => exact tileOp_next ..
  | mmac | mmacs | mzero | mwld | mdrain | mdrainq | mdraina | mstat | mclrs => exact matrixOp_next ..
  | mwait => refine guarded_next ?_; split <;> exact ⟨_, rfl⟩
  -- meanings with a lemma of their own
  | div | divu | rem | remu => exact divide_next ..
  | beq | bne | blt | bge | bltu | bgeu | bp => exact branch_next ..
  | jr | jalr => exact jumpReg_next ..
  | qput a => exact execQput_next a s
  | qgetQr d => exact execQgetQr_next d s
  | fget d => exact execFget_next d s
  | bar slot => exact execBar_next slot s
  | barv slot d => exact execBarv_next slot d s
  | bwait slot a => exact execBwait_next slot a s
  | bwrel d a => exact execBwrel_next d a s
  | queueBlockRelease t => exact execQueueBlockRelease_next t s
  | wake t => exact execWake_next t s
  -- instructions that test their thread set first: each branch is a next state, a posted fault or a wait among them
  | mfsr | mtsr | brk | fence | fdrain | qtryQa | qtryQr | qtryQn | freply | bwlease | bwq | spawn | tdefer =>
    simp only [exec, execMfsr, execMtsr, execBrk, execFence, execFdrain, execQtryQa, execQtryQr, execQtryQn, execFreply,
      execBwlease, execBwq, execSpawn, execTdefer]
    repeat' split
    all_goals exact ⟨_, rfl⟩
  -- events that look up their subject, or a condition, and change nothing where there is none: each branch is a next state
  | resultWriteback | fenceTimeout | matrixCommandStart | matrixCommandCompletion | tileEngineChunk | tileCommandCompletion
  | regionMerge | spawnArrival | spawnAnswer | taskReservation | tdeferHoldExpiry | seamRoundStart | seamRoundDone
  | remoteClaimRequest | remoteClaimAnswer | gangPlacement | coreResume | watchdogExpiry | haltDrainComplete | chunkArrival
  | translationFlush | translationFlushComplete | collectiveInstanceStart | collectiveChunk | collectiveCompletion
  | leaseFirstPass | leaseGrant | leaseExpiry | flitReceive | peerRetraining | peerFailed | peerJoin | linkReturn | importRequest
  | retuneComplete | uncorrectableEccError | instructionFetchFault | powerGood | bringUpStageDone | endcmd | endCommandComplete
  | keyCommandDone | biasFlipComplete | queueActivation | queueTimeSlice | packetCompletion | bulkCopyChunk | hostAccess
  | hostAtomicop =>
    simp only [exec, execResultWriteback, execFenceTimeout, execMatrixCommandStart, execMatrixCommandCompletion,
      execTileEngineChunk, execTileCommandCompletion, execRegionMerge, execSpawnArrival, execSpawnAnswer,
      execTaskReservation, execTdeferHoldExpiry, execSeamRoundStart, execSeamRoundDone, execRemoteClaimRequest,
      execRemoteClaimAnswer, execGangPlacement, execCoreResume, execWatchdogExpiry, execHaltDrainComplete, execChunkArrival,
      execTranslationFlush, execTranslationFlushComplete, execCollectiveInstanceStart, execCollectiveChunk,
      execCollectiveCompletion, execLeaseFirstPass, execLeaseGrant, execLeaseExpiry, execFlitReceive, execPeerRetraining,
      execPeerFailed, execPeerJoin, execLinkReturn, execImportRequest, execRetuneComplete, execUncorrectableEccError,
      execInstructionFetchFault, execPowerGood, execBringUpStageDone, execEndcmd, execEndCommandComplete,
      execKeyCommandDone, execBiasFlipComplete, execQueueActivation, execQueueTimeSlice, execPacketCompletion,
      execBulkCopyChunk, execHostAccess, execHostAtomicop]
    repeat' split
    all_goals exact ⟨_, rfl⟩

/-- Settles O9: the two events that name a core or a thread set have their own cases, and no other instruction stops. -/
theorem execNeverRefuses : Obligations.ExecNeverRefuses := by
  unfold Obligations.ExecNeverRefuses
  intro i s
  cases i
  case preempt c =>
    rcases execPreempt_cases c s with ⟨_, h⟩ | ⟨hc, h⟩
    · exact .inl h
    · exact .inr ⟨h, .inr ⟨c, rfl, hc⟩⟩
  case threadSetStart k =>
    rcases execThreadSetStart_cases k s with ⟨_, h⟩ | ⟨hk, h⟩
    · exact .inl h
    · exact .inr ⟨h, .inl ⟨k, rfl, hk⟩⟩
  all_goals exact .inl (exec_next _ s (fun _ => nofun) fun _ => nofun)

end Sys2Proof.Machine

/-! SUPPORT. The management registers are kept by what the memory system does: writes, writes on their way to the host, homes,
folds, and the drop of a range. -/

namespace Sys2Proof.Machine

/-! ### Open choices and memory -/

@[simp] theorem State.pick_mgmt (s : State) : s.pick.2.mgmt = s.mgmt := by
  unfold State.pick; split <;> rfl

@[simp] theorem setMem_mgmt (s : State) (sp : Space) (m : Memory) : (setMem s sp m).mgmt = s.mgmt := by cases sp <;> rfl

@[simp] theorem setPoison_mgmt (s : State) (sp : Space) (l : List Nat) : (setPoison s sp l).mgmt = s.mgmt := by
  cases sp <;> rfl

@[simp] theorem unpoison_mgmt (s : State) (sp : Space) (a n : Nat) : (unpoison s sp a n).mgmt = s.mgmt := by
  unfold unpoison; split
  · rfl
  · exact setPoison_mgmt ..

@[simp] theorem poisonRange_mgmt (s : State) (sp : Space) (a n : Nat) : (poisonRange s sp a n).mgmt = s.mgmt :=
  setPoison_mgmt ..

@[simp] theorem keepPast_mgmt (s : State) (sp : Space) (key : KeyMat) (line n : Nat) :
    (keepPast s sp key line n).mgmt = s.mgmt := by rw [keepPast_only_past]

@[simp] theorem writeNum_mgmt (s : State) (sp : Space) (key : KeyMat) (a v n : Nat) :
    (writeNum s sp key a v n).mgmt = s.mgmt := by
  unfold writeNum
  extract_lets s0 s1
  have h0 : s0.mgmt = s.mgmt := by
    unfold s0; split
    · rfl
    · exact keepPast_mgmt ..
  have h1 : s1.mgmt = s.mgmt := by simp [s1, h0]
  cases sp <;> exact h1

@[simp] theorem rawWrite_mgmt (s : State) (l : Loc) (v n : Nat) : (rawWrite s l v n).mgmt = s.mgmt := writeNum_mgmt ..

/-- A fold of steps that keep the management registers keeps them. -/
theorem foldl_mgmt {α : Type} {f : State → α → State} (hf : ∀ s a, (f s a).mgmt = s.mgmt) (l : List α) (s : State) :
    (l.foldl f s).mgmt = s.mgmt := by
  induction l generalizing s with
  | nil => rfl
  | cons a r ih => rw [List.foldl_cons, ih, hf]

/-! ### Writes on their way to the host -/

@[simp] theorem forgetEarlier_mgmt (s : State) (die : Nat) (l : Loc) : (forgetEarlier s die l).mgmt = s.mgmt := rfl

@[simp] theorem keepEarlier_mgmt (s : State) (e : Option Nat) (l : Loc) : (keepEarlier s e l).mgmt = s.mgmt := by
  unfold keepEarlier; split
  · rfl
  · exact State.pick_mgmt s

@[simp] theorem deliverPost_mgmt (s : State) (x : Posted) : (deliverPost s x).mgmt = s.mgmt := by
  unfold deliverPost
  extract_lets s1 _ s2
  have h2 : s2.mgmt = s1.mgmt := by
    refine foldl_mgmt (fun s i => ?_) _ _
    extract_lets at' m v s3
    have h3 : s3.mgmt = s.mgmt := by
      unfold s3; split
      · rfl
      · split
        · simp
        · refine foldl_mgmt (fun s j => ?_) _ _
          split <;> simp
    split <;> simp [h3]
  exact h2.trans (by simp [s1])

@[simp] theorem deliverBefore_mgmt (x : Posted) (kept : List Posted) (s : State) :
    (deliverBefore x kept s).mgmt = s.mgmt := by
  refine foldl_mgmt (fun s y => ?_) _ _
  split
  · extract_lets c
    split <;> simp [c]
  · simp

@[simp] theorem settlePosts_mgmt (sel : Posted → Option Bool) (kept l : List Posted) (s : State) :
    (settlePosts sel kept l s).2.mgmt = s.mgmt := by
  induction l generalizing s kept with
  | nil => rfl
  | cons x r ih =>
    unfold settlePosts
    extract_lets done c
    split
    · exact ih ..
    · split
      · simp [ih]
      · split <;> simp [ih, c]

@[simp] theorem settle_mgmt (sel : Posted → Option Bool) (s : State) : (settle sel s).mgmt = s.mgmt := by
  unfold settle; split
  · rfl
  · exact settlePosts_mgmt ..

@[simp] theorem touchHost_mgmt (s : State) (l : Loc) : (touchHost s l).mgmt = s.mgmt := settle_mgmt ..

@[simp] theorem ncSend_mgmt (s : State) (x : NcLine) (ts : List Nat) : (ncSend s x ts).mgmt = s.mgmt := by
  unfold ncSend; split <;> rfl

@[simp] theorem ncDrop_mgmt (s : State) (die : Nat) (l : Loc) (ts : List Nat) : (ncDrop s die l ts).mgmt = s.mgmt := by
  unfold ncDrop
  extract_lets s1
  split
  · rfl
  · exact ncSend_mgmt s1 ..

/-! ### Homes -/

@[simp] theorem putRegion_mgmt (s : State) (r : Region) : (putRegion s r).mgmt = s.mgmt := rfl

@[simp] theorem splitRegion_mgmt (s : State) (key : Nat) : (splitRegion s key).mgmt = s.mgmt := by
  unfold splitRegion
  extract_lets
  split
  · rfl
  · split <;> rfl

@[simp] theorem recallOwner_mgmt (s : State) (key : Nat) (e : Option Nat) : (recallOwner s key e).mgmt = s.mgmt := by
  unfold recallOwner; split
  · rfl
  · split
    · rfl
    · extract_lets _ s1 k
      split
      · rfl
      · extract_lets s2
        have h2 : s2.mgmt = s.mgmt := by
          unfold s2; split
          · exact splitRegion_mgmt s1 _
          · rfl
        exact h2

@[simp] theorem stampWrite_mgmt (s : State) (pts : Nat) (l : Loc) (owner : Option Nat) :
    (stampWrite s pts l owner).2.mgmt = s.mgmt := by
  unfold stampWrite; split
  · rfl
  · exact (splitRegion_mgmt ..).trans (recallOwner_mgmt ..)

@[simp] theorem hubWrite_mgmt (s : State) (a v n : Nat) : (hubWrite s a v n).mgmt = s.mgmt :=
  (writeNum_mgmt ..).trans (stampWrite_mgmt ..)

@[simp] theorem errorLog_mgmt (s : State) (die type peer launch addr : Nat) :
    (errorLog s die type peer launch addr).mgmt = s.mgmt := by
  unfold errorLog
  extract_lets
  split
  · rfl
  · exact hubWrite_mgmt ..

@[simp] theorem setPlacePts_mgmt (s : State) (die : Nat) (l : Loc) (cached : Bool) (p : Nat) :
    (setPlacePts s die l cached p).mgmt = s.mgmt := by
  unfold setPlacePts
  extract_lets s1 _ s2
  have h1 : s1.mgmt = s.mgmt := by unfold s1; split <;> rfl
  have h2 : s2.mgmt = s.mgmt := by unfold s2; split <;> exact h1
  split
  · exact h2
  · split <;> exact h2

/-! ### Folds, slices and stashes -/

@[simp] theorem performFold_mgmt (s : State) (f : Fold) : (performFold s f).mgmt = s.mgmt := by
  unfold performFold
  extract_lets n die first s1 r s2 x s3
  have h1 : s1.mgmt = s.mgmt := by
    unfold s1; split
    · simp
    · split <;> simp
  have h2 : s2.mgmt = s.mgmt := by simp [s2, r, h1]
  have h3 : s3.mgmt = s.mgmt := by unfold s3; split <;> exact h2
  refine (foldl_mgmt (fun s o => ?_) _ _).trans h3
  extract_lets l
  split <;> simp

@[simp] theorem placeFold_mgmt (s : State) (f : Fold) : (placeFold s f).mgmt = s.mgmt := by
  unfold placeFold; split
  · split
    · simp
    · rfl
    · simp
  · split
    · simp
    · rfl
  · simp

@[simp] theorem placeCore_mgmt (s : State) (c : Nat) (p : Fold → Bool) : (placeCore s c p).mgmt = s.mgmt := by
  unfold placeCore
  extract_lets k s1
  split
  · exact foldl_mgmt placeFold_mgmt _ s1
  · rfl

@[simp] theorem dropRange_mgmt (s : State) (f : Flush) : (dropRange s f).mgmt = s.mgmt := by
  unfold dropRange
  extract_lets hit s1 lines s2
  have h1 : s1.mgmt = s.mgmt := foldl_mgmt (fun _ _ => placeCore_mgmt ..) _ _
  have h2 : s2.mgmt = s1.mgmt := foldl_mgmt (fun _ _ => ncDrop_mgmt ..) _ _
  exact h2.trans h1

@[simp] theorem cleanStash_mgmt (s : State) (c : Nat) (hit : StashLine → Bool) : (cleanStash s c hit).mgmt = s.mgmt := by
  unfold cleanStash
  extract_lets s1
  refine foldl_mgmt (fun s x => ?_) _ _
  split
  · simp
  · rfl

@[simp] theorem dropStash_mgmt (s : State) (c : Nat) (hit : StashLine → Bool) : (dropStash s c hit).mgmt = s.mgmt :=
  cleanStash_mgmt ..

@[simp] theorem dropStashes_mgmt (s : State) (f : Flush) : (dropStashes s f).mgmt = s.mgmt := by
  refine foldl_mgmt (fun s e => ?_) _ _
  split
  · simp
  · rfl

/-- A walker keeps no entry of a range that has been dropped (R264). -/
theorem dropRange_walk_not_covered (s : State) (f : Flush) :
    ∀ e ∈ (dropRange s f).msys.walk, f.covers e.asid (entryPages e).1 (entryPages e).2 = false := by
  intro e he
  simpa using (List.mem_filter.1 he).2

end Sys2Proof.Machine

/-! SUPPORT. Power, bring-up and the management registers: what each event of management does, and the statement about it (O57). -/

namespace Sys2Proof.Machine

/-! ### Power -/

theorem whilePowered_on {s : State} (h : s.mgmt.powered = true) (f : State → State) : whilePowered s f = f s := if_pos h

theorem whilePowered_off {s : State} (h : s.mgmt.powered = false) (f : State → State) : whilePowered s f = s := by
  simp [whilePowered, h]

/-! ### The stages of bring-up (R401) -/

@[simp] theorem State.pick_clk (s : State) : s.pick.2.clk = s.clk := by
  unfold State.pick; split <;> rfl

@[simp] theorem findExtent_mgmt (s : State) : (findExtent s).mgmt = s.mgmt := by
  unfold findExtent
  extract_lets
  split
  · rfl
  · exact (State.pick_mgmt _).trans (State.pick_mgmt _)

@[simp] theorem findExtent_clk (s : State) : (findExtent s).clk = s.clk := by
  unfold findExtent
  extract_lets
  split
  · rfl
  · exact (State.pick_clk _).trans (State.pick_clk _)

/-- The fabric's extent holds the package's own position (R436). -/
theorem findExtent_holds_peerId (s : State) :
    s.mgmt.peerId.toNat / 16 < (findExtent s).fab.rows ∧ s.mgmt.peerId.toNat % 16 < (findExtent s).fab.cols := by
  unfold findExtent
  extract_lets row col a b
  split
  next h =>
    simp only [Bool.and_eq_true, decide_eq_true_eq] at h
    exact ⟨h.1.2, h.2⟩
  next => exact ⟨by dsimp only; omega, by dsimp only; omega⟩

/-- A drawn incarnation is nonzero and not the previous one: of three consecutive values at most two are excluded. -/
theorem drawIncarnation_fresh (n : Nat) (prev : BitVec 16) :
    drawIncarnation n prev ≠ 0 ∧ drawIncarnation n prev ≠ prev := by
  unfold drawIncarnation
  generalize Config.drawnIncarnation n = x
  simp only [Bool.and_eq_true, bne_iff_ne, ne_eq]
  split
  · assumption
  · split
    · assumption
    · constructor <;> bv_omega

/-- The incarnation of a package that finishes bring-up: the one written, or a drawn one (R402). -/
def Mgmt.nextIncarnation (m : Mgmt) : BitVec 16 :=
  if m.incarnWritten then m.incarnReg else drawIncarnation m.bringUps m.incarnation

/-- The package as the last stage leaves it, before it has found the fabric's extent. -/
def lastStage (s : State) (f : Nat) : State :=
  { interrupt (s.pick.2.setMgmt { s.mgmt with
      incarnation := s.mgmt.nextIncarnation, incarnWritten := false, peerId := s.mgmt.peerReg,
      bringUps := s.mgmt.bringUps + 1, patch := f != 5 && s.pick.1 % 2 == 1, ready := true,
      lowSince := s.mgmt.lowSince.map fun _ => 0 }) with clk := 0 }

/-- The last stage changes the fabric's peers beside that. -/
theorem stageEnd_four (s : State) (f : Nat) : ∃ peers, stageEnd s 4 f =
    { findExtent (lastStage s f) with fab := { (findExtent (lastStage s f)).fab with peers } } := ⟨_, rfl⟩

/-- What the last stage leaves (R401, R402, R436). Only whether a patch runs is open, and none does after failure 5. -/
theorem stageEnd_last (s : State) (f : Nat) : ∃ patch, (f = 5 → patch = false) ∧
    (stageEnd s 4 f).mgmt = { s.mgmt with
      incarnation := s.mgmt.nextIncarnation, incarnWritten := false, peerId := s.mgmt.peerReg,
      bringUps := s.mgmt.bringUps + 1, patch, ready := true, lowSince := s.mgmt.lowSince.map fun _ => 0,
      interrupts := s.mgmt.interrupts + 1 } ∧
    (stageEnd s 4 f).clk = 0 ∧ s.mgmt.peerReg.toNat / 16 < (stageEnd s 4 f).fab.rows ∧
    s.mgmt.peerReg.toNat % 16 < (stageEnd s 4 f).fab.cols := by
  obtain ⟨peers, e⟩ := stageEnd_four s f
  rw [e]
  exact ⟨f != 5 && s.pick.1 % 2 == 1, fun h => by simp [h], findExtent_mgmt _, findExtent_clk _,
    findExtent_holds_peerId (lastStage s f)⟩

/-- Only the last stage makes the package ready, and no stage changes its failure. -/
theorem stageEnd_ready_failure (s : State) (g f : Nat) :
    (stageEnd s g f).mgmt.failure = s.mgmt.failure ∧
      (stageEnd s g f).mgmt.ready = if g = 4 then true else s.mgmt.ready := by
  by_cases h4 : g = 4
  · obtain ⟨patch, -, e, -⟩ := stageEnd_last s f
    subst h4
    rw [e]
    exact ⟨rfl, rfl⟩
  · unfold stageEnd
    simp only [h4, if_false]
    split
    · split <;> exact ⟨rfl, rfl⟩
    · split <;> exact ⟨rfl, rfl⟩

section bringUp
variable {s : State} {f : Fin 6}

/-- Bring-up runs: the package has power, is not ready, and no failure has stopped it. -/
def bringingUp (s : State) : Prop :=
  s.mgmt.powered = true ∧ s.mgmt.ready = false ∧ ¬(1 ≤ s.mgmt.failure.toNat ∧ s.mgmt.failure.toNat ≤ 3)

/-- A failure that stops bring-up is recorded, and nothing else happens. -/
theorem execBringUpStageDone_stops (h : bringingUp s) (hs : stageFailure s.mgmt.stage.toNat f.val = true)
    (hf : fatal f.val = true) :
    execBringUpStageDone f s = .next (s.setMgmt { s.mgmt with failure := BitVec.ofNat 8 f.val }) := by
  obtain ⟨hp, hr, hn⟩ := h
  have h0 : f.val ≠ 0 := by rintro e; simp [fatal, e] at hf
  have hn' : fatal s.mgmt.failure.toNat = false := by simpa [fatal] using hn
  simp [execBringUpStageDone, hp, hr, hn', hs, hf, h0]

/-- The state in which a stage ends: its failure, if it has one, is recorded. -/
def withFailure (s : State) (f : Fin 6) : State :=
  if f.val = 0 then s else s.setMgmt { s.mgmt with failure := BitVec.ofNat 8 f.val }

/-- A stage that does not stop bring-up ends, and the next one begins. -/
theorem execBringUpStageDone_moves (h : bringingUp s) (hs : stageFailure s.mgmt.stage.toNat f.val = true)
    (hf : fatal f.val = false) :
    let u := stageEnd (withFailure s f) s.mgmt.stage.toNat f.val
    execBringUpStageDone f s = .next (u.setMgmt { u.mgmt with stage := s.mgmt.stage + 1 }) := by
  obtain ⟨hp, hr, hn⟩ := h
  have hn' : fatal s.mgmt.failure.toNat = false := by simpa [fatal] using hn
  have hg : BitVec.ofNat 3 (s.mgmt.stage.toNat + 1) = s.mgmt.stage + 1 := by simp [BitVec.ofNat_add]
  simp only [execBringUpStageDone, hp, hr, hn', hs, hf, hg, withFailure]
  rfl

end bringUp

/-! ### Power, reset and each stage, as the statement names them -/

/-- What power-up, power loss and a reset request do (R401, R402). -/
theorem power_events (s : State) :
    (s.mgmt.powered = true → exec .powerGood s = .next s) ∧
    (s.mgmt.powered = false → exec .powerGood s = .next (outside s)) ∧
    exec .powerLoss s = .next ((outside s).setMgmt { (outside s).mgmt with powered := false }) ∧
    (s.mgmt.powered = false → exec .resetRequest s = .next s) ∧
    (s.mgmt.powered = true → exec .resetRequest s = .next (resetByRequest s)) := by
  refine ⟨fun h => if_pos h, fun h => if_neg (by simp [h]), rfl, fun h => ?_, fun h => ?_⟩
  · exact congrArg _ (whilePowered_off h _)
  · exact congrArg _ (whilePowered_on h _)

section stages
variable {s : State} (hb : bringingUp s)
include hb

/-- A stage that ends well is followed by the next, with the failure so far; the package is ready after stage 4. -/
theorem bringUp_stage_ends :
    nextWith (exec (.bringUpStageDone 0) s) fun t => t.mgmt.stage = s.mgmt.stage + 1 ∧ t.mgmt.failure = s.mgmt.failure ∧
      (t.mgmt.ready = true ↔ s.mgmt.stage = 4) := by
  obtain ⟨hfail, hready⟩ := stageEnd_ready_failure s s.mgmt.stage.toNat 0
  refine ⟨_, execBringUpStageDone_moves (f := 0) hb rfl rfl, rfl, hfail, ?_⟩
  have h4 : s.mgmt.stage.toNat = 4 ↔ s.mgmt.stage = 4 := by bv_omega
  have hr : s.mgmt.ready = false := hb.2.1
  show (stageEnd s s.mgmt.stage.toNat 0).mgmt.ready = true ↔ _
  rw [hready, ← h4]
  split <;> simp_all

/-- Stage 3 leaves every stack zero. -/
theorem bringUp_memory_zero (hg : s.mgmt.stage = 3) :
    nextWith (exec (.bringUpStageDone 0) s) fun t => ∀ a, (memOf t .dev).get a = 0 ∧ (memOf t .alt).get a = 0 := by
  have h := execBringUpStageDone_moves (f := 0) hb rfl rfl
  rw [hg] at h
  exact ⟨_, h, fun _ => ⟨rfl, rfl⟩⟩

/-- What stage 4 leaves: time 0, an interrupt, the peer identifier inside the extent, and the incarnation. -/
theorem bringUp_last_stage (hg : s.mgmt.stage = 4) :
    nextWith (exec (.bringUpStageDone 0) s) fun t => t.clk = 0 ∧ t.mgmt.interrupts = s.mgmt.interrupts + 1 ∧
      t.mgmt.peerId = s.mgmt.peerReg ∧ t.mgmt.peerId.toNat / 16 < t.fab.rows ∧ t.mgmt.peerId.toNat % 16 < t.fab.cols ∧
      t.mgmt.incarnation = s.mgmt.nextIncarnation := by
  have h := execBringUpStageDone_moves (f := 0) hb rfl rfl
  rw [hg] at h
  obtain ⟨patch, -, hm, hclk, hrow, hcol⟩ := stageEnd_last s 0
  refine ⟨_, h, hclk, ?_⟩
  show (stageEnd s 4 0).mgmt.interrupts = _ ∧ (stageEnd s 4 0).mgmt.peerId = _ ∧
    (stageEnd s 4 0).mgmt.peerId.toNat / 16 < (stageEnd s 4 0).fab.rows ∧
    (stageEnd s 4 0).mgmt.peerId.toNat % 16 < (stageEnd s 4 0).fab.cols ∧ (stageEnd s 4 0).mgmt.incarnation = _
  rw [hm]
  exact ⟨rfl, rfl, hrow, hcol, rfl⟩

/-- Failure 4 of stage 2 leaves no peer, and bring-up goes on. -/
theorem bringUp_dark (hg : s.mgmt.stage = 2) :
    nextWith (exec (.bringUpStageDone 4) s) fun t => t.mgmt.failure = 4 ∧ t.mgmt.stage = 3 ∧ t.fab.peers = [] := by
  have h := execBringUpStageDone_moves (f := 4) hb (by rw [hg]; rfl) rfl
  rw [hg] at h
  exact ⟨_, h, rfl, rfl, rfl⟩

/-- Failure 5 of stage 4 leaves the package ready, with no patch. -/
theorem bringUp_patch_rejected (hg : s.mgmt.stage = 4) :
    nextWith (exec (.bringUpStageDone 5) s) fun t => t.mgmt.failure = 5 ∧ t.mgmt.ready = true ∧ t.mgmt.patch = false := by
  have h := execBringUpStageDone_moves (f := 5) hb (by rw [hg]; rfl) rfl
  rw [hg] at h
  obtain ⟨patch, hpatch, hm, -⟩ := stageEnd_last (withFailure s 5) 5
  refine ⟨_, h, ?_⟩
  show (stageEnd (withFailure s 5) 4 5).mgmt.failure = 5 ∧ (stageEnd (withFailure s 5) 4 5).mgmt.ready = true ∧
    (stageEnd (withFailure s 5) 4 5).mgmt.patch = false
  rw [hm]
  exact ⟨rfl, rfl, hpatch rfl⟩

end stages

theorem powerAndBringUp : Claims.PowerAndBringUp := by
  refine ⟨fun s => ?_, fun s hp hr hn => ?_⟩
  · obtain ⟨hon, hup, hloss, hdark, hreset⟩ := power_events s
    refine ⟨hon, fun h => ⟨_, hup h, rfl, rfl, rfl⟩, ⟨_, hloss, rfl, rfl, fun _ => rfl, fun _ => rfl, rfl⟩, hdark, fun h => ?_⟩
    exact ⟨_, hreset h, rfl, rfl, rfl, rfl, rfl, rfl, rfl, rfl, rfl, rfl, rfl, rfl, fun _ => rfl, fun _ => rfl, rfl⟩
  · have hb : bringingUp s := ⟨hp, hr, hn⟩
    refine ⟨bringUp_stage_ends hb, bringUp_memory_zero hb, fun hg => ?_, fun hg f hf => ?_, fun hg => ?_, bringUp_dark hb,
      bringUp_patch_rejected hb⟩
    · obtain ⟨t, ht, hclk, hint, hpeer, hrow, hcol, hinc⟩ := bringUp_last_stage hb hg
      refine ⟨t, ht, hclk, hint, hpeer, hrow, hcol, fun hw => ?_, fun hw => ?_⟩
      · rw [hinc, Mgmt.nextIncarnation, if_pos hw]
      · rw [hinc, Mgmt.nextIncarnation, if_neg (by simp [hw])]
        exact drawIncarnation_fresh _ _
    · have hg' : s.mgmt.stage = 2 := hg
      rcases hf with rfl | rfl
      · exact ⟨_, execBringUpStageDone_stops hb (by rw [hg']; rfl) rfl, rfl⟩
      · exact ⟨_, execBringUpStageDone_stops hb (by rw [hg']; rfl) rfl, rfl⟩
    · have hg' : s.mgmt.stage = 4 := hg
      exact ⟨_, execBringUpStageDone_stops hb (by rw [hg']; rfl) rfl, rfl⟩

/-! ### The power alarm (R429) -/

/-- The registers with the alarm on or off: a change raises an interrupt. -/
def Mgmt.withAlarm (m : Mgmt) (on : Bool) : Mgmt :=
  if m.alarm = on then m else { m with alarm := on, interrupts := m.interrupts + 1 }

/-- The registers after the hub has looked at the power, the limit and `CONTROL` bit [1] at a clk. -/
def Mgmt.reviewed (m : Mgmt) (clk : Nat) : Mgmt :=
  let m2 := { m with
    lowSince := if m.pwrnow * 100 < 95 * m.pwrlim ∧ m.force = false then some (m.lowSince.getD clk) else none }
  if m.force = true ∨ m.pwrlim < m.pwrnow then m2.withAlarm true else m2

/-- The registers once the time below 95% of the limit has been looked at: the alarm ends after 10 ms. -/
def Mgmt.lowered (m : Mgmt) (clk : Nat) : Mgmt :=
  match m.lowSince with
  | some c => if c + 17000000 ≤ clk then m.withAlarm false else m
  | none => m

theorem setAlarm_setMgmt (s : State) (m : Mgmt) (on : Bool) : setAlarm (s.setMgmt m) on = s.setMgmt (m.withAlarm on) := by
  by_cases h : m.alarm = on
  · rw [setAlarm, Mgmt.withAlarm, if_pos h, if_pos (show (s.setMgmt m).mgmt.alarm = on from h)]
  · rw [setAlarm, Mgmt.withAlarm, if_neg h, if_neg (show ¬(s.setMgmt m).mgmt.alarm = on from h)]
    rfl

theorem reviewPower_eq (s : State) : reviewPower s = s.setMgmt (s.mgmt.reviewed s.clk) := by
  simp only [reviewPower, Mgmt.reviewed, setAlarm_setMgmt, Bool.and_eq_true, Bool.or_eq_true, Bool.not_eq_true',
    decide_eq_true_eq]
  split <;> rfl

theorem reviewPower_setMgmt (s : State) (m : Mgmt) : reviewPower (s.setMgmt m) = s.setMgmt (m.reviewed s.clk) :=
  reviewPower_eq (s.setMgmt m)

section powered
variable {s : State} (hp : s.mgmt.powered = true)
include hp

theorem exec_pwrlim (v : Word) : exec (.pwrlim v) s =
    .next (s.setMgmt (({ s.mgmt with pwrlim := max 1000 (min 4200 v.toNat) } : Mgmt).reviewed s.clk)) := by
  show Host.Outcome.next (whilePowered s _) = _
  rw [whilePowered_on hp, reviewPower_setMgmt]

theorem exec_forcePowerAlarm (on : Bool) : exec (.forcePowerAlarm on) s =
    .next (s.setMgmt (({ s.mgmt with force := on } : Mgmt).reviewed s.clk)) := by
  show Host.Outcome.next (whilePowered s _) = _
  rw [whilePowered_on hp, reviewPower_setMgmt]

theorem exec_powerAlarmRaise (watts : Nat) : exec (.powerAlarmRaise watts) s =
    .next (s.setMgmt (({ s.mgmt with pwrnow := watts } : Mgmt).reviewed s.clk)) := by
  show Host.Outcome.next (whilePowered s _) = _
  rw [whilePowered_on hp, readPower, reviewPower_setMgmt]

/-- A reading below 95% of the limit ends the alarm once 10 ms have passed. -/
theorem exec_powerAlarmLower (watts : Nat) : exec (.powerAlarmLower watts) s =
    .next (s.setMgmt ((({ s.mgmt with pwrnow := watts } : Mgmt).reviewed s.clk).lowered s.clk)) := by
  show Host.Outcome.next (whilePowered s _) = _
  rw [whilePowered_on hp, readPower, reviewPower_setMgmt]
  generalize Mgmt.reviewed _ _ = r
  dsimp only [State.setMgmt_mgmt, State.setMgmt_clk]
  cases h : r.lowSince with
  | none => simp only [Mgmt.lowered, h]
  | some c =>
    simp only [Mgmt.lowered, h, setAlarm_setMgmt, alarmClk]
    split <;> rfl

/-! ### Registers without behaviour of their own (R398) -/

theorem exec_mgmtRegisterWrite (o : Nat) (v : Word) :
    exec (.mgmtRegisterWrite o v) s = .next (s.setMgmt (writeMgmt s.mgmt o v)) :=
  congrArg _ (whilePowered_on hp _)

theorem exec_keyLoad (slot : Fin 1024) (hk : s.mgmt.keycmd = none) : exec (.keyLoad slot) s =
    .next (s.setMgmt { s.mgmt with keycmd := some { slot := slot.val, clear := false } }) := by
  show Host.Outcome.next (whilePowered s _) = _
  rw [whilePowered_on hp, startKey, hk]
  rfl

theorem exec_keyClear (slot : Fin 1024) (hk : s.mgmt.keycmd = none) : exec (.keyClear slot) s =
    .next (s.setMgmt { s.mgmt with keycmd := some { slot := slot.val, clear := true } }) := by
  show Host.Outcome.next (whilePowered s _) = _
  rw [whilePowered_on hp, startKey, hk]
  rfl

theorem exec_biascmd {v : Word} (hb : s.mgmt.biasBusy = false) (hv : v.getLsbD 31 = true) : exec (.biascmd v) s =
    .next (s.setMgmt { s.mgmt with biasBusy := true, biasCount := v.setWidth 16 }) := by
  show Host.Outcome.next (whilePowered s _) = _
  rw [whilePowered_on hp, hb, hv]
  rfl

/-- The registers after a write of `ENDCMD`. -/
def Mgmt.withEndcmd (m : Mgmt) (v : Word) : Mgmt :=
  { m with endAll := v.getLsbD 61, endQueue := v.extractLsb' 32 16, endLaunch := v.setWidth 32 }

/-- `ENDCMD` (R400): without the go bit it sets its fields; else it ends the launches that it names, or finds none. -/
theorem exec_endcmd {v : Word} (hg : s.mgmt.endGo = false) :
    (v.getLsbD 63 = false → exec (.endcmd v) s = .next (s.setMgmt (s.mgmt.withEndcmd v))) ∧
    (v.getLsbD 63 = true → endNames s v = [] → exec (.endcmd v) s =
      .next (s.setMgmt { s.mgmt.withEndcmd v with endGo := false, endNotFound := true, ending := [] })) ∧
    (∀ n, v.getLsbD 63 = true → endNames s v = [n] → exec (.endcmd v) s =
      .next (killLaunch (s.setMgmt { s.mgmt.withEndcmd v with endGo := true, endNotFound := false, ending := [n] }) n 6)) := by
  have hruns : ¬(s.mgmt.endGo || !s.mgmt.powered) = true := by simp [hg, hp]
  have hgo (hv : v.getLsbD 63 = true) : ¬(!v.getLsbD 63) = true := by simp [hv]
  refine ⟨fun hv => (if_neg hruns).trans (if_pos (by rw [hv]; rfl)), fun hv hn => ?_, fun n hv hn => ?_⟩
  · exact (if_neg hruns).trans ((if_neg (hgo hv)).trans (if_pos (by rw [hn]; rfl)))
  · refine (if_neg hruns).trans ((if_neg (hgo hv)).trans ((if_neg (by simp [hn])).trans ?_))
    rw [hn]
    rfl

end powered

theorem getLsbD_sixtyFourOnes (k : Nat) : (0xFFFFFFFFFFFFFFFF#512).getLsbD k = decide (k < 64) := by
  rw [BitVec.getLsbD_ofNat, show (0xFFFFFFFFFFFFFFFF : Nat) = 2 ^ 64 - 1 from rfl, Nat.testBit_two_pow_sub_one,
    ← Bool.decide_and, decide_eq_decide]
  omega

/-- A write of 64 bits of `KEYDATA` changes those bits alone. -/
theorem keydata_slice (x : BitVec 512) (v : Word) (i j : Fin 8) :
    ((x &&& ~~~(0xFFFFFFFFFFFFFFFF#512 <<< (64 * i.val))) ||| (v.setWidth 512 <<< (64 * i.val))).extractLsb' (64 * j.val) 64 =
      if j = i then v else x.extractLsb' (64 * j.val) 64 := by
  apply BitVec.eq_of_getLsbD_eq
  intro k hk
  have hin : 64 * j.val + k < 512 := by omega
  rw [BitVec.getLsbD_extractLsb']
  simp only [BitVec.getLsbD_or, BitVec.getLsbD_and, BitVec.getLsbD_not, BitVec.getLsbD_shiftLeft, getLsbD_sixtyFourOnes,
    BitVec.getLsbD_setWidth, hk, hin]
  rcases Nat.lt_trichotomy j.val i.val with hlt | heq | hgt
  · have hij : j ≠ i := fun e => by omega
    have hbelow : 64 * j.val + k < 64 * i.val := by omega
    simp [hij, hbelow, hk]
  · obtain rfl : j = i := Fin.ext heq
    have hlow : k < 512 := by omega
    simp [hk, hlow]
  · have hij : j ≠ i := fun e => by omega
    have hat : ¬64 * j.val + k < 64 * i.val := by omega
    have habove : ¬64 * j.val + k - 64 * i.val < 64 := by omega
    have hv : v.getLsbD (64 * j.val + k - 64 * i.val) = false := BitVec.getLsbD_of_ge _ _ (by omega)
    simp [hij, hat, habove, hv, hk]

theorem writeMgmt_keydata (m : Mgmt) (v : Word) (i : Fin 8) :
    writeMgmt m (0x40 + 8 * i.val) v = { m with keydata :=
      (m.keydata &&& ~~~(0xFFFFFFFFFFFFFFFF#512 <<< (64 * i.val))) ||| (v.setWidth 512 <<< (64 * i.val)) } := by
  fin_cases i <;> rfl

/-- `QTABLE` is aligned to 4 MiB. -/
theorem writeMgmt_qtable (m : Mgmt) (v : Word) : writeMgmt m 0x10 v = { m with qtable := v >>> 22 <<< 22 } := by
  rw [BitVec.shiftLeft_ushiftRight]
  rfl

/-! ### Without power (R13) -/

theorem unpowered_mgmt {s : State} (hp : s.mgmt.powered = false) (v : Word) (watts : Nat) (slot : Fin 1024) :
    (∀ o, readMgmt s o = none) ∧ ∀ o on, ∀ i ∈ [Instr.mgmtRegisterWrite o v, .pwrlim v, .keyLoad slot, .keyClear slot,
      .biascmd v, .endcmd v, .forcePowerAlarm on, .powerAlarmRaise watts, .powerAlarmLower watts], exec i s = .next s := by
  refine ⟨fun o => if_neg (by simp [hp]), fun o on i hi => ?_⟩
  have hoff (f : State → State) : Host.Outcome.next (whilePowered s f) = (.next s : Out) := congrArg _ (whilePowered_off hp f)
  have hend : exec (.endcmd v) s = .next s := if_pos (by simp [hp])
  simp only [List.mem_cons, List.not_mem_nil, or_false] at hi
  rcases hi with rfl | rfl | rfl | rfl | rfl | rfl | rfl | rfl | rfl
  exacts [hoff _, hoff _, hoff _, hoff _, hoff _, hend, hoff _, hoff _, hoff _]

/-! ### Commands that end -/

theorem NMap.get?_del_self {α : Type} (m : NMap α) (k : Nat) : (m.del k).get? k = none := by
  induction m with
  | nil => rfl
  | cons e r ih =>
    obtain ⟨j, y⟩ := e
    by_cases h : j = k
    · simpa [NMap.del, h] using ih
    · simpa [NMap.del, h, NMap.get?] using ih

/-- A key command that ends changes its own slot, and zeroes `KEYDATA` (R428). -/
theorem exec_keyCommandDone {s : State} {k : KeyCmd} (hk : s.mgmt.keycmd = some k) :
    nextWith (exec .keyCommandDone s) fun t => t.mgmt = { s.mgmt with keycmd := none, keydata := 0 } ∧
      keyOf t k.slot = (if k.clear = true then none else some (some s.mgmt.keydata)) ∧
      ∀ j, j ≠ k.slot → keyOf t j = keyOf s j := by
  simp only [exec, execKeyCommandDone, hk]
  refine ⟨_, rfl, rfl, ?_, fun j hj => ?_⟩
  · cases hc : k.clear
    · exact NMap.get?_set_self ..
    · exact NMap.get?_del_self ..
  · cases hc : k.clear
    · exact NMap.get?_set_ne _ hj _
    · exact NMap.get?_del_ne _ hj

/-- A bias flip waits for the accesses that use its range (R424). -/
theorem exec_biasFlipComplete_held {s : State} (hb : s.mgmt.biasBusy = true) (hf : flushHeld s (biasRange s.mgmt) = true) :
    exec .biasFlipComplete s = .next s :=
  (if_neg (by simp [hb])).trans (if_pos hf)

/-- Then it ends, and no walker holds an entry of the range. -/
theorem exec_biasFlipComplete_ends {s : State} (hb : s.mgmt.biasBusy = true) (hf : flushHeld s (biasRange s.mgmt) = false) :
    nextWith (exec .biasFlipComplete s) fun t => t.mgmt = { s.mgmt with biasBusy := false } ∧
      ∀ e ∈ t.msys.walk, (biasRange s.mgmt).covers e.asid (entryPages e).1 (entryPages e).2 = false := by
  refine ⟨_, (if_neg (by simp [hb])).trans (if_neg (by simp [hf])), ?_, dropRange_walk_not_covered _ _⟩
  simp

/-- `ENDCMD` ends once its launches have been released and their packets have completed (R400). -/
theorem exec_endCommandComplete {s : State} (hg : s.mgmt.endGo = true)
    (hl : ∀ n ∈ s.mgmt.ending, s.launch? n = none ∧ ∀ p ∈ s.front.packets, p.launch ≠ some n) :
    exec .endCommandComplete s = .next (s.setMgmt { s.mgmt with endGo := false, ending := [] }) := by
  refine if_pos ?_
  simp only [Bool.and_eq_true, hg, true_and, Bool.not_eq_true', List.any_eq_false, Bool.or_eq_true, not_or]
  intro n hn
  obtain ⟨hnone, hp⟩ := hl n hn
  simpa [hnone] using hp

/-! ### The statement -/

theorem managementRegisters : Claims.ManagementRegisters := by
  intro s v watts slot
  refine ⟨fun hp => unpowered_mgmt hp v watts slot, fun hp => ?_, fun _ hk => exec_keyCommandDone hk,
    exec_biasFlipComplete_held, exec_biasFlipComplete_ends, exec_endCommandComplete, fun hp => ?_⟩
  · have hread (o : Nat) : readMgmt s o = some (mgmtWord s o) := if_pos hp
    exact ⟨hread _, hread _, hread _, hread _, hread _, hread _, hread _⟩
  · have hwrite := exec_mgmtRegisterWrite hp (v := v)
    refine ⟨?_, hwrite 0x18, hwrite 0x20, hwrite 0x28, hwrite 0x90, fun i => ?_, exec_pwrlim hp v,
      fun hk => ⟨exec_keyLoad hp slot hk, exec_keyClear hp slot hk⟩, exec_biascmd hp, exec_endcmd hp,
      exec_forcePowerAlarm hp, exec_powerAlarmRaise hp watts, exec_powerAlarmLower hp watts⟩
    · exact (hwrite 0x10).trans (by rw [writeMgmt_qtable]; rfl)
    · refine ⟨_, hwrite _, fun j => ?_⟩
      rw [State.setMgmt_mgmt, writeMgmt_keydata]
      exact keydata_slice ..

/-- Settles O57: power and bring-up by the stages' lemmas, the registers by one lemma for each write, command and reading. -/
theorem management : Obligations.Management := ⟨powerAndBringUp, managementRegisters⟩

end Sys2Proof.Machine

/-! SUPPORT. Lanes: what a lane and a rider hold after a write of lanes, the flags of `fps` that it raises, and the masked vector instruction that is made of one (R56, R58, R149 to R151). -/

namespace Sys2Proof

/-! ### Element types -/

theorem ElemTy.width_cases (et : ElemTy) : et.width = 8 ∨ et.width = 16 ∨ et.width = 32 ∨ et.width = 64 := by
  cases et <;> simp [ElemTy.width]

theorem ElemTy.width_mul_lanes (et : ElemTy) : et.width * et.lanes = 256 := by cases et <;> rfl

/-- A lane of a type lies in the data bits. -/
theorem ElemTy.lane_in_data {et : ElemTy} {j : Nat} (h : j < et.lanes) : et.width * (j + 1) ≤ 256 :=
  et.width_mul_lanes ▸ Nat.mul_le_mul_left _ h

theorem ElemTy.lanes_of_width16 {et : ElemTy} (h : et.width = 16) : et.lanes = 16 := by
  rw [ElemTy.lanes, h]

theorem ElemTy.lanes_le_eight {et : ElemTy} (h : 16 < et.width) : et.lanes ≤ 8 := by
  have := et.width_mul_lanes
  rcases et.width_cases with e | e | e | e <;> rw [e] at this h <;> omega

end Sys2Proof

namespace Sys2Proof.Machine

/-! ### Lanes joined to a register -/

/-- Lane j of joined lanes is the j-th pattern, of the width. -/
theorem joinLanes_lane (w : Nat) (l : List Nat) (j : Nat) :
    (joinLanes w l >>> (w * j)) % 2 ^ w = (l[j]?.getD 0) % 2 ^ w := by
  induction l generalizing j with
  | nil => simp [joinLanes]
  | cons x xs ih =>
    cases j with
    | zero => simp [joinLanes]
    | succ j =>
      have hx : (joinLanes w (x :: xs)) >>> w = joinLanes w xs := by
        rw [Nat.shiftRight_eq_div_pow, joinLanes, Nat.add_mul_div_left _ _ (Nat.two_pow_pos w),
          Nat.div_eq_of_lt (Nat.mod_lt _ (Nat.two_pow_pos w)), Nat.zero_add]
      rw [Nat.mul_succ, Nat.add_comm, Nat.shiftRight_add, hx, ih, List.getElem?_cons_succ]

/-- Bit i of joined bits. -/
theorem joinBits_testBit (l : List Bool) (i : Nat) : (joinBits l).testBit i = l[i]?.getD false := by
  induction l generalizing i with
  | nil => simp [joinBits]
  | cons b bs ih =>
    cases i with
    | zero => cases b <;> simp [joinBits, Nat.testBit_zero, Nat.add_mod]
    | succ i =>
      have hb : joinBits (b :: bs) / 2 = joinBits bs := by cases b <;> simp [joinBits]; omega
      rw [Nat.testBit_succ, hb, ih, List.getElem?_cons_succ]

theorem vMake_toNat (r : BitVec 8) (d : BitVec 256) : (vMake r d).toNat = r.toNat * 2 ^ 256 + d.toNat := by
  rw [vMake, BitVec.toNat_append, ← Nat.shiftLeft_add_eq_or_of_lt d.isLt, Nat.shiftLeft_eq]

@[simp] theorem vRider_vMake (r : BitVec 8) (d : BitVec 256) : vRider (vMake r d) = r := by
  apply BitVec.eq_of_toNat_eq
  have hr := r.isLt
  rw [vRider, BitVec.extractLsb'_toNat, vMake_toNat, Nat.shiftRight_eq_div_pow]
  omega

theorem vMake_data (r : BitVec 8) (d : BitVec 256) : (vMake r d).toNat % 2 ^ 256 = d.toNat := by
  have hd := d.isLt
  rw [vMake_toNat]
  omega

/-- A lane that lies in the data bits does not see the rider. -/
theorem laneOf_vMake (r : BitVec 8) (d : BitVec 256) {w j : Nat} (h : w * (j + 1) ≤ 256) :
    laneOf (vMake r d) w j = (d.toNat >>> (w * j)) % 2 ^ w := by
  apply Nat.eq_of_testBit_eq
  intro i
  simp only [laneOf, Nat.testBit_mod_two_pow, Nat.testBit_shiftRight]
  by_cases hi : i < w
  · have hb : w * j + i < 256 := by rw [Nat.mul_succ] at h; omega
    have e := Nat.testBit_mod_two_pow (vMake r d).toNat 256 (w * j + i)
    rw [vMake_data] at e
    simp [hi, e, hb]
  · simp [hi]

/-! ### Writing lanes -/

@[simp] theorem flagOf_width8 (x : VWord) (j : Nat) : flagOf x 8 j = false := rfl

/-- The lanes of a destination, by number. -/
abbrev laneList (et : ElemTy) (f : Nat → Option LaneRes) : List (Option LaneRes) := (List.range et.lanes).map f

theorem laneList_get {et : ElemTy} (f : Nat → Option LaneRes) {j : Nat} (h : j < et.lanes) :
    (laneList et f)[j]? = some (f j) := by
  rw [List.getElem?_map, List.getElem?_range h, Option.map_some]

theorem maskedLanes_eq (t : ThreadSet) (k : KReg) (et : ElemTy) (f : Nat → LaneRes) :
    maskedLanes t k et f = laneList et fun j => if active (t.getK k) j = true then some (f j) else none := rfl

/-- What the lanes of a destination hold after a write: a new pattern, or what they held. -/
theorem laneOf_writeLanes (et : ElemTy) (old : VWord) (r8 : BitVec 8) (f : Nat → Option LaneRes) {j : Nat} (hj : j < et.lanes) :
    laneOf (writeLanes et.width old r8 ((laneList et f).map (Option.map fun r => (r.val, r.flag)))) et.width j =
      match f j with
      | some r => r.val % 2 ^ et.width
      | none => laneOf old et.width j := by
  unfold writeLanes
  rw [laneOf_vMake _ _ (ElemTy.lane_in_data hj), BitVec.toNat_ofNat]
  have hmod (x : Nat) : ((x % 2 ^ 256) >>> (et.width * j)) % 2 ^ et.width = (x >>> (et.width * j)) % 2 ^ et.width := by
    apply Nat.eq_of_testBit_eq
    intro i
    have := ElemTy.lane_in_data hj
    rw [Nat.mul_succ] at this
    simp only [Nat.testBit_mod_two_pow, Nat.testBit_shiftRight]
    by_cases hi : i < et.width
    · simp [hi, show et.width * j + i < 256 by omega]
    · simp [hi]
  rw [hmod, joinLanes_lane]
  simp only [List.length_map, List.length_range, List.getElem?_map, List.getElem?_range hj, Option.map_some, Option.getD_some]
  cases h : f j with
  | some r => rfl
  | none => exact Nat.mod_mod _ _

/-- The new rider, bit by bit, of lanes given by number: which ones are written, and their flags (R58). -/
theorem newRider_bit (et : ElemTy) (old : VWord) (f : Nat → Option LaneRes) {i : Nat} (hi : i < 8) :
    let ls := (laneList et f).map (Option.map fun r => (r.val, r.flag))
    let fl (j : Nat) : Bool := (f j).any LaneRes.flag
    (et.width = 16 → (newRider et.width old ls).getLsbD i = (fl (2 * i) || fl (2 * i + 1) ||
      (((f (2 * i)).isNone || (f (2 * i + 1)).isNone) && (vRider old).getLsbD i))) ∧
    (16 < et.width → i < et.lanes → (newRider et.width old ls).getLsbD i =
      (fl i || ((f i).isNone && (vRider old).getLsbD i))) := by
  intro ls fl
  have hget {j : Nat} (hj : j < et.lanes) : ls[j]? = some ((f j).map fun r => (r.val, r.flag)) := by
    simp only [ls, List.getElem?_map, List.getElem?_range hj, Option.map_some]
  have hbit (g : Nat → Bool) : (BitVec.ofNat 8 (joinBits ((List.range 8).map g))).getLsbD i = g i := by
    rw [BitVec.getLsbD_ofNat, joinBits_testBit, List.getElem?_map, List.getElem?_range hi]
    simp [hi]
  have hfl {j : Nat} (hj : j < et.lanes) : (match ls[j]? with | some (some (_, x)) => x | _ => false) = fl j := by
    rw [hget hj]; cases hf : f j <;> simp [fl, hf]
  have hkept {j : Nat} (hj : j < et.lanes) : (match ls[j]? with | some none => true | _ => false) = (f j).isNone := by
    rw [hget hj]; cases hf : f j <;> simp
  constructor
  · intro hw
    have hl := ElemTy.lanes_of_width16 hw
    unfold newRider
    simp only [hbit, if_pos hw]
    rw [← hfl (j := 2 * i) (by omega), ← hfl (j := 2 * i + 1) (by omega), ← hkept (j := 2 * i) (by omega),
      ← hkept (j := 2 * i + 1) (by omega)]
    rfl
  · intro hw hil
    unfold newRider
    simp only [hbit, if_neg (show ¬et.width = 16 by omega), show ls.length = et.lanes by simp [ls], if_pos hil]
    rw [← hfl hil, ← hkept hil]
    rfl

/-! ### Flags -/

@[simp] theorem Flags.or_empty (f : Flags) : f.or {} = f := by simp [Flags.or]
@[simp] theorem Flags.empty_or (f : Flags) : Flags.or {} f = f := by simp [Flags.or]

theorem fpsBits_empty : fpsBits {} = 0 := rfl

/-- LS joins the other flags as its bit of `fps` (R104). -/
theorem fpsBits_ls (f : Flags) : fpsBits { f with ls := true } = fpsBits f ||| 0x20 := by
  obtain ⟨nx, uf, ov, dz, nv, ls⟩ := f
  revert nx uf ov dz nv ls
  decide

theorem fpsBits_only_ls (b : Bool) : fpsBits { ls := b } = if b = true then 0x20 else 0 := by
  cases b <;> rfl

/-- The flags of lanes given by number are those of the lanes that are written. -/
theorem laneFlags_map {f : Nat → Option LaneRes} {on : Nat → Bool} {fl : Nat → Flags} {l : List Nat}
    (h : ∀ j ∈ l, (f j).map LaneRes.fl = if on j = true then some (fl j) else none) :
    laneFlags (l.map f) = (l.filter fun j => on j).foldr (fun j a => (fl j).or a) {} := by
  induction l with
  | nil => rfl
  | cons j l ih =>
    have hj := h j List.mem_cons_self
    have ih' := ih fun i hi => h i (List.mem_cons_of_mem _ hi)
    cases hon : on j <;> cases hf : f j <;> simp_all [laneFlags]

theorem laneFlags_quiet {f : Nat → Option LaneRes} {l : List Nat} (h : ∀ j ∈ l, ∀ r, f j = some r → r.fl = {}) :
    laneFlags (l.map f) = {} := by
  induction l with
  | nil => rfl
  | cons j l ih =>
    have hj := h j List.mem_cons_self
    have ih' := ih fun i hi => h i (List.mem_cons_of_mem _ hi)
    cases hf : f j <;> simp_all [laneFlags]

/-- Some lane of a list is written with its lost flag set. -/
theorem anyFlag_map {f : Nat → Option LaneRes} {on flg : Nat → Bool} {l : List Nat}
    (h : ∀ j ∈ l, (f j).map LaneRes.flag = if on j = true then some (flg j) else none) :
    anyFlag (l.map f) = (l.map fun j => on j && flg j).contains true := by
  induction l with
  | nil => rfl
  | cons j l ih =>
    have hj := h j List.mem_cons_self
    have ih' := ih fun i hi => h i (List.mem_cons_of_mem _ hi)
    cases hon : on j <;> cases hf : f j <;> simp_all [anyFlag]

/-! ### Registers after a write of lanes -/

@[simp] theorem ThreadSet.getV_setV_self (t : ThreadSet) (d : Reg) (x : VWord) : (t.setV d x).getV d = x := by
  simp [ThreadSet.getV, ThreadSet.setV]

theorem ThreadSet.getV_setV_ne (t : ThreadSet) {d q : Reg} (h : q ≠ d) (x : VWord) : (t.setV d x).getV q = t.getV q := by
  have : d.val ≠ q.val := fun e => h (Fin.ext e.symm)
  simp [ThreadSet.getV, ThreadSet.setV, this]

@[simp] theorem ThreadSet.raise_getV (t : ThreadSet) (f : BitVec 6) (q : Reg) : (t.raise f).getV q = t.getV q := rfl
@[simp] theorem ThreadSet.past_getV (t : ThreadSet) (n : Nat) (q : Reg) : (t.past n).getV q = t.getV q := rfl
@[simp] theorem ThreadSet.past_getS (t : ThreadSet) (n : Nat) (q : Reg) : (t.past n).getS q = t.getS q := rfl
@[simp] theorem ThreadSet.raise_getS (t : ThreadSet) (f : BitVec 6) (q : Reg) : (t.raise f).getS q = t.getS q := rfl

theorem ThreadSet.raise_zero_fps (t : ThreadSet) : (t.raise 0).fps = t.fps := by simp [ThreadSet.raise]

/-- A write of lanes and its advance of the pc leave every register but V[d], `fps` and the pc. -/
theorem putLanes_frame (t : ThreadSet) (d : Reg) (w : Nat) (r8 : BitVec 8) (ls : List (Option LaneRes)) (n : Nat) :
    let y := (putLanes t d w r8 ls).past n
    (∀ q, q ≠ d → y.getV q = t.getV q) ∧ y.s = t.s ∧ y.p = t.p ∧ y.k = t.k ∧ y.pc = t.pc + BitVec.ofNat 64 n ∧
      specialsKept t y :=
  ⟨fun _ h => ThreadSet.getV_setV_ne t h _, rfl, rfl, rfl, rfl, rfl, rfl, rfl, rfl, rfl, rfl, rfl, rfl, rfl, rfl, rfl, rfl, rfl⟩

theorem putLanes_fps (t : ThreadSet) (d : Reg) (w : Nat) (r8 : BitVec 8) (ls : List (Option LaneRes)) :
    (putLanes t d w r8 ls).fps =
      t.fps ||| fpsBits (laneFlags ls) ||| (if w = 8 ∧ anyFlag ls = true then 0x20 else 0) := by
  show t.fps ||| fpsBits (if (w = 8 && anyFlag ls) = true then _ else _) = _
  by_cases h : w = 8 ∧ anyFlag ls = true
  · rw [if_pos h, if_pos (by simpa using h), fpsBits_ls, BitVec.or_assoc]
  · rw [if_neg h, if_neg (by simpa using h)]; simp

/-! ### What a vector instruction leaves -/

/-- The lanes of V[d] after a write of lanes. -/
theorem putLanes_lanes (t : ThreadSet) (d : Reg) (et : ElemTy) (r8 : BitVec 8) (f : Nat → Option LaneRes) {j : Nat}
    (hj : j < et.lanes) : laneOf ((putLanes t d et.width r8 (laneList et f)).getV d) et.width j =
      match f j with
      | some r => r.val % 2 ^ et.width
      | none => laneOf (t.getV d) et.width j := by
  rw [putLanes, ThreadSet.raise_getV, ThreadSet.getV_setV_self]
  exact laneOf_writeLanes et _ r8 f hj

/-- The rider of V[d] after a write of lanes (R58, R151), said by any two functions that give the written lanes and their flags. -/
theorem putLanes_rider (t : ThreadSet) (d : Reg) (et : ElemTy) (r8 : BitVec 8) {f : Nat → Option LaneRes} {on flg : Nat → Bool}
    (h : ∀ j, j < et.lanes → (f j).map LaneRes.flag = if on j = true then some (flg j) else none) (n : Nat) :
    Claims.riderWritten t ((putLanes t d et.width r8 (laneList et f)).past n) d et on flg r8 := by
  have hv : vRider (((putLanes t d et.width r8 (laneList et f)).past n).getV d) = if et.width = 8 then r8 else
      newRider et.width (t.getV d) ((laneList et f).map (Option.map fun r => (r.val, r.flag))) := by
    rw [ThreadSet.past_getV, putLanes, ThreadSet.raise_getV, ThreadSet.getV_setV_self, writeLanes, vRider_vMake]
  have hfl {j : Nat} (hj : j < et.lanes) : (f j).any LaneRes.flag = (on j && flg j) := by
    have := h j hj
    cases hf : f j <;> cases hon : on j <;> simp_all
  have hnone {j : Nat} (hj : j < et.lanes) : (f j).isNone = !on j := by
    have := h j hj
    cases hf : f j <;> cases hon : on j <;> simp_all
  refine ⟨fun hw => ?_, fun hw i hi => ?_, fun hw j hj => ?_⟩
  · rw [hv, if_pos hw]
  · have hl := ElemTy.lanes_of_width16 hw
    rw [hv, if_neg (by omega), (newRider_bit et (t.getV d) f hi).1 hw]
    dsimp only
    rw [hfl (j := 2 * i) (by omega),
      hfl (j := 2 * i + 1) (by omega), hnone (j := 2 * i) (by omega), hnone (j := 2 * i + 1) (by omega), Bool.not_and]
  · have hi : j < 8 := Nat.lt_of_lt_of_le hj (ElemTy.lanes_le_eight hw)
    rw [hv, if_neg (by omega), (newRider_bit et (t.getV d) f hi).2 hw hj]
    dsimp only
    rw [hfl hj, hnone hj]
    cases on j <;> simp

/-- A masked write of lanes is the one of `lanesWritten`. -/
theorem lanesWritten_putLanes (s : State) (d : Reg) (k : KReg) (et : ElemTy) (r8 : BitVec 8) {f : Nat → LaneRes}
    {val : Nat → Nat} {flg : Nat → Bool} (hval : ∀ j, j < et.lanes → (f j).val % 2 ^ et.width = val j % 2 ^ et.width)
    (hflg : ∀ j, j < et.lanes → (f j).flag = flg j) :
    Claims.lanesWritten s (s.setMe ((putLanes s.me d et.width r8 (maskedLanes s.me k et f)).past 12)) d k et val flg r8 := by
  obtain ⟨hv, hs, hp, hk, hpc, hkept⟩ := putLanes_frame s.me d et.width r8 (maskedLanes s.me k et f) 12
  simp only [Claims.lanesWritten, State.setMe_me]
  refine ⟨fun j hj => ?_, putLanes_rider s.me d et r8 (fun j hj => ?_) 12, hv, hs, hp, hk, hpc, hkept, _, rfl⟩
  · rw [ThreadSet.past_getV, maskedLanes_eq, putLanes_lanes s.me d et r8 _ hj]
    by_cases ha : active (s.me.getK k) j = true <;> simp [ha, hval j hj]
  · by_cases ha : active (s.me.getK k) j = true <;> simp [ha, hflg j hj]

/-- No lane of an 8-bit destination has a lost flag where its flags are read from lanes of its own width. -/
theorem anyFlag_laneList_false {et : ElemTy} {f : Nat → Option LaneRes}
    (h : ∀ j, j < et.lanes → ∀ r, f j = some r → r.flag = false) : anyFlag (laneList et f) = false := by
  rw [anyFlag, List.any_eq_false]
  intro x hx
  obtain ⟨j, hj, rfl⟩ := List.mem_map.1 hx
  cases hf : f j with
  | none => simp
  | some r => simp [h j (List.mem_range.1 hj) r hf]

/-- `fps` after a write of lanes that raise no flags, with no lost flag that reaches an 8-bit destination. -/
theorem putLanes_fps_quiet (t : ThreadSet) (d : Reg) (et : ElemTy) (r8 : BitVec 8) {f : Nat → Option LaneRes}
    (hfl : ∀ j, j < et.lanes → ∀ r, f j = some r → r.fl = {})
    (h8 : et.width = 8 → ∀ j, j < et.lanes → ∀ r, f j = some r → r.flag = false) :
    (putLanes t d et.width r8 (laneList et f)).fps = t.fps := by
  rw [putLanes_fps, laneFlags_quiet fun j hj => hfl j (List.mem_range.1 hj), if_neg]
  · simp [fpsBits_empty]
  · rintro ⟨hw, ha⟩
    rw [anyFlag_laneList_false (h8 hw)] at ha
    cases ha

/-- `fps` after a write of lanes: the OR of the flags of those that are written, and LS where a lost flag reaches an 8-bit
destination (R58, R151). -/
theorem putLanes_fps_flags (t : ThreadSet) (d : Reg) (et : ElemTy) (r8 : BitVec 8) {f : Nat → Option LaneRes} {on flg : Nat → Bool}
    {fl : Nat → Flags}
    (hfl : ∀ j, j < et.lanes → (f j).map LaneRes.fl = if on j = true then some (fl j) else none)
    (hflg : ∀ j, j < et.lanes → (f j).map LaneRes.flag = if on j = true then some (flg j) else none) :
    (putLanes t d et.width r8 (laneList et f)).fps = t.fps ||| Claims.orFlags et on fl |||
      (if et.width = 8 ∧ ((List.range et.lanes).map fun j => on j && flg j).contains true = true then 0x20 else 0) := by
  rw [putLanes_fps, laneFlags_map fun j hj => hfl j (List.mem_range.1 hj), anyFlag_map fun j hj => hflg j (List.mem_range.1 hj)]
  rfl

/-- A guarded instruction whose predicate holds runs its body (R74). -/
theorem guarded_on {g : Guard} {s : State} (h : s.me.getP g.p ≠ g.pn) (len : Nat) (k : Out) : guarded g len s k = k :=
  if_pos (by simpa using h)

section masked
variable {i : Instr} {s : State} {d : Reg} {k : KReg} {et : ElemTy} {r8 : BitVec 8} {f : Nat → LaneRes}
  {val : Nat → Nat} {flg : Nat → Bool}

/-- An instruction whose end is a masked write of lanes that raise no flags. -/
theorem writesLanes_masked (he : exec i s = nextMe s (putLanes s.me d et.width r8 (maskedLanes s.me k et f)) 12)
    (hval : ∀ j, j < et.lanes → (f j).val % 2 ^ et.width = val j % 2 ^ et.width)
    (hflg : ∀ j, j < et.lanes → (f j).flag = flg j) (hfl : ∀ j, (f j).fl = {})
    (h8 : et.width = 8 → ∀ j, flg j = false) : Claims.writesLanes i s d k et val flg r8 := by
  refine ⟨_, he, lanesWritten_putLanes s d k et r8 hval hflg, ?_⟩
  rw [State.setMe_me]
  show (putLanes s.me d et.width r8 (maskedLanes s.me k et f)).fps = _
  rw [maskedLanes_eq, putLanes_fps_quiet]
  · intro j _ r hr
    by_cases ha : active (s.me.getK k) j = true <;> simp [ha] at hr
    rw [← hr, hfl]
  · intro hw j hj r hr
    by_cases ha : active (s.me.getK k) j = true <;> simp [ha] at hr
    rw [← hr, hflg j hj, h8 hw]

/-- An instruction whose end is a masked write of lanes with their flags of `fps`. -/
theorem writesLanesFlags_masked {fl : Nat → Flags}
    (he : exec i s = nextMe s (putLanes s.me d et.width r8 (maskedLanes s.me k et f)) 12)
    (hval : ∀ j, j < et.lanes → (f j).val % 2 ^ et.width = val j % 2 ^ et.width)
    (hflg : ∀ j, j < et.lanes → (f j).flag = flg j) (hfl : ∀ j, j < et.lanes → (f j).fl = fl j)
    (h8 : et.width = 8 → ∀ j, flg j = false) : Claims.writesLanesFlags i s d k et val flg r8 fl := by
  refine ⟨_, he, lanesWritten_putLanes s d k et r8 hval hflg, ?_⟩
  rw [State.setMe_me]
  show (putLanes s.me d et.width r8 (maskedLanes s.me k et f)).fps = _
  rw [maskedLanes_eq, putLanes_fps_flags s.me d et r8 (on := active (s.me.getK k)) (flg := flg) (fl := fl)]
  · rw [if_neg]
    · simp
    · rintro ⟨hw, hc⟩
      simp [h8 hw] at hc
  · intro j hj
    by_cases ha : active (s.me.getK k) j = true <;> simp [ha, hfl j hj]
  · intro j hj
    by_cases ha : active (s.me.getK k) j = true <;> simp [ha, hflg j hj]

end masked

end Sys2Proof.Machine

/-! SUPPORT. Permutations, reductions and conversions of lanes: one lemma for each instruction, and the statements that are made of them (R161 to R168). -/

namespace Sys2Proof.Machine

/-! ### Permutations (R166) -/

theorem exec_vbcast (g : Guard) (k : KReg) (et : ElemTy) (d a : Reg) (s : State) :
    exec (.vbcast g k et d a) s = execVbcast g k et d a s := rfl
theorem exec_vins (g : Guard) (et : ElemTy) (d a : Reg) (lane : Fin 32) (s : State) :
    exec (.vins g et d a lane) s = execVins g et d a lane s := rfl
theorem exec_vext (g : Guard) (et : ElemTy) (d a : Reg) (lane : Fin 32) (s : State) :
    exec (.vext g et d a lane) s = execVext g et d a lane s := rfl
theorem exec_vperm (g : Guard) (k : KReg) (et : ElemTy) (d a b : Reg) (s : State) :
    exec (.vperm g k et d a b) s = execVperm g k et d a b s := rfl
theorem exec_vshuf (g : Guard) (k : KReg) (et : ElemTy) (d a b : Reg) (pat : Fin 4) (s : State) :
    exec (.vshuf g k et d a b pat) s = execVshuf g k et d a b pat s := rfl
theorem exec_vslide (g : Guard) (k : KReg) (et : ElemTy) (d a b : Reg) (n : Fin 33) (s : State) :
    exec (.vslide g k et d a b n) s = execVslide g k et d a b n s := rfl
theorem exec_vcompress (g : Guard) (k : KReg) (et : ElemTy) (d a : Reg) (s : State) :
    exec (.vcompress g k et d a) s = execVcompress g k et d a s := rfl
theorem exec_vexpand (g : Guard) (k : KReg) (et : ElemTy) (d a : Reg) (s : State) :
    exec (.vexpand g k et d a) s = execVexpand g k et d a s := rfl

theorem vecOp_on {g : Guard} {s : State} (h : s.me.getP g.p ≠ g.pn) (k : KReg) (et : ElemTy) (d a : Reg)
    (f : ThreadSet → Nat → LaneRes) : vecOp g k et d a f s =
      nextMe s (putLanes s.me d et.width (vRider (s.me.getV a)) (maskedLanes s.me k et (f s.me))) 12 :=
  guarded_on h 12 _

/-- A masked instruction that raises no flags, from the lanes that it computes. -/
theorem writesLanes_vecOp {i : Instr} {s : State} {g : Guard} {k : KReg} {et : ElemTy} {d a : Reg} {f : ThreadSet → Nat → LaneRes}
    {val : Nat → Nat} {flg : Nat → Bool} (h : s.me.getP g.p ≠ g.pn) (he : exec i s = vecOp g k et d a f s)
    (hval : ∀ j, (f s.me j).val % 2 ^ et.width = val j % 2 ^ et.width) (hflg : ∀ j, (f s.me j).flag = flg j)
    (hfl : ∀ j, (f s.me j).fl = {}) (h8 : et.width = 8 → ∀ j, flg j = false) :
    Claims.writesLanes i s d k et val flg (vRider (s.me.getV a)) :=
  writesLanes_masked (he.trans (vecOp_on h ..)) (fun j _ => hval j) (fun j _ => hflg j) hfl h8

/-- An instruction whose end is a write of lanes, some of which keep what they had, that raises no flags. -/
theorem quiet_lanes {i : Instr} {s : State} {d : Reg} {et : ElemTy} {r8 : BitVec 8} {f : Nat → Option LaneRes} {on flg : Nat → Bool}
    (he : exec i s = nextMe s (putLanes s.me d et.width r8 (laneList et f)) 12)
    (hflg : ∀ j, j < et.lanes → (f j).map LaneRes.flag = if on j = true then some (flg j) else none)
    (hfl : ∀ j, j < et.lanes → ∀ r, f j = some r → r.fl = {})
    (h8 : et.width = 8 → ∀ j, flg j = false) :
    nextWith (exec i s) fun t =>
      (∀ j, j < et.lanes → laneOf (t.me.getV d) et.width j =
        match f j with
        | some r => r.val % 2 ^ et.width
        | none => laneOf (s.me.getV d) et.width j) ∧
      Claims.riderWritten s.me t.me d et on flg r8 ∧ (∀ q, q ≠ d → t.me.getV q = s.me.getV q) ∧ t.me.s = s.me.s ∧
      t.me.fps = s.me.fps ∧ t.me.pc = s.me.pc + 12 ∧ onlyMe s t := by
  obtain ⟨hv, hs, -, -, hpc, -⟩ := putLanes_frame s.me d et.width r8 (laneList et f) 12
  refine ⟨_, he, ?_⟩
  simp only [State.setMe_me]
  refine ⟨fun j hj => putLanes_lanes s.me d et r8 f hj, putLanes_rider s.me d et r8 hflg 12, hv, hs, ?_, hpc, _, rfl⟩
  refine putLanes_fps_quiet s.me d et r8 hfl fun hw j hj r hr => ?_
  have := hflg j hj
  rw [hr, h8 hw] at this
  cases ho : on j <;> simp_all

theorem flagOf_of_width8 {et : ElemTy} (h : et.width = 8) (x : VWord) (j : Nat) : flagOf x et.width j = false := by
  rw [h]; rfl

theorem laneOf_mod (x : VWord) (w j : Nat) : laneOf x w j % 2 ^ w = laneOf x w j := Nat.mod_mod _ _

section permutations
variable {s : State} {g : Guard} (h : s.me.getP g.p ≠ g.pn) (k : KReg) (et : ElemTy) (d a b : Reg)
include h

theorem vbcast_writesLanes : Claims.writesLanes (.vbcast g k et d a) s d k et (fun _ => (s.me.getS a).toNat) (fun _ => false) 127 :=
  writesLanes_masked (guarded_on h 12 _) (fun _ _ => Nat.mod_mod _ _) (fun _ _ => rfl) (fun _ => rfl) fun _ _ => rfl

theorem vperm_writesLanes : Claims.writesLanes (.vperm g k et d a b) s d k et
    (fun j => laneOf (s.me.getV a) et.width (laneOf (s.me.getV b) et.width j % et.lanes))
    (fun j => flagOf (s.me.getV a) et.width (laneOf (s.me.getV b) et.width j % et.lanes) || flagOf (s.me.getV b) et.width j)
    (vRider (s.me.getV a)) :=
  writesLanes_vecOp h (exec_vperm ..) (fun _ => rfl) (fun _ => rfl) (fun _ => rfl) fun hw _ => by
    rw [flagOf_of_width8 hw, flagOf_of_width8 hw]; rfl

theorem vslide_writesLanes (n : Fin 33) : Claims.writesLanes (.vslide g k et d a b n) s d k et
    (fun j => if j + n.val < et.lanes then laneOf (s.me.getV a) et.width (j + n.val)
      else laneOf (s.me.getV b) et.width (j + n.val - et.lanes))
    (fun j => if j + n.val < et.lanes then flagOf (s.me.getV a) et.width (j + n.val)
      else flagOf (s.me.getV b) et.width (j + n.val - et.lanes)) (vRider (s.me.getV a)) := by
  refine writesLanes_vecOp h (exec_vslide ..) (fun j => ?_) (fun j => ?_) (fun j => ?_) fun hw j => ?_
  · dsimp only; split <;> rfl
  · dsimp only; split <;> rfl
  · dsimp only; split <;> rfl
  · simp only [flagOf_of_width8 hw, ite_self]

theorem vexpand_writesLanes : Claims.writesLanes (.vexpand g k et d a) s d k et
    (fun j => laneOf (s.me.getV a) et.width ((List.range j).filter fun i => active (s.me.getK k) i).length)
    (fun j => flagOf (s.me.getV a) et.width ((List.range j).filter fun i => active (s.me.getK k) i).length)
    (vRider (s.me.getV a)) :=
  writesLanes_vecOp h (exec_vexpand ..) (fun _ => rfl) (fun _ => rfl) (fun _ => rfl) fun hw _ => flagOf_of_width8 hw _ _

/-- The interleaving patterns: which register and lane each lane takes. -/
theorem vshuf_writesLanes (pat : Fin 4) : Claims.writesLanes (.vshuf g k et d a b pat) s d k et
    (fun j => let q := shufSource pat (et.lanes / 2) j; laneOf (s.me.getV (if q.1 = true then b else a)) et.width q.2)
    (fun j => let q := shufSource pat (et.lanes / 2) j; flagOf (s.me.getV (if q.1 = true then b else a)) et.width q.2)
    (vRider (s.me.getV a)) :=
  writesLanes_vecOp h (exec_vshuf ..) (fun _ => rfl) (fun _ => rfl) (fun _ => rfl) fun hw _ => flagOf_of_width8 hw _ _

end permutations

/-- A choice by the source of an interleaving pattern, written out. -/
theorem shufSource_choice {α : Type} (pat : Fin 4) (h j : Nat) (x y : Nat → α) :
    (let q := shufSource pat h j; if q.1 = true then y q.2 else x q.2) =
      if pat = 0 then (if j % 2 = 0 then x (j / 2) else y (j / 2))
      else if pat = 1 then (if j % 2 = 0 then x (h + j / 2) else y (h + j / 2))
      else if pat = 2 then (if j < h then x (2 * j) else y (2 * (j - h)))
      else (if j < h then x (2 * j + 1) else y (2 * (j - h) + 1)) := by
  have hp : (j % 2 == 1) = true ↔ ¬j % 2 = 0 := by rw [beq_iff_eq]; omega
  have h4 : pat = 0 ∨ pat = 1 ∨ pat = 2 ∨ pat = 3 := by omega
  rcases h4 with rfl | rfl | rfl | rfl
  · simp only [shufSource, hp, if_true, ite_not]
  · simp only [shufSource, hp, ite_not, Fin.isValue, Fin.reduceEq, if_false, if_true]
  · by_cases hj : j < h <;> simp [shufSource, hj]
  · by_cases hj : j < h <;> simp [shufSource, hj]

theorem vectorPermutations : Claims.VectorPermutations := by
  intro s g k et d a b lane pat n h w la lb old x sel hl va fa fb
  refine ⟨vbcast_writesLanes h k et d a, ?_, ?_, vperm_writesLanes h k et d a b, ?_, vslide_writesLanes h k et d a b n, ?_, vexpand_writesLanes h k et d a⟩
  · obtain ⟨t, e, hlanes, hrest⟩ := quiet_lanes (i := .vins g et d a lane) (s := s) (d := d) (et := et) (on := fun j => j == lane.val)
      (flg := fun _ => false) (guarded_on h 12 _) (fun j _ => by by_cases hj : j = lane.val <;> simp [hj])
      (fun j _ r hr => by by_cases hj : j = lane.val <;> simp [hj] at hr; exact hr ▸ rfl) fun _ _ => rfl
    refine ⟨t, e, fun j hj => (hlanes j hj).trans ?_, hrest⟩
    by_cases hj : j = lane.val <;> simp [hj, w, x, old]
  · refine ⟨_, guarded_on h 12 _, ?_⟩
    simp only [State.setMe_me, ThreadSet.past_getS, ThreadSet.raise_getS]
    refine ⟨ThreadSet.getS_setS_self .., fun q hq => ThreadSet.getS_setS_ne _ hq _, ?_, ThreadSet.setS_v .., ?_, _, rfl⟩
    · show (s.me.setS d _).fps ||| fpsBits _ = _
      rw [ThreadSet.setS_fps, fpsBits_only_ls]
    · exact congrArg (· + 12) (ThreadSet.setS_pc s.me d _)
  · obtain ⟨t, e, hlanes, hrest⟩ := vshuf_writesLanes h k et d a b pat
    have hc {α : Type} (f : VWord → Nat → α) (j : Nat) := shufSource_choice pat hl j (f (s.me.getV a)) (f (s.me.getV b))
    have hsrc {α : Type} (f : VWord → Nat → α) (q : Bool × Nat) :
        f (s.me.getV (if q.1 = true then b else a)) q.2 =
          if q.1 = true then f (s.me.getV b) q.2 else f (s.me.getV a) q.2 := by
      cases q.1 <;> rfl
    refine ⟨t, e, ?_, hrest⟩
    have hval := fun j => (hsrc (fun v i => laneOf v w i) (shufSource pat hl j)).trans (hc (fun v i => laneOf v w i) j)
    have hflg := fun j => (hsrc (fun v i => flagOf v w i) (shufSource pat hl j)).trans (hc (fun v i => flagOf v w i) j)
    convert hlanes using 1
    · exact (funext hval).symm
    · exact (funext hflg).symm
  · obtain ⟨t, e, hlanes, hrest⟩ := quiet_lanes (i := .vcompress g k et d a) (s := s) (d := d) (et := et) (on := fun _ => true)
      (flg := fun j => match sel[j]? with | some i => fa i | none => false) (guarded_on h 12 _)
      (fun j _ => by
        show Option.map LaneRes.flag (match sel[j]? with | some i => _ | none => _) = _
        cases sel[j]? <;> rfl)
      (fun j _ r hr => by
        change (match sel[j]? with | some i => some (copyLane et va i) | none => some { val := 0 }) = some r at hr
        cases hs : sel[j]? <;> rw [hs] at hr <;> cases hr <;> rfl)
      (fun hw j => by cases hs : sel[j]? <;> simp [fa, w, flagOf_of_width8 hw])
    refine ⟨t, e, fun j hj => (hlanes j hj).trans ?_, hrest⟩
    show (match (match sel[j]? with | some i => some (copyLane et va i) | none => some { val := 0 }) with
      | some r => _ | none => _) = _
    cases sel[j]? with
    | some i => exact laneOf_mod ..
    | none => exact Nat.zero_mod _

/-! ### Reductions (R167, R168) -/

theorem exec_vred (g : Guard) (k : KReg) (et : ElemTy) (op : RedOp) (w : WinSel) (d a : Reg) (s : State) :
    exec (.vred g k et op w d a) s = execVred g k et op w d a s := rfl
theorem exec_vdot (g : Guard) (k : KReg) (et : ElemTy) (w : WinSel) (d a b : Reg) (c : Option Reg) (s : State) :
    exec (.vdot g k et w d a b c) s = execVdot g k et w d a b c s := rfl

theorem lane0_data {w : Nat} (hw : w ≤ 256) (x : Nat) (flag : Bool) (r8 : BitVec 8) :
    (lane0 w x flag r8).toNat % 2 ^ 256 = x % 2 ^ w := by
  rw [lane0, vMake_data, BitVec.toNat_ofNat]
  exact Nat.mod_eq_of_lt (Nat.lt_of_lt_of_le (Nat.mod_lt _ (Nat.two_pow_pos w)) (Nat.pow_le_pow_right (by omega) hw))

theorem lane0_rider (w x : Nat) (flag : Bool) (r8 : BitVec 8) :
    vRider (lane0 w x flag r8) = if w = 8 then r8 else if flag = true then 1 else 0 := vRider_vMake ..

theorem ElemTy_width_le (et : ElemTy) : et.width ≤ 256 := by cases et <;> simp [ElemTy.width]

/-- The end of a reduction: lane 0 of V[d], its rider, `fps` and the pc; nothing else changes. -/
theorem finishRed_gives {i : Instr} {s : State} {d : Reg} {rt : ElemTy} {x : Nat} {flag : Bool} {r8 : BitVec 8} {fl : Flags}
    (he : exec i s = nextMe s (finishRed s.me d rt x flag r8 fl) 12) {v : Nat} {rider : BitVec 8}
    (hv : x % 2 ^ rt.width = v) (hr : (if rt.width = 8 then r8 else if flag = true then 1 else 0) = rider) :
    nextWith (exec i s) fun t =>
      (t.me.getV d).toNat % 2 ^ 256 = v ∧ vRider (t.me.getV d) = rider ∧ t.me.fps = s.me.fps ||| fpsBits fl ∧
        (∀ q, q ≠ d → t.me.getV q = s.me.getV q) ∧ t.me.s = s.me.s ∧ t.me.p = s.me.p ∧ t.me.k = s.me.k ∧
        t.me.pc = s.me.pc + 12 ∧ specialsKept s.me t.me ∧ onlyMe s t := by
  refine ⟨_, he, ?_⟩
  simp only [State.setMe_me, ThreadSet.past_getV, finishRed, ThreadSet.raise_getV, ThreadSet.getV_setV_self]
  exact ⟨(lane0_data (ElemTy_width_le rt) ..).trans hv, (lane0_rider ..).trans hr, rfl,
    fun _ hq => ThreadSet.getV_setV_ne _ hq _, rfl, rfl, rfl, rfl,
    ⟨rfl, rfl, rfl, rfl, rfl, rfl, rfl, rfl, rfl, rfl, rfl, rfl, rfl⟩, _, rfl⟩

theorem wideInt_width (et : ElemTy) : (wideInt et).width = 64 := by unfold wideInt; split <;> rfl
theorem wideFp_width_ne (et : ElemTy) : (wideFp et).width ≠ 8 := by unfold wideFp; split <;> decide

theorem ilane_wideInt (et : ElemTy) (v : VWord) :
    ilane (wideInt et) v 0 = intVal (if et.isSigned = true then .i64 else .u64) (laneOf v 64 0) := by
  unfold wideInt ilane; split <;> rfl

/-- A wrapped integer is below 2^w, so it is its own lane. -/
theorem wrapInt_mod (w : Nat) (i : Int) : wrapInt w i % 2 ^ w = (i % 2 ^ w).toNat := by
  refine Nat.mod_eq_of_lt ?_
  have h := Int.emod_lt_of_pos i (show (0 : Int) < 2 ^ w by positivity)
  have h0 := Int.emod_nonneg i (show (2 : Int) ^ w ≠ 0 by positivity)
  rw [wrapInt]
  zify
  rw [Int.toNat_of_nonneg h0]
  exact h

/-- A running sum over a list, from its sum. -/
theorem foldl_add_sum {α : Type} (f : α → Int) (l : List α) (z : Int) : l.foldl (fun acc j => acc + f j) z = z + (l.map f).sum := by
  induction l generalizing z with
  | nil => simp
  | cons a l ih => rw [List.foldl_cons, ih, List.map_cons, List.sum_cons, Int.add_assoc]

section reductions
variable {s : State} {g : Guard} (h : s.me.getP g.p ≠ g.pn)
include h

theorem vred_on (k : KReg) (et : ElemTy) (op : RedOp) (w : WinSel) (d a : Reg) :
    exec (.vred g k et op w d a) s = nextMe s (reduce s.me k et op w d a) 12 := (exec_vred ..).trans (guarded_on h 12 _)

theorem vdot_on (k : KReg) (et : ElemTy) (w : WinSel) (d a b : Reg) (c : Option Reg) :
    exec (.vdot g k et w d a b c) s = nextMe s (dot s.me k et w d a b c) 12 := (exec_vdot ..).trans (guarded_on h 12 _)

end reductions

/-- Reductions of integers, by operation (R167). -/
theorem reduce_int (t : ThreadSet) (k : KReg) {et : ElemTy} (hi : et.isInt = true) (w : WinSel) (d a : Reg) :
    let v := t.getV a
    let js := selected (t.getK k) et.lanes
    let flag := js.any fun j => flagOf v et.width j
    reduce t k et .add w d a = finishRed t d (wideInt et) (wrapInt 64 (js.foldl (fun acc j => acc + ilane et v j) 0)) flag (vRider v) {} ∧
    reduce t k et .min w d a =
      finishRed t d et (wrapInt et.width (js.foldl (fun acc j => min acc (ilane et v j)) (intMax et))) flag (vRider v) {} ∧
    reduce t k et .max w d a =
      finishRed t d et (wrapInt et.width (js.foldl (fun acc j => max acc (ilane et v j)) (intMin et))) flag (vRider v) {} :=
  ⟨if_pos hi, if_pos hi, if_pos hi⟩

/-- The step of a floating-point minimum or maximum. -/
abbrev extremeStep (et : ElemTy) (isMax : Bool) (v : VWord) (acc : Nat × Flags) (j : Nat) : Nat × Flags :=
  let r := (fmtOf et).minMax isMax acc.1 (laneOf v et.width j)
  (r.1, acc.2.or r.2)

/-- Reductions of floating-point lanes, by operation (R167). -/
theorem reduce_fp (t : ThreadSet) (k : KReg) {et : ElemTy} (hi : et.isInt = false) (w : WinSel) (d a : Reg) :
    let v := t.getV a
    let js := selected (t.getK k) et.lanes
    let flag := js.any fun j => flagOf v et.width j
    (let r := windowed (js.map fun j => (flane et v j, Flags.invalid (flane et v j).isSnan)) (windowOf t.fpc w) (wideFp et)
     reduce t k et .add w d a = finishRed t d (wideFp et) r.1 (flag || r.2.1) (vRider v) r.2.2) ∧
    (let r := js.foldl (extremeStep et false v) ((fmtOf et).infBits false, {})
     reduce t k et .min w d a = finishRed t d et r.1 flag (vRider v) r.2) ∧
    (let r := js.foldl (extremeStep et true v) ((fmtOf et).infBits true, {})
     reduce t k et .max w d a = finishRed t d et r.1 flag (vRider v) r.2) := by
  refine ⟨?_, ?_, ?_⟩ <;> simp only [reduce, hi] <;> rfl

theorem dot_int (t : ThreadSet) (k : KReg) {et : ElemTy} (hi : et.isInt = true) (w : WinSel) (d a b : Reg) (c : Option Reg) :
    let js := selected (t.getK k) et.lanes
    let flag := (match c with | some r => flagOf (t.getV r) (wideInt et).width 0 | none => false) ||
      js.any fun j => flagOf (t.getV a) et.width j || flagOf (t.getV b) et.width j
    let c0 : Int := match c with | some r => ilane (wideInt et) (t.getV r) 0 | none => 0
    dot t k et w d a b c = finishRed t d (wideInt et)
      (wrapInt 64 (js.foldl (fun acc j => acc + ilane et (t.getV a) j * ilane et (t.getV b) j) c0)) flag 0 {} := by
  cases c <;> simp only [dot, hi, if_true]

theorem dot_fp (t : ThreadSet) (k : KReg) {et : ElemTy} (hi : et.isInt = false) (w : WinSel) (d a b : Reg) (c : Option Reg) :
    let va := t.getV a
    let vb := t.getV b
    let rt := wideFp et
    let js := selected (t.getK k) et.lanes
    let flag := (match c with | some r => flagOf (t.getV r) rt.width 0 | none => false) ||
      js.any fun j => flagOf va et.width j || flagOf vb et.width j
    let prod (j : Nat) : FVal × Flags :=
      if et.isFp8 = true then scaledProduct (flane et va j) (flane et vb j) (vRider va).toNat (vRider vb).toNat
      else mulVal (flane et va j) (flane et vb j)
    let extra := match c with
      | some r => [(flane rt (t.getV r) 0, Flags.invalid (flane rt (t.getV r) 0).isSnan)]
      | none => []
    let r := windowed (js.map prod ++ extra) (windowOf t.fpc w) rt
    dot t k et w d a b c = finishRed t d rt r.1 (flag || r.2.1) 0 r.2.2 := by
  cases c <;> simp only [dot, hi] <;> rfl

theorem reductions : Claims.Reductions := by
  intro s g k et w d a b c h va vb js x y rt c0 f fx fy invalid prod addend fa fab bit gives
  have hbit {u : ElemTy} (hu : u.width ≠ 8) (r8 : BitVec 8) (p : Bool) :
      (if u.width = 8 then r8 else if p = true then 1 else 0) = bit p := if_neg hu
  have hint : (wideInt et).width ≠ 8 := by rw [wideInt_width]; decide
  have hwide (i : Int) : wrapInt 64 i % 2 ^ (wideInt et).width = (i % 2 ^ 64).toNat := by rw [wideInt_width, wrapInt_mod]
  have hrider : (if et.width = 8 then vRider va else if fa = true then 1 else 0) = if et.width = 8 then vRider va else bit fa := rfl
  refine ⟨fun hi => ⟨?_, ?_, ?_, ?_⟩, fun hi => ⟨?_, ?_, ?_⟩⟩
  · obtain ⟨hadd, -, -⟩ := reduce_int s.me k hi w d a
    refine finishRed_gives ((vred_on h ..).trans (congrArg (nextMe s · 12) hadd)) ((hwide _).trans ?_) (hbit hint _ _)
    rw [foldl_add_sum, Int.zero_add]; rfl
  · obtain ⟨-, hmin, -⟩ := reduce_int s.me k hi w d a
    refine finishRed_gives ((vred_on h ..).trans (congrArg (nextMe s · 12) hmin)) ((wrapInt_mod _ _).trans ?_) hrider
    rw [List.foldl_map]; rfl
  · obtain ⟨-, -, hmax⟩ := reduce_int s.me k hi w d a
    refine finishRed_gives ((vred_on h ..).trans (congrArg (nextMe s · 12) hmax)) ((wrapInt_mod _ _).trans ?_) hrider
    rw [List.foldl_map]; rfl
  · have hdot := dot_int s.me k hi w d a b c
    refine finishRed_gives ((vdot_on h ..).trans (congrArg (nextMe s · 12) hdot)) ((hwide _).trans ?_) ((hbit hint _ _).trans ?_)
    · rw [foldl_add_sum]
      cases c with
      | none => rfl
      | some r => exact congrArg (fun z : Int => ((z + (js.map fun j => x j * y j).sum) % 2 ^ 64).toNat) (ilane_wideInt et _)
    · rw [wideInt_width]
      cases c <;> rfl
  · obtain ⟨hadd, -, -⟩ := reduce_fp s.me k hi w d a
    exact finishRed_gives ((vred_on h ..).trans (congrArg (nextMe s · 12) hadd)) rfl (hbit (wideFp_width_ne et) _ _)
  · obtain ⟨-, hmin, hmax⟩ := reduce_fp s.me k hi w d a
    intro p hp
    rcases List.mem_pair.1 hp with rfl | rfl
    · exact finishRed_gives ((vred_on h ..).trans (congrArg (nextMe s · 12) hmin)) rfl hrider
    · exact finishRed_gives ((vred_on h ..).trans (congrArg (nextMe s · 12) hmax)) rfl hrider
  · have hdot := dot_fp s.me k hi w d a b c
    cases c <;>
      exact finishRed_gives ((vdot_on h ..).trans (congrArg (nextMe s · 12) hdot)) rfl (hbit (wideFp_width_ne et) _ _)

/-! ### Conversion, quantisation and the rider (R161 to R165) -/

theorem exec_vcvt (g : Guard) (k : KReg) (et : ElemTy) (rm : RoundField) (o : Fp8Ovr) (ctl : CvtCtl) (d a : Reg) (s : State) :
    exec (.vcvt g k et rm o ctl d a) s = execVcvt g k et rm o ctl d a s := rfl
theorem exec_vq8 (g : Guard) (k : KReg) (et : ElemTy) (rm : RoundField) (o : Fp8Ovr) (src : ElemTy) (d a : Reg) (s : State) :
    exec (.vq8 g k et rm o src d a) s = execVq8 g k et rm o src d a s := rfl
theorem exec_vdq8 (g : Guard) (k : KReg) (et : ElemTy) (rm : RoundField) (part : Fin 8) (src : ElemTy) (d a : Reg) (s : State) :
    exec (.vdq8 g k et rm part src d a) s = execVdq8 g k et rm part src d a s := rfl
theorem exec_vrdr (g : Guard) (d a : Reg) (s : State) : exec (.vrdr g d a) s = execVrdr g d a s := rfl
theorem exec_vwrr (g : Guard) (d a : Reg) (s : State) : exec (.vwrr g d a) s = execVwrr g d a s := rfl

/-- The lane that `vcvt` delivers: the conversion of the source lane that the map names, where it reaches an active lane. -/
def cvtLane (t : ThreadSet) (k : KReg) (et : ElemTy) (rm : RoundField) (o : Fp8Ovr) (ctl : CvtCtl) (v : VWord) (j : Nat) :
    Option LaneRes :=
  match cvtSource et ctl.src ctl.part.val j with
  | some i =>
    if active (t.getK k) j then
      let r := convertLane et ctl.src (roundMode t.fpc rm) (fp8Sat t.fpc o et) ctl.isat
        (if ctl.scaled then some (vRider v).toNat else none) (laneOf v ctl.src.width i)
      some { val := r.1, flag := flagOf v ctl.src.width i, fl := r.2 }
    else none
  | none => none

theorem vcvt_on {s : State} {g : Guard} (h : s.me.getP g.p ≠ g.pn) (k : KReg) (et : ElemTy) (rm : RoundField) (o : Fp8Ovr)
    (ctl : CvtCtl) (d a : Reg) : exec (.vcvt g k et rm o ctl d a) s =
      nextMe s (putLanes s.me d et.width 127 (laneList et (cvtLane s.me k et rm o ctl (s.me.getV a)))) 12 :=
  (exec_vcvt ..).trans (guarded_on h 12 _)

theorem ElemTy_width_of_isFp8 {et : ElemTy} (h : et.isFp8 = true) : et.width = 8 := by
  cases et <;> simp_all [ElemTy.isFp8, ElemTy.width]

/-- What `vq8` delivers in a lane: the source lane scaled by the exponent e, rounded to an 8-bit float. -/
def q8Lane (t : ThreadSet) (et : ElemTy) (rm : RoundField) (o : Fp8Ovr) (src : ElemTy) (a : Reg) (e j : Nat) : LaneRes :=
  let v := t.getV (a + Fin.ofNat 32 (j / src.lanes))
  let r := toFp et (roundMode t.fpc rm).1 (fp8Sat t.fpc o et) ((flane src v (j % src.lanes)).scale (127 - (e : Int)))
  { val := r.1, flag := flagOf v src.width (j % src.lanes), fl := ((roundMode t.fpc rm).2.or r.2).ofLane }

/-- The common exponent of the active lanes of `vq8` (R163). -/
def q8Exponent (t : ThreadSet) (k : KReg) (et src : ElemTy) (a : Reg) : Nat :=
  q8Scale et (q8Top ((List.range 32).map fun j =>
    (active (t.getK k) j, flane src (t.getV (a + Fin.ofNat 32 (j / src.lanes))) (j % src.lanes))))

theorem vq8_on {s : State} {g : Guard} (h : s.me.getP g.p ≠ g.pn) (k : KReg) {et : ElemTy} (he : et.isFp8 = true) (rm : RoundField)
    (o : Fp8Ovr) (src : ElemTy) (d a : Reg) :
    let e := q8Exponent s.me k et src a
    exec (.vq8 g k et rm o src d a) s =
      nextMe s (putLanes s.me d et.width (BitVec.ofNat 8 e) (maskedLanes s.me k et (q8Lane s.me et rm o src a e))) 12 := by
  have hl : et.lanes = 32 := by rw [ElemTy.lanes, ElemTy_width_of_isFp8 he]
  intro e
  rw [maskedLanes, hl, ElemTy_width_of_isFp8 he]
  exact (exec_vq8 ..).trans (guarded_on h 12 _)

/-- What `vdq8` delivers in a lane: the 8-bit source lane times its rider's power of two. -/
def dq8Lane (t : ThreadSet) (et : ElemTy) (rm : RoundField) (part : Fin 8) (src : ElemTy) (v : VWord) (j : Nat) : LaneRes :=
  let r := convertLane et src (roundMode t.fpc rm) false false (some (vRider v).toNat) (laneOf v 8 (part.val * et.lanes + j))
  { val := r.1, fl := r.2 }

theorem vdq8_on {s : State} {g : Guard} (h : s.me.getP g.p ≠ g.pn) (k : KReg) (et : ElemTy) (rm : RoundField) (part : Fin 8)
    (src : ElemTy) (d a : Reg) : exec (.vdq8 g k et rm part src d a) s =
      nextMe s (putLanes s.me d et.width (vRider (s.me.getV a))
        (maskedLanes s.me k et (dq8Lane s.me et rm part src (s.me.getV a)))) 12 :=
  (exec_vdq8 ..).trans (guarded_on h 12 _)

theorem convertedLanes : Claims.ConvertedLanes := by
  intro s g k et src rm o ctl part d a h m v on from' one lost
  refine ⟨?_, ?_, ?_, (exec_vrdr ..).trans (guarded_on h 12 _),
    (exec_vwrr ..).trans (guarded_on h 12 _)⟩
  · let f := cvtLane s.me k et rm o ctl v
    have hmap {β : Type} (p : LaneRes → β) (q : Nat → β)
        (hpq : ∀ i j, cvtSource et ctl.src ctl.part.val j = some i →
          p { val := (one j).1, flag := flagOf v ctl.src.width i, fl := (one j).2 } = q j) (j : Nat) :
        (f j).map p = if on j = true then some (q j) else none := by
      cases hc : cvtSource et ctl.src ctl.part.val j with
      | none => simp [f, cvtLane, on, hc]
      | some i =>
        by_cases ha : active (s.me.getK k) j = true
        · have := hpq i j hc
          simp only [one, from', hc, Option.getD_some] at this
          simp [f, cvtLane, on, hc, ha, ← this, m]
        · simp [f, cvtLane, on, hc, ha]
    have hflg := hmap LaneRes.flag (fun j => flagOf v ctl.src.width (from' j)) fun i j hc => by simp [from', hc]
    obtain ⟨hv, hs, -, -, hpc, -⟩ := putLanes_frame s.me d et.width 127 (laneList et f) 12
    refine ⟨_, vcvt_on h .., ?_⟩
    simp only [State.setMe_me]
    refine ⟨putLanes_rider s.me d et 127 (fun j _ => hflg j) 12, ?_, hs, fun j hj => ?_, hv, hpc, _, rfl⟩
    · exact putLanes_fps_flags s.me d et 127 (fun j _ => hmap LaneRes.fl (fun j => (one j).2) (fun _ _ _ => rfl) j) fun j _ => hflg j
    · refine (putLanes_lanes s.me d et 127 f hj).trans ?_
      cases hc : cvtSource et ctl.src ctl.part.val j with
      | none => simp [f, cvtLane, hc]
      | some i => by_cases ha : active (s.me.getK k) j = true <;> simp [f, cvtLane, hc, ha, m]
  · intro he _ x e r flg
    refine ⟨_, vq8_on h k he rm o src d a, lanesWritten_putLanes s d k et _ (fun _ _ => rfl) fun _ _ => rfl, ?_⟩
    rw [State.setMe_me]
    have hl : et.lanes = 32 := by rw [ElemTy.lanes, ElemTy_width_of_isFp8 he]
    refine (putLanes_fps_flags s.me d et _ (on := active (s.me.getK k)) (flg := flg)
      (fl := fun j => (m.2.or (r j).2).ofLane) (fun j _ => ?_) fun j _ => ?_).trans (by rw [hl])
    · by_cases ha : active (s.me.getK k) j = true
      · rw [if_pos ha, if_pos ha]; rfl
      · rw [if_neg ha, if_neg ha]; rfl
    · by_cases ha : active (s.me.getK k) j = true
      · rw [if_pos ha, if_pos ha]; rfl
      · rw [if_neg ha, if_neg ha]; rfl
  · intro _ r
    exact writesLanesFlags_masked (vdq8_on h ..) (fun _ _ => rfl) (fun _ _ => rfl) (fun _ _ => rfl)
      fun _ _ => rfl

end Sys2Proof.Machine

/-! SUPPORT. Accesses that are performed in one step, and the vector accesses that are made of them (R218 to R220). -/

namespace Sys2Proof.Machine

/-! ### Accesses that are performed whole -/

theorem NMap.set_set {α : Type} (m : NMap α) (k : Nat) (x y : α) : (m.set k x).set k y = m.set k y := by
  induction m with
  | nil => simp [NMap.set]
  | cons e r ih =>
    obtain ⟨j, z⟩ := e
    by_cases h1 : k < j
    · simp [NMap.set, h1]
    · by_cases h2 : j = k
      · simp [NMap.set, h2]
      · simp [NMap.set, h1, h2, ih]

@[simp] theorem State.setMe_setMe (s : State) (x y : ThreadSet) : (s.setMe x).setMe y = s.setMe y := by
  simp only [State.setMe, State.setTs, NMap.set_set]

theorem runNamed_ok {one : Ev → Op Nat} {es todo : List Ev} {got got' : NMap Nat} {s t : State}
    (h : runEvents one es got s = .ok (got', t)) : runNamed one es todo got s = .ok (got', t) := by
  rw [runNamed, h]

/-- A bind after an operation that completes. -/
theorem Op.bind_of_ok {α β : Type} {x : Op α} {f : α → Op β} {s t : State} {a : α} (h : x s = .ok (a, t)) :
    (x >>= f) s = f a t := by
  show (x s >>= fun r => f r.1 r.2) = _
  rw [h]; rfl

/-- An access that begins and ends in one step: its checks, its events in order, and its end (R294). -/
theorem accessOp_whole {i : Instr} {check : Op (List Ev)} {one : Ev → Op Nat} {fin : NMap Nat → State → State} {s s1 s2 : State}
    {es : List Ev} {got : NMap Nat} (hw : Claims.whole s) (hc : check s = .ok (es, s1))
    (hr : runEvents one es [] s1 = .ok (got, s2)) (hp : s2.me.part = none) :
    accessOp i check one fin s = .ok ((), fin got (s2.setMe s2.me)) := by
  obtain ⟨hpart, hsplit⟩ := hw
  have hme : ({ s2.me with part := none } : ThreadSet) = s2.me := by rw [← hp]
  unfold accessOp
  rw [Op.bind_of_ok (show Op.ask id s = .ok (s, s) from rfl)]
  simp only [hpart, hsplit]
  rw [Op.bind_of_ok hc, Op.bind_of_ok (show (pure _ : Op Part) s1 = .ok (_, s1) from rfl)]
  simp only [Bool.false_eq_true, if_false]
  rw [Op.bind_of_ok (runNamed_ok hr)]
  exact congrArg (fun x => Except.ok ((), fin got (s2.setMe x))) hme

/-- An operation that ends in a state without a part of an access left moves the pc past its instruction. -/
theorem runOp_ok {i : Instr} {len : Nat} {op : Op Unit} {s t : State} (h : op s = .ok ((), t)) (hp : t.me.part = none) :
    runOp i len op s = .next (t.advance len) := by
  rw [runOp, h]
  simp [hp]

/-- Writes of the running thread set's registers at the end of an instruction leave one write. -/
theorem advance_setMe_setMe (s : State) (x y : ThreadSet) (n : Nat) : ((s.setMe x).setMe y).advance n = s.setMe (y.past n) := by
  rw [State.setMe_setMe, State.advance, State.setMe_me, State.setMe_setMe]

/-! ### Gather, scatter, strided and broadcast access (R218 to R220) -/

theorem exec_vlds (g : Guard) (k : KReg) (et : ElemTy) (h : Hint) (d a b : Reg) (disp : Imm 13) (s : State) :
    exec (.vlds g k et h d a b disp) s = execVlds g k et h d a b disp s := rfl
theorem exec_vldx (g : Guard) (k : KReg) (et : ElemTy) (h : Hint) (sc : Bool) (d a b : Reg) (disp : Imm 13) (s : State) :
    exec (.vldx g k et h sc d a b disp) s = execVldx g k et h sc d a b disp s := rfl
theorem exec_vstx (g : Guard) (k : KReg) (et : ElemTy) (h : Hint) (sc : Bool) (d a b : Reg) (disp : Imm 13) (s : State) :
    exec (.vstx g k et h sc d a b disp) s = execVstx g k et h sc d a b disp s := rfl
theorem exec_vldb (g : Guard) (k : KReg) (et : ElemTy) (h : Hint) (d a : Reg) (disp : Imm 13) (s : State) :
    exec (.vldb g k et h d a disp) s = execVldb g k et h d a disp s := rfl

/-- The lanes that a load delivers: patterns without a lost flag, for the lanes that it has read. -/
abbrev loadedLanes (val : Nat → Option Nat) (j : Nat) : Option LaneRes := (val j).map fun x => { val := x }

/-- What a vector load leaves: the lanes that it has read, their lost flags cleared, the rider 127 of byte lanes; everything else
of the thread set stays, but for the pc. -/
theorem loadedLanes_end (u : State) (d : Reg) (et : ElemTy) (val : Nat → Option Nat) (len : Nat) :
    let t := u.setMe ((putLanes u.me d et.width 127 (laneList et (loadedLanes val))).past len)
    (∀ j, j < et.lanes → laneOf (t.me.getV d) et.width j =
      match val j with
      | some x => x % 2 ^ et.width
      | none => laneOf (u.me.getV d) et.width j) ∧
    Claims.riderWritten u.me t.me d et (fun j => (val j).isSome) (fun _ => false) 127 ∧
    (∀ q, q ≠ d → t.me.getV q = u.me.getV q) ∧ t.me.s = u.me.s ∧ t.me.p = u.me.p ∧ t.me.k = u.me.k ∧ t.me.fps = u.me.fps ∧
    t.me.pc = u.me.pc + BitVec.ofNat 64 len ∧ specialsKept u.me t.me ∧ onlyMe u t := by
  obtain ⟨hv, hs, hp, hk, hpc, hkept⟩ := putLanes_frame u.me d et.width 127 (laneList et (loadedLanes val)) len
  have hres {j : Nat} {r : LaneRes} (hr : loadedLanes val j = some r) : r.fl = {} ∧ r.flag = false := by
    obtain ⟨x, -, rfl⟩ := Option.map_eq_some_iff.1 hr
    exact ⟨rfl, rfl⟩
  simp only [State.setMe_me]
  refine ⟨fun j hj => ?_, putLanes_rider u.me d et 127 (fun j _ => ?_) len, hv, hs, hp, hk, ?_, hpc, hkept, _, rfl⟩
  · refine (putLanes_lanes u.me d et 127 _ hj).trans ?_
    cases hx : val j <;> simp [loadedLanes, hx]
  · cases hx : val j <;> simp [loadedLanes, hx]
  · exact putLanes_fps_quiet u.me d et 127 (fun j _ r hr => (hres hr).1) fun _ j _ r hr => (hres hr).2

section vectorMemory
variable {s s1 s2 : State} {i : Instr} {k : KReg} {et : ElemTy} {h : Hint} {d : Reg} {es : List Ev} {got : NMap Nat}

/-- A masked load that passes its checks and reads its events. -/
theorem runOp_vectorLoad {addr : Nat → Word} {len : Nat} (hw : Claims.whole s)
    (hc : laneAccesses (s.who s.cur) (loadKind h) et.bytes (activeAddrs s.me k et addr) s = .ok (es, s1))
    (hr : Claims.readsEvents (s.who s.cur) h es s1 got s2) :
    runOp i len (vectorLoad i k et h d addr s) s =
      .next (s2.setMe ((putLanes s2.me d et.width 127 (laneList et (loadedLanes got.get?))).past len)) := by
  obtain ⟨hread, hpart⟩ := hr
  have hop : vectorLoad i k et h d addr s s = .ok ((), _) := accessOp_whole (i := i)
    (fin := fun got u => u.setMe (putLanes u.me d et.width 127 (laneList et (loadedLanes got.get?)))) hw hc hread hpart
  rw [State.setMe_me] at hop
  rw [runOp_ok hop (by rw [State.setMe_me]; exact hpart), advance_setMe_setMe]

/-- A scatter that passes its checks and writes its events: LS where an active lane is flagged. -/
theorem runOp_vstx {as : List (Nat × Word)} {v : Ev → Nat} {f : BitVec 6} {len : Nat} (hw : Claims.whole s)
    (hc : laneAccesses (s.who s.cur) (storeKind h) et.bytes as s = .ok (es, s1))
    (hr : Claims.writesEvents (s.who s.cur) h es v s1 s2) :
    runOp i len (accessOp i (laneAccesses (s.who s.cur) (storeKind h) et.bytes as)
      (fun e => writeOne (s.who s.cur) h (v e / 2 ^ (8 * e.off)) e) fun _ u => u.setMe (u.me.raise f)) s =
      .next (s2.setMe ((s2.me.raise f).past len)) := by
  obtain ⟨got, hrun, hpart⟩ := hr
  have hop := accessOp_whole (i := i) (fin := fun _ u => u.setMe (u.me.raise f)) hw hc hrun hpart
  rw [State.setMe_me] at hop
  rw [runOp_ok hop (by rw [State.setMe_me]; exact hpart), advance_setMe_setMe]

/-- A load of one address, from the read of its bytes. -/
theorem loadOp_ok {addr : Word} {n v : Nat} {fin : Nat → State → State} (hw : Claims.whole s)
    (hr : memRead (s.who s.cur) h addr n s = .ok (v, s1)) (hp : s1.me.part = none) :
    loadOp i true h addr n fin s = .ok ((), fin v (s1.setMe s1.me)) := by
  obtain ⟨ps, u, hc, hread⟩ := Op.bind_ok hr
  obtain ⟨got, u', hev, hpure⟩ := Op.bind_ok hread
  cases hpure
  exact accessOp_whole hw (Op.bind_of_ok hc) hev hp

end vectorMemory

/-- Lanes under a mask, as lanes that a load delivers. -/
theorem maskedLanes_loaded (t : ThreadSet) (k : KReg) (et : ElemTy) (v : Nat) :
    maskedLanes t k et (fun _ => { val := v }) =
      laneList et (loadedLanes fun j => if active (t.getK k) j = true then some v else none) := by
  rw [maskedLanes_eq]
  refine List.map_congr_left fun j _ => ?_
  by_cases ha : active (t.getK k) j = true <;> simp [loadedLanes, ha]

/-- Settles O26: each form runs its checks and its events, and ends in a write of the lanes that were read. -/
theorem vectorMemory : Obligations.VectorMemory := by
  intro s s1 s2 g k et h sc d a b disp es got hg hw len w base strided index indexed addrs checks rest loaded rd
  have hlen : extLen disp = len := by cases disp <;> rfl
  have hbase : s.me.getS a + immVal disp = base := by cases disp <;> rfl
  have hindexed : indexedAddr s.me et sc a b disp = indexed := funext fun j => by rw [indexedAddr, hbase]; rfl
  refine ⟨fun hc hr => ?_, fun hc hr => ?_, fun hc hr => ?_, fun v hr hp hact => ?_, fun hact => ?_⟩
  · refine ⟨_, (exec_vlds ..).trans ((guarded_on hg ..).trans (runOp_vectorLoad hw ?_ hr)), ?_⟩
    · rw [hbase]; exact hc
    · rw [hlen]; exact loadedLanes_end s2 d et got.get? len
  · refine ⟨_, (exec_vldx ..).trans ((guarded_on hg ..).trans (runOp_vectorLoad hw ?_ hr)), ?_⟩
    · rw [hindexed]; exact hc
    · rw [hlen]; exact loadedLanes_end s2 d et got.get? len
  · have hany : ((activeAddrs s.me k et (indexedAddr s.me et sc a b disp)).any fun p => flagOf (s.me.getV d) et.width p.1) =
        (List.range et.lanes).any fun j => active (s.me.getK k) j && flagOf (s.me.getV d) et.width j := by
      rw [activeAddrs, List.any_map, List.any_filter]; rfl
    refine ⟨_, (exec_vstx ..).trans ((guarded_on hg ..).trans (runOp_vstx hw ?_ hr)), ?_⟩
    · rw [hindexed]; exact hc
    · rw [hlen, hany, fpsBits_only_ls]
      simp only [State.setMe_me]
      exact ⟨rfl, rfl, rfl, rfl, rfl, rfl, ⟨rfl, rfl, rfl, rfl, rfl, rfl, rfl, rfl, rfl, rfl, rfl, rfl, rfl⟩, _, rfl⟩
  · obtain ⟨j0, hj0, ha0⟩ := hact
    have hsel : execVldb.selected' s.me k et = true := List.any_eq_true.2 ⟨j0, List.mem_range.2 hj0, ha0⟩
    have hop := loadOp_ok (i := .vldb g k et h d a disp) (h := h)
      (fin := fun v u => u.setMe (putLanes u.me d et.width 127 (maskedLanes u.me k et fun _ => { val := v }))) hw hr hp
    rw [State.setMe_me, maskedLanes_loaded] at hop
    have hrun := runOp_ok (i := .vldb g k et h d a disp) (len := len) hop (by rw [State.setMe_me]; exact hp)
    rw [advance_setMe_setMe] at hrun
    refine ⟨_, (exec_vldb ..).trans ((guarded_on hg ..).trans
      (Eq.trans (by rw [hlen, if_pos hsel, hbase]) hrun)), ?_⟩
    · obtain ⟨hl, hr', hrest⟩ := loadedLanes_end s1 d et (fun j => if active (s1.me.getK k) j = true then some v else none) len
      refine ⟨fun j hj => (hl j hj).trans ?_, ?_, hrest⟩
      · by_cases ha : active (s1.me.getK k) j = true <;> simp [ha]
      · convert hr' using 1
        funext j
        cases active (s1.me.getK k) j <;> rfl
  · have hsel : execVldb.selected' s.me k et = false :=
      List.any_eq_false.2 fun j hj => by rw [hact j (List.mem_range.1 hj)]; decide
    have hnone : laneList et (loadedLanes fun j => if active (s.me.getK k) j = true then some 0 else none) =
        laneList et (loadedLanes fun _ => none) :=
      List.map_congr_left fun j hj => by simp [hact j (List.mem_range.1 hj)]
    have hop : Op.upd (fun u => u.setMe (putLanes u.me d et.width 127 (maskedLanes u.me k et fun _ => { val := 0 }))) s =
      .ok ((), s.setMe (putLanes s.me d et.width 127 (laneList et (loadedLanes fun _ => none)))) := by
      rw [← hnone, ← maskedLanes_loaded]; rfl
    have hrun := runOp_ok (i := .vldb g k et h d a disp) (len := len) hop (by rw [State.setMe_me]; exact hw.1)
    rw [State.advance, State.setMe_me, State.setMe_setMe] at hrun
    refine ⟨_, (exec_vldb ..).trans ((guarded_on hg ..).trans
      (Eq.trans (by rw [hlen, if_neg (by rw [hsel]; decide)]) hrun)), ?_⟩
    · exact loadedLanes_end s d et (fun _ => none) len

end Sys2Proof.Machine

/-! SUPPORT. Rounding: the number that `roundAt` and `roundFin` deliver, over the real numbers (R47, R48, R53), and one converted lane (R51 to R55, R162). -/

namespace Sys2Proof.Machine

/-! ### Rounding to a multiple of a power of two (R47) -/

/-- The sign of a value as a real factor. -/
def sgn (neg : Bool) : ℝ := if neg = true then -1 else 1

theorem sgn_mul_self (neg : Bool) : sgn neg * sgn neg = 1 := by cases neg <;> simp [sgn]
theorem abs_sgn (neg : Bool) : |sgn neg| = 1 := by cases neg <;> simp [sgn]

theorem ratOf_cast (neg : Bool) (m : Nat) (e : Int) : ((Claims.ratOf neg m e : ℚ) : ℝ) = sgn neg * (m * (2 : ℝ) ^ e) := by
  cases neg <;> simp [Claims.ratOf, sgn]

theorem two_zpow_pos (k : Int) : (0 : ℝ) < (2 : ℝ) ^ k := by positivity

/-- A power of two with an exponent that is not negative. -/
theorem two_pow_toNat {k : Int} (h : 0 ≤ k) : ((2 ^ k.toNat : Nat) : ℝ) = (2 : ℝ) ^ k := by
  rw [Nat.cast_pow, Nat.cast_ofNat, ← zpow_natCast, Int.toNat_of_nonneg h]

theorem two_zpow_sub_mul (a b : Int) : (2 : ℝ) ^ (a - b) * (2 : ℝ) ^ b = (2 : ℝ) ^ a := by
  rw [← zpow_add₀ (by norm_num), Int.sub_add_cancel]

/-- Which way a mode takes a number between the integers lo and lo + 1. -/
def roundsUp (mode : RMode) (neg : Bool) (x : ℝ) (lo : Nat) : Prop :=
  match mode with
  | .rne => 1 / 2 < x - lo ∨ (x - lo = 1 / 2 ∧ lo % 2 = 1)
  | .rna => 1 / 2 ≤ x - lo
  | .rtz => False
  | .rup => neg = false
  | .rdn => neg = true

/-- An integer n is the number x ≥ 0 rounded in a mode, of a value that has the sign `neg`; whether that is inexact. -/
def RoundedNat (mode : RMode) (neg : Bool) (x : ℝ) (r : Nat × Bool) : Prop :=
  (r.2 = false ∧ x = r.1) ∨
    (r.2 = true ∧ ∃ lo : Nat, lo < x ∧ x < lo + 1 ∧
      ((r.1 = lo + 1 ∧ roundsUp mode neg x lo) ∨ (r.1 = lo ∧ ¬roundsUp mode neg x lo)))

/-- `roundAt` rounds m · 2^(e − q) to an integer. -/
theorem roundAt_rounded (mode : RMode) (neg : Bool) (m : Nat) (e q : Int) :
    RoundedNat mode neg (m * (2 : ℝ) ^ (e - q)) (roundAt mode neg m e q) := by
  unfold roundAt
  split
  case isTrue h =>
    refine .inl ⟨rfl, ?_⟩
    rw [Nat.cast_mul, two_pow_toNat (show 0 ≤ e - q by omega)]
  case isFalse h =>
    obtain ⟨k, hk⟩ : ∃ k : Nat, q - e = k + 1 := ⟨(q - e).toNat - 1, by omega⟩
    have hkn : (q - e).toNat = k + 1 := by omega
    have hpos : (0 : ℝ) < (2 : ℝ) ^ (k + 1) := by positivity
    have hx : (m : ℝ) * (2 : ℝ) ^ (e - q) = m / (2 : ℝ) ^ (k + 1) := by
      rw [show e - q = -((k + 1 : Nat) : Int) by omega, zpow_neg, zpow_natCast]; rfl
    rw [hx, hkn]
    simp only [Nat.add_sub_cancel]
    set lo := m / 2 ^ (k + 1) with hlo
    set r := m % 2 ^ (k + 1) with hr
    have hm : (m : ℝ) = lo * (2 : ℝ) ^ (k + 1) + r := by
      rw [hlo, hr]; exact_mod_cast (Nat.div_add_mod' m (2 ^ (k + 1))).symm
    have hrlt : (r : ℝ) < (2 : ℝ) ^ (k + 1) := by exact_mod_cast Nat.mod_lt m (Nat.two_pow_pos (k + 1))
    have hfrac : (m : ℝ) / (2 : ℝ) ^ (k + 1) - lo = r / (2 : ℝ) ^ (k + 1) := by rw [hm]; field_simp; ring
    split
    case isTrue h0 =>
      refine .inl ⟨rfl, ?_⟩
      rw [hm, h0]; field_simp; simp
    case isFalse h0 =>
      have hr0 : (0 : ℝ) < r := by exact_mod_cast Nat.pos_of_ne_zero h0
      have hhalf : (1 / 2 : ℝ) = 2 ^ k / 2 ^ (k + 1) := by rw [pow_succ]; field_simp
      have hlt : (1 / 2 < (m : ℝ) / 2 ^ (k + 1) - lo) ↔ 2 ^ k < r := by
        rw [hfrac, hhalf, div_lt_div_iff_of_pos_right hpos]; exact_mod_cast Iff.rfl
      have hle : (1 / 2 ≤ (m : ℝ) / 2 ^ (k + 1) - lo) ↔ 2 ^ k ≤ r := by
        rw [hfrac, hhalf, div_le_div_iff_of_pos_right hpos]; exact_mod_cast Iff.rfl
      have heq : ((m : ℝ) / 2 ^ (k + 1) - lo = 1 / 2) ↔ 2 ^ k = r := by
        rw [hfrac, hhalf, div_left_inj' hpos.ne', eq_comm]; exact_mod_cast Iff.rfl
      refine .inr ⟨rfl, lo, ?_, ?_, ?_⟩
      · have : 0 < (r : ℝ) / 2 ^ (k + 1) := div_pos hr0 hpos
        linarith
      · have : (r : ℝ) / 2 ^ (k + 1) < 1 := (div_lt_one hpos).2 hrlt
        linarith
      · cases mode <;> simp only [roundsUp, hlt, hle, heq]
        case rne => by_cases hc : 2 ^ k < r ∨ (2 ^ k = r ∧ lo % 2 = 1) <;> simp [hc]
        case rtz => simp
        case rup => cases neg <;> simp
        case rdn => cases neg <;> simp
        case rna => by_cases hc : 2 ^ k ≤ r <;> simp [hc]

/-- A rounded number against any other candidate w that is an integer, or lies below an integer that x reaches (R47). -/
def RoundedBest (mode : RMode) (neg : Bool) (x : ℝ) (n : Nat) (w : ℝ) : Prop :=
  match mode with
  | .rne => |x - n| ≤ |x - w| ∧ (|x - n| = |x - w| → w = n ∨ n % 2 = 0)
  | .rna => |x - n| ≤ |x - w| ∧ (|x - n| = |x - w| → |w| ≤ n)
  | .rtz => n ≤ x ∧ (|w| ≤ x → |x - n| ≤ |x - w|)
  | .rup => if neg = true then n ≤ x ∧ (w ≤ x → w ≤ n) else x ≤ n ∧ (x ≤ w → n ≤ w)
  | .rdn => if neg = true then x ≤ n ∧ (x ≤ w → n ≤ w) else n ≤ x ∧ (w ≤ x → w ≤ n)

theorem RoundedBest.of_exact (mode : RMode) (neg : Bool) (n : Nat) (w : ℝ) : RoundedBest mode neg n n w := by
  have h0 : |(n : ℝ) - n| = 0 := by simp
  cases mode <;> simp only [RoundedBest, h0]
  case rne => exact ⟨abs_nonneg _, fun h => .inl (by have := abs_eq_zero.1 h.symm; linarith)⟩
  case rna =>
    refine ⟨abs_nonneg _, fun h => ?_⟩
    have hw : w = n := by have := abs_eq_zero.1 h.symm; linarith
    rw [hw, Nat.abs_cast]
  case rtz => exact ⟨le_rfl, fun _ => abs_nonneg _⟩
  case rup => split <;> exact ⟨le_rfl, id⟩
  case rdn => split <;> exact ⟨le_rfl, id⟩

/-- Between two integers, a candidate lies on one side or the other. -/
theorem candidate_side {x w : ℝ} {lo : Nat} (hx : x < lo + 1)
    (hw : (∃ t : ℤ, w = t) ∨ ∃ g : Nat, (g : ℝ) ≤ x ∧ |w| < g) : (w ≤ lo ∧ -x ≤ w → |w| ≤ lo) ∧ (w ≤ lo ∨ (lo : ℝ) + 1 ≤ w) := by
  rcases hw with ⟨t, rfl⟩ | ⟨g, hg, hwg⟩
  · have hside : (t : ℝ) ≤ lo ∨ (lo : ℝ) + 1 ≤ t := by
      rcases lt_or_ge t (lo + 1 : ℤ) with h | h
      · left; exact_mod_cast (by omega : t ≤ (lo : ℤ))
      · right; exact_mod_cast h
    refine ⟨fun ⟨h1, h2⟩ => abs_le.2 ⟨?_, h1⟩, hside⟩
    have : (-(lo : ℤ) - 1 : ℤ) < t := by exact_mod_cast (by push_cast; linarith : ((-(lo : ℤ) - 1 : ℤ) : ℝ) < t)
    exact_mod_cast (by omega : -(lo : ℤ) ≤ t)
  · have hglo : (g : ℝ) ≤ lo := by
      have : (g : ℝ) < (lo : ℝ) + 1 := by linarith
      exact_mod_cast Nat.lt_succ_iff.1 (by exact_mod_cast this)
    exact ⟨fun _ => by linarith, .inl (by have := le_abs_self w; linarith)⟩

theorem RoundedNat.best {mode : RMode} {neg : Bool} {x : ℝ} {r : Nat × Bool} (h : RoundedNat mode neg x r) {w : ℝ}
    (hw : (∃ t : ℤ, w = t) ∨ ∃ g : Nat, (g : ℝ) ≤ x ∧ |w| < g) : RoundedBest mode neg x r.1 w := by
  obtain ⟨n, b⟩ := r
  rcases h with ⟨-, hx⟩ | ⟨-, lo, hlo, hlo', h⟩
  · dsimp only at hx ⊢; rw [hx]; exact .of_exact ..
  obtain ⟨habs, hside⟩ := candidate_side hlo' hw
  have hup (h : (lo : ℝ) + 1 ≤ w) : |x - w| = w - x := by rw [abs_sub_comm, abs_of_nonneg (by linarith)]
  have hdn (h : w ≤ lo) : |x - w| = x - w := abs_of_nonneg (by linarith)
  rcases h with ⟨rfl, hr⟩ | ⟨rfl, hr⟩
  · have hn : |x - ((lo + 1 : Nat) : ℝ)| = lo + 1 - x := by
      push_cast; rw [abs_sub_comm, abs_of_nonneg (by linarith)]
    cases mode <;> simp only [roundsUp] at hr <;> simp only [RoundedBest, hn]
    case rne =>
      have hge : 1 / 2 ≤ x - lo := by rcases hr with h | h <;> [exact h.le; exact h.1.ge]
      rcases hside with h | h
      · rw [hdn h]
        refine ⟨by linarith, fun he => .inr ?_⟩
        rcases hr with h' | h' <;> [linarith; omega]
      · rw [hup h]
        exact ⟨by linarith, fun he => .inl (by push_cast; linarith)⟩
    case rna =>
      rcases hside with h | h
      · rw [hdn h]
        exact ⟨by linarith, fun he => by have := habs ⟨h, by linarith [Nat.cast_nonneg (α := ℝ) lo]⟩; push_cast; linarith⟩
      · rw [hup h]
        refine ⟨by linarith, fun he => ?_⟩
        rw [abs_of_nonneg (by linarith [Nat.cast_nonneg (α := ℝ) lo])]; push_cast; linarith
    case rup =>
      rw [if_neg (by simp [hr])]
      push_cast
      exact ⟨hlo'.le, fun h => by rcases hside with h' | h' <;> linarith⟩
    case rdn =>
      rw [if_pos hr]
      push_cast
      exact ⟨hlo'.le, fun h => by rcases hside with h' | h' <;> linarith⟩
  · have hn : |x - (n : ℝ)| = x - n := abs_of_nonneg (by linarith)
    cases mode <;> simp only [roundsUp] at hr <;> simp only [RoundedBest, hn]
    case rne =>
      rw [not_or, not_lt] at hr
      rcases hside with h | h
      · rw [hdn h]
        exact ⟨by linarith, fun he => .inl (by linarith)⟩
      · rw [hup h]
        refine ⟨by linarith, fun he => .inr ?_⟩
        have : x - n = 1 / 2 := by linarith
        have := hr.2; simp only [not_and] at this
        have := this ‹_›; omega
    case rna =>
      rw [not_le] at hr
      rcases hside with h | h
      · rw [hdn h]
        exact ⟨by linarith, fun he => habs ⟨h, by linarith [Nat.cast_nonneg (α := ℝ) n]⟩⟩
      · rw [hup h]
        exact ⟨by linarith, fun he => by linarith⟩
    case rtz =>
      refine ⟨hlo.le, fun h => ?_⟩
      rcases hside with h' | h'
      · rw [hdn h']; linarith
      · have := le_abs_self w; linarith
    case rup =>
      rw [if_pos (by simpa using hr)]
      exact ⟨hlo.le, fun h => by rcases hside with h' | h' <;> linarith⟩
    case rdn =>
      rw [if_neg hr]
      exact ⟨hlo.le, fun h => by rcases hside with h' | h' <;> linarith⟩

/-- A rounding to an integer, in units of u and with its sign, is one to any set of numbers that holds of the result and else of
nothing nearer: multiples of the unit, or numbers below a multiple that x reaches. -/
theorem RoundedNat.roundsTo {mode : RMode} {neg : Bool} {x u : ℝ} {r : Nat × Bool} (h : RoundedNat mode neg x r) (hu : 0 < u)
    {rep even : ℝ → Prop} (hrep : rep (sgn neg * (r.1 * u)))
    (hall : ∀ z, rep z → (∃ t : ℤ, z = t * u) ∨ ∃ g : Nat, (g : ℝ) ≤ x ∧ |z| < g * u)
    (heven : r.1 % 2 = 0 → even (sgn neg * (r.1 * u))) :
    Claims.roundsTo mode rep even (sgn neg * (x * u)) (sgn neg * (r.1 * u)) := by
  -- a candidate in units of u, with the sign taken off
  have hbest (z : ℝ) (hz : rep z) : RoundedBest mode neg x r.1 (sgn neg * z / u) := by
    refine h.best ?_
    rcases hall z hz with ⟨t, rfl⟩ | ⟨g, hg, hzg⟩
    · left
      refine ⟨(if neg = true then -1 else 1) * t, ?_⟩
      cases neg <;> simp [sgn] <;> field_simp
    · right
      refine ⟨g, hg, ?_⟩
      rw [abs_div, abs_mul, abs_sgn, one_mul, abs_of_pos hu, div_lt_iff₀ hu]
      exact hzg
  have hback (z : ℝ) : z = sgn neg * ((sgn neg * z / u) * u) := by
    rw [div_mul_cancel₀ _ hu.ne', ← mul_assoc, sgn_mul_self, one_mul]
  have hdist (a b : ℝ) : |sgn neg * (a * u) - sgn neg * (b * u)| = |a - b| * u := by
    rw [← mul_sub, ← sub_mul, abs_mul, abs_sgn, one_mul, abs_mul, abs_of_pos hu]
  have habs (a : ℝ) : |sgn neg * (a * u)| = |a| * u := by rw [abs_mul, abs_sgn, one_mul, abs_mul, abs_of_pos hu]
  refine ⟨hrep, ?_⟩
  cases mode
  case rne =>
    intro z hz
    obtain ⟨h1, h2⟩ := hbest z hz
    rw [hback z, hdist, hdist]
    refine ⟨mul_le_mul_of_nonneg_right h1 hu.le, fun he => ?_⟩
    rcases h2 (mul_right_cancel₀ hu.ne' he) with h3 | h3
    · left; rw [h3]
    · right; exact heven h3
  case rna =>
    intro z hz
    obtain ⟨h1, h2⟩ := hbest z hz
    rw [hback z, hdist, hdist, habs, habs, Nat.abs_cast]
    exact ⟨mul_le_mul_of_nonneg_right h1 hu.le, fun he =>
      mul_le_mul_of_nonneg_right (h2 (mul_right_cancel₀ hu.ne' he)) hu.le⟩
  case rtz =>
    obtain ⟨h0, -⟩ := hbest _ hrep
    have hx : |x| = x := abs_of_nonneg (le_trans (Nat.cast_nonneg _) h0)
    refine ⟨?_, fun z hz hzx => ?_⟩
    · rw [habs, habs, Nat.abs_cast, hx]; exact mul_le_mul_of_nonneg_right h0 hu.le
    · obtain ⟨-, h2⟩ := hbest z hz
      rw [hback z, habs, habs, hx] at hzx
      rw [hback z, hdist, hdist]
      exact mul_le_mul_of_nonneg_right (h2 (le_of_mul_le_mul_right hzx hu)) hu.le
  case rup =>
    have h0 := hbest _ hrep
    cases neg <;> simp only [RoundedBest, sgn, if_true, Bool.false_eq_true, if_false, one_mul, neg_one_mul] at h0 hbest ⊢
    · refine ⟨mul_le_mul_of_nonneg_right h0.1 hu.le, fun z hz hxz => ?_⟩
      have := (hbest z hz).2 ((le_div_iff₀ hu).2 hxz)
      exact (le_div_iff₀ hu).1 this
    · refine ⟨neg_le_neg (mul_le_mul_of_nonneg_right h0.1 hu.le), fun z hz hxz => ?_⟩
      have := (hbest z hz).2 ((div_le_iff₀ hu).2 (by linarith))
      have := (div_le_iff₀ hu).1 this
      linarith
  case rdn =>
    have h0 := hbest _ hrep
    cases neg <;> simp only [RoundedBest, sgn, if_true, Bool.false_eq_true, if_false, one_mul, neg_one_mul] at h0 hbest ⊢
    · refine ⟨mul_le_mul_of_nonneg_right h0.1 hu.le, fun z hz hxz => ?_⟩
      have := (hbest z hz).2 ((div_le_iff₀ hu).2 hxz)
      exact (div_le_iff₀ hu).1 this
    · refine ⟨neg_le_neg (mul_le_mul_of_nonneg_right h0.1 hu.le), fun z hz hxz => ?_⟩
      have := (hbest z hz).2 ((le_div_iff₀ hu).2 (by linarith))
      have := (le_div_iff₀ hu).1 this
      linarith

/-! ### The values of a format (R41, R42) -/

/-- What holds of every format of the machine: at least two fraction and two exponent bits, and four exponent bits for E4M3 alone. -/
structure Fmt.Proper (f : Fmt) : Prop where
  mbits : 2 ≤ f.mbits
  ebits : 2 ≤ f.ebits
  e4m3 : f.ebits = 4 → f.mbits = 3

theorem fmtOf_proper (et : ElemTy) : (fmtOf et).Proper := by
  cases et <;> exact ⟨by decide, by decide, by decide⟩

/-- The value of a pattern without its sign, were the exponent field unbounded. -/
noncomputable def Fmt.magVal (f : Fmt) (c : Nat) : ℝ :=
  if c < 2 ^ f.mbits then c * (2 : ℝ) ^ f.qmin
  else (c % 2 ^ f.mbits + 2 ^ f.mbits : Nat) * (2 : ℝ) ^ (f.qmin + (c / 2 ^ f.mbits : Nat) - 1)

/-- A significand n of full precision at exponent d above the least: the form that `encodeMag` packs. -/
theorem Fmt.magVal_block (f : Fmt) (d : Nat) {n : Nat} (h1 : 2 ^ f.mbits ≤ n) (h2 : n ≤ 2 ^ (f.mbits + 1)) :
    f.magVal (d * 2 ^ f.mbits + n) = n * (2 : ℝ) ^ (f.qmin + d) := by
  have hp := Nat.two_pow_pos f.mbits
  rw [pow_succ] at h2
  rw [Fmt.magVal, if_neg (by have := Nat.le_add_left n (d * 2 ^ f.mbits); omega)]
  rcases Nat.lt_or_eq_of_le h2 with h | rfl
  · obtain ⟨r, rfl⟩ : ∃ r, n = 2 ^ f.mbits + r := ⟨n - 2 ^ f.mbits, by omega⟩
    have hr : r < 2 ^ f.mbits := by omega
    rw [show d * 2 ^ f.mbits + (2 ^ f.mbits + r) = r + 2 ^ f.mbits * (d + 1) by ring, Nat.add_mul_mod_self_left,
      Nat.mod_eq_of_lt hr, Nat.add_mul_div_left _ _ hp, Nat.div_eq_of_lt hr, Nat.zero_add, Nat.add_comm r]
    congr 2; push_cast; ring
  · rw [show d * 2 ^ f.mbits + 2 ^ f.mbits * 2 = 0 + 2 ^ f.mbits * (d + 2) by ring, Nat.add_mul_mod_self_left,
      Nat.zero_mod, Nat.add_mul_div_left _ _ hp, Nat.zero_div, Nat.zero_add, Nat.zero_add,
      show f.qmin + ((d + 2 : Nat) : Int) - 1 = f.qmin + d + 1 by push_cast; ring, zpow_add_one₀ (by norm_num)]
    push_cast; ring

/-- A pattern of a normal number, as a significand and an exponent. -/
theorem Fmt.normal_block (f : Fmt) {c : Nat} (h : 2 ^ f.mbits ≤ c) :
    ∃ d n, 2 ^ f.mbits ≤ n ∧ n < 2 ^ (f.mbits + 1) ∧ c = d * 2 ^ f.mbits + n := by
  have hp := Nat.two_pow_pos f.mbits
  have hq : 1 ≤ c / 2 ^ f.mbits := (Nat.one_le_div_iff hp).2 h
  have hc := Nat.div_add_mod' c (2 ^ f.mbits)
  have hm := Nat.mod_lt c hp
  refine ⟨c / 2 ^ f.mbits - 1, 2 ^ f.mbits + c % 2 ^ f.mbits, by omega, by rw [pow_succ]; omega, ?_⟩
  obtain ⟨q, hq'⟩ : ∃ q, c / 2 ^ f.mbits = q + 1 := ⟨c / 2 ^ f.mbits - 1, by omega⟩
  rw [hq'] at hc ⊢
  rw [Nat.add_mul] at hc
  rw [Nat.add_sub_cancel]; omega

theorem Fmt.magVal_strictMono (f : Fmt) : StrictMono f.magVal := by
  refine strictMono_nat_of_lt_succ fun c => ?_
  have hp := Nat.two_pow_pos f.mbits
  rcases Nat.lt_or_ge c (2 ^ f.mbits) with h | h
  · have hc : f.magVal (c + 1) = (c + 1 : Nat) * (2 : ℝ) ^ f.qmin := by
      rcases Nat.lt_or_eq_of_le (Nat.succ_le_of_lt h) with h' | h'
      · rw [Fmt.magVal, if_pos h']
      · have := f.magVal_block 0 (n := c + 1) h'.ge (by rw [pow_succ]; omega)
        simpa using this
    rw [hc, Fmt.magVal, if_pos h]
    exact mul_lt_mul_of_pos_right (by push_cast; linarith) (two_zpow_pos _)
  · obtain ⟨d, n, h1, h2, rfl⟩ := f.normal_block h
    rw [f.magVal_block d h1 h2.le, Nat.add_assoc, f.magVal_block d (by omega) h2]
    exact mul_lt_mul_of_pos_right (by push_cast; linarith) (two_zpow_pos _)

theorem Fmt.magVal_nonneg (f : Fmt) (c : Nat) : 0 ≤ f.magVal c := by
  unfold Fmt.magVal; split <;> positivity

/-- The bits of a pattern without its sign. -/
abbrev Fmt.mag (f : Fmt) (x : Nat) : Nat := x % 2 ^ (f.ebits + f.mbits)

theorem Fmt.mag_fields (f : Fmt) (x : Nat) :
    (x >>> f.mbits) % 2 ^ f.ebits = f.mag x / 2 ^ f.mbits ∧ x % 2 ^ f.mbits = f.mag x % 2 ^ f.mbits := by
  rw [Fmt.mag, Nat.add_comm f.ebits, Nat.pow_add, Nat.shiftRight_eq_div_pow]
  exact ⟨(Nat.mod_mul_right_div_self ..).symm, (Nat.mod_mul_right_mod ..).symm⟩

/-- A pattern is finite when its bits without the sign are at most those of the largest finite value. -/
theorem Fmt.Proper.special_iff {f : Fmt} (hf : f.Proper) (x : Nat) :
    ((x >>> f.mbits) % 2 ^ f.ebits = 2 ^ f.ebits - 1 && (if f.isE4M3 then x % 2 ^ f.mbits = 7 else true)) = true ↔
      f.maxBits < f.mag x := by
  obtain ⟨hex, hfr⟩ := f.mag_fields x
  rw [hex, hfr]
  have hlt : f.mag x < 2 ^ (f.ebits + f.mbits) := Nat.mod_lt _ (Nat.two_pow_pos _)
  generalize f.mag x = c at *
  by_cases he : f.ebits = 4
  · have hm := hf.e4m3 he
    rw [he, hm] at hlt ⊢
    simp only [Fmt.isE4M3, he, Fmt.maxBits, hm, beq_self_eq_true, if_true, Bool.and_eq_true, decide_eq_true_eq]
    omega
  · have hp := Nat.two_pow_pos f.mbits
    have hpe := Nat.two_pow_pos f.ebits
    have hE : f.isE4M3 = false := by simpa [Fmt.isE4M3] using he
    simp only [hE, Fmt.maxBits, Bool.false_eq_true, if_false, Bool.and_true, decide_eq_true_eq]
    rw [Nat.pow_add] at hlt
    have hq : c / 2 ^ f.mbits < 2 ^ f.ebits := Nat.div_lt_of_lt_mul (by rwa [Nat.mul_comm] at hlt)
    have hle : (2 ^ f.ebits - 1 ≤ c / 2 ^ f.mbits) ↔ (2 ^ f.ebits - 1) * 2 ^ f.mbits ≤ c := Nat.le_div_iff_mul_le hp
    have h1 : 0 < (2 ^ f.ebits - 1) * 2 ^ f.mbits :=
      Nat.mul_pos (by have := Nat.one_lt_two_pow (n := f.ebits) (by have := hf.ebits; omega); omega) hp
    omega

/-- The finite values (R41). -/
theorem Fmt.Proper.decode_fin {f : Fmt} (hf : f.Proper) (x : Nat) (h : f.mag x ≤ f.maxBits) :
    ∃ m e, f.decode x = .fin (x.testBit (f.ebits + f.mbits)) m e ∧ m * (2 : ℝ) ^ e = f.magVal (f.mag x) := by
  obtain ⟨hex, hfr⟩ := f.mag_fields x
  have hns := mt (hf.special_iff x).1 (Nat.not_lt.2 h)
  have hp := Nat.two_pow_pos f.mbits
  unfold Fmt.decode
  simp only []
  rw [if_neg hns, hex, hfr]
  by_cases h0 : f.mag x < 2 ^ f.mbits
  · rw [if_pos (Nat.div_eq_of_lt h0)]
    refine ⟨_, _, rfl, ?_⟩
    rw [Fmt.magVal, if_pos h0, Nat.mod_eq_of_lt h0]
  · rw [if_neg (by rw [Nat.div_eq_zero_iff]; omega)]
    refine ⟨_, _, rfl, ?_⟩
    rw [Fmt.magVal, if_neg h0]

theorem Fmt.Proper.of_decode_fin {f : Fmt} (hf : f.Proper) {x m : Nat} {n : Bool} {e : Int} (h : f.decode x = .fin n m e) :
    n = x.testBit (f.ebits + f.mbits) ∧ f.mag x ≤ f.maxBits ∧ m * (2 : ℝ) ^ e = f.magVal (f.mag x) := by
  have hmag : f.mag x ≤ f.maxBits := by
    by_contra hc
    have hs := (hf.special_iff x).2 (Nat.lt_of_not_le hc)
    unfold Fmt.decode at h
    simp only [] at h
    rw [if_pos hs] at h
    split at h
    · cases h
    · split at h <;> cases h
  obtain ⟨m', e', h', hv⟩ := hf.decode_fin x hmag
  rw [h] at h'
  cases h'
  exact ⟨rfl, hmag, hv⟩

/-- A pattern of a sign and bits below the sign. -/
theorem Fmt.signBits_add (f : Fmt) (neg : Bool) {c : Nat} (h : c < 2 ^ (f.ebits + f.mbits)) :
    f.mag (f.signBits neg + c) = c ∧ (f.signBits neg + c).testBit (f.ebits + f.mbits) = neg := by
  cases neg
  · rw [show f.signBits false = 0 from rfl, Nat.zero_add]
    exact ⟨Nat.mod_eq_of_lt h, Nat.testBit_lt_two_pow h⟩
  · rw [show f.signBits true = 2 ^ (f.ebits + f.mbits) from rfl]
    refine ⟨by rw [Fmt.mag, Nat.add_mod_left, Nat.mod_eq_of_lt h], ?_⟩
    rw [Nat.testBit_two_pow_add_eq, Nat.testBit_lt_two_pow h]; rfl

theorem Fmt.Proper.maxBits_lt {f : Fmt} (hf : f.Proper) : f.maxBits < 2 ^ (f.ebits + f.mbits) := by
  unfold Fmt.maxBits
  split
  case isTrue h =>
    have he : f.ebits = 4 := by simpa [Fmt.isE4M3] using h
    rw [he, hf.e4m3 he]; decide
  case isFalse =>
    have := Nat.two_pow_pos f.mbits
    have := Nat.two_pow_pos f.ebits
    rw [Nat.pow_add]
    calc (2 ^ f.ebits - 1) * 2 ^ f.mbits - 1 ≤ (2 ^ f.ebits - 1) * 2 ^ f.mbits := Nat.sub_le _ _
      _ < 2 ^ f.ebits * 2 ^ f.mbits := Nat.mul_lt_mul_of_pos_right (by omega) ‹_›

/-- The pattern of a sign and finite bits. -/
theorem Fmt.Proper.decode_signBits {f : Fmt} (hf : f.Proper) (neg : Bool) {c : Nat} (h : c ≤ f.maxBits) :
    ∃ m e, f.decode (f.signBits neg + c) = .fin neg m e ∧ m * (2 : ℝ) ^ e = f.magVal c := by
  obtain ⟨hm, ht⟩ := f.signBits_add neg (Nat.lt_of_le_of_lt h hf.maxBits_lt)
  obtain ⟨m, e, hd, hv⟩ := hf.decode_fin (f.signBits neg + c) (by rw [hm]; exact h)
  rw [ht] at hd
  rw [hm] at hv
  exact ⟨m, e, hd, hv⟩

theorem Fmt.Proper.valueIn_iff {f : Fmt} (hf : f.Proper) (y : ℝ) :
    Claims.valueIn f y ↔ ∃ neg c, c ≤ f.maxBits ∧ y = sgn neg * f.magVal c := by
  constructor
  · rintro ⟨x, n, m, e, hd, rfl⟩
    obtain ⟨-, hmag, hv⟩ := hf.of_decode_fin hd
    exact ⟨n, _, hmag, by rw [ratOf_cast, hv]⟩
  · rintro ⟨neg, c, hc, rfl⟩
    obtain ⟨m, e, hd, hv⟩ := hf.decode_signBits neg hc
    exact ⟨_, neg, m, e, hd, by rw [ratOf_cast, hv]⟩

theorem Fmt.Proper.evenIn_of_even {f : Fmt} (hf : f.Proper) (neg : Bool) {c : Nat} (hc : c ≤ f.maxBits) (h2 : c % 2 = 0) :
    Claims.evenIn f (sgn neg * f.magVal c) := by
  obtain ⟨m, e, hd, hv⟩ := hf.decode_signBits neg hc
  refine ⟨_, neg, m, e, hd, by rw [ratOf_cast, hv], ?_⟩
  have hs : f.signBits neg % 2 = 0 := by
    cases neg
    · rfl
    · have := hf.mbits
      exact Nat.mod_eq_zero_of_dvd (dvd_pow_self 2 (by omega))
  rw [Nat.testBit_zero]
  simp; omega

/-- No finite value is larger than the largest. -/
theorem Fmt.Proper.abs_le_max {f : Fmt} (hf : f.Proper) {y : ℝ} (h : Claims.valueIn f y) : |y| ≤ f.magVal f.maxBits := by
  obtain ⟨neg, c, hc, rfl⟩ := (hf.valueIn_iff y).1 h
  rw [abs_mul, abs_sgn, one_mul, abs_of_nonneg (f.magVal_nonneg c)]
  exact f.magVal_strictMono.monotone hc

theorem Fmt.Proper.largest_maxBits {f : Fmt} (hf : f.Proper) (neg : Bool) :
    Claims.largest f neg (f.signBits neg + f.maxBits) := by
  obtain ⟨m, e, hd, hv⟩ := hf.decode_signBits neg le_rfl
  refine ⟨m, e, hd, fun y hy => ?_⟩
  rw [ratOf_cast, hv, abs_mul, abs_sgn, one_mul, abs_of_nonneg (f.magVal_nonneg _)]
  exact hf.abs_le_max hy

theorem sgn_mul_nat (neg : Bool) (n : Nat) (k : Int) :
    sgn neg * (n * (2 : ℝ) ^ k) = (((if neg = true then -1 else 1) * n : ℤ) : ℝ) * (2 : ℝ) ^ k := by
  cases neg <;> simp [sgn]

theorem abs_sign_mul (neg : Bool) (n : Nat) : |((if neg = true then -1 else 1) * n : ℤ)| = n := by cases neg <;> simp

/-- A finite value has the format's precision. -/
theorem Fmt.Proper.valueWide_of_valueIn {f : Fmt} (hf : f.Proper) {y : ℝ} (h : Claims.valueIn f y) : Claims.valueWide f y := by
  obtain ⟨neg, c, -, rfl⟩ := (hf.valueIn_iff y).1 h
  rcases Nat.lt_or_ge c (2 ^ f.mbits) with h | h
  · refine ⟨_, f.qmin, ?_, by rw [Fmt.magVal, if_pos h, sgn_mul_nat]⟩
    rw [abs_sign_mul]
    exact_mod_cast Nat.lt_of_lt_of_le h (Nat.pow_le_pow_right (by omega) (by omega))
  · obtain ⟨d, n, h1, h2, rfl⟩ := f.normal_block h
    refine ⟨_, f.qmin + d, ?_, by rw [f.magVal_block d h1 h2.le, sgn_mul_nat]⟩
    rw [abs_sign_mul]; exact_mod_cast h2

/-- A finite value is a multiple of the least one. -/
theorem Fmt.Proper.valueIn_multiple {f : Fmt} (hf : f.Proper) {y : ℝ} (h : Claims.valueIn f y) :
    ∃ t : ℤ, y = t * (2 : ℝ) ^ f.qmin := by
  obtain ⟨neg, c, -, rfl⟩ := (hf.valueIn_iff y).1 h
  obtain ⟨n, hn⟩ : ∃ n : Nat, f.magVal c = n * (2 : ℝ) ^ f.qmin := by
    rcases Nat.lt_or_ge c (2 ^ f.mbits) with h | h
    · exact ⟨c, by rw [Fmt.magVal, if_pos h]⟩
    · obtain ⟨d, n, h1, h2, rfl⟩ := f.normal_block h
      refine ⟨n * 2 ^ d, ?_⟩
      rw [f.magVal_block d h1 h2.le, zpow_add₀ (by norm_num), zpow_natCast]; push_cast; ring
  refine ⟨(if neg = true then -1 else 1) * n, ?_⟩
  rw [hn]
  cases neg <;> simp [sgn]

/-! ### One rounding into a format (R47, R48, R53) -/

theorem RoundedNat.le {mode : RMode} {neg : Bool} {x : ℝ} {r : Nat × Bool} (h : RoundedNat mode neg x r) {b : Nat} (hx : x ≤ b) :
    r.1 ≤ b := by
  rcases h with ⟨-, h⟩ | ⟨-, lo, h1, -, h3⟩
  · exact_mod_cast h ▸ hx
  · have : lo < b := by exact_mod_cast lt_of_lt_of_le h1 hx
    omega

theorem RoundedNat.ge {mode : RMode} {neg : Bool} {x : ℝ} {r : Nat × Bool} (h : RoundedNat mode neg x r) {b : Nat} (hx : (b : ℝ) ≤ x) :
    b ≤ r.1 := by
  rcases h with ⟨-, h⟩ | ⟨-, lo, -, h2, h3⟩
  · exact_mod_cast h ▸ hx
  · have : b < lo + 1 := by exact_mod_cast lt_of_le_of_lt hx h2
    omega

theorem RoundedNat.inexact_iff {mode : RMode} {neg : Bool} {x : ℝ} {r : Nat × Bool} (h : RoundedNat mode neg x r) :
    r.2 = true ↔ (r.1 : ℝ) ≠ x := by
  rcases h with ⟨h, hx⟩ | ⟨h, lo, h1, h2, h3⟩
  · simp [h, hx]
  · simp only [h, true_iff]
    rcases h3 with ⟨hn, -⟩ | ⟨hn, -⟩ <;> rw [hn]
    · push_cast; exact h2.ne'
    · exact h1.ne

/-- The bounds of a number at the exponent of the last bit that is kept. -/
theorem Fmt.quantum_bounds (f : Fmt) {m : Nat} (hm : m ≠ 0) (e : Int) :
    (2 : ℝ) ^ f.mbits ≤ m * (2 : ℝ) ^ (e - f.quantum m e) ∧ (m : ℝ) * (2 : ℝ) ^ (e - f.quantum m e) < (2 : ℝ) ^ (f.mbits + 1) := by
  have hlo : ((2 : ℝ) ^ Nat.log2 m) ≤ m := by exact_mod_cast Nat.log2_self_le hm
  have hhi : (m : ℝ) < (2 : ℝ) ^ (Nat.log2 m + 1) := by exact_mod_cast Nat.lt_log2_self
  have hq (a : Nat) : (2 : ℝ) ^ (f.mbits + a) = (2 : ℝ) ^ (Nat.log2 m + a) * (2 : ℝ) ^ (e - f.quantum m e) := by
    rw [← zpow_natCast, ← zpow_natCast, ← zpow_add₀ (by norm_num)]
    congr 1; unfold Fmt.quantum; push_cast; ring
  have h0 := hq 0
  rw [Nat.add_zero, Nat.add_zero] at h0
  rw [h0, hq 1]
  exact ⟨mul_le_mul_of_nonneg_right hlo (two_zpow_pos _).le, mul_lt_mul_of_pos_right hhi (two_zpow_pos _)⟩

/-- A number of the format's precision is a multiple of 2^q, or is smaller than any number of full precision there. -/
theorem Fmt.wide_candidate {f : Fmt} {z : ℝ} (h : Claims.valueWide f z) (q : Int) :
    (∃ t : ℤ, z = t * (2 : ℝ) ^ q) ∨ |z| < ((2 ^ f.mbits : Nat) : ℝ) * (2 : ℝ) ^ q := by
  obtain ⟨n, k, hn, rfl⟩ := h
  rcases le_or_gt q k with hk | hk
  · left
    obtain ⟨d, rfl⟩ := Int.le.dest hk
    refine ⟨n * 2 ^ d, ?_⟩
    rw [zpow_add₀ (by norm_num), zpow_natCast]; push_cast; ring
  · right
    have hn' : |(n : ℝ)| < (2 : ℝ) ^ (f.mbits + 1) := by exact_mod_cast hn
    have hk' : (2 : ℝ) ^ k ≤ (2 : ℝ) ^ (q - 1) := zpow_le_zpow_right₀ (by norm_num) (by omega)
    rw [abs_mul, abs_of_pos (two_zpow_pos k)]
    calc |(n : ℝ)| * (2 : ℝ) ^ k < (2 : ℝ) ^ (f.mbits + 1) * (2 : ℝ) ^ k := mul_lt_mul_of_pos_right hn' (two_zpow_pos _)
      _ ≤ (2 : ℝ) ^ (f.mbits + 1) * (2 : ℝ) ^ (q - 1) := mul_le_mul_of_nonneg_left hk' (by positivity)
      _ = ((2 ^ f.mbits : Nat) : ℝ) * (2 : ℝ) ^ q := by
        rw [zpow_sub₀ (by norm_num), zpow_one, pow_succ]; push_cast; ring

/-- An even significand of full precision. -/
theorem Fmt.evenWide_nat (f : Fmt) (neg : Bool) {n : Nat} (h1 : 2 ^ f.mbits ≤ 2 * n) (h2 : 2 * n < 2 ^ (f.mbits + 1)) (k : Int) :
    Claims.evenWide f (sgn neg * ((2 * n : Nat) * (2 : ℝ) ^ k)) := by
  have hab : |(2 * ((if neg = true then -1 else 1) * n) : ℤ)| = (2 * n : Nat) := by cases neg <;> simp
  refine ⟨(if neg = true then -1 else 1) * n, k, by rw [hab]; exact_mod_cast h1, by rw [hab]; exact_mod_cast h2, ?_⟩
  rw [sgn_mul_nat]; congr 2; push_cast; ring

/-- The rounding to the format's precision with an unbounded exponent (R47). -/
theorem Fmt.Proper.roundsTo_wide {f : Fmt} (hf : f.Proper) (mode : RMode) (neg : Bool) {m : Nat} (hm : m ≠ 0) (e : Int) :
    Claims.roundsTo mode (Claims.valueWide f) (Claims.evenWide f) (sgn neg * (m * (2 : ℝ) ^ e))
      (sgn neg * ((roundAt mode neg m e (f.quantum m e)).1 * (2 : ℝ) ^ f.quantum m e)) := by
  obtain ⟨hlo, hhi⟩ := f.quantum_bounds hm e
  have hr := roundAt_rounded mode neg m e (f.quantum m e)
  have h1 := hr.ge (b := 2 ^ f.mbits) (by exact_mod_cast hlo)
  have h2 := hr.le (b := 2 ^ (f.mbits + 1)) (by exact_mod_cast hhi.le)
  have hsplit : (m : ℝ) * (2 : ℝ) ^ e = (m * (2 : ℝ) ^ (e - f.quantum m e)) * (2 : ℝ) ^ f.quantum m e := by
    rw [mul_assoc, two_zpow_sub_mul]
  have hcarry : (((2 ^ (f.mbits + 1) : Nat) : ℝ)) * (2 : ℝ) ^ f.quantum m e = ((2 ^ f.mbits : Nat) : ℝ) * (2 : ℝ) ^ (f.quantum m e + 1) := by
    rw [zpow_add_one₀ (by norm_num)]; push_cast; ring
  rw [hsplit]
  refine hr.roundsTo (two_zpow_pos _) ?_ (fun z hz => ?_) (fun h => ?_)
  · rcases Nat.lt_or_eq_of_le h2 with h | h
    · exact ⟨_, _, by rw [abs_sign_mul]; exact_mod_cast h, sgn_mul_nat ..⟩
    · refine ⟨_, _, ?_, by rw [h, hcarry, sgn_mul_nat]⟩
      rw [abs_sign_mul]; exact_mod_cast Nat.pow_lt_pow_right (by norm_num) (Nat.lt_succ_self _)
  · rcases Fmt.wide_candidate hz (f.quantum m e) with h | h
    · exact .inl h
    · exact .inr ⟨_, by exact_mod_cast hlo, h⟩
  · rcases Nat.lt_or_eq_of_le h2 with h' | h'
    · obtain ⟨n, hn⟩ : ∃ n, (roundAt mode neg m e (f.quantum m e)).1 = 2 * n := ⟨_, (Nat.mul_div_cancel' (Nat.dvd_of_mod_eq_zero h)).symm⟩
      rw [hn] at h1 h' ⊢
      exact f.evenWide_nat neg h1 h' _
    · obtain ⟨b, hb⟩ : ∃ b, 2 ^ f.mbits = 2 * b :=
        ⟨_, (Nat.mul_div_cancel' (dvd_pow_self 2 (by have := hf.mbits; omega))).symm⟩
      rw [h', hcarry, hb]
      exact f.evenWide_nat neg hb.le (by rw [← hb]; exact Nat.pow_lt_pow_right (by norm_num) (Nat.lt_succ_self _)) _

/-- The bits that `encodeMag` packs stand for the number n · 2^q. -/
theorem Fmt.magVal_encodeMag (f : Fmt) {n : Nat} {q : Int} (hq : f.qmin ≤ q) (hn : n ≤ 2 ^ (f.mbits + 1))
    (hlow : n < 2 ^ f.mbits → q = f.qmin) : f.magVal (f.encodeMag n q) = n * (2 : ℝ) ^ q := by
  unfold Fmt.encodeMag
  split
  case isTrue h => rw [Fmt.magVal, if_pos h, hlow h]
  case isFalse h =>
    rw [f.magVal_block _ (Nat.le_of_not_lt h) hn]
    congr 2; omega

theorem Fmt.Proper.encodeMag_even {f : Fmt} (hf : f.Proper) {n : Nat} (q : Int) (h : n % 2 = 0) : f.encodeMag n q % 2 = 0 := by
  unfold Fmt.encodeMag
  split
  · exact h
  · obtain ⟨b, hb⟩ : ∃ b, f.mbits = b + 1 := ⟨f.mbits - 1, by have := hf.mbits; omega⟩
    rw [hb, pow_succ, ← Nat.mul_assoc]; omega

theorem Fmt.Proper.normal_le_max {f : Fmt} (hf : f.Proper) : 2 ^ f.mbits ≤ f.maxBits := by
  unfold Fmt.maxBits
  split
  case isTrue h =>
    have he : f.ebits = 4 := by simpa [Fmt.isE4M3] using h
    rw [hf.e4m3 he]; decide
  case isFalse =>
    have h4 : 2 ^ 2 ≤ 2 ^ f.ebits := Nat.pow_le_pow_right (by norm_num) hf.ebits
    have hp := Nat.two_pow_pos f.mbits
    have : 3 * 2 ^ f.mbits ≤ (2 ^ f.ebits - 1) * 2 ^ f.mbits := Nat.mul_le_mul_right _ (by omega)
    omega

/-- The infinity of a sign. -/
theorem Fmt.Proper.decode_infBits {f : Fmt} (hf : f.Proper) (he : f.ebits ≠ 4) (neg : Bool) : f.decode (f.infBits neg) = .inf neg := by
  have hE : f.isE4M3 = false := by simpa [Fmt.isE4M3] using he
  have hp := Nat.two_pow_pos f.mbits
  have hpe := Nat.two_pow_pos f.ebits
  have hlt : (2 ^ f.ebits - 1) * 2 ^ f.mbits < 2 ^ (f.ebits + f.mbits) := by
    rw [Nat.pow_add]; exact Nat.mul_lt_mul_of_pos_right (by omega) hp
  obtain ⟨hmag, hsign⟩ := f.signBits_add neg hlt
  obtain ⟨-, hfr⟩ := f.mag_fields (f.infBits neg)
  have hinf : f.infBits neg = f.signBits neg + (2 ^ f.ebits - 1) * 2 ^ f.mbits := by unfold Fmt.infBits; rw [if_neg (by simp [hE])]
  rw [← hinf] at hmag hsign
  have hs := (hf.special_iff (f.infBits neg)).2 (by
    rw [hmag, Fmt.maxBits, if_neg (by simp [hE])]
    have := Nat.mul_pos (show 0 < 2 ^ f.ebits - 1 by have := Nat.one_lt_two_pow (n := f.ebits) (by have := hf.ebits; omega); omega) hp
    omega)
  unfold Fmt.decode
  simp only []
  rw [if_pos hs, if_neg (by simp [hE]), if_pos (by rw [hfr, hmag, Nat.mul_mod_left]), hsign]

theorem Fmt.Proper.infinite_infBits {f : Fmt} (hf : f.Proper) (neg : Bool) : Claims.infinite f neg (f.infBits neg) := by
  unfold Claims.infinite
  split
  case isTrue h => rw [Fmt.infBits, if_pos (by simp [Fmt.isE4M3, h])]
  case isFalse h => exact hf.decode_infBits h neg

/-- The zero of a sign. -/
theorem Fmt.Proper.decode_zero {f : Fmt} (hf : f.Proper) (neg : Bool) : ∃ k, f.decode (f.signBits neg) = .fin neg 0 k := by
  obtain ⟨m, e, hd, hv⟩ := hf.decode_signBits neg (Nat.zero_le _)
  rw [Nat.add_zero] at hd
  have h0 : f.magVal 0 = 0 := by rw [Fmt.magVal, if_pos (Nat.two_pow_pos _)]; simp
  rw [h0, mul_eq_zero] at hv
  have hm : m = 0 := by exact_mod_cast hv.resolve_right (two_zpow_pos _).ne'
  exact ⟨e, hm ▸ hd⟩

theorem Fmt.isFp8_iff (f : Fmt) : f.isFp8 = true ↔ f.ebits + f.mbits = 7 := by simp [Fmt.isFp8]

/-- What is delivered for a number that overflows (R48, R53). -/
theorem Fmt.Proper.overflow_delivered {f : Fmt} (hf : f.Proper) (mode : RMode) (sat neg : Bool) :
    let c := if f.isFp8 then f.fp8Limit sat neg else f.overflowBits mode neg
    let finite : Prop := if f.ebits + f.mbits = 7 then sat = true
      else mode = .rtz ∨ (mode = .rup ∧ neg = true) ∨ (mode = .rdn ∧ neg = false)
    (finite → Claims.largest f neg c) ∧ (¬finite → Claims.infinite f neg c) := by
  have hl := hf.largest_maxBits neg
  have hi := hf.infinite_infBits neg
  by_cases h8 : f.ebits + f.mbits = 7
  · simp only [(f.isFp8_iff).2 h8, h8, if_true]
    cases sat <;> simp [Fmt.fp8Limit, hl, hi]
  · simp only [mt (f.isFp8_iff).1 h8, h8, if_false]
    cases mode <;> cases neg <;> simp [Fmt.overflowBits, hl, hi]

/-- An infinite result (R48, R51, R53). -/
theorem Fmt.Proper.infinityIn_round {f : Fmt} (hf : f.Proper) (mode : RMode) (sat neg : Bool) :
    Claims.infinityIn f sat neg (f.round mode sat (.inf neg)) := by
  have hl := hf.largest_maxBits neg
  have hi := hf.infinite_infBits neg
  unfold Claims.infinityIn
  by_cases h8 : f.ebits + f.mbits = 7
  · simp only [Fmt.round, (f.isFp8_iff).2 h8, h8, if_true]
    refine ⟨?_, by rintro rfl; simpa [Fmt.fp8Limit] using hl, by rintro rfl; simpa [Fmt.fp8Limit] using hi⟩
    by_cases h4 : f.ebits = 4 <;> cases sat <;> simp [Fmt.isE4M3, h4, Flags.invalid]
  · simp only [Fmt.round, mt (f.isFp8_iff).1 h8, h8, if_false]
    refine ⟨rfl, ?_⟩
    by_cases h4 : f.ebits = 4
    · exact absurd (by rw [h4, hf.e4m3 h4]) h8
    · exact hf.decode_infBits h4 neg

/-- The number before and after the choice of the exponent of the last bit. -/
theorem mul_zpow_split (m : Nat) (e q : Int) : (m : ℝ) * (2 : ℝ) ^ e = (m * (2 : ℝ) ^ (e - q)) * (2 : ℝ) ^ q := by
  rw [mul_assoc, two_zpow_sub_mul]

/-- The first rounding keeps the format's precision. -/
theorem Fmt.unbounded_bounds (f : Fmt) (mode : RMode) (neg : Bool) {m : Nat} (hm : m ≠ 0) (e : Int) :
    2 ^ f.mbits ≤ (roundAt mode neg m e (f.quantum m e)).1 ∧ (roundAt mode neg m e (f.quantum m e)).1 ≤ 2 ^ (f.mbits + 1) := by
  obtain ⟨hlo, hhi⟩ := f.quantum_bounds hm e
  have hr := roundAt_rounded mode neg m e (f.quantum m e)
  exact ⟨hr.ge (by exact_mod_cast hlo), hr.le (by exact_mod_cast hhi.le)⟩

/-- Below the normal range the significand is at most that of the smallest normal number. -/
theorem Fmt.subnormal_le (f : Fmt) (mode : RMode) (neg : Bool) {m : Nat} (hm : m ≠ 0) {e : Int} (h : f.quantum m e < f.qmin) :
    (roundAt mode neg m e f.qmin).1 ≤ 2 ^ f.mbits := by
  obtain ⟨-, hhi⟩ := f.quantum_bounds hm e
  refine (roundAt_rounded mode neg m e f.qmin).le ?_
  have hle : (2 : ℝ) ^ (f.quantum m e - f.qmin) ≤ (2 : ℝ) ^ (-1 : ℤ) := zpow_le_zpow_right₀ (by norm_num) (by omega)
  have hsplit : (m : ℝ) * (2 : ℝ) ^ (e - f.qmin) = m * (2 : ℝ) ^ (e - f.quantum m e) * (2 : ℝ) ^ (f.quantum m e - f.qmin) := by
    rw [mul_assoc, ← zpow_add₀ (by norm_num)]; congr 2; ring
  rw [hsplit]
  calc _ ≤ (2 : ℝ) ^ (f.mbits + 1) * (2 : ℝ) ^ (-1 : ℤ) := mul_le_mul hhi.le hle (two_zpow_pos _).le (by positivity)
    _ = ((2 ^ f.mbits : Nat) : ℝ) := by rw [pow_succ]; push_cast; norm_num; ring

/-- The significand that `roundFin` packs. -/
theorem Fmt.magVal_rounded (f : Fmt) (mode : RMode) (neg : Bool) {m : Nat} (hm : m ≠ 0) (e : Int) :
    let q := max (f.quantum m e) f.qmin
    let n := (roundAt mode neg m e q).1
    f.magVal (f.encodeMag n q) = n * (2 : ℝ) ^ q := by
  obtain ⟨h1, h2⟩ := f.unbounded_bounds mode neg hm e
  rcases lt_or_ge (f.quantum m e) f.qmin with h | h
  · rw [max_eq_right h.le]
    exact f.magVal_encodeMag le_rfl ((f.subnormal_le mode neg hm h).trans (Nat.pow_le_pow_right (by norm_num) (Nat.le_succ _)))
      fun _ => rfl
  · rw [max_eq_left h]
    exact f.magVal_encodeMag h h2 fun hlt => absurd h1 (Nat.not_le.2 hlt)

/-- The result overflows where the number of unbounded exponent exceeds the largest finite value. -/
theorem Fmt.Proper.overflow_iff {f : Fmt} (hf : f.Proper) (mode : RMode) (neg : Bool) {m : Nat} (hm : m ≠ 0) (e : Int) :
    let q := max (f.quantum m e) f.qmin
    f.maxBits < f.encodeMag (roundAt mode neg m e q).1 q ↔
      f.magVal f.maxBits < (roundAt mode neg m e (f.quantum m e)).1 * (2 : ℝ) ^ f.quantum m e := by
  intro q
  have hmag := f.magVal_rounded mode neg hm e
  rcases lt_or_ge (f.quantum m e) f.qmin with h | h
  · have hsub := f.subnormal_le mode neg hm h
    obtain ⟨-, h2⟩ := f.unbounded_bounds mode neg hm e
    have hnorm := f.magVal_block 0 (le_refl (2 ^ f.mbits)) (Nat.pow_le_pow_right (by norm_num) (Nat.le_succ _))
    rw [Nat.zero_mul, Nat.zero_add, Nat.cast_zero, add_zero] at hnorm
    have hmax := f.magVal_strictMono.monotone hf.normal_le_max
    rw [hnorm] at hmax
    refine iff_of_false (Nat.not_lt.2 ?_) (not_lt.2 ?_)
    · show f.encodeMag (roundAt mode neg m e (max _ _)).1 (max _ _) ≤ _
      rw [max_eq_right h.le]
      refine le_trans ?_ hf.normal_le_max
      unfold Fmt.encodeMag
      split
      · exact hsub
      · simpa using hsub
    · refine le_trans ?_ hmax
      have h2' : ((roundAt mode neg m e (f.quantum m e)).1 : ℝ) ≤ (2 : ℝ) ^ (f.mbits + 1) := by exact_mod_cast h2
      calc _ ≤ (2 : ℝ) ^ (f.mbits + 1) * (2 : ℝ) ^ (f.qmin - 1) :=
            mul_le_mul h2' (zpow_le_zpow_right₀ (by norm_num) (by omega)) (two_zpow_pos _).le (by positivity)
        _ = ((2 ^ f.mbits : Nat) : ℝ) * (2 : ℝ) ^ f.qmin := by
          rw [zpow_sub₀ (by norm_num), zpow_one, pow_succ]; push_cast; ring
  · rw [show q = f.quantum m e from max_eq_left h]
    dsimp only at hmag
    rw [max_eq_left h] at hmag
    rw [← hmag, f.magVal_strictMono.lt_iff_lt]

/-- The first rounding lies below the smallest normal number. -/
theorem Fmt.tiny_iff (f : Fmt) (mode : RMode) (neg : Bool) {m : Nat} (hm : m ≠ 0) (e : Int) :
    (roundAt mode neg m e (f.quantum m e)).1 < 2 ^ f.mbits * 2 ^ (f.qmin - f.quantum m e).toNat ↔
      (roundAt mode neg m e (f.quantum m e)).1 * (2 : ℝ) ^ f.quantum m e < (2 : ℝ) ^ (1 - (f.bias : ℤ)) := by
  have hmin : (2 : ℝ) ^ (1 - (f.bias : ℤ)) = ((2 ^ f.mbits : Nat) : ℝ) * (2 : ℝ) ^ f.qmin := by
    rw [Nat.cast_pow, Nat.cast_ofNat, ← zpow_natCast, ← zpow_add₀ (by norm_num)]
    congr 1; unfold Fmt.qmin; ring
  rcases le_or_gt (f.quantum m e) f.qmin with h | h
  · have hexp : (2 : ℝ) ^ f.qmin = ((2 ^ (f.qmin - f.quantum m e).toNat : Nat) : ℝ) * (2 : ℝ) ^ f.quantum m e := by
      rw [two_pow_toNat (by omega), two_zpow_sub_mul]
    rw [hmin, hexp, ← mul_assoc, mul_lt_mul_iff_left₀ (two_zpow_pos _)]
    exact_mod_cast Iff.rfl
  · obtain ⟨h1, -⟩ := f.unbounded_bounds mode neg hm e
    refine iff_of_false (by rw [show (f.qmin - f.quantum m e).toNat = 0 by omega]; omega) (not_lt.2 ?_)
    rw [hmin]
    exact mul_le_mul (by exact_mod_cast h1) (zpow_le_zpow_right₀ (by norm_num) h.le) (two_zpow_pos _).le (by positivity)

/-- The rounding to the finite values of the format. -/
theorem Fmt.Proper.roundsTo_finite {f : Fmt} (hf : f.Proper) (mode : RMode) (neg : Bool) {m : Nat} (hm : m ≠ 0) (e : Int) :
    let q := max (f.quantum m e) f.qmin
    let n := (roundAt mode neg m e q).1
    f.encodeMag n q ≤ f.maxBits →
    Claims.roundsTo mode (Claims.valueIn f) (Claims.evenIn f) (sgn neg * (m * (2 : ℝ) ^ e)) (sgn neg * (n * (2 : ℝ) ^ q)) := by
  intro q n hfin
  have hmag : f.magVal (f.encodeMag n q) = n * (2 : ℝ) ^ q := f.magVal_rounded mode neg hm e
  rw [mul_zpow_split m e q]
  refine (roundAt_rounded mode neg m e q).roundsTo (two_zpow_pos q) ?_ (fun z hz => ?_) fun h => ?_
  · exact (hf.valueIn_iff _).2 ⟨neg, _, hfin, by rw [hmag]⟩
  · rcases lt_or_ge (f.quantum m e) f.qmin with h | h
    · rw [show q = f.qmin from max_eq_right h.le]
      exact .inl (hf.valueIn_multiple hz)
    · rw [show q = f.quantum m e from max_eq_left h]
      refine (Fmt.wide_candidate (hf.valueWide_of_valueIn hz) (f.quantum m e)).imp id fun hlt => ⟨2 ^ f.mbits, ?_, hlt⟩
      exact_mod_cast (f.quantum_bounds hm e).1
  · have := hf.evenIn_of_even neg hfin (hf.encodeMag_even q h)
    rwa [hmag] at this

/-- `roundFin` delivers the number rounded once (R47, R48, R49, R53). -/
theorem Fmt.Proper.rounded_roundFin {f : Fmt} (hf : f.Proper) (mode : RMode) (sat neg : Bool) {m : Nat} (hm : m ≠ 0) (e : Int) :
    Claims.rounded f mode sat neg (sgn neg * (m * (2 : ℝ) ^ e)) (f.roundFin mode sat neg m e) := by
  have hov := hf.overflow_iff mode neg hm e
  have hround := hf.roundsTo_finite mode neg hm e
  have hmag := f.magVal_rounded mode neg hm e
  have habs : |sgn neg * ((roundAt mode neg m e (f.quantum m e)).1 * (2 : ℝ) ^ f.quantum m e)| =
      (roundAt mode neg m e (f.quantum m e)).1 * (2 : ℝ) ^ f.quantum m e := by
    rw [abs_mul, abs_sgn, one_mul, abs_of_nonneg (mul_nonneg (Nat.cast_nonneg _) (two_zpow_pos _).le)]
  refine ⟨_, hf.roundsTo_wide mode neg hm e, fun hover => ?_, fun ⟨y, hy, hle⟩ => ?_⟩
  · have hlt := hover _ ((hf.valueIn_iff _).2 ⟨neg, f.maxBits, le_rfl, rfl⟩)
    rw [habs, abs_mul, abs_sgn, one_mul, abs_of_nonneg (f.magVal_nonneg _)] at hlt
    rw [Fmt.roundFin, if_neg hm]
    dsimp only
    rw [if_pos (hov.2 hlt)]
    exact ⟨rfl, hf.overflow_delivered mode sat neg⟩
  · rw [habs] at hle
    have hfin := Nat.not_lt.1 (mt hov.1 (not_lt.2 (hle.trans (hf.abs_le_max hy))))
    obtain ⟨m', e', hd, hv⟩ := hf.decode_signBits neg hfin
    dsimp only at hmag hround
    have hval : (Claims.ratOf neg m' e' : ℝ) = sgn neg * ((roundAt mode neg m e (max (f.quantum m e) f.qmin)).1 *
        (2 : ℝ) ^ max (f.quantum m e) f.qmin) := by rw [ratOf_cast, hv, hmag]
    have hnx : (roundAt mode neg m e (max (f.quantum m e) f.qmin)).2 = true ↔
        (Claims.ratOf neg m' e' : ℝ) ≠ sgn neg * (m * (2 : ℝ) ^ e) := by
      rw [(roundAt_rounded ..).inexact_iff, hval, mul_zpow_split m e (max (f.quantum m e) f.qmin), not_iff_not,
        mul_right_inj' (by cases neg <;> simp [sgn]), mul_left_inj' (two_zpow_pos _).ne']
    rw [Fmt.roundFin, if_neg hm]
    dsimp only
    rw [if_neg (Nat.not_lt.2 hfin), habs]
    refine ⟨m', e', _, _, hd, hval ▸ hround hfin, rfl, hnx, ?_⟩
    rw [Bool.and_eq_true, decide_eq_true_eq, f.tiny_iff mode neg hm e, hnx, and_comm]

/-! ### One converted lane (R51 to R55, R162) -/

/-- The integers among the real numbers, and the even ones: what a conversion to an integer type rounds to. -/
def IsWhole (y : ℝ) : Prop := ∃ n : ℤ, y = n
def IsEvenWhole (y : ℝ) : Prop := ∃ n : ℤ, y = 2 * n

/-- A sign and a natural number, as an integer. -/
def signed (neg : Bool) (n : Nat) : ℤ := if neg = true then -(n : ℤ) else n

theorem signed_cast (neg : Bool) (n : Nat) : ((signed neg n : ℤ) : ℝ) = sgn neg * n := by
  cases neg <;> simp [signed, sgn]

theorem signed_natAbs (i : ℤ) : signed (decide (i < 0)) i.natAbs = i := by
  unfold signed
  rcases lt_or_ge i 0 with h | h
  · simp only [h, decide_true, if_true]; omega
  · simp only [not_lt.2 h, decide_false, Bool.false_eq_true, if_false]; omega

/-- An integer and a scale, as a sign, a magnitude and an exponent. -/
theorem int_mul_zpow (i k : ℤ) : (i : ℝ) * (2 : ℝ) ^ k = sgn (decide (i < 0)) * (i.natAbs * (2 : ℝ) ^ k) := by
  rw [← mul_assoc, ← signed_cast, signed_natAbs]

/-- `roundAt` to integers. -/
theorem roundAt_roundsTo_whole (mode : RMode) (neg : Bool) (m : Nat) (e : Int) :
    Claims.roundsTo mode IsWhole IsEvenWhole (sgn neg * (m * (2 : ℝ) ^ e)) (signed neg (roundAt mode neg m e 0).1 : ℤ) := by
  have h := (roundAt_rounded mode neg m e 0).roundsTo (u := 1) (rep := IsWhole) (even := IsEvenWhole) one_pos
    ⟨signed neg (roundAt mode neg m e 0).1, by rw [signed_cast, mul_one]⟩
    (fun z ⟨t, ht⟩ => .inl ⟨t, by rw [ht, mul_one]⟩)
    (fun h2 => ⟨signed neg ((roundAt mode neg m e 0).1 / 2), by
      rw [signed_cast, mul_one, show ((roundAt mode neg m e 0).1 : ℝ) = 2 * ((roundAt mode neg m e 0).1 / 2 : Nat) by
        exact_mod_cast (Nat.mul_div_cancel' (Nat.dvd_of_mod_eq_zero h2)).symm]; ring⟩)
  rwa [mul_one, mul_one, Int.sub_zero, ← signed_cast] at h

theorem scaledInt_roundsTo (mode : RMode) (i k : ℤ) :
    Claims.roundsTo mode IsWhole IsEvenWhole ((i : ℝ) * (2 : ℝ) ^ k) (scaledInt mode i k : ℤ) := by
  have h := roundAt_roundsTo_whole mode (decide (i < 0)) i.natAbs k
  rw [← int_mul_zpow] at h
  unfold scaledInt
  convert h using 2
  simp [signed]

theorem scaledInt_zero (mode : RMode) (i : ℤ) : scaledInt mode i 0 = i := by
  have h : (roundAt mode (decide (i < 0)) i.natAbs 0 0).1 = i.natAbs := by simp [roundAt]
  unfold scaledInt
  simp only [h]
  split <;> omega

/-- A finite value converted to an integer type (R54). -/
theorem toIntConv_fin (t : ElemTy) (mode : RMode) (neg : Bool) (m : Nat) (e : Int) :
    ∃ y : ℤ, Claims.roundsTo mode IsWhole IsEvenWhole (sgn neg * (m * (2 : ℝ) ^ e)) y ∧
      (intMin t ≤ y → y ≤ intMax t →
        ∃ nx, toIntConv t mode (.fin neg m e) = (wrapInt t.width y, { nx }) ∧ (nx = true ↔ (y : ℝ) ≠ sgn neg * (m * (2 : ℝ) ^ e))) ∧
      (¬(intMin t ≤ y ∧ y ≤ intMax t) → toIntConv t mode (.fin neg m e) = (wrapInt t.width (satInt t y), { nv := true })) := by
  have hy : toIntConv t mode (.fin neg m e) = if signed neg (roundAt mode neg m e 0).1 < intMin t ∨
      intMax t < signed neg (roundAt mode neg m e 0).1 then (wrapInt t.width (satInt t (signed neg (roundAt mode neg m e 0).1)), { nv := true })
      else (wrapInt t.width (signed neg (roundAt mode neg m e 0).1), { nx := (roundAt mode neg m e 0).2 }) := by
    simp only [toIntConv, signed, Bool.or_eq_true, decide_eq_true_eq]
    rfl
  refine ⟨_, roundAt_roundsTo_whole mode neg m e, fun h1 h2 => ⟨(roundAt mode neg m e 0).2, ?_, ?_⟩, fun h => ?_⟩
  · rw [hy, if_neg (by omega)]
  · have := (roundAt_rounded mode neg m e 0).inexact_iff
    rw [this, Int.sub_zero, signed_cast, not_iff_not, mul_right_inj' (by cases neg <;> simp [sgn])]
  · rw [hy, if_pos (by omega)]

/-- Delivery of the values of a conversion between floating-point types (R51 to R53). -/
theorem toFp_nan (dst : ElemTy) (mode : RMode) (sat s : Bool) : toFp dst mode sat (.nan s) = ((fmtOf dst).nanBits, { nv := s }) := by
  cases s <;> rfl

theorem toFp_inf (dst : ElemTy) (mode : RMode) (sat n : Bool) : toFp dst mode sat (.inf n) = (fmtOf dst).round mode sat (.inf n) := by
  simp only [toFp, Fmt.deliver, FVal.exact, FVal.isSnan]
  rw [show Flags.invalid false = {} from rfl, Flags.empty_or]

theorem toFp_fin (dst : ElemTy) (mode : RMode) (sat n : Bool) (m : Nat) (e : Int) :
    toFp dst mode sat (.fin n m e) = (fmtOf dst).roundFin mode sat n m e := by
  simp only [toFp, Fmt.deliver, FVal.exact, FVal.isSnan]
  rw [show Flags.invalid false = {} from rfl, Flags.empty_or]; rfl

theorem Fmt.roundFin_zero (f : Fmt) (mode : RMode) (sat neg : Bool) (e : Int) : f.roundFin mode sat neg 0 e = (f.signBits neg, {}) := rfl

/-- The exponent that a rider scales by (R162). -/
def riderExp (scale : Option Nat) : Int := match scale with | some r => (r : Int) - 127 | none => 0

section
variable {dst src : ElemTy} (m : RMode × Flags) (sat isat : Bool) {scale : Option Nat} (x : Nat) (hs : scale ≠ some 255)
include hs

/-- A conversion between integer types. -/
theorem convertLane_int_int (hsrc : src.isInt = true) (hdst : dst.isInt = true) :
    let y := scaledInt m.1 (intVal src x) (riderExp scale)
    convertLane dst src m sat isat scale x = (wrapInt dst.width (if isat then satInt dst y else y), {}) := by
  rw [convertLane.eq_def]
  simp only [if_neg hs, hsrc, hdst, if_true]
  cases scale with
  | none => simp only [riderExp, scaledInt_zero, Option.isSome_none, Bool.false_eq_true, if_false]
  | some r => rfl

/-- A conversion from an integer type to a floating-point type. -/
theorem convertLane_int_fp (hsrc : src.isInt = true) (hdst : dst.isInt = false) :
    let i := intVal src x
    let r := (fmtOf dst).roundFin m.1 sat (decide (i < 0)) i.natAbs (riderExp scale)
    convertLane dst src m sat isat scale x = (r.1, (m.2.or r.2).ofLane) := by
  rw [convertLane.eq_def]
  simp only [if_neg hs, hsrc, hdst, if_true, Bool.false_eq_true, if_false]
  rfl

/-- A conversion from a floating-point type. -/
theorem convertLane_fp (hsrc : src.isInt = false) :
    let v := ((fmtOf src).decode x).scale (riderExp scale)
    let r := if dst.isInt then toIntConv dst m.1 v else toFp dst m.1 sat v
    convertLane dst src m sat isat scale x = (r.1, (m.2.or r.2).ofLane) := by
  rw [convertLane.eq_def]
  simp only [if_neg hs, hsrc, Bool.false_eq_true, if_false]
  rfl

end

theorem convertedResults : Claims.ConvertedResults := by
  intro dst src m sat isat scale x _ _ f k c wrap clamp i v gives whole even
  have hp := fmtOf_proper dst
  refine ⟨fun hs => ?_, fun hs hsrc hdst => ?_, fun hs hsrc hdst => ?_, fun hs hsrc => ?_⟩
  · show convertLane dst src m sat isat scale x = _
    rw [convertLane.eq_def, if_pos hs]
  · exact ⟨_, scaledInt_roundsTo m.1 i k, convertLane_int_int m sat isat x hs hsrc hdst⟩
  · have hc := convertLane_int_fp m sat isat x hs hsrc hdst
    refine ⟨fun h0 => hc.trans ?_, fun h0 => ⟨_, ?_, hc⟩⟩
    · dsimp only
      rw [show intVal src x = 0 from h0]; rfl
    · rw [int_mul_zpow]
      exact hp.rounded_roundFin m.1 sat _ (Int.natAbs_ne_zero.2 h0) k
  · have hc := convertLane_fp (dst := dst) m sat isat x hs hsrc
    dsimp only at hc
    refine ⟨fun s hv => ?_, fun n hv => ⟨fun hdst => ?_, fun hdst => ?_⟩, fun n a e hv => ?_⟩
    all_goals rw [show (fmtOf src).decode x = _ from hv, FVal.scale] at hc
    · refine hc.trans ?_
      rw [toFp_nan]; cases h : dst.isInt <;> simp [toIntConv, f]
    · rw [if_pos hdst] at hc; exact hc
    · rw [if_neg (by simp [hdst]), toFp_inf] at hc
      exact ⟨_, hp.infinityIn_round m.1 sat n, hc⟩
    · intro z
      have hz : z = sgn n * (a * (2 : ℝ) ^ (e + riderExp scale)) := ratOf_cast n a (e + k)
      rw [hz]
      refine ⟨fun hdst => ?_, fun hdst h0 => ?_, fun hdst h0 => ?_⟩
      · rw [if_pos hdst] at hc
        obtain ⟨y, hy, hin, hout⟩ := toIntConv_fin dst m.1 n a (e + riderExp scale)
        refine ⟨y, hy, fun h1 h2 => ?_, fun h => ?_⟩
        · obtain ⟨nx, hnx, hiff⟩ := hin h1 h2
          exact ⟨nx, by rw [hnx] at hc; exact hc, hiff⟩
        · rw [hout h] at hc; exact hc
      · rw [if_neg (by simp [hdst]), toFp_fin, h0, Fmt.roundFin_zero] at hc
        obtain ⟨q, hq⟩ := hp.decode_zero n
        exact ⟨_, q, hq, hc⟩
      · rw [if_neg (by simp [hdst]), toFp_fin] at hc
        exact ⟨_, hp.rounded_roundFin m.1 sat n h0 _, hc⟩

/-- Settles O23: the lanes from the rule of masked vector writes, and one lane's value from the one rounding into a format. -/
theorem vectorConversions : Obligations.VectorConversions := ⟨convertedLanes, convertedResults⟩

end Sys2Proof.Machine

/-! SUPPORT. The windowed sum: the greatest exponent, the truncated terms and the one rounding of their sum (R59 to R62, R168). -/

namespace Sys2Proof.Machine

/-! ### The windowed sum (R59 to R62) -/

/-- The number that a value stands for; 0 where it is none. -/
def FVal.rat : FVal → ℚ
  | .fin n m e => Claims.ratOf n m e
  | _ => 0

@[simp] theorem FVal.rat_fin (n : Bool) (m : Nat) (e : Int) : (FVal.fin n m e).rat = Claims.ratOf n m e := rfl

theorem ratOf_eq (n : Bool) (m : Nat) (e : Int) : Claims.ratOf n m e = (signed n m : ℚ) * (2 : ℚ) ^ e := by
  cases n <;> simp [Claims.ratOf, signed]

theorem abs_ratOf (n : Bool) (m : Nat) (e : Int) : |Claims.ratOf n m e| = m * (2 : ℚ) ^ e := by
  cases n <;> simp [Claims.ratOf, abs_mul, abs_of_pos (show (0 : ℚ) < (2 : ℚ) ^ e by positivity)]

theorem ratOf_eq_zero {n : Bool} {m : Nat} {e : Int} : Claims.ratOf n m e = 0 ↔ m = 0 := by
  rw [← abs_eq_zero, abs_ratOf, mul_eq_zero, or_iff_left (by positivity)]; exact_mod_cast Iff.rfl

/-- The exponent of a nonzero product. -/
theorem topExp_eq_iff {p : FVal} (hp : ∃ n m e, p = .fin n m e) {E : Int} :
    topExp p = some E ↔ (2 : ℚ) ^ E ≤ |p.rat| ∧ |p.rat| < (2 : ℚ) ^ (E + 1) := by
  obtain ⟨n, m, e, rfl⟩ := hp
  have hpos : (0 : ℚ) < (2 : ℚ) ^ E := by positivity
  simp only [topExp, FVal.rat_fin, abs_ratOf]
  by_cases hm : m = 0
  · simp [hm, not_le.2 hpos]
  rw [if_neg hm, Option.some.injEq]
  have hlo : (2 : ℚ) ^ ((Nat.log2 m : ℤ) + e) ≤ m * (2 : ℚ) ^ e := by
    rw [zpow_add₀ (by norm_num), zpow_natCast]
    exact mul_le_mul_of_nonneg_right (by exact_mod_cast Nat.log2_self_le hm) (by positivity)
  have hhi : m * (2 : ℚ) ^ e < (2 : ℚ) ^ ((Nat.log2 m : ℤ) + e + 1) := by
    rw [show (Nat.log2 m : ℤ) + e + 1 = ((Nat.log2 m + 1 : Nat) : ℤ) + e by push_cast; ring, zpow_add₀ (by norm_num), zpow_natCast]
    exact mul_lt_mul_of_pos_right (by exact_mod_cast Nat.lt_log2_self) (by positivity)
  constructor
  · rintro rfl; exact ⟨hlo, hhi⟩
  · rintro ⟨h1, h2⟩
    have ha := (zpow_lt_zpow_iff_right₀ (by norm_num : (1 : ℚ) < 2)).1 (hlo.trans_lt h2)
    have hb := (zpow_lt_zpow_iff_right₀ (by norm_num : (1 : ℚ) < 2)).1 (h1.trans_lt hhi)
    omega

theorem topExp_eq_none_iff {p : FVal} (hp : ∃ n m e, p = .fin n m e) : topExp p = none ↔ p.rat = 0 := by
  obtain ⟨n, m, e, rfl⟩ := hp
  simp only [topExp, FVal.rat_fin, ratOf_eq_zero]
  split <;> simp [*]

theorem maxExp_eq_none_iff {ps : List FVal} : maxExp ps = none ↔ ∀ p ∈ ps, topExp p = none := by
  induction ps with
  | nil => simp [maxExp]
  | cons p ps ih =>
    rw [List.forall_mem_cons, ← ih, maxExp]
    cases topExp p <;> cases maxExp ps <;> simp

/-- The greatest of the exponents. -/
theorem maxExp_eq_some_iff {ps : List FVal} {E : Int} :
    maxExp ps = some E ↔ (∃ p ∈ ps, topExp p = some E) ∧ ∀ p ∈ ps, ∀ k, topExp p = some k → k ≤ E := by
  induction ps generalizing E with
  | nil => simp [maxExp]
  | cons p ps ih =>
    rw [List.exists_mem_cons_iff, List.forall_mem_cons, maxExp]
    cases hp : topExp p with
    | none => simp [ih]
    | some k =>
      cases hps : maxExp ps with
      | none =>
        have hn := maxExp_eq_none_iff.1 hps
        have hno : ¬∃ q ∈ ps, topExp q = some E := by rintro ⟨q, hq, h⟩; simp [hn q hq] at h
        simp only [hno, or_false, Option.some.injEq]
        exact ⟨by rintro rfl; exact ⟨rfl, fun _ h => by omega, fun q hq _ h => by simp [hn q hq] at h⟩, fun h => h.1⟩
      | some r =>
        obtain ⟨⟨q, hq, hqr⟩, hle⟩ := ih.1 hps
        simp only [Option.some.injEq]
        constructor
        · rintro rfl
          refine ⟨?_, fun _ h => by omega, fun q hq j h => (hle q hq j h).trans (le_max_right _ _)⟩
          rcases le_total k r with h | h
          · exact .inr ⟨q, hq, by rw [max_eq_right h, hqr]⟩
          · exact .inl (max_eq_left h).symm
        · rintro ⟨h, h1, h2⟩
          have hkE := h1 k rfl
          have hrE := h2 q hq r hqr
          rcases h with h | ⟨q', hq', h'⟩
          · omega
          · have := hle q' hq' E h'; omega

/-- The greatest exponent, by the sizes of the products. -/
theorem maxExp_of_bounds {ps : List FVal} (hfin : ∀ p ∈ ps, ∃ n m e, p = .fin n m e) {E : Int}
    (hlo : ∃ p ∈ ps, (2 : ℚ) ^ E ≤ |p.rat|) (hhi : ∀ p ∈ ps, |p.rat| < (2 : ℚ) ^ (E + 1)) : maxExp ps = some E := by
  refine maxExp_eq_some_iff.2 ⟨?_, fun p hp k hk => ?_⟩
  · obtain ⟨p, hp, h⟩ := hlo
    exact ⟨p, hp, (topExp_eq_iff (hfin p hp)).2 ⟨h, hhi p hp⟩⟩
  · have h := ((topExp_eq_iff (hfin p hp)).1 hk).1.trans_lt (hhi p hp)
    have := (zpow_lt_zpow_iff_right₀ (by norm_num : (1 : ℚ) < 2)).1 h
    omega

/-- A product truncated toward zero to a multiple of q. -/
def truncTerm (q : ℚ) (v : ℚ) : ℚ := (if v < 0 then -1 else 1) * (⌊|v| / q⌋ : ℚ) * q

/-- Truncation is the floor of the magnitude. -/
theorem roundAt_rtz_floor (n : Bool) (m : Nat) (e q : Int) :
    (((roundAt .rtz n m e q).1 : ℤ) = ⌊(m : ℚ) * (2 : ℚ) ^ (e - q)⌋) ∧
      ((roundAt .rtz n m e q).2 = true ↔ ((roundAt .rtz n m e q).1 : ℚ) ≠ m * (2 : ℚ) ^ (e - q)) := by
  have h := roundAt_rounded .rtz n m e q
  have hcast : (m : ℝ) * (2 : ℝ) ^ (e - q) = ((m * (2 : ℚ) ^ (e - q) : ℚ) : ℝ) := by push_cast; rfl
  rw [hcast] at h
  refine ⟨?_, by rw [h.inexact_iff, not_iff_not]; exact_mod_cast Iff.rfl⟩
  rcases h with ⟨-, hx⟩ | ⟨-, lo, h1, h2, h3⟩
  · have : (m : ℚ) * (2 : ℚ) ^ (e - q) = (roundAt .rtz n m e q).1 := by exact_mod_cast hx
    rw [this, Int.floor_natCast]
  · rcases h3 with ⟨-, h3⟩ | ⟨h3, -⟩
    · exact h3.elim
    · rw [h3]
      symm
      rw [Int.floor_eq_iff]
      exact ⟨by exact_mod_cast h1.le, by exact_mod_cast h2⟩

/-- A term of the sum is the truncated product, and a bit is lost where they differ. -/
theorem windowTerm_fin (q : Int) (n : Bool) (m : Nat) (e : Int) :
    ((windowTerm q (.fin n m e)).1 : ℚ) * (2 : ℚ) ^ q = truncTerm ((2 : ℚ) ^ q) (Claims.ratOf n m e) ∧
      ((windowTerm q (.fin n m e)).2 = true ↔ truncTerm ((2 : ℚ) ^ q) (Claims.ratOf n m e) ≠ Claims.ratOf n m e) := by
  obtain ⟨hfl, hlost⟩ := roundAt_rtz_floor n m e q
  have hpos : (0 : ℚ) < (2 : ℚ) ^ q := by positivity
  have hdiv : |Claims.ratOf n m e| / (2 : ℚ) ^ q = m * (2 : ℚ) ^ (e - q) := by
    rw [abs_ratOf, zpow_sub₀ (by norm_num), mul_div_assoc]
  have hsign : (if Claims.ratOf n m e < 0 then (-1 : ℚ) else 1) * ((roundAt .rtz n m e q).1 : ℚ) = (signed n (roundAt .rtz n m e q).1 : ℚ) := by
    by_cases hm : m = 0
    · have h0 : (roundAt .rtz n m e q).1 = 0 := by
        have : ((roundAt .rtz n m e q).1 : ℤ) = 0 := by rw [hfl, hm]; simp
        exact_mod_cast this
      rw [h0]; cases n <;> simp [signed]
    · have hp : (0 : ℚ) < m * (2 : ℚ) ^ e := mul_pos (by exact_mod_cast Nat.pos_of_ne_zero hm) (by positivity)
      cases n
      · rw [if_neg (by simp [Claims.ratOf]; positivity)]; simp [signed]
      · rw [if_pos (by simp only [Claims.ratOf, if_true]; linarith)]; simp [signed]
  have hfl' : ((⌊|Claims.ratOf n m e| / (2 : ℚ) ^ q⌋ : ℤ) : ℚ) = (roundAt .rtz n m e q).1 := by
    rw [hdiv, ← hfl]; simp
  have ht : truncTerm ((2 : ℚ) ^ q) (Claims.ratOf n m e) = (signed n (roundAt .rtz n m e q).1 : ℚ) * (2 : ℚ) ^ q := by
    rw [truncTerm, hfl', hsign]
  refine ⟨ht.symm, ?_⟩
  show (roundAt .rtz n m e q).2 = true ↔ _
  rw [hlost, ht, not_iff_not, ratOf_eq]
  have hm : (m : ℚ) * (2 : ℚ) ^ e = m * (2 : ℚ) ^ (e - q) * (2 : ℚ) ^ q := by
    rw [mul_assoc, ← zpow_add₀ (by norm_num), Int.sub_add_cancel]
  have hs : (signed n m : ℚ) * (2 : ℚ) ^ e = (if n = true then -1 else 1) * (m * (2 : ℚ) ^ (e - q)) * (2 : ℚ) ^ q := by
    rw [mul_assoc _ (_ * _), ← hm]; cases n <;> simp [signed]
  rw [hs, mul_left_inj' hpos.ne']
  cases n <;> simp [signed]

theorem windowTerms_eq (q : Int) {ps : List FVal} (hfin : ∀ p ∈ ps, ∃ n m e, p = .fin n m e) :
    ((windowTerms q ps).1 : ℚ) * (2 : ℚ) ^ q = (ps.map fun p => truncTerm ((2 : ℚ) ^ q) p.rat).sum ∧
      ((windowTerms q ps).2 = true ↔ ∃ p ∈ ps, truncTerm ((2 : ℚ) ^ q) p.rat ≠ p.rat) := by
  induction ps with
  | nil => simp [windowTerms]
  | cons p ps ih =>
    obtain ⟨ih1, ih2⟩ := ih fun p hp => hfin p (List.mem_cons_of_mem _ hp)
    obtain ⟨n, m, e, rfl⟩ := hfin p List.mem_cons_self
    obtain ⟨h1, h2⟩ := windowTerm_fin q n m e
    constructor
    · simp only [windowTerms, List.map_cons, List.sum_cons, ← ih1, FVal.rat_fin, ← h1]; push_cast; ring
    · simp only [windowTerms, Bool.or_eq_true, h2, ih2, List.exists_mem_cons_iff, FVal.rat_fin]

theorem FVal.any_isNan_iff {ps : List FVal} : ps.any FVal.isNan = true ↔ ∃ s, FVal.nan s ∈ ps := by
  rw [List.any_eq_true]
  constructor
  · rintro ⟨p, hp, h⟩
    cases p with
    | nan s => exact ⟨s, hp⟩
    | inf n => cases h
    | fin n m e => cases h
  · rintro ⟨s, hs⟩; exact ⟨_, hs, rfl⟩

/-- The windowed sum by the values that it meets: NaNs, infinities, and finite numbers. -/
theorem windowSum_eq (ps : List FVal) (w : Nat) :
    windowSum ps w =
      let pinf := ps.contains (.inf false)
      let ninf := ps.contains (.inf true)
      if ps.any FVal.isNan then (.nan, false, { nv := pinf && ninf })
      else if pinf && ninf then (.nan, false, { nv := true })
      else if pinf || ninf then (.inf ninf, false, {})
      else match maxExp ps with
        | none => (.fin (!ps.isEmpty && ps.all fun p => match p with | .fin n _ _ => n | _ => false) 0 0, false, {})
        | some e =>
          let r := windowTerms (e - (w : Int) + 1) ps
          (.fin (r.1 < 0) r.1.natAbs (e - (w : Int) + 1), r.2, {}) := by
  unfold windowSum
  simp only [List.any_beq', Flags.invalid] <;> rfl

theorem windowSum_of_nan {ps : List FVal} (w : Nat)
    (h : (∃ s, FVal.nan s ∈ ps) ∨ (ps.contains (.inf false) && ps.contains (.inf true)) = true) :
    windowSum ps w = (.nan, false, { nv := ps.contains (.inf false) && ps.contains (.inf true) }) := by
  rw [windowSum_eq]
  dsimp only
  by_cases hn : ps.any FVal.isNan = true
  · rw [if_pos hn]
  · have hb := h.resolve_left (mt FVal.any_isNan_iff.2 hn)
    rw [if_neg hn, if_pos hb, hb]

theorem windowSum_of_inf {ps : List FVal} (w : Nat) {n : Bool} (hnan : ¬∃ s, FVal.nan s ∈ ps)
    (hboth : (ps.contains (.inf false) && ps.contains (.inf true)) = false) (h : FVal.inf n ∈ ps) :
    windowSum ps w = (.inf n, false, {}) := by
  rw [windowSum_eq]
  dsimp only
  rw [if_neg (mt FVal.any_isNan_iff.1 hnan), if_neg (by rw [hboth]; exact Bool.false_ne_true)]
  have hc := List.contains_iff_mem.2 h
  cases n
  · rw [hc, Bool.true_and] at hboth
    rw [hc, hboth]; rfl
  · rw [hc]; simp

/-- A sum of finite products, by their greatest exponent. -/
theorem windowSum_of_fin {ps : List FVal} (w : Nat) (hnan : ¬∃ s, FVal.nan s ∈ ps) (hinf : ∀ n, FVal.inf n ∉ ps) :
    windowSum ps w = match maxExp ps with
      | none => (.fin (!ps.isEmpty && ps.all fun p => match p with | .fin n _ _ => n | _ => false) 0 0, false, {})
      | some e =>
        let r := windowTerms (e - (w : Int) + 1) ps
        (.fin (r.1 < 0) r.1.natAbs (e - (w : Int) + 1), r.2, {}) := by
  have hc (n : Bool) : ps.contains (.inf n) = false := by rw [Bool.eq_false_iff]; exact mt List.contains_iff_mem.1 (hinf n)
  rw [windowSum_eq]
  simp only [hc, if_neg (mt FVal.any_isNan_iff.1 hnan), Bool.and_self, Bool.or_self, Bool.false_eq_true, if_false]

theorem FVal.fin_of_not {ps : List FVal} (hnan : ¬∃ s, FVal.nan s ∈ ps) (hinf : ∀ n, FVal.inf n ∉ ps) :
    ∀ p ∈ ps, ∃ n m e, p = .fin n m e := by
  intro p hp
  cases p with
  | nan s => exact absurd ⟨s, hp⟩ hnan
  | inf n => exact absurd hp (hinf n)
  | fin n m e => exact ⟨n, m, e, rfl⟩

/-- Products that are all zero. -/
theorem windowSum_of_zeros {ps : List FVal} (w : Nat) (hnan : ¬∃ s, FVal.nan s ∈ ps) (hinf : ∀ n, FVal.inf n ∉ ps)
    (h0 : ∀ p ∈ ps, p.rat = 0) : ∃ n e, windowSum ps w = (.fin n 0 e, false, {}) ∧
      (n = true ↔ ps ≠ [] ∧ ∀ p ∈ ps, ∃ e, p = .fin true 0 e) := by
  have hfin := FVal.fin_of_not hnan hinf
  have hmax := maxExp_eq_none_iff.2 fun p hp => (topExp_eq_none_iff (hfin p hp)).2 (h0 p hp)
  have hsum := windowSum_of_fin w hnan hinf
  rw [hmax] at hsum
  refine ⟨_, _, hsum, ?_⟩
  rw [Bool.and_eq_true, List.all_eq_true, Bool.not_eq_true', List.isEmpty_eq_false_iff]
  refine and_congr_right fun _ => forall₂_congr fun p hp => ?_
  obtain ⟨n, m, e, rfl⟩ := hfin p hp
  have hm := ratOf_eq_zero.1 (h0 _ hp)
  simp [hm]

/-- Products that are not all zero: the sum of the truncated terms. -/
theorem windowSum_of_terms {ps : List FVal} (w : Nat) (hnan : ¬∃ s, FVal.nan s ∈ ps) (hinf : ∀ n, FVal.inf n ∉ ps) {E : ℤ}
    (hlo : ∃ p ∈ ps, (2 : ℚ) ^ E ≤ |p.rat|) (hhi : ∀ p ∈ ps, |p.rat| < (2 : ℚ) ^ (E + 1)) :
    let q : ℚ := (2 : ℚ) ^ (E - (w : ℤ) + 1)
    ∃ n m e lost, windowSum ps w = (.fin n m e, lost, {}) ∧ Claims.ratOf n m e = (ps.map fun p => truncTerm q p.rat).sum ∧
      ((ps.map fun p => truncTerm q p.rat).sum = 0 → n = false) ∧ (lost = true ↔ ∃ p ∈ ps, truncTerm q p.rat ≠ p.rat) := by
  have hfin := FVal.fin_of_not hnan hinf
  have hsum := windowSum_of_fin w hnan hinf
  rw [maxExp_of_bounds hfin hlo hhi] at hsum
  obtain ⟨h1, h2⟩ := windowTerms_eq (E - (w : ℤ) + 1) hfin
  refine ⟨_, _, _, _, hsum, ?_, fun h0 => ?_, h2⟩
  · rw [ratOf_eq, signed_natAbs, h1]
  · rw [← h1, mul_eq_zero, or_iff_left (by positivity)] at h0
    have : (windowTerms (E - (w : ℤ) + 1) ps).1 = 0 := by exact_mod_cast h0
    simp [this]

/-! ### Windowed sums as results (R60, R62, R168) -/

theorem Fmt.roundFin_ls (f : Fmt) (mode : RMode) (sat neg : Bool) (m : Nat) (e : Int) : (f.roundFin mode sat neg m e).2.ls = false := by
  unfold Fmt.roundFin
  split
  · rfl
  · dsimp only; split <;> rfl

theorem Fmt.round_ls (f : Fmt) (mode : RMode) (sat : Bool) (x : Exact) : (f.round mode sat x).2.ls = false := by
  cases x with
  | nan => rfl
  | inf n => rw [Fmt.round]; split <;> rfl
  | fin n m e => exact f.roundFin_ls ..

/-- Flags that hold nothing but NV, joined. -/
theorem foldl_or_nv {l : List (FVal × Flags)} (h : ∀ x ∈ l, x.2 = { nv := x.2.nv }) (f : Flags) :
    l.foldl (fun a p => a.or p.2) f = { f with nv := f.nv || l.any fun x => x.2.nv } := by
  induction l generalizing f with
  | nil => simp
  | cons p ps ih =>
    rw [List.foldl_cons, ih fun x hx => h x (List.mem_cons_of_mem _ hx), h p List.mem_cons_self]
    simp [Flags.or, Bool.or_assoc]

theorem windowSum_flags (ps : List FVal) (w : Nat) : (windowSum ps w).2.2 = { nv := (windowSum ps w).2.2.nv } := by
  rw [windowSum_eq]
  dsimp only
  split
  · rfl
  split
  · rfl
  split
  · rfl
  · cases maxExp ps <;> rfl

/-- A windowed sum is rounded once with RNE; its flags are those of the sum, of the rounding and of the terms. -/
theorem windowed_eq {terms : List (FVal × Flags)} (h : ∀ x ∈ terms, x.2 = { nv := x.2.nv }) (w : Nat) (rt : ElemTy) :
    let s := windowSum (terms.map Prod.fst) w
    let r := (fmtOf rt).round .rne false s.1
    windowed terms w rt = (r.1, s.2.1, { r.2 with nv := r.2.nv || s.2.2.nv || terms.any (fun x => x.2.nv), ls := s.2.1 }) := by
  intro s r
  have hls : r.2.ls = false := Fmt.round_ls ..
  have hs : s.2.2 = { nv := s.2.2.nv } := windowSum_flags ..
  unfold windowed
  dsimp only
  rw [foldl_or_nv h]
  show (r.1, s.2.1, _) = _
  simp only [Prod.mk.injEq, true_and]
  show Flags.mk _ _ _ _ _ _ = Flags.mk _ _ _ _ _ _
  simp only [show (windowSum (List.map Prod.fst terms) w) = s from rfl, show (fmtOf rt).round .rne false s.1 = r from rfl]
  rw [hs]
  simp [Flags.or, hls, Bool.or_comm s.2.2.nv]

theorem ratOf_mul (an bn : Bool) (am bm : Nat) (ae be k : Int) :
    Claims.ratOf (an != bn) (am * bm) (ae + be + k) = Claims.ratOf an am ae * Claims.ratOf bn bm be * (2 : ℚ) ^ k := by
  rw [Claims.ratOf, zpow_add₀ (by norm_num), zpow_add₀ (by norm_num)]
  cases an <;> cases bn <;> simp [Claims.ratOf] <;> ring

theorem windowedResults : Claims.WindowedResults := by
  refine ⟨fun ps w _ => ?_, fun terms w rt _ hnv => ?_, fun an bn am bm ae be xa xb => ?_, by decide⟩
  · intro nan both val
    refine ⟨windowSum_of_nan w, fun n hnan hboth h => windowSum_of_inf w hnan hboth h, fun hnan hinf => ⟨windowSum_of_zeros w hnan hinf, fun E hlo hhi => ?_⟩⟩
    exact windowSum_of_terms w hnan hinf hlo hhi
  · intro f s
    refine ⟨_, windowed_eq hnv w rt, ?_⟩
    have hp := fmtOf_proper rt
    show match s.1 with
      | .nan => f.round .rne false s.1 = (f.nanBits, {})
      | .inf n => Claims.infinityIn f false n (f.round .rne false s.1)
      | .fin n m e => (m = 0 → (f.round .rne false s.1).2 = {} ∧ ∃ k, f.decode (f.round .rne false s.1).1 = .fin n 0 k) ∧
        (m ≠ 0 → Claims.rounded f .rne false n (Claims.ratOf n m e) (f.round .rne false s.1))
    cases s.1 with
    | nan => rfl
    | inf n => exact hp.infinityIn_round .rne false n
    | fin n m e =>
      refine ⟨?_, fun hm => ?_⟩
      · rintro rfl; exact ⟨rfl, hp.decode_zero n⟩
      · rw [ratOf_cast]; exact hp.rounded_roundFin .rne false n hm e
  · intro p
    constructor
    · intro ha hb
      refine ⟨am * bm, ae + be + ((xa : ℤ) - 127 + ((xb : ℤ) - 127)), ?_, ratOf_mul ..⟩
      simp [p, scaledProduct, ha, hb, mulVal, FVal.scale]
    · rintro (⟨rfl, hm⟩ | ⟨rfl, hm⟩) <;> simp [p, scaledProduct, FVal.isZero, FVal.isNan, hm]

/-- Settles O37: the lanes from the rule of vector writes, and a windowed sum from the floor of each product's magnitude. -/
theorem crossLaneOperations : Obligations.CrossLaneOperations := ⟨vectorPermutations, reductions, windowedResults⟩

end Sys2Proof.Machine

/-! SUPPORT. A state whose map of cores holds one number twice, and what the load of an image does to its matrix queue (R172, R274). -/

namespace Sys2Proof.Machine

/-! ### A load of an image that overwrites a core (R268, R274) -/

/-- An `mwld` whose image ends with the first line of device memory; no translation holds the bytes before it. -/
def lineLoad : MCmd :=
  { id := 0, ts := 0, instr := .mwld ⟨false, 0⟩ .bf16 0 0 (.dense 0 (.short 0)), pc := 0, a := 32768,
    pages := [(1, { space := .dev, addr := 0 })] }

/-- A fold of that line, which is not announced yet. -/
def lineFold : Fold := { ts := 0, line := 0, loc := { space := .dev, addr := 0 }, scope := 3, fn := .add, et := .u64, ops := [] }

/-- The record of a core with the load and one more command in its queue; the map of cores holds a second record under the same
number, with the fold and no command. `core 0` is the first. -/
def twoRecords : State :=
  { picks := [0], cores := [(0, { mq := [lineLoad, { lineLoad with id := 1 }] }), (0, { folds := [lineFold] })] }

/-- The commands that the queue of core 0 holds after a step. -/
def queueLength : Out → Nat
  | .next t => (t.core 0).mq.length
  | _ => 0

/-- The home of the line goes through every record with a fold (R274) and stores what it holds under its number: the second record takes
the place of the first, and the command behind the load is gone. -/
theorem queueLength_twoRecords : queueLength (exec (.matrixCommandStart 0) twoRecords) = 1 := by decide

/-- Refutes O50: the statement is about every state, also one whose map of cores holds a number twice (`twoRecords`). There the reading
of an image through a line that has folds replaces the core's record by its second one, and what an `mwld` leaves in the queue is
not a head before the commands that stood behind it. A map that holds each number once gives no such step. -/
theorem not_matrixCommands : ¬ Obligations.MatrixCommands := by
  intro h
  obtain ⟨hrun, -⟩ := h
  obtain ⟨-, hrest⟩ := hrun twoRecords 0 lineLoad [{ lineLoad with id := 1 }] (by decide) rfl rfl rfl rfl rfl rfl rfl rfl rfl
  obtain ⟨-, -, -, -, -, -, -, hmwld, -⟩ := hrest (by decide)
  obtain ⟨⟨t, ht, -, -, -, -, ⟨hd, hmq, -⟩, -⟩, -⟩ := hmwld _ _ _ _ _ rfl
  have hlen := queueLength_twoRecords
  rw [ht, queueLength, hmq] at hlen
  simp at hlen

end Sys2Proof.Machine

/-! SUPPORT. The fields of an instruction word: what each code table answers, what each field of a packed word holds, and what a
check of the decoder lets through (R69 to R78). -/

namespace Sys2Proof

/-! ### Register numbers and bits -/

@[simp] theorem fin5_bv5 (r : Reg) : fin5 (bv5 r) = r := rfl
@[simp] theorem bv5_fin5 (x : BitVec 5) : bv5 (fin5 x) = x := rfl
@[simp] theorem fin3_bv3 (r : Fin 8) : fin3 (bv3 r) = r := rfl
@[simp] theorem bv3_fin3 (x : BitVec 3) : bv3 (fin3 x) = x := rfl
@[simp] theorem fin2_bv2 (r : Fin 4) : fin2 (bv2 r) = r := rfl
@[simp] theorem bv2_fin2 (x : BitVec 2) : bv2 (fin2 x) = x := rfl
@[simp] theorem fin4_bv4 (r : Fin 16) : fin4 (bv4 r) = r := rfl
@[simp] theorem bv4_fin4 (x : BitVec 4) : bv4 (fin4 x) = x := rfl
@[simp] theorem fin6_bv6 (r : Fin 64) : fin6 (bv6 r) = r := rfl
@[simp] theorem bv6_fin6 (x : BitVec 6) : bv6 (fin6 x) = x := rfl
@[simp] theorem bv3_zero : bv3 0 = 0 := rfl
@[simp] theorem boolOf_zero : boolOf 0#1 = false := rfl
@[simp] theorem boolOf_one : boolOf 1#1 = true := rfl
@[simp] theorem boolOf_bitOf (b : Bool) : boolOf (bitOf b) = b := by cases b <;> rfl
@[simp] theorem bitOf_boolOf (x : BitVec 1) : bitOf (boolOf x) = x := by revert x; decide

/-! ### Code tables: a value is listed for a constructor when it is that constructor's code -/

theorem ElemTy.ofCode_iff (x : BitVec 4) (t : ElemTy) : ElemTy.ofCode x = some t ↔ x = t.code := by
  cases t <;> decide +revert
theorem RoundField.ofCode_iff (x : BitVec 3) (t : RoundField) : RoundField.ofCode x = some t ↔ x = t.code := by
  cases t <;> decide +revert
theorem Hint.ofCode_iff (x : BitVec 2) (t : Hint) : Hint.ofCode x = some t ↔ x = t.code := by
  cases t <;> decide +revert
theorem Scope.ofCode_iff (x : BitVec 3) (t : Scope) : Scope.ofCode x = some t ↔ x = t.code := by
  cases t <;> decide +revert
theorem Cond.ofCode_iff (x : BitVec 6) (t : Cond) : Cond.ofCode x = some t ↔ x = t.code := by
  cases t <;> decide +revert
theorem VCond.ofCode_iff (x : BitVec 4) (t : VCond) : VCond.ofCode x = some t ↔ x = t.code := by
  cases t <;> decide +revert
theorem LogFn.ofCode_iff (x : BitVec 6) (t : LogFn) : LogFn.ofCode x = some t ↔ x = t.code := by
  cases t <;> decide +revert
theorem ExtWidth.ofCode_iff (x : BitVec 3) (t : ExtWidth) : ExtWidth.ofCode x = some t ↔ x = t.code := by
  cases t <;> decide +revert
theorem LdSize.ofCode_iff (x : BitVec 3) (t : LdSize) : LdSize.ofCode x = some t ↔ x = t.code := by
  cases t <;> decide +revert
theorem StSize.ofCode_iff (x : BitVec 3) (t : StSize) : StSize.ofCode x = some t ↔ x = t.code := by
  cases t <;> decide +revert
theorem VSize.ofCode_iff (x : BitVec 3) (t : VSize) : VSize.ofCode x = some t ↔ x = t.code := by
  cases t <;> decide +revert
theorem AmoFn.ofCode_iff (x : BitVec 4) (t : AmoFn) : AmoFn.ofCode x = some t ↔ x = t.code := by
  cases t <;> decide +revert
theorem FoldFn.ofCode_iff (x : BitVec 4) (t : FoldFn) : FoldFn.ofCode x = some t ↔ x = t.code := by
  cases t <;> decide +revert
theorem RedOp.ofCode_iff (x : BitVec 2) (t : RedOp) : RedOp.ofCode x = some t ↔ x = t.code := by
  cases t <;> decide +revert
theorem MFmt.ofCode_iff (x : BitVec 4) (t : MFmt) : MFmt.ofCode x = some t ↔ x = t.code := by
  cases t <;> decide +revert
theorem TileFmt.ofCode_iff (x : BitVec 3) (t : TileFmt) : TileFmt.ofCode x = some t ↔ x = t.code := by
  cases t <;> decide +revert
theorem TileFmt.ofEtCode_iff (x : BitVec 4) (t : TileFmt) : TileFmt.ofEtCode x = some t ↔ x = t.etCode := by
  cases t <;> decide +revert
theorem AccSel.ofCode_iff (x : BitVec 2) (t : AccSel) : AccSel.ofCode x = some t ↔ x = t.code := by
  cases t <;> decide +revert
theorem ScaleMode.ofCode_iff (x : BitVec 2) (t : ScaleMode) : ScaleMode.ofCode x = some t ↔ x = t.code := by
  cases t <;> decide +revert
theorem CollOp.ofCode_iff (x : BitVec 3) (t : CollOp) : CollOp.ofCode x = some t ↔ x = t.code := by
  cases t <;> decide +revert
theorem WinSel.ofBits_iff (x : BitVec 4) (t : WinSel) : WinSel.ofBits x = some t ↔ x = t.code4 := by
  cases t <;> decide +revert
theorem Fp8Ovr.ofCode_iff (x : BitVec 2) (t : Fp8Ovr) : Fp8Ovr.ofCode x = some t ↔ x = t.code := by
  cases t <;> decide +revert

/-- The codes of every table are listed in it. -/
@[simp] theorem codes_listed : (∀ t, ElemTy.ofCode t.code = some t) ∧ (∀ t, RoundField.ofCode t.code = some t) ∧
    (∀ t, Hint.ofCode t.code = some t) ∧ (∀ t, Scope.ofCode t.code = some t) ∧ (∀ t, Cond.ofCode t.code = some t) ∧
    (∀ t, VCond.ofCode t.code = some t) ∧ (∀ t, LogFn.ofCode t.code = some t) ∧ (∀ t, ExtWidth.ofCode t.code = some t) ∧
    (∀ t, LdSize.ofCode t.code = some t) ∧ (∀ t, StSize.ofCode t.code = some t) ∧ (∀ t, VSize.ofCode t.code = some t) ∧
    (∀ t, AmoFn.ofCode t.code = some t) ∧ (∀ t, FoldFn.ofCode t.code = some t) ∧ (∀ t, RedOp.ofCode t.code = some t) ∧
    (∀ t, MFmt.ofCode t.code = some t) ∧ (∀ t, TileFmt.ofCode t.code = some t) ∧ (∀ t, TileFmt.ofEtCode t.etCode = some t) ∧
    (∀ t, AccSel.ofCode t.code = some t) ∧ (∀ t, ScaleMode.ofCode t.code = some t) ∧ (∀ t, CollOp.ofCode t.code = some t) ∧
    (∀ t, WinSel.ofBits t.code4 = some t) ∧ ∀ t, Fp8Ovr.ofCode t.code = some t := by
  simp [ElemTy.ofCode_iff, RoundField.ofCode_iff, Hint.ofCode_iff, Scope.ofCode_iff, Cond.ofCode_iff, VCond.ofCode_iff,
    LogFn.ofCode_iff, ExtWidth.ofCode_iff, LdSize.ofCode_iff, StSize.ofCode_iff, VSize.ofCode_iff, AmoFn.ofCode_iff,
    FoldFn.ofCode_iff, RedOp.ofCode_iff, MFmt.ofCode_iff, TileFmt.ofCode_iff, TileFmt.ofEtCode_iff, AccSel.ofCode_iff,
    ScaleMode.ofCode_iff, CollOp.ofCode_iff, WinSel.ofBits_iff, Fp8Ovr.ofCode_iff]

/-! ### The fields of the formats (R71, R73) -/

/-- Bits whose high part is zero. -/
theorem zero_append_low {m n : Nat} {x : BitVec (m + n)} (h : x.extractLsb' n m = 0) : 0#m ++ x.extractLsb' 0 n = x := by
  rw [← show x.extractLsb' n m = 0#m from h, BitVec.extractLsb'_append_extractLsb'_eq_extractLsb' (by omega),
    BitVec.extractLsb'_eq_self]

section formats
open BitVec
variable (w3 : BitVec 3) (fn major : BitVec 6) (b a d : BitVec 5) (len : BitVec 2)

@[simp] theorem packA_fields :
    (packA w3 fn b a d major).extractLsb' 29 3 = w3 ∧ (packA w3 fn b a d major).extractLsb' 23 6 = fn ∧
    (packA w3 fn b a d major).extractLsb' 18 5 = b ∧ (packA w3 fn b a d major).extractLsb' 13 5 = a ∧
    (packA w3 fn b a d major).extractLsb' 8 5 = d ∧ (packA w3 fn b a d major).extractLsb' 2 6 = major ∧
    (packA w3 fn b a d major).extractLsb' 0 2 = 0 := by
  simp [-Nat.reduceAdd, packA, extractLsb'_append_eq_of_le, extractLsb'_append_eq_of_add_le]

@[simp] theorem packI_fields (imm : BitVec 14) :
    (packI imm a d major len).extractLsb' 18 14 = imm ∧ (packI imm a d major len).extractLsb' 13 5 = a ∧
    (packI imm a d major len).extractLsb' 8 5 = d ∧ (packI imm a d major len).extractLsb' 2 6 = major ∧
    (packI imm a d major len).extractLsb' 0 2 = len := by
  simp [-Nat.reduceAdd, packI, extractLsb'_append_eq_of_le, extractLsb'_append_eq_of_add_le]

@[simp] theorem packU_fields (imm : BitVec 19) :
    (packU imm d major len).extractLsb' 13 19 = imm ∧ (packU imm d major len).extractLsb' 8 5 = d ∧
    (packU imm d major len).extractLsb' 2 6 = major ∧ (packU imm d major len).extractLsb' 0 2 = len := by
  simp [-Nat.reduceAdd, packU, extractLsb'_append_eq_of_le, extractLsb'_append_eq_of_add_le]

@[simp] theorem packM_fields (disp : BitVec 9) (hint : BitVec 2) (size : BitVec 3) :
    (packM disp hint size a d major len).extractLsb' 23 9 = disp ∧ (packM disp hint size a d major len).extractLsb' 21 2 = hint ∧
    (packM disp hint size a d major len).extractLsb' 18 3 = size ∧ (packM disp hint size a d major len).extractLsb' 13 5 = a ∧
    (packM disp hint size a d major len).extractLsb' 8 5 = d ∧ (packM disp hint size a d major len).extractLsb' 2 6 = major ∧
    (packM disp hint size a d major len).extractLsb' 0 2 = len := by
  simp [-Nat.reduceAdd, packM, extractLsb'_append_eq_of_le, extractLsb'_append_eq_of_add_le]

@[simp] theorem packBC_fields (disp : BitVec 11) (cond : BitVec 3) :
    (packBC disp b a cond major len).extractLsb' 21 11 = disp ∧ (packBC disp b a cond major len).extractLsb' 16 5 = b ∧
    (packBC disp b a cond major len).extractLsb' 11 5 = a ∧ (packBC disp b a cond major len).extractLsb' 8 3 = cond ∧
    (packBC disp b a cond major len).extractLsb' 2 6 = major ∧ (packBC disp b a cond major len).extractLsb' 0 2 = len := by
  simp [-Nat.reduceAdd, packBC, extractLsb'_append_eq_of_le, extractLsb'_append_eq_of_add_le]

@[simp] theorem packBP_fields (disp : BitVec 20) (neg : BitVec 1) (p : BitVec 3) :
    (packBP disp neg p major len).extractLsb' 12 20 = disp ∧ (packBP disp neg p major len).extractLsb' 11 1 = neg ∧
    (packBP disp neg p major len).extractLsb' 8 3 = p ∧ (packBP disp neg p major len).extractLsb' 2 6 = major ∧
    (packBP disp neg p major len).extractLsb' 0 2 = len := by
  simp [-Nat.reduceAdd, packBP, extractLsb'_append_eq_of_le, extractLsb'_append_eq_of_add_le]

@[simp] theorem packJ_fields (disp : BitVec 24) :
    (packJ disp major len).extractLsb' 8 24 = disp ∧ (packJ disp major len).extractLsb' 2 6 = major ∧
    (packJ disp major len).extractLsb' 0 2 = len := by
  simp [-Nat.reduceAdd, packJ, extractLsb'_append_eq_of_le, extractLsb'_append_eq_of_add_le]

@[simp] theorem word0_fields (x : XF) :
    (x.word0 len).extractLsb' 31 1 = 0 ∧ (x.word0 len).extractLsb' 2 6 = x.major ∧ (x.word0 len).extractLsb' 0 2 = len := by
  simp [-Nat.reduceAdd, XF.word0, extractLsb'_append_eq_of_le, extractLsb'_append_eq_of_add_le]

/-- The words of an X instruction hold its fields. -/
@[simp] theorem ofWords_words (x : XF) (ctl : BitVec 32) : XF.ofWords (x.word0 len) x.word1 ctl = { x with ctl := ctl } := by
  simp [-Nat.reduceAdd, XF.ofWords, XF.word0, XF.word1, extractLsb'_append_eq_of_le, extractLsb'_append_eq_of_add_le]

end formats

/-! ### Control words -/

section controlWords
open BitVec

/-- Bits are zero when both of their parts are. -/
theorem extract_zero_parts {n s l l' : Nat} {x : BitVec n} (h : x.extractLsb' (s + l) l' = 0) (h' : x.extractLsb' s l = 0) :
    x.extractLsb' s (l' + l) = 0 := by
  rw [← extractLsb'_append_extractLsb'_eq_extractLsb' rfl, h, h']; simp

/-- The fields of a conversion control word (R161). -/
@[simp] theorem packCvt_fields (fp8 : BitVec 2) (sc isat : BitVec 1) (part : BitVec 3) (src : BitVec 4) :
    (packCvt fp8 sc isat part src).extractLsb' 11 21 = 0 ∧ (packCvt fp8 sc isat part src).extractLsb' 9 2 = fp8 ∧
    (packCvt fp8 sc isat part src).extractLsb' 8 1 = sc ∧ (packCvt fp8 sc isat part src).extractLsb' 7 1 = isat ∧
    (packCvt fp8 sc isat part src).extractLsb' 4 3 = part ∧ (packCvt fp8 sc isat part src).extractLsb' 0 4 = src := by
  simp [-Nat.reduceAdd, packCvt, extractLsb'_append_eq_of_le, extractLsb'_append_eq_of_add_le]

/-- The fields of a matrix control word (R180). -/
@[simp] theorem packMac_fields (zf byp sp q : BitVec 1) (n : BitVec 5) (m sc acc : BitVec 2) (slot tile win : BitVec 3)
    (bf af : BitVec 4) :
    (packMac zf byp n m sp slot tile q sc win acc bf af).extractLsb' 31 1 = zf ∧
    (packMac zf byp n m sp slot tile q sc win acc bf af).extractLsb' 30 1 = byp ∧
    (packMac zf byp n m sp slot tile q sc win acc bf af).extractLsb' 25 5 = n ∧
    (packMac zf byp n m sp slot tile q sc win acc bf af).extractLsb' 23 2 = m ∧
    (packMac zf byp n m sp slot tile q sc win acc bf af).extractLsb' 22 1 = sp ∧
    (packMac zf byp n m sp slot tile q sc win acc bf af).extractLsb' 19 3 = slot ∧
    (packMac zf byp n m sp slot tile q sc win acc bf af).extractLsb' 16 3 = tile ∧
    (packMac zf byp n m sp slot tile q sc win acc bf af).extractLsb' 15 1 = q ∧
    (packMac zf byp n m sp slot tile q sc win acc bf af).extractLsb' 13 2 = sc ∧
    (packMac zf byp n m sp slot tile q sc win acc bf af).extractLsb' 10 3 = win ∧
    (packMac zf byp n m sp slot tile q sc win acc bf af).extractLsb' 8 2 = acc ∧
    (packMac zf byp n m sp slot tile q sc win acc bf af).extractLsb' 4 4 = bf ∧
    (packMac zf byp n m sp slot tile q sc win acc bf af).extractLsb' 0 4 = af := by
  simp [-Nat.reduceAdd, packMac, extractLsb'_append_eq_of_le, extractLsb'_append_eq_of_add_le]

/-- The fields of the control word of `mwld` (R192). -/
@[simp] theorem packMwld_fields (rc sp : BitVec 1) (n : BitVec 5) (m : BitVec 2) (slot : BitVec 3) (bf : BitVec 4) :
    (packMwld rc n m sp slot bf).extractLsb' 31 1 = 0 ∧ (packMwld rc n m sp slot bf).extractLsb' 30 1 = rc ∧
    (packMwld rc n m sp slot bf).extractLsb' 25 5 = n ∧ (packMwld rc n m sp slot bf).extractLsb' 23 2 = m ∧
    (packMwld rc n m sp slot bf).extractLsb' 22 1 = sp ∧ (packMwld rc n m sp slot bf).extractLsb' 19 3 = slot ∧
    (packMwld rc n m sp slot bf).extractLsb' 4 15 = 0 ∧ (packMwld rc n m sp slot bf).extractLsb' 0 4 = bf := by
  simp [-Nat.reduceAdd, packMwld, extractLsb'_append_eq_of_le, extractLsb'_append_eq_of_add_le]

/-- The fields of the control word of a drain (R193). -/
@[simp] theorem packDrain_fields (tf tile : BitVec 3) (fp8 : BitVec 2) :
    (packDrain tf tile fp8).extractLsb' 22 10 = 0 ∧ (packDrain tf tile fp8).extractLsb' 19 3 = tf ∧
    (packDrain tf tile fp8).extractLsb' 16 3 = tile ∧ (packDrain tf tile fp8).extractLsb' 11 5 = 0 ∧
    (packDrain tf tile fp8).extractLsb' 9 2 = fp8 ∧ (packDrain tf tile fp8).extractLsb' 0 9 = 0 := by
  simp [-Nat.reduceAdd, packDrain, extractLsb'_append_eq_of_le, extractLsb'_append_eq_of_add_le]

/-- The fields of the control word of `coll` (R471). -/
@[simp] theorem packColl_fields (root : BitVec 8) (wire sc : BitVec 1) (fn : BitVec 2) (op : BitVec 3) :
    (packColl root wire sc fn op).extractLsb' 16 16 = 0 ∧ (packColl root wire sc fn op).extractLsb' 8 8 = root ∧
    (packColl root wire sc fn op).extractLsb' 7 1 = wire ∧ (packColl root wire sc fn op).extractLsb' 6 1 = sc ∧
    (packColl root wire sc fn op).extractLsb' 4 2 = fn ∧ (packColl root wire sc fn op).extractLsb' 3 1 = 0 ∧
    (packColl root wire sc fn op).extractLsb' 0 3 = op := by
  simp [-Nat.reduceAdd, packColl, extractLsb'_append_eq_of_le, extractLsb'_append_eq_of_add_le]

/-- The bits that `vq8` leaves zero (R163). -/
@[simp] theorem packCvt_quant (fp8 : BitVec 2) (src : BitVec 4) : (packCvt fp8 0#1 0#1 0#3 src).extractLsb' 4 5 = 0 :=
  extract_zero_parts (l := 3) (l' := 2) (extract_zero_parts (l := 1) (l' := 1) (by simp) (by simp)) (by simp)

/-- The bits that `vdq8` leaves zero (R164). -/
@[simp] theorem packCvt_dequant (part : BitVec 3) (src : BitVec 4) : (packCvt 0#2 0#1 0#1 part src).extractLsb' 7 4 = 0 :=
  extract_zero_parts (l := 1) (l' := 3) (extract_zero_parts (l := 1) (l' := 2) (by simp) (by simp)) (by simp)

/-- The sparse fields of an `mmac` (R186). -/
@[simp] theorem packMac_dense (zf byp q : BitVec 1) (sc acc : BitVec 2) (slot tile win : BitVec 3) (bf af : BitVec 4) :
    (packMac zf byp 0#5 0#2 0#1 slot tile q sc win acc bf af).extractLsb' 22 8 = 0 :=
  extract_zero_parts (l := 1) (l' := 7) (extract_zero_parts (l := 2) (l' := 5) (by simp) (by simp)) (by simp)

/-- The sparsity of a dense `mwld` (R192). -/
@[simp] theorem packMwld_dense (rc sp : BitVec 1) (slot : BitVec 3) (bf : BitVec 4) :
    (packMwld rc 0#5 0#2 sp slot bf).extractLsb' 23 7 = 0 :=
  extract_zero_parts (l := 2) (l' := 5) (by simp) (by simp)

@[simp] theorem toNat_bv33_le (n : Fin 33) : (bv33 n).toNat ≤ 32 := by revert n; decide
@[simp] theorem fin33_bv33 (n : Fin 33) : fin33 (bv33 n) = n := by revert n; decide

end controlWords

/-! ### Checks (R70, R72, R75, R83) -/

/-- The literal of an immediate. -/
def Imm.literal? {n : Nat} : Imm n → Option Word
  | .short _ => none
  | .lit v => some v

/-- An accepted instruction is a well-formed one. -/
theorem accept_wf {i : Instr} (h : i.wf = true) : accept i = .ok i := by simp [accept, chk, h]

@[simp] theorem chk_true (e : DecodeError) (r : DecodeResult) : chk true e r = r := rfl
@[simp] theorem coded_some {α : Type} (x : α) (k : α → DecodeResult) : coded (some x) k = k x := rfl
@[simp] theorem noLit_none (r : DecodeResult) : noLit none r = r := rfl
@[simp] theorem low3_reg3 (r : Fin 8) (k : Fin 8 → DecodeResult) : low3 (reg3 r) k = k r := by
  simp [-Nat.reduceAdd, low3, reg3, BitVec.extractLsb'_append_eq_of_le, BitVec.extractLsb'_append_eq_of_add_le]

/-- The field of an immediate and its literal give the immediate back. -/
@[simp] theorem withImm_field {n : Nat} (i : Imm n) (k : Imm n → DecodeResult) : withImm i.field i.literal? k = k i := by
  cases i <;> simp [withImm, Imm.field, Imm.literal?]

/-- A control word is its n lowest bits when the bits above them are zero. -/
theorem eq_setWidth_iff {n : Nat} (x : BitVec 32) : x = (x.extractLsb' 0 n).setWidth 32 ↔ x.extractLsb' n (32 - n) = 0 := by
  constructor
  · intro h
    refine BitVec.eq_of_getLsbD_eq fun i _ => ?_
    rw [h]
    simp
  · intro h
    refine BitVec.eq_of_getLsbD_eq fun i hi => ?_
    by_cases hin : i < n
    · simp [hin, hi]
    · have hbit : x.getLsbD (n + (i - n)) = false := by
        have := congrArg (·.getLsbD (i - n)) h
        simpa [show i - n < 32 - n by omega] using this
      simpa [hin, show n + (i - n) = i by omega] using hbit

/-- Control words with only low bits in use. -/
@[simp] theorem ctlLow_eq (n : Nat) (x : BitVec 32) (k : BitVec n → DecodeResult) :
    ctlLow n x k = chk (x.extractLsb' n (32 - n) == 0) .mustBeZero (k (x.extractLsb' 0 n)) := by
  rw [ctlLow, Bool.eq_iff_iff.2 ((beq_iff_eq.trans (eq_setWidth_iff x)).trans beq_iff_eq.symm)]

/-! ### X instructions (R73 to R75) -/

@[simp] theorem xf_fields (major : BitVec 6) (fn : BitVec 8) (g : Guard) : xf major fn g =
    { b := 0, a := 0, d := 0, fn := fn, major := major, imm := 0, et := 0, rm := 0, k := 0, pn := bitOf g.pn, p := bv3 g.p,
      c := 0, ctl := 0 } := rfl

section fields
variable (b a d c : BitVec 5) (fn : BitVec 8) (major : BitVec 6) (imm : BitVec 13) (et : BitVec 4) (rm k p : BitVec 3)
  (pn : BitVec 1) (ctl : BitVec 32)

@[simp] theorem XF_registers : (XF.mk b a d fn major imm et rm k pn p c ctl).D = fin5 d ∧
    (XF.mk b a d fn major imm et rm k pn p c ctl).A = fin5 a ∧ (XF.mk b a d fn major imm et rm k pn p c ctl).B = fin5 b ∧
    (XF.mk b a d fn major imm et rm k pn p c ctl).C = fin5 c ∧ (XF.mk b a d fn major imm et rm k pn p c ctl).K = fin3 k :=
  ⟨rfl, rfl, rfl, rfl, rfl⟩

@[simp] theorem guard_fields (g : Guard) : (XF.mk b a d fn major imm et rm k (bitOf g.pn) (bv3 g.p) c ctl).guard = g := by
  simp [XF.guard]
end fields

/-! ### Words in a row (R69) -/

theorem decodeWords_base {n : Nat} {w : IWord} {i : Imm n} (h : w.extractLsb' 0 2 = i.baseLen) (rest : List IWord) :
    decodeWords (w :: i.words ++ rest) = decodeBase w i.literal? := by
  cases i <;> simp [decodeWords, h, Imm.words, Imm.baseLen, Imm.literal?, -Nat.reduceAdd]

theorem decodeWords_word {w : IWord} (h : w.extractLsb' 0 2 = 0) (rest : List IWord) :
    decodeWords (w :: rest) = decodeBase w none := by
  simp [decodeWords, h]

theorem decode_encXI {x : XF} (hm : isXMajor x.major.toNat = true) (i : Imm 13) (rest : List IWord) :
    decodeWords (encXI x i ++ rest) = decodeXF { x with imm := i.field } i.literal? := by
  cases i <;> simp [-Nat.reduceAdd, encXI, decodeWords, Imm.xLen, Imm.words, Imm.literal?, decodeX, hm]

theorem decode_encX {x : XF} (hm : isXMajor x.major.toNat = true) (rest : List IWord) :
    decodeWords (encX x ++ rest) = decodeXF x none := by
  simp [-Nat.reduceAdd, encX, decodeWords, decodeX, hm]

end Sys2Proof

/-! SUPPORT. What decodes after it was encoded, and the words of the spec (O1 to O3): one lemma for each major of format A, then the case split over the
instructions, each group by the decoder of its major. -/

namespace Sys2Proof.Machine

/-! ### Format A -/

section formatA
variable (w3 : BitVec 3) (fn : BitVec 6) (d a b : BitVec 5) (rest : List IWord)

theorem decode_encA (major : BitVec 6) : decodeWords (encA major fn w3 d a b ++ rest) = decodeBase (packA w3 fn b a d major) none :=
  decodeWords_word (by simp) rest

@[simp] theorem withA_packA (major : BitVec 6) (k : BitVec 3 → BitVec 6 → BitVec 5 → BitVec 5 → BitVec 5 → DecodeResult) :
    withA (packA w3 fn b a d major) none k = k w3 fn b a d := by
  simp [withA]

theorem decode_encA_system : decodeWords (encA 0x00 fn w3 d a b ++ rest) = decodeSystem w3 fn b a d := by
  simp [decode_encA, decodeBase]
theorem decode_encA_integer : decodeWords (encA 0x01 fn w3 d a b ++ rest) = decodeInteger w3 fn b a d := by
  simp [decode_encA, decodeBase]
theorem decode_encA_jumpReg : decodeWords (encA 0x11 fn w3 d a b ++ rest) = decodeJumpReg w3 fn b a d := by
  simp [decode_encA, decodeBase]
theorem decode_encA_sync : decodeWords (encA 0x19 fn w3 d a b ++ rest) = decodeSync w3 fn b a d := by
  simp [decode_encA, decodeBase]
theorem decode_encA_queue : decodeWords (encA 0x1A fn w3 d a b ++ rest) = decodeQueue w3 fn b a d := by
  simp [decode_encA, decodeBase]
theorem decode_encA_task : decodeWords (encA 0x1B fn w3 d a b ++ rest) = decodeTask w3 fn b a d := by
  simp [decode_encA, decodeBase]
theorem decode_encA_group : decodeWords (encA 0x1C fn w3 d a b ++ rest) = decodeGroup w3 fn b a d := by
  simp [decode_encA, decodeBase]
theorem decode_encA_service : decodeWords (encA 0x1D fn w3 d a b ++ rest) = decodeService w3 fn b a d := by
  simp [decode_encA, decodeBase]
theorem decode_encA_lease : decodeWords (encA 0x1E fn w3 d a b ++ rest) = decodeLease w3 fn b a d := by
  simp [decode_encA, decodeBase]

end formatA

/-- An immediate shift (R125). -/
theorem decode_shiftImm (kind : BitVec 2) (n : BitVec 6) (a d : BitVec 5) (rest : List IWord) :
    decodeWords (packI (kind ++ 0#6 ++ n) a d 6 0 :: rest) = decodeShiftImm (kind ++ 0#6 ++ n) a d :=
  (decodeWords_word (by simp) rest).trans (by simp [decodeBase, withI])

theorem shiftImm_fields (kind : BitVec 2) (n : BitVec 6) : (kind ++ 0#6 ++ n).extractLsb' 12 2 = kind ∧
    (kind ++ 0#6 ++ n).extractLsb' 6 6 = 0 ∧ (kind ++ 0#6 ++ n).extractLsb' 0 6 = n := by
  simp [-Nat.reduceAdd, BitVec.extractLsb'_append_eq_of_le, BitVec.extractLsb'_append_eq_of_add_le]

/-! ### The two round trips -/

/-- Settles O2: the fields of each base format are those that were packed, and the decoder of the major names the instruction. -/
theorem decodeEncodeBase : Obligations.DecodeEncodeBase := by
  intro i rest he hg hw
  have ha := accept_wf hw
  cases i with
  | nop | yield | trap | brk | mfsr | mtsr => exact (decode_encA_system ..).trans (by simp [decodeSystem, ha, -Nat.reduceAdd])
  | add | sub | mul | mulh | mulhu | div | divu | rem | remu | and | or | xor | andn | shl | shr | sra | rotr | min | max | minu
  | maxu | clz | ctz | popc | bfx | bfi | sel | shadd => exact (decode_encA_integer ..).trans ha
  | sext | zext => exact (decode_encA_integer ..).trans (by simp [decodeInteger, ha])
  | addi _ _ imm | andi _ _ imm | ori _ _ imm | xori _ _ imm =>
    exact (decodeWords_base (i := imm) (by simp) rest).trans (by simp [decodeBase, withI, ha])
  | shli | shri | srai => exact (decode_shiftImm ..).trans (by simp only [decodeShiftImm, shiftImm_fields]; exact ha)
  | li _ imm | addpc _ imm | addcb _ imm | bp _ _ imm | j imm | jal imm =>
    exact (decodeWords_base (i := imm) (by simp) rest).trans (by simp [decodeBase, ha])
  | cmp | pcmp | plog => exact (decode_encA ..).trans (by simp [decodeBase, ha])
  | beq _ _ imm | bne _ _ imm | blt _ _ imm | bge _ _ imm | bltu _ _ imm | bgeu _ _ imm =>
    exact (decodeWords_base (i := imm) (by simp) rest).trans (by simp [decodeBase, decodeBranch, ha])
  | jr | jalr => exact (decode_encA_jumpReg ..).trans ha
  | ld _ _ _ _ imm | st _ _ _ _ imm | vld _ _ _ _ imm | vst _ _ _ _ imm =>
    exact (decodeWords_base (i := imm) (by simp) rest).trans (by simp [decodeBase, withM, ha])
  | fence | pf => exact (decode_encA_sync ..).trans (by simp [decodeSync, ha, -Nat.reduceAdd,
      BitVec.extractLsb'_append_eq_of_le, BitVec.extractLsb'_append_eq_of_add_le])
  | cwait | fdrain | cwb => exact (decode_encA_sync ..).trans ha
  | qput | qgetQr | qgetQn => exact (decode_encA_queue ..).trans ha
  | qtryQa | qtryQr | qtryQn | qtryQf => exact (decode_encA_queue ..).trans (by simp [decodeQueue, ha])
  | spawn => exact (decode_encA_task ..).trans (by simp [decodeTask, ha, -Nat.reduceAdd,
      BitVec.extractLsb'_append_eq_of_le, BitVec.extractLsb'_append_eq_of_add_le])
  | retire | tdefer => exact (decode_encA_task ..).trans ha
  | bar | barv | bwait => exact (decode_encA_group ..).trans (by simp [decodeGroup, ha, -Nat.reduceAdd,
      BitVec.extractLsb'_append_eq_of_le, BitVec.extractLsb'_append_eq_of_add_le])
  | racq | rrel | rpeek => exact (decode_encA_group ..).trans ha
  | fget | freply => exact (decode_encA_service ..).trans ha
  | bwlease | bwrel | bwq => exact (decode_encA_lease ..).trans ha
  | amo | amof | cas | cas2 | vadd | vsub | vmul | vmulh | vmin | vmax | vabs | vneg | vand | vor | vxor | vshl | vshr | vsra
  | vfadd | vfsub | vfmul | vfma | vfms | vfnma | vfmin | vfmax | vfabs | vfneg | vfdiv | vfsqrt | vrcpe | vrsqe | vexp2 | vlog2
  | vcmp | vfcmp | vsel | vcvt | vq8 | vdq8 | vrdr | vwrr | vbcast | vins | vext | vperm | vshuf | vslide | vcompress | vexpand
  | vred | vdot | vlsig | kop | kmovToMask | kmovFromMask | kpop | mmac | mmacs | mzero | mwld | mdrain | mdrainq | mdraina
  | mstat | mclrs | mwait | vlds | vldx | vstx | vldb | cpy | cpy2d | cpyRs | cpyRd | cpyr | get | put | stmap | stwb | stinv
  | rflush | rflushAll | pub | coll => cases hg
  | _ => exact absurd rfl he

section
open BitVec

/-- A register number that is not 0 does not encode as 0. -/
theorem bv5_ne_zero {r : Reg} (h : r.val ≠ 0) : bv5 r ≠ 0#5 := fun e => h (congrArg BitVec.toNat e)

/-- Settles O3: the X words give the fields back, and the decoder of the major names the instruction. -/
theorem decodeEncodeX : Obligations.DecodeEncodeX := by
  intro i rest hg hw
  have ha := accept_wf hw
  cases i with
  | amo _ _ wide | cas _ wide =>
    cases wide <;> exact (decode_encXI rfl ..).trans (by simp [decodeXF, decodeAtomic, XF.zeros, ha, -Nat.reduceAdd,
      extractLsb'_append_eq_of_le, extractLsb'_append_eq_of_add_le])
  | amof | cas2 => exact (decode_encXI rfl ..).trans (by simp [decodeXF, decodeAtomic, XF.zeros, ha, -Nat.reduceAdd,
      extractLsb'_append_eq_of_le, extractLsb'_append_eq_of_add_le])
  | vmul | vmulh | vmin | vmax | vand | vor | vxor | vadd | vsub | vabs | vneg =>
    exact (decode_encX rfl rest).trans (by simp [decodeXF, decodeVInt, XF.zeros, encV3, encV2, ha, -Nat.reduceAdd,
      extractLsb'_append_eq_of_le, extractLsb'_append_eq_of_add_le])
  | vshl _ _ _ _ _ n | vshr _ _ _ _ _ n | vsra _ _ _ _ _ n =>
    cases n <;> exact (decode_encX rfl rest).trans (by simp [decodeXF, decodeVInt, XF.zeros, encV3, encV2, ha, -Nat.reduceAdd,
      extractLsb'_append_eq_of_le, extractLsb'_append_eq_of_add_le])
  | vfadd | vfsub | vfmul | vfma | vfms | vfnma | vfmin | vfmax | vfabs | vfneg =>
    exact (decode_encX rfl rest).trans (by simp [decodeXF, decodeVFp, XF.zeros, encV3, encV2, ha, -Nat.reduceAdd,
      extractLsb'_append_eq_of_le, extractLsb'_append_eq_of_add_le])
  | vfdiv | vfsqrt | vrcpe | vrsqe | vexp2 | vlog2 =>
    exact (decode_encX rfl rest).trans (by simp [decodeXF, decodeVDiv, XF.zeros, encV3, encV2, ha])
  | vcmp | vfcmp | vsel =>
    exact (decode_encX rfl rest).trans (by simp [decodeXF, decodeVCmp, XF.zeros, encV3, encV2, ha, -Nat.reduceAdd,
      extractLsb'_append_eq_of_le, extractLsb'_append_eq_of_add_le])
  | vcvt | vq8 | vdq8 | vrdr | vwrr =>
    exact (decode_encX rfl rest).trans (by simp [decodeXF, decodeVCvt, XF.zeros, encV2, ha, extractLsb'_extractLsb'_of_le])
  | vbcast | vins | vext | vperm | vshuf | vcompress | vexpand | vslide =>
    exact (decode_encX rfl rest).trans (by simp [decodeXF, decodeVPerm, XF.zeros, encV3, encV2, ha, -Nat.reduceAdd,
      extractLsb'_append_eq_of_le, extractLsb'_append_eq_of_add_le])
  | vred | vlsig | kop | kmovToMask | kmovFromMask | kpop =>
    exact (decode_encX rfl rest).trans (by simp [decodeXF, decodeVRed, XF.zeros, encV2, ha, -Nat.reduceAdd,
      extractLsb'_append_eq_of_le, extractLsb'_append_eq_of_add_le])
  | vdot _ _ _ _ _ _ _ c =>
    cases c <;> exact (decode_encX rfl rest).trans (by simp [decodeXF, decodeVRed, XF.zeros, encV3, encV2, ha, -Nat.reduceAdd,
      extractLsb'_append_eq_of_le, extractLsb'_append_eq_of_add_le, extractLsb'_extractLsb'_of_le])
  | mmac _ _ src | mmacs _ _ _ src =>
    cases src <;> exact (decode_encX rfl rest).trans (by simp [decodeXF, decodeMac, XF.zeros, macXF, macWord, ha, -Nat.reduceAdd,
      extractLsb'_append_eq_of_le, extractLsb'_append_eq_of_add_le])
  | mzero => exact (decode_encX rfl rest).trans (by simp [decodeXF, decodeMLoad, XF.zeros, ha, -Nat.reduceAdd,
      extractLsb'_append_eq_of_le, extractLsb'_append_eq_of_add_le])
  | mwld _ _ _ _ src =>
    cases src with
    | dense | sparse => exact (decode_encXI rfl ..).trans (by simp [decodeXF, decodeMLoad, XF.zeros, ha])
    | recDense | recSparse => exact (decode_encX rfl rest).trans (by simp [decodeXF, decodeMLoad, XF.zeros, ha])
  | mdrain => exact (decode_encXI rfl ..).trans (by simp [decodeXF, decodeMDrain, XF.zeros, ha])
  | mdraina =>
    have hc := (Bool.and_eq_true_iff.1 hw).2
    exact (decode_encXI rfl ..).trans (by simp [decodeXF, decodeMDrain, XF.zeros, ha, hc])
  | mdrainq => exact (decode_encX rfl rest).trans (by simp [decodeXF, decodeMDrain, XF.zeros, ha])
  | mstat | mclrs | mwait => exact (decode_encX rfl rest).trans (by simp [decodeXF, decodeMStat, XF.zeros, ha, -Nat.reduceAdd,
      extractLsb'_append_eq_of_le, extractLsb'_append_eq_of_add_le])
  | vlds | vldx | vstx | vldb => exact (decode_encXI rfl ..).trans (by simp [decodeXF, decodeVMem, XF.zeros, encV3, encV2, ha,
      -Nat.reduceAdd, extractLsb'_append_eq_of_le, extractLsb'_append_eq_of_add_le, extractLsb'_extractLsb'_of_le])
  | cpy _ _ _ _ l =>
    cases l with
    | imm => exact (decode_encXI rfl ..).trans (by simp [decodeXF, decodeTile, XF.zeros, withLen, ha])
    | reg c =>
      have hc : bv5 c ≠ 0#5 := bv5_ne_zero (by simpa using show (c.val != 0) = true from hw)
      exact (decode_encX rfl rest).trans (by simp [decodeXF, decodeTile, XF.zeros, withLen, ha, hc])
  | cpyr _ _ _ _ _ _ l =>
    cases l with
    | imm => exact (decode_encXI rfl ..).trans (by simp [decodeXF, decodeTile, XF.zeros, withLen, ha, -Nat.reduceAdd,
      extractLsb'_append_eq_of_le, extractLsb'_append_eq_of_add_le])
    | reg c =>
      have hc : bv5 c ≠ 0#5 := bv5_ne_zero (by simpa using show (c.val != 0) = true from (Bool.and_eq_true_iff.1 hw).2)
      exact (decode_encX rfl rest).trans (by simp [decodeXF, decodeTile, XF.zeros, withLen, ha, hc, -Nat.reduceAdd,
      extractLsb'_append_eq_of_le, extractLsb'_append_eq_of_add_le])
  | cpy2d | cpyRs | cpyRd | stmap | stwb | stinv =>
    exact (decode_encX rfl rest).trans (by simp [decodeXF, decodeTile, XF.zeros, ha, -Nat.reduceAdd,
      extractLsb'_append_eq_of_le, extractLsb'_append_eq_of_add_le])
  | get _ _ t | put _ _ t =>
    cases t <;> exact (decode_encX rfl rest).trans (by simp [decodeXF, decodeTile, PutTarget.ctl, XF.zeros, ha, -Nat.reduceAdd,
      extractLsb'_append_eq_of_le, extractLsb'_append_eq_of_add_le, extractLsb'_extractLsb'_of_le])
  | rflush | rflushAll | pub => exact (decode_encX rfl rest).trans (by simp [decodeXF, decodeCloak, XF.zeros, ha])
  | coll => exact (decode_encXI rfl ..).trans (by simp [decodeXF, decodeColl, XF.zeros, ha])
  | _ => cases hg

end

/-- Settles O1: each row of words decodes by evaluation, the last one to its error. -/
theorem decodeExamples : Obligations.DecodeExamples := by
  refine ⟨?_, ?_, ?_, ?_, ?_, ?_, ?_, ?_, ?_, ?_, ?_, ?_⟩ <;> rfl

end Sys2Proof.Machine

/-! SUPPORT. Comparisons, immediates, branches and jumps (R74, R82, R124 to R132): what a condition decides, where a branch goes, what a
false predicate leaves, and the statements that are made of them (O11, O18, O38, O39). -/

namespace Sys2Proof.Machine

/-! ### Comparisons and predicates (R82, R127, R128) -/

/-- The six conditions (R82). -/
theorem condHolds_eq (x y : Word) :
    condHolds .eq x y = decide (x = y) ∧ condHolds .ne x y = decide (x ≠ y) ∧
    condHolds .lt x y = decide (x.toInt < y.toInt) ∧ condHolds .ge x y = decide (y.toInt ≤ x.toInt) ∧
    condHolds .ltu x y = decide (x.toNat < y.toNat) ∧ condHolds .geu x y = decide (y.toNat ≤ x.toNat) := by
  refine ⟨?_, ?_, ?_, ?_, ?_, ?_⟩ <;> rw [Bool.eq_iff_iff] <;> simp [condHolds, BitVec.slt, BitVec.ult]

/-- Settles O11: each condition by its equation, each function of `plog` by its own case. -/
theorem comparisonsAndPredicates : Obligations.ComparisonsAndPredicates := by
  intro s c f d a b pd pa pb x y holds u v
  obtain ⟨heq, hne, hlt, hge, hltu, hgeu⟩ := condHolds_eq x y
  have hc : condHolds c x y = holds := by
    cases c with
    | eq => exact heq
    | ne => exact hne
    | lt => exact hlt
    | ge => exact hge
    | ltu => exact hltu
    | geu => exact hgeu
  refine ⟨?_, ?_, ?_⟩
  · rw [← hc]; rfl
  · rw [← hc]; rfl
  · cases f with
    | xor => rw [← Bool.bne_eq_xor]; rfl
    | and | or | andn | not | mov => rfl

/-! ### Immediates and addresses (R124 to R126) -/

/-- The address of the line of a byte: the mask -64 clears the six low bits (R124). -/
theorem and_neg64 (x : Word) : x &&& (-64 : BitVec 14).signExtend 64 = x >>> 6 <<< 6 := by
  have hmask : (-64 : BitVec 14).signExtend 64 = BitVec.allOnes 64 <<< 6 := by decide
  refine BitVec.eq_of_getLsbD_eq fun i hi => ?_
  rw [hmask, BitVec.getLsbD_and, BitVec.getLsbD_shiftLeft, BitVec.getLsbD_shiftLeft, BitVec.getLsbD_ushiftRight,
    BitVec.getLsbD_allOnes]
  by_cases h : i < 6
  · simp [h]
  · simp [h, hi, show 6 + (i - 6) = i by omega, show i - 6 < 64 by omega]

theorem immediateForms : Claims.ImmediateForms :=
  ⟨fun _ _ _ => ⟨rfl, rfl, rfl, rfl⟩, fun _ _ _ _ => ⟨rfl, rfl, rfl, rfl⟩, fun _ _ _ _ => ⟨rfl, rfl, rfl, rfl⟩,
    fun s d a => congrArg (fun x => wroteS s d x 4) (and_neg64 (s.me.getS a))⟩

theorem shiftAndAddressForms : Claims.ShiftAndAddressForms :=
  fun _ _ _ _ _ _ => ⟨rfl, rfl, rfl, rfl, rfl, rfl, rfl, rfl, rfl⟩

/-- Settles O38: every form is the write of its value, and the mask -64 is a pair of shifts. -/
theorem immediates : Obligations.Immediates := ⟨immediateForms, shiftAndAddressForms⟩

/-! ### Branches and jumps (R87, R129, R132) -/

/-- A branch goes on its condition. -/
theorem branch_on {n : Nat} {p : Prop} [Decidable p] {taken : Bool} (h : taken = decide p) (off : Imm n) (s : State) :
    (p → branch taken off s = .next (s.setMe (s.me.setPc (s.me.pc + branchVal off)))) ∧
      (¬p → branch taken off s = ranTo s s.me (baseLen off)) := by
  subst h
  exact ⟨fun hp => by simp [branch, hp, jumpTo], fun hp => by simp [branch, hp]; rfl⟩

theorem compareBranches : Claims.CompareBranches := by
  intro s a b off x y dest len go
  obtain ⟨heq, hne, hlt, hge, hltu, hgeu⟩ := condHolds_eq x y
  cases off <;> exact ⟨branch_on heq _ s, branch_on hne _ s, branch_on hlt _ s, branch_on hge _ s, branch_on hltu _ s,
    branch_on hgeu _ s⟩

/-- A register jump to a multiple of 4 links and goes. -/
theorem jumpReg_aligned {i : Instr} {link a : Reg} {s : State} (h : (s.me.getS a).extractLsb' 0 2 = 0) :
    jumpReg i link a s = .next (s.setMe ((s.me.setS link (s.me.pc + 4)).setPc (s.me.getS a))) := by
  simp [jumpReg, h, jumpTo]

/-- A register jump to another target posts its fault. -/
theorem jumpReg_misaligned {i : Instr} {link a : Reg} {s : State} (h : (s.me.getS a).extractLsb' 0 2 ≠ 0) :
    jumpReg i link a s = posted i { cls := 1 } s := by
  exact if_pos (bne_iff_ne.2 h)

theorem registerJumps : Claims.RegisterJumps :=
  fun _ _ _ h => ⟨jumpReg_aligned h, jumpReg_aligned h⟩

/-- Settles O39: the branches by their conditions, the jumps by the alignment of the target. -/
theorem branches : Obligations.Branches := ⟨compareBranches, registerJumps⟩

/-! ### A false predicate (R74) -/

theorem guarded_off {g : Guard} {s : State} (h : s.me.getP g.p = g.pn) (len : Nat) (k : Out) :
    guarded g len s k = .next (s.advance len) := by
  simp [guarded, h]

/-- Settles O18: every X instruction is guarded, with the length of its encoding. -/
theorem falsePredicate : Obligations.FalsePredicate := by
  intro i g s hg h
  cases i with
  | amo _ _ _ _ _ _ imm | amof _ _ _ _ _ imm | cas _ _ _ _ _ _ imm | cas2 _ _ _ _ _ imm | mdrain _ _ _ _ _ _ _ _ _ _ imm
  | mdraina _ _ _ _ _ _ imm | vlds _ _ _ _ _ _ _ imm | vldx _ _ _ _ _ _ _ _ imm | vstx _ _ _ _ _ _ _ _ imm
  | vldb _ _ _ _ _ _ imm | coll _ _ _ _ _ _ _ _ _ _ _ imm =>
    cases hg; cases imm <;> exact guarded_off h _ _
  | cpy _ _ _ _ len | cpyr _ _ _ _ _ _ len => 
    cases hg; cases len with
    | reg => exact guarded_off h _ _
    | imm n => cases n <;> exact guarded_off h _ _
  | mwld _ _ _ _ src =>
    cases hg; cases src with
    | dense _ imm | sparse _ imm => cases imm <;> exact guarded_off h _ _
    | recDense | recSparse => exact guarded_off h _ _
  | vshl _ _ _ _ _ n | vshr _ _ _ _ _ n | vsra _ _ _ _ _ n => cases hg; cases n <;> exact guarded_off h _ _
  | vadd | vsub | vmul | vmulh | vmin | vmax | vabs | vneg | vand | vor | vxor 
  | vfadd | vfsub | vfmul | vfma | vfms | vfnma | vfmin | vfmax | vfabs | vfneg | vfdiv | vfsqrt | vrcpe | vrsqe | vexp2 | vlog2
  | vcmp | vfcmp | vsel | vcvt | vq8 | vdq8 | vrdr | vwrr | vbcast | vins | vext | vperm | vshuf | vslide | vcompress | vexpand
  | vred | vdot | vlsig | kop | kmovToMask | kmovFromMask | kpop | mmac | mmacs | mzero | mdrainq 
  | mstat | mclrs | mwait | cpy2d | cpyRs | cpyRd | get | put | stmap | stwb | stinv
  | rflush | rflushAll | pub => cases hg; exact guarded_off h _ _
  | _ => cases hg
end Sys2Proof.Machine

/-! SUPPORT. What a fetch reads and where it fails, and what a core's turn runs (R69, R83, R88, R89, R144), with the statements
about them (O4, O33). -/

namespace Sys2Proof.Machine

/-! ### Fetching (R88, R89) -/

/-- An operation that stops ends what follows it. -/
theorem Op.bind_of_error {α β : Type} {x : Op α} {f : α → Op β} {s : State} {e : Stop} (h : x s = .error e) :
    (x >>= f) s = .error e := by
  change (x s >>= fun r => f r.1 r.2) = _
  rw [h]; rfl

/-- A line without poison has no bad byte. -/
theorem rawLine_get_bad {s : State} {l : Loc} (h : poisonOf s l.space = []) (o n : Nat) : ((rawLine s l).get o n).bad = [] := by
  simp [rawLine, badWords, h, LineVal.get]

theorem lineClean_ok {s : State} {l : Loc} (h : poisonOf s l.space = []) (low va n : Nat) (t : State) :
    lineClean { line := rawLine s l, low := low } va n t = .ok ((), t) := by
  simp [lineClean, rawLine_get_bad h, Op.need]; rfl

/-- The translation of a fetch keeps the location of the piece. -/
theorem translate_ok {w : Who} {k : Kind} {va n : Nat} {s s1 : State} {loc : Loc} (h : translate w k va n s = .ok (loc, s1)) :
    ∃ p, translateFrom w k va va n s = .ok (p, s1) ∧ p.loc = loc := by
  obtain ⟨p, s2, hp, he⟩ := Op.bind_ok h
  cases he
  exact ⟨p, hp, rfl⟩

/-- The line that memory holds at a piece. -/
def memoryLine (s : State) (p : Piece) : LineVal := rawLine s (backing s (lineLoc p.loc) false)

/-- The line that a fetch reads is what memory holds, or one of the values that R89 leaves open. -/
theorem fetchLine_ok {w : Who} {first va : Nat} {s s1 : State} {p : Piece} (hg : inGlobal va = true)
    (hp : translateFrom w .fetch first va 1 s = .ok (p, s1)) :
    ∃ v s2, fetchLine w first va s = .ok (v, s2) ∧
      (v.line = memoryLine s1 p ∨ v.line ∈ otherWords w (va / 64 * 64) (lineLoc p.loc) s1) := by
  simp only [fetchLine, hg, Bool.not_true, Bool.false_eq_true, if_false]
  rw [Op.bind_of_ok hp]
  split
  · exact ⟨_, _, rfl, .inl rfl⟩
  · refine ⟨_, _, rfl, ?_⟩
    split
    next x hx => exact .inr (List.mem_of_mem_filter (List.mem_of_getElem? hx))
    next => exact .inl rfl

/-- With no other value of the line, a fetch reads what memory holds. -/
theorem fetchLine_memory {w : Who} {first va : Nat} {s s1 : State} {p : Piece} (hg : inGlobal va = true)
    (hp : translateFrom w .fetch first va 1 s = .ok (p, s1))
    (ho : ∀ x ∈ otherWords w (va / 64 * 64) (lineLoc p.loc) s1, x.data = (memoryLine s1 p).data) :
    ∃ s2, fetchLine w first va s = .ok ({ line := memoryLine s1 p, low := p.low }, s2) := by
  have hnone : (otherWords w (va / 64 * 64) (lineLoc p.loc) s1).filter (fun x => x.data != (memoryLine s1 p).data) = [] :=
    List.filter_eq_nil_iff.2 fun x hx => by simp [ho x hx]
  simp only [fetchLine, hg, Bool.not_true, Bool.false_eq_true, if_false]
  rw [Op.bind_of_ok hp]
  simp only [memoryLine] at hnone
  simp only [hnone]
  exact ⟨_, rfl⟩

theorem fetchReadsMemory : Claims.FetchReadsMemory := by
  intro w pc s s1 loc hg ht l line others n
  obtain ⟨p, hp, rfl⟩ := translate_ok ht
  refine ⟨fetchLine_ok hg hp, fun ho hn hz => ?_⟩
  obtain ⟨s2, hf⟩ := fetchLine_memory hg hp ho
  refine ⟨s2, ?_⟩
  have hclean (m : Nat) : lineClean { line := memoryLine s1 p, low := p.low } pc m s2 = .ok ((), s2) :=
    lineClean_ok hz p.low pc m s2
  refine (Op.bind_of_ok hf).trans ((Op.bind_of_ok (hclean 4)).trans ((congrFun (if_pos hn) s2).trans ?_))
  exact Op.bind_of_ok (hclean n)

theorem fetchOutsideGlobalFaults : Claims.FetchOutsideGlobalFaults := by
  intro w pc s h
  have hg : inGlobal pc = false := by simpa [inGlobal] using h
  refine Op.bind_of_error ?_
  simp only [fetchLine, hg]
  exact Op.bind_of_error rfl

/-- Settles O33: a fetched line by `fetchLine_ok`, the words of a clean line that no other value covers by `fetchLine_memory`. -/
theorem fetchedWords : Obligations.FetchedWords := ⟨fetchReadsMemory, fetchOutsideGlobalFaults⟩

/-! ### A core's turn (R83, R88, R144) -/

/-- A turn that issues runs the next instruction of the slot that it chooses. -/
theorem step_issues {s s1 u : State} {c k : Nat} {held : BitVec 4} {r : List Turn} {i : Instr}
    (ht : (s.turns = .issue c :: r ∧ held = 0) ∨ s.turns = .issueHeld c held false :: r) (hv : validCore c = true)
    (hc : chooseSlot held c { s with turns := r } = some (k, s1)) (hn : nextInstr { s1 with cur := 4 * c + k } = some (i, u)) :
    step s = exec i (acquire i u) := by
  have hi : issueOn held c { s with turns := r } = some (i, acquire i u) := by
    simp only [issueOn, hv, hc, hn, Bool.not_true, Bool.false_eq_true, if_false, Option.map_some]
  obtain ⟨ht, rfl⟩ | ht := ht <;> simp only [step, nextTurn, ht, turnStep, issueStep, hi, Bool.false_eq_true, if_false]

/-- The next instruction is the one at the pc that the words make. -/
theorem nextInstr_fetched {s u : State} {ws : List IWord} (hp : s.me.part = none)
    (hf : fetchWords (s.who s.cur) s.me.pc.toNat s = .ok (ws, u)) : nextInstr s = some (instrOfWords ws, u) := by
  have h : fetchNext s = .ok (instrOfWords ws, u) := by
    rw [fetchNext, Op.bind_of_ok (a := s) rfl, Op.bind_of_ok hf]; rfl
  simp only [nextInstr, hp, h]

theorem nextInstr_faulted {s : State} {f : FaultInfo} (hp : s.me.part = none)
    (hf : fetchWords (s.who s.cur) s.me.pc.toNat s = .error (.fault f)) : nextInstr s = some (.instructionFetchFault, s) := by
  have h : fetchNext s = .error (.fault f) := by
    rw [fetchNext, Op.bind_of_ok (a := s) rfl, Op.bind_of_error hf]
  simp only [nextInstr, hp, h]

theorem nextInstr_part {s : State} {p : Part} (hp : s.me.part = some p) : nextInstr s = some (p.instr, s) := by
  simp only [nextInstr, hp]

/-- The marks of R303 move the logical clock of the thread set, and nothing else. -/
theorem acquire_cases (i : Instr) (s : State) : acquire i s = s ∨ ∃ p q, acquire i s = s.setMe { s.me with pts := p, acq := q } := by
  unfold acquire
  extract_lets t
  split
  · exact .inl rfl
  · exact .inr ⟨_, _, rfl⟩

/-- Settles O4: the four next instructions that a turn may find, each run by `step_issues`. -/
theorem stepRunsDecoded : Obligations.StepRunsDecoded := by
  refine ⟨?_, acquire_cases⟩
  intro s s1 c k held r ht hv hc s2
  refine ⟨fun hp => ⟨?_, ?_, ?_⟩, fun p hp => step_issues ht hv hc (nextInstr_part hp)⟩
  · intro ws s3 i hf hd
    have hi : instrOfWords ws = i := by simp only [instrOfWords, hd]
    exact hi ▸ step_issues ht hv hc (nextInstr_fetched hp hf)
  · intro ws s3 e hf hd i
    have hi : instrOfWords ws = i := by simp only [instrOfWords, hd]; rfl
    exact hi ▸ step_issues ht hv hc (nextInstr_fetched hp hf)
  · exact fun f hf => step_issues ht hv hc (nextInstr_faulted hp hf)
end Sys2Proof.Machine

/-! SUPPORT. The other direction of decoding (R69 to R83): what decodes is well formed and encodes to the words that were read. A calculus of
the decoder's checks, one lemma for each decoder, and the words in a row. -/

namespace Sys2Proof

/-! ### What a decoder gives -/

/-- What a decoder answers is well formed and has a property. -/
def Gives (P : Instr → Prop) (r : DecodeResult) : Prop := ∀ i, r = .ok i → i.wf = true ∧ P i

section gives
variable {P : Instr → Prop}

@[simp] theorem gives_error (e : DecodeError) : Gives P (.error e) ↔ True := by simp [Gives]

@[simp] theorem gives_chk (c : Bool) (e : DecodeError) (r : DecodeResult) : Gives P (chk c e r) ↔ (c = true → Gives P r) := by
  cases c <;> simp [chk, Gives]

@[simp] theorem gives_accept (i : Instr) : Gives P (accept i) ↔ (i.wf = true → P i) := by
  unfold accept
  rw [gives_chk]
  exact ⟨fun h hw => (h hw i rfl).2, fun h hw j hj => by cases hj; exact ⟨hw, h hw⟩⟩

@[simp] theorem gives_coded {α : Type} (o : Option α) (k : α → DecodeResult) :
    Gives P (coded o k) ↔ ∀ x, o = some x → Gives P (k x) := by
  cases o <;> simp [coded]

@[simp] theorem gives_noLit (lit : Option Word) (r : DecodeResult) : Gives P (noLit lit r) ↔ (lit = none → Gives P r) := by
  simp [noLit]

@[simp] theorem gives_withImm {n : Nat} (f : BitVec n) (lit : Option Word) (k : Imm n → DecodeResult) :
    Gives P (withImm f lit k) ↔ ∀ i : Imm n, i.field = f → i.literal? = lit → Gives P (k i) := by
  cases lit with
  | none =>
    refine ⟨fun h i hf hl => ?_, fun h => h (.short f) rfl rfl⟩
    cases i with
    | short => cases hf; exact h
    | lit => cases hl
  | some v =>
    simp only [withImm, gives_chk, beq_iff_eq]
    refine ⟨fun h i hf hl => ?_, fun h hf => h (.lit v) hf.symm rfl⟩
    cases i with
    | short => cases hl
    | lit => cases hl; exact h hf.symm

@[simp] theorem gives_low3 (x : BitVec 5) (k : Fin 8 → DecodeResult) :
    Gives P (low3 x k) ↔ ∀ r, x = reg3 r → Gives P (k r) := by
  simp only [low3, gives_chk, beq_iff_eq]
  refine ⟨fun h r hr => ?_, fun h hz => h _ ?_⟩
  · subst hr
    simpa [-Nat.reduceAdd, reg3, BitVec.extractLsb'_append_eq_of_le, BitVec.extractLsb'_append_eq_of_add_le] using h
  · exact (zero_append_low (m := 2) (n := 3) hz).symm

end gives

/-! ### Words in a row (R69) -/

/-- The words of a literal. -/
def litWords : Option Word → List IWord
  | none => []
  | some v => [v.extractLsb' 0 32, v.extractLsb' 32 32]

theorem Imm.words_eq {n : Nat} (i : Imm n) : i.words = litWords i.literal? := by cases i <;> rfl

/-- The words of an X instruction, with its literal. -/
def XF.words (x : XF) (lit : Option Word) : List IWord :=
  x.word0 (if lit.isSome = true then 3 else 2) :: x.word1 :: x.ctl :: litWords lit

theorem encX_words (x : XF) : encX x = x.words none := rfl
theorem encXI_words (x : XF) (i : Imm 13) : encXI x i = { x with imm := i.field }.words i.literal? := by cases i <;> rfl

/-! ### Format A -/

/-- The number of a code. -/
theorem exists_ofNat {w : Nat} (x : BitVec w) : ∃ n, x = BitVec.ofNat w n ∧ x.toNat = n := ⟨x.toNat, by simp, rfl⟩

section formatA
variable (w3 : BitVec 3) (fn : BitVec 6) (b a d : BitVec 5)

/-- The words of format A that an instruction without a literal encodes to. -/
def encodesA (major : BitVec 6) (i : Instr) : Prop := encode i = encA major fn w3 d a b ∧ Claims.literalOf i = none

/-- The code of an 8-bit field that lies in w3 and b. -/
theorem encA_code8 (major fn : BitVec 6) : encA major fn ((w3 ++ b).extractLsb' 5 3) d a ((w3 ++ b).extractLsb' 0 5) =
    encA major fn w3 d a b := by
  simp [-Nat.reduceAdd, BitVec.extractLsb'_append_eq_of_le, BitVec.extractLsb'_append_eq_of_add_le]

theorem decodeSystem_gives : Gives (encodesA w3 fn b a d 0x00) (decodeSystem w3 fn b a d) := by
  obtain ⟨n, rfl, hn⟩ := exists_ofNat fn
  simp only [decodeSystem, hn]
  split <;> simp only [gives_error, gives_chk, gives_accept, beq_iff_eq, Bool.and_eq_true, and_imp] <;> intros <;> subst_vars
  case h_1 | h_2 => exact ⟨rfl, rfl⟩
  all_goals exact ⟨encA_code8 .., rfl⟩

theorem decodeInteger_gives : Gives (encodesA w3 fn b a d 0x01) (decodeInteger w3 fn b a d) := by
  obtain ⟨n, rfl, hn⟩ := exists_ofNat fn
  simp only [decodeInteger, hn]
  split <;> simp only [gives_error, gives_chk, gives_accept, gives_coded, beq_iff_eq, Bool.and_eq_true, and_imp,
    ExtWidth.ofCode_iff] <;> intros <;> subst_vars <;> exact ⟨rfl, rfl⟩

theorem decodeJumpReg_gives : Gives (encodesA w3 fn b a d 0x11) (decodeJumpReg w3 fn b a d) := by
  obtain ⟨n, rfl, hn⟩ := exists_ofNat fn
  simp only [decodeJumpReg, gives_chk, Bool.and_eq_true, beq_iff_eq, and_imp, hn]
  rintro rfl rfl
  split <;> simp only [gives_error, gives_chk, gives_accept, beq_iff_eq] <;> intros <;> subst_vars <;> exact ⟨rfl, rfl⟩

theorem decodeSync_gives : Gives (encodesA w3 fn b a d 0x19) (decodeSync w3 fn b a d) := by
  obtain ⟨n, rfl, hn⟩ := exists_ofNat fn
  simp only [decodeSync, hn]
  split <;> simp only [gives_error, gives_chk, gives_accept, gives_coded, beq_iff_eq, Bool.and_eq_true, and_imp,
    Scope.ofCode_iff, Hint.ofCode_iff]
  case h_4 =>
    intro hz hb hd h hh _
    subst hb hd
    exact ⟨congrArg (fun w => encA 0x19 3 w 0 a 0) (hh ▸ zero_append_low (m := 1) (n := 2) hz), rfl⟩
  all_goals intros; subst_vars; exact ⟨rfl, rfl⟩

theorem decodeQueue_gives : Gives (encodesA w3 fn b a d 0x1A) (decodeQueue w3 fn b a d) := by
  obtain ⟨n, rfl, hn⟩ := exists_ofNat fn
  obtain ⟨k, rfl, hk⟩ := exists_ofNat w3
  simp only [decodeQueue, hn, hk]
  split <;> simp only [gives_error, gives_chk, gives_accept, gives_low3, beq_iff_eq, Bool.and_eq_true, and_imp] <;> intros <;>
    subst_vars <;> exact ⟨rfl, rfl⟩

theorem decodeTask_gives : Gives (encodesA w3 fn b a d 0x1B) (decodeTask w3 fn b a d) := by
  obtain ⟨n, rfl, hn⟩ := exists_ofNat fn
  simp only [decodeTask, hn]
  split <;> simp only [gives_error, gives_chk, gives_accept, beq_iff_eq, Bool.and_eq_true, and_imp]
  case h_1 => exact fun hz _ => ⟨congrArg (fun w => encA 0x1B 0 w d a b) (zero_append_low (m := 1) (n := 2) hz), rfl⟩
  all_goals intros; subst_vars; exact ⟨rfl, rfl⟩

theorem decodeGroup_gives : Gives (encodesA w3 fn b a d 0x1C) (decodeGroup w3 fn b a d) := by
  obtain ⟨n, rfl, hn⟩ := exists_ofNat fn
  simp only [decodeGroup, hn]
  split <;> simp only [gives_error, gives_chk, gives_accept, beq_iff_eq, Bool.and_eq_true, and_imp]
  case h_1 | h_2 | h_3 =>
    intro hz
    intros
    subst_vars
    exact ⟨congrArg (fun w => encA 0x1C _ w _ _ 0) (zero_append_low (m := 1) (n := 2) hz), rfl⟩
  all_goals intros; subst_vars; exact ⟨rfl, rfl⟩

theorem decodeService_gives : Gives (encodesA w3 fn b a d 0x1D) (decodeService w3 fn b a d) := by
  obtain ⟨n, rfl, hn⟩ := exists_ofNat fn
  simp only [decodeService, gives_chk, beq_iff_eq, hn]
  rintro rfl
  split <;> simp only [gives_error, gives_chk, gives_accept, beq_iff_eq, Bool.and_eq_true, and_imp] <;> intros <;>
    subst_vars <;> exact ⟨rfl, rfl⟩

theorem decodeLease_gives : Gives (encodesA w3 fn b a d 0x1E) (decodeLease w3 fn b a d) := by
  obtain ⟨n, rfl, hn⟩ := exists_ofNat fn
  simp only [decodeLease, gives_chk, beq_iff_eq, hn]
  rintro rfl
  split <;> simp only [gives_error, gives_chk, gives_accept, beq_iff_eq] <;> intros <;>
    subst_vars <;> exact ⟨rfl, rfl⟩

end formatA

/-! ### The other base formats -/

/-- The length field that a literal selects. -/
def baseLenOf (lit : Option Word) : BitVec 2 := if lit.isSome = true then 1 else 0

theorem Imm.baseLen_eq {n : Nat} (i : Imm n) : i.baseLen = baseLenOf i.literal? := by cases i <;> rfl

/-- The words of a base instruction with its literal. -/
def encodesB (w : IWord) (lit : Option Word) (i : Instr) : Prop := encode i = w :: litWords lit ∧ Claims.literalOf i = lit

section joined
open BitVec
variable {w : IWord} {len : BitVec 2} (h : w.extractLsb' 0 2 = len)
include h

theorem packA_joined (h0 : len = 0) : packA (w.extractLsb' 29 3) (w.extractLsb' 23 6) (w.extractLsb' 18 5) (w.extractLsb' 13 5)
    (w.extractLsb' 8 5) (w.extractLsb' 2 6) = w := by
  subst h0
  rw [packA, ← show w.extractLsb' 0 2 = 0#2 from h]
  simp (disch := decide) only [extractLsb'_append_extractLsb'_eq_extractLsb']
  exact extractLsb'_eq_self

theorem packI_joined : packI (w.extractLsb' 18 14) (w.extractLsb' 13 5) (w.extractLsb' 8 5) (w.extractLsb' 2 6) len = w := by
  rw [packI, ← h]
  simp (disch := decide) only [extractLsb'_append_extractLsb'_eq_extractLsb']
  exact extractLsb'_eq_self

theorem packU_joined : packU (w.extractLsb' 13 19) (w.extractLsb' 8 5) (w.extractLsb' 2 6) len = w := by
  rw [packU, ← h]
  simp (disch := decide) only [extractLsb'_append_extractLsb'_eq_extractLsb']
  exact extractLsb'_eq_self

theorem packM_joined : packM (w.extractLsb' 23 9) (w.extractLsb' 21 2) (w.extractLsb' 18 3) (w.extractLsb' 13 5)
    (w.extractLsb' 8 5) (w.extractLsb' 2 6) len = w := by
  rw [packM, ← h]
  simp (disch := decide) only [extractLsb'_append_extractLsb'_eq_extractLsb']
  exact extractLsb'_eq_self

theorem packBC_joined : packBC (w.extractLsb' 21 11) (w.extractLsb' 16 5) (w.extractLsb' 11 5) (w.extractLsb' 8 3)
    (w.extractLsb' 2 6) len = w := by
  rw [packBC, ← h]
  simp (disch := decide) only [extractLsb'_append_extractLsb'_eq_extractLsb']
  exact extractLsb'_eq_self

theorem packBP_joined : packBP (w.extractLsb' 12 20) (w.extractLsb' 11 1) (w.extractLsb' 8 3) (w.extractLsb' 2 6) len = w := by
  rw [packBP, ← h]
  simp (disch := decide) only [extractLsb'_append_extractLsb'_eq_extractLsb']
  exact extractLsb'_eq_self

theorem packJ_joined : packJ (w.extractLsb' 8 24) (w.extractLsb' 2 6) len = w := by
  rw [packJ, ← h]
  simp (disch := decide) only [extractLsb'_append_extractLsb'_eq_extractLsb']
  exact extractLsb'_eq_self

end joined

theorem Gives.mono {P Q : Instr → Prop} {r : DecodeResult} (h : Gives P r) (hpq : ∀ i, P i → Q i) : Gives Q r :=
  fun i hi => (h i hi).imp_right (hpq i)

section base
variable {w : IWord} {lit : Option Word} {m : BitVec 6} (hlen : w.extractLsb' 0 2 = baseLenOf lit) (hm : w.extractLsb' 2 6 = m)
include hlen hm

/-- A word of format A, by the decoder of its major. -/
theorem withA_gives {k : BitVec 3 → BitVec 6 → BitVec 5 → BitVec 5 → BitVec 5 → DecodeResult}
    (hk : ∀ w3 fn b a d, Gives (encodesA w3 fn b a d m) (k w3 fn b a d)) : Gives (encodesB w lit) (withA w lit k) := by
  refine (gives_noLit ..).2 fun hl => Gives.mono (hk _ _ _ _ _) ?_
  subst hl hm
  rintro i ⟨he, hlit⟩
  exact ⟨he.trans (congrArg (fun x => [x]) (packA_joined hlen rfl)), hlit⟩

/-- An instruction of format I (R71). -/
theorem encI_read {i : Imm 14} (hf : i.field = w.extractLsb' 18 14) (hi : i.literal? = lit) :
    encI m (fin5 (w.extractLsb' 8 5)) (fin5 (w.extractLsb' 13 5)) i = w :: litWords lit := by
  rw [encI, hf, i.words_eq, i.baseLen_eq, hi, ← hm]
  exact congrArg (· :: litWords lit) (packI_joined hlen)

/-- An instruction of format U (R71). -/
theorem encU_read {i : Imm 19} (hf : i.field = w.extractLsb' 13 19) (hi : i.literal? = lit) :
    encU m (fin5 (w.extractLsb' 8 5)) i = w :: litWords lit := by
  rw [encU, hf, i.words_eq, i.baseLen_eq, hi, ← hm]
  exact congrArg (· :: litWords lit) (packU_joined hlen)

/-- An instruction of format M (R71). -/
theorem encM_read {i : Imm 9} {h : Hint} {sz : BitVec 3} (hf : i.field = w.extractLsb' 23 9) (hi : i.literal? = lit)
    (hh : w.extractLsb' 21 2 = h.code) (hs : w.extractLsb' 18 3 = sz) :
    encM m sz h (fin5 (w.extractLsb' 8 5)) (fin5 (w.extractLsb' 13 5)) i = w :: litWords lit := by
  rw [encM, hf, i.words_eq, i.baseLen_eq, hi, ← hm, ← hh, ← hs]
  exact congrArg (· :: litWords lit) (packM_joined hlen)

/-- A compare-branch (R71). -/
theorem encBC_read {i : Imm 11} {cond : BitVec 3} (hm' : m = 0x0D) (hf : i.field = w.extractLsb' 21 11) (hi : i.literal? = lit)
    (hc : w.extractLsb' 8 3 = cond) :
    encBC cond (fin5 (w.extractLsb' 11 5)) (fin5 (w.extractLsb' 16 5)) i = w :: litWords lit := by
  rw [encBC, hf, i.words_eq, i.baseLen_eq, hi, ← hm', ← hm, ← hc]
  exact congrArg (· :: litWords lit) (packBC_joined hlen)

/-- A predicate branch (R71). -/
theorem packBP_read {i : Imm 20} (hf : i.field = w.extractLsb' 12 20) (hi : i.literal? = lit) :
    packBP i.field (bitOf (boolOf (w.extractLsb' 11 1))) (bv3 (fin3 (w.extractLsb' 8 3))) m i.baseLen :: i.words =
      w :: litWords lit := by
  rw [hf, bitOf_boolOf, bv3_fin3, i.words_eq, i.baseLen_eq, hi, ← hm]
  exact congrArg (· :: litWords lit) (packBP_joined hlen)

/-- A jump (R71). -/
theorem packJ_read {i : Imm 24} (hf : i.field = w.extractLsb' 8 24) (hi : i.literal? = lit) :
    packJ i.field m i.baseLen :: i.words = w :: litWords lit := by
  rw [hf, i.words_eq, i.baseLen_eq, hi, ← hm]
  exact congrArg (· :: litWords lit) (packJ_joined hlen)

end base

/-- A compare-branch (R129). -/
theorem decodeBranch_gives {w : IWord} {lit : Option Word} {i : Imm 11} (hlen : w.extractLsb' 0 2 = baseLenOf lit)
    (hm : w.extractLsb' 2 6 = BitVec.ofNat 6 13) (hf : i.field = w.extractLsb' 21 11) (hl : i.literal? = lit) :
    Gives (encodesB w lit) (decodeBranch (w.extractLsb' 8 3) (w.extractLsb' 11 5) (w.extractLsb' 16 5) i) := by
  obtain ⟨n, hc, hn⟩ := exists_ofNat (w.extractLsb' 8 3)
  simp only [decodeBranch, hn]
  split <;> simp only [gives_error, gives_accept] <;>
    exact fun _ => ⟨encBC_read hlen hm rfl hf hl hc, by subst hl; cases i <;> rfl⟩

/-- An immediate shift (R82, R125). -/
theorem shiftImm_gives {w : IWord} {lit : Option Word} (hlen : w.extractLsb' 0 2 = baseLenOf lit)
    (hm : w.extractLsb' 2 6 = BitVec.ofNat 6 6) (hl : lit = none) :
    Gives (encodesB w lit) (decodeShiftImm (w.extractLsb' 18 14) (w.extractLsb' 13 5) (w.extractLsb' 8 5)) := by
  subst hl
  obtain ⟨n, hk, hn⟩ := exists_ofNat ((w.extractLsb' 18 14).extractLsb' 12 2)
  simp only [decodeShiftImm, gives_chk, beq_iff_eq, hn]
  intro hz
  have himm : BitVec.ofNat 2 n ++ 0#6 ++ (w.extractLsb' 18 14).extractLsb' 0 6 = w.extractLsb' 18 14 := by
    rw [← hk, ← show (w.extractLsb' 18 14).extractLsb' 6 6 = 0#6 from hz]
    simp (disch := decide) only [BitVec.extractLsb'_append_extractLsb'_eq_extractLsb']
    exact BitVec.extractLsb'_eq_self
  have hread : packI (BitVec.ofNat 2 n ++ 0#6 ++ (w.extractLsb' 18 14).extractLsb' 0 6) (w.extractLsb' 13 5) (w.extractLsb' 8 5)
      6 0 = w := by
    have h := packI_joined hlen
    rwa [hm, ← himm] at h
  split <;> simp only [gives_error, gives_accept] <;> exact fun _ => ⟨congrArg (fun x => [x]) hread, rfl⟩

theorem decodeBase_gives {w : IWord} {lit : Option Word} (hlen : w.extractLsb' 0 2 = baseLenOf lit) :
    Gives (encodesB w lit) (decodeBase w lit) := by
  obtain ⟨m, hm, hn⟩ := exists_ofNat (w.extractLsb' 2 6)
  simp only [decodeBase, hn]
  split
  case h_1 => exact withA_gives hlen hm decodeSystem_gives
  case h_2 => exact withA_gives hlen hm decodeInteger_gives
  case h_3 | h_4 | h_5 | h_6 =>
    simp only [withI, gives_withImm, gives_accept]
    exact fun i hf hl _ => ⟨encI_read hlen hm hf hl, by subst hl; cases i <;> rfl⟩
  case h_7 =>
    simp only [gives_noLit, withI]
    exact fun hl => shiftImm_gives hlen hm hl
  case h_8 | h_9 | h_10 =>
    simp only [gives_withImm, gives_accept]
    exact fun i hf hl _ => ⟨encU_read hlen hm hf hl, by subst hl; cases i <;> rfl⟩
  case h_11 | h_12 | h_13 =>
    refine withA_gives hlen hm fun w3 fn b a d => ?_
    simp only [gives_chk, gives_coded, gives_low3, gives_accept, beq_iff_eq, Cond.ofCode_iff, LogFn.ofCode_iff]
    intros; subst_vars; exact ⟨rfl, rfl⟩
  case h_14 =>
    simp only [gives_withImm]
    exact fun i hf hl => decodeBranch_gives hlen hm hf hl
  case h_15 =>
    simp only [gives_withImm, gives_accept]
    exact fun i hf hl _ => ⟨packBP_read hlen hm hf hl, by subst hl; cases i <;> rfl⟩
  case h_16 | h_17 =>
    simp only [gives_withImm, gives_accept]
    exact fun i hf hl _ => ⟨packJ_read hlen hm hf hl, by subst hl; cases i <;> rfl⟩
  case h_18 => exact withA_gives hlen hm decodeJumpReg_gives
  case h_19 | h_20 | h_21 | h_22 =>
    simp only [withM, gives_withImm, gives_coded, gives_accept, Hint.ofCode_iff, LdSize.ofCode_iff, StSize.ofCode_iff,
      VSize.ofCode_iff]
    exact fun i hf hl h hh z hs _ => ⟨encM_read hlen hm hf hl hh hs, by subst hl; cases i <;> rfl⟩
  case h_23 => exact withA_gives hlen hm decodeSync_gives
  case h_24 => exact withA_gives hlen hm decodeQueue_gives
  case h_25 => exact withA_gives hlen hm decodeTask_gives
  case h_26 => exact withA_gives hlen hm decodeGroup_gives
  case h_27 => exact withA_gives hlen hm decodeService_gives
  case h_28 => exact withA_gives hlen hm decodeLease_gives
  case h_29 => split <;> exact (gives_error _).2 trivial

end Sys2Proof

namespace Sys2Proof

/-! ### X instructions -/

/-- The words that an X instruction encodes to. -/
def encodesX (x : XF) (lit : Option Word) (i : Instr) : Prop := encode i = x.words lit ∧ Claims.literalOf i = lit

/-- The fields of an X instruction, its function code as a number and its predicate fields as a guard. -/
theorem exists_fields (x : XF) : ∃ b a d n major imm et rm k g c ctl,
    x = ⟨b, a, d, BitVec.ofNat 8 n, major, imm, et, rm, k, bitOf (Guard.pn g), bv3 g.p, c, ctl⟩ ∧ (BitVec.ofNat 8 n).toNat = n := by
  obtain ⟨b, a, d, fn, major, imm, et, rm, k, pn, p, c, ctl⟩ := x
  exact ⟨b, a, d, fn.toNat, major, imm, et, rm, k, ⟨boolOf pn, fin3 p⟩, c, ctl, by simp, by simp⟩

/-- Two X instructions with the same fields have the same words. -/
theorem encX_read {x y : XF} {i : Instr} (hi : encode i = encX y) (h : y = x) : encode i = x.words none := by
  rw [hi, h, encX_words]

theorem encXI_read {x y : XF} {j : Imm 13} {i : Instr} {lit : Option Word} (hi : encode i = encXI y j)
    (hl : j.literal? = lit) (h : { y with imm := j.field } = x) : encode i = x.words lit := by
  rw [hi, encXI_words, hl, h]

/-! ### Parts of a field -/

/-- Bits whose high part is zero, by their low part. -/
theorem zero_append_of {m n : Nat} {x : BitVec (m + n)} {y : BitVec n} (h : x.extractLsb' n m = 0) (hy : x.extractLsb' 0 n = y) :
    0#m ++ y = x := hy ▸ zero_append_low h

/-- Bits that lie in zero bits are zero. -/
theorem extract_zero_of_le {n s l s' l' : Nat} {x : BitVec n} (h : x.extractLsb' s l = 0) (hs : s ≤ s') (hl : s' + l' ≤ s + l) :
    x.extractLsb' s' l' = 0 := by
  refine BitVec.eq_of_getLsbD_eq fun i hi => ?_
  have := congrArg (·.getLsbD (s' - s + i)) h
  simpa [hi, show s' - s + i < l by omega, show s + (s' - s + i) = s' + i by omega] using this

/-- The same with a bit between. -/
theorem zero_bit_append_of {m n : Nat} {x : BitVec (m + 1 + n)} {y : BitVec n} {z : BitVec 1} (h : x.extractLsb' (n + 1) m = 0)
    (hz : x.extractLsb' n 1 = z) (hy : x.extractLsb' 0 n = y) : 0#m ++ z ++ y = x := by
  rw [← show x.extractLsb' (n + 1) m = 0#m from h, ← hz, ← hy, BitVec.extractLsb'_append_extractLsb'_eq_extractLsb' (by omega),
    BitVec.extractLsb'_append_extractLsb'_eq_extractLsb' (by omega), BitVec.extractLsb'_eq_self]

theorem boolOf_eq_false (x : BitVec 1) : boolOf x = false ↔ x = 0 := by revert x; decide
theorem boolOf_eq_true (x : BitVec 1) : boolOf x = true ↔ x = 1 := by revert x; decide

section joined
open BitVec

theorem packCvt_joined {x : BitVec 32} (h : x.extractLsb' 11 21 = 0) : packCvt (x.extractLsb' 9 2) (x.extractLsb' 8 1)
    (x.extractLsb' 7 1) (x.extractLsb' 4 3) (x.extractLsb' 0 4) = x := by
  rw [packCvt, ← show x.extractLsb' 11 21 = 0#21 from h]
  simp (disch := decide) only [extractLsb'_append_extractLsb'_eq_extractLsb']
  exact extractLsb'_eq_self

theorem packMac_joined (x : BitVec 32) : packMac (x.extractLsb' 31 1) (x.extractLsb' 30 1) (x.extractLsb' 25 5) (x.extractLsb' 23 2)
    (x.extractLsb' 22 1) (x.extractLsb' 19 3) (x.extractLsb' 16 3) (x.extractLsb' 15 1) (x.extractLsb' 13 2) (x.extractLsb' 10 3)
    (x.extractLsb' 8 2) (x.extractLsb' 4 4) (x.extractLsb' 0 4) = x := by
  rw [packMac]
  simp (disch := decide) only [extractLsb'_append_extractLsb'_eq_extractLsb']
  exact extractLsb'_eq_self

theorem packMwld_joined {x : BitVec 32} (h : x.extractLsb' 31 1 = 0) (h' : x.extractLsb' 4 15 = 0) :
    packMwld (x.extractLsb' 30 1) (x.extractLsb' 25 5) (x.extractLsb' 23 2) (x.extractLsb' 22 1) (x.extractLsb' 19 3)
      (x.extractLsb' 0 4) = x := by
  rw [packMwld, ← show x.extractLsb' 31 1 = 0#1 from h, ← show x.extractLsb' 4 15 = 0#15 from h']
  simp (disch := decide) only [extractLsb'_append_extractLsb'_eq_extractLsb']
  exact extractLsb'_eq_self

theorem packDrain_joined {x : BitVec 32} (h : x.extractLsb' 22 10 = 0) (h' : x.extractLsb' 11 5 = 0) (h'' : x.extractLsb' 0 9 = 0) :
    packDrain (x.extractLsb' 19 3) (x.extractLsb' 16 3) (x.extractLsb' 9 2) = x := by
  rw [packDrain, ← show x.extractLsb' 22 10 = 0#10 from h, ← show x.extractLsb' 11 5 = 0#5 from h',
    ← show x.extractLsb' 0 9 = 0#9 from h'']
  simp (disch := decide) only [extractLsb'_append_extractLsb'_eq_extractLsb']
  exact extractLsb'_eq_self

theorem packColl_joined {x : BitVec 32} (h : x.extractLsb' 16 16 = 0) (h' : x.extractLsb' 3 1 = 0) :
    packColl (x.extractLsb' 8 8) (x.extractLsb' 7 1) (x.extractLsb' 6 1) (x.extractLsb' 4 2) (x.extractLsb' 0 3) = x := by
  rw [packColl, ← show x.extractLsb' 16 16 = 0#16 from h, ← show x.extractLsb' 3 1 = 0#1 from h']
  simp (disch := decide) only [extractLsb'_append_extractLsb'_eq_extractLsb']
  exact extractLsb'_eq_self

/-- The block numbers of an `mmac` (R184). -/
theorem macImm_joined {x : BitVec 13} (h : x.extractLsb' 7 6 = 0) : 0#6 ++ x.extractLsb' 2 5 ++ x.extractLsb' 0 2 = x := by
  rw [← show x.extractLsb' 7 6 = 0#6 from h]
  simp (disch := decide) only [extractLsb'_append_extractLsb'_eq_extractLsb']
  exact extractLsb'_eq_self

end joined

section decoders
open BitVec

theorem decodeVInt_gives {x : XF} (hm : x.major = 0x20) : Gives (encodesX x none) (decodeVInt x) := by
  obtain ⟨b, a, d, n, major, imm, et, rm, k, g, c, ctl, rfl, hn⟩ := exists_fields x
  subst hm
  simp only [decodeVInt, gives_coded, ElemTy.ofCode_iff, hn, XF.zeros, guard_fields, XF_registers]
  rintro et rfl
  split <;> simp only [gives_error, gives_chk, gives_accept, ctlLow_eq, beq_iff_eq, Bool.and_eq_true, and_imp, Bool.true_or,
    Bool.false_or]
  case h_1 | h_2 | h_3 | h_4 =>
    intros; subst_vars
    exact ⟨encX_read rfl (by simpa [encV3, encV2] using zero_append_low ‹_›), rfl⟩
  case h_12 | h_13 | h_14 =>
    obtain ⟨m, rfl, hm⟩ := exists_ofNat ctl
    simp only [hm]
    split <;> simp only [gives_error, gives_chk, gives_accept, beq_iff_eq, Bool.and_eq_true, and_imp] <;> intros <;> subst_vars
    · exact ⟨encX_read rfl rfl, rfl⟩
    · exact ⟨encX_read rfl (by simpa [encV2] using zero_append_low ‹_›), rfl⟩
    · trivial
  all_goals intros; subst_vars; exact ⟨encX_read rfl rfl, rfl⟩

theorem decodeVFp_gives {x : XF} (hm : x.major = 0x21) : Gives (encodesX x none) (decodeVFp x) := by
  obtain ⟨b, a, d, n, major, imm, et, rm, k, g, c, ctl, rfl, hn⟩ := exists_fields x
  subst hm
  simp only [decodeVFp, gives_coded, gives_chk, ctlLow_eq, beq_iff_eq, ElemTy.ofCode_iff, WinSel.ofBits_iff, hn, XF.zeros,
    guard_fields, XF_registers]
  rintro et rfl hz ws hw
  have hctl : 0#28 ++ ws.code4 = ctl := zero_append_of hz hw
  subst hctl
  split <;> simp only [gives_error, gives_chk, gives_coded, gives_accept, beq_iff_eq, Bool.and_eq_true, and_imp, Bool.true_or,
    Bool.false_or, RoundField.ofCode_iff] <;> intros <;> subst_vars <;> exact ⟨encX_read rfl rfl, rfl⟩

theorem decodeVDiv_gives {x : XF} (hm : x.major = 0x22) : Gives (encodesX x none) (decodeVDiv x) := by
  obtain ⟨b, a, d, n, major, imm, et, rm, k, g, c, ctl, rfl, hn⟩ := exists_fields x
  subst hm
  simp only [decodeVDiv, gives_coded, ElemTy.ofCode_iff, hn, XF.zeros, guard_fields, XF_registers]
  rintro et rfl
  split <;> simp only [gives_error, gives_chk, gives_coded, gives_accept, beq_iff_eq, Bool.and_eq_true, and_imp, Bool.true_or,
    Bool.false_or, RoundField.ofCode_iff] <;> intros <;> subst_vars <;> exact ⟨encX_read rfl rfl, rfl⟩

theorem decodeVCmp_gives {x : XF} (hm : x.major = 0x23) : Gives (encodesX x none) (decodeVCmp x) := by
  obtain ⟨b, a, d, n, major, imm, et, rm, k, g, c, ctl, rfl, hn⟩ := exists_fields x
  subst hm
  simp only [decodeVCmp, gives_coded, ElemTy.ofCode_iff, hn, XF.zeros, guard_fields, XF_registers]
  rintro et rfl
  split <;> simp only [gives_error, gives_chk, gives_coded, gives_low3, gives_accept, beq_iff_eq, Bool.and_eq_true, and_imp,
    Bool.true_or, Bool.false_or, VCond.ofCode_iff]
  case h_1 | h_2 =>
    intros; subst_vars
    exact ⟨encX_read rfl (by simpa [encV3, encV2] using zero_append_of ‹_› ‹_›), rfl⟩
  all_goals intros; subst_vars; exact ⟨encX_read rfl rfl, rfl⟩


theorem decodeAtomic_gives {x : XF} {lit : Option Word} (hm : x.major = 0x18) : Gives (encodesX x lit) (decodeAtomic x lit) := by
  obtain ⟨b, a, d, n, major, imm, et, rm, k, g, c, ctl, rfl, hn⟩ := exists_fields x
  subst hm
  simp only [decodeAtomic, hn, XF.zeros, guard_fields, XF_registers]
  split <;> simp only [gives_error, gives_chk, gives_withImm, gives_coded, gives_accept, ctlLow_eq, beq_iff_eq, Bool.and_eq_true,
    and_imp, Bool.true_or, Bool.false_or, AmoFn.ofCode_iff, FoldFn.ofCode_iff, ElemTy.ofCode_iff]
  case h_1 =>
    obtain ⟨m, rfl, hw⟩ := exists_ofNat et
    simp only [hw]
    intros
    split <;> simp only [gives_error, gives_accept] <;> intros <;> subst_vars
    case h_1 | h_2 => exact ⟨encXI_read rfl rfl (by simpa using zero_append_of ‹_› ‹_›), by cases ‹Imm 13› <;> rfl⟩
  case h_2 =>
    intros; subst_vars
    exact ⟨encXI_read rfl rfl (by simpa [*] using zero_append_of ‹_› ‹_›), by cases ‹Imm 13› <;> rfl⟩
  case h_3 =>
    obtain ⟨m, rfl, hw⟩ := exists_ofNat et
    simp only [hw]
    intros
    split <;> simp only [gives_error, gives_accept] <;> intros <;> subst_vars
    case h_1 | h_2 => exact ⟨encXI_read rfl rfl rfl, by cases ‹Imm 13› <;> rfl⟩
  all_goals intros; subst_vars; exact ⟨encXI_read rfl rfl rfl, by cases ‹Imm 13› <;> rfl⟩

theorem decodeVCvt_gives {x : XF} (hm : x.major = 0x24) : Gives (encodesX x none) (decodeVCvt x) := by
  obtain ⟨b, a, d, n, major, imm, et, rm, k, g, c, ctl, rfl, hn⟩ := exists_fields x
  subst hm
  simp only [decodeVCvt, hn, XF.zeros, guard_fields, XF_registers]
  split <;> simp only [gives_error, gives_chk, gives_coded, gives_accept, ctlLow_eq, beq_iff_eq, Bool.and_eq_true, and_imp,
    Bool.true_or, Bool.false_or, RoundField.ofCode_iff, ElemTy.ofCode_iff, Fp8Ovr.ofCode_iff,
    extractLsb'_extractLsb'_of_le, Nat.reduceAdd, Nat.reduceLeDiff] <;> intros
  case h_1 h0 o ho src hs _ =>
    subst_vars
    refine ⟨encX_read rfl ?_, rfl⟩
    simpa [encV2, ← ho, ← hs] using packCvt_joined h0
  case h_2 h0 o ho src hs hz _ =>
    subst_vars
    refine ⟨encX_read rfl ?_, rfl⟩
    have h := packCvt_joined h0
    simp (disch := decide) only [extract_zero_of_le hz] at h
    simpa [encV2, ← ho, ← hs] using h
  case h_3 h0 src hs hz _ =>
    subst_vars
    refine ⟨encX_read rfl ?_, rfl⟩
    have h := packCvt_joined h0
    simp (disch := decide) only [extract_zero_of_le hz] at h
    simpa [encV2, ← hs] using h
  all_goals subst_vars; exact ⟨encX_read rfl rfl, rfl⟩

/-- A slide count in its field. -/
theorem slide_field {x : BitVec 13} (h : x.toNat ≤ 32) : 0#7 ++ bv33 (fin33 (x.extractLsb' 0 6)) = x := by
  have hlow : (x.extractLsb' 0 6).toNat = x.toNat := by rw [extractLsb'_toNat]; omega
  refine zero_append_of (eq_of_toNat_eq ?_) (eq_of_toNat_eq ?_)
  · rw [extractLsb'_toNat, Nat.shiftRight_eq_div_pow, Nat.div_eq_of_lt (by omega)]
    rfl
  · simp [fin33, bv33, hlow, show x.toNat < 33 by omega]
    omega

theorem decodeVPerm_gives {x : XF} (hm : x.major = 0x25) : Gives (encodesX x none) (decodeVPerm x) := by
  obtain ⟨b, a, d, n, major, imm, et, rm, k, g, c, ctl, rfl, hn⟩ := exists_fields x
  subst hm
  simp only [decodeVPerm, hn, XF.zeros, guard_fields, XF_registers, gives_coded, ElemTy.ofCode_iff]
  rintro et rfl
  split <;> simp only [gives_error, gives_chk, gives_accept, beq_iff_eq, Bool.and_eq_true, and_imp,
    Bool.true_or, Bool.false_or, decide_eq_true_eq]
  case h_2 | h_3 | h_5 =>
    intros; subst_vars
    exact ⟨encX_read rfl (by simpa [encV2, encV3] using zero_append_low ‹_›), rfl⟩
  case h_6 =>
    intros; subst_vars
    refine ⟨encX_read rfl ?_, rfl⟩
    simpa [encV2, encV3] using slide_field ‹_›
  all_goals intros; subst_vars; exact ⟨encX_read rfl rfl, rfl⟩

theorem decodeVRed_gives {x : XF} (hm : x.major = 0x26) : Gives (encodesX x none) (decodeVRed x) := by
  obtain ⟨b, a, d, n, major, imm, et, rm, k, g, c, ctl, rfl, hn⟩ := exists_fields x
  subst hm
  simp only [decodeVRed, hn, XF.zeros, guard_fields, XF_registers]
  split <;> simp only [gives_error, gives_chk, gives_coded, gives_low3, gives_accept, ctlLow_eq, beq_iff_eq, Bool.and_eq_true,
    and_imp, true_implies, Bool.true_or, Bool.false_or, ElemTy.ofCode_iff, WinSel.ofBits_iff, RedOp.ofCode_iff, LogFn.ofCode_iff,
    extractLsb'_extractLsb'_of_le, Nat.reduceAdd, Nat.reduceLeDiff]
  case h_1 =>
    intro _ _ _ et _ hc ws hw hi op ho _
    subst_vars
    exact ⟨encX_read rfl (by simpa [encV2] using ⟨zero_append_of hi ho, zero_append_of hc hw⟩), rfl⟩
  case h_2 =>
    intro _ _ et _ hc ws hw
    split <;> simp only [gives_chk, gives_accept, beq_iff_eq] <;> intros <;> subst_vars
    case isTrue hb _ =>
      exact ⟨encX_read rfl (by simpa [encV2, encV3, bitOf] using zero_bit_append_of hc ((boolOf_eq_true _).1 hb) hw), rfl⟩
    case isFalse hb _ =>
      rw [Bool.not_eq_true, boolOf_eq_false] at hb
      exact ⟨encX_read rfl (by simpa [encV2, encV3, bitOf] using zero_bit_append_of hc hb hw), rfl⟩
  case h_4 =>
    intros; subst_vars
    exact ⟨encX_read rfl (by simpa using zero_append_of ‹_› ‹_›), rfl⟩
  case h_5 =>
    obtain ⟨m, rfl, hw⟩ := exists_ofNat imm
    simp only [hw]
    intros
    split <;> simp only [gives_error, gives_low3, gives_accept] <;> intros <;> subst_vars <;> exact ⟨encX_read rfl rfl, rfl⟩
  all_goals intros; subst_vars; exact ⟨encX_read rfl rfl, rfl⟩

theorem decodeMac_gives {x : XF} (hm : x.major = 0x30) : Gives (encodesX x none) (decodeMac x) := by
  obtain ⟨b, a, d, n, major, imm, et, rm, k, g, c, ctl, rfl, hn⟩ := exists_fields x
  subst hm
  simp only [decodeMac, hn, XF.zeros, guard_fields, XF_registers]
  simp only [gives_chk, gives_coded, beq_iff_eq, Bool.and_eq_true,
    and_imp, true_implies, Bool.true_or, Bool.false_or, ScaleMode.ofCode_iff, AccSel.ofCode_iff, MFmt.ofCode_iff]
  intro _ _ _ _ hi sc hsc acc hacc bf hbf af haf
  have hc := packMac_joined ctl
  rw [hsc, hacc, hbf, haf] at hc
  split
  case h_1 =>
    rw [gives_chk, beq_iff_eq]
    intro hz
    simp (disch := decide) only [extract_zero_of_le hz] at hc
    split <;> rename_i hq hb <;> simp only [boolOf_eq_true, boolOf_eq_false] at hq hb <;> rw [hq, hb] at hc <;>
      simp only [gives_error, gives_chk, gives_accept, beq_iff_eq, Bool.and_eq_true, and_imp] <;> intros <;> subst_vars <;>
      exact ⟨encX_read rfl (by simpa [macXF, macWord] using ⟨macImm_joined hi, hc⟩), rfl⟩
  case h_2 =>
    rw [gives_chk, beq_iff_eq]
    intro hz
    rw [hz] at hc
    split <;> rename_i hq hb <;> simp only [boolOf_eq_true, boolOf_eq_false] at hq hb <;> rw [hq, hb] at hc <;>
      simp only [gives_error, gives_chk, gives_accept, beq_iff_eq, Bool.and_eq_true, and_imp] <;> intros <;> subst_vars <;>
      exact ⟨encX_read rfl (by simpa [macXF, macWord] using ⟨macImm_joined hi, hc⟩), rfl⟩
  case h_3 => exact (gives_error _).2 trivial

theorem decodeMLoad_gives {x : XF} {lit : Option Word} (hm : x.major = 0x31) : Gives (encodesX x lit) (decodeMLoad x lit) := by
  obtain ⟨b, a, d, n, major, imm, et, rm, k, g, c, ctl, rfl, hn⟩ := exists_fields x
  subst hm
  simp only [decodeMLoad, hn, XF.zeros, guard_fields, XF_registers]
  split <;> simp only [gives_error, gives_chk, gives_noLit, gives_coded, gives_accept, beq_iff_eq, Bool.and_eq_true,
    and_imp, true_implies, Bool.true_or, Bool.false_or, TileFmt.ofEtCode_iff, MFmt.ofCode_iff]
  case h_1 =>
    intros; subst_vars
    exact ⟨encX_read rfl (by simpa using Eq.symm ‹_›), rfl⟩
  case h_2 =>
    intro _ _ _ _ h1 h2 bf hbf
    have hc := packMwld_joined h1 h2
    rw [hbf] at hc
    subst_vars
    split <;> rename_i hr hs <;> simp only [boolOf_eq_true, boolOf_eq_false] at hr hs <;> rw [hr, hs] at hc <;>
      simp only [gives_chk, gives_noLit, gives_withImm, gives_accept, beq_iff_eq, Bool.and_eq_true, and_imp]
    case h_1 =>
      rintro hz rfl i rfl rfl _
      simp (disch := decide) only [extract_zero_of_le hz] at hc
      exact ⟨encXI_read rfl rfl (by simpa using hc), by cases i <;> rfl⟩
    case h_2 =>
      rintro i rfl rfl _
      exact ⟨encXI_read rfl rfl (by simpa using hc), by cases i <;> rfl⟩
    case h_3 =>
      rintro rfl hz rfl rfl _
      simp (disch := decide) only [extract_zero_of_le hz] at hc
      exact ⟨encX_read rfl (by simpa using hc), rfl⟩
    case h_4 =>
      rintro rfl rfl rfl _
      exact ⟨encX_read rfl (by simpa using hc), rfl⟩

theorem decodeMDrain_gives {x : XF} {lit : Option Word} (hm : x.major = 0x32) : Gives (encodesX x lit) (decodeMDrain x lit) := by
  obtain ⟨b, a, d, n, major, imm, et, rm, k, g, c, ctl, rfl, hn⟩ := exists_fields x
  subst hm
  simp only [decodeMDrain, hn, XF.zeros, guard_fields, XF_registers, gives_chk, gives_coded, beq_iff_eq, Bool.and_eq_true,
    and_imp, ElemTy.ofCode_iff, RoundField.ofCode_iff, Fp8Ovr.ofCode_iff, TileFmt.ofCode_iff]
  rintro h1 h2 h3 et rfl rm rfl o ho tf ht
  have h := packDrain_joined h1 h2 h3
  rw [ho, ht] at h
  split <;> simp only [gives_error, gives_chk, gives_noLit, gives_withImm, gives_accept, beq_iff_eq, Bool.and_eq_true,
    and_imp, Bool.true_or, Bool.false_or] <;> intros <;> subst_vars
  case h_1 | h_3 => exact ⟨encXI_read rfl rfl (by simpa using h), by cases ‹Imm 13› <;> rfl⟩
  case h_2 => exact ⟨encX_read rfl (by simpa using h), rfl⟩

theorem decodeMStat_gives {x : XF} (hm : x.major = 0x33) : Gives (encodesX x none) (decodeMStat x) := by
  obtain ⟨b, a, d, n, major, imm, et, rm, k, g, c, ctl, rfl, hn⟩ := exists_fields x
  subst hm
  simp only [decodeMStat, hn, XF.zeros, guard_fields, XF_registers]
  split <;> simp only [gives_error, gives_chk, gives_accept, beq_iff_eq, Bool.and_eq_true,
    and_imp, Bool.true_or, Bool.false_or] <;> intros <;> subst_vars
  case h_1 | h_2 => exact ⟨encX_read rfl (by simpa using Eq.symm ‹_›), rfl⟩
  exact ⟨encX_read rfl rfl, rfl⟩

theorem decodeVMem_gives {x : XF} {lit : Option Word} (hm : x.major = 0x38) : Gives (encodesX x lit) (decodeVMem x lit) := by
  obtain ⟨b, a, d, n, major, imm, et, rm, k, g, c, ctl, rfl, hn⟩ := exists_fields x
  subst hm
  simp only [decodeVMem, hn, XF.zeros, guard_fields, XF_registers, gives_withImm, gives_coded, beq_iff_eq, ctlLow_eq, gives_chk,
    ElemTy.ofCode_iff, Hint.ofCode_iff, extractLsb'_extractLsb'_of_le, Nat.reduceAdd, Nat.reduceLeDiff]
  rintro et rfl hz h hh i rfl hl
  split <;> simp only [gives_error, gives_chk, gives_accept, beq_iff_eq, Bool.and_eq_true,
    and_imp, Bool.true_or, Bool.false_or, Bool.not_eq_true', boolOf_eq_false] <;> intros <;> subst_vars
  case h_1 | h_4 =>
    exact ⟨encXI_read rfl rfl (by simpa [encV2, encV3] using zero_append_of (extract_zero_parts hz ‹_›) hh), by cases i <;> rfl⟩
  case h_2 | h_3 => exact ⟨encXI_read rfl rfl (by simpa [encV2, encV3] using zero_bit_append_of hz rfl hh), by cases i <;> rfl⟩

theorem decodeColl_gives {x : XF} {lit : Option Word} (hm : x.major = 0x3C) : Gives (encodesX x lit) (decodeColl x lit) := by
  obtain ⟨b, a, d, n, major, imm, et, rm, k, g, c, ctl, rfl, hn⟩ := exists_fields x
  subst hm
  simp only [decodeColl, hn, XF.zeros, guard_fields, XF_registers]
  split <;> simp only [gives_error, gives_chk, gives_coded, gives_withImm, gives_accept, beq_iff_eq, Bool.and_eq_true,
    and_imp, true_implies, Bool.true_or, Bool.false_or, ElemTy.ofCode_iff, CollOp.ofCode_iff, RedOp.ofCode_iff]
  intro _ _ h1 h2 et _ op ho fn hf i hi hl _
  subst_vars
  exact ⟨encXI_read rfl rfl (by simpa [ho, hf] using packColl_joined h1 h2), by cases i <;> rfl⟩

theorem decodeCloak_gives {x : XF} (hm : x.major = 0x3D) : Gives (encodesX x none) (decodeCloak x) := by
  obtain ⟨b, a, d, n, major, imm, et, rm, k, g, c, ctl, rfl, hn⟩ := exists_fields x
  subst hm
  simp only [decodeCloak, hn, XF.zeros, guard_fields, XF_registers]
  split <;> simp only [gives_error, gives_chk, gives_accept, beq_iff_eq, Bool.and_eq_true,
    and_imp, Bool.true_or, Bool.false_or] <;> intros
  case h_1 =>
    obtain ⟨m, rfl, hw⟩ := exists_ofNat ctl
    simp only [hw]
    split <;> simp only [gives_error, gives_chk, gives_accept, beq_iff_eq] <;> intros <;> subst_vars <;>
      exact ⟨encX_read rfl rfl, rfl⟩
  subst_vars
  exact ⟨encX_read rfl rfl, rfl⟩

/-- A `get` or `put` of kind 0, whose core field is read by neither (log entry 58). -/
def ofKind0 (i : Instr) : Prop := ∃ g et d a b c, i = .get g et .glob d a b c ∨ i = .put g et .glob d a b c

/-- The words that were read, but for the core field of kind 0. -/
def readsX (x : XF) (lit : Option Word) (i : Instr) : Prop :=
  encodesX x lit i ∨ (ofKind0 i ∧ x.ctl.extractLsb' 4 28 = 0 ∧ encodesX { x with ctl := 0 } lit i)

theorem readsX_of_encodesX {x : XF} {lit : Option Word} {r : DecodeResult} (h : Gives (encodesX x lit) r) : Gives (readsX x lit) r :=
  h.mono fun _ => Or.inl

theorem noLit_readsX {x : XF} {lit : Option Word} {r : DecodeResult} (h : Gives (encodesX x none) r) :
    Gives (readsX x lit) (noLit lit r) :=
  (gives_noLit ..).2 fun hl => hl ▸ readsX_of_encodesX h

/-- The length of a `cpy` or `cpyr` (R221). -/
theorem withLen_gives {x y : XF} {lit : Option Word} {mk : LenSrc → Instr}
    (henc : ∀ l, encode (mk l) = encLen y l) (hc : y.c = 0) (hi : y.imm = 0) (hlit : ∀ i, Claims.literalOf (mk (.imm i)) = i.literal?)
    (hreg : ∀ c, Claims.literalOf (mk (.reg c)) = none) (hx : { y with c := x.c, imm := x.imm } = x) :
    Gives (encodesX x lit) (withLen x lit fun l => accept (mk l)) := by
  unfold withLen
  split <;> simp only [gives_withImm, gives_noLit, gives_chk, gives_accept, beq_iff_eq]
  case isTrue hz =>
    rintro i hf rfl _
    exact ⟨encXI_read (henc _) rfl (by rw [← hx, hf, hz, hc]), hlit i⟩
  case isFalse =>
    rintro rfl hz _
    refine ⟨encX_read (henc _) (Eq.trans ?_ hx), hreg _⟩
    rw [hz, ← hi]
    rfl

theorem decodeTile_gives {x : XF} {lit : Option Word} (hm : x.major = 0x39) : Gives (readsX x lit) (decodeTile x lit) := by
  obtain ⟨b, a, d, n, major, imm, et, rm, k, g, c, ctl, rfl, hn⟩ := exists_fields x
  subst hm
  simp only [decodeTile, hn, XF.zeros, guard_fields, XF_registers]
  split <;> simp only [gives_error, gives_chk, gives_coded, gives_noLit, gives_accept, ctlLow_eq, beq_iff_eq, Bool.and_eq_true,
    and_imp, true_implies, Bool.true_or, Bool.false_or, ElemTy.ofCode_iff, RedOp.ofCode_iff, extractLsb'_extractLsb'_of_le,
    Nat.reduceAdd, Nat.reduceLeDiff]
  case h_1 =>
    obtain ⟨m, rfl, hw⟩ := exists_ofNat ctl
    simp only [hw]
    rintro rfl rfl rfl
    split
    case h_1 =>
      refine readsX_of_encodesX (withLen_gives (fun _ => rfl) rfl rfl (fun i => ?_) (fun _ => rfl) rfl)
      cases i <;> rfl
    case h_5 => exact (gives_error _).2 trivial
    all_goals
      simp only [gives_chk, gives_noLit, gives_accept, beq_iff_eq]
      intros; subst_vars; exact .inl ⟨encX_read rfl rfl, rfl⟩
  case h_2 =>
    rintro rfl rfl et rfl hz op ho
    refine readsX_of_encodesX (withLen_gives (fun _ => rfl) rfl rfl (fun i => ?_) (fun _ => rfl) ?_)
    · cases i <;> rfl
    · simpa using zero_append_of hz ho
  case h_3 | h_4 =>
    rintro rfl rfl rfl rfl et rfl hz
    split <;> rename_i hb <;> simp only [gives_accept]
    · exact fun _ => .inl ⟨encX_read rfl (by simpa [PutTarget.ctl] using zero_bit_append_of hz ((boolOf_eq_true _).1 hb) rfl), rfl⟩
    · rw [Bool.not_eq_true, boolOf_eq_false] at hb
      exact fun _ => .inr ⟨⟨g, et, fin5 d, fin5 a, fin5 b, fin5 c, by simp⟩, extract_zero_parts hz hb, encX_read rfl rfl, rfl⟩
  case h_5 =>
    intros; subst_vars
    exact .inl ⟨encX_read rfl (by simpa using zero_append_low ‹_›), rfl⟩
  all_goals intros; subst_vars; exact .inl ⟨encX_read rfl rfl, rfl⟩

end decoders

theorem decodeXF_gives {x : XF} {lit : Option Word} : Gives (readsX x lit) (decodeXF x lit) := by
  obtain ⟨m, hm, hn⟩ := exists_ofNat x.major
  simp only [decodeXF, hn]
  split
  case h_1 => exact readsX_of_encodesX (decodeAtomic_gives hm)
  case h_2 => exact noLit_readsX (decodeVInt_gives hm)
  case h_3 => exact noLit_readsX (decodeVFp_gives hm)
  case h_4 => exact noLit_readsX (decodeVDiv_gives hm)
  case h_5 => exact noLit_readsX (decodeVCmp_gives hm)
  case h_6 => exact noLit_readsX (decodeVCvt_gives hm)
  case h_7 => exact noLit_readsX (decodeVPerm_gives hm)
  case h_8 => exact noLit_readsX (decodeVRed_gives hm)
  case h_9 => exact noLit_readsX (decodeMac_gives hm)
  case h_10 => exact readsX_of_encodesX (decodeMLoad_gives hm)
  case h_11 => exact readsX_of_encodesX (decodeMDrain_gives hm)
  case h_12 => exact noLit_readsX (decodeMStat_gives hm)
  case h_13 => exact readsX_of_encodesX (decodeVMem_gives hm)
  case h_14 => exact decodeTile_gives hm
  case h_15 => exact readsX_of_encodesX (decodeColl_gives hm)
  case h_16 => exact noLit_readsX (decodeCloak_gives hm)
  case h_17 => exact (gives_error _).2 trivial

end Sys2Proof

namespace Sys2Proof

/-! ### The words in a row (R69, R73) -/

/-- The length field that a literal selects under an X major. -/
def xLenOf (lit : Option Word) : BitVec 2 := if lit.isSome = true then 3 else 2

/-- An X instruction's fields are those of its words, and bit 31 is zero. -/
theorem word0_ofWords {w0 : IWord} {len : BitVec 2} (h : w0.extractLsb' 31 1 = 0) (hl : w0.extractLsb' 0 2 = len) (w1 w2 : IWord) :
    (XF.ofWords w0 w1 w2).word0 len = w0 := by
  rw [XF.word0, XF.ofWords, ← show w0.extractLsb' 31 1 = 0#1 from h, ← hl]
  simp (disch := decide) only [BitVec.extractLsb'_append_extractLsb'_eq_extractLsb']
  exact BitVec.extractLsb'_eq_self

theorem word1_ofWords (w0 w1 w2 : IWord) : (XF.ofWords w0 w1 w2).word1 = w1 := by
  rw [XF.word1, XF.ofWords]
  simp (disch := decide) only [BitVec.extractLsb'_append_extractLsb'_eq_extractLsb']
  exact BitVec.extractLsb'_eq_self

/-- The words of a literal are the two that were read. -/
theorem litWords_append (lo hi : IWord) : litWords (some (hi ++ lo)) = [lo, hi] := by
  simp [-Nat.reduceAdd, litWords, BitVec.extractLsb'_append_eq_of_le, BitVec.extractLsb'_append_eq_of_add_le]

theorem words_of_literal (lo hi : IWord) (r : List IWord) : litWords (some (hi ++ lo)) <+: lo :: hi :: r :=
  ⟨r, by rw [litWords_append]; rfl⟩

/-- A base instruction and the words that it was read from. -/
structure BaseRead (w : IWord) (ws : List IWord) (i : Instr) : Prop where
  len : w.extractLsb' 0 2 = baseLenOf (Claims.literalOf i)
  tail : litWords (Claims.literalOf i) <+: ws
  enc : encode i = w :: litWords (Claims.literalOf i)

/-- An X instruction and the words that it was read from, with its control word; that of kind 0 keeps no core field. -/
structure XRead (w w1 w2 ctl : IWord) (ws : List IWord) (i : Instr) : Prop where
  len : w.extractLsb' 0 2 = xLenOf (Claims.literalOf i)
  tail : w1 :: w2 :: litWords (Claims.literalOf i) <+: ws
  enc : encode i = w :: w1 :: ctl :: litWords (Claims.literalOf i)
  ctl : ctl = w2 ∨ (ofKind0 i ∧ w2.extractLsb' 4 28 = 0 ∧ ctl = 0)
  major : isXMajor (w.extractLsb' 2 6).toNat = true

theorem decodeX_gives {w w1 w2 : IWord} {lit : Option Word} {i : Instr} {r : List IWord} (hl : w.extractLsb' 0 2 = xLenOf lit)
    (h : decodeX w w1 w2 lit = .ok i) : i.wf = true ∧ ∃ ctl, XRead w w1 w2 ctl (w1 :: w2 :: (litWords lit ++ r)) i := by
  simp only [decodeX] at h
  split at h
  case isFalse => split at h <;> cases h
  case isTrue hm =>
    have hg : Gives (readsX (XF.ofWords w w1 w2) lit) (chk (w.extractLsb' 31 1 == 0) .mustBeZero
        (decodeXF (XF.ofWords w w1 w2) lit)) := (gives_chk ..).2 fun _ => decodeXF_gives
    have htop : w.extractLsb' 31 1 = 0 := by
      by_contra hne
      rw [chk, if_neg (by simpa using hne)] at h
      cases h
    obtain ⟨hwf, ⟨henc, rfl⟩ | ⟨hk, hz, henc, rfl⟩⟩ := hg i h
    · refine ⟨hwf, w2, hl, ⟨r, rfl⟩, ?_, .inl rfl, hm⟩
      rw [henc, XF.words, ← xLenOf, word0_ofWords htop hl, word1_ofWords]
      rfl
    · refine ⟨hwf, 0, hl, ⟨r, rfl⟩, ?_, .inr ⟨hk, hz, rfl⟩, hm⟩
      rw [henc, XF.words, ← xLenOf]
      exact congr (congrArg List.cons (word0_ofWords htop hl w1 w2)) (congrArg (· :: _) (word1_ofWords w w1 w2))

theorem decodeWords_gives {w : IWord} {ws : List IWord} {i : Instr} (h : decodeWords (w :: ws) = .ok i) :
    i.wf = true ∧ (BaseRead w ws i ∨ ∃ w1 w2 ctl, XRead w w1 w2 ctl ws i) := by
  obtain ⟨n, hw, hn⟩ := exists_ofNat (w.extractLsb' 0 2)
  have hlt : n < 4 := hn ▸ (w.extractLsb' 0 2).isLt
  simp only [decodeWords, hn] at h
  split at h
  case h_1 =>
    obtain ⟨hwf, henc, hlit⟩ := decodeBase_gives (lit := none) hw i h
    exact ⟨hwf, .inl ⟨hlit ▸ hw, hlit ▸ List.nil_prefix, hlit ▸ henc⟩⟩
  case h_2 =>
    split at h
    case h_2 => cases h
    case h_1 lo hi r =>
      obtain ⟨hwf, henc, hlit⟩ := decodeBase_gives (lit := some (hi ++ lo)) hw i h
      exact ⟨hwf, .inl ⟨hlit ▸ hw, hlit ▸ words_of_literal lo hi r, hlit ▸ henc⟩⟩
  case h_3 =>
    split at h
    case h_2 => cases h
    case h_1 w1 w2 r =>
      obtain ⟨hwf, ctl, hx⟩ := decodeX_gives (r := r) hw h
      exact ⟨hwf, .inr ⟨w1, w2, ctl, hx⟩⟩
  case h_4 _ h0 h1 h2 =>
    obtain rfl : n = 3 := by
      rcases n with _ | _ | _ | _ | n
      exacts [(h0 rfl).elim, (h1 rfl).elim, (h2 rfl).elim, rfl, by omega]
    split at h
    case h_2 => cases h
    case h_1 w1 w2 lo hi r =>
      obtain ⟨hwf, ctl, hx⟩ := decodeX_gives (r := r) hw h
      rw [litWords_append] at hx
      exact ⟨hwf, .inr ⟨w1, w2, ctl, hx⟩⟩

end Sys2Proof

namespace Sys2Proof
open Claims

theorem length_litWords (lit : Option Word) : (litWords lit).length = if lit.isSome = true then 2 else 0 := by cases lit <;> rfl

/-! ### Length, and what decodes (R69, R70) -/

/-- The first word of a literal base instruction selects 12 bytes, another 4. -/
theorem BaseRead.lengthOfWord {w : IWord} {ws : List IWord} {i : Instr} (h : BaseRead w ws i) :
    lengthOfWord w = 4 * (encode i).length := by
  rw [h.enc, Sys2Proof.lengthOfWord, h.len, List.length_cons, length_litWords, baseLenOf]
  cases literalOf i <;> rfl

theorem XRead.lengthOfWord {w w1 w2 ctl : IWord} {ws : List IWord} {i : Instr} (h : XRead w w1 w2 ctl ws i) :
    lengthOfWord w = 4 * (encode i).length := by
  rw [h.enc, Sys2Proof.lengthOfWord, h.len, List.length_cons, List.length_cons, List.length_cons, length_litWords, xLenOf]
  cases literalOf i <;> rfl

theorem lengthFromTwoBits : LengthFromTwoBits := by
  refine ⟨fun w h => ?_, fun w h => ?_, fun w h => ?_, fun w h => ?_, fun _ => rfl, fun ws => ?_⟩
  case refine_5 =>
    induction ws with
    | nil => rfl
    | cons w ws ih =>
      rw [bytesOfWords, wordsOfBytes, ih]
      simp (disch := decide) only [BitVec.extractLsb'_append_extractLsb'_eq_extractLsb']
      exact congrArg (· :: ws) BitVec.extractLsb'_eq_self
  all_goals rw [Sys2Proof.lengthOfWord, h]; rfl

theorem decodedIsWellFormed : DecodedIsWellFormed := by
  intro w ws i h
  obtain ⟨hwf, hb | ⟨w1, w2, ctl, hx⟩⟩ := decodeWords_gives h
  · refine ⟨hwf, by simp [hb.enc], hb.lengthOfWord.symm, ?_⟩
    rw [Instr.len, hb.enc, List.length_cons]
    have := hb.tail.length_le
    omega
  · refine ⟨hwf, by simp [hx.enc], hx.lengthOfWord.symm, ?_⟩
    rw [Instr.len, hx.enc]
    have := hx.tail.length_le
    simp only [List.length_cons] at this ⊢
    omega

/-! ### The words again (log entry 58) -/

/-- What decodes encodes to the first of the words, but for the core field of kind 0. -/
theorem decodeWords_read {ws : List IWord} {i : Instr} (h : decodeWords ws = .ok i) : ∃ words, words <+: ws ∧ (encode i = words ∨
    (ofKind0 i ∧ (words.getD 2 0).extractLsb' 4 28 = 0 ∧ 2 < words.length ∧ encode i = words.set 2 0)) := by
  cases ws with
  | nil => cases h
  | cons w ws =>
    obtain ⟨-, hb | ⟨w1, w2, ctl, hx⟩⟩ := decodeWords_gives h
    · exact ⟨_, List.cons_prefix_cons.2 ⟨rfl, hb.tail⟩, .inl hb.enc⟩
    · refine ⟨_, List.cons_prefix_cons.2 ⟨rfl, hx.tail⟩, ?_⟩
      obtain rfl | ⟨hk, hz, rfl⟩ := hx.ctl
      · exact .inl hx.enc
      · exact .inr ⟨hk, hz, by simp, hx.enc⟩

theorem decodeThenEncode : DecodeThenEncode := by
  intro ws i h j hj
  obtain ⟨words, ⟨r, rfl⟩, henc | ⟨hk, hz, hlen, henc⟩⟩ := decodeWords_read h <;> rw [henc] at hj ⊢
  · exact .inl (List.getElem?_append_left hj)
  · rw [List.length_set] at hj
    rw [List.getElem?_append_left hj]
    obtain rfl | hne := eq_or_ne j 2
    · refine .inr ⟨rfl, hk, words[2], ?_, by simpa [hlen] using hz, by simp [hlen]⟩
      rw [List.getElem?_append_left hj, List.getElem?_eq_getElem hj]
    · exact .inl (List.getElem?_set_ne hne.symm).symm

end Sys2Proof

namespace Sys2Proof
open Claims

/-! ### Must-be-zero fields (R70, R72, R73, R75, R83) -/

/-- The fields of words that are zero, within the words. -/
def Zero (ws : List IWord) (fs : List (Nat × Nat × Nat)) : Prop :=
  ∀ f ∈ fs, f.1 < ws.length ∧ (ws.getD f.1 0).extractLsb' f.2.1 f.2.2 = 0

@[simp] theorem zero_nil (ws : List IWord) : Zero ws [] := by simp [Zero]
@[simp] theorem zero_cons (ws : List IWord) (f : Nat × Nat × Nat) (fs : List (Nat × Nat × Nat)) :
    Zero ws (f :: fs) ↔ (f.1 < ws.length ∧ (ws.getD f.1 0).extractLsb' f.2.1 f.2.2 = 0) ∧ Zero ws fs := by simp [Zero]

/-- The fields of an X instruction's words (R72, R73). -/
@[simp] theorem word0_registers (x : XF) (len : BitVec 2) :
    (x.word0 len).extractLsb' 26 5 = x.b ∧ (x.word0 len).extractLsb' 21 5 = x.a ∧ (x.word0 len).extractLsb' 16 5 = x.d ∧
    (x.word0 len).extractLsb' 8 8 = x.fn := by
  simp [-Nat.reduceAdd, XF.word0, BitVec.extractLsb'_append_eq_of_le, BitVec.extractLsb'_append_eq_of_add_le]

@[simp] theorem word1_fields (x : XF) :
    x.word1.extractLsb' 19 13 = x.imm ∧ x.word1.extractLsb' 15 4 = x.et ∧ x.word1.extractLsb' 12 3 = x.rm ∧
    x.word1.extractLsb' 9 3 = x.k ∧ x.word1.extractLsb' 0 5 = x.c := by
  simp [-Nat.reduceAdd, XF.word1, BitVec.extractLsb'_append_eq_of_le, BitVec.extractLsb'_append_eq_of_add_le]

/-- A part of a register field. -/
@[simp] theorem word0_parts (x : XF) (len : BitVec 2) :
    (x.word0 len).extractLsb' 29 2 = x.b.extractLsb' 3 2 ∧ (x.word0 len).extractLsb' 24 2 = x.a.extractLsb' 3 2 ∧
    (x.word0 len).extractLsb' 19 2 = x.d.extractLsb' 3 2 := by
  simp [-Nat.reduceAdd, XF.word0, BitVec.extractLsb'_append_eq_of_le, BitVec.extractLsb'_append_eq_of_add_le]

/-- A part of the immediate. -/
@[simp] theorem word1_parts (x : XF) :
    x.word1.extractLsb' 20 12 = x.imm.extractLsb' 1 12 ∧ x.word1.extractLsb' 21 11 = x.imm.extractLsb' 2 11 ∧
    x.word1.extractLsb' 22 10 = x.imm.extractLsb' 3 10 ∧ x.word1.extractLsb' 23 9 = x.imm.extractLsb' 4 9 ∧
    x.word1.extractLsb' 24 8 = x.imm.extractLsb' 5 8 ∧ x.word1.extractLsb' 25 7 = x.imm.extractLsb' 6 7 ∧
    x.word1.extractLsb' 26 6 = x.imm.extractLsb' 7 6 := by
  simp [-Nat.reduceAdd, XF.word1, BitVec.extractLsb'_append_eq_of_le]

/-- A part of a field of format A. -/
@[simp] theorem packA_parts (w3 : BitVec 3) (fn : BitVec 6) (b a d : BitVec 5) (major : BitVec 6) :
    (packA w3 fn b a d major).extractLsb' 31 1 = w3.extractLsb' 2 1 ∧ (packA w3 fn b a d major).extractLsb' 21 2 = b.extractLsb' 3 2 ∧
    (packA w3 fn b a d major).extractLsb' 16 2 = a.extractLsb' 3 2 ∧ (packA w3 fn b a d major).extractLsb' 11 2 = d.extractLsb' 3 2 := by
  simp [-Nat.reduceAdd, packA, BitVec.extractLsb'_append_eq_of_le, BitVec.extractLsb'_append_eq_of_add_le]

@[simp] theorem reg3_high (r : Fin 8) : (reg3 r).extractLsb' 3 2 = 0 := by
  simp [-Nat.reduceAdd, reg3, BitVec.extractLsb'_append_eq_of_le]

section zeros
open BitVec

theorem zero_mac (g : Guard) (m : MacCtl) (sp : Sparsity) (src : ASrc) (c : Reg) :
    Zero (encode (.mmac g m src c)) (zeroFields (.mmac g m src c)) ∧
    Zero (encode (.mmacs g m sp src c)) (zeroFields (.mmacs g m sp src c)) := by
  cases src <;> constructor <;> (conv => congr <;> whnf) <;>
    simp [-Nat.reduceAdd, extractLsb'_append_eq_of_le, macXF, macWord]

theorem zero_mwld (g : Guard) (bf : MFmt) (slot : Fin 8) (d : Reg) (src : MwldSrc) :
    Zero (encode (.mwld g bf slot d src)) (zeroFields (.mwld g bf slot d src)) := by
  cases src
  case dense i | sparse i _ _ =>
    cases i <;> delta encode zeroFields literalOf <;> dsimp only <;>
      simp [-Nat.reduceAdd, extractLsb'_append_eq_of_le, extractLsb'_append_eq_of_add_le, encXI, Imm.words, Imm.field, packMwld]
  case recDense | recSparse =>
    conv => congr <;> whnf
    simp [-Nat.reduceAdd, extractLsb'_append_eq_of_le, extractLsb'_append_eq_of_add_le, packMwld]

theorem zero_cpy (g : Guard) (op : RedOp) (et : ElemTy) (d a b : Reg) (l : LenSrc) :
    Zero (encode (.cpy g d a b l)) (zeroFields (.cpy g d a b l)) ∧
    Zero (encode (.cpyr g op et d a b l)) (zeroFields (.cpyr g op et d a b l)) := by
  obtain c | i := l
  · constructor <;> (conv => congr <;> whnf) <;> simp [-Nat.reduceAdd, extractLsb'_append_eq_of_le]
  · cases i <;> delta encode zeroFields literalOf <;> dsimp only <;>
      simp [-Nat.reduceAdd, extractLsb'_append_eq_of_le, encXI, encLen, Imm.words, Imm.field]

/-- A `plog` of one operand has no second one (R128). -/
theorem zero_plog (f : LogFn) (d a b : Fin 8) (hw : (Instr.plog f d a b).wf = true) :
    Zero (encode (.plog f d a b)) (zeroFields (.plog f d a b)) := by
  cases f
  case not | mov =>
    obtain rfl : b = 0 := by simpa [Instr.wf] using hw
    have h0 : reg3 0 = 0 := rfl
    conv => congr <;> whnf
    simp [h0]
  all_goals
    conv => congr <;> whnf
    simp

/-- The base instructions that may carry a literal (R70). -/
def takesLiteral : Instr → Bool
  | .addi .. | .andi .. | .ori .. | .xori .. | .beq .. | .bne .. | .blt .. | .bge .. | .bltu .. | .bgeu .. | .li .. | .addpc ..
  | .addcb .. | .bp .. | .j .. | .jal .. | .ld .. | .st .. | .vld .. | .vst .. => true
  | _ => false

theorem zero_immediate (i : Instr) (hg : takesLiteral i = true) : Zero (encode i) (zeroFields i) := by
  cases i <;> cases hg
  case addi | andi | ori | xori =>
    cases ‹Imm 14› <;> delta encode zeroFields literalOf <;> dsimp only <;> simp [encI, Imm.words, Imm.field]
  case beq | bne | blt | bge | bltu | bgeu =>
    cases ‹Imm 11› <;> delta encode zeroFields literalOf <;> dsimp only <;> simp [encBC, Imm.words, Imm.field]
  case li | addpc | addcb =>
    cases ‹Imm 19› <;> delta encode zeroFields literalOf <;> dsimp only <;> simp [encU, Imm.words, Imm.field]
  case bp =>
    cases ‹Imm 20› <;> delta encode zeroFields literalOf <;> dsimp only <;> simp [Imm.words, Imm.field]
  case j | jal =>
    cases ‹Imm 24› <;> delta encode zeroFields literalOf <;> dsimp only <;> simp [Imm.words, Imm.field]
  case ld | st | vld | vst =>
    cases ‹Imm 9› <;> delta encode zeroFields literalOf <;> dsimp only <;> simp [encM, Imm.words, Imm.field]

/-- The fields that a base instruction does not use are zero in its words. -/
theorem zero_base (i : Instr) (hw : i.wf = true) (hg : Machine.guardOf i = none) : Zero (encode i) (zeroFields i) := by
  cases i <;> cases hg
  case plog => exact zero_plog _ _ _ _ hw
  case addi | andi | ori | xori | beq | bne | blt | bge | bltu | bgeu | li | addpc | addcb | bp | j | jal | ld | st | vld | vst =>
    exact zero_immediate _ rfl
  case shli | shri | srai =>
    conv => congr <;> whnf
    simp [-Nat.reduceAdd, packI, extractLsb'_append_eq_of_le]
  case pf | spawn | bar | barv | bwait =>
    conv => congr <;> whnf
    simp [-Nat.reduceAdd, extractLsb'_append_eq_of_le]
  all_goals
    conv => congr <;> whnf
    simp

/-- The X instructions whose immediate may be a literal in every form (R70). -/
def takesXLiteral : Instr → Bool
  | .amo .. | .amof .. | .cas .. | .cas2 .. | .vlds .. | .vldx .. | .vstx .. | .vldb .. | .mdrain .. | .mdraina .. | .coll .. => true
  | _ => false

theorem zero_xImmediate (i : Instr) (hg : takesXLiteral i = true) : Zero (encode i) (zeroFields i) := by
  cases i <;> cases hg <;> cases ‹Imm 13›
  all_goals
    delta encode zeroFields literalOf
    dsimp only
    simp [-Nat.reduceAdd, extractLsb'_append_eq_of_le, extractLsb'_append_eq_of_add_le, encXI, encV2, encV3, Imm.words,
      Imm.field, packDrain, packColl]

/-- The fields that an X instruction does not use are zero in its words. -/
theorem zero_x (i : Instr) (hg : (Machine.guardOf i).isSome = true) : Zero (encode i) (zeroFields i) := by
  cases i <;> cases hg
  case mmac => exact (zero_mac _ _ ⟨0, 0⟩ _ _).1
  case mmacs => exact (zero_mac _ _ _ _ _).2
  case mwld => exact zero_mwld _ _ _ _ _
  case cpy => exact (zero_cpy _ .add .f32 _ _ _ _).1
  case cpyr => exact (zero_cpy _ _ _ _ _ _ _).2
  case vshl src | vshr src | vsra src =>
    cases src <;> (conv => congr <;> whnf) <;>
      simp [-Nat.reduceAdd, extractLsb'_append_eq_of_le, encV2, encV3]
  case vdot c =>
    cases c <;> (conv => congr <;> whnf) <;>
      simp [-Nat.reduceAdd, extractLsb'_append_eq_of_le, encV2, encV3]
  case vdq8 =>
    conv => congr <;> whnf
    simp [encV2]
    exact extract_zero_parts (s := 7) (l := 4) (l' := 21) (packCvt_fields ..).1 (packCvt_dequant ..)
  case get t _ _ _ _ | put t _ _ _ _ =>
    cases t <;> (conv => congr <;> whnf) <;>
      simp [-Nat.reduceAdd, extractLsb'_append_eq_of_le, PutTarget.ctl]
  case amo | amof | cas | cas2 | vlds | vldx | vstx | vldb | mdrain | mdraina | coll => exact zero_xImmediate _ rfl
  all_goals
    conv => congr <;> whnf
    simp [-Nat.reduceAdd, extractLsb'_append_eq_of_le, extractLsb'_append_eq_of_add_le, encV2, encV3, packDrain]

theorem zero_encode (i : Instr) (hw : i.wf = true) : Zero (encode i) (zeroFields i) := by
  cases hg : Machine.guardOf i with
  | none => exact zero_base i hw hg
  | some g => exact zero_x i (hg ▸ rfl)

end zeros

theorem zeroFields_ofKind0 {i : Instr} (h : ofKind0 i) :
    zeroFields i = [(0, 31, 1), (1, 19, 13), (1, 12, 3), (1, 9, 3), (2, 5, 27)] := by
  obtain ⟨g, et, d, a, b, c, rfl | rfl⟩ := h <;> rfl

theorem mustBeZeroRefused : MustBeZeroRefused := by
  intro ws i h f hf
  have hwf : i.wf = true := by
    cases ws with
    | nil => cases h
    | cons w ws => exact (decodedIsWellFormed w ws i h).1
  obtain ⟨hlt, hz⟩ := zero_encode i hwf f hf
  obtain ⟨words, ⟨r, rfl⟩, henc | ⟨hk, hc, hlen, henc⟩⟩ := decodeWords_read h <;> rw [henc] at hlt hz
  · rwa [List.getD_append _ _ _ _ hlt]
  · rw [List.length_set] at hlt
    rw [List.getD_append _ _ _ _ hlt]
    by_cases h2 : f.1 = 2
    · obtain rfl : f = (2, 5, 27) := by
        rw [zeroFields_ofKind0 hk] at hf
        obtain ⟨fa, fb, fc⟩ := f
        obtain rfl : fa = 2 := h2
        simpa using hf
      exact extract_zero_of_le hc (by decide) (by decide)
    · rwa [List.getD_eq_getElem?_getD, List.getElem?_set_ne (Ne.symm h2), ← List.getD_eq_getElem?_getD] at hz

end Sys2Proof

namespace Sys2Proof
open Claims

/-! ### The encodings that are refused (R83) -/

@[simp] theorem ElemTy.code_lt (t : ElemTy) : t.code.toNat < 14 := by cases t <;> decide
@[simp] theorem TileFmt.etCode_lt (t : TileFmt) : t.etCode.toNat < 14 := by cases t <;> decide
@[simp] theorem RoundField.code_legal (r : RoundField) : ¬r.code = 5#3 ∧ ¬r.code = 6#3 := by cases r <;> decide
@[simp] theorem atomicSize_lt (wide : Bool) : (if wide = true then 6#4 else 4#4).toNat < 14 := by cases wide <;> decide
theorem xLen_ge {n : Nat} (i : Imm n) : 2 ≤ i.xLen.toNat := by cases i <;> exact Nat.le_of_ble_eq_true rfl
theorem baseLen_lt {n : Nat} (i : Imm n) : i.baseLen.toNat < 2 := by cases i <;> exact Nat.le_of_ble_eq_true rfl

/-- What holds of the first two words of an X instruction (R76 to R81). -/
structure XCodes (ws : List IWord) : Prop where
  len : 2 ≤ ((ws.getD 0 0).extractLsb' 0 2).toNat
  fn : assigned ((ws.getD 0 0).extractLsb' 2 6).toNat ((ws.getD 0 0).extractLsb' 8 8).toNat = true
  et : ((ws.getD 1 0).extractLsb' 15 4).toNat < 14
  rm : ¬(ws.getD 1 0).extractLsb' 12 3 = 5#3 ∧ ¬(ws.getD 1 0).extractLsb' 12 3 = 6#3

theorem xCodes_encXI {x : XF} {i : Imm 13} (hf : assigned x.major.toNat x.fn.toNat = true) (het : x.et.toNat < 14)
    (hrm : ¬x.rm = 5#3 ∧ ¬x.rm = 6#3) : XCodes (encXI x i) := by
  constructor <;> simp [encXI, xLen_ge, hf, het, hrm]

theorem xCodes_encX {x : XF} (hf : assigned x.major.toNat x.fn.toNat = true) (het : x.et.toNat < 14)
    (hrm : ¬x.rm = 5#3 ∧ ¬x.rm = 6#3) : XCodes (encX x) := by
  constructor <;> simp [encX, hf, het, hrm]

theorem xCodes_encode (i : Instr) (hg : (Machine.guardOf i).isSome = true) : XCodes (encode i) := by
  cases i <;> cases hg
  case amo | amof | cas | cas2 | vlds | vldx | vstx | vldb | mdrain | mdraina | coll =>
    exact xCodes_encXI rfl (by simp [encV2, encV3]) (by simp [encV2, encV3])
  case vshl src | vshr src | vsra src =>
    cases src <;> exact xCodes_encX rfl (by simp [encV2, encV3]) (by simp [encV2, encV3])
  case mwld src =>
    cases src
    case dense | sparse => exact xCodes_encXI rfl (by simp) (by simp)
    case recDense | recSparse => exact xCodes_encX rfl (by simp) (by simp)
  case cpy l | cpyr l =>
    cases l
    · exact xCodes_encX rfl (by simp) (by simp)
    · exact xCodes_encXI rfl (by simp) (by simp)
  all_goals exact xCodes_encX rfl (by simp [encV2, encV3, macXF]) (by simp [encV2, encV3, macXF])

/-- The majors of format A. -/
def majorsA : List Nat := [0, 1, 0x0A, 0x0B, 0x0C, 0x11, 0x19, 0x1A, 0x1B, 0x1C, 0x1D, 0x1E]

/-- The majors whose instructions may carry a literal (R70). -/
def majorsLit : List Nat := [2, 3, 4, 5, 7, 8, 9, 0x0D, 0x0E, 0x0F, 0x10, 0x12, 0x13, 0x14, 0x15]

/-- A minor code and a w3 that the map of format A lists (R82). -/
def legalA (m fn w3 : Nat) : Bool :=
  majorsA.contains m && assigned m fn && !(m == 1 && (fn == 0x30 || fn == 0x31) && decide (3 ≤ w3)) &&
    !(m == 0x19 && fn == 0 && (w3 == 0 || w3 == 7)) && !(m == 0x1A && decide (4 ≤ w3))

/-- What holds of the first word of a base instruction (R79, R82). -/
structure BaseCodes (lit : Option Word) (w : IWord) : Prop where
  len : (w.extractLsb' 0 2).toNat < 2
  major : (w.extractLsb' 2 6).toNat ≤ 0x15 ∨ (0x19 ≤ (w.extractLsb' 2 6).toNat ∧ (w.extractLsb' 2 6).toNat ≤ 0x1E)
  literal : lit.isSome = true → (w.extractLsb' 2 6).toNat ∈ majorsLit
  minor : (w.extractLsb' 2 6).toNat ∈ majorsA →
    legalA (w.extractLsb' 2 6).toNat (w.extractLsb' 23 6).toNat (w.extractLsb' 29 3).toNat = true
  shift : (w.extractLsb' 2 6).toNat = 6 → w.extractLsb' 30 2 ≠ 3
  cond : (w.extractLsb' 2 6).toNat = 0x0D → (w.extractLsb' 8 3).toNat < 6
  size : 0x13 ≤ (w.extractLsb' 2 6).toNat → (w.extractLsb' 2 6).toNat ≤ 0x15 → (w.extractLsb' 18 3).toNat < 5
  target : 0x0D ≤ (w.extractLsb' 2 6).toNat → (w.extractLsb' 2 6).toNat ≤ 0x10 → ∀ v, lit = some v → v.extractLsb' 0 2 = 0

theorem baseCodes_packA {m fn : BitVec 6} {w3 : BitVec 3} {d a b : BitVec 5} (h : legalA m.toNat fn.toNat w3.toNat = true) :
    BaseCodes none (packA w3 fn b a d m) := by
  have hm : m.toNat ∈ majorsA := by
    simp only [legalA, Bool.and_eq_true] at h
    simpa using h.1.1.1.1
  have hl : ∀ k ∈ majorsA, (k ≤ 0x15 ∨ (0x19 ≤ k ∧ k ≤ 0x1E)) ∧ k ≠ 6 ∧ k ≠ 0xD ∧ ¬(0x13 ≤ k ∧ k ≤ 0x15) := by decide
  obtain ⟨hk, h6, h13, hsz⟩ := hl _ hm
  constructor <;> simp <;> grind

/-- The same for the formats with an immediate; their majors are listed. -/
theorem baseCodes_literal {lit : Option Word} {w : IWord} (hlen : (w.extractLsb' 0 2).toNat < 2)
    (hm : (w.extractLsb' 2 6).toNat ∈ majorsLit) (hc : (w.extractLsb' 2 6).toNat = 0x0D → (w.extractLsb' 8 3).toNat < 6)
    (hs : 0x13 ≤ (w.extractLsb' 2 6).toNat → (w.extractLsb' 18 3).toNat < 5)
    (ht : 0x0D ≤ (w.extractLsb' 2 6).toNat → (w.extractLsb' 2 6).toNat ≤ 0x10 → ∀ v, lit = some v → v.extractLsb' 0 2 = 0) :
    BaseCodes lit w := by
  have hl : ∀ k ∈ majorsLit, k ≤ 0x15 ∧ k ≠ 6 ∧ k ∉ majorsA := by decide
  obtain ⟨hk, h6, hA⟩ := hl _ hm
  exact ⟨hlen, .inl hk, fun _ => hm, fun h => (hA h).elim, fun h => (h6 h).elim, hc, fun h _ => hs (by omega), ht⟩

@[simp] theorem StSize.code_lt (t : StSize) : t.code.toNat < 5 := by cases t <;> decide
@[simp] theorem VSize.code_lt (t : VSize) : t.code.toNat < 5 := by cases t <;> decide

theorem branch_target {n : Nat} {i : Imm n} (h : i.branchOk = true) (v : Word) (hv : i.literal? = some v) : v.extractLsb' 0 2 = 0 := by
  cases i with
  | short => cases hv
  | lit x =>
    cases hv
    apply BitVec.eq_of_toNat_eq
    simpa [Imm.branchOk] using h

theorem BaseCodes.of_literal {lit lit' : Option Word} {w : IWord} (h : BaseCodes lit w) (hl : lit' = lit) : BaseCodes lit' w := hl ▸ h

section formats

theorem baseCodes_packI {m : BitVec 6} (hm : m.toNat ∈ [2, 3, 4, 5]) (i : Imm 14) (d a : BitVec 5) :
    BaseCodes i.literal? (packI i.field a d m i.baseLen) := by
  have hl : ∀ k ∈ [2, 3, 4, 5], k ∈ majorsLit ∧ k < 6 := by decide
  obtain ⟨hlit, h6⟩ := hl _ hm
  apply baseCodes_literal <;> simp only [packI_fields, baseLen_lt, hlit] <;> omega

theorem baseCodes_packU {m : BitVec 6} (hm : m.toNat ∈ [7, 8, 9]) (i : Imm 19) (d : BitVec 5) :
    BaseCodes i.literal? (packU i.field d m i.baseLen) := by
  have hl : ∀ k ∈ [7, 8, 9], k ∈ majorsLit ∧ k < 0xD := by decide
  obtain ⟨hlit, h13⟩ := hl _ hm
  apply baseCodes_literal <;> simp only [packU_fields, baseLen_lt, hlit] <;> omega

theorem baseCodes_packM {m : BitVec 6} (hm : m.toNat ∈ [0x12, 0x13, 0x14, 0x15]) (i : Imm 9) (h : BitVec 2) {sz : BitVec 3}
    (hs : 0x13 ≤ m.toNat → sz.toNat < 5) (d a : BitVec 5) : BaseCodes i.literal? (packM i.field h sz a d m i.baseLen) := by
  have hl : ∀ k ∈ [0x12, 0x13, 0x14, 0x15], k ∈ majorsLit ∧ 0x11 < k := by decide
  obtain ⟨hlit, h11⟩ := hl _ hm
  apply baseCodes_literal <;> simp only [packM_fields, baseLen_lt, hlit] <;> omega

theorem baseCodes_packBC {i : Imm 11} (hi : i.branchOk = true) {c : BitVec 3} (hc : c.toNat < 6) (a b : BitVec 5) :
    BaseCodes i.literal? (packBC i.field b a c 0x0D i.baseLen) := by
  apply baseCodes_literal <;> simp only [packBC_fields, baseLen_lt]
  case hm => exact List.mem_of_elem_eq_true rfl
  case hc => exact fun _ => hc
  case hs => exact fun h => absurd h (by decide)
  case ht => exact fun _ _ => branch_target hi

theorem baseCodes_packBP {i : Imm 20} (hi : i.branchOk = true) (neg : BitVec 1) (p : BitVec 3) :
    BaseCodes i.literal? (packBP i.field neg p 0x0E i.baseLen) := by
  apply baseCodes_literal <;> simp only [packBP_fields, baseLen_lt]
  case hm => exact List.mem_of_elem_eq_true rfl
  case hc => exact fun h => absurd h (by decide)
  case hs => exact fun h => absurd h (by decide)
  case ht => exact fun _ _ => branch_target hi

theorem baseCodes_packJ {i : Imm 24} (hi : i.branchOk = true) {m : BitVec 6} (hm : m.toNat ∈ [0x0F, 0x10]) :
    BaseCodes i.literal? (packJ i.field m i.baseLen) := by
  have hl : ∀ k ∈ [0x0F, 0x10], k ∈ majorsLit ∧ 0xD < k ∧ k ≤ 0x10 := by decide
  obtain ⟨hlit, h13, h16⟩ := hl _ hm
  apply baseCodes_literal <;> simp only [packJ_fields, baseLen_lt, hlit]
  case ht => exact fun _ _ => branch_target hi
  all_goals omega

theorem baseCodes_shift {k : BitVec 2} (hk : k ≠ 3) (n : BitVec 6) (d a : BitVec 5) :
    BaseCodes none (packI (k ++ 0#6 ++ n) a d 6 0) := by
  have htop : (packI (k ++ 0#6 ++ n) a d 6 0).extractLsb' 30 2 = k := by
    simp [-Nat.reduceAdd, packI, BitVec.extractLsb'_append_eq_of_le]
  constructor <;> simp only [packI_fields, htop]
  case len => decide
  case literal => exact fun h => nomatch h
  case shift => exact fun _ => hk
  case major => exact .inl (by decide)
  all_goals exact fun h => absurd h (by decide)

end formats

theorem baseCodes_encode (i : Instr) (hg : Machine.guardOf i = none) (hw : i.wf = true) (w : IWord) (tail : List IWord)
    (h : encode i = w :: tail) : BaseCodes (literalOf i) w := by
  cases i <;> cases hg
  case sext x _ _ | zext x _ _ => cases h; exact baseCodes_packA (by cases x <;> rfl)
  case fence sc _ => cases h; exact baseCodes_packA (by cases sc <;> rfl)
  case cmp c _ _ _ | pcmp c _ _ _ => cases h; exact baseCodes_packA (by cases c <;> rfl)
  case plog f _ _ _ => cases h; exact baseCodes_packA (by cases f <;> rfl)
  case shli | shri | srai => cases h; exact baseCodes_shift (by decide) ..
  case addi i | andi i | ori i | xori i =>
    cases h
    exact (baseCodes_packI (by decide) i _ _).of_literal (by cases i <;> rfl)
  case li i | addpc i | addcb i =>
    cases h
    exact (baseCodes_packU (by decide) i _).of_literal (by cases i <;> rfl)
  case beq i | bne i | blt i | bge i | bltu i | bgeu i =>
    cases h
    exact (baseCodes_packBC (i := i) hw (by decide) _ _).of_literal (by cases i <;> rfl)
  case bp i =>
    cases h
    exact (baseCodes_packBP (i := i) hw _ _).of_literal (by cases i <;> rfl)
  case j i | jal i =>
    cases h
    exact (baseCodes_packJ (i := i) hw (by decide)).of_literal (by cases i <;> rfl)
  case ld i | st i | vld i | vst i =>
    cases h
    exact (baseCodes_packM (by decide) i _ (by simp) _ _).of_literal (by cases i <;> rfl)
  all_goals cases h
  all_goals exact baseCodes_packA rfl

theorem baseLenOf_lt (lit : Option Word) : (baseLenOf lit).toNat < 2 := by cases lit <;> simp [baseLenOf]
theorem xLenOf_ge (lit : Option Word) : 2 ≤ (xLenOf lit).toNat := by cases lit <;> simp [xLenOf]

theorem guardOf_base {w : IWord} {ws : List IWord} {i : Instr} (h : BaseRead w ws i) : Machine.guardOf i = none := by
  by_contra hg
  have hx := (xCodes_encode i (Option.isSome_iff_ne_none.2 hg)).len
  rw [h.enc, List.getD_cons_zero, h.len] at hx
  exact absurd (baseLenOf_lt (literalOf i)) (by omega)

theorem guardOf_x {w w1 w2 ctl : IWord} {ws : List IWord} {i : Instr} (h : XRead w w1 w2 ctl ws i) (hw : i.wf = true) :
    (Machine.guardOf i).isSome = true := by
  by_contra hg
  have hb := (baseCodes_encode i (by simpa using hg) hw _ _ h.enc).len
  rw [h.len] at hb
  exact absurd (xLenOf_ge (literalOf i)) (by omega)

/-- What holds of the words of what decodes. -/
theorem decoded_codes {w : IWord} {ws : List IWord} {i : Instr} (h : decodeWords (w :: ws) = .ok i) :
    (BaseRead w ws i ∧ BaseCodes (literalOf i) w) ∨
    ((∃ w1 w2 ctl, XRead w w1 w2 ctl ws i) ∧ XCodes (w :: ws)) := by
  obtain ⟨hwf, hb | ⟨w1, w2, ctl, hx⟩⟩ := decodeWords_gives h
  · exact .inl ⟨hb, baseCodes_encode i (guardOf_base hb) hwf _ _ hb.enc⟩
  · refine .inr ⟨⟨w1, w2, ctl, hx⟩, ?_⟩
    have hc := xCodes_encode i (guardOf_x hx hwf)
    obtain ⟨r, rfl⟩ := hx.tail
    rw [hx.enc] at hc
    exact ⟨hc.len, hc.fn, hc.et, hc.rm⟩

/-- A literal is the two words after the instruction's own (R70). -/
theorem literal_of_words {lit : Option Word} (h : lit.isSome = true) {lo hi : IWord} {r : List IWord}
    (hw : litWords lit <+: lo :: hi :: r) : lit = some (hi ++ lo) := by
  obtain ⟨v, rfl⟩ := Option.isSome_iff_exists.1 h
  obtain ⟨hlo, hw⟩ := List.cons_prefix_cons.1 hw
  obtain ⟨hhi, -⟩ := List.cons_prefix_cons.1 hw
  subst hlo hhi
  exact congrArg some (BitVec.extractLsb'_append_extractLsb' (w := 32) (len := 32)).symm

theorem BaseRead.isSome {w : IWord} {ws : List IWord} {i : Instr} (h : BaseRead w ws i) (hl : (w.extractLsb' 0 2).toNat = 1) :
    (literalOf i).isSome = true := by
  rw [h.len] at hl
  by_contra hn
  rw [Option.not_isSome_iff_eq_none.1 hn] at hl
  cases hl

theorem XRead.isSome {w w1 w2 ctl : IWord} {ws : List IWord} {i : Instr} (h : XRead w w1 w2 ctl ws i)
    (hl : (w.extractLsb' 0 2).toNat = 3) : (literalOf i).isSome = true := by
  rw [h.len] at hl
  by_contra hn
  rw [Option.not_isSome_iff_eq_none.1 hn] at hl
  cases hl

/-- The word after the first is the low half of the literal. -/
theorem BaseRead.low_word {w : IWord} {ws : List IWord} {i : Instr} (h : BaseRead w ws i) (hl : (w.extractLsb' 0 2).toNat = 1) :
    ∃ v, literalOf i = some v ∧ ws.headD 0 = v.extractLsb' 0 32 := by
  obtain ⟨v, hv⟩ := Option.isSome_iff_exists.1 (h.isSome hl)
  obtain ⟨r, rfl⟩ := h.tail
  exact ⟨v, hv, by rw [hv]; rfl⟩

/-- A base major is none that is reserved (R79). -/
theorem baseMajor_spec {m : Nat} (h : m ≤ 0x15 ∨ (0x19 ≤ m ∧ m ≤ 0x1E)) :
    ¬(m ∈ [0x16, 0x17, 0x1F, 0x34, 0x35, 0x36, 0x37, 0x3A, 0x3B, 0x3E, 0x3F] ∨ (0x27 ≤ m ∧ m ≤ 0x2F)) := by
  simp
  omega

theorem legalA_spec {m fn w3 : Nat} (h : legalA m fn w3 = true) :
    assigned m fn = true ∧ (m = 1 → fn = 0x30 ∨ fn = 0x31 → ¬3 ≤ w3) ∧ (m = 0x19 → fn = 0 → ¬(w3 = 0 ∨ w3 = 7)) ∧
    (m = 0x1A → ¬4 ≤ w3) := by
  simp [legalA] at h
  obtain ⟨⟨⟨⟨-, hf⟩, h1⟩, h2⟩, h3⟩ := h
  exact ⟨hf, by omega, by omega, by omega⟩

/-- An X major is none of the others, and none that is reserved (R79). -/
theorem isXMajor_spec {m : Nat} (h : isXMajor m = true) : (m = 0x18 ∨ 0x20 ≤ m) ∧
    ¬(m ∈ [0x16, 0x17, 0x1F, 0x34, 0x35, 0x36, 0x37, 0x3A, 0x3B, 0x3E, 0x3F] ∨ (0x27 ≤ m ∧ m ≤ 0x2F)) := by
  simp [isXMajor] at h ⊢
  omega

theorem illegalEncodingsRefused : IllegalEncodingsRefused := by
  intro w ws i
  dsimp only
  by_cases hd : decodeWords (w :: ws) = .ok i
  case neg =>
    refine ⟨fun _ => hd, fun _ _ => hd, fun _ _ => hd, fun _ _ => hd, fun _ _ _ _ _ h => (hd h).elim,
      fun _ _ _ _ _ _ _ h => (hd h).elim, fun _ _ _ => hd, fun _ _ => hd, fun _ _ _ => hd, fun _ _ _ _ => hd, fun _ _ _ => hd,
      fun _ _ _ _ => hd, fun _ _ _ => hd, fun _ _ _ _ => hd, fun _ _ => hd, fun _ _ _ _ => hd⟩
  simp only [hd, ne_eq, not_true_eq_false, imp_false]
  obtain ⟨hb, hc⟩ | ⟨⟨w1, w2, ctl, hx⟩, hc⟩ := decoded_codes hd
  · have hlen := hc.len
    have hmajor := hc.major
    refine ⟨baseMajor_spec hc.major, by omega, by omega, ?_, ?_, by omega, ?_, by omega, fun _ => hc.shift, ?_, ?_, ?_, ?_, ?_, by omega, ?_⟩
    · exact fun h hn => hn (hc.literal (hb.isSome h))
    · rintro lo hi r h rfl -
      exact literal_of_words (hb.isSome h) hb.tail
    · exact fun _ hm => Bool.not_eq_false _ ▸ (legalA_spec (hc.minor hm)).1
    · exact fun _ hm => (legalA_spec (hc.minor (by rw [hm]; decide))).2.1 hm
    · exact fun _ hm => Nat.not_le.2 (hc.cond hm)
    · exact fun _ hm => (legalA_spec (hc.minor (by rw [hm]; decide))).2.2.1 hm
    · exact fun _ hm => (legalA_spec (hc.minor (by rw [hm]; decide))).2.2.2 hm
    · exact fun _ h h' => Nat.not_le.2 (hc.size h h')
    · intro hl h h'
      obtain ⟨v, hv, hw⟩ := hb.low_word hl
      rw [hw, BitVec.extractLsb'_extractLsb'_of_le (by decide)]
      exact not_not.2 (hc.target h h' v hv)
  · obtain ⟨hx1, hx2⟩ := isXMajor_spec hx.major
    have hlen : 2 ≤ (w.extractLsb' 0 2).toNat := hc.len
    refine ⟨hx2, fun _ => not_not.2 hx1, by omega, by omega, by omega, ?_, by omega, fun _ => ?_, by omega, by omega, by omega,
      by omega, by omega, by omega, fun _ => ?_, by omega⟩
    · rintro x y lo hi r h rfl -
      exact literal_of_words (hx.isSome h) (List.cons_prefix_cons.1 (List.cons_prefix_cons.1 hx.tail).2).2
    · exact Bool.not_eq_false _ ▸ hc.fn
    · obtain ⟨r, rfl⟩ := hx.tail
      have het := hc.et
      have hrm := hc.rm
      rintro (h | h | h)
      exacts [Nat.not_le.2 het h, hrm.1 h, hrm.2 h]

/-- Settles O32: the words of each instruction are packed from its fields, so what a decoder accepts it read from them. -/
theorem decodedForm : Obligations.DecodedForm :=
  ⟨lengthFromTwoBits, decodedIsWellFormed, illegalEncodingsRefused, mustBeZeroRefused, decodeThenEncode⟩

end Sys2Proof

/-! SUPPORT. What the memory system does keeps everything outside it: the thread sets, the dispatchers, the front end and the clock;
of a thread set, the placement of a fold moves the clock only. -/

namespace Sys2Proof.Machine

/-- A state without its memory system: what writes, homes and folds leave alone. -/
def State.outside (s : State) : State := { s with cores := [], msys := {}, faults := {}, fab := {}, picks := [], free := 0 }

@[simp] theorem State.setCore_outside (s : State) (c : Nat) (x : Core) : (s.setCore c x).outside = s.outside := rfl

/-! ### Open choices and memory -/

@[simp] theorem State.pick_outside (s : State) : s.pick.2.outside = s.outside := by
  unfold State.pick; split <;> rfl

@[simp] theorem setMem_outside (s : State) (sp : Space) (m : Memory) : (setMem s sp m).outside = s.outside := by cases sp <;> rfl

@[simp] theorem setPoison_outside (s : State) (sp : Space) (l : List Nat) : (setPoison s sp l).outside = s.outside := by
  cases sp <;> rfl

@[simp] theorem unpoison_outside (s : State) (sp : Space) (a n : Nat) : (unpoison s sp a n).outside = s.outside := by
  unfold unpoison; split
  · rfl
  · exact setPoison_outside ..

@[simp] theorem poisonRange_outside (s : State) (sp : Space) (a n : Nat) : (poisonRange s sp a n).outside = s.outside :=
  setPoison_outside ..

@[simp] theorem keepPast_outside (s : State) (sp : Space) (key : KeyMat) (line n : Nat) :
    (keepPast s sp key line n).outside = s.outside := by
  rw [keepPast_only_past]; rfl

@[simp] theorem writeNum_outside (s : State) (sp : Space) (key : KeyMat) (a v n : Nat) :
    (writeNum s sp key a v n).outside = s.outside := by
  unfold writeNum
  extract_lets s0 s1
  have h0 : s0.outside = s.outside := by
    unfold s0; split
    · rfl
    · exact keepPast_outside ..
  have h1 : s1.outside = s.outside := by simp [s1, h0]
  cases sp <;> exact h1

@[simp] theorem rawWrite_outside (s : State) (l : Loc) (v n : Nat) : (rawWrite s l v n).outside = s.outside := writeNum_outside ..

/-- A fold of steps that keep what lies outside keeps it. -/
theorem foldl_outside {α : Type} {f : State → α → State} (hf : ∀ s a, (f s a).outside = s.outside) (l : List α) (s : State) :
    (l.foldl f s).outside = s.outside := by
  induction l generalizing s with
  | nil => rfl
  | cons a r ih => rw [List.foldl_cons, ih, hf]

/-! ### Writes on their way to the host -/

@[simp] theorem forgetEarlier_outside (s : State) (die : Nat) (l : Loc) : (forgetEarlier s die l).outside = s.outside := rfl

@[simp] theorem keepEarlier_outside (s : State) (e : Option Nat) (l : Loc) : (keepEarlier s e l).outside = s.outside := by
  unfold keepEarlier; split
  · rfl
  · exact State.pick_outside s

@[simp] theorem deliverPost_outside (s : State) (x : Posted) : (deliverPost s x).outside = s.outside := by
  unfold deliverPost
  extract_lets s1 _ s2
  have h2 : s2.outside = s1.outside := by
    refine foldl_outside (fun s i => ?_) _ _
    extract_lets at' m v s3
    have h3 : s3.outside = s.outside := by
      unfold s3; split
      · rfl
      · split
        · simp
        · refine foldl_outside (fun s j => ?_) _ _
          split <;> simp
    split <;> simp [h3]
  exact h2.trans (by simp [s1])

@[simp] theorem deliverBefore_outside (x : Posted) (kept : List Posted) (s : State) :
    (deliverBefore x kept s).outside = s.outside := by
  refine foldl_outside (fun s y => ?_) _ _
  split
  · extract_lets c
    split <;> simp [c]
  · simp

@[simp] theorem settlePosts_outside (sel : Posted → Option Bool) (kept l : List Posted) (s : State) :
    (settlePosts sel kept l s).2.outside = s.outside := by
  induction l generalizing s kept with
  | nil => rfl
  | cons x r ih =>
    unfold settlePosts
    extract_lets done c
    split
    · exact ih ..
    · split
      · simp [ih]
      · split <;> simp [ih, c]

@[simp] theorem settle_outside (sel : Posted → Option Bool) (s : State) : (settle sel s).outside = s.outside := by
  unfold settle; split
  · rfl
  · exact settlePosts_outside ..

@[simp] theorem touchHost_outside (s : State) (l : Loc) : (touchHost s l).outside = s.outside := settle_outside ..

@[simp] theorem ncSend_outside (s : State) (x : NcLine) (ts : List Nat) : (ncSend s x ts).outside = s.outside := by
  unfold ncSend; split <;> rfl

@[simp] theorem ncDrop_outside (s : State) (die : Nat) (l : Loc) (ts : List Nat) : (ncDrop s die l ts).outside = s.outside := by
  unfold ncDrop
  extract_lets s1
  split
  · rfl
  · exact ncSend_outside s1 ..

/-! ### Homes -/

@[simp] theorem putRegion_outside (s : State) (r : Region) : (putRegion s r).outside = s.outside := rfl

@[simp] theorem keepOld_outside (s : State) (key : Nat) (l : Loc) (wts rts : Nat) : (keepOld s key l wts rts).outside = s.outside := rfl

@[simp] theorem splitRegion_outside (s : State) (key : Nat) : (splitRegion s key).outside = s.outside := by
  unfold splitRegion
  extract_lets
  split
  · rfl
  · split <;> rfl

@[simp] theorem recallOwner_outside (s : State) (key : Nat) (e : Option Nat) : (recallOwner s key e).outside = s.outside := by
  unfold recallOwner; split
  · rfl
  · split
    · rfl
    · extract_lets _ s1 k
      split
      · rfl
      · extract_lets s2
        have h2 : s2.outside = s.outside := by
          unfold s2; split
          · exact splitRegion_outside s1 _
          · rfl
        exact h2

@[simp] theorem stampWrite_outside (s : State) (pts : Nat) (l : Loc) (owner : Option Nat) :
    (stampWrite s pts l owner).2.outside = s.outside := by
  unfold stampWrite; split
  · rfl
  · rw [putRegion_outside, keepOld_outside, splitRegion_outside, recallOwner_outside]

@[simp] theorem hubWrite_outside (s : State) (a v n : Nat) : (hubWrite s a v n).outside = s.outside :=
  (writeNum_outside ..).trans (stampWrite_outside ..)

@[simp] theorem errorLog_outside (s : State) (die type peer launch addr : Nat) :
    (errorLog s die type peer launch addr).outside = s.outside := by
  unfold errorLog
  extract_lets
  split
  · rfl
  · exact hubWrite_outside ..

@[simp] theorem setPlacePts_outside (s : State) (die : Nat) (l : Loc) (cached : Bool) (p : Nat) :
    (setPlacePts s die l cached p).outside = s.outside := by
  unfold setPlacePts
  extract_lets s1 _ s2
  have h1 : s1.outside = s.outside := by unfold s1; split <;> rfl
  have h2 : s2.outside = s.outside := by unfold s2; split <;> exact h1
  split
  · exact h2
  · split <;> exact h2

/-! ### Folds -/

/-- A state that keeps everything outside the memory system, and of each thread set everything but its clock. -/
structure KeepsThreads (s t : State) : Prop where
  outside : { t.outside with tsets := [] } = { s.outside with tsets := [] }
  ts : ∀ k, ∃ p, t.ts k = { s.ts k with pts := p }

namespace KeepsThreads

theorem of_outside {s t : State} (h : t.outside = s.outside) : KeepsThreads s t :=
  ⟨by rw [h], fun k => ⟨(s.ts k).pts, show t.outside.ts k = s.outside.ts k by rw [h]⟩⟩

theorem refl (s : State) : KeepsThreads s s := of_outside rfl

theorem trans {s t u : State} (h : KeepsThreads s t) (h' : KeepsThreads t u) : KeepsThreads s u :=
  ⟨h'.outside.trans h.outside, fun k => by
    obtain ⟨p, hp⟩ := h.ts k
    obtain ⟨q, hq⟩ := h'.ts k
    exact ⟨q, by rw [hq, hp]⟩⟩

theorem cur {s t : State} (h : KeepsThreads s t) : t.cur = s.cur := by
  have := congrArg State.cur h.outside
  exact this

/-- The clock of a thread set moves. -/
theorem setTs_pts (s : State) (t p : Nat) : KeepsThreads s (s.setTs t { s.ts t with pts := p }) := by
  refine ⟨rfl, fun k => ?_⟩
  obtain rfl | hk := eq_or_ne k t
  · exact ⟨p, State.setTs_ts_self ..⟩
  · exact ⟨_, State.setTs_ts_ne s hk _⟩

theorem foldl {α : Type} {f : State → α → State} (hf : ∀ s a, KeepsThreads s (f s a)) (l : List α) (s : State) :
    KeepsThreads s (l.foldl f s) := by
  induction l generalizing s with
  | nil => exact refl s
  | cons a r ih => exact (hf s a).trans (ih _)

end KeepsThreads

theorem performFold_keeps (s : State) (f : Fold) : KeepsThreads s (performFold s f) := by
  unfold performFold
  extract_lets n die first s1 r s2 x s3
  have h1 : s1.outside = s.outside := by
    unfold s1; split
    · simp
    · split <;> simp
  have h2 : s2.outside = s.outside := by simp [s2, r, h1]
  have h3 : KeepsThreads s2 s3 := by
    unfold s3; split
    · exact KeepsThreads.setTs_pts ..
    · exact KeepsThreads.refl _
  refine ((KeepsThreads.of_outside h2).trans h3).trans (KeepsThreads.foldl (fun s o => KeepsThreads.of_outside ?_) _ _)
  extract_lets l
  split <;> simp

theorem placeFold_keeps (s : State) (f : Fold) : KeepsThreads s (placeFold s f) := by
  unfold placeFold; split
  · split
    · exact performFold_keeps ..
    · exact KeepsThreads.of_outside rfl
    · exact KeepsThreads.of_outside (errorLog_outside ..)
  · split
    · exact performFold_keeps ..
    · exact KeepsThreads.of_outside rfl
  · exact performFold_keeps ..

theorem placeCore_keeps (s : State) (c : Nat) (p : Fold → Bool) : KeepsThreads s (placeCore s c p) := by
  unfold placeCore
  extract_lets k s1
  split
  · exact (KeepsThreads.of_outside (s := s) (t := s1) rfl).trans (KeepsThreads.foldl placeFold_keeps _ s1)
  · exact KeepsThreads.refl s

theorem placeFolds_keeps (s : State) (t scope : Nat) : KeepsThreads s (placeFolds s t scope) := placeCore_keeps ..

/-- The place that a `fence.sys` takes for a thread set's writes to the host (R286). -/
theorem settleHost_keeps (s : State) (t : Nat) (complete : Bool) : KeepsThreads s (settleHost s t complete) := by
  unfold settleHost
  extract_lets s1 mine fs report _ _ s2
  have h2 : KeepsThreads s s2 := KeepsThreads.of_outside (settle_outside ..)
  refine h2.trans (KeepsThreads.foldl (fun s f => ?_) _ _)
  extract_lets c
  split
  · exact performFold_keeps ..
  · split
    · exact (KeepsThreads.of_outside (State.pick_outside s)).trans (performFold_keeps ..)
    · exact KeepsThreads.of_outside (State.pick_outside s)

/-! ### The post of a fault (R87, R138) -/

/-- A record of a fault moves the sequence number of a thread set only. -/
theorem addFault_ts (s : State) (t source : Nat) (f : FaultInfo) (i : Instr) (pc : Word) (cmd pts k : Nat) :
    ∃ q, (addFault s t source f i pc cmd pts).1.ts k = { s.ts k with faultSeq := q } := by
  obtain rfl | hk := eq_or_ne k (t % 16384)
  · exact ⟨_, State.setTs_ts_self ..⟩
  · exact ⟨_, State.setTs_ts_ne s hk _⟩

/-- A fault of a compute core's thread set: it waits for the reply where it was. -/
theorem postFault_waits {s : State} (hs : isService (coreOf s.cur) = false) (i : Instr) (f : FaultInfo) :
    (postFault i f s).me.pc = s.me.pc ∧ (postFault i f s).me.s = s.me.s ∧ ∃ h, (postFault i f s).me.status = .waitReply h := by
  unfold postFault
  rw [hs]
  extract_lets s1 r t
  have h1 : KeepsThreads s s1 := placeFolds_keeps ..
  obtain ⟨p, hp⟩ := h1.ts s.cur
  obtain ⟨q, hq⟩ := addFault_ts s1 s1.cur 0 f i s1.me.pc 0 s1.me.pts s.cur
  have ht : t = { s.me with pts := p, faultSeq := q } := by
    rw [hp] at hq
    exact (congrArg r.1.ts h1.cur).trans hq
  simp only [Bool.false_eq_true, if_false, State.setMe_me, ht]
  exact ⟨trivial, trivial, _, rfl⟩

/-- Settles O15: the jump posts its fault before it writes anything, and the post leaves its thread set at the jump. -/
theorem misalignedJump : Obligations.MisalignedJump := by
  refine ⟨fun s d a h => ⟨jumpReg_misaligned h, jumpReg_misaligned h, fun hs i hi => ?_⟩, rfl, rfl⟩
  have hposted : exec i s = posted i { cls := 1 } s := by
    obtain rfl | rfl : i = .jr a ∨ i = .jalr d a := by simpa using hi
    · exact jumpReg_misaligned h
    · exact jumpReg_misaligned h
  exact ⟨_, hposted, postFault_waits hs _ _⟩

end Sys2Proof.Machine

/-! SUPPORT. How waits end and faults are posted (O52): a late result's registers, the blocked instructions that are looked at again, the
fence that has waited its time, and the message of a fault. -/

namespace Sys2Proof.Machine

/-! ### A late result (R110) -/

/-- One register, taken from another thread set if a mask names it. -/
def takeS (y : ThreadSet) (p : Reg → Bool) (t : ThreadSet) (r : Reg) : ThreadSet := if p r = true then t.setS r (y.getS r) else t
def takeV (y : ThreadSet) (p : Reg → Bool) (t : ThreadSet) (r : Reg) : ThreadSet := if p r = true then t.setV r (y.getV r) else t

theorem takeS_getS (y : ThreadSet) (p : Reg → Bool) (t : ThreadSet) (r q : Reg) :
    (takeS y p t r).getS q = if q = r ∧ p q = true then y.getS q else t.getS q := by
  unfold takeS
  obtain rfl | hq := eq_or_ne q r
  · split
    · obtain rfl | h0 := eq_or_ne q 0
      · simp [*, ThreadSet.getS]
      · simp [*, ThreadSet.getS_setS_self]
    · simp [*]
  · split <;> simp [hq, ThreadSet.getS_setS_ne]

theorem takeV_getV (y : ThreadSet) (p : Reg → Bool) (t : ThreadSet) (r q : Reg) :
    (takeV y p t r).getV q = if q = r ∧ p q = true then y.getV q else t.getV q := by
  unfold takeV
  obtain rfl | hq := eq_or_ne q r
  · split <;> simp [*]
  · split <;> simp [hq, ThreadSet.getV_setV_ne]

theorem takeS_parts (y : ThreadSet) (p : Reg → Bool) (t : ThreadSet) (r : Reg) : (takeS y p t r).v = t.v ∧
    (takeS y p t r).pc = t.pc ∧ (takeS y p t r).status = t.status ∧ (takeS y p t r).pendS = t.pendS ∧
    (takeS y p t r).pendV = t.pendV := by
  unfold takeS
  split <;> simp

theorem takeV_parts (y : ThreadSet) (p : Reg → Bool) (t : ThreadSet) (r : Reg) : (takeV y p t r).s = t.s ∧
    (takeV y p t r).pc = t.pc ∧ (takeV y p t r).status = t.status ∧ (takeV y p t r).pendS = t.pendS ∧
    (takeV y p t r).pendV = t.pendV := by
  unfold takeV
  split <;> exact ⟨rfl, rfl, rfl, rfl, rfl⟩

/-- A part that every step keeps is kept by the fold. -/
theorem foldl_part {α : Type} {part : ThreadSet → α} {f : ThreadSet → Reg → ThreadSet} (hf : ∀ t r, part (f t r) = part t)
    (l : List Reg) (t : ThreadSet) : part (l.foldl f t) = part t := by
  induction l generalizing t with
  | nil => rfl
  | cons r l ih => rw [List.foldl_cons, ih, hf]

/-- A fold over the registers sets those that are named. -/
theorem foldl_take {α : Type} {get : ThreadSet → Reg → α} {f : ThreadSet → Reg → ThreadSet} {p : Reg → Bool} {val : Reg → α}
    (hf : ∀ t r q, get (f t r) q = if q = r ∧ p q = true then val q else get t q) (l : List Reg) (t : ThreadSet) (q : Reg) :
    get (l.foldl f t) q = if q ∈ l ∧ p q = true then val q else get t q := by
  induction l generalizing t with
  | nil => simp
  | cons r l ih =>
    rw [List.foldl_cons, ih, hf]
    by_cases hp : p q = true <;> by_cases hl : q ∈ l <;> simp [hp, hl]

/-- What is taken, and what is left. -/
theorem takeRegs_spec (x y : ThreadSet) (u : Uses) :
    (∀ q, (takeRegs x y u).getS q = if u.ws.getLsbD q.val = true then y.getS q else x.getS q) ∧
    (∀ q, (takeRegs x y u).getV q = if u.wv.getLsbD q.val = true then y.getV q else x.getV q) ∧
    (takeRegs x y u).pendS = x.pendS &&& ~~~u.ws ∧ (takeRegs x y u).pendV = x.pendV &&& ~~~u.wv ∧
    (takeRegs x y u).pc = x.pc ∧ (takeRegs x y u).status = x.status := by
  let pS : Reg → Bool := fun r => u.ws.getLsbD r.val
  let pV : Reg → Bool := fun r => u.wv.getLsbD r.val
  let xs := (List.finRange 32).foldl (takeS y pS) x
  let z := (List.finRange 32).foldl (takeV y pV) xs
  have he : takeRegs x y u = z.setPending (z.pendS &&& ~~~u.ws) (z.pendV &&& ~~~u.wv) := rfl
  have hS : ∀ q, xs.getS q = if pS q = true then y.getS q else x.getS q := fun q => by
    simpa using foldl_take (takeS_getS y pS) (List.finRange 32) x q
  have hV : ∀ q, z.getV q = if pV q = true then y.getV q else xs.getV q := fun q => by
    simpa using foldl_take (takeV_getV y pV) (List.finRange 32) xs q
  have hkeepV : ∀ {α : Type} {part : ThreadSet → α}, (∀ t r, part (takeV y pV t r) = part t) → part z = part xs :=
    fun h => foldl_part h _ _
  have hkeepS : ∀ {α : Type} {part : ThreadSet → α}, (∀ t r, part (takeS y pS t r) = part t) → part xs = part x :=
    fun h => foldl_part h _ _
  have hVs := takeV_parts y pV
  have hSs := takeS_parts y pS
  rw [he]
  refine ⟨fun q => ?_, fun q => ?_, ?_, ?_, ?_, ?_⟩
  · rw [← hS]
    exact congrArg (fun v : Vector Word 32 => if q = 0 then (0 : Word) else v[q]) (hkeepV fun t r => (hVs t r).1)
  · refine (hV q).trans ?_
    rw [show xs.getV q = x.getV q from congrArg (·[q]) (hkeepS fun t r => (hSs t r).1)]
  · exact congrArg (· &&& _) ((hkeepV fun t r => (hVs t r).2.2.2.1).trans (hkeepS fun t r => (hSs t r).2.2.2.1))
  · exact congrArg (· &&& _) ((hkeepV fun t r => (hVs t r).2.2.2.2).trans (hkeepS fun t r => (hSs t r).2.2.2.2))
  · exact (hkeepV fun t r => (hVs t r).2.1).trans (hkeepS fun t r => (hSs t r).2.1)
  · exact (hkeepV fun t r => (hVs t r).2.2.1).trans (hkeepS fun t r => (hSs t r).2.2.1)

/-- A late result ends (R110). -/
theorem lateResult_ends {s : State} {i : Nat} {w : Writeback} (hw : s.faults.writebacks[i]? = some w) (hp : w.peer = none) :
    exec (.resultWriteback i) s = .next (if w.orphan = true then dropWriteback s i else
      (dropWriteback s i).setTs w.ts (takeRegs (s.ts w.ts) w.snap (usesOf w.instr))) := by
  change execResultWriteback i s = _
  simp only [execResultWriteback, hw, hp]
  rfl

/-- An access whose peer cannot be reached, or that follows one that waits, waits on (R299). -/
theorem waitingAccess_stays {s : State} {i p : Nat} {w : Writeback} (hw : s.faults.writebacks[i]? = some w) (hp : w.peer = some p)
    (h : canTry s p = false ∨ behindOther s i w = true) : exec (.resultWriteback i) s = .next s := by
  change execResultWriteback i s = _
  simp only [execResultWriteback, hw, hp]
  obtain h | h := h <;> simp [h]

theorem cannot_try {s : State} {p : Nat} (h : (p = 256 ∧ s.mgmt.hostUp = false) ∨
    (p ≠ 256 ∧ ∃ x u, s.peer? p = some x ∧ x.link = .retraining u)) : canTry s p = false := by
  obtain ⟨rfl, hu⟩ | ⟨hp, x, u, hx, hl⟩ := h
  · exact (if_pos rfl).trans hu
  · refine (if_neg hp).trans ?_
    simp [retrains, hx, hl]

/-! ### Blocked instructions (R134, R239, R299) -/

section blocked
variable {s : State} {t : Nat}

theorem canGoOn_eq (hh : (s.ts t).halted = false) (ht : t < 4 * 4096) : canGoOn s t = true := by
  rw [canGoOn, hh]
  exact decide_eq_true (show t / 4 < 4096 by omega)

/-- A blocked queue instruction is evaluated as its thread set. -/
theorem queueBlockRelease_evaluates {i : Instr} (hs : (s.ts t).status = .waitQueue i) (hh : (s.ts t).halted = false)
    (ht : t < 4 * 4096) : exec (.queueBlockRelease t) s = asTs t (evaluate i) s := by
  change execQueueBlockRelease t s = _
  simp only [execQueueBlockRelease, hs, canGoOn_eq hh ht, if_true]

theorem wake_evaluates {i : Instr} (hs : (s.ts t).status = .waitWake i) (hh : (s.ts t).halted = false)
    (ht : t < 4 * 4096) : exec (.wake t) s = asTs t (evaluate i) s := by
  change execWake t s = _
  simp only [execWake, hs, canGoOn_eq hh ht, if_true]

theorem wake_waits_phase {g p : Nat} (hs : (s.ts t).status = .waitPhase g p) (hh : (s.ts t).halted = false)
    (ht : t < 4 * 4096) : exec (.wake t) s = asTs t (waitPhase (Fin.ofNat 4 g) p) s := by
  change execWake t s = _
  simp only [execWake, hs, canGoOn_eq hh ht, if_true]

/-- A halted thread set stays blocked (R390). -/
theorem halted_stays (hh : (s.ts t).halted = true) : exec (.queueBlockRelease t) s = .next s ∧ exec (.wake t) s = .next s := by
  have hc : canGoOn s t = false := by simp [canGoOn, hh]
  constructor
  · change execQueueBlockRelease t s = _
    unfold execQueueBlockRelease
    split <;> simp [hc]
  · change execWake t s = _
    unfold execWake
    split <;> simp [hc]

/-- What a thread set does to itself alone is seen in its own record. -/
theorem asTs_setTs {k : State → Out} {x : ThreadSet} (h : k { s with cur := t } = .next (State.setTs { s with cur := t } t x)) :
    nextWith (asTs t k s) fun u => u.ts t = x ∧ u.cur = s.cur := by
  refine ⟨{ State.setTs { s with cur := t } t x with cur := s.cur }, ?_, State.setTs_ts_self s t x, rfl⟩
  rw [asTs, h]

theorem execQgetQr_cons {d : Reg} {m : VWord} {q : List VWord} (h : s.me.qr = m :: q) :
    execQgetQr d s = nextMe s { (s.me.setV d m).setQr q with status := .running } 4 := by
  simp only [execQgetQr, h]

/-- A `cwait` whose word has reached the value ends (R287). -/
theorem execCwait_reached {d a b : Reg} {v : Nat} {s1 : State} (ha : (s.me.getS a).toNat % 8 = 0)
    (hm : memRead (s.who s.cur) .unc (s.me.getS a) 8 s = .ok (v, s1)) (hpart : s1.me.part = none) (hv : (s.me.getS b).toNat ≤ v) :
    execCwait d a b s = .next (s1.setMe ({ s1.me.setS d (BitVec.ofNat 64 v) with status := .running }.past 4)) := by
  let u := s1.setMe { s1.me.setS d (BitVec.ofNat 64 v) with status := .running }
  have hu : u.me.part = none := by simpa [u] using hpart
  rw [execCwait, runOp_ok (t := u) ?_ hu]
  · simp [u, State.advance, State.setMe_setMe]
  · rw [Op.bind_of_ok (a := ()) (t := s) (by rw [Op.need, if_pos (decide_eq_true ha)]; rfl), Op.bind_of_ok hm, if_neg (Nat.not_lt.2 hv)]
    rfl

theorem waitPhase_passes {g : Fin 4} {p : Nat} {l : Launch} {y : Group} (hg : groupOf s g = some (l, y)) (hp : p < y.completed) :
    waitPhase g p s = passPhase y s.me s := by
  simp only [waitPhase, hg, if_pos hp]

end blocked

/-! ### A fence that has waited its time (R287) -/

/-- Nothing is placed when the buffer holds no fold of the thread set. -/
theorem placeFolds_none {s : State} {t : Nat} (h : ∀ f ∈ (s.core (coreOf t)).folds, f.ts ≠ t) (scope : Nat) :
    placeFolds s t scope = s := by
  refine if_neg ?_
  rw [Bool.not_eq_true, List.any_eq_false]
  intro f hf
  simp [h f hf]

/-- The thread set of a fence that ends goes on past it with the status. -/
theorem endFence_ts (s : State) (t : Nat) (sc : Scope) (d : Reg) (x : Word) :
    ((endFence s t sc d x).ts t).status = .running ∧ ((endFence s t sc d x).ts t).pc = (s.ts t).pc + 4 ∧
    ((endFence s t sc d x).ts t).getS d = if d = 0 then 0 else x := by
  unfold endFence
  extract_lets s1 y y1
  have h1 : KeepsThreads s s1 := by
    unfold s1; split
    · exact settleHost_keeps ..
    · exact KeepsThreads.refl s
  obtain ⟨p, hp⟩ := h1.ts t
  have hpc : y1.pc = (s.ts t).pc + 4 := by
    show (s1.ts t |>.setS d x).pc + 4 = _
    rw [ThreadSet.setS_pc, hp]
  have hget : y1.getS d = if d = 0 then 0 else x := ThreadSet.getS_setS_self ..
  rw [State.setTs_ts_self]
  split <;> exact ⟨rfl, hpc, hget⟩

section fence
variable {s : State} {t since : Nat} {sc : Scope} {d : Reg}

theorem fence_early (hs : (s.ts t).status = .waitFence (.fence sc d) since) (h : s.clk < since + 3400000) :
    exec (.fenceTimeout t) s = .next s := by
  change execFenceTimeout t s = _
  simp only [execFenceTimeout, hs]
  rw [if_neg (show ¬since + fenceClk ≤ s.clk from Nat.not_le.2 h)]

/-- A fence of scope `fab` or `sys` that has waited its time ends as `fenceStatus` says. -/
theorem fence_late {x : Word} (hs : (s.ts t).status = .waitFence (.fence sc d) since) (hh : (s.ts t).halted = false)
    (ht : t < 4 * 4096) (h : since + 3400000 ≤ s.clk) (hf : ∀ f ∈ (s.core (coreOf t)).folds, f.ts ≠ t)
    (hx : fenceStatus s t sc true = some x) : nextWith (exec (.fenceTimeout t) s) fun u =>
      (u.ts t).status = .running ∧ (u.ts t).pc = (s.ts t).pc + 4 ∧ (u.ts t).getS d = if d = 0 then 0 else x := by
  refine ⟨endFence s t sc d x, ?_, endFence_ts ..⟩
  change execFenceTimeout t s = _
  simp only [execFenceTimeout, hs]
  rw [if_pos (show since + fenceClk ≤ s.clk from h), reviewFence, canGoOn_eq hh ht]
  simp only [Bool.not_true, Bool.false_eq_true, if_false, hs, placeFolds_none hf, hx]

theorem fenceStatus_failed (hsc : sc = .fab ∨ sc = .sys) {p : Nat} (h : failedPeer s (s.ts t).toPeers = some p) :
    fenceStatus s t sc true = some (BitVec.ofNat 64 (1 + 256 * p)) := by
  obtain rfl | rfl := hsc <;> simp [fenceStatus, scopeNum, h, fenceWord]

theorem fenceStatus_parked (hsc : sc = .fab ∨ sc = .sys) (h : failedPeer s (s.ts t).toPeers = none) {p : Nat}
    (hp : parkedPeer s t = some p) : fenceStatus s t sc true = some (BitVec.ofNat 64 (2 + 256 * p)) := by
  obtain rfl | rfl := hsc <;> simp [fenceStatus, scopeNum, h, hp, fenceWord]

theorem fenceStatus_host (h : failedPeer s (s.ts t).toPeers = none) (hp : parkedPeer s t = none) (hh : hostPending s t = true)
    (hu : s.mgmt.hostUp = false) : fenceStatus s t .sys true = some 3 := by
  simp [fenceStatus, scopeNum, h, hp, hh, hu, fenceWord]

end fence

/-! ### The fetch and the run limit (R88, R143 to R145) -/

theorem fetchFault_posts {s : State} {f : FaultInfo} (h : fetchWords (s.who s.cur) s.me.pc.toNat s = .error (.fault f)) :
    exec .instructionFetchFault s = posted .instructionFetchFault f s := by
  have hf : fetchNext s = .error (.fault f) := (Op.bind_of_ok (x := Op.ask id) rfl).trans (Op.bind_of_error h)
  change execInstructionFetchFault s = _
  rw [execInstructionFetchFault, hf]
  rfl

theorem runLimit_early {s : State} {c : Nat} (h : (s.core c).run < 256) (held : BitVec 4) : runLimit held c s = s := if_pos h

/-- The next slot is taken when it is ready. -/
theorem nextReady_next {s : State} {held : BitVec 4} {core slot : Nat} (h : ready s held (4 * core + (slot + 1) % 4) = true) :
    nextReady s held core slot = some ((slot + 1) % 4) := by
  simp [nextReady, h]

theorem nextReady_none {s : State} {held : BitVec 4} {core : Nat} (h : ∀ i, i < 4 → ready s held (4 * core + i) = false) (slot : Nat) :
    nextReady s held core slot = none := by
  simp [nextReady, h, Nat.mod_lt]

theorem issueRunLimit_switches {s : State} (h : 256 ≤ (s.core (coreOf s.cur)).run) {i : Nat}
    (hn : nextReady s 0 (coreOf s.cur) (s.core (coreOf s.cur)).slot = some i) : exec .issueRunLimit s =
      .next (if (s.core (coreOf s.cur)).idle = true then s else
        s.setCore (coreOf s.cur) { s.core (coreOf s.cur) with slot := i, run := 0 }) := by
  change (.next (runLimit 0 (coreOf s.cur) s) : Out) = _
  rw [runLimit, if_neg (Nat.not_lt.2 h), hn]

theorem issueRunLimit_restarts {s : State} (h : 256 ≤ (s.core (coreOf s.cur)).run)
    (hn : nextReady s 0 (coreOf s.cur) (s.core (coreOf s.cur)).slot = none) : exec .issueRunLimit s =
      .next (s.setCore (coreOf s.cur) { s.core (coreOf s.cur) with run := 0 }) := by
  change (.next (runLimit 0 (coreOf s.cur) s) : Out) = _
  rw [runLimit, if_neg (Nat.not_lt.2 h), hn]

/-! ### The message of a fault (R302, R370, R372) -/

theorem markRepost_bits (m : BitVec 512) (on : Bool) :
    (∀ b, b ≠ 16 → (markRepost m on).getLsbD b = m.getLsbD b) ∧ (on = true → (markRepost m on).getLsbD 16 = true) ∧
    (on = false → markRepost m on = m) := by
  refine ⟨fun b hb => ?_, ?_, ?_⟩
  · cases on
    · rfl
    · have h16 : (BitVec.ofNat 512 (2 ^ 16)).getLsbD b = false := by
        rw [BitVec.getLsbD_ofNat, Nat.testBit_two_pow_of_ne (Ne.symm hb), Bool.and_false]
      rw [markRepost, if_pos rfl, BitVec.getLsbD_or, h16, Bool.or_false]
  · rintro rfl
    simp [markRepost]
  · rintro rfl
    rfl

/-- The state after the post of the i-th fault to the thread set that serves it, or to none. -/
def postTo (s : State) (i : Nat) (r : FaultRec) : Option (Nat × Bool) → State
  | none => killLaunch s r.launch 5
  | some (t, repost) =>
    if 16 ≤ (s.ts t).qf.length then s
    else
      let m := markRepost r.msg repost
      let pts := if r.source = 0 then max r.pts (s.ts r.ts).pts else r.pts
      let u := s.setTs t { s.ts t with qf := (s.ts t).qf ++ [m], qfPts := (s.ts t).qfPts ++ [pts] }
      u.setFaults { u.faults with recs := s.faults.recs.set i { r with posted := true, msg := m, pts } }

section post
variable {s : State} {i : Nat} {r : FaultRec}

/-- A fault whose poster has nothing earlier to wait for is posted where it is routed. -/
theorem faultPost_routes (hr : s.faults.recs[i]? = some r) (hp : r.posted = false)
    (hq : ∀ q ∈ s.faults.recs.take i, q.ts = r.ts → q.posted = true) (hw : r.source = 0 → waitsForPeer s r.ts = false) :
    exec (.faultPost i) s = .next (postTo s i r (routeFault s r)) := by
  change (.next (postMessage s i) : Out) = _
  have hany : ((s.faults.recs.take i).any fun q => q.ts == r.ts && !q.posted) = false := by
    rw [List.any_eq_false]
    intro q hm hc
    simp only [Bool.and_eq_true, beq_iff_eq, Bool.not_eq_true'] at hc
    rw [hq q hm hc.1] at hc
    exact nomatch hc.2
  have hwait : (r.source == 0 && waitsForPeer s r.ts) = false := by
    by_cases h0 : r.source = 0 <;> simp [h0, hw]
  unfold postMessage
  simp only [hr, hp, hany, hwait, Bool.false_or, Bool.false_eq_true, if_false]
  cases routeFault s r <;> rfl

end post

/-- Who serves a launch without a handler (R370, R382). -/
theorem routeFault_noHandler {s : State} {r : FaultRec} {l : Launch} (hl : s.launch? r.launch = some l) (hh : l.handler? = none) :
    routeFault s r = (serviceOf s (dieOfCore (coreOf r.ts))).map fun t => (t, false) := by
  simp only [routeFault, hl, hh]

/-- A service thread set that is not enabled serves nothing (R382). -/
theorem serviceOf_disabled {s : State} {die : Nat} (h : (s.dieSvc die).fsvc.getLsbD 3 = false) : serviceOf s die = none := by
  simp only [serviceOf, h, Bool.false_and, Bool.false_eq_true, if_false]

theorem faultPosting : Claims.FaultPosting := by
  intro s i r hr hp hq hw
  have hpost := faultPost_routes hr hp hq hw
  refine ⟨fun t repost hroute hroom => ?_, fun t repost hroute hfull => ?_, fun hroute => ?_, fun l hl hh => ?_⟩
  · rw [hroute] at hpost
    refine ⟨_, hpost.trans (congrArg _ (if_neg (Nat.not_le.2 hroom))), markRepost r.msg repost, ?_, rfl, markRepost_bits r.msg repost⟩
    exact State.setTs_ts_self ..
  · rw [hroute] at hpost
    exact hpost.trans (congrArg _ (if_pos hfull))
  · rw [hroute] at hpost
    exact hpost
  · rw [routeFault_noHandler hl hh]
    dsimp only
    refine ⟨fun h3 hc => ?_, fun h3 => ?_⟩
    · simp [serviceOf, h3, hc, Nat.mul_comm]
    · rw [serviceOf_disabled h3]
      rfl

theorem waitsEnd : Claims.WaitsEnd := by
  refine ⟨fun s i w hw hp => ?_, fun s i p w hw hp h => ?_, fun s t r => ?_, fun s w f => ⟨rfl, fetchFault_posts⟩, fun s => ?_⟩
  · refine ⟨_, lateResult_ends hw hp, ?_⟩
    cases ho : w.orphan
    · refine ⟨rfl, nofun, fun _ => ?_⟩
      simpa using takeRegs_spec (s.ts w.ts) w.snap (usesOf w.instr)
    · exact ⟨rfl, fun _ => rfl, nofun⟩
  · refine waitingAccess_stays hw hp ?_
    obtain h | h | ⟨v, hv, hts, hpe, hpl⟩ := h
    · exact .inl (cannot_try (.inl h))
    · exact .inl (cannot_try (.inr h))
    · exact .inr (List.any_eq_true.2 ⟨v, hv, by simp [hts, hpe, hpl]⟩)
  · dsimp only
    refine ⟨fun hs hh ht hlen => ?_, fun m q hs hh ht hq => ?_, fun hh => halted_stays hh, fun d a b v s1 hs hh ht ha hm hpart hv => ?_,
      fun g p l y hs hh ht hg hp => ?_, fun sc d since hs hh ht hsc => ?_⟩
    · rw [queueBlockRelease_evaluates hs hh ht]
      exact asTs_setTs ((if_pos hlen).trans rfl)
    · rw [queueBlockRelease_evaluates hs hh ht]
      exact asTs_setTs ((execQgetQr_cons (s := Claims.asCur s t) hq).trans rfl)
    · rw [wake_evaluates hs hh ht, asTs]
      have he := execCwait_reached (s := Claims.asCur s t) (d := d) ha hm hpart hv
      rw [show evaluate (.cwait d a b) { s with cur := t } = _ from he]
    · rw [wake_waits_phase hs hh ht, show Fin.ofNat 4 g.val = g from Fin.ext (Nat.mod_eq_of_lt g.isLt)]
      exact asTs_setTs ((waitPhase_passes hg hp).trans rfl)
    · refine ⟨fence_early hs, fun h hf => ⟨fun p hpe => ?_, fun hpe p hpa => ?_, fun hpe hpa hsys hpend hup => ?_⟩⟩
      · exact fence_late hs hh ht h hf (fenceStatus_failed hsc hpe)
      · exact fence_late hs hh ht h hf (fenceStatus_parked hsc hpe hpa)
      · subst hsys
        exact fence_late hs hh ht h hf (fenceStatus_host hpe hpa hpend hup)
  · dsimp only
    refine ⟨fun h => congrArg (fun u => (.next u : Out)) (runLimit_early h 0), fun h hr => ?_, fun h hr => ?_⟩
    · exact issueRunLimit_switches h (nextReady_next hr)
    · exact issueRunLimit_restarts h (nextReady_none hr _)

/-- Settles O52: each event does what its evaluation decides, and a message enters the face that its fault is routed to. -/
theorem waitsAndPosts : Obligations.WaitsAndPosts := ⟨waitsEnd, faultPosting⟩

end Sys2Proof.Machine

/-! SUPPORT. Scalar instructions (R96, R97, R121 to R127): every one is a write of S[d] and a step of the pc, and what each writes (O10,
O12, O35, O36). -/

namespace Sys2Proof.Machine

/-! ### The register file (R97) -/

theorem ThreadSet.getP_setP (t : ThreadSet) (d q : PReg) (x : Bool) :
    (t.setP d x).getP q = if q = 0 then true else if q = d then x else t.getP q := by
  unfold ThreadSet.getP ThreadSet.setP
  obtain rfl | hq := eq_or_ne q 0
  · rfl
  · obtain rfl | hd := eq_or_ne q d
    · simp [hq]
    · have hv : d.val ≠ q.val := fun e => hd (Fin.ext e.symm)
      rw [if_neg hq, if_neg hq, if_neg hd]
      split <;> simp [hv]

theorem ThreadSet.getK_setK (t : ThreadSet) (d q : KReg) (x : BitVec 32) :
    (t.setK d x).getK q = if q = 0 then 0xFFFFFFFF else if q = d then x else t.getK q := by
  unfold ThreadSet.getK ThreadSet.setK
  obtain rfl | hq := eq_or_ne q 0
  · rfl
  · obtain rfl | hd := eq_or_ne q d
    · simp [hq]
    · have hv : d.val ≠ q.val := fun e => hd (Fin.ext e.symm)
      rw [if_neg hq, if_neg hq, if_neg hd]
      split <;> simp [hv]

theorem ThreadSet.getS_setS (t : ThreadSet) (d q : Reg) (x : Word) :
    (t.setS d x).getS q = if q = 0 then 0 else if q = d then x else t.getS q := by
  obtain rfl | hd := eq_or_ne q d
  · simp
  · rw [ThreadSet.getS_setS_ne t hd, if_neg hd]
    split
    · simp [*]
    · rfl

theorem ThreadSet.getV_setV (t : ThreadSet) (d q : Reg) (x : VWord) : (t.setV d x).getV q = if q = d then x else t.getV q := by
  split
  · subst d; exact t.getV_setV_self q x
  · exact t.getV_setV_ne ‹_› x

theorem registerFile : Claims.RegisterFile := fun t =>
  ⟨t.getS_setS, t.getP_setP, t.getK_setK, t.getV_setV, fun s d a b => (comparisonsAndPredicates s .eq .and a a b d d d).2.1,
    fun d x => ⟨t.setS_v d x, t.setS_p d x, t.setS_k d x, t.setS_pc d x⟩⟩

/-! ### One end for every scalar instruction (R97, R121 to R127) -/

/-- A scalar instruction writes S[d] and moves the pc past itself. -/
theorem exec_of_scalarDest {i : Instr} {d : Reg} (h : scalarDest i = some d) (s : State) :
    ∃ x, exec i s = wroteS s d x i.len := by
  cases i with
  | addi _ _ imm | andi _ _ imm | ori _ _ imm | xori _ _ imm | li _ imm | addpc _ imm | addcb _ imm =>
    cases h; cases imm <;> exact ⟨_, rfl⟩
  | add | sub | mul | mulh | mulhu | and | or | xor | andn | shl | shr | sra | rotr | min | max | minu | maxu | clz | ctz | popc
  | sext | zext | bfx | bfi | sel | shadd | shli | shri | srai | cmp => cases h; exact ⟨_, rfl⟩
  | _ => cases h

theorem scalarToZeroRegister : Claims.ScalarToZeroRegister := fun _ s h => (exec_of_scalarDest h s).choose_spec

/-- What a change of the running thread set alone leaves. -/
theorem setMe_othersKept (s : State) (x : ThreadSet) : othersKept s (s.setMe x) := fun _ hi => s.setMe_ts_ne hi x

theorem memOf_setTs (s : State) (k : Nat) (x : ThreadSet) (sp : Space) : memOf (s.setTs k x) sp = memOf s sp := by cases sp <;> rfl

theorem setMe_sameMemory (s : State) (x : ThreadSet) : sameMemory s (s.setMe x) := fun sp a => by
  rw [State.setMe, memOf_setTs]

/-- Settles O12: the next state is that of a write of S[d]. -/
theorem scalarFrame : Obligations.ScalarFrame := by
  intro i d s t hd ht
  obtain ⟨x, hx⟩ := exec_of_scalarDest hd s
  obtain rfl : s.setMe ((s.me.setS d x).past i.len) = t := by
    rw [hx] at ht
    exact Host.Outcome.next.inj ht
  refine ⟨fun q hq => ?_, ?_, ?_, ?_, ?_, ?_, ?_, setMe_othersKept s _, setMe_sameMemory s _, _, rfl⟩
  · rw [State.setMe_me]
    exact s.me.getS_setS_ne hq x
  all_goals simp [specialsKept]

/-- Settles O35: the register file by its four kinds of registers, and a write of `s0` as that of no register. -/
theorem registerWrites : Obligations.RegisterWrites := ⟨registerFile, scalarToZeroRegister⟩

/-! ### Arithmetic and logic (R121) -/

theorem mulHigh_eq (x y : Word) : mulHigh x y = (x.signExtend 128 * y.signExtend 128).extractLsb' 64 64 := by
  have hmul : x.signExtend 128 * y.signExtend 128 = BitVec.ofInt 128 (x.toInt * y.toInt) := (BitVec.ofInt_mul ..).symm
  rw [hmul]
  refine BitVec.eq_of_toNat_eq ?_
  simp only [mulHigh, BitVec.toNat_ofInt, BitVec.extractLsb'_toNat, Nat.shiftRight_eq_div_pow]
  omega

theorem mulHighU_eq (x y : Word) : mulHighU x y = (x.setWidth 128 * y.setWidth 128).extractLsb' 64 64 := by
  refine BitVec.eq_of_toNat_eq ?_
  have hlt : x.toNat * y.toNat < 2 ^ 128 := by
    have := Nat.mul_lt_mul'' x.isLt y.isLt
    omega
  simp only [mulHighU, BitVec.toNat_ofNat, BitVec.extractLsb'_toNat, BitVec.toNat_mul, BitVec.toNat_setWidth,
    Nat.shiftRight_eq_div_pow]
  rw [Nat.mod_eq_of_lt (a := x.toNat) (by omega), Nat.mod_eq_of_lt (a := y.toNat) (by omega), Nat.mod_eq_of_lt hlt]

theorem rotateRight_eq (x : Word) {n : Nat} (h : n < 64) : rotateRight x n = x.rotateRight n := by
  rw [BitVec.rotateRight, Nat.mod_eq_of_lt h]; rfl

/-- The lesser and the greater of two words, by the order of the numbers that they stand for. -/
theorem min_signed (x y : Word) : (if y.slt x then y else x) = BitVec.ofInt 64 (Min.min x.toInt y.toInt) := by
  rw [BitVec.slt]
  split
  · rw [Int.min_eq_right (by simp_all; omega), BitVec.ofInt_toInt]
  · rw [Int.min_eq_left (by simp_all), BitVec.ofInt_toInt]

theorem max_signed (x y : Word) : (if x.slt y then y else x) = BitVec.ofInt 64 (Max.max x.toInt y.toInt) := by
  rw [BitVec.slt]
  split
  · rw [Int.max_eq_right (by simp_all; omega), BitVec.ofInt_toInt]
  · rw [Int.max_eq_left (by simp_all), BitVec.ofInt_toInt]

theorem min_unsigned (x y : Word) : (if y.ult x then y else x) = BitVec.ofNat 64 (Min.min x.toNat y.toNat) := by
  rw [BitVec.ult]
  split
  · rw [Nat.min_eq_right (by simp_all; omega), BitVec.ofNat_toNat, BitVec.setWidth_eq]
  · rw [Nat.min_eq_left (by simp_all), BitVec.ofNat_toNat, BitVec.setWidth_eq]

theorem max_unsigned (x y : Word) : (if x.ult y then y else x) = BitVec.ofNat 64 (Max.max x.toNat y.toNat) := by
  rw [BitVec.ult]
  split
  · rw [Nat.max_eq_right (by simp_all; omega), BitVec.ofNat_toNat, BitVec.setWidth_eq]
  · rw [Nat.max_eq_left (by simp_all), BitVec.ofNat_toNat, BitVec.setWidth_eq]

/-- Settles O10: each operation is the write of its value, the products, rotations and extrema by their equations. -/
theorem integerResults : Obligations.IntegerResults := by
  intro s d a b x y n
  have write {v w : Word} (h : v = w) : writeS d v 4 s = wroteS s d w 4 := h ▸ rfl
  exact ⟨rfl, rfl, rfl, write (mulHigh_eq x y), write (mulHighU_eq x y), rfl, rfl, rfl, rfl, rfl, rfl, rfl,
    write (rotateRight_eq x (Nat.mod_lt _ (by decide))), write (min_signed x y), write (max_signed x y),
    write (min_unsigned x y), write (max_unsigned x y)⟩

end Sys2Proof.Machine

/-! SUPPORT. Counts of bits, bit fields and division (R121 to R123): what each function of one or two words is, and the statement (O36). -/

namespace Sys2Proof.Machine

/-! ### Counts of bits (R121) -/

theorem leadingZeros_le (x : Word) : leadingZeros x ≤ 64 := by
  unfold leadingZeros; split <;> omega

/-- The bits above the highest 1 are 0, and it is 1. -/
theorem leadingZeros_spec (x : Word) : (∀ i, 64 - leadingZeros x ≤ i → x.getLsbD i = false) ∧
    (leadingZeros x < 64 → x.getLsbD (63 - leadingZeros x) = true) := by
  unfold leadingZeros
  obtain rfl | h0 := eq_or_ne x 0
  · simp
  · have hn : x.toNat ≠ 0 := fun h => h0 (BitVec.eq_of_toNat_eq h)
    have hlog : x.toNat.log2 < 64 := (Nat.log2_lt hn).2 x.isLt
    rw [if_neg h0]
    refine ⟨fun i hi => Nat.testBit_lt_two_pow ?_, fun _ => ?_⟩
    · exact Nat.lt_of_lt_of_le Nat.lt_log2_self (Nat.pow_le_pow_right (by decide) (by omega))
    · rw [show 63 - (63 - x.toNat.log2) = x.toNat.log2 by omega]
      exact Nat.testBit_log2 hn

/-- Of n bits from bit i on, those below the first 1 are 0. -/
theorem trailingFrom_spec (x n i : Nat) : trailingFrom x n i ≤ i + n ∧ (∀ j, i ≤ j → j < trailingFrom x n i → x.testBit j = false) ∧
    (trailingFrom x n i < i + n → x.testBit (trailingFrom x n i) = true) := by
  induction n generalizing i with
  | zero => exact ⟨Nat.le_refl _, fun j h h' => absurd h' (Nat.not_lt.2 h), fun h => absurd h (Nat.lt_irrefl _)⟩
  | succ n ih =>
    unfold trailingFrom
    split
    next hi => exact ⟨by omega, fun j h h' => absurd h' (Nat.not_lt.2 h), fun _ => hi⟩
    next hi =>
      obtain ⟨hle, hlow, hone⟩ := ih (i + 1)
      refine ⟨by omega, fun j h h' => ?_, fun h => hone (by omega)⟩
      obtain rfl | hj := Nat.eq_or_lt_of_le h
      · exact Bool.eq_false_iff.2 hi
      · exact hlow j hj h'

theorem onesOf_eq_countP (x n : Nat) : onesOf x n = (List.range n).countP fun i => x.testBit i := by
  induction n with
  | zero => rfl
  | succ n ih => rw [onesOf, ih, List.range_succ, List.countP_append, List.countP_singleton, Nat.add_comm]

theorem bitCounts : Claims.BitCounts := by
  intro s d a x
  obtain ⟨hhigh, htop⟩ := leadingZeros_spec x
  obtain ⟨hle, hlow, hone⟩ := trailingFrom_spec x.toNat 64 0
  exact ⟨⟨leadingZeros x, rfl, leadingZeros_le x, hhigh, htop⟩,
    ⟨trailingZeros x, rfl, hle, fun i => hlow i (Nat.zero_le i), hone⟩,
    congrArg (fun n => wroteS s d (BitVec.ofNat 64 n) 4) (onesOf_eq_countP x.toNat 64)⟩

/-! ### Extensions, fields and selection (R123) -/

/-- The low bits of a word, as an AND with a mask. -/
theorem zeroExt_eq_and (x : Word) (w : Nat) : zeroExt x w = x &&& (BitVec.allOnes w).setWidth 64 := by
  refine BitVec.eq_of_getLsbD_eq fun i hi => ?_
  by_cases h : i < w <;> simp [zeroExt, h, hi]

theorem fieldWidth_le (y : Word) : fieldPos y + fieldWidth y ≤ 64 := by
  unfold fieldWidth fieldPos
  omega

theorem bitExtract_getLsbD (x y : Word) (i : Nat) :
    (bitExtract x y).getLsbD i = (decide (i < fieldWidth y) && x.getLsbD (fieldPos y + i)) := by
  have := fieldWidth_le y
  rw [bitExtract, BitVec.getLsbD_ofNat, Nat.testBit_mod_two_pow, Nat.testBit_div_two_pow, BitVec.testBit_toNat, Nat.add_comm i]
  by_cases h : i < fieldWidth y
  · simp [h, show i < 64 by omega]
  · simp [h]

theorem bitInsert_getLsbD (old x y : Word) {i : Nat} (hi : i < 64) : (bitInsert old x y).getLsbD i =
    if fieldPos y ≤ i ∧ i < fieldPos y + fieldWidth y then x.getLsbD (i - fieldPos y) else old.getLsbD i := by
  have hmask : (BitVec.ofNat 64 ((2 ^ fieldWidth y - 1) * 2 ^ fieldPos y)).getLsbD i =
      decide (fieldPos y ≤ i ∧ i < fieldPos y + fieldWidth y) := by
    rw [BitVec.getLsbD_ofNat, Nat.testBit_mul_two_pow, Nat.testBit_two_pow_sub_one, ← Bool.decide_and, ← Bool.decide_and]
    exact decide_eq_decide.2 (by omega)
  simp only [bitInsert, BitVec.getLsbD_or, BitVec.getLsbD_and, BitVec.getLsbD_not, BitVec.getLsbD_shiftLeft, hmask, hi]
  by_cases h : fieldPos y ≤ i ∧ i < fieldPos y + fieldWidth y
  · simp [h, Nat.not_lt.2 h.1]
  · simp [h]

/-- A shift to the left, as a multiplication. -/
theorem shiftLeft_eq_mul (x : Word) (n : Nat) : x <<< n = x * BitVec.ofNat 64 (2 ^ n) := by
  rw [BitVec.shiftLeft_eq_mul_twoPow]
  congr 1
  exact BitVec.eq_of_toNat_eq (by simp)

theorem extensionsAndFields : Claims.ExtensionsAndFields := by
  intro s d a b x y old pos w
  have zext (w : Nat) {m : Word} (h : (BitVec.allOnes w).setWidth 64 = m) : writeS d (zeroExt x w) 4 s = wroteS s d (x &&& m) 4 := by
    rw [zeroExt_eq_and, h]; rfl
  exact ⟨rfl, rfl, rfl, zext 8 (by decide), zext 16 (by decide), zext 32 (by decide), ⟨_, rfl, bitExtract_getLsbD x y⟩,
    ⟨_, rfl, fun i hi => bitInsert_getLsbD old x y hi⟩, fun p => rfl,
    fun n => congrArg (fun z => wroteS s d (z + y) 4) (shiftLeft_eq_mul x n.val)⟩

/-! ### Division (R122) -/

theorem sdiv_eq_ofInt (x y : Word) : x.sdiv y = BitVec.ofInt 64 (x.toInt.tdiv y.toInt) :=
  BitVec.eq_of_toInt_eq (by rw [BitVec.toInt_sdiv, BitVec.toInt_ofInt])

theorem srem_eq_ofInt (x y : Word) : x.srem y = BitVec.ofInt 64 (x.toInt.tmod y.toInt) := by
  rw [← BitVec.toInt_srem, BitVec.ofInt_toInt]

theorem udiv_eq_ofNat (x y : Word) : x.udiv y = BitVec.ofNat 64 (x.toNat / y.toNat) := by
  rw [BitVec.udiv_eq, ← BitVec.toNat_udiv, BitVec.ofNat_toNat, BitVec.setWidth_eq]

theorem umod_eq_ofNat (x y : Word) : x.umod y = BitVec.ofNat 64 (x.toNat % y.toNat) := by
  rw [BitVec.umod_eq, ← BitVec.toNat_umod, BitVec.ofNat_toNat, BitVec.setWidth_eq]

/-- A division by a divisor other than 0 writes its result. -/
theorem divide_writes {i : Instr} {f : Word → Word → Word} {d a b : Reg} {s : State} {z : Word} (hb : s.me.getS b ≠ 0)
    (hz : f (s.me.getS a) (s.me.getS b) = z) : divide i f d a b s = wroteS s d z 4 := by
  rw [divide, if_neg hb, ← hz]; rfl

theorem divisionResults : Claims.DivisionResults := fun _ _ _ _ hb =>
  ⟨divide_writes hb (sdiv_eq_ofInt _ _), divide_writes hb (srem_eq_ofInt _ _), divide_writes hb (udiv_eq_ofNat _ _),
    divide_writes hb (umod_eq_ofNat _ _)⟩

/-- A division by 0 posts its fault. -/
theorem divide_posts {i : Instr} {f : Word → Word → Word} {d a b : Reg} {s : State} (hb : s.me.getS b = 0) :
    divide i f d a b s = posted i { cls := 2, info := s.me.getS a } s := if_pos hb

theorem divisionByZero : Claims.DivisionByZero := by
  intro s d a b hb i hi
  have hposted : exec i s = posted i { cls := 2, info := s.me.getS a } s := by
    simp only [List.mem_cons, List.not_mem_nil, or_false] at hi
    obtain rfl | rfl | rfl | rfl := hi
    all_goals exact divide_posts hb
  refine ⟨hposted, fun hs => ⟨_, hposted, ?_⟩⟩
  obtain ⟨hpc, hregs, _⟩ := postFault_waits hs i { cls := 2, info := s.me.getS a }
  exact ⟨hregs, hpc⟩

/-- Settles O36: each function by its bits or by its number, and a division by 0 as the post of its fault. -/
theorem scalarOperations : Obligations.ScalarOperations := ⟨bitCounts, extensionsAndFields, divisionResults, divisionByZero⟩

end Sys2Proof.Machine

/-! SUPPORT. Control flow, system instructions, special registers and queues (R99 to R109, R116 to R119, R130 to R137, R382, R460), the other
turns of a step, and the reset state (O5, O13, O14, O16, O34, O40, O44). -/

namespace Sys2Proof.Machine

/-! ### Branches on a predicate, and jumps (R130, R131) -/

/-- A branch on a predicate, by the length of its offset. -/
theorem exec_bp (neg : Bool) (p : PReg) (off : Imm 20) (s : State) : exec (.bp neg p off) s =
    if xor (s.me.getP p) neg = true then .next (s.setMe (s.me.setPc (s.me.pc + branchVal off))) else ranTo s s.me (baseLen off) := by
  rw [← Bool.bne_eq_xor]; rfl

/-- Settles O13: `bp` by its one equation; `p0` reads 1, so its negation never holds. -/
theorem predicateBranch : Obligations.PredicateBranch := fun s neg p i v =>
  ⟨rfl, exec_bp neg p (.short i) s, exec_bp neg p (.lit v) s, rfl, rfl, rfl⟩

/-- An offset that is not a multiple of 4 is no branch offset (R87). -/
theorem branchOk_lit {n : Nat} {v : Word} (h : v.extractLsb' 0 2 ≠ 0) : (Imm.lit v : Imm n).branchOk = false := by
  refine decide_eq_false fun h4 => h (BitVec.eq_of_toNat_eq ?_)
  simpa using h4

/-- What is not well formed is not accepted. -/
theorem accept_ne_ok {i : Instr} (h : i.wf = false) (j : Instr) : accept i ≠ .ok j := by
  rw [accept, h]
  exact nofun

/-- Settles O14: each jump by evaluation; a misaligned literal is not well formed, so that the words of it are refused. -/
theorem jumps : Obligations.Jumps := by
  refine ⟨fun s i v => ⟨rfl, rfl, rfl, rfl, rfl, rfl⟩, fun v h => ?_⟩
  have hj : (Instr.j (.lit v)).wf = false := branchOk_lit (n := 24) h
  have hjal : (Instr.jal (.lit v)).wf = false := branchOk_lit (n := 24) h
  refine ⟨hj, hjal, fun rest i => ⟨fun e => accept_ne_ok hj i ?_, fun e => accept_ne_ok hjal i ?_⟩⟩
  · rw [← e]
    exact (decodeWords_base (w := 0x3D) (i := (Imm.lit v : Imm 24)) rfl rest).symm
  · rw [← e]
    exact (decodeWords_base (w := 0x41) (i := (Imm.lit v : Imm 24)) rfl rest).symm

/-! ### System instructions (R117 to R119) -/

theorem memOf_setCore_same {s : State} {c : Nat} {k : Core} (h : k.mem = (s.core c).mem) (sp : Space) :
    memOf (s.setCore c k) sp = memOf s sp := by
  cases sp with
  | core d =>
    obtain rfl | hd := eq_or_ne d c
    · exact (congrArg Core.mem (s.setCore_core_self d k)).trans h
    · exact congrArg Core.mem (s.setCore_core_ne hd k)
  | _ => rfl

/-- The offer of the slot (R117). -/
theorem yield_offers (s : State) : nextWith (exec .yield s) fun t => t.me = s.me.past 4 ∧ othersKept s t ∧
    (t.core (coreOf s.cur)).run = 256 ∧ (t.core (coreOf s.cur)).slot = (s.core (coreOf s.cur)).slot ∧ sameMemory s t := by
  refine ⟨(s.setCore (coreOf s.cur) { s.core (coreOf s.cur) with run := 256 }).advance 4, rfl, ?_, ?_, ?_, ?_, ?_⟩
  · rw [State.advance_me, State.setCore_me]
  · exact fun i hi => State.setMe_ts_ne _ hi _
  · rw [State.advance, State.setMe_core, State.setCore_core_self]
  · rw [State.advance, State.setMe_core, State.setCore_core_self]
  · intro sp a
    rw [State.advance, State.setMe, memOf_setTs]
    exact congrArg (Memory.get · a) (memOf_setCore_same (k := { s.core (coreOf s.cur) with run := 256 }) rfl sp)

/-- Settles O16: `brk` by whether a debugger is attached with breakpoints on, the others by evaluation. -/
theorem systemInstructions : Obligations.SystemInstructions := by
  refine fun s d a code => ⟨rfl, yield_offers s, rfl, fun l hl ha hb => ?_, fun h => ?_⟩
  · change execBrk code s = _
    simp only [execBrk, hl, ha, hb, Bool.and_self, if_true, State.advance, State.setMe_me, State.setMe_setMe]
    rfl
  · change execBrk code s = _
    unfold execBrk
    cases hl : s.launchOf s.cur with
    | none => rfl
    | some l =>
      obtain ha | hb := h l hl
      · simp only [ha, Bool.false_and]; rfl
      · simp only [hb, Bool.and_false]; rfl

/-! ### Special registers (R99 to R109, R382, R460) -/

section special
variable {s : State} {n : BitVec 8}

theorem mfsr_reads {x : Word} (h : readSR s n.toNat = some x) (hw : fpsWaits s n = false) (d : Reg) :
    exec (.mfsr d n) s = wroteS s d x 4 := by
  change execMfsr d n s = _
  simp only [execMfsr, hw, h, Bool.false_eq_true, if_false]
  rfl

theorem mfsr_refuses (h : readSR s n.toNat = none) (hw : fpsWaits s n = false) (d : Reg) :
    exec (.mfsr d n) s = posted (.mfsr d n) { cls := 1 } s := by
  change execMfsr d n s = _
  simp only [execMfsr, hw, h, Bool.false_eq_true, if_false]
  rfl

theorem mtsr_writes {a : Reg} {t : State} (h : writeSR s n.toNat (s.me.getS a) = some t) (hw : fpsWaits s n = false) :
    exec (.mtsr a n) s = .next (t.advance 4) := by
  change execMtsr a n s = _
  simp only [execMtsr, hw, h, Bool.false_eq_true, if_false]

theorem mtsr_refuses {a : Reg} (h : writeSR s n.toNat (s.me.getS a) = none) (hw : fpsWaits s n = false) :
    exec (.mtsr a n) s = posted (.mtsr a n) { cls := 1 } s := by
  change execMtsr a n s = _
  simp only [execMtsr, hw, h, Bool.false_eq_true, if_false]
  rfl

/-- Only `fps` waits for earlier flags (R104). -/
theorem fpsWaits_other (h : n ≠ 9) : fpsWaits s n = false := by
  rw [fpsWaits, beq_eq_false_iff_ne.2 h, Bool.false_and]

end special

theorem clusterId_eq (c : Nat) : clusterId c = c / 256 % 8 * 16 + if 2048 ≤ c ∧ c < 4096 then 0 else c / 16 % 16 := by
  simp [clusterId, isService, dieOfCore]

theorem toNat_append_eq {m n : Nat} (x : BitVec m) (y : BitVec n) : (x ++ y).toNat = x.toNat * 2 ^ n + y.toNat := by
  rw [BitVec.toNat_append, ← Nat.shiftLeft_add_eq_or_of_lt y.isLt, Nat.shiftLeft_eq]

/-- The fields of `lease` (R106). -/
theorem leaseWord_eq (m : Mgmt) :
    leaseWord m = BitVec.ofNat 64 (m.leaseDie.toNat + 2 ^ 20 * m.leasePkg.toNat + 2 ^ 40 * m.leaseFab.toNat) := by
  have hd := m.leaseDie.isLt
  have hp := m.leasePkg.isLt
  have hf := m.leaseFab.isLt
  refine BitVec.eq_of_toNat_eq ?_
  simp only [leaseWord, toNat_append_eq, BitVec.toNat_ofNat]
  omega

theorem mstatusOf_eq (s : State) (k : Core) : mstatusOf s k = BitVec.ofNat 64 (k.mq.length +
    16 * (if k.mq.isEmpty = true then 0 else 1) + 256 * (if narrowed s k = true then 1 else 0)) := by
  unfold mstatusOf bit01
  cases k.mq.isEmpty <;> rfl

theorem specialRegisterReads : Claims.SpecialRegisterReads := by
  intro s d rd c t
  have read {n : BitVec 8} {x y : Word} (h : readSR s n.toNat = some y) (hn : n ≠ 9) (hxy : y = x) : rd n x :=
    hxy ▸ mfsr_reads h (fpsWaits_other hn) d
  refine ⟨read rfl (by decide) rfl, read rfl (by decide) rfl, read rfl (by decide) ?_, read rfl (by decide) rfl,
    read rfl (by decide) rfl, read rfl (by decide) rfl, read rfl (by decide) rfl, read rfl (by decide) rfl, fun h => ?_, fun h => ?_,
    read rfl (by decide) (leaseWord_eq s.mgmt), read rfl (by decide) rfl, read rfl (by decide) rfl, read rfl (by decide) rfl,
    read rfl (by decide) rfl, read rfl (by decide) rfl, read rfl (by decide) rfl, read rfl (by decide) rfl, read rfl (by decide) rfl,
    fun i => ?_, read rfl (by decide) (mstatusOf_eq s (s.core c))⟩
  · exact congrArg (BitVec.ofNat 64) (clusterId_eq c)
  · exact mfsr_reads (n := 9) rfl h d
  · exact if_pos h
  · fin_cases i <;> exact read rfl (by decide) rfl

/-- The registers of a die that were set are read back. -/
theorem setDieSvc_dieSvc (s : State) (die : Nat) (x : DieSvc) : (setDieSvc s die x).dieSvc die = x := by
  have h : die % 8 < 8 := Nat.mod_lt _ (by decide)
  simp [setDieSvc, State.dieSvc, List.getD_eq_getElem?_getD, Vector.toList_setIfInBounds, h]

section service
variable {s : State}

theorem serviceReads (hs : isService (coreOf s.cur) = true) {n : BitVec 8} {x : Word} (hn : n ≠ 9)
    (h : readSR s n.toNat = if isService (coreOf s.cur) = true then some x else none) (d : Reg) :
    exec (.mfsr d n) s = wroteS s d x 4 := mfsr_reads (h.trans (if_pos hs)) (fpsWaits_other hn) d

/-- A write of a service register ends in the state that it names, past the instruction. -/
theorem serviceWrites (hs : isService (coreOf s.cur) = true) {n : BitVec 8} {a : Reg} {t : State} (hn : n ≠ 9)
    (h : writeSR s n.toNat (s.me.getS a) = if isService (coreOf s.cur) = true then some t else none) {P : State → Prop}
    (ht : P (t.advance 4)) : nextWith (exec (.mtsr a n) s) P :=
  ⟨_, mtsr_writes (h.trans (if_pos hs)) (fpsWaits_other hn), ht⟩

theorem serviceReads_refused (hs : isService (coreOf s.cur) = false) (d : Reg) :
    ∀ n ∈ [0x40#8, 0x41, 0x42, 0x43, 0x45, 0x46, 0x47], exec (.mfsr d n) s = posted (.mfsr d n) { cls := 1 } s := by
  have refuse {n : BitVec 8} {x : Word} (hn : n ≠ 9) (h : readSR s n.toNat = if isService (coreOf s.cur) = true then some x else none) :
      exec (.mfsr d n) s = posted (.mfsr d n) { cls := 1 } s :=
    mfsr_refuses (h.trans (if_neg (by simp [hs]))) (fpsWaits_other hn) d
  intro n hn
  simp only [List.mem_cons, List.not_mem_nil, or_false] at hn
  obtain rfl | rfl | rfl | rfl | rfl | rfl | rfl := hn
  all_goals exact refuse (by decide) rfl

theorem serviceWrites_refused (hs : isService (coreOf s.cur) = false) (a : Reg) :
    ∀ n ∈ [0x40#8, 0x41, 0x43, 0x44, 0x45, 0x46, 0x47], exec (.mtsr a n) s = posted (.mtsr a n) { cls := 1 } s := by
  have refuse {n : BitVec 8} {t : State} (hn : n ≠ 9)
      (h : writeSR s n.toNat (s.me.getS a) = if isService (coreOf s.cur) = true then some t else none) :
      exec (.mtsr a n) s = posted (.mtsr a n) { cls := 1 } s :=
    mtsr_refuses (h.trans (if_neg (by simp [hs]))) (fpsWaits_other hn)
  intro n hn
  simp only [List.mem_cons, List.not_mem_nil, or_false] at hn
  obtain rfl | rfl | rfl | rfl | rfl | rfl | rfl := hn
  all_goals exact refuse (by decide) rfl

end service

theorem serviceRegisters : Claims.ServiceRegisters := by
  intro s d a c v x
  refine ⟨fun hs => ?_, fun hs => ⟨serviceReads_refused hs d, serviceWrites_refused hs a⟩⟩
  refine ⟨serviceReads hs (by decide) rfl d, serviceReads hs (by decide) rfl d, serviceReads hs (by decide) rfl d,
    serviceReads hs (by decide) rfl d, serviceReads hs (by decide) rfl d, serviceReads hs (by decide) rfl d,
    serviceReads hs (by decide) rfl d, serviceWrites hs (by decide) rfl ?_, serviceWrites hs (by decide) rfl ?_,
    serviceWrites hs (by decide) rfl ?_, serviceWrites hs (by decide) rfl rfl, serviceWrites hs (by decide) rfl rfl,
    serviceWrites hs (by decide) rfl rfl⟩
  · exact setDieSvc_dieSvc ..
  · exact setDieSvc_dieSvc ..
  · exact NMap.get?_set_self ..

/-- The fields of `xfla` (R382). -/
theorem xfla_fields (a : Word) : BitVec.ofNat 64 (bitsOf a 16 48 * 65536 + bitsOf a 0 16) = a := by
  have := a.isLt
  refine BitVec.eq_of_toNat_eq ?_
  simp only [bitsOf, Nat.shiftRight_eq_div_pow, BitVec.toNat_ofNat]
  omega

theorem specialRegisterWrites : Claims.SpecialRegisterWrites := by
  intro s a x
  have past (y : ThreadSet) : (.next ((s.setMe y).advance 4) : Out) = ranTo s y 4 := by
    rw [State.advance, State.setMe_me, State.setMe_setMe]; rfl
  refine ⟨(mtsr_writes (n := 8) rfl (fpsWaits_other (by decide))).trans (past _), fun h => (mtsr_writes (n := 9) rfl h).trans (past _),
    fun h => if_pos h, fun hs => serviceWrites hs (by decide) rfl ?_⟩
  rw [State.advance_me, State.setMe_me]
  exact ⟨rfl, rfl, _, rfl, rfl, rfl, xfla_fields _⟩

/-- Settles O40: reads by `readSR` and writes by `writeSR`, register by register. -/
theorem specialRegisters : Obligations.SpecialRegisters := ⟨specialRegisterReads, specialRegisterWrites, serviceRegisters⟩

/-! ### Queues (R134, R135, R137) -/

section queues
variable {s : State} {r : Reg} {b : PReg}

theorem qput_full (h : 16 ≤ s.me.qa.length) :
    exec (.qput r) s = .next (s.setMe { s.me with status := .waitQueue (.qput r) }) := if_neg (Nat.not_lt.2 h)

theorem qgetQr_nil (h : s.me.qr = []) : exec (.qgetQr r) s = .next (s.setMe { s.me with status := .waitQueue (.qgetQr r) }) := by
  change execQgetQr r s = _
  unfold execQgetQr
  extract_lets t
  split
  next hq => exact absurd (h.symm.trans hq) nofun
  next => rfl

theorem popQn_cons {t : ThreadSet} {x : Word} {q : List Word} (h : t.qn = x :: q) :
    popQn t = (x, t.setQn (q ++ t.qnRest.take 1) (t.qnRest.drop 1)) := by
  simp only [popQn, h]

theorem popQn_nil {t : ThreadSet} (h : t.qn = []) : popQn t = (noNeighbour, t) := by
  simp only [popQn, h]

/-- A pop of `qn` writes what it took, and leaves the face as the dispatcher has filled it up again (R137). -/
theorem qgetQn_pops {x : Word} {t : ThreadSet} (h : popQn s.me = (x, t)) (hpc : t.pc = s.me.pc) :
    nextWith (exec (.qgetQn r) s) fun u => u.me.getS r = (if r = 0 then 0 else x) ∧ u.me.qn = t.qn ∧ u.me.qnRest = t.qnRest ∧
      u.me.pc = s.me.pc + 4 ∧ onlyMe s u := by
  refine ⟨s.setMe (ThreadSet.past { t.setS r x with status := .running } 4), ?_, ?_, ?_, ?_, ?_, _, rfl⟩
  · change execQgetQn r s = _
    rw [execQgetQn, h]; rfl
  · rw [State.setMe_me]; exact t.getS_setS_self r x
  · rw [State.setMe_me]; exact t.setS_qn r x
  · rw [State.setMe_me]; exact t.setS_qnRest r x
  · rw [State.setMe_me, ThreadSet.past_pc]; exact congrArg (· + 4) ((t.setS_pc r x).trans hpc)

theorem queuePutGet : Claims.QueuePutGet := by
  intro s r
  refine ⟨fun h => if_pos h, qput_full, fun x q h => execQgetQr_cons h, qgetQr_nil, fun x q h => qgetQn_pops (popQn_cons h) rfl,
    fun h => ?_⟩
  obtain ⟨u, hu, hget, hqn, _, hpc, hme⟩ := qgetQn_pops (r := r) (popQn_nil h) rfl
  exact ⟨u, hu, hget, hqn.trans h, hpc, hme⟩

/-- An open choice is no part of a thread set or of a memory. -/
theorem pick_keeps (s : State) : s.pick.2.tsets = s.tsets ∧ s.pick.2.cur = s.cur ∧ ∀ sp, memOf s.pick.2 sp = memOf s sp := by
  unfold State.pick
  split <;> exact ⟨rfl, rfl, fun sp => by cases sp <;> rfl⟩

/-- The next state of a `qtry` that took an open choice. -/
theorem picked_setMe (s : State) (x : ThreadSet) :
    (s.pick.2.setMe x).me = x ∧ othersKept s (s.pick.2.setMe x) ∧ sameMemory s (s.pick.2.setMe x) := by
  obtain ⟨hts, hcur, hmem⟩ := pick_keeps s
  refine ⟨?_, fun i hi => ?_, fun sp a => ?_⟩
  · rw [State.me_setMe]
  · rw [State.setMe_ts_ne _ (hcur ▸ hi), State.ts, hts]; rfl
  · rw [State.setMe, memOf_setTs, hmem]

theorem qtryQn_cons {x : Word} {q : List Word} (h : s.me.qn = x :: q) : nextWith (exec (.qtryQn b r) s) fun t =>
    othersKept s t ∧ sameMemory s t ∧
      (t.me = (((s.me.setQn (q ++ s.me.qnRest.take 1) (s.me.qnRest.drop 1)).setS r x).setP b true).past 4 ∨
        t.me = (s.me.setP b false).past 4) := by
  have he : exec (.qtryQn b r) s = if s.pick.1 % 2 = 0
      then .next (s.pick.2.setMe ((((s.me.setQn (q ++ s.me.qnRest.take 1) (s.me.qnRest.drop 1)).setS r x).setP b true).past 4))
      else .next (s.pick.2.setMe ((s.me.setP b false).past 4)) := by
    change execQtryQn b r s = _
    rw [execQtryQn, popQn_cons h]
    exact if_neg (by simp [h])
  rw [he]
  split
  · obtain ⟨hme, hothers, hmem⟩ := picked_setMe s _
    exact ⟨_, rfl, hothers, hmem, .inl hme⟩
  · obtain ⟨hme, hothers, hmem⟩ := picked_setMe s _
    exact ⟨_, rfl, hothers, hmem, .inr hme⟩

theorem queueTry : Claims.QueueTry := by
  intro s b r
  refine ⟨fun h => if_pos h, fun h => if_neg (Nat.not_lt.2 h), fun x q h => ?_, fun h => ?_, fun h => if_pos (by simp [h]),
    fun x q h => qtryQn_cons h, ?_⟩
  · change execQtryQr b r s = _
    simp only [execQtryQr, h]; rfl
  · change execQtryQr b r s = _
    simp only [execQtryQr, h]; rfl
  · change execQtryQf b s = _
    rw [execQtryQf]
    cases s.me.qf <;> rfl

end queues

/-- Settles O44: a push and a pop by whether the face has room or an entry, and `qtry` like them. -/
theorem queueInstructions : Obligations.QueueInstructions := ⟨queuePutGet, queueTry⟩

/-! ### The other turns (R102, R143, R144, R294), and reset -/

/-- The turn that heads the schedule is the next step. -/
theorem step_turn {s : State} {x : Turn} {r : List Turn} (h : s.turns = x :: r) : step s = turnStep x { s with turns := r } := by
  simp only [step, nextTurn, h]

/-- Nothing issues on a core that does not exist, nor where no thread set is ready. -/
theorem issueStep_rests {held : BitVec 4} {c : Nat} {s : State} (h : validCore c = false ∨ chooseSlot held c s = none) :
    issueStep held c s = .next (s.rest c) := by
  have hi : issueOn held c s = none := by
    unfold issueOn
    obtain h | h := h
    · simp [h]
    · split
      · rfl
      · rw [h]
  simp only [issueStep, hi]

/-- Settles O5: each turn by what `turnStep` makes of it; a core rests by `issueStep_rests`. -/
theorem stepOtherTurns : Obligations.StepOtherTurns := by
  refine ⟨fun s i r h => step_turn h, fun s i r h => step_turn h, fun t => rfl, fun s n r h => step_turn h, fun s n => rfl,
    fun s id a r h => step_turn h, fun s c a r h => step_turn h, fun s c held r h => step_turn h, fun s c held r h => ?_⟩
  have hstep : step s = issueStep held c { s with turns := r } := by
    obtain ⟨h, rfl⟩ | h := h
    · exact step_turn h
    · exact step_turn h
  refine ⟨fun hv => ?_, fun hv hc => ?_⟩
  · rw [hstep, issueStep_rests (.inl hv), State.rest, hv]; rfl
  · rw [hstep, issueStep_rests (.inr hc), State.rest, hv]; rfl

theorem resetRegisters : Claims.ResetRegisters := by
  refine ⟨rfl, rfl, rfl, rfl, rfl, rfl, rfl, rfl, rfl, fun d => ?_, fun t => rfl, rfl, rfl, fun sp a => ?_, fun t r => ⟨?_, ?_, rfl, rfl⟩⟩
  · exact Vector.getElem_replicate ..
  · cases sp <;> rfl
  · change (if r = 0 then (0 : Word) else (Vector.replicate 32 0)[r]) = 0
    simp
  · exact Vector.getElem_replicate ..

/-- Settles O34: the fields of the one state that a reset leaves. -/
theorem resetState : Obligations.ResetState := ⟨resetRegisters, rfl, rfl⟩

end Sys2Proof.Machine


/-! SUPPORT. The memory system keeps the fault records, and what places the folds of a thread set keeps every other thread
set; then what a posted fault does (R138, R139, R370, R371). -/

namespace Sys2Proof.Machine

/-! ### The fault records and the memory system -/

@[simp] theorem State.pick_faults (s : State) : s.pick.2.faults = s.faults := by
  unfold State.pick; split <;> rfl

@[simp] theorem setMem_faults (s : State) (sp : Space) (m : Memory) : (setMem s sp m).faults = s.faults := by cases sp <;> rfl

@[simp] theorem setPoison_faults (s : State) (sp : Space) (l : List Nat) : (setPoison s sp l).faults = s.faults := by
  cases sp <;> rfl

@[simp] theorem unpoison_faults (s : State) (sp : Space) (a n : Nat) : (unpoison s sp a n).faults = s.faults := by
  unfold unpoison; split
  · rfl
  · exact setPoison_faults ..

@[simp] theorem poisonRange_faults (s : State) (sp : Space) (a n : Nat) : (poisonRange s sp a n).faults = s.faults :=
  setPoison_faults ..

@[simp] theorem keepPast_faults (s : State) (sp : Space) (key : KeyMat) (line n : Nat) :
    (keepPast s sp key line n).faults = s.faults := by
  rw [keepPast_only_past]

@[simp] theorem writeNum_faults (s : State) (sp : Space) (key : KeyMat) (a v n : Nat) :
    (writeNum s sp key a v n).faults = s.faults := by
  unfold writeNum
  extract_lets s0 s1
  have h0 : s0.faults = s.faults := by
    unfold s0; split
    · rfl
    · exact keepPast_faults ..
  have h1 : s1.faults = s.faults := by simp [s1, h0]
  cases sp <;> exact h1

@[simp] theorem rawWrite_faults (s : State) (l : Loc) (v n : Nat) : (rawWrite s l v n).faults = s.faults := writeNum_faults ..

theorem foldl_faults {α : Type} {f : State → α → State} (hf : ∀ s a, (f s a).faults = s.faults) (l : List α) (s : State) :
    (l.foldl f s).faults = s.faults := by
  induction l generalizing s with
  | nil => rfl
  | cons a r ih => rw [List.foldl_cons, ih, hf]

@[simp] theorem forgetEarlier_faults (s : State) (die : Nat) (l : Loc) : (forgetEarlier s die l).faults = s.faults := rfl

@[simp] theorem keepEarlier_faults (s : State) (e : Option Nat) (l : Loc) : (keepEarlier s e l).faults = s.faults := by
  unfold keepEarlier; split
  · rfl
  · exact State.pick_faults s

@[simp] theorem deliverPost_faults (s : State) (x : Posted) : (deliverPost s x).faults = s.faults := by
  unfold deliverPost
  extract_lets s1 _ s2
  have h2 : s2.faults = s1.faults := by
    refine foldl_faults (fun s i => ?_) _ _
    extract_lets at' m v s3
    have h3 : s3.faults = s.faults := by
      unfold s3; split
      · rfl
      · split
        · simp
        · exact foldl_faults (fun s j => by split <;> simp) _ _
    split <;> simp [h3]
  exact h2.trans (by simp [s1])

@[simp] theorem deliverBefore_faults (x : Posted) (kept : List Posted) (s : State) :
    (deliverBefore x kept s).faults = s.faults := by
  refine foldl_faults (fun s y => ?_) _ _
  split
  · extract_lets c
    split <;> simp [c]
  · simp

@[simp] theorem settlePosts_faults (sel : Posted → Option Bool) (kept l : List Posted) (s : State) :
    (settlePosts sel kept l s).2.faults = s.faults := by
  induction l generalizing s kept with
  | nil => rfl
  | cons x r ih =>
    unfold settlePosts
    extract_lets done c
    split
    · exact ih ..
    · split
      · simp [ih]
      · split <;> simp [ih, c]

@[simp] theorem settle_faults (sel : Posted → Option Bool) (s : State) : (settle sel s).faults = s.faults := by
  unfold settle; split
  · rfl
  · exact settlePosts_faults ..

@[simp] theorem touchHost_faults (s : State) (l : Loc) : (touchHost s l).faults = s.faults := settle_faults ..

@[simp] theorem ncDrop_faults (s : State) (die : Nat) (l : Loc) (ts : List Nat) : (ncDrop s die l ts).faults = s.faults := by
  unfold ncDrop
  extract_lets s1
  split
  · rfl
  · unfold ncSend; split <;> rfl

@[simp] theorem splitRegion_faults (s : State) (key : Nat) : (splitRegion s key).faults = s.faults := by
  unfold splitRegion
  extract_lets
  split
  · rfl
  · split <;> rfl

@[simp] theorem recallOwner_faults (s : State) (key : Nat) (e : Option Nat) : (recallOwner s key e).faults = s.faults := by
  unfold recallOwner; split
  · rfl
  · split
    · rfl
    · extract_lets _ s1 k
      split
      · rfl
      · extract_lets s2
        have h2 : s2.faults = s.faults := by
          unfold s2; split
          · exact splitRegion_faults s1 _
          · rfl
        exact h2

@[simp] theorem stampWrite_faults (s : State) (pts : Nat) (l : Loc) (owner : Option Nat) :
    (stampWrite s pts l owner).2.faults = s.faults := by
  unfold stampWrite; split
  · rfl
  · exact (splitRegion_faults ..).trans (recallOwner_faults ..)

@[simp] theorem hubWrite_faults (s : State) (a v n : Nat) : (hubWrite s a v n).faults = s.faults :=
  (writeNum_faults ..).trans (stampWrite_faults ..)

/-- The error log counts its records, and leaves the faults that await a reply. -/
@[simp] theorem errorLog_recs (s : State) (die type peer launch addr : Nat) :
    (errorLog s die type peer launch addr).faults.recs = s.faults.recs := by
  unfold errorLog
  extract_lets d
  split
  · rfl
  · show (hubWrite ..).faults.recs = _
    rw [hubWrite_faults]

@[simp] theorem setPlacePts_faults (s : State) (die : Nat) (l : Loc) (cached : Bool) (p : Nat) :
    (setPlacePts s die l cached p).faults = s.faults := by
  unfold setPlacePts
  extract_lets s1 _ s2
  have h1 : s1.faults = s.faults := by unfold s1; split <;> rfl
  have h2 : s2.faults = s.faults := by unfold s2; split <;> exact h1
  split
  · exact h2
  · split <;> exact h2

/-! ### The folds of a thread set -/

/-- What places folds of thread set t: its clock moves, and no other thread set and no fault record changes. -/
structure PlacesFoldsOf (t : Nat) (s u : State) : Prop where
  keeps : KeepsThreads s u
  others : ∀ k, k ≠ t → u.ts k = s.ts k
  recs : u.faults.recs = s.faults.recs

namespace PlacesFoldsOf

theorem of_outside {t : Nat} {s u : State} (h : u.outside = s.outside) (hr : u.faults.recs = s.faults.recs) :
    PlacesFoldsOf t s u :=
  ⟨.of_outside h, fun k _ => show u.outside.ts k = s.outside.ts k by rw [h], hr⟩

theorem refl (t : Nat) (s : State) : PlacesFoldsOf t s s := of_outside rfl rfl

theorem trans {t : Nat} {s u v : State} (h : PlacesFoldsOf t s u) (h' : PlacesFoldsOf t u v) : PlacesFoldsOf t s v :=
  ⟨h.keeps.trans h'.keeps, fun k hk => (h'.others k hk).trans (h.others k hk), h'.recs.trans h.recs⟩

theorem foldl {α : Type} {t : Nat} {f : State → α → State} {l : List α} (hf : ∀ s, ∀ a ∈ l, PlacesFoldsOf t s (f s a)) (s : State) :
    PlacesFoldsOf t s (l.foldl f s) := by
  induction l generalizing s with
  | nil => exact refl t s
  | cons a r ih =>
    exact (hf s a List.mem_cons_self).trans (ih (fun s b hb => hf s b (List.mem_cons_of_mem _ hb)) _)

end PlacesFoldsOf

theorem performFold_places (s : State) (f : Fold) : PlacesFoldsOf f.ts s (performFold s f) := by
  unfold performFold
  extract_lets n die first s1 r s2 x s3
  have h1 : s1.outside = s.outside ∧ s1.faults = s.faults := by
    unfold s1; split
    · simp
    · split <;> simp
  have h2 : PlacesFoldsOf f.ts s s2 := .of_outside (by simp [s2, r, h1.1]) (by simp [s2, r, h1.2])
  have h3 : PlacesFoldsOf f.ts s2 s3 := by
    unfold s3; split
    · exact ⟨KeepsThreads.setTs_pts .., fun k hk => State.setTs_ts_ne s2 hk _, rfl⟩
    · exact .refl ..
  refine (h2.trans h3).trans (PlacesFoldsOf.foldl (fun s o _ => ?_) _)
  extract_lets l
  split
  · exact .of_outside (by simp) (by simp)
  · exact .of_outside (by simp) (by simp)

theorem placeFold_places (s : State) (f : Fold) : PlacesFoldsOf f.ts s (placeFold s f) := by
  unfold placeFold; split
  · split
    · exact performFold_places ..
    · exact .of_outside rfl rfl
    · exact .of_outside (errorLog_outside ..) (errorLog_recs ..)
  · split
    · exact performFold_places ..
    · exact .of_outside rfl rfl
  · exact performFold_places ..

/-- The placement of a thread set's folds (R274, R302) concerns that thread set only. -/
theorem placeFolds_places (s : State) (t scope : Nat) : PlacesFoldsOf t s (placeFolds s t scope) := by
  unfold placeFolds placeCore
  extract_lets k s1
  split
  · refine (PlacesFoldsOf.of_outside (s := s) (u := s1) rfl rfl).trans (PlacesFoldsOf.foldl (fun s f hf => ?_) _)
    have ht : f.ts = t := by simp at hf; exact hf.2.1
    exact ht ▸ placeFold_places s f
  · exact .refl t s

theorem placeFolds_nil {s : State} {t : Nat} (h : (s.core (coreOf t)).folds = []) (scope : Nat) : placeFolds s t scope = s :=
  placeFolds_none (by simp [h]) scope

/-! ### A posted fault (R138, R139, R371) -/

/-- A fault message reads a thread set's identity, which no placement of folds changes. -/
theorem faultMsg_of_places {t k : Nat} {s u : State} (h : PlacesFoldsOf t s u) (source : Nat) (f : FaultInfo) (i : Instr)
    (pc : Word) (n : BitVec 32) : faultMsg u k source f i pc n = faultMsg s k source f i pc n := by
  obtain ⟨p, hp⟩ := h.keeps.ts k
  unfold faultMsg faultHeader tsidOf
  simp only [hp]

/-- The record that a fault of a handle leaves (R371). -/
def faultRecord (s : State) (t source : Nat) (f : FaultInfo) (i : Instr) (pc : Word) (cmd pts : Nat) (handle : BitVec 32) :
    FaultRec where
  handle := handle
  ts := t
  launch := (s.ts t).launch
  source := source
  cls := f.cls
  detail := f.detail
  msg := faultMsg s t source f i pc handle
  instr := i
  len := lengthOf i
  cmd := cmd
  pts := pts

theorem addFault_recs (s : State) (t source : Nat) (f : FaultInfo) (i : Instr) (pc : Word) (cmd pts : Nat) :
    (addFault s t source f i pc cmd pts).1.faults.recs =
      s.faults.recs ++ [faultRecord s t source f i pc cmd pts (addFault s t source f i pc cmd pts).2] := rfl

theorem addFault_handle (s : State) (t source : Nat) (f : FaultInfo) (i : Instr) (pc : Word) (cmd pts : Nat) :
    (addFault s t source f i pc cmd pts).2 = (s.ts (t % 16384)).faultSeq ++ BitVec.ofNat 16 (t % 8192) := rfl

theorem addFault_ts_ne (s : State) {t k : Nat} (hk : k ≠ t % 16384) (source : Nat) (f : FaultInfo) (i : Instr) (pc : Word)
    (cmd pts : Nat) : (addFault s t source f i pc cmd pts).1.ts k = s.ts k := State.setTs_ts_ne s hk _

theorem addFault_ts_self (s : State) (t source : Nat) (f : FaultInfo) (i : Instr) (pc : Word) (cmd pts : Nat) :
    (addFault s t source f i pc cmd pts).1.ts (t % 16384) =
      { s.ts (t % 16384) with faultSeq := (s.ts (t % 16384)).faultSeq + 1 } := State.setTs_ts_self ..

/-- The post of a fault by a compute core's thread set, as the placement of its folds and one new record. -/
theorem postFault_eq {s : State} (hs : isService (coreOf s.cur) = false) (i : Instr) (f : FaultInfo) :
    let s' := placeFolds s s.cur 6
    let r := addFault s' s'.cur 0 f i s'.me.pc 0 s'.me.pts
    postFault i f s = r.1.setMe { r.1.me with status := .waitReply r.2.toNat, part := none } := by
  unfold postFault
  rw [hs]
  rfl

/-- What a posted fault does (R138, R139, R274, R371). -/
theorem postedFault : Sys2Proof.Claims.PostedFault := by
  intro i f s hs hc
  extract_lets s' t h
  have hp : PlacesFoldsOf s.cur s s' := placeFolds_places ..
  have hcur : s'.cur = s.cur := hp.keeps.cur
  obtain ⟨p, hme⟩ := hp.keeps.ts s.cur
  have hme' : s'.me = { s.me with pts := p } := by rw [State.me, hcur, hme]; rfl
  have hself : s'.cur % 16384 = s'.cur := by rw [hcur]; exact Nat.mod_eq_of_lt hc
  let r := addFault s' s'.cur 0 f i s'.me.pc 0 s'.me.pts
  have ht : t = r.1.setMe { r.1.me with status := .waitReply r.2.toNat, part := none } := postFault_eq hs i f
  have hh : r.2 = h := by
    show (addFault ..).2 = h
    rw [addFault_handle, hself, hcur, hme]; rfl
  have hrme : r.1.me = { s'.me with faultSeq := s.me.faultSeq + 1 } := by
    have h1 := addFault_ts_self s' s'.cur 0 f i s'.me.pc 0 s'.me.pts
    rw [hself] at h1
    exact h1.trans (by rw [← State.me, hme'])
  have hmsg : faultMsg s' s.cur 0 f i s'.me.pc r.2 = faultMsg s s.cur 0 f i s.me.pc h := by
    rw [faultMsg_of_places hp, hh, hme']
  refine ⟨⟨p, hme'⟩, ?_, fun k hk => ?_, fun hf => ?_, ?_⟩
  · rw [ht, State.setMe_me, hrme, hh]
  · have hk' : k ≠ s'.cur := by rwa [hcur]
    rw [ht, State.setMe_ts_ne r.1 hk', addFault_ts_ne s' (by rwa [hself]), hp.others k hk]
  · have hs' : s' = s := placeFolds_nil hf 6
    exact ⟨hs', by rw [ht, ← hs']; exact fun _ _ => rfl⟩
  · refine ⟨faultRecord s' s'.cur 0 f i s'.me.pc 0 s'.me.pts r.2, ?_, hh, hcur, ?_, rfl, rfl, rfl, rfl, rfl, rfl, rfl, ?_⟩
    · rw [ht, ← hp.recs]; exact addFault_recs ..
    · show s'.me.launch = s.me.launch
      rw [hme']
    · exact (congrArg (faultMsg s' · 0 f i s'.me.pc r.2) hcur).trans hmsg

/-! ### A fault of a service core (R370, R430) -/

/-- A thread set halts. -/
def haltTs (c : Nat) (s : State) (i : Nat) : State := s.setTs (4 * c + i) { s.ts (4 * c + i) with halted := true }

theorem haltTs_halted (c : Nat) (s : State) (i k : Nat) :
    ((haltTs c s i).ts (4 * c + k)).halted = true ↔ k = i ∨ (s.ts (4 * c + k)).halted = true := by
  unfold haltTs
  obtain rfl | hk := eq_or_ne k i
  · simp [State.setTs_ts_self]
  · rw [State.setTs_ts_ne s (by omega)]; simp [hk]

theorem haltService_eq (s : State) (c : Nat) : haltService s c = [0, 1, 2, 3].foldl (haltTs c) { s with
    mgmt := { s.mgmt with svcHalt := true, interrupts := s.mgmt.interrupts + 1 }
    faults := { s.faults with deadSvc := c :: s.faults.deadSvc } } := rfl

theorem serviceCoreFault : Sys2Proof.Claims.ServiceCoreFault := by
  intro i f s hs t
  have ht : t = haltService s (coreOf s.cur) := by show postFault i f s = _; unfold postFault; rw [hs]; rfl
  rw [ht, haltService_eq]
  refine ⟨rfl, rfl, rfl, fun k hk => ?_, fun _ _ => rfl⟩
  simp only [List.foldl_cons, List.foldl_nil, haltTs_halted]
  omega

/-- Settles O41, by what a posted fault and a fault of a service core do. -/
theorem faultsPosted : Obligations.FaultsPosted := ⟨postedFault, serviceCoreFault⟩

end Sys2Proof.Machine


/-! SUPPORT. Launches by their numbers, cluster queues, claims of the verifying mode, gang placement, and the start of a
thread set (R113, R114, R238, R349, R358, R359). -/

namespace Sys2Proof.Machine

/-! ### A launch by its number -/

theorem launch?_num {s : State} {n : Nat} {l : Launch} (h : s.launch? n = some l) : l.num = n := by
  simpa using List.find?_some h

/-- The list of launches in which one has been replaced, searched for its number. -/
theorem find?_replaceLaunch (ls : List Launch) {n : Nat} {l : Launch} (hl : l.num = n) :
    ((ls.map fun x => if x.num = l.num then l else x).find? fun x => x.num == n) = (ls.find? fun x => x.num == n).map fun _ => l := by
  subst hl
  induction ls with
  | nil => rfl
  | cons x r ih =>
    by_cases hx : x.num = l.num
    · simp [hx]
    · rw [List.map_cons, if_neg hx, List.find?_cons_of_neg (by simpa using hx), ih, List.find?_cons_of_neg (by simpa using hx)]

theorem launch?_setLaunch {s : State} {n : Nat} {l l' : Launch} (h : s.launch? n = some l) (hl : l'.num = n) :
    (s.setLaunch l').launch? n = some l' := by
  have := find?_replaceLaunch s.disp.launches hl
  rw [show s.disp.launches.find? (fun x => x.num == n) = some l from h] at this
  exact this

/-- The launches of a state are those of its dispatchers. -/
theorem launch?_congr {s t : State} (h : t.disp.launches = s.disp.launches) (n : Nat) : t.launch? n = s.launch? n := by
  unfold State.launch?; rw [h]

theorem updLaunch_eq {s : State} {n : Nat} {l : Launch} (h : s.launch? n = some l) (f : Launch → Launch) :
    s.updLaunch n f = s.setLaunch (f l) := by
  unfold State.updLaunch; rw [h]

/-! ### Passes that are due -/

@[simp] theorem passDue_launches (s : State) (die : Nat) : (passDue s die).disp.launches = s.disp.launches := by
  unfold passDue; split <;> rfl

@[simp] theorem passDue_claims (s : State) (die : Nat) : (passDue s die).disp.claims = s.disp.claims := by
  unfold passDue; split <;> rfl

theorem mem_passDue (s : State) (die : Nat) : die ∈ (passDue s die).disp.passDue := by
  unfold passDue; split
  · next h => simpa using h
  · simp

@[simp] theorem partitionDue_launches (s : State) (p : Option Nat) (die : Nat) :
    (partitionDue s p die).disp.launches = s.disp.launches := by
  unfold partitionDue; split <;> simp

@[simp] theorem partitionDue_claims (s : State) (p : Option Nat) (die : Nat) :
    (partitionDue s p die).disp.claims = s.disp.claims := by
  unfold partitionDue; split <;> simp

/-! ### Claims of the verifying mode (R349) -/

theorem orGraphError_ok {op : Op State} {s s' u : State} {n : Nat} (h : op s = .ok (s', u)) : orGraphError n op s = s' := by
  unfold orGraphError; rw [h]

/-- A pending task that is replaced by one of the same position and element. -/
theorem mem_setTask {l : Launch} {x t : Task} (hx : x ∈ l.pending) (h : sameTask x t = true) : t ∈ (l.setTask t).pending :=
  List.mem_map.2 ⟨x, hx, by rw [h]; rfl⟩

/-- The state after a claim has been answered: the asked partition holds its elements. -/
def answerClaim (i : Nat) (c : Claim) (l : Launch) (es : List Nat) (s : State) : State :=
  let hold (u : Nat) : Claimed := { elem := u, pos := c.pos, task := c.elem, pkg := (c.asks s).1, die := c.die }
  let s := s.setLaunch { l with claims := l.claims ++ es.map hold }
  s.setDisp { s.disp with claims := s.disp.claims.set i { c with answered := true } }

/-- A claim is answered when none of its elements runs and no lower asker meets them. -/
theorem remoteClaimRequest_answers {s s1 s2 : State} {i : Nat} {c : Claim} {l : Launch} {es : List Nat}
    (hc : s.disp.claims[i]? = some c) (hl : s.launch? c.launch = some l) (ha : c.answered = false)
    (hb : claimBall l c s = .ok (es, s1)) (hr : ∀ u ∈ es, ∀ r ∈ l.running, r.elem ≠ u)
    (hw : lowerAsker l c es s1 = .ok (false, s2)) : execRemoteClaimRequest i s = .next (answerClaim i c l es s2) := by
  have hbusy : (es.filter fun u => l.running.any fun r => r.elem == u) = [] := by
    simpa [List.filter_eq_nil_iff] using hr
  unfold execRemoteClaimRequest
  rw [hc]
  simp only [ha, hl]
  refine congrArg Host.Outcome.next (orGraphError_ok (u := s2) ?_)
  rw [Op.bind_of_ok hb]
  simp only [hbusy, List.isEmpty_nil, if_true]
  rw [Op.bind_of_ok hw]
  rfl

/-- The answer to a claim, at the task that asked. -/
theorem remoteClaimAnswer_arrives {s : State} {i : Nat} {c : Claim} {l : Launch} {x : Task} (hc : s.disp.claims[i]? = some c)
    (hl : s.launch? c.launch = some l) (ha : c.answered = true)
    (hx : (l.pending.find? fun t => t.pos == c.pos && t.elem == c.elem) = some x) :
    let t := { x with awaiting := x.awaiting.filter fun p => p != (c.peer, c.die) }
    let u := (s.setDisp { s.disp with claims := s.disp.claims.eraseIdx i }).setLaunch (l.setTask t)
    execRemoteClaimAnswer i s = .next (if t.awaiting.isEmpty then partitionDue u t.pkg t.die else u) := by
  have hl' : (s.setDisp { s.disp with claims := s.disp.claims.eraseIdx i }).launch? c.launch = some l := hl
  unfold execRemoteClaimAnswer
  rw [hc]
  simp only [ha, Bool.not_true, Bool.false_eq_true, if_false, hl', hx]

/-- The verifying mode's claims (R349). -/
theorem claims_answered (s s1 s2 : State) (i : Nat) (c : Claim) (l : Launch) (es : List Nat) (hc : s.disp.claims[i]? = some c)
    (hl : s.launch? c.launch = some l) :
    (c.answered = true → exec (.remoteClaimRequest i) s = .next s) ∧
    (c.answered = false → claimBall l c s = .ok (es, s1) → (∀ u ∈ es, ∀ r ∈ l.running, r.elem ≠ u) →
      lowerAsker l c es s1 = .ok (false, s2) → s2.launch? c.launch = some l → nextWith (exec (.remoteClaimRequest i) s) fun t =>
        t.disp.claims = s2.disp.claims.set i { c with answered := true } ∧
        ∃ l', t.launch? c.launch = some l' ∧ l'.claims = l.claims ++ es.map fun u =>
          { elem := u, pos := c.pos, task := c.elem, pkg := (c.asks s2).1, die := c.die }) ∧
    (c.answered = false → exec (.remoteClaimAnswer i) s = .next s) ∧
    (∀ x, c.answered = true → (l.pending.find? fun t => t.pos == c.pos && t.elem == c.elem) = some x →
      nextWith (exec (.remoteClaimAnswer i) s) fun t => t.disp.claims = s.disp.claims.eraseIdx i ∧
        Sys2Proof.Claims.hasTask t c.launch { x with awaiting := x.awaiting.filter fun p => p != (c.peer, c.die) } ∧
        ((∀ p ∈ x.awaiting, p = (c.peer, c.die)) → x.pkg = none → x.die ∈ t.disp.passDue)) := by
  refine ⟨fun ha => ?_, fun ha hb hr hw hl2 => ?_, fun ha => ?_, fun x ha hx => ?_⟩
  · show execRemoteClaimRequest i s = _
    unfold execRemoteClaimRequest
    rw [hc]
    simp only [ha]
  · refine ⟨_, remoteClaimRequest_answers hc hl ha hb hr hw, rfl, _, launch?_setLaunch hl2 ?_, rfl⟩
    exact (launch?_num hl2 : l.num = c.launch)
  · show execRemoteClaimAnswer i s = _
    unfold execRemoteClaimAnswer
    rw [hc]
    simp [ha]
  · have hx' : x.pos = c.pos ∧ x.elem = c.elem := by simpa using List.find?_some hx
    let t : Task := { x with awaiting := x.awaiting.filter fun p => p != (c.peer, c.die) }
    have hlt : ∀ u : State, u.launch? c.launch = some l → (u.setLaunch (l.setTask t)).launch? c.launch = some (l.setTask t) :=
      fun u hu => launch?_setLaunch hu (launch?_num hl : l.num = c.launch)
    refine ⟨_, remoteClaimAnswer_arrives hc hl ha hx, ?_, ⟨l.setTask t, ?_, ?_⟩, fun hp hk => ?_⟩
    · split
      · exact partitionDue_claims ..
      · rfl
    · have h1 := hlt (s.setDisp { s.disp with claims := s.disp.claims.eraseIdx i }) hl
      split
      · exact (launch?_congr (partitionDue_launches ..) _).trans h1
      · exact h1
    · exact mem_setTask (List.mem_of_find?_eq_some hx) (by simp [sameTask, t])
    · have he : (x.awaiting.filter fun p => p != (c.peer, c.die)) = [] := by
        simpa [List.filter_eq_nil_iff] using fun a b hab => Prod.mk.inj (hp (a, b) hab)
      simp only [he, List.isEmpty_nil, if_true]
      unfold partitionDue
      rw [hk]
      exact mem_passDue ..

/-! ### Gang placement (R358, R359) -/

/-! ### The cluster queues -/

theorem clusterQueue_pushEntry_self (s : State) (k : Nat) (e : Entry) :
    clusterQueue (pushEntry s k e) k = insertEntry e (clusterQueue s k) := by
  unfold clusterQueue pushEntry
  simp [NMap.get?_set_self, State.setDisp, clusterQueue]

theorem clusterQueue_pushEntry_ne (s : State) {k j : Nat} (h : j ≠ k) (e : Entry) :
    clusterQueue (pushEntry s k e) j = clusterQueue s j := by
  unfold clusterQueue pushEntry
  simp [NMap.get?_set_ne _ h, State.setDisp]

theorem length_insertEntry (e : Entry) (q : List Entry) : (insertEntry e q).length = q.length + 1 := by
  have := List.length_eq_length_filter_add (l := q) (fun x => x.prio ≤ e.prio)
  simp only [insertEntry, List.length_append, List.length_cons, ← not_le, decide_not] at *
  omega

theorem mem_insertEntry {e x : Entry} {q : List Entry} : x ∈ insertEntry e q ↔ x = e ∨ x ∈ q := by
  unfold insertEntry
  simp only [List.mem_append, List.mem_filter, List.mem_cons, decide_eq_true_eq]
  have := le_or_gt x.prio e.prio
  tauto

/-- The entries of a placement, pushed one after another. -/
def pushAll (n prio : Nat) (given : List (Nat × Nat)) (s : State) : State :=
  given.foldl (fun s g => pushEntry s (clusterOf (coreOf g.2)) (.index n prio g.1 g.2)) s

/-- The entries of a placement in one cluster. -/
def inCluster (k : Nat) (given : List (Nat × Nat)) : Nat := (given.filter fun g => clusterOf (coreOf g.2) == k).length

theorem length_clusterQueue_pushAll (n prio k : Nat) (given : List (Nat × Nat)) (s : State) :
    (clusterQueue (pushAll n prio given s) k).length = (clusterQueue s k).length + inCluster k given := by
  induction given generalizing s with
  | nil => rfl
  | cons g r ih =>
    rw [pushAll, List.foldl_cons, ← pushAll, ih]
    by_cases hk : k = clusterOf (coreOf g.2)
    · subst hk
      rw [clusterQueue_pushEntry_self, length_insertEntry]
      simp [inCluster]; omega
    · rw [clusterQueue_pushEntry_ne s hk]
      simp [inCluster, Ne.symm hk]

/-- An entry stays in its queue while others are pushed. -/
theorem mem_clusterQueue_pushAll {e : Entry} {k : Nat} (n prio : Nat) (given : List (Nat × Nat)) {s : State}
    (h : e ∈ clusterQueue s k ∨ ∃ g ∈ given, k = clusterOf (coreOf g.2) ∧ e = .index n prio g.1 g.2) :
    e ∈ clusterQueue (pushAll n prio given s) k := by
  induction given generalizing s with
  | nil => simpa [pushAll] using h
  | cons g r ih =>
    rw [pushAll, List.foldl_cons, ← pushAll]
    refine ih ?_
    obtain he | ⟨g', hg, hk, he⟩ := h
    · by_cases hk : k = clusterOf (coreOf g.2)
      · rw [hk, clusterQueue_pushEntry_self, mem_insertEntry, ← hk]
        exact .inl (.inr he)
      · rw [clusterQueue_pushEntry_ne s hk]
        exact .inl he
    · obtain rfl | hg := List.mem_cons.1 hg
      · rw [hk, clusterQueue_pushEntry_self, mem_insertEntry]
        exact .inl (.inl he)
      · exact .inr ⟨g', hg, hk, he⟩

/-- The dispatchers and the launch of a state whose queues have been filled. -/
theorem pushAll_launches (n prio : Nat) (given : List (Nat × Nat)) (s : State) :
    (pushAll n prio given s).disp.launches = s.disp.launches := by
  induction given generalizing s with
  | nil => rfl
  | cons g r ih => rw [pushAll, List.foldl_cons, ← pushAll, ih]; rfl

/-! ### Placing the indices -/

/-- A thread set that an index may be given: its core is idle and not reserved, its cluster's queue has room beside the entries
given already, and no index has it yet. -/
theorem mem_placeable {s : State} {die t : Nat} {given : List (Nat × Nat)} (h : t ∈ placeable s die given) :
    coreIdle s (coreOf t) = true ∧ reservedFor s (coreOf t) = none ∧ roomBeside s given (clusterOf (coreOf t)) = true ∧
      t ∉ given.map Prod.snd := by
  unfold placeable at h
  extract_lets cores at h
  obtain ⟨h, hn⟩ := List.mem_filter.1 h
  obtain ⟨c, hc, ht⟩ := List.mem_flatMap.1 h
  have hct : coreOf t = c := by simp at ht; unfold coreOf; omega
  simp only [cores, List.mem_filter, Bool.and_eq_true, Option.isNone_iff_eq_none] at hc
  obtain ⟨-, ⟨hi, hr⟩, hq⟩ := hc
  rw [hct]
  refine ⟨hi, hr, hq, fun hm => ?_⟩
  obtain ⟨g, hg, rfl⟩ := List.mem_map.1 hm
  have hany : (given.any fun x => x.2 == g.2) = true := List.any_eq_true.2 ⟨g, hg, beq_self_eq_true _⟩
  rw [hany] at hn
  exact Bool.noConfusion hn

/-- What a placement has given so far: thread sets of their own, on idle cores that are not reserved, within the queues. -/
structure GoodPlaces (s : State) (given : List (Nat × Nat)) : Prop where
  nodup : (given.map Prod.snd).Nodup
  idle : ∀ p ∈ given, coreIdle s (coreOf p.2) = true ∧ reservedFor s (coreOf p.2) = none
  room : ∀ k, (clusterQueue s k).length ≤ 64 → (clusterQueue s k).length + inCluster k given ≤ 64

theorem GoodPlaces.append {s : State} {given : List (Nat × Nat)} (h : GoodPlaces s given) {die t : Nat}
    (ht : t ∈ placeable s die given) (i : Nat) : GoodPlaces s (given ++ [(i, t)]) := by
  obtain ⟨hi, hr, hq, hn⟩ := mem_placeable ht
  refine ⟨?_, fun p hp => ?_, fun k hk => ?_⟩
  · rw [List.map_append]
    exact List.nodup_append.2 ⟨h.nodup, by simp, fun a ha b hb hab =>
      hn ((hab.trans (List.mem_singleton.1 hb) : a = t) ▸ ha)⟩
  · obtain hp | rfl := by simpa using hp
    · exact h.idle p hp
    · exact ⟨hi, hr⟩
  · have := h.room k hk
    by_cases hkt : clusterOf (coreOf t) = k
    · subst hkt
      have : (clusterQueue s (clusterOf (coreOf t))).length + inCluster (clusterOf (coreOf t)) given < 64 :=
        of_decide_eq_true hq
      simp [inCluster] at this ⊢
      omega
    · simpa [inCluster, hkt] using this

/-- What places the indices from i on (R359): each gets a thread set of its own; only open choices are used up. -/
theorem placeFrom_good {s : State} (map : List Nat) (todo i : Nat) {given given' : List (Nat × Nat)} {u u' : State}
    (hu : u.outside = s.outside) (hg : GoodPlaces s given) (h : placeFrom map todo i given u = some (given', u')) :
    GoodPlaces s given' ∧ given'.map Prod.fst = given.map Prod.fst ++ List.range' i todo ∧ u'.outside = s.outside := by
  induction todo generalizing i given u with
  | zero =>
    obtain ⟨rfl, rfl⟩ := Prod.mk.inj (Option.some.inj h)
    exact ⟨hg, by simp, hu⟩
  | succ todo ih =>
    unfold placeFrom at h
    extract_lets m near cand c at h
    split at h
    · simp at h
    · next hne =>
      have hsame : ∀ die, placeable u die given = placeable s die given := fun die =>
        show placeable u.outside die given = placeable s.outside die given by rw [hu]
      have hcand : ∀ t ∈ cand, ∃ die, t ∈ placeable s die given := by
        intro t ht
        unfold cand at ht
        split at ht
        · obtain ⟨die, -, hd⟩ := List.mem_flatMap.1 ht
          exact ⟨die, hsame die ▸ hd⟩
        · unfold near at ht
          split at ht
          · simp at ht
          · exact ⟨_, hsame _ ▸ ht⟩
      have hpos : 0 < cand.length := by
        rw [List.length_pos_iff]; simpa using hne
      have hmem : cand.getD (c.1 % cand.length) 0 ∈ cand := by
        rw [List.getD_eq_getElem _ _ (Nat.mod_lt _ hpos)]; exact List.getElem_mem ..
      obtain ⟨die, hdie⟩ := hcand _ hmem
      obtain ⟨h1, h2, h3⟩ := ih (i + 1) ((State.pick_outside u).trans hu) (hg.append hdie i) h
      exact ⟨h1, by simpa [List.range'_succ] using h2, h3⟩

/-- Gang placement (R358, R359). -/
theorem gang_placed (s s1 : State) (n : Nat) (l : Launch) (given : List (Nat × Nat)) (hl : s.launch? n = some l)
    (he : l.element = false) (hw : l.waiting = true) :
    (placeFrom l.map l.count 0 [] s = none → exec (.gangPlacement n) s = .next s) ∧
    (placeFrom l.map l.count 0 [] s = some (given, s1) → given.map Prod.fst = List.range l.count ∧ (given.map Prod.snd).Nodup ∧
      (∀ p ∈ given, coreIdle s (coreOf p.2) = true ∧ reservedFor s (coreOf p.2) = none) ∧
      nextWith (exec (.gangPlacement n) s) fun t => (∃ l', t.launch? n = some l' ∧ l'.placed = given ∧ l'.waiting = false) ∧
        (∀ k, (clusterQueue s k).length ≤ 64 → (clusterQueue t k).length ≤ 64) ∧
        ∀ p ∈ given, Entry.index n l.priority p.1 p.2 ∈ clusterQueue t (clusterOf (coreOf p.2))) := by
  have hx : exec (.gangPlacement n) s = match placeFrom l.map l.count 0 [] s with
      | none => .next s
      | some (given, s) => .next (pushAll n l.priority given (s.setLaunch { l with placed := given, waiting := false })) := by
    show execGangPlacement n s = _
    unfold execGangPlacement
    rw [hl]
    simp only [he, hw, Bool.not_true, Bool.or_self, Bool.false_eq_true, if_false]
    rfl
  refine ⟨fun hp => by rw [hx, hp], fun hp => ?_⟩
  obtain ⟨hg, hi, hs⟩ := placeFrom_good l.map l.count 0 (s := s) rfl ⟨by simp, by simp, fun k hk => by simpa [inCluster] using hk⟩ hp
  have hl1 : s1.launch? n = some l := (show s1.outside.launch? n = s.outside.launch? n by rw [hs]).trans hl
  have hq : ∀ k, clusterQueue s1 k = clusterQueue s k := fun k => show clusterQueue s1.outside k = clusterQueue s.outside k by rw [hs]
  refine ⟨by simpa [List.range_eq_range'] using hi, hg.nodup, hg.idle, _, by rw [hx, hp], ⟨{ l with placed := given, waiting := false }, ?_, rfl, rfl⟩,
    fun k hk => ?_, fun p hp => mem_clusterQueue_pushAll _ _ _ (.inr ⟨p, hp, rfl, rfl⟩)⟩
  · rw [launch?_congr (pushAll_launches ..)]
    exact launch?_setLaunch hl1 (launch?_num hl : l.num = n)
  · rw [length_clusterQueue_pushAll]
    exact (congrArg (· + _) (congrArg List.length (hq k))).trans_le (hg.room k hk)

/-- The verifying mode and gang placement (R349, R358, R359). -/
theorem claimsAndPlacement : Sys2Proof.Claims.ClaimsAndPlacement :=
  ⟨fun s s1 s2 i c l es hc hl => claims_answered s s1 s2 i c l es hc hl,
    fun s s1 n l given hl he hw => gang_placed s s1 n l given hl he hw⟩

/-! ### The start of a thread set (R113, R114, R238) -/

/-- Stash lines that go leave what lies outside the memory system. -/
theorem cleanStash_outside (s : State) (c : Nat) (hit : StashLine → Bool) : (cleanStash s c hit).outside = s.outside := by
  refine foldl_outside (fun s x => ?_) _ _
  split
  · exact recallOwner_outside ..
  · rfl

theorem dropStash_outside (s : State) (c : Nat) (hit : StashLine → Bool) : (dropStash s c hit).outside = s.outside :=
  cleanStash_outside s c hit

/-- A map without the entries whose keys a test names. -/
theorem get?_filter_key {α : Type} (m : NMap α) {p : Nat → Bool} {k : Nat} (hk : p k = true) :
    NMap.get? (m.filter fun e => p e.1) k = NMap.get? m k := by
  induction m with
  | nil => rfl
  | cons e r ih =>
    obtain ⟨j, x⟩ := e
    by_cases hj : p j = true
    · simp [hj, NMap.get?, ih]
    · have hjk : j ≠ k := by rintro rfl; exact hj hk
      simp [hj, NMap.get?, ih, hjk]

/-- Released save areas have numbers from 4096 on: the thread sets of the other cores stay. -/
theorem dropImages_ts (s : State) (p : Image → Bool) {t : Nat} (ht : coreOf t < 4096) : (dropImages s p).ts t = s.ts t := by
  unfold dropImages
  extract_lets ns
  have hns : (!ns.contains (coreOf t)) = true := by simpa [ns] using fun _ _ _ h => by omega
  exact congrArg (·.getD {}) (get?_filter_key s.tsets (p := fun j => !ns.contains (coreOf j)) hns)

theorem dropImages_core (s : State) (p : Image → Bool) {c : Nat} (hc : c < 4096) : (dropImages s p).core c = s.core c := by
  unfold dropImages
  extract_lets ns
  have hns : (!ns.contains c) = true := by simpa [ns] using fun _ _ _ h => by omega
  exact congrArg (·.getD {}) (get?_filter_key s.cores (p := fun j => !ns.contains j) hns)

/-- What a core finds for a launch: the thread sets, queues and launches stay, and it holds the launch. -/
theorem freshCore_keeps (s : State) {c t : Nat} (n : Nat) (ht : coreOf t < 4096) :
    (freshCore s c n).ts t = s.ts t ∧ ((freshCore s c n).core c).launch = some n ∧
      (freshCore s c n).disp.queues = s.disp.queues ∧ (freshCore s c n).disp.launches = s.disp.launches := by
  unfold freshCore
  extract_lets idle other s1 s2 k k1
  have h1 : s1.outside = s.outside := by
    unfold s1; split
    · exact dropStash_outside ..
    · rfl
  have h2 : s2.ts t = s1.ts t ∧ s2.disp.queues = s1.disp.queues ∧ s2.disp.launches = s1.disp.launches := by
    unfold s2; split
    · exact ⟨dropImages_ts s1 _ ht, rfl, rfl⟩
    · exact ⟨rfl, rfl, rfl⟩
  refine ⟨?_, ?_, ?_, ?_⟩
  · exact h2.1.trans (show s1.outside.ts t = s.outside.ts t by rw [h1])
  · rw [State.setCore_core_self]
    by_cases ho : other = true
    · rw [if_pos ho]
    · have hk : k.launch = some n := by
        have : s2 = s := by simp [s2, s1, ho]
        simp [k, this, other] at ho ⊢
        exact ho
      rw [if_neg ho]
      unfold k1; split
      · exact hk
      · exact hk
  · exact h2.2.1.trans (show s1.outside.disp.queues = s.outside.disp.queues by rw [h1])
  · exact h2.2.2.trans (show s1.outside.disp.launches = s.outside.disp.launches by rw [h1])

/-- The state in which an entry has left its queue and its core is ready for its launch. -/
def readyCore (s : State) (t i n : Nat) : State :=
  let k := clusterOf (coreOf t)
  freshCore (s.setDisp { s.disp with queues := s.disp.queues.set k ((clusterQueue s k).eraseIdx i) }) (coreOf t) n

/-- The start of the first entry that a core may run. -/
theorem threadSetStart_eq {s u u' : State} {t i : Nat} {l : Launch} {e : Entry} (hc : coreOf t < 2048) (hf : (s.ts t).status = .free)
    {n : Nat} (hl : s.launch? n = some l) (hn : e.launch = n) (hi : (clusterQueue s (clusterOf (coreOf t))).findIdx? (mayRun s t) = some i)
    (he : (clusterQueue s (clusterOf (coreOf t)))[i]? = some e)
    (h : startEntry t l e (readyCore s t i l.num) = .ok (u, u')) : execThreadSetStart t s = .next u := by
  unfold execThreadSetStart
  extract_lets c k q
  rw [if_neg (by omega), if_neg (by simp [hf])]
  rw [show q.findIdx? (mayRun s t) = some i from hi]
  simp only [show q[i]? = some e from he, hn, hl]
  exact congrArg Host.Outcome.next (orGraphError_ok (u := u') h)

/-- The queue, core and thread set of a ready core. -/
theorem readyCore_keeps (s : State) {t : Nat} (i n : Nat) (hc : coreOf t < 2048) :
    let u := readyCore s t i n
    let k := clusterOf (coreOf t)
    u.ts t = s.ts t ∧ (u.core (coreOf t)).launch = some n ∧ clusterQueue u k = (clusterQueue s k).eraseIdx i ∧
      u.disp.launches = s.disp.launches := by
  intro u k
  obtain ⟨h1, h2, h3, h4⟩ := freshCore_keeps (s.setDisp { s.disp with queues := s.disp.queues.set k ((clusterQueue s k).eraseIdx i) })
    (c := coreOf t) (t := t) n (by omega)
  refine ⟨h1, h2, ?_, h4⟩
  unfold clusterQueue
  rw [show u.disp.queues = _ from h3]
  simp [NMap.get?_set_self, State.setDisp, clusterQueue]

/-- The registers of a thread set that starts (R113). -/
theorem startState_registers (l : Launch) (pos : Nat) :
    (∀ r, (startState l pos).getS r = 0 ∧ (startState l pos).getV r = 0) ∧ (∀ r, (startState l pos).getP r = decide (r = 0)) ∧
      ∀ r, (startState l pos).getK r = 0xFFFFFFFF := by
  refine ⟨fun r => ⟨?_, ?_⟩, fun r => ?_, fun r => ?_⟩
  · simp [ThreadSet.getS, startState]
  · simp [ThreadSet.getV, startState]
  · by_cases h : r = 0 <;> simp [ThreadSet.getP, startState, h]
  · simp [ThreadSet.getK, startState]

/-- The pc of a thread set that starts at a kernel of its launch. -/
theorem startState_pc {l : Launch} {pos : Nat} {k : Kernel} (h : l.kernels[pos]? = some k) :
    (startState l pos).pc = BitVec.ofNat 64 (l.code + k.offset) := by
  unfold startState; rw [h]

/-- A thread set that starts keeps the messages in its face and its fault count (R113, R371, R372). -/
def keepFace (l : Launch) (old x : ThreadSet) : ThreadSet :=
  { x with qf := old.qf, qfPts := old.qfPts, faultSeq := old.faultSeq, halted := l.halted, dirty := .all }

theorem startEntry_index (t : Nat) (l : Launch) (n p ix t' : Nat) (s : State) :
    startEntry t l (.index n p ix t') s = .ok (s.setTs t (keepFace l (s.ts t) { startState l 0 with
      index := ix, gs := .ofFn fun j => (groupSlots l ix).getD j.val 0, acq := [(32, l.pts)] }), s) := rfl

/-- The start of a task of a launch without a graph: its running mark names the thread set. -/
theorem startEntry_task (t : Nat) {l : Launch} (hg : l.graph = none) (n p pos elem : Nat) (arg : Word) (s : State) :
    ∃ pts mark, l.pts ≤ pts ∧ startEntry t l (.task n p pos elem arg) s = .ok ((s.setTs t (keepFace l (s.ts t) { startState l pos with
      element := true, pos, eid := BitVec.ofNat 64 elem, targ := arg, acq := [(32, pts)] })).updLaunch l.num mark, s) := by
  let here (r : Running) : Bool := r.pos == pos && r.elem == elem && r.ts.isNone && r.pkg.isNone
  refine ⟨match l.running.find? here with | some r => max r.pts l.pts | none => l.pts,
    fun l => { l with running := l.running.map fun r => if here r then { r with ts := some t } else r }, ?_, ?_⟩
  · split
    · exact le_max_right ..
    · exact le_rfl
  · unfold startEntry neighbours
    simp only [hg]
    rfl

@[simp] theorem updLaunch_ts (s : State) (n : Nat) (f : Launch → Launch) (t : Nat) : (s.updLaunch n f).ts t = s.ts t := by
  unfold State.updLaunch; split <;> rfl

@[simp] theorem updLaunch_core (s : State) (n : Nat) (f : Launch → Launch) (c : Nat) : (s.updLaunch n f).core c = s.core c := by
  unfold State.updLaunch; split <;> rfl

@[simp] theorem updLaunch_queues (s : State) (n : Nat) (f : Launch → Launch) :
    (s.updLaunch n f).disp.queues = s.disp.queues := by
  unfold State.updLaunch; split <;> rfl

/-- The start of a thread set (R113, R114, R238). -/
theorem threadSetStart : Sys2Proof.Claims.ThreadSetStart := by
  intro s t i n l e hc hf hl q hi he started
  obtain ⟨hts, hcore, hq, -⟩ := readyCore_keeps s i l.num hc
  have hn : l.num = n := launch?_num hl
  have hstart : ∀ pos u x, u.ts t = keepFace l (s.ts t) x → u.disp.queues = (readyCore s t i l.num).disp.queues →
      u.core (coreOf t) = (readyCore s t i l.num).core (coreOf t) →
      (∃ ix gs el ps eid targ qn rest acq, x = { startState l pos with
        index := ix, gs := gs, element := el, pos := ps, eid := eid, targ := targ, qn := qn, qnRest := rest, acq := acq }) →
      started pos u := by
    rintro pos u x hu huq huc ⟨ix, gs, el, ps, eid, targ, qn, rest, acq, rfl⟩
    obtain ⟨hS, hP, hK⟩ := startState_registers l pos
    have hqu : clusterQueue u (clusterOf (coreOf t)) = q.eraseIdx i := by rw [clusterQueue, huq]; exact hq
    simp only [started]
    rw [hu, huc]
    exact ⟨hqu, hn ▸ hcore, hS, hP, hK, rfl, rfl, rfl, rfl, rfl, rfl, rfl, rfl, rfl, rfl, rfl, hn, rfl, hn ▸ rfl, rfl,
      fun k hk => startState_pc hk⟩
  refine ⟨fun p ix t' hx => ?_, fun p pos elem arg hx hg => ?_⟩
  · subst hx
    refine ⟨_, threadSetStart_eq hc hf hl rfl hi he (startEntry_index ..), hstart 0 _ _ (by rw [State.setTs_ts_self, hts]) rfl rfl
      ⟨_, _, _, _, _, _, _, _, _, rfl⟩, ?_⟩
    rw [State.setTs_ts_self]
    exact ⟨rfl, rfl, rfl, fun j => by simp [keepFace]⟩
  · subst hx
    obtain ⟨pts, mark, hpts, hx⟩ := startEntry_task t hg n p pos elem arg (readyCore s t i l.num)
    refine ⟨_, threadSetStart_eq hc hf hl rfl hi he hx, hstart pos _ _ (by rw [updLaunch_ts, State.setTs_ts_self, hts])
      (updLaunch_queues ..) (updLaunch_core ..) ⟨_, _, _, _, _, _, _, _, _, rfl⟩, ?_⟩
    rw [updLaunch_ts, State.setTs_ts_self]
    exact ⟨rfl, rfl, rfl, rfl, pts, rfl, hpts⟩

/-- Settles O55, by the claims of the verifying mode, the placement of a gang, and the start of a thread set. -/
theorem placement : Obligations.Placement := ⟨claimsAndPlacement, threadSetStart⟩

end Sys2Proof.Machine


/-! SUPPORT. A chunk whose translation meets an exporter that refuses its page with class 11: the fault of an engine keeps its own
fields there (R369), and those of R224 are not in its message. -/

namespace Sys2Proof.Machine

/-- A `cpy` of 8 bytes from the page at 0, after one byte has landed. -/
def refusedCpy : TCmd :=
  { id := 0, ts := 0, launch := 0, instr := .cpy ⟨false, 0⟩ 1 2 3 (.imm (.short 8)), pc := 0, c := [8], bytes := 1 }

/-- Peer 1 exports one page, whose walk it refuses with class 11. -/
def refusingPeer : Peer :=
  { id := 1, incarnation := 0
    exports := [{ handle := 0, base := 0, length := 65536, key := 0, read := true, write := false, importer := none, bound := none,
                  bad := [(0, 11)] }] }

/-- The page at 0 of asid 0 is an import from that exporter: a table at 0, a leaf of target 3 at 0x10000, the fabric map at 0x20000. -/
def refusedState : State :=
  let s : State := { msys := { keys := [(0, none)] }, fab := { peers := [refusingPeer], fmapb := 0x20000 },
                     cores := [(0, { tq := [refusedCpy] })] }
  writeNum (writeNum (writeNum s .dev none 0 0x10001 8) .dev none 0x10000 0x3007 8) .dev none 0x20000 0x1010000 8

/-- The fault of the refused page. -/
def refusedPage : FaultInfo := { cls := 11, detail := 0, info := 0 }

theorem refusedState_finds : (refusedState.core 0).tq.find? (fun x => x.id == refusedCpy.id) = some refusedCpy := by
  decide +kernel

/-- The translation of the source fails with the class that the exporter has for the page. -/
theorem refusedState_faults :
    checkAccess { refusedState.who 0 with ts := none } .load (0 : Word) 8 refusedState = .error (.fault refusedPage) := by
  have h : (match checkAccess { refusedState.who 0 with ts := none } .load (0 : Word) 8 refusedState with
      | .error (.fault f) => decide (f = refusedPage)
      | _ => false) = true := by decide +kernel
  split at h
  · next f hf => rw [hf, of_decide_eq_true h]
  · exact Bool.noConfusion h

/-- The outstanding faults after an outcome: their handles, and the bytes landed that their messages name. -/
def faultAuxs (o : Out) : List (BitVec 32 × Word) :=
  match o with
  | .next t => t.faults.recs.map fun r => (r.handle, r.msg.extractLsb' 256 64)
  | _ => []

/-- The posted message does not name the byte that has landed. -/
theorem refusedState_posts : faultAuxs (exec (.tileEngineChunk 0 0) refusedState) = [(0, 0)] := by decide +kernel

/-- A message of class 11 in the form of R224 names it. -/
theorem refusedMessage_aux :
    (faultMsg refusedState 0 1 { refusedPage with info := refusedPage.info &&& ~~~0xFFFF#64, aux := BitVec.ofNat 64 1 }
      refusedCpy.instr 0 0).extractLsb' 256 64 = 1 := by decide +kernel

theorem not_engineEvents : ¬ Sys2Proof.Claims.EngineEvents := by
  rintro ⟨h, -⟩
  obtain ⟨-, h⟩ := h refusedState 0 refusedCpy refusedState_finds
  obtain ⟨-, h⟩ := h rfl rfl (by decide)
  obtain ⟨h, -⟩ := h _ _ _ _ _ rfl
  obtain ⟨t, ht, -, r, hr, -, -, -, -, hmsg⟩ := h refusedPage rfl rfl refusedState_faults rfl rfl
  have hposts : [(r.handle, r.msg.extractLsb' 256 64)] = [((0 : BitVec 32), (0 : Word))] := by
    have h := refusedState_posts
    rw [show exec (.tileEngineChunk 0 0) refusedState = .next t from ht] at h
    rw [← h]
    simp [faultAuxs, hr, show refusedState.faults.recs = [] from rfl]
  obtain ⟨hhandle, haux⟩ : r.handle = 0 ∧ r.msg.extractLsb' 256 64 = 0 := by simpa using hposts
  rw [hhandle] at hmsg
  rw [hmsg] at haux
  exact absurd (haux.symm.trans refusedMessage_aux) (by decide)

/-- Refutes O53: a chunk whose source page an exporter refuses with class 11 posts a fault without the fields of R224 (the address
rounded to its page, the bytes landed), as the fault of an engine of class 11 keeps its own (R369); `refusedState` is such a state. -/
theorem not_engineWork : ¬ Obligations.EngineWork := fun h => not_engineEvents h.1

end Sys2Proof.Machine


/-! SUPPORT. The issue of tile-engine commands and collectives (R110, R221, R222, R225 to R232, R470 to R475). -/

namespace Sys2Proof.Machine

open Claims (inLocal tileAccepted)

/-! ### Operations that check, and the ends of an instruction -/

@[simp] theorem Op.ask_bind {α β : Type} (f : State → α) (k : α → Op β) (s : State) : (Op.ask f >>= k) s = k (f s) s := rfl

theorem Op.need_bind {β : Type} {c : Bool} (hc : c = true) (f : FaultInfo) (k : Unit → Op β) (s : State) :
    (Op.need c f >>= k) s = k () s := by
  subst hc; rfl

theorem Op.need_bind_fails {β : Type} {c : Bool} (hc : c = false) (f : FaultInfo) (k : Unit → Op β) (s : State) :
    (Op.need c f >>= k) s = .error (.fault f) := by
  subst hc; rfl

/-- An operation that fails posts its fault. -/
theorem runOp_fault {i : Instr} {len : Nat} {op : Op Unit} {s : State} {f : FaultInfo} (h : op s = .error (.fault f)) :
    runOp i len op s = posted i f s := by
  rw [runOp, h]; rfl

theorem tileOp_full {g : Guard} {s : State} (hg : s.me.getP g.p ≠ g.pn) (hf : 16 ≤ (s.core (coreOf s.cur)).tq.length) (i : Instr)
    (len : Nat) (op : Op Unit) : tileOp g i len op s = .next s := by
  simp [tileOp, guarded_on hg, tileFull, hf]

theorem tileOp_run {g : Guard} {s : State} (hg : s.me.getP g.p ≠ g.pn) (hf : (s.core (coreOf s.cur)).tq.length < 16) (i : Instr)
    (len : Nat) (op : Op Unit) : tileOp g i len op s = runOp i len op s := by
  simp [tileOp, guarded_on hg, tileFull, hf]

/-! ### The operands of R222 -/

theorem checkRange_of_inLocal {k : Core} {a : Word} {n : Nat} (h : inLocal k a n) (must : Bool) :
    checkRange k must a.toNat n = .fine := by
  obtain ⟨h1, h2, h3⟩ := h
  simp [checkRange, h1, h2, h3]

/-- Operands without a fault pass their check. -/
theorem needOperands_fine {β : Type} {ops : List (Word × Verdict × Bool)} (h : ∀ o ∈ ops, o.2.1 = .fine) (sa : Word)
    (k : Unit → Op β) (s : State) : (needOperands sa ops >>= k) s = k () s := by
  have h1 : (ops.find? fun o => o.2.1 == .past) = none := by
    rw [List.find?_eq_none]
    intro o ho
    rw [h o ho]; decide
  have h2 : (ops.all fun o => o.2.1 == .fine) = true := by
    rw [List.all_eq_true]
    intro o ho
    rw [h o ho]; decide
  unfold needOperands
  simp only [h1, h2]
  rfl

/-! ### An accepted command (R110, R221) -/

@[simp] theorem pend_part (t : ThreadSet) (d : Reg) : (t.pend d).part = t.part := by
  unfold ThreadSet.pend; split <;> rfl

/-- A command that has been accepted keeps its instruction, its operands and its thread set, and has not begun. -/
theorem acceptTile_accepted (i : Instr) (d : Reg) (n : Nat) (cmd : TCmd) (s : State) (hn : cmd.next = 0) (hb : cmd.bytes = 0)
    (hp : cmd.paused = none) (ht : cmd.token = 1) :
    tileAccepted i d n cmd.a cmd.b cmd.c s ((acceptTile i d cmd s).advance n) := by
  unfold acceptTile
  extract_lets c k t m s1
  have hme : (s1.setMe (t.pend d)).advance n = s1.setMe ((t.pend d).past n) := by
    rw [State.advance, State.setMe_me, State.setMe_setMe]
  rw [hme]
  refine ⟨by rw [State.setMe_me], fun j hj => State.setMe_ts_ne s1 hj _, fun sp a => ?_, m, ?_, rfl, rfl, rfl, rfl, rfl, rfl, rfl,
    hn, hb, hp, ht⟩
  · rw [State.setMe, memOf_setTs, memOf_setCore_same]
    simp [k, c]
  · rw [State.setMe_core, State.setCore_core_self]
    simp [k, c]

/-- An operation that ends with the acceptance of a command, as an instruction. -/
theorem runOp_accepts {i : Instr} {d : Reg} {n : Nat} {op : Op Unit} {s s1 : State} {cmd : TCmd}
    (h : op s = .ok ((), acceptTile i d cmd s1)) (hp1 : s1.me.part = none) (hn : cmd.next = 0 := by rfl)
    (hb : cmd.bytes = 0 := by rfl) (hp : cmd.paused = none := by rfl) (ht : cmd.token = 1 := by rfl) :
    nextWith (runOp i n op s) fun t => tileAccepted i d n cmd.a cmd.b cmd.c s1 t := by
  refine ⟨_, runOp_ok h ?_, acceptTile_accepted i d n cmd s1 hn hb hp ht⟩
  unfold acceptTile
  rw [State.setMe_me, pend_part]
  exact hp1

/-- The length of a `cpy` or `cpyr`, and its instruction's, as its operand has them (R225). -/
theorem lenOf_eq (t : ThreadSet) (len : LenSrc) : lenOf t len =
    match len with | .reg q => (t.getS q).toNat | .imm (.short i) => i.toNat | .imm (.lit v) => v.toNat := by
  match len with
  | .reg q => rfl
  | .imm (.short i) => simp [lenOf, immZext]; omega
  | .imm (.lit v) => rfl

theorem lenSrcLen_eq (len : LenSrc) : lenSrcLen len =
    match len with | .reg _ => 12 | .imm (.short _) => 12 | .imm (.lit _) => 20 := by
  match len with
  | .reg _ | .imm (.short _) | .imm (.lit _) => rfl

/-- The launch's count of reducing copies is all that the number of the next one changes. -/
theorem nextCopy_disp (s : State) : ∃ x, (nextCopy s).2 = { s with disp := x } := by
  unfold nextCopy; split <;> exact ⟨_, rfl⟩

/-- A gather or scatter of a record's box, whose record is valid and whose sides lie where they may (R225). -/
theorem boxIssue_accepts {i : Instr} {d : Reg} {s s1 : State} {handle dense : Word} {r : BitVec 1536} {l : Layout} (gather : Bool)
    (sa origin : Word) (hh : handle.toNat % 64 = 0) (hr : useRecord (s.who s.cur) handle s = .ok (r, s1))
    (hl : parseRecord handle.toNat r = some l) (hd : denseExtent l ≤ 2 ^ 32) (hb : l.box.foldl (· * ·) 1 ≤ 2 ^ 24)
    (hbox : (checkBox (s1.core (coreOf s1.cur)) l (originOf origin)).2 = .fine)
    (hden : checkRange (s1.core (coreOf s1.cur)) false dense.toNat (denseExtent l) = .fine) :
    boxIssue i d sa handle dense origin gather s = .ok ((), acceptTile i d { newTCmd with
      a := if gather then dense else handle, b := if gather then handle else dense, c := [origin],
      record := putNum [] 0 r.toNat 192 } s1) := by
  unfold boxIssue
  rw [Op.ask_bind, Op.need_bind (by simpa using hh), Op.bind_of_ok hr, hl]
  simp only [Op.ask_bind]
  rw [Op.need_bind (by simpa using ⟨hd, hb⟩), needOperands_fine (by
    cases gather
    · exact List.forall_mem_cons.2 ⟨hbox, List.forall_mem_singleton.2 hden⟩
    · exact List.forall_mem_cons.2 ⟨hden, List.forall_mem_singleton.2 hbox⟩)]
  rfl

/-- The far operand and the index list of a `get` or `put` lie where they may (R222, R227). -/
def farReady (s : State) (et : ElemTy) (tgt : PutTarget) (remote idx cnt : Word) : Prop :=
  let c := coreOf s.cur
  let tk := targetCore c tgt
  (idx = 0 → checkRange (s.core tk) (!(tgt == .glob)) remote.toNat (cnt.toNat * et.bytes) = .fine) ∧
  (idx ≠ 0 → checkRange (s.core c) true idx.toNat (4 * cnt.toNat) = .fine) ∧ idx.toNat % 4 = 0 ∧
  ((tgt == .glob) || coreHolds s tk s.me.launch) = true

/-- A `get` or `put` whose operands lie where they may. -/
theorem transferIssue_accepts {i : Instr} {d : Reg} {s : State} {et : ElemTy} {tgt : PutTarget} {own remote idx cnt flag : Word}
    {put : Bool} (sa : Word) (hn : cnt.toNat ≤ 2 ^ 24) (hown : inLocal (s.core (coreOf s.cur)) own (cnt.toNat * et.bytes))
    (hfar : farReady s et tgt remote idx cnt) (ho : own.toNat % et.bytes = 0) (hr : remote.toNat % et.bytes = 0)
    (hflag : (put && flag.toNat % 8 != 0) = false) :
    transferIssue i d et tgt sa own remote idx cnt flag put s = .ok ((), acceptTile i d { newTCmd with
      a := if put then remote else own, b := if put then own else remote, c := [idx, cnt, flag]
      finished := cnt.toNat == 0 } s) := by
  obtain ⟨hz, hi, h4, hheld⟩ := hfar
  unfold transferIssue
  simp only [Op.ask_bind, id]
  rw [Op.need_bind (by simpa using hn), needOperands_fine (by
    refine List.forall_mem_cons.2 ⟨checkRange_of_inLocal hown true, ?_⟩
    by_cases h0 : idx = 0
    · rw [if_pos h0, if_pos h0]
      exact List.forall_mem_singleton.2 (hz h0)
    · rw [if_neg h0, if_neg h0]
      exact List.forall_mem_singleton.2 (hi h0)),
    Op.need_bind (by simp [ho, hr, h4, hflag]), Op.need_bind hheld]
  rfl

/-! ### Stash lines that go (R229, R230) -/

/-- What only the stashes and the stamps of the homes change: every memory and every other part stays. -/
structure StashOnly (s t : State) : Prop where
  others : { t with cores := [], msys := {} } = { s with cores := [], msys := {} }
  mem : ∀ sp, memOf t sp = memOf s sp
  core : ∀ c, ∃ l, t.core c = { s.core c with stash := l }

namespace StashOnly

theorem refl (s : State) : StashOnly s s := ⟨rfl, fun _ => rfl, fun _ => ⟨_, rfl⟩⟩

theorem trans {s t u : State} (h : StashOnly s t) (h' : StashOnly t u) : StashOnly s u :=
  ⟨h'.others.trans h.others, fun sp => (h'.mem sp).trans (h.mem sp), fun c => by
    obtain ⟨l, hl⟩ := h.core c
    obtain ⟨l', hl'⟩ := h'.core c
    exact ⟨l', by rw [hl', hl]⟩⟩

theorem ts {s t : State} (h : StashOnly s t) (k : Nat) : t.ts k = s.ts k := by
  have := congrArg (fun u : State => u.ts k) h.others
  exact this

theorem cur {s t : State} (h : StashOnly s t) : t.cur = s.cur := by
  have := congrArg State.cur h.others
  exact this

/-- A core's stash is replaced. -/
theorem setStash (s : State) (c : Nat) (l : List StashLine) : StashOnly s (s.setCore c { s.core c with stash := l }) := by
  refine ⟨rfl, fun sp => memOf_setCore_same (by rfl) sp, fun j => ?_⟩
  obtain rfl | hj := eq_or_ne j c
  · exact ⟨l, State.setCore_core_self ..⟩
  · exact ⟨_, State.setCore_core_ne s hj _⟩

theorem foldl {α : Type} {f : State → α → State} (hf : ∀ s a, StashOnly s (f s a)) (l : List α) (s : State) :
    StashOnly s (l.foldl f s) := by
  induction l generalizing s with
  | nil => exact refl s
  | cons a r ih => exact (hf s a).trans (ih _)

end StashOnly

theorem splitRegion_stash (s : State) (key : Nat) : StashOnly s (splitRegion s key) := by
  unfold splitRegion
  extract_lets
  split
  · exact .refl s
  · split
    · exact .refl s
    · exact ⟨rfl, fun sp => by cases sp <;> rfl, fun _ => ⟨_, rfl⟩⟩

theorem recallOwner_stash (s : State) (key : Nat) (e : Option Nat) : StashOnly s (recallOwner s key e) := by
  unfold recallOwner; split
  · exact .refl s
  · next o _ =>
    split
    · exact .refl s
    · extract_lets _ s1 k
      have h1 : StashOnly s s1 := ⟨rfl, fun sp => by cases sp <;> rfl, fun _ => ⟨_, rfl⟩⟩
      split
      · exact h1
      · extract_lets s2 r len wts rts clean s3
        have h2 : StashOnly s1 s2 := by
          unfold s2; split
          · exact splitRegion_stash ..
          · exact .refl s1
        have h3 : StashOnly s2 s3 := ⟨rfl, fun sp => by cases sp <;> rfl, fun _ => ⟨_, rfl⟩⟩
        obtain ⟨l, hl⟩ := (h2.trans h3).core o.2
        have h4 : ∀ l', { k with stash := l' } = { s3.core o.2 with stash := l' } := fun l' => by rw [hl]
        rw [h4]
        exact ((h1.trans h2).trans h3).trans (StashOnly.setStash ..)

theorem cleanStash_stash (s : State) (c : Nat) (hit : StashLine → Bool) : StashOnly s (cleanStash s c hit) := by
  refine (StashOnly.foldl (fun s x => ?_) _ s).trans (StashOnly.setStash ..)
  split
  · exact recallOwner_stash ..
  · exact .refl s

theorem dropStash_stash (s : State) (c : Nat) (hit : StashLine → Bool) : StashOnly s (dropStash s c hit) :=
  (cleanStash_stash s c hit).trans (StashOnly.setStash ..)

section accepted

variable {s : State} {g : Guard} {d a b c : Reg} (hg : s.me.getP g.p ≠ g.pn) (hf : (s.core (coreOf s.cur)).tq.length < 16)
  (hp : s.me.part = none)

include hg hf

theorem cpy_long {len : LenSrc} (hn : 2 ^ 32 < lenOf s.me len) :
    exec (.cpy g d a b len) s = posted (.cpy g d a b len) { cls := 11, detail := 2, info := s.me.getS a } s := by
  refine (tileOp_run hg hf ..).trans (runOp_fault ?_)
  rw [Op.ask_bind, Op.need_bind_fails (by simpa using hn)]
  rfl

include hp

theorem cpy_accepted {len : LenSrc} (hn : lenOf s.me len ≤ 2 ^ 32)
    (hx : checkRange (s.core (coreOf s.cur)) false (s.me.getS a).toNat (lenOf s.me len) = .fine)
    (hy : checkRange (s.core (coreOf s.cur)) false (s.me.getS b).toNat (lenOf s.me len) = .fine) :
    nextWith (exec (.cpy g d a b len) s) fun t => tileAccepted (.cpy g d a b len) d (lenSrcLen len) (s.me.getS a) (s.me.getS b)
      [BitVec.ofNat 64 (lenOf s.me len)] s t := by
  show nextWith (tileOp ..) _
  rw [tileOp_run hg hf]
  refine runOp_accepts (cmd := { newTCmd with
    a := s.me.getS a, b := s.me.getS b, c := [BitVec.ofNat 64 (lenOf s.me len)], finished := lenOf s.me len == 0 }) ?_ hp
  rw [Op.ask_bind, Op.need_bind (by simpa using hn), needOperands_fine (by simp [hx, hy])]
  rfl

theorem cpy2d_accepted (hn : (s.me.getS c).toNat % 2 ^ 32 * ((s.me.getS c).toNat / 2 ^ 32) ≤ 2 ^ 32)
    (hx : checkRows (s.core (coreOf s.cur)) (s.me.getS a).toNat ((s.me.getS (c + 1)).extractLsb' 0 32).toInt
      ((s.me.getS c).toNat % 2 ^ 32) ((s.me.getS c).toNat / 2 ^ 32) = .fine)
    (hy : checkRows (s.core (coreOf s.cur)) (s.me.getS b).toNat ((s.me.getS (c + 1)).extractLsb' 32 32).toInt
      ((s.me.getS c).toNat % 2 ^ 32) ((s.me.getS c).toNat / 2 ^ 32) = .fine) :
    nextWith (exec (.cpy2d g d a b c) s) fun t => tileAccepted (.cpy2d g d a b c) d 12 (s.me.getS a) (s.me.getS b)
      [s.me.getS c, s.me.getS (c + 1)] s t := by
  have hlow : bitsOf (s.me.getS c) 0 32 = (s.me.getS c).toNat % 2 ^ 32 := rfl
  have hhigh : bitsOf (s.me.getS c) 32 32 = (s.me.getS c).toNat / 2 ^ 32 := by
    unfold bitsOf
    rw [Nat.shiftRight_eq_div_pow, Nat.mod_eq_of_lt]
    have := (s.me.getS c).isLt
    omega
  show nextWith (tileOp ..) _
  rw [tileOp_run hg hf, hlow, hhigh]
  refine runOp_accepts (cmd := { newTCmd with
    a := s.me.getS a, b := s.me.getS b, c := [s.me.getS c, s.me.getS (c + 1)]
    finished := (s.me.getS c).toNat % 2 ^ 32 * ((s.me.getS c).toNat / 2 ^ 32) == 0 }) ?_ hp
  rw [Op.ask_bind, Op.need_bind (by simpa using hn), 
    needOperands_fine (by exact List.forall_mem_cons.2 ⟨hx, List.forall_mem_singleton.2 hy⟩)]
  rfl

theorem cpyr_accepted {op : RedOp} {et : ElemTy} {len : LenSrc} (hn : lenOf s.me len ≤ 2 ^ 24)
    (hx : checkRange (s.core (coreOf s.cur)) false (s.me.getS a).toNat (lenOf s.me len * et.bytes) = .fine)
    (hy : checkRange (s.core (coreOf s.cur)) false (s.me.getS b).toNat (lenOf s.me len * et.bytes) = .fine)
    (hxa : (s.me.getS a).toNat % et.bytes = 0) (hya : (s.me.getS b).toNat % et.bytes = 0) :
    nextWith (exec (.cpyr g op et d a b len) s) fun t => tileAccepted (.cpyr g op et d a b len) d (lenSrcLen len) (s.me.getS a)
      (s.me.getS b) [BitVec.ofNat 64 (lenOf s.me len)] s t := by
  obtain ⟨x, hx'⟩ := nextCopy_disp s
  show nextWith (tileOp ..) _
  rw [tileOp_run hg hf]
  refine (runOp_accepts (s1 := { s with disp := x }) (cmd := { newTCmd with
    a := s.me.getS a, b := s.me.getS b, c := [BitVec.ofNat 64 (lenOf s.me len)], copy := (nextCopy s).1
    finished := lenOf s.me len == 0 }) ?_ hp : nextWith _ fun t => tileAccepted _ d _ _ _ _ { s with disp := x } t)
  rw [Op.ask_bind, Op.need_bind (by simpa using hn), needOperands_fine (by simp [hx, hy]), Op.need_bind (by simp [hxa, hya]), ← hx']
  rfl

theorem get_accepted {et : ElemTy} {tgt : PutTarget} (hn : (s.me.getS (c + 1)).toNat ≤ 2 ^ 24)
    (hown : inLocal (s.core (coreOf s.cur)) (s.me.getS a) ((s.me.getS (c + 1)).toNat * et.bytes))
    (hfar : farReady s et tgt (s.me.getS b) (s.me.getS c) (s.me.getS (c + 1))) (hxa : (s.me.getS a).toNat % et.bytes = 0)
    (hya : (s.me.getS b).toNat % et.bytes = 0) :
    nextWith (exec (.get g et tgt d a b c) s) fun t => tileAccepted (.get g et tgt d a b c) d 12 (s.me.getS a) (s.me.getS b)
      [s.me.getS c, s.me.getS (c + 1), 0] s t := by
  show nextWith (tileOp ..) _
  rw [tileOp_run hg hf]
  exact runOp_accepts (transferIssue_accepts (put := false) _ hn hown hfar hxa hya rfl) hp

theorem put_accepted {et : ElemTy} {tgt : PutTarget} (hn : (s.me.getS (c + 1)).toNat ≤ 2 ^ 24)
    (hown : inLocal (s.core (coreOf s.cur)) (s.me.getS b) ((s.me.getS (c + 1)).toNat * et.bytes))
    (hfar : farReady s et tgt (s.me.getS a) (s.me.getS c) (s.me.getS (c + 1))) (hxa : (s.me.getS a).toNat % et.bytes = 0)
    (hya : (s.me.getS b).toNat % et.bytes = 0) (h8 : (s.me.getS (c + 2)).toNat % 8 = 0) :
    nextWith (exec (.put g et tgt d a b c) s) fun t => tileAccepted (.put g et tgt d a b c) d 12 (s.me.getS a) (s.me.getS b)
      [s.me.getS c, s.me.getS (c + 1), s.me.getS (c + 2)] s t := by
  show nextWith (tileOp ..) _
  rw [tileOp_run hg hf]
  exact runOp_accepts (transferIssue_accepts (put := true) _ hn hown hfar hya hxa (by simp [h8])) hp

/-- A stash command over at most 2^32 bytes (R230). -/
theorem stashIssue_accepted {i : Instr} (hn : (s.me.getS b).toNat ≤ 2 ^ 32) :
    nextWith (tileOp g i 12 (stashIssue i d (s.me.getS a) (s.me.getS b)) s) fun t =>
      tileAccepted i d 12 (s.me.getS a) (s.me.getS b) [] s t := by
  rw [tileOp_run hg hf]
  refine runOp_accepts (cmd := { newTCmd with a := s.me.getS a, b := s.me.getS b }) ?_ hp
  unfold stashIssue
  rw [Op.need_bind (by simpa using hn)]
  rfl

omit hp in
theorem stashIssue_long {i : Instr} (hn : 2 ^ 32 < (s.me.getS b).toNat) :
    tileOp g i 12 (stashIssue i d (s.me.getS a) (s.me.getS b)) s = posted i { cls := 11, detail := 2, info := s.me.getS a } s := by
  rw [tileOp_run hg hf]
  refine runOp_fault ?_
  unfold stashIssue
  rw [Op.need_bind_fails (by simpa using hn)]
  rfl

omit hp in
theorem cpyRs_accepted {s1 : State} {r : BitVec 1536} {l : Layout} (hp1 : s1.me.part = none) (hh : (s.me.getS b).toNat % 64 = 0)
    (hr : useRecord (s.who s.cur) (s.me.getS b) s = .ok (r, s1)) (hl : parseRecord (s.me.getS b).toNat r = some l)
    (hd : denseExtent l ≤ 2 ^ 32) (hb : l.box.foldl (· * ·) 1 ≤ 2 ^ 24)
    (hbox : (checkBox (s1.core (coreOf s1.cur)) l (originOf (s.me.getS c))).2 = .fine)
    (hden : checkRange (s1.core (coreOf s1.cur)) false (s.me.getS a).toNat (denseExtent l) = .fine) :
    nextWith (exec (.cpyRs g d a b c) s) fun t => tileAccepted (.cpyRs g d a b c) d 12 (s.me.getS a) (s.me.getS b) [s.me.getS c] s1 t := by
  show nextWith (tileOp ..) _
  rw [tileOp_run hg hf]
  exact runOp_accepts (boxIssue_accepts true _ _ hh hr hl hd hb hbox hden) hp1

omit hp in
theorem cpyRd_accepted {s1 : State} {r : BitVec 1536} {l : Layout} (hp1 : s1.me.part = none) (hh : (s.me.getS a).toNat % 64 = 0)
    (hr : useRecord (s.who s.cur) (s.me.getS a) s = .ok (r, s1)) (hl : parseRecord (s.me.getS a).toNat r = some l)
    (hd : denseExtent l ≤ 2 ^ 32) (hb : l.box.foldl (· * ·) 1 ≤ 2 ^ 24)
    (hbox : (checkBox (s1.core (coreOf s1.cur)) l (originOf (s.me.getS c))).2 = .fine)
    (hden : checkRange (s1.core (coreOf s1.cur)) false (s.me.getS b).toNat (denseExtent l) = .fine) :
    nextWith (exec (.cpyRd g d a b c) s) fun t => tileAccepted (.cpyRd g d a b c) d 12 (s.me.getS a) (s.me.getS b) [s.me.getS c] s1 t := by
  show nextWith (tileOp ..) _
  rw [tileOp_run hg hf]
  exact runOp_accepts (boxIssue_accepts false _ _ hh hr hl hd hb hbox hden) hp1

omit hp in
/-- `pub` of a page in a cloak region (R232). -/
theorem pub_accepted {s1 : State} {ps : List Piece} {reg : Nat} (hp1 : s1.me.part = none) (hgl : inGlobal (s.me.getS a).toNat = true)
    (hc : checkAccess (s.who s.cur) .store (s.me.getS a) 1 s = .ok (ps, s1))
    (hr : (ps.findSome? fun p => p.loc.cloak) = some reg) :
    nextWith (exec (.pub g d a) s) fun t => tileAccepted (.pub g d a) d 12 (s.me.getS a) 0 [BitVec.ofNat 64 reg] s1 t := by
  show nextWith (tileOp ..) _
  rw [tileOp_run hg hf]
  refine runOp_accepts (s1 := s1) (cmd := { newTCmd with a := s.me.getS a, c := [BitVec.ofNat 64 reg] }) ?_ hp1
  rw [Op.ask_bind, Op.need_bind hgl, Op.bind_of_ok hc, hr]
  rfl

omit hp in
theorem pub_outside (h : inGlobal (s.me.getS a).toNat = true → ∃ ps s1,
      checkAccess (s.who s.cur) .store (s.me.getS a) 1 s = .ok (ps, s1) ∧ (ps.findSome? fun p => p.loc.cloak) = none) :
    exec (.pub g d a) s = posted (.pub g d a) { cls := 11, detail := 7, info := s.me.getS a } s := by
  refine (tileOp_run hg hf ..).trans (runOp_fault ?_)
  rw [Op.ask_bind]
  cases hgl : inGlobal (s.me.getS a).toNat with
  | false => rw [Op.need_bind_fails rfl]; rfl
  | true =>
    obtain ⟨ps, s1, hc, hn⟩ := h hgl
    rw [Op.need_bind rfl, Op.bind_of_ok hc, hn]
    rfl

/-- A stash map is set before the next instruction (R229). -/
theorem stmap_sets {map : Fin 8} (hm : mapOk (s.core (coreOf s.cur)) map (s.me.getS a) = true) :
    nextWith (exec (.stmap g map a) s) fun t => t.me = s.me.past 12 ∧ othersKept s t ∧
      (t.core (coreOf s.cur)).smap = (s.core (coreOf s.cur)).smap.set map (s.me.getS a) ∧ sameMemory s t := by
  let s1 := dropStash s (coreOf s.cur) (ofMap (s.core (coreOf s.cur)).smap[map])
  have h1 : StashOnly s s1 := dropStash_stash ..
  have hc1 : s1.cur = s.cur := h1.cur
  let s2 := s1.setCore (coreOf s.cur) { s1.core (coreOf s.cur) with smap := (s1.core (coreOf s.cur)).smap.set map (s.me.getS a) }
  have hts : ∀ j, s2.ts j = s.ts j := h1.ts
  have hme : s2.me = s.me := by rw [State.me, State.me]; show s2.ts s1.cur = _; rw [hc1, hts]
  have hrun : exec (.stmap g map a) s = .next (s2.advance 12) := by
    refine (tileOp_run hg hf ..).trans (runOp_ok ?_ (by rw [hme]; exact hp))
    rw [Op.ask_bind, Op.need_bind hm]
    show (Except.ok ((), (s1.setCore (coreOf s1.cur) _)) : Except Stop (Unit × State)) = _
    rw [hc1]
  refine ⟨_, hrun, ?_, fun j hj => ?_, ?_, fun sp x => ?_⟩
  · rw [State.advance_me, hme]
  · rw [State.advance, State.setMe_ts_ne s2 (by rwa [show s2.cur = s.cur from hc1])]; exact hts j
  · obtain ⟨l, hl⟩ := h1.core (coreOf s.cur)
    rw [State.advance, State.setMe_core, State.setCore_core_self, hl]
  · have h2 : memOf s2 sp = memOf s1 sp := memOf_setCore_same (by rfl) sp
    rw [State.advance, State.setMe, memOf_setTs, h2, h1.mem]

end accepted

/-- Records that leave the core's cache (R231). -/
theorem flushRecords_flushes {s : State} (n : Nat) (keep : Nat × Nat × BitVec 1536 → Bool) :
    let t := (flushRecords keep s).advance n
    t.me = s.me.past n ∧ othersKept s t ∧ (t.core (coreOf s.cur)).recs = (s.core (coreOf s.cur)).recs.filter keep := by
  intro t
  refine ⟨State.advance_me _ n, fun j hj => ?_, ?_⟩
  · exact State.setMe_ts_ne (flushRecords keep s) hj _
  · exact congrArg Core.recs (State.setCore_core_self ..)

/-- Outside global space an access finds no cloak region (R203, R204). -/
theorem checkAccess_noCloak {w : Who} {k : Kind} {a : Word} {n : Nat} {s s1 : State} {ps : List Piece}
    (ha : inGlobal a.toNat = false) (h : checkAccess w k a n s = .ok (ps, s1)) : (ps.findSome? fun p => p.loc.cloak) = none := by
  unfold checkAccess at h
  simp only [ha, Bool.false_and] at h
  split at h
  · cases h; rfl
  · split at h
    · cases h
    · split at h
      · rw [Op.ask_bind] at h
        split at h
        · cases h
        · split at h
          · cases h
          · cases h; rfl
      · cases h

/-- The far operand of the statement, as the issue checks it. -/
theorem farReady_of {s : State} {et : ElemTy} {tgt : PutTarget} {r z n : Word}
    (h0 : z = 0 → match tgt with
      | .glob => checkRange (s.core (coreOf s.cur)) false r.toNat (n.toNat * et.bytes) = .fine
      | .crossbar q => inLocal (s.core (coreOf s.cur / 16 * 16 + q.val)) r (n.toNat * et.bytes))
    (h1 : z ≠ 0 → inLocal (s.core (coreOf s.cur)) z (4 * n.toNat) ∧ z.toNat % 4 = 0)
    (h2 : match tgt with | .glob => True | .crossbar q => coreHolds s (coreOf s.cur / 16 * 16 + q.val) s.me.launch = true) :
    farReady s et tgt r z n := by
  have h4 : z.toNat % 4 = 0 := by
    by_cases hz : z = 0
    · rw [hz]; rfl
    · exact (h1 hz).2
  cases tgt with
  | glob => exact ⟨h0, fun hz => checkRange_of_inLocal (h1 hz).1 true, h4, rfl⟩
  | crossbar q => exact ⟨fun hz => checkRange_of_inLocal (h0 hz) true, fun hz => checkRange_of_inLocal (h1 hz).1 true, h4, h2⟩

/-- The issue of tile-engine commands (R221, R222, R225 to R232). -/
theorem tileCommandsAccepted : Sys2Proof.Claims.TileCommandsAccepted := by
  intro s s1 g d a b c et op len map r l tgt hg k x y z z1 z2 n ln fine ok other far
  have hn : n = lenOf s.me len := (lenOf_eq ..).symm
  have hln : ln = lenSrcLen len := (lenSrcLen_eq ..).symm
  refine ⟨fun hf i hi => ?_, fun hf hp hp1 => ⟨?_, ?_, ?_, ?_, ?_, ?_, ?_, ?_, ?_, ?_, ?_, ?_, ?_, ?_⟩, ?_, ?_⟩
  · simp only [List.mem_cons, List.not_mem_nil, or_false] at hi
    rcases hi with rfl | rfl | rfl | rfl | rfl | rfl | rfl | rfl | rfl | rfl | rfl <;> exact tileOp_full hg hf ..
  · rw [hn]
    exact cpy_long hg hf
  · rw [hn, hln]
    exact cpy_accepted hg hf hp
  · exact cpy2d_accepted hg hf hp
  · exact cpyRs_accepted hg hf hp1
  · exact cpyRd_accepted hg hf hp1
  · rw [hn, hln]
    exact cpyr_accepted hg hf hp
  · exact fun h1 h2 ⟨hz, hi, ht⟩ => get_accepted hg hf hp h1 h2 (farReady_of hz hi ht)
  · exact fun h1 h2 ⟨hz, hi, ht⟩ => put_accepted hg hf hp h1 h2 (farReady_of hz hi ht)
  · exact fun h => ⟨stashIssue_accepted hg hf hp h, stashIssue_accepted hg hf hp h⟩
  · intro h i hi
    simp only [List.mem_cons, List.not_mem_nil, or_false] at hi
    rcases hi with rfl | rfl <;> exact stashIssue_long hg hf h
  · exact stmap_sets hg hf hp
  · intro ps reg hc hr
    refine pub_accepted hg hf hp1 ?_ hc hr
    by_contra hgl
    rw [checkAccess_noCloak (by simpa using hgl) hc] at hr
    cases hr
  · exact fun ps hc hr => pub_outside hg hf fun _ => ⟨ps, s1, hc, hr⟩
  · intro hx
    refine pub_outside hg hf fun hgl => absurd hgl ?_
    simp only [inGlobal, decide_eq_true_eq, not_lt]
    exact hx
  · exact ⟨_, guarded_on hg .., flushRecords_flushes ..⟩
  · obtain ⟨h1, h2, h3⟩ := flushRecords_flushes (s := s) 12 fun _ => false
    exact ⟨_, guarded_on hg .., h1, h2, h3.trans (List.filter_false _)⟩

/-! ### Collectives (R470 to R475) -/

/-- A buffer in global space passes its checks (R475). -/
theorem collBuffer_global {β : Type} {a : Word} {n : Nat} (h : a.toNat + n ≤ 2 ^ 56) (k : Unit → Op β) (s : State) :
    (collBuffer a n >>= k) s = k () s := by
  have hlast : n ≠ 0 → (a + BitVec.ofNat 64 n - 1).toNat = a.toNat + n - 1 := by
    intro hn
    have : (a + BitVec.ofNat 64 n - 1#64).toNat = _ := BitVec.toNat_sub ..
    rw [BitVec.toNat_add, BitVec.toNat_ofNat] at this
    simp only [BitVec.toNat_ofNat] at this
    refine this.trans ?_
    omega
  have hwin : ∀ x, x < 2 ^ 56 → inWindow x = false := fun x hx => by
    unfold inWindow
    rw [decide_eq_false (by unfold lwBase; omega)]; rfl
  have h1 : (decide (n = 0) || inWindow a.toNat == inWindow (a + BitVec.ofNat 64 n - 1).toNat) = true := by
    by_cases hn : n = 0
    · simp [hn]
    · rw [hlast hn, hwin a.toNat (by omega), hwin _ (by omega)]; simp
  have h2 : (decide (n = 0) || (inGlobal a.toNat && inGlobal (a + BitVec.ofNat 64 n - 1).toNat &&
      decide (a.toNat ≤ (a + BitVec.ofNat 64 n - 1).toNat))) = true := by
    by_cases hn : n = 0
    · simp [hn]
    · rw [hlast hn]; simp [inGlobal]; omega
  rw [Op.bind_of_ok (a := ()) (t := s)]
  unfold collBuffer
  rw [Op.need_bind h1, h2]
  rfl

/-- A collective that has been accepted (R475). -/
theorem acceptColl_accepted (i : Instr) (d : Reg) (x : Instance) (red : Bool) (n : Nat) (s : State) :
    let t := (acceptColl i d x red s).advance n
    t.me = (s.me.pend d).past n ∧ othersKept s t ∧ sameMemory s t ∧ ∃ y : Instance, t.coll.active = s.coll.active ++ [y] ∧
      y.id = x.id ∧ y.rank = x.rank ∧ y.peers = x.peers ∧ y.ts = s.cur ∧ y.instr = i ∧ y.send = x.send ∧ y.recv = x.recv ∧
      y.count = x.count ∧ y.started = x.started ∧ y.finished = x.finished ∧ y.paused = x.paused := by
  obtain ⟨u, hu⟩ : ∃ u, (if red then nextCopy s else (0, s)).2 = { s with disp := u } := by
    split
    · exact nextCopy_disp s
    · exact ⟨_, rfl⟩
  unfold acceptColl
  extract_lets c k m cp s1 y s2 s3 _ s4 t
  have hs1 : s1 = { s with disp := u } := hu
  have ht : t = s4.setMe ((m.pend d).past n) := by
    show (s4.setMe _).advance n = _
    rw [State.advance, State.setMe_me, State.setMe_setMe]
  have hcur : s4.cur = s.cur := show s1.cur = s.cur by rw [hs1]
  have hts : ∀ j, s4.ts j = s.ts j := fun j => show s1.ts j = s.ts j by rw [hs1]; rfl
  have hmem : ∀ sp, memOf s4 sp = memOf s sp := fun sp => calc
    memOf s4 sp = memOf s3 sp := by cases sp <;> rfl
    _ = memOf s1 sp := memOf_setCore_same (by rfl) sp
    _ = memOf s sp := by rw [hs1]; cases sp <;> rfl
  rw [ht]
  refine ⟨State.setMe_me .., fun j hj => ?_, fun sp a => ?_, y, ?_, rfl, rfl, rfl, ?_, rfl, rfl, rfl, rfl, rfl, rfl, rfl⟩
  · rw [State.setMe_ts_ne s4 (by rwa [hcur]), hts]
  · rw [State.setMe, memOf_setTs, hmem]
  · show s1.coll.active ++ [y] = _
    rw [hs1]
  · exact hcur

theorem immZext_toNat (n : Imm 13) : (immZext n).toNat = match n with | .short i => i.toNat | .lit v => v.toNat := by
  match n with
  | .short i => simp [immZext]; omega
  | .lit v => rfl

theorem extLen_eq (n : Imm 13) : extLen n = match n with | .short _ => 12 | .lit _ => 20 := by
  match n with
  | .short _ | .lit _ => rfl

/-- The acceptance of a collective (R470 to R472, R475). -/
theorem collectiveAccepted : Sys2Proof.Claims.CollectiveAccepted := by
  intro s s1 g op fn et wire scaled root d a b c n r hg hr i cnt es m sends recvs global hp1 hs hv hgs hgr
  have hcnt : (immZext n).toNat = cnt := immZext_toNat n
  have hsb : sendCount op m cnt * es = sends := by cases op <;> rfl
  have hrb : recvCount op m cnt * es = recvs := by cases op <;> rfl
  let x : Instance := { id := r.id, cmd := 0, ts := 0, launch := 0, instr := i, pc := 0, send := s.me.getS b, recv := s.me.getS c,
                        count := cnt, rank := r.rank, peers := r.peers }
  have hrun : exec i s = .next ((acceptColl i d x (reducing op) s1).advance (extLen n)) := by
    refine (guarded_on hg ..).trans (runOp_ok ?_ ?_)
    · have hsb' : sendCount op r.peers.length cnt * collBytes et scaled = sends := hsb
      have hrb' : recvCount op r.peers.length cnt * collBytes et scaled = recvs := hrb
      rw [Op.bind_of_ok hr]
      simp only [hcnt, hsb', hrb']
      rw [collBuffer_global hgs, collBuffer_global hgr, Op.need_bind (by simpa using ⟨hs, hv⟩)]
      rfl
    · rw [acceptColl, State.setMe_me, pend_part]
      exact hp1
  have h := acceptColl_accepted i d x (reducing op) (extLen n) s1
  rw [extLen_eq] at h
  exact ⟨_, hrun.trans (by rw [extLen_eq]), h⟩

/-- Settles O51, by the issue of tile-engine commands and of collectives. -/
theorem tileCommands : Obligations.TileCommands := ⟨tileCommandsAccepted, collectiveAccepted⟩

end Sys2Proof.Machine


/-! SUPPORT. `freply`: what it refuses, the state in which a reply applies, and what RESUME and SKIP do (R140, R246, R258, R353,
R377, R484). -/

namespace Sys2Proof.Machine

/-! ### What a thread set holds after SKIP (R140, R484) -/

/-- Lanes of one pattern, at the active lanes of a mask. -/
theorem skipLanes (t : ThreadSet) (d : Reg) (et : ElemTy) (on : Nat → Bool) (x : Nat) :
    let y := t.setV d (writeLanes et.width (t.getV d) 127
      ((List.range et.lanes).map fun j => if on j = true then some (x % 2 ^ et.width, false) else none))
    (∀ j, j < et.lanes → laneOf (y.getV d) et.width j = if on j = true then x % 2 ^ et.width else laneOf (t.getV d) et.width j) ∧
      Claims.riderWritten t y d et on (fun _ => false) 127 := by
  let f (j : Nat) : Option LaneRes := if on j = true then some { val := x % 2 ^ et.width } else none
  have hf : ∀ j, f j = if on j = true then some { val := x % 2 ^ et.width } else none := fun _ => rfl
  have hlist : ((List.range et.lanes).map fun j => if on j = true then some (x % 2 ^ et.width, false) else none) =
      (laneList et f).map (Option.map fun r => (r.val, r.flag)) := by
    rw [laneList, List.map_map]
    refine List.map_congr_left fun j _ => ?_
    rw [Function.comp_apply, hf]
    split <;> rfl
  intro y
  have hy : y.getV d = ((putLanes t d et.width 127 (laneList et f)).past 0).getV d := by
    show (t.setV d _).getV d = _
    rw [hlist, ThreadSet.past_getV, putLanes, ThreadSet.raise_getV, ThreadSet.getV_setV_self]
  constructor
  · intro j hj
    rw [hy, ThreadSet.past_getV, putLanes_lanes t d et 127 f hj, hf]
    by_cases h : on j = true
    · simp [h]
    · simp [h]
  · have h := putLanes_rider t d et 127 (f := f) (on := on) (flg := fun _ => false)
      (fun j _ => by rw [hf]; split <;> rfl) 0
    unfold Claims.riderWritten at h ⊢
    rwa [hy]

/-- A vector load of whole lanes writes one pattern to all of them. -/
theorem replicate_eq_allLanes (t : ThreadSet) (et : ElemTy) (x : Nat) :
    List.replicate (256 / et.width) (some (x % 2 ^ et.width, false)) =
      (List.range et.lanes).map fun j => if active (t.getK 0) j = true then some (x % 2 ^ et.width, false) else none := by
  have hl : 256 / et.width = et.lanes := by cases et <;> rfl
  have h32 : et.lanes ≤ 32 := by cases et <;> decide
  refine List.ext_getElem (by simp [hl]) fun j h1 h2 => ?_
  have hj : j < 32 := by simp at h2; omega
  have hk : active (t.getK 0) j = true := by
    have : ∀ j, j < 32 → active (0xFFFFFFFF : BitVec 32) j = true := by decide
    simpa [ThreadSet.getK] using this j hj
  simp [hk]

/-- SKIP writes no predicate, no mask, and not the pc. -/
theorem skipWrites_keeps (i : Instr) (cls : Nat) (x : Word) (issued t : ThreadSet) :
    (skipWrites i cls x issued t).pc = t.pc ∧ (skipWrites i cls x issued t).p = t.p ∧ (skipWrites i cls x issued t).k = t.k := by
  unfold skipWrites
  extract_lets bcast masked
  split
  · exact ⟨rfl, rfl, rfl⟩
  · split
    case h_6 => split <;> simp
    all_goals simp

/-- Illegal instructions and breakpoints write nothing. -/
theorem skipWrites_refused {cls : Nat} (h : cls = 1 ∨ cls = 4) (i : Instr) (x : Word) (issued t : ThreadSet) :
    skipWrites i cls x issued t = t := if_pos (by simpa using h)

theorem setS_s (t : ThreadSet) (r : Reg) (x : Word) : (t.setS r x).s = if r = 0 then t.s else t.s.set r x := by
  unfold ThreadSet.setS; split <;> rfl

section skipped

/-! A thread set u, its clock after the reply, and what it is after SKIP. -/

variable {u y : ThreadSet} {i : Instr} {cls n p : Nat} {x : Word} {st : Status} {d : Reg}

theorem skip_one (h : y = ({ u with pts := p } : ThreadSet).setS d x) :
    ({ y.past n with status := st } : ThreadSet).s = (u.setS d x).s ∧ ({ y.past n with status := st } : ThreadSet).v = u.v := by
  subst h
  exact ⟨by simp [setS_s], by simp⟩

theorem skip_two (h : y = (({ u with pts := p } : ThreadSet).setS d x).setS (regNext d) 0) :
    ({ y.past n with status := st } : ThreadSet).s = ((u.setS d x).setS (d + 1) 0).s ∧
      ({ y.past n with status := st } : ThreadSet).v = u.v := by
  subst h
  exact ⟨by simp [setS_s, regNext], by simp⟩

theorem skip_lanes {k : KReg} {et : ElemTy} (h : y = ({ u with pts := p } : ThreadSet).setV d (writeLanes et.width (u.getV d) 127
      ((List.range et.lanes).map fun j => if active (u.getK k) j = true then some (x.toNat % 2 ^ et.width, false) else none))) :
    let t : ThreadSet := { y.past n with status := st }
    t.s = u.s ∧ (∀ q, q ≠ d → t.getV q = u.getV q) ∧
      (∀ j, j < et.lanes → laneOf (t.getV d) et.width j =
        if active (u.getK k) j = true then x.toNat % 2 ^ et.width else laneOf (u.getV d) et.width j) ∧
      Claims.riderWritten u t d et (active (u.getK k)) (fun _ => false) 127 := by
  obtain ⟨hl, hr⟩ := skipLanes u d et (active (u.getK k)) x.toNat
  subst h
  exact ⟨rfl, fun q hq => ThreadSet.getV_setV_ne u hq _, hl, hr⟩

theorem skip_allLanes {et : ElemTy} (h : y = ({ u with pts := p } : ThreadSet).setV d (writeLanes et.width (u.getV d) 127
      (List.replicate (256 / et.width) (some (x.toNat % 2 ^ et.width, false))))) :
    let t : ThreadSet := { y.past n with status := st }
    t.s = u.s ∧ (∀ q, q ≠ d → t.getV q = u.getV q) ∧
      (∀ j, j < et.lanes → laneOf (t.getV d) et.width j =
        if active (u.getK 0) j = true then x.toNat % 2 ^ et.width else laneOf (u.getV d) et.width j) ∧
      Claims.riderWritten u t d et (active (u.getK 0)) (fun _ => false) 127 :=
  skip_lanes (by rw [h, replicate_eq_allLanes u])

theorem skip_none (h : y = ({ u with pts := p } : ThreadSet)) :
    ({ y.past n with status := st } : ThreadSet).s = u.s ∧ ({ y.past n with status := st } : ThreadSet).v = u.v := by
  subst h
  exact ⟨rfl, rfl⟩

/-- What SKIP leaves of an instruction that it does not refuse (R140, R246, R258, R353, R484). -/
theorem skipWrites_skipped (hc : ¬(cls = 1 ∨ cls = 4)) (hy : y = skipWrites i cls x { u with pts := p } { u with pts := p }) :
    Claims.skipped i x u { y.past n with status := st } := by
  have hc' : ¬(decide (cls = 1) || decide (cls = 4)) = true := by simpa using hc
  unfold Claims.skipped
  extract_lets _ one two lanes
  split
  case h_6 | h_16 => exact skip_two (hy.trans (if_neg hc'))
  case h_7 hq => exact skip_one (hy.trans ((if_neg hc').trans (if_neg hq)))
  case h_17 | h_18 => exact skip_allLanes (et := .u8) (hy.trans (if_neg hc'))
  case h_19 => exact skip_allLanes (et := .u16) (hy.trans (if_neg hc'))
  case h_20 => exact skip_allLanes (et := .u32) (hy.trans (if_neg hc'))
  case h_21 => exact skip_allLanes (et := .u64) (hy.trans (if_neg hc'))
  case h_22 | h_23 | h_24 => exact skip_lanes (hy.trans (if_neg hc'))
  case h_39 | h_40 | h_41 | h_42 | h_43 | h_44 => exact skip_none (hy.trans (if_neg hc'))
  case h_45 => trivial
  all_goals exact skip_one (hy.trans (if_neg hc'))

end skipped

/-! ### `freply` (R377) -/

theorem bitsOf_eq (w : Word) (lo n : Nat) : bitsOf w lo n = (w.extractLsb' lo n).toNat := by
  rw [BitVec.extractLsb'_toNat]; rfl

theorem bitsOf_bne_zero (w : Word) (lo n : Nat) : (bitsOf w lo n != 0) = decide (w.extractLsb' lo n ≠ 0) := by
  rw [bitsOf_eq]
  generalize w.extractLsb' lo n = x
  by_cases h : x = 0
  · simp [h]
  · have : x.toNat ≠ 0 := fun e => h (BitVec.eq_of_toNat_eq (by simpa using e))
    rw [decide_eq_true (p := x ≠ 0) h]
    exact bne_iff_ne.2 this

section freply

variable {s : State} {d a b : Reg} (hv : isServiceTs s s.cur = true ∨ isHandlerTs s s.cur = true)

include hv

/-- `freply` of a fault service, after its folds have been placed. -/
theorem freply_eq : exec (.freply d a b) s =
    let s' := placeFolds s s.cur 6
    let w := s.me.getS a
    if waitsForPeer s' s.cur = true then .next s'
    else if w.extractLsb' 34 14 ≠ 0 then wroteS s' d 2 4
    else match answerable s' s.cur (w.setWidth 32) with
      | none => wroteS s' d 1 4
      | some r => .next (deliver (s'.setMe ((s'.me.setS d 0).past 4)) r s'.me.pts (bitsOf w 32 2) (s.me.getS b) (bitsOf w 48 16)) := by
  have hcur : (placeFolds s s.cur 6).cur = s.cur := (placeFolds_keeps s s.cur 6).cur
  have hfin : ∀ (u : State) (x : ThreadSet), (u.setMe x).advance 4 = u.setMe (x.past 4) := fun u x => by
    rw [State.advance, State.setMe_me, State.setMe_setMe]
  have hserve : (!(isServiceTs s s.cur || isHandlerTs s s.cur)) = false := by rcases hv with h | h <;> simp [h]
  show execFreply d a b s = _
  unfold execFreply
  simp only [hserve, Bool.false_eq_true, if_false, scopeSys, hcur, bitsOf_bne_zero, decide_eq_true_eq, hfin]
  rfl

theorem freplyRefused_of :
    let w := s.me.getS a
    let s' := placeFolds s s.cur 6
    (waitsForPeer s' s.cur = true → exec (.freply d a b) s = .next s') ∧
    (waitsForPeer s' s.cur = false → w.extractLsb' 34 14 ≠ 0 → exec (.freply d a b) s = wroteS s' d 2 4) ∧
    (waitsForPeer s' s.cur = false → w.extractLsb' 34 14 = 0 → answerable s' s.cur (w.setWidth 32) = none →
      exec (.freply d a b) s = wroteS s' d 1 4) := by
  intro w s'
  rw [freply_eq hv]
  refine ⟨fun h => if_pos h, fun h hw => ?_, fun h hw ha => ?_⟩
  · rw [if_neg (by rw [h]; exact Bool.false_ne_true), if_pos hw]
  · rw [if_neg (by rw [h]; exact Bool.false_ne_true), if_neg (not_not.2 hw)]
    show (match answerable s' s.cur (w.setWidth 32) with | none => _ | some r => _) = _
    rw [ha]

/-- A reply that is delivered. -/
theorem freply_delivers {r : FaultRec} (hp : waitsForPeer (placeFolds s s.cur 6) s.cur = false)
    (hw : (s.me.getS a).extractLsb' 34 14 = 0)
    (ha : answerable (placeFolds s s.cur 6) s.cur ((s.me.getS a).setWidth 32) = some r) (hc : coreOf r.ts < 4096) :
    let s' := placeFolds s s.cur 6
    exec (.freply d a b) s = .next (applyReply (s'.setMe ((s'.me.setS d 0).past 4)) { r with pts := s'.me.pts }
      ((s.me.getS a).extractLsb' 32 2).toNat (s.me.getS b) ((s.me.getS a).extractLsb' 48 16).toNat) := by
  intro s'
  rw [freply_eq hv, if_neg (by rw [hp]; exact Bool.false_ne_true), if_neg (not_not.2 hw)]
  simp only [ha, bitsOf_eq, deliver, if_pos hc]
  rfl

end freply

theorem freplyRefused : Sys2Proof.Claims.FreplyRefused := fun _ _ _ _ hv => freplyRefused_of hv

/-! ### The state in which a reply applies (R140, R307) -/

/-- The state in which the reply to fault r of another thread set applies, from the one with the folds placed: the service is past its
`freply`, the fault is no longer outstanding, and the clock of the answered thread set follows the reply. -/
def answered (s : State) (d : Reg) (r : FaultRec) : State :=
  let u := s.setMe ((s.me.setS d 0).past 4)
  let u := { u with faults := { u.faults with recs := u.faults.recs.filter fun q => q.handle != r.handle } }
  u.setTs r.ts { u.ts r.ts with pts := max (u.ts r.ts).pts s.me.pts }

section answered

variable {s : State} {d : Reg} {r : FaultRec} (hr : r.ts ≠ s.cur)

include hr

theorem answered_ts : (answered s d r).ts r.ts = { s.ts r.ts with pts := max (s.ts r.ts).pts s.me.pts } := by
  have h : (s.setMe ((s.me.setS d 0).past 4)).ts r.ts = s.ts r.ts := State.setMe_ts_ne s hr _
  let x := (s.setMe ((s.me.setS d 0).past 4)).ts r.ts
  have hx : (answered s d r).ts r.ts = { x with pts := max x.pts s.me.pts } := State.setTs_ts_self _ _ _
  rw [hx, show x = s.ts r.ts from h]

omit hr in
theorem answered_ts_ne {k : Nat} (hk : k ≠ r.ts) : (answered s d r).ts k = (s.setMe ((s.me.setS d 0).past 4)).ts k :=
  State.setTs_ts_ne _ hk _

theorem answered_me : (answered s d r).me = (s.me.setS d 0).past 4 := by
  show (answered s d r).ts s.cur = _
  rw [answered_ts_ne (Ne.symm hr)]
  exact State.setMe_me ..

theorem answered_launchOf : (answered s d r).launchOf r.ts = s.launchOf r.ts := by
  unfold State.launchOf
  rw [answered_ts hr]
  rfl

end answered

/-- A thread set other than the running one changes. -/
theorem setTs_me_ne {s : State} {k : Nat} (hk : k ≠ s.cur) (x : ThreadSet) : (s.setTs k x).me = s.me :=
  State.setTs_ts_ne s (Ne.symm hk) x

/-- The reply of a service to a thread set's own fault, by its action (R140, R378, R379). -/
theorem applyReply_own {s : State} {r : FaultRec} (hs : r.source = 0) (d : Reg) (action : Nat) (x : Word) (code : Nat) :
    let u := answered s d r
    let r' : FaultRec := { r with pts := s.me.pts }
    let v := applyReply (s.setMe ((s.me.setS d 0).past 4)) r' action x code
    (action = 3 → v = killLaunch u r.launch 2) ∧ (action = 2 → v = abortTs u r.ts code) ∧
    (action = 0 ∨ action = 1 → v = match r.dest, r.late with
      | some p, _ => replyWait u r' p (action = 1)
      | none, some w => replyLate u r' w (action = 1) x
      | none, none => if action = 1 then if r.cls = 12 && r.detail = 3 then skipWait u r' else skipFault u r' x else resumeFault u r') := by
  intro u r' v
  have hv : v = if action = 3 then killLaunch u r.launch 2 else if action = 2 then abortTs u r.ts code else
      match r.dest, r.late with
      | some p, _ => replyWait u r' p (action = 1)
      | none, some w => replyLate u r' w (action = 1) x
      | none, none => if action = 1 then if r.cls = 12 && r.detail = 3 then skipWait u r' else skipFault u r' x else resumeFault u r' := by
    show applyReply .. = _
    unfold applyReply
    simp only [show r'.source = 0 from hs, if_true, bne_self_eq_false, Bool.false_eq_true, if_false]
    rfl
  refine ⟨fun h => ?_, fun h => ?_, fun h => ?_⟩
  · rw [hv, if_pos h]
  · rw [hv, if_neg (by omega), if_pos h]
  · rw [hv, if_neg (by omega), if_neg (by omega)]

end Sys2Proof.Machine


/-! SUPPORT. What RESUME and SKIP leave of a thread set's own fault, and of a broken wait (R140, R246, R258, R484). -/

namespace Sys2Proof.Machine

/-- A group's clock as a reply reads it, from the state before the reply. -/
theorem groupClock_answered {s : State} {r : FaultRec} (d : Reg) (hr : r.ts ≠ s.cur) (n : Nat) {l : Launch} {g : Group}
    (hl : s.launchOf r.ts = some l) (hg : (l.groups.find? fun x => x.id % 256 == (r.msg.extractLsb' 256 8).toNat) = some g) :
    groupClock (answered s d r) { r with pts := n } = g.pts := by
  unfold groupClock
  simp only [answered_launchOf hr, hl, hg]

section reply

/-! A reply of a service to the fault of a thread set of its own, in a state s with the folds placed. -/

variable {s : State} {d : Reg} {r : FaultRec} (hr : r.ts ≠ s.cur)

include hr

/-- A reply that changes the answered thread set alone leaves the service past its `freply`. -/
theorem answered_setTs_me (x : ThreadSet) : ((answered s d r).setTs r.ts x).me = (s.me.setS d 0).past 4 :=
  (setTs_me_ne (s := answered s d r) hr x).trans (answered_me hr)

/-- RESUME (R140). -/
theorem resumeFault_answered :
    let t := resumeFault (answered s d r) { r with pts := s.me.pts }
    let n := if r.cls = 3 ∨ r.cls = 4 then r.len else 0
    t.me = (s.me.setS d 0).past 4 ∧
      t.ts r.ts = { (s.ts r.ts).past n with status := .running, pts := max (s.ts r.ts).pts s.me.pts } ∧
      t.faults.recs = s.faults.recs.filter fun q => q.handle != r.handle := by
  refine ⟨answered_setTs_me hr _, ?_, rfl⟩
  unfold resumeFault
  rw [State.setTs_ts_self, answered_ts hr]
  simp only [Bool.or_eq_true, decide_eq_true_eq]
  rfl

/-- SKIP of a broken wait (R246). -/
theorem skipWait_answered :
    let r' : FaultRec := { r with pts := s.me.pts }
    let q := max (max (s.ts r.ts).pts s.me.pts) (groupClock (answered s d r) r')
    let t := skipWait (answered s d r) r'
    t.me = (s.me.setS d 0).past 4 ∧ t.disp = s.disp ∧
      t.ts r.ts = { (s.ts r.ts).past r.len with status := .running, pts := q } := by
  refine ⟨answered_setTs_me hr _, rfl, ?_⟩
  unfold skipWait
  rw [State.setTs_ts_self, answered_ts hr]
  rfl

/-- SKIP of a fault that is no broken wait (R140, R484). -/
theorem skipFault_answered (x : Word) :
    let u := s.ts r.ts
    let t := skipFault (answered s d r) { r with pts := s.me.pts } x
    let y := t.ts r.ts
    t.me = (s.me.setS d 0).past 4 ∧ y.status = .running ∧ y.pc = u.pc + BitVec.ofNat 64 r.len ∧ y.p = u.p ∧ y.k = u.k ∧
      (if r.cls = 1 ∨ r.cls = 4 then y.s = u.s ∧ y.v = u.v else Claims.skipped r.instr x u y) := by
  intro u t y
  let u' : ThreadSet := { u with pts := max u.pts s.me.pts }
  have hy : y = { (skipWrites r.instr r.cls x u' u').past r.len with status := .running } := by
    show (skipFault _ _ _).ts r.ts = _
    unfold skipFault
    rw [State.setTs_ts_self, answered_ts hr]
  obtain ⟨hpc, hp, hk⟩ := skipWrites_keeps r.instr r.cls x u' u'
  refine ⟨answered_setTs_me hr _, by rw [hy], ?_, ?_, ?_, ?_⟩
  · rw [hy]
    show (skipWrites r.instr r.cls x u' u').pc + _ = _
    rw [hpc]
  · rw [hy]; exact hp
  · rw [hy]; exact hk
  · split
    next h => rw [hy, skipWrites_refused h]; exact ⟨rfl, rfl⟩
    next h => rw [hy]; exact skipWrites_skipped h rfl

end reply

section delivered

/-! A `freply` that delivers a reply to the fault of another thread set that is on a core. -/

variable {s : State} {d a b : Reg} {r : FaultRec} (hv : isServiceTs s s.cur = true ∨ isHandlerTs s s.cur = true)
  (hp : waitsForPeer (placeFolds s s.cur 6) s.cur = false) (hw : (s.me.getS a).extractLsb' 34 14 = 0)
  (ha : answerable (placeFolds s s.cur 6) s.cur ((s.me.getS a).setWidth 32) = some r) (hs : r.source = 0)
  (hc : coreOf r.ts < 4096)

/-- The placement of the service's folds leaves the answered thread set as it was. -/
theorem placed_facts (s : State) {k : Nat} (hr : k ≠ s.cur) :
    k ≠ (placeFolds s s.cur 6).cur ∧ (placeFolds s s.cur 6).ts k = s.ts k ∧ (placeFolds s s.cur 6).disp = s.disp ∧
      (placeFolds s s.cur 6).front = s.front := by
  have h := placeFolds_places s s.cur 6
  have ho := h.keeps.outside
  exact ⟨by rw [h.keeps.cur]; exact hr, h.others k hr, congrArg (·.disp) ho, congrArg (·.front) ho⟩

include hv hp hw ha hs hc

theorem freply_resume (h : (s.me.getS a).extractLsb' 32 2 = 0) (hd : r.dest = none) (hl : r.late = none) :
    exec (.freply d a b) s = .next (resumeFault (answered (placeFolds s s.cur 6) d r)
      { r with pts := (placeFolds s s.cur 6).me.pts }) := by
  rw [freply_delivers hv hp hw ha hc, (applyReply_own hs d _ _ _).2.2 (.inl (by simp [h])), hd, hl, h]
  rfl

theorem freply_skip (h : (s.me.getS a).extractLsb' 32 2 = 1) (hd : r.dest = none) (hl : r.late = none)
    (hb : ¬(r.cls = 12 ∧ r.detail = 3)) :
    exec (.freply d a b) s = .next (skipFault (answered (placeFolds s s.cur 6) d r)
      { r with pts := (placeFolds s s.cur 6).me.pts } (s.me.getS b)) := by
  rw [freply_delivers hv hp hw ha hc, (applyReply_own hs d _ _ _).2.2 (.inr (by simp [h])), hd, hl, h]
  show Host.Outcome.next (if r.cls = 12 && r.detail = 3 then _ else _) = _
  rw [if_neg (by simpa using hb)]

theorem freply_skipWait (h : (s.me.getS a).extractLsb' 32 2 = 1)
    (hb : r.dest.isSome ∨ (r.late = none ∧ r.cls = 12 ∧ r.detail = 3)) :
    exec (.freply d a b) s = .next (skipWait (answered (placeFolds s s.cur 6) d r)
      { r with pts := (placeFolds s s.cur 6).me.pts }) := by
  rw [freply_delivers hv hp hw ha hc, (applyReply_own hs d _ _ _).2.2 (.inr (by simp [h])), h]
  cases hd : r.dest with
  | some p => rfl
  | none =>
    obtain ⟨hl, hcls, hdet⟩ := hb.resolve_left (by simp [hd])
    rw [hl]
    show Host.Outcome.next (if r.cls = 12 && r.detail = 3 then _ else _) = _
    rw [if_pos (by simp [hcls, hdet])]

theorem freply_rewait {p : Nat} {g : Fin 4} (h : (s.me.getS a).extractLsb' 32 2 = 0) (hd : r.dest = some p)
    (hi : r.instr = .bar g) :
    let u := answered (placeFolds s s.cur 6) d r
    exec (.freply d a b) s = .next (u.setTs r.ts { u.ts r.ts with status := .waitPhase g.val p }) := by
  intro u
  rw [freply_delivers hv hp hw ha hc, (applyReply_own hs d _ _ _).2.2 (.inl (by simp [h])), hd, h]
  show Host.Outcome.next (match r.instr with | .bar g => _ | _ => _) = _
  rw [hi]

end delivered

theorem brokenWaits : Sys2Proof.Claims.BrokenWaits := by
  intro s d a b r hv w s' u hp hw ha hs hr hc
  obtain ⟨hr', hu, -⟩ := placed_facts s hr
  refine ⟨fun h hb => ?_, fun p g h hd hi => ?_⟩
  · obtain ⟨-, hdisp, hts⟩ := skipWait_answered (d := d) hr'
    refine ⟨_, freply_skipWait hv hp hw ha hs hc h hb, hdisp, _, hts.trans (by rw [hu]), ?_, ?_, fun l g hl hg => ?_⟩
    · exact le_max_of_le_left (le_max_left ..)
    · exact le_max_of_le_left (le_max_right ..)
    · exact (groupClock_answered d hr' _ hl hg).ge.trans (le_max_right ..)
  · refine ⟨_, freply_rewait hv hp hw ha hs hc h hd hi, ?_⟩
    show (State.setTs _ r.ts _).ts r.ts = _
    rw [State.setTs_ts_self, answered_ts hr', hu]

end Sys2Proof.Machine


/-! SUPPORT. The ends that ABORT and KILL make (R350, R354, R378, R379): what each step of an end leaves. -/

namespace Sys2Proof.Machine

/-! ### Leases: their ends concern the fabric alone (R440 to R447) -/

@[simp] theorem setPoolChan_outside (s : State) (j : Nat) (c : PoolChan) : (setPoolChan s j c).outside = s.outside := rfl

@[simp] theorem setRx_outside (s : State) (p : Option Nat) (i : Nat) (c : RxChan) : (setRx s p i c).outside = s.outside := by
  unfold setRx
  split
  · rfl
  · split <;> rfl

@[simp] theorem dropRx_outside (s : State) (p i at' : Nat) : (dropRx s p i at').outside = s.outside := by
  unfold dropRx
  extract_lets c
  split <;> exact setRx_outside ..

@[simp] theorem giveChan_outside (s : State) (j h p i at' : Nat) : (giveChan s j h p i at').outside = s.outside := by
  unfold giveChan ownRx
  extract_lets c heard at'' ready busy s1
  split
  · exact (setRx_outside ..).trans rfl
  · rfl

theorem takeRx_outside {s : State} {p : Nat} {x : Nat × Nat × State} (h : takeRx s p = some x) : x.2.2.outside = s.outside := by
  unfold takeRx at h
  extract_lets m at h
  split at h
  · cases h; exact setRx_outside ..
  · obtain ⟨i, -, rfl⟩ := Option.map_eq_some_iff.1 h
    exact (setRx_outside ..).trans (State.pick_outside s)

theorem takeFree_outside (s : State) (l : Lease) : ((takeFree s l).getD s).outside = s.outside := by
  unfold takeFree
  split
  · cases h : takeRx s l.peer with
    | none => rfl
    | some x => exact (giveChan_outside ..).trans (takeRx_outside h)
  · rfl

@[simp] theorem fillPending_outside (s : State) : (fillPending s).outside = s.outside := by
  refine foldl_outside (fun s l => foldl_outside (fun s _ => ?_) _ _) _ _
  split
  · exact takeFree_outside ..
  · rfl

@[simp] theorem releaseChan_outside (s : State) (j : Nat) : (releaseChan s j).outside = s.outside := by
  unfold releaseChan
  extract_lets c tuned retune s1 s2
  have h1 : s1.outside = s.outside := by unfold s1; split <;> simp
  have h2 : s2.outside = s.outside := h1
  split
  · split
    · split <;> simp [h2]
    · exact h2
  · exact h2

@[simp] theorem dropClaim_outside (s : State) (h j : Nat) : (dropClaim s h j).outside = s.outside := by
  unfold dropClaim
  extract_lets c s1
  have h1 : s1.outside = s.outside := by unfold s1; split <;> simp
  exact h1

theorem dropClaims_outside (s : State) (h : Nat) : (dropClaims s h).outside = s.outside := by
  unfold dropClaims
  extract_lets s1
  have h1 : s1.outside = s.outside := foldl_outside (fun s j => dropClaim_outside s h j) _ s
  rw [foldl_outside releaseChan_outside, h1]

@[simp] theorem endLease_outside (s : State) (h : Nat) : (endLease s h).outside = s.outside := by
  unfold endLease
  extract_lets s1 s2
  have h2 : s2.outside = s.outside := (foldl_outside releaseChan_outside _ s1).trans (dropClaims_outside s h)
  clear_value s2
  exact (fillPending_outside _).trans h2

/-! ### The launches of a state -/

theorem launch?_setLaunch_map (s : State) (l : Launch) (n : Nat) :
    (s.setLaunch l).launch? n = (s.launch? n).map fun x => if x.num = l.num then l else x := by
  show List.find? _ (List.map _ _) = _
  rw [List.find?_map]
  refine congrArg _ (congrArg (fun p => List.find? p s.disp.launches) (funext fun x => ?_))
  show ((if x.num = l.num then l else x).num == n) = (x.num == n)
  split
  next h => rw [h]
  · rfl

/-- Another launch is as it was. -/
theorem launch?_setLaunch_ne (s : State) (l : Launch) {n : Nat} (h : n ≠ l.num) : (s.setLaunch l).launch? n = s.launch? n := by
  rw [launch?_setLaunch_map]
  cases hl : s.launch? n with
  | none => rfl
  | some x => rw [Option.map_some, if_neg (by rw [launch?_num hl]; exact h)]

/-- The launches without one. -/
theorem find?_dropLaunch (ls : List Launch) (m n : Nat) :
    ((ls.filter fun x => x.num != m).find? fun x => x.num == n) = if n = m then none else ls.find? fun x => x.num == n := by
  rw [List.find?_filter]
  split
  next h =>
    subst h
    rw [List.find?_eq_none]
    intro x _
    simp
  next h =>
    refine congrArg (fun p => List.find? p ls) (funext fun x => ?_)
    by_cases hx : x.num = n
    · simp [hx, h]
    · simp [hx]

/-! ### What an end leaves of a killed launch and of its thread sets -/

/-- A launch that has been killed, whose packet has its counter at an address (R379). -/
structure Launch.Stopped (done : Nat) (l : Launch) : Prop where
  status : 2 ≤ l.status
  pending : l.pending = []
  round : l.round = none
  claims : l.claims = []
  completion : l.completion = done

/-- A killed launch has nothing left to start, or it is released and its packet complete (R379). -/
def LaunchEnded (n done : Nat) (s : State) : Prop :=
  (∃ l, s.launch? n = some l ∧ l.Stopped done) ∨
    (s.launch? n = none ∧ ∃ p ∈ s.front.packets, p.launch = some n ∧ p.ready = true ∧ 2 ≤ p.status ∧ p.completion = done)

/-- A thread set is free or ending. -/
def TsEnded (s : State) (j : Nat) : Prop := (s.ts j).status = .free ∨ ∃ c, (s.ts j).status = .ending c

/-- A step from s to t keeps the end of a launch, and of every thread set. -/
structure KeepsEnds (n done : Nat) (s t : State) : Prop where
  launch : LaunchEnded n done s → LaunchEnded n done t
  ts : ∀ j, TsEnded s j → TsEnded t j

namespace KeepsEnds

variable {n done : Nat} {s t u : State}

theorem refl (s : State) : KeepsEnds n done s s := ⟨id, fun _ => id⟩

theorem trans (h : KeepsEnds n done s t) (h' : KeepsEnds n done t u) : KeepsEnds n done s u :=
  ⟨h'.launch ∘ h.launch, fun j => h'.ts j ∘ h.ts j⟩

theorem foldl {α : Type} {f : State → α → State} (hf : ∀ s a, KeepsEnds n done s (f s a)) (l : List α) (s : State) :
    KeepsEnds n done s (l.foldl f s) := by
  induction l generalizing s with
  | nil => exact refl s
  | cons a r ih => exact (hf s a).trans (ih _)

/-- Launches, packets and the status of every thread set stay. -/
theorem of_same (hl : t.disp.launches = s.disp.launches) (hf : t.front = s.front) (hts : ∀ j, (t.ts j).status = (s.ts j).status) :
    KeepsEnds n done s t := by
  refine ⟨fun h => ?_, fun j h => ?_⟩
  · unfold LaunchEnded at h ⊢
    rwa [launch?_congr hl, hf]
  · unfold TsEnded at h ⊢
    rwa [hts j]

theorem of_outside (h : t.outside = s.outside) : KeepsEnds n done s t :=
  of_same (show t.outside.disp.launches = _ by rw [h]; rfl) (show t.outside.front = _ by rw [h]; rfl)
    fun j => show (t.outside.ts j).status = _ by rw [h]; rfl

/-- One thread set changes, to a status that is an end if the old one was. -/
theorem setTs (s : State) (k : Nat) {x : ThreadSet}
    (hx : TsEnded s k → x.status = .free ∨ ∃ c, x.status = .ending c) : KeepsEnds n done s (s.setTs k x) := by
  refine ⟨id, fun j h => ?_⟩
  by_cases hj : j = k
  · subst hj
    unfold TsEnded
    rw [State.setTs_ts_self]
    exact hx h
  · unfold TsEnded at h ⊢
    rwa [State.setTs_ts_ne s hj]

theorem setLaunch (s : State) {l l' : Launch} (hs : s.launch? l'.num = some l) (hk : l.Stopped done → l'.Stopped done) :
    KeepsEnds n done s (s.setLaunch l') := by
  refine ⟨fun h => ?_, fun _ => id⟩
  by_cases hn : n = l'.num
  · obtain ⟨x, hx, hst⟩ | ⟨hx, -⟩ := h
    · obtain rfl : l = x := by rw [hn, hs] at hx; exact Option.some.inj hx
      exact .inl ⟨l', launch?_setLaunch (hn ▸ hs) hn.symm, hk hst⟩
    · rw [hn, hs] at hx; cases hx
  · unfold LaunchEnded at h ⊢
    rwa [launch?_setLaunch_ne s l' hn]

theorem updLaunch (s : State) (m : Nat) {f : Launch → Launch} (hn : ∀ l, (f l).num = l.num)
    (hk : ∀ l, l.Stopped done → (f l).Stopped done) : KeepsEnds n done s (s.updLaunch m f) := by
  unfold State.updLaunch
  split
  next l hl => exact setLaunch s (by rw [hn, launch?_num hl]; exact hl) (hk l)
  · exact refl s

end KeepsEnds

end Sys2Proof.Machine


/-! SUPPORT. KILL ends every thread set of a launch, and the launch (R379): each step of an end keeps what ended before it. -/

namespace Sys2Proof.Machine

/-! ### What a thread set had issued (R112, R378) -/

/-- From s to u only the clock of the end of a thread set may have risen. -/
structure NotesEnds (t : Nat) (s u : State) : Prop where
  rest : { u with tsets := [] } = { s with tsets := [] }
  others : ∀ k, k ≠ t → u.ts k = s.ts k
  self : ∃ a, u.ts t = { s.ts t with acq := a }

theorem noteEnds_notes (t : Nat) (ps : List Nat) (s : State) : NotesEnds t s (ps.foldl (fun s p => noteEnd s t p) s) := by
  induction ps generalizing s with
  | nil => exact ⟨rfl, fun _ _ => rfl, ⟨_, rfl⟩⟩
  | cons p r ih =>
    obtain ⟨hr, ho, a, ha⟩ := ih (noteEnd s t p)
    refine ⟨hr, fun k hk => (ho k hk).trans (State.setTs_ts_ne s hk _), a, ?_⟩
    rw [List.foldl_cons, ha, noteEnd, State.setTs_ts_self]
    rfl

/-- What orphaning a thread set leaves alone. -/
structure Orphans (t : Nat) (s u : State) : Prop where
  launches : u.disp.launches = s.disp.launches
  front : u.front = s.front
  others : ∀ k, k ≠ t → u.ts k = s.ts k
  self : ∃ a, u.ts t = { s.ts t with acq := a }

theorem orphanOf_orphans (s : State) (t : Nat) (killed : Bool) : Orphans t s (orphanOf s t killed) := by
  unfold orphanOf
  extract_lets c k dropped lost gone past matrix tile inst late s1 s2
  obtain ⟨hr, ho, hs⟩ : NotesEnds t s1 s2 := noteEnds_notes ..
  exact ⟨congrArg (·.disp.launches) hr, congrArg (·.front) hr, ho, hs⟩

theorem Orphans.status {t : Nat} {s u : State} (h : Orphans t s u) (j : Nat) : (u.ts j).status = (s.ts j).status := by
  by_cases hj : j = t
  · obtain ⟨a, ha⟩ := h.self
    rw [hj, ha]
  · rw [h.others j hj]

section ends

variable {n done : Nat}

theorem Orphans.keepsEnds {t : Nat} {s u : State} (h : Orphans t s u) : KeepsEnds n done s u :=
  .of_same h.launches h.front h.status

theorem beginEnd_keepsEnds (s : State) (t code : Nat) (killed : Bool) : KeepsEnds n done s (beginEnd s t code killed) :=
  (orphanOf_orphans s t killed).keepsEnds.trans (.setTs _ t fun _ => .inr ⟨code, rfl⟩)

/-! ### The release of a launch (R379) -/

theorem dropImages_tsEnded (s : State) (p : Image → Bool) {j : Nat} (h : TsEnded s j) : TsEnded (dropImages s p) j := by
  unfold dropImages
  extract_lets ns
  by_cases hj : (!ns.contains (coreOf j)) = true
  · have : NMap.get? (s.tsets.filter fun e => !ns.contains (coreOf e.1)) j = NMap.get? s.tsets j :=
      get?_filter_key s.tsets (p := fun j => !ns.contains (coreOf j)) hj
    unfold TsEnded State.ts at h ⊢
    rwa [this]
  · have : NMap.get? (s.tsets.filter fun e => !ns.contains (coreOf e.1)) j = none := by
      cases hg : NMap.get? (s.tsets.filter fun e => !ns.contains (coreOf e.1)) j with
      | none => rfl
      | some x => exact absurd (List.mem_filter.1 (NMap.mem_of_get? hg)).2 hj
    unfold TsEnded State.ts
    rw [this]
    exact .inl rfl

theorem failRequest_keepsEnds (s : State) (l : Lease) (st : Nat) : KeepsEnds n done s (failRequest s l st) :=
  (KeepsEnds.setTs s l.ts fun h => by simpa [ThreadSet.writeToken, TsEnded] using h).trans (.of_outside (endLease_outside ..))

theorem endLaunchLeases_keepsEnds (s : State) (m : Nat) : KeepsEnds n done s (endLaunchLeases s m) := by
  refine KeepsEnds.foldl (fun s l => ?_) _ _
  split
  · exact .of_outside (endLease_outside ..)
  · exact failRequest_keepsEnds ..

theorem same_of_outside {s t : State} (h : t.outside = s.outside) : t.disp = s.disp ∧ t.front = s.front :=
  ⟨show t.outside.disp = s.outside.disp by rw [h], show t.outside.front = s.outside.front by rw [h]⟩

theorem failRequest_same (s : State) (l : Lease) (st : Nat) :
    (failRequest s l st).disp = s.disp ∧ (failRequest s l st).front = s.front := by
  unfold failRequest
  extract_lets s1
  obtain ⟨hd, hf⟩ := same_of_outside (endLease_outside s1 l.handle.toNat)
  exact ⟨hd, hf⟩

/-- A fold of steps that leave the dispatcher and the packets leaves them. -/
theorem foldl_same {α : Type} {f : State → α → State} (hf : ∀ s a, (f s a).disp = s.disp ∧ (f s a).front = s.front) (l : List α)
    (s : State) : (l.foldl f s).disp = s.disp ∧ (l.foldl f s).front = s.front := by
  induction l generalizing s with
  | nil => exact ⟨rfl, rfl⟩
  | cons a r ih =>
    obtain ⟨hd, hfr⟩ := ih (f s a)
    exact ⟨hd.trans (hf s a).1, hfr.trans (hf s a).2⟩

/-- The launches and packets as a release finds them. -/
theorem endLaunchLeases_same (s : State) (m : Nat) :
    (endLaunchLeases s m).disp = s.disp ∧ (endLaunchLeases s m).front = s.front := by
  refine foldl_same (fun s l => ?_) _ s
  split
  · exact same_of_outside (endLease_outside ..)
  · exact failRequest_same ..

theorem releaseLaunch_keepsEnds (s : State) {l : Launch} (hl : s.launch? l.num = some l) :
    KeepsEnds n done s (releaseLaunch s l) := by
  obtain ⟨hd, hf⟩ := endLaunchLeases_same s l.num
  have hlaunch : ∀ m, (releaseLaunch s l).launch? m = if m = l.num then none else s.launch? m := fun m =>
    (find?_dropLaunch _ l.num m).trans (by
      show (if m = l.num then none else (endLaunchLeases s l.num).disp.launches.find? _) = _
      rw [hd]; rfl)
  have hpack : (releaseLaunch s l).front.packets = s.front.packets ++ [launchPacket l] :=
    congrArg (fun f : Front => f.packets ++ [launchPacket l]) hf
  refine ⟨fun h => ?_, fun j h => ?_⟩
  · obtain ⟨x, hx, hst⟩ | ⟨hx, p, hp, hpe⟩ := h
    · by_cases hn : n = l.num
      · subst hn
        obtain rfl : l = x := by rw [hl] at hx; exact Option.some.inj hx
        exact .inr ⟨by rw [hlaunch, if_pos rfl], launchPacket l, by rw [hpack]; simp, rfl, rfl, hst.status, hst.completion⟩
      · exact .inl ⟨x, by rw [hlaunch, if_neg hn]; exact hx, hst⟩
    · refine .inr ⟨?_, p, by rw [hpack]; exact List.mem_append_left _ hp, hpe⟩
      rw [hlaunch, hx]; exact ite_self _
  · exact dropImages_tsEnded _ _ ((endLaunchLeases_keepsEnds (n := n) (done := done) s l.num).ts j h)

theorem settleLaunch_keepsEnds (s : State) (m : Nat) : KeepsEnds n done s (settleLaunch s m) := by
  unfold settleLaunch
  split
  · exact .refl s
  next l hl =>
    extract_lets d
    split
    · exact releaseLaunch_keepsEnds s (launch?_num hl ▸ hl)
    · exact .refl s

/-! ### The end of one thread set (R302, R306, R354, R378) -/

theorem partitionDue_keepsEnds (s : State) (p : Option Nat) (die : Nat) : KeepsEnds n done s (partitionDue s p die) := by
  have hts : (partitionDue s p die).ts = s.ts ∧ (partitionDue s p die).front = s.front := by
    unfold partitionDue passDue
    split
    · split <;> exact ⟨rfl, rfl⟩
    · exact ⟨rfl, rfl⟩
  exact .of_same (partitionDue_launches ..) hts.2 fun j => by rw [hts.1]

theorem endRunning_keepsEnds (s : State) (m t : Nat) : KeepsEnds n done s (endRunning s m t) := by
  unfold endRunning
  split
  · exact .refl s
  next l hl =>
    split
    · exact .refl s
    · extract_lets mine freed p s1 s2
      have h1 : KeepsEnds n done s s1 := .setLaunch s (l := l) (launch?_num hl ▸ hl) fun ⟨h, hp, hr, hc, hd⟩ =>
        ⟨h, hp, hr, by simp [hc], hd⟩
      exact (h1.trans (.foldl (fun s c => partitionDue_keepsEnds ..) _ _)).trans (partitionDue_keepsEnds ..)

theorem endClock_keepsEnds (s : State) (t : Nat) : KeepsEnds n done s (endClock s t) := .setTs s t id

theorem freeTs_keepsEnds (s : State) (t : Nat) : KeepsEnds n done s (freeTs s t) := .setTs s t fun _ => .inl rfl

/-- A member of a launch that has been killed does not leave its groups. -/
theorem endTs_keepsEnds (s : State) (t : Nat) (lost : Bool) : KeepsEnds n done s (endTs s t lost) := by
  unfold endTs
  extract_lets s1 x
  have h1 : KeepsEnds n done s s1 := (orphanOf_orphans s t false).keepsEnds.trans (endClock_keepsEnds ..)
  split
  · exact h1.trans (freeTs_keepsEnds ..)
  next l hl =>
    extract_lets s2 s3 s4
    have h3 : KeepsEnds n done s1 s3 := by
      unfold s3
      split
      · exact (endRunning_keepsEnds ..).trans <| .updLaunch _ _ (fun _ => rfl) fun l ⟨h, hp, hr, hc, hd⟩ => ⟨h, hp, hr, hc, hd⟩
      · have h2 : KeepsEnds n done s1 s2 := by
          unfold s2; split
          · exact .of_outside rfl
          · exact .refl _
        refine h2.trans (.updLaunch _ _ (fun l => ?_) fun l ⟨h, hp, hr, hc, hd⟩ => ?_)
        · show (if l.killed = true then l else _).num = _
          split <;> rfl
        · rw [if_pos (by simpa [Launch.killed] using h)]
          exact ⟨h, hp, hr, hc, hd⟩
    have h4 : KeepsEnds n done s3 s4 := .updLaunch _ _ (fun _ => rfl) fun l ⟨h, hp, hr, hc, hd⟩ => ⟨h, hp, hr, hc, hd⟩
    exact (((h1.trans h3).trans h4).trans (freeTs_keepsEnds ..)).trans (settleLaunch_keepsEnds ..)

theorem placeFolds_keepsEnds (s : State) (t scope : Nat) : KeepsEnds n done s (placeFolds s t scope) := by
  have h := placeFolds_keeps s t scope
  exact .of_same (congrArg (·.disp.launches) h.outside) (congrArg (·.front) h.outside) fun j => by
    obtain ⟨p, hp⟩ := h.ts j
    rw [hp]

theorem tryEnd_keepsEnds (s : State) (t : Nat) {fin : State → State} (hf : ∀ s, KeepsEnds n done s (fin s)) :
    KeepsEnds n done s (tryEnd s t fin) := by
  unfold tryEnd
  split
  · exact .refl s
  · extract_lets s1
    split
    · exact placeFolds_keepsEnds ..
    · exact (placeFolds_keepsEnds ..).trans (hf _)

/-- An ABORT records no status in a launch that has been killed. -/
theorem finishEnd_keepsEnds (s : State) (t : Nat) : KeepsEnds n done s (finishEnd s t) := by
  unfold finishEnd
  split
  · refine tryEnd_keepsEnds s t fun s => (KeepsEnds.updLaunch s _ (fun l => ?_) fun l h => ?_).trans (endTs_keepsEnds ..)
    · unfold Launch.record
      split
      · rfl
      · split <;> rfl
    · rwa [if_pos (by simpa [Launch.killed] using h.status)]
  · exact .refl s

/-! ### KILL (R379) -/

theorem killTs_keepsEnds (s : State) (t : Nat) : KeepsEnds n done s (killLaunch.killTs s t) := by
  unfold killLaunch.killTs
  split
  · exact (orphanOf_orphans ..).keepsEnds
  · exact beginEnd_keepsEnds ..

theorem killTs_ended (s : State) (t : Nat) : TsEnded (killLaunch.killTs s t) t := by
  unfold killLaunch.killTs TsEnded
  split
  next c hc => exact .inr ⟨c, ((orphanOf_orphans s t true).status t).trans hc⟩
  · exact .inr ⟨0, congrArg (·.status) (State.setTs_ts_self _ _ _)⟩

theorem killTs_all_ended (ts : List Nat) {j : Nat} (hj : j ∈ ts) (s : State) : TsEnded (ts.foldl killLaunch.killTs s) j := by
  induction ts generalizing s with
  | nil => cases hj
  | cons t r ih =>
    obtain rfl | hj := List.mem_cons.1 hj
    · exact (KeepsEnds.foldl (n := 0) (done := 0) killTs_keepsEnds r _).ts j (killTs_ended s j)
    · exact ih hj _

end ends

/-- The thread sets of a launch are ended or busy. -/
theorem busyOf_of_launch {s : State} {n j : Nat} (h : (s.ts j).launch = n) : TsEnded s j ∨ j ∈ killLaunch.busyOf s n := by
  unfold TsEnded State.ts at *
  cases hg : NMap.get? s.tsets j with
  | none => exact .inl (.inl rfl)
  | some x =>
    rw [hg] at h
    by_cases hf : x.status = .free
    · exact .inl (.inl hf)
    · refine .inr (List.mem_map.2 ⟨(j, x), List.mem_filter.2 ⟨NMap.mem_of_get? hg, ?_⟩, rfl⟩)
      simpa [hf] using h

/-- The clearing of faces changes no thread set's launch. -/
theorem clearFaces_same (ts : List Nat) (s : State) :
    let u := ts.foldl clearFace s
    u.disp = s.disp ∧ ∀ j, (u.ts j).launch = (s.ts j).launch := by
  induction ts generalizing s with
  | nil => exact ⟨rfl, fun _ => rfl⟩
  | cons t r ih =>
    obtain ⟨hd, hl⟩ := ih (clearFace s t)
    refine ⟨hd, fun j => (hl j).trans ?_⟩
    unfold clearFace
    by_cases hj : j = t
    · rw [hj, State.setTs_ts_self]
    · rw [State.setTs_ts_ne s hj]

/-- A launch as KILL leaves it, until its thread sets have ended. -/
def killedLaunch (s : State) (l : Launch) : Launch :=
  { l.record 2 0 with
    pending := [], round := none, unreported := [], reports := [], claims := [], waiting := false,
    running := l.running.filter fun r => r.ts.isSome
    placed := l.placed.filter fun p => !(waitingTs s l.num).contains p.2 }

theorem record_kept (l : Launch) (st code : Nat) :
    (l.record st code).num = l.num ∧ (l.record st code).completion = l.completion ∧ (l.record st code).status = max l.status st := by
  unfold Launch.record
  split
  · exact ⟨rfl, rfl, by show st = _; omega⟩
  · exact ⟨rfl, rfl, by omega⟩

theorem killedLaunch_stopped (s : State) (l : Launch) : (killedLaunch s l).Stopped l.completion := by
  obtain ⟨-, hc, hs⟩ := record_kept l 2 0
  exact ⟨hs ▸ le_max_right .., rfl, rfl, rfl, hc⟩

/-- The state in which KILL begins to end thread sets: the launch is stopped, and nothing of it waits to start. -/
def stopLaunch (s : State) (n : Nat) (l : Launch) : State :=
  killLaunch.dropEntries ((waitingTs s n).foldl clearFace (s.setLaunch (killedLaunch s l))) n

theorem killLaunch_eq {s : State} {n : Nat} {l : Launch} (hl : s.launch? n = some l) :
    let u := stopLaunch s n l
    let ts := killLaunch.busyOf u n
    killLaunch s n 2 = settleLaunch (ts.foldl finishEnd (ts.foldl killLaunch.killTs u)) n := by
  obtain rfl := launch?_num hl
  unfold killLaunch
  rw [hl]
  rfl

theorem stopLaunch_launch {s : State} {n : Nat} {l : Launch} (hl : s.launch? n = some l) :
    (stopLaunch s n l).launch? n = some (killedLaunch s l) :=
  have hd := (clearFaces_same (waitingTs s n) (s.setLaunch (killedLaunch s l))).1
  (launch?_congr (s := s.setLaunch _) (congrArg (·.launches) hd) n).trans
    (launch?_setLaunch hl ((record_kept l 2 0).1.trans (launch?_num hl)))

theorem stopLaunch_ts (s : State) (n : Nat) (l : Launch) (j : Nat) : ((stopLaunch s n l).ts j).launch = (s.ts j).launch :=
  (clearFaces_same (waitingTs s n) (s.setLaunch (killedLaunch s l))).2 j

/-- KILL ends a launch and all its thread sets. -/
theorem killLaunch_ends {s : State} {n : Nat} {l : Launch} (hl : s.launch? n = some l) :
    LaunchEnded n l.completion (killLaunch s n 2) ∧ ∀ j, (s.ts j).launch = n → TsEnded (killLaunch s n 2) j := by
  rw [killLaunch_eq hl]
  let u := stopLaunch s n l
  let ts := killLaunch.busyOf u n
  let v := ts.foldl killLaunch.killTs u
  have hv : KeepsEnds n l.completion u v := .foldl killTs_keepsEnds ts u
  have hw : KeepsEnds n l.completion v (settleLaunch (ts.foldl finishEnd v) n) :=
    (KeepsEnds.foldl finishEnd_keepsEnds ts v).trans (settleLaunch_keepsEnds _ n)
  refine ⟨hw.launch (hv.launch (.inl ⟨_, stopLaunch_launch hl, killedLaunch_stopped s l⟩)), fun j hj => ?_⟩
  obtain h | h := busyOf_of_launch ((stopLaunch_ts s n l j).trans hj)
  · exact hw.ts j (hv.ts j h)
  · exact hw.ts j (killTs_all_ended ts h u)

end Sys2Proof.Machine


/-! SUPPORT. ABORT of a thread set with nothing outstanding (R378), and the replies that `freply` delivers (R377). -/

namespace Sys2Proof.Machine

/-! ### A thread set with nothing outstanding -/

/-- Nothing of a thread set is outstanding: no command, spawn or access, and no fold of its core. -/
structure Quiet (s : State) (t : Nat) : Prop where
  mq : ∀ m ∈ (s.core (coreOf t)).mq, m.ts ≠ t
  tq : ∀ m ∈ (s.core (coreOf t)).tq, m.ts ≠ t
  coll : ∀ m ∈ s.coll.active, m.ts ≠ t
  spawns : ∀ x ∈ s.disp.spawns, x.ts ≠ t
  writebacks : ∀ w ∈ s.faults.writebacks, w.ts = t → w.peer = none
  folds : (s.core (coreOf t)).folds = []
  heldFolds : s.fab.heldFolds = []

theorem quiet_of {s : State} {t : Nat} (hc : hasCommands s t = false) (hs : hasSpawns s t = false)
    (hw : waitsForPeer s t = false) (hf : (s.core (coreOf t)).folds = []) (hh : s.fab.heldFolds = []) : Quiet s t := by
  unfold hasCommands at hc
  unfold hasSpawns at hs
  unfold waitsForPeer at hw
  simp only [Bool.or_eq_false_iff, List.any_eq_false, beq_iff_eq, Bool.and_eq_true, not_and, Bool.not_eq_true,
    Option.isSome_eq_false_iff, Option.isNone_iff_eq_none] at hc hs hw
  obtain ⟨⟨hmq, htq⟩, hcoll⟩ := hc
  exact ⟨hmq, htq, hcoll, hs, hw.1, hf, hh⟩

/-- What holds of every entry holds of every changed one. -/
theorem forall_mem_map {α : Type} {P : α → Prop} {f : α → α} {l : List α} (hf : ∀ a, P a → P (f a)) (h : ∀ a ∈ l, P a) :
    ∀ a ∈ l.map f, P a := by
  intro a ha
  obtain ⟨b, hb, rfl⟩ := List.mem_map.1 ha
  exact hf b (h b hb)

namespace Quiet

variable {s : State} {t : Nat}

theorem mayEnd (h : Quiet s t) : mayEnd s t = true ∧ waitsForPeer s t = false := by
  obtain ⟨hmq, htq, hcoll, hs, hw, -, hh⟩ := h
  have hp : waitsForPeer s t = false := by
    unfold waitsForPeer
    simp only [Bool.or_eq_false_iff, List.any_eq_false, beq_iff_eq, Bool.and_eq_true, not_and, Bool.not_eq_true,
      Option.isSome_eq_false_iff, Option.isNone_iff_eq_none, hh, List.not_mem_nil, false_imp_iff, implies_true, and_true]
    exact hw
  refine ⟨?_, hp⟩
  unfold Machine.mayEnd hasCommands hasSpawns
  simp only [hp, Bool.not_false, Bool.and_true, Bool.and_eq_true, Bool.not_eq_true', Bool.or_eq_false_iff, List.any_eq_false,
    beq_iff_eq]
  exact ⟨⟨⟨hmq, htq⟩, hcoll⟩, hs⟩

/-- The end of a quiet thread set is not put off. -/
theorem tryEnd_eq (h : Quiet s t) (fin : State → State) : tryEnd s t fin = fin s := by
  obtain ⟨hm, hp⟩ := h.mayEnd
  unfold tryEnd
  rw [if_neg (by simp [hm])]
  show (if waitsForPeer (placeFolds s t scopeSys) t = true then _ else fin (placeFolds s t scopeSys)) = _
  rw [placeFolds_nil h.folds, if_neg (by simp [hp])]

theorem orphanOf (h : Quiet s t) (killed : Bool) : Quiet (orphanOf s t killed) t := by
  obtain ⟨hmq, htq, hcoll, hs, hw, hf, hh⟩ := h
  unfold Machine.orphanOf
  extract_lets c k dropped lost gone past matrix tile inst late s1 s2
  have hrest : { s2 with tsets := [] } = { s1 with tsets := [] } := (noteEnds_notes t past s1).rest
  have hcore : s2.core (coreOf t) = { k with
      mq := k.mq.map matrix
      tq := (k.tq.filter fun m => !(m.ts == t && m.paused.isSome)).map tile } :=
    (congrArg (fun u : State => u.core (coreOf t)) hrest).trans (State.setCore_core_self ..)
  have hts : (∀ m, (matrix m).ts = m.ts) ∧ (∀ m, (tile m).ts = m.ts) ∧ (∀ m, (inst m).ts = m.ts) ∧
      ∀ w, (late w).ts = w.ts ∧ (late w).peer = w.peer := by
    refine ⟨fun m => ?_, fun m => ?_, fun m => ?_, fun w => ?_⟩
    · unfold matrix; split <;> rfl
    · unfold tile; split <;> rfl
    · unfold inst; split <;> rfl
    · unfold late; split <;> exact ⟨rfl, rfl⟩
  obtain ⟨hmat, htile, hinst, hlate⟩ := hts
  refine ⟨?_, ?_, ?_, ?_, ?_, ?_, ?_⟩
  · show ∀ m ∈ (s2.core (coreOf t)).mq, m.ts ≠ t
    rw [hcore]
    exact forall_mem_map (fun m h => by rwa [hmat]) hmq
  · show ∀ m ∈ (s2.core (coreOf t)).tq, m.ts ≠ t
    rw [hcore]
    exact forall_mem_map (fun m h => by rwa [htile]) fun m hm => htq m (List.mem_filter.1 hm).1
  · show ∀ m ∈ (s2.coll.active.filter _).map inst, m.ts ≠ t
    rw [show s2.coll = s.coll from congrArg (·.coll) hrest]
    exact forall_mem_map (fun m h => by rwa [hinst]) fun m hm => hcoll m (List.mem_filter.1 hm).1
  · show ∀ x ∈ s2.disp.spawns.map fun x => if x.ts = t then { x with d := 0 } else x, x.ts ≠ t
    rw [show s2.disp = s.disp from congrArg (·.disp) hrest]
    refine forall_mem_map (P := fun x : Spawn => x.ts ≠ t) (fun x h => ?_) hs
    split
    · exact h
    · exact h
  · show ∀ w ∈ (s2.faults.writebacks.filter _).map late, w.ts = t → w.peer = none
    rw [show s2.faults = s.faults from congrArg (·.faults) hrest]
    exact forall_mem_map (P := fun w : Writeback => w.ts = t → w.peer = none)
      (fun w h => by rwa [(hlate w).1, (hlate w).2]) fun w hm => hw w (List.mem_filter.1 hm).1
  · show (s2.core (coreOf t)).folds = []
    rw [hcore]; exact hf
  · show s2.fab.heldFolds = []
    rw [show s2.fab = s.fab from congrArg (·.fab) hrest]; exact hh

theorem setTs (h : Quiet s t) (k : Nat) (x : ThreadSet) : Quiet (s.setTs k x) t :=
  ⟨h.mq, h.tq, h.coll, h.spawns, h.writebacks, h.folds, h.heldFolds⟩

end Quiet

/-! ### The end of a lost thread set of a resident launch (R243, R246, R378) -/

theorem settle_members (g : Group) : g.settle.members = g.members ∧ g.settle.lost = g.lost := by
  unfold Group.settle
  split <;> exact ⟨rfl, rfl⟩

/-- A lost thread set is lost in every group of it. -/
theorem leave_lost {l : Launch} {index pts : Nat} {g : Group} (hg : g ∈ (l.leave index pts true).groups) {k : Nat}
    (hk : g.rank? index = some k) : k ∈ g.lost := by
  obtain ⟨x, -, rfl⟩ := List.mem_map.1 hg
  cases hr : x.rank? index with
  | none =>
    simp only [hr] at hk
    cases hk
  | some r =>
    simp only [hr, if_true] at hk ⊢
    obtain ⟨hm, hlost⟩ := settle_members { x with pts := max x.pts pts, lost := r :: x.lost }
    have : x.rank? index = some k := by
      unfold Group.rank? at hk ⊢
      rwa [hm] at hk
    rw [hlost]
    obtain rfl : r = k := Option.some.inj (hr.symm.trans this)
    exact List.mem_cons_self

/-- What a launch that goes on is after it has lost a thread set. -/
structure Launch.Lost (l : Launch) (index : Nat) (l' : Launch) : Prop where
  retired : l'.retired = index :: l.retired
  status : l'.status = l.status
  code2 : l'.code2 = l.code2
  groups : ∀ g ∈ l'.groups, ∀ k, g.rank? index = some k → k ∈ g.lost

/-- A resident launch after the loss of a thread set. -/
def Launch.lose (l : Launch) (index pts : Nat) : Launch :=
  { l.leave index pts true with
    retired := index :: l.retired
    ended := max l.ended pts }

theorem Launch.lose_lost (l : Launch) (index pts : Nat) : l.Lost index (l.lose index pts) :=
  ⟨rfl, rfl, rfl, fun _ hg _ hk => leave_lost (l := l) hg hk⟩

/-- A launch with a thread set that has not retired is not complete. -/
theorem settleLaunch_eq_self {s : State} {l : Launch} {n : Nat} (hl : s.launch? n = some l) (hk : l.killed = false)
    (he : l.element = false) (hi : ∃ i, i < l.count ∧ i ∉ l.retired) : settleLaunch s n = s := by
  obtain ⟨i, hi, hir⟩ := hi
  have hd : ((List.range l.count).all fun i => l.retired.contains i) = false :=
    List.all_eq_false.2 ⟨i, List.mem_range.2 hi, by simpa using hir⟩
  unfold settleLaunch
  simp only [hl, hk, he, hd, Bool.false_eq_true, if_false]

/-- The end of a thread set of a resident launch that has another one left. -/
theorem endTs_lost {s : State} {t : Nat} {l : Launch} (hl : s.launch? (s.ts t).launch = some l) (hk : l.killed = false)
    (he : l.element = false) (hu : (s.ts t).element = false)
    (hi : ∃ i, i < l.count ∧ i ≠ (s.ts t).index ∧ i ∉ l.retired) :
    (endTs s t true).ts t = { faultSeq := (s.ts t).faultSeq } ∧
      ∃ l', (endTs s t true).launch? (s.ts t).launch = some l' ∧ l.Lost (s.ts t).index l' := by
  unfold endTs
  extract_lets s1 x
  have ho := orphanOf_orphans s t false
  have hx : x.launch = (s.ts t).launch ∧ x.element = (s.ts t).element ∧ x.index = (s.ts t).index ∧
      x.faultSeq = (s.ts t).faultSeq := by
    obtain ⟨a, ha⟩ := ho.self
    unfold x s1 endClock
    rw [State.setTs_ts_self, ha]
    exact ⟨rfl, rfl, rfl, rfl⟩
  obtain ⟨hxl, hxe, hxi, hxf⟩ := hx
  have hl1 : s1.launch? x.launch = some l := by
    rw [hxl, ← hl]
    exact launch?_congr (s := s) ho.launches _
  have hn : l.num = x.launch := launch?_num hl1
  split
  next h => rw [hl1] at h; cases h
  next l0 h =>
    obtain rfl : l = l0 := Option.some.inj (hl1.symm.trans h)
    extract_lets s2 s3 s4
    have h2 : s2.ts = s1.ts ∧ s2.disp = s1.disp := by
      unfold s2; split <;> exact ⟨rfl, rfl⟩
    have hl2 : s2.launch? l.num = some l := by
      rw [launch?_congr (s := s1) (congrArg (·.launches) h2.2), hn, hl1]
    have hl3 : s3.launch? l.num = some { l.leave x.index x.pts true with retired := x.index :: l.retired } := by
      unfold s3
      rw [if_neg (by simp [hxe, hu]), updLaunch_eq hl2]
      simp only [hk, Bool.false_eq_true, if_false]
      exact launch?_setLaunch hl2 rfl
    have hl4 : s4.launch? l.num = some (l.lose x.index x.pts) := by
      unfold s4
      rw [updLaunch_eq hl3]
      exact launch?_setLaunch hl3 rfl
    have ht4 : s4.ts t = x := by
      unfold s4 s3
      rw [updLaunch_ts, if_neg (by simp [hxe, hu]), updLaunch_ts, h2.1]
    clear_value s4
    have hset : settleLaunch (freeTs s4 t) l.num = freeTs s4 t := by
      obtain ⟨i, hi, hne, hr⟩ := hi
      refine settleLaunch_eq_self (s := freeTs s4 t) hl4 hk he ⟨i, hi, ?_⟩
      exact fun h => (List.mem_cons.1 h).elim (fun h => hne (h.trans hxi)) hr
    rw [hset]
    refine ⟨?_, l.lose x.index x.pts, ?_, ?_⟩
    · rw [freeTs, State.setTs_ts_self, ht4, hxf]
    · rw [← hxl, ← hn]; exact hl4
    · rw [← hxi]; exact l.lose_lost ..

/-- ABORT of a quiet thread set of a resident launch that has another one left. -/
theorem abortTs_lost {s : State} {t code : Nat} {l : Launch} (hq : Quiet s t) (hl : s.launch? (s.ts t).launch = some l)
    (hk : l.killed = false) (he : l.element = false) (hu : (s.ts t).element = false)
    (hi : ∃ i, i < l.count ∧ i ≠ (s.ts t).index ∧ i ∉ l.retired) :
    (abortTs s t code).ts t = { faultSeq := (s.ts t).faultSeq } ∧
      ∃ l', (abortTs s t code).launch? (s.ts t).launch = some l' ∧ (l.record 1 code).Lost (s.ts t).index l' := by
  have ho := orphanOf_orphans s t false
  let u := beginEnd s t code false
  obtain ⟨a, ha⟩ : ∃ a, u.ts t = { s.ts t with status := .ending code, part := none, acq := a } := by
    obtain ⟨a, ha⟩ := ho.self
    refine ⟨a, (State.setTs_ts_self _ _ _).trans ?_⟩
    rw [ha]
  have hqu : Quiet u t := (hq.orphanOf false).setTs t _
  let v := u.updLaunch (u.ts t).launch fun l => if l.killed then l else l.record 1 code
  have hv : abortTs s t code = endTs v t true := by
    show finishEnd u t = _
    unfold finishEnd
    rw [show (u.ts t).status = .ending code by rw [ha]]
    exact hqu.tryEnd_eq _
  have hvt : v.ts t = u.ts t := updLaunch_ts ..
  have hfacts : (v.ts t).launch = (s.ts t).launch ∧ (v.ts t).element = (s.ts t).element ∧ (v.ts t).index = (s.ts t).index ∧
      (v.ts t).faultSeq = (s.ts t).faultSeq := by
    rw [hvt, ha]; exact ⟨rfl, rfl, rfl, rfl⟩
  obtain ⟨hvl, hve, hvi, hvf⟩ := hfacts
  have hlv : v.launch? (v.ts t).launch = some (l.record 1 code) := by
    have hlu : u.launch? (u.ts t).launch = some l := by
      rw [← hvt, hvl, ← hl]; exact launch?_congr (s := s) ho.launches _
    rw [hvt, show v = _ from updLaunch_eq hlu _]
    simp only [hk, Bool.false_eq_true, if_false]
    exact launch?_setLaunch hlu ((record_kept ..).1.trans (launch?_num hlu))
  have hrec : (l.record 1 code).killed = false ∧ (l.record 1 code).element = l.element ∧ (l.record 1 code).count = l.count ∧
      (l.record 1 code).retired = l.retired := by
    have hlt : ¬2 ≤ l.status := by simpa [Launch.killed] using hk
    refine ⟨?_, ?_⟩
    · rw [Launch.killed, (record_kept ..).2.2]
      exact decide_eq_false (by omega)
    · unfold Launch.record
      split <;> exact ⟨rfl, rfl, rfl⟩
  obtain ⟨hrk, hre, hrc, hrr⟩ := hrec
  have := endTs_lost hlv hrk (hre.trans he) (hve.trans hu) (by rwa [hrc, hrr, hvi])
  rwa [hvl, hvi, hvf, ← hv] at this

/-! ### The four replies (R377 to R379) -/

section delivered

variable {s : State} {d a b : Reg} {r : FaultRec} (hv : isServiceTs s s.cur = true ∨ isHandlerTs s s.cur = true)
  (hp : waitsForPeer (placeFolds s s.cur 6) s.cur = false) (hw : (s.me.getS a).extractLsb' 34 14 = 0)
  (ha : answerable (placeFolds s s.cur 6) s.cur ((s.me.getS a).setWidth 32) = some r) (hs : r.source = 0)
  (hc : coreOf r.ts < 4096)

include hv hp hw ha hs hc

theorem freply_abort (h : (s.me.getS a).extractLsb' 32 2 = 2) :
    exec (.freply d a b) s = .next (abortTs (answered (placeFolds s s.cur 6) d r) r.ts
      ((s.me.getS a).extractLsb' 48 16).toNat) := by
  rw [freply_delivers hv hp hw ha hc, (applyReply_own hs d _ _ _).2.1 (by simp [h])]

theorem freply_kill (h : (s.me.getS a).extractLsb' 32 2 = 3) :
    exec (.freply d a b) s = .next (killLaunch (answered (placeFolds s s.cur 6) d r) r.launch 2) := by
  rw [freply_delivers hv hp hw ha hc, (applyReply_own hs d _ _ _).1 (by simp [h])]

end delivered

/-- The reply leaves every thread set's launch, and the dispatcher and the packets. -/
theorem answered_same {s : State} {d : Reg} {r : FaultRec} (hr : r.ts ≠ s.cur) :
    (answered s d r).disp = s.disp ∧ ∀ j, ((answered s d r).ts j).launch = (s.ts j).launch := by
  refine ⟨rfl, fun j => ?_⟩
  by_cases hj : j = r.ts
  · rw [hj, answered_ts hr]
  · rw [answered_ts_ne hj]
    by_cases hm : j = s.cur
    · subst hm
      show (State.me (s.setMe _)).launch = _
      rw [State.setMe_me]; simp [State.me]
    · rw [State.setMe_ts_ne s hm]

theorem freplyDelivers : Sys2Proof.Claims.FreplyDelivers := by
  intro s d a b r hv w x s' u hp hw ha hs hd hl hr hc
  obtain ⟨hr', hu, hdisp, -⟩ := placed_facts s hr
  refine ⟨fun h => ?_, fun h => ?_, fun h hcmd hspawn hpeer hfold hheld l hll hk he hue hi => ?_, fun h l hll => ?_⟩
  · obtain ⟨hme, hts, hrecs⟩ := resumeFault_answered (d := d) hr'
    exact ⟨_, freply_resume hv hp hw ha hs hc h hd hl, hme, hts.trans (by rw [hu]), hrecs⟩
  · by_cases hb : r.cls = 12 ∧ r.detail = 3
    · obtain ⟨hme, -, hts⟩ := skipWait_answered (d := d) hr'
      refine ⟨_, freply_skipWait hv hp hw ha hs hc h (.inr ⟨hl, hb⟩), hme, ?_⟩
      rw [hts, hu, if_pos (.inr (.inr hb))]
      exact ⟨rfl, rfl, rfl, rfl, rfl, rfl⟩
    · obtain ⟨hme, hst, hpc, hpr, hkr, hsk⟩ := skipFault_answered (d := d) hr' (s.me.getS b)
      rw [hu] at hpc hpr hkr hsk
      refine ⟨_, freply_skip hv hp hw ha hs hc h hd hl hb, hme, hst, hpc, hpr, hkr, ?_⟩
      simpa only [hb, or_false] using hsk
  · let v := answered s' d r
    have hvt : v.ts r.ts = { s.ts r.ts with pts := max (s.ts r.ts).pts s'.me.pts } := (answered_ts hr').trans (by rw [hu])
    have hvl : v.launch? (s.ts r.ts).launch = some l :=
      (launch?_congr (s := s) (congrArg (·.launches) hdisp) _).trans hll
    have hq : Quiet v r.ts := quiet_of (s := v) hcmd hspawn hpeer hfold hheld
    obtain ⟨hts, l', hl', hret, hst, hcode, hg⟩ := abortTs_lost (code := (w.extractLsb' 48 16).toNat) hq
      (by rw [hvt]; exact hvl) hk he (by rw [hvt]; exact hue) (by rw [hvt]; exact hi)
    rw [hvt] at hts hl' hret hg
    have hrec := record_kept l 1 (w.extractLsb' 48 16).toNat
    refine ⟨_, freply_abort hv hp hw ha hs hc h, hts, l', hl', hret.trans ?_, hst.trans hrec.2.2, fun h0 => hcode.trans ?_, hg⟩
    · unfold Launch.record
      split <;> rfl
    · unfold Launch.record
      rw [if_pos (by omega)]
  · obtain ⟨hd', hlaunch⟩ := answered_same (s := s') (d := d) hr'
    have hvl : (answered s' d r).launch? r.launch = some l :=
      (launch?_congr (s := s) (congrArg (·.launches) (hd'.trans hdisp)) _).trans hll
    obtain ⟨hended, hts⟩ := killLaunch_ends hvl
    refine ⟨_, freply_kill hv hp hw ha hs hc h, fun j hj => hts j ?_, hended.imp ?_ id⟩
    · obtain ⟨p, hp⟩ := (placeFolds_keeps s s.cur 6).ts j
      rw [hlaunch, show s'.ts j = _ from hp]
      exact hj
    · rintro ⟨l', hl', hst⟩
      exact ⟨l', hl', hst.status, hst.pending, hst.round, hst.claims⟩

/-- Settles O43: a reply applies in the state in which the service's folds are placed and the fault is answered; RESUME, SKIP and
the wait for a broken phase change the answered thread set alone, ABORT ends one that has nothing outstanding, and each step of
KILL keeps the ends that were made before it. -/
theorem faultReplies : Obligations.FaultReplies := ⟨freplyRefused, freplyDelivers, brokenWaits⟩

end Sys2Proof.Machine

/-! SUPPORT. Which slot a core issues (R143 to R145): the order in which the slots are looked at, and the statement (O6). -/

namespace Sys2Proof.Machine

/-! ### The order of the slots (R144) -/

section slots
variable {s : State} {held : BitVec 4} {c slot : Nat}

theorem nextReady_second (h1 : ready s held (4 * c + (slot + 1) % 4) = false) (h2 : ready s held (4 * c + (slot + 2) % 4) = true) :
    nextReady s held c slot = some ((slot + 2) % 4) := by
  simp [nextReady, h1, h2]

theorem nextReady_third (h1 : ready s held (4 * c + (slot + 1) % 4) = false) (h2 : ready s held (4 * c + (slot + 2) % 4) = false)
    (h3 : ready s held (4 * c + (slot + 3) % 4) = true) : nextReady s held c slot = some ((slot + 3) % 4) := by
  simp [nextReady, h1, h2, h3]

theorem nextReady_no_other (h1 : ready s held (4 * c + (slot + 1) % 4) = false)
    (h2 : ready s held (4 * c + (slot + 2) % 4) = false) (h3 : ready s held (4 * c + (slot + 3) % 4) = false) :
    nextReady s held c slot = none := by
  simp [nextReady, h1, h2, h3]

end slots

/-! ### The choice below the run limit (R144, R145) -/

/-- What an issue of a thread set adds to the count of its core: the further events of one access add nothing (R145). -/
def issueCount (s : State) (t : Nat) : Nat := if (s.ts t).part.isSome = true then 0 else 1

/-- The core goes on with the slot that issued last. -/
def keptSlot (s : State) (c : Nat) : Nat × State :=
  let k := s.core c
  (k.slot, s.setCore c { k with run := k.run + issueCount s (4 * c + k.slot), idle := false })

/-- The core switches to a slot, and its count restarts. -/
def movedSlot (s : State) (c i : Nat) : Nat × State :=
  (i, s.setCore c { s.core c with slot := i, run := issueCount s (4 * c + i), idle := false })

section choice
variable {s : State} {c : Nat} {held : BitVec 4} (hrun : (s.core c).run < 256)
include hrun

theorem chooseSlot_keeps (hready : ready s held (4 * c + (s.core c).slot) = true) (hidle : (s.core c).idle = false) :
    chooseSlot held c s = some (keptSlot s c) := by
  rw [chooseSlot, runLimit_early hrun]
  exact if_pos (by simp [hready, hidle])

/-- A core that is not to go on with its slot takes the next ready one. -/
theorem chooseSlot_moves (h : ready s held (4 * c + (s.core c).slot) = false ∨ (s.core c).idle = true) {i : Nat}
    (hnext : nextReady s held c (s.core c).slot = some i) : chooseSlot held c s = some (movedSlot s c i) := by
  rw [chooseSlot, runLimit_early hrun]
  refine (if_neg (by rcases h with h | h <;> simp [h])).trans ?_
  rw [hnext]
  rfl

/-- Its own slot comes last in the order. -/
theorem chooseSlot_alone (h : ready s held (4 * c + (s.core c).slot) = false ∨ (s.core c).idle = true)
    (hnext : nextReady s held c (s.core c).slot = none) : chooseSlot held c s =
      if ready s held (4 * c + (s.core c).slot) = true then some (keptSlot s c) else none := by
  rw [chooseSlot, runLimit_early hrun]
  refine (if_neg (by rcases h with h | h <;> simp [h])).trans ?_
  rw [hnext]
  rfl

end choice

/-- Settles O6: below the run limit the choice is the slot that issued last, or what the cyclic order gives, one lemma for each
place in it. -/
theorem slotChoice : Obligations.SlotChoice := by
  intro s c held hrun k stay at' n kept moved
  refine ⟨chooseSlot_keeps hrun, fun h => ⟨fun h1 => ?_, fun h1 h2 => ?_, fun h1 h2 h3 => ?_, fun h1 h2 h3 => ?_⟩⟩
  · exact chooseSlot_moves hrun h (nextReady_next h1)
  · exact chooseSlot_moves hrun h (nextReady_second h1 h2)
  · exact chooseSlot_moves hrun h (nextReady_third h1 h2 h3)
  · exact chooseSlot_alone hrun h (nextReady_no_other h1 h2 h3)

end Sys2Proof.Machine

/-! SUPPORT. The integer vector operations (R154) and the mask instructions (R169, R170): one lemma for each shape of lane
operation, and the statements (O20, O24). -/

namespace Sys2Proof.Machine

/-! ### Integer lanes (R154) -/

theorem exec_vshl (g : Guard) (k : KReg) (et : ElemTy) (d a : Reg) (n : ShiftSrc) (s : State) :
    exec (.vshl g k et d a n) s = vecOp g k et d a (shiftOp (fun x m => x * 2 ^ m % 2 ^ et.width) et a n) s := rfl

theorem exec_vshr (g : Guard) (k : KReg) (et : ElemTy) (d a : Reg) (n : ShiftSrc) (s : State) :
    exec (.vshr g k et d a n) s = vecOp g k et d a (shiftOp (fun x m => x / 2 ^ m) et a n) s := rfl

theorem exec_vsra (g : Guard) (k : KReg) (et : ElemTy) (d a : Reg) (n : ShiftSrc) (s : State) :
    exec (.vsra g k et d a n) s = vecOp g k et d a (shiftOp (fun x m => wrapInt et.width
      ((if x.testBit (et.width - 1) = true then (x : Int) - 2 ^ et.width else (x : Int)) / 2 ^ m)) et a n) s := rfl

/-- No lane of an 8-bit type is flagged, alone or in a pair of operands (R56). -/
theorem noFlags_of_width8 {et : ElemTy} (h : et.width = 8) (x y : VWord) (j : Nat) :
    (flagOf x et.width j || flagOf y et.width j) = false := by
  rw [flagOf_of_width8 h, flagOf_of_width8 h]; rfl

section lanes
variable {i : Instr} {s : State} {g : Guard} {k : KReg} {et : ElemTy} {d a b : Reg} (hg : s.me.getP g.p ≠ g.pn)
include hg

theorem intOp2_writesLanes {f : Int → Int → Int} {sat : Bool} (he : exec i s = vecOp g k et d a (intOp2 f sat et a b) s) :
    Claims.writesLanes i s d k et
      (fun j => let x := f (ilane et (s.me.getV a) j) (ilane et (s.me.getV b) j)
        wrapInt et.width (if sat = true then satInt et x else x))
      (fun j => flagOf (s.me.getV a) et.width j || flagOf (s.me.getV b) et.width j) (vRider (s.me.getV a)) :=
  writesLanes_vecOp hg he (fun _ => rfl) (fun _ => rfl) (fun _ => rfl) fun hw => noFlags_of_width8 hw _ _

theorem intOp1_writesLanes {f : Int → Int} {sat : Bool} (he : exec i s = vecOp g k et d a (intOp1 f sat et a) s) :
    Claims.writesLanes i s d k et
      (fun j => let x := f (ilane et (s.me.getV a) j)
        wrapInt et.width (if sat = true then satInt et x else x))
      (fun j => flagOf (s.me.getV a) et.width j) (vRider (s.me.getV a)) :=
  writesLanes_vecOp hg he (fun _ => rfl) (fun _ => rfl) (fun _ => rfl) fun hw => flagOf_of_width8 hw _

theorem bitOp2_writesLanes {f : Nat → Nat → Nat} (he : exec i s = vecOp g k et d a (bitOp2 f et a b) s) :
    Claims.writesLanes i s d k et (fun j => f (laneOf (s.me.getV a) et.width j) (laneOf (s.me.getV b) et.width j))
      (fun j => flagOf (s.me.getV a) et.width j || flagOf (s.me.getV b) et.width j) (vRider (s.me.getV a)) :=
  writesLanes_vecOp hg he (fun _ => rfl) (fun _ => rfl) (fun _ => rfl) fun hw => noFlags_of_width8 hw _ _

/-- A shift by the lanes of a register: any value that agrees with the shifted lane modulo the width. -/
theorem shiftReg_writesLanes {f : Nat → Nat → Nat} {val : Nat → Nat} (he : exec i s = vecOp g k et d a (shiftOp f et a (.reg b)) s)
    (hval : ∀ j, f (laneOf (s.me.getV a) et.width j) (laneOf (s.me.getV b) et.width j % et.width) % 2 ^ et.width =
      val j % 2 ^ et.width) :
    Claims.writesLanes i s d k et val
      (fun j => flagOf (s.me.getV a) et.width j || flagOf (s.me.getV b) et.width j) (vRider (s.me.getV a)) :=
  writesLanes_vecOp hg he hval (fun _ => rfl) (fun _ => rfl) fun hw => noFlags_of_width8 hw _ _

/-- A shift by an immediate. -/
theorem shiftImm_writesLanes {f : Nat → Nat → Nat} {n : Fin 64} {val : Nat → Nat}
    (he : exec i s = vecOp g k et d a (shiftOp f et a (.imm n)) s)
    (hval : ∀ j, f (laneOf (s.me.getV a) et.width j) n.val % 2 ^ et.width = val j % 2 ^ et.width) :
    Claims.writesLanes i s d k et val (fun j => flagOf (s.me.getV a) et.width j) (vRider (s.me.getV a)) :=
  writesLanes_vecOp hg he hval (fun _ => rfl) (fun _ => rfl) fun hw => flagOf_of_width8 hw _

end lanes

/-- Settles O20: each instruction is a masked lane operation of one of four shapes. -/
theorem integerVectorResults : Obligations.IntegerVectorResults := by
  intro s g k et d a b _ hg w la lb x y wrap clamp signed va vb quiet quiet1
  refine ⟨intOp2_writesLanes (f := (· + ·)) (sat := false) hg rfl, intOp2_writesLanes (f := (· + ·)) (sat := true) hg rfl,
    intOp2_writesLanes (f := (· - ·)) (sat := false) hg rfl, intOp2_writesLanes (f := (· - ·)) (sat := true) hg rfl,
    intOp2_writesLanes (f := (· * ·)) (sat := false) hg rfl,
    intOp2_writesLanes (f := fun x y => x * y / 2 ^ w) (sat := false) hg rfl,
    intOp2_writesLanes (f := min) (sat := false) hg rfl, intOp2_writesLanes (f := max) (sat := false) hg rfl,
    intOp1_writesLanes (f := fun x => x.natAbs) (sat := false) hg rfl,
    intOp1_writesLanes (f := fun x => x.natAbs) (sat := true) hg rfl,
    intOp1_writesLanes (f := (-·)) (sat := false) hg rfl, intOp1_writesLanes (f := (-·)) (sat := true) hg rfl,
    bitOp2_writesLanes (f := Nat.land) hg rfl, bitOp2_writesLanes (f := Nat.lor) hg rfl, bitOp2_writesLanes (f := Nat.xor) hg rfl,
    shiftReg_writesLanes hg (exec_vshl ..) fun _ => Nat.mod_mod .., shiftReg_writesLanes hg (exec_vshr ..) fun _ => rfl,
    shiftReg_writesLanes hg (exec_vsra ..) fun _ => rfl, fun n _ => ⟨?_, ?_, ?_⟩⟩
  · exact shiftImm_writesLanes hg (exec_vshl ..) fun _ => Nat.mod_mod ..
  · exact shiftImm_writesLanes hg (exec_vshr ..) fun _ => rfl
  · exact shiftImm_writesLanes hg (exec_vsra ..) fun _ => rfl

/-! ### Masks (R169, R170) -/

theorem vlsig_on {s : State} {g : Guard} (h : s.me.getP g.p ≠ g.pn) (k : KReg) (et : ElemTy) (d : PReg) (a : Reg) :
    exec (.vlsig g k et d a) s =
      nextMe s (s.me.setP d ((selected (s.me.getK k) et.lanes).any fun j => flagOf (s.me.getV a) et.width j)) 12 :=
  guarded_on h 12 _

theorem kop_on {s : State} {g : Guard} (h : s.me.getP g.p ≠ g.pn) (f : LogFn) (d a b : KReg) :
    exec (.kop g f d a b) s = nextMe s (s.me.setK d (logMask f (s.me.getK a) (s.me.getK b))) 12 :=
  guarded_on h 12 _

theorem kpop_on {s : State} {g : Guard} (h : s.me.getP g.p ≠ g.pn) (d : Reg) (a : KReg) :
    exec (.kpop g d a) s =
      nextMe s (s.me.setS d (BitVec.ofNat 64 ((List.range 32).filter fun i => (s.me.getK a).toNat.testBit i).length)) 12 :=
  guarded_on h 12 _

/-- Settles O24: a test over the selected lanes is one over the active lanes of all, and the bits of a mask are counted where
they are 1. -/
theorem maskInstructions : Obligations.MaskInstructions := by
  intro s g k et d a dk ak bk dp f hg x y
  refine ⟨?_, (kop_on hg f dk ak bk).trans (by cases f <;> rfl), guarded_on hg 12 _, guarded_on hg 12 _, ?_⟩
  · rw [vlsig_on hg, selected, List.any_filter]
    rfl
  · rw [kpop_on hg, ← List.countP_eq_length_filter]
    rfl

end Sys2Proof.Machine

/-! SUPPORT. Comparison and selection of lanes (R159, R160), and the order of floating-point patterns by the numbers that they
stand for (R156, R159), with the statement that is made of both (O22). -/

namespace Sys2Proof.Machine

/-! ### Masks (R159) -/

theorem ElemTy_lanes_le (et : ElemTy) : et.lanes ≤ 32 := by cases et <;> simp [ElemTy.lanes, ElemTy.width]

@[simp] theorem ThreadSet.past_getK (t : ThreadSet) (n : Nat) (q : KReg) : (t.past n).getK q = t.getK q := rfl
@[simp] theorem ThreadSet.raise_getK (t : ThreadSet) (f : BitVec 6) (q : KReg) : (t.raise f).getK q = t.getK q := rfl

/-- A mask written by a comparison: its test where a lane is active, and 0 elsewhere. -/
theorem maskWrite_bit (t : ThreadSet) (k : KReg) (et : ElemTy) {d : KReg} (hd : d ≠ 0) (f : Nat → Bool × Flags) (j : Nat) :
    ((maskWrite t k et d f).getK d).getLsbD j = (decide (j < et.lanes) && active (t.getK k) j && (f j).1) := by
  rw [maskWrite, ThreadSet.raise_getK, ThreadSet.getK_setK, if_neg hd, if_pos rfl, BitVec.getLsbD_ofNat, joinBits_testBit]
  have hl := ElemTy_lanes_le et
  by_cases hj : j < et.lanes
  · cases ha : active (t.getK k) j <;> simp [hj, ha, show j < 32 by omega]
  · simp [hj]

/-- The flags of the active lanes of a comparison, where NV is all that a lane can raise. -/
theorem maskFlags_invalid (on nv : Nat → Bool) (f : Nat → Bool × Flags) (l : List Nat) (b : Bool)
    (h : ∀ j, (f j).2 = Flags.invalid (nv j)) :
    (l.map fun j => if on j = true then f j else (false, {})).foldl (fun a r => a.or r.2) (Flags.invalid b) =
      Flags.invalid (b || l.any fun j => on j && nv j) := by
  induction l generalizing b with
  | nil => simp
  | cons j l ih =>
    have hstep : (Flags.invalid b).or (if on j = true then f j else (false, {})).2 = Flags.invalid (b || (on j && nv j)) := by
      cases hon : on j <;> simp [h, Flags.or, Flags.invalid]
    rw [List.map_cons, List.foldl_cons, hstep, ih, List.any_cons, Bool.or_assoc]

theorem maskWrite_fps (t : ThreadSet) (k : KReg) (et : ElemTy) (d : KReg) {f : Nat → Bool × Flags} {nv : Nat → Bool}
    (h : ∀ j, (f j).2 = Flags.invalid (nv j)) : (maskWrite t k et d f).fps = t.fps |||
      if ((List.range et.lanes).any fun j => active (t.getK k) j && nv j) = true then fpsBits { nv := true } else 0 := by
  have hfl := maskFlags_invalid (active (t.getK k)) nv f (List.range et.lanes) false h
  rw [show Flags.invalid false = {} from rfl, Bool.false_or] at hfl
  show (t.setK d _).fps ||| fpsBits _ = _
  rw [ThreadSet.setK_fps, hfl]
  cases (List.range et.lanes).any fun j => active (t.getK k) j && nv j <;> rfl

/-- A comparison writes K[d] and `fps`, and moves the pc. -/
theorem maskWrite_frame (t : ThreadSet) (k : KReg) (et : ElemTy) (d : KReg) (f : Nat → Bool × Flags) (n : Nat) :
    let y := (maskWrite t k et d f).past n
    y.v = t.v ∧ y.s = t.s ∧ y.pc = t.pc + BitVec.ofNat 64 n :=
  ⟨ThreadSet.setK_v .., ThreadSet.setK_s .., congrArg (· + BitVec.ofNat 64 n) (ThreadSet.setK_pc ..)⟩

section compare
variable {s : State} {g : Guard} (h : s.me.getP g.p ≠ g.pn) (k : KReg) (et : ElemTy)
include h

theorem vcmp_on (c : VCond) (d : KReg) (a b : Reg) : exec (.vcmp g k et c d a b) s = nextMe s (maskWrite s.me k et d fun j =>
    (intCond c (ilane et (s.me.getV a) j) (ilane et (s.me.getV b) j), {})) 12 :=
  guarded_on h 12 _

theorem vfcmp_on (c : VCond) (d : KReg) (a b : Reg) : exec (.vfcmp g k et c d a b) s = nextMe s (maskWrite s.me k et d fun j =>
    (fmtOf et).compare c (laneOf (s.me.getV a) et.width j) (laneOf (s.me.getV b) et.width j)) 12 :=
  guarded_on h 12 _

/-- `vsel` copies each lane from one of its two sources. -/
theorem vsel_on (d a b : Reg) : exec (.vsel g k et d a b) s = nextMe s (putLanes s.me d et.width (vRider (s.me.getV a))
    (laneList et fun j => some (copyLane et (s.me.getV (if active (s.me.getK k) j = true then a else b)) j))) 12 := by
  refine (guarded_on h 12 _).trans ?_
  simp only [copyLane, apply_ite s.me.getV]

end compare

/-- The NaN that a comparison raises NV for: one that signals, or any for a condition that orders. -/
theorem compare_flags (f : Fmt) (c : VCond) (x y : Nat) :
    let a := f.decode x
    let b := f.decode y
    let loud : Bool := match c with | .lt | .le | .gt | .ge => true | _ => false
    (f.compare c x y).2 = Flags.invalid (a.isSnan || b.isSnan || (loud && (a.isNan || b.isNan))) := by
  intro a b loud
  exact congrArg (fun p => Flags.invalid (a.isSnan || b.isSnan || p)) (Bool.and_comm (a.isNan || b.isNan) loud)

theorem compareSelectLanes : Claims.CompareSelectLanes := by
  intro s g k et c dk d a b h la lb x y mask
  refine ⟨fun _ hun hord => ?_, ?_, ?_⟩
  · obtain ⟨hv, -, hpc⟩ := maskWrite_frame s.me k et dk _ 12
    refine ⟨_, vcmp_on h k et c dk a b, ?_⟩
    simp only [State.setMe_me]
    refine ⟨fun hd j => ?_, hv, ?_, hpc, _, rfl⟩
    · rw [State.setMe_me, ThreadSet.past_getK, maskWrite_bit s.me k et hd]
      refine congrArg _ ?_
      cases c
      case un => exact absurd rfl hun
      case ord => exact absurd rfl hord
      case ne => exact (decide_not ..).symm
      all_goals rfl
    · refine (maskWrite_fps s.me k et dk (nv := fun _ => false) fun _ => rfl).trans ?_
      simp
  · intro fa fb loud raises
    obtain ⟨hv, hs, hpc⟩ := maskWrite_frame s.me k et dk _ 12
    refine ⟨_, vfcmp_on h k et c dk a b, ?_⟩
    simp only [State.setMe_me]
    refine ⟨fun hd j => ?_, ?_, hv, hs, hpc, _, rfl⟩
    · rw [State.setMe_me, ThreadSet.past_getK, maskWrite_bit s.me k et hd]
    · exact maskWrite_fps s.me k et dk (nv := raises) fun j => compare_flags (fmtOf et) c (la j) (lb j)
  · obtain ⟨t, e, hlanes, hrest⟩ := quiet_lanes (vsel_on h k et d a b) (on := fun _ => true)
      (flg := fun j => flagOf (s.me.getV (if active (s.me.getK k) j = true then a else b)) et.width j) (fun _ _ => rfl)
      (fun _ _ r hr => Option.some.inj hr ▸ rfl) fun hw _ => flagOf_of_width8 hw _ _
    refine ⟨t, e, fun j hj => (hlanes j hj).trans ?_, hrest⟩
    refine (laneOf_mod ..).trans ?_
    exact apply_ite (fun r => laneOf (s.me.getV r) et.width j) ..

/-! ### The order of patterns (R156, R159) -/

/-- The number that the bits below the sign of a pattern that is no NaN stand for: those above the largest finite value are an
infinity's. -/
noncomputable def Fmt.extMag (f : Fmt) (c : Nat) : EReal := if c ≤ f.maxBits then (f.magVal c : EReal) else ⊤

/-- The number of a place in the order of values. -/
noncomputable def Fmt.ofKey (f : Fmt) (i : Int) : EReal := if i < 0 then -f.extMag i.natAbs else f.extMag i.natAbs

theorem Fmt.extMag_strictMonoOn (f : Fmt) : StrictMonoOn f.extMag (Set.Iic (f.maxBits + 1)) := by
  intro c _ d hd hcd
  have hd := Set.mem_Iic.1 hd
  rw [Fmt.extMag, if_pos (by omega), Fmt.extMag]
  split
  · exact EReal.coe_lt_coe_iff.2 (f.magVal_strictMono hcd)
  · exact EReal.coe_lt_top _

@[simp] theorem Fmt.extMag_zero (f : Fmt) : f.extMag 0 = 0 := by
  simp [Fmt.extMag, Fmt.magVal]

theorem Fmt.extMag_pos (f : Fmt) {n : Nat} (hn : n ≤ f.maxBits + 1) (h : 0 < n) : 0 < f.extMag n :=
  f.extMag_zero ▸ f.extMag_strictMonoOn (Set.mem_Iic.2 (Nat.zero_le _)) (Set.mem_Iic.2 hn) h

theorem Fmt.extMag_nonneg (f : Fmt) {n : Nat} (hn : n ≤ f.maxBits + 1) : 0 ≤ f.extMag n :=
  f.extMag_zero ▸ f.extMag_strictMonoOn.monotoneOn (Set.mem_Iic.2 (Nat.zero_le _)) (Set.mem_Iic.2 hn) (Nat.zero_le n)

theorem Fmt.ofKey_of_nonneg (f : Fmt) {i : Int} (h : 0 ≤ i) : f.ofKey i = f.extMag i.natAbs := if_neg (not_lt.2 h)

/-- A negative place is that of a negative number; so is place 0 as that of −0. -/
theorem Fmt.ofKey_of_nonpos (f : Fmt) {i : Int} (h : i ≤ 0) : f.ofKey i = -f.extMag i.natAbs := by
  rcases lt_or_eq_of_le h with h | rfl
  · exact if_pos h
  · simp [Fmt.ofKey]

theorem Fmt.ofKey_strictMonoOn (f : Fmt) : StrictMonoOn f.ofKey {i | i.natAbs ≤ f.maxBits + 1} := by
  intro i (hi : i.natAbs ≤ f.maxBits + 1) j (hj : j.natAbs ≤ f.maxBits + 1) hij
  rcases lt_or_ge j 0 with hj0 | hj0
  · rw [f.ofKey_of_nonpos (by omega), f.ofKey_of_nonpos hj0.le]
    exact EReal.neg_lt_neg_iff.2 (f.extMag_strictMonoOn (Set.mem_Iic.2 hj) (Set.mem_Iic.2 hi) (by omega))
  · rw [f.ofKey_of_nonneg hj0]
    rcases lt_or_ge i 0 with hi0 | hi0
    · rw [f.ofKey_of_nonpos hi0.le]
      calc -f.extMag i.natAbs < 0 := EReal.neg_lt_comm.1 (by rw [neg_zero]; exact f.extMag_pos hi (by omega))
        _ ≤ f.extMag j.natAbs := f.extMag_nonneg hj
    · rw [f.ofKey_of_nonneg hi0]
      exact f.extMag_strictMonoOn (Set.mem_Iic.2 hi) (Set.mem_Iic.2 hj) (by omega)

theorem Fmt.valueKey_eq (f : Fmt) (x : Nat) :
    f.valueKey x = if x.testBit (f.ebits + f.mbits) = true then -(f.mag x : Int) else (f.mag x : Int) := rfl

/-- The only pattern above the largest finite value that is no NaN is the infinity of its sign (R41). -/
theorem Fmt.Proper.decode_inf {f : Fmt} (hf : f.Proper) {x : Nat} (h : f.maxBits < f.mag x) (hnan : (f.decode x).isNan = false) :
    f.decode x = .inf (x.testBit (f.ebits + f.mbits)) ∧ f.mag x = f.maxBits + 1 := by
  have hs := (hf.special_iff x).2 h
  obtain ⟨hex, hfr⟩ := f.mag_fields x
  unfold Fmt.decode at hnan ⊢
  simp only [] at hnan ⊢
  rw [if_pos hs] at hnan ⊢
  by_cases he : f.isE4M3 = true
  · rw [if_pos he] at hnan; cases hnan
  · rw [if_neg he] at hnan ⊢
    by_cases h0 : x % 2 ^ f.mbits = 0
    · rw [if_pos h0]
      refine ⟨rfl, ?_⟩
      have hdiv : f.mag x / 2 ^ f.mbits = 2 ^ f.ebits - 1 := by
        rw [← hex]; exact of_decide_eq_true (Bool.and_eq_true_iff.1 hs).1
      have hmag := Nat.div_add_mod' (f.mag x) (2 ^ f.mbits)
      rw [hdiv, ← hfr, h0] at hmag
      rw [Fmt.maxBits, if_neg he] at h ⊢
      omega
    · rw [if_neg h0] at hnan; cases hnan

/-- The bits below the sign of a pattern that is no NaN, and the number of it. -/
theorem Fmt.Proper.extended_mag {f : Fmt} (hf : f.Proper) {x : Nat} (h : (f.decode x).isNan = false) :
    f.mag x ≤ f.maxBits + 1 ∧ Claims.extended (f.decode x) =
      if x.testBit (f.ebits + f.mbits) = true then -f.extMag (f.mag x) else f.extMag (f.mag x) := by
  rcases Nat.lt_or_ge f.maxBits (f.mag x) with hm | hm
  · obtain ⟨hd, hmag⟩ := hf.decode_inf hm h
    rw [hd, Fmt.extMag, if_neg (Nat.not_le.2 hm)]
    exact ⟨hmag.le, by simp [Claims.extended]⟩
  · obtain ⟨m, e, hd, hv⟩ := hf.decode_fin x hm
    rw [hd, Claims.extended, ratOf_cast, hv, Fmt.extMag, if_pos hm]
    refine ⟨Nat.le_succ_of_le hm, ?_⟩
    cases x.testBit (f.ebits + f.mbits) <;> simp [sgn]

/-- A pattern that is no NaN has its place in the order, and stands for the number of it. -/
theorem Fmt.Proper.extended_decode {f : Fmt} (hf : f.Proper) {x : Nat} (h : (f.decode x).isNan = false) :
    (f.valueKey x).natAbs ≤ f.maxBits + 1 ∧ Claims.extended (f.decode x) = f.ofKey (f.valueKey x) := by
  obtain ⟨hle, hval⟩ := hf.extended_mag h
  rw [hval, Fmt.valueKey_eq]
  split
  · rw [f.ofKey_of_nonpos (by omega), Int.natAbs_neg]
    exact ⟨hle, rfl⟩
  · rw [f.ofKey_of_nonneg (by omega)]
    exact ⟨hle, rfl⟩

section ordered
variable {f : Fmt} (hf : f.Proper) {x y : Nat} (hx : (f.decode x).isNan = false) (hy : (f.decode y).isNan = false)
include hf hx hy

theorem Fmt.Proper.extended_lt_iff : Claims.extended (f.decode x) < Claims.extended (f.decode y) ↔ f.valueKey x < f.valueKey y := by
  obtain ⟨hkx, ex⟩ := hf.extended_decode hx
  obtain ⟨hky, ey⟩ := hf.extended_decode hy
  rw [ex, ey, f.ofKey_strictMonoOn.lt_iff_lt hkx hky]

theorem Fmt.Proper.extended_le_iff : Claims.extended (f.decode x) ≤ Claims.extended (f.decode y) ↔ f.valueKey x ≤ f.valueKey y := by
  rw [← not_lt, hf.extended_lt_iff hy hx, not_lt]

theorem Fmt.Proper.extended_eq_iff : Claims.extended (f.decode x) = Claims.extended (f.decode y) ↔ f.valueKey x = f.valueKey y := by
  rw [le_antisymm_iff, hf.extended_le_iff hx hy, hf.extended_le_iff hy hx, ← le_antisymm_iff]

end ordered

/-- The order with −0 below +0 refines the order of the numbers, and tells the zeros apart by their signs. -/
theorem Fmt.valueKey_le_of_key_le (f : Fmt) {x y : Nat} (h : f.key x ≤ f.key y) :
    let sign (c : Nat) : Bool := c.testBit (f.ebits + f.mbits)
    f.valueKey x ≤ f.valueKey y ∧
      (f.valueKey x = f.valueKey y → sign x = (sign x || sign y) ∧ sign y = (sign x && sign y)) := by
  intro sign
  unfold Fmt.key at h
  unfold Fmt.valueKey
  cases hx : x.testBit (f.ebits + f.mbits) <;> cases hy : y.testBit (f.ebits + f.mbits) <;> simp [sign, hx, hy] at h ⊢ <;> omega

/-- Of two patterns that are no NaNs, the first in the order with −0 below +0 is the lesser number and the second the greater;
of two zeros the first is negative where one is, and the second positive where one is. -/
theorem Fmt.Proper.extended_of_key_le {f : Fmt} (hf : f.Proper) {x y : Nat} (hx : (f.decode x).isNan = false)
    (hy : (f.decode y).isNan = false) (h : f.key x ≤ f.key y) :
    let sign (c : Nat) : Bool := c.testBit (f.ebits + f.mbits)
    Claims.extended (f.decode x) ≤ Claims.extended (f.decode y) ∧
      (Claims.extended (f.decode x) = Claims.extended (f.decode y) →
        sign x = (sign x || sign y) ∧ sign y = (sign x && sign y)) := by
  rw [hf.extended_le_iff hx hy, hf.extended_eq_iff hx hy]
  exact f.valueKey_le_of_key_le h

section ordered
variable {f : Fmt} (hf : f.Proper) {x y : Nat} (hx : (f.decode x).isNan = false) (hy : (f.decode y).isNan = false)
include hf hx hy

/-- The operand that a minimum delivers: a lesser number, and −0 where one of two zeros is (R156). -/
theorem Fmt.Proper.lesser_spec :
    let z := if f.key y < f.key x then y else x
    let sign (c : Nat) : Bool := c.testBit (f.ebits + f.mbits)
    (z = x ∨ z = y) ∧ Claims.extended (f.decode z) ≤ Claims.extended (f.decode x) ∧
      Claims.extended (f.decode z) ≤ Claims.extended (f.decode y) ∧
      (Claims.extended (f.decode x) = Claims.extended (f.decode y) → sign z = (sign x || sign y)) := by
  intro z sign
  rcases lt_or_ge (f.key y) (f.key x) with h | h
  · obtain ⟨hle, hsign⟩ := hf.extended_of_key_le hy hx h.le
    rw [show z = y from if_pos h]
    exact ⟨.inr rfl, hle, le_rfl, fun e => (hsign e.symm).1.trans (Bool.or_comm ..)⟩
  · obtain ⟨hle, hsign⟩ := hf.extended_of_key_le hx hy h
    rw [show z = x from if_neg (not_lt.2 h)]
    exact ⟨.inl rfl, le_rfl, hle, fun e => (hsign e).1⟩

/-- The operand that a maximum delivers: a greater number, and +0 where one of two zeros is. -/
theorem Fmt.Proper.greater_spec :
    let z := if f.key x < f.key y then y else x
    let sign (c : Nat) : Bool := c.testBit (f.ebits + f.mbits)
    (z = x ∨ z = y) ∧ Claims.extended (f.decode x) ≤ Claims.extended (f.decode z) ∧
      Claims.extended (f.decode y) ≤ Claims.extended (f.decode z) ∧
      (Claims.extended (f.decode x) = Claims.extended (f.decode y) → sign z = (sign x && sign y)) := by
  intro z sign
  rcases lt_or_ge (f.key x) (f.key y) with h | h
  · obtain ⟨hle, hsign⟩ := hf.extended_of_key_le hx hy h.le
    rw [show z = y from if_pos h]
    exact ⟨.inr rfl, hle, le_rfl, fun e => (hsign e).2⟩
  · obtain ⟨hle, hsign⟩ := hf.extended_of_key_le hy hx h
    rw [show z = x from if_neg (not_lt.2 h)]
    exact ⟨.inl rfl, le_rfl, hle, fun e => (hsign e.symm).2.trans (Bool.and_comm ..)⟩

end ordered

/-! ### Minima, maxima and conditions (R156, R159) -/

theorem Fmt.minMax_nan {f : Fmt} {x y : Nat} (h : ((f.decode x).isNan || (f.decode y).isNan) = true) (isMax : Bool) :
    f.minMax isMax x y = (f.nanBits, { nv := (f.decode x).isSnan || (f.decode y).isSnan }) := by
  rw [Fmt.minMax]
  refine (if_pos h).trans ?_
  simp [snanFlags, Flags.invalid]

theorem Fmt.minMax_number {f : Fmt} {x y : Nat} (h : ((f.decode x).isNan || (f.decode y).isNan) = false) (isMax : Bool) :
    f.minMax isMax x y = (if isMax = true then (if f.key x < f.key y then y else x)
      else (if f.key y < f.key x then y else x), {}) := by
  rw [Fmt.minMax]
  refine (if_neg (by simp [h])).trans ?_
  cases isMax <;> rfl

/-- The condition of a comparison where neither pattern is a NaN, and where one is. -/
theorem Fmt.compare_eq (f : Fmt) (c : VCond) (x y : Nat) : (f.compare c x y).1 =
    let un := (f.decode x).isNan || (f.decode y).isNan
    match c with
    | .eq => !un && f.valueKey x == f.valueKey y
    | .ne => un || f.valueKey x != f.valueKey y
    | .lt => !un && decide (f.valueKey x < f.valueKey y)
    | .le => !un && decide (f.valueKey x ≤ f.valueKey y)
    | .gt => !un && decide (f.valueKey y < f.valueKey x)
    | .ge => !un && decide (f.valueKey y ≤ f.valueKey x)
    | .un => un
    | .ord => !un := rfl

/-- The condition on NaNs for any comparison, and on numbers otherwise (R159). -/
theorem Fmt.Proper.compare_holds_iff {f : Fmt} (hf : f.Proper) (c : VCond) (x y : Nat) :
    let a := f.decode x
    let b := f.decode y
    let un := a.isNan || b.isNan
    (f.compare c x y).1 = true ↔ match c with
      | .eq => un = false ∧ Claims.extended a = Claims.extended b
      | .ne => un = true ∨ Claims.extended a ≠ Claims.extended b
      | .lt => un = false ∧ Claims.extended a < Claims.extended b
      | .le => un = false ∧ Claims.extended a ≤ Claims.extended b
      | .gt => un = false ∧ Claims.extended b < Claims.extended a
      | .ge => un = false ∧ Claims.extended b ≤ Claims.extended a
      | .un => un = true
      | .ord => un = false := by
  intro a b un
  rw [f.compare_eq]
  cases hun : un
  · obtain ⟨hx, hy⟩ := Bool.or_eq_false_iff.1 hun
    cases c <;> simp [hx, hy, a, b, hf.extended_lt_iff, hf.extended_le_iff, hf.extended_eq_iff]
  · have hun' : ((f.decode x).isNan || (f.decode y).isNan) = true := hun
    cases c <;> simp [hun']

theorem orderedResults : Claims.OrderedResults := by
  intro et isMax cond x y _ f a b un sign r
  have hf : f.Proper := fmtOf_proper et
  refine ⟨fun h => Fmt.minMax_nan h isMax, fun h => ?_, hf.compare_holds_iff cond x y, ?_⟩
  · obtain ⟨hx, hy⟩ := Bool.or_eq_false_iff.1 h
    rw [show r = _ from Fmt.minMax_number h isMax]
    cases isMax
    · obtain ⟨hxy, hlow⟩ := hf.lesser_spec hx hy
      exact ⟨rfl, hxy, fun _ => hlow, nofun⟩
    · obtain ⟨hxy, hhigh⟩ := hf.greater_spec hx hy
      exact ⟨rfl, hxy, nofun, fun _ => hhigh⟩
  · cases cond <;> rfl

/-- Settles O22: the masks and lanes, and the order of the patterns. -/
theorem vectorCompareSelect : Obligations.VectorCompareSelect := ⟨compareSelectLanes, orderedResults⟩

end Sys2Proof.Machine


/-! SUPPORT. The issue of matrix commands (R172, R179, R189, R192 to R199, R303): the acceptance of a command, the checks of each
command in their order, and the statement (O30). -/

namespace Sys2Proof.Machine

open Claims (inLocal matrixAccepted macReady macFaults mwldAccepted mwldForms)

/-! ### A full queue, and an accepted command (R110, R172) -/

theorem matrixOp_full {g : Guard} {s : State} (hg : s.me.getP g.p ≠ g.pn) (hf : 8 ≤ (s.core (coreOf s.cur)).mq.length) (i : Instr)
    (len : Nat) (op : Op Unit) : matrixOp g i len op s = .next s := by
  simp [matrixOp, guarded_on hg, matrixFull, hf]

theorem matrixOp_run {g : Guard} {s : State} (hg : s.me.getP g.p ≠ g.pn) (hf : (s.core (coreOf s.cur)).mq.length < 8) (i : Instr)
    (len : Nat) (op : Op Unit) : matrixOp g i len op s = runOp i len op s := by
  simp [matrixOp, guarded_on hg, matrixFull, hf]

/-- A command as it stands in the queue. -/
def acceptedCmd (i : Instr) (cmd : MCmd) (s : State) : MCmd :=
  { cmd with id := (s.core (coreOf s.cur)).nextCmd, ts := s.cur, instr := i, pc := s.me.pc, fpc := s.me.fpc, pts := s.me.pts }

/-- A command joins the queue of its core, and S[d] is pending. -/
theorem acceptMatrix_advance (i : Instr) (d : Reg) (n : Nat) (cmd : MCmd) (s : State) :
    (acceptMatrix i d cmd s).advance n =
      let k := s.core (coreOf s.cur)
      (s.setCore (coreOf s.cur) (({ k with mq := k.mq ++ [acceptedCmd i cmd s], nextCmd := k.nextCmd + 1 } : Core).touchCmd
        k.nextCmd)).setMe ((s.me.pend d).past n) := by
  rw [acceptMatrix, State.advance, State.setMe_me, State.setMe_setMe]
  rfl

theorem acceptMatrix_queue (i : Instr) (d : Reg) (n : Nat) (cmd : MCmd) (s : State) :
    (((acceptMatrix i d cmd s).advance n).core (coreOf s.cur)).mq = (s.core (coreOf s.cur)).mq ++ [acceptedCmd i cmd s] := by
  rw [acceptMatrix_advance, State.setMe_core, State.setCore_core_self, Core.touchCmd_mq]

theorem acceptMatrix_accepted (i : Instr) (d : Reg) (n : Nat) {cmd : MCmd} (hs : cmd.started = false) (hd : cmd.done = false)
    (s : State) : matrixAccepted i d n s ((acceptMatrix i d cmd s).advance n) := by
  refine ⟨?_, fun j hj => ?_, fun sp a => ?_, _, acceptMatrix_queue i d n cmd s, rfl, rfl, rfl, rfl, rfl, hs, hd⟩
  · rw [acceptMatrix_advance]
    exact State.setMe_me ..
  · rw [acceptMatrix_advance]
    exact State.setMe_ts_ne (s.setCore _ _) hj _
  · rw [acceptMatrix_advance, State.setMe, memOf_setTs, memOf_setCore_same]
    exact Core.touchCmd_mem ..

section issued
variable {g : Guard} {i : Instr} {d : Reg} {n : Nat} {op : Op Unit} {s s1 : State} {cmd : MCmd}
  (hg : s.me.getP g.p ≠ g.pn) (hf : (s.core (coreOf s.cur)).mq.length < 8)
include hg hf

/-- A check that fails posts its fault. -/
theorem matrixOp_fault {f : FaultInfo} (h : op s = .error (.fault f)) : matrixOp g i n op s = posted i f s :=
  (matrixOp_run hg hf i n op).trans (runOp_fault h)

variable (h : op s = .ok ((), acceptMatrix i d cmd s1)) (hp : s1.me.part = none) (hs : cmd.started = false) (hd : cmd.done = false)
include h hp

/-- An operation that ends with the acceptance of a command, as an instruction. -/
theorem matrixOp_accept : matrixOp g i n op s = .next ((acceptMatrix i d cmd s1).advance n) := by
  refine (matrixOp_run hg hf i n op).trans (runOp_ok h ?_)
  rw [acceptMatrix, State.setMe_me, pend_part]
  exact hp

include hs hd

theorem matrixOp_accepted : nextWith (matrixOp g i n op s) fun t => matrixAccepted i d n s1 t :=
  ⟨_, matrixOp_accept hg hf h hp, acceptMatrix_accepted i d n hs hd s1⟩

theorem matrixOp_mwldAccepted {ps : List Piece} (hpages : cmd.pages = pageMap ps) :
    nextWith (matrixOp g i n op s) fun t => mwldAccepted i d n cmd.a cmd.side ps s1 t := by
  refine ⟨_, matrixOp_accept hg hf h hp, acceptMatrix_accepted i d n hs hd s1, acceptedCmd i cmd s1, ?_, rfl, rfl, rfl, hpages⟩
  rw [acceptMatrix_queue]
  exact List.mem_append_right _ List.mem_cons_self

end issued

/-- A command without operands that is accepted in every state (R191, R197, R198). -/
theorem bareCommand_accepted {g : Guard} {s : State} (hg : s.me.getP g.p ≠ g.pn) (hf : (s.core (coreOf s.cur)).mq.length < 8)
    (hp : s.me.part = none) (i : Instr) (d : Reg) (n : Nat) :
    nextWith (matrixOp g i n (Op.upd (acceptMatrix i d newMCmd)) s) fun t => matrixAccepted i d n s t :=
  matrixOp_accepted hg hf (cmd := newMCmd) rfl hp rfl rfl

/-! ### Operands in the local window (rows 5 and 6 of R189, R209) -/

/-- An operand begins in the window and ends past it. -/
def straddles (o : Word × Nat) : Bool := inWindow o.1.toNat && !inWindow (o.1.toNat + o.2 - 1)

/-- An operand overlaps the range of a stash map. -/
def underStash (k : Core) (o : Word × Nat) : Bool := overStash k o.1.toNat (o.1.toNat + o.2 - 1)

/-- The checks of an operand list: straddle, outside the window, under a stash map. -/
theorem needWindow_eq (sa : Word) (ops : List (Word × Nat)) (write : Bool) (s : State) :
    needWindow sa ops write s = match ops.find? straddles with
      | some o => .error (.fault { cls := 7, info := o.1, write })
      | none => if ops.all (fun o => inWindow o.1.toNat) = true then
          match ops.find? (underStash (s.core (coreOf s.cur))) with
          | some o => .error (.fault { cls := 6, info := o.1, write })
          | none => .ok ((), s)
        else .error (.fault (matrixFault sa 5)) := by
  unfold needWindow
  rw [Op.ask_bind]
  show (match ops.find? straddles with | some o => _ | none => _ : Op Unit) s = _
  cases ops.find? straddles with
  | some o => rfl
  | none =>
    show (Op.need (ops.all fun o => inWindow o.1.toNat) (matrixFault sa 5) >>= fun _ =>
      match ops.find? (underStash (s.core (coreOf s.cur))) with | some o => _ | none => _) s = _
    cases hall : ops.all fun o => inWindow o.1.toNat with
    | false => rw [Op.need_bind_fails rfl]; rfl
    | true =>
      rw [Op.need_bind rfl]
      cases ops.find? (underStash (s.core (coreOf s.cur))) <;> rfl

section window
variable {ops : List (Word × Nat)} {o : Word × Nat} (sa : Word) (write : Bool) {s : State}

theorem needWindow_straddles (h : ops.find? straddles = some o) :
    needWindow sa ops write s = .error (.fault { cls := 7, info := o.1, write }) := by
  rw [needWindow_eq, h]

theorem needWindow_outside (hfit : ops.find? straddles = none) (h : ∃ o ∈ ops, inWindow o.1.toNat = false) :
    needWindow sa ops write s = .error (.fault (matrixFault sa 5)) := by
  rw [needWindow_eq, hfit]
  exact if_neg (by simpa using h)

variable (hfit : ops.find? straddles = none) (hin : ∀ o ∈ ops, inWindow o.1.toNat = true)
include hfit hin

theorem needWindow_underStash (h : ops.find? (underStash (s.core (coreOf s.cur))) = some o) :
    needWindow sa ops write s = .error (.fault { cls := 6, info := o.1, write }) := by
  rw [needWindow_eq, hfit, h]
  exact if_pos (List.all_eq_true.2 hin)

theorem needWindow_clear (h : ops.find? (underStash (s.core (coreOf s.cur))) = none) :
    needWindow sa ops write s = .ok ((), s) := by
  rw [needWindow_eq, hfit, h]
  exact if_pos (List.all_eq_true.2 hin)

end window

theorem needWindow_inLocal {ops : List (Word × Nat)} {s : State} (h : ∀ o ∈ ops, inLocal (s.core (coreOf s.cur)) o.1 o.2) (sa : Word)
    (write : Bool) : needWindow sa ops write s = .ok ((), s) := by
  refine needWindow_clear sa write (List.find?_eq_none.2 fun o ho => ?_) (fun o ho => (h o ho).1)
    (List.find?_eq_none.2 fun o ho => ?_)
  · obtain ⟨hfirst, hlast, -⟩ := h o ho
    simp [straddles, hlast]
  · obtain ⟨-, -, hmap⟩ := h o ho
    simp [underStash, hmap]

theorem strideOf_eq (x : Word) (row : Nat) : strideOf x row = if x.toNat = 0 then row else x.toNat := by
  simp [strideOf, BitVec.toNat_eq]

/-- An address or a stride of rows breaks row 6 of R189. -/
theorem misaligned_iff (a stride : Word) (row : Nat) : misaligned a stride row = true ↔
    a.toNat % 32 ≠ 0 ∨ stride.toNat % 32 ≠ 0 ∨ (stride.toNat ≠ 0 ∧ stride.toNat < row) := by
  simp [misaligned, BitVec.toNat_eq, or_assoc]

/-! ### `mmac` and `mmacs` (R186, R189) -/

/-- Row 1 passes: the tile is formed, or the command forms it. -/
def TileOk (v : View) (m : MacCtl) : Prop := m.zf = true ∨ formed v.halves m.tileFmt m.tile.val = true

/-- Row 2 passes: the slot has the descriptor of the command. -/
def SlotOk (v : View) (m : MacCtl) (sp : Option Sparsity) : Prop := v.descs[m.slot] = some (descOf m.bfmt sp)

/-- Row 3 passes: the slot has the rows that the command takes. -/
def RowsOk (m : MacCtl) (sp : Option Sparsity) : Prop := (m.kb.val + 1) * m.afmt.k ≤ logicalRows m.bfmt sp

/-- Row 4 fails: the A-bypass is not what the command takes. -/
def BypassBad (v : View) (f : MFmt) (src : ASrc) : Prop :=
  src = .bypass ∧ (v.tag ≠ some f.et ∨ ∃ b : Fin 4, b.val < (f.k + 31) / 32 ∧ v.valid[b] = false)

/-- The first n of four bits are all set. -/
theorem take_all_iff (v : Vector Bool 4) (n : Nat) : (v.toList.take n).all id = true ↔ ∀ b : Fin 4, b.val < n → v[b] = true := by
  simp only [List.all_eq_true, List.mem_take_iff_getElem]
  constructor
  · intro h b hb
    exact h _ ⟨b.val, by simp; omega, by simp⟩
  · rintro h _ ⟨j, hj, rfl⟩
    obtain ⟨hjn, hj4⟩ : j < n ∧ j < 4 := by simpa using hj
    simpa using h ⟨j, hj4⟩ hjn

theorem bypassOk_iff (v : View) (f : MFmt) (src : ASrc) :
    (src != .bypass || (v.tag == some f.et && (v.valid.toList.take ((f.k + 31) / 32)).all id)) = true ↔ ¬BypassBad v f src := by
  rw [Bool.or_eq_true, Bool.and_eq_true, take_all_iff]
  unfold BypassBad
  simp only [bne_iff_ne, beq_iff_eq]
  constructor
  · rintro (h | ⟨ht, hv⟩) ⟨hs, hbad⟩
    · exact h hs
    · rcases hbad with hbad | ⟨b, hb, hf⟩
      · exact hbad ht
      · rw [hv b hb] at hf; cases hf
  · intro h
    by_cases hs : src = .bypass
    · refine .inr ⟨?_, fun b hb => ?_⟩
      · by_contra ht
        exact h ⟨hs, .inl ht⟩
      · by_contra hv
        exact h ⟨hs, .inr ⟨b, hb, by simpa using hv⟩⟩
    · exact .inl hs

/-- The address that a fault names, and the stride. -/
def macAddr (t : ThreadSet) : ASrc → Word
  | .localMem r _ => t.getS r
  | _ => 0
def macStride (t : ThreadSet) : ASrc → Word
  | .localMem _ r => t.getS r
  | _ => 0

/-- The operands in local memory: the rows of A, and the scale array of scale mode 1. -/
def macOperands (t : ThreadSet) (m : MacCtl) (src : ASrc) (c : Reg) : List (Word × Nat) :=
  (match src with
    | .localMem _ _ => [(macAddr t src, 31 * strideOf (macStride t src) (aRowLen m.afmt) + aRowLen m.afmt)]
    | _ => []) ++ if m.scale = .blk then [(t.getS c, 128)] else []

/-- Row 6 of R189: the alignment of A, of its stride, and of the scale array. -/
def macAligned (t : ThreadSet) (m : MacCtl) (src : ASrc) (c : Reg) : Bool :=
  !(match src with | .localMem _ _ => misaligned (macAddr t src) (macStride t src) (aRowLen m.afmt) | _ => false) &&
    !(m.scale == .blk && (t.getS c).toNat % 4 != 0)

/-- The checks of `mmac` and `mmacs`, in their order. -/
theorem issueMac_eq (i : Instr) (m : MacCtl) (sp : Option Sparsity) (src : ASrc) (c : Reg) (s : State) :
    let v := viewOf (s.core (coreOf s.cur))
    let addr := macAddr s.me src
    issueMac i m sp src c s = (do
      Op.need (m.zf || formed v.halves m.tileFmt m.tile.val) (matrixFault addr 1)
      Op.need (v.descs[m.slot] == some (descOf m.bfmt sp)) (matrixFault addr 2)
      Op.need ((m.kb.val + 1) * m.afmt.k ≤ logicalRows m.bfmt sp) (matrixFault addr 3)
      Op.need (src != .bypass || (v.tag == some m.afmt.et && (v.valid.toList.take ((m.afmt.k + 31) / 32)).all id)) (matrixFault addr 4)
      needWindow addr (macOperands s.me m src c) false
      Op.need (macAligned s.me m src c) (matrixFault addr 6)
      Op.upd (acceptMatrix i 0 { newMCmd with a := addr, b := macStride s.me src, c := s.me.getS c }) : Op Unit) s := by
  cases src <;> rfl

section mac
variable {i : Instr} {m : MacCtl} {sp : Option Sparsity} {src : ASrc} {c : Reg} {s : State}

theorem issueMac_tile (h : ¬TileOk (viewOf (s.core (coreOf s.cur))) m) :
    issueMac i m sp src c s = .error (.fault (matrixFault (macAddr s.me src) 1)) := by
  rw [issueMac_eq, Op.need_bind_fails (by simpa [TileOk] using h)]

variable (h1 : TileOk (viewOf (s.core (coreOf s.cur))) m)
include h1

theorem issueMac_slot (h : ¬SlotOk (viewOf (s.core (coreOf s.cur))) m sp) :
    issueMac i m sp src c s = .error (.fault (matrixFault (macAddr s.me src) 2)) := by
  rw [issueMac_eq, Op.need_bind (by simpa [TileOk] using h1), Op.need_bind_fails (by simpa [SlotOk] using h)]

variable (h2 : SlotOk (viewOf (s.core (coreOf s.cur))) m sp)
include h2

theorem issueMac_rows (h : ¬RowsOk m sp) :
    issueMac i m sp src c s = .error (.fault (matrixFault (macAddr s.me src) 3)) := by
  rw [issueMac_eq, Op.need_bind (by simpa [TileOk] using h1), Op.need_bind (by simpa [SlotOk] using h2),
    Op.need_bind_fails (by simpa [RowsOk] using h)]

variable (h3 : RowsOk m sp)
include h3

theorem issueMac_bypass (h : BypassBad (viewOf (s.core (coreOf s.cur))) m.afmt src) :
    issueMac i m sp src c s = .error (.fault (matrixFault (macAddr s.me src) 4)) := by
  rw [issueMac_eq, Op.need_bind (by simpa [TileOk] using h1), Op.need_bind (by simpa [SlotOk] using h2),
    Op.need_bind (by simpa [RowsOk] using h3),
    Op.need_bind_fails (Bool.eq_false_iff.2 fun ht => (bypassOk_iff ..).1 ht h)]

/-- What is left of the issue when rows 1 to 4 pass. -/
theorem issueMac_operands (h4 : ¬BypassBad (viewOf (s.core (coreOf s.cur))) m.afmt src) :
    issueMac i m sp src c s = (do
      needWindow (macAddr s.me src) (macOperands s.me m src c) false
      Op.need (macAligned s.me m src c) (matrixFault (macAddr s.me src) 6)
      Op.upd (acceptMatrix i 0 { newMCmd with
        a := macAddr s.me src, b := macStride s.me src, c := s.me.getS c }) : Op Unit) s := by
  rw [issueMac_eq, Op.need_bind (by simpa [TileOk] using h1), Op.need_bind (by simpa [SlotOk] using h2),
    Op.need_bind (by simpa [RowsOk] using h3), Op.need_bind ((bypassOk_iff ..).2 h4)]

end mac

/-- The operands, with 0 as the stride of whole rows. -/
theorem macOperands_eq (t : ThreadSet) (m : MacCtl) (src : ASrc) (c : Reg) :
    macOperands t m src c =
      (match src with
        | .localMem _ r =>
          let st := (t.getS r).toNat
          [(macAddr t src, 31 * (if st = 0 then m.afmt.k * m.afmt.et.bytes else st) + m.afmt.k * m.afmt.et.bytes)]
        | _ => []) ++ if m.scale = .blk then [(t.getS c, 128)] else [] := by
  cases src <;> simp [macOperands, strideOf_eq, macStride, aRowLen]

theorem macAligned_false_iff (t : ThreadSet) (m : MacCtl) (src : ASrc) (c : Reg) : macAligned t m src c = false ↔
    (∃ ra rb, src = .localMem ra rb ∧ let st := (t.getS rb).toNat
      (macAddr t src).toNat % 32 ≠ 0 ∨ st % 32 ≠ 0 ∨ (st ≠ 0 ∧ st < m.afmt.k * m.afmt.et.bytes)) ∨
    (m.scale = .blk ∧ (t.getS c).toNat % 4 ≠ 0) := by
  cases src with
  | localMem r q =>
    simp only [macAligned, Bool.and_eq_false_iff, Bool.not_eq_false', misaligned_iff]
    simp [macStride, aRowLen]
  | qa => simp [macAligned]
  | bypass => simp [macAligned]

section macIssued
variable {g : Guard} {i : Instr} {m : MacCtl} {sp : Option Sparsity} {src : ASrc} {c : Reg} {s : State}
  (hg : s.me.getP g.p ≠ g.pn) (hf : (s.core (coreOf s.cur)).mq.length < 8)
  (hrun : exec i s = matrixOp g i 12 (issueMac i m sp src c) s)
include hg hf hrun

/-- The first failing check of an `mmac` or `mmacs` gives the fault. -/
theorem macFaults_of_run : macFaults s i m sp src c := by
  have fails : ∀ f, issueMac i m sp src c s = .error (.fault f) → exec i s = posted i f s :=
    fun f h => hrun.trans (matrixOp_fault hg hf h)
  unfold macFaults
  intro k v addr no tileOk slotOk rowsOk bypassBad len rows ops straddles' under'
  have haddr : addr = macAddr s.me src := by cases src <;> rfl
  have hops : ops = macOperands s.me m src c := by rw [macOperands_eq]; cases src <;> rfl
  have hno : ∀ n, issueMac i m sp src c s = .error (.fault (matrixFault (macAddr s.me src) n)) → no n :=
    fun n h => by rw [← haddr] at h; exact fails _ h
  refine ⟨fun h => hno 1 (issueMac_tile h), fun h1 h => hno 2 (issueMac_slot h1 h), fun h1 h2 h => hno 3 (issueMac_rows h1 h2 h),
    fun h1 h2 h3 h => hno 4 (issueMac_bypass h1 h2 h3 h), fun h1 h2 h3 h4 => ?_⟩
  have hleft := issueMac_operands (i := i) (c := c) h1 h2 h3 h4
  rw [← hops] at hleft
  refine ⟨fun o ho => ?_, fun hfit hout => hno 5 ?_, fun hfit hin => ⟨fun o ho => ?_, fun hclear hbad => hno 6 ?_⟩⟩
  · exact fails _ (hleft.trans (Op.bind_of_error (needWindow_straddles _ _ ho)))
  · exact hleft.trans (Op.bind_of_error (needWindow_outside _ _ hfit hout))
  · exact fails _ (hleft.trans (Op.bind_of_error (needWindow_underStash _ _ hfit hin ho)))
  · rw [hleft, Op.bind_of_ok (needWindow_clear _ _ hfit hin hclear), Op.need_bind_fails]
    rw [haddr] at hbad
    exact (macAligned_false_iff ..).2 hbad

theorem mac_accepted (hp : s.me.part = none) (h : macReady s m sp src c) :
    nextWith (exec i s) fun t => matrixAccepted i 0 12 s t := by
  obtain ⟨h1, h2, h3, hsrc, hscale⟩ := h
  have h4 : ¬BypassBad (viewOf (s.core (coreOf s.cur))) m.afmt src := by
    rintro ⟨rfl, htag | ⟨b, hb, hv⟩⟩
    · exact htag hsrc.1
    · exact Bool.false_ne_true (hv.symm.trans (hsrc.2 b hb))
  have hlocal : ∀ o ∈ macOperands s.me m src c, inLocal (s.core (coreOf s.cur)) o.1 o.2 := by
    rw [macOperands_eq]
    intro o ho
    rcases List.mem_append.1 ho with ho | ho
    · cases src with
      | localMem r q => rw [List.mem_singleton.1 ho]; exact hsrc.1
      | qa | bypass => cases ho
    · split at ho
      · next hb => rw [List.mem_singleton.1 ho]; exact (hscale hb).1
      · cases ho
  have haligned : macAligned s.me m src c = true := by
    rw [← Bool.not_eq_false, macAligned_false_iff]
    rintro (⟨ra, rb, rfl, hbad⟩ | ⟨hb, hbad⟩)
    · obtain ⟨-, haddr, hstride, hrow⟩ := hsrc
      rcases hbad with hbad | hbad | ⟨h0, hbad⟩
      · exact hbad haddr
      · exact hbad hstride
      · exact absurd (hrow.resolve_left h0) (by omega)
    · exact hbad (hscale hb).2
  rw [hrun]
  refine matrixOp_accepted hg hf ?_ hp (cmd := { newMCmd with
    a := macAddr s.me src, b := macStride s.me src, c := s.me.getS c }) rfl rfl
  rw [issueMac_operands h1 h2 h3 h4, Op.bind_of_ok (needWindow_inLocal hlocal _ _), Op.need_bind haligned]
  rfl

end macIssued

/-! ### `mwld` (R177, R192, R211) -/

/-- The operands of an `mwld`: the image, and a side array of n bytes if there is one. -/
def mwldRanges (x : Word × Word) (n : Nat) : List (Word × Nat) := (x.1, imageLen) :: if n = 0 then [] else [(x.2, n)]

/-- What is left of the issue of an `mwld` once the addresses of its image and of its side array of n bytes are known. -/
def issueLoad (i : Instr) (d : Reg) (w : Who) (sa : Word) (x : Word × Word) (n : Nat) : Op Unit :=
  match (mwldRanges x n).find? straddles with
  | some o => Op.fail { cls := 7, info := o.1 }
  | none => do
    let ps ← (mwldRanges x n).mapM fun o => checkAccess w .load o.1 o.2
    Op.need (x.1.toNat % 64 = 0 && (n == 0 || x.2.toNat % 8 == 0)) (matrixFault sa 6)
    let since ← Op.ask fun s => s.msys.writes
    Op.upd (acceptMatrix i d { newMCmd with a := x.1, side := x.2, pages := pageMap ps.flatten, since })

section issueMwld
variable {i : Instr} {f : MFmt} {d : Reg} {src : MwldSrc} {s : State}

/-- An `mwld` of an address and a displacement. -/
theorem issueMwld_address (h : mwldRec src = false) : issueMwld i f d src s =
    issueLoad i d (s.who s.cur) (s.me.getS (mwldBase src)) (mwldOperands src s.me 0) (sideLen f (mwldSparse src)) s := by
  unfold issueMwld
  rw [Op.ask_bind, h]
  rfl

variable (hrec : mwldRec src = true)
include hrec

theorem issueMwld_misplacedRecord (h : (s.me.getS (mwldBase src)).toNat % 64 ≠ 0) :
    issueMwld i f d src s = .error (.fault (tileFault (s.me.getS (mwldBase src)) 1)) := by
  unfold issueMwld
  rw [Op.ask_bind, hrec]
  exact Op.need_bind_fails (by simpa using h) ..

variable {r : BitVec 1536} {s0 : State} (hbase : (s.me.getS (mwldBase src)).toNat % 64 = 0)
  (hr : useRecord (s.who s.cur) (s.me.getS (mwldBase src)) s = .ok (r, s0))
include hbase hr

theorem issueMwld_invalidRecord (hz : recordZeros r = false) :
    issueMwld i f d src s = .error (.fault (tileFault (s.me.getS (mwldBase src)) 1)) := by
  unfold issueMwld
  simp only [Op.ask_bind, id, hrec, if_true]
  rw [Op.need_bind (by simpa using hbase), Op.bind_of_ok hr, Op.need_bind_fails (by simpa using hz)]

/-- An `mwld` by a valid record: its image and side array lie where the record's fields say. -/
theorem issueMwld_record (hz : recordZeros r = true) : issueMwld i f d src s =
    issueLoad i d (s.who s.cur) (s.me.getS (mwldBase src)) (mwldOperands src s.me r) (sideLen f (mwldSparse src)) s0 := by
  unfold issueMwld
  simp only [Op.ask_bind, id, hrec, if_true]
  rw [Op.need_bind (by simpa using hbase), Op.bind_of_ok hr, Op.need_bind (by simpa using hz)]
  rfl

end issueMwld

/-- An operand of an `mwld` does not straddle, and its pages are translated into ps. -/
def Translates (w : Who) (x : Word) (n : Nat) (s : State) (ps : List Piece) (t : State) : Prop :=
  (inWindow x.toNat = true → inWindow (x.toNat + n - 1) = true) ∧ checkAccess w .load x n s = .ok (ps, t)

/-- Both operands of an `mwld`, or the image alone, are translated without a straddle. -/
def TranslatesAll (w : Who) (x : Word × Word) (n : Nat) (s : State) (ps : List Piece) (t : State) : Prop :=
  (n = 0 ∧ Translates w x.1 imageLen s ps t) ∨
  (0 < n ∧ ∃ ps1 s1 ps2, Translates w x.1 imageLen s ps1 s1 ∧ Translates w x.2 n s1 ps2 t ∧ ps = ps1 ++ ps2)

section issueLoad
variable {i : Instr} {d : Reg} {w : Who} {sa : Word} {x : Word × Word} {n : Nat} {s t : State} {ps : List Piece}

theorem Translates.straddles_false {y : Word} (h : Translates w y n s ps t) : straddles (y, n) = false := by
  cases hin : inWindow y.toNat <;> simp [straddles, hin, h.1]

theorem TranslatesAll.fits (h : TranslatesAll w x n s ps t) : (mwldRanges x n).find? straddles = none := by
  obtain ⟨rfl, himage⟩ | ⟨hn, _, _, _, himage, hside, rfl⟩ := h
  · simp [mwldRanges, himage.straddles_false]
  · simp [mwldRanges, Nat.ne_of_gt hn, himage.straddles_false, hside.straddles_false]

theorem TranslatesAll.pieces (h : TranslatesAll w x n s ps t) :
    ∃ l, (mwldRanges x n).mapM (fun o => checkAccess w .load o.1 o.2) s = .ok (l, t) ∧ l.flatten = ps := by
  obtain ⟨rfl, -, himage⟩ | ⟨hn, ps1, s1, ps2, ⟨-, himage⟩, ⟨-, hside⟩, rfl⟩ := h
  · refine ⟨[ps], ?_, by simp⟩
    rw [mwldRanges, if_pos rfl, List.mapM_cons, Op.bind_of_ok himage]
    rfl
  · refine ⟨[ps1, ps2], ?_, by simp⟩
    rw [mwldRanges, if_neg hn.ne', List.mapM_cons, Op.bind_of_ok himage, List.mapM_cons]
    simp only [bind_assoc]
    rw [Op.bind_of_ok hside]
    rfl

theorem issueLoad_straddles {o : Word × Nat} (h : (mwldRanges x n).find? straddles = some o) :
    issueLoad i d w sa x n s = .error (.fault { cls := 7, info := o.1 }) := by
  unfold issueLoad
  rw [h]
  rfl

variable (h : TranslatesAll w x n s ps t)
include h

theorem issueLoad_misaligned (hbad : x.1.toNat % 64 ≠ 0 ∨ (0 < n ∧ x.2.toNat % 8 ≠ 0)) :
    issueLoad i d w sa x n s = .error (.fault (matrixFault sa 6)) := by
  obtain ⟨l, hl, rfl⟩ := h.pieces
  unfold issueLoad
  rw [h.fits]
  dsimp only
  rw [Op.bind_of_ok hl, Op.need_bind_fails]
  rcases hbad with hbad | ⟨hn, hbad⟩
  · simp [hbad]
  · simp [hn.ne', hbad]

theorem issueLoad_accepts (himage : x.1.toNat % 64 = 0) (hside : 0 < n → x.2.toNat % 8 = 0) :
    issueLoad i d w sa x n s = .ok ((), acceptMatrix i d { newMCmd with
      a := x.1, side := x.2, pages := pageMap ps, since := t.msys.writes } t) := by
  obtain ⟨l, hl, rfl⟩ := h.pieces
  unfold issueLoad
  rw [h.fits]
  dsimp only
  rw [Op.bind_of_ok hl, Op.need_bind]
  · rfl
  · rcases Nat.eq_zero_or_pos n with hn | hn
    · simp [himage, hn]
    · simp [himage, hside hn]

end issueLoad

section mwld
variable {g : Guard} {f : MFmt} {slot : Fin 8} {d : Reg} {src : MwldSrc} {s s0 t : State} {w : Who} {sa : Word} {x : Word × Word}
  {n : Nat} {ps : List Piece} (hg : s.me.getP g.p ≠ g.pn) (hf : (s.core (coreOf s.cur)).mq.length < 8)
include hg hf

theorem mwld_faults {e : FaultInfo} (h : issueMwld (.mwld g f slot d src) f d src s = .error (.fault e)) :
    exec (.mwld g f slot d src) s = posted (.mwld g f slot d src) e s :=
  matrixOp_fault hg hf h

theorem mwld_accepted
    (hload : issueMwld (.mwld g f slot d src) f d src s = issueLoad (.mwld g f slot d src) d w sa x n s0)
    (h : TranslatesAll w x n s0 ps t) (himage : x.1.toNat % 64 = 0) (hside : 0 < n → x.2.toNat % 8 = 0) (hp : t.me.part = none) :
    nextWith (exec (.mwld g f slot d src) s) fun u => mwldAccepted (.mwld g f slot d src) d (mwldLen src) x.1 x.2 ps t u :=
  matrixOp_mwldAccepted hg hf (hload.trans (issueLoad_accepts h himage hside)) hp rfl rfl rfl

theorem mwldForms_hold (a b : Reg) (disp : Imm 13) (sp : Sparsity) : mwldForms s g f slot d a b disp sp := by
  unfold mwldForms
  intro w image len side n h clear got ok bad
  have hlen : extLen disp = len := extLen_eq disp
  have himg : s.me.getS a + immVal disp = image := by cases disp <;> rfl
  have dense : ∀ i : Instr, issueMwld i f d (.dense a disp) s = issueLoad i d w h (image, 0) 0 s := fun i => by
    rw [issueMwld_address rfl, ← himg]; rfl
  have sparse : ∀ i : Instr, issueMwld i f d (.sparse a disp sp b) s = issueLoad i d w h (image, side) n s := fun i => by
    rw [issueMwld_address rfl, ← himg]; rfl
  refine ⟨rfl, fun ps s1 hi => ?_, fun hin hout => ?_, fun ps s1 qs s2 hi hs hn => ?_, fun hh => ?_, fun hh r s0 hr => ?_⟩
  · have hall : TranslatesAll w (image, 0) 0 s ps s1 := .inl ⟨rfl, hi⟩
    refine ⟨fun h64 hp => ?_, fun h64 => ?_⟩
    · rw [← hlen]
      exact mwld_accepted hg hf (dense _) hall h64 nofun hp
    · exact mwld_faults hg hf ((dense _).trans (issueLoad_misaligned hall (.inl h64)))
  · refine mwld_faults hg hf ((dense _).trans (issueLoad_straddles (o := (image, imageLen)) ?_))
    exact List.find?_cons_of_pos (by simp [straddles, hin, show inWindow (image.toNat + imageLen - 1) = false from hout])
  · have hall : TranslatesAll w (image, side) n s (ps ++ qs) s2 := .inr ⟨hn, ps, s1, qs, hi, hs, rfl⟩
    refine ⟨fun h64 h8 hp => ?_, fun hbad => ?_⟩
    · rw [← hlen]
      exact mwld_accepted hg hf (sparse _) hall h64 (fun _ => h8) hp
    · exact mwld_faults hg hf ((sparse _).trans (issueLoad_misaligned hall (hbad.imp id fun h8 => ⟨hn, h8⟩)))
  · refine List.forall_mem_cons.2 ⟨?_, List.forall_mem_singleton.2 ?_⟩
    · exact mwld_faults hg hf (issueMwld_misplacedRecord rfl hh)
    · exact mwld_faults hg hf (issueMwld_misplacedRecord rfl hh)
  · refine ⟨fun hz => List.forall_mem_cons.2 ⟨?_, List.forall_mem_singleton.2 ?_⟩, fun hz ps s1 hi h64 => ?_⟩
    · exact mwld_faults hg hf (issueMwld_invalidRecord rfl hh hr hz)
    · exact mwld_faults hg hf (issueMwld_invalidRecord rfl hh hr hz)
    · let x := BitVec.ofNat 64 (recAddr h.toNat r 0 0)
      let y := BitVec.ofNat 64 (recAddr h.toNat r 8 1)
      have recDense : ∀ i : Instr, issueMwld i f d (.recDense a) s = issueLoad i d w h (x, y) 0 s0 :=
        fun i => issueMwld_record (src := .recDense a) rfl hh hr hz
      have recSparse : ∀ i : Instr, issueMwld i f d (.recSparse a sp) s = issueLoad i d w h (x, y) n s0 :=
        fun i => issueMwld_record (src := .recSparse a sp) rfl hh hr hz
      refine ⟨mwld_accepted hg hf (recDense _) (.inl ⟨rfl, hi⟩) h64 nofun, fun qs s2 hs hn h8 => ?_⟩
      exact mwld_accepted hg hf (recSparse _) (.inr ⟨hn, ps, s1, qs, hi, hs, rfl⟩) h64 fun _ => h8

end mwld

/-! ### Drains (R189, R193 to R196) -/

theorem anyFormed_iff (h : Halves) (n : Nat) : anyFormed h n = true ↔
    ∃ f ∈ [TileFmt.f32, .bf16, .f16, .i32, .f64], f.indexOk n = true ∧ formed h f n = true := by
  simp only [anyFormed, List.any_eq_true, Bool.and_eq_true]

theorem anyFormed_of_formed {h : Halves} {n : Nat} {tf : TileFmt} (hidx : tf.indexOk n = true) (hform : formed h tf n = true) :
    anyFormed h n = true :=
  (anyFormed_iff h n).2 ⟨tf, by cases tf <;> decide, hidx, hform⟩

section drains
variable {tf : TileFmt} {n : Nat} {sa : Word} {operands : Op Unit} {s : State}

theorem drainChecks_unformed (h : anyFormed (viewOf (s.core (coreOf s.cur))).halves n = false) :
    drainChecks tf n sa operands s = .error (.fault (matrixFault sa 1)) := by
  rw [drainChecks, Op.ask_bind, Op.need_bind_fails h]

variable (h : anyFormed (viewOf (s.core (coreOf s.cur))).halves n = true) (hops : operands s = .ok ((), s))
include h hops

theorem drainChecks_otherFormat (hf : formed (viewOf (s.core (coreOf s.cur))).halves tf n = false) :
    drainChecks tf n sa operands s = .error (.fault (matrixFault sa 7)) := by
  rw [drainChecks, Op.ask_bind, Op.need_bind h, Op.bind_of_ok hops, hf]
  rfl

theorem drainChecks_formed (hf : formed (viewOf (s.core (coreOf s.cur))).halves tf n = true) :
    drainChecks tf n sa operands s = .ok ((), s) := by
  rw [drainChecks, Op.ask_bind, Op.need_bind h, Op.bind_of_ok hops, hf]
  rfl

end drains

/-- The operands of an `mdrain`: its rows, and the flag array if there is one. -/
def drainOperands (addr stride fl : Word) (row : Nat) (c : Reg) : List (Word × Nat) :=
  (addr, 31 * strideOf stride row + row) :: if c = 0 then [] else [(fl, 128)]

theorem drainOperands_inLocal {s : State} {addr stride fl : Word} {row : Nat} {c : Reg}
    (hrows : inLocal (s.core (coreOf s.cur)) addr (31 * (if stride.toNat = 0 then row else stride.toNat) + row))
    (haddr : addr.toNat % 32 = 0) (hstride : stride.toNat % 32 = 0) (hrow : stride.toNat = 0 ∨ row ≤ stride.toNat)
    (hfl : c ≠ 0 → inLocal (s.core (coreOf s.cur)) fl 128 ∧ fl.toNat % 4 = 0) (sa : Word) :
    (do needWindow sa (drainOperands addr stride fl row c) true
        Op.need (!misaligned addr stride row && (c == 0 || fl.toNat % 4 == 0)) (matrixFault sa 6) : Op Unit) s = .ok ((), s) := by
  have hlocal : ∀ o ∈ drainOperands addr stride fl row c, inLocal (s.core (coreOf s.cur)) o.1 o.2 := by
    refine List.forall_mem_cons.2 ⟨by rw [strideOf_eq]; exact hrows, ?_⟩
    by_cases hc : c = 0
    · simp [hc]
    · rw [if_neg hc]
      exact List.forall_mem_singleton.2 (hfl hc).1
  have haligned : misaligned addr stride row = false := by
    rw [Bool.eq_false_iff, Ne, misaligned_iff]
    omega
  have hflag : (c == 0 || fl.toNat % 4 == 0) = true := by
    by_cases hc : c = 0
    · simp [hc]
    · simp [(hfl hc).2]
  rw [Op.bind_of_ok (needWindow_inLocal hlocal _ _), haligned, hflag]
  rfl

section drain
variable {s : State} {g : Guard} {et : ElemTy} {rm : RoundField} {o : Fp8Ovr} {tf : TileFmt} {tile : Fin 8} {d a b c : Reg}
  {disp col : Imm 13} (hg : s.me.getP g.p ≠ g.pn) (hf : (s.core (coreOf s.cur)).mq.length < 8)
include hg hf

theorem drains_unformed (h : anyFormed (viewOf (s.core (coreOf s.cur))).halves tile.val = false) :
    exec (.mdrainq g et rm o tf tile) s = posted (.mdrainq g et rm o tf tile) { cls := 10, detail := 1 } s ∧
    exec (.mdraina g et rm o tf tile col) s = posted (.mdraina g et rm o tf tile col) { cls := 10, detail := 1 } s ∧
    exec (.mdrain g et rm o tf tile d a b c disp) s =
      posted (.mdrain g et rm o tf tile d a b c disp) { cls := 10, detail := 1, info := s.me.getS a } s :=
  ⟨matrixOp_fault hg hf (Op.bind_of_error (drainChecks_unformed h)),
   matrixOp_fault hg hf (Op.bind_of_error (drainChecks_unformed h)),
   matrixOp_fault hg hf (Op.bind_of_error (drainChecks_unformed h))⟩

variable (h : anyFormed (viewOf (s.core (coreOf s.cur))).halves tile.val = true)
include h

theorem drains_otherFormat (hform : formed (viewOf (s.core (coreOf s.cur))).halves tf tile.val = false) :
    exec (.mdrainq g et rm o tf tile) s = posted (.mdrainq g et rm o tf tile) { cls := 10, detail := 7 } s ∧
    exec (.mdraina g et rm o tf tile col) s = posted (.mdraina g et rm o tf tile col) { cls := 10, detail := 7 } s :=
  ⟨matrixOp_fault hg hf (Op.bind_of_error (drainChecks_otherFormat h rfl hform)),
   matrixOp_fault hg hf (Op.bind_of_error (drainChecks_otherFormat h rfl hform))⟩

variable (hp : s.me.part = none) (hform : formed (viewOf (s.core (coreOf s.cur))).halves tf tile.val = true)
include hp hform

theorem mdrainq_accepted : nextWith (exec (.mdrainq g et rm o tf tile) s) fun t =>
    matrixAccepted (.mdrainq g et rm o tf tile) 0 12 s t :=
  matrixOp_accepted hg hf (cmd := newMCmd) (Op.bind_of_ok (drainChecks_formed h rfl hform)) hp rfl rfl

theorem mdraina_accepted : nextWith (exec (.mdraina g et rm o tf tile col) s) fun t =>
    matrixAccepted (.mdraina g et rm o tf tile col) 0 (extLen col) s t :=
  matrixOp_accepted hg hf (cmd := newMCmd) (Op.bind_of_ok (drainChecks_formed h rfl hform)) hp rfl rfl

theorem mdrain_accepted
    (hrows : inLocal (s.core (coreOf s.cur)) (s.me.getS a + immVal disp)
      (31 * (if (s.me.getS b).toNat = 0 then 32 * et.bytes else (s.me.getS b).toNat) + 32 * et.bytes))
    (haddr : (s.me.getS a + immVal disp).toNat % 32 = 0) (hstride : (s.me.getS b).toNat % 32 = 0)
    (hrow : (s.me.getS b).toNat = 0 ∨ 32 * et.bytes ≤ (s.me.getS b).toNat)
    (hfl : c ≠ 0 → inLocal (s.core (coreOf s.cur)) (s.me.getS c) 128 ∧ (s.me.getS c).toNat % 4 = 0) :
    nextWith (exec (.mdrain g et rm o tf tile d a b c disp) s) fun t =>
      matrixAccepted (.mdrain g et rm o tf tile d a b c disp) d (extLen disp) s t :=
  matrixOp_accepted hg hf (cmd := { newMCmd with a := s.me.getS a + immVal disp, b := s.me.getS b, c := s.me.getS c })
    (Op.bind_of_ok (drainChecks_formed h (drainOperands_inLocal hrows haddr hstride hrow hfl _) hform)) hp rfl rfl

end drain

/-! ### `mwait` (R199, R303) -/

theorem mwait_goesOn {s : State} {g : Guard} (hg : s.me.getP g.p ≠ g.pn) (h : (s.core (coreOf s.cur)).mq = []) :
    exec (.mwait g) s = ranTo s { s.me with pts := Max.max s.me.pts (s.core (coreOf s.cur)).mpts } 12 := by
  refine (guarded_on hg ..).trans ?_
  rw [h, List.isEmpty_nil, if_pos rfl, State.advance, State.setMe_me, State.setMe_setMe]
  rfl

theorem mwait_waits {s : State} {g : Guard} (hg : s.me.getP g.p ≠ g.pn) (h : (s.core (coreOf s.cur)).mq ≠ []) :
    exec (.mwait g) s = .next (s.setMe { s.me with status := .waitMatrix (s.core (coreOf s.cur)).nextCmd }) :=
  (guarded_on hg ..).trans (if_neg (by simpa using h))

/-- Settles O30: a full queue first, then each command by its checks in their order, and `mwait` by whether the queue is empty. -/
theorem matrixCommandsAccepted : Obligations.MatrixCommandsAccepted := by
  intro s g m sp tf tile bf slot d a b c src et rm o disp col hg k v ok drain len st row
  have hlen : extLen disp = len := extLen_eq disp
  have hdrain : s.me.getS a + immVal disp = drain := by cases disp <;> rfl
  refine ⟨fun hf i hi => ?_, fun hf hp => ⟨?_, ?_, ?_, ?_, ?_, fun hnone => ?_, fun f _ hidx hform hother => ?_, ?_, ?_, ?_,
    fun hform hidx => ⟨?_, ?_, fun hrows haddr hstride hrow hfl => ?_⟩⟩, mwait_goesOn hg, mwait_waits hg⟩
  · simp only [List.mem_cons, List.not_mem_nil, or_false] at hi
    rcases hi with rfl | rfl | rfl | rfl | rfl | rfl | rfl | rfl | rfl | rfl | rfl | rfl <;> exact matrixOp_full hg hf ..
  · exact mac_accepted hg hf rfl hp
  · exact mac_accepted hg hf rfl hp
  · exact macFaults_of_run hg hf rfl
  · exact macFaults_of_run hg hf rfl
  · exact mwldForms_hold hg hf a b disp sp
  · obtain ⟨hq, ha, hd⟩ := drains_unformed (tf := tf) (et := et) (rm := rm) (o := o) (d := d) (a := a) (b := b) (c := c)
      (disp := disp) (col := col) hg hf (tile := tile) <| by
        rw [Bool.eq_false_iff, Ne, anyFormed_iff]
        rintro ⟨f, hmem, hidx, hform⟩
        exact Bool.false_ne_true ((hnone f hmem hidx).symm.trans hform)
    exact ⟨List.forall_mem_cons.2 ⟨hq, List.forall_mem_singleton.2 ha⟩, hd⟩
  · obtain ⟨hq, ha⟩ := drains_otherFormat hg hf (anyFormed_of_formed hidx hform) hother
    exact List.forall_mem_cons.2 ⟨hq, List.forall_mem_singleton.2 ha⟩
  · exact bareCommand_accepted hg hf hp ..
  · exact bareCommand_accepted hg hf hp ..
  · exact bareCommand_accepted hg hf hp ..
  all_goals have hany : anyFormed v.halves tile.val = true := anyFormed_of_formed hidx hform
  · exact mdrainq_accepted hg hf hany hp hform
  · rw [← extLen_eq]
    exact mdraina_accepted hg hf hany hp hform
  · rw [← hlen]
    exact mdrain_accepted hg hf hany hp hform (hdrain ▸ hrows) (hdrain ▸ haddr) hstride hrow hfl

end Sys2Proof.Machine

/-! SUPPORT. The checks of an access (R203, R204, R209): what each address range answers, and the faults that a load or store
posts (O25). -/

namespace Sys2Proof.Machine
open Sys2Proof Sys2Proof.Claims

/-! ### The last byte of an access -/

/-- The last byte of an access that does not wrap. -/
theorem lastByte_toNat {addr : Word} {n : Nat} (hn : 1 ≤ n) (h : addr.toNat + n ≤ 2 ^ 64) :
    (addr + BitVec.ofNat 64 n - 1).toNat = addr.toNat + n - 1 := by
  simp only [BitVec.toNat_sub, BitVec.toNat_add, BitVec.toNat_ofNat, BitVec.ofNat_eq_ofNat]
  omega

/-- The last byte of an access that wraps lies below its first one. -/
theorem lastByte_wraps {addr : Word} {n : Nat} (hn : n ≤ 64) (h : 2 ^ 64 < addr.toNat + n) :
    (addr + BitVec.ofNat 64 n - 1).toNat < addr.toNat := by
  simp only [BitVec.toNat_sub, BitVec.toNat_add, BitVec.toNat_ofNat, BitVec.ofNat_eq_ofNat]
  omega

theorem inWindow_iff (a : Nat) : inWindow a = true ↔ 0xFF00000000000000 ≤ a ∧ a < 0xFF00000000080000 := by
  rw [inWindow, lwBase, Bool.and_eq_true, decide_eq_true_iff, decide_eq_true_iff]

theorem inGlobal_iff (a : Nat) : inGlobal a = true ↔ a < 2 ^ 56 := by simp [inGlobal]

/-! ### What the checks answer -/

section
variable {s : State} {w : Who} {k : Kind} {addr : Word} {n : Nat}

/-- An access that wraps is a protection fault. -/
theorem checkAccess_wraps (hn : 1 ≤ n) (h : (addr + BitVec.ofNat 64 n - 1).toNat < addr.toNat) :
    checkAccess w k addr n s = .error (.fault { cls := 6, info := addr, write := k.w }) := by
  unfold checkAccess
  rw [if_neg (by omega), if_pos h]; rfl

/-- An access outside the window of a core and not wholly in global space is a protection fault. -/
theorem checkAccess_hole (hn : 1 ≤ n) (hw : (inWindow addr.toNat && w.core != hubCore) = false)
    (hg : (inGlobal addr.toNat && inGlobal (addr + BitVec.ofNat 64 n - 1).toNat) = false) :
    checkAccess w k addr n s = .error (.fault { cls := 6, info := addr, write := k.w }) := by
  unfold checkAccess
  rw [if_neg (by omega), hw, hg]
  split <;> rfl

/-- The checks of an access that does not wrap and begins in the window of a core. -/
theorem checkAccess_window (hn : 1 ≤ n) (hc : w.core ≠ hubCore) (ha : inWindow addr.toNat = true)
    (h : addr.toNat + n ≤ 2 ^ 64) :
    checkAccess w k addr n s =
      if inWindow (addr.toNat + n - 1) = false then .error (.fault { cls := 7, info := addr, write := k.w })
      else if overStash (s.core w.core) addr.toNat (addr.toNat + n - 1) = true then
        .error (.fault { cls := 6, info := addr, write := k.w })
      else .ok ([{ va := addr.toNat, n, loc := { space := .core w.core, addr := addr.toNat - lwBase } }], s) := by
  unfold checkAccess
  simp only [lastByte_toNat hn h]
  rw [if_neg (by omega), if_neg (by omega), ha, bne_iff_ne.2 hc, if_pos (show (true && true) = true from rfl), Op.ask_bind]
  cases inWindow (addr.toNat + n - 1)
  · rfl
  · cases overStash (s.core w.core) addr.toNat (addr.toNat + n - 1) <;> rfl

end

/-! ### Loads and stores whose checks fail -/

theorem dispVal_baseAddr (s : State) (a : Reg) (n : Nat) (disp : Imm 9) :
    s.me.getS a + dispVal n disp = baseAddr s a n disp := by cases disp <;> rfl

theorem baseLen_dispLen (disp : Imm 9) : baseLen disp = dispLen disp := by cases disp <;> rfl

/-- An access that begins with a failed check has no effect. -/
theorem accessOp_check_fails {i : Instr} {check : Op (List Ev)} {one : Ev → Op Nat} {fin : NMap Nat → State → State} {s : State}
    {f : FaultInfo} (hp : s.me.part = none) (hc : check s = .error (.fault f)) :
    accessOp i check one fin s = .error (.fault f) := by
  unfold accessOp
  rw [Op.ask_bind]
  simp only [id, hp]
  exact Op.bind_of_error hc

theorem loadOp_check_fails {i : Instr} {vec : Bool} {h : Hint} {addr : Word} {n : Nat} {fin : Nat → State → State} {s : State}
    {f : FaultInfo} (hp : s.me.part = none) (hc : checkAccess (s.who s.cur) (loadKind h) addr n s = .error (.fault f)) :
    loadOp i vec h addr n fin s = .error (.fault f) := by
  rw [loadOp, Op.ask_bind]
  exact accessOp_check_fails hp (Op.bind_of_error hc)

theorem storeOp_check_fails {i : Instr} {vec : Bool} {h : Hint} {addr : Word} {n v : Nat} {fin : State → State} {s : State}
    {f : FaultInfo} (hp : s.me.part = none) (hc : checkAccess (s.who s.cur) (storeKind h) addr n s = .error (.fault f)) :
    storeOp i vec h addr n v fin s = .error (.fault f) := by
  rw [storeOp, Op.ask_bind]
  exact accessOp_check_fails hp (Op.bind_of_error hc)

/-- Settles O25: each range of addresses by the branch of the checks that it takes, and a failed check by the post of its fault. -/
theorem accessFaults : Obligations.AccessFaults := by
  unfold Obligations.AccessFaults
  intro s w k addr n hn hn'
  extract_lets a fail
  have hlow {x : Nat} (h : x < 0xFF00000000000000) : inWindow x = false :=
    Bool.eq_false_iff.2 fun e => absurd ((inWindow_iff _).1 e).1 (by omega)
  have hhigh {x : Nat} (h : 0xFF00000000080000 ≤ x) : inWindow x = false :=
    Bool.eq_false_iff.2 fun e => absurd ((inWindow_iff _).1 e).2 (by omega)
  have hglob {x : Nat} (h : 2 ^ 56 ≤ x) : inGlobal x = false :=
    Bool.eq_false_iff.2 fun e => absurd ((inGlobal_iff _).1 e) (by omega)
  have hin {x : Nat} (h1 : 0xFF00000000000000 ≤ x) (h2 : x < 0xFF00000000080000) : inWindow x = true :=
    (inWindow_iff _).2 ⟨h1, h2⟩
  refine ⟨fun h => checkAccess_wraps hn (lastByte_wraps hn' h), fun h1 h2 _ => ?_, fun h1 _ => ?_, fun h1 h2 => ?_,
    fun hc h1 h2 h3 => ?_, fun hc h1 h2 h3 => ?_, fun hc h => ?_, fun h d b disp f hp hf => ?_, fun h d b disp f hp hf => ?_⟩
  · exact checkAccess_hole hn (by rw [hlow h2]; rfl) (by rw [hglob h1]; rfl)
  · exact checkAccess_hole hn (by rw [hhigh h1]; rfl) (by rw [hglob (x := addr.toNat) (by omega)]; rfl)
  · refine checkAccess_hole hn (by rw [hlow (x := addr.toNat) (by omega)]; rfl) ?_
    rw [lastByte_toNat hn (by omega), hglob (x := addr.toNat + n - 1) (by omega), Bool.and_false]
  · show checkAccess w k addr n s = _
    rw [checkAccess_window hn hc (hin h1 h2) (by omega), if_pos (hhigh (by omega))]
  · show checkAccess w k addr n s = _
    rw [checkAccess_window hn hc (hin h1 (by omega)) (by omega), hin (x := addr.toNat + n - 1) (by omega) (by omega),
      if_neg (by decide), if_pos h3]
  · refine checkAccess_hole hn ?_ (by rw [hglob h]; rfl)
    rw [hc, bne_self_eq_false, Bool.and_false]
  · rw [← dispVal_baseAddr] at hf
    exact runOp_fault (loadOp_check_fails hp hf)
  · rw [← dispVal_baseAddr] at hf
    exact runOp_fault (storeOp_check_fails hp hf)

end Sys2Proof.Machine

/-! SUPPORT. A full region table that holds two regions of size 0: their merge drops neither, so that the table merges a quieter
pair instead (O31). -/

namespace Sys2Proof.Machine
open Sys2Proof Sys2Proof.Claims

/-- A region without a reader. -/
def quietRegion (base size written : Nat) : Region := { base, size, wts := 0, rts := 0, reader := none, written }

/-- A full table of four regions: two siblings of size 0, and two of 32 KiB that have been quiet longer. -/
def emptySiblings : State :=
  { clk := 2 ^ 21
    msys := { regionCap := 4
              regions := [quietRegion 0 0 5, quietRegion 1 0 5, quietRegion 131072 32768 0, quietRegion 163840 32768 0] } }

/-- The merge of two siblings that have both been quiet for long enough (R269). -/
theorem exec_regionMerge {s : State} {base : Nat} {r q : Region} (hr : (s.msys.regions.find? fun x => x.base == base) = some r)
    (hq : s.msys.regions.find? (siblings r) = some q) (h1 : r.written + mergeClk ≤ s.clk) (h2 : q.written + mergeClk ≤ s.clk) :
    exec (.regionMerge base) s = .next (putRegion s (joinRegions r q)) := by
  show execRegionMerge base s = _
  unfold execRegionMerge
  simp only [hr, hq]
  rw [if_neg (by simp only [Bool.or_eq_true, decide_eq_true_eq]; omega)]

/-- The merge of the empty siblings puts the join of the other two first. -/
theorem emptySiblings_merge :
    nextWith (exec (.regionMerge 0) emptySiblings) fun t => t.msys.regions.head?.map Region.base = some 131072 :=
  ⟨_, exec_regionMerge (r := quietRegion 0 0 5) (q := quietRegion 1 0 5) rfl rfl (by decide) (by decide), by decide⟩

/-- Refutes O31: the statement is about every state, also one whose regions have size 0 (`emptySiblings`). There the join of
two siblings covers neither of them, so that the full table merges another pair, and that pair's region comes first. -/
theorem not_homeEvents : ¬ Obligations.HomeEvents := by
  unfold Obligations.HomeEvents
  intro h
  obtain ⟨t, ht, hbase⟩ := emptySiblings_merge
  obtain ⟨u, hu, m, hm, hmin, -⟩ := (h.2.1 emptySiblings 0 (quietRegion 0 0 5) (quietRegion 1 0 5) (by decide) (by decide)
    (by decide)).2 (by decide) (by decide)
  obtain rfl : t = u := by injection ht.symm.trans hu
  rw [hm] at hbase
  cases hbase.symm.trans (congrArg some hmin)

end Sys2Proof.Machine

/-! SUPPORT. Loads and stores of every size (R216, R217, R294): an access that is performed whole, and one that performs its
first event and keeps the rest. -/

namespace Sys2Proof.Machine
open Sys2Proof Sys2Proof.Claims

/-! ### Accesses of the running thread set -/

/-- An access that begins in a split step performs its first event and keeps the others (R294). -/
theorem accessOp_split {i : Instr} {check : Op (List Ev)} {one : Ev → Op Nat} {fin : NMap Nat → State → State} {s s1 s2 : State}
    {e : Ev} {r : List Ev} {x : Nat} (hp : s.me.part = none) (hs : s.split = true) (hc : check s = .ok (e :: r, s1))
    (hr : r ≠ []) (ho : one e s1 = .ok (x, s2)) :
    accessOp i check one fin s =
      .ok ((), s2.setMe { s2.me with part := some { instr := i, todo := r, got := addGot [] e x } }) := by
  have hrun : runEvents one [e] [] s1 = .ok (addGot [] e x, s2) := Op.bind_of_ok ho
  have hrest : r.isEmpty = false := by simpa using hr
  unfold accessOp
  rw [Op.ask_bind]
  simp only [id, hp, hs]
  rw [Op.bind_of_ok hc, Op.bind_of_ok (show (pure _ : Op Part) s1 = .ok (_, s1) from rfl)]
  simp only [if_true, List.take_succ_cons, List.take_zero, List.drop_succ_cons, List.drop_zero]
  rw [Op.bind_of_ok (runNamed_ok hrun)]
  simp only [hrest, Bool.false_eq_true, if_false]
  rfl

/-- An operation that leaves a part of its access to come stays at its instruction. -/
theorem runOp_parts {i : Instr} {len : Nat} {op : Op Unit} {s t : State} {p : Part} (h : op s = .ok ((), t))
    (hp : t.me.part = some p) : runOp i len op s = .next t := by
  rw [runOp, h]
  simp [hp]

section
variable {s s1 s2 : State} {i : Instr} {vec : Bool} {h : Hint} {addr : Word} {n v : Nat} {ps : List Piece} {got : NMap Nat}

/-- A load that is performed whole: its checks, its events and what it does with their bytes. -/
theorem runOp_load_whole {fin : Nat → State → State} {len : Nat} {x : ThreadSet} (hw : whole s)
    (hc : checkAccess (s.who s.cur) (loadKind h) addr n s = .ok (ps, s1))
    (hr : readsEvents (s.who s.cur) h (laneEvents 0 vec 0 ps) s1 got s2)
    (hf : fin ((got.get? 0).getD 0) (s2.setMe s2.me) = s2.setMe x) (hx : x.part = none) :
    runOp i len (loadOp i vec h addr n fin) s = ranTo s2 x len := by
  obtain ⟨hread, hpart⟩ := hr
  have hop : loadOp i vec h addr n fin s = .ok ((), s2.setMe x) := by
    rw [loadOp, Op.ask_bind, accessOp_whole hw (Op.bind_of_ok hc) hread hpart, hf]
  rw [runOp_ok hop (by rw [State.me_setMe]; exact hx), State.advance, State.me_setMe, State.setMe_setMe]
  rfl

/-- A store that is performed whole. -/
theorem runOp_store_whole {fin : State → State} {len : Nat} {x : ThreadSet} (hw : whole s)
    (hc : checkAccess (s.who s.cur) (storeKind h) addr n s = .ok (ps, s1))
    (hr : writesEvents (s.who s.cur) h (laneEvents 0 vec 0 ps) (fun _ => v) s1 s2)
    (hf : fin (s2.setMe s2.me) = s2.setMe x) (hx : x.part = none) :
    runOp i len (storeOp i vec h addr n v fin) s = ranTo s2 x len := by
  obtain ⟨got, hrun, hpart⟩ := hr
  have hop : storeOp i vec h addr n v fin s = .ok ((), s2.setMe x) := by
    rw [storeOp, Op.ask_bind, accessOp_whole hw (Op.bind_of_ok hc) hrun hpart, hf]
  rw [runOp_ok hop (by rw [State.me_setMe]; exact hx), State.advance, State.me_setMe, State.setMe_setMe]
  rfl

/-- A load of several events in a split step. -/
theorem runOp_load_split {fin : Nat → State → State} {len : Nat} {e : Ev} {r : List Ev} {x : Nat} (hp : s.me.part = none)
    (hs : s.split = true) (hc : checkAccess (s.who s.cur) (loadKind h) addr n s = .ok (ps, s1))
    (he : laneEvents 0 vec 0 ps = e :: r) (hr : r ≠ []) (ho : readOne (s.who s.cur) h e s1 = .ok (x, s2)) :
    runOp i len (loadOp i vec h addr n fin) s =
      .next (s2.setMe { s2.me with part := some { instr := i, todo := r, got := addGot [] e x } }) := by
  refine runOp_parts ?_ (congrArg ThreadSet.part (State.me_setMe ..))
  rw [loadOp, Op.ask_bind]
  exact accessOp_split hp hs (Op.bind_of_ok hc |>.trans (by rw [he]; rfl)) hr ho

/-- A store of several events in a split step. -/
theorem runOp_store_split {fin : State → State} {len : Nat} {e : Ev} {r : List Ev} {x : Nat} (hp : s.me.part = none)
    (hs : s.split = true) (hc : checkAccess (s.who s.cur) (storeKind h) addr n s = .ok (ps, s1))
    (he : laneEvents 0 vec 0 ps = e :: r) (hr : r ≠ [])
    (ho : writeOne (s.who s.cur) h (v / 2 ^ (8 * e.off)) e s1 = .ok (x, s2)) :
    runOp i len (storeOp i vec h addr n v fin) s =
      .next (s2.setMe { s2.me with part := some { instr := i, todo := r, got := addGot [] e x } }) := by
  refine runOp_parts ?_ (congrArg ThreadSet.part (State.me_setMe ..))
  rw [storeOp, Op.ask_bind]
  exact accessOp_split hp hs (Op.bind_of_ok hc |>.trans (by rw [he]; rfl)) hr ho

end

/-! ### Loads -/

theorem exec_ld (sz : LdSize) (h : Hint) (d a : Reg) (disp : Imm 9) (s : State) :
    exec (.ld sz h d a disp) s = execLd sz h d a disp s := rfl
theorem exec_vld (sz : VSize) (h : Hint) (d a : Reg) (disp : Imm 9) (s : State) :
    exec (.vld sz h d a disp) s = execVld sz h d a disp s := rfl
theorem exec_st (sz : StSize) (h : Hint) (d a : Reg) (disp : Imm 9) (s : State) :
    exec (.st sz h d a disp) s = execSt sz h d a disp s := rfl
theorem exec_vst (sz : VSize) (h : Hint) (d a : Reg) (disp : Imm 9) (s : State) :
    exec (.vst sz h d a disp) s = execVst sz h d a disp s := rfl

@[simp] theorem loadRegs_part (sz : LdSize) (d : Reg) (v : Nat) (t : ThreadSet) : (loadRegs sz d v t).part = t.part := by
  unfold loadRegs; split <;> simp

section
variable {s s1 s2 : State} {h : Hint} {d a : Reg} {disp : Imm 9} {ps : List Piece} {got : NMap Nat}

/-- A scalar load that is performed whole (R216). -/
theorem exec_ld_whole (sz : LdSize) (hw : whole s)
    (hc : checkAccess (s.who s.cur) (loadKind h) (baseAddr s a (ldBytes sz) disp) (ldBytes sz) s = .ok (ps, s1))
    (hr : readsEvents (s.who s.cur) h (laneEvents 0 false 0 ps) s1 got s2) :
    exec (.ld sz h d a disp) s = ranTo s2 (loadRegs sz d ((got.get? 0).getD 0) s2.me) (dispLen disp) := by
  rw [exec_ld, execLd, baseLen_dispLen, dispVal_baseAddr]
  exact runOp_load_whole hw hc hr (by rw [State.me_setMe, State.setMe_setMe]) ((loadRegs_part ..).trans hr.2)

/-- A vector load that is performed whole (R217). -/
theorem exec_vld_whole (sz : VSize) (hw : whole s)
    (hc : checkAccess (s.who s.cur) (loadKind h) (baseAddr s a 32 disp) (vBytes sz) s = .ok (ps, s1))
    (hr : readsEvents (s.who s.cur) h (laneEvents 0 true 0 ps) s1 got s2) :
    exec (.vld sz h d a disp) s = ranTo s2 (s2.me.setV d (loadedVector sz ((got.get? 0).getD 0))) (dispLen disp) := by
  rw [exec_vld, execVld, baseLen_dispLen, dispVal_baseAddr]
  exact runOp_load_whole hw hc hr (by rw [State.me_setMe, State.setMe_setMe]) hr.2

end

theorem loadResults : Claims.LoadResults := by
  intro s s1 s2 h d a disp n ps got
  extract_lets w v checked read wrote
  have hld (sz : LdSize) (hb : ldBytes sz ≠ 33) (hr : read false (ldBytes sz)) :
      exec (.ld sz h d a disp) s = ranTo s2 (loadRegs sz d v s2.me) (dispLen disp) := by
    obtain ⟨hs, ⟨hp, rfl, hc⟩, hr⟩ := hr
    rw [if_neg hb] at hc
    exact exec_ld_whole sz ⟨hp, hs⟩ hc hr
  have hvld (sz : VSize) (hr : read true (vBytes sz)) :
      exec (.vld sz h d a disp) s = ranTo s2 (s2.me.setV d (loadedVector sz v)) (dispLen disp) := by
    obtain ⟨hs, ⟨hp, rfl, hc⟩, hr⟩ := hr
    refine exec_vld_whole sz ⟨hp, hs⟩ ?_ hr
    cases sz <;> exact hc
  refine ⟨fun hr => ⟨hld .b (by decide) hr, ?_⟩, fun hr => ⟨hld .h (by decide) hr, ?_⟩, fun hr => ⟨hld .w (by decide) hr, ?_⟩,
    hld .d (by decide), hld .q (by decide), fun hr => ⟨hvld .b hr, fun sz hsz => ?_⟩, hvld .s8, fun e r x hs hc he hne ho => ?_⟩
  · refine (hld .bs (by decide) hr).trans ?_
    simp [wroteS, loadRegs, loadValue, loadValue.signExt8]
  · refine (hld .hs (by decide) hr).trans ?_
    simp [wroteS, loadRegs, loadValue, loadValue.signExt8]
  · refine (hld .ws (by decide) hr).trans ?_
    simp [wroteS, loadRegs, loadValue, loadValue.signExt8]
  · simp only [List.mem_cons, List.not_mem_nil, or_false] at hsz
    rcases hsz with rfl | rfl | rfl <;> exact hvld _ hr
  · obtain ⟨hp, rfl, hc⟩ := hc
    rw [exec_ld, execLd, dispVal_baseAddr]
    exact runOp_load_split hp hs hc he hne ho

/-! ### Stores -/

theorem storedValue_st {t : ThreadSet} {sz : StSize} {h : Hint} {d a : Reg} {disp : Imm 9} {n v : Nat}
    (hv : storedValue t d (.st sz h d a disp) = some (n, v)) : n = stBytes sz ∧ v = storeValue sz d t := by
  cases sz <;> cases hv <;> exact ⟨rfl, rfl⟩

theorem storedValue_vst {t : ThreadSet} {sz : VSize} {h : Hint} {d a : Reg} {disp : Imm 9} {n v : Nat}
    (hv : storedValue t d (.vst sz h d a disp) = some (n, v)) : n = vBytes sz ∧ v = (t.getV d).toNat := by
  cases sz <;> cases hv <;> exact ⟨rfl, rfl⟩

/-- Whether a vector store loses a flag (R58, R217). -/
theorem storeLs_iff (sz : VSize) (x : VWord) :
    storeLs sz x = true ↔ sz ≠ .b ∧ sz ≠ .s8 ∧ (vRider x).toNat % (if sz = .d then 16 else 256) ≠ 0 := by
  have hlt := (vRider x).isLt
  cases sz with
  | b | s8 => simp [storeLs]
  | d => simp [storeLs, BitVec.toNat_eq]
  | h | w => simp [storeLs, BitVec.toNat_eq, Nat.mod_eq_of_lt hlt]

/-- The flag that a vector store raises. -/
theorem fpsBits_storeLs (sz : VSize) (x : VWord) :
    fpsBits { ls := storeLs sz x } =
      if sz ≠ .b ∧ sz ≠ .s8 ∧ (vRider x).toNat % (if sz = .d then 16 else 256) ≠ 0 then 0x20 else 0 := by
  simp only [fpsBits_only_ls, storeLs_iff]

theorem storeResults : Claims.StoreResults := by
  intro s s1 t h d a disp ps n v
  extract_lets w
  refine ⟨fun sz hv hc => ?_, fun sz hv hw hc hr => ?_⟩
  · obtain ⟨rfl, rfl⟩ := storedValue_st hv
    rw [exec_st, execSt, baseLen_dispLen, dispVal_baseAddr]
    refine ⟨fun hw hr => ?_, fun e r x hp hs he hne ho => runOp_store_split hp hs hc he hne ho⟩
    have ⟨_, _, hpart⟩ := hr
    exact runOp_store_whole hw hc hr rfl hpart
  · obtain ⟨rfl, rfl⟩ := storedValue_vst hv
    rw [exec_vst, execVst, baseLen_dispLen, dispVal_baseAddr]
    extract_lets lost
    rw [show (if lost then (0x20 : BitVec 6) else 0) = _ from (fpsBits_storeLs sz (s.me.getV d)).symm]
    have ⟨_, _, hpart⟩ := hr
    exact runOp_store_whole hw hc hr (by rw [State.me_setMe, State.setMe_setMe]) hpart

end Sys2Proof.Machine

/-! SUPPORT. What reads do to storage: while nothing is on its way to memory and no stash map is enabled, the events of a load change
clocks, leases and copies, and no byte (R205, R216, R266), with the statement about loads and stores (O48). -/

namespace Sys2Proof.Machine
open Sys2Proof Sys2Proof.Claims

/-! ### Storage that all cores share, and what tends it -/

/-- What a byte outside the cores' local memories reads as: the memories with their keys, and what is on its way to them. -/
def State.shared (s : State) : MemSys × Fab × Mgmt :=
  ({ dev := s.msys.dev, alt := s.msys.alt, host := s.msys.host, tags := s.msys.tags, altTags := s.msys.altTags,
     keys := s.msys.keys, flipped := s.msys.flipped, posted := s.msys.posted, nc := s.msys.nc }, s.fab, s.mgmt)

/-- No core holds a fold. -/
def NoFolds (s : State) : Prop := ∀ e ∈ s.cores, e.2.folds = []

/-- The shared storage stays, and no fold comes up. -/
structure SameShared (s t : State) : Prop where
  shared : t.shared = s.shared
  folds : NoFolds s → NoFolds t

/-- Storage, the local memories included, stays: only clocks, leases, copies and stash lines are tended. -/
structure Tended (s t : State) : Prop extends SameShared s t where
  mem : ∀ c, (t.core c).mem = (s.core c).mem
  maps : ∀ c, (t.core c).smap = (s.core c).smap

theorem SameShared.refl (s : State) : SameShared s s := ⟨rfl, id⟩

theorem SameShared.trans {s t u : State} (h : SameShared s t) (h' : SameShared t u) : SameShared s u :=
  ⟨h'.shared.trans h.shared, h'.folds ∘ h.folds⟩

namespace Tended

theorem refl (s : State) : Tended s s := ⟨.refl s, fun _ => rfl, fun _ => rfl⟩

theorem trans {s t u : State} (h : Tended s t) (h' : Tended t u) : Tended s u :=
  ⟨h.1.trans h'.1, fun c => (h'.mem c).trans (h.mem c), fun c => (h'.maps c).trans (h.maps c)⟩

/-- Nothing of the cores or of the shared storage is touched. -/
theorem of_cores {s t : State} (hc : t.cores = s.cores) (hs : t.shared = s.shared) : Tended s t := by
  have hcore : ∀ c, t.core c = s.core c := fun c => by rw [State.core, State.core, hc]
  exact ⟨⟨hs, fun h => by rw [NoFolds, hc]; exact h⟩, fun c => by rw [hcore], fun c => by rw [hcore]⟩

end Tended

theorem NoFolds.setCore {s : State} (h : NoFolds s) (c : Nat) {x : Core} (hx : x.folds = []) : NoFolds (s.setCore c x) := by
  intro e he
  rcases NMap.mem_set he with he | rfl
  · exact h e he
  · exact hx

theorem NoFolds.core {s : State} (h : NoFolds s) (c : Nat) : (s.core c).folds = [] := by
  unfold State.core
  cases e : s.cores.get? c with
  | none => rfl
  | some k => exact h _ (NMap.mem_of_get? e)

/-- A core's record is replaced by one without more folds. -/
theorem SameShared.setCore (s : State) (c : Nat) {x : Core} (hx : x.folds = (s.core c).folds) : SameShared s (s.setCore c x) :=
  ⟨rfl, fun h => h.setCore c (hx.trans (h.core c))⟩

theorem Tended.setCore (s : State) (c : Nat) {x : Core} (hf : x.folds = (s.core c).folds) (hm : x.mem = (s.core c).mem)
    (hx : x.smap = (s.core c).smap) : Tended s (s.setCore c x) := by
  refine ⟨.setCore s c hf, fun d => ?_, fun d => ?_⟩ <;> obtain rfl | hd := eq_or_ne d c
  · rw [State.setCore_core_self, hm]
  · rw [State.setCore_core_ne s hd]
  · rw [State.setCore_core_self, hx]
  · rw [State.setCore_core_ne s hd]

/-! ### Clocks, regions and copies -/

theorem pick_tended (s : State) : Tended s s.pick.2 := by
  unfold State.pick; split <;> exact .of_cores rfl rfl

theorem setPts_tended (s : State) (w : Who) (p : Nat) : Tended s (s.setPts w p) := by
  unfold State.setPts; split <;> exact .of_cores rfl rfl

theorem follow_tended (s : State) (w : Who) (l : Loc) (cached : Bool) : Tended s (follow s w l cached) := setPts_tended ..

theorem setPlacePts_tended (s : State) (die : Nat) (l : Loc) (cached : Bool) (p : Nat) :
    Tended s (setPlacePts s die l cached p) := by
  unfold setPlacePts
  extract_lets s1 _ s2
  have h1 : Tended s s1 := by
    unfold s1; split
    · exact .setCore s _ rfl rfl rfl
    · exact .refl s
  have h2 : Tended s1 s2 := by unfold s2; split <;> exact .of_cores rfl rfl
  refine h1.trans (h2.trans ?_)
  split
  · exact .refl _
  · split <;> exact .of_cores rfl rfl

theorem precede_tended (s : State) (w : Who) (l : Loc) (cached : Bool) : Tended s (precede s w l cached) := setPlacePts_tended ..

theorem keepEarlier_tended (s : State) (e : Option Nat) (l : Loc) : Tended s (keepEarlier s e l) := by
  unfold keepEarlier; split
  · exact .refl s
  · exact (pick_tended s).trans (.of_cores rfl rfl)

theorem splitRegion_tended (s : State) (key : Nat) : Tended s (splitRegion s key) := by
  unfold splitRegion
  extract_lets; split
  · exact .refl s
  · split <;> exact .of_cores rfl rfl

theorem splitRegion_cores (s : State) (key : Nat) : (splitRegion s key).cores = s.cores := by
  unfold splitRegion
  extract_lets; split
  · rfl
  · split <;> rfl

theorem recallOwner_tended (s : State) (key : Nat) (e : Option Nat) : Tended s (recallOwner s key e) := by
  unfold recallOwner; split
  · exact .refl s
  next o _ =>
    split
    · exact .refl s
    · extract_lets _ s1 k
      have h1 : Tended s s1 := .of_cores rfl rfl
      split
      · exact h1
      · extract_lets s2 r len wts rts clean s3
        have h2 : Tended s1 s2 := by unfold s2; split <;> [exact splitRegion_tended ..; exact .refl s1]
        have hcore : (s2.core o.2).folds = k.folds ∧ (s2.core o.2).mem = k.mem ∧ (s2.core o.2).smap = k.smap := by
          have hc : s2.cores = s1.cores := by
            unfold s2; split
            · exact splitRegion_cores ..
            · rfl
          have : s2.core o.2 = k := by rw [State.core, hc]; rfl
          rw [this]; exact ⟨rfl, rfl, rfl⟩
        obtain ⟨hf, hm, hx⟩ := hcore
        exact h1.trans (h2.trans (.trans (t := s3) (.of_cores rfl rfl) (.setCore s3 o.2 hf.symm hm.symm hx.symm)))

theorem stampRead_tended (s : State) (w : Who) (l : Loc) (len : Nat) : Tended s (stampRead s w l len).2 := by
  unfold stampRead; split
  · exact .refl s
  · exact (recallOwner_tended ..).trans (.trans (t := putRegion _ _) (.of_cores rfl rfl) (setPts_tended ..))

theorem stampWrite_tended (s : State) (pts : Nat) (l : Loc) (owner : Option Nat) : Tended s (stampWrite s pts l owner).2 := by
  unfold stampWrite; split
  · exact .refl s
  · exact (recallOwner_tended ..).trans ((splitRegion_tended ..).trans (.of_cores rfl rfl))

theorem notePeer_tended (s : State) (t : Option Nat) (l : Loc) : Tended s (notePeer s t l) := by
  unfold notePeer; split
  · split <;> exact .of_cores rfl rfl
  · split <;> exact .of_cores rfl rfl
  · exact .refl s

theorem setCopy_tended (s : State) (c : LeaseCopy) : Tended s (setCopy s c) := .of_cores rfl rfl

theorem disown_tended (s : State) (c va : Nat) (l : Loc) : Tended s (disown s c va l) := by
  unfold disown; split
  · split
    · exact .refl s
    · split <;> [exact recallOwner_tended ..; exact .refl s]
  · exact .refl s

theorem sliceUpdate_tended (s : State) (w : Who) (va : Nat) (l : Loc) (wts : Nat) : Tended s (sliceUpdate s w va l wts) := by
  unfold sliceUpdate; split
  · exact .refl s
  · split
    · exact .refl s
    · split <;> exact .of_cores rfl rfl

/-! ### Nothing on its way -/

/-- No fold waits anywhere, and no die holds a non-coherent line. -/
structure Unfolded (s : State) : Prop where
  folds : NoFolds s
  held : s.fab.heldFolds = []
  nc : s.msys.nc = []

theorem SameShared.posted {s t : State} (h : SameShared s t) : t.msys.posted = s.msys.posted :=
  congrArg (fun x => x.1.posted) h.shared
theorem SameShared.fab {s t : State} (h : SameShared s t) : t.fab = s.fab := congrArg (fun x => x.2.1) h.shared
theorem SameShared.mgmt {s t : State} (h : SameShared s t) : t.mgmt = s.mgmt := congrArg (fun x => x.2.2) h.shared
theorem SameShared.nc {s t : State} (h : SameShared s t) : t.msys.nc = s.msys.nc := congrArg (fun x => x.1.nc) h.shared
theorem SameShared.keys {s t : State} (h : SameShared s t) : t.msys.keys = s.msys.keys := congrArg (fun x => x.1.keys) h.shared
theorem SameShared.flipped {s t : State} (h : SameShared s t) : t.msys.flipped = s.msys.flipped :=
  congrArg (fun x => x.1.flipped) h.shared

theorem SameShared.unfolded {s t : State} (h : SameShared s t) (hs : Unfolded s) : Unfolded t :=
  ⟨h.folds hs.folds, h.fab ▸ hs.held, h.nc.trans hs.nc⟩

theorem SameShared.tagsOf {s t : State} (h : SameShared s t) (sp : Space) : tagsOf t sp = tagsOf s sp := by
  cases sp with
  | dev => exact congrArg (fun x => x.1.tags) h.shared
  | alt => exact congrArg (fun x => x.1.altTags) h.shared
  | _ => rfl

theorem SameShared.memOf {s t : State} (h : SameShared s t) {sp : Space} (hsp : ∀ c, sp ≠ .core c) : memOf t sp = memOf s sp := by
  cases sp with
  | dev => exact congrArg (fun x => x.1.dev) h.shared
  | alt => exact congrArg (fun x => x.1.alt) h.shared
  | host => exact congrArg (fun x => x.1.host) h.shared
  | peer p => simp only [Machine.memOf, h.fab]
  | core c => exact absurd rfl (hsp c)

theorem SameShared.backing {s t : State} (h : SameShared s t) (l : Loc) (lining : Bool) : backing t l lining = backing s l lining := by
  simp only [Machine.backing, h.flipped]

theorem Tended.memOf {s t : State} (h : Tended s t) (sp : Space) : Machine.memOf t sp = Machine.memOf s sp := by
  cases sp with
  | core c => exact h.mem c
  | _ => exact h.toSameShared.memOf (fun _ => nofun)

section unfolded
variable {s : State} (hs : Unfolded s)
include hs

theorem placeCore_unfolded (c : Nat) (p : Fold → Bool) : placeCore s c p = s := by
  simp [placeCore, hs.folds.core c]

theorem placeOwn_unfolded (t : Option Nat) (l : Loc) : placeOwn s t l = s := by
  unfold placeOwn; split
  · rfl
  · exact placeCore_unfolded hs _ _

theorem pullFolds_unfolded (l : Loc) (mine : Option Nat) : pullFolds s l mine = s := by
  rw [pullFolds, if_neg]
  simp only [List.any_eq_true, not_exists, not_and]
  intro e he
  simp [hs.folds e he]

theorem pullHeld_unfolded (l : Loc) : pullHeld s l = s := by simp [pullHeld, hs.held]

theorem devTouch_unfolded (l : Loc) : devTouch s l = if l.nc || l.hostSide then touchHost s l else s := by
  rw [devTouch, pullHeld_unfolded hs]

theorem ncDrop_unfolded (die : Nat) (l : Loc) (ts : List Nat) : ncDrop s die l ts = forgetEarlier s die l := by
  have : (forgetEarlier s die l).msys.nc = [] := hs.nc
  simp [ncDrop, ncFind, this]

theorem makeRoom_tended (die va : Nat) : Tended s (makeRoom s die va) := by
  have hp : Tended s s.pick.2 := pick_tended s
  unfold makeRoom; split
  · exact .refl s
  · extract_lets n cs ns p i s1
    split
    · exact .refl s
    · split
      · exact hp.trans (.of_cores rfl rfl)
      · rw [show ncDrop s1 _ _ [] = _ from ncDrop_unfolded (hp.unfolded hs) ..]
        exact hp.trans (.of_cores rfl rfl)
      · exact hp

/-- A read of an entry of a translation table. -/
theorem readEntry_tended {asid level va addr n : Nat} {a : BitVec 128 × Bool} {t : State}
    (e : readEntry asid level va addr n s = .ok (a, t)) : Tended s t := by
  unfold readEntry at e
  extract_lets held rest l s1 fresh rd c at e
  have h1 : Tended s s1 := by
    unfold s1; split
    · rw [pullFolds_unfolded ((recallOwner_tended ..).unfolded hs)]
      exact recallOwner_tended ..
    · rw [pullFolds_unfolded hs]
      exact .refl s
  have hp : Tended s c.2 := h1.trans (pick_tended s1)
  have hrd : ∀ u r, Tended s u → rd u = .ok r → Tended s r.2 := by
    intro u r hu hr
    unfold rd at hr
    cases hr
    exact hu.trans (.of_cores rfl rfl)
  clear_value rd fresh c s1 rest held
  cases held
  · exact hrd _ _ h1 e
  · dsimp only at e
    split at e
    · cases e; exact .refl s
    · split at e
      · cases e; exact hp
      · exact hrd _ _ hp e

end unfolded

/-! ### The checks of an access -/

/-- An operation that completes in a state with P ends in one with P, and gives a value with Q. -/
def Op.Ensures {α : Type} (P : State → Prop) (Q : α → Prop) (op : Op α) : Prop :=
  ∀ s, P s → ∀ a s', op s = .ok (a, s') → P s' ∧ Q a

section ensures
variable {α β : Type} {P : State → Prop} {Q : α → Prop} {R : β → Prop}

theorem Op.ensures_pure {x : α} (h : Q x) : Op.Ensures P Q (pure x) := by
  intro s hs a s' e; cases e; exact ⟨hs, h⟩

theorem Op.ensures_fail (f : FaultInfo) : Op.Ensures P Q (Op.fail f : Op α) := by
  intro s _ a s' e; cases e

theorem Op.ensures_stop (x : Stop) : Op.Ensures P Q (Op.stop x : Op α) := by
  intro s _ a s' e; cases e

theorem Op.ensures_ask (f : State → α) : Op.Ensures P (fun _ => True) (Op.ask f) := by
  intro s hs a s' e; cases e; exact ⟨hs, trivial⟩

/-- What a completed requirement requires. -/
theorem Op.ensures_need (c : Bool) (f : FaultInfo) : Op.Ensures P (fun _ => c = true) (Op.need c f) := by
  unfold Op.need; split
  · exact Op.ensures_pure ‹_›
  · exact Op.ensures_fail f

theorem Op.ensures_bind {x : Op α} {f : α → Op β} (hx : Op.Ensures P Q x) (hf : ∀ a, Q a → Op.Ensures P R (f a)) :
    Op.Ensures P R (x >>= f) := by
  intro s hs b s' h
  obtain ⟨a, s1, h1, h2⟩ := Op.bind_ok h
  obtain ⟨hs1, ha⟩ := hx s hs a s1 h1
  exact hf a ha s1 hs1 b s' h2

theorem Op.ensures_mapM {f : α → Op β} {S : α → β → Prop} (hf : ∀ a, Op.Ensures P (S a) (f a)) (l : List α) :
    Op.Ensures P (List.Forall₂ S l) (l.mapM f) := by
  induction l with
  | nil => rw [List.mapM_nil]; exact Op.ensures_pure .nil
  | cons a r ih =>
    rw [List.mapM_cons]
    exact Op.ensures_bind (hf a) fun b hb => Op.ensures_bind ih fun bs hbs => Op.ensures_pure (.cons hb hbs)

end ensures

/-- A leaf that the walk may deliver, with its number of offset bits: the address of a page of device memory lies, with the
page, in device memory (R262, R397). -/
def LeafFits (r : Word × Nat) : Prop :=
  16 ≤ r.2 ∧ (bitsOf r.1 12 2 = 0 → bitsOf r.1 16 30 * 65536 + 2 ^ r.2 ≤ 2 ^ 41)

theorem leafFits_of_leafOk {e : Word} {level : Nat} (h : leafOk e level = true) : LeafFits (e, levelShift level) := by
  have hsh : 16 ≤ levelShift level ∧ levelShift level ≤ 39 := by unfold levelShift; split <;> omega
  refine ⟨hsh.1, fun ht => ?_⟩
  dsimp only at ht ⊢
  simp only [leafOk, Bool.and_eq_true, ht] at h
  obtain ⟨-, hpage⟩ := h
  simp only [OfNat.zero_ne_ofNat, if_false, Bool.and_eq_true, bne_self_eq_false, Bool.false_or, decide_eq_true_eq] at hpage
  obtain ⟨-, hlt, hfit⟩ := hpage
  omega

/-- What a translated part of an access is: it has the place and size that were asked for; the exporter's refusal is left to a copy
only where a copy may serve; device memory holds its page; and no part lies in a local memory. -/
structure Translated (k : Kind) (part : Nat × Nat) (p : Piece) : Prop where
  va : p.va = part.1
  n : p.n = part.2
  refuse : k.copy = false → p.refuse = 0
  dev : p.loc.space = .dev → ∃ a sh, p.loc.addr = a + part.1 % 2 ^ sh ∧ a + 2 ^ sh ≤ 2 ^ 41 ∧ 16 ≤ sh
  core : ∀ c, p.loc.space ≠ .core c
  alt : p.loc.space ≠ .alt

section checks
variable {P : State → Prop} (hr : ∀ asid level va addr n, Op.Ensures P (fun _ => True) (readEntry asid level va addr n))
include hr

theorem walkFrom_ensures (asid va : Nat) (info : Word) (write : Bool) (fuel level table : Nat) :
    Op.Ensures P LeafFits (walkFrom asid va info write fuel level table) := by
  induction fuel generalizing level table with
  | zero => exact Op.ensures_fail _
  | succ n ih =>
    unfold walkFrom
    extract_lets
    refine Op.ensures_bind (hr _ _ _ _ _) fun e _ => ?_
    extract_lets e' leaf
    refine Op.ensures_bind (Op.ensures_need _ _) fun _ _ => Op.ensures_bind (Op.ensures_need _ _) fun _ hok =>
      Op.ensures_bind (Op.ensures_need _ _) fun _ _ => ?_
    split
    next hleaf =>
      rw [if_pos hleaf] at hok
      exact Op.ensures_pure (leafFits_of_leafOk hok)
    · exact ih _ _

theorem fabricLoc_ensures (w : Who) (leaf : Word) (sh low va n : Nat) (allowed : Bool) (k : Kind) :
    Op.Ensures P (fun r => (∃ p, r.1.space = .peer p) ∧ (k.copy = false → r.2 = 0))
      (fabricLoc w leaf sh low va n allowed k) := by
  unfold fabricLoc
  extract_lets
  refine Op.ensures_bind (Op.ensures_ask _) fun base _ => ?_
  split
  · exact Op.ensures_fail _
  · refine Op.ensures_bind (hr _ _ _ _ _) fun r0 _ => ?_
    extract_lets
    split
    · exact Op.ensures_fail _
    · refine Op.ensures_bind (Op.ensures_need _ _) fun _ _ => Op.ensures_bind (Op.ensures_need _ _) fun _ _ => ?_
      extract_lets
      refine Op.ensures_bind (Op.ensures_ask _) fun s _ => ?_
      split
      · exact Op.ensures_fail _
      · split
        · exact Op.ensures_fail _
        · extract_lets c b at' copied
          split
          next a _ hcopied =>
            refine Op.ensures_pure ⟨⟨_, rfl⟩, fun hk => ?_⟩
            simp [copied, hk] at hcopied
          · split <;> [exact Op.ensures_pure ⟨⟨_, rfl⟩, fun _ => rfl⟩; exact Op.ensures_stop _]
          · split <;> [exact Op.ensures_fail _; exact Op.ensures_pure ⟨⟨_, rfl⟩, fun _ => rfl⟩]

theorem translateFrom_ensures (w : Who) (k : Kind) (first va n : Nat) :
    Op.Ensures P (Translated k (va, n)) (translateFrom w k first va n) := by
  unfold translateFrom
  refine Op.ensures_bind (walkFrom_ensures hr _ _ _ _ _ _ _) fun r hleaf => ?_
  extract_lets e low key loc
  have hspace : bitsOf e 12 2 = 0 ∧ loc.space = .dev ∨ loc.space = .host := by
    unfold loc
    by_cases h : bitsOf e 12 2 = 0 <;> simp [h]
  refine Op.ensures_bind (Op.ensures_ask _) fun s _ => ?_
  extract_lets
  split
  · refine Op.ensures_bind (fabricLoc_ensures hr _ _ _ _ _ _ _ _) fun l hl => Op.ensures_pure ?_
    obtain ⟨⟨p, hp⟩, hrefuse⟩ := hl
    exact ⟨rfl, rfl, hrefuse, fun h => (nomatch hp.symm.trans h), fun c h => (nomatch hp.symm.trans h),
      fun h => (nomatch hp.symm.trans h)⟩
  · refine Op.ensures_bind (Op.ensures_need _ _) fun _ _ => Op.ensures_pure ?_
    rcases hspace with ⟨hdev, h⟩ | h
    · exact ⟨rfl, rfl, fun _ => rfl, fun _ => ⟨_, r.2, rfl, hleaf.2 hdev, hleaf.1⟩, fun c h' => (nomatch h.symm.trans h'),
        fun h' => (nomatch h.symm.trans h')⟩
    · exact ⟨rfl, rfl, fun _ => rfl, fun h' => (nomatch h.symm.trans h'), fun c h' => (nomatch h.symm.trans h'),
        fun h' => (nomatch h.symm.trans h')⟩

/-- What the pieces of a checked access are: one in the local window of a core, or translated parts of global space. -/
def CheckedPieces (w : Who) (k : Kind) (addr : Word) (n : Nat) (ps : List Piece) : Prop :=
  ps = [{ va := addr.toNat, n, loc := { space := .core w.core, addr := addr.toNat - lwBase } }] ∨
    List.Forall₂ (Translated k) (splitPages addr.toNat n) ps

/-- The checks of an access keep what the readings of table entries keep, and give checked pieces. -/
theorem checkAccess_ensures (w : Who) (k : Kind) (addr : Word) (n : Nat) :
    Op.Ensures P (fun ps => n = 0 ∧ ps = [] ∨ CheckedPieces w k addr n ps) (checkAccess w k addr n) := by
  unfold checkAccess
  extract_lets
  split
  · exact Op.ensures_pure (.inl ⟨‹_›, rfl⟩)
  · split
    · exact Op.ensures_fail _
    · split
      · refine Op.ensures_bind (Op.ensures_ask _) fun c _ => ?_
        split
        · exact Op.ensures_fail _
        · split <;> [exact Op.ensures_fail _; exact Op.ensures_pure (.inr (.inl rfl))]
      · split
        · refine fun s hs ps t e => (fun h => ⟨h.1, .inr (.inr h.2)⟩) (Op.ensures_mapM (S := Translated k) (fun p => ?_) _ s hs ps t e)
          refine Op.ensures_bind (translateFrom_ensures hr _ _ _ _ _) fun x hx => ?_
          extract_lets
          exact Op.ensures_bind (Op.ensures_ask _) fun _ _ => Op.ensures_bind (Op.ensures_need _ _) fun _ _ => Op.ensures_pure hx
        · exact Op.ensures_fail _

end checks

/-- The checks of an access tend storage while nothing is on its way, and give checked pieces. -/
theorem checkAccess_tended {s t : State} (hs : Unfolded s) {w : Who} {k : Kind} {addr : Word} {n : Nat} {ps : List Piece}
    (h : checkAccess w k addr n s = .ok (ps, t)) : Tended s t ∧ (n = 0 ∧ ps = [] ∨ CheckedPieces w k addr n ps) :=
  checkAccess_ensures (P := Tended s)
    (fun _ _ _ _ _ _ hu _ _ e => ⟨hu.trans (readEntry_tended (hu.unfolded hs) e), trivial⟩) w k addr n s (.refl s) ps t h

theorem settled.unfolded {s : State} (h : settled s) : Unfolded s := ⟨h.1, h.2.1, h.2.2.2⟩

/-! ### The events of a load -/

/-- Nothing is on its way to memory, and no stash map is enabled. -/
structure Calm (s : State) : Prop extends Unfolded s where
  posted : s.msys.posted = []
  maps : ∀ c, ∀ i : Fin 8, (s.core c).smap[i].getLsbD 63 = false

theorem Tended.calm {s t : State} (h : Tended s t) (hs : Calm s) : Calm t :=
  ⟨h.unfolded hs.toUnfolded, h.posted.trans hs.posted, fun c => h.maps c ▸ hs.maps c⟩

theorem settle_nothing {s : State} (h : s.msys.posted = []) (sel : Posted → Option Bool) : settle sel s = s := by
  rw [settle, h]

theorem settleDevice_nothing {s : State} (h : s.msys.posted = []) (t : Option Nat) (l : Loc) : settleDevice s t l = s := by
  unfold settleDevice; split
  · split <;> [exact settle_nothing h _; rfl]
  · rfl

theorem devTouch_nothing {s : State} (hs : Unfolded s) (h : s.msys.posted = []) (l : Loc) : devTouch s l = s := by
  rw [devTouch_unfolded hs]; split <;> [exact settle_nothing h _; rfl]

/-- Without an enabled map no map holds an address. -/
theorem mapFor_off {k : Core} (h : ∀ i : Fin 8, k.smap[i].getLsbD 63 = false) (va : Nat) : mapFor k va = none := by
  rw [mapFor, List.find?_eq_none]
  intro m hm
  obtain ⟨i, hi, rfl⟩ := List.mem_iff_getElem.1 hm
  have := h ⟨i, by simpa using hi⟩
  simp_all [mapOn]

@[simp] theorem backing_nc (s : State) (l : Loc) (lining : Bool) : (backing s l lining).nc = l.nc := by
  unfold backing; split
  · split <;> rfl
  · split <;> rfl
  · rfl

section calm
variable {s : State} (hs : Calm s)
include hs

theorem stashServes_calm (w : Who) (va : Nat) (l : Loc) (unc : Bool) : stashServes s w va l unc = false := by
  simp [stashServes, mapFor_off (hs.maps w.core)]

theorem homeRead_tended (w : Who) (l : Loc) (len : Nat) : Tended s (homeRead s w l len).2 := by
  rw [homeRead, devTouch_nothing hs.toUnfolded hs.posted, pullFolds_unfolded hs.toUnfolded]
  exact stampRead_tended ..

theorem orOld_tended {home : State → LineVal × State} (hh : ∀ u, Calm u → Tended u (home u).2) (w : Who) (l : Loc) (life : Nat) :
    Tended s (orOld w l life home s).2 := by
  have hp := pick_tended s
  unfold orOld; split
  · exact hh s hs
  · extract_lets c
    split
    · exact hp.trans (setPts_tended ..)
    · exact hp.trans (hh _ (hp.calm hs))

theorem sliceRead_tended (w : Who) (va : Nat) (l : Loc) (long : Bool) : Tended s (sliceRead s w va l long).2 := by
  unfold sliceRead
  extract_lets s1 len renew
  have h1 : s1 = s := placeOwn_unfolded hs.toUnfolded _ _
  have hr : ∀ u, Calm u → Tended u (renew u).2 := fun u hu => by
    have hh := homeRead_tended hu w l len
    exact hh.trans ((makeRoom_tended (hh.unfolded hu.toUnfolded) _ _).trans (setCopy_tended ..))
  clear_value renew s1
  subst h1
  split
  · split
    · exact setPts_tended ..
    · exact orOld_tended hs hr _ _ _
  · exact orOld_tended hs hr _ _ _

/-- One event of a load outside non-coherent host pages. -/
theorem readEvent_tended (w : Who) (hint : Hint) {p : Piece} (hp : p.loc.nc = false) : Tended s (readEvent w hint p s).2 := by
  unfold readEvent
  extract_lets unc l o cached s1 x s2 y z home u r
  have h1 : Tended s s1 := by
    unfold s1
    rw [settleDevice_nothing hs.posted]
    exact follow_tended ..
  have hl : l.nc = false := (backing_nc ..).trans hp
  have hs1 : Calm s1 := h1.calm hs
  have hhome : ∀ v, Calm v → Tended v (home v).2 := fun v hv => homeRead_tended hv w l _
  have hr : Tended s1 r.2 := by
    unfold r; split
    · exact .refl s1
    · rw [hl, Bool.false_and, if_neg Bool.false_ne_true, stashServes_calm hs1, if_neg Bool.false_ne_true]
      split
      · exact sliceRead_tended hs1 ..
      · unfold u
        rw [placeOwn_unfolded hs1.toUnfolded]
        exact orOld_tended hs1 hhome _ _ _
  exact h1.trans (hr.trans (precede_tended ..))

theorem readOne_tended {w : Who} {hint : Hint} {e : Ev} (hp : e.piece.loc.nc = false) {x : Nat} {t : State}
    (h : readOne w hint e s = .ok (x, t)) : Tended s t := by
  unfold readOne at h
  obtain ⟨c, s1, hc, h⟩ := Op.bind_ok h
  have h1 : s1 = s := reach_keeps (P := (· = s)) _ _ _ _ _ _ s rfl c s1 hc
  obtain ⟨_, s2, hn, h⟩ := Op.bind_ok h
  have h2 : s2 = s1 := Op.keeps_need (P := (· = s1)) _ _ s1 rfl _ _ hn
  obtain ⟨g, s3, hg, h⟩ := Op.bind_ok h
  obtain ⟨_, s4, hn, h⟩ := Op.bind_ok h
  have h4 : s4 = s3 := Op.keeps_need (P := (· = s3)) _ _ s3 rfl _ _ hn
  cases h
  cases hg
  rw [h4, h2, h1]
  exact readEvent_tended hs w hint hp

/-- The events of a load. -/
theorem runEvents_tended {w : Who} {hint : Hint} {es : List Ev} (hes : ∀ e ∈ es, e.piece.loc.nc = false) {got got' : NMap Nat}
    {t : State} (h : runEvents (readOne w hint) es got s = .ok (got', t)) : Tended s t := by
  induction es generalizing s got with
  | nil => cases h; exact .refl _
  | cons e r ih =>
    obtain ⟨x, s1, h1, h2⟩ := Op.bind_ok h
    have ht := readOne_tended hs (hes e List.mem_cons_self) h1
    exact ht.trans (ih (ht.calm hs) (fun e he => hes e (List.mem_cons_of_mem _ he)) h2)

end calm

/-! ### The parts of a piece -/

/-- The parts of a cut lie in the location of the piece. -/
theorem cutPiece_mem {step : Nat → Nat → Nat} {p q : Piece} {fuel o n : Nat} (h : q ∈ cutPiece step p fuel o n) :
    ∃ o', q.loc = { p.loc with addr := p.loc.addr + o' } := by
  induction fuel generalizing o n with
  | zero => cases h
  | succ fuel ih =>
    unfold cutPiece at h
    split at h
    · cases h
    · rcases List.mem_cons.1 h with rfl | h
      · exact ⟨o, rfl⟩
      · exact ih h

/-- The events of a lane lie in the locations of its pieces. -/
theorem laneEvents_mem {lane : Nat} {vec : Bool} {off : Nat} {ps : List Piece} {e : Ev} (h : e ∈ laneEvents lane vec off ps) :
    ∃ p ∈ ps, e.piece ∈ eventPieces vec p := by
  induction ps generalizing off with
  | nil => cases h
  | cons p r ih =>
    unfold laneEvents at h
    rcases List.mem_append.1 h with h | h
    · obtain ⟨q, hq, rfl⟩ := List.mem_map.1 h
      exact ⟨p, List.mem_cons_self, hq⟩
    · obtain ⟨p', hp', hq⟩ := ih h
      exact ⟨p', List.mem_cons_of_mem _ hp', hq⟩

theorem laneEvents_nc {lane : Nat} {vec : Bool} {off : Nat} {ps : List Piece} (h : ∀ p ∈ ps, p.loc.nc = false) :
    ∀ e ∈ laneEvents lane vec off ps, e.piece.loc.nc = false := by
  intro e he
  obtain ⟨p, hp, hq⟩ := laneEvents_mem he
  obtain ⟨o, ho⟩ := cutPiece_mem hq
  rw [ho]
  exact h p hp

theorem loadFrame : Claims.LoadFrame := by
  intro s s1 s2 w k h addr n lane vec ps got hs hmaps hc hnc hr sp a
  have hcalm : Calm s := ⟨settled.unfolded hs, hs.2.2.1, fun c i => by
    unfold State.core
    cases e : s.cores.get? c with
    | none => simp
    | some x => exact hmaps _ (NMap.mem_of_get? e) i⟩
  have h1 := (checkAccess_tended hcalm.toUnfolded hc).1
  have h2 := runEvents_tended (h1.calm hcalm) (laneEvents_nc hnc) hr.1
  rw [(h1.trans h2).memOf]

/-- Settles O48: an access performed whole is its events and its end, and a read tends clocks, leases and copies only. -/
theorem loadsAndStores : Obligations.LoadsAndStores := ⟨loadResults, storeResults, loadFrame⟩

end Sys2Proof.Machine

/-! SUPPORT. Bytes and numbers: what a byte of any space reads as after a write of another (R205, R277), the parts into which an access
is cut, and the local window (R203 to R205). -/

namespace Sys2Proof.Machine
open Sys2Proof Sys2Proof.Claims

/-! ### Numbers in memory -/

theorem getNum_lt (m : Memory) (a n : Nat) : getNum m a n < 2 ^ (8 * n) := by
  induction n generalizing a with
  | zero => simp [getNum]
  | succ n ih =>
    have h1 := (m.get a).isLt
    have h2 := ih (a + 1)
    have h3 : 2 ^ (8 * (n + 1)) = 256 * 2 ^ (8 * n) := by rw [Nat.mul_add, Nat.pow_add]; omega
    rw [getNum]
    omega

/-- A number in memory is its low bytes and its high bytes. -/
theorem getNum_add (m : Memory) (a i j : Nat) : getNum m a (i + j) = getNum m a i + 2 ^ (8 * i) * getNum m (a + i) j := by
  induction i generalizing a with
  | zero => simp [getNum]
  | succ i ih =>
    have h3 : 2 ^ (8 * (i + 1)) = 256 * 2 ^ (8 * i) := by rw [Nat.mul_add, Nat.pow_add]; omega
    rw [Nat.add_right_comm, getNum, ih, getNum, h3, Nat.add_assoc a 1 i, Nat.add_comm 1 i, Nat.mul_add, Nat.mul_assoc, Nat.add_assoc]

/-- Bytes in the middle of a number in memory. -/
theorem getNum_slice (m : Memory) (a : Nat) {o n k : Nat} (h : o + n ≤ k) :
    (getNum m a k >>> (8 * o)) % 2 ^ (8 * n) = getNum m (a + o) n := by
  obtain ⟨r, rfl⟩ : ∃ r, k = o + (n + r) := ⟨k - o - n, by omega⟩
  rw [getNum_add, getNum_add, Nat.shiftRight_eq_div_pow, Nat.add_mul_div_left _ _ (Nat.two_pow_pos _),
    Nat.div_eq_of_lt (getNum_lt ..), Nat.zero_add, Nat.add_mul_mod_self_left, Nat.mod_eq_of_lt (getNum_lt ..)]

/-- A written byte is that of the number. -/
theorem putNum_get_inside {m : Memory} (h : Memory.wf m = true) (a v n b : Nat) (h1 : a ≤ b) (h2 : b < a + n) :
    Memory.get (putNum m a v n) b = BitVec.ofNat 8 (v / 2 ^ (8 * (b - a))) := by
  induction n generalizing m a v with
  | zero => omega
  | succ n ih =>
    have hw := Memory.put_wf h a (BitVec.ofNat 8 (v % 256))
    rw [putNum]
    obtain rfl | hb := eq_or_ne b a
    · rw [putNum_get_outside hw _ _ _ _ (by omega), Memory.get_put_self h, Nat.sub_self]
      exact BitVec.eq_of_toNat_eq (by simp)
    · have h3 : 2 ^ (8 * (b - a)) = 256 * 2 ^ (8 * (b - (a + 1))) := by
        rw [show 8 * (b - a) = 8 + 8 * (b - (a + 1)) by omega, Nat.pow_add]
      rw [ih hw (a + 1) (v / 256) (by omega) (by omega), Nat.div_div_eq_div_mul, h3]

/-- In a space without keys a number reads as it is stored. -/
theorem readNum_untagged {s : State} {sp : Space} (h : tagsOf s sp = []) (key : KeyMat) (a n : Nat) :
    readNum s sp key a n = getNum (memOf s sp) a n := by
  induction n generalizing a with
  | zero => rfl
  | succ n ih =>
    have hb : readByte s sp key a = (memOf s sp).get a := by simp [readByte, h, NMap.get?]
    rw [readNum, getNum, ih, hb]

/-! ### What a write does to the memories -/

/-- A peer's memory that a write may reach is there. -/
def Space.present (s : State) (sp : Space) : Prop := ∀ p, sp = .peer p → (s.peer? p).isSome

theorem memOf_setMem_self {s : State} {sp : Space} (h : sp.present s) (m : Memory) : memOf (setMem s sp m) sp = m := by
  cases sp with
  | core c => exact congrArg Core.mem (State.setCore_core_self ..)
  | peer p =>
    have hp := h p rfl
    simp only [memOf, setMem, State.peer?] at hp ⊢
    generalize s.fab.peers = ps at hp ⊢
    induction ps with
    | nil => simp at hp
    | cons x r ih =>
      by_cases hx : x.id = p
      · simp [hx]
      · rw [List.find?_cons_of_neg (by simpa using hx)] at hp
        rw [List.map_cons, if_neg hx, List.find?_cons_of_neg (by simpa using hx)]
        exact ih hp
  | _ => rfl

theorem memOf_setMem_ne (s : State) {sp sp' : Space} (h : sp' ≠ sp) (m : Memory) : memOf (setMem s sp m) sp' = memOf s sp' := by
  cases sp with
  | core c =>
    cases sp' with
    | core d => exact congrArg Core.mem (State.setCore_core_ne s (fun e => h (congrArg _ e)) _)
    | _ => rfl
  | peer p =>
    cases sp' with
    | peer q =>
      have hpq : q ≠ p := fun e => h (congrArg _ e)
      simp only [memOf, setMem]
      generalize s.fab.peers = ps
      induction ps with
      | nil => rfl
      | cons x r ih =>
        by_cases hq : x.id = q
        · rw [List.map_cons, if_neg (by rw [hq]; exact hpq)]
          simp [hq]
        · rw [List.map_cons, List.find?_cons_of_neg (by split <;> simpa using hq), List.find?_cons_of_neg (by simpa using hq)]
          exact ih
    | _ => rfl
  | dev => cases sp' with | dev => exact absurd rfl h | _ => rfl
  | alt => cases sp' with | alt => exact absurd rfl h | _ => rfl
  | host => cases sp' with | host => exact absurd rfl h | _ => rfl

/-- A memory that a package does not have stays empty. -/
theorem memOf_setMem_absent {s : State} {p : Nat} (h : s.peer? p = none) (m : Memory) (sp : Space) :
    memOf (setMem s (.peer p) m) sp = memOf s sp := by
  have hmap : (s.fab.peers.map fun x => if x.id = p then { x with mem := m } else x) = s.fab.peers := by
    refine (List.map_congr_left fun x hx => if_neg ?_).trans (List.map_id _)
    simpa using List.find?_eq_none.1 h x hx
  simp only [setMem, hmap]

theorem setPoison_memOf (s : State) (sp : Space) (l : List Nat) (sp' : Space) : memOf (setPoison s sp l) sp' = memOf s sp' := by
  cases sp with
  | core c => exact memOf_setCore_same (k := { s.core c with poison := l }) rfl sp'
  | peer p =>
    cases sp' with
    | peer q =>
      simp only [memOf, setPoison]
      generalize s.fab.peers = ps
      induction ps with
      | nil => rfl
      | cons x r ih =>
        by_cases hq : x.id = q
        · rw [List.map_cons, List.find?_cons_of_pos (by split <;> simpa using hq), List.find?_cons_of_pos (by simpa using hq)]
          dsimp only
          split <;> rfl
        · rw [List.map_cons, List.find?_cons_of_neg (by split <;> simpa using hq), List.find?_cons_of_neg (by simpa using hq)]
          exact ih
    | _ => rfl
  | _ => cases sp' <;> rfl

theorem unpoison_memOf (s : State) (sp : Space) (a n : Nat) (sp' : Space) : memOf (unpoison s sp a n) sp' = memOf s sp' := by
  unfold unpoison; split
  · rfl
  · exact setPoison_memOf ..

theorem setPoison_tagsOf (s : State) (sp : Space) (l : List Nat) (sp' : Space) : tagsOf (setPoison s sp l) sp' = tagsOf s sp' := by
  cases sp <;> cases sp' <;> rfl

theorem unpoison_tagsOf (s : State) (sp : Space) (a n : Nat) (sp' : Space) : tagsOf (unpoison s sp a n) sp' = tagsOf s sp' := by
  unfold unpoison; split
  · rfl
  · exact setPoison_tagsOf ..

theorem setMem_tagsOf (s : State) (sp : Space) (m : Memory) (sp' : Space) : tagsOf (setMem s sp m) sp' = tagsOf s sp' := by
  cases sp <;> cases sp' <;> rfl

/-- What a write keeps of earlier values touches no memory and no key. -/
theorem keepPast_memOf (s : State) (sp : Space) (key : KeyMat) (line n : Nat) (sp' : Space) :
    memOf (keepPast s sp key line n) sp' = memOf s sp' := by
  rw [keepPast_only_past]; cases sp' <;> rfl

theorem keepPast_tagsOf (s : State) (sp : Space) (key : KeyMat) (line n : Nat) (sp' : Space) :
    tagsOf (keepPast s sp key line n) sp' = tagsOf s sp' := by
  rw [keepPast_only_past]; cases sp' <;> rfl

theorem rekey_congr {s t : State} {sp : Space} (hm : memOf t sp = memOf s sp) (ht : tagsOf t sp = tagsOf s sp) (key : KeyMat)
    (a n : Nat) : rekey t sp key a n = rekey s sp key a n := by
  simp only [rekey, hm, ht]

theorem keepPast_peer? (s : State) (sp : Space) (key : KeyMat) (line n p : Nat) :
    (keepPast s sp key line n).peer? p = s.peer? p := by rw [keepPast_only_past]; rfl

/-- The last step of a write sets the key of its blocks, or marks lines of local memory: no memory changes. -/
theorem writeNum_memOf (s : State) (sp : Space) (key : KeyMat) (a v n : Nat) (sp' : Space) :
    memOf (writeNum s sp key a v n) sp' = memOf (setMem s sp (putNum (rekey s sp key a n) a v n)) sp' := by
  unfold writeNum
  extract_lets s0 s1
  have h0 : (∀ q, memOf s0 q = memOf s q) ∧ (∀ q, tagsOf s0 q = tagsOf s q) ∧ ∀ p, s0.peer? p = s.peer? p := by
    unfold s0; split
    · exact ⟨fun _ => rfl, fun _ => rfl, fun _ => rfl⟩
    · exact ⟨keepPast_memOf s sp key _ _, keepPast_tagsOf s sp key _ _, keepPast_peer? s sp key _ _⟩
  have h1 : memOf s1 sp' = memOf (setMem s sp (putNum (rekey s sp key a n) a v n)) sp' := by
    unfold s1
    rw [unpoison_memOf, rekey_congr (h0.1 sp) (h0.2.1 sp)]
    obtain rfl | hne := eq_or_ne sp' sp
    · by_cases hp : sp'.present s
      · rw [memOf_setMem_self hp, memOf_setMem_self (fun p e => by rw [h0.2.2]; exact hp p e)]
      · simp only [Space.present, not_forall] at hp
        obtain ⟨p, rfl, hp⟩ := hp
        have hp : s.peer? p = none := by simpa using hp
        rw [memOf_setMem_absent hp, memOf_setMem_absent (by rw [h0.2.2]; exact hp), h0.1]
    · rw [memOf_setMem_ne _ hne, memOf_setMem_ne _ hne, h0.1]
  rw [← h1]
  cases sp with
  | core c => exact memOf_setCore_same (Core.touch_mem ..) sp'
  | _ => cases sp' <;> rfl

theorem writeNum_memOf_self {s : State} {sp : Space} (h : sp.present s) (key : KeyMat) (a v n : Nat) :
    memOf (writeNum s sp key a v n) sp = putNum (rekey s sp key a n) a v n :=
  (writeNum_memOf ..).trans (memOf_setMem_self h _)

theorem writeNum_memOf_ne (s : State) {sp sp' : Space} (h : sp' ≠ sp) (key : KeyMat) (a v n : Nat) :
    memOf (writeNum s sp key a v n) sp' = memOf s sp' :=
  (writeNum_memOf ..).trans (memOf_setMem_ne s h _)

/-- A local memory after a write. -/
theorem writeNum_core_mem (s : State) (c : Nat) (key : KeyMat) (a v n : Nat) :
    ((writeNum s (.core c) key a v n).core c).mem = putNum (s.core c).mem a v n := by
  refine (writeNum_memOf_self (s := s) (sp := .core c) (fun _ => nofun) key a v n).trans ?_
  rw [rekey_same (fun _ _ => .inl rfl)]
  rfl

/-! ### The parts of an access -/

/-- A way to cut: each part is not empty, fits, and stays in its line. -/
def CutsLines (step : Nat → Nat → Nat) : Prop := ∀ a n, 1 ≤ n → 1 ≤ step a n ∧ step a n ≤ n ∧ a % 64 + step a n ≤ 64

theorem lineRest_cuts : CutsLines lineRest := by
  intro a n hn
  simp only [lineRest]
  omega

theorem naturalPiece_cuts : CutsLines naturalPiece := by
  intro a n hn
  unfold naturalPiece
  split
  next h => simp only [Bool.and_eq_true, decide_eq_true_eq] at h; omega
  · split
    next h => simp only [Bool.and_eq_true, decide_eq_true_eq] at h; omega
    · split
      next h => simp only [Bool.and_eq_true, decide_eq_true_eq] at h; omega
      · omega

/-! ### Clocks -/

/-- Of the thread sets, at most the clock of the maker of an access moves. -/
structure ClocksOf (w : Who) (s t : State) : Prop where
  cur : t.cur = s.cur
  ts : ∀ i, ∃ p, t.ts i = { s.ts i with pts := p }
  others : ∀ i, w.ts ≠ some i → t.ts i = s.ts i

namespace ClocksOf

theorem of_tsets {w : Who} {s t : State} (hc : t.cur = s.cur) (h : t.tsets = s.tsets) : ClocksOf w s t := by
  have hts : ∀ i, t.ts i = s.ts i := fun i => by rw [State.ts, State.ts, h]
  exact ⟨hc, fun i => ⟨(s.ts i).pts, hts i⟩, fun i _ => hts i⟩

theorem trans {w : Who} {s t u : State} (h : ClocksOf w s t) (h' : ClocksOf w t u) : ClocksOf w s u := by
  refine ⟨h'.cur.trans h.cur, fun i => ?_, fun i hi => (h'.others i hi).trans (h.others i hi)⟩
  obtain ⟨p, hp⟩ := h.ts i
  obtain ⟨q, hq⟩ := h'.ts i
  exact ⟨q, by rw [hq, hp]⟩

theorem of_outside {w : Who} {s t : State} (h : t.outside = s.outside) : ClocksOf w s t :=
  of_tsets (show t.outside.cur = s.outside.cur by rw [h]) (show t.outside.tsets = s.outside.tsets by rw [h])

/-- The running thread set, when it makes the access. -/
theorem me {w : Who} {s t : State} (h : ClocksOf w s t) : ∃ p, t.me = { s.me with pts := p } := by
  rw [State.me, h.cur]; exact h.ts s.cur

end ClocksOf

theorem setPts_clocks (s : State) (w : Who) (p : Nat) : ClocksOf w s (s.setPts w p) := by
  refine ⟨s.setPts_cur w p, fun i => ?_, fun i hi => s.setPts_ts_ne hi p⟩
  rcases s.setPts_eq w p with ⟨t, ht, e⟩ | ⟨ht, e⟩ <;> rw [e]
  · obtain rfl | hi := eq_or_ne i t
    · exact ⟨p, s.setTs_ts_self ..⟩
    · exact ⟨_, s.setTs_ts_ne hi _⟩
  · exact ⟨(s.ts i).pts, rfl⟩

theorem follow_clocks (s : State) (w : Who) (l : Loc) (cached : Bool) : ClocksOf w s (follow s w l cached) := setPts_clocks ..

theorem precede_clocks (s : State) (w : Who) (l : Loc) (cached : Bool) : ClocksOf w s (precede s w l cached) :=
  .of_outside (setPlacePts_outside ..)

/-! ### Events in the local window -/

/-- A place in the local memory of a core. -/
def localLoc (c a : Nat) : Loc := { space := .core c, addr := a }

@[simp] theorem backing_localLoc (s : State) (c a : Nat) (lining : Bool) : backing s (localLoc c a) lining = localLoc c a := rfl

theorem hostWaits_local (s : State) (w : Who) (unc atomic write : Bool) {p : Piece} {c a : Nat} (hp : p.loc = localLoc c a) :
    hostWaits s w unc atomic write p = false := by
  have h1 : deviceWaits s w.ts (localLoc c a) write = false := by simp [deviceWaits, localLoc]
  have h2 : (localLoc c a).hostSide = false := by simp [Loc.hostSide, localLoc]
  simp [hostWaits, hp, h1, h2]

/-- An event in local memory can always be performed. -/
theorem reach_local (s : State) (w : Who) (unc atomic write : Bool) {p : Piece} {c a : Nat} (hp : p.loc = localLoc c a) (low : Nat) :
    reach w unc atomic write p low s = .ok (0, s) := by
  unfold reach
  rw [hostWaits_local s w unc atomic write hp, if_neg Bool.false_ne_true, hp]
  rfl

theorem settleDevice_local (s : State) (t : Option Nat) (c a : Nat) : settleDevice s t (localLoc c a) = s := by
  unfold settleDevice; split <;> rfl

theorem follow_core_mem (s : State) (w : Who) (l : Loc) (cached : Bool) (c : Nat) : (follow s w l cached).core c = s.core c := by
  unfold follow State.raise State.core
  rw [State.setPts_cores]

section localEvents
variable {w : Who} {h : Hint} {s : State} {c a : Nat}

/-- A read of local memory without uncorrectable words. -/
theorem readEvent_local {p : Piece} (hp : p.loc = localLoc c a) (hline : a % 64 + p.n ≤ 64) (hclean : (s.core c).poison = []) :
    readEvent w h p s = ({ val := getNum (s.core c).mem a p.n },
      precede (follow s w (localLoc c a) (sliced w (localLoc c a) (h == .unc))) w (localLoc c a)
        (sliced w (localLoc c a) (h == .unc))) := by
  unfold readEvent
  rw [hp]
  simp only [backing_localLoc, settleDevice_local]
  generalize hu : follow s w (localLoc c a) (sliced w (localLoc c a) (h == .unc)) = u
  have hcore : u.core c = s.core c := by rw [← hu]; exact follow_core_mem ..
  have hdata : (rawLine u (localLoc c a)).data = getNum (s.core c).mem (a / 64 * 64) 64 := by
    rw [← hcore]; exact readNum_untagged (s := u) (sp := .core c) rfl ..
  have hbad : (rawLine u (localLoc c a)).bad = 0 := by
    show badWords u (.core c) a = 0
    simp [badWords, poisonOf, hcore, hclean]
  have hval : (rawLine u (localLoc c a)).get (a % 64) p.n = { val := getNum (s.core c).mem a p.n } := by
    simp only [LineVal.get, hdata, hbad, if_true]
    rw [getNum_slice _ _ hline, Nat.div_add_mod']
  exact congrArg (fun g => (g, precede u w _ _)) hval

/-- A write of local memory. -/
theorem writeEvent_local {p : Piece} (hp : p.loc = localLoc c a) (v : Nat) :
    writeEvent w h p v s =
      precede (rawWrite (follow s w (localLoc c a) (sliced w (localLoc c a) (h == .unc))) (localLoc c a) v p.n) w (localLoc c a)
        (sliced w (localLoc c a) (h == .unc)) := by
  unfold writeEvent
  rw [hp]
  simp only [backing_localLoc, settleDevice_local, ite_self]
  rfl

theorem readOne_local {e : Ev} (hp : e.piece.loc = localLoc c a) (hline : a % 64 + e.piece.n ≤ 64) (hclean : (s.core c).poison = []) :
    ∃ t, readOne w h e s = .ok (getNum (s.core c).mem a e.piece.n, t) ∧ Tended s t ∧ ClocksOf w s t ∧ (t.core c).poison = [] := by
  let cached := sliced w (localLoc c a) (h == .unc)
  refine ⟨precede (follow s w (localLoc c a) cached) w (localLoc c a) cached, ?_, (follow_tended ..).trans (precede_tended ..),
    (follow_clocks ..).trans (precede_clocks ..), ?_⟩
  · unfold readOne
    rw [Op.bind_of_ok (reach_local s w _ _ _ hp _), Op.need_bind (show decide (0 = 0) = true from rfl)]
    exact (Op.bind_of_ok (congrArg Except.ok (readEvent_local hp hline hclean))).trans rfl
  · show ((setPlacePts ..).core c).poison = []
    unfold setPlacePts
    simp only [localLoc, Bool.not_false, if_true, State.setCore_core_self, follow_core_mem]
    exact hclean

theorem writeOne_local {e : Ev} (hp : e.piece.loc = localLoc c a) (v : Nat) :
    ∃ t, writeOne w h v e s = .ok (0, t) ∧ (t.core c).mem = putNum (s.core c).mem a v e.piece.n ∧
      (∀ sp, sp ≠ .core c → memOf t sp = memOf s sp) ∧ ClocksOf w s t := by
  refine ⟨writeEvent w h e.piece v s, ?_, ?_, fun sp hsp => ?_, ?_⟩
  · unfold writeOne
    rw [Op.bind_of_ok (reach_local s w _ _ _ hp _)]
    rfl
  · rw [writeEvent_local hp, (precede_tended ..).mem]
    exact (writeNum_core_mem ..).trans (by rw [follow_core_mem]; rfl)
  · rw [writeEvent_local hp, (precede_tended ..).memOf]
    exact (writeNum_memOf_ne _ hsp ..).trans ((follow_tended ..).memOf sp)
  · rw [writeEvent_local hp]
    exact (follow_clocks ..).trans (.trans (.of_outside (rawWrite_outside ..)) (precede_clocks ..))

end localEvents

/-- The events of the parts of one piece, from an offset on. -/
def cutEvents (step : Nat → Nat → Nat) (lane : Nat) (p : Piece) (fuel o n : Nat) : List Ev :=
  (cutPiece step p fuel o n).map fun q => { lane, off := q.va - p.va, piece := q, base := p.low }

/-- The first event of what is left of a piece, and the others. -/
theorem cutEvents_succ (step : Nat → Nat → Nat) (lane : Nat) (p : Piece) (fuel o n : Nat) :
    cutEvents step lane p (fuel + 1) o n =
      if n = 0 then []
      else { lane, off := o, base := p.low
             piece := { va := p.va + o, n := step (p.loc.addr + o) n, loc := { p.loc with addr := p.loc.addr + o }, refuse := p.refuse } } ::
        cutEvents step lane p fuel (o + step (p.loc.addr + o) n) (n - step (p.loc.addr + o) n) := by
  unfold cutEvents
  rw [cutPiece]
  split
  · rfl
  · simp

theorem laneEvents_single (lane : Nat) (vec : Bool) (p : Piece) :
    laneEvents lane vec 0 [p] = cutEvents (if vec && p.loc.type == 2 then naturalPiece else lineRest) lane p p.n 0 p.n := by
  simp [laneEvents, cutEvents, eventPieces]

section localAccess
variable {w : Who} {h : Hint} {c off va lane : Nat}

/-- The events of a load from local memory read its bytes. -/
theorem readEvents_local {p : Piece} (hp : p.loc = localLoc c off) (fuel o n : Nat) (hn : n ≤ fuel) (got : NMap Nat) (s : State)
    (hclean : (s.core c).poison = []) :
    ∃ got' t, runEvents (readOne w h) (cutEvents lineRest lane p fuel o n) got s = .ok (got', t) ∧
      (got'.get? lane).getD 0 = (got.get? lane).getD 0 + 2 ^ (8 * o) * getNum (s.core c).mem (off + o) n ∧ Tended s t ∧
      ClocksOf w s t := by
  induction fuel generalizing o n got s with
  | zero =>
    obtain rfl : n = 0 := by omega
    exact ⟨got, s, rfl, by simp [getNum], .refl s, .of_tsets rfl rfl⟩
  | succ fuel ih =>
    rw [cutEvents_succ]
    split
    next h0 => subst h0; exact ⟨got, s, rfl, by simp [getNum], .refl s, .of_tsets rfl rfl⟩
    next h0 =>
      have haddr : p.loc.addr = off := by rw [hp]; rfl
      rw [haddr]
      obtain ⟨hm1, hm2, hline⟩ := lineRest_cuts (off + o) n (by omega)
      generalize lineRest (off + o) n = m at hm1 hm2 hline
      generalize he : ({ lane := lane, off := o, base := p.low, piece := _ } : Ev) = e
      have hloc : e.piece.loc = localLoc c (off + o) := by rw [← he]; dsimp only; rw [hp]; rfl
      have hen : e.piece.n = m := by rw [← he]
      obtain ⟨t, hread, ht, hclk, hpois⟩ := readOne_local (w := w) (h := h) (e := e) hloc (by rw [hen]; exact hline) hclean
      obtain ⟨got', u, hrun, hval, hu, hclk'⟩ := ih (o + m) (n - m) (by omega) (addGot got e (getNum (s.core c).mem (off + o) m)) t hpois
      refine ⟨got', u, ?_, ?_, ht.trans hu, hclk.trans hclk'⟩
      · rw [runEvents, Op.bind_of_ok hread, hen]; exact hrun
      · have hsplit := getNum_add (s.core c).mem (off + o) m (n - m)
        rw [show m + (n - m) = n by omega] at hsplit
        have hlane : e.lane = lane := by rw [← he]
        have heo : e.off = o := by rw [← he]
        rw [hval, hsplit, ht.mem, addGot, hlane, heo, NMap.get?_set_self, Option.getD_some, Nat.mul_add (8 : Nat) o m, Nat.pow_add,
          Nat.mul_add (2 ^ (8 * o)), Nat.mul_assoc, Nat.add_assoc off o m, Nat.add_assoc ((got.get? lane).getD 0)]

/-- The events of a store to local memory write its bytes. -/
theorem writeEvents_local {p : Piece} (hp : p.loc = localLoc c off) (v : Nat) (fuel o n : Nat) (hn : n ≤ fuel) (got : NMap Nat)
    (s : State) (hwf : (s.core c).mem.wf = true) :
    ∃ got' t, runEvents (fun e => writeOne w h (v / 2 ^ (8 * e.off)) e) (cutEvents lineRest lane p fuel o n) got s = .ok (got', t) ∧
      (∀ b, (t.core c).mem.get b = if off + o ≤ b ∧ b < off + o + n then BitVec.ofNat 8 (v / 2 ^ (8 * (b - off)))
        else (s.core c).mem.get b) ∧
      (∀ sp, sp ≠ .core c → memOf t sp = memOf s sp) ∧ ClocksOf w s t := by
  induction fuel generalizing o n got s with
  | zero =>
    obtain rfl : n = 0 := by omega
    exact ⟨got, s, rfl, fun b => by rw [if_neg (by omega)], fun _ _ => rfl, .of_tsets rfl rfl⟩
  | succ fuel ih =>
    rw [cutEvents_succ]
    split
    next h0 => subst h0; exact ⟨got, s, rfl, fun b => by rw [if_neg (by omega)], fun _ _ => rfl, .of_tsets rfl rfl⟩
    next h0 =>
      have haddr : p.loc.addr = off := by rw [hp]; rfl
      rw [haddr]
      obtain ⟨hm1, hm2, -⟩ := lineRest_cuts (off + o) n (by omega)
      generalize lineRest (off + o) n = m at hm1 hm2
      generalize he : ({ lane := lane, off := o, base := p.low, piece := _ } : Ev) = e
      have hloc : e.piece.loc = localLoc c (off + o) := by rw [← he]; dsimp only; rw [hp]; rfl
      have hen : e.piece.n = m := by rw [← he]
      have heo : e.off = o := by rw [← he]
      obtain ⟨t, hwrite, hmem, hother, hclk⟩ := writeOne_local (w := w) (h := h) (s := s) (e := e) hloc (v / 2 ^ (8 * o))
      rw [hen] at hmem
      obtain ⟨got', u, hrun, hval, hother', hclk'⟩ := ih (o + m) (n - m) (by omega) (addGot got e 0) t
        (by rw [hmem]; exact putNum_wf hwf _ _ _)
      refine ⟨got', u, ?_, fun b => ?_, fun sp hsp => (hother' sp hsp).trans (hother sp hsp), hclk.trans hclk'⟩
      · rw [runEvents, heo, Op.bind_of_ok hwrite]; exact hrun
      · rw [hval, hmem]
        by_cases h1 : off + (o + m) ≤ b ∧ b < off + (o + m) + (n - m)
        · rw [if_pos h1, if_pos (by omega)]
        · rw [if_neg h1]
          by_cases h2 : off + o ≤ b ∧ b < off + o + m
          · rw [if_pos (by omega), putNum_get_inside hwf _ _ _ _ h2.1 h2.2, Nat.div_div_eq_div_mul, ← Nat.pow_add]
            congr 3; omega
          · rw [if_neg (by omega), putNum_get_outside hwf _ _ _ _ (by omega)]

end localAccess

/-- The checks of an access of 8 bytes in the window of a core, clear of its enabled maps. -/
theorem checkAccess_local {s : State} {w : Who} {k : Kind} {addr : Word} (hc : w.core ≠ hubCore)
    (h1 : 0xFF00000000000000 ≤ addr.toNat) (h2 : addr.toNat - 0xFF00000000000000 + 8 ≤ 0x80000)
    (hmaps : ∀ i : Fin 8, (s.core w.core).smap[i].getLsbD 63 = false) :
    checkAccess w k addr 8 s =
      .ok ([{ va := addr.toNat, n := 8, loc := localLoc w.core (addr.toNat - 0xFF00000000000000) }], s) := by
  have hover : overStash (s.core w.core) addr.toNat (addr.toNat + 8 - 1) = false := by
    rw [overStash, List.any_eq_false]
    intro m hm
    obtain ⟨i, hi, rfl⟩ := List.mem_iff_getElem.1 hm
    have := hmaps ⟨i, by simpa using hi⟩
    simp_all [mapOn]
  rw [checkAccess_window (by omega) hc ((inWindow_iff _).2 (by omega)) (by omega),
    (inWindow_iff (addr.toNat + 8 - 1)).2 (by omega), if_neg (by decide), hover, if_neg Bool.false_ne_true]
  rfl

theorem ThreadSet.setS_pts_past (t : ThreadSet) (p : Nat) (d : Reg) (x : Word) (n : Nat) :
    (({ t with pts := p } : ThreadSet).setS d x).past n = { (t.setS d x).past n with pts := p } := by
  unfold ThreadSet.setS; split <;> rfl

theorem localWindowAccess : Claims.LocalWindowAccess := by
  intro s h d a disp hw
  extract_lets c addr off
  intro hc h1 h2 hmaps hwf
  have hcore : (s.who s.cur).core = c := by unfold State.who; split <;> rfl
  have hts : (s.who s.cur).ts = some s.cur := by unfold State.who; split <;> rfl
  have hcheck (k : Kind) := checkAccess_local (s := s) (w := s.who s.cur) (k := k) (addr := addr)
    (by rw [hcore, hubCore]; omega) h1 h2 (by rw [hcore]; exact hmaps)
  rw [hcore] at hcheck
  have hothers {t : State} (ht : ClocksOf (s.who s.cur) s t) (x : ThreadSet) : othersKept s (t.setMe x) := fun i hi => by
    rw [State.setMe_ts_ne t (by rw [ht.cur]; exact hi), ht.others i (by rw [hts]; exact fun e => hi (Option.some.inj e).symm)]
  refine ⟨fun hclean => ?_, ?_⟩
  · obtain ⟨got, u, hrun, hval, htend, hclk⟩ := readEvents_local (w := s.who s.cur) (h := h) (lane := 0)
      (p := { va := addr.toNat, n := 8, loc := localLoc c off }) rfl 8 0 8 (Nat.le_refl 8) [] s hclean
    obtain ⟨p, hp⟩ := hclk.me
    have hexec := exec_ld_whole (d := d) .d hw (hcheck _) (got := got) (s2 := u)
      ⟨by rw [laneEvents_single]; exact hrun, by rw [hp]; exact hw.1⟩
    refine ⟨_, hexec, ⟨p, ?_⟩, fun sp b => ?_, hothers hclk _⟩
    · have hreg : loadRegs .d d ((got.get? 0).getD 0) u.me = u.me.setS d (BitVec.ofNat 64 (getNum (s.core c).mem off 8)) := by
        have hgot : (got.get? 0).getD 0 = getNum (s.core c).mem off 8 := by
          rw [hval, Nat.add_zero, Nat.mul_zero, Nat.pow_zero, Nat.one_mul]
          exact Nat.zero_add _
        rw [hgot]; rfl
      rw [State.setMe_me, hreg, hp, ThreadSet.setS_pts_past]
    · rw [setMe_sameMemory u _ sp b, htend.memOf]
  · obtain ⟨got, u, hrun, hmem, hother, hclk⟩ := writeEvents_local (w := s.who s.cur) (h := h) (lane := 0)
      (p := { va := addr.toNat, n := 8, loc := localLoc c off }) rfl (s.me.getS d).toNat 8 0 8 (Nat.le_refl 8) [] s hwf
    obtain ⟨p, hp⟩ := hclk.me
    have hexec : exec (.st .d h d a disp) s = .next (u.advance (dispLen disp)) :=
      ((storeResults s s u h d a disp _ 8 (s.me.getS d).toNat).1 .d rfl (hcheck _)).1 hw
        ⟨got, by rw [laneEvents_single]; exact hrun, by rw [hp]; exact hw.1⟩
    refine ⟨_, hexec, fun b => ?_, fun sp b hsp => ?_, ⟨p, ?_⟩, hothers hclk _⟩
    · rw [State.advance, State.setMe_core, hmem, Nat.add_zero]
      split
      · refine BitVec.eq_of_toNat_eq ?_
        rw [BitVec.toNat_ofNat, BitVec.extractLsb'_toNat, Nat.shiftRight_eq_div_pow]
      · rfl
    · rw [State.advance, setMe_sameMemory u _ sp b, hother sp hsp]
    · rw [State.advance_me, hp]; rfl

end Sys2Proof.Machine

/-! SUPPORT. What a store to global space changes (R216, R277, R297): the bytes of other places read as before, and its own as it
wrote them; with the statement about stores (O49). -/

namespace Sys2Proof.Machine
open Sys2Proof Sys2Proof.Claims

/-! ### Blocks and keys (R277) -/

theorem mem_blocksOf {a n k : Nat} : k ∈ blocksOf a n ↔ n ≠ 0 ∧ a / 16 ≤ k ∧ k ≤ (a + n - 1) / 16 := by
  unfold blocksOf
  split
  next h => simp [h]
  next h =>
    simp only [List.mem_map, List.mem_range]
    exact ⟨fun ⟨i, hi, e⟩ => by omega, fun ⟨_, h1, h2⟩ => ⟨k - a / 16, by omega, by omega⟩⟩

theorem block_mem_blocksOf {a n b : Nat} (h1 : a ≤ b) (h2 : b < a + n) : b / 16 ∈ blocksOf a n :=
  mem_blocksOf.2 ⟨by omega, by omega, by omega⟩

theorem putTags_get? (m : NMap KeyMat) (key : KeyMat) (bs : List Nat) (b : Nat) :
    (putTags m key bs).get? b = if b ∈ bs then some key else m.get? b := by
  unfold putTags
  induction bs generalizing m with
  | nil => rfl
  | cons c r ih =>
    rw [List.foldl_cons, ih]
    obtain rfl | hb := eq_or_ne b c
    · simp [NMap.get?_set_self]
    · simp [hb, NMap.get?_set_ne _ hb]

/-- Equal bytes are equal numbers. -/
theorem getNum_congr {m m' : Memory} {a n : Nat} (h : ∀ i, i < n → m.get (a + i) = m'.get (a + i)) : getNum m a n = getNum m' a n := by
  induction n generalizing a with
  | zero => rfl
  | succ n ih =>
    rw [getNum, getNum, show m.get a = m'.get a from h 0 (by omega), ih fun i hi => ?_]
    have := h (i + 1) (by omega)
    rwa [← Nat.add_assoc, Nat.add_right_comm] at this

/-- Before a write of part of it, one block comes to hold what the writer's key reads. -/
def rekeyBlock (s : State) (sp : Space) (key : KeyMat) (a n : Nat) (m : Memory) (b : Nat) : Memory :=
  match (tagsOf s sp).get? b with
  | some k => if k = key || (a ≤ 16 * b && 16 * b + 16 ≤ a + n) then m
      else putNum m (16 * b) (blockUnder k key (memOf s sp) b) 16
  | none => m

theorem rekey_eq_foldl (s : State) (sp : Space) (key : KeyMat) (a n : Nat) :
    rekey s sp key a n = (blocksOf a n).foldl (rekeyBlock s sp key a n) (memOf s sp) := rfl

section rekeyBlock
variable {s : State} {sp : Space} {key : KeyMat} {a n : Nat} {m : Memory} (hm : Memory.wf m = true) {b : Nat}
include hm

theorem rekeyBlock_wf (k : Nat) : Memory.wf (rekeyBlock s sp key a n m k) = true := by
  unfold rekeyBlock; split
  · split <;> [exact hm; exact putNum_wf hm _ _ _]
  · exact hm

theorem rekeyBlock_other {k : Nat} (hb : b / 16 ≠ k) : (rekeyBlock s sp key a n m k).get b = m.get b := by
  unfold rekeyBlock; split
  · split
    · rfl
    · exact putNum_get_outside hm _ _ _ _ (by omega)
  · rfl

/-- A byte that the write leaves alone holds, once its block has its turn, what the writer's key read there. -/
theorem rekeyBlock_self (hb : ¬(a ≤ b ∧ b < a + n)) (h : m.get b = (memOf s sp).get b ∨ m.get b = readByte s sp key b) :
    (rekeyBlock s sp key a n m (b / 16)).get b = readByte s sp key b := by
  unfold rekeyBlock
  have hread : (tagsOf s sp).get? (b / 16) = none ∨ (tagsOf s sp).get? (b / 16) = some key →
      readByte s sp key b = (memOf s sp).get b := by
    rintro (e | e) <;> simp [readByte, e]
  split
  next k hk =>
    by_cases hkey : k = key
    · subst hkey
      rw [hread (.inr hk)] at h ⊢
      simpa using h
    · rw [if_neg]
      · rw [putNum_get_inside hm _ _ _ _ (by omega) (by omega), readByte, hk]
        simp only [hkey, if_false]
        congr 4
        omega
      · simp only [hkey, decide_false, Bool.false_or, Bool.and_eq_true, decide_eq_true_eq]
        omega
  next hk =>
    rw [hread (.inl hk)] at h ⊢
    simpa using h

/-- The same through the turns of several blocks. -/
theorem foldl_rekeyBlock (hb : ¬(a ≤ b ∧ b < a + n)) (h : m.get b = (memOf s sp).get b ∨ m.get b = readByte s sp key b)
    (l : List Nat) :
    (b / 16 ∈ l → (l.foldl (rekeyBlock s sp key a n) m).get b = readByte s sp key b) ∧
      (b / 16 ∉ l → (l.foldl (rekeyBlock s sp key a n) m).get b = m.get b) := by
  induction l generalizing m with
  | nil => simp
  | cons k r ih =>
    rw [List.foldl_cons]
    obtain rfl | hk := eq_or_ne (b / 16) k
    · have hself := rekeyBlock_self hm hb h
      have ih := ih (rekeyBlock_wf hm (b / 16)) (.inr hself)
      refine ⟨fun _ => ?_, fun hno => absurd List.mem_cons_self hno⟩
      by_cases hr : b / 16 ∈ r
      · exact ih.1 hr
      · rw [ih.2 hr, hself]
    · have hother := rekeyBlock_other (s := s) (sp := sp) (key := key) (a := a) (n := n) hm hk
      have ih := ih (rekeyBlock_wf hm k) (by rw [hother]; exact h)
      refine ⟨fun hin => ih.1 ((List.mem_cons.1 hin).resolve_left hk), fun hno => ?_⟩
      rw [ih.2 fun hr => hno (List.mem_cons_of_mem _ hr), hother]

end rekeyBlock

/-! ### A byte after a write of another place -/

theorem writeNum_tagsOf (s : State) (sp : Space) (key : KeyMat) (a v n : Nat) (sp' : Space) :
    tagsOf (writeNum s sp key a v n) sp' =
      if sp' = sp ∧ (sp = .dev ∨ sp = .alt) then putTags (tagsOf s sp) key (blocksOf a n) else tagsOf s sp' := by
  unfold writeNum
  extract_lets s0 s1
  have h1 : ∀ q, tagsOf s1 q = tagsOf s q := fun q => by
    unfold s1
    rw [unpoison_tagsOf, setMem_tagsOf]
    unfold s0; split
    · rfl
    · exact keepPast_tagsOf ..
  cases sp with
  | dev =>
    cases sp' with
    | dev => exact congrArg (putTags · key (blocksOf a n)) (h1 .dev)
    | _ => rw [if_neg (by rintro ⟨h, -⟩; cases h), ← h1]; rfl
  | alt =>
    cases sp' with
    | alt => exact congrArg (putTags · key (blocksOf a n)) (h1 .alt)
    | _ => rw [if_neg (by rintro ⟨h, -⟩; cases h), ← h1]; rfl
  | _ => rw [if_neg (by rintro ⟨-, h | h⟩ <;> cases h)]; exact h1 _

/-- The writer's key reads a written block as memory holds it. -/
theorem readByte_written (s : State) (sp : Space) (key : KeyMat) (a v n : Nat) {b : Nat} (hb : b / 16 ∈ blocksOf a n) :
    readByte (writeNum s sp key a v n) sp key b = (memOf (writeNum s sp key a v n) sp).get b := by
  rw [readByte, writeNum_tagsOf]
  cases sp with
  | dev | alt => simp [putTags_get?, hb]
  | _ => rw [if_neg (by rintro ⟨-, h | h⟩ <;> cases h)]; rfl

theorem readByte_congr {s t : State} {sp : Space} (hm : memOf t sp = memOf s sp) (ht : tagsOf t sp = tagsOf s sp) (key : KeyMat)
    (b : Nat) : readByte t sp key b = readByte s sp key b := by
  simp only [readByte, hm, ht]

theorem readByte_writeNum_ne (s : State) {sp sp' : Space} (h : sp' ≠ sp) (key : KeyMat) (a v n : Nat) (k : KeyMat) (b : Nat) :
    readByte (writeNum s sp key a v n) sp' k b = readByte s sp' k b :=
  readByte_congr (writeNum_memOf_ne s h ..) (by rw [writeNum_tagsOf, if_neg fun e => h e.1]) k b

/-- A byte outside the written ones reads as before, under the writer's key when it shares a block with one (R277). -/
theorem readByte_writeNum_outside {s : State} {sp : Space} (hwf : Memory.wf (memOf s sp) = true) {key k : KeyMat} {a v n b : Nat}
    (hb : ¬(a ≤ b ∧ b < a + n)) (hk : b / 16 ∈ blocksOf a n → k = key) :
    readByte (writeNum s sp key a v n) sp k b = readByte s sp k b := by
  by_cases hp : sp.present s
  · have hmem := writeNum_memOf_self hp key a v n
    have hwf' := rekey_wf hwf key a n
    have hfold := fun b' hb' => foldl_rekeyBlock (s := s) (sp := sp) (key := key) (a := a) (n := n) (b := b') hwf hb' (.inl rfl) (blocksOf a n)
    by_cases hin : b / 16 ∈ blocksOf a n
    · obtain rfl := hk hin
      have hget : (memOf (writeNum s sp k a v n) sp).get b = readByte s sp k b := by
        rw [hmem, putNum_get_outside hwf' _ _ _ _ (by omega), rekey_eq_foldl]
        exact (hfold b hb).1 hin
      rw [readByte_written s sp k a v n hin, hget]
    · have hblock : ∀ i, i < 16 → (memOf (writeNum s sp key a v n) sp).get (16 * (b / 16) + i) = (memOf s sp).get (16 * (b / 16) + i) := by
        intro i hi
        have hno : (16 * (b / 16) + i) / 16 ∉ blocksOf a n := by rw [show (16 * (b / 16) + i) / 16 = b / 16 by omega]; exact hin
        have hout : ¬(a ≤ 16 * (b / 16) + i ∧ 16 * (b / 16) + i < a + n) := fun h => hno (block_mem_blocksOf h.1 h.2)
        rw [hmem, putNum_get_outside hwf' _ _ _ _ (by omega), rekey_eq_foldl]
        exact (hfold _ hout).2 hno
      have hbyte := hblock (b % 16) (by omega)
      rw [show 16 * (b / 16) + b % 16 = b by omega] at hbyte
      have htag : (tagsOf (writeNum s sp key a v n) sp).get? (b / 16) = (tagsOf s sp).get? (b / 16) := by
        rw [writeNum_tagsOf]
        split
        · rw [putTags_get?, if_neg hin]
        · rfl
      simp only [readByte, htag, hbyte, blockUnder, getNum_congr hblock]
  · simp only [Space.present, not_forall] at hp
    obtain ⟨p, rfl, hp⟩ := hp
    have hp : s.peer? p = none := by simpa using hp
    exact readByte_congr ((writeNum_memOf ..).trans (memOf_setMem_absent hp ..)) rfl k b

/-- A written byte reads as it was written. -/
theorem readByte_writeNum_inside {s : State} {sp : Space} (hp : sp.present s) (hwf : Memory.wf (memOf s sp) = true) (key : KeyMat)
    (a v : Nat) {n i : Nat} (hi : i < n) :
    readByte (writeNum s sp key a v n) sp key (a + i) = BitVec.ofNat 8 (v / 2 ^ (8 * i)) := by
  have hget : (memOf (writeNum s sp key a v n) sp).get (a + i) = BitVec.ofNat 8 (v / 2 ^ (8 * i)) := by
    rw [writeNum_memOf_self hp, putNum_get_inside (rekey_wf hwf _ _ _) _ _ _ _ (by omega) (by omega), Nat.add_sub_cancel_left]
  rw [readByte_written s sp key a v n (block_mem_blocksOf (by omega) (by omega)), hget]

/-- Bytes that read as those of a number read as the number. -/
theorem readNum_of_bytes {s : State} {sp : Space} {key : KeyMat} {a v n : Nat}
    (h : ∀ i, i < n → readByte s sp key (a + i) = BitVec.ofNat 8 (v / 2 ^ (8 * i))) : readNum s sp key a n = v % 2 ^ (8 * n) := by
  induction n generalizing a v with
  | zero => simp [readNum, Nat.mod_one]
  | succ n ih =>
    have h0 : readByte s sp key a = BitVec.ofNat 8 v := by simpa using h 0 (by omega)
    have e : 2 ^ (8 * (n + 1)) = 256 * 2 ^ (8 * n) := by rw [Nat.mul_add, Nat.pow_add]; omega
    rw [readNum, h0, ih (v := v / 256) fun i hi => ?_, e, Nat.mod_mul, BitVec.toNat_ofNat]
    have := h (i + 1) (by omega)
    rw [Nat.mul_add, Nat.pow_add, Nat.mul_comm (2 ^ (8 * i)), ← Nat.div_div_eq_div_mul] at this
    rwa [Nat.add_assoc, Nat.add_comm 1 i]

/-! ### Places that a step may write -/

/-- A set of bytes, each with the key that reads it. -/
abbrev Bytes := Space → Nat → KeyMat → Prop

/-- A write of n bytes at a place leaves a set of bytes alone. -/
def Fits (C : Bytes) (s0 : State) (l : Loc) (n : Nat) : Prop :=
  ∀ b k, C l.space b k → ¬(l.addr ≤ b ∧ b < l.addr + n) ∧ (b / 16 ∈ blocksOf l.addr n → k = locKey s0 l)

/-- A place where an event of a store may write: its bytes fit, and its line may be sent when the host port is down. -/
structure Place (C : Bytes) (D : Loc → Prop) (s0 : State) (l : Loc) (n : Nat) : Prop where
  fits : Fits C s0 l n
  sent : l.hostSide = true → s0.mgmt.hostUp = false → D (lineLoc l)

/-- So does a write on its way to host memory, whose line is one that may be sent. -/
structure PostFits (C : Bytes) (D : Loc → Prop) (s0 : State) (x : Posted) : Prop where
  line : D x.home
  good : x.bad = 0
  bytes : ∀ j, j < 64 → x.mask.getLsbD j = true → Fits C s0 { x.home with addr := x.home.addr + j } 1

/-- A state in which a set of bytes outside the local memories reads as in another, and what is on its way leaves it alone. -/
structure Framed (C : Bytes) (D : Loc → Prop) (s0 t : State) : Prop where
  ok : t.memoryOk = true
  unfolded : Unfolded t
  keys : t.msys.keys = s0.msys.keys
  flipped : t.msys.flipped = s0.msys.flipped
  mgmt : t.mgmt = s0.mgmt
  links : ∀ p, (t.peer? p).map Peer.link = (s0.peer? p).map Peer.link
  bytes : ∀ sp b k, (∀ c, sp ≠ .core c) → C sp b k → readByte t sp k b = readByte s0 sp k b
  posts : ∀ x ∈ t.msys.posted, PostFits C D s0 x

theorem Fits.part {C : Bytes} {s0 : State} {l : Loc} {n o m : Nat} (h : Fits C s0 l n) (hm : o + m ≤ n) :
    Fits C s0 { l with addr := l.addr + o } m := by
  intro b k hc
  obtain ⟨h1, h2⟩ := h b k hc
  refine ⟨fun hb => h1 ⟨by have := hb.1; dsimp only at this; omega, by have := hb.2; dsimp only at this; omega⟩, fun hb => h2 ?_⟩
  have hb := mem_blocksOf.1 hb
  dsimp only at hb
  exact mem_blocksOf.2 ⟨by omega, by omega, by omega⟩

/-- A place of n bytes that fits byte by byte. -/
theorem Fits.of_bytes {C : Bytes} {s0 : State} {l : Loc} {n : Nat} (h : ∀ j, j < n → Fits C s0 { l with addr := l.addr + j } 1) :
    Fits C s0 l n := by
  intro b k hc
  refine ⟨fun hb => (h (b - l.addr) (by omega) b k hc).1 ⟨by dsimp only; omega, by dsimp only; omega⟩, fun hb => ?_⟩
  obtain ⟨hn, h1, h2⟩ := mem_blocksOf.1 hb
  -- a byte of the range in the block of b
  have hj : max (b / 16 * 16) l.addr - l.addr < n := by omega
  refine (h _ hj b k hc).2 (mem_blocksOf.2 ⟨by omega, ?_, ?_⟩) <;> dsimp only <;> omega

theorem SameShared.links {s t : State} (h : SameShared s t) (p : Nat) : t.peer? p = s.peer? p := by
  simp only [State.peer?, h.fab]

namespace Framed
variable {C : Bytes} {D : Loc → Prop} {s0 s t : State}

/-- Nothing has happened yet. -/
theorem refl (hok : s.memoryOk = true) (hs : Unfolded s) (hp : s.msys.posted = []) : Framed C D s s :=
  ⟨hok, hs, rfl, rfl, rfl, fun _ => rfl, fun _ _ _ _ _ => rfl, by simp [hp]⟩

/-- A step that leaves shared storage alone. -/
theorem same (h : Framed C D s0 s) (hs : SameShared s t) (hok : t.memoryOk = true) : Framed C D s0 t where
  ok := hok
  unfolded := hs.unfolded h.unfolded
  keys := hs.keys.trans h.keys
  flipped := hs.flipped.trans h.flipped
  mgmt := hs.mgmt.trans h.mgmt
  links p := by rw [hs.links, h.links]
  bytes sp b k hsp hc := (readByte_congr (hs.memOf hsp) (hs.tagsOf sp) k b).trans (h.bytes sp b k hsp hc)
  posts := by rw [hs.posted]; exact h.posts

theorem locKey (h : Framed C D s0 s) (l : Loc) : Machine.locKey s l = Machine.locKey s0 l := by
  simp only [Machine.locKey, keyOf, h.keys]

theorem backing (h : Framed C D s0 s) (l : Loc) (lining : Bool) : Machine.backing s l lining = Machine.backing s0 l lining := by
  simp only [Machine.backing, h.flipped]

end Framed

/-- What a write leaves beside the bytes and their keys. -/
structure SameRest (s t : State) : Prop where
  folds : NoFolds s → NoFolds t
  held : t.fab.heldFolds = s.fab.heldFolds
  nc : t.msys.nc = s.msys.nc
  posted : t.msys.posted = s.msys.posted
  keys : t.msys.keys = s.msys.keys
  flipped : t.msys.flipped = s.msys.flipped
  links : ∀ p, (t.peer? p).map Peer.link = (s.peer? p).map Peer.link

namespace SameRest

theorem trans {s t u : State} (h : SameRest s t) (h' : SameRest t u) : SameRest s u :=
  ⟨h'.folds ∘ h.folds, h'.held.trans h.held, h'.nc.trans h.nc, h'.posted.trans h.posted, h'.keys.trans h.keys,
    h'.flipped.trans h.flipped, fun p => (h'.links p).trans (h.links p)⟩

theorem refl (s : State) : SameRest s s := ⟨id, rfl, rfl, rfl, rfl, rfl, fun _ => rfl⟩

theorem setCore (s : State) (c : Nat) {x : Core} (hx : x.folds = (s.core c).folds) : SameRest s (s.setCore c x) :=
  ⟨(SameShared.setCore s c hx).folds, rfl, rfl, rfl, rfl, rfl, fun _ => rfl⟩

/-- A change of the peers that keeps their numbers and links. -/
theorem setPeers (s : State) {f : Peer → Peer} (hf : ∀ x, (f x).id = x.id ∧ (f x).link = x.link) :
    SameRest s { s with fab := { s.fab with peers := s.fab.peers.map f } } := by
  refine ⟨id, rfl, rfl, rfl, rfl, rfl, fun p => ?_⟩
  simp only [State.peer?]
  generalize s.fab.peers = ps
  induction ps with
  | nil => rfl
  | cons x r ih =>
    by_cases hx : x.id = p
    · simp [hx, hf]
    · rw [List.map_cons, List.find?_cons_of_neg (by simpa [hf] using hx), List.find?_cons_of_neg (by simpa using hx)]
      exact ih

end SameRest

theorem setMem_rest (s : State) (sp : Space) (m : Memory) : SameRest s (setMem s sp m) := by
  cases sp with
  | core c => exact .setCore s c rfl
  | peer p => exact .setPeers s fun x => by split <;> exact ⟨rfl, rfl⟩
  | _ => exact ⟨id, rfl, rfl, rfl, rfl, rfl, fun _ => rfl⟩

theorem setPoison_rest (s : State) (sp : Space) (l : List Nat) : SameRest s (setPoison s sp l) := by
  cases sp with
  | core c => exact .setCore s c rfl
  | peer p => exact .setPeers s fun x => by split <;> exact ⟨rfl, rfl⟩
  | _ => exact ⟨id, rfl, rfl, rfl, rfl, rfl, fun _ => rfl⟩

theorem writeNum_rest (s : State) (sp : Space) (key : KeyMat) (a v n : Nat) : SameRest s (writeNum s sp key a v n) := by
  unfold writeNum
  extract_lets s0 s1
  have h0 : SameRest s s0 := by
    unfold s0; split
    · exact .refl s
    · rw [keepPast_only_past]
      exact ⟨id, rfl, rfl, rfl, rfl, rfl, fun _ => rfl⟩
  have h1 : SameRest s0 s1 := by
    refine (setMem_rest s0 sp (putNum (rekey s0 sp key a n) a v n)).trans ?_
    unfold s1 unpoison
    split <;> [exact .refl _; exact setPoison_rest ..]
  refine (h0.trans h1).trans ?_
  cases sp with
  | core c => exact .setCore s1 c (Core.touch_folds ..)
  | _ => exact ⟨id, rfl, rfl, rfl, rfl, rfl, fun _ => rfl⟩

namespace Framed
variable {C : Bytes} {D : Loc → Prop} {s0 s t : State}

/-- A write outside the local memories that leaves the bytes alone, or one of a local memory. -/
theorem writeNum (h : Framed C D s0 s) {sp : Space} {key : KeyMat} {a n : Nat}
    (hl : ∀ b k, (∀ c, sp ≠ .core c) → C sp b k → ¬(a ≤ b ∧ b < a + n) ∧ (b / 16 ∈ blocksOf a n → k = key)) (v : Nat) :
    Framed C D s0 (writeNum s sp key a v n) := by
  have hr := writeNum_rest s sp key a v n
  refine ⟨writeNum_memoryOk h.ok .., ⟨hr.folds h.unfolded.folds, hr.held.trans h.unfolded.held, hr.nc.trans h.unfolded.nc⟩,
    hr.keys.trans h.keys, hr.flipped.trans h.flipped, (writeNum_mgmt ..).trans h.mgmt, fun p => (hr.links p).trans (h.links p),
    fun sp' b k hsp hc => ?_, by rw [hr.posted]; exact h.posts⟩
  rw [← h.bytes sp' b k hsp hc]
  obtain rfl | hne := eq_or_ne sp' sp
  · obtain ⟨hb, hk⟩ := hl b k hsp hc
    exact readByte_writeNum_outside (memOf_wf h.ok _) hb hk
  · exact readByte_writeNum_ne s hne ..

/-- A write at a place that fits. -/
theorem rawWrite (h : Framed C D s0 s) {l : Loc} {n : Nat} (hl : Fits C s0 l n) (v : Nat) : Framed C D s0 (rawWrite s l v n) :=
  h.writeNum (fun b k _ hc => by rw [h.locKey]; exact hl b k hc) v

theorem foldl {α : Type} {f : State → α → State} {l : List α} (hf : ∀ s, ∀ a ∈ l, Framed C D s0 s → Framed C D s0 (f s a))
    (h : Framed C D s0 s) : Framed C D s0 (l.foldl f s) := by
  induction l generalizing s with
  | nil => exact h
  | cons a r ih => exact ih (fun s a ha => hf s a (List.mem_cons_of_mem _ ha)) (hf s a List.mem_cons_self h)

/-! ### Writes on their way -/

theorem pick (h : Framed C D s0 s) : Framed C D s0 s.pick.2 := h.same (pick_tended s).1 (State.memoryOk_pick h.ok)

theorem deliverPost (h : Framed C D s0 s) {x : Posted} (hx : PostFits C D s0 x) : Framed C D s0 (deliverPost s x) := by
  unfold Machine.deliverPost
  extract_lets s1 _ s2
  have ht : Tended s s1 := (keepEarlier_tended s (some x.die) x.home).trans (.of_cores rfl rfl)
  have h1 : Framed C D s0 s1 := h.same ht.1 (keepEarlier_memoryOk h.ok (some x.die) x.home)
  have h2 : Framed C D s0 s2 := by
    refine h1.foldl fun s i hi hs => ?_
    have hi : i < 8 := List.mem_range.1 hi
    extract_lets at' m v s3
    -- a byte of the word that the mask names
    have hbit : ∀ j, j < 8 → m.testBit j = true → Fits C s0 (at' j) 1 := fun j hj hm => by
      have := hx.bytes (8 * i + j) (by omega) (by
        rw [show m = x.mask.toNat / 2 ^ (8 * i) % 2 ^ 8 from rfl, Nat.testBit_mod_two_pow, Nat.testBit_div_two_pow, Nat.add_comm,
          Bool.and_eq_true] at hm
        exact hm.2)
      rwa [← Nat.add_assoc] at this
    have h3 : Framed C D s0 s3 := by
      unfold s3; split
      · exact hs
      · split
        next hm =>
          refine hs.rawWrite (.of_bytes fun j hj => hbit j hj ?_) _
          rw [hm, show 255 = 2 ^ 8 - 1 from rfl, Nat.testBit_two_pow_sub_one]
          exact decide_eq_true hj
        · refine hs.foldl fun s j hj hs => ?_
          split
          next hm => exact hs.rawWrite (hbit j (List.mem_range.1 hj) hm) _
          · exact hs
    rw [hx.good]
    simpa using h3
  exact h2.same ⟨rfl, id⟩ h2.ok

theorem deliverBefore (h : Framed C D s0 s) (x : Posted) {kept : List Posted} (hk : ∀ y ∈ kept, PostFits C D s0 y) :
    Framed C D s0 (deliverBefore x kept s) := by
  refine h.foldl fun s y hy hs => ?_
  have hy := hk y (List.mem_filter.1 hy).1
  split
  · extract_lets c
    split <;> [exact hs.pick.deliverPost hy; exact hs.pick]
  · exact hs.deliverPost hy

theorem settlePosts (sel : Posted → Option Bool) {l kept : List Posted} (h : Framed C D s0 s) (hk : ∀ y ∈ kept, PostFits C D s0 y)
    (hl : ∀ y ∈ l, PostFits C D s0 y) :
    Framed C D s0 (settlePosts sel kept l s).2 ∧ ∀ y ∈ (settlePosts sel kept l s).1, PostFits C D s0 y := by
  induction l generalizing s kept with
  | nil => exact ⟨h, hk⟩
  | cons x r ih =>
    have hx := hl x List.mem_cons_self
    have hr : ∀ y ∈ r, PostFits C D s0 y := fun y hy => hl y (List.mem_cons_of_mem _ hy)
    have hkx : ∀ y ∈ kept ++ [x], PostFits C D s0 y := fun y hy =>
      (List.mem_append.1 hy).elim (hk y) fun e => by rw [List.mem_singleton.1 e]; exact hx
    unfold Machine.settlePosts
    extract_lets done c
    have hdone : ∀ y ∈ done, PostFits C D s0 y := fun y hy => hk y (List.mem_filter.1 hy).1
    split
    · exact ih h hkx hr
    · split
      · exact ih ((h.deliverBefore x hk).deliverPost hx) hdone hr
      · split
        · exact ih ((h.pick.deliverBefore x hk).deliverPost hx) hdone hr
        · refine ih h.pick ?_ hr
          split <;> [exact hk; exact hkx]

theorem settle (h : Framed C D s0 s) (sel : Posted → Option Bool) : Framed C D s0 (settle sel s) := by
  unfold Machine.settle; split
  · exact h
  · extract_lets q
    obtain ⟨hq, hp⟩ := h.settlePosts sel (kept := []) (by simp) h.posts
    exact ⟨hq.ok, ⟨hq.unfolded.folds, hq.unfolded.held, hq.unfolded.nc⟩, hq.keys, hq.flipped, hq.mgmt, hq.links, hq.bytes, hp⟩

theorem settleDevice (h : Framed C D s0 s) (t : Option Nat) (l : Loc) : Framed C D s0 (settleDevice s t l) := by
  unfold Machine.settleDevice; split
  · split <;> [exact h.settle _; exact h]
  · exact h

theorem devTouch (h : Framed C D s0 s) (l : Loc) : Framed C D s0 (devTouch s l) := by
  rw [devTouch_unfolded h.unfolded]; split <;> [exact h.settle _; exact h]

theorem postWrite (h : Framed C D s0 s) (kind : PostKind) (w : Who) {l : Loc} {n : Nat} (hl : Fits C s0 l n) (hd : D (lineLoc l)) (v : Nat) :
    Framed C D s0 (postWrite s kind w l v n) := by
  refine ⟨h.ok, ⟨h.unfolded.folds, h.unfolded.held, h.unfolded.nc⟩, h.keys, h.flipped, h.mgmt, h.links, h.bytes, fun x hx => ?_⟩
  rcases List.mem_append.1 hx with hx | hx
  · exact h.posts x hx
  · rw [List.mem_singleton.1 hx]
    refine ⟨hd, rfl, fun j hj hm => ?_⟩
    have hm : l.addr % 64 ≤ j ∧ j < l.addr % 64 + n := by
      have : (byteMask (l.addr % 64) n).getLsbD j = true := hm
      simp only [byteMask, BitVec.getLsbD_ofNat, Nat.testBit_shiftLeft, Nat.testBit_two_pow_sub_one, Bool.and_eq_true,
        decide_eq_true_eq] at this
      omega
    have := hl.part (o := j - l.addr % 64) (m := 1) (by omega)
    rwa [show l.addr + (j - l.addr % 64) = l.addr / 64 * 64 + j by omega] at this

/-! ### The events of a store -/

variable {w : Who} {l : Loc} {n : Nat}

theorem stampWrite (h : Framed C D s0 s) (pts : Nat) (l : Loc) (owner : Option Nat) : Framed C D s0 (stampWrite s pts l owner).2 :=
  h.same (stampWrite_tended ..).1 (stampWrite_memoryOk h.ok ..)

theorem setPts (h : Framed C D s0 s) (w : Who) (p : Nat) : Framed C D s0 (s.setPts w p) :=
  h.same (setPts_tended ..).1 (State.memoryOk_setPts h.ok ..)

theorem keepEarlier (h : Framed C D s0 s) (e : Option Nat) (l : Loc) : Framed C D s0 (keepEarlier s e l) :=
  h.same (keepEarlier_tended ..).1 (keepEarlier_memoryOk h.ok ..)

theorem notePeer (h : Framed C D s0 s) (t : Option Nat) (l : Loc) : Framed C D s0 (notePeer s t l) :=
  h.same (notePeer_tended ..).1 (notePeer_memoryOk h.ok ..)

theorem pullFolds (h : Framed C D s0 s) (l : Loc) (mine : Option Nat) : Framed C D s0 (pullFolds s l mine) := by
  rw [pullFolds_unfolded h.unfolded]; exact h

theorem homeRead (h : Framed C D s0 s) (w : Who) (l : Loc) (len : Nat) : Framed C D s0 (homeRead s w l len).2 :=
  ((h.devTouch l).pullFolds l w.ts).same (stampRead_tended ..).1 (stampRead_memoryOk ((h.devTouch l).pullFolds l w.ts).ok ..)

theorem landWrite (h : Framed C D s0 s) (hl : Place C D s0 l n) (v : Nat) : Framed C D s0 (landWrite s w l v n) := by
  unfold Machine.landWrite
  extract_lets s1
  have h1 : Framed C D s0 s1 := by
    unfold s1; split
    next hc =>
      simp only [Bool.and_eq_true, Bool.not_eq_true', h.mgmt] at hc
      exact h.postWrite _ _ hl.fits (hl.sent hc.1.1 hc.1.2) _
    · exact (h.keepEarlier _ _).rawWrite hl.fits _
  exact h1.notePeer _ _

theorem homeWrite (h : Framed C D s0 s) (hl : Place C D s0 l n) (v : Nat) (owner : Option Nat) :
    Framed C D s0 (homeWrite s w l v n owner).2 :=
  ((((h.devTouch l).pullFolds l none).stampWrite _ l owner).setPts w _).landWrite hl v

theorem fillStash (h : Framed C D s0 s) (w : Who) (va : Nat) (l : Loc) (long : Bool) : Framed C D s0 (fillStash s w va l long) := by
  have hok := fillStash_memoryOk h.ok w va l long
  unfold Machine.fillStash at hok ⊢
  split
  · exact h
  next m hm =>
    rw [hm] at hok
    extract_lets len r s1 k
    have h1 : Framed C D s0 s1 := (h.same (disown_tended ..).1 (disown_memoryOk h.ok ..)).homeRead w l len
    exact h1.same (.setCore s1 w.core (Core.touch_folds ..)) hok

theorem ownerWrite (h : Framed C D s0 s) (hl : Place C D s0 l n) (x : StashLine) (v : Nat) :
    Framed C D s0 (ownerWrite s w x l v n).2 := by
  unfold Machine.ownerWrite
  extract_lets t s1
  have h1 : Framed C D s0 s1 := by
    unfold s1; split
    · exact h.same ⟨rfl, id⟩ h.ok
    · exact h
  exact (((h1.setPts w t).keepEarlier none l).rawWrite hl.fits v).notePeer _ _

/-- A write to a line that the stash serves goes to its home, and to the slot in local memory. -/
theorem stashWrite (h : Framed C D s0 s) (hl : Place C D s0 l n) (va v : Nat) (long : Bool) :
    Framed C D s0 (stashWrite s w va l v n long) := by
  unfold Machine.stashWrite
  extract_lets r s1
  have h1 : Framed C D s0 s1 := by
    unfold s1 r; split
    · exact h.ownerWrite hl ..
    · exact (h.fillStash ..).homeWrite hl ..
  split
  · extract_lets s2 s3
    have h2 : Framed C D s0 s2 := h1.writeNum (fun b k hsp => absurd rfl (hsp w.core)) v
    have h3 : Framed C D s0 s3 := h2.same (.setCore s2 w.core rfl) (State.memoryOk_setCore_mem h2.ok _ rfl)
    exact h3.same ⟨rfl, id⟩ h3.ok
  · exact h1

/-- One event of a store outside non-coherent host pages. -/
theorem writeEvent (h : Framed C D s0 s) {hint : Hint} {p : Piece} (hnc : p.loc.nc = false)
    (hl : Place C D s0 (Machine.backing s0 p.loc false) p.n) (v : Nat) : Framed C D s0 (writeEvent w hint p v s) := by
  have hok := writeEvent_memoryOk h.ok w hint p v
  unfold Machine.writeEvent at hok ⊢
  extract_lets unc l cached sent s1 x y _ x' r s2
  have hpre : Framed C D s0 (if sent then s else Machine.settleDevice s w.ts l) := by
    split <;> [exact h; exact h.settleDevice ..]
  have h1 : Framed C D s0 s1 := hpre.same (follow_tended ..).1 (follow_memoryOk hpre.ok ..)
  have hbase : l = Machine.backing s0 p.loc false := h.backing ..
  have hln : l.nc = false := (backing_nc ..).trans hnc
  have h2 : Framed C D s0 s2 := by
    unfold s2; split
    · exact h1.rawWrite (hbase ▸ hl.fits) _
    · rw [hln, Bool.false_and, if_neg Bool.false_ne_true, if_neg Bool.false_ne_true]
      split
      · exact h1.stashWrite (hbase ▸ hl) ..
      · have hr : Framed C D s0 r.2 := h1.homeWrite (hbase ▸ hl) ..
        split
        · exact hr.same (sliceUpdate_tended ..).1 (sliceUpdate_memoryOk hr.ok ..)
        · exact hr
  exact h2.same (precede_tended ..).1 (precede_memoryOk h2.ok ..)

end Framed

/-! ### What a store has written -/

/-- The bytes of a place read as those of a number. -/
def Landed (t : State) (l : Loc) (v n : Nat) : Prop :=
  ∀ i, i < n → readByte t l.space (locKey t l) (l.addr + i) = BitVec.ofNat 8 (v / 2 ^ (8 * i))

/-- A place of a shared space that a write lands at once, when it is not on its way. -/
structure Reached (s : State) (l : Loc) : Prop where
  shared : ∀ c, l.space ≠ .core c
  present : l.space.present s
  up : l.hostSide = true → s.mgmt.hostUp = true

theorem Reached.framed {C : Bytes} {D : Loc → Prop} {s0 s : State} {l : Loc} (h : Reached s0 l) (hs : Framed C D s0 s) : Reached s l where
  shared := h.shared
  present p hp := by
    have hl := hs.links p
    have hp := h.present p hp
    rw [← Option.isSome_map (f := Peer.link), hl, Option.isSome_map]
    exact hp
  up hh := by rw [hs.mgmt]; exact h.up hh

namespace Landed
variable {s t : State} {l : Loc} {v n : Nat} {w : Who}

theorem same (h : Landed s l v n) (hl : ∀ c, l.space ≠ .core c) (hs : SameShared s t) : Landed t l v n := by
  intro i hi
  rw [readByte_congr (hs.memOf hl) (hs.tagsOf _), locKey, keyOf, hs.keys]
  exact h i hi

theorem rawWrite (hok : s.memoryOk = true) (hp : l.space.present s) : Landed (rawWrite s l v n) l v n := by
  intro i hi
  rw [show locKey (Machine.rawWrite s l v n) l = locKey s l by simp only [locKey, keyOf, (writeNum_rest ..).keys, Machine.rawWrite]]
  exact readByte_writeNum_inside hp (memOf_wf hok _) _ _ _ hi

theorem landWrite (hok : s.memoryOk = true) (hl : Reached s l) : Landed (landWrite s w l v n) l v n := by
  unfold Machine.landWrite
  extract_lets s1
  refine same ?_ hl.shared (notePeer_tended ..).1
  unfold s1
  rw [if_neg fun hc => ?_]
  · refine .rawWrite (keepEarlier_memoryOk hok ..) fun p hp => ?_
    rw [(keepEarlier_tended ..).toSameShared.links]
    exact hl.present p hp
  · simp only [Bool.and_eq_true, Bool.not_eq_true'] at hc
    exact Bool.false_ne_true (hc.1.2.symm.trans (hl.up hc.1.1))

section framed
variable {C : Bytes} {D : Loc → Prop} {s0 : State} (h : Framed C D s0 s) (hl : Reached s0 l)
include h hl

theorem homeWrite (owner : Option Nat) : Landed (homeWrite s w l v n owner).2 l v n :=
  have hs := (((h.devTouch l).pullFolds l none).stampWrite (s.ptsOf w) l owner).setPts w _
  .landWrite hs.ok (hl.framed hs)

theorem ownerWrite (x : StashLine) : Landed (ownerWrite s w x l v n).2 l v n := by
  unfold Machine.ownerWrite
  extract_lets t s1
  have h1 : Framed C D s0 s1 := by
    unfold s1; split
    · exact h.same ⟨rfl, id⟩ h.ok
    · exact h
  have h2 := (h1.setPts w t).keepEarlier none l
  exact (rawWrite h2.ok (hl.framed h2).present).same hl.shared (notePeer_tended ..).1

theorem stashWrite (va : Nat) (long : Bool) : Landed (stashWrite s w va l v n long) l v n := by
  unfold Machine.stashWrite
  extract_lets r s1
  have h1 : Landed s1 l v n := by
    unfold s1 r; split
    · exact ownerWrite h hl _
    · exact homeWrite (h.fillStash ..) hl _
  split
  · extract_lets s2 s3
    have h2 : Landed s2 l v n := fun i hi => by
      rw [readByte_writeNum_ne s1 (hl.shared w.core), locKey, keyOf, (writeNum_rest ..).keys]
      exact h1 i hi
    have h3 : Landed s3 l v n := h2.same hl.shared (.setCore s2 w.core rfl)
    exact h3.same hl.shared ⟨rfl, id⟩
  · exact h1

end framed

theorem writeEvent {C : Bytes} {D : Loc → Prop} {s0 : State} (h : Framed C D s0 s) {hint : Hint} {p : Piece} (hnc : p.loc.nc = false)
    (hl : Reached s0 (backing s0 p.loc false)) :
    Landed (writeEvent w hint p v s) (backing s0 p.loc false) v p.n := by
  unfold Machine.writeEvent
  extract_lets unc l cached sent s1 x y _ x' r s2
  have hpre : Framed C D s0 (if sent then s else Machine.settleDevice s w.ts l) := by
    split <;> [exact h; exact h.settleDevice ..]
  have h1 : Framed C D s0 s1 := hpre.same (follow_tended ..).1 (follow_memoryOk hpre.ok ..)
  have hbase : l = Machine.backing s0 p.loc false := h.backing ..
  have hln : l.nc = false := (backing_nc ..).trans hnc
  rw [← hbase] at hl ⊢
  have h2 : Landed s2 l v p.n := by
    unfold s2; split
    next c hc => exact absurd hc (hl.shared c)
    · rw [hln, Bool.false_and, if_neg Bool.false_ne_true, if_neg Bool.false_ne_true]
      split
      · exact stashWrite h1 hl p.va _
      · have hr : Landed r.2 l v p.n := homeWrite h1 hl _
        split
        · exact hr.same hl.shared (sliceUpdate_tended ..).1
        · exact hr
  exact h2.same hl.shared (precede_tended ..).1

end Landed

/-! ### The events of a store, one after another -/

/-- The backing of a part of a place is that part of the backing. -/
theorem backing_part (s : State) (l : Loc) (o : Nat) (lining : Bool) :
    backing s { l with addr := l.addr + o } lining = { backing s l lining with addr := (backing s l lining).addr + o } := by
  obtain ⟨sp, addr, key, type, nc, cloak, noRead⟩ := l
  cases cloak with
  | none => rfl
  | some r =>
    cases sp with
    | dev | host =>
      simp only [backing, altAddr]
      split <;> simp [Nat.add_assoc]
    | _ => rfl

/-- The parts of a cut lie in what is cut. -/
theorem cutPiece_inside {step : Nat → Nat → Nat} (hstep : CutsLines step) {p q : Piece} {fuel o n : Nat} (h : q ∈ cutPiece step p fuel o n) :
    ∃ o', q.loc = { p.loc with addr := p.loc.addr + o' } ∧ o' + q.n ≤ o + n := by
  induction fuel generalizing o n with
  | zero => cases h
  | succ fuel ih =>
    unfold cutPiece at h
    split at h
    · cases h
    · obtain ⟨-, hle, -⟩ := hstep (p.loc.addr + o) n (by omega)
      rcases List.mem_cons.1 h with rfl | h
      · exact ⟨o, rfl, by dsimp only; omega⟩
      · obtain ⟨o', hloc, hn⟩ := ih h
        exact ⟨o', hloc, by omega⟩

theorem eventPieces_inside {vec : Bool} {p q : Piece} (h : q ∈ eventPieces vec p) :
    ∃ o, q.loc = { p.loc with addr := p.loc.addr + o } ∧ o + q.n ≤ p.n := by
  unfold eventPieces at h
  have hstep : CutsLines (if vec && p.loc.type == 2 then naturalPiece else lineRest) := by
    split <;> [exact naturalPiece_cuts; exact lineRest_cuts]
  obtain ⟨o, hloc, hn⟩ := cutPiece_inside hstep h
  exact ⟨o, hloc, by omega⟩

section events
variable {C : Bytes} {D : Loc → Prop} {s0 s t : State} {w : Who} {h : Hint}

/-- A write either has its event or has none. -/
theorem writeOne_cases {v : Nat} {e : Ev} {x : Nat} (hrun : writeOne w h v e s = .ok (x, t)) :
    ∃ c, reach w (h == .unc) false true e.piece e.base s = .ok (c, s) ∧ x = 0 ∧
      t = if c = 0 then writeEvent w h e.piece v s else s := by
  unfold writeOne at hrun
  obtain ⟨c, s1, hc, hrest⟩ := Op.bind_ok hrun
  clear hrun
  obtain rfl : s1 = s := reach_keeps (P := (· = s)) _ _ _ _ _ _ s rfl c s1 hc
  refine ⟨c, hc, ?_⟩
  by_cases h0 : c = 0
  · rw [if_pos h0] at hrest ⊢
    cases hrest
    exact ⟨rfl, rfl⟩
  · rw [if_neg h0] at hrest ⊢
    cases hrest
    exact ⟨rfl, rfl⟩

theorem Framed.runEvents {v : Ev → Nat} {es : List Ev}
    (hes : ∀ e ∈ es, e.piece.loc.nc = false ∧ Place C D s0 (Machine.backing s0 e.piece.loc false) e.piece.n) (hs : Framed C D s0 s)
    {got got' : NMap Nat} (hrun : Machine.runEvents (fun e => writeOne w h (v e) e) es got s = .ok (got', t)) : Framed C D s0 t := by
  induction es generalizing s got with
  | nil => cases hrun; exact hs
  | cons e r ih =>
    obtain ⟨x, s1, h1, h2⟩ := Op.bind_ok hrun
    obtain ⟨hnc, hl⟩ := hes e List.mem_cons_self
    refine ih (fun e he => hes e (List.mem_cons_of_mem _ he)) ?_ h2
    obtain ⟨c, -, -, rfl⟩ := writeOne_cases h1
    split <;> [exact hs.writeEvent hnc hl _; exact hs]

/-- Nothing refuses an event of a piece that the exporter does not refuse, over a link that is up. -/
theorem reach_up {unc atomic write : Bool} {p : Piece} {low c : Nat} (hrefuse : p.refuse = 0)
    (hup : ∀ q, p.loc.space = .peer q → (s.peer? q).map Peer.link = some .up) (hc : reach w unc atomic write p low s = .ok (c, t)) :
    c = 0 := by
  unfold reach at hc
  split at hc
  · cases hc
  · split at hc
    next q hq =>
      rw [hup q hq, hrefuse] at hc
      dsimp only at hc
      rw [ite_self] at hc
      cases hc
      rfl
    · cases hc
      rfl

end events

/-- No bytes are asked to stay, and nothing may be sent: what a store to a reachable place keeps of the state. -/
abbrev Undisturbed (s0 t : State) : Prop := Framed (fun _ _ _ => False) (fun _ => False) s0 t

theorem Framed.posted_nil {C : Bytes} {s0 t : State} (h : Framed C (fun _ => False) s0 t) : t.msys.posted = [] :=
  List.eq_nil_iff_forall_not_mem.2 fun x hx => (h.posts x hx).line

/-- The bytes of a place under its key. -/
def bytesAt (s : State) (l : Loc) (n : Nat) : Bytes := fun sp b k => sp = l.space ∧ (l.addr ≤ b ∧ b < l.addr + n) ∧ k = locKey s l

/-- The number written to a place in two parts. -/
theorem Landed.append {t : State} {l : Loc} {v o m : Nat} (h : Landed t l v o)
    (h' : Landed t { l with addr := l.addr + o } (v / 2 ^ (8 * o)) m) : Landed t l v (o + m) := by
  intro i hi
  by_cases ho : i < o
  · exact h i ho
  · have := h' (i - o) (by omega)
    rw [Nat.div_div_eq_div_mul, ← Nat.pow_add, ← Nat.mul_add, show o + (i - o) = i by omega] at this
    rw [show l.addr + i = l.addr + o + (i - o) by omega]
    exact this

section landing
variable {s1 s t : State} {w : Who} {h : Hint}

/-- One event of a store to a reachable place: it lands its number, after what has landed before. -/
theorem writeOne_land {e : Ev} {v x o : Nat} {l : Loc} (hs : Undisturbed s1 s) (hnc : e.piece.loc.nc = false) (hrefuse : e.piece.refuse = 0)
    (hup : ∀ q, e.piece.loc.space = .peer q → (s1.peer? q).map Peer.link = some .up)
    (hr : Reached s1 (backing s1 e.piece.loc false)) (hl : backing s1 e.piece.loc false = { l with addr := l.addr + o })
    (hland : Landed s l v o) (hone : writeOne w h (v / 2 ^ (8 * o)) e s = .ok (x, t)) :
    Undisturbed s1 t ∧ Landed t l v (o + e.piece.n) := by
  obtain ⟨c, hc, -, ht⟩ := writeOne_cases hone
  rw [if_pos (reach_up hrefuse (fun q hq => (hs.links q).trans (hup q hq)) hc)] at ht
  subst ht
  have hplace {C : Bytes} {u : State} (hu : u.mgmt = s1.mgmt) (hf : Fits C u (backing s1 e.piece.loc false) e.piece.n) :
      Place C (fun _ => False) u (backing s1 e.piece.loc false) e.piece.n :=
    ⟨hf, fun hh hd => Bool.false_ne_true (hd.symm.trans (hu ▸ hr.up hh))⟩
  have hquiet := hs.writeEvent (w := w) (hint := h) hnc (hplace rfl fun _ _ hf => hf.elim) (v / 2 ^ (8 * o))
  refine ⟨hquiet, .append (fun i hi => ?_) ?_⟩
  · have hbase : Framed (bytesAt s l o) (fun _ => False) s s := .refl hs.ok hs.unfolded hs.posted_nil
    have hfits : Fits (bytesAt s l o) s (backing s1 e.piece.loc false) e.piece.n := by
      rw [hl]
      rintro b k ⟨-, hb, rfl⟩
      exact ⟨by dsimp only; omega, fun _ => rfl⟩
    have hkept := hbase.writeEvent (w := w) (hint := h) hnc (hs.backing .. ▸ hplace hs.mgmt hfits) (v / 2 ^ (8 * o))
    have hshared : ∀ c, l.space ≠ .core c := by rw [hl] at hr; exact hr.shared
    rw [hquiet.locKey, ← hs.locKey, hkept.bytes _ _ _ hshared ⟨rfl, ⟨by omega, by omega⟩, rfl⟩]
    exact hland i hi
  · rw [← hl]
    exact Landed.writeEvent hs hnc hr

variable {p : Piece} (hnc : p.loc.nc = false) (hrefuse : p.refuse = 0)
  (hup : ∀ q, p.loc.space = .peer q → (s1.peer? q).map Peer.link = some .up)
  (hreach : ∀ o, o < p.n → Reached s1 (backing s1 { p.loc with addr := p.loc.addr + o } false))
include hnc hrefuse hup hreach

/-- The events of a store to one reachable piece: what has landed stays, and each lands its part of the number. -/
theorem cutEvents_land {step : Nat → Nat → Nat} (hstep : CutsLines step) {lane v : Nat} (fuel o n : Nat) (hn : n ≤ fuel)
    (ho : o + n ≤ p.n) (got got' : NMap Nat) (hs : Undisturbed s1 s) (hland : Landed s (backing s1 p.loc false) v o)
    (hrun : runEvents (fun e => writeOne w h (v / 2 ^ (8 * e.off)) e) (cutEvents step lane p fuel o n) got s = .ok (got', t)) :
    Landed t (backing s1 p.loc false) v (o + n) := by
  induction fuel generalizing o n got s with
  | zero =>
    obtain rfl : n = 0 := by omega
    cases hrun
    exact hland
  | succ fuel ih =>
    rw [cutEvents_succ] at hrun
    split at hrun
    next h0 => subst h0; cases hrun; exact hland
    next h0 =>
      obtain ⟨hm1, hm2, -⟩ := hstep (p.loc.addr + o) n (by omega)
      obtain ⟨x, s', hone, hrest⟩ := Op.bind_ok hrun
      obtain ⟨hquiet, hkept⟩ := writeOne_land hs hnc hrefuse hup (hreach o (by omega)) (backing_part ..) hland hone
      have := ih (o + step (p.loc.addr + o) n) _ (by omega) (by omega) _ hquiet hkept hrest
      rwa [show o + step (p.loc.addr + o) n + (n - step (p.loc.addr + o) n) = o + n by omega] at this

end landing

/-! ### The statement about stores -/

/-- An access in one part lies in one page. -/
theorem splitPages_single {a n : Nat} {x : Nat × Nat} (hn : 1 ≤ n) (h : splitPages a n = [x]) : x = (a, n) ∧ a % 65536 + n ≤ 65536 := by
  have hmem (i : Nat) (hi : i < 2) (hlt : max a ((a / 65536 + i) * 65536) < a + n) :
      x = (max a ((a / 65536 + i) * 65536), min (a + n) ((a / 65536 + i + 1) * 65536) - max a ((a / 65536 + i) * 65536)) := by
    refine (List.mem_singleton.1 (h ▸ ?_)).symm
    refine List.mem_filter.2 ⟨List.mem_map.2 ⟨i, List.mem_range.2 (by omega), rfl⟩, ?_⟩
    simp only [Bool.and_eq_true, bne_iff_ne, decide_eq_true_eq]
    omega
  have h0 := hmem 0 (by omega) (by omega)
  by_cases hfit : a % 65536 + n ≤ 65536
  · exact ⟨by rw [h0]; exact Prod.ext (by dsimp only; omega) (by dsimp only; omega), hfit⟩
  · have h1 := congrArg Prod.fst (h0.symm.trans (hmem 1 (by omega) (by omega)))
    dsimp only at h1
    omega

/-- A place is its own backing, or a page of the other one (R214). -/
theorem backing_cases (s : State) (l : Loc) (lining : Bool) :
    backing s l lining = l ∨
      (l.space = .dev ∨ l.space = .host) ∧ backing s l lining = { l with space := .alt, addr := altAddr l } := by
  unfold backing
  split
  next hsp => split <;> [exact .inr ⟨.inl hsp, rfl⟩; exact .inl rfl]
  next hsp => split <;> [exact .inr ⟨.inr hsp, rfl⟩; exact .inl rfl]
  · exact .inl rfl

/-- Where a translated part of a store may be written at once. -/
theorem Translated.reached {k : Kind} {a n : Nat} {p : Piece} (hp : Translated k (a, n) p) (hfit : a % 65536 + n ≤ 65536) {s : State}
    (hup : ∀ q, p.loc.space = .peer q → (s.peer? q).map Peer.link = some .up) (hhost : p.loc.space = .host → s.mgmt.hostUp = true)
    {o : Nat} (ho : o < n) : Reached s (backing s { p.loc with addr := p.loc.addr + o } false) := by
  rcases backing_cases s { p.loc with addr := p.loc.addr + o } false with e | ⟨hsp, e⟩ <;> rw [e]
  · refine ⟨hp.core, fun q hq => ?_, fun hh => ?_⟩
    · rw [← Option.isSome_map (f := Peer.link), hup q hq]; rfl
    · simp only [Loc.hostSide, Bool.or_eq_true, Bool.and_eq_true, beq_iff_eq] at hh
      exact hh.elim hhost fun hh => absurd hh.1 hp.alt
  · refine ⟨fun _ => nofun, fun _ => nofun, fun hh => hsp.elim (fun hdev => ?_) hhost⟩
    -- a page of device memory has its other backing below the host's
    obtain ⟨base, sh, haddr, hpage, hsh⟩ := hp.dev hdev
    have hdev : p.loc.space = .dev := hdev
    have hlow : 2 ^ 41 ≤ p.loc.addr + o := by
      simp only [Loc.hostSide, altAddr, hdev] at hh
      simpa using hh
    obtain ⟨m, hm⟩ : ∃ m, 2 ^ sh = 65536 * m := ⟨2 ^ (sh - 16), by rw [show 65536 = 2 ^ 16 from rfl, ← Nat.pow_add]; congr 1; omega⟩
    have hlt : a % 2 ^ sh < 2 ^ sh := Nat.mod_lt _ (Nat.two_pow_pos sh)
    have hmod : a % 2 ^ sh % 65536 = a % 65536 := Nat.mod_mod_of_dvd a ⟨m, hm⟩
    dsimp only at haddr
    rw [hm] at haddr hpage hlt hmod
    generalize a % (65536 * m) = r at haddr hlt hmod
    omega

/-- The bytes that a store to checked pieces leaves alone, under the keys that read them as before. -/
def clearOf (s : State) (ps : List Piece) : Bytes := fun sp b key =>
  ∀ p ∈ ps, let l := backing s p.loc false
    l.space = sp → ¬(l.addr ≤ b ∧ b < l.addr + p.n) ∧ (b / 16 ∈ blocksOf l.addr p.n → key = locKey s l)

/-- The events of a store write only in its pieces. -/
theorem laneEvents_place {s : State} {ps : List Piece} {lane : Nat} {vec : Bool} {off : Nat} {e : Ev}
    (he : e ∈ laneEvents lane vec off ps) : Place (clearOf s ps) (fun _ => True) s (backing s e.piece.loc false) e.piece.n := by
  obtain ⟨p, hp, hq⟩ := laneEvents_mem he
  obtain ⟨o, hloc, hle⟩ := eventPieces_inside hq
  have hfits : Fits (clearOf s ps) s (backing s p.loc false) p.n := fun b k hc => hc p hp rfl
  rw [hloc, backing_part]
  exact ⟨hfits.part hle, fun _ _ => trivial⟩

/-- A number that was stored in a local memory is read back. -/
theorem rawRead_local {w : Who} {h : Hint} {p : Piece} {c off lane v : Nat} {vec : Bool} (hp : p.loc = localLoc c off) {s t : State}
    (hok : s.memoryOk = true) {got : NMap Nat}
    (hrun : runEvents (fun e => writeOne w h (v / 2 ^ (8 * e.off)) e) (laneEvents lane vec 0 [p]) [] s = .ok (got, t)) :
    rawRead t (localLoc c off) p.n = v % 2 ^ (8 * p.n) := by
  obtain ⟨got', t', hrun', hmem, -⟩ := writeEvents_local (w := w) (h := h) (lane := lane) hp v p.n 0 p.n (Nat.le_refl _) [] s
    (State.core_mem_wf hok c)
  rw [laneEvents_single, if_neg (by rw [hp]; simp [localLoc]), hrun'] at hrun
  obtain rfl : t' = t := congrArg Prod.snd (Except.ok.inj hrun)
  refine readNum_of_bytes fun i hi => ?_
  have hbyte := hmem (off + i)
  rw [if_pos (by omega), Nat.add_sub_cancel_left] at hbyte
  exact hbyte

theorem globalStoreFrame : Claims.GlobalStoreFrame := by
  intro s s1 t h addr n v lane vec ps w hok hsettled hcheck hnc hrun
  obtain ⟨got, hrun, -⟩ := hrun
  have hs := settled.unfolded hsettled
  obtain ⟨htend, hpieces⟩ := checkAccess_tended hs hcheck
  have hok1 : s1.memoryOk = true := checkAccess_keeps w _ addr n s hok ps s1 hcheck
  have hposted : s1.msys.posted = [] := htend.posted.trans hsettled.2.2.1
  have hbase {C : Bytes} {D : Loc → Prop} : Framed C D s1 s1 := .refl hok1 (htend.unfolded hs) hposted
  refine ⟨fun sp b key hsp hclear => ?_, fun p hp hup hhost => ?_⟩
  · have hframe := Framed.runEvents (v := fun e => v / 2 ^ (8 * e.off))
      (fun e he => ⟨laneEvents_nc hnc e he, laneEvents_place he⟩) hbase hrun
    exact (hframe.bytes sp b key hsp hclear).trans (readByte_congr (htend.memOf sp) (htend.tagsOf sp) key b)
  · subst hp
    obtain ⟨-, hno⟩ | hwindow | hparts := hpieces
    · cases hno
    · obtain rfl := List.singleton_inj.1 hwindow
      exact rawRead_local (c := w.core) rfl hok1 hrun
    · generalize hxs : splitPages addr.toNat n = xs at hparts
      obtain - | ⟨hpart, ⟨⟩⟩ := hparts
      obtain rfl | hn := Nat.eq_zero_or_pos n
      · simp [rawRead, readNum, Nat.mod_one]
      obtain ⟨rfl, hfit⟩ := splitPages_single hn hxs
      have hpn : p.n = n := hpart.n
      rw [laneEvents_single] at hrun
      have hland := cutEvents_land (s1 := s1) (hnc p List.mem_cons_self) (hpart.refuse rfl) hup
        (fun o ho => hpart.reached hfit hup (fun hh => htend.mgmt ▸ hhost hh) (hpn ▸ ho))
        (by split <;> [exact naturalPiece_cuts; exact lineRest_cuts]) p.n 0 p.n (Nat.le_refl _) (by omega) [] got hbase
        (fun i hi => absurd hi (Nat.not_lt_zero i)) hrun
      rw [Nat.zero_add, hpn] at hland
      exact readNum_of_bytes hland

/-- Settles O49: a store moves the bytes of its place, and every other byte reads as before. -/
theorem storeFrames : Obligations.StoreFrames := ⟨localWindowAccess, globalStoreFrame⟩

end Sys2Proof.Machine

/-! SUPPORT. Every step keeps the canonical form of every memory (O7, R205, R259, R397): how an outcome and a
packet's step keep it. -/

namespace Sys2Proof.Machine
open Sys2Proof

/-! ### Outcomes, results and packet steps that keep the form of memory -/

/-- The next state of an outcome, when it has one, has memories of canonical form. -/
def EndsOk (o : Out) : Prop := ∀ t, o = .next t → t.memoryOk = true

theorem endsOk_next {s : State} (h : s.memoryOk = true) : EndsOk (.next s) := by
  rintro t ⟨⟩; exact h

theorem endsOk_fault (f : Fault) : EndsOk (.fault f) := by rintro t ⟨⟩

theorem nextMe_endsOk {s : State} (h : s.memoryOk = true) (t : ThreadSet) (n : Nat) : EndsOk (nextMe s t n) :=
  endsOk_next h

theorem guarded_endsOk {s : State} (h : s.memoryOk = true) {k : Out} (hk : EndsOk k) (g : Guard) (len : Nat) :
    EndsOk (guarded g len s k) := by
  unfold guarded; split
  · exact hk
  · exact endsOk_next h

theorem runOp_endsOk {s : State} (h : s.memoryOk = true) {op : Op Unit} (hop : Op.Keeps MemOk op) (i : Instr)
    (len : Nat) : EndsOk (runOp i len op s) :=
  fun _ e => runOp_memoryOk h hop e

/-- A meaning that runs as another thread set keeps the form where it does as its own. -/
theorem asTs_endsOk {s : State} (h : s.memoryOk = true) {k : State → Out}
    (hk : ∀ s, s.memoryOk = true → EndsOk (k s)) (t : Nat) : EndsOk (asTs t k s) := by
  unfold asTs; split
  next u e => exact endsOk_next (s := { u with cur := s.cur }) (hk { s with cur := t } h u e)
  next e => rintro u hu; cases hu
  next e => rintro u hu; cases hu

/-- The state that a completed operation leaves. -/
theorem Op.Keeps.ok {α : Type} {op : Op α} (hop : Op.Keeps MemOk op) {s t : State} (h : s.memoryOk = true)
    {a : α} (e : op s = .ok (a, t)) : t.memoryOk = true :=
  hop s h a t e

/-- A step of the front end that completes leaves memories of canonical form. -/
def Pk.Keeps {α : Type} (p : Pk α) : Prop :=
  ∀ s, s.memoryOk = true → ∀ a t, p s = .ok (a, t) → t.memoryOk = true

section packets
variable {α β : Type}

theorem Pk.Keeps.ok {p : Pk α} (hp : Pk.Keeps p) {s t : State} (h : s.memoryOk = true) {a : α}
    (e : p s = .ok (a, t)) : t.memoryOk = true :=
  hp s h a t e

theorem Pk.keeps_pure (x : α) : Pk.Keeps (pure x) := by
  rintro s h a t ⟨⟩; exact h

theorem Pk.keeps_no (r : Refuse) : Pk.Keeps (Pk.no r : Pk α) := by
  rintro s h a t ⟨⟩

theorem Pk.keeps_ask (f : State → α) : Pk.Keeps (Pk.ask f) := by
  rintro s h a t ⟨⟩; exact h

theorem Pk.keeps_upd {f : State → State} (hf : ∀ s, s.memoryOk = true → (f s).memoryOk = true) :
    Pk.Keeps (Pk.upd f) := by
  rintro s h a t ⟨⟩; exact hf s h

theorem Pk.keeps_need (c : Bool) (r : Refuse) : Pk.Keeps (Pk.need c r) := by
  unfold Pk.need; split
  · exact Pk.keeps_pure ()
  · exact Pk.keeps_no r

theorem Pk.keeps_bind {x : Pk α} {f : α → Pk β} (hx : Pk.Keeps x) (hf : ∀ a, Pk.Keeps (f a)) :
    Pk.Keeps (x >>= f) := by
  intro s h b t e
  change (x s >>= fun r => f r.1 r.2) = _ at e
  match hxs : x s with
  | .ok (a, u) => rw [hxs] at e; exact hf a u (hx s h a u hxs) b t e
  | .error r => rw [hxs] at e; cases e

theorem Pk.keeps_lift {op : Op α} (hop : Op.Keeps MemOk op) (r : FaultInfo → Refuse) :
    Pk.Keeps (Pk.lift op r) := by
  intro s h a t e
  unfold Pk.lift at e
  split at e
  next x hx => cases e; exact hop.ok h hx
  · cases e
  · cases e

theorem Pk.keeps_mapM {f : α → Pk β} (hf : ∀ a, Pk.Keeps (f a)) (l : List α) : Pk.Keeps (l.mapM f) := by
  induction l with
  | nil => rw [List.mapM_nil]; exact Pk.keeps_pure _
  | cons a r ih =>
    rw [List.mapM_cons]
    exact Pk.keeps_bind (hf a) fun _ => Pk.keeps_bind ih fun _ => Pk.keeps_pure _

end packets

theorem getD_memoryOk {s : State} (h : s.memoryOk = true) {o : Option State}
    (ho : ∀ t, o = some t → t.memoryOk = true) : (o.getD s).memoryOk = true := by
  cases o with
  | none => exact h
  | some t => exact ho t rfl

theorem foldl_snd_memoryOk {α β : Type} {f : β × State → α → β × State}
    (hf : ∀ r a, r.2.memoryOk = true → (f r a).2.memoryOk = true) (l : List α) {r : β × State}
    (h : r.2.memoryOk = true) : (l.foldl f r).2.memoryOk = true := by
  induction l generalizing r with
  | nil => exact h
  | cons a l ih => exact ih (hf r a h)

/-- A command's clock is set for some events and put back. -/
theorem withClock_memoryOk {α : Type} {s : State} (h : s.memoryOk = true) {f : State → α × State}
    (hf : ∀ s, s.memoryOk = true → (f s).2.memoryOk = true) (p : Nat) :
    (withClock p f s).2.2.memoryOk = true :=
  State.memoryOk_congr (hf { s with msys := { s.msys with agent := p } } h) rfl rfl rfl rfl rfl

theorem State.memoryOk_setLaunch {s : State} (h : s.memoryOk = true) (l : Launch) :
    (s.setLaunch l).memoryOk = true :=
  h

theorem State.memoryOk_setDisp {s : State} (h : s.memoryOk = true) (d : Disp) :
    (s.setDisp d).memoryOk = true :=
  h

end Sys2Proof.Machine

/-! SUPPORT. Every step keeps the canonical form of every memory (O7): loads, stores, atomics, folds and
fences, and bandwidth leases. -/

namespace Sys2Proof.Machine
open Sys2Proof

theorem postWrite_memoryOk {s : State} (h : s.memoryOk = true) (kind : PostKind) (w : Who) (l : Loc)
    (v n : Nat) : (postWrite s kind w l v n).memoryOk = true :=
  h

theorem ncRemove_memoryOk {s : State} (h : s.memoryOk = true) (die : Nat) (l : Loc) :
    (ncRemove s die l).memoryOk = true :=
  h

theorem putRegion_memoryOk {s : State} (h : s.memoryOk = true) (r : Region) :
    (putRegion s r).memoryOk = true :=
  h

theorem holdFold_memoryOk {s : State} (h : s.memoryOk = true) (f : Fold) : (holdFold s f).memoryOk = true := h

theorem setCopy_memoryOk {s : State} (h : s.memoryOk = true) (c : LeaseCopy) :
    (setCopy s c).memoryOk = true :=
  h

theorem cleanStash_memoryOk {s : State} (h : s.memoryOk = true) (c : Nat) (hit : StashLine → Bool) :
    (cleanStash s c hit).memoryOk = true := by
  unfold cleanStash
  extract_lets s1 k
  have h1 : s1.memoryOk = true := by
    unfold s1
    refine foldl_memoryOk (fun s2 x hs => ?_) _ h
    split
    · exact recallOwner_memoryOk hs _ _
    · exact hs
  exact State.memoryOk_setCore_mem h1 _ rfl

theorem dropStash_memoryOk {s : State} (h : s.memoryOk = true) (c : Nat) (hit : StashLine → Bool) :
    (dropStash s c hit).memoryOk = true := by
  unfold dropStash
  extract_lets s1 k
  exact State.memoryOk_setCore_mem (cleanStash_memoryOk h _ _) _ rfl

theorem addFault_memoryOk {s : State} (h : s.memoryOk = true) (t source : Nat) (f : FaultInfo) (i : Instr)
    (pc : Word) (cmd pts : Nat) : (addFault s t source f i pc cmd pts).1.memoryOk = true := by
  unfold addFault
  extract_lets x n y handle s1 r
  have h1 : s1.memoryOk = true := State.memoryOk_setTs h _ _
  exact h1

theorem resumeFault_memoryOk {s : State} (h : s.memoryOk = true) (r : FaultRec) :
    (resumeFault s r).memoryOk = true := by
  unfold resumeFault
  extract_lets t len
  exact State.memoryOk_setTs h _ _

theorem skipFault_memoryOk {s : State} (h : s.memoryOk = true) (r : FaultRec) (x : Word) :
    (skipFault s r x).memoryOk = true := by
  unfold skipFault
  extract_lets t
  exact State.memoryOk_setTs h _ _

theorem addWriteback_memoryOk {s : State} (h : s.memoryOk = true) (w : Writeback) :
    (addWriteback s w).memoryOk = true :=
  h

theorem dropWritten_memoryOk {s : State} (h : s.memoryOk = true) (die : Nat) (ps : List Piece) :
    (dropWritten die ps s).memoryOk = true :=
  h

theorem execLd_endsOk {s : State} (h : s.memoryOk = true) (sz : LdSize) (hint : Hint) (d a : Reg)
    (disp : Imm 9) : EndsOk (execLd sz hint d a disp s) := by
  unfold execLd
  extract_lets i
  exact runOp_endsOk h (loadOp_keeps _ _ _ _ _ (fun _ _ hs => State.memoryOk_setMe hs _)) _ _

theorem execSt_endsOk {s : State} (h : s.memoryOk = true) (sz : StSize) (hint : Hint) (d a : Reg)
    (disp : Imm 9) : EndsOk (execSt sz hint d a disp s) := by
  unfold execSt
  extract_lets i
  exact runOp_endsOk h (storeOp_keeps _ _ _ _ _ _ (fun _ hs => hs)) _ _

theorem execVld_endsOk {s : State} (h : s.memoryOk = true) (sz : VSize) (hint : Hint) (d a : Reg)
    (disp : Imm 9) : EndsOk (execVld sz hint d a disp s) := by
  unfold execVld
  extract_lets i
  exact runOp_endsOk h (loadOp_keeps _ _ _ _ _ (fun _ _ hs => State.memoryOk_setMe hs _)) _ _

theorem execVst_endsOk {s : State} (h : s.memoryOk = true) (sz : VSize) (hint : Hint) (d a : Reg)
    (disp : Imm 9) : EndsOk (execVst sz hint d a disp s) := by
  unfold execVst
  extract_lets x i
  exact runOp_endsOk h (storeOp_keeps _ _ _ _ _ _ (fun _ hs => State.memoryOk_setMe hs _)) _ _

theorem laneAccesses_keeps (w : Who) (k : Kind) (n : Nat) (addrs : List (Nat × Word)) :
    Op.Keeps MemOk (laneAccesses w k n addrs) := by
  unfold laneAccesses
  exact Op.keeps_bind (Op.keeps_mapM (fun _ => Op.keeps_bind (checkAccess_keeps _ _ _ _) fun _ =>
    Op.keeps_pure _) _) fun _ => Op.keeps_pure _

theorem vectorLoad_keeps (i : Instr) (k : KReg) (et : ElemTy) (hint : Hint) (d : Reg) (addr : Nat → Word) :
    Op.Keeps MemOk (vectorLoad i k et hint d addr s) := by
  unfold vectorLoad
  extract_lets w
  refine accessOp_keeps (laneAccesses_keeps _ _ _ _) (fun _ => readOne_keeps _ _ _) ?_
    (fun _ _ hs => State.memoryOk_setMe hs _)
  intro got s1 x
  extract_lets res
  exact State.memoryOk_setMe x _

theorem execVlds_endsOk {s : State} (h : s.memoryOk = true) (g : Guard) (k : KReg) (et : ElemTy) (hint : Hint)
    (d a b : Reg) (disp : Imm 13) : EndsOk (execVlds g k et hint d a b disp s) := by
  unfold execVlds
  extract_lets t i
  exact guarded_endsOk h (runOp_endsOk h (vectorLoad_keeps _ _ _ _ _ _) _ _) _ _

theorem execVldx_endsOk {s : State} (h : s.memoryOk = true) (g : Guard) (k : KReg) (et : ElemTy) (hint : Hint)
    (sc : Bool) (d a b : Reg) (disp : Imm 13) : EndsOk (execVldx g k et hint sc d a b disp s) := by
  unfold execVldx
  extract_lets i
  exact guarded_endsOk h (runOp_endsOk h (vectorLoad_keeps _ _ _ _ _ _) _ _) _ _

theorem execVstx_endsOk {s : State} (h : s.memoryOk = true) (g : Guard) (k : KReg) (et : ElemTy) (hint : Hint)
    (sc : Bool) (d a b : Reg) (disp : Imm 13) : EndsOk (execVstx g k et hint sc d a b disp s) := by
  unfold execVstx
  extract_lets t x w as i
  exact guarded_endsOk h
    (runOp_endsOk h (accessOp_keeps (laneAccesses_keeps _ _ _ _) (fun _ => writeOne_keeps _ _ _ _)
    (fun _ _ hs => State.memoryOk_setMe hs _) (fun _ _ hs => State.memoryOk_setMe hs _)) _ _) _ _

theorem execVldb_endsOk {s : State} (h : s.memoryOk = true) (g : Guard) (k : KReg) (et : ElemTy) (hint : Hint)
    (d a : Reg) (disp : Imm 13) : EndsOk (execVldb g k et hint d a disp s) := by
  unfold execVldb
  extract_lets t i fin
  have hfin : ∀ x1 u, u.memoryOk = true → (fin x1 u).memoryOk = true := by
    intro x1 u hu
    unfold fin
    exact State.memoryOk_setMe hu _
  refine guarded_endsOk h ?_ _ _
  refine runOp_endsOk h ?_ _ _
  split
  · exact loadOp_keeps _ _ _ _ _ (fun _ _ hs => hfin _ _ hs)
  · exact Op.keeps_upd fun _ hs => hfin _ _ hs

theorem atomicPieces_keeps (w : Who) (k : Kind) (addr : Word) (n : Nat) (supported : Bool) :
    Op.Keeps MemOk (atomicPieces w k addr n supported) := by
  unfold atomicPieces
  exact Op.keeps_bind (Op.keeps_need _ _) fun _ => Op.keeps_bind (checkAccess_keeps _ _ _ _) fun _ =>
    Op.keeps_bind (Op.keeps_need _ _) fun _ => Op.keeps_pure _

theorem execAmo_endsOk {s : State} (h : s.memoryOk = true) (g : Guard) (fn : AmoFn) (wide : Bool)
    (d a b : Reg) (disp : Imm 13) : EndsOk (execAmo g fn wide d a b disp s) := by
  unfold execAmo
  extract_lets t n w
  exact guarded_endsOk h (runOp_endsOk h (Op.keeps_bind (atomicPieces_keeps _ _ _ _ _) fun _ =>
    Op.keeps_bind (needClean_keeps _ _) fun _ => Op.keeps_bind (rmw_keeps _ _ _) fun _ =>
    Op.keeps_upd fun _ hs => State.memoryOk_setMe hs _) _ _) _ _

theorem execCas_endsOk {s : State} (h : s.memoryOk = true) (g : Guard) (wide : Bool) (d a b c : Reg)
    (disp : Imm 13) : EndsOk (execCas g wide d a b c disp s) := by
  unfold execCas
  extract_lets t n w
  exact guarded_endsOk h (runOp_endsOk h (Op.keeps_bind (atomicPieces_keeps _ _ _ _ _) fun _ =>
    Op.keeps_bind (needClean_keeps _ _) fun _ => Op.keeps_bind (rmw_keeps _ _ _) fun _ =>
    Op.keeps_upd fun _ hs => State.memoryOk_setMe hs _) _ _) _ _

theorem execCas2_endsOk {s : State} (h : s.memoryOk = true) (g : Guard) (d a b c : Reg) (disp : Imm 13) :
    EndsOk (execCas2 g d a b c disp s) := by
  unfold execCas2
  extract_lets t w
  exact guarded_endsOk h (runOp_endsOk h (Op.keeps_bind (atomicPieces_keeps _ _ _ _ _) fun _ =>
    Op.keeps_bind (needClean_keeps _ _) fun _ => Op.keeps_bind (rmw_keeps _ _ _) fun _ =>
    Op.keeps_upd fun _ hs => State.memoryOk_setMe hs _) _ _) _ _

theorem enterFold_memoryOk {s : State} (h : s.memoryOk = true) (w : Who) (t : Nat) (p : Piece) (fn : FoldFn)
    (et : ElemTy) (y : Nat) : (enterFold w t p fn et y s).memoryOk = true := by
  unfold enterFold
  extract_lets off l s1 k pts arrived upd new s2 k2
  have h1 : s1.memoryOk = true := placeCore_memoryOk h _ _
  clear_value s1
  split
  · exact State.memoryOk_setCore_mem h1 _ rfl
  · have h2 : s2.memoryOk = true := by
      unfold s2
      split
      · split
        · exact h1
        next f r _ _ =>
          have hcore : (s1.setCore w.core { k with folds := r }).memoryOk = true :=
            State.memoryOk_setCore_mem h1 _ rfl
          exact placeFold_memoryOk hcore f
      · exact h1
    clear_value s2
    exact State.memoryOk_setCore_mem h2 _ rfl

theorem foldIn_memoryOk {s : State} (h : s.memoryOk = true) (w : Who) (t : Nat) (ps : List Piece)
    (fn : FoldFn) (et : ElemTy) (y : Nat) : (foldIn w t ps fn et y s).memoryOk = true := by
  unfold foldIn
  split
  · exact h
  · split
    · split
      · exact errorLog_memoryOk h _ _ _ _ _
      · exact rmwEvent_memoryOk h _ _ _
    · exact notePeer_memoryOk (enterFold_memoryOk h _ _ _ _ _ _) _ _

theorem execAmof_endsOk {s : State} (h : s.memoryOk = true) (g : Guard) (fn : FoldFn) (et : ElemTy)
    (a b : Reg) (disp : Imm 13) : EndsOk (execAmof g fn et a b disp s) := by
  unfold execAmof
  extract_lets t w
  exact guarded_endsOk h (runOp_endsOk h (Op.keeps_bind (atomicPieces_keeps _ _ _ _ _) fun _ =>
    Op.keeps_upd fun _ hs => foldIn_memoryOk hs _ _ _ _ _ _) _ _) _ _

theorem settleHost_memoryOk {s : State} (h : s.memoryOk = true) (t : Nat) (complete : Bool) :
    (settleHost s t complete).memoryOk = true := by
  unfold settleHost
  extract_lets s1 mine fs report _ _ s2
  have h2 : s2.memoryOk = true := by
    unfold s2
    have h1 : s1.memoryOk = true := settle_memoryOk h _
    exact h1
  refine foldl_memoryOk (fun s3 f hs => ?_) _ h2
  extract_lets c
  split
  · exact performFold_memoryOk hs _
  · split
    · exact performFold_memoryOk (State.memoryOk_pick hs) _
    · exact State.memoryOk_pick hs

theorem endFence_memoryOk {s : State} (h : s.memoryOk = true) (t : Nat) (sc : Scope) (d : Reg) (x : Word) :
    (endFence s t sc d x).memoryOk = true := by
  unfold endFence
  extract_lets s1 y _ y2
  have h1 : s1.memoryOk = true := by
    unfold s1
    split
    · exact settleHost_memoryOk h _ _
    · exact h
  exact State.memoryOk_setTs h1 _ _

theorem execFence_endsOk {s : State} (h : s.memoryOk = true) (sc : Scope) (d : Reg) :
    EndsOk (execFence sc d s) := by
  unfold execFence
  extract_lets s1
  split
  · exact endsOk_next (endFence_memoryOk (placeFolds_memoryOk h _ _) _ _ _ _)
  · exact endsOk_next (State.memoryOk_setMe (placeFolds_memoryOk h _ _) _)

theorem execCwait_endsOk {s : State} (h : s.memoryOk = true) (d a b : Reg) : EndsOk (execCwait d a b s) := by
  unfold execCwait
  extract_lets t
  refine runOp_endsOk h ?_ _ _
  refine Op.keeps_bind (Op.keeps_need _ _) fun x => ?_
  refine Op.keeps_bind (memRead_keeps _ _ _ _) fun v => ?_
  split
  · exact Op.keeps_stop _
  · exact Op.keeps_upd fun _ hs => State.memoryOk_setMe hs _

theorem execFdrain_endsOk {s : State} (h : s.memoryOk = true) : EndsOk (execFdrain s) := by
  unfold execFdrain
  extract_lets s1
  split
  · exact endsOk_next (State.memoryOk_setMe (placeFolds_memoryOk h _ _) _)
  · exact endsOk_next (State.memoryOk_advance (placeFolds_memoryOk h _ _) _)

theorem prefetch_memoryOk {s : State} (h : s.memoryOk = true) (w : Who) (hint : Hint) (p : Piece) :
    (prefetch w hint p s).memoryOk = true := by
  unfold prefetch
  extract_lets l s1 pts x s2
  split
  · exact h
  · have h2 : s2.memoryOk = true := by
      unfold s2
      split
      · split
        · exact placeOwn_memoryOk h _ _
        · have hx : x.2.memoryOk = true := ncFetch_memoryOk (placeOwn_memoryOk h _ _) _ _ _
          exact ncMirror_memoryOk hx _ _ _ _
      · split
        · split
          · exact placeOwn_memoryOk h _ _
          · exact fillStash_memoryOk (placeOwn_memoryOk h _ _) _ _ _ _
        · exact sliceRead_memoryOk (placeOwn_memoryOk h _ _) _ _ _ _
    exact State.memoryOk_setPts h2 _ _

theorem execPf_endsOk {s : State} (h : s.memoryOk = true) (hint : Hint) (a : Reg) :
    EndsOk (execPf hint a s) := by
  unfold execPf
  extract_lets w s'
  have h' : s'.memoryOk = true := by
    unfold s'
    split
    next e =>
      exact foldl_memoryOk (fun _ _ hs => prefetch_memoryOk hs _ _ _) _ ((checkAccess_keeps _ _ _ _).ok h e)
    · exact h
  exact endsOk_next (State.memoryOk_advance h' _)

theorem cleanLines_memoryOk {s : State} (h : s.memoryOk = true) (die : Nat) (page : Loc) (lo hi t : Nat) :
    (cleanLines s die page lo hi t).memoryOk = true := by
  unfold cleanLines
  refine foldl_memoryOk (fun s1 x hs => ?_) _ h
  split
  · exact ncSet_memoryOk (ncSend_memoryOk hs _ _) _
  · exact hs

theorem joinWritebacks_memoryOk {s : State} (h : s.memoryOk = true) (die : Nat) (page : Loc) (lo hi t : Nat) :
    (joinWritebacks s die page lo hi t).memoryOk = true :=
  h

theorem execCwb_endsOk {s : State} (h : s.memoryOk = true) (a b : Reg) : EndsOk (execCwb a b s) := by
  unfold execCwb
  extract_lets w va len lo s'
  have h' : s'.memoryOk = true := by
    unfold s'
    split
    · exact h
    · split
      next e2 =>
        split
        · extract_lets page pl hi s2 k
          have h2 : s2.memoryOk = true :=
            cleanLines_memoryOk
            (joinWritebacks_memoryOk ((walkFrom_keeps _ _ _ _ _ _ _).ok h e2) _ _ _ _ _) _ _ _ _ _
          exact State.memoryOk_setCore_mem h2 _ rfl
        · exact (walkFrom_keeps _ _ _ _ _ _ _).ok h e2
      · exact h
  exact endsOk_next (State.memoryOk_advance h' _)

/-! ### Peers and leases -/

theorem setPoolChan_memoryOk {s : State} (h : s.memoryOk = true) (j : Nat) (c : PoolChan) :
    (setPoolChan s j c).memoryOk = true :=
  h

/-- A peer's record is replaced by one whose memory has the form. -/
theorem setPeer_memoryOk {s : State} (h : s.memoryOk = true) {p : Peer} (hp : p.mem.wf = true) :
    (setPeer s p).memoryOk = true := by
  have h' := (State.memoryOk_iff s).1 h
  refine (State.memoryOk_iff _).2 ⟨h'.1, h'.2.1, h'.2.2.1, h'.2.2.2.1, fun q hq => ?_⟩
  obtain ⟨y, hy, rfl⟩ := List.mem_map.1 hq
  split <;> [exact hp; exact h'.2.2.2.2 y hy]

theorem peer?_mem_wf {s : State} (h : s.memoryOk = true) {p : Nat} {x : Peer} (e : s.peer? p = some x) :
    x.mem.wf = true :=
  ((State.memoryOk_iff s).1 h).2.2.2.2 x (List.mem_of_find?_eq_some e)

theorem setRx_memoryOk {s : State} (h : s.memoryOk = true) (pool : Option Nat) (i : Nat) (c : RxChan) :
    (setRx s pool i c).memoryOk = true := by
  unfold setRx
  split
  · exact h
  · split
    next x e => exact setPeer_memoryOk (p :=
      { x with rx := x.rx.set i c }) h (show x.mem.wf = true from peer?_mem_wf h e)
    · exact h

theorem takeRx_memoryOk {s : State} (h : s.memoryOk = true) {peer : Nat} {r : Nat × Nat × State}
    (e : takeRx s peer = some r) : r.2.2.memoryOk = true := by
  unfold takeRx at e
  extract_lets m at e
  split at e
  · cases e
    exact setRx_memoryOk h _ _ _
  · obtain ⟨i, -, rfl⟩ := Option.map_eq_some_iff.1 e
    exact setRx_memoryOk (State.memoryOk_pick h) _ _ _

theorem ownRx_memoryOk {s : State} (h : s.memoryOk = true) (peer i : Nat) :
    (ownRx s peer i).memoryOk = true := by
  unfold ownRx
  extract_lets c
  exact setRx_memoryOk h _ _ _

theorem dropRx_memoryOk {s : State} (h : s.memoryOk = true) (peer i rxAt : Nat) :
    (dropRx s peer i rxAt).memoryOk = true := by
  unfold dropRx
  extract_lets c
  split
  · exact setRx_memoryOk h _ _ _
  · exact setRx_memoryOk h _ _ _

theorem giveChan_memoryOk {s : State} (h : s.memoryOk = true) (j a peer i rxAt : Nat) :
    (giveChan s j a peer i rxAt).memoryOk = true := by
  unfold giveChan
  extract_lets c heard at' ready busy s1
  split
  · exact ownRx_memoryOk (setPoolChan_memoryOk h _ _) _ _
  · exact setPoolChan_memoryOk h _ _

theorem takeFree_memoryOk {s : State} (h : s.memoryOk = true) {l : Lease} {t : State}
    (e : takeFree s l = some t) : t.memoryOk = true := by
  unfold takeFree at e
  split at e
  · obtain ⟨r, hr, rfl⟩ := Option.map_eq_some_iff.1 e
    exact giveChan_memoryOk (takeRx_memoryOk h hr) _ _ _ _ _
  · cases e

theorem fillPending_memoryOk {s : State} (h : s.memoryOk = true) : (fillPending s).memoryOk = true := by
  unfold fillPending
  refine foldl_memoryOk (fun s1 l hs => ?_) _ h
  refine foldl_memoryOk (fun s2 a hs1 => ?_) _ hs
  split
  · exact getD_memoryOk hs1 (fun _ e1 => takeFree_memoryOk hs1 e1)
  · exact hs1

theorem releaseChan_memoryOk {s : State} (h : s.memoryOk = true) (j : Nat) :
    (releaseChan s j).memoryOk = true := by
  unfold releaseChan
  extract_lets c tuned retune s1 s2
  have h1 : s1.memoryOk = true := by
    unfold s1
    split
    · exact dropRx_memoryOk h _ _ _
    · exact h
  have h2 : s2.memoryOk = true := setPoolChan_memoryOk h1 _ _
  split
  · split
    · split
      · exact giveChan_memoryOk h2 _ _ _ _ _
      · exact dropRx_memoryOk h2 _ _ _
    · exact h2
  · exact h2

theorem dropClaim_memoryOk {s : State} (h : s.memoryOk = true) (a j : Nat) :
    (dropClaim s a j).memoryOk = true := by
  unfold dropClaim
  extract_lets c s1
  have h1 : s1.memoryOk = true := by
    unfold s1
    split
    · exact dropRx_memoryOk h _ _ _
    · exact h
  exact setPoolChan_memoryOk h1 _ _

theorem dropClaims_memoryOk {s : State} (h : s.memoryOk = true) (a : Nat) :
    (dropClaims s a).memoryOk = true := by
  unfold dropClaims
  extract_lets s1
  have h1 : s1.memoryOk = true := foldl_memoryOk (fun _ _ hs => dropClaim_memoryOk hs _ _) _ h
  exact foldl_memoryOk (fun _ _ hs => releaseChan_memoryOk hs _) _ h1

theorem endLease_memoryOk {s : State} (h : s.memoryOk = true) (a : Nat) : (endLease s a).memoryOk = true := by
  unfold endLease
  extract_lets s1 s2
  have h2 : s2.memoryOk = true :=
    foldl_memoryOk (fun _ _ hs => releaseChan_memoryOk hs _) _ (dropClaims_memoryOk h _)
  exact fillPending_memoryOk (State.memoryOk_congr h2 rfl rfl rfl rfl rfl)

theorem setLease_memoryOk {s : State} (h : s.memoryOk = true) (l : Lease) : (setLease s l).memoryOk = true :=
  h

theorem failRequest_memoryOk {s : State} (h : s.memoryOk = true) (l : Lease) (status : Nat) :
    (failRequest s l status).memoryOk = true := by
  unfold failRequest
  extract_lets s1
  exact endLease_memoryOk (State.memoryOk_setTs h _ _) _

theorem endPeerLeases_memoryOk {s : State} (h : s.memoryOk = true) (peer : Nat) :
    (endPeerLeases s peer).memoryOk = true := by
  unfold endPeerLeases
  refine foldl_memoryOk (fun s1 l hs => ?_) _ h
  split
  · exact endLease_memoryOk hs _
  · exact failRequest_memoryOk hs _ _

theorem endLaunchLeases_memoryOk {s : State} (h : s.memoryOk = true) (n : Nat) :
    (endLaunchLeases s n).memoryOk = true := by
  unfold endLaunchLeases
  refine foldl_memoryOk (fun s1 l hs => ?_) _ h
  split
  · exact endLease_memoryOk hs _
  · exact failRequest_memoryOk hs _ _

theorem renewLease_memoryOk {s : State} (h : s.memoryOk = true) (l : Lease) (k dur : Nat) :
    (renewLease s l k dur).2.memoryOk = true := by
  unfold renewLease
  extract_lets n own fresh order kept s1
  have h1 : s1.memoryOk = true := by
    unfold s1
    refine foldl_memoryOk (fun s2 j hs => ?_) _ h
    extract_lets c
    exact setPoolChan_memoryOk hs _ _
  split
  · exact h1
  · exact setLease_memoryOk h1 _

theorem newLease_memoryOk {s : State} (h : s.memoryOk = true) (d : Reg) (peer count dur : Nat) :
    (newLease s d peer count dur).memoryOk = true :=
  State.memoryOk_setMe h _

theorem execBwlease_endsOk {s : State} (h : s.memoryOk = true) (d a b : Reg) :
    EndsOk (execBwlease d a b s) := by
  unfold execBwlease
  extract_lets w dur n count peer fin wrong other
  have hfin : ∀ x1 x2 x3 u, u.memoryOk = true → EndsOk (fin x1 x2 x3 u) := by
    intro x1 x2 x3 u hu
    unfold fin
    exact nextMe_endsOk hu _ _
  split
  · exact nextMe_endsOk h _ _
  · split
    · split
      · exact hfin _ _ _ _ h
      · split
        · exact hfin _ _ _ _ h
        · exact endsOk_next (State.memoryOk_advance (newLease_memoryOk h _ _ _ _) _)
    · split
      · exact hfin _ _ _ _ h
      · split
        · exact hfin _ _ _ _ h
        · split
          · exact hfin _ _ _ _ h
          · extract_lets r
            exact hfin _ _ _ _ (renewLease_memoryOk h _ _ _)

theorem finishRel_endsOk {s : State} (h : s.memoryOk = true) (d : Reg) (token : Word)
    (flits : List (Nat × List (BitVec 32))) : EndsOk (finishRel s d token flits) := by
  unfold finishRel
  split
  · exact nextMe_endsOk h _ _
  · extract_lets s1 r
    have h1 : s1.memoryOk = true := State.memoryOk_setMe h _
    exact endsOk_next (State.memoryOk_congr h1 rfl rfl rfl rfl rfl)

theorem execBwrel_endsOk {s : State} (h : s.memoryOk = true) (d a : Reg) : EndsOk (execBwrel d a s) := by
  unfold execBwrel
  extract_lets w n fin held n2 first rest freed
  have hfin : ∀ x1 x2 x3 x4 u, u.memoryOk = true → EndsOk (fin x1 x2 x3 x4 u) := by
    intro x1 x2 x3 x4 u hu
    unfold fin
    exact nextMe_endsOk hu _ _
  split
  · exact nextMe_endsOk h _ _
  · split
    · exact hfin _ _ _ _ _ h
    · split
      · exact hfin _ _ _ _ _ (failRequest_memoryOk h _ _)
      · split
        · exact finishRel_endsOk (endLease_memoryOk h _) _ _ _
        · exact finishRel_endsOk
            (fillPending_memoryOk (foldl_memoryOk (fun _ _ hs => releaseChan_memoryOk hs _) _ h)) _ _ _

theorem execBwq_endsOk {s : State} (h : s.memoryOk = true) (d a : Reg) : EndsOk (execBwq d a s) := by
  unfold execBwq
  extract_lets w n p fin bad
  have hfin : ∀ x1, EndsOk (fin x1) := by
    intro x1
    unfold fin
    exact nextMe_endsOk h _ _
  split
  · exact hfin _
  · split
    · exact hfin _
    · exact hfin _

theorem claimPair_memoryOk {s : State} (h : s.memoryOk = true) {l : Lease} {t : State}
    (e : claimPair s l = some t) : t.memoryOk = true := by
  unfold claimPair at e
  extract_lets n at e
  split at e
  · cases e
  next i rxAt u hr =>
    have hu : u.memoryOk = true := takeRx_memoryOk h hr
    split at e
    · cases e
      exact giveChan_memoryOk hu _ _ _ _ _
    · split at e
      · cases e
        exact hu
      · cases e

theorem claimPairs_memoryOk {s : State} (h : s.memoryOk = true) (l : Lease) (n : Nat) :
    (claimPairs l n s).memoryOk = true := by
  induction n generalizing s with
  | zero => exact h
  | succ n ih =>
    unfold claimPairs
    split
    next t e => exact ih (claimPair_memoryOk h e)
    · exact h

theorem execLeaseFirstPass_endsOk {s : State} (h : s.memoryOk = true) (i : Nat) :
    EndsOk (execLeaseFirstPass i s) := by
  unfold execLeaseFirstPass
  split
  · exact endsOk_next h
  · split
    · exact endsOk_next h
    · extract_lets n s1
      split
      · exact endsOk_next (failRequest_memoryOk (claimPairs_memoryOk h _ _) _ _)
      · exact endsOk_next (setLease_memoryOk (claimPairs_memoryOk h _ _) _)

theorem closeRequest_memoryOk {s : State} (h : s.memoryOk = true) (l : Lease) :
    (closeRequest s l).memoryOk = true := by
  unfold closeRequest
  extract_lets kept s1 s2
  have h2 : s2.memoryOk = true := dropClaims_memoryOk (setLease_memoryOk h _) _
  exact fillPending_memoryOk (foldl_memoryOk (fun _ _ hs => releaseChan_memoryOk hs _) _ h2)

theorem grantLease_memoryOk {s : State} (h : s.memoryOk = true) (l : Lease) :
    (grantLease s l).memoryOk = true := by
  unfold grantLease
  extract_lets n k s1
  split
  · exact failRequest_memoryOk h _ _
  · split
    · exact setLease_memoryOk (State.memoryOk_setTs h _ _) _
    · exact h

theorem execLeaseGrant_endsOk {s : State} (h : s.memoryOk = true) (i : Nat) :
    EndsOk (execLeaseGrant i s) := by
  unfold execLeaseGrant
  extract_lets s1
  split
  · exact endsOk_next (fillPending_memoryOk h)
  · split
    · exact endsOk_next (fillPending_memoryOk h)
    · split
      · exact endsOk_next (grantLease_memoryOk (closeRequest_memoryOk (fillPending_memoryOk h) _) _)
      · split
        · exact endsOk_next (grantLease_memoryOk (fillPending_memoryOk h) _)
        · exact endsOk_next (fillPending_memoryOk h)

theorem execLeaseExpiry_endsOk {s : State} (h : s.memoryOk = true) (i : Nat) :
    EndsOk (execLeaseExpiry i s) := by
  unfold execLeaseExpiry
  split
  · exact endsOk_next h
  · extract_lets n due
    split
    · exact endsOk_next h
    · split
      · exact endsOk_next (endLease_memoryOk h _)
      · refine endsOk_next ?_
        split
        · exact h
        · exact fillPending_memoryOk (foldl_memoryOk (fun _ _ hs => releaseChan_memoryOk hs _) _ h)

end Sys2Proof.Machine

/-! SUPPORT. Every step keeps the canonical form of every memory (O7): launches and their ends, queues, faults
and replies. -/

namespace Sys2Proof.Machine
open Sys2Proof

theorem State.updLaunch_memoryOk {s : State} (h : s.memoryOk = true) (n : Nat) (f : Launch → Launch) :
    (State.updLaunch s n f).memoryOk = true := by
  unfold State.updLaunch
  split
  · exact State.memoryOk_setLaunch h _
  · exact h

theorem repostFrom_memoryOk {s : State} (h : s.memoryOk = true) (launch : Nat) (qf : List (BitVec 512)) :
    (repostFrom s launch qf).memoryOk = true :=
  h

theorem noteEnd_memoryOk {s : State} (h : s.memoryOk = true) (t pts : Nat) :
    (noteEnd s t pts).memoryOk = true := by
  unfold noteEnd
  exact State.memoryOk_setTs h _ _

theorem orphanOf_memoryOk {s : State} (h : s.memoryOk = true) (t : Nat) (killed : Bool) :
    (orphanOf s t killed).memoryOk = true :=
  foldl_memoryOk (fun _ _ hs => noteEnd_memoryOk hs _ _) _ (State.memoryOk_setCore_mem h _ rfl)

theorem freeTs_memoryOk {s : State} (h : s.memoryOk = true) (t : Nat) : (freeTs s t).memoryOk = true := by
  unfold freeTs
  exact State.memoryOk_setTs h _ _

theorem passDue_memoryOk {s : State} (h : s.memoryOk = true) (die : Nat) :
    (passDue s die).memoryOk = true := by
  unfold passDue
  split
  · exact h
  · exact h

theorem partitionDue_memoryOk {s : State} (h : s.memoryOk = true) (pkg : Option Nat) (die : Nat) :
    (partitionDue s pkg die).memoryOk = true := by
  unfold partitionDue
  split
  · exact passDue_memoryOk h _
  · exact h

theorem endRunning_memoryOk {s : State} (h : s.memoryOk = true) (n t : Nat) :
    (endRunning s n t).memoryOk = true := by
  unfold endRunning
  split
  · exact h
  · split
    · exact h
    · extract_lets mine freed p s1 s2
      have h2 : s2.memoryOk = true :=
        foldl_memoryOk (fun _ _ hs => partitionDue_memoryOk hs _ _) _ (State.memoryOk_setLaunch h _)
      exact partitionDue_memoryOk h2 _ _

/-- The records of dropped save areas go; the others stay. -/
theorem dropImages_memoryOk {s : State} (h : s.memoryOk = true) (p : Image → Bool) :
    (dropImages s p).memoryOk = true := by
  obtain ⟨hdev, halt, hhost, hcores, hpeers⟩ := (State.memoryOk_iff s).1 h
  exact (State.memoryOk_iff _).2 ⟨hdev, halt, hhost, fun e he => hcores e (List.mem_filter.1 he).1, hpeers⟩

theorem releaseLaunch_memoryOk {s : State} (h : s.memoryOk = true) (l : Launch) :
    (releaseLaunch s l).memoryOk = true :=
  dropImages_memoryOk (endLaunchLeases_memoryOk h _) _

theorem settleLaunch_memoryOk {s : State} (h : s.memoryOk = true) (n : Nat) :
    (settleLaunch s n).memoryOk = true := by
  unfold settleLaunch
  split
  · exact h
  · extract_lets done
    split
    · exact releaseLaunch_memoryOk h _
    · exact h

theorem endClock_memoryOk {s : State} (h : s.memoryOk = true) (t : Nat) : (endClock s t).memoryOk = true := by
  unfold endClock
  extract_lets x
  exact State.memoryOk_setTs h _ _

theorem endTs_memoryOk {s : State} (h : s.memoryOk = true) (t : Nat) (lost : Bool) :
    (endTs s t lost).memoryOk = true := by
  unfold endTs
  extract_lets s1 x
  have h1 : s1.memoryOk = true := endClock_memoryOk (orphanOf_memoryOk h _ _) _
  split
  · exact freeTs_memoryOk h1 _
  · extract_lets s2 s3 s4
    have h4 : s4.memoryOk = true := by
      unfold s4
      have h3 : s3.memoryOk = true := by
        unfold s3
        split
        · exact State.updLaunch_memoryOk (endRunning_memoryOk h1 _ _) _ _
        · have h2 : s2.memoryOk = true := by
            unfold s2
            split
            · exact repostFrom_memoryOk h1 _ _
            · exact h1
          exact State.updLaunch_memoryOk h2 _ _
      exact State.updLaunch_memoryOk h3 _ _
    exact settleLaunch_memoryOk (freeTs_memoryOk h4 _) _

theorem tryEnd_memoryOk {s : State} (h : s.memoryOk = true) (t : Nat) {fin : State → State}
    (hfin : ∀ s, s.memoryOk = true → (fin s).memoryOk = true) : (tryEnd s t fin).memoryOk = true := by
  unfold tryEnd
  split
  · exact h
  · extract_lets s1
    have h1 : s1.memoryOk = true := placeFolds_memoryOk h _ _
    split
    · exact h1
    · exact hfin s1 h1

theorem finishEnd_memoryOk {s : State} (h : s.memoryOk = true) (t : Nat) :
    (finishEnd s t).memoryOk = true := by
  unfold finishEnd
  split
  · exact tryEnd_memoryOk h _ (fun _ hs => endTs_memoryOk (State.updLaunch_memoryOk hs _ _) _ _)
  · exact h

theorem beginEnd_memoryOk {s : State} (h : s.memoryOk = true) (t code : Nat) (killed : Bool) :
    (beginEnd s t code killed).memoryOk = true := by
  unfold beginEnd
  extract_lets s1
  exact State.memoryOk_setTs (orphanOf_memoryOk h _ _) _ _

theorem abortTs_memoryOk {s : State} (h : s.memoryOk = true) (t code : Nat) :
    (abortTs s t code).memoryOk = true := by
  unfold abortTs
  exact finishEnd_memoryOk (beginEnd_memoryOk h _ _ _) _

theorem finishEnds_memoryOk {s : State} (h : s.memoryOk = true) : (finishEnds s).memoryOk = true := by
  unfold finishEnds
  exact foldl_memoryOk (fun _ _ hs => finishEnd_memoryOk hs _) _ h

theorem clearFace_memoryOk {s : State} (h : s.memoryOk = true) (t : Nat) :
    (clearFace s t).memoryOk = true := by
  unfold clearFace
  exact State.memoryOk_setTs h _ _

theorem killLaunch.dropEntries_memoryOk {s : State} (h : s.memoryOk = true) (n : Nat) :
    (killLaunch.dropEntries s n).memoryOk = true :=
  h

theorem killLaunch.killTs_memoryOk {s : State} (h : s.memoryOk = true) (t : Nat) :
    (killLaunch.killTs s t).memoryOk = true := by
  unfold killLaunch.killTs
  split
  · exact orphanOf_memoryOk h _ _
  · exact beginEnd_memoryOk h _ _ _

theorem killLaunch_memoryOk {s : State} (h : s.memoryOk = true) (n st : Nat) :
    (killLaunch s n st).memoryOk = true := by
  unfold killLaunch
  split
  · exact h
  · extract_lets _ l' s1 ts
    have h1 : s1.memoryOk = true :=
      killLaunch.dropEntries_memoryOk (foldl_memoryOk (fun _ _ hs => clearFace_memoryOk hs _) _
      (State.memoryOk_setLaunch h _)) _
    exact settleLaunch_memoryOk (foldl_memoryOk (fun _ _ hs => finishEnd_memoryOk hs _) _
      (foldl_memoryOk (fun _ _ hs => killLaunch.killTs_memoryOk hs _) _ h1)) _

theorem blockQueue_endsOk {s : State} (h : s.memoryOk = true) (i : Instr) : EndsOk (blockQueue i s) := by
  unfold blockQueue
  exact endsOk_next (State.memoryOk_setMe h _)

theorem execQput_endsOk {s : State} (h : s.memoryOk = true) (a : Reg) : EndsOk (execQput a s) := by
  unfold execQput
  extract_lets t
  split
  · exact nextMe_endsOk h _ _
  · exact blockQueue_endsOk h _

theorem execQgetQr_endsOk {s : State} (h : s.memoryOk = true) (d : Reg) : EndsOk (execQgetQr d s) := by
  unfold execQgetQr
  extract_lets t
  split
  · exact nextMe_endsOk h _ _
  · exact blockQueue_endsOk h _

theorem execQtryQa_endsOk {s : State} (h : s.memoryOk = true) (b : PReg) (a : Reg) :
    EndsOk (execQtryQa b a s) := by
  unfold execQtryQa
  extract_lets t
  split
  · exact nextMe_endsOk h _ _
  · exact nextMe_endsOk h _ _

theorem execQtryQr_endsOk {s : State} (h : s.memoryOk = true) (b : PReg) (d : Reg) :
    EndsOk (execQtryQr b d s) := by
  unfold execQtryQr
  extract_lets t
  split
  · exact nextMe_endsOk h _ _
  · exact nextMe_endsOk h _ _

theorem execQtryQn_endsOk {s : State} (h : s.memoryOk = true) (b : PReg) (d : Reg) :
    EndsOk (execQtryQn b d s) := by
  unfold execQtryQn
  extract_lets t c r
  split
  · exact nextMe_endsOk h _ _
  · split
    · exact nextMe_endsOk (State.memoryOk_pick h) _ _
    · exact nextMe_endsOk (State.memoryOk_pick h) _ _

theorem postMessage_memoryOk {s : State} (h : s.memoryOk = true) (i : Nat) :
    (postMessage s i).memoryOk = true := by
  unfold postMessage
  split
  · exact h
  · split
    · exact h
    · split
      · exact killLaunch_memoryOk h _ _
      · extract_lets x2 m pts s1
        split
        · exact h
        · have h1 : s1.memoryOk = true := State.memoryOk_setTs h _ _
          exact h1

theorem execFaultPost_endsOk {s : State} (h : s.memoryOk = true) (i : Nat) : EndsOk (execFaultPost i s) := by
  unfold execFaultPost
  exact endsOk_next (postMessage_memoryOk h _)

theorem execFget_endsOk {s : State} (h : s.memoryOk = true) (d : Reg) : EndsOk (execFget d s) := by
  unfold execFget
  extract_lets t
  split
  · exact endsOk_next (postFault_memoryOk h _ _)
  · split
    · exact blockQueue_endsOk h _
    · extract_lets t1
      exact nextMe_endsOk h _ _

theorem skipWait_memoryOk {s : State} (h : s.memoryOk = true) (r : FaultRec) :
    (skipWait s r).memoryOk = true := by
  unfold skipWait
  extract_lets t
  exact State.memoryOk_setTs h _ _

theorem replyWait_memoryOk {s : State} (h : s.memoryOk = true) (r : FaultRec) (phase : Nat) (skip : Bool) :
    (replyWait s r phase skip).memoryOk = true := by
  unfold replyWait
  extract_lets t
  split
  · exact skipWait_memoryOk h _
  · split
    · exact State.memoryOk_setTs h _ _
    · exact State.memoryOk_setTs h _ _

theorem replyEngine_memoryOk {s : State} (h : s.memoryOk = true) (r : FaultRec) (skip : Bool) (x : Word) :
    (replyEngine s r skip x).memoryOk = true := by
  unfold replyEngine
  extract_lets c k tile inst
  split
  · exact State.memoryOk_setCore_mem h _ (Core.touchCmd_mem ..)
  · exact h

theorem replyLate_memoryOk {s : State} (h : s.memoryOk = true) (r : FaultRec) (w : Writeback) (skip : Bool)
    (x : Word) : (replyLate s r w skip x).memoryOk = true := by
  unfold replyLate
  extract_lets t next t2 u y s1 _ again _
  split
  · exact State.memoryOk_setTs h _ _
  · have h1 : s1.memoryOk = true := State.memoryOk_setTs h _ _
    exact h1

theorem applyReply_memoryOk {s : State} (h : s.memoryOk = true) (r : FaultRec) (action : Nat) (x : Word)
    (code : Nat) : (applyReply s r action x code).memoryOk = true := by
  unfold applyReply
  extract_lets _ s1 t s2
  have h1 : s1.memoryOk = true := h
  have h2 : s2.memoryOk = true := by
    unfold s2
    split
    · exact State.memoryOk_setTs h1 _ _
    · exact h
  split
  · exact killLaunch_memoryOk h2 _ _
  · split
    · exact abortTs_memoryOk h2 _ _
    · split
      · exact replyEngine_memoryOk h2 _ _ _
      · split
        · exact replyWait_memoryOk h2 _ _ _
        · exact replyLate_memoryOk h2 _ _ _ _
        · split
          · split
            · exact skipWait_memoryOk h2 _
            · exact skipFault_memoryOk h2 _ _
          · exact resumeFault_memoryOk h2 _

theorem deliver_memoryOk {s : State} (h : s.memoryOk = true) (r : FaultRec) (pts action : Nat) (x : Word)
    (code : Nat) : (deliver s r pts action x code).memoryOk = true := by
  unfold deliver
  extract_lets r' hold
  split
  · exact applyReply_memoryOk h _ _ _ _
  · exact h

theorem execFreply_endsOk {s : State} (h : s.memoryOk = true) (d a b : Reg) :
    EndsOk (execFreply d a b s) := by
  unfold execFreply
  split
  · exact endsOk_next (postFault_memoryOk h _ _)
  · extract_lets w x s1 fin
    have hfin : ∀ u x2, u.memoryOk = true → (fin u x2).memoryOk = true := by
      intro u x2 hu
      unfold fin
      exact State.memoryOk_setMe hu _
    split
    · exact endsOk_next (placeFolds_memoryOk h _ _)
    · split
      · exact endsOk_next (State.memoryOk_advance (hfin _ _ (placeFolds_memoryOk h _ _)) _)
      · split
        · exact endsOk_next (State.memoryOk_advance (hfin _ _ (placeFolds_memoryOk h _ _)) _)
        · exact endsOk_next
            (deliver_memoryOk (State.memoryOk_advance (hfin _ _ (placeFolds_memoryOk h _ _)) _) _ _ _ _ _)

end Sys2Proof.Machine

/-! SUPPORT. Every step keeps the canonical form of every memory (O7): the engines, tile commands and
collectives. -/

namespace Sys2Proof.Machine
open Sys2Proof

theorem engineRead_memoryOk {s : State} (h : s.memoryOk = true) (w : Who) (ps : List Piece) :
    (engineRead w ps s).2.memoryOk = true := by
  unfold engineRead
  refine foldl_snd_memoryOk (fun r a hs => ?_) _ h
  extract_lets g
  exact readEvent_memoryOk hs _ _ _

theorem markBad_memoryOk {s : State} (h : s.memoryOk = true) (w : Who) (p : Piece) (bad : List Nat) :
    (markBad w p bad s).memoryOk = true := by
  unfold markBad
  extract_lets l words slot markSlot face _ s1 _
  have hmarkSlot : ∀ u, u.memoryOk = true → (markSlot u).memoryOk = true := by
    intro u hu
    unfold markSlot
    extract_lets k
    split
    · exact hu
    · exact State.memoryOk_setCore_mem hu _ rfl
  split
  · exact h
  · split
    · split
      · exact ncSet_memoryOk (hmarkSlot _ h) _
      · exact h
    · split
      · exact h
      · have h1 : s1.memoryOk = true :=
          hmarkSlot _ (foldl_memoryOk (fun _ _ hs => poisonRange_memoryOk hs _ _ _) _ h)
        exact h1

theorem liningWrite_memoryOk {s : State} (h : s.memoryOk = true) (w : Who) (region : Nat) (l : Loc)
    (v n : Nat) : (liningWrite w region l v n s).memoryOk = true :=
  rawWrite_memoryOk (keepEarlier_memoryOk (State.memoryOk_raise h _ _) _ _) _ _ _

theorem enginePut_memoryOk {s : State} (h : s.memoryOk = true) (w : Who) (p : Piece) (g : Got) :
    (enginePut w p g s).memoryOk = true := by
  unfold enginePut
  extract_lets s1
  have h1 : s1.memoryOk = true := by
    unfold s1
    split
    · exact liningWrite_memoryOk h _ _ _ _ _
    · exact writeEvent_memoryOk h _ _ _ _
  exact markBad_memoryOk h1 _ _ _

theorem engineWrite_memoryOk {s : State} (h : s.memoryOk = true) (w : Who) (g : Got) (ps : List Piece) :
    (engineWrite w g ps s).memoryOk = true := by
  unfold engineWrite
  refine foldl_memoryOk (fun s1 e hs => ?_) _ h
  extract_lets n bad
  exact enginePut_memoryOk hs _ _ _

theorem engineUpdate_memoryOk {s : State} (h : s.memoryOk = true) (w : Who) (fn : Option FoldFn) (et : ElemTy)
    (p : Piece) (y : Option Nat) : (engineUpdate w fn et p y s).memoryOk = true := by
  unfold engineUpdate
  extract_lets l
  split
  · exact enginePut_memoryOk h _ _ _
  · exact enginePut_memoryOk h _ _ _
  · split
    · exact h
    · split
      · exact liningWrite_memoryOk h _ _ _ _ _
      · exact rmwEvent_memoryOk h _ _ _

theorem arriveChunk_memoryOk {s : State} (h : s.memoryOk = true) (c : Chunk) :
    (arriveChunk s c).memoryOk = true := by
  unfold arriveChunk
  extract_lets w who apply r n s1
  split
  · exact h
  · have h1 : s1.memoryOk = true := by
      unfold s1
      have hr : r.2.2.memoryOk = true := by
        unfold r
        have happly : ∀ u, u.memoryOk = true → (apply u).2.memoryOk = true := by
          intro u hu
          unfold apply
          exact foldl_memoryOk (fun _ _ hs => engineUpdate_memoryOk hs _ _ _ _ _) _ hu
        exact withClock_memoryOk h (fun _ hs => happly _ hs) _
      exact hr
    exact h1

theorem settleChunks_memoryOk {s : State} (h : s.memoryOk = true) (copy n : Nat) :
    (settleChunks s copy n).memoryOk = true :=
  foldl_memoryOk (fun _ _ hs => arriveChunk_memoryOk hs _) _ h

theorem execChunkArrival_endsOk {s : State} (h : s.memoryOk = true) (i : Nat) :
    EndsOk (execChunkArrival i s) := by
  unfold execChunkArrival
  split
  · exact endsOk_next h
  · extract_lets waits s1
    split
    · exact endsOk_next h
    · have h1 : s1.memoryOk = true := arriveChunk_memoryOk h _
      exact endsOk_next h1

theorem releaseWindow_memoryOk {s : State} (h : s.memoryOk = true) (copy : Nat) :
    (releaseWindow s copy).memoryOk = true :=
  h

theorem logRead_memoryOk {s : State} (h : s.memoryOk = true) (die launch va : Nat) (bad : List Nat) :
    (logRead s die launch va bad).memoryOk = true := by
  unfold logRead
  split
  · exact h
  · exact errorLog_memoryOk h _ _ _ _ _

theorem mixLine_memoryOk {s : State} (h : s.memoryOk = true) (old new : BitVec 1536) (i : Nat) :
    (mixLine old new i s).2.memoryOk = true := by
  unfold mixLine
  extract_lets a b c
  split
  · exact h
  · exact State.memoryOk_pick h

theorem useRecord_keeps (w : Who) (handle : Word) : Op.Keeps MemOk (useRecord w handle) := by
  unfold useRecord
  refine Op.keeps_bind (memRead_keeps w .norm handle 192) fun v s h r t e => ?_
  cases e
  exact State.memoryOk_setCore_mem
    (mixLine_memoryOk (mixLine_memoryOk (mixLine_memoryOk h _ _ _) _ _ _) _ _ _) _ rfl

theorem needOperands_keeps (sa : Word) (ops : List (Word × Verdict × Bool)) :
    Op.Keeps MemOk (needOperands sa ops) := by
  unfold needOperands
  split
  · exact Op.keeps_fail _
  · exact Op.keeps_need _ _

theorem acceptTile_memoryOk {s : State} (h : s.memoryOk = true) (i : Instr) (d : Reg) (cmd : TCmd) :
    (acceptTile i d cmd s).memoryOk = true := by
  unfold acceptTile
  extract_lets c k t cmd1 s1
  have h1 : s1.memoryOk = true := State.memoryOk_setCore_mem h _ (Core.touchCmd_mem ..)
  exact State.memoryOk_setMe h1 _

theorem tileOp_endsOk {s : State} (h : s.memoryOk = true) {op : Op Unit} (hop : Op.Keeps MemOk op) (g : Guard)
    (i : Instr) (len : Nat) : EndsOk (tileOp g i len op s) := by
  unfold tileOp
  refine guarded_endsOk h ?_ g len
  split
  · exact endsOk_next h
  · exact runOp_endsOk h hop i len

theorem execCpy_endsOk {s : State} (h : s.memoryOk = true) (g : Guard) (d a b : Reg) (len : LenSrc) :
    EndsOk (execCpy g d a b len s) := by
  unfold execCpy
  extract_lets t i n dst src
  exact tileOp_endsOk h (Op.keeps_bind (Op.keeps_ask _) fun _ => Op.keeps_bind (Op.keeps_need _ _) fun _ =>
    Op.keeps_bind (needOperands_keeps _ _) fun _ => Op.keeps_upd fun _ hs =>
    acceptTile_memoryOk hs _ _ _) _ _ _

theorem execCpy2d_endsOk {s : State} (h : s.memoryOk = true) (g : Guard) (d a b c : Reg) :
    EndsOk (execCpy2d g d a b c s) := by
  unfold execCpy2d
  extract_lets t i dst src x y rl cnt
  exact tileOp_endsOk h (Op.keeps_bind (Op.keeps_ask _) fun _ => Op.keeps_bind (Op.keeps_need _ _) fun _ =>
    Op.keeps_bind (needOperands_keeps _ _) fun _ => Op.keeps_upd fun _ hs =>
    acceptTile_memoryOk hs _ _ _) _ _ _

theorem boxIssue_keeps (i : Instr) (d : Reg) (sa handle dense origin : Word) (gather : Bool) :
    Op.Keeps MemOk (boxIssue i d sa handle dense origin gather) := by
  unfold boxIssue
  refine Op.keeps_bind (Op.keeps_ask _) fun w => ?_
  refine Op.keeps_bind (Op.keeps_need _ _) fun x => ?_
  refine Op.keeps_bind (useRecord_keeps _ _) fun r => ?_
  split
  · exact Op.keeps_fail _
  · refine Op.keeps_bind (Op.keeps_ask _) fun k => ?_
    refine Op.keeps_bind (Op.keeps_need _ _) fun x2 => ?_
    extract_lets box den _ cmd
    exact Op.keeps_bind (needOperands_keeps _ _) fun _ => Op.keeps_upd fun _ hs =>
      acceptTile_memoryOk hs _ _ _

theorem execCpyRs_endsOk {s : State} (h : s.memoryOk = true) (g : Guard) (d a b c : Reg) :
    EndsOk (execCpyRs g d a b c s) := by
  unfold execCpyRs
  extract_lets t i
  exact tileOp_endsOk h (boxIssue_keeps _ _ _ _ _ _ _) _ _ _

theorem execCpyRd_endsOk {s : State} (h : s.memoryOk = true) (g : Guard) (d a b c : Reg) :
    EndsOk (execCpyRd g d a b c s) := by
  unfold execCpyRd
  extract_lets t i
  exact tileOp_endsOk h (boxIssue_keeps _ _ _ _ _ _ _) _ _ _

theorem nextCopy_memoryOk {s : State} (h : s.memoryOk = true) : (nextCopy s).2.memoryOk = true := by
  unfold nextCopy
  split
  · exact State.memoryOk_setLaunch h _
  · exact h

theorem execCpyr_endsOk {s : State} (h : s.memoryOk = true) (g : Guard) (op : RedOp) (et : ElemTy)
    (d a b : Reg) (len : LenSrc) : EndsOk (execCpyr g op et d a b len s) := by
  unfold execCpyr
  extract_lets t i n es dst src
  refine tileOp_endsOk h ?_ _ _ _
  refine Op.keeps_bind (Op.keeps_ask _) fun k => ?_
  refine Op.keeps_bind (Op.keeps_need _ _) fun x => ?_
  refine Op.keeps_bind (needOperands_keeps _ _) fun x1 => ?_
  refine Op.keeps_bind (Op.keeps_need _ _) fun x2 => ?_
  refine Op.keeps_upd fun s1 hs => ?_
  extract_lets c
  exact acceptTile_memoryOk (nextCopy_memoryOk hs) _ _ _

theorem transferIssue_keeps (i : Instr) (d : Reg) (et : ElemTy) (tgt : PutTarget)
    (sa own remote idx cnt flag : Word) (put : Bool) :
    Op.Keeps MemOk (transferIssue i d et tgt sa own remote idx cnt flag put) := by
  unfold transferIssue
  refine Op.keeps_bind (Op.keeps_ask _) fun s => ?_
  extract_lets c n es tk glob rem list
  exact Op.keeps_bind (Op.keeps_need _ _) fun _ => Op.keeps_bind (needOperands_keeps _ _) fun _ =>
    Op.keeps_bind (Op.keeps_need _ _) fun _ => Op.keeps_bind (Op.keeps_need _ _) fun _ =>
    Op.keeps_upd fun _ hs => acceptTile_memoryOk hs _ _ _

theorem execGet_endsOk {s : State} (h : s.memoryOk = true) (g : Guard) (et : ElemTy) (tgt : PutTarget)
    (d a b c : Reg) : EndsOk (execGet g et tgt d a b c s) := by
  unfold execGet
  extract_lets t i
  exact tileOp_endsOk h (transferIssue_keeps _ _ _ _ _ _ _ _ _ _ _) _ _ _

theorem execPut_endsOk {s : State} (h : s.memoryOk = true) (g : Guard) (et : ElemTy) (tgt : PutTarget)
    (d a b c : Reg) : EndsOk (execPut g et tgt d a b c s) := by
  unfold execPut
  extract_lets t i
  exact tileOp_endsOk h (transferIssue_keeps _ _ _ _ _ _ _ _ _ _ _) _ _ _

theorem execStmap_endsOk {s : State} (h : s.memoryOk = true) (g : Guard) (n : Fin 8) (a : Reg) :
    EndsOk (execStmap g n a s) := by
  unfold execStmap
  extract_lets m i
  refine tileOp_endsOk h ?_ _ _ _
  refine Op.keeps_bind (Op.keeps_ask _) fun k => ?_
  refine Op.keeps_bind (Op.keeps_need _ _) fun x => ?_
  refine Op.keeps_upd fun s1 hs => ?_
  extract_lets s2 k1
  exact State.memoryOk_setCore_mem (dropStash_memoryOk hs _ _) _ rfl

theorem stashIssue_keeps (i : Instr) (d : Reg) (a len : Word) : Op.Keeps MemOk (stashIssue i d a len) := by
  unfold stashIssue
  exact Op.keeps_bind (Op.keeps_need _ _) fun _ => Op.keeps_upd fun _ hs => acceptTile_memoryOk hs _ _ _

theorem execStwb_endsOk {s : State} (h : s.memoryOk = true) (g : Guard) (d a b : Reg) :
    EndsOk (execStwb g d a b s) := by
  unfold execStwb
  extract_lets i
  exact tileOp_endsOk h (stashIssue_keeps _ _ _ _) _ _ _

theorem execStinv_endsOk {s : State} (h : s.memoryOk = true) (g : Guard) (d a b : Reg) :
    EndsOk (execStinv g d a b s) := by
  unfold execStinv
  extract_lets i
  exact tileOp_endsOk h (stashIssue_keeps _ _ _ _) _ _ _

theorem flushRecords_memoryOk {s : State} (h : s.memoryOk = true) (keep : Nat × Nat × BitVec 1536 → Bool) :
    (flushRecords keep s).memoryOk = true := by
  unfold flushRecords
  extract_lets c k
  exact State.memoryOk_setCore_mem h _ rfl

theorem execPub_endsOk {s : State} (h : s.memoryOk = true) (g : Guard) (d a : Reg) :
    EndsOk (execPub g d a s) := by
  unfold execPub
  extract_lets addr i
  refine tileOp_endsOk h ?_ _ _ _
  refine Op.keeps_bind (Op.keeps_ask _) fun w => ?_
  refine Op.keeps_bind (Op.keeps_need _ _) fun x => ?_
  refine Op.keeps_bind (checkAccess_keeps _ _ _ _) fun ps => ?_
  split
  · exact Op.keeps_fail _
  · exact Op.keeps_upd fun _ hs => acceptTile_memoryOk hs _ _ _

theorem sideCheck_keeps (w : Who) (xbar : Option Nat) (sa : Word) (k : Kind) (addr : Word) (n : Nat) :
    Op.Keeps MemOk (sideCheck w xbar sa k addr n) := by
  unfold sideCheck
  split
  · exact checkAccess_keeps w k addr n
  next c =>
    intro s h r t e
    extract_lets a bad at e
    split at e
    · cases e
    · split at e
      · cases e
      · change (if _ then _ else _) = _ at e
        split at e
        · cases e
        · cases e; exact h

theorem checkMoves_keeps (w : Who) (m : TCmd) (ms : List Move) : Op.Keeps MemOk (checkMoves w m ms) := by
  unfold checkMoves
  refine Op.keeps_mapM (fun v => ?_) _
  extract_lets kind rest
  have hrest : ∀ src, Op.Keeps MemOk (rest src) := by
    intro src
    exact Op.keeps_bind (sideCheck_keeps _ _ _ _ _ _) fun dst => Op.keeps_pure _
  split
  · exact Op.keeps_bind (sideCheck_keeps _ _ _ _ _ _) hrest
  · exact Op.keeps_bind (Op.keeps_pure _) hrest

theorem checkList_keeps (w : Who) (m : TCmd) (es : Nat) : Op.Keeps MemOk (checkList w m es) := by
  unfold checkList
  extract_lets idx n
  split
  · exact Op.keeps_pure _
  · exact Op.keeps_bind (checkAccess_keeps _ _ _ _) fun _ => Op.keeps_bind (Op.keeps_ask _) fun _ =>
      Op.keeps_pure _

theorem openChunk_keeps (w : Who) (m : TCmd) : Op.Keeps MemOk (openChunk w m) := by
  unfold openChunk
  refine Op.keeps_bind (Op.keeps_ask _) fun s => ?_
  extract_lets rest
  have hrest : ∀ bad, Op.Keeps MemOk (rest bad) := by
    intro bad
    refine Op.keeps_bind (checkMoves_keeps w m _) fun cs => ?_
    extract_lets last
    have hlast : ∀ u, Op.Keeps MemOk (last u) := fun _ => Op.keeps_pure _
    split
    · exact Op.keeps_bind (Op.keeps_need _ _) hlast
    · exact Op.keeps_bind (Op.keeps_pure ()) hlast
  split
  · exact Op.keeps_bind (checkList_keeps w m _) hrest
  · exact Op.keeps_bind (checkList_keeps w m _) hrest
  · exact Op.keeps_bind (Op.keeps_pure _) hrest

theorem readElem_memoryOk {s : State} (h : s.memoryOk = true) (w : Who) (one : Bool) (e : Elem) :
    (readElem w one e s).2.memoryOk = true := by
  unfold readElem
  extract_lets ps g
  exact engineRead_memoryOk h _ _

theorem landElem_memoryOk {s : State} (h : s.memoryOk = true) (w : Who) (e : Elem) :
    (landElem w e s).memoryOk = true := by
  unfold landElem
  exact engineWrite_memoryOk h _ _ _

theorem landPart_memoryOk {s : State} (h : s.memoryOk = true) (w : Who) (e : Elem) :
    (landPart w e s).2.memoryOk = true := by
  unfold landPart
  split
  · split
    · exact engineWrite_memoryOk h _ _ _
    · exact landElem_memoryOk h _ _
  · exact landElem_memoryOk h _ _

theorem stepElems_memoryOk {s : State} (h : s.memoryOk = true) (w : Who) (red : Bool) (es : List Elem) :
    (stepElems w red es s).2.memoryOk = true := by
  unfold stepElems
  extract_lets todo c i
  have hc : c.2.memoryOk = true := State.memoryOk_pick h
  clear_value i
  clear_value todo
  cases todo with
  | nil => exact h
  | cons j l =>
    change (match es[i]? with | none => _ | some e => _ : Progress × State).2.memoryOk = true
    split
    · exact hc
    next e _ =>
      split
      · exact landPart_memoryOk hc w e
      · exact readElem_memoryOk hc w true e

theorem finishElems_memoryOk {s : State} (h : s.memoryOk = true) (w : Who) (red : Bool) (es : List Elem) :
    (finishElems w red es s).2.memoryOk = true := by
  induction es generalizing s with
  | nil => exact h
  | cons e r ih =>
    have hread : (readElem w false e s).2.memoryOk = true := readElem_memoryOk h w false e
    refine ih ?_
    split
    · exact hread
    · exact landElem_memoryOk hread w _

theorem runElems_memoryOk {s : State} (h : s.memoryOk = true) (w : Who) (red : Bool) (es : List Elem) :
    (runElems w red es s).2.memoryOk = true := by
  unfold runElems
  split
  · exact stepElems_memoryOk h _ _ _
  · exact finishElems_memoryOk h _ _ _

theorem sendChunk_memoryOk {s : State} (h : s.memoryOk = true) (ch : Chunk) :
    (sendChunk ch s).2.memoryOk = true := by
  unfold sendChunk
  extract_lets w own
  exact h

theorem setTCmd_memoryOk {s : State} (h : s.memoryOk = true) (c : Nat) (m : TCmd) :
    (setTCmd s c m).memoryOk = true := by
  unfold setTCmd
  extract_lets k
  exact State.memoryOk_setCore_mem h _ (Core.touchCmd_mem ..)

theorem dropTCmd_memoryOk {s : State} (h : s.memoryOk = true) (c id : Nat) :
    (dropTCmd s c id).memoryOk = true := by
  unfold dropTCmd
  extract_lets k
  exact State.memoryOk_setCore_mem h _ (Core.dropCmd_mem ..)

theorem pauseTile_memoryOk {s : State} (h : s.memoryOk = true) (c : Nat) (m : TCmd) (f : FaultInfo) :
    (pauseTile s c m f).memoryOk = true := by
  unfold pauseTile
  split
  · exact finishEnds_memoryOk (noteEnd_memoryOk (dropTCmd_memoryOk h _ _) _ _)
  · split
    · exact haltService_memoryOk h _
    · extract_lets r
      exact setTCmd_memoryOk (addFault_memoryOk h _ _ _ _ _ _ _) _ _

theorem notePut_memoryOk {s : State} (h : s.memoryOk = true) (m : TCmd) (ls : List Loc) :
    (notePut m ls s).memoryOk = true := by
  unfold notePut
  split
  · split
    · exact h
    · exact foldl_memoryOk (fun _ _ hs => notePeer_memoryOk hs _ _) _ h
  · exact h

theorem stallTile_memoryOk {s : State} (h : s.memoryOk = true) (c : Nat) (m : TCmd) (p : Nat) :
    (stallTile s c m p).memoryOk = true := by
  unfold stallTile
  extract_lets s1
  have h1 : s1.memoryOk = true := by
    unfold s1
    split
    · exact h
    · exact notePut_memoryOk h _ _
  exact setTCmd_memoryOk h1 _ _

theorem runChunk_memoryOk {s : State} (h : s.memoryOk = true) (w : Who) (m : TCmd) :
    (runChunk w m s).2.memoryOk = true := by
  unfold runChunk
  extract_lets red run
  have hrun : ∀ x1 x2 x3 u, u.memoryOk = true → (run x1 x2 x3 u).2.memoryOk = true := by
    intro x1 x2 x3 u hu
    unfold run
    split
    · exact hu
    · extract_lets r g s1 m1 bad p x5 bad2
      have hr : r.2.2.memoryOk = true :=
        withClock_memoryOk hu (fun _ hs => runElems_memoryOk hs _ _ _) _
      have h1 : s1.memoryOk = true := hr
      split
      · exact h1
      · have hx5 : x5.2.memoryOk = true := by
          unfold x5
          split
          · exact sendChunk_memoryOk h1 _
          · exact h1
        exact hx5
  split
  · exact hrun _ _ _ _ h
  · split
    next x1 _ _ _ e1 =>
      extract_lets s2
      have h2 : s2.memoryOk = true := notePut_memoryOk ((openChunk_keeps _ _).ok h e1) _ _
      split
      · exact h2
      · exact hrun _ _ _ _ h2
    · exact h
    · exact h
    · exact h

theorem copyChunk_memoryOk {s : State} (h : s.memoryOk = true) (c : Nat) (m : TCmd) :
    (copyChunk s c m).memoryOk = true := by
  unfold copyChunk
  extract_lets r
  split
  · exact stallTile_memoryOk (runChunk_memoryOk h _ _) _ _ _
  · split
    · exact pauseTile_memoryOk (runChunk_memoryOk h _ _) _ _ _
    · exact h
  · extract_lets s1
    have h1 : s1.memoryOk = true := by
      unfold s1
      split
      · split
        · exact runChunk_memoryOk h _ _
        · exact errorLog_memoryOk (runChunk_memoryOk h _ _) _ _ _ _ _
      · exact runChunk_memoryOk h _ _
    exact setTCmd_memoryOk h1 _ _

theorem turnCloak_memoryOk {s : State} (h : s.memoryOk = true) (region pts : Nat) :
    (turnCloak s region pts).memoryOk = true :=
  foldl_memoryOk (fun _ _ hs => dropStash_memoryOk hs _ _) _
    (settle_memoryOk (foldl_memoryOk (fun _ _ hs => ncDrop_memoryOk hs _ _) _ h) _)

theorem runPub_memoryOk {s : State} (h : s.memoryOk = true) (c : Nat) (m : TCmd) :
    (runPub s c m).memoryOk = true := by
  unfold runPub
  split
  · exact h
  · extract_lets s1 p
    split
    · exact placeFolds_memoryOk h _ _
    · exact setTCmd_memoryOk (turnCloak_memoryOk (placeFolds_memoryOk h _ _) _ _) _ _

theorem tileChunk_memoryOk {s : State} (h : s.memoryOk = true) (c : Nat) (m : TCmd) :
    (tileChunk s c m).memoryOk = true := by
  unfold tileChunk
  split
  · exact runPub_memoryOk h _ _
  · exact setTCmd_memoryOk (cleanStash_memoryOk h _ _) _ _
  · exact setTCmd_memoryOk (dropStash_memoryOk h _ _) _ _
  · split
    · exact copyChunk_memoryOk h _ _
    · exact h
  · exact copyChunk_memoryOk h _ _

theorem execTileEngineChunk_endsOk {s : State} (h : s.memoryOk = true) (c id : Nat) :
    EndsOk (execTileEngineChunk c id s) := by
  unfold execTileEngineChunk
  split
  · exact endsOk_next h
  · refine endsOk_next ?_
    split
    · exact h
    · exact tileChunk_memoryOk h _ _

theorem putFlag_keeps (w : Who) (m : TCmd) : Op.Keeps MemOk (putFlag w m) := by
  unfold putFlag
  refine Op.keeps_bind (sideCheck_keeps w _ m.a .rmw _ 8) fun ps s h b t e => ?_
  split at e
  · split at e
    · cases e
    · split at e
      · cases e; exact h
      · cases e; exact notePut_memoryOk (rmwEvent_memoryOk h _ _ _) _ _
  · cases e; exact h

theorem giveToken_memoryOk {s : State} (h : s.memoryOk = true) (t : Nat) (orphan : Bool) (d : Reg) (x : Word)
    (pts : Nat) : (giveToken s t orphan d x pts).memoryOk = true := by
  unfold giveToken
  split
  · exact noteEnd_memoryOk h _ _
  · exact State.memoryOk_setTs h _ _

theorem tellPubs_memoryOk {s : State} (h : s.memoryOk = true) (c t pts : Nat) :
    (tellPubs s c t pts).memoryOk = true := by
  unfold tellPubs
  extract_lets k tell
  exact State.memoryOk_setCore_mem h _ rfl

theorem endTile_memoryOk {s : State} (h : s.memoryOk = true) (c : Nat) (m : TCmd) (pts : Nat) :
    (endTile s c m pts).memoryOk = true := by
  unfold endTile
  exact finishEnds_memoryOk (giveToken_memoryOk (tellPubs_memoryOk (dropTCmd_memoryOk h _ _) _ _ _) _ _ _ _ _)

theorem completeTile_memoryOk {s : State} (h : s.memoryOk = true) (c : Nat) (m : TCmd) :
    (completeTile s c m).memoryOk = true := by
  unfold completeTile
  split
  · split
    · exact endTile_memoryOk h _ _ _
    · extract_lets flag r
      have hflag : ∀ u, u.memoryOk = true → (flag u).2.memoryOk = true := by
        intro u hu
        unfold flag
        split
        next e4 =>
          exact (putFlag_keeps _ _).ok hu e4
        · exact hu
      have hr : r.2.2.memoryOk = true := withClock_memoryOk h (fun _ hs => hflag _ hs) _
      split
      · extract_lets s1
        have h1 : s1.memoryOk = true := by
          unfold s1
          split
          · exact errorLog_memoryOk hr _ _ _ _ _
          · exact hr
        exact endTile_memoryOk h1 _ _ _
      · exact pauseTile_memoryOk hr _ _ _
      · exact stallTile_memoryOk hr _ _ _
      · exact hr
  · split
    · exact endTile_memoryOk (releaseWindow_memoryOk h _) _ _ _
    · exact h
  · exact endTile_memoryOk h _ _ _

theorem execTileCommandCompletion_endsOk {s : State} (h : s.memoryOk = true) (c id : Nat) :
    EndsOk (execTileCommandCompletion c id s) := by
  unfold execTileCommandCompletion
  split
  · exact endsOk_next h
  · refine endsOk_next ?_
    split
    · exact completeTile_memoryOk h _ _
    · exact h

theorem readForRecord_keeps (w : Who) (addr : Word) (n : Nat) : Op.Keeps MemOk (readForRecord w addr n) := by
  intro s h v t e
  unfold readForRecord at e
  split at e
  · cases e
  · exact (memRead_keeps w .norm addr n).ok h e

theorem collRecord_keeps (w : Who) (addr : Word) : Op.Keeps MemOk (collRecord w addr) := by
  unfold collRecord
  refine Op.keeps_bind (Op.keeps_need _ _) fun x => ?_
  refine Op.keeps_bind (readForRecord_keeps _ _ _) fun r => ?_
  extract_lets f m rank
  refine Op.keeps_bind (Op.keeps_need _ _) fun x1 => ?_
  refine Op.keeps_bind (readForRecord_keeps _ _ _) fun l => ?_
  extract_lets peers
  exact Op.keeps_bind (Op.keeps_ask _) fun _ => Op.keeps_bind (Op.keeps_need _ _) fun _ => Op.keeps_pure _

theorem collBuffer_keeps (a : Word) (n : Nat) : Op.Keeps MemOk (collBuffer a n) := by
  unfold collBuffer
  extract_lets last
  exact Op.keeps_bind (Op.keeps_need _ _) fun _ => Op.keeps_need _ _

theorem acceptColl_memoryOk {s : State} (h : s.memoryOk = true) (i : Instr) (d : Reg) (x : Instance)
    (red : Bool) : (acceptColl i d x red s).memoryOk = true := by
  unfold acceptColl
  extract_lets c k t cp s1 x1 _ s2 _ s3
  have h3 : s3.memoryOk = true := by
    unfold s3
    have h2 : s2.memoryOk = true := by
      unfold s2
      have h1 : s1.memoryOk = true := by
        unfold s1
        have hcp : cp.2.memoryOk = true := by
          unfold cp
          split
          · exact nextCopy_memoryOk h
          · exact h
        exact hcp
      exact State.memoryOk_setCore_mem h1 _ rfl
    exact h2
  exact State.memoryOk_setMe h3 _

theorem execColl_endsOk {s : State} (h : s.memoryOk = true) (g : Guard) (op : CollOp) (fn : RedOp)
    (et : ElemTy) (wire scaled : Bool) (root : BitVec 8) (d a b c : Reg) (n : Imm 13) :
    EndsOk (execColl g op fn et wire scaled root d a b c n s) := by
  unfold execColl
  extract_lets t i len cnt es
  refine guarded_endsOk h ?_ _ _
  refine runOp_endsOk h ?_ _ _
  refine Op.keeps_bind (collRecord_keeps _ _) fun r => ?_
  extract_lets m sb rb x
  exact Op.keeps_bind (collBuffer_keeps _ _) fun _ => Op.keeps_bind (collBuffer_keeps _ _) fun _ =>
    Op.keeps_bind (Op.keeps_need _ _) fun _ => Op.keeps_upd fun _ hs => acceptColl_memoryOk hs _ _ _ _

theorem setInstance_memoryOk {s : State} (h : s.memoryOk = true) (x : Instance) :
    (setInstance s x).memoryOk = true :=
  h

theorem dropInstance_memoryOk {s : State} (h : s.memoryOk = true) (x : Instance) :
    (dropInstance s x).memoryOk = true :=
  h

theorem execCollectiveInstanceStart_endsOk {s : State} (h : s.memoryOk = true) (i : Nat) :
    EndsOk (execCollectiveInstanceStart i s) := by
  unfold execCollectiveInstanceStart
  split
  · exact endsOk_next h
  · split
    · exact endsOk_next h
    · split
      · exact endsOk_next h
      · exact endsOk_next (State.memoryOk_congr h rfl rfl rfl rfl rfl)



theorem treeValue_memoryOk {s : State} (h : s.memoryOk = true) (wire : Bool) (fn : RedOp) (et : ElemTy)
    (fuel : Nat) (l : List Nat) : (treeValue wire fn et fuel l s).2.memoryOk = true := by
  induction fuel generalizing l s with
  | zero => exact h
  | succ n ih =>
    match l with
    | [] => exact h
    | [x] => exact h
    | x :: y :: r =>
      refine ih ?_ _
      split
      · exact State.memoryOk_pick (State.memoryOk_pick (State.memoryOk_pick h))
      · exact State.memoryOk_pick (State.memoryOk_pick h)

theorem collElement_memoryOk {s : State} (h : s.memoryOk = true) (x : Instance) (wire : Bool) (fn : RedOp)
    (et : ElemTy) (own : NMap (Nat × Bool)) (src : List (Nat × Nat)) :
    (collElement x wire fn et own src s).2.memoryOk = true := by
  unfold collElement
  extract_lets vs r
  exact treeValue_memoryOk h _ _ _ _ _

theorem abandonInstance_memoryOk {s : State} (h : s.memoryOk = true) (x : Instance) :
    (abandonInstance s x).memoryOk = true := by
  unfold abandonInstance
  exact finishEnds_memoryOk (noteEnd_memoryOk (dropInstance_memoryOk h _) _ _)

theorem pauseInstance_memoryOk {s : State} (h : s.memoryOk = true) (x : Instance) (f : FaultInfo) :
    (pauseInstance s x f).memoryOk = true := by
  unfold pauseInstance
  split
  · exact abandonInstance_memoryOk h _
  · split
    · exact haltService_memoryOk h _
    · extract_lets r
      exact setInstance_memoryOk (addFault_memoryOk h _ _ _ _ _ _ _) _

theorem collPages_keeps (w : Who) (x : Instance) (es : Nat) (p : CollPlan) :
    Op.Keeps MemOk (collPages w x es p) := by
  unfold collPages
  exact Op.keeps_bind (Op.keeps_mapM (fun _ => Op.keeps_bind (checkAccess_keeps _ _ _ _) fun _ =>
    Op.keeps_pure _) _) fun _ =>
    Op.keeps_bind (Op.keeps_mapM (fun _ => Op.keeps_bind (checkAccess_keeps _ _ _ _) fun _ =>
    Op.keeps_pure _) _) fun _ => Op.keeps_pure _

theorem readOwn_memoryOk {s : State} (h : s.memoryOk = true) (w : Who) (es : Nat) (e : Nat × List Piece)
    (left : List Piece) (x : Instance) : (readOwn w es e left x s).2.memoryOk = true := by
  unfold readOwn
  extract_lets off g n bad v x1
  exact engineRead_memoryOk h _ _

theorem recvValue_memoryOk {s : State} (h : s.memoryOk = true) (o : CollOpt) (x : Instance) (e : Nat) :
    (recvValue o x e s).2.memoryOk = true := by
  unfold recvValue
  extract_lets v
  exact collElement_memoryOk h _ _ _ _ _ _

theorem landRecv_memoryOk {s : State} (h : s.memoryOk = true) (w : Who) (o : CollOpt) (e : Nat × List Piece)
    (left : List Piece) (x : Instance) : (landRecv w o e left x s).2.memoryOk = true := by
  unfold landRecv
  extract_lets off v g
  exact engineWrite_memoryOk (recvValue_memoryOk h _ _ _) _ _ _

theorem redElems_memoryOk {s : State} (h : s.memoryOk = true) (o : CollOpt) (x : Instance)
    (l : List (Nat × List Piece)) : (redElems o x l s).2.memoryOk = true := by
  induction l generalizing s with
  | nil => exact h
  | cons e r ih => exact ih (recvValue_memoryOk h o x e.1)

theorem sendRecv_memoryOk {s : State} (h : s.memoryOk = true) (w : Who) (o : CollOpt) (x : Instance)
    (ls : List (Nat × List Piece)) : (sendRecv w o x ls s).2.memoryOk = true :=
  State.memoryOk_congr (redElems_memoryOk h o x ls) rfl rfl rfl rfl rfl

theorem collOne_memoryOk {s : State} (h : s.memoryOk = true) (w : Who) (o : CollOpt) (x : Instance)
    (p : CollPages) : (collOne w o x p s).2.memoryOk = true := by
  unfold collOne
  extract_lets t ls c i
  split
  · exact sendRecv_memoryOk h _ _ _ _
  · split
    · extract_lets p1
      exact readOwn_memoryOk (State.memoryOk_pick h) _ _ _ _ _
    · extract_lets p1
      exact landRecv_memoryOk (State.memoryOk_pick h) _ _ _ _ _
    · exact State.memoryOk_pick h

theorem collAll_memoryOk {s : State} (h : s.memoryOk = true) (w : Who) (o : CollOpt) (x : Instance)
    (p : CollPages) : (collAll w o x p s).2.memoryOk = true := by
  unfold collAll
  extract_lets r
  have hr : r.2.memoryOk = true := foldl_snd_memoryOk (fun _ _ hs => readOwn_memoryOk hs _ _ _ _ _) _ h
  split
  · exact sendRecv_memoryOk hr _ _ _ _
  · exact foldl_snd_memoryOk (fun _ _ hs => landRecv_memoryOk hs _ _ _ _ _) _ hr

theorem chunkFault_memoryOk {s : State} (h : s.memoryOk = true) (x : Instance) (f : FaultInfo) :
    (chunkFault s x f).memoryOk = true := by
  unfold chunkFault
  split
  · exact pauseInstance_memoryOk h _ _
  · exact h

theorem runColl_memoryOk {s : State} (h : s.memoryOk = true) (x : Instance) (o : CollOpt) (start : Nat)
    (p : CollPages) : (runColl s x o start p).memoryOk = true := by
  unfold runColl
  split
  · exact setInstance_memoryOk h _
  · extract_lets w r _ y s1 s2 left y2
    have hr : r.2.2.memoryOk = true := by
      unfold r
      refine withClock_memoryOk h ?_ _
      intro s3 hs
      split
      · exact collOne_memoryOk hs _ _ _ _
      · exact collAll_memoryOk hs _ _ _ _
    have h1 : s1.memoryOk = true := hr
    have h2 : s2.memoryOk = true := by
      unfold s2
      split
      · exact errorLog_memoryOk h1 _ _ _ _ _
      · exact h1
    split
    · exact setInstance_memoryOk h2 _
    · exact setInstance_memoryOk h2 _

theorem collChunk_memoryOk {s : State} (h : s.memoryOk = true) (x : Instance) :
    (collChunk s x).memoryOk = true := by
  unfold collChunk
  split
  · extract_lets o
    split
    · exact runColl_memoryOk h _ _ _ _
    · split
      · exact setInstance_memoryOk h _
      · extract_lets c1 start
        have hc1 : c1.2.memoryOk = true := by
          unfold c1
          split
          · exact h
          · exact State.memoryOk_pick h
        split
        · exact h
        · split
          · exact chunkFault_memoryOk h _ _
          · exact h
          next e4 =>
            extract_lets x5
            split
            · exact setInstance_memoryOk ((collPages_keeps _ _ _ _).ok hc1 e4) _
            · exact runColl_memoryOk ((collPages_keeps _ _ _ _).ok hc1 e4) _ _ _ _
  · exact h

theorem execCollectiveChunk_endsOk {s : State} (h : s.memoryOk = true) (i : Nat) :
    EndsOk (execCollectiveChunk i s) := by
  unfold execCollectiveChunk
  split
  · exact endsOk_next h
  · split
    · exact endsOk_next h
    · split
      · exact endsOk_next (chunkFault_memoryOk h _ _)
      · split
        · exact endsOk_next h
        · extract_lets bad
          split
          · exact endsOk_next (pauseInstance_memoryOk h _ _)
          · split
            · refine endsOk_next ?_
              split
              · exact abandonInstance_memoryOk h _
              · exact h
            · exact endsOk_next (collChunk_memoryOk h _)

theorem execCollectiveCompletion_endsOk {s : State} (h : s.memoryOk = true) (i : Nat) :
    EndsOk (execCollectiveCompletion i s) := by
  unfold execCollectiveCompletion
  split
  · exact endsOk_next h
  · split
    · extract_lets p s1
      have h1 : s1.memoryOk = true :=
        tellPubs_memoryOk (releaseWindow_memoryOk (dropInstance_memoryOk h _) _) _ _ _
      exact endsOk_next (finishEnds_memoryOk (giveToken_memoryOk h1 _ _ _ _ _))
    · exact endsOk_next h

theorem loseMembers_memoryOk {s : State} (h : s.memoryOk = true) (peer : Nat) :
    (loseMembers s peer).memoryOk = true :=
  h

theorem peerJoins_memoryOk {s : State} (h : s.memoryOk = true) (peer id : Nat) (m : Member) :
    (peerJoins s peer id m).memoryOk = true :=
  h

theorem peerSkips_memoryOk {s : State} (h : s.memoryOk = true) (peer id : Nat) :
    (peerSkips s peer id).memoryOk = true := by
  unfold peerSkips
  split
  · split
    · exact h
    · extract_lets _ s1
      have h1 : s1.memoryOk = true := h
      exact setInstance_memoryOk h1 _
  · exact h

theorem peerEnds_memoryOk {s : State} (h : s.memoryOk = true) (peer id : Nat) :
    (peerEnds s peer id).memoryOk = true := by
  unfold peerEnds
  extract_lets _ s1
  split
  · split
    · exact h
    · have h1 : s1.memoryOk = true := h
      exact setInstance_memoryOk h1 _
  · exact h

theorem writeS_endsOk {s : State} (h : s.memoryOk = true) (d : Reg) (x : Word) (len : Nat) :
    EndsOk (writeS d x len s) := by
  unfold writeS
  exact nextMe_endsOk h _ _

end Sys2Proof.Machine

/-! SUPPORT. Every step keeps the canonical form of every memory (O7): scalar and control instructions, the
matrix unit. -/

namespace Sys2Proof.Machine
open Sys2Proof

/-! ### Scalar, control and system instructions -/

theorem divide_endsOk {s : State} (h : s.memoryOk = true) (i : Instr) (f : Word → Word → Word) (d a b : Reg) :
    EndsOk (divide i f d a b s) := by
  unfold divide
  split
  · exact endsOk_next (postFault_memoryOk h _ _)
  · exact nextMe_endsOk h _ _

theorem jumpTo_endsOk {s : State} (h : s.memoryOk = true) (t : ThreadSet) (pc : Word) :
    EndsOk (jumpTo s t pc) :=
  endsOk_next h

theorem branch_endsOk {s : State} (h : s.memoryOk = true) {n : Nat} (taken : Bool) (off : Imm n) :
    EndsOk (branch taken off s) := by
  unfold branch
  split
  · exact jumpTo_endsOk h _ _
  · exact nextMe_endsOk h _ _

theorem jumpReg_endsOk {s : State} (h : s.memoryOk = true) (i : Instr) (link a : Reg) :
    EndsOk (jumpReg i link a s) := by
  unfold jumpReg
  extract_lets t
  split
  · exact endsOk_next (postFault_memoryOk h _ _)
  · exact jumpTo_endsOk h _ _

theorem execYield_endsOk {s : State} (h : s.memoryOk = true) : EndsOk (execYield s) :=
  have hrun : (s.setCore (coreOf s.cur) { s.core (coreOf s.cur) with run := 256 }).memoryOk = true :=
    State.memoryOk_setCore_mem h _ rfl
  endsOk_next (State.memoryOk_advance hrun 4)

theorem execMfsr_endsOk {s : State} (h : s.memoryOk = true) (d : Reg) (n : BitVec 8) :
    EndsOk (execMfsr d n s) := by
  unfold execMfsr
  split
  · exact endsOk_next h
  · split
    · exact nextMe_endsOk h _ _
    · exact endsOk_next (postFault_memoryOk h _ _)

theorem setDieSvc_memoryOk {s : State} (h : s.memoryOk = true) (die : Nat) (d : DieSvc) :
    (setDieSvc s die d).memoryOk = true :=
  h

theorem writeSR_memoryOk {s : State} (h : s.memoryOk = true) {n : Nat} {x : Word} {t : State}
    (e : writeSR s n x = some t) : t.memoryOk = true := by
  unfold writeSR at e
  extract_lets me c die svc priv at e
  have hpriv : ∀ y, y.memoryOk = true → priv y = some t → t.memoryOk = true := by
    intro y hy ey
    unfold priv at ey
    split at ey
    · cases ey; exact hy
    · cases ey
  clear_value priv
  split at e
  · cases e; exact h
  · cases e; exact h
  · exact hpriv _ (setDieSvc_memoryOk h _ _) e
  · exact hpriv _ (setDieSvc_memoryOk h _ _) e
  · refine hpriv _ ?_ e
    exact h
  · refine hpriv _ ?_ e
    exact h
  · refine hpriv _ ?_ e
    exact h
  · refine hpriv _ ?_ e
    exact h
  · refine hpriv _ ?_ e
    exact h
  · cases e

theorem execMtsr_endsOk {s : State} (h : s.memoryOk = true) (a : Reg) (n : BitVec 8) :
    EndsOk (execMtsr a n s) := by
  unfold execMtsr
  split
  · exact endsOk_next h
  · split
    next t e => exact endsOk_next (State.memoryOk_advance (writeSR_memoryOk h e) 4)
    · exact endsOk_next (postFault_memoryOk h _ _)

theorem execBrk_endsOk {s : State} (h : s.memoryOk = true) (code : BitVec 8) : EndsOk (execBrk code s) := by
  unfold execBrk
  extract_lets attached
  split
  · exact endsOk_next (State.memoryOk_advance (State.memoryOk_setMe h _) 4)
  · exact endsOk_next (postFault_memoryOk h _ _)

/-! ### The matrix unit's own storage holds no local memory -/

@[simp] theorem clearTile_mem (k : Core) (tf : TileFmt) (n : Nat) : (clearTile k tf n).mem = k.mem := rfl

@[simp] theorem setCounters_mem (k : Core) (n : Nat) (c : Counters) : (setCounters k n c).mem = k.mem := rfl

@[simp] theorem putElem_mem (tf : TileFmt) (n : Nat) (k : Core) (e : Nat) (p : Promoted) :
  (putElem tf n k e p).mem = k.mem := rfl

@[simp] theorem updateTile_mem (k : Core) (tf : TileFmt) (n : Nat) (f : Core → Nat → Promoted) :
  (updateTile k tf n f).mem = k.mem := by
  have hfold : ∀ (l : List Nat) (x : Core), (l.foldl (fun x e => putElem tf n x e (f k e)) x).mem = x.mem :=
    by
    intro l
    induction l with
    | nil => exact fun _ => rfl
    | cons e r ih => exact fun x => ih _
  unfold updateTile
  exact hfold (List.range 1024) k

@[simp] theorem countDrain_mem (k : Core) (n : Nat) (xs : List (Nat × Bool × Bool)) :
  (countDrain k n xs).mem = k.mem := rfl

@[simp] theorem matrixReset_mem (k : Core) : (matrixReset k).mem = k.mem := rfl

@[simp] theorem poisonTile_mem (k : Core) (tf : TileFmt) (n : Nat) : (poisonTile k tf n).mem = k.mem := by
  unfold poisonTile
  extract_lets k1
  rw [setCounters_mem]
  exact updateTile_mem k tf n _

@[simp] theorem runDrainBypass_mem (k : Core) (et : ElemTy) (col : Fin 4) (xs : List (Nat × Bool × Bool)) :
    (runDrainBypass k et col xs).mem = k.mem := rfl

/-! ### Issue of matrix commands -/

theorem matrixOp_endsOk {s : State} (h : s.memoryOk = true) {op : Op Unit} (hop : Op.Keeps MemOk op)
    (g : Guard) (i : Instr) (len : Nat) : EndsOk (matrixOp g i len op s) := by
  unfold matrixOp
  refine guarded_endsOk h ?_ g len
  split
  · exact endsOk_next h
  · exact runOp_endsOk h hop i len

theorem acceptMatrix_memoryOk {s : State} (h : s.memoryOk = true) (i : Instr) (d : Reg) (cmd : MCmd) :
    (acceptMatrix i d cmd s).memoryOk = true := by
  unfold acceptMatrix
  extract_lets c k t cmd1 s1
  have h1 : s1.memoryOk = true := State.memoryOk_setCore_mem h _ (Core.touchCmd_mem ..)
  exact State.memoryOk_setMe h1 _

theorem needWindow_keeps (sa : Word) (ops : List (Word × Nat)) (write : Bool) :
    Op.Keeps MemOk (needWindow sa ops write) := by
  unfold needWindow
  refine Op.keeps_bind (Op.keeps_ask _) fun k => ?_
  split
  · exact Op.keeps_fail _
  · refine Op.keeps_bind (Op.keeps_need _ _) fun x1 => ?_
    split
    · exact Op.keeps_fail _
    · exact Op.keeps_pure _

theorem issueMac_keeps (i : Instr) (m : MacCtl) (sp : Option Sparsity) (a : ASrc) (c : Reg) :
    Op.Keeps MemOk (issueMac i m sp a c) := by
  unfold issueMac
  refine Op.keeps_bind (Op.keeps_ask _) fun s => ?_
  extract_lets t v addr stride f blocks rows sc
  exact Op.keeps_bind (Op.keeps_need _ _) fun _ => Op.keeps_bind (Op.keeps_need _ _) fun _ =>
    Op.keeps_bind (Op.keeps_need _ _) fun _ => Op.keeps_bind (Op.keeps_need _ _) fun _ =>
    Op.keeps_bind (needWindow_keeps _ _ _) fun _ => Op.keeps_bind (Op.keeps_need _ _) fun _ =>
    Op.keeps_upd fun _ hs => acceptMatrix_memoryOk hs _ _ _

theorem execMmac_endsOk {s : State} (h : s.memoryOk = true) (g : Guard) (m : MacCtl) (a : ASrc) (c : Reg) :
    EndsOk (execMmac g m a c s) := by
  unfold execMmac
  exact matrixOp_endsOk h (issueMac_keeps _ _ _ _ _) _ _ _

theorem execMmacs_endsOk {s : State} (h : s.memoryOk = true) (g : Guard) (m : MacCtl) (sp : Sparsity)
    (a : ASrc) (c : Reg) : EndsOk (execMmacs g m sp a c s) := by
  unfold execMmacs
  exact matrixOp_endsOk h (issueMac_keeps _ _ _ _ _) _ _ _

theorem execMzero_endsOk {s : State} (h : s.memoryOk = true) (g : Guard) (tf : TileFmt) (tile : Fin 8) :
    EndsOk (execMzero g tf tile s) := by
  unfold execMzero
  exact matrixOp_endsOk h (Op.keeps_upd fun _ hs => acceptMatrix_memoryOk hs _ _ _) _ _ _

theorem issueMwld_keeps (i : Instr) (f : MFmt) (d : Reg) (src : MwldSrc) :
    Op.Keeps MemOk (issueMwld i f d src) := by
  unfold issueMwld
  refine Op.keeps_bind (Op.keeps_ask _) fun s => ?_
  extract_lets w t sa n cmd rest
  have hrest : ∀ r, Op.Keeps MemOk (rest r) := by
    intro r
    refine Op.keeps_bind (Op.keeps_need _ _) fun _ => ?_
    extract_lets x ops
    split
    · exact Op.keeps_fail _
    · refine Op.keeps_bind (Op.keeps_mapM (fun o => checkAccess_keeps w .load _ _) _) fun ps => ?_
      refine Op.keeps_bind (Op.keeps_need _ _) fun _ => Op.keeps_bind (Op.keeps_ask _) fun since => ?_
      exact Op.keeps_upd fun _ hs => acceptMatrix_memoryOk hs _ _ _
  refine Op.keeps_bind (Op.keeps_need _ _) fun _ => ?_
  split
  · exact Op.keeps_bind (useRecord_keeps w sa) hrest
  · exact Op.keeps_bind (Op.keeps_pure _) hrest

theorem execMwld_endsOk {s : State} (h : s.memoryOk = true) (g : Guard) (bfmt : MFmt) (slot : Fin 8) (d : Reg)
    (src : MwldSrc) : EndsOk (execMwld g bfmt slot d src s) := by
  unfold execMwld
  extract_lets i
  exact matrixOp_endsOk h (issueMwld_keeps _ _ _ _) _ _ _

theorem drainChecks_keeps (tf : TileFmt) (n : Nat) (sa : Word) {operands : Op Unit}
    (hop : Op.Keeps MemOk operands) : Op.Keeps MemOk (drainChecks tf n sa operands) := by
  unfold drainChecks
  exact Op.keeps_bind (Op.keeps_ask _) fun _ => Op.keeps_bind (Op.keeps_need _ _) fun _ =>
    Op.keeps_bind hop fun _ => Op.keeps_need _ _

theorem execMdrain_endsOk {s : State} (h : s.memoryOk = true) (g : Guard) (et : ElemTy) (rm : RoundField)
    (fp8 : Fp8Ovr) (tf : TileFmt) (tile : Fin 8) (d a b c : Reg) (disp : Imm 13) :
    EndsOk (execMdrain g et rm fp8 tf tile d a b c disp s) := by
  unfold execMdrain
  extract_lets t i sa addr stride len fl
  exact matrixOp_endsOk h
    (Op.keeps_bind (drainChecks_keeps _ _ _ (Op.keeps_bind (needWindow_keeps _ _ _) fun _ =>
    Op.keeps_need _ _)) fun _ => Op.keeps_upd fun _ hs => acceptMatrix_memoryOk hs _ _ _) _ _ _

theorem execMdrainq_endsOk {s : State} (h : s.memoryOk = true) (g : Guard) (et : ElemTy) (rm : RoundField)
    (fp8 : Fp8Ovr) (tf : TileFmt) (tile : Fin 8) : EndsOk (execMdrainq g et rm fp8 tf tile s) := by
  unfold execMdrainq
  extract_lets i
  exact matrixOp_endsOk h (Op.keeps_bind (drainChecks_keeps _ _ _ (Op.keeps_pure _)) fun _ =>
    Op.keeps_upd fun _ hs => acceptMatrix_memoryOk hs _ _ _) _ _ _

theorem execMdraina_endsOk {s : State} (h : s.memoryOk = true) (g : Guard) (et : ElemTy) (rm : RoundField)
    (fp8 : Fp8Ovr) (tf : TileFmt) (tile : Fin 8) (col : Imm 13) :
    EndsOk (execMdraina g et rm fp8 tf tile col s) := by
  unfold execMdraina
  extract_lets i
  exact matrixOp_endsOk h (Op.keeps_bind (drainChecks_keeps _ _ _ (Op.keeps_pure _)) fun _ =>
    Op.keeps_upd fun _ hs => acceptMatrix_memoryOk hs _ _ _) _ _ _

theorem execMstat_endsOk {s : State} (h : s.memoryOk = true) (g : Guard) (d : Reg) (tile : Fin 8) :
    EndsOk (execMstat g d tile s) := by
  unfold execMstat
  exact matrixOp_endsOk h (Op.keeps_upd fun _ hs => acceptMatrix_memoryOk hs _ _ _) _ _ _

theorem execMclrs_endsOk {s : State} (h : s.memoryOk = true) (g : Guard) (tile : Fin 8) :
    EndsOk (execMclrs g tile s) := by
  unfold execMclrs
  exact matrixOp_endsOk h (Op.keeps_upd fun _ hs => acceptMatrix_memoryOk hs _ _ _) _ _ _

theorem execMwait_endsOk {s : State} (h : s.memoryOk = true) (g : Guard) : EndsOk (execMwait g s) := by
  unfold execMwait
  extract_lets k
  refine guarded_endsOk h ?_ _ _
  split
  · exact endsOk_next (State.memoryOk_advance (State.memoryOk_setMe h _) _)
  · exact endsOk_next (State.memoryOk_setMe h _)

theorem setHead_memoryOk {s : State} (h : s.memoryOk = true) (c : Nat) (m : MCmd) :
    (setHead s c m).memoryOk = true := by
  unfold setHead
  extract_lets k
  exact State.memoryOk_setCore_mem h _ (Core.touchCmd_mem ..)

theorem setCmd_memoryOk {s : State} (h : s.memoryOk = true) (c : Nat) (m : MCmd) :
    (setCmd s c m).memoryOk = true := by
  unfold setCmd
  extract_lets k
  exact State.memoryOk_setCore_mem h _ (Core.touchCmd_mem ..)

theorem matrixRead_memoryOk {s : State} (h : s.memoryOk = true) (w : Who) (ps : List Piece) :
    (matrixRead w ps s).2.memoryOk = true := by
  unfold matrixRead
  extract_lets gone
  split
  · exact h
  · exact engineRead_memoryOk h _ _

theorem runMwld_memoryOk {s : State} (h : s.memoryOk = true) (c : Nat) (m : MCmd) (f : MFmt) (slot : Fin 8)
    (src : MwldSrc) : (runMwld s c m f slot src).memoryOk = true := by
  unfold runMwld
  extract_lets w x sd y bad v launch s1 k sl d d1
  have h1 : s1.memoryOk = true :=
    logRead_memoryOk (logRead_memoryOk (matrixRead_memoryOk (matrixRead_memoryOk h _ _) _ _) _ _ _ _) _ _ _ _
  have h2 : (s1.setCore c { k with slots := k.slots.set slot sl, dirty := d1 }).memoryOk = true :=
    State.memoryOk_setCore_mem h1 _ rfl
  exact setHead_memoryOk h2 c _

theorem readMask_memoryOk {s : State} (h : s.memoryOk = true) (w : Who) (c : Nat) (slot : Fin 8)
    (sp : Sparsity) (g col : Nat) : (readMask w c slot sp g col s).2.memoryOk = true := by
  unfold readMask
  extract_lets sl o n x s1 ps nums held q r
  have h1 : s1.memoryOk = true := matrixRead_memoryOk h _ _
  clear_value nums s1
  have hr : r.2.memoryOk = true := by
    cases nums with
    | nil => exact h1
    | cons a l => exact State.memoryOk_pick h1
  exact hr

theorem readMasks_memoryOk {s : State} (h : s.memoryOk = true) (w : Who) (c : Nat) (slot : Fin 8)
    (sp : Sparsity) (gcs : List (Nat × Nat)) : (readMasks w c slot sp gcs s).2.memoryOk = true := by
  unfold readMasks
  refine foldl_snd_memoryOk (fun r a hs => ?_) _ h
  extract_lets x
  exact readMask_memoryOk hs _ _ _ _ _ _

theorem runMac_memoryOk {s : State} (h : s.memoryOk = true) (c : Nat) (m : MCmd) (ctl : MacCtl)
    (sp : Option Sparsity) (src : ASrc) : (runMac s c m ctl sp src).memoryOk = true := by
  unfold runMac
  extract_lets w first q masks s1 k tf n k1 sl seen rows cols off bad scales k2 s2
  have h1 : s1.memoryOk = true := by
    unfold s1 q
    split
    · exact readMasks_memoryOk h _ _ _ _ _
    · exact h
  have hk1 : k1.mem = k.mem := by
    unfold k1
    split <;> rfl
  have hk2 : k2.mem = k.mem := by
    unfold k2
    split
    · rw [poisonTile_mem, hk1]
    · rw [updateTile_mem, hk1]
  have h2 : s2.memoryOk = true := by
    unfold s2
    split
    · exact logRead_memoryOk h1 _ _ _ _
    · exact h1
  exact setHead_memoryOk (State.memoryOk_setCore h2 c (hk2 ▸ State.core_mem_wf h1 c)) c _

theorem landDrain_memoryOk {s : State} (h : s.memoryOk = true) (c : Nat) (m : MCmd) (et : ElemTy)
    (xs : List (Nat × Bool × Bool)) (e : Nat) : (landDrain c m et xs s e).memoryOk = true := by
  unfold landDrain
  extract_lets st at'
  split
  · exact writeNum_memoryOk h _ _ _ _ _
  · exact writeNum_memoryOk h _ _ _ _ _

theorem runDrainMem_memoryOk {s : State} (h : s.memoryOk = true) (c : Nat) (m : MCmd) (et : ElemTy)
    (flags : Bool) (xs : List (Nat × Bool × Bool)) : (runDrainMem s c m et flags xs).memoryOk = true := by
  unfold runDrainMem
  split
  · extract_lets st
    refine foldl_memoryOk (fun s1 i hs => ?_) _ h
    extract_lets s2
    split
    · exact writeNum_memoryOk (writeNum_memoryOk hs _ _ _ _ _) _ _ _ _ _
    · exact writeNum_memoryOk hs _ _ _ _ _
  · exact foldl_memoryOk (fun _ _ hs => landDrain_memoryOk hs _ _ _ _ _) _ h

theorem startDrain_memoryOk {s : State} (h : s.memoryOk = true) (c : Nat) (m : MCmd) (tf : TileFmt) (n : Nat)
    (et : ElemTy) (rm : RoundField) (fp8 : Fp8Ovr) : (startDrain s c m tf n et rm fp8).2.memoryOk = true := by
  unfold startDrain
  extract_lets k xs
  exact State.memoryOk_setCore_mem h _ (countDrain_mem ..)

theorem performMatrix_memoryOk {s : State} (h : s.memoryOk = true) (c : Nat) (m : MCmd) :
    (performMatrix s c m).memoryOk = true := by
  unfold performMatrix
  extract_lets k
  split
  · exact runMac_memoryOk h _ _ _ _ _
  · exact runMac_memoryOk h _ _ _ _ _
  · exact setHead_memoryOk (State.memoryOk_setCore_mem h _ (clearTile_mem ..)) _ _
  · exact runMwld_memoryOk h _ _ _ _ _
  · extract_lets r
    exact setHead_memoryOk (runDrainMem_memoryOk (startDrain_memoryOk h _ _ _ _ _ _ _) _ _ _ _ _) _ _
  · extract_lets r
    exact setHead_memoryOk (startDrain_memoryOk h _ _ _ _ _ _ _) _ _
  · extract_lets r
    exact setHead_memoryOk (State.memoryOk_setCore_mem (startDrain_memoryOk h _ _ _ _ _ _ _) _
      (runDrainBypass_mem ..)) _ _
  · exact setHead_memoryOk h _ _
  · exact setHead_memoryOk (State.memoryOk_setCore_mem h _ (setCounters_mem ..)) _ _
  · exact setHead_memoryOk h _ _

theorem takeRows_memoryOk {s : State} (h : s.memoryOk = true) (c : Nat) (m : MCmd) :
    (takeRows s c m).1.memoryOk = true := by
  unfold takeRows
  extract_lets need t got m'
  exact setHead_memoryOk (State.memoryOk_setTs h _ _) _ _

theorem pushRows_memoryOk {s : State} (h : s.memoryOk = true) (c : Nat) (m : MCmd) :
    (pushRows s c m).memoryOk = true := by
  unfold pushRows
  split
  · exact setHead_memoryOk h _ _
  · extract_lets t room
    exact setHead_memoryOk (State.memoryOk_setTs h _ _) _ _

theorem stampMatrix_memoryOk {s : State} (h : s.memoryOk = true) (c : Nat) (m : MCmd) :
    (stampMatrix s c m).1.memoryOk = true := by
  unfold stampMatrix
  extract_lets k p
  exact State.memoryOk_setCore_mem h _ rfl

end Sys2Proof.Machine

/-! SUPPORT. Every step keeps the canonical form of every memory (O7): matrix commands, the graph and the
dispatcher, placement. -/

namespace Sys2Proof.Machine
open Sys2Proof

theorem matrixAhead.element_memoryOk {s : State} (h : s.memoryOk = true) (c : Nat) (m : MCmd) (p : Nat) :
    (matrixAhead.element s c m p).memoryOk = true := by
  unfold matrixAhead.element
  extract_lets rs
  split
  · exact h
  · extract_lets o
    split
    · exact h
    · exact setCmd_memoryOk h _ _

theorem matrixAhead_memoryOk {s : State} (h : s.memoryOk = true) (c : Nat) (m : MCmd) (p : Nat) :
    (matrixAhead s c m p).memoryOk = true := by
  unfold matrixAhead
  split
  · extract_lets es o a g1
    split
    · exact h
    · have hg1 : g1.2.2.memoryOk = true := withClock_memoryOk h (fun _ hs => matrixRead_memoryOk hs _ _) _
      exact setCmd_memoryOk hg1 _ _
  · split
    · exact matrixAhead.element_memoryOk h _ _ _
    · extract_lets gs e2 g1
      split
      · exact h
      · have hg1 : g1.2.2.memoryOk = true :=
          withClock_memoryOk h (fun _ hs => readMask_memoryOk hs _ _ _ _ _ _) _
        exact setCmd_memoryOk hg1 _ _
  · exact matrixAhead.element_memoryOk h _ _ _

theorem matrixEvent_memoryOk {s : State} (h : s.memoryOk = true) (c : Nat) (m : MCmd) :
    (matrixEvent s c m).memoryOk = true := by
  unfold matrixEvent
  extract_lets r p s1 m1
  have hp : p.2.memoryOk = true := State.memoryOk_pick (stampMatrix_memoryOk h _ _)
  have h1 : s1.memoryOk = true := hp
  split
  · extract_lets left xs
    split
    · exact h1
    · exact setHead_memoryOk (landDrain_memoryOk h1 _ _ _ _ _) _ _
  · exact matrixAhead_memoryOk h1 _ _ _

theorem beginMatrix_memoryOk {s : State} (h : s.memoryOk = true) (c : Nat) (m : MCmd) :
    (beginMatrix s c m).memoryOk = true := by
  unfold beginMatrix
  split
  · exact h
  · extract_lets s1
    exact State.memoryOk_setCore_mem (setHead_memoryOk h _ _) _ rfl

theorem matrixStep_memoryOk {s : State} (h : s.memoryOk = true) (c : Nat) (m : MCmd) :
    (matrixStep s c m).memoryOk = true := by
  unfold matrixStep
  extract_lets s1 m1 r x q s2
  have hr : r.1.memoryOk = true := takeRows_memoryOk (beginMatrix_memoryOk h _ _) _ _
  have hx : x.1.memoryOk = true := stampMatrix_memoryOk hr _ _
  have hq : q.2.2.memoryOk = true := withClock_memoryOk hx (fun _ hs => performMatrix_memoryOk hs _ _) _
  have h2 : s2.memoryOk = true := hq
  split
  · exact pushRows_memoryOk (beginMatrix_memoryOk h _ _) _ _
  · split
    · exact beginMatrix_memoryOk h _ _
    · split
      · exact matrixEvent_memoryOk (beginMatrix_memoryOk h _ _) _ _
      · split
        · exact hr
        · split
          · extract_lets n s3
            have h3 : s3.memoryOk = true := setHead_memoryOk h2 _ _
            split
            · exact h3
            · exact pushRows_memoryOk h3 _ _
          · exact h2

theorem execMatrixCommandStart_endsOk {s : State} (h : s.memoryOk = true) (c : Nat) :
    EndsOk (execMatrixCommandStart c s) := by
  unfold execMatrixCommandStart
  split
  · exact endsOk_next h
  · extract_lets q
    have hq : q.2.memoryOk = true := by
      unfold q
      split
      · exact State.memoryOk_pick h
      · exact h
    split
    · extract_lets y p
      refine endsOk_next ?_
      split
      · exact hq
      · have hp : p.2.memoryOk = true := by
          unfold p
          have hy : y.1.memoryOk = true := stampMatrix_memoryOk hq _ _
          exact State.memoryOk_pick hy
        exact matrixAhead_memoryOk hp _ _ _
    · split
      · exact endsOk_next hq
      · exact endsOk_next (matrixStep_memoryOk hq _ _)

theorem endMwaits_memoryOk {s : State} (h : s.memoryOk = true) (c : Nat) :
    (endMwaits s c).memoryOk = true := by
  unfold endMwaits
  refine foldl_memoryOk (fun s1 i hs => ?_) _ h
  extract_lets t
  split
  · split
    · exact hs
    · exact State.memoryOk_setTs hs _ _
  · exact hs

theorem execMatrixCommandCompletion_endsOk {s : State} (h : s.memoryOk = true) (c : Nat) :
    EndsOk (execMatrixCommandCompletion c s) := by
  unfold execMatrixCommandCompletion
  split
  · exact endsOk_next h
  · split
    · extract_lets k s1
      have h1 : s1.memoryOk = true := State.memoryOk_setCore_mem h _ (Core.dropCmd_mem ..)
      exact endsOk_next (finishEnds_memoryOk (endMwaits_memoryOk (giveToken_memoryOk h1 _ _ _ _ _) _))
    · exact endsOk_next h

theorem execSpawn_endsOk {s : State} (h : s.memoryOk = true) (n : Fin 4) (d a b : Reg) :
    EndsOk (execSpawn n d a b s) := by
  unfold execSpawn
  extract_lets t v i bad
  split
  · exact endsOk_next (postFault_memoryOk h _ _)
  · split
    · exact endsOk_next (postFault_memoryOk h _ _)
    · split
      · exact endsOk_next (postFault_memoryOk h _ _)
      · split
        · exact endsOk_next (postFault_memoryOk h _ _)
        · exact endsOk_next (State.memoryOk_congr h rfl rfl rfl rfl rfl)

theorem execTdefer_endsOk {s : State} (h : s.memoryOk = true) (a : Reg) : EndsOk (execTdefer a s) := by
  unfold execTdefer
  extract_lets t
  split
  · exact endsOk_next (postFault_memoryOk h _ _)
  · split
    · exact endsOk_next (postFault_memoryOk h _ _)
    · refine endsOk_next ?_
      refine tryEnd_memoryOk h _ ?_
      intro s1 hs
      extract_lets back
      exact endTs_memoryOk (State.updLaunch_memoryOk hs _ _) _ _

theorem graphEvent_memoryOk {s : State} (h : s.memoryOk = true) (n now : Nat) (e : Ev) :
    (graphEvent n now e s).2.memoryOk = true := by
  unfold graphEvent
  split
  · exact h
  · extract_lets loc past c
    split
    · exact h
    · exact h
    · exact State.memoryOk_pick h

/-! ### Operations whose result carries a state -/

/-- An operation keeps the form of memory, and its result has a property. -/
def Op.Yields {α : Type} (P : α → Prop) (op : Op α) : Prop :=
  ∀ s, s.memoryOk = true → ∀ a t, op s = .ok (a, t) → P a ∧ t.memoryOk = true

section yields
variable {α β : Type}

theorem Op.yields_of_keeps {op : Op α} (hop : Op.Keeps MemOk op) : Op.Yields (fun _ => True) op :=
  fun s h a t e => ⟨trivial, hop s h a t e⟩

theorem Op.keeps_of_yields {P : α → Prop} {op : Op α} (hop : Op.Yields P op) : Op.Keeps MemOk op :=
  fun s h a t e => (hop s h a t e).2

theorem Op.yields_pure {P : α → Prop} {x : α} (hx : P x) : Op.Yields P (pure x) := by
  rintro s h a t ⟨⟩
  exact ⟨hx, h⟩

theorem Op.yields_now : Op.Yields MemOk (Op.ask id) := by
  rintro s h a t ⟨⟩
  exact ⟨h, h⟩

theorem Op.yields_bind {P : α → Prop} {Q : β → Prop} {x : Op α} {f : α → Op β} (hx : Op.Yields P x)
    (hf : ∀ a, P a → Op.Yields Q (f a)) : Op.Yields Q (x >>= f) := by
  intro s h b t e
  change (x s >>= fun r => f r.1 r.2) = _ at e
  match hxs : x s with
  | .ok (a, u) =>
    rw [hxs] at e
    obtain ⟨ha, hu⟩ := hx s h a u hxs
    exact hf a ha u hu b t e
  | .error r => rw [hxs] at e; cases e

/-- An operation whose result does not matter comes first. -/
theorem Op.yields_after {Q : β → Prop} {x : Op α} {f : α → Op β} (hx : Op.Keeps MemOk x)
    (hf : ∀ a, Op.Yields Q (f a)) : Op.Yields Q (x >>= f) :=
  Op.yields_bind (Op.yields_of_keeps hx) fun a _ => hf a

end yields

theorem Op.pick_keeps : Op.Keeps MemOk Op.pick := by
  intro s h a t e
  have ht : s.pick.2 = t := congrArg Prod.snd (Except.ok.inj e)
  exact ht ▸ State.memoryOk_pick h

theorem orGraphError_memoryOk {s : State} (h : s.memoryOk = true) {op : Op State} (hop : Op.Yields MemOk op)
    (n : Nat) : (orGraphError n op s).memoryOk = true := by
  unfold orGraphError
  split
  next t u e => exact (hop s h t u e).1
  · exact killLaunch_memoryOk h _ _
  · exact h

/-! ### The graph -/

theorem graphEvents_memoryOk {s : State} (h : s.memoryOk = true) (n v : Nat) (es : List Ev) :
    (graphEvents n v es s).2.memoryOk = true := by
  induction es generalizing s with
  | nil => exact h
  | cons e r ih => exact ih (graphEvent_memoryOk h n _ e)

theorem readGraph_keeps (l : Launch) (addr n : Nat) : Op.Keeps MemOk (readGraph l addr n) := by
  unfold readGraph
  refine Op.keeps_bind (checkAccess_keeps _ _ _ _) fun ps =>
    Op.keeps_bind (readAll_keeps _ _ _) fun v s h a t e => ?_
  have ht : (graphEvents l.num v (laneEvents 0 false 0 ps) s).2 = t := congrArg Prod.snd (Except.ok.inj e)
  exact ht ▸ graphEvents_memoryOk h _ _ _

theorem neighbours_keeps (l : Launch) (v : Nat) : Op.Keeps MemOk (neighbours l v) := by
  unfold neighbours
  split
  · exact Op.keeps_pure _
  · exact Op.keeps_bind (readGraph_keeps _ _ _) fun _ => Op.keeps_bind (readGraph_keeps _ _ _) fun _ =>
      Op.keeps_mapM (fun _ => readGraph_keeps _ _ _) _

theorem ballStep_keeps (l : Launch) (v : Nat) : Op.Keeps MemOk (ballStep l v) := by
  unfold ballStep
  refine Op.keeps_bind (neighbours_keeps l v) fun ns => ?_
  split
  · exact Op.keeps_bind (Op.keeps_need _ _) fun _ => Op.keeps_pure _
  · exact Op.keeps_bind (Op.keeps_pure ()) fun _ => Op.keeps_pure _

theorem ballFrom_keeps (l : Launch) (r : Nat) (vs : List Nat) : Op.Keeps MemOk (ballFrom l r vs) := by
  induction r generalizing vs with
  | zero => exact Op.keeps_pure _
  | succ r ih => exact Op.keeps_bind (Op.keeps_mapM (ballStep_keeps l) _) fun ns => ih _

theorem colourOf_keeps (l : Launch) (v : Nat) : Op.Keeps MemOk (colourOf l v) := by
  unfold colourOf
  split
  · exact Op.keeps_pure _
  · split
    · exact Op.keeps_pure _
    · split
      · exact Op.keeps_pure _
      · exact Op.keeps_bind (readGraph_keeps _ _ _) fun b => Op.keeps_pure _

theorem ownerOf_keeps (l : Launch) (v : Nat) : Op.Keeps MemOk (ownerOf l v) := by
  unfold ownerOf
  split
  · exact Op.keeps_pure _
  · split
    · exact Op.keeps_pure _
    · exact Op.keeps_bind (readGraph_keeps _ _ _) fun _ => Op.keeps_bind (Op.keeps_ask _) fun _ =>
        Op.keeps_pure _

theorem ballOf_keeps (l : Launch) (v : Nat) : Op.Keeps MemOk (ballOf l v) := by
  unfold ballOf
  exact Op.keeps_bind (ballFrom_keeps _ _ _) fun _ =>
    Op.keeps_mapM (fun _ => Op.keeps_bind (ownerOf_keeps _ _) fun _ => Op.keeps_pure _) _

/-! ### Spawns -/

theorem execSpawnArrival_endsOk {s : State} (h : s.memoryOk = true) (i : Nat) :
    EndsOk (execSpawnArrival i s) := by
  unfold execSpawnArrival
  split
  · exact endsOk_next h
  next x _ =>
    split
    next l _ _ =>
      refine endsOk_next (orGraphError_memoryOk h ?_ _)
      refine Op.yields_after (ownerOf_keeps l x.elem) fun own => Op.yields_bind Op.yields_now fun s hs =>
        Op.yields_pure ?_
      unfold MemOk
      split
      · exact partitionDue_memoryOk (State.memoryOk_setDisp (State.memoryOk_setLaunch hs _) _) _ _
      · exact hs
    · exact endsOk_next h

theorem execSpawnAnswer_endsOk {s : State} (h : s.memoryOk = true) (i : Nat) :
    EndsOk (execSpawnAnswer i s) := by
  unfold execSpawnAnswer
  split
  · exact endsOk_next h
  · split
    · exact endsOk_next h
    · extract_lets s1
      exact endsOk_next (finishEnds_memoryOk (State.memoryOk_setDisp (State.memoryOk_setTs h _ _) _))

theorem pushEntry_memoryOk {s : State} (h : s.memoryOk = true) (k : Nat) (e : Entry) :
    (pushEntry s k e).memoryOk = true := by
  unfold pushEntry
  exact State.memoryOk_setDisp h _

theorem badMarking_keeps (l : Launch) (x : Look) : Op.Keeps MemOk (badMarking l x) := by
  unfold badMarking
  exact Op.keeps_bind (ballOf_keeps _ _) fun _ =>
    Op.keeps_bind (Op.keeps_mapM (fun _ => colourOf_keeps _ _) _) fun _ => Op.keeps_pure _

theorem noteOnce_memoryOk {s : State} (h : s.memoryOk = true) (n die type : Nat) (key : Nat × Nat)
    (addr : Nat) : (noteOnce s n die type key addr).memoryOk = true := by
  unfold noteOnce
  split
  · exact h
  · split
    · exact h
    · exact errorLog_memoryOk (State.memoryOk_setLaunch h _) _ _ _ _ _

theorem grant_memoryOk {s : State} (h : s.memoryOk = true) (l : Launch) (x : Look) :
    (grant s l x).memoryOk = true := by
  unfold grant
  extract_lets t l1 c room k s1
  have h1 : s1.memoryOk = true :=
    pushEntry_memoryOk (State.memoryOk_setLaunch (State.memoryOk_pick h) _) _ _
  split
  · exact State.memoryOk_setLaunch h _
  · split
    · exact passDue_memoryOk h1 _
    · exact h1

theorem askClaims_memoryOk {s : State} (h : s.memoryOk = true) (l : Launch) (x : Look) :
    (askClaims s l x).memoryOk = true := by
  unfold askClaims
  extract_lets _ t new s1 _
  exact State.memoryOk_setDisp (State.memoryOk_setLaunch h _) _

/-! ### Passes -/

theorem lookAt_keeps (l : Launch) (t : Task) : Op.Keeps MemOk (lookAt l t) :=
  Op.keeps_bind (ballOf_keeps l _) fun _ => Op.keeps_bind (colourOf_keeps l _) fun _ => Op.keeps_pure _

/-- The state that an examination decides on has memories of canonical form. -/
theorem examine_yields (n : Nat) (t : Task) : Op.Yields (fun r => r.2.memoryOk = true) (examine n t) := by
  intro s h a u e
  unfold examine at e
  split at e
  · cases e; exact ⟨h, h⟩
  next l _ =>
    extract_lets op at e
    have hop : Op.Yields (fun r : Bool × State => r.2.memoryOk = true) op := by
      unfold op
      refine Op.yields_after (lookAt_keeps l t) fun x =>
        Op.yields_after (Op.keeps_mapM (lookAt_keeps l) _) fun others => ?_
      split
      · exact Op.yields_bind Op.yields_now fun s hs => Op.yields_pure hs
      · split
        · exact Op.yields_bind Op.yields_now fun s hs => Op.yields_pure (grant_memoryOk hs _ _)
        · refine Op.yields_after (badMarking_keeps l x) fun bad => Op.yields_bind Op.yields_now fun s hs => ?_
          extract_lets s1 l1
          have h1 : s1.memoryOk = true := by
            unfold s1
            split
            · exact noteOnce_memoryOk hs _ _ _ _ _
            · exact hs
          split
          · exact Op.yields_pure (grant_memoryOk h1 _ _)
          · refine Op.yields_pure ?_
            split
            · exact h1
            · exact askClaims_memoryOk h1 _ _
    exact hop s h a u e

theorem tryTask_keeps (n : Nat) (t : Task) : Op.Keeps MemOk (tryTask n t) := by
  refine Op.keeps_of_yields (P := fun _ => True) ?_
  unfold tryTask
  refine Op.yields_bind (examine_yields n t) fun r hr => Op.yields_of_keeps ?_
  exact Op.keeps_bind (Op.keeps_upd fun _ _ => hr) fun _ => Op.keeps_pure _

theorem visit_keeps (n pos elem : Nat) : Op.Keeps MemOk (visit n pos elem) := by
  unfold visit
  refine Op.keeps_bind (Op.keeps_ask _) fun s => ?_
  split
  · exact Op.keeps_pure _
  · split
    · exact Op.keeps_pure _
    · refine Op.keeps_bind (tryTask_keeps _ _) fun done => ?_
      split
      · exact Op.keeps_pure _
      · refine Op.keeps_bind (colourOf_keeps _ _) fun c => ?_
        refine Op.keeps_bind (Op.keeps_ask _) fun s1 => ?_
        split
        · exact Op.keeps_pure _
        · extract_lets t'
          refine Op.keeps_bind (Op.keeps_upd fun _ hs => State.memoryOk_setLaunch hs _) fun x2 => ?_
          split
          · exact Op.keeps_bind (tryTask_keeps _ _) fun _ => Op.keeps_pure _
          · exact Op.keeps_pure _

theorem visitIn_memoryOk {s : State} (h : s.memoryOk = true) {n pos elem : Nat} {t : State}
    (e : visitIn n pos elem s = some t) : t.memoryOk = true := by
  unfold visitIn at e
  split at e
  next u hu =>
    cases e
    exact (visit_keeps n pos elem).ok h hu
  · cases e
    exact killLaunch_memoryOk h _ _
  · cases e

theorem passFrom_memoryOk {s : State} (h : s.memoryOk = true) {die : Nat} {l : List (Nat × Nat × Nat)}
    {t : State} (e : passFrom die l s = some t) : t.memoryOk = true := by
  induction l generalizing s with
  | nil => cases e; exact h
  | cons x r ih =>
    unfold passFrom at e
    split at e
    · cases e
      exact passDue_memoryOk h die
    · obtain ⟨u, hu, hr⟩ := Option.bind_eq_some_iff.1 e
      exact ih (visitIn_memoryOk h hu) hr

theorem ownPass_memoryOk {s : State} (h : s.memoryOk = true) (die : Nat) :
    (ownPass die s).memoryOk = true := by
  unfold ownPass
  split
  · exact h
  · exact getD_memoryOk h fun t e => passFrom_memoryOk (State.memoryOk_setDisp h _) e

theorem remoteSpawns_keeps (n pts k : Nat) : Op.Keeps MemOk (remoteSpawns n pts k) := by
  induction k with
  | zero => exact Op.keeps_pure _
  | succ k ih =>
    unfold remoteSpawns
    refine Op.keeps_bind Op.pick_keeps fun v => Op.keeps_bind Op.pick_keeps fun a =>
      Op.keeps_bind (Op.keeps_ask _) fun s => ?_
    split
    · exact Op.keeps_bind (Op.keeps_pure ()) fun _ => ih
    next l _ =>
      split
      · exact Op.keeps_bind (Op.keeps_pure ()) fun _ => ih
      · refine Op.keeps_bind (ownerOf_keeps l v) fun own =>
          Op.keeps_bind (Op.keeps_upd fun s hs => ?_) fun _ => ih
        extract_lets r s1
        split
        · exact partitionDue_memoryOk (State.memoryOk_setLaunch hs _) _ _
        · exact hs

theorem remoteRetire_memoryOk {s : State} (h : s.memoryOk = true) (l : Launch) (r : Running) :
    (remoteRetire l r s).memoryOk = true := by
  unfold remoteRetire
  extract_lets mine freed s1
  exact settleLaunch_memoryOk (foldl_memoryOk (fun _ _ hs => partitionDue_memoryOk hs _ _) _
    (State.updLaunch_memoryOk h _ _)) _

theorem remoteEnd_keeps (l : Launch) (r : Running) : Op.Keeps MemOk (remoteEnd l r) := by
  unfold remoteEnd
  refine Op.keeps_bind (Op.pick_keeps) fun k => ?_
  refine Op.keeps_bind (Op.pick_keeps) fun e => ?_
  refine Op.keeps_bind (remoteSpawns_keeps _ _ _) fun x => ?_
  split
  · exact Op.keeps_pure _
  · exact Op.keeps_upd fun _ hs => remoteRetire_memoryOk hs _ _

theorem remoteEnds_memoryOk {s : State} (h : s.memoryOk = true) (own : Partition) :
    (remoteEnds own s).memoryOk = true := by
  unfold remoteEnds
  extract_lets rs c
  have hc : c.2.memoryOk = true := State.memoryOk_pick h
  clear_value rs
  cases rs with
  | nil => exact h
  | cons x l =>
    change State.memoryOk (match (x :: l)[c.1 % ((x :: l).length + 1)]? with | none => _ | some (l, r) => _) =
      true
    split
    · exact hc
    next l r _ =>
      split
      · exact State.updLaunch_memoryOk hc _ _
      · exact orGraphError_memoryOk hc (Op.yields_after (remoteEnd_keeps l r) fun _ => Op.yields_now) _

theorem remotePass_memoryOk {s : State} (h : s.memoryOk = true) (p die : Nat) :
    (remotePass p die s).memoryOk = true := by
  unfold remotePass
  split
  · exact foldl_memoryOk (fun _ _ hs => getD_memoryOk hs fun t e => visitIn_memoryOk hs e) _
      (remoteEnds_memoryOk h _)
  · exact h

theorem execDispatchPass_endsOk {s : State} (h : s.memoryOk = true) (pkg : Option (BitVec 8)) (die : Fin 8) :
    EndsOk (execDispatchPass pkg die s) := by
  unfold execDispatchPass
  refine endsOk_next ?_
  split
  · exact ownPass_memoryOk h _
  · exact remotePass_memoryOk h _ _

theorem execTaskReservation_endsOk {s : State} (h : s.memoryOk = true) (n : Nat) (pos : Fin 4) (elem : Nat) :
    EndsOk (execTaskReservation n pos elem s) := by
  unfold execTaskReservation
  split
  · exact endsOk_next h
  next l _ =>
    split
    · exact endsOk_next h
    · refine endsOk_next (orGraphError_memoryOk h ?_ _)
      refine Op.yields_after (colourOf_keeps l elem) fun c => Op.yields_bind Op.yields_now fun s hs =>
        Op.yields_pure ?_
      unfold MemOk
      split
      · exact State.memoryOk_setLaunch hs _
      · exact hs

theorem execTdeferHoldExpiry_endsOk {s : State} (h : s.memoryOk = true) (n : Nat) (pos : Fin 4) (elem : Nat) :
    EndsOk (execTdeferHoldExpiry n pos elem s) := by
  unfold execTdeferHoldExpiry
  split
  · exact endsOk_next h
  · split
    · exact endsOk_next h
    · split
      · exact endsOk_next h
      · exact endsOk_next (partitionDue_memoryOk (State.memoryOk_setLaunch h _) _ _)

theorem passDueAll_memoryOk {s : State} (h : s.memoryOk = true) : (passDueAll s).memoryOk = true := by
  unfold passDueAll
  exact foldl_memoryOk (fun _ _ hs => passDue_memoryOk hs _) _ h

theorem pendingColours_keeps (l : Launch) (own : Partition) : Op.Keeps MemOk (pendingColours l own) := by
  unfold pendingColours
  exact Op.keeps_bind (Op.keeps_mapM (fun _ => colourOf_keeps _ _) _) fun _ => Op.keeps_pure _

theorem knownColours_keeps (l : Launch) : Op.Keeps MemOk (knownColours l) := by
  unfold knownColours
  extract_lets told
  split
  · exact Op.keeps_pure _
  · exact Op.keeps_bind (Op.keeps_mapM (fun _ => pendingColours_keeps _ _) _) fun _ => Op.keeps_pure _

/-! ### Seam rounds -/

theorem execSeamRoundStart_endsOk {s : State} (h : s.memoryOk = true) (n : Nat) :
    EndsOk (execSeamRoundStart n s) := by
  unfold execSeamRoundStart
  split
  · exact endsOk_next h
  next l _ =>
    split
    · exact endsOk_next h
    · refine endsOk_next (orGraphError_memoryOk h ?_ _)
      refine Op.yields_after (knownColours_keeps l) fun known => ?_
      refine Op.yields_after (Op.keeps_mapM (fun t => colourOf_keeps l _) _) fun cs =>
        Op.yields_bind Op.yields_now fun s hs => ?_
      split
      · exact Op.yields_pure hs
      · exact Op.yields_pure (passDueAll_memoryOk (State.memoryOk_setLaunch hs _))

theorem execSeamRoundDone_endsOk {s : State} (h : s.memoryOk = true) (n : Nat) (d : DieOf) :
    EndsOk (execSeamRoundDone n d s) := by
  unfold execSeamRoundDone
  extract_lets own
  split
  · exact endsOk_next h
  next l _ =>
    split
    · exact endsOk_next h
    · refine endsOk_next (orGraphError_memoryOk h ?_ _)
      refine Op.yields_after (pendingColours_keeps l own) fun cs => Op.yields_bind Op.yields_now fun s hs =>
        Op.yields_pure ?_
      unfold MemOk
      split
      · exact passDueAll_memoryOk (State.memoryOk_setLaunch hs _)
      · exact State.memoryOk_setLaunch hs _

/-! ### The verifying mode -/

theorem claimBall_keeps (l : Launch) (c : Claim) : Op.Keeps MemOk (claimBall l c) := by
  unfold claimBall
  exact Op.keeps_bind (ballOf_keeps _ _) fun _ => Op.keeps_bind (Op.keeps_ask _) fun _ => Op.keeps_pure _

theorem lowerAsker_keeps (l : Launch) (c : Claim) (es : List Nat) : Op.Keeps MemOk (lowerAsker l c es) := by
  unfold lowerAsker
  exact Op.keeps_bind (Op.keeps_ask _) fun _ => Op.keeps_bind (Op.keeps_mapM (fun _ => lookAt_keeps _ _) _)
    fun _ => Op.keeps_pure _

theorem execRemoteClaimRequest_endsOk {s : State} (h : s.memoryOk = true) (i : Nat) :
    EndsOk (execRemoteClaimRequest i s) := by
  unfold execRemoteClaimRequest
  split
  · exact endsOk_next h
  next c _ =>
    split
    next l _ _ =>
      refine endsOk_next (orGraphError_memoryOk h ?_ _)
      refine Op.yields_after (claimBall_keeps l c) fun es => ?_
      extract_lets busy
      split
      · refine Op.yields_after (lowerAsker_keeps l c es) fun wait => Op.yields_bind Op.yields_now fun s hs =>
          ?_
        split
        · exact Op.yields_pure hs
        · exact Op.yields_pure (State.memoryOk_setDisp (State.memoryOk_setLaunch hs _) _)
      · refine Op.yields_after (Op.keeps_mapM (fun u => Op.keeps_bind (ballOf_keeps l u) fun b =>
          Op.keeps_pure _) _) fun bs => ?_
        refine Op.yields_bind Op.yields_now fun s hs =>
          Op.yields_pure (foldl_memoryOk (fun s b hs => ?_) _ hs)
        extract_lets lo hi
        split
        · exact noteOnce_memoryOk hs _ _ _ _ _
        · exact hs
    · exact endsOk_next h

theorem execRemoteClaimAnswer_endsOk {s : State} (h : s.memoryOk = true) (i : Nat) :
    EndsOk (execRemoteClaimAnswer i s) := by
  unfold execRemoteClaimAnswer
  split
  · exact endsOk_next h
  · split
    · exact endsOk_next h
    · extract_lets _ s1
      split
      · exact endsOk_next (State.memoryOk_setDisp h _)
      · split
        · exact endsOk_next (State.memoryOk_setDisp h _)
        · extract_lets t1 s2
          have h2 : s2.memoryOk = true := State.memoryOk_setLaunch (State.memoryOk_setDisp h _) _
          refine endsOk_next ?_
          split
          · exact partitionDue_memoryOk h2 _ _
          · exact h2

/-! ### Placement and starts -/

theorem placeFrom_memoryOk {s : State} (h : s.memoryOk = true) {map : List Nat} {n i : Nat}
    {given : List (Nat × Nat)} {r : List (Nat × Nat) × State} (e : placeFrom map n i given s = some r) :
    r.2.memoryOk = true := by
  induction n generalizing i given s with
  | zero => cases e; exact h
  | succ n ih =>
    unfold placeFrom at e
    extract_lets m near cand c at e
    split at e
    · cases e
    · exact ih (State.memoryOk_pick h) e

theorem execGangPlacement_endsOk {s : State} (h : s.memoryOk = true) (n : Nat) :
    EndsOk (execGangPlacement n s) := by
  unfold execGangPlacement
  split
  · exact endsOk_next h
  · split
    · exact endsOk_next h
    · split
      · exact endsOk_next h
      next given s1 e =>
        have h1 : s1.memoryOk = true := placeFrom_memoryOk h e
        exact endsOk_next (foldl_memoryOk (fun _ _ hs => pushEntry_memoryOk hs _ _) _
          (State.memoryOk_setLaunch h1 _))

/-- A core that a new launch finds has an empty memory. -/
theorem freshCore_memoryOk {s : State} (h : s.memoryOk = true) (c n : Nat) :
    (freshCore s c n).memoryOk = true := by
  unfold freshCore
  extract_lets idle other s1 s2 k k1
  have h1 : s1.memoryOk = true := by
    unfold s1
    split
    · exact dropStash_memoryOk h _ _
    · exact h
  have h2 : s2.memoryOk = true := by
    unfold s2
    split
    · exact dropImages_memoryOk h1 _
    · exact h1
  have hk1 : k1.mem = k.mem := by
    unfold k1
    split <;> rfl
  refine State.memoryOk_setCore h2 c ?_
  split
  · rfl
  · exact hk1 ▸ State.core_mem_wf h2 c

/-- The state in which an entry has started. -/
theorem startEntry_yields (t : Nat) (l : Launch) (e : Entry) : Op.Yields MemOk (startEntry t l e) := by
  unfold startEntry
  refine Op.yields_bind Op.yields_now fun s hs => ?_
  extract_lets old keep
  split
  · exact Op.yields_pure (State.memoryOk_setTs hs _ _)
  next pos elem arg =>
    refine Op.yields_after (neighbours_keeps l elem) fun ns => Op.yields_bind Op.yields_now fun s hs => ?_
    extract_lets q here pts s1 take
    exact Op.yields_pure (State.updLaunch_memoryOk (State.memoryOk_setTs hs _ _) _ _)

theorem execThreadSetStart_endsOk {s : State} (h : s.memoryOk = true) (t : Nat) :
    EndsOk (execThreadSetStart t s) := by
  unfold execThreadSetStart
  extract_lets c k q
  split
  · exact endsOk_fault _
  · split
    · exact endsOk_next h
    · split
      · exact endsOk_next h
      · split
        · exact endsOk_next h
        next e _ =>
          split
          · exact endsOk_next h
          next l _ =>
            refine endsOk_next
              (orGraphError_memoryOk h (Op.yields_after (Op.keeps_upd fun s hs => ?_) fun _ => ?_) _)
            · exact freshCore_memoryOk (State.memoryOk_setDisp hs _) _ _
            · exact startEntry_yields t l e

end Sys2Proof.Machine

/-! SUPPORT. Every step keeps the canonical form of every memory (O7): barriers, stage rings, wakes and
accesses that waited. -/

namespace Sys2Proof.Machine
open Sys2Proof

/-! ### Barriers and stage rings -/

theorem postWait_memoryOk {s : State} (h : s.memoryOk = true) (i : Instr) (f : FaultInfo) (phase : Nat) :
    (postWait i f phase s).memoryOk = true := by
  unfold postWait
  extract_lets s1
  split
  · have h2 : s1.memoryOk = true := postFault_memoryOk h _ _
    exact h2
  · exact postFault_memoryOk h _ _

theorem passPhase_endsOk {s : State} (h : s.memoryOk = true) (g : Group) (t : ThreadSet) :
    EndsOk (passPhase g t s) := by
  unfold passPhase
  exact nextMe_endsOk h _ _

theorem waitPhase_endsOk {s : State} (h : s.memoryOk = true) (slot : Fin 4) (phase : Nat) :
    EndsOk (waitPhase slot phase s) := by
  unfold waitPhase
  split
  · exact endsOk_next h
  · split
    · exact passPhase_endsOk h _ _
    · split
      · split
        · exact endsOk_next (postWait_memoryOk h _ _ _)
        · exact endsOk_next (State.memoryOk_setMe h _)
      · exact endsOk_next (State.memoryOk_setMe h _)

theorem arrive_memoryOk {s : State} (h : s.memoryOk = true) (slot : Fin 4) :
    (arrive slot s).memoryOk = true := by
  unfold arrive
  split
  · exact h
  · extract_lets r g'
    exact State.memoryOk_setLaunch h _

theorem barrier_endsOk {s : State} (h : s.memoryOk = true) (i : Instr) (slot : Fin 4) {k : Nat → State → Out}
    (hk : ∀ a s, s.memoryOk = true → EndsOk (k a s)) : EndsOk (barrier i slot k s) := by
  unfold barrier
  split
  · exact endsOk_next (postFault_memoryOk h _ _)
  · split
    · exact endsOk_next (postFault_memoryOk h _ _)
    · extract_lets a s1
      have h1 : s1.memoryOk = true := placeFolds_memoryOk h _ _
      split
      · split
        · exact endsOk_next h1
        · exact hk _ _ (arrive_memoryOk h1 _)
      · split
        · split
          · exact endsOk_next (postFault_memoryOk h _ _)
          · exact endsOk_next (State.memoryOk_setMe h _)
        · exact endsOk_next (State.memoryOk_setMe h _)

theorem execBar_endsOk {s : State} (h : s.memoryOk = true) (slot : Fin 4) : EndsOk (execBar slot s) :=
  barrier_endsOk h _ slot fun a _ hs => waitPhase_endsOk hs slot a

theorem execBarv_endsOk {s : State} (h : s.memoryOk = true) (slot : Fin 4) (d : Reg) :
    EndsOk (execBarv slot d s) :=
  barrier_endsOk h _ slot fun _ _ hs => nextMe_endsOk hs _ _

theorem execBwait_endsOk {s : State} (h : s.memoryOk = true) (slot : Fin 4) (a : Reg) :
    EndsOk (execBwait slot a s) := by
  unfold execBwait
  extract_lets i p
  split
  · exact endsOk_next (postFault_memoryOk h _ _)
  · split
    · exact endsOk_next (postFault_memoryOk h _ _)
    · split
      · exact endsOk_next (postFault_memoryOk h _ _)
      · split
        · exact passPhase_endsOk h _ _
        · split
          · split
            · exact endsOk_next (postFault_memoryOk h _ _)
            · exact endsOk_next (State.memoryOk_setMe h _)
          · exact endsOk_next (State.memoryOk_setMe h _)

theorem ringChecks_keeps (acq : Bool) (addr cur : Word) : Op.Keeps MemOk (ringChecks acq addr cur) := by
  unfold ringChecks
  refine Op.keeps_bind (Op.keeps_ask _) fun s => ?_
  extract_lets bad
  refine Op.keeps_bind (Op.keeps_need _ _) fun x => ?_
  refine Op.keeps_bind (Op.keeps_need _ _) fun x1 => ?_
  refine Op.keeps_bind (Op.keeps_need _ _) fun x2 => ?_
  refine Op.keeps_bind (memRead_keeps _ _ _ _) fun h => ?_
  split
  · exact Op.keeps_fail _
  · exact Op.keeps_bind (Op.keeps_need _ _) fun _ => Op.keeps_pure _

theorem execRacq_endsOk {s : State} (h : s.memoryOk = true) (d a b : Reg) : EndsOk (execRacq d a b s) := by
  unfold execRacq
  refine runOp_endsOk h ?_ _ _
  refine Op.keeps_bind (ringChecks_keeps _ _ _) fun r => Op.keeps_bind (memRead_keeps _ _ _ _) fun w => ?_
  extract_lets st
  cases st with
  | some x => exact Op.keeps_upd fun _ hs => State.memoryOk_setMe hs _
  | none => exact Op.keeps_stop _

theorem execRrel_endsOk {s : State} (h : s.memoryOk = true) (d a b : Reg) : EndsOk (execRrel d a b s) := by
  unfold execRrel
  refine runOp_endsOk h ?_ _ _
  refine Op.keeps_bind (ringChecks_keeps _ _ _) fun r => Op.keeps_bind (checkAccess_keeps _ _ _ _) fun ps =>
    ?_
  refine Op.keeps_bind (needClean_keeps _ _) fun _ =>
    Op.keeps_bind (Op.keeps_upd fun _ hs => placeFolds_memoryOk hs _ _) fun _ => ?_
  refine Op.keeps_bind (Op.keeps_ask _) fun s => ?_
  extract_lets rest
  have hrest : ∀ u, Op.Keeps MemOk (rest u) := by
    intro u
    refine Op.keeps_bind (rmw_keeps _ _ _) fun old => Op.keeps_bind (Op.keeps_need _ _) fun _ => ?_
    exact Op.keeps_upd fun _ hs => State.memoryOk_setMe hs _
  split
  · exact Op.keeps_bind (Op.keeps_stop _) hrest
  · exact hrest ()

theorem execRpeek_endsOk {s : State} (h : s.memoryOk = true) (d a b : Reg) : EndsOk (execRpeek d a b s) := by
  unfold execRpeek
  extract_lets addr cur
  refine runOp_endsOk h ?_ _ _
  refine Op.keeps_bind (ringChecks_keeps _ _ _) fun r => ?_
  refine Op.keeps_bind (memRead_keeps _ _ _ _) fun w => ?_
  extract_lets ready
  exact Op.keeps_upd fun _ hs => State.memoryOk_setMe hs _

/-! ### Wakes -/

theorem evaluate_endsOk {s : State} (h : s.memoryOk = true) (i : Instr) : EndsOk (evaluate i s) := by
  unfold evaluate
  split
  next a => exact execQput_endsOk h a
  next d => exact execQgetQr_endsOk h d
  next d => exact nextMe_endsOk h _ _
  next d => exact execFget_endsOk h d
  next d a b => exact execRacq_endsOk h d a b
  next d a b => exact execCwait_endsOk h d a b
  next g => exact execBar_endsOk h g
  next g d => exact execBarv_endsOk h g d
  next g a => exact execBwait_endsOk h g a
  · exact endsOk_next h

theorem execQueueBlockRelease_endsOk {s : State} (h : s.memoryOk = true) (t : Nat) :
    EndsOk (execQueueBlockRelease t s) := by
  unfold execQueueBlockRelease
  split
  next i _ =>
    split
    · exact asTs_endsOk h (fun _ hs => evaluate_endsOk hs i) t
    · exact endsOk_next h
  · exact endsOk_next h

theorem execWake_endsOk {s : State} (h : s.memoryOk = true) (t : Nat) : EndsOk (execWake t s) := by
  unfold execWake
  split
  next i _ =>
    split
    · exact asTs_endsOk h (fun _ hs => evaluate_endsOk hs i) t
    · exact endsOk_next h
  · split
    · exact asTs_endsOk h (fun _ hs => waitPhase_endsOk hs _ _) t
    · exact endsOk_next h
  · exact endsOk_next h

/-! ### Accesses that waited for a peer -/

theorem performAccess_endsOk {s : State} (h : s.memoryOk = true) (i : Instr) :
    EndsOk (performAccess i s) := by
  unfold performAccess
  split
  · exact execLd_endsOk h _ _ _ _ _
  · exact execSt_endsOk h _ _ _ _ _
  · exact execVld_endsOk h _ _ _ _ _
  · exact execVst_endsOk h _ _ _ _ _
  · exact execVlds_endsOk h _ _ _ _ _ _ _ _
  · exact execVldx_endsOk h _ _ _ _ _ _ _ _ _
  · exact execVstx_endsOk h _ _ _ _ _ _ _ _ _
  · exact execVldb_endsOk h _ _ _ _ _ _ _
  · exact execAmo_endsOk h _ _ _ _ _ _ _
  · exact execAmof_endsOk h _ _ _ _ _ _
  · exact execCas_endsOk h _ _ _ _ _ _ _
  · exact execCas2_endsOk h _ _ _ _ _ _
  · exact endsOk_next h

theorem markLate_memoryOk {s : State} (h : s.memoryOk = true) (w : Writeback) (a : Nat) :
    (markLate s w a).memoryOk = true := by
  unfold markLate
  extract_lets mark _ s1 x block _
  have hblock : ∀ u, u.memoryOk = true → (block u).memoryOk = true := by
    intro u hu
    unfold block
    exact State.memoryOk_setTs hu _ _
  split
  · exact h
  · exact h
  · split
    · exact hblock _ h
    · exact h
  · exact hblock _ h

theorem parkAgain_memoryOk {s : State} (h : s.memoryOk = true) (w : Writeback) (n : Nat) :
    (parkAgain s w n).memoryOk = true :=
  h

theorem performParked_memoryOk {s : State} (h : s.memoryOk = true) (w : Writeback) :
    (performParked s w).memoryOk = true := by
  unfold performParked
  extract_lets t x known n disp s0 snap s1 undo
  have h0 : s0.memoryOk = true := by
    unfold s0
    split
    · exact h
    · exact State.memoryOk_setDisp h _
  have h1 : s1.memoryOk = true := State.memoryOk_congr h0 rfl rfl rfl rfl rfl
  have hundo : ∀ y, y.memoryOk = true → (undo y).memoryOk = true := by
    intro y hy
    unfold undo
    split
    · exact hy
    · exact State.memoryOk_setDisp (s := { y with split := s.split }) hy _
  clear_value s1 undo
  split
  next u e =>
    extract_lets y u1 u2
    have hu : u.memoryOk = true := asTs_endsOk h1 (fun _ hs => performAccess_endsOk hs w.instr) t u e
    have h2 : u2.memoryOk = true := State.memoryOk_setTs (hundo u hu) _ _
    clear_value u2
    split
    · split
      · exact h2
      · exact markLate_memoryOk h2 _ _
    · split
      · exact parkAgain_memoryOk h2 _ _
      · split
        · exact h2
        · exact h2
  · exact h

theorem dropWriteback_memoryOk {s : State} (h : s.memoryOk = true) (i : Nat) :
    (dropWriteback s i).memoryOk = true :=
  h

theorem storeArrives_memoryOk {s : State} (h : s.memoryOk = true) (w : Writeback) :
    (storeArrives s w).memoryOk = true :=
  h

theorem performWaiting_memoryOk {s : State} (h : s.memoryOk = true) (w : Writeback) :
    (performWaiting s w).memoryOk = true := by
  unfold performWaiting
  split
  · exact storeArrives_memoryOk h _
  · exact performParked_memoryOk h _

theorem execResultWriteback_endsOk {s : State} (h : s.memoryOk = true) (i : Nat) :
    EndsOk (execResultWriteback i s) := by
  unfold execResultWriteback
  split
  · exact endsOk_next h
  · split
    · extract_lets s1
      refine endsOk_next ?_
      split
      · exact dropWriteback_memoryOk h _
      · exact State.memoryOk_setTs (dropWriteback_memoryOk h _) _ _
    · split
      · exact endsOk_next (performWaiting_memoryOk (dropWriteback_memoryOk h _) _)
      · exact endsOk_next h

theorem resumeWaits_memoryOk {s : State} (h : s.memoryOk = true) (p : Nat) :
    (resumeWaits s p).memoryOk = true :=
  h

theorem performAll_memoryOk {s : State} (h : s.memoryOk = true) (p : Nat) :
    (performAll s p).memoryOk = true := by
  unfold performAll
  extract_lets ws fs faults fab s1
  have h1 : s1.memoryOk = true := h
  clear_value s1
  have hf : (fs.foldl placeFold s1).memoryOk = true :=
    foldl_memoryOk (fun _ f hs => placeFold_memoryOk hs f) _ h1
  exact resumeWaits_memoryOk (foldl_memoryOk (fun _ w hs => performWaiting_memoryOk hs w) _ hf) p

theorem discardFold_memoryOk {s : State} (h : s.memoryOk = true) (w : Writeback) (p : Nat) :
    (discardFold s w p).memoryOk = true := by
  unfold discardFold
  exact errorLog_memoryOk h _ _ _ _ _

theorem loseBytes_memoryOk {s : State} (h : s.memoryOk = true) (l : Loc) (n : Nat) :
    (loseBytes l n s).memoryOk = true := by
  induction n generalizing l s with
  | zero => exact h
  | succ n ih =>
    have hp : s.pick.2.memoryOk = true := State.memoryOk_pick h
    exact ih (setMem_memoryOk hp _ (Memory.put_wf (memOf_wf hp _) _ _)) _

theorem loseStore_memoryOk {s : State} (h : s.memoryOk = true) (w : Writeback) (p : Nat) :
    (loseStore s w p).memoryOk = true := by
  unfold loseStore
  split
  · exact foldl_memoryOk (fun _ _ hs => loseBytes_memoryOk hs _ _) _ h
  · extract_lets c s1
    split
    · split
      · exact State.memoryOk_pick h
      · have h1 : s1.memoryOk = true :=
          performParked_memoryOk (setLink_memoryOk (State.memoryOk_pick h) _ _) _
        exact setLink_memoryOk h1 _ _
    · exact State.memoryOk_pick h

theorem failParked_memoryOk {s : State} (h : s.memoryOk = true) (p : Nat) (w : Writeback) :
    (failParked p s w).memoryOk = true := by
  unfold failParked
  split
  · exact discardFold_memoryOk h _ _
  · split
    · exact loseStore_memoryOk h _ _
    · split
      · exact h
      · extract_lets f s1 r
        split
        · exact haltService_memoryOk h _
        · have hr : r.1.memoryOk = true := addFault_memoryOk (placeFolds_memoryOk h _ _) _ _ _ _ _ _ _
          exact markLate_memoryOk hr _ _

theorem failWaits_memoryOk {s : State} (h : s.memoryOk = true) (p : Nat) (e : Nat × ThreadSet) :
    (failWaits p s e).memoryOk = true := by
  unfold failWaits
  split
  next i q va write _ =>
    split
    · split
      next t ht => exact asTs_endsOk h (fun _ hs => endsOk_next (postFault_memoryOk hs _ _)) _ t ht
      · exact h
    · exact h
  · exact h

theorem failAll_memoryOk {s : State} (h : s.memoryOk = true) (p : Nat) : (failAll s p).memoryOk = true := by
  unfold failAll
  extract_lets ws fs _ _ s1 s2
  have h2 : s2.memoryOk = true :=
    foldl_memoryOk (fun _ _ hs => failParked_memoryOk hs _ _) _
    (foldl_memoryOk (fun _ _ hs => placeFold_memoryOk hs _) _ h)
  exact foldl_memoryOk (fun _ _ hs => failWaits_memoryOk hs _ _) _ h2

end Sys2Proof.Machine

/-! SUPPORT. Every step keeps the canonical form of every memory (O7): the fabric port, links, the failure of
a peer, importers. -/

namespace Sys2Proof.Machine
open Sys2Proof

/-! ### Peers' memories -/

theorem peers_mem_wf {s : State} (h : s.memoryOk = true) {p : Peer} (hp : p ∈ s.fab.peers) :
    p.mem.wf = true :=
  ((State.memoryOk_iff s).1 h).2.2.2.2 p hp

/-- Every peer of a list keeps its memory's form, and the rest of the state stays. -/
theorem memory_form_of_peers {s : State} (h : s.memoryOk = true) {fab : Fab}
    (hf : ∀ p ∈ fab.peers, p.mem.wf = true) : State.memoryOk { s with fab := fab } = true := by
  obtain ⟨hdev, halt, hhost, hcores, -⟩ := (State.memoryOk_iff s).1 h
  exact (State.memoryOk_iff _).2 ⟨hdev, halt, hhost, hcores, hf⟩

/-! ### Channels and fences -/

theorem setChan_memoryOk {s : State} (h : s.memoryOk = true) (ch : Nat) (c : Chan) :
    (setChan s ch c).memoryOk = true :=
  h

theorem execFlitReceive_endsOk {s : State} (h : s.memoryOk = true) (ch : Fin 144) (seq : BitVec 32)
    (crcOk : Bool) : EndsOk (execFlitReceive ch seq crcOk s) := by
  unfold execFlitReceive
  extract_lets c s1
  split
  · exact endsOk_next h
  · split
    · have h1 : s1.memoryOk = true := setChan_memoryOk h _ _
      exact endsOk_next h1
    · exact endsOk_next h

theorem flitSent_memoryOk {s : State} (h : s.memoryOk = true) (ch : Nat) (c : Chan) :
    (flitSent s ch c).memoryOk = true := by
  unfold flitSent
  split
  · exact h
  · extract_lets s1
    have h1 : s1.memoryOk = true := setChan_memoryOk h _ _
    exact h1

theorem reviewRel_memoryOk {s : State} (h : s.memoryOk = true) (r : Release) :
    (reviewRel s r).memoryOk = true := by
  unfold reviewRel
  extract_lets left
  split
  · exact State.memoryOk_setTs h _ _
  · exact h

theorem reviewRels_memoryOk {s : State} (h : s.memoryOk = true) : (reviewRels s).memoryOk = true := by
  unfold reviewRels
  exact foldl_memoryOk (fun _ _ hs => reviewRel_memoryOk hs _) _ h

theorem moveFlits_memoryOk {s : State} (h : s.memoryOk = true) (chans : List Nat) (n : Nat) :
    (moveFlits chans n s).memoryOk = true := by
  induction n generalizing s with
  | zero => exact h
  | succ n ih => exact ih (setChan_memoryOk (State.memoryOk_pick h) _ _)

theorem dropChannel_memoryOk {s : State} (h : s.memoryOk = true) (ch : Nat) :
    (dropChannel s ch).memoryOk = true := by
  unfold dropChannel
  extract_lets c s1
  split
  · exact reviewRels_memoryOk (moveFlits_memoryOk (setChan_memoryOk (setChan_memoryOk h _ _) _ _) _ _)
  · exact setChan_memoryOk h _ _

theorem channelAct_memoryOk {s : State} (h : s.memoryOk = true) (ch : Nat) (a : ChanAct) :
    (channelAct ch a s).memoryOk = true := by
  unfold channelAct
  extract_lets c
  split
  · exact flitSent_memoryOk h _ _
  · split
    · exact flitSent_memoryOk h _ _
    · exact h
  · split
    · exact reviewRels_memoryOk (setChan_memoryOk h _ _)
    · exact h

theorem reviewFence_memoryOk {s : State} (h : s.memoryOk = true) (t : Nat) (late : Bool) :
    (reviewFence t late s).memoryOk = true := by
  unfold reviewFence
  split
  · exact h
  · split
    · extract_lets s1
      split
      · exact endFence_memoryOk (placeFolds_memoryOk h _ _) _ _ _ _
      · exact placeFolds_memoryOk h _ _
    · extract_lets s1
      split
      · exact placeFolds_memoryOk h _ _
      · exact State.memoryOk_setTs (placeFolds_memoryOk h _ _) _ _
    · exact h

theorem reviewFences_memoryOk {s : State} (h : s.memoryOk = true) : (reviewFences s).memoryOk = true := by
  unfold reviewFences
  exact foldl_memoryOk (fun _ _ hs => reviewFence_memoryOk hs _ _) _ h

theorem execFenceTimeout_endsOk {s : State} (h : s.memoryOk = true) (t : Nat) :
    EndsOk (execFenceTimeout t s) := by
  unfold execFenceTimeout
  split
  · refine endsOk_next ?_
    split
    · exact reviewFence_memoryOk h _ _
    · exact h
  · exact endsOk_next h

theorem hostBack_memoryOk {s : State} (h : s.memoryOk = true) : (hostBack s).memoryOk = true := by
  unfold hostBack
  extract_lets s1 toHost fs _ s2 s3
  have h3 : s3.memoryOk = true := by
    unfold s3
    have h2 : s2.memoryOk = true := by
      unfold s2
      have h1 : s1.memoryOk = true := settle_memoryOk h _
      exact foldl_memoryOk (fun _ _ hs => performFold_memoryOk hs _) _ h1
    exact performAll_memoryOk h2 _
  exact finishEnds_memoryOk (reviewFences_memoryOk h3)

theorem execHostLinkChange_endsOk {s : State} (h : s.memoryOk = true) : EndsOk (execHostLinkChange s) := by
  unfold execHostLinkChange
  extract_lets up _ s1
  refine endsOk_next ?_
  split
  · exact hostBack_memoryOk h
  · exact h

/-! ### Links -/

theorem execPeerRetraining_endsOk {s : State} (h : s.memoryOk = true) (peer : BitVec 8) :
    EndsOk (execPeerRetraining peer s) := by
  unfold execPeerRetraining
  split
  next p e =>
    have hp : p.mem.wf = true := peer?_mem_wf h e
    refine endsOk_next ?_
    split
    · exact setPeer_memoryOk (p := { p with relocks := true, link := .retraining s.clk }) h hp
    · exact setPeer_memoryOk (p := { p with relocks := true }) h hp
    · exact h
  · exact endsOk_next h

theorem linkBack_memoryOk {s : State} (h : s.memoryOk = true) {p : Peer} (hp : p.mem.wf = true) :
    (linkBack s p).memoryOk = true := by
  have hback : (setPeer s { p with relocks := false, link := .up }).memoryOk = true := setPeer_memoryOk h hp
  exact finishEnds_memoryOk (reviewFences_memoryOk (performAll_memoryOk hback p.id))

theorem pathTo_memoryOk {s : State} (h : s.memoryOk = true) (p : Nat) : (pathTo s p).2.memoryOk = true := by
  unfold pathTo
  split
  · exact h
  · split
    · exact h
    · extract_lets c
      exact State.memoryOk_pick h

theorem checkPath_memoryOk {s : State} (h : s.memoryOk = true) {p : Peer} (hp : p.mem.wf = true) :
    (checkPath s p).memoryOk = true := by
  unfold checkPath
  extract_lets r
  have hr : r.2.memoryOk = true := pathTo_memoryOk h p.id
  split
  · exact h
  · split
    · exact hr
    · exact setPeer_memoryOk (p := { p with link := .retraining s.clk }) hr hp

theorem checkPaths_memoryOk {s : State} (h : s.memoryOk = true) : (checkPaths s).memoryOk = true :=
  List.foldlRecOn (motive := fun t => t.memoryOk = true) s.fab.peers checkPath h fun _ hs _ hp =>
    checkPath_memoryOk hs (peers_mem_wf h hp)

theorem losePaths_memoryOk {s : State} (h : s.memoryOk = true) : (losePaths s).memoryOk = true := by
  refine memory_form_of_peers h fun q hq => ?_
  obtain ⟨p, hp, rfl⟩ := List.mem_map.1 hq
  have hwf : p.mem.wf = true := peers_mem_wf h hp
  split <;> exact hwf

theorem reviewLink_memoryOk {s : State} (h : s.memoryOk = true) {p : Peer} (hp : p.mem.wf = true) :
    (reviewLink s p).memoryOk = true := by
  unfold reviewLink
  split
  · extract_lets r
    have hr : r.2.memoryOk = true := pathTo_memoryOk h p.id
    split
    · exact h
    · split
      · exact linkBack_memoryOk hr hp
      · exact hr
  · exact h

theorem reviewLinks_memoryOk {s : State} (h : s.memoryOk = true) : (reviewLinks s).memoryOk = true := by
  refine foldl_memoryOk (fun t q ht => ?_) _ h
  split
  next p e => exact reviewLink_memoryOk ht (peer?_mem_wf ht e)
  · exact ht

theorem execLinkReturn_endsOk {s : State} (h : s.memoryOk = true) (peer : BitVec 8) :
    EndsOk (execLinkReturn peer s) := by
  unfold execLinkReturn
  split
  next p e =>
    have hp : p.mem.wf = true := peer?_mem_wf h e
    exact endsOk_next (reviewLink_memoryOk (p := { p with relocks := false }) (setPeer_memoryOk (p :=
      { p with relocks := false }) h hp) hp)
  · exact endsOk_next h

theorem execChannelRetrain_endsOk {s : State} (h : s.memoryOk = true) (ch : Fin 144) :
    EndsOk (execChannelRetrain ch s) := by
  unfold execChannelRetrain
  exact endsOk_next (checkPaths_memoryOk (dropChannel_memoryOk h _))

theorem execChannelRetrainComplete_endsOk {s : State} (h : s.memoryOk = true) (ch : Fin 144) :
    EndsOk (execChannelRetrainComplete ch s) := by
  unfold execChannelRetrainComplete
  exact endsOk_next (reviewLinks_memoryOk (setChan_memoryOk h _ _))

theorem execRetuneComplete_endsOk {s : State} (h : s.memoryOk = true) (ch : Fin 24) :
    EndsOk (execRetuneComplete ch s) := by
  unfold execRetuneComplete
  extract_lets c s1
  split
  · split
    · exact endsOk_next h
    · refine endsOk_next ?_
      refine reviewLinks_memoryOk ?_
      split
      · exact ownRx_memoryOk (setPoolChan_memoryOk h _ _) _ _
      · exact setPoolChan_memoryOk h _ _
  · exact endsOk_next h

/-! ### The failure of a peer -/

theorem failPacket_memoryOk {s : State} (h : s.memoryOk = true) (old : State) (peer : Nat) (p : Packet) :
    (failPacket old peer s p).memoryOk = true := by
  unfold failPacket
  extract_lets put fail
  have hput : ∀ u x2, u.memoryOk = true → (put u x2).memoryOk = true := by
    intro u x2 hu
    unfold put
    exact hu
  have hfail : ∀ u x2, u.memoryOk = true → (fail u x2).memoryOk = true := by
    intro u x2 hu
    unfold fail
    extract_lets s1 pts
    have h1 : s1.memoryOk = true := by
      unfold s1
      split
      · exact settleChunks_memoryOk hu _ _
      · exact hu
    exact hput _ _ (releaseWindow_memoryOk h1 _)
  split
  · exact h
  · split
    · exact hfail _ _ h
    · split
      · exact hfail _ _ h
      · exact h

theorem failCommand_memoryOk {s : State} (h : s.memoryOk = true) (old : State) (c p : Nat) (m : TCmd) :
    (failCommand old c p s m).memoryOk = true := by
  unfold failCommand
  extract_lets red pause running
  have hpause : ∀ x1 x2 x3, (pause x1 x2 x3).memoryOk = true := by
    intro x1 x2 x3
    unfold pause
    refine pauseTile_memoryOk ?_ _ _ _
    split
    · exact settleChunks_memoryOk h _ _
    · exact h
  have hrunning : running.memoryOk = true := by
    unfold running
    split
    next x2 _ _ =>
      exact hpause _ _ _
    · exact h
  split
  · exact h
  · split
    · split
      next x1 _ _ =>
        extract_lets n
        exact hpause _ _ _
      next x1 _ =>
        exact hrunning
    · exact hrunning

theorem failInstance_memoryOk {s : State} (h : s.memoryOk = true) (old : State) (p : Nat) (x : Instance) :
    (failInstance old p s x).memoryOk = true := by
  unfold failInstance
  extract_lets y far pause lost undone
  split
  · extract_lets es
    have hpause : ∀ (t : State) z a write, t.memoryOk = true → (pause t z a write).memoryOk = true :=
      fun _ z _ _ ht => pauseInstance_memoryOk ht z _
    have hsettle : ∀ copy n, (settleChunks s copy n).memoryOk = true :=
      fun copy n => settleChunks_memoryOk h copy n
    clear_value pause lost
    split
    · exact h
    · split
      · cases lost with
        | some k => exact setInstance_memoryOk (hsettle _ _) _
        | none => exact h
      · cases lost with
        | some k => exact hpause _ _ _ _ (hsettle _ _)
        | none =>
          dsimp only
          split
          · exact hpause _ _ _ _ (hsettle _ _)
          · exact hpause _ _ _ _ (hsettle _ _)
          · exact h
  · exact h

theorem loseFlits_memoryOk {s : State} (h : s.memoryOk = true) (p : Nat) :
    (loseFlits s p).memoryOk = true := by
  unfold loseFlits
  extract_lets s1 rels
  have h1 : s1.memoryOk = true := by
    unfold s1
    refine foldl_memoryOk (fun s2 ch hs => ?_) _ h
    split
    · split
      · exact setChan_memoryOk hs _ _
      · exact hs
    · exact hs
  clear_value s1
  exact reviewRels_memoryOk h1

theorem endPeerRx_memoryOk {s : State} (h : s.memoryOk = true) (p : Nat) : (endPeerRx s p).memoryOk = true :=
  h

theorem survivors_memoryOk {s : State} (h : s.memoryOk = true) (m : Memory) :
    (survivors m s).2.memoryOk = true := by
  induction m generalizing s with
  | nil => exact h
  | cons c r ih => exact ih (State.memoryOk_pick h)

theorem survivors_wf (m : Memory) (s : State) : (survivors m s).1.wf = true := by
  induction m generalizing s with
  | nil => rfl
  | cons c r ih => exact Memory.put_wf (ih _) _ _

theorem declareFailed_memoryOk {s : State} (h : s.memoryOk = true) (p : Peer) :
    (declareFailed s p).memoryOk = true := by
  unfold declareFailed
  extract_lets old space m s1 lose msys faults s2 s3 s4 s5 s6 coll s7 s8 s9 s10 lost msys2 s11
  have h1 : s1.memoryOk = true := setPeer_memoryOk (survivors_memoryOk h _) (survivors_wf _ _)
  have h2 : s2.memoryOk = true := State.memoryOk_congr h1 rfl rfl rfl rfl rfl
  have h3 : s3.memoryOk = true := foldl_memoryOk (fun _ _ hs => dropStash_memoryOk hs _ _) _ h2
  have h4 : s4.memoryOk = true := endPeerRx_memoryOk (endPeerLeases_memoryOk (loseFlits_memoryOk h3 _) _) _
  have h5 : s5.memoryOk = true := foldl_memoryOk (fun _ _ hs => placeCore_memoryOk hs _ _) _ h4
  have h6 : s6.memoryOk = true := failAll_memoryOk h5 _
  have h7 : s7.memoryOk = true := loseMembers_memoryOk (s := { s6 with coll := coll }) h6 p.id
  have h8 : s8.memoryOk = true :=
    foldl_memoryOk (fun _ e hs => foldl_memoryOk (fun _ m hs => failCommand_memoryOk hs _ _ _ m) _ hs) _ h7
  have h9 : s9.memoryOk = true := foldl_memoryOk (fun _ x hs => failInstance_memoryOk hs _ _ x) _ h8
  have h10 : s10.memoryOk = true := foldl_memoryOk (fun _ x hs => failPacket_memoryOk hs _ _ x) _ h9
  have h11 : s11.memoryOk = true := by
    obtain ⟨hdev, halt, hhost, hcores, hpeers⟩ := (State.memoryOk_iff s10).1 h10
    refine (State.memoryOk_iff _).2 ⟨hdev, halt, hhost, fun e he => ?_, hpeers⟩
    obtain ⟨x, hx, rfl⟩ := List.mem_map.1 he
    exact hcores x hx
  exact finishEnds_memoryOk (reviewFences_memoryOk h11)

theorem execPeerFailed_endsOk {s : State} (h : s.memoryOk = true) (peer : BitVec 8) :
    EndsOk (execPeerFailed peer s) := by
  unfold execPeerFailed
  split
  · split
    · refine endsOk_next ?_
      split
      · exact declareFailed_memoryOk h _
      · exact h
    · exact endsOk_next h
  · exact endsOk_next h

/-! ### A peer joins -/

theorem draws_memoryOk {s : State} (h : s.memoryOk = true) (n : Nat) : (draws s n).2.memoryOk = true := by
  induction n generalizing s with
  | zero => exact h
  | succ n ih => exact ih (State.memoryOk_pick h)

theorem drawExport_memoryOk {s : State} (h : s.memoryOk = true) : (drawExport s).2.memoryOk = true :=
  draws_memoryOk (draws_memoryOk h 9) _

theorem drawExports_memoryOk {s : State} (h : s.memoryOk = true) (n : Nat) :
    (drawExports s n).2.memoryOk = true := by
  induction n generalizing s with
  | zero => exact h
  | succ n ih => exact ih (drawExport_memoryOk h)

theorem joinedPeer_memoryOk {s : State} (h : s.memoryOk = true) (id : Nat) (inc : BitVec 16)
    (dead : List (BitVec 16)) : (joinedPeer s id inc dead).2.memoryOk = true :=
  drawExports_memoryOk (State.memoryOk_pick h) _

theorem joinedPeer_mem_wf (s : State) (id : Nat) (inc : BitVec 16) (dead : List (BitVec 16)) :
    (joinedPeer s id inc dead).1.mem.wf = true :=
  rfl

theorem execPeerJoin_endsOk {s : State} (h : s.memoryOk = true) (peer : BitVec 8) (inc : BitVec 16) :
    EndsOk (execPeerJoin peer inc s) := by
  unfold execPeerJoin
  split
  next p e =>
    have hp : p.mem.wf = true := peer?_mem_wf h e
    split
    · split
      · exact endsOk_next (setPeer_memoryOk (p := { p with relocks := false, link := .up }) h hp)
      · exact endsOk_next (reviewLink_memoryOk (p := { p with relocks := false }) (setPeer_memoryOk (p :=
          { p with relocks := false }) h hp) hp)
    · extract_lets s1 j
      have h1 : s1.memoryOk = true := by
        unfold s1
        split
        · exact h
        · exact declareFailed_memoryOk h p
      exact endsOk_next (setPeer_memoryOk (joinedPeer_memoryOk h1 _ _ _) (joinedPeer_mem_wf _ _ _ _))
  · extract_lets there j
    have hj : j.2.memoryOk = true := joinedPeer_memoryOk h _ _ _
    split
    · refine endsOk_next (memory_form_of_peers hj fun q hq => ?_)
      obtain hq | hq := List.mem_append.1 hq
      · exact peers_mem_wf hj hq
      · rw [List.mem_singleton.1 hq]
        exact joinedPeer_mem_wf _ _ _ _
    · exact endsOk_next h

/-! ### Requests of importers -/

theorem performImport_keeps (peer asid root addr size : Nat) (op : ImportOp) :
    Op.Keeps MemOk (performImport peer asid root addr size op) := by
  unfold performImport
  extract_lets w
  refine Op.keeps_bind (checkAccess_keeps _ _ _ _) fun ps => ?_
  refine Op.keeps_bind (Op.keeps_need _ _) fun x => ?_
  split
  · exact readAll_keeps _ _ _
  · exact Op.keeps_bind (writeAll_keeps _ _ _ _) fun _ => Op.keeps_pure _
  · refine Op.keeps_bind (Op.keeps_ask _) fun s => ?_
    split
    · exact Op.keeps_bind (Op.keeps_upd fun _ hs => errorLog_memoryOk hs _ _ _ _ _) fun _ => Op.keeps_pure _
    · exact rmw_keeps _ _ _
  · exact Op.keeps_bind (needClean_keeps _ _) fun _ => rmw_keeps _ _ _

theorem importReply_memoryOk {s : State} (h : s.memoryOk = true) (cls value : Nat) :
    (importReply s cls value).memoryOk = true :=
  h

theorem execImportRequest_endsOk {s : State} (h : s.memoryOk = true) (peer : BitVec 8) (inc : BitVec 16)
    (handle : Nat) (key : BitVec 32) (offset size : Nat) (op : ImportOp) :
    EndsOk (execImportRequest peer inc handle key offset size op s) := by
  unfold execImportRequest
  split
  · exact endsOk_next h
  · split
    · exact endsOk_next h
    · split
      · exact endsOk_next (importReply_memoryOk h _ _)
      · split
        · exact endsOk_next (importReply_memoryOk h _ _)
        · split
          · exact endsOk_next (importReply_memoryOk h _ _)
          · extract_lets asid
            split
            · exact endsOk_next (importReply_memoryOk h _ _)
            · split
              next e6 =>
                exact endsOk_next (importReply_memoryOk ((performImport_keeps _ _ _ _ _ _).ok h e6) _ _)
              · exact endsOk_next (importReply_memoryOk h _ _)
              · exact endsOk_next (importReply_memoryOk h _ _)
              · exact endsOk_next h

end Sys2Proof.Machine

/-! SUPPORT. Every step keeps the canonical form of every memory (O7): pre-emption and resumption, debugging,
the homes. -/

namespace Sys2Proof.Machine
open Sys2Proof

/-! ### Moving a core -/

@[simp] theorem moveCore_mem (c d : Nat) (k : Core) : (moveCore c d k).mem = k.mem := rfl

theorem moveRefs_memoryOk {s : State} (h : s.memoryOk = true) (c d : Nat) :
    (moveRefs c d s).memoryOk = true :=
  h

theorem moveSlot_memoryOk {s : State} (h : s.memoryOk = true) (c d i : Nat) :
    (moveSlot c d s i).memoryOk = true := by
  unfold moveSlot
  extract_lets x y
  exact State.memoryOk_setTs (State.memoryOk_setTs h _ _) _ _

/-- The core that is left has an empty memory, and the other one takes what it held. -/
theorem moveAll_memoryOk {s : State} (h : s.memoryOk = true) (c d : Nat) :
    (moveAll s c d).memoryOk = true := by
  unfold moveAll
  extract_lets k k1 s1 s2
  have h1 : s1.memoryOk = true := State.memoryOk_setCore h d (State.core_mem_wf h c)
  have h2 : s2.memoryOk = true := State.memoryOk_setCore h1 c rfl
  exact moveRefs_memoryOk (foldl_memoryOk (fun _ i hs => moveSlot_memoryOk hs c d i) _ h2) c d

/-! ### Pre-emption and resumption -/

theorem clearDirty_memoryOk {s : State} (h : s.memoryOk = true) (c : Nat) :
    (clearDirty s c).memoryOk = true := by
  unfold clearDirty
  extract_lets _ s1
  exact foldl_memoryOk (fun _ _ hs => State.memoryOk_setTs hs _ _) _ (State.memoryOk_setCore_mem h _ rfl)

theorem preemptCore_memoryOk {s : State} (h : s.memoryOk = true) (c : Nat) :
    (preemptCore s c).memoryOk = true := by
  unfold preemptCore
  extract_lets s1 k s2 old v x same s3
  have h3 : s3.memoryOk = true := by
    unfold s3
    have h2 : s2.memoryOk = true := State.memoryOk_setCore_mem (cleanStash_memoryOk h _ _) _ rfl
    exact moveAll_memoryOk (clearDirty_memoryOk h2 _) _ _
  exact State.memoryOk_setDisp h3 _

theorem preemptCores_memoryOk {s : State} (h : s.memoryOk = true) (cs : List Nat) :
    (preemptCores s cs).memoryOk = true := by
  unfold preemptCores
  split
  · exact h
  · extract_lets s1
    have h1 : s1.memoryOk = true := foldl_memoryOk (fun _ _ hs => placeCore_memoryOk hs _ _) _ h
    split
    · exact h1
    · exact foldl_memoryOk (fun _ _ hs => preemptCore_memoryOk hs _) _ h1

theorem execPreempt_endsOk {s : State} (h : s.memoryOk = true) (c : Nat) : EndsOk (execPreempt c s) := by
  unfold execPreempt
  split
  · exact endsOk_fault _
  · split
    · exact endsOk_next h
    · split
      · exact endsOk_next h
      · split
        · exact endsOk_next (preemptCores_memoryOk h _)
        · split
          · exact endsOk_next h
          · exact endsOk_next (preemptCores_memoryOk h _)

theorem restartTs_memoryOk {s : State} (h : s.memoryOk = true) (t : Nat) :
    (restartTs s t).memoryOk = true := by
  unfold restartTs
  extract_lets x
  split
  · exact State.memoryOk_setTs h _ _
  · exact State.memoryOk_setTs h _ _
  · exact State.memoryOk_setTs h _ _
  · exact State.memoryOk_setTs h _ _
  · exact h

theorem applyHeld_memoryOk {s : State} (h : s.memoryOk = true) (c : Nat) :
    (applyHeld s c).memoryOk = true := by
  unfold applyHeld
  refine foldl_memoryOk (fun s1 h1 hs => ?_) _ h
  split
  · split
    · exact applyReply_memoryOk hs _ _ _ _
    · exact hs
  · exact hs

theorem resumeCore_memoryOk {s : State} (h : s.memoryOk = true) (v c : Nat) :
    (resumeCore s v c).memoryOk = true := by
  unfold resumeCore
  extract_lets s1 s2 k s3 disp s4
  have h1 : s1.memoryOk = true := dropImages_memoryOk (dropStash_memoryOk h c _) _
  have h2 : s2.memoryOk = true := moveAll_memoryOk h1 v c
  have h3 : s3.memoryOk = true := State.memoryOk_setCore_mem h2 c rfl
  clear_value s3
  have h4 : s4.memoryOk = true := by
    obtain ⟨hdev, halt, hhost, hcores, hpeers⟩ := (State.memoryOk_iff s3).1 h3
    exact (State.memoryOk_iff _).2
      ⟨hdev, halt, hhost, fun e he => hcores e (List.mem_filter.1 he).1, hpeers⟩
  exact applyHeld_memoryOk (foldl_memoryOk (fun _ i hs => restartTs_memoryOk hs _) _ h4) c

theorem resumeRest_memoryOk {s : State} (h : s.memoryOk = true) {l : Launch} {vs : List Nat} {t : State}
    (e : resumeRest l vs s = some t) : t.memoryOk = true := by
  induction vs generalizing s with
  | nil => cases e; exact h
  | cons v r ih =>
    unfold resumeRest at e
    extract_lets cand c at e
    split at e
    · cases e
    · exact ih (resumeCore_memoryOk (State.memoryOk_pick h) _ _) e

theorem execCoreResume_endsOk {s : State} (h : s.memoryOk = true) (i c : Nat) :
    EndsOk (execCoreResume i c s) := by
  unfold execCoreResume
  split
  · exact endsOk_next h
  next x _ =>
    split
    next l _ _ =>
      have hx : (resumeCore s x.num c).memoryOk = true := resumeCore_memoryOk h _ _
      split
      · exact endsOk_next h
      · split
        · exact endsOk_next hx
        · exact endsOk_next (getD_memoryOk h fun t e => resumeRest_memoryOk hx e)
    · exact endsOk_next h

/-! ### The watchdog, debugger halts, translation flushes and the homes -/

theorem execWatchdogExpiry_endsOk {s : State} (h : s.memoryOk = true) (n : Nat) :
    EndsOk (execWatchdogExpiry n s) := by
  unfold execWatchdogExpiry
  split
  · exact endsOk_next h
  · refine endsOk_next ?_
    split
    · exact killLaunch_memoryOk h _ _
    · exact h

theorem haltAll_memoryOk {s : State} (h : s.memoryOk = true) (l : List Nat) (drain : Bool) :
    (haltAll s l drain).memoryOk = true := by
  unfold haltAll
  exact foldl_memoryOk (fun _ _ hs => State.memoryOk_setTs hs _ _) _ h

theorem haltLaunch_memoryOk {s : State} (h : s.memoryOk = true) (on : Bool) (x : HaltTarget) :
    (haltLaunch s on x).memoryOk = true := by
  unfold haltLaunch
  split
  · exact State.updLaunch_memoryOk h _ _
  · exact h

theorem execHaltNow_endsOk {s : State} (h : s.memoryOk = true) (t : HaltTarget) :
    EndsOk (execHaltNow t s) := by
  unfold execHaltNow
  exact endsOk_next (haltLaunch_memoryOk (haltAll_memoryOk h _ _) _ _)

theorem execHaltDrain_endsOk {s : State} (h : s.memoryOk = true) (t : HaltTarget) :
    EndsOk (execHaltDrain t s) := by
  unfold execHaltDrain
  exact endsOk_next (haltLaunch_memoryOk (haltAll_memoryOk h _ _) _ _)

theorem execHaltDrainComplete_endsOk {s : State} (h : s.memoryOk = true) (t : HaltTarget) :
    EndsOk (execHaltDrainComplete t s) := by
  unfold execHaltDrainComplete
  extract_lets l _ s1
  split
  · exact endsOk_next (haltAll_memoryOk (State.memoryOk_setDisp h _) _ _)
  · exact endsOk_next h

theorem execDebugResume_endsOk {s : State} (h : s.memoryOk = true) (t : HaltTarget) :
    EndsOk (execDebugResume t s) := by
  unfold execDebugResume
  extract_lets s1
  have h1 : s1.memoryOk = true :=
    haltLaunch_memoryOk (foldl_memoryOk (fun _ _ hs => State.memoryOk_setTs hs _ _) _ h) _ _
  exact endsOk_next (reviewFences_memoryOk h1)

/-- A slice's line goes, whatever thread sets wait for its write-back. -/
theorem ncDropFor_memoryOk {s : State} (h : s.memoryOk = true) (die : Nat) (l : Loc) (waits : List Nat) :
    (ncDrop s die l waits).memoryOk = true := by
  unfold ncDrop
  extract_lets s1
  split
  · exact h
  · exact ncSend_memoryOk (s := s1) h _ _

theorem dropRange_memoryOk {s : State} (h : s.memoryOk = true) (f : Flush) :
    (dropRange s f).memoryOk = true := by
  unfold dropRange
  extract_lets hit s1 lines s2
  have h1 : s1.memoryOk = true := foldl_memoryOk (fun _ _ hs => placeCore_memoryOk hs _ _) _ h
  have h2 : s2.memoryOk = true := foldl_memoryOk (fun _ _ hs => ncDropFor_memoryOk hs _ _ _) _ h1
  exact State.memoryOk_congr h2 rfl rfl rfl rfl rfl

theorem execTranslationFlush_endsOk {s : State} (h : s.memoryOk = true) (i : Nat) :
    EndsOk (execTranslationFlush i s) := by
  unfold execTranslationFlush
  split
  · exact endsOk_next h
  · split
    · exact endsOk_next h
    · extract_lets s1
      have h1 : s1.memoryOk = true := dropRange_memoryOk h _
      exact endsOk_next h1

theorem execTranslationFlushComplete_endsOk {s : State} (h : s.memoryOk = true) (i : Nat) :
    EndsOk (execTranslationFlushComplete i s) := by
  unfold execTranslationFlushComplete
  split
  · exact endsOk_next h
  · split
    · exact endsOk_next h
    · extract_lets _ s1
      split
      · extract_lets x2
        refine endsOk_next ?_
        split
        · have h1 : s1.memoryOk = true := h
          exact State.memoryOk_setTs h1 _ _
        · exact h
      · exact endsOk_next h

theorem execRegionMerge_endsOk {s : State} (h : s.memoryOk = true) (base : Nat) :
    EndsOk (execRegionMerge base s) := by
  unfold execRegionMerge
  split
  · exact endsOk_next h
  · split
    · exact endsOk_next h
    · split
      · exact endsOk_next h
      · exact endsOk_next (putRegion_memoryOk h _)

theorem execUncorrectableEccError_endsOk {s : State} (h : s.memoryOk = true) (word : EccWord) :
    EndsOk (execUncorrectableEccError word s) := by
  unfold execUncorrectableEccError
  split
  · split
    · exact endsOk_next (poisonRange_memoryOk h _ _ _)
    · exact endsOk_next h
  · split
    · exact endsOk_next (poisonRange_memoryOk h _ _ _)
    · exact endsOk_next h

end Sys2Proof.Machine

/-! SUPPORT. Every step keeps the canonical form of every memory (O7): the board manager. -/

namespace Sys2Proof.Machine
open Sys2Proof

/-! ### Reset and bring-up -/

/-- A reset leaves host memory as it was, and every other memory empty. -/
theorem outside_memoryOk {s : State} (h : s.memoryOk = true) : (outside s).memoryOk = true := by
  obtain ⟨-, -, hhost, -, -⟩ := (State.memoryOk_iff s).1 h
  exact (State.memoryOk_iff _).2 ⟨rfl, rfl, hhost, fun _ he => (List.not_mem_nil he).elim, fun _ hp =>
    (List.not_mem_nil hp).elim⟩

theorem whilePowered_memoryOk {s : State} (h : s.memoryOk = true) {f : State → State}
    (hf : ∀ s, s.memoryOk = true → (f s).memoryOk = true) : (whilePowered s f).memoryOk = true := by
  unfold whilePowered
  split
  · exact hf s h
  · exact h

theorem State.setMgmt_memoryOk {s : State} (h : s.memoryOk = true) (m : Mgmt) :
    (State.setMgmt s m).memoryOk = true :=
  h

theorem interrupt_memoryOk {s : State} (h : s.memoryOk = true) : (interrupt s).memoryOk = true := by
  unfold interrupt
  exact State.setMgmt_memoryOk h _

theorem resetByRequest_memoryOk {s : State} (h : s.memoryOk = true) : (resetByRequest s).memoryOk = true :=
  State.setMgmt_memoryOk (outside_memoryOk h) _

theorem execResetRequest_endsOk {s : State} (h : s.memoryOk = true) : EndsOk (execResetRequest s) :=
  endsOk_next (whilePowered_memoryOk h fun _ => resetByRequest_memoryOk)

theorem execPowerLoss_endsOk {s : State} (h : s.memoryOk = true) : EndsOk (execPowerLoss s) :=
  endsOk_next (State.setMgmt_memoryOk (outside_memoryOk h) _)

theorem execPowerGood_endsOk {s : State} (h : s.memoryOk = true) : EndsOk (execPowerGood s) := by
  unfold execPowerGood
  split
  · exact endsOk_next h
  · exact endsOk_next (outside_memoryOk h)

theorem clearMemory_memoryOk {s : State} (h : s.memoryOk = true) : (clearMemory s).memoryOk = true := by
  obtain ⟨-, -, hhost, hcores, hpeers⟩ := (State.memoryOk_iff s).1 h
  exact (State.memoryOk_iff _).2 ⟨rfl, rfl, hhost, hcores, hpeers⟩

theorem findExtent_memoryOk {s : State} (h : s.memoryOk = true) : (findExtent s).memoryOk = true := by
  unfold findExtent
  extract_lets row col a b
  split
  · exact h
  · exact State.memoryOk_congr (State.memoryOk_pick (State.memoryOk_pick h)) rfl rfl rfl rfl rfl

theorem stageEnd_memoryOk {s : State} (h : s.memoryOk = true) (stage failure : Nat) :
    (stageEnd s stage failure).memoryOk = true := by
  unfold stageEnd
  extract_lets m dark fab cleared msys inc c told s1
  split
  · split
    · exact memory_form_of_peers (State.setMgmt_memoryOk h _) fun _ hp => (List.not_mem_nil hp).elim
    · exact h
  · split
    · exact State.memoryOk_congr (clearMemory_memoryOk h) rfl rfl rfl rfl rfl
    · split
      · have h1 : s1.memoryOk = true :=
          findExtent_memoryOk (State.memoryOk_congr (State.memoryOk_pick h) rfl rfl rfl rfl rfl)
        exact memory_form_of_peers h1 fun _ hp => peers_mem_wf h1 (List.mem_filter.1 hp).1
      · exact h

theorem execBringUpStageDone_endsOk {s : State} (h : s.memoryOk = true) (failure : Fin 6) :
    EndsOk (execBringUpStageDone failure s) := by
  unfold execBringUpStageDone
  extract_lets m f stage s1 s2
  have h1 : s1.memoryOk = true := by
    unfold s1
    split
    · exact h
    · exact State.setMgmt_memoryOk h _
  split
  · exact endsOk_next h
  · split
    · exact endsOk_next h1
    · have h2 : s2.memoryOk = true := stageEnd_memoryOk h1 _ _
      exact endsOk_next (State.setMgmt_memoryOk h2 _)

/-! ### The power alarm, registers and commands of the board manager -/

theorem setAlarm_memoryOk {s : State} (h : s.memoryOk = true) (on : Bool) :
    (setAlarm s on).memoryOk = true := by
  unfold setAlarm
  split
  · exact h
  · exact interrupt_memoryOk (State.setMgmt_memoryOk h _)

theorem reviewPower_memoryOk {s : State} (h : s.memoryOk = true) : (reviewPower s).memoryOk = true := by
  unfold reviewPower
  extract_lets m low s1
  split
  · exact setAlarm_memoryOk (State.setMgmt_memoryOk h _) _
  · exact State.setMgmt_memoryOk h _

theorem readPower_memoryOk {s : State} (h : s.memoryOk = true) (watts : Nat) :
    (readPower s watts).memoryOk = true := by
  unfold readPower
  exact reviewPower_memoryOk (State.setMgmt_memoryOk h _)

theorem execPowerAlarmRaise_endsOk {s : State} (h : s.memoryOk = true) (watts : Nat) :
    EndsOk (execPowerAlarmRaise watts s) :=
  endsOk_next (whilePowered_memoryOk h fun _ hs => readPower_memoryOk hs watts)

theorem execPowerAlarmLower_endsOk {s : State} (h : s.memoryOk = true) (watts : Nat) :
    EndsOk (execPowerAlarmLower watts s) := by
  refine endsOk_next (whilePowered_memoryOk h fun t ht => ?_)
  extract_lets t1
  have h1 : t1.memoryOk = true := readPower_memoryOk ht watts
  split
  · split
    · exact setAlarm_memoryOk h1 _
    · exact h1
  · exact h1

theorem execForcePowerAlarm_endsOk {s : State} (h : s.memoryOk = true) (on : Bool) :
    EndsOk (execForcePowerAlarm on s) :=
  endsOk_next (whilePowered_memoryOk h fun _ hs => reviewPower_memoryOk (State.setMgmt_memoryOk hs _))

theorem execPwrlim_endsOk {s : State} (h : s.memoryOk = true) (v : Word) : EndsOk (execPwrlim v s) :=
  endsOk_next (whilePowered_memoryOk h fun _ hs => reviewPower_memoryOk (State.setMgmt_memoryOk hs _))

theorem execMgmtRegisterWrite_endsOk {s : State} (h : s.memoryOk = true) (offset : Nat) (v : Word) :
    EndsOk (execMgmtRegisterWrite offset v s) :=
  endsOk_next (whilePowered_memoryOk h fun _ hs => State.setMgmt_memoryOk hs _)

theorem startKey_memoryOk {s : State} (h : s.memoryOk = true) (slot : Nat) (clear : Bool) :
    (startKey s slot clear).memoryOk = true := by
  unfold startKey
  split
  · exact h
  · exact State.setMgmt_memoryOk h _

theorem execKeyLoad_endsOk {s : State} (h : s.memoryOk = true) (slot : Fin 1024) :
    EndsOk (execKeyLoad slot s) :=
  endsOk_next (whilePowered_memoryOk h fun _ hs => startKey_memoryOk hs _ _)

theorem execKeyClear_endsOk {s : State} (h : s.memoryOk = true) (slot : Fin 1024) :
    EndsOk (execKeyClear slot s) :=
  endsOk_next (whilePowered_memoryOk h fun _ hs => startKey_memoryOk hs _ _)

theorem execKeyCommandDone_endsOk {s : State} (h : s.memoryOk = true) : EndsOk (execKeyCommandDone s) := by
  unfold execKeyCommandDone
  split
  · exact endsOk_next h
  · extract_lets keys
    exact endsOk_next h

theorem execBiascmd_endsOk {s : State} (h : s.memoryOk = true) (v : Word) : EndsOk (execBiascmd v s) := by
  refine endsOk_next (whilePowered_memoryOk h fun t ht => ?_)
  split
  · exact ht
  · exact State.setMgmt_memoryOk ht _

theorem dropStashes_memoryOk {s : State} (h : s.memoryOk = true) (f : Flush) :
    (dropStashes s f).memoryOk = true := by
  unfold dropStashes
  refine foldl_memoryOk (fun s1 e hs => ?_) _ h
  split
  · exact dropStash_memoryOk hs _ _
  · exact hs

theorem execBiasFlipComplete_endsOk {s : State} (h : s.memoryOk = true) :
    EndsOk (execBiasFlipComplete s) := by
  unfold execBiasFlipComplete
  split
  · exact endsOk_next h
  · extract_lets f s1
    split
    · exact endsOk_next h
    · have h1 : s1.memoryOk = true := dropRange_memoryOk (dropStashes_memoryOk h _) _
      exact endsOk_next (State.setMgmt_memoryOk h1 _)

theorem execEndcmd_endsOk {s : State} (h : s.memoryOk = true) (v : Word) : EndsOk (execEndcmd v s) := by
  unfold execEndcmd
  split
  · exact endsOk_next h
  · extract_lets _ m ns s1
    split
    · exact endsOk_next (State.setMgmt_memoryOk h _)
    · split
      · exact endsOk_next (State.setMgmt_memoryOk h _)
      · exact endsOk_next (foldl_memoryOk (fun _ _ hs => killLaunch_memoryOk hs _ _) _
          (State.setMgmt_memoryOk h _))

theorem execEndCommandComplete_endsOk {s : State} (h : s.memoryOk = true) :
    EndsOk (execEndCommandComplete s) := by
  unfold execEndCommandComplete
  extract_lets m left
  split
  · exact endsOk_next (State.setMgmt_memoryOk h _)
  · exact endsOk_next h

end Sys2Proof.Machine

/-! SUPPORT. Every step keeps the canonical form of every memory (O7): the front end. -/

namespace Sys2Proof.Machine
open Sys2Proof

/-! ### Queues and what the front end has read of them -/

theorem setQueue_memoryOk {s : State} (h : s.memoryOk = true) (q : Nat) (x : Queue) :
    (setQueue s q x).memoryOk = true :=
  h

theorem queueToError_memoryOk {s : State} (h : s.memoryOk = true) (q : Nat) :
    (queueToError s q).memoryOk = true := by
  unfold queueToError
  extract_lets s1 _ s2 _
  have h2 : s2.memoryOk = true := setQueue_memoryOk (hubWrite_memoryOk h _ _ _) _ _
  exact interrupt_memoryOk h2

theorem readOwn8_keeps (x : Queue) (a : Nat) : Pk.Keeps (readOwn8 x a) := by
  unfold readOwn8
  exact Pk.keeps_lift (Op.keeps_bind (checkAccess_keeps _ _ _ _) fun _ => readAll_keeps _ _ _) _

theorem addPacket_memoryOk {s : State} (h : s.memoryOk = true) (p : Packet) :
    (addPacket p s).memoryOk = true :=
  h

theorem validFrom_keeps (x : Queue) (q : Nat) (kept : Option (BitVec 512)) (n i : Nat) :
    Pk.Keeps (validFrom x q kept n i) := by
  induction n generalizing kept i with
  | zero =>
    unfold validFrom
    exact Pk.keeps_pure _
  | succ n ih =>
    unfold validFrom
    extract_lets slot rest
    have hrest : ∀ ws, Pk.Keeps (rest ws) := by
      intro ws
      unfold rest
      split
      · exact Pk.keeps_pure _
      · exact Pk.keeps_bind (ih _ _) fun _ => Pk.keeps_pure _
    split
    · exact Pk.keeps_bind (Pk.keeps_pure _) hrest
    · exact Pk.keeps_bind (Pk.keeps_mapM (fun k => readOwn8_keeps x _) _) hrest

theorem readAhead_memoryOk {s : State} (h : s.memoryOk = true) (q : Nat) :
    (readAhead s q).2.memoryOk = true := by
  unfold readAhead
  extract_lets x c n
  have hc : c.2.memoryOk = true := State.memoryOk_pick h
  split
  next r e =>
    have hread := Pk.keeps_bind (readOwn8_keeps x x.rd) fun i => validFrom_keeps x q x.slot n i
    exact hread.ok (a := r.1) hc e
  · exact hc

theorem queueError_memoryOk {s : State} (h : s.memoryOk = true) (q : Nat) :
    (queueError s q).memoryOk = true := by
  unfold queueError
  extract_lets r
  exact queueToError_memoryOk (foldl_memoryOk (fun _ _ hs => addPacket_memoryOk hs _) _
    (readAhead_memoryOk h _)) _

theorem unmap_memoryOk {s : State} (h : s.memoryOk = true) (q : Nat) : (unmap s q).memoryOk = true := h

theorem syncQueue_memoryOk {s : State} (h : s.memoryOk = true) (q : Nat) :
    (syncQueue s q).memoryOk = true := by
  unfold syncQueue
  split
  · split
    · exact unmap_memoryOk (setQueue_memoryOk h _ _) _
    · exact h
  · split
    · exact h
    · split
      · exact queueError_memoryOk h _
      · split
        · exact queueToError_memoryOk h _
        · exact setQueue_memoryOk h _ _

theorem mapQueue_memoryOk {s : State} (h : s.memoryOk = true) (q : Nat) : (mapQueue s q).memoryOk = true := by
  unfold mapQueue
  split
  · exact h
  · split
    · exact queueError_memoryOk h _
    · split
      · exact queueToError_memoryOk h _
      · extract_lets old s1
        have h1 : s1.memoryOk = true := setQueue_memoryOk h _ _
        exact h1

theorem execQueueActivation_endsOk {s : State} (h : s.memoryOk = true) (q : Nat) :
    EndsOk (execQueueActivation q s) := by
  unfold execQueueActivation
  split
  · exact endsOk_next h
  · extract_lets s1
    refine endsOk_next ?_
    split
    · exact mapQueue_memoryOk (syncQueue_memoryOk h _) _
    · exact syncQueue_memoryOk h _

theorem readHead_keeps (q : Nat) : Pk.Keeps (readHead q) := by
  unfold readHead
  refine Pk.keeps_bind (Pk.keeps_upd fun _ hs => syncQueue_memoryOk hs _) fun x => ?_
  refine Pk.keeps_bind (Pk.keeps_ask _) fun s => ?_
  extract_lets x1
  refine Pk.keeps_bind (Pk.keeps_need _ _) fun x2 => ?_
  refine Pk.keeps_bind (readOwn8_keeps _ _) fun i => ?_
  extract_lets slot
  split
  · exact Pk.keeps_pure _
  · refine Pk.keeps_bind (readOwn8_keeps _ _) fun x3 => ?_
    refine Pk.keeps_bind (readOwn8_keeps _ _) fun h => ?_
    refine Pk.keeps_bind (Pk.keeps_need _ _) fun x4 => ?_
    refine Pk.keeps_bind (Pk.keeps_mapM (fun _ => readOwn8_keeps _ _) _) fun b => ?_
    extract_lets p
    exact Pk.keeps_bind (Pk.keeps_upd fun _ hs => setQueue_memoryOk hs _ _) fun _ => Pk.keeps_pure _

theorem headOf_keeps (q : Nat) (kind : Nat → Bool) : Pk.Keeps (headOf q kind) := by
  unfold headOf
  exact Pk.keeps_bind (readHead_keeps _) fun _ => Pk.keeps_bind (Pk.keeps_need _ _) fun _ => Pk.keeps_pure _

theorem needBounds_keeps (a : Head) (x n code : Nat) : Pk.Keeps (needBounds a x n code) := by
  unfold needBounds
  exact Pk.keeps_need _ _

theorem readField_keeps (a : Head) (x n code : Nat) : Pk.Keeps (readField a x n code) := by
  unfold readField
  exact Pk.keeps_lift (memRead_keeps _ _ _ _) _

theorem waitPart_keeps (a : Head) : Pk.Keeps (waitPart a) := by
  unfold waitPart
  extract_lets wait
  split
  · exact Pk.keeps_bind (readField_keeps _ _ _ _) fun _ => Pk.keeps_bind (Pk.keeps_need _ _) fun _ =>
      Pk.keeps_need _ _
  · exact Pk.keeps_pure _

theorem common_keeps (h : Head) (zeros : Bool) : Pk.Keeps (common h zeros) := by
  unfold common
  extract_lets hd wait rest
  have hrest : ∀ u, Pk.Keeps (rest u) := fun _ => Pk.keeps_need _ _
  refine Pk.keeps_bind (waitPart_keeps h) fun _ => Pk.keeps_bind (Pk.keeps_need _ _) fun _ =>
    Pk.keeps_bind (Pk.keeps_need _ _) fun _ => ?_
  split
  · exact Pk.keeps_bind (Pk.keeps_pure ()) hrest
  · exact Pk.keeps_bind (needBounds_keeps h _ _ _) hrest

theorem writeOwn_keeps (x : Queue) (a n v : Nat) : Pk.Keeps (writeOwn x a n v) := by
  unfold writeOwn
  extract_lets w
  exact Pk.keeps_lift (Op.keeps_bind (checkAccess_keeps _ _ _ _) fun _ =>
    Op.keeps_bind (needClean_keeps _ _) fun _ => Op.keeps_bind (checkAccess_keeps _ _ _ _) fun _ =>
    writeAll_keeps _ _ _ _) _

theorem consume_keeps (a : Head) : Pk.Keeps (consume a) := by
  unfold consume
  exact Pk.keeps_bind (writeOwn_keeps _ _ _ _) fun _ => Pk.keeps_bind (writeOwn_keeps _ _ _ _) fun _ =>
    Pk.keeps_upd fun _ hs => setQueue_memoryOk hs _ _

theorem writeCounter_keeps (p : Packet) : Op.Keeps MemOk (writeCounter p) := by
  unfold writeCounter
  extract_lets w
  refine Op.keeps_bind (checkAccess_keeps _ _ _ _) fun c => Op.keeps_bind (checkAccess_keeps _ _ _ _) fun e =>
    ?_
  refine Op.keeps_bind (needClean_keeps _ _) fun _ => Op.keeps_bind (Op.keeps_upd fun s hs => hs) fun _ => ?_
  extract_lets rest
  have hrest : ∀ u, Op.Keeps MemOk (rest u) := fun _ => Op.keeps_bind (rmw_keeps _ _ _) fun _ =>
    Op.keeps_pure _
  split
  · exact hrest ()
  · exact Op.keeps_bind (readAll_keeps _ _ _) fun _ => Op.keeps_bind (writeAll_keeps _ _ _ _) hrest

theorem complete_keeps (a : Head) (status code : Nat) : Pk.Keeps (complete a status code) := by
  unfold complete
  extract_lets _ p
  exact Pk.keeps_bind (Pk.keeps_ask _) fun _ => Pk.keeps_bind (Pk.keeps_need _ _) fun _ =>
    Pk.keeps_upd fun _ hs => addPacket_memoryOk hs _

/-! ### The start of a packet -/

theorem startPacket_memoryOk {s : State} (h : s.memoryOk = true) {hd : Head} {start : Head → Pk Unit}
    (hstart : ∀ hd, Pk.Keeps (start hd)) {u : Unit} {t : State} (e : startPacket hd start s = .ok (u, t)) :
    t.memoryOk = true := by
  unfold startPacket at e
  split at e
  next st c _ => exact (Pk.keeps_bind (complete_keeps hd st c) fun _ => consume_keeps hd).ok h e
  · exact (Pk.keeps_bind (hstart hd) fun _ => consume_keeps hd).ok h e

theorem runKind_memoryOk {s : State} (h : s.memoryOk = true) {start : Head → Pk Unit}
    (hstart : ∀ hd, Pk.Keeps (start hd)) (q : Nat) (kind : Nat → Bool) :
    (runKind q kind start s).memoryOk = true := by
  unfold runKind
  split
  · exact queueToError_memoryOk h q
  · exact h
  next hd s1 e =>
    extract_lets since t first read c
    have h1 : s1.memoryOk = true := (headOf_keeps q kind).ok h e
    have hsince : ∀ t s, s.memoryOk = true → (since t s).memoryOk = true :=
      fun _ _ hs => setQueue_memoryOk hs _ _
    have hc : c.2.memoryOk = true := by
      unfold c
      split
      · exact h1
      · exact State.memoryOk_pick h1
    split
    · exact queueToError_memoryOk hc q
    · exact hsince _ _ hc
    next e =>
      split
      · exact hsince _ _ hc
      · exact startPacket_memoryOk hc hstart e

theorem runPacket_memoryOk {s : State} (h : s.memoryOk = true) {start : Head → Pk Unit}
    (hstart : ∀ hd, Pk.Keeps (start hd)) (q k : Nat) : (runPacket q k start s).memoryOk = true :=
  runKind_memoryOk h hstart q _

/-! ### The simple kinds and the copies -/

theorem execNopPacket_endsOk {s : State} (h : s.memoryOk = true) (q : Nat) : EndsOk (execNopPacket q s) := by
  unfold execNopPacket
  exact endsOk_next (runPacket_memoryOk h (fun _ => Pk.keeps_bind (common_keeps _ _) fun _ =>
    complete_keeps _ _ _) _ _)

theorem execWait_endsOk {s : State} (h : s.memoryOk = true) (q : Nat) : EndsOk (execWait q s) := by
  unfold execWait
  exact endsOk_next (runPacket_memoryOk h (fun _ => Pk.keeps_bind (Pk.keeps_ask _) fun _ =>
    Pk.keeps_bind (Pk.keeps_need _ _) fun _ => Pk.keeps_bind (common_keeps _ _) fun _ =>
    complete_keeps _ _ _) _ _)

theorem execCounterAdd_endsOk {s : State} (h : s.memoryOk = true) (q : Nat) :
    EndsOk (execCounterAdd q s) := by
  unfold execCounterAdd
  refine endsOk_next ?_
  refine runPacket_memoryOk h ?_ _ _
  intro hd
  refine Pk.keeps_bind (common_keeps _ _) fun x => ?_
  refine Pk.keeps_bind (Pk.keeps_need _ _) fun x1 => ?_
  refine Pk.keeps_bind (needBounds_keeps _ _ _ _) fun x2 => ?_
  extract_lets w
  exact Pk.keeps_bind (Pk.keeps_lift (Op.keeps_bind (checkAccess_keeps _ _ _ _) fun _ =>
    Op.keeps_bind (needClean_keeps _ _) fun _ => Op.keeps_bind (rmw_keeps _ _ _) fun _ => Op.keeps_pure _) _)
    fun _ => complete_keeps _ _ _

theorem execCopy_endsOk {s : State} (h : s.memoryOk = true) (q : Nat) : EndsOk (execCopy q s) := by
  unfold execCopy
  exact endsOk_next (runPacket_memoryOk h (fun _ => Pk.keeps_bind (common_keeps _ _) fun _ =>
    Pk.keeps_bind (Pk.keeps_need _ _) fun _ => Pk.keeps_bind (needBounds_keeps _ _ _ _) fun _ =>
    Pk.keeps_bind (needBounds_keeps _ _ _ _) fun _ => Pk.keeps_upd fun _ hs => addPacket_memoryOk hs _) _ _)

theorem execReducingCopy_endsOk {s : State} (h : s.memoryOk = true) (q : Nat) :
    EndsOk (execReducingCopy q s) := by
  refine endsOk_next (runPacket_memoryOk h (fun hd => ?_) q 4)
  extract_lets x et op
  refine Pk.keeps_bind (common_keeps hd _) fun _ => ?_
  clear_value et op
  cases et with
  | none => exact Pk.keeps_pure _
  | some et =>
    cases op with
    | none => exact Pk.keeps_pure _
    | some op =>
      refine Pk.keeps_bind (Pk.keeps_need _ _) fun _ => Pk.keeps_bind (Pk.keeps_need _ _) fun _ => ?_
      refine Pk.keeps_bind (needBounds_keeps hd _ _ _) fun _ =>
        Pk.keeps_bind (needBounds_keeps hd _ _ _) fun _ => ?_
      exact Pk.keeps_upd fun s hs => hs

theorem execRejectedKindPacket_endsOk {s : State} (h : s.memoryOk = true) (q : Nat) :
    EndsOk (execRejectedKindPacket q s) := by
  unfold execRejectedKindPacket
  exact endsOk_next (runKind_memoryOk h (fun _ => common_keeps _ _) _ _)

theorem execAttest_endsOk {s : State} (h : s.memoryOk = true) (q : Nat) : EndsOk (execAttest q s) := by
  unfold execAttest
  refine endsOk_next ?_
  refine runPacket_memoryOk h ?_ _ _
  intro hd
  refine Pk.keeps_bind (common_keeps _ _) fun x => ?_
  refine Pk.keeps_bind (Pk.keeps_need _ _) fun x1 => ?_
  refine Pk.keeps_bind (needBounds_keeps _ _ _ _) fun x2 => ?_
  refine Pk.keeps_bind (Pk.keeps_ask _) fun body => ?_
  extract_lets report w
  exact Pk.keeps_bind (Pk.keeps_lift (Op.keeps_bind (checkAccess_keeps _ _ _ _) fun _ =>
    Op.keeps_bind (needClean_keeps _ _) fun _ => writeAll_keeps _ _ _ _) _) fun _ => complete_keeps _ _ _

theorem execBulkCopyChunk_endsOk {s : State} (h : s.memoryOk = true) (i : Nat) :
    EndsOk (execBulkCopyChunk i s) := by
  unfold execBulkCopyChunk
  split
  · exact endsOk_next h
  · extract_lets put m r pts
    have hput : ∀ u x2, u.memoryOk = true → (put u x2).memoryOk = true := by
      intro u x2 hu
      unfold put
      exact hu
    split
    · exact endsOk_next h
    · split
      · refine endsOk_next ?_
        split
        · exact hput _ _ (releaseWindow_memoryOk h _)
        · exact h
      · split
        · exact endsOk_next h
        · split
          · exact endsOk_next (hput _ _ (runChunk_memoryOk h _ _))
          · refine endsOk_next ?_
            split
            · split
              · exact hput _ _ (releaseWindow_memoryOk (runChunk_memoryOk h _ _) _)
              · exact hput _ _ (runChunk_memoryOk h _ _)
            · exact h
          · extract_lets s1
            have h1 : s1.memoryOk = true := by
              unfold s1
              split
              · exact errorLog_memoryOk (runChunk_memoryOk h _ _) _ _ _ _ _
              · exact runChunk_memoryOk h _ _
            exact endsOk_next (hput _ _ h1)

theorem execPacketCompletion_endsOk {s : State} (h : s.memoryOk = true) (i : Nat) :
    EndsOk (execPacketCompletion i s) := by
  unfold execPacketCompletion
  split
  · exact endsOk_next h
  next p _ =>
    split
    · exact endsOk_next h
    · extract_lets drop
      have hdrop : ∀ s, s.memoryOk = true → (drop s).memoryOk = true := fun _ hs => hs
      split
      · exact endsOk_next (hdrop s h)
      · split
        · exact endsOk_next (queueToError_memoryOk (hdrop s h) _)
        · split
          next e => exact endsOk_next (hdrop _ ((writeCounter_keeps p).ok h e))
          · exact endsOk_next (queueToError_memoryOk (hdrop s h) _)
          · exact endsOk_next h

theorem execQueueTimeSlice_endsOk {s : State} (h : s.memoryOk = true) : EndsOk (execQueueTimeSlice s) := by
  unfold execQueueTimeSlice
  split
  · exact endsOk_next h
  · extract_lets ready last turn keep n next _ s1 s2 _
    have h2 : s2.memoryOk = true := foldl_memoryOk (fun _ _ hs => mapQueue_memoryOk hs _) _ h
    exact endsOk_next h2

theorem execFrontEndReset_endsOk {s : State} (h : s.memoryOk = true) : EndsOk (execFrontEndReset s) := by
  unfold execFrontEndReset
  extract_lets c s1 ps p own again _ s2 s3 left _
  have h3 : s3.memoryOk = true := by
    unfold s3
    have h2 : s2.memoryOk = true := by
      unfold s2
      have h1 : s1.memoryOk = true := State.memoryOk_pick h
      exact h1
    exact errorLog_memoryOk h2 _ _ _ _ _
  exact endsOk_next h3

theorem execQueueError_endsOk {s : State} (h : s.memoryOk = true) (q : Nat) :
    EndsOk (execQueueError q s) := by
  unfold execQueueError
  refine endsOk_next ?_
  split
  · exact queueError_memoryOk h _
  · exact h

end Sys2Proof.Machine

/-! SUPPORT. Every step keeps the canonical form of every memory (O7): the launch packets. -/

namespace Sys2Proof.Machine
open Sys2Proof

theorem needBoundsUnless0_keeps (a : Head) (x n code : Nat) : Pk.Keeps (needBoundsUnless0 a x n code) := by
  unfold needBoundsUnless0
  split
  · exact Pk.keeps_pure _
  · exact needBounds_keeps _ _ _ _

theorem readRecord_keeps (a : Head) : Pk.Keeps (readRecord a) := by
  unfold readRecord
  exact Pk.keeps_bind (common_keeps _ _) fun _ => Pk.keeps_bind (Pk.keeps_need _ _) fun _ =>
    Pk.keeps_bind (needBounds_keeps _ _ _ _) fun _ => readField_keeps _ _ _ _

theorem readImage_keeps (a : Head) (named : List Nat) : Pk.Keeps (readImage a named) := by
  unfold readImage
  extract_lets img
  refine Pk.keeps_bind (needBounds_keeps _ _ _ _) fun x => ?_
  refine Pk.keeps_bind (readField_keeps _ _ _ _) fun x1 => ?_
  refine Pk.keeps_bind (Pk.keeps_need _ _) fun x2 => ?_
  refine Pk.keeps_bind (needBounds_keeps _ _ _ _) fun x3 => ?_
  extract_lets kc
  refine Pk.keeps_bind (readField_keeps _ _ _ _) fun tab => ?_
  extract_lets es
  exact Pk.keeps_bind (Pk.keeps_need _ _) fun _ => Pk.keeps_pure _

theorem Pk.keeps_map {α β : Type} {p : Pk α} (hp : Pk.Keeps p) (f : α → β) : Pk.Keeps (f <$> p) :=
  Pk.keeps_bind hp fun _ => Pk.keeps_pure _

theorem pickPk_keeps : Pk.Keeps (fun s => .ok s.pick : Pk Nat) := by
  intro s h a t e
  have ht : s.pick.2 = t := congrArg Prod.snd (Except.ok.inj e)
  exact ht ▸ State.memoryOk_pick h

/-! ### Acceptance -/

theorem fillContext_keeps (h : Head) (l : Launch) (i : ImageInfo) : Pk.Keeps (fillContext h l i) := by
  unfold fillContext
  extract_lets len w rest
  have hrest : ∀ args, Pk.Keeps (rest args) := by
    intro args
    refine Pk.keeps_bind (readField_keeps h _ _ _) fun data => Pk.keeps_bind pickPk_keeps fun c => ?_
    refine Pk.keeps_bind (Pk.keeps_need _ _) fun _ =>
      Pk.keeps_bind (Pk.keeps_lift (checkAccess_keeps _ _ _ _) _) fun ps => ?_
    refine Pk.keeps_bind (Pk.keeps_ask _) fun s => Pk.keeps_bind (Pk.keeps_need _ _) fun _ => ?_
    exact Pk.keeps_bind (Pk.keeps_lift (writeAll_keeps _ _ _ _) _) fun _ => Pk.keeps_pure _
  split
  · exact Pk.keeps_bind (Pk.keeps_pure _) hrest
  · exact Pk.keeps_bind (readField_keeps h _ _ _) hrest

theorem takeNumber_keeps : Pk.Keeps takeNumber := by
  rintro s h a t ⟨⟩
  exact h

theorem acceptLaunch_keeps (a : Head) (l : Launch) (i : ImageInfo) : Pk.Keeps (acceptLaunch a l i) := by
  unfold acceptLaunch
  refine Pk.keeps_bind (takeNumber_keeps) fun n => ?_
  refine Pk.keeps_bind (fillContext_keeps _ _ _) fun l1 => ?_
  refine Pk.keeps_bind (Pk.keeps_ask _) fun s => ?_
  extract_lets _ l2
  exact Pk.keeps_bind (Pk.keeps_upd fun _ hs => State.memoryOk_setDisp hs _) fun _ => Pk.keeps_pure _

theorem readGroup_keeps (a : Head) (count tab g : Nat) : Pk.Keeps (readGroup a count tab g) := by
  unfold readGroup
  extract_lets e n a1
  refine Pk.keeps_bind (Pk.keeps_need _ _) fun x => ?_
  split
  · exact Pk.keeps_pure _
  · refine Pk.keeps_bind (Pk.keeps_need _ _) fun x1 => ?_
    refine Pk.keeps_bind (Pk.keeps_lift (memRead_keeps _ _ _ _) _) fun raw => ?_
    extract_lets ms
    exact Pk.keeps_bind (Pk.keeps_need _ _) fun _ => Pk.keeps_pure _

theorem readGroups_keeps (a : Head) (count gtab : Nat) : Pk.Keeps (readGroups a count gtab) := by
  unfold readGroups
  split
  · exact Pk.keeps_pure _
  · refine Pk.keeps_bind (readField_keeps _ _ _ _) fun tab => ?_
    refine Pk.keeps_bind (Pk.keeps_mapM (fun _ => readGroup_keeps _ _ _ _) _) fun gs => ?_
    extract_lets gs1
    exact Pk.keeps_bind (Pk.keeps_need _ _) fun _ => Pk.keeps_pure _

/-! ### Resident launches -/

theorem startResident_keeps (h : Head) : Pk.Keeps (startResident h) := by
  unfold startResident
  refine Pk.keeps_bind (readRecord_keeps h) fun r => ?_
  extract_lets count map gtab rest
  have hrest : ∀ u, Pk.Keeps (rest u) := by
    intro u
    refine Pk.keeps_bind (readImage_keeps h _) fun i => Pk.keeps_bind (Pk.keeps_need _ _) fun _ => ?_
    refine Pk.keeps_bind (readGroups_keeps h _ _) fun groups => ?_
    extract_lets launch last
    have hlast : ∀ m, Pk.Keeps (last m) := by
      intro m
      refine Pk.keeps_bind (Pk.keeps_need _ _) fun _ => Pk.keeps_bind (Pk.keeps_need _ _) fun _ => ?_
      exact Pk.keeps_bind (Pk.keeps_need _ _) fun _ => Pk.keeps_bind (acceptLaunch_keeps h _ i) fun _ =>
        Pk.keeps_pure _
    split
    · exact Pk.keeps_bind (Pk.keeps_pure _) hlast
    · exact Pk.keeps_bind (readField_keeps h _ _ _) hlast
  refine Pk.keeps_bind (Pk.keeps_need _ _) fun _ => Pk.keeps_bind (Pk.keeps_need _ _) fun _ => ?_
  refine Pk.keeps_bind (needBoundsUnless0_keeps h _ _ _) fun _ =>
    Pk.keeps_bind (needBoundsUnless0_keeps h _ _ _) fun _ => ?_
  split
  · exact hrest ()
  · exact Pk.keeps_bind (needBounds_keeps h _ _ _) hrest

theorem execResidentLaunch_endsOk {s : State} (h : s.memoryOk = true) (q : Nat) :
    EndsOk (execResidentLaunch q s) := by
  unfold execResidentLaunch
  exact endsOk_next (runPacket_memoryOk h (fun _ => startResident_keeps _) _ _)

/-! ### Element launches -/

theorem readGraphRecord_keeps (a : Head) (graph : Nat) : Pk.Keeps (readGraphRecord a graph) := by
  unfold readGraphRecord
  refine Pk.keeps_bind (readField_keeps _ _ _ _) fun r => ?_
  extract_lets flags
  exact Pk.keeps_bind (Pk.keeps_need _ _) fun _ => Pk.keeps_pure _

theorem checkOwners_keeps (h : Head) (g : Graph) : Pk.Keeps (checkOwners h g) := by
  unfold checkOwners
  split
  · exact Pk.keeps_pure _
  next a _ =>
    intro s hs l t e
    change (match memRead (queueWho h.queue) .norm (BitVec.ofNat 64 a) (2 * g.count) s with
      | .error (.fault _) => _ | .error _ => _ | .ok (raw, s) => _ : Except Refuse (List Nat × State)) = _
        at e
    split at e
    · cases e; exact hs
    · cases e
    next raw u hu =>
      extract_lets entries named at e
      split at e
      · cases e
        exact (memRead_keeps _ _ _ _).ok hs hu
      · cases e

theorem readList_keeps (a : Head) (list ebase m arg : Nat) : Pk.Keeps (readList a list ebase m arg) := by
  unfold readList
  split
  · exact Pk.keeps_pure _
  · exact Pk.keeps_bind (readField_keeps _ _ _ _) fun _ => Pk.keeps_pure _

/-- The state in which an initial task is pending. -/
theorem createTask_yields (n : Nat) (t : Nat × Nat) : Op.Yields MemOk (createTask n t) := by
  unfold createTask
  refine Op.yields_bind Op.yields_now fun s hs => ?_
  split
  · exact Op.yields_pure hs
  next l _ =>
    refine Op.yields_after (ownerOf_keeps l t.1) fun own => Op.yields_bind Op.yields_now fun u hu => ?_
    exact Op.yields_pure (partitionDue_memoryOk (State.memoryOk_setLaunch hu _) _ _)

theorem createTasks_memoryOk {s : State} (h : s.memoryOk = true) (n : Nat) (ts : List (Nat × Nat)) :
    (createTasks n ts s).memoryOk = true :=
  foldl_memoryOk (fun _ t hs => orGraphError_memoryOk hs (createTask_yields n t) n) _ h

theorem startElement_keeps (h : Head) : Pk.Keeps (startElement h) := by
  unfold startElement
  refine Pk.keeps_bind (readRecord_keeps h) fun r => ?_
  extract_lets graph list ebase m nk radius limit rest
  have hrest : ∀ u, Pk.Keeps (rest u) := by
    intro u
    refine Pk.keeps_bind (readImage_keeps h _) fun i => Pk.keeps_bind (Pk.keeps_need _ _) fun _ => ?_
    extract_lets launch withGraph
    have hgraph : ∀ g, Pk.Keeps (withGraph g) := by
      intro g
      unfold withGraph
      extract_lets inside withPackages
      have hpackages : ∀ packages, Pk.Keeps (withPackages packages) := by
        intro packages
        refine Pk.keeps_bind (readList_keeps h _ _ _ _) fun ts => Pk.keeps_bind (Pk.keeps_need _ _) fun _ =>
          ?_
        refine Pk.keeps_bind (Pk.keeps_need _ _) fun _ => Pk.keeps_bind (Pk.keeps_need _ _) fun _ => ?_
        exact Pk.keeps_bind (acceptLaunch_keeps h _ i) fun l => Pk.keeps_upd fun _ hs =>
          createTasks_memoryOk hs _ _
      split
      · exact Pk.keeps_bind (Pk.keeps_pure _) hpackages
      next g => exact Pk.keeps_bind (Pk.keeps_need _ _) fun _ =>
        Pk.keeps_bind (checkOwners_keeps h g) hpackages
    split
    · exact Pk.keeps_bind (Pk.keeps_pure _) hgraph
    · exact Pk.keeps_bind (Pk.keeps_map (readGraphRecord_keeps h _) _) hgraph
  refine Pk.keeps_bind (Pk.keeps_need _ _) fun _ => Pk.keeps_bind (Pk.keeps_need _ _) fun _ => ?_
  refine Pk.keeps_bind (needBoundsUnless0_keeps h _ _ _) fun _ =>
    Pk.keeps_bind (needBoundsUnless0_keeps h _ _ _) fun _ => ?_
  split
  · exact hrest ()
  · exact Pk.keeps_bind (needBounds_keeps h _ _ _) hrest

theorem execElementLaunch_endsOk {s : State} (h : s.memoryOk = true) (q : Nat) :
    EndsOk (execElementLaunch q s) := by
  unfold execElementLaunch
  exact endsOk_next (runPacket_memoryOk h (fun _ => startElement_keeps _) _ _)

end Sys2Proof.Machine

/-! SUPPORT. Every step keeps the canonical form of every memory (O7): the host, the other packages, and
issue. -/

namespace Sys2Proof.Machine
open Sys2Proof

/-! ### The host -/

theorem setHostRead_memoryOk {s : State} (h : s.memoryOk = true) (v : Nat) :
    (setHostRead s v).memoryOk = true :=
  h

theorem hostFree_memoryOk {s : State} (h : s.memoryOk = true) (n : Nat) : (hostFree s n).memoryOk = true := by
  unfold hostFree
  extract_lets c
  exact setHostRead_memoryOk (State.memoryOk_pick h) _

theorem hostBefore_memoryOk {s : State} (h : s.memoryOk = true) (l : Loc) :
    (hostBefore l s).memoryOk = true := by
  unfold hostBefore
  exact pullFolds_memoryOk (hostTouch_memoryOk h _) _ _

theorem hostReadEvent_memoryOk {s : State} (h : s.memoryOk = true) (host : Bool) (p : Piece) :
    (hostReadEvent host p s).2.memoryOk = true := by
  unfold hostReadEvent
  split
  · extract_lets s1
    have h1 : s1.memoryOk = true := stampRead_memoryOk (hostBefore_memoryOk h _) _ _ _
    exact h1
  · exact readEvent_memoryOk h _ _ _

theorem hostWriteEvent_memoryOk {s : State} (h : s.memoryOk = true) (host : Bool) (p : Piece) (v : Nat) :
    (hostWriteEvent host p v s).memoryOk = true := by
  unfold hostWriteEvent
  split
  · extract_lets r
    have hr : r.2.memoryOk = true := stampWrite_memoryOk (hostBefore_memoryOk h _) _ _ _
    exact rawWrite_memoryOk (keepEarlier_memoryOk (State.memoryOk_setPts hr _ _) _ _) _ _ _
  · exact writeEvent_memoryOk h _ _ _ _

theorem hostEvent_memoryOk {s : State} (h : s.memoryOk = true) (host write : Bool) (value : Nat) (e : Ev)
    (x : HostPart) : (hostEvent host write value e x s).2.memoryOk = true := by
  unfold hostEvent
  extract_lets x1 g
  split
  · exact hostWriteEvent_memoryOk h _ _ _
  · exact hostReadEvent_memoryOk h _ _

theorem hostEvents_memoryOk {s : State} (h : s.memoryOk = true) (host write : Bool) (value : Nat)
    (es : List Ev) (x : HostPart) : (hostEvents host write value es x s).2.memoryOk = true := by
  induction es generalizing s x with
  | nil => exact h
  | cons e r ih => exact ih (hostEvent_memoryOk h _ _ _ e x) _

theorem setHostPart_memoryOk {s : State} (h : s.memoryOk = true) (x : HostPart) (keep : Bool) :
    (setHostPart s x keep).memoryOk = true :=
  h

theorem execHostAccess_endsOk {s : State} (h : s.memoryOk = true) (host write : Bool) (addr size value : Nat)
    : EndsOk (execHostAccess host write addr size value s) := by
  unfold execHostAccess
  extract_lets es i x todo r keep s1
  have h1 : s1.memoryOk = true := setHostPart_memoryOk (hostEvents_memoryOk h _ _ _ _ _) _ _
  split
  · exact endsOk_next (setHostPart_memoryOk h _ _)
  · refine endsOk_next ?_
    split
    · exact h1
    · split
      · exact hostFree_memoryOk h1 _
      · exact setHostRead_memoryOk h1 _

theorem execHostAtomicop_endsOk {s : State} (h : s.memoryOk = true) (host : Bool) (addr size : Nat)
    (op : HostOp) : EndsOk (execHostAtomicop host addr size op s) := by
  unfold execHostAtomicop
  extract_lets p r s1 r2
  split
  · exact endsOk_next h
  · split
    · exact endsOk_next (hostFree_memoryOk h _)
    · split
      · have h1 : s1.memoryOk = true := by
          unfold s1
          split
          · exact hostWriteEvent_memoryOk (hostReadEvent_memoryOk h _ _) _ _ _
          · exact hostReadEvent_memoryOk h _ _
        exact endsOk_next (setHostRead_memoryOk h1 _)
      · exact endsOk_next (setHostRead_memoryOk (rmwEvent_memoryOk h _ _ _) _)

/-! ### Other packages -/

theorem setExport_memoryOk {s : State} (h : s.memoryOk = true) {p : Peer} (hp : p.mem.wf = true)
    (handle : Nat) (e : List Export) : (setExport s p handle e).memoryOk = true := by
  unfold setExport
  extract_lets old
  exact setPeer_memoryOk
    (p := { p with exports := p.exports.filter (fun x => x.handle != handle) ++ e, past :=
      (old ++ p.past).eraseDups }) h hp

theorem peerStore_memoryOk {s : State} (h : s.memoryOk = true) (id addr n value : Nat) :
    (peerStore s id addr n value).memoryOk = true := by
  unfold peerStore
  extract_lets p
  exact writeEvent_memoryOk h _ _ _ _

theorem peerClaims_memoryOk {s : State} (h : s.memoryOk = true) (id : Nat) (pool : Option Nat) :
    (peerClaims s id pool).memoryOk = true := by
  unfold peerClaims
  extract_lets m
  split
  · extract_lets c
    exact setRx_memoryOk h _ _ _
  · split
    · exact h
    · extract_lets c s'
      split
      · split
        · exact setPoolChan_memoryOk (setRx_memoryOk h _ _ _) _ _
        · exact setRx_memoryOk h _ _ _
      · exact setRx_memoryOk h _ _ _

theorem peerFrees_memoryOk {s : State} (h : s.memoryOk = true) (id : Nat) (pool : Option Nat) :
    (peerFrees s id pool).memoryOk = true := by
  unfold peerFrees
  extract_lets m
  split
  · exact h
  · extract_lets c
    exact fillPending_memoryOk (setRx_memoryOk h _ _ _)

theorem peerWithdraws_memoryOk {s : State} (h : s.memoryOk = true) (id : Nat) (pool : Option Nat) :
    (peerWithdraws s id pool).memoryOk = true := by
  unfold peerWithdraws
  extract_lets m
  split
  · exact h
  · extract_lets _ s'
    split
    · exact setPoolChan_memoryOk (setRx_memoryOk h _ _ _) _ _
    · exact setRx_memoryOk h _ _ _

theorem rxAct_memoryOk {s : State} (h : s.memoryOk = true) (id : Nat) (pool : Option Nat)
    {f : State → Nat → Option Nat → State}
    (hf : ∀ s id pool, s.memoryOk = true → (f s id pool).memoryOk = true) :
    (rxAct s id pool f).memoryOk = true := by
  unfold rxAct
  extract_lets there
  split
  · exact h
  · exact hf s id pool h

theorem peerAct_memoryOk {s : State} (h : s.memoryOk = true) (id : Nat) (a : PeerAct) :
    (peerAct id a s).memoryOk = true := by
  unfold peerAct
  split
  · exact rxAct_memoryOk h _ _ fun _ _ _ hs => peerClaims_memoryOk hs _ _
  · exact rxAct_memoryOk h _ _ fun _ _ _ hs => peerFrees_memoryOk hs _ _
  · exact rxAct_memoryOk h _ _ fun _ _ _ hs => peerWithdraws_memoryOk hs _ _
  · split
    · exact peerJoins_memoryOk h _ _ _
    · exact h
  · split
    · exact peerSkips_memoryOk h _ _
    · exact h
  · split
    · exact finishEnds_memoryOk (peerEnds_memoryOk h _ _)
    · exact h
  · split
    · exact h
    · exact peerStore_memoryOk h _ _ _ _
  next p e => exact setExport_memoryOk h (peer?_mem_wf h e) _ _
  next p e => exact setExport_memoryOk h (peer?_mem_wf h e) _ _
  · exact h

end Sys2Proof.Machine

/-! SUPPORT. Every step keeps the canonical form of every memory (O7): fetch, the choice of a slot, the
passing of time. -/

namespace Sys2Proof.Machine
open Sys2Proof

/-! ### Fetch -/

theorem keepLine_memoryOk {s : State} (h : s.memoryOk = true) (w : Who) (line : Nat) (v : BitVec 512) :
    (keepLine w line v s).memoryOk = true := by
  unfold keepLine
  extract_lets rest put c
  have hput : ∀ (t : State) l, t.memoryOk = true → (put t l).memoryOk = true :=
    fun _ _ ht => State.memoryOk_setCore_mem ht _ rfl
  split
  · exact hput s rest h
  · exact hput c.2 _ (State.memoryOk_pick h)

theorem fetchLine_keeps (w : Who) (first va : Nat) : Op.Keeps MemOk (fetchLine w first va) := by
  unfold fetchLine
  extract_lets line rest
  have hrest : ∀ u, Op.Keeps MemOk (rest u) := by
    intro u
    refine Op.keeps_bind (translateFrom_keeps _ _ _ _ _) fun p s h a t e => ?_
    extract_lets loc v keep c at e
    have hkeep : ∀ s, s.memoryOk = true → (keep s).memoryOk = true := fun _ hs => keepLine_memoryOk hs _ _ _
    have hc : c.2.memoryOk = true := State.memoryOk_pick h
    clear_value keep c
    split at e
    · have ht : keep s = t := congrArg Prod.snd (Except.ok.inj e)
      exact ht ▸ hkeep s h
    · have ht := congrArg Prod.snd (Except.ok.inj e)
      change _ = t at ht
      rw [← ht]
      split
      · exact hc
      · exact hkeep _ hc
  split
  · exact Op.keeps_bind (Op.keeps_fail _) hrest
  · exact hrest ()

theorem lineClean_keeps (x : Fetched) (va n : Nat) : Op.Keeps MemOk (lineClean x va n) := by
  unfold lineClean
  exact Op.keeps_need _ _

theorem fetchWords_keeps (w : Who) (pc : Nat) : Op.Keeps MemOk (fetchWords w pc) := by
  unfold fetchWords
  refine Op.keeps_bind (fetchLine_keeps _ _ _) fun a => ?_
  refine Op.keeps_bind (lineClean_keeps _ _ _) fun x => ?_
  extract_lets n next
  split
  · exact Op.keeps_bind (lineClean_keeps _ _ _) fun _ => Op.keeps_pure _
  · exact Op.keeps_bind (fetchLine_keeps _ _ _) fun _ => Op.keeps_bind (lineClean_keeps _ _ _) fun _ =>
      Op.keeps_bind (lineClean_keeps _ _ _) fun _ => Op.keeps_pure _

theorem fetchNext_keeps : Op.Keeps MemOk (fetchNext) := by
  unfold fetchNext
  exact Op.keeps_bind (Op.keeps_ask _) fun _ => Op.keeps_bind (fetchWords_keeps _ _) fun _ => Op.keeps_pure _

theorem nextInstr_memoryOk {s : State} (h : s.memoryOk = true) {r : Instr × State} (e : nextInstr s = some r)
    : r.2.memoryOk = true := by
  unfold nextInstr at e
  split at e
  · cases e; exact h
  · split at e
    next q hq => cases e; exact fetchNext_keeps.ok (a := r.1) h hq
    · cases e; exact h
    · cases e

theorem execIllegalInstruction_endsOk {s : State} (h : s.memoryOk = true) (word : IWord) :
    EndsOk (execIllegalInstruction word s) := by
  unfold execIllegalInstruction
  exact endsOk_next (postFault_memoryOk h _ _)

theorem execInstructionFetchFault_endsOk {s : State} (h : s.memoryOk = true) :
    EndsOk (execInstructionFetchFault s) := by
  unfold execInstructionFetchFault
  split
  · exact endsOk_next (postFault_memoryOk h _ _)
  · exact endsOk_next h

/-! ### The choice of a slot -/

theorem runLimit_memoryOk {s : State} (h : s.memoryOk = true) (held : BitVec 4) (core : Nat) :
    (runLimit held core s).memoryOk = true := by
  unfold runLimit
  extract_lets k
  split
  · exact h
  · split
    · split
      · exact h
      · exact State.memoryOk_setCore_mem h _ rfl
    · exact State.memoryOk_setCore_mem h _ rfl

theorem execIssueRunLimit_endsOk {s : State} (h : s.memoryOk = true) : EndsOk (execIssueRunLimit s) := by
  unfold execIssueRunLimit
  exact endsOk_next (runLimit_memoryOk h _ _)

theorem acquire_memoryOk {s : State} (h : s.memoryOk = true) (i : Instr) : (acquire i s).memoryOk = true := by
  unfold acquire
  extract_lets t u takes
  split
  · exact h
  · exact State.memoryOk_setMe h _

theorem State.rest_memoryOk {s : State} (h : s.memoryOk = true) (core : Nat) :
    (State.rest s core).memoryOk = true := by
  unfold State.rest
  split
  · exact State.memoryOk_setCore_mem h _ rfl
  · exact h

theorem chooseSlot_memoryOk {s : State} (h : s.memoryOk = true) {held : BitVec 4} {core : Nat}
    {r : Nat × State} (e : chooseSlot held core s = some r) : r.2.memoryOk = true := by
  unfold chooseSlot at e
  extract_lets s1 k stay one same at e
  have h1 : s1.memoryOk = true := runLimit_memoryOk h _ _
  have hsame : same.2.memoryOk = true := State.memoryOk_setCore_mem h1 _ rfl
  clear_value s1 same
  split at e
  · cases e; exact hsame
  · split at e
    · cases e; exact State.memoryOk_setCore_mem h1 _ rfl
    · split at e
      · cases e; exact hsame
      · cases e

theorem issueOn_memoryOk {s : State} (h : s.memoryOk = true) {held : BitVec 4} {core : Nat}
    {r : Instr × State} (e : issueOn held core s = some r) : r.2.memoryOk = true := by
  unfold issueOn at e
  split at e
  · cases e
  · split at e
    next q hq =>
      obtain ⟨x, hx, rfl⟩ := Option.map_eq_some_iff.1 e
      have hq2 : q.2.memoryOk = true := chooseSlot_memoryOk h hq
      exact acquire_memoryOk (nextInstr_memoryOk (s := { q.2 with cur := 4 * core + q.1 }) hq2 hx) _
    · cases e

/-! ### The passing of time, and the schedule -/

theorem noteReady_memoryOk {s : State} (h : s.memoryOk = true) : (noteReady s).memoryOk = true := by
  unfold noteReady
  refine foldl_memoryOk (fun s1 q hs => ?_) _ h
  extract_lets x
  split
  · exact hs
  · split
    · exact setQueue_memoryOk hs _ _
    · exact hs

theorem State.elapse_memoryOk {s : State} (h : s.memoryOk = true) (n : Nat) : (s.elapse n).memoryOk = true :=
  State.memoryOk_congr (losePaths_memoryOk (noteReady_memoryOk h)) rfl rfl rfl rfl rfl

theorem nextTurn_memoryOk {s : State} (h : s.memoryOk = true) : (nextTurn s).2.memoryOk = true := by
  unfold nextTurn
  split
  · exact h
  · exact State.memoryOk_pick h

end Sys2Proof.Machine

/-! SUPPORT. Every step keeps the canonical form of every memory (O7): every instruction and event, and every
turn. -/

namespace Sys2Proof.Machine
open Sys2Proof

/-- Every instruction and every event ends in memories of canonical form. -/
theorem exec_endsOk {s : State} (h : s.memoryOk = true) (i : Instr) : EndsOk (exec i s) := by
  cases i with
  -- registers only
  | add | sub | mul | mulh | mulhu | and | or | xor | andn | shl | shr | sra | rotr | min | max | minu
  | maxu | clz | ctz | popc | sext | zext | bfx | bfi | sel | shadd | addi | andi | ori | xori | shli
  | shri | srai | li | addpc | addcb | cmp | pcmp | plog | qgetQn | qtryQf =>
    exact nextMe_endsOk h _ _
  | vadd | vsub | vmul | vmulh | vmin | vmax | vabs | vneg | vand | vor | vxor | vshl | vshr | vsra | vfadd
  | vfsub | vfmul | vfma | vfms | vfnma | vfmin | vfmax | vfabs | vfneg | vfdiv | vfsqrt | vrcpe | vrsqe
  | vexp2 | vlog2 | vcmp | vfcmp | vsel | vcvt | vq8 | vdq8 | vrdr | vwrr | vbcast | vins | vext | vperm
  | vshuf | vslide | vcompress | vexpand | vred | vdot | vlsig | kop | kmovToMask | kmovFromMask | kpop =>
    exact guarded_endsOk h (nextMe_endsOk h _ _) _ _
  | div | divu | rem | remu => exact divide_endsOk h _ _ _ _ _
  | beq | bne | blt | bge | bltu | bgeu | bp => exact branch_endsOk h _ _
  | j off => exact branch_endsOk h true off
  | jal => exact jumpTo_endsOk h _ _
  | jr | jalr => exact jumpReg_endsOk h _ _ _
  | nop => exact endsOk_next (State.memoryOk_advance h 4)
  | trap => exact endsOk_next (postFault_memoryOk h _ _)
  -- the record cache
  | rflush | rflushAll =>
    exact guarded_endsOk h (endsOk_next (State.memoryOk_advance (flushRecords_memoryOk h _) 12)) _ _
  -- the end of a thread set
  | retire => exact endsOk_next (tryEnd_memoryOk h _ fun _ hs => endTs_memoryOk hs ..)
  -- meanings with a lemma of their own
  | mfsr => exact execMfsr_endsOk h _ _
  | mtsr => exact execMtsr_endsOk h _ _
  | brk => exact execBrk_endsOk h _
  | ld => exact execLd_endsOk h _ _ _ _ _
  | st => exact execSt_endsOk h _ _ _ _ _
  | vld => exact execVld_endsOk h _ _ _ _ _
  | vst => exact execVst_endsOk h _ _ _ _ _
  | fence => exact execFence_endsOk h _ _
  | cwait => exact execCwait_endsOk h _ _ _
  | pf => exact execPf_endsOk h _ _
  | cwb => exact execCwb_endsOk h _ _
  | qput => exact execQput_endsOk h _
  | qgetQr => exact execQgetQr_endsOk h _
  | qtryQa => exact execQtryQa_endsOk h _ _
  | qtryQr => exact execQtryQr_endsOk h _ _
  | qtryQn => exact execQtryQn_endsOk h _ _
  | spawn => exact execSpawn_endsOk h _ _ _ _
  | tdefer => exact execTdefer_endsOk h _
  | bar => exact execBar_endsOk h _
  | barv => exact execBarv_endsOk h _ _
  | bwait => exact execBwait_endsOk h _ _
  | racq => exact execRacq_endsOk h _ _ _
  | rrel => exact execRrel_endsOk h _ _ _
  | rpeek => exact execRpeek_endsOk h _ _ _
  | fget => exact execFget_endsOk h _
  | freply => exact execFreply_endsOk h _ _ _
  | bwlease => exact execBwlease_endsOk h _ _ _
  | bwrel => exact execBwrel_endsOk h _ _
  | bwq => exact execBwq_endsOk h _ _
  | amo => exact execAmo_endsOk h _ _ _ _ _ _ _
  | amof => exact execAmof_endsOk h _ _ _ _ _ _
  | cas => exact execCas_endsOk h _ _ _ _ _ _ _
  | cas2 => exact execCas2_endsOk h _ _ _ _ _ _
  | mmac => exact execMmac_endsOk h _ _ _ _
  | mmacs => exact execMmacs_endsOk h _ _ _ _ _
  | mzero => exact execMzero_endsOk h _ _ _
  | mwld => exact execMwld_endsOk h _ _ _ _ _
  | mdrain => exact execMdrain_endsOk h _ _ _ _ _ _ _ _ _ _ _
  | mdrainq => exact execMdrainq_endsOk h _ _ _ _ _ _
  | mdraina => exact execMdraina_endsOk h _ _ _ _ _ _ _
  | mstat => exact execMstat_endsOk h _ _ _
  | mclrs => exact execMclrs_endsOk h _ _
  | mwait => exact execMwait_endsOk h _
  | vlds => exact execVlds_endsOk h _ _ _ _ _ _ _ _
  | vldx => exact execVldx_endsOk h _ _ _ _ _ _ _ _ _
  | vstx => exact execVstx_endsOk h _ _ _ _ _ _ _ _ _
  | vldb => exact execVldb_endsOk h _ _ _ _ _ _ _
  | cpy => exact execCpy_endsOk h _ _ _ _ _
  | cpy2d => exact execCpy2d_endsOk h _ _ _ _ _
  | cpyRs => exact execCpyRs_endsOk h _ _ _ _ _
  | cpyRd => exact execCpyRd_endsOk h _ _ _ _ _
  | cpyr => exact execCpyr_endsOk h _ _ _ _ _ _ _
  | get => exact execGet_endsOk h _ _ _ _ _ _ _
  | put => exact execPut_endsOk h _ _ _ _ _ _ _
  | stmap => exact execStmap_endsOk h _ _ _
  | stwb => exact execStwb_endsOk h _ _ _ _
  | stinv => exact execStinv_endsOk h _ _ _ _
  | pub => exact execPub_endsOk h _ _ _
  | coll => exact execColl_endsOk h _ _ _ _ _ _ _ _ _ _ _ _
  | resultWriteback => exact execResultWriteback_endsOk h _
  | queueBlockRelease => exact execQueueBlockRelease_endsOk h _
  | wake => exact execWake_endsOk h _
  | threadSetStart => exact execThreadSetStart_endsOk h _
  | matrixCommandStart => exact execMatrixCommandStart_endsOk h _
  | matrixCommandCompletion => exact execMatrixCommandCompletion_endsOk h _
  | tileEngineChunk => exact execTileEngineChunk_endsOk h _ _
  | tileCommandCompletion => exact execTileCommandCompletion_endsOk h _ _
  | regionMerge => exact execRegionMerge_endsOk h _
  | faultPost => exact execFaultPost_endsOk h _
  | spawnArrival => exact execSpawnArrival_endsOk h _
  | spawnAnswer => exact execSpawnAnswer_endsOk h _
  | dispatchPass => exact execDispatchPass_endsOk h _ _
  | taskReservation => exact execTaskReservation_endsOk h _ _ _
  | tdeferHoldExpiry => exact execTdeferHoldExpiry_endsOk h _ _ _
  | seamRoundStart => exact execSeamRoundStart_endsOk h _
  | seamRoundDone => exact execSeamRoundDone_endsOk h _ _
  | remoteClaimRequest => exact execRemoteClaimRequest_endsOk h _
  | remoteClaimAnswer => exact execRemoteClaimAnswer_endsOk h _
  | preempt => exact execPreempt_endsOk h _
  | coreResume => exact execCoreResume_endsOk h _ _
  | watchdogExpiry => exact execWatchdogExpiry_endsOk h _
  | haltNow => exact execHaltNow_endsOk h _
  | haltDrain => exact execHaltDrain_endsOk h _
  | haltDrainComplete => exact execHaltDrainComplete_endsOk h _
  | debugResume => exact execDebugResume_endsOk h _
  | chunkArrival => exact execChunkArrival_endsOk h _
  | translationFlush => exact execTranslationFlush_endsOk h _
  | translationFlushComplete => exact execTranslationFlushComplete_endsOk h _
  | bringUpStageDone => exact execBringUpStageDone_endsOk h _
  | forcePowerAlarm => exact execForcePowerAlarm_endsOk h _
  | pwrlim => exact execPwrlim_endsOk h _
  | mgmtRegisterWrite => exact execMgmtRegisterWrite_endsOk h _ _
  | keyLoad => exact execKeyLoad_endsOk h _
  | keyClear => exact execKeyClear_endsOk h _
  | biascmd => exact execBiascmd_endsOk h _
  | endcmd => exact execEndcmd_endsOk h _
  | powerAlarmRaise => exact execPowerAlarmRaise_endsOk h _
  | powerAlarmLower => exact execPowerAlarmLower_endsOk h _
  | queueActivation => exact execQueueActivation_endsOk h _
  | residentLaunch => exact execResidentLaunch_endsOk h _
  | elementLaunch => exact execElementLaunch_endsOk h _
  | copy => exact execCopy_endsOk h _
  | reducingCopy => exact execReducingCopy_endsOk h _
  | counterAdd => exact execCounterAdd_endsOk h _
  | wait => exact execWait_endsOk h _
  | attest => exact execAttest_endsOk h _
  | nopPacket => exact execNopPacket_endsOk h _
  | packetCompletion => exact execPacketCompletion_endsOk h _
  | bulkCopyChunk => exact execBulkCopyChunk_endsOk h _
  | gangPlacement => exact execGangPlacement_endsOk h _
  | queueError => exact execQueueError_endsOk h _
  | hostAccess => exact execHostAccess_endsOk h _ _ _ _ _
  | hostAtomicop => exact execHostAtomicop_endsOk h _ _ _ _
  | fenceTimeout => exact execFenceTimeout_endsOk h _
  | flitReceive => exact execFlitReceive_endsOk h _ _ _
  | channelRetrain => exact execChannelRetrain_endsOk h _
  | peerRetraining => exact execPeerRetraining_endsOk h _
  | peerFailed => exact execPeerFailed_endsOk h _
  | peerJoin => exact execPeerJoin_endsOk h _ _
  | importRequest => exact execImportRequest_endsOk h _ _ _ _ _ _ _
  | leaseFirstPass => exact execLeaseFirstPass_endsOk h _
  | retuneComplete => exact execRetuneComplete_endsOk h _
  | leaseGrant => exact execLeaseGrant_endsOk h _
  | leaseExpiry => exact execLeaseExpiry_endsOk h _
  | collectiveInstanceStart => exact execCollectiveInstanceStart_endsOk h _
  | collectiveChunk => exact execCollectiveChunk_endsOk h _
  | collectiveCompletion => exact execCollectiveCompletion_endsOk h _
  | illegalInstruction => exact execIllegalInstruction_endsOk h _
  | uncorrectableEccError => exact execUncorrectableEccError_endsOk h _
  | linkReturn => exact execLinkReturn_endsOk h _
  | channelRetrainComplete => exact execChannelRetrainComplete_endsOk h _
  | rejectedKindPacket => exact execRejectedKindPacket_endsOk h _
  | yield => exact execYield_endsOk h
  | fdrain => exact execFdrain_endsOk h
  | powerGood => exact execPowerGood_endsOk h
  | resetRequest => exact execResetRequest_endsOk h
  | keyCommandDone => exact execKeyCommandDone_endsOk h
  | biasFlipComplete => exact execBiasFlipComplete_endsOk h
  | endCommandComplete => exact execEndCommandComplete_endsOk h
  | queueTimeSlice => exact execQueueTimeSlice_endsOk h
  | instructionFetchFault => exact execInstructionFetchFault_endsOk h
  | powerLoss => exact execPowerLoss_endsOk h
  | issueRunLimit => exact execIssueRunLimit_endsOk h
  | frontEndReset => exact execFrontEndReset_endsOk h
  | hostLinkChange => exact execHostLinkChange_endsOk h

theorem unsplit_endsOk {o : Out} (h : EndsOk o) : EndsOk (unsplit o) := by
  cases o with
  | next s => exact endsOk_next (s := { s with split := false }) (h s rfl)
  | fault f => exact endsOk_fault f
  | refused r => rintro t ⟨⟩

theorem issueStep_endsOk {s : State} (h : s.memoryOk = true) (held : BitVec 4) (core : Nat) :
    EndsOk (issueStep held core s) := by
  unfold issueStep
  split
  next r e => exact exec_endsOk (issueOn_memoryOk h e) r.1
  · exact endsOk_next (State.rest_memoryOk h core)

theorem turnStep_endsOk {s : State} (h : s.memoryOk = true) (t : Turn) : EndsOk (turnStep t s) := by
  cases t with
  | event i => exact exec_endsOk h i
  | eventPart i => exact unsplit_endsOk (exec_endsOk (s := { s with split := true }) h i)
  | issue c => exact issueStep_endsOk h 0 c
  | issueHeld c held part =>
    cases part with
    | true => exact unsplit_endsOk (issueStep_endsOk (s := { s with split := true }) h held c)
    | false => exact issueStep_endsOk h held c
  | elapse n => exact endsOk_next (State.elapse_memoryOk h n)
  | peer id a => exact endsOk_next (peerAct_memoryOk h id a)
  | channel ch a => exact endsOk_next (channelAct_memoryOk h ch.val a)

/-- Settles O7: the turn of a step keeps the form, whatever instruction,
event or act of another party it is. -/
theorem stepKeepsMemoryForm : Obligations.StepKeepsMemoryForm := by
  unfold Obligations.StepKeepsMemoryForm
  intro s t h e
  exact turnStep_endsOk (nextTurn_memoryOk h) (nextTurn s).1 t e

end Sys2Proof.Machine
